-- ==== Sys2Proof/Word.lean ====
section
/-! DEFINITION. The word types of the Decusk, their plainest arithmetic, and what comes with a flit. -/

namespace Sys2Proof

/-- A byte of memory. -/
abbrev Byte := BitVec 8
/-- A 32-bit word: an instruction word, a literal word, a frame slot, a uniform register (R40, R68, R98). -/
abbrev Word := BitVec 32
/-- A 64-bit value, or a pair of registers (R43). -/
abbrev Dword := BitVec 64
/-- One bit for each of the at most 1,024 lanes of a team (R28). -/
abbrev LaneMask := BitVec 1024

/-- A finite map from numbers in one canonical form: keys strictly rising, no entry at the default value. -/
abbrev Fmap (α : Type) := List (Nat × α)

/-- Ceiling division. -/
def ceilDiv (a b : Nat) : Nat := (a + b - 1) / b

/-- `x` rounded up to a multiple of `m`. -/
def roundUp (x m : Nat) : Nat := ceilDiv x m * m

/-- Bits `hi` down to `lo` of a number (R6). -/
def bits (v hi lo : Nat) : Nat := (v >>> lo) % 2 ^ (hi + 1 - lo)

/-- One bit of a number as a truth value. -/
def bit (v i : Nat) : Bool := bits v i i == 1

/-- The number of a truth value. -/
def b2n (b : Bool) : Nat := if b then 1 else 0

/-- `n` bytes of a number, low byte first: everything in memory is little-endian (R40, R468). -/
def toBytes : Nat → Nat → List Byte
  | 0, _ => []
  | n + 1, v => BitVec.ofNat 8 v :: toBytes n (v / 256)

/-- The number whose little-endian bytes are given. -/
def ofBytes : List Byte → Nat
  | [] => 0
  | b :: bs => b.toNat + 256 * ofBytes bs

/-! ### What comes with a flit (Table 18-2) -/

/-- A read request's header: whether a demand waits for it, its op, and the bits that must be zero. -/
structure ReadHead where
  demand : Bool
  op : Nat
  mbz : Nat
deriving DecidableEq, Repr

/-- A write's poison bit for each word of its payload, and the bits that must be zero. -/
structure WriteHead where
  poison : BitVec 16
  mbz : Nat
deriving DecidableEq, Repr

/-- An atomic's width in bytes, the mode it is performed under, and the bits that must be zero. -/
structure AtomHead where
  width : Nat
  mode : BitVec 21
  mbz : Nat
deriving DecidableEq, Repr

/-- An operand of an atomic with its poison. -/
structure AtomWord where
  v : Dword
  p : Bool
deriving DecidableEq, Repr

/-- The old value that an atomic returns, with the poison bits of its words and the conditions raised. -/
structure AtomValue where
  v : Dword
  poison : BitVec 16
  conds : BitVec 5
deriving DecidableEq, Repr

end Sys2Proof
end

