-- ==== Sys2Proof/Config.lean ====
section
/-! DEFINITION. What is fixed for this part, and the values the spec leaves open (uninterpreted constants). -/

namespace Sys2Proof.Config

/-- Q, the cycles every outward effect is held (R37). -/
def Q : Nat := 64
/-- U, the accuracy of a strike's reported time (R37). -/
def U : Nat := 8
/-- S, the cycles within which a strike is reported (R37). -/
def S : Nat := 48
/-- Units of 32 bytes in one tile's Coolbox (R437). -/
def coolboxUnits : Nat := 1024
/-- Tiles, sides of a tile, team slots of a side, and tiles of a cluster (R25, R2). -/
def tiles : Nat := 512
def teamSlots : Nat := 32
def homes : Nat := 128
/-- Slots of one frame-store column (R89). -/
def columnSlots : Nat := 3072
/-- Young checkpoints a team may hold (R186). -/
def youngCheckpoints : Nat := 4
/-- First scratchpad address, bytes of a slice, and the first address above the region (R202, R203). -/
def scratchBase : Nat := 0xF00000000000
def sliceBytes : Nat := 0x100000
def scratchTop : Nat := 0xF00020000000

/-- FREE VALUE (R171-R173): the result of a special function where the spec gives only an error bound:
which of the representable values inside the bound is returned, by function, format and operand. -/
opaque specialPick : Nat → Nat → Nat → Nat
/-- FREE VALUE (R396): signatures, keys and certificates of the root of trust, by kind and message. -/
opaque trustBytes : Nat → List Byte → List Byte
/-- FREE VALUE: a value the spec leaves undetermined, by its serial number. -/
opaque freeValue : Nat → BitVec 64
/-- FREE VALUE (R322): does a tile keep the table entries of a walk made at a time? -/
opaque keepsTables : Nat → Bool
/-- FREE VALUE: a time, an order or a place the spec leaves undetermined, by its serial number. -/
opaque freeTime : Nat → Nat

end Sys2Proof.Config
end

