-- ==== Sys2Proof/Syntax.lean ====
section
/-! DEFINITION. The instruction set: one constructor for every row of spec/opcode_table.json.
An encoded instruction carries the fields its format gives it (R41) and the literal word or words that
follow it (R45; 0 where it carries none).  A step without an encoding carries what names the thing it
acts on (an effect, a team, a walk, a port) or the data that arrives from outside. -/

namespace Sys2Proof

/-- A 7-bit register field (R42). -/
abbrev Reg := BitVec 7

/-- Every step of the machine, in the order of the opcode table. -/
inductive Instr where
  -- Class 0x0, the instruction stream and control (R58-R62, R74-R82)
  /-- NOP (R58). -/
  | nop
  /-- MODE (R59). -/
  | mode (g : BitVec 4) (t : BitVec 5) (r : BitVec 3) (f s : BitVec 1) (b : BitVec 2) (n : BitVec 4)
  /-- REP (R61). -/
  | rep (c : BitVec 6) (d a b : BitVec 3)
  /-- BRA (R77). -/
  | bra (lit : Word)
  /-- JMP (R78). -/
  | jmp (a : Reg)
  /-- CALL (R79). -/
  | call (x : Reg) (lit : Word)
  /-- CALLR (R79). -/
  | callr (x : BitVec 7) (a : Reg)
  /-- RET (R80). -/
  | ret
  /-- EXIT (R81). -/
  | exit
  /-- YIELD (R82). -/
  | yield
  -- Class 0x1, integer (R109-R118)
  /-- ADD (R109). -/
  | add (w c : BitVec 1) (d a b : Reg) (lit : Word)
  /-- ADDC (R109). -/
  | addc (w c : BitVec 1) (d a b : Reg) (lit : Word)
  /-- SUB (R109). -/
  | sub (w c : BitVec 1) (d a b : Reg) (lit : Word)
  /-- SUBB (R109). -/
  | subb (w c : BitVec 1) (d a b : Reg) (lit : Word)
  /-- NEG (R109). -/
  | neg (w c : BitVec 1) (d a : Reg) (lit : Word)
  /-- MUL (R109). -/
  | mul (w c : BitVec 1) (d a b : Reg) (lit : Word)
  /-- MAD (R109). -/
  | mad (w c : BitVec 1) (d a b : Reg) (lit : Word)
  /-- ABS (R109). -/
  | abs (w c : BitVec 1) (d a : Reg) (lit : Word)
  /-- DIV (R110). -/
  | div (u w c : BitVec 1) (d a : Reg) (l : BitVec 4) (lit : Word)
  /-- REM (R110). -/
  | rem (u w c : BitVec 1) (d a : Reg) (l : BitVec 4) (lit : Word)
  /-- MIN (R109). -/
  | min (u w c : BitVec 1) (d a b : Reg) (lit : Word)
  /-- MAX (R109). -/
  | max (u w c : BitVec 1) (d a b : Reg) (lit : Word)
  /-- MULH (R109). -/
  | mulh (u w : BitVec 1) (d a b : Reg) (lit : Word)
  /-- MULW (R109). -/
  | mulw (u c : BitVec 1) (d a b : Reg) (lit : Word)
  /-- MADW (R109). -/
  | madw (u c : BitVec 1) (d a b : Reg) (lit : Word)
  /-- MOV (R112). -/
  | mov (w : BitVec 1) (d a : Reg) (lit : Word)
  /-- LDI (R112). -/
  | ldi (w : BitVec 1) (d : Reg) (lit lit2 : Word)
  /-- AND (R112). -/
  | and (w : BitVec 1) (d a b : Reg) (lit : Word)
  /-- OR (R112). -/
  | or (w : BitVec 1) (d a b : Reg) (lit : Word)
  /-- XOR (R112). -/
  | xor (w : BitVec 1) (d a b : Reg) (lit : Word)
  /-- ANDN (R112). -/
  | andn (w : BitVec 1) (d a b : Reg) (lit : Word)
  /-- NOT (R112). -/
  | not (w : BitVec 1) (d a : Reg) (lit : Word)
  /-- SHL (R112). -/
  | shl (w : BitVec 1) (d a b : Reg) (lit : Word)
  /-- SHR (R112). -/
  | shr (w : BitVec 1) (d a b : Reg) (lit : Word)
  /-- SHRA (R112). -/
  | shra (w : BitVec 1) (d a b : Reg) (lit : Word)
  /-- ROT (R112). -/
  | rot (w : BitVec 1) (d a b : Reg) (lit : Word)
  /-- POPC (R112). -/
  | popc (w : BitVec 1) (d a : Reg) (lit : Word)
  /-- CLZ (R112). -/
  | clz (w : BitVec 1) (d a : Reg) (lit : Word)
  /-- CTZ (R112). -/
  | ctz (w : BitVec 1) (d a : Reg) (lit : Word)
  /-- BREV (R112). -/
  | brev (w : BitVec 1) (d a : Reg) (lit : Word)
  /-- SEL (R117). -/
  | sel (w : BitVec 1) (d a b : Reg) (lit : Word)
  /-- BFX (R113). -/
  | bfx (u w : BitVec 1) (d a b : Reg) (lit : Word)
  /-- BFI (R113). -/
  | bfi (w : BitVec 1) (d a b : Reg) (lit : Word)
  /-- CMP_N (R116). -/
  | cmpN (w : BitVec 1) (a b : Reg) (lit : Word)
  /-- CMP_S (R116). -/
  | cmpS (w : BitVec 1) (a b : Reg) (lit : Word)
  /-- TST (R115). -/
  | tst (w : BitVec 1) (a b : Reg) (lit : Word)
  /-- FSHF (R114). -/
  | fshf (d a b : Reg) (lit : Word)
  /-- PERM (R114). -/
  | perm (d a b : Reg) (lit : Word)
  /-- LEA (R118). -/
  | lea (d a b : Reg) (lit : Word)
  /-- DOT4_N (R115). -/
  | dot4N (d a b : Reg) (lit : Word)
  /-- DOT4_S (R115). -/
  | dot4S (d a b : Reg) (lit : Word)
  /-- SAD (R115). -/
  | sad (d a b : Reg) (lit : Word)
  /-- GETCC (R115). -/
  | getcc (d : Reg) (lit : Word)
  /-- SETCC (R115). -/
  | setcc (a : Reg) (lit : Word)
  -- Class 0x2, cross-lane (R119-R126)
  /-- SHFL (R120). -/
  | shfl (v : BitVec 2) (w : BitVec 1) (d a b : Reg) (lit : Word)
  /-- VOTE_SOME (R121). -/
  | voteSome (d a : Reg) (lit : Word)
  /-- VOTE_EVERY (R121). -/
  | voteEvery (d a : Reg) (lit : Word)
  /-- VOTE_SAME (R121). -/
  | voteSame (d a : Reg) (lit : Word)
  /-- BALLOT (R122). -/
  | ballot (d a : Reg) (lit : Word)
  /-- SCAN (R125). -/
  | scan (o : BitVec 4) (d a : Reg) (lit : Word)
  /-- SCAN_EX (R125). -/
  | scanEx (o : BitVec 4) (d a : Reg) (lit : Word)
  /-- REDUCE (R126). -/
  | reduce (o : BitVec 4) (d a : Reg) (lit : Word)
  /-- MATCH (R121). -/
  | matchLane (w : BitVec 1) (d a : Reg) (lit : Word)
  /-- BCAST (R123). -/
  | bcast (w : BitVec 1) (d a b : Reg) (lit : Word)
  /-- KMOV (R123). -/
  | kmov (w : BitVec 1) (d a b : Reg) (lit : Word)
  -- Class 0x3, floating point (R162-R170)
  /-- FADD (R162). -/
  | fadd (c : BitVec 1) (d a b : Reg) (lit : Word)
  /-- FSUB (R162). -/
  | fsub (c : BitVec 1) (d a b : Reg) (lit : Word)
  /-- FMUL (R162). -/
  | fmul (c : BitVec 1) (d a b : Reg) (lit : Word)
  /-- FMA (R162). -/
  | fma (c : BitVec 1) (d a b : Reg) (lit : Word)
  /-- FNMA (R162). -/
  | fnma (c : BitVec 1) (d a b : Reg) (lit : Word)
  /-- FDIV (R163). -/
  | fdiv (c : BitVec 1) (d a : Reg) (l : BitVec 4) (lit : Word)
  /-- FSQRT (R163). -/
  | fsqrt (c : BitVec 1) (d a : Reg) (l : BitVec 4) (lit : Word)
  /-- FRCP (R163). -/
  | frcp (c : BitVec 1) (d a : Reg) (l : BitVec 4) (lit : Word)
  /-- FMIN (R164). -/
  | fmin (c : BitVec 1) (d a b : Reg) (lit : Word)
  /-- FMAX (R164). -/
  | fmax (c : BitVec 1) (d a b : Reg) (lit : Word)
  /-- FMINM (R164). -/
  | fminm (c : BitVec 1) (d a b : Reg) (lit : Word)
  /-- FMAXM (R164). -/
  | fmaxm (c : BitVec 1) (d a b : Reg) (lit : Word)
  /-- FABS (R165). -/
  | fabs (c : BitVec 1) (d a : Reg) (lit : Word)
  /-- FNEG (R165). -/
  | fneg (c : BitVec 1) (d a : Reg) (lit : Word)
  /-- FCPYS (R165). -/
  | fcpys (c : BitVec 1) (d a b : Reg) (lit : Word)
  /-- FCMP (R166). -/
  | fcmp (d a b : Reg) (lit : Word)
  /-- FCLASS (R167). -/
  | fclass (c : BitVec 1) (d a : Reg) (lit : Word)
  /-- FRINT (R168). -/
  | frint (c : BitVec 1) (d a : Reg) (lit : Word)
  /-- FSCALE (R169). -/
  | fscale (c : BitVec 1) (d a b : Reg) (lit : Word)
  /-- FGETX (R170). -/
  | fgetx (c : BitVec 1) (d a : Reg) (lit : Word)
  -- Class 0x4, special functions and conversions (R145-R154, R171)
  /-- SINPI (R171). -/
  | sinpi (d a : Reg) (l : BitVec 4) (lit : Word)
  /-- COSPI (R171). -/
  | cospi (d a : Reg) (l : BitVec 4) (lit : Word)
  /-- EXP2 (R171). -/
  | exp2 (d a : Reg) (l : BitVec 4) (lit : Word)
  /-- LOG2 (R171). -/
  | log2 (d a : Reg) (l : BitVec 4) (lit : Word)
  /-- RCPA (R171). -/
  | rcpa (d a : Reg) (l : BitVec 4) (lit : Word)
  /-- RSQA (R171). -/
  | rsqa (d a : Reg) (l : BitVec 4) (lit : Word)
  /-- TANH (R171). -/
  | tanh (d a : Reg) (l : BitVec 4) (lit : Word)
  /-- FMTLD (R153). -/
  | fmtld (a : Reg) (l : BitVec 4) (o : BitVec 1) (lit : Word)
  /-- FMTRD (R154). -/
  | fmtrd (d : Reg) (lit : Word)
  /-- CVT (R147). -/
  | cvt (d a b : Reg) (lit : Word)
  /-- CVTI (R148). -/
  | cvti (d a b : Reg) (lit : Word)
  /-- CVTF (R149). -/
  | cvtf (d a b : Reg) (lit : Word)
  /-- PACK (R150). -/
  | pack (d a b : Reg) (lit : Word)
  /-- UNPACK (R151). -/
  | unpack (d a b : Reg) (lit : Word)
  /-- SCALE (R152). -/
  | scale (d a b : Reg) (lit : Word)
  -- Class 0x5, memory and visibility (R219, R305)
  /-- LD (R222). -/
  | ld (t : BitVec 3) (d a : Reg) (l : BitVec 4) (o : BitVec 1) (lit : Word)
  /-- LDV (R223). -/
  | ldv (d a : Reg) (l : BitVec 4) (o : BitVec 1) (lit : Word)
  /-- LDK_B32 (R224). -/
  | ldkB32 (d a : Reg) (l : BitVec 4) (o : BitVec 1) (lit : Word)
  /-- LDK_B64 (R224). -/
  | ldkB64 (d a : Reg) (l : BitVec 4) (o : BitVec 1) (lit : Word)
  /-- LDMX (R228). -/
  | ldmx (d a : Reg) (l : BitVec 4) (o : BitVec 1) (lit : Word)
  /-- ACQ (R306). -/
  | acq (d a : Reg) (l : BitVec 4) (o : BitVec 1) (lit : Word)
  /-- PREF (R226). -/
  | pref (a b : Reg) (lit : Word)
  /-- ST (R225). -/
  | st (n : BitVec 2) (d a b : Reg) (lit : Word)
  /-- STV (R225). -/
  | stv (d a b : Reg) (lit : Word)
  /-- STMX (R229). -/
  | stmx (d a b : Reg) (lit : Word)
  /-- REL (R307). -/
  | rel (d a b : Reg) (lit : Word)
  /-- FLUSH (R227). -/
  | flush (a b : Reg) (lit : Word)
  /-- INVL (R227). -/
  | invl (a b : Reg) (lit : Word)
  /-- FENCE (R308). -/
  | fence (s : BitVec 7)
  -- Class 0x6, atomics (R275-R293)
  /-- ATOM (R282). -/
  | atom (op : BitVec 4) (w : BitVec 1) (d a : Reg) (l : BitVec 4) (o : BitVec 1) (lit : Word)
  /-- ACAS (R284). -/
  | acas (w : BitVec 1) (d a : Reg) (l : BitVec 4) (o : BitVec 1) (lit : Word)
  /-- AFADD (R285). -/
  | afadd (d a : Reg) (l : BitVec 4) (o : BitVec 1) (lit : Word)
  /-- AFMM (R286). -/
  | afmm (d a : Reg) (l : BitVec 4) (o m : BitVec 1) (lit : Word)
  /-- ARED (R283). -/
  | ared (op : BitVec 4) (w : BitVec 1) (d a b : Reg) (lit : Word)
  /-- APROG (R291). -/
  | aprog (d a : Reg) (l : BitVec 4) (o : BitVec 1) (lit : Word)
  /-- APLOAD (R290). -/
  | apload (a b : Reg) (lit : Word)
  -- Class 0x7, copies, barriers and counters (R231-R246, R403-R421)
  /-- CPL (R236). -/
  | cpl (d a b : Reg) (lit : Word)
  /-- CPF (R237). -/
  | cpf (d a b : Reg) (lit : Word)
  /-- CPT (R240). -/
  | cpt (d a b : Reg) (lit : Word)
  /-- CPM (R242). -/
  | cpm (d a b : Reg) (lit : Word)
  /-- BINIT (R408). -/
  | binit (d a b : Reg) (lit : Word)
  /-- ARRIVE (R408). -/
  | arrive (a b : Reg) (lit : Word)
  /-- EXPECT (R408). -/
  | expect (d a b : Reg) (lit : Word)
  /-- WAIT (R411). -/
  | wait (d a b : Reg) (lit : Word)
  /-- CADD (R410). -/
  | cadd (d a b : Reg) (lit : Word)
  /-- CREAD (R412). -/
  | cread (d a : Reg) (l : BitVec 4) (o : BitVec 1) (lit : Word)
  /-- BSEAL (R414). -/
  | bseal (a : Reg) (lit : Word)
  /-- BWAIT (R414). -/
  | bwait (a : Reg) (lit : Word)
  /-- STALLRD (R421). -/
  | stallrd (d a : Reg) (lit : Word)
  -- Class 0x8, the matrix engine (R255)
  /-- MCFG (R254). -/
  | mcfg (a : Reg) (lit : Word)
  /-- MLDB (R263). -/
  | mldb (d a : Reg) (lit : Word)
  /-- MMA (R264). -/
  | mma (d a : Reg) (lit : Word)
  /-- MMAS (R264). -/
  | mmas (d a : Reg) (lit : Word)
  /-- MZERO (R268). -/
  | mzero (d a : Reg) (lit : Word)
  /-- MSTORE (R269). -/
  | mstore (d a : Reg) (lit : Word)
  /-- MDRAIN (R269). -/
  | mdrain (d a : Reg) (lit : Word)
  /-- MRUN (R270). -/
  | mrun (d a : Reg) (lit : Word)
  -- Class 0x9, queues and launch (R435, R451)
  /-- QMAP (R436). -/
  | qmap (d a : Reg) (lit : Word)
  /-- QUNMAP (R436). -/
  | qunmap (d : Reg) (lit : Word)
  /-- QSTAT (R436). -/
  | qstat (d a : Reg) (lit : Word)
  /-- QNOTIFY (R436). -/
  | qnotify (d : Reg) (lit : Word)
  /-- SPAWN (R460). -/
  | spawn (d a b : Reg) (lit : Word)
  /-- GROW (R453). -/
  | grow (d a : Reg) (lit : Word)
  /-- JOB (R455). -/
  | job (a b : Reg) (lit : Word)
  /-- LAUNCH (R452). -/
  | launch (d a b : Reg) (lit : Word)
  -- Class 0xA, the equivalence engine (R344)
  /-- EQSET (R346). -/
  | eqset (a : Reg) (lit : Word)
  /-- UNITE (R348). -/
  | unite (d a : Reg) (l : BitVec 4) (lit : Word)
  /-- FIND (R348). -/
  | find (d a : Reg) (l : BitVec 4) (lit : Word)
  /-- SAME (R348). -/
  | same (d a : Reg) (l : BitVec 4) (lit : Word)
  /-- RELABEL (R359). -/
  | relabel (a : Reg) (lit : Word)
  /-- EQSNAP (R356). -/
  | eqsnap (d : Reg) (lit : Word)
  /-- EQUNDO (R356). -/
  | equndo (d : Reg) (lit : Word)
  /-- EQDROP (R356). -/
  | eqdrop (d : Reg) (lit : Word)
  /-- EQSIZE (R352). -/
  | eqsize (d : Reg) (lit : Word)
  /-- EQFENCE (R353). -/
  | eqfence
  -- Class 0xB, system, binding and privileged words (R174, R331, R334, R67)
  /-- REGION (R187). -/
  | region
  /-- SIGCHK (R194). -/
  | sigchk (lit : Word)
  /-- SIGSET (R195). -/
  | sigset (lit : Word)
  /-- TRAP (R196). -/
  | trap (lit : Word)
  /-- SYSC (R196). -/
  | sysc (d a : Reg) (lit : Word)
  /-- BRK (R196). -/
  | brk
  /-- MFS (R176). -/
  | mfs (d : Reg) (lit : Word)
  /-- MTS (R177). -/
  | mts (b : Reg) (lit : Word)
  /-- BIND (R332). -/
  | bind (a b : Reg) (lit : Word)
  /-- UNBIND (R332). -/
  | unbind (a : Reg) (lit : Word)
  /-- TLBINV (R334). -/
  | tlbinv (a b : Reg) (lit : Word)
  /-- WCS (R67). -/
  | wcs (a b : Reg) (lit : Word)
  -- Class 0xF, macro invocation (R63)
  /-- MACRO (R64). -/
  | macroRun (n : BitVec 7) (d a b : Reg)
  -- Steps that no instruction word encodes: engines, home slices, dispatcher, Ranger, ports and the outside world
  /-- CHECKPOINT_SETTLE (R186). -/
  | checkpointSettle (uid : Nat)
  /-- RESULT_LANDS (R46). -/
  | resultLands (uid pid : Nat)
  /-- COOLBOX_RELEASE (R437). -/
  | coolboxRelease (id : Nat)
  /-- RELEASE_WRITE (R299). -/
  | releaseWrite (id : Nat)
  /-- L1_EVICTION (R212). -/
  | l1Eviction (tile ctx va : Nat)
  /-- ACKNOWLEDGEMENT (R308). -/
  | acknowledgement (id : Nat)
  /-- ATOMIC_PERFORM (R281). -/
  | atomicPerform (id : Nat)
  /-- HOME_COMMIT (R288). -/
  | homeCommit (id : Nat)
  /-- APROG_RUN (R291). -/
  | aprogRun (id : Nat)
  /-- APROG_TIMEOUT (R292). -/
  | aprogTimeout (id : Nat)
  /-- MOVED (R293). -/
  | moved (id : Nat)
  /-- TRAP_RECORD_POST (R180). -/
  | trapRecordPost (id : Nat)
  /-- FAULT_RECORD_POST (R325). -/
  | faultRecordPost (id : Nat)
  /-- ERROR_RECORD_POST (R198). -/
  | errorRecordPost (id : Nat)
  /-- ARRAY_REBUILD (R216). -/
  | arrayRebuild (tile kind row address : Nat) (other : Option (Nat × Nat))
  /-- RUCKSACK_SPILL (R91). -/
  | rucksackSpill (uid lane : Nat)
  /-- RUCKSACK_REFILL (R91). -/
  | rucksackRefill (uid lane : Nat)
  /-- COPY_SEGMENT (R244). -/
  | copySegment (cid : Nat)
  /-- COPY_WRITE_LANDS (R234). -/
  | copyWriteLands (cid : Nat)
  /-- CPM_ACKNOWLEDGEMENT (R242). -/
  | cpmAcknowledgement (cid tile : Nat)
  /-- COMMAND_START (R260). -/
  | commandStart (tile mid : Nat)
  /-- MLDB_SEGMENT (R263). -/
  | mldbSegment (tile mid : Nat)
  /-- MMA_ROW (R264). -/
  | mmaRow (tile mid : Nat)
  /-- MZERO_ROW (R268). -/
  | mzeroRow (tile mid : Nat)
  /-- MSTORE_ROW (R269). -/
  | mstoreRow (tile mid : Nat)
  /-- MDRAIN_READ (R269). -/
  | mdrainRead (tile mid : Nat)
  /-- MDRAIN_LANDING (R269). -/
  | mdrainLanding (tile mid : Nat)
  /-- ROW_COMMIT (R271). -/
  | rowCommit (tile hid : Nat)
  /-- COMMAND_RETIRE (R262). -/
  | commandRetire (tile mid : Nat)
  /-- PARENT_READ (R342). -/
  | parentRead (wid : Nat)
  /-- LOWER_STEP (R340). -/
  | lowerStep (wid : Nat)
  /-- LINK_STEP (R340). -/
  | linkStep (wid : Nat)
  /-- ADD_STEP (R340). -/
  | addStep (wid : Nat)
  /-- SAME_STEP (R348). -/
  | sameStep (wid : Nat)
  /-- RELABEL_RUN (R359). -/
  | relabelRun (rid : Nat)
  /-- MARK_OPERATION (R356). -/
  | markOperation (rid : Nat)
  /-- EQ_COMMIT (R363). -/
  | eqCommit (hid : Nat)
  /-- FOREST_RELEASE (R338). -/
  | forestRelease (fid : Nat)
  /-- BARRIER_ARRIVAL (R408). -/
  | barrierArrival (id : Nat)
  /-- EXPECTATION (R408). -/
  | expectation (id : Nat)
  /-- ENGINE_CREDIT (R408). -/
  | engineCredit (id : Nat)
  /-- WAIT_WAKE (R411). -/
  | waitWake (uid : Nat)
  /-- BINDING_UPDATE (R332). -/
  | bindingUpdate (id : Nat)
  /-- RESERVATION_GRANT (R428). -/
  | reservationGrant (uid : Nat)
  /-- LINK_CREDIT (R427). -/
  | linkCredit (ctx entry : Nat)
  /-- STRIKE_REPORT (R439). -/
  | strikeReport (time sensor area : Nat)
  /-- ADMISSION (R447). -/
  | admission (wid tile : Nat)
  /-- TEAM_END (R81). -/
  | teamEnd (uid : Nat)
  /-- HAMPER_TIMER (R457). -/
  | hamperTimer (cluster hamper : Nat)
  /-- TEAM_EVICTION (R463). -/
  | teamEviction (uid : Nat)
  /-- READMISSION (R467). -/
  | readmission (gid tile : Nat)
  /-- TIMETABLE_SLOT (R464). -/
  | timetableSlot (entry : Nat)
  /-- DEFERRED_LAUNCH (R465). -/
  | deferredLaunch (entry : Nat)
  /-- WATCHDOG (R417). -/
  | watchdog (ctx : Nat)
  /-- QUEUE_ENTRY_WRITE (R426). -/
  | queueEntryWrite (tile entry : Nat) (hi lo : Dword)
  /-- CLKMODE_WRITE (R419). -/
  | clkmodeWrite (v : Dword)
  /-- NOTIFY_READ (R383). -/
  | notifyRead (thread : Nat)
  /-- REGISTER_WRITE (R381). -/
  | registerWrite (pa n : Nat) (v : Dword)
  /-- LINK_READ (R388). -/
  | linkRead (port tag : Nat) (ctx : Option Nat) (va n : Nat) (demand : ReadHead)
  /-- LINK_WRITE (R388). -/
  | linkWrite (port tag : Nat) (ctx : Option Nat) (va : Nat) (bytes : List Byte) (poison : WriteHead)
  /-- READ_DATA (R388). -/
  | readData (port tag : Nat) (bytes : List Byte) (poison : BitVec 16)
  /-- WRITE_ACKNOWLEDGEMENT (R388). -/
  | writeAcknowledgement (port tag : Nat)
  /-- REFUSED (R390). -/
  | refused (port tag : Nat)
  /-- ERROR_RESPONSE (R388). -/
  | errorResponse (port tag : Nat)
  /-- LINK_ATOMIC (R278). -/
  | linkAtomic (port tag pa op : Nat) (w : AtomHead) (x y : AtomWord)
  /-- ATOMIC_RESULT (R388). -/
  | atomicResult (port tag : Nat) (v : AtomValue)
  /-- HOST_TIMEOUT (R392). -/
  | hostTimeout (port tag : Nat)
  /-- ORDERING_POINT_ACCESS (R294). -/
  | orderingPointAccess (id : Nat)
  /-- RANGER_LOAD_STORE (R312). -/
  | rangerLoadStore (pa n : Nat) (store : Bool) (v : Dword)
  /-- HUB_HOLD_RELEASE (R438). -/
  | hubHoldRelease (id : Nat)
  /-- RESUME (R182). -/
  | resume (tile slot : Nat)
  /-- REDIRECT (R183). -/
  | redirect (tile slot : Nat)
  /-- KILL_TEAM (R182). -/
  | killTeam (tile slot : Nat)
  /-- KILL_CONTEXT (R182). -/
  | killContext (tile slot : Nat)
  /-- RESUMEPC_WRITE (R184). -/
  | resumepcWrite (tile slot : Nat) (v : Dword)
  /-- REPLAY (R326). -/
  | replay (tile slot seq : Nat)
  /-- UNRESOLVABLE (R326). -/
  | unresolvable (tile slot seq : Nat)
  /-- PREEMPT (R466). -/
  | preempt (tile slot : Nat) (v : Dword)
  /-- PORT_BRING_UP (R385). -/
  | portBringUp (port peer : Nat)
  /-- LOSS_OF_LOCK (R387). -/
  | lossOfLock (port wave : Nat)
  /-- TRAINING_DONE (R385). -/
  | trainingDone (port failed : Nat) (spareOk : Bool)
  /-- BACK_INVALIDATE (R394). -/
  | backInvalidate (pa : Nat)
  /-- CXL_FAILURE (R395). -/
  | cxlFailure (port : Nat)
  /-- PTP_EVENT_MESSAGE (R396). -/
  | ptpEventMessage (nic : Nat) (master : Dword) (error : Nat)
  /-- CLOCK_LOCK (R419). -/
  | clockLock (ptp : Dword)
  /-- HOLDOVER (R396). -/
  | holdover
  /-- CLKPAIR_LATCH (R418). -/
  | clkpairLatch
  /-- POWER_GRANT (R399). -/
  | powerGrant (grants : List Nat)
  /-- POWER_LIMIT (R399). -/
  | powerLimit (watts : Nat)
  /-- DROOP (R400). -/
  | droop (tile cycles : Nat)
  /-- EMERGENCY_THROTTLE_BEGIN (R401). -/
  | emergencyThrottleBegin
  /-- EMERGENCY_THROTTLE_END (R401). -/
  | emergencyThrottleEnd
  /-- ORDERLY_SHUTDOWN (R401). -/
  | orderlyShutdown
  /-- POWER_OFF (R401). -/
  | powerOff
  /-- PACKAGE_RESET (R402). -/
  | packageReset
  /-- GET_VERSION (R397). -/
  | getVersion
  /-- GET_CAPABILITIES (R397). -/
  | getCapabilities (req : List Byte)
  /-- NEGOTIATE_ALGORITHMS (R397). -/
  | negotiateAlgorithms (req : List Byte)
  /-- GET_DIGESTS (R397). -/
  | getDigests
  /-- GET_CERTIFICATE (R397). -/
  | getCertificate (slot offset len : Nat)
  /-- CHALLENGE (R397). -/
  | challenge (slot : Nat) (nonce : List Byte)
  /-- GET_MEASUREMENTS (R398). -/
  | getMeasurements (index : Nat) (sign : Bool) (nonce : List Byte)
  /-- KEY_EXCHANGE (R397). -/
  | keyExchange (req : List Byte)
  /-- FINISH (R397). -/
  | finish (req : List Byte)
  /-- END_SESSION (R397). -/
  | endSession
  /-- NULL (R371). -/
  | nullCall (ctx : Nat) (id : Dword)
  /-- LAUNCH_CALL (R445). -/
  | launchCall (ctx : Nat) (id : Dword) (record : Nat)
  /-- LAUNCHWAIT (R371). -/
  | launchwait (ctx : Nat) (id handle : Dword)
  /-- MAP (R371). -/
  | mapCall (ctx : Nat) (id : Dword) (va pages : Nat) (attr : Dword) (frames : List Nat)
  /-- UNMAP (R371). -/
  | unmap (ctx : Nat) (id : Dword) (va pages : Nat)
  /-- QCREATE (R425). -/
  | qcreate (ctx : Nat) (id : Dword) (kind : Nat) (args : List Dword)
  /-- QDESTROY (R371). -/
  | qdestroy (ctx : Nat) (id handle : Dword)
  /-- BINDTHREAD (R425). -/
  | bindthread (ctx : Nat) (id : Dword) (thread : Nat)
  /-- TIME (R418). -/
  | timeCall (ctx : Nat) (id : Dword)
  /-- TIMETABLE_CALL (R464). -/
  | timetableCall (ctx : Nat) (id : Dword) (entry : Nat) (hi lo : Dword)
  /-- LOADPKG (R374). -/
  | loadpkg (ctx : Nat) (id : Dword) (args : List Dword)
  /-- MIGRATE (R380). -/
  | migrate (ctx : Nat) (id target : Dword)
  /-- EXIT_CALL (R371). -/
  | exitCall (ctx : Nat) (id code : Dword)
  /-- LOG (R371). -/
  | logCall (ctx : Nat) (id : Dword) (va len : Nat)
  /-- MIGRATION_STREAM (R380). -/
  | migrationStream (ctx : Nat) (image : List Byte)
  /-- RESUMPTION_CONFIRMED (R380). -/
  | resumptionConfirmed (ctx : Nat)
deriving DecidableEq, Repr

end Sys2Proof
end

