-- ==== Sys2Proof/Decode.lean ====
section
/-! DEFINITION. Decoding of instruction words, total and rejecting by name, and the encoder.

The decoder reads the opcode table of the spec (R52-R54): a row is a mask and a pattern for the eleven
opcode bits 31:21 and what the remaining fields mean.  It decides the causes ZERO_WORD, ILLEGAL_OPCODE
and the word's own ILLEGAL_ENCODING faults (R56); the causes that depend on the mode, on the register
file or on the privilege of the issuer are decided where an instruction issues (Machine/Operands.lean). -/

namespace Sys2Proof

/-- Why a word is no instruction (R56). -/
inductive DecodeError where
  /-- All 32 bits are zero. -/
  | zeroWord
  /-- The opcode is unassigned (R52). -/
  | illegalOpcode
  /-- A field that must be zero is not, a sub value is unassigned, or a displacement is unaligned. -/
  | illegalEncoding
deriving DecidableEq, Repr

/-- The fields below the opcode of a word, and the literal words that follow it. -/
structure Fields where
  d : Reg
  a : Reg
  b : Reg
  lit : Word
  lit2 : Word
deriving DecidableEq, Repr

/-- `n` bits of `v` from bit `lo` up. -/
def ext (v : BitVec w) (lo n : Nat) : BitVec n := v.extractLsb' lo n

/-- The lookahead field of a Format L word (R41). -/
def Fields.la (f : Fields) : BitVec 4 := ext f.b 3 4

/-- Bits 20:0 of the word, for Formats M and P. -/
def Fields.low (f : Fields) : BitVec 21 := f.d ++ f.a ++ f.b

/-- An instruction, given that its encoding is legal. -/
def given (c : Bool) (i : Instr) : Option Instr := if c then some i else none

/-- A row of the opcode table: the opcode bits it fixes, their values, and the instruction it gives. -/
abbrev Row := Nat × Nat × (BitVec 11 → Fields → Option Instr)

/-- Class 0x0 of the opcode map (R52-R54, Tables 3-6 and 3-7). -/
def rows0 : List Row := [
  (0x7FF, 0x001, fun _ f => given (f.d == 0 && f.a == 0 && f.b == 0) .nop),
  (0x7FF, 0x002, fun _ f => given (ext f.low 0 1 == 0) (.mode (ext f.low 17 4) (ext f.low 12 5) (ext f.low 9 3) (ext f.low 8 1) (ext f.low 7 1) (ext f.low 5 2) (ext f.low 1 4))),
  (0x7FF, 0x003, fun _ f => given (ext f.low 0 6 == 0) (.rep (ext f.low 15 6) (ext f.low 12 3) (ext f.low 9 3) (ext f.low 6 3))),
  (0x7FF, 0x004, fun _ f => given (f.d == 0 && f.a == 0 && f.b == 0 && ext f.lit 0 2 == 0) (.bra f.lit)),
  (0x7FF, 0x005, fun _ f => given (f.d == 0 && f.b == 0) (.jmp f.a)),
  (0x7FF, 0x006, fun _ f => given (f.a == 0 && f.b == 0 && ext f.lit 0 2 == 0) (.call f.d f.lit)),
  (0x7FF, 0x007, fun _ f => given (f.b == 0) (.callr f.d f.a)),
  (0x7FF, 0x008, fun _ f => given (f.d == 0 && f.a == 0 && f.b == 0) .ret),
  (0x7FF, 0x009, fun _ f => given (f.d == 0 && f.a == 0 && f.b == 0) .exit),
  (0x7FF, 0x00A, fun _ f => given (f.d == 0 && f.a == 0 && f.b == 0) .yield)]

/-- Class 0x1 of the opcode map (R52-R54, Tables 3-6 and 3-7). -/
def rows1 : List Row := [
  (0x7FC, 0x080, fun o f => some (.add (ext o 1 1) (ext o 0 1) f.d f.a f.b f.lit)),
  (0x7FC, 0x084, fun o f => some (.addc (ext o 1 1) (ext o 0 1) f.d f.a f.b f.lit)),
  (0x7FC, 0x088, fun o f => some (.sub (ext o 1 1) (ext o 0 1) f.d f.a f.b f.lit)),
  (0x7FC, 0x08C, fun o f => some (.subb (ext o 1 1) (ext o 0 1) f.d f.a f.b f.lit)),
  (0x7FC, 0x090, fun o f => given (f.b == 0) (.neg (ext o 1 1) (ext o 0 1) f.d f.a f.lit)),
  (0x7FC, 0x094, fun o f => some (.mul (ext o 1 1) (ext o 0 1) f.d f.a f.b f.lit)),
  (0x7FC, 0x098, fun o f => some (.mad (ext o 1 1) (ext o 0 1) f.d f.a f.b f.lit)),
  (0x7FC, 0x09C, fun o f => given (f.b == 0) (.abs (ext o 1 1) (ext o 0 1) f.d f.a f.lit)),
  (0x7F8, 0x0A0, fun o f => given (ext f.b 0 3 == 0) (.div (ext o 2 1) (ext o 1 1) (ext o 0 1) f.d f.a f.la f.lit)),
  (0x7F8, 0x0A8, fun o f => given (ext f.b 0 3 == 0) (.rem (ext o 2 1) (ext o 1 1) (ext o 0 1) f.d f.a f.la f.lit)),
  (0x7F8, 0x0B0, fun o f => some (.min (ext o 2 1) (ext o 1 1) (ext o 0 1) f.d f.a f.b f.lit)),
  (0x7F8, 0x0B8, fun o f => some (.max (ext o 2 1) (ext o 1 1) (ext o 0 1) f.d f.a f.b f.lit)),
  (0x7FC, 0x0C0, fun o f => some (.mulh (ext o 1 1) (ext o 0 1) f.d f.a f.b f.lit)),
  (0x7FC, 0x0C4, fun o f => some (.mulw (ext o 1 1) (ext o 0 1) f.d f.a f.b f.lit)),
  (0x7FC, 0x0C8, fun o f => some (.madw (ext o 1 1) (ext o 0 1) f.d f.a f.b f.lit)),
  (0x7FE, 0x0CC, fun o f => given (f.b == 0) (.mov (ext o 0 1) f.d f.a f.lit)),
  (0x7FE, 0x0CE, fun o f => given (f.a == 127 && f.b == 0) (.ldi (ext o 0 1) f.d f.lit f.lit2)),
  (0x7FE, 0x0D0, fun o f => some (.and (ext o 0 1) f.d f.a f.b f.lit)),
  (0x7FE, 0x0D2, fun o f => some (.or (ext o 0 1) f.d f.a f.b f.lit)),
  (0x7FE, 0x0D4, fun o f => some (.xor (ext o 0 1) f.d f.a f.b f.lit)),
  (0x7FE, 0x0D6, fun o f => some (.andn (ext o 0 1) f.d f.a f.b f.lit)),
  (0x7FE, 0x0D8, fun o f => given (f.b == 0) (.not (ext o 0 1) f.d f.a f.lit)),
  (0x7FE, 0x0DA, fun o f => some (.shl (ext o 0 1) f.d f.a f.b f.lit)),
  (0x7FE, 0x0DC, fun o f => some (.shr (ext o 0 1) f.d f.a f.b f.lit)),
  (0x7FE, 0x0DE, fun o f => some (.shra (ext o 0 1) f.d f.a f.b f.lit)),
  (0x7FE, 0x0E0, fun o f => some (.rot (ext o 0 1) f.d f.a f.b f.lit)),
  (0x7FE, 0x0E2, fun o f => given (f.b == 0) (.popc (ext o 0 1) f.d f.a f.lit)),
  (0x7FE, 0x0E4, fun o f => given (f.b == 0) (.clz (ext o 0 1) f.d f.a f.lit)),
  (0x7FE, 0x0E6, fun o f => given (f.b == 0) (.ctz (ext o 0 1) f.d f.a f.lit)),
  (0x7FE, 0x0E8, fun o f => given (f.b == 0) (.brev (ext o 0 1) f.d f.a f.lit)),
  (0x7FE, 0x0EA, fun o f => some (.sel (ext o 0 1) f.d f.a f.b f.lit)),
  (0x7FC, 0x0EC, fun o f => some (.bfx (ext o 1 1) (ext o 0 1) f.d f.a f.b f.lit)),
  (0x7FE, 0x0F0, fun o f => some (.bfi (ext o 0 1) f.d f.a f.b f.lit)),
  (0x7FE, 0x0F2, fun o f => given (f.d == 0) (.cmpN (ext o 0 1) f.a f.b f.lit)),
  (0x7FE, 0x0F4, fun o f => given (f.d == 0) (.cmpS (ext o 0 1) f.a f.b f.lit)),
  (0x7FE, 0x0F6, fun o f => given (f.d == 0) (.tst (ext o 0 1) f.a f.b f.lit)),
  (0x7FF, 0x0F8, fun _ f => some (.fshf f.d f.a f.b f.lit)),
  (0x7FF, 0x0F9, fun _ f => some (.perm f.d f.a f.b f.lit)),
  (0x7FF, 0x0FA, fun _ f => some (.lea f.d f.a f.b f.lit)),
  (0x7FF, 0x0FB, fun _ f => some (.dot4N f.d f.a f.b f.lit)),
  (0x7FF, 0x0FC, fun _ f => some (.dot4S f.d f.a f.b f.lit)),
  (0x7FF, 0x0FD, fun _ f => some (.sad f.d f.a f.b f.lit)),
  (0x7FF, 0x0FE, fun _ f => given (f.a == 0 && f.b == 0) (.getcc f.d f.lit)),
  (0x7FF, 0x0FF, fun _ f => given (f.d == 0 && f.b == 0) (.setcc f.a f.lit))]

/-- Class 0x2 of the opcode map (R52-R54, Tables 3-6 and 3-7). -/
def rows2 : List Row := [
  (0x7F8, 0x100, fun o f => some (.shfl (ext o 1 2) (ext o 0 1) f.d f.a f.b f.lit)),
  (0x7FF, 0x108, fun _ f => given (f.b == 0) (.voteSome f.d f.a f.lit)),
  (0x7FF, 0x109, fun _ f => given (f.b == 0) (.voteEvery f.d f.a f.lit)),
  (0x7FF, 0x10A, fun _ f => given (f.b == 0) (.voteSame f.d f.a f.lit)),
  (0x7FF, 0x10B, fun _ f => given (f.b == 0) (.ballot f.d f.a f.lit)),
  (0x7F0, 0x110, fun o f => given (f.b == 0) (.scan (ext o 0 4) f.d f.a f.lit)),
  (0x7F0, 0x120, fun o f => given (f.b == 0) (.scanEx (ext o 0 4) f.d f.a f.lit)),
  (0x7F0, 0x130, fun o f => given (f.b == 0) (.reduce (ext o 0 4) f.d f.a f.lit)),
  (0x7FE, 0x140, fun o f => given (f.b == 0) (.matchLane (ext o 0 1) f.d f.a f.lit)),
  (0x7FE, 0x142, fun o f => some (.bcast (ext o 0 1) f.d f.a f.b f.lit)),
  (0x7FE, 0x144, fun o f => some (.kmov (ext o 0 1) f.d f.a f.b f.lit))]

/-- Class 0x3 of the opcode map (R52-R54, Tables 3-6 and 3-7). -/
def rows3 : List Row := [
  (0x7DF, 0x180, fun o f => some (.fadd (ext o 5 1) f.d f.a f.b f.lit)),
  (0x7DF, 0x181, fun o f => some (.fsub (ext o 5 1) f.d f.a f.b f.lit)),
  (0x7DF, 0x182, fun o f => some (.fmul (ext o 5 1) f.d f.a f.b f.lit)),
  (0x7DF, 0x183, fun o f => some (.fma (ext o 5 1) f.d f.a f.b f.lit)),
  (0x7DF, 0x184, fun o f => some (.fnma (ext o 5 1) f.d f.a f.b f.lit)),
  (0x7DF, 0x185, fun o f => given (ext f.b 0 3 == 0) (.fdiv (ext o 5 1) f.d f.a f.la f.lit)),
  (0x7DF, 0x186, fun o f => given (ext f.b 0 3 == 0) (.fsqrt (ext o 5 1) f.d f.a f.la f.lit)),
  (0x7DF, 0x187, fun o f => given (ext f.b 0 3 == 0) (.frcp (ext o 5 1) f.d f.a f.la f.lit)),
  (0x7DF, 0x188, fun o f => some (.fmin (ext o 5 1) f.d f.a f.b f.lit)),
  (0x7DF, 0x189, fun o f => some (.fmax (ext o 5 1) f.d f.a f.b f.lit)),
  (0x7DF, 0x18A, fun o f => some (.fminm (ext o 5 1) f.d f.a f.b f.lit)),
  (0x7DF, 0x18B, fun o f => some (.fmaxm (ext o 5 1) f.d f.a f.b f.lit)),
  (0x7DF, 0x18C, fun o f => given (f.b == 0) (.fabs (ext o 5 1) f.d f.a f.lit)),
  (0x7DF, 0x18D, fun o f => given (f.b == 0) (.fneg (ext o 5 1) f.d f.a f.lit)),
  (0x7DF, 0x18E, fun o f => some (.fcpys (ext o 5 1) f.d f.a f.b f.lit)),
  (0x7FF, 0x18F, fun _ f => some (.fcmp f.d f.a f.b f.lit)),
  (0x7DF, 0x190, fun o f => given (f.b == 0) (.fclass (ext o 5 1) f.d f.a f.lit)),
  (0x7DF, 0x191, fun o f => given (f.b == 0) (.frint (ext o 5 1) f.d f.a f.lit)),
  (0x7DF, 0x192, fun o f => some (.fscale (ext o 5 1) f.d f.a f.b f.lit)),
  (0x7DF, 0x193, fun o f => given (f.b == 0) (.fgetx (ext o 5 1) f.d f.a f.lit))]

/-- Class 0x4 of the opcode map (R52-R54, Tables 3-6 and 3-7). -/
def rows4 : List Row := [
  (0x7FF, 0x200, fun _ f => given (ext f.b 0 3 == 0) (.sinpi f.d f.a f.la f.lit)),
  (0x7FF, 0x201, fun _ f => given (ext f.b 0 3 == 0) (.cospi f.d f.a f.la f.lit)),
  (0x7FF, 0x202, fun _ f => given (ext f.b 0 3 == 0) (.exp2 f.d f.a f.la f.lit)),
  (0x7FF, 0x203, fun _ f => given (ext f.b 0 3 == 0) (.log2 f.d f.a f.la f.lit)),
  (0x7FF, 0x204, fun _ f => given (ext f.b 0 3 == 0) (.rcpa f.d f.a f.la f.lit)),
  (0x7FF, 0x205, fun _ f => given (ext f.b 0 3 == 0) (.rsqa f.d f.a f.la f.lit)),
  (0x7FF, 0x206, fun _ f => given (ext f.b 0 3 == 0) (.tanh f.d f.a f.la f.lit)),
  (0x7FF, 0x210, fun _ f => given (f.d == 0 && ext f.b 0 2 == 0) (.fmtld f.a f.la (ext f.b 2 1) f.lit)),
  (0x7FF, 0x211, fun _ f => given (f.a == 0 && f.b == 0) (.fmtrd f.d f.lit)),
  (0x7FF, 0x212, fun _ f => some (.cvt f.d f.a f.b f.lit)),
  (0x7FF, 0x213, fun _ f => some (.cvti f.d f.a f.b f.lit)),
  (0x7FF, 0x214, fun _ f => some (.cvtf f.d f.a f.b f.lit)),
  (0x7FF, 0x215, fun _ f => some (.pack f.d f.a f.b f.lit)),
  (0x7FF, 0x216, fun _ f => some (.unpack f.d f.a f.b f.lit)),
  (0x7FF, 0x217, fun _ f => some (.scale f.d f.a f.b f.lit))]

/-- Class 0x5 of the opcode map (R52-R54, Tables 3-6 and 3-7). -/
def rows5 : List Row := [
  (0x7FC, 0x280, fun o f => given (ext f.b 0 2 == 0) (.ld (ext o 0 3) f.d f.a f.la (ext f.b 2 1) f.lit)),
  (0x7FE, 0x284, fun o f => given (ext f.b 0 2 == 0) (.ld (ext o 0 3) f.d f.a f.la (ext f.b 2 1) f.lit)),
  (0x7FF, 0x286, fun _ f => given (ext f.b 0 2 == 0) (.ldv f.d f.a f.la (ext f.b 2 1) f.lit)),
  (0x7FF, 0x287, fun _ f => given (ext f.b 0 2 == 0) (.ldkB32 f.d f.a f.la (ext f.b 2 1) f.lit)),
  (0x7FF, 0x288, fun _ f => given (ext f.b 0 2 == 0) (.ldkB64 f.d f.a f.la (ext f.b 2 1) f.lit)),
  (0x7FF, 0x289, fun _ f => given (ext f.b 0 2 == 0) (.ldmx f.d f.a f.la (ext f.b 2 1) f.lit)),
  (0x7FF, 0x28A, fun _ f => given (ext f.b 0 2 == 0) (.acq f.d f.a f.la (ext f.b 2 1) f.lit)),
  (0x7FF, 0x28B, fun _ f => given (f.d == 0) (.pref f.a f.b f.lit)),
  (0x7FC, 0x290, fun o f => some (.st (ext o 0 2) f.d f.a f.b f.lit)),
  (0x7FF, 0x294, fun _ f => some (.stv f.d f.a f.b f.lit)),
  (0x7FF, 0x295, fun _ f => some (.stmx f.d f.a f.b f.lit)),
  (0x7FF, 0x296, fun _ f => some (.rel f.d f.a f.b f.lit)),
  (0x7FF, 0x297, fun _ f => given (f.d == 0) (.flush f.a f.b f.lit)),
  (0x7FF, 0x298, fun _ f => given (f.d == 0) (.invl f.a f.b f.lit)),
  (0x7FF, 0x299, fun _ f => given (f.a == 0 && f.b == 0) (.fence f.d))]

/-- Class 0x6 of the opcode map (R52-R54, Tables 3-6 and 3-7). -/
def rows6 : List Row := [
  (0x7F0, 0x300, fun o f => given (ext f.b 0 2 == 0) (.atom (ext o 1 4) (ext o 0 1) f.d f.a f.la (ext f.b 2 1) f.lit)),
  (0x7FC, 0x310, fun o f => given (ext f.b 0 2 == 0) (.atom (ext o 1 4) (ext o 0 1) f.d f.a f.la (ext f.b 2 1) f.lit)),
  (0x7FE, 0x314, fun o f => given (ext f.b 0 2 == 0) (.atom (ext o 1 4) (ext o 0 1) f.d f.a f.la (ext f.b 2 1) f.lit)),
  (0x7FE, 0x316, fun o f => given (ext f.b 0 2 == 0) (.acas (ext o 0 1) f.d f.a f.la (ext f.b 2 1) f.lit)),
  (0x7FF, 0x318, fun _ f => given (ext f.b 0 2 == 0) (.afadd f.d f.a f.la (ext f.b 2 1) f.lit)),
  (0x7FF, 0x319, fun _ f => given (ext f.b 1 1 == 0) (.afmm f.d f.a f.la (ext f.b 2 1) (ext f.b 0 1) f.lit)),
  (0x7F0, 0x320, fun o f => some (.ared (ext o 1 4) (ext o 0 1) f.d f.a f.b f.lit)),
  (0x7FC, 0x330, fun o f => some (.ared (ext o 1 4) (ext o 0 1) f.d f.a f.b f.lit)),
  (0x7FE, 0x334, fun o f => some (.ared (ext o 1 4) (ext o 0 1) f.d f.a f.b f.lit)),
  (0x7FF, 0x338, fun _ f => given (ext f.b 0 2 == 0) (.aprog f.d f.a f.la (ext f.b 2 1) f.lit)),
  (0x7FF, 0x339, fun _ f => given (f.d == 0) (.apload f.a f.b f.lit))]

/-- Class 0x7 of the opcode map (R52-R54, Tables 3-6 and 3-7). -/
def rows7 : List Row := [
  (0x7FF, 0x380, fun _ f => some (.cpl f.d f.a f.b f.lit)),
  (0x7FF, 0x381, fun _ f => some (.cpf f.d f.a f.b f.lit)),
  (0x7FF, 0x382, fun _ f => some (.cpt f.d f.a f.b f.lit)),
  (0x7FF, 0x383, fun _ f => some (.cpm f.d f.a f.b f.lit)),
  (0x7FF, 0x390, fun _ f => some (.binit f.d f.a f.b f.lit)),
  (0x7FF, 0x391, fun _ f => given (f.d == 0) (.arrive f.a f.b f.lit)),
  (0x7FF, 0x392, fun _ f => some (.expect f.d f.a f.b f.lit)),
  (0x7FF, 0x393, fun _ f => some (.wait f.d f.a f.b f.lit)),
  (0x7FF, 0x394, fun _ f => some (.cadd f.d f.a f.b f.lit)),
  (0x7FF, 0x395, fun _ f => given (ext f.b 0 2 == 0) (.cread f.d f.a f.la (ext f.b 2 1) f.lit)),
  (0x7FF, 0x396, fun _ f => given (f.d == 0 && f.b == 0) (.bseal f.a f.lit)),
  (0x7FF, 0x397, fun _ f => given (f.d == 0 && f.b == 0) (.bwait f.a f.lit)),
  (0x7FF, 0x398, fun _ f => given (f.b == 0) (.stallrd f.d f.a f.lit))]

/-- Class 0x8 of the opcode map (R52-R54, Tables 3-6 and 3-7). -/
def rows8 : List Row := [
  (0x7FF, 0x400, fun _ f => given (f.d == 0 && f.b == 0) (.mcfg f.a f.lit)),
  (0x7FF, 0x401, fun _ f => given (f.b == 0) (.mldb f.d f.a f.lit)),
  (0x7FF, 0x402, fun _ f => given (f.b == 0) (.mma f.d f.a f.lit)),
  (0x7FF, 0x403, fun _ f => given (f.b == 0) (.mmas f.d f.a f.lit)),
  (0x7FF, 0x404, fun _ f => given (f.b == 0) (.mzero f.d f.a f.lit)),
  (0x7FF, 0x405, fun _ f => given (f.b == 0) (.mstore f.d f.a f.lit)),
  (0x7FF, 0x406, fun _ f => given (f.b == 0) (.mdrain f.d f.a f.lit)),
  (0x7FF, 0x407, fun _ f => given (f.b == 0) (.mrun f.d f.a f.lit))]

/-- Class 0x9 of the opcode map (R52-R54, Tables 3-6 and 3-7). -/
def rows9 : List Row := [
  (0x7FF, 0x480, fun _ f => given (f.b == 0) (.qmap f.d f.a f.lit)),
  (0x7FF, 0x481, fun _ f => given (f.a == 0 && f.b == 0) (.qunmap f.d f.lit)),
  (0x7FF, 0x482, fun _ f => given (f.b == 0) (.qstat f.d f.a f.lit)),
  (0x7FF, 0x483, fun _ f => given (f.a == 0 && f.b == 0) (.qnotify f.d f.lit)),
  (0x7FF, 0x490, fun _ f => some (.spawn f.d f.a f.b f.lit)),
  (0x7FF, 0x491, fun _ f => given (f.b == 0) (.grow f.d f.a f.lit)),
  (0x7FF, 0x492, fun _ f => given (f.d == 0) (.job f.a f.b f.lit)),
  (0x7FF, 0x493, fun _ f => some (.launch f.d f.a f.b f.lit))]

/-- Class 0xA of the opcode map (R52-R54, Tables 3-6 and 3-7). -/
def rowsA : List Row := [
  (0x7FF, 0x500, fun _ f => given (f.d == 0 && f.b == 0) (.eqset f.a f.lit)),
  (0x7FF, 0x501, fun _ f => given (ext f.b 0 3 == 0) (.unite f.d f.a f.la f.lit)),
  (0x7FF, 0x502, fun _ f => given (ext f.b 0 3 == 0) (.find f.d f.a f.la f.lit)),
  (0x7FF, 0x503, fun _ f => given (ext f.b 0 3 == 0) (.same f.d f.a f.la f.lit)),
  (0x7FF, 0x504, fun _ f => given (f.d == 0 && f.b == 0) (.relabel f.a f.lit)),
  (0x7FF, 0x505, fun _ f => given (f.a == 0 && f.b == 0) (.eqsnap f.d f.lit)),
  (0x7FF, 0x506, fun _ f => given (f.a == 0 && f.b == 0) (.equndo f.d f.lit)),
  (0x7FF, 0x507, fun _ f => given (f.a == 0 && f.b == 0) (.eqdrop f.d f.lit)),
  (0x7FF, 0x508, fun _ f => given (f.a == 127 && f.b == 0) (.eqsize f.d f.lit)),
  (0x7FF, 0x509, fun _ f => given (f.d == 0 && f.a == 0 && f.b == 0) .eqfence)]

/-- Class 0xB of the opcode map (R52-R54, Tables 3-6 and 3-7). -/
def rowsB : List Row := [
  (0x7FF, 0x580, fun _ f => given (f.d == 0 && f.a == 0 && f.b == 0) .region),
  (0x7FF, 0x581, fun _ f => given (f.d == 0 && f.a == 127 && f.b == 0) (.sigchk f.lit)),
  (0x7FF, 0x582, fun _ f => given (f.d == 0 && f.a == 127 && f.b == 0) (.sigset f.lit)),
  (0x7FF, 0x583, fun _ f => given (f.d == 0 && f.a == 127 && f.b == 0) (.trap f.lit)),
  (0x7FF, 0x584, fun _ f => given (f.b == 0) (.sysc f.d f.a f.lit)),
  (0x7FF, 0x585, fun _ f => given (f.d == 0 && f.a == 0 && f.b == 0) .brk),
  (0x7FF, 0x586, fun _ f => given (f.a == 127 && f.b == 0) (.mfs f.d f.lit)),
  (0x7FF, 0x587, fun _ f => given (f.d == 0 && f.a == 127) (.mts f.b f.lit)),
  (0x7FF, 0x590, fun _ f => given (f.d == 0) (.bind f.a f.b f.lit)),
  (0x7FF, 0x591, fun _ f => given (f.d == 0 && f.b == 0) (.unbind f.a f.lit)),
  (0x7FF, 0x592, fun _ f => given (f.d == 0) (.tlbinv f.a f.b f.lit)),
  (0x7FF, 0x593, fun _ f => given (f.d == 0) (.wcs f.a f.b f.lit))]

/-- Class 0xF of the opcode map (R52-R54, Tables 3-6 and 3-7). -/
def rowsF : List Row := [
  (0x780, 0x780, fun o f => some (.macroRun (ext o 0 7) f.d f.a f.b))]

/-- The rows of a class (R52): word bits 31:28. Classes 0xC, 0xD and 0xE are reserved whole. -/
def rowsOf : Nat → List Row
  | 0 => rows0 | 1 => rows1 | 2 => rows2 | 3 => rows3 | 4 => rows4 | 5 => rows5 | 6 => rows6 | 7 => rows7 | 8 => rows8 | 9 => rows9 | 10 => rowsA | 11 => rowsB | 15 => rowsF | _ => []

/-- The first row that an opcode matches. -/
def findRow (op : Nat) : List Row → Option (BitVec 11 → Fields → Option Instr)
  | [] => none
  | (m, p, k) :: rs => if op &&& m == p then some k else findRow op rs

/-- The opcode of a word, bits 31:21 (R41). -/
def opcode (w : Word) : BitVec 11 := ext w 21 11

/-- The opcodes that carry a byte offset when sub bit 2 is set: Format L words that address memory (R41). -/
def addressesMemory (op : Nat) : Bool :=
  (0x280 ≤ op && op ≤ 0x28A) || op == 0x210 || (0x300 ≤ op && op ≤ 0x319) || op == 0x338 || op == 0x395

/-- The opcodes of Format L (R41, Tables 3-6 and 3-7). -/
def isFormatL (op : Nat) : Bool :=
  addressesMemory op || (0x0A0 ≤ op && op ≤ 0x0AF) || (0x185 ≤ op && op ≤ 0x187) || (0x1A5 ≤ op && op ≤ 0x1A7) ||
  (0x200 ≤ op && op ≤ 0x206) || (0x501 ≤ op && op ≤ 0x503)

/-- How many literal words follow a word (R45). -/
def litCount (w : Word) : Nat :=
  let op := (opcode w).toNat
  let d := ext w 14 7; let a := ext w 7 7; let b := ext w 0 7
  if op == 0x004 || op == 0x006 then 1
  else if op ≤ 0x00A || op == 0x299 || 0x780 ≤ op then 0
  else if op == 0x0CF && a == 127 then 2
  else if isFormatL op then
    if d == 127 || a == 127 || (addressesMemory op && ext w 2 1 == 1) then 1 else 0
  else if d == 127 || a == 127 || b == 127 then 1 else 0

/-- The fields of a word, with a literal that the word does not carry read as 0. -/
def fieldsOf (w lit lit2 : Word) : Fields :=
  ⟨ext w 14 7, ext w 7 7, ext w 0 7, if 1 ≤ litCount w then lit else 0, if 2 ≤ litCount w then lit2 else 0⟩

/-- The instruction of an opcode and its fields, or the first cause of R56 that the word itself has. -/
def decodeFields (op : BitVec 11) (f : Fields) : Except DecodeError Instr :=
  match findRow op.toNat (rowsOf (op.toNat / 128)) with
  | none => .error .illegalOpcode
  | some k => match k op f with
    | none => .error .illegalEncoding
    | some i => .ok i

/-- Decoding a word and the two words after it (R56). -/
def decode (w lit lit2 : Word) : Except DecodeError Instr :=
  if w == 0 then .error .zeroWord else decodeFields (opcode w) (fieldsOf w lit lit2)

/-- A Format T, L or C word. -/
def wordT (op : Nat) (d a b : Reg) : Word := BitVec.ofNat 11 op ++ d ++ a ++ b

/-- A Format M or P word. -/
def wordM (op : Nat) (low : BitVec 21) : Word := BitVec.ofNat 11 op ++ low

/-- The word of an instruction, from the encoding tables of the spec. -/
def encodeWord : Instr → Option Word
  | .nop => some (wordT (0x001) 0 0 0)
  | .mode g t r f s b n => some (wordM 0x002 (g ++ t ++ r ++ f ++ s ++ b ++ n ++ 0#1))
  | .rep c d a b => some (wordM 0x003 (c ++ d ++ a ++ b ++ 0#6))
  | .bra _ => some (wordT 0x004 0 0 0)
  | .jmp a => some (wordT (0x005) 0 a 0)
  | .call x _ => some (wordT 0x006 x 0 0)
  | .callr x a => some (wordT (0x007) x a 0)
  | .ret => some (wordT (0x008) 0 0 0)
  | .exit => some (wordT (0x009) 0 0 0)
  | .yield => some (wordT (0x00A) 0 0 0)
  | .add w c d a b _ => some (wordT (0x080 + w.toNat * 2 + c.toNat) d a b)
  | .addc w c d a b _ => some (wordT (0x084 + w.toNat * 2 + c.toNat) d a b)
  | .sub w c d a b _ => some (wordT (0x088 + w.toNat * 2 + c.toNat) d a b)
  | .subb w c d a b _ => some (wordT (0x08C + w.toNat * 2 + c.toNat) d a b)
  | .neg w c d a _ => some (wordT (0x090 + w.toNat * 2 + c.toNat) d a 0)
  | .mul w c d a b _ => some (wordT (0x094 + w.toNat * 2 + c.toNat) d a b)
  | .mad w c d a b _ => some (wordT (0x098 + w.toNat * 2 + c.toNat) d a b)
  | .abs w c d a _ => some (wordT (0x09C + w.toNat * 2 + c.toNat) d a 0)
  | .div u w c d a l _ => some (wordT (0x0A0 + u.toNat * 4 + w.toNat * 2 + c.toNat) d a (l ++ 0#3))
  | .rem u w c d a l _ => some (wordT (0x0A8 + u.toNat * 4 + w.toNat * 2 + c.toNat) d a (l ++ 0#3))
  | .min u w c d a b _ => some (wordT (0x0B0 + u.toNat * 4 + w.toNat * 2 + c.toNat) d a b)
  | .max u w c d a b _ => some (wordT (0x0B8 + u.toNat * 4 + w.toNat * 2 + c.toNat) d a b)
  | .mulh u w d a b _ => some (wordT (0x0C0 + u.toNat * 2 + w.toNat) d a b)
  | .mulw u c d a b _ => some (wordT (0x0C4 + u.toNat * 2 + c.toNat) d a b)
  | .madw u c d a b _ => some (wordT (0x0C8 + u.toNat * 2 + c.toNat) d a b)
  | .mov w d a _ => some (wordT (0x0CC + w.toNat) d a 0)
  | .ldi w d _ _ => some (wordT (0x0CE + w.toNat) d 127 0)
  | .and w d a b _ => some (wordT (0x0D0 + w.toNat) d a b)
  | .or w d a b _ => some (wordT (0x0D2 + w.toNat) d a b)
  | .xor w d a b _ => some (wordT (0x0D4 + w.toNat) d a b)
  | .andn w d a b _ => some (wordT (0x0D6 + w.toNat) d a b)
  | .not w d a _ => some (wordT (0x0D8 + w.toNat) d a 0)
  | .shl w d a b _ => some (wordT (0x0DA + w.toNat) d a b)
  | .shr w d a b _ => some (wordT (0x0DC + w.toNat) d a b)
  | .shra w d a b _ => some (wordT (0x0DE + w.toNat) d a b)
  | .rot w d a b _ => some (wordT (0x0E0 + w.toNat) d a b)
  | .popc w d a _ => some (wordT (0x0E2 + w.toNat) d a 0)
  | .clz w d a _ => some (wordT (0x0E4 + w.toNat) d a 0)
  | .ctz w d a _ => some (wordT (0x0E6 + w.toNat) d a 0)
  | .brev w d a _ => some (wordT (0x0E8 + w.toNat) d a 0)
  | .sel w d a b _ => some (wordT (0x0EA + w.toNat) d a b)
  | .bfx u w d a b _ => some (wordT (0x0EC + u.toNat * 2 + w.toNat) d a b)
  | .bfi w d a b _ => some (wordT (0x0F0 + w.toNat) d a b)
  | .cmpN w a b _ => some (wordT (0x0F2 + w.toNat) 0 a b)
  | .cmpS w a b _ => some (wordT (0x0F4 + w.toNat) 0 a b)
  | .tst w a b _ => some (wordT (0x0F6 + w.toNat) 0 a b)
  | .fshf d a b _ => some (wordT (0x0F8) d a b)
  | .perm d a b _ => some (wordT (0x0F9) d a b)
  | .lea d a b _ => some (wordT (0x0FA) d a b)
  | .dot4N d a b _ => some (wordT (0x0FB) d a b)
  | .dot4S d a b _ => some (wordT (0x0FC) d a b)
  | .sad d a b _ => some (wordT (0x0FD) d a b)
  | .getcc d _ => some (wordT (0x0FE) d 0 0)
  | .setcc a _ => some (wordT (0x0FF) 0 a 0)
  | .shfl v w d a b _ => some (wordT (0x100 + v.toNat * 2 + w.toNat) d a b)
  | .voteSome d a _ => some (wordT (0x108) d a 0)
  | .voteEvery d a _ => some (wordT (0x109) d a 0)
  | .voteSame d a _ => some (wordT (0x10A) d a 0)
  | .ballot d a _ => some (wordT (0x10B) d a 0)
  | .scan o d a _ => some (wordT (0x110 + o.toNat) d a 0)
  | .scanEx o d a _ => some (wordT (0x120 + o.toNat) d a 0)
  | .reduce o d a _ => some (wordT (0x130 + o.toNat) d a 0)
  | .matchLane w d a _ => some (wordT (0x140 + w.toNat) d a 0)
  | .bcast w d a b _ => some (wordT (0x142 + w.toNat) d a b)
  | .kmov w d a b _ => some (wordT (0x144 + w.toNat) d a b)
  | .fadd c d a b _ => some (wordT (0x180 + c.toNat * 32) d a b)
  | .fsub c d a b _ => some (wordT (0x181 + c.toNat * 32) d a b)
  | .fmul c d a b _ => some (wordT (0x182 + c.toNat * 32) d a b)
  | .fma c d a b _ => some (wordT (0x183 + c.toNat * 32) d a b)
  | .fnma c d a b _ => some (wordT (0x184 + c.toNat * 32) d a b)
  | .fdiv c d a l _ => some (wordT (0x185 + c.toNat * 32) d a (l ++ 0#3))
  | .fsqrt c d a l _ => some (wordT (0x186 + c.toNat * 32) d a (l ++ 0#3))
  | .frcp c d a l _ => some (wordT (0x187 + c.toNat * 32) d a (l ++ 0#3))
  | .fmin c d a b _ => some (wordT (0x188 + c.toNat * 32) d a b)
  | .fmax c d a b _ => some (wordT (0x189 + c.toNat * 32) d a b)
  | .fminm c d a b _ => some (wordT (0x18A + c.toNat * 32) d a b)
  | .fmaxm c d a b _ => some (wordT (0x18B + c.toNat * 32) d a b)
  | .fabs c d a _ => some (wordT (0x18C + c.toNat * 32) d a 0)
  | .fneg c d a _ => some (wordT (0x18D + c.toNat * 32) d a 0)
  | .fcpys c d a b _ => some (wordT (0x18E + c.toNat * 32) d a b)
  | .fcmp d a b _ => some (wordT (0x18F) d a b)
  | .fclass c d a _ => some (wordT (0x190 + c.toNat * 32) d a 0)
  | .frint c d a _ => some (wordT (0x191 + c.toNat * 32) d a 0)
  | .fscale c d a b _ => some (wordT (0x192 + c.toNat * 32) d a b)
  | .fgetx c d a _ => some (wordT (0x193 + c.toNat * 32) d a 0)
  | .sinpi d a l _ => some (wordT (0x200) d a (l ++ 0#3))
  | .cospi d a l _ => some (wordT (0x201) d a (l ++ 0#3))
  | .exp2 d a l _ => some (wordT (0x202) d a (l ++ 0#3))
  | .log2 d a l _ => some (wordT (0x203) d a (l ++ 0#3))
  | .rcpa d a l _ => some (wordT (0x204) d a (l ++ 0#3))
  | .rsqa d a l _ => some (wordT (0x205) d a (l ++ 0#3))
  | .tanh d a l _ => some (wordT (0x206) d a (l ++ 0#3))
  | .fmtld a l o _ => some (wordT (0x210) 0 a (l ++ o ++ 0#2))
  | .fmtrd d _ => some (wordT (0x211) d 0 0)
  | .cvt d a b _ => some (wordT (0x212) d a b)
  | .cvti d a b _ => some (wordT (0x213) d a b)
  | .cvtf d a b _ => some (wordT (0x214) d a b)
  | .pack d a b _ => some (wordT (0x215) d a b)
  | .unpack d a b _ => some (wordT (0x216) d a b)
  | .scale d a b _ => some (wordT (0x217) d a b)
  | .ld t d a l o _ => some (wordT (0x280 + t.toNat) d a (l ++ o ++ 0#2))
  | .ldv d a l o _ => some (wordT (0x286) d a (l ++ o ++ 0#2))
  | .ldkB32 d a l o _ => some (wordT (0x287) d a (l ++ o ++ 0#2))
  | .ldkB64 d a l o _ => some (wordT (0x288) d a (l ++ o ++ 0#2))
  | .ldmx d a l o _ => some (wordT (0x289) d a (l ++ o ++ 0#2))
  | .acq d a l o _ => some (wordT (0x28A) d a (l ++ o ++ 0#2))
  | .pref a b _ => some (wordT (0x28B) 0 a b)
  | .st n d a b _ => some (wordT (0x290 + n.toNat) d a b)
  | .stv d a b _ => some (wordT (0x294) d a b)
  | .stmx d a b _ => some (wordT (0x295) d a b)
  | .rel d a b _ => some (wordT (0x296) d a b)
  | .flush a b _ => some (wordT (0x297) 0 a b)
  | .invl a b _ => some (wordT (0x298) 0 a b)
  | .fence s => some (wordT (0x299) s 0 0)
  | .atom op w d a l o _ => some (wordT (0x300 + op.toNat * 2 + w.toNat) d a (l ++ o ++ 0#2))
  | .acas w d a l o _ => some (wordT (0x316 + w.toNat) d a (l ++ o ++ 0#2))
  | .afadd d a l o _ => some (wordT (0x318) d a (l ++ o ++ 0#2))
  | .afmm d a l o m _ => some (wordT (0x319) d a (l ++ o ++ 0#1 ++ m))
  | .ared op w d a b _ => some (wordT (0x320 + op.toNat * 2 + w.toNat) d a b)
  | .aprog d a l o _ => some (wordT (0x338) d a (l ++ o ++ 0#2))
  | .apload a b _ => some (wordT (0x339) 0 a b)
  | .cpl d a b _ => some (wordT (0x380) d a b)
  | .cpf d a b _ => some (wordT (0x381) d a b)
  | .cpt d a b _ => some (wordT (0x382) d a b)
  | .cpm d a b _ => some (wordT (0x383) d a b)
  | .binit d a b _ => some (wordT (0x390) d a b)
  | .arrive a b _ => some (wordT (0x391) 0 a b)
  | .expect d a b _ => some (wordT (0x392) d a b)
  | .wait d a b _ => some (wordT (0x393) d a b)
  | .cadd d a b _ => some (wordT (0x394) d a b)
  | .cread d a l o _ => some (wordT (0x395) d a (l ++ o ++ 0#2))
  | .bseal a _ => some (wordT (0x396) 0 a 0)
  | .bwait a _ => some (wordT (0x397) 0 a 0)
  | .stallrd d a _ => some (wordT (0x398) d a 0)
  | .mcfg a _ => some (wordT (0x400) 0 a 0)
  | .mldb d a _ => some (wordT (0x401) d a 0)
  | .mma d a _ => some (wordT (0x402) d a 0)
  | .mmas d a _ => some (wordT (0x403) d a 0)
  | .mzero d a _ => some (wordT (0x404) d a 0)
  | .mstore d a _ => some (wordT (0x405) d a 0)
  | .mdrain d a _ => some (wordT (0x406) d a 0)
  | .mrun d a _ => some (wordT (0x407) d a 0)
  | .qmap d a _ => some (wordT (0x480) d a 0)
  | .qunmap d _ => some (wordT (0x481) d 0 0)
  | .qstat d a _ => some (wordT (0x482) d a 0)
  | .qnotify d _ => some (wordT (0x483) d 0 0)
  | .spawn d a b _ => some (wordT (0x490) d a b)
  | .grow d a _ => some (wordT (0x491) d a 0)
  | .job a b _ => some (wordT (0x492) 0 a b)
  | .launch d a b _ => some (wordT (0x493) d a b)
  | .eqset a _ => some (wordT (0x500) 0 a 0)
  | .unite d a l _ => some (wordT (0x501) d a (l ++ 0#3))
  | .find d a l _ => some (wordT (0x502) d a (l ++ 0#3))
  | .same d a l _ => some (wordT (0x503) d a (l ++ 0#3))
  | .relabel a _ => some (wordT (0x504) 0 a 0)
  | .eqsnap d _ => some (wordT (0x505) d 0 0)
  | .equndo d _ => some (wordT (0x506) d 0 0)
  | .eqdrop d _ => some (wordT (0x507) d 0 0)
  | .eqsize d _ => some (wordT 0x508 d 127 0)
  | .eqfence => some (wordT (0x509) 0 0 0)
  | .region => some (wordT (0x580) 0 0 0)
  | .sigchk _ => some (wordT 0x581 0 127 0)
  | .sigset _ => some (wordT 0x582 0 127 0)
  | .trap _ => some (wordT 0x583 0 127 0)
  | .sysc d a _ => some (wordT (0x584) d a 0)
  | .brk => some (wordT (0x585) 0 0 0)
  | .mfs d _ => some (wordT 0x586 d 127 0)
  | .mts b _ => some (wordT 0x587 0 127 b)
  | .bind a b _ => some (wordT (0x590) 0 a b)
  | .unbind a _ => some (wordT (0x591) 0 a 0)
  | .tlbinv a b _ => some (wordT (0x592) 0 a b)
  | .wcs a b _ => some (wordT (0x593) 0 a b)
  | .macroRun n d a b => some (wordT (0x780 + n.toNat) d a b)
  -- steps that no word encodes
  | .checkpointSettle _ => none
  | .resultLands _ _ => none
  | .coolboxRelease _ => none
  | .releaseWrite _ => none
  | .l1Eviction _ _ _ => none
  | .acknowledgement _ => none
  | .atomicPerform _ => none
  | .homeCommit _ => none
  | .aprogRun _ => none
  | .aprogTimeout _ => none
  | .moved _ => none
  | .trapRecordPost _ => none
  | .faultRecordPost _ => none
  | .errorRecordPost _ => none
  | .arrayRebuild _ _ _ _ _ => none
  | .rucksackSpill _ _ => none
  | .rucksackRefill _ _ => none
  | .copySegment _ => none
  | .copyWriteLands _ => none
  | .cpmAcknowledgement _ _ => none
  | .commandStart _ _ => none
  | .mldbSegment _ _ => none
  | .mmaRow _ _ => none
  | .mzeroRow _ _ => none
  | .mstoreRow _ _ => none
  | .mdrainRead _ _ => none
  | .mdrainLanding _ _ => none
  | .rowCommit _ _ => none
  | .commandRetire _ _ => none
  | .parentRead _ => none
  | .lowerStep _ => none
  | .linkStep _ => none
  | .addStep _ => none
  | .sameStep _ => none
  | .relabelRun _ => none
  | .markOperation _ => none
  | .eqCommit _ => none
  | .forestRelease _ => none
  | .barrierArrival _ => none
  | .expectation _ => none
  | .engineCredit _ => none
  | .waitWake _ => none
  | .bindingUpdate _ => none
  | .reservationGrant _ => none
  | .linkCredit _ _ => none
  | .strikeReport _ _ _ => none
  | .admission _ _ => none
  | .teamEnd _ => none
  | .hamperTimer _ _ => none
  | .teamEviction _ => none
  | .readmission _ _ => none
  | .timetableSlot _ => none
  | .deferredLaunch _ => none
  | .watchdog _ => none
  | .resume _ _ => none
  | .redirect _ _ => none
  | .killTeam _ _ => none
  | .killContext _ _ => none
  | .resumepcWrite _ _ _ => none
  | .replay _ _ _ => none
  | .unresolvable _ _ _ => none
  | .preempt _ _ _ => none
  | .queueEntryWrite _ _ _ _ => none
  | .clkmodeWrite _ => none
  | .notifyRead _ => none
  | .registerWrite _ _ _ => none
  | .portBringUp _ _ => none
  | .lossOfLock _ _ => none
  | .linkRead _ _ _ _ _ _ => none
  | .linkWrite _ _ _ _ _ _ => none
  | .readData _ _ _ _ => none
  | .writeAcknowledgement _ _ => none
  | .refused _ _ => none
  | .errorResponse _ _ => none
  | .linkAtomic _ _ _ _ _ _ _ => none
  | .atomicResult _ _ _ => none
  | .hostTimeout _ _ => none
  | .backInvalidate _ => none
  | .cxlFailure _ => none
  | .ptpEventMessage _ _ _ => none
  | .clockLock _ => none
  | .holdover => none
  | .clkpairLatch => none
  | .powerGrant _ => none
  | .powerLimit _ => none
  | .droop _ _ => none
  | .emergencyThrottleBegin => none
  | .emergencyThrottleEnd => none
  | .orderlyShutdown => none
  | .powerOff => none
  | .packageReset => none
  | .getVersion => none
  | .getCapabilities _ => none
  | .negotiateAlgorithms _ => none
  | .getDigests => none
  | .getCertificate _ _ _ => none
  | .challenge _ _ => none
  | .getMeasurements _ _ _ => none
  | .keyExchange _ => none
  | .finish _ => none
  | .endSession => none
  | .nullCall _ _ => none
  | .launchCall _ _ _ => none
  | .launchwait _ _ _ => none
  | .mapCall _ _ _ _ _ _ => none
  | .unmap _ _ _ _ => none
  | .qcreate _ _ _ _ => none
  | .qdestroy _ _ _ => none
  | .bindthread _ _ _ => none
  | .timeCall _ _ => none
  | .timetableCall _ _ _ _ _ => none
  | .loadpkg _ _ _ => none
  | .migrate _ _ _ => none
  | .exitCall _ _ _ => none
  | .logCall _ _ _ _ => none
  | .orderingPointAccess _ => none
  | .rangerLoadStore _ _ _ _ => none
  | .hubHoldRelease _ => none
  | .trainingDone _ _ _ => none
  | .migrationStream _ _ => none
  | .resumptionConfirmed _ => none

/-- The first literal word an instruction carries, 0 where it carries none (R45). -/
def literal : Instr → Word
  | .nop => 0
  | .mode _ _ _ _ _ _ _ => 0
  | .rep _ _ _ _ => 0
  | .bra lit => lit
  | .jmp _ => 0
  | .call _ lit => lit
  | .callr _ _ => 0
  | .ret => 0
  | .exit => 0
  | .yield => 0
  | .add _ _ _ _ _ lit => lit
  | .addc _ _ _ _ _ lit => lit
  | .sub _ _ _ _ _ lit => lit
  | .subb _ _ _ _ _ lit => lit
  | .neg _ _ _ _ lit => lit
  | .mul _ _ _ _ _ lit => lit
  | .mad _ _ _ _ _ lit => lit
  | .abs _ _ _ _ lit => lit
  | .div _ _ _ _ _ _ lit => lit
  | .rem _ _ _ _ _ _ lit => lit
  | .min _ _ _ _ _ _ lit => lit
  | .max _ _ _ _ _ _ lit => lit
  | .mulh _ _ _ _ _ lit => lit
  | .mulw _ _ _ _ _ lit => lit
  | .madw _ _ _ _ _ lit => lit
  | .mov _ _ _ lit => lit
  | .ldi _ _ lit _ => lit
  | .and _ _ _ _ lit => lit
  | .or _ _ _ _ lit => lit
  | .xor _ _ _ _ lit => lit
  | .andn _ _ _ _ lit => lit
  | .not _ _ _ lit => lit
  | .shl _ _ _ _ lit => lit
  | .shr _ _ _ _ lit => lit
  | .shra _ _ _ _ lit => lit
  | .rot _ _ _ _ lit => lit
  | .popc _ _ _ lit => lit
  | .clz _ _ _ lit => lit
  | .ctz _ _ _ lit => lit
  | .brev _ _ _ lit => lit
  | .sel _ _ _ _ lit => lit
  | .bfx _ _ _ _ _ lit => lit
  | .bfi _ _ _ _ lit => lit
  | .cmpN _ _ _ lit => lit
  | .cmpS _ _ _ lit => lit
  | .tst _ _ _ lit => lit
  | .fshf _ _ _ lit => lit
  | .perm _ _ _ lit => lit
  | .lea _ _ _ lit => lit
  | .dot4N _ _ _ lit => lit
  | .dot4S _ _ _ lit => lit
  | .sad _ _ _ lit => lit
  | .getcc _ lit => lit
  | .setcc _ lit => lit
  | .shfl _ _ _ _ _ lit => lit
  | .voteSome _ _ lit => lit
  | .voteEvery _ _ lit => lit
  | .voteSame _ _ lit => lit
  | .ballot _ _ lit => lit
  | .scan _ _ _ lit => lit
  | .scanEx _ _ _ lit => lit
  | .reduce _ _ _ lit => lit
  | .matchLane _ _ _ lit => lit
  | .bcast _ _ _ _ lit => lit
  | .kmov _ _ _ _ lit => lit
  | .fadd _ _ _ _ lit => lit
  | .fsub _ _ _ _ lit => lit
  | .fmul _ _ _ _ lit => lit
  | .fma _ _ _ _ lit => lit
  | .fnma _ _ _ _ lit => lit
  | .fdiv _ _ _ _ lit => lit
  | .fsqrt _ _ _ _ lit => lit
  | .frcp _ _ _ _ lit => lit
  | .fmin _ _ _ _ lit => lit
  | .fmax _ _ _ _ lit => lit
  | .fminm _ _ _ _ lit => lit
  | .fmaxm _ _ _ _ lit => lit
  | .fabs _ _ _ lit => lit
  | .fneg _ _ _ lit => lit
  | .fcpys _ _ _ _ lit => lit
  | .fcmp _ _ _ lit => lit
  | .fclass _ _ _ lit => lit
  | .frint _ _ _ lit => lit
  | .fscale _ _ _ _ lit => lit
  | .fgetx _ _ _ lit => lit
  | .sinpi _ _ _ lit => lit
  | .cospi _ _ _ lit => lit
  | .exp2 _ _ _ lit => lit
  | .log2 _ _ _ lit => lit
  | .rcpa _ _ _ lit => lit
  | .rsqa _ _ _ lit => lit
  | .tanh _ _ _ lit => lit
  | .fmtld _ _ _ lit => lit
  | .fmtrd _ lit => lit
  | .cvt _ _ _ lit => lit
  | .cvti _ _ _ lit => lit
  | .cvtf _ _ _ lit => lit
  | .pack _ _ _ lit => lit
  | .unpack _ _ _ lit => lit
  | .scale _ _ _ lit => lit
  | .ld _ _ _ _ _ lit => lit
  | .ldv _ _ _ _ lit => lit
  | .ldkB32 _ _ _ _ lit => lit
  | .ldkB64 _ _ _ _ lit => lit
  | .ldmx _ _ _ _ lit => lit
  | .acq _ _ _ _ lit => lit
  | .pref _ _ lit => lit
  | .st _ _ _ _ lit => lit
  | .stv _ _ _ lit => lit
  | .stmx _ _ _ lit => lit
  | .rel _ _ _ lit => lit
  | .flush _ _ lit => lit
  | .invl _ _ lit => lit
  | .fence _ => 0
  | .atom _ _ _ _ _ _ lit => lit
  | .acas _ _ _ _ _ lit => lit
  | .afadd _ _ _ _ lit => lit
  | .afmm _ _ _ _ _ lit => lit
  | .ared _ _ _ _ _ lit => lit
  | .aprog _ _ _ _ lit => lit
  | .apload _ _ lit => lit
  | .cpl _ _ _ lit => lit
  | .cpf _ _ _ lit => lit
  | .cpt _ _ _ lit => lit
  | .cpm _ _ _ lit => lit
  | .binit _ _ _ lit => lit
  | .arrive _ _ lit => lit
  | .expect _ _ _ lit => lit
  | .wait _ _ _ lit => lit
  | .cadd _ _ _ lit => lit
  | .cread _ _ _ _ lit => lit
  | .bseal _ lit => lit
  | .bwait _ lit => lit
  | .stallrd _ _ lit => lit
  | .mcfg _ lit => lit
  | .mldb _ _ lit => lit
  | .mma _ _ lit => lit
  | .mmas _ _ lit => lit
  | .mzero _ _ lit => lit
  | .mstore _ _ lit => lit
  | .mdrain _ _ lit => lit
  | .mrun _ _ lit => lit
  | .qmap _ _ lit => lit
  | .qunmap _ lit => lit
  | .qstat _ _ lit => lit
  | .qnotify _ lit => lit
  | .spawn _ _ _ lit => lit
  | .grow _ _ lit => lit
  | .job _ _ lit => lit
  | .launch _ _ _ lit => lit
  | .eqset _ lit => lit
  | .unite _ _ _ lit => lit
  | .find _ _ _ lit => lit
  | .same _ _ _ lit => lit
  | .relabel _ lit => lit
  | .eqsnap _ lit => lit
  | .equndo _ lit => lit
  | .eqdrop _ lit => lit
  | .eqsize _ lit => lit
  | .eqfence => 0
  | .region => 0
  | .sigchk lit => lit
  | .sigset lit => lit
  | .trap lit => lit
  | .sysc _ _ lit => lit
  | .brk => 0
  | .mfs _ lit => lit
  | .mts _ lit => lit
  | .bind _ _ lit => lit
  | .unbind _ lit => lit
  | .tlbinv _ _ lit => lit
  | .wcs _ _ lit => lit
  | .macroRun _ _ _ _ => 0
  | .checkpointSettle _ => 0
  | .resultLands _ _ => 0
  | .coolboxRelease _ => 0
  | .releaseWrite _ => 0
  | .l1Eviction _ _ _ => 0
  | .acknowledgement _ => 0
  | .atomicPerform _ => 0
  | .homeCommit _ => 0
  | .aprogRun _ => 0
  | .aprogTimeout _ => 0
  | .moved _ => 0
  | .trapRecordPost _ => 0
  | .faultRecordPost _ => 0
  | .errorRecordPost _ => 0
  | .arrayRebuild _ _ _ _ _ => 0
  | .rucksackSpill _ _ => 0
  | .rucksackRefill _ _ => 0
  | .copySegment _ => 0
  | .copyWriteLands _ => 0
  | .cpmAcknowledgement _ _ => 0
  | .commandStart _ _ => 0
  | .mldbSegment _ _ => 0
  | .mmaRow _ _ => 0
  | .mzeroRow _ _ => 0
  | .mstoreRow _ _ => 0
  | .mdrainRead _ _ => 0
  | .mdrainLanding _ _ => 0
  | .rowCommit _ _ => 0
  | .commandRetire _ _ => 0
  | .parentRead _ => 0
  | .lowerStep _ => 0
  | .linkStep _ => 0
  | .addStep _ => 0
  | .sameStep _ => 0
  | .relabelRun _ => 0
  | .markOperation _ => 0
  | .eqCommit _ => 0
  | .forestRelease _ => 0
  | .barrierArrival _ => 0
  | .expectation _ => 0
  | .engineCredit _ => 0
  | .waitWake _ => 0
  | .bindingUpdate _ => 0
  | .reservationGrant _ => 0
  | .linkCredit _ _ => 0
  | .strikeReport _ _ _ => 0
  | .admission _ _ => 0
  | .teamEnd _ => 0
  | .hamperTimer _ _ => 0
  | .teamEviction _ => 0
  | .readmission _ _ => 0
  | .timetableSlot _ => 0
  | .deferredLaunch _ => 0
  | .watchdog _ => 0
  | .resume _ _ => 0
  | .redirect _ _ => 0
  | .killTeam _ _ => 0
  | .killContext _ _ => 0
  | .resumepcWrite _ _ _ => 0
  | .replay _ _ _ => 0
  | .unresolvable _ _ _ => 0
  | .preempt _ _ _ => 0
  | .queueEntryWrite _ _ _ _ => 0
  | .clkmodeWrite _ => 0
  | .notifyRead _ => 0
  | .registerWrite _ _ _ => 0
  | .portBringUp _ _ => 0
  | .lossOfLock _ _ => 0
  | .linkRead _ _ _ _ _ _ => 0
  | .linkWrite _ _ _ _ _ _ => 0
  | .readData _ _ _ _ => 0
  | .writeAcknowledgement _ _ => 0
  | .refused _ _ => 0
  | .errorResponse _ _ => 0
  | .linkAtomic _ _ _ _ _ _ _ => 0
  | .atomicResult _ _ _ => 0
  | .hostTimeout _ _ => 0
  | .backInvalidate _ => 0
  | .cxlFailure _ => 0
  | .ptpEventMessage _ _ _ => 0
  | .clockLock _ => 0
  | .holdover => 0
  | .clkpairLatch => 0
  | .powerGrant _ => 0
  | .powerLimit _ => 0
  | .droop _ _ => 0
  | .emergencyThrottleBegin => 0
  | .emergencyThrottleEnd => 0
  | .orderlyShutdown => 0
  | .powerOff => 0
  | .packageReset => 0
  | .getVersion => 0
  | .getCapabilities _ => 0
  | .negotiateAlgorithms _ => 0
  | .getDigests => 0
  | .getCertificate _ _ _ => 0
  | .challenge _ _ => 0
  | .getMeasurements _ _ _ => 0
  | .keyExchange _ => 0
  | .finish _ => 0
  | .endSession => 0
  | .nullCall _ _ => 0
  | .launchCall _ _ _ => 0
  | .launchwait _ _ _ => 0
  | .mapCall _ _ _ _ _ _ => 0
  | .unmap _ _ _ _ => 0
  | .qcreate _ _ _ _ => 0
  | .qdestroy _ _ _ => 0
  | .bindthread _ _ _ => 0
  | .timeCall _ _ => 0
  | .timetableCall _ _ _ _ _ => 0
  | .loadpkg _ _ _ => 0
  | .migrate _ _ _ => 0
  | .exitCall _ _ _ => 0
  | .logCall _ _ _ _ => 0
  | .orderingPointAccess _ => 0
  | .rangerLoadStore _ _ _ _ => 0
  | .hubHoldRelease _ => 0
  | .trainingDone _ _ _ => 0
  | .migrationStream _ _ => 0
  | .resumptionConfirmed _ => 0

/-- The second literal word, which only a 64-bit ldi carries (R45). -/
def literal2 : Instr → Word
  | .ldi _ _ _ lit2 => lit2
  | _ => 0

/-- The words of an instruction: its own and the literal words that follow it. -/
def encode (i : Instr) : List Word :=
  match encodeWord i with
  | none => []
  | some w => w :: [literal i, literal2 i].take (litCount w)

/-- The instruction at the head of a list of bytes, with the bytes after it. -/
def decodeBytes (bs : List Byte) : Except DecodeError (Instr × List Byte) :=
  let word (k : Nat) : Word := BitVec.ofNat 32 (ofBytes ((bs.drop (4 * k)).take 4))
  (decode (word 0) (word 1) (word 2)).map fun i => (i, bs.drop (4 + 4 * litCount (word 0)))

/-- The instruction read from a word numbered as spec/opcode_table.json numbers it: words are stored
little-endian, the first at the lowest address (R40), and every bit above `nbits` is 0. -/
def decodeTableWord (nbits w : Nat) : Option Instr :=
  match decodeBytes (toBytes 12 (w % 2 ^ nbits)) with
  | .ok (i, _) => some i
  | .error _ => none

end Sys2Proof
end

