-- ==== Sys2Proof/Machine/State.lean ====
section
/-! DEFINITION. The state of the Decusk as plain data, and the machine right after package reset.

The state is divided as the spec divides it: what a team holds (and which part of it a checkpoint holds),
effects on their way out of a tile, memory and its caches, tables, queues, dispatched work, the engines,
the ports and the hub.  `now` counts tile-clock cycles since package reset (R418). -/

namespace Sys2Proof.Machine

/-- A 32-bit register or memory word with its poison bit (R98, R218). -/
structure PWord where
  w : Word
  p : Bool
deriving DecidableEq, Repr

/-- A value as an instruction handles it: 32-bit values are zero-extended; `p` is its poison bit (R106). -/
structure PVal where
  v : Dword
  p : Bool
deriving DecidableEq, Repr

/-- The condition codes of a lane and their poison bit (R101, R103). -/
structure Codes where
  n : Bool
  z : Bool
  c : Bool
  v : Bool
  p : Bool
deriving DecidableEq, Repr

/-- What a checkpoint holds of one lane: frame pointer, call depth, codes, XFLAGS, SEED (R68, R101, R175, R186). -/
structure Lane where
  fp : Word
  depth : Word
  cc : Codes
  xflags : BitVec 5
  seed : Word
deriving DecidableEq, Repr

/-- A group of lanes at one PC, with its wait start (a cycle and the team's issue count then) and its
signature state (R83, R192). -/
structure Group where
  pc : BitVec 48
  mask : LaneMask
  waitTime : Nat
  waitIssue : Nat
  sig : Word
  sigOk : Bool
deriving DecidableEq, Repr

/-- The mode word (R48, Table 3-3), read through the accessors of Machine/Ops.lean. -/
abbrev Mode := BitVec 21

/-- A group that has moved to the overflow region (R88): its entry there, whether the entry's write has been formed (else the
group's account here stands, log entry 25), and the lanes that have joined the group since, which the entry does not show. -/
structure Moved where
  entry : Nat
  group : Group
  stored : Bool
  joins : LaneMask
deriving DecidableEq, Repr

/-- What a checkpoint holds of a team (R186): the PC of the current group, where the team resumes (and where a REP or macro under way
stands, R85), the group table with its moved entries (R88), the lanes, the mode word, k0-k31, nf0-nf15, a REP under way (iteration,
count, bytes from the REP to what follows it), the macro operation, the port table, the current forest, and the lanes for which a
parked instruction has still to be performed (R182, R221; log entry 15). -/
structure Arch where
  pc : BitVec 48
  groups : List Group
  moved : List Moved
  lanes : List Lane
  mode : Mode
  k : List PWord
  nf : List Word
  rep : Option (Nat × Nat × Nat)
  mac : Option Nat
  ports : List (Option Word)
  forest : Option Nat
  only : Option (BitVec 48 × LaneMask)
deriving DecidableEq, Repr

/-- A checkpoint: its time, its retried bit, and the state it restores (R186).  `id` names it. -/
structure Ckpt where
  id : Nat
  time : Nat
  retried : Bool
  arch : Arch
deriving DecidableEq, Repr

/-- The frame stack of one lane: the resident range [lo, hi), the slot below which chunks above `hi` come back from the spill area
after a readmission (R96), the resident slots, whether its frame pointer last moved up, and the chunks whose spill is still held
(R68, R89, R91, R93). -/
structure Frame where
  lo : Nat
  hi : Nat
  top : Nat
  slots : Fmap PWord
  up : Bool
  spilling : List Nat
deriving DecidableEq, Repr

/-- Where a result lands: a slot of a lane fixed at issue (R69), a uniform register, a queue port, a format
register, or nowhere. -/
inductive Dest where
  | slot (lane n : Nat)
  | uni (n : Nat)
  | port (q : Nat)
  | fmt (n : Nat)
  | none
deriving DecidableEq, Repr

/-- What lands for one lane: the destination, the 32-bit words of the value in ascending slots, and the codes
and exception flags that land with it; `words` is empty until the value is known. A lane's result lands no earlier than `due`, each
lane's at a time of its own (R46). -/
structure LaneResult where
  lane : Nat
  dest : Dest
  width : Nat
  due : Nat
  ready : Bool
  words : List PWord
  cc : Option Codes
  xf : BitVec 5
deriving DecidableEq, Repr

/-- Bytes one lane writes at an address; each byte carries the poison bit of the word it comes from (R218). -/
structure Piece where
  lane : Nat
  ea : Nat
  data : List (Byte × Bool)
deriving DecidableEq, Repr

/-- What an atomic computes (R282-R286): an operation of Table 13-2, compare and swap, a floating addition or
a floating minimum or maximum, on `w` bytes; the floating ones carry the mode captured at issue. -/
inductive AtomOp where
  | alu (op w : Nat)
  | cas (w : Nat)
  | fadd (w : Nat) (mode : Mode)
  | fmm (w : Nat) (max : Bool) (mode : Mode)
deriving DecidableEq, Repr

/-- One lane's atomic: its address, operand and second operand (the new value of ACAS, the routine of APROG). -/
structure AtomReq where
  lane : Nat
  ea : Nat
  v : PVal
  x : PVal
deriving DecidableEq, Repr

/-- What a held effect does when it leaves the Coolbox (R37, R437). Lanes' items are in ascending lane order.
`pid` names the pending result that the effect completes; `regions` lists the objects released with the regions
that were bound to them at issue (R315). -/
inductive Effect where
  | write (ps : List Piece) (unit : Bool)
  | rel (ps : List Piece) (regions : List (Nat × Nat × Nat))
  | arrive (eas : List (Nat × Nat)) (regions : List (Nat × Nat × Nat))
  | expect (pid : Nat) (xs : List (Nat × Nat × Nat))
  | cadd (xs : List (Nat × Nat × PVal)) (regions : List (Nat × Nat × Nat))
  | atomic (pid : Option Nat) (op : AtomOp) (xs : List AtomReq)
  | aprog (pid : Nat) (xs : List AtomReq)
  | apload (ea idx : Nat) (mask : LaneMask)
  | efload (pid : Nat) (signed : Bool) (xs : List (Nat × Nat × Nat))
  | flush (ea len : Nat)
  | copy (cids : List Nat)
  | command (mid : Nat)
  | mcfg (chan : Nat)
  | push (handle : Word) (words : List (Nat × PWord))
  | pop (handle : Word) (slots : List Nat)
  | notify (handle : Word)
  | spawn (pid : Nat) (xs : List (Nat × Nat))
  | grow (pid n : Nat)
  | job (ea : Nat)
  | launch (pid ea : Nat)
  | forest (rid : Nat)
  | bind (base pages obj : Nat) (mask : LaneMask)
  | unbind (base : Nat) (mask : LaneMask)
  | spill (chunk : Nat) (p : Piece)
  | entry (n : Nat) (p : Piece)
  | trap (record : List Byte)
deriving DecidableEq, Repr

/-- An effect held in a Coolbox: its number, its tile and team, the issue that formed it with its active lanes, the cycle from which
it is held (its issue, or the landing of a Format L push, R432), and its units. -/
structure Held where
  id : Nat
  tile : Nat
  side : Nat
  uid : Nat
  ctx : Nat
  issue : Nat
  pc : BitVec 48
  word : Word
  mask : LaneMask
  since : Nat
  units : Nat
  eff : Effect
deriving DecidableEq, Repr

/-- What is done at an ordering point, or comes back from one (R294, R308). A load serves the lanes of one instruction that read one
line, or uncached one address (lane, address, the bytes the tile itself supplies; R214), and `fill` says whether it brings the line and whether that is still to
be merged (R213); `ask` is a request to the dispatcher that follows write-backs (R452, R455, R460). -/
inductive Act where
  | write (ps : List Piece)
  | load (pid : Nat) (xs : List (Nat × Nat × List (Option (Byte × Bool)))) (n : Nat) (signed : Bool) (fill : Option Bool)
  | object (pid lane ea n : Nat) (acquire : Bool)
  | atomic (pid : Option Nat) (op : AtomOp) (r : AtomReq)
  | aprog (pid : Nat) (r : AtomReq)
  | arrive (lane ea : Nat)
  | expect (pid lane ea n : Nat)
  | credit (ea n : Nat) (mask : LaneMask)
  | fetch (owner n : Nat)
  | count (ea : Nat) (n : PVal)
  | relWrite (p : Piece)
  | ask (mask : LaneMask) (e : Effect)
  | bind (base pages obj : Nat) (mask : LaneMask)
  | unbind (base : Nat) (mask : LaneMask)
  | pair (pid ea n : Nat) (own : List (Option (Byte × Bool))) (lanes : List Nat) (sb : Nat)
  | ack (pid : Option Nat) (rs : List (Nat × List PWord)) (xf : BitVec 5) (failed : Option Nat) (ea n : Nat)
  | filled (pid : Nat) (xs : List (Nat × Nat × List (Option (Byte × Bool)))) (n : Nat) (signed : Bool) (line : List (Byte × Bool)) (merge : Bool)
deriving DecidableEq, Repr

/-- A request on its way to an ordering point (R26, R296): when it arrives, whose it is, the point (see
`pointOf`), its first byte's virtual address and key, the items it follows, and how often it was answered "moved" in
a row (R293). The bytes of its act are named by virtual address. -/
structure Net where
  id : Nat
  due : Nat
  tile : Nat
  side : Nat
  uid : Nat
  ctx : Nat
  issue : Nat
  pc : BitVec 48
  word : Word
  point : Nat
  va : Nat
  pa : Nat
  tries : Nat
  after : List Nat
  act : Act
deriving DecidableEq, Repr

/-- A pending long-latency result of a team (R46): its register and number of words, the lookahead window
(issue count at issue and la), the earliest cycle at which it lands, the checkpoint it is also written into
(R188), and flags: it is an atomic (R280), an acquire (R300) whose regions `range` holds, has codes pending, or gives
one value to all its lanes or was performed once for them; the lanes active at its issue; whether the trap of its failed lanes has been raised; the descriptor its elements' padding is checked against (R137), the queue
slots reserved for its words (R432), and the requests of lanes that failed, which a Resume makes again (R47). -/
structure Pend where
  id : Nat
  pc : BitVec 48
  word : Word
  issue : Nat
  issueNo : Nat
  la : Nat
  reg : Reg
  due : Nat
  ckpt : Option Nat
  atomic : Bool
  acq : Bool
  hasCc : Bool
  bcast : Bool
  once : Bool
  mask : LaneMask
  raised : Bool
  failed : LaneMask
  cause : Nat
  tval : List (Nat × Dword)
  range : List (Nat × Nat)
  fmt : Option Word
  slots : List Nat
  redo : List Net
  results : List LaneResult
deriving DecidableEq, Repr

/-- A trap that an engine, a home or the dispatcher raises for a team, taken at its next instruction
boundary (R246); `replay` marks one of a Format L instruction, whose unfinished lanes a Resume performs (R47). -/
structure Deferred where
  cause : Nat
  pc : BitVec 48
  time : Nat
  word : Word
  mask : LaneMask
  tval : List (Nat × Dword)
  replay : Bool
deriving DecidableEq, Repr

/-- A parked trap (R178, R182): cause, mask, per-lane values, RESUMEPC, the trapping group's PC, whether it
arose in a REP or a macro, the record's bytes, the pair a SYSC result goes to, and whether a Resume makes the unfinished requests of a
Format L instruction again while its group goes on where it stopped (R47). -/
structure Park where
  cause : Nat
  mask : LaneMask
  tval : List (Nat × Dword)
  pc : BitVec 48
  time : Nat
  resumePc : BitVec 48
  groupPc : BitVec 48
  inRep : Bool
  inMac : Bool
  record : List Byte
  sysc : Option Reg
  replay : Bool
deriving DecidableEq, Repr

/-- The state of a team slot as STATUS shows it (Table 8-5). -/
inductive Status where
  | running
  | waiting
  | trapParked
  | faultParked
  | preempted
deriving DecidableEq, Repr

/-- What a WAIT waits for (R411): its PC, the object and its target, since when, whether it is external (R416), and the regions bound to
the object at its issue, which it acquires (R315). It stays while a woken team has still to evaluate the WAIT again. -/
structure Waiting where
  pc : BitVec 48
  ea : Nat
  target : Nat
  since : Nat
  ext : Bool
  regions : List (Nat × Nat)
deriving DecidableEq, Repr

/-- A range-scoreboard entry: the copy instruction's number and its source and destination hulls (R243). -/
structure Score where
  ins : Nat
  src : List (Nat × Nat)
  dst : List (Nat × Nat)
deriving DecidableEq, Repr

/-- A batch: how many copies it still counts; a tag's history for rollback (R413, R415). -/
structure BatchLog where
  time : Nat
  tag : Nat
  sealing : Bool
  copies : List Nat
deriving DecidableEq, Repr

/-- Who a team is and what its launch gave it (R31-R33, R98, R443, R449). -/
structure Ident where
  uid : Nat
  tile : Nat
  side : Nat
  slot : Nat
  half : Nat
  ctx : Nat
  work : Nat
  group : Nat
  member : Nat
  gid : Nat
  wcode : Nat
  span : Nat
  frame : Nat
  w1 : Nat
  w2 : Nat
  wid : Dword
  cls : Nat
  yield : Nat
  trapEntry : BitVec 48
  spill : Nat
  spillSize : Nat
  counter : Nat
  records : List (Nat × Nat)
  admitted : Nat
deriving DecidableEq, Repr

/-- System registers outside checkpoints (R175), the last redirect and the retry counter. -/
structure SysRegs where
  tcause : BitVec 7
  tpc : BitVec 48
  tval : List Dword
  tlane : LaneMask
  retry : BitVec 16
  retryCause : BitVec 7
deriving DecidableEq, Repr

/-- What issue selection knows of a team: its issues so far, the cycle of the last one, the stall of this
cycle, the quantum of the starvation guard, a YIELD in force (R82, R86, R87, R462), the PCs of groups that are parked on the fault of
their fetch (R324), whether its live ranges have still to come back after a readmission (R96), and whether it is being pre-empted, by
eviction or otherwise (R463, R466). -/
structure Sched where
  issues : Nat
  lastIssue : Nat
  stallCause : Nat
  stallTime : Nat
  quantum : Nat
  parked : List (BitVec 48)
  refilling : Bool
  yielded : Option (BitVec 48)
  passOver : Bool
  preempt : Bool
  evict : Bool
deriving DecidableEq, Repr

/-- A team (R33).  `fence` holds the write-backs that a fence under way has still to see acknowledged (R308), `drained` those of its
pre-emption (R314), `links` the words of redirect links whose slots are not resident yet (lane, slot, words; R183). -/
structure Team where
  id : Ident
  status : Status
  arch : Arch
  shadow : List (BitVec 48 × LaneMask)
  frames : List Frame
  ckpts : List Ckpt
  pend : List Pend
  deferred : List Deferred
  park : Option Park
  wait : Option Waiting
  sys : SysRegs
  sched : Sched
  score : List Score
  openBatch : List Nat
  tags : List (Nat × List Nat)
  batchLog : List BatchLog
  grants : List (Nat × List (Nat × PWord))
  wants : Option (Nat × Nat)
  children : List Nat
  fence : Option (List Nat)
  drained : Option (List Nat)
  links : List (Nat × Nat × List PWord)
deriving DecidableEq, Repr

/-- The writable registers of one team slot's window (R184, Table 8-4) and its refused and busy bits. -/
structure Window where
  resumePc : Dword
  result : Dword
  issueA : Dword
  issueB : Dword
  refused : Bool
  busy : Bool
deriving DecidableEq, Repr

/-- A result a home slice has formed and holds until it commits (R288): the acknowledgement it then sends. -/
structure HomeHold where
  id : Nat
  home : Nat
  line : Nat
  formed : Nat
  reply : Net
deriving DecidableEq, Repr

/-- A line of a tile's L1 (R211): its tag, its byte masks, its bytes and its word poison bits. -/
structure Line where
  tile : Nat
  ctx : Nat
  va : Nat
  valid : BitVec 64
  dirty : BitVec 64
  bytes : List Byte
  poison : BitVec 16
deriving DecidableEq, Repr

/-- A TLB entry of a tile (R322): context, page base, page size, leaf. -/
structure Tlb where
  tile : Nat
  ctx : Nat
  va : Nat
  size : Nat
  pte : Dword
deriving DecidableEq, Repr

/-- An entry of a tile's cache of table entries (R322): the table's level, the first address it maps, and the entry. -/
structure TableEntry where
  tile : Nat
  ctx : Nat
  level : Nat
  va : Nat
  entry : Nat
deriving DecidableEq, Repr

/-- A page that the resident system moves (R335): its first 4 KiB frame, the new one and how many; its context and virtual address; the
place of its table entry and the entry's new value; the steps of R335 that are done; and the writes to a peer that are under way. -/
structure Moving where
  frame : Nat
  target : Nat
  count : Nat
  ctx : Nat
  va : Nat
  entry : Nat
  pte : Dword
  stage : Nat
  ids : List Nat
deriving DecidableEq, Repr

/-- Memory: every byte held at an ordering point, by key, and the poison of its words (R218).  The key of a
byte is its physical address, or for a scratchpad byte its virtual address: the two never meet (Table 10-2). -/
structure Mem where
  bytes : List Host.Cell
  poison : Fmap Bool
  lines : List Line
  tlb : List Tlb
  table : List TableEntry
  moving : List Moving
deriving DecidableEq, Repr

/-- A ring of slots with its counters F, H, V and T, its written and void slots and its returned slots
(R426, R429, R430, R439). -/
structure Ring where
  size : Nat
  free : Nat
  head : Nat
  rsv : Nat
  tail : Nat
  written : List Nat
  void : List Nat
  freed : List Nat
  returned : List Nat
deriving DecidableEq, Repr

/-- A tile queue entry (Table 21-2). -/
structure TileQueue where
  valid : Bool
  ext : Bool
  ctx : Nat
  gen : Nat
  scope : Nat
  base : Nat
  ring : Ring
deriving DecidableEq, Repr

/-- A Ranger thread's notify register and queue (R365, R366): the ring of 4,096 words and its contents. -/
structure Thread where
  notify : Nat
  ring : Ring
  words : Fmap PWord
deriving DecidableEq, Repr

/-- A Ranger thread's RISC-V hart (R365): whether it runs at all (log entry 104), waits in WFI, or for a system call's result (context
and identifier); its PC, integer and float registers, control and status registers by number, mode (0 user, 1 supervisor, 3
machine), reservation (address, bytes, value), and the time of its next instruction in fifths of a tile cycle (R2: 2.0 GHz). -/
structure Hart where
  run : Bool
  wfi : Bool
  calling : Option (Nat × Dword)
  pc : Dword
  x : List Dword
  f : List Dword
  csr : Fmap Dword
  mode : Nat
  resv : Option (Nat × Nat × Nat)
  due : Nat
deriving DecidableEq, Repr

/-- A link-queue entry (Table 21-8) with the hub's reservation count, the reservations passed (sent or void), the consumed count
last reported, the words that wait for earlier ones, and the reservations that became void (R427, R439). -/
structure LinkQueue where
  q0 : Dword
  q1 : Dword
  q2 : Dword
  sent : Nat
  rsv : Nat
  passed : Nat
  consumed : Nat
  ready : Fmap PWord
  void : List Nat
deriving DecidableEq, Repr

/-- A launch record or profile, its fields as Table 22-2 names them. -/
structure Profile where
  entry : Nat
  widths : List Nat
  wcode : Nat
  span : Nat
  cls : Nat
  yield : Nat
  frame : Nat
  groups : Nat
  maxGroups : Nat
  teams : Nat
  share : Nat
  scratch : Nat
  spill : Nat
  spillSize : Nat
  maxDepth : Nat
  sync : Nat
  counter : Nat
  trapEntry : Nat
  args : List Word
deriving DecidableEq, Repr

/-- A kernel of a context's packages (R374-R378): its profile, task entries with their argument counts, macro
bodies, landing index, the addresses of its stub and its code, its code as relocated, and whether it is loaded. -/
structure Kernel where
  ctx : Nat
  profile : Profile
  tasks : List (Nat × Nat)
  macros : List (Nat × List Word)
  index : Nat
  stub : Nat
  base : Nat
  code : List Byte
  loaded : Bool
  lastLaunch : Nat
deriving DecidableEq, Repr

/-- What a unit of dispatched work is (Table 22-1). -/
inductive WorkKind where
  | grid
  | job (argbase recsize count slots : Nat)
  | task (lanes : List (List Word)) (team : Bool) (depth : Nat)
deriving DecidableEq, Repr

/-- A grid, a job or the records of one Hamper team: the dispatcher's account of it (R442-R461). -/
structure Work where
  id : Nat
  ctx : Nat
  kind : WorkKind
  profile : Profile
  record : Nat
  since : Nat
  count : Nat
  next : Nat
  live : Nat
  ended : Nat
  credits : List (Nat × Nat)
  cluster : Nat
  hamper : Nat
  slotsUsed : List Nat
  timetable : Option Nat
  asked : Bool
  killed : Bool
  complete : Bool
deriving DecidableEq, Repr

/-- A task record accepted by the dispatcher (Table 22-9). -/
structure Task where
  ctx : Nat
  entry : Nat
  args : List Word
  counter : Nat
  sync : Nat
  depth : Nat
  cls : Nat
  team : Bool
  record : Nat
deriving DecidableEq, Repr

/-- A Hamper of a cluster (R457): its key, the records it holds, and when the first entered. -/
structure Hamper where
  cluster : Nat
  index : Nat
  tasks : List Task
  since : Nat
  formed : Bool
deriving DecidableEq, Repr

/-- A Timetable entry (Table 22-10) and its slots: the launch it last started, one deferred launch, and the
next slot's device time. -/
structure TimeEntry where
  lo : Dword
  hi : Dword
  last : Option Nat
  deferred : Bool
  next : Nat
deriving DecidableEq, Repr

/-- A parked translation fault (R324-R326): who waits for the reply, on which lanes, segment or walk; `eas` holds the address of
each lane where lanes have their own; `stops` says that the team itself is parked. -/
structure ParkedFault where
  seq : Nat
  ctx : Nat
  unit : Nat
  uid : Nat
  slotKey : Nat
  item : Nat
  pc : BitVec 48
  word : Word
  issue : Nat
  time : Nat
  mask : LaneMask
  va : Nat
  write : Bool
  readWrite : Bool
  level : Nat
  posted : Bool
  reply : Nat
  id : Nat
  eas : List (Nat × Dword)
  stops : Bool
deriving DecidableEq, Repr

/-- Which ring a record is for. -/
inductive RecordKind where
  | trap
  | fault
  | error
deriving DecidableEq, Repr

/-- A record on its way to a ring: how far its posting has come (R180): 0 waits for a slot, 1 for queue room. -/
structure Posting where
  id : Nat
  kind : RecordKind
  ctx : Option Nat
  place : Nat
  uid : Nat
  bytes : List Byte
  stage : Nat
  index : Nat
deriving DecidableEq, Repr

/-- A context (R33) and its control block (Table 17-8), its routines (R289), pending pool (R458), task spill
areas in use (R459), handle counters and record sequence; `bindOld` holds the binding caches that an update of the binding table has
not reached yet (tile, until when, entries; R332, R333). -/
structure Ctx where
  id : Nat
  root : Dword
  tag : Nat
  window : Nat
  fired : Bool
  external : Bool
  progress : Nat
  measuring : Bool
  thread : Nat
  htimer : Nat
  bindBase : Nat
  bindOld : List (Nat × Nat × List (Nat × Nat × Nat))
  grant : Dword
  trapBase : Nat
  trapLog : Nat
  trapHead : Nat
  trapTail : Nat
  faultBase : Nat
  faultLog : Nat
  faultHead : Nat
  faultTail : Nat
  poolBase : Nat
  poolSize : Nat
  tspill : Nat
  tspillSize : Nat
  seq : Nat
  pool : List Task
  areas : List (Nat × Nat × Nat)
  routines : Fmap (List Word)
  links : Fmap LinkQueue
  rights : Fmap Nat
  landing : Nat
  heap : Nat
  heapEnd : Nat
deriving DecidableEq, Repr

/-- A process of the resident system (R370-R380): its contexts' handles, reply cache, log and migration state. -/
structure Proc where
  ctx : Nat
  cache : List (Nat × Dword)
  lowest : Nat
  handles : List (Nat × Nat)
  queues : List Word
  threads : List Nat
  log : List Byte
  migrating : Option Nat
  frozen : Bool
  ended : Option Dword
deriving DecidableEq, Repr

/-- The fields of a tensor layout record (Table 11-3). -/
structure Layout where
  src : Nat
  dst : Nat
  unit : Nat
  rank : Nat
  ext : List Nat
  stride : List Nat
  box : List Nat
  pitch : Nat
deriving DecidableEq, Repr

/-- What a copy moves (R236, R237, R240, R242); `targets` of CPM are the windows' destinations and barriers. -/
inductive CopyKind where
  | cpl
  | cpf (pattern : Word)
  | cpt (layout : Layout) (coords : List Int)
  | cpm (targets : List (Nat × Nat))
deriving DecidableEq, Repr

/-- A copy (R234): one lane's part of the instruction `ins`, its ranges (`valid` bytes of source), its sink (0 batch,
1 barrier, 2 counter), its progress by 64-byte destination segment, the segments held with the time they were
formed, the writes under way (request, target), how many segments have landed for each target, and CPM's
acknowledgements on their way (target, time). -/
structure Copy where
  cid : Nat
  ins : Nat
  tile : Nat
  side : Nat
  uid : Nat
  ctx : Nat
  issue : Nat
  pc : BitVec 48
  word : Word
  lane : Nat
  mask : LaneMask
  kind : CopyKind
  src : Nat
  dst : Nat
  len : Nat
  valid : Nat
  sink : Nat
  sinkEa : Nat
  started : Bool
  next : Nat
  total : Nat
  held : List (Nat × Nat × List Piece)
  writes : List (Nat × Nat)
  landed : List Nat
  acks : List (Nat × Nat)
  acked : Nat
  parked : Bool
  finished : Bool
deriving DecidableEq, Repr

/-- A macro set of a matrix engine (R248): its type (none = 31) and descriptor, its shape flag, its context,
and its cells, scales and metadata (elements absent read 0, 127 and 0b0100). -/
structure MacroSet where
  typ : Nat
  desc : Word
  sparse : Bool
  ctx : Option Nat
  cells : Fmap PVal
  scales : Fmap PVal
  metas : Fmap PVal
deriving DecidableEq, Repr

/-- A channel of a matrix engine (R252), with its group's window; `spent` is its part of the compute unit's cycles so far, scaled
by its share (R260). -/
structure Channel where
  chan : Nat
  gid : Nat
  ctx : Nat
  base : Nat
  size : Nat
  ring : Nat
  rsize : Nat
  accBase : Nat
  accCount : Nat
  sets : Nat
  types : List Nat
  descs : List Word
  number : Nat
  halted : Bool
  fetchable : Bool
  share : Nat
  spent : Nat
deriving DecidableEq, Repr

/-- A matrix command from its issue to its retirement (R257-R262): its record, and how far it has come.
`row` is the first row, segment or segment record not yet formed; `done` counts those whose update has committed; the B type,
descriptor and flag are those its set had at its issue (R263), `prior` those that an MLDB replaced (R257); `arow` is the row of A
read when the row in progress started (R311). -/
structure Command where
  mid : Nat
  chan : Nat
  number : Nat
  parent : Option Nat
  op : Nat
  record : List Word
  uid : Nat
  ctx : Nat
  gid : Nat
  pc : BitVec 48
  word : Word
  issue : Nat
  written : Bool
  void : Bool
  started : Bool
  row : Nat
  busyUntil : Nat
  done : Nat
  credited : Option Nat
  parked : Bool
  stopped : Bool
  posted : Bool
  pid : Option Nat
  btyp : Nat
  bdesc : Word
  bsparse : Bool
  prior : Nat × Word × Bool
  arow : Option (List (Byte × Bool))
deriving DecidableEq, Repr

/-- A held update of a matrix engine (R263, R271): accumulator words, status bits (a command number × 4, the strict bit 2, the
redundant bit 1), window bytes, parts of a macro set (set × 4 + 0 a cell, 1 a scale, 2 a code, 3 a column to clear; its key; its
value) or drained values. -/
structure RowHold where
  hid : Nat
  mid : Nat
  row : Nat
  formed : Nat
  acc : List (Nat × PWord)
  status : List (Nat × Nat)
  cells : List (Nat × Nat × PVal)
  bytes : List Piece
  vals : List (Nat × Nat × List PWord)
deriving DecidableEq, Repr

/-- A tile's matrix engine (R248-R274); `turn` is the fair queue's time, by which the compute unit is shared (R260); `numbers` are the
next command numbers of channels that no group holds (R254). -/
structure Engine where
  turn : Nat
  sets : List MacroSet
  acc : Fmap PWord
  status : Fmap Nat
  owners : Fmap Nat
  channels : List Channel
  cmds : List Command
  holds : List RowHold
  old : List (Nat × List Channel)
  numbers : Fmap Nat
deriving DecidableEq, Repr

/-- A group of teams on a tile (R33, R329): its window, how many of its teams have not ended, and once its last resident team
is pre-empted the bytes of its window with the poisoned ones and its part of the matrix engine (R274, R469). -/
structure GroupRt where
  gid : Nat
  ctx : Nat
  work : Nat
  number : Nat
  gang : Nat
  gslot : Nat
  tile : Nat
  slot : Nat
  window : Option Nat
  base : Nat
  size : Nat
  live : Nat
  kernel : Nat
  share : Nat
  saved : Option (List Host.Cell × List Nat)
  part : Option Engine
deriving DecidableEq, Repr

/-- A live forest (R336-R338, R351, R355): its descriptor's address and key, where its arrays are, its registers, the
room that links have reserved in its log, and its marks (logfill, classes, maxsize, maxroot). -/
structure Forest where
  fid : Nat
  engine : Nat
  ctx : Nat
  va : Nat
  key : Nat
  count : Nat
  parent : Nat
  size : Nat
  log : Nat
  logCap : Nat
  logFill : Nat
  reserved : Nat
  classes : Nat
  maxSize : Nat
  maxRoot : Nat
  marks : List (Nat × Nat × Nat × Nat)
deriving DecidableEq, Repr

/-- Where a walk stands (Tables 16-2 and 16-4). -/
inductive WalkStage where
  | find (second : Bool) (y : Nat) (path : List Nat)
  | lower (second : Bool) (path : List Nat) (root : Nat)
  | link
  | add (r s : Nat)
  | check
  | done (res : Nat) (z : Bool)
deriving DecidableEq, Repr

/-- A walk of one lane (R343): its kind (0 unite, 1 find, 2 same), elements, the roots found, its stage. -/
structure Walk where
  wid : Nat
  rid : Nat
  lane : Nat
  kind : Nat
  x : Nat
  y : Nat
  rx : Nat
  ry : Nat
  poison : Bool
  stage : WalkStage
  parked : Bool
  arrived : Nat
deriving DecidableEq, Repr

/-- A request to an equivalence engine (R347, R352, R355, R359): walks (kinds of Walk), RELABEL (3), EQSNAP (4), EQUNDO (5), EQDROP (6),
EQSIZE (7), whose register number `block` holds; `results` lists the lanes whose walks are over, or a RELABEL's result writes over
links; `layouts` holds a RELABEL's records, `order` the order in which it adds, and its `lanes` its leader. -/
structure EqReq where
  rid : Nat
  kind : Nat
  forest : Nat
  uid : Nat
  tile : Nat
  side : Nat
  ctx : Nat
  pc : BitVec 48
  word : Word
  issue : Nat
  pid : Option Nat
  block : List PWord
  lanes : List (Nat × PWord × PWord)
  arrived : Option Nat
  progress : Nat
  layouts : List Layout
  order : Nat
  results : List Nat
  parked : Bool
deriving DecidableEq, Repr

/-- A write or result an equivalence engine has formed and holds (R363): `n` bytes `v` at a key, or a result whose codes' Z is `n`;
`wid` is the walk, or a RELABEL's progress; `before` is the forest as it stood.  A write of the descriptor, as a forest becomes live or
is released, belongs to no request (`rid` 0). -/
structure EqHold where
  hid : Nat
  engine : Nat
  rid : Nat
  wid : Nat
  formed : Nat
  va : Nat
  pa : Nat
  n : Nat
  v : Nat
  p : Bool
  result : Bool
  before : Forest
deriving DecidableEq, Repr

/-- The equivalence engines of all clusters (16). -/
structure EqEngines where
  forests : List Forest
  reqs : List EqReq
  walks : List Walk
  holds : List EqHold
deriving DecidableEq, Repr

/-- A message that leaves the package, or a value that a Ranger load or CSR access returns to its thread. A flit of an atomic (op 6)
names its operation with its mode and operands, one of its result (op 7) the conditions raised (R278, R285; log entry 18). -/
inductive Out where
  | value (place : Nat) (v : Dword)
  | atomic (port tag addr : Nat) (op : AtomOp) (v x : PVal)
  | result (port tag : Nat) (bytes : List Byte) (poison : BitVec 16) (conds : BitVec 5)
  | flit (port tag op : Nat) (addr : Nat) (bytes : List Byte) (poison : BitVec 16) (demand : Bool)
  | reply (ctx : Nat) (id : Dword) (result : Dword)
  | spdm (code : Nat) (bytes : List Byte)
  | ptp (nic : Nat) (stamp : Dword)
  | stream (ctx : Nat) (bytes : List Byte)
  | announce (ctx : Nat)
  | refusal (ctx status : Nat)
  | snoop (pa : Nat)
deriving DecidableEq, Repr

/-- An optical port (R384-R387): PSTAT, timeout in µs, and whether it is paused for a retrain. -/
structure Port where
  state : Nat
  failed : BitVec 8
  spare : Bool
  spareBad : Bool
  replaced : Nat
  retrains : Nat
  timeout : Nat
  pause : Bool
  lost : Nat
  peer : Nat
deriving DecidableEq, Repr

/-- A request outstanding on a port (R389, R392): its tag and what it completes. -/
structure Outstanding where
  port : Nat
  tag : Nat
  time : Nat
  bytes : Nat
  write : Bool
  demand : Bool
  item : Net
deriving DecidableEq, Repr

/-- An effect the hub holds for Q cycles toward tiles, memory or links (Table 21-6, R438). -/
structure HubHold where
  id : Nat
  formed : Nat
  msg : Out
deriving DecidableEq, Repr

/-- The two clocks (R418, R419): device time = `devBase` + (cycles since `atCycle`) × 5/8 ns, slewed; `stepped` is what the step at
the first lock added. -/
structure Clock where
  devBase : Nat
  atCycle : Nat
  slew : Int
  stepped : Int
  locked : Bool
  holdover : Bool
  mode : Bool
  pairDev : Nat
  pairTile : Nat
  port : Nat
deriving DecidableEq, Repr

/-- Power and shutdown (R399-R401): the limit, the grants, the cycle until which a tile's issue cycles are withheld, emergency
throttle, shutdown. -/
structure Power where
  limit : Nat
  grants : List Nat
  withheld : Fmap Nat
  throttle : Bool
  offAt : Option Nat
  off : Bool
deriving DecidableEq, Repr

/-- The root of trust's SPDM connection (R397, R398): how far it is negotiated, its session, whether a tenant has attested the
device, and its transcript. -/
structure Trust where
  stage : Nat
  session : Bool
  pending : Bool
  attested : Bool
  transcript : List Byte
deriving DecidableEq, Repr

/-- A privileged issue that is executing (R185): its window, its word, and for TLBINV the requests it waits for once
it has removed its entries (R334). -/
structure Priv where
  key : Nat
  word : Word
  waits : Option (List Nat)
deriving DecidableEq, Repr

/-- A damaged word that a recovery engine rebuilds (R216): its tile, array, address, and the cycle until which a read of it waits. -/
structure Rebuild where
  tile : Nat
  kind : Nat
  address : Nat
  until_ : Nat
deriving DecidableEq, Repr

/-- The tables the dispatcher and Ranger keep for the tiles: window table (R328), quota table (R446), tile
queues (R426), control stores (R66), route table (R381), device error ring (R367), stall counters (R420), and the
privileged issues that are executing (R185). -/
structure Tables where
  windows : Fmap Dword
  zones : List (Nat × Nat × Nat × Nat)
  quotas : Fmap (BitVec 128)
  queues : Fmap TileQueue
  store : Fmap Word
  storePoison : Fmap Bool
  rebuilds : List Rebuild
  routes : Fmap Dword
  errBase : Nat
  errHead : Nat
  errTail : Nat
  counters : Fmap Nat
  slotWindows : Fmap Window
  priv : List Priv
deriving DecidableEq, Repr

/-- The dispatcher: works, groups, Hampers, Timetable and the images of pre-empted teams (22). -/
structure Dispatcher where
  works : List Work
  groups : List GroupRt
  hampers : List Hamper
  timetable : Fmap TimeEntry
  images : List Team
  kernels : List Kernel
deriving DecidableEq, Repr

/-- Ports, the hub and everything outside the compute dies (17, 18); `os` says whether the resident operating system serves calls by
itself (R370; log entry 129). -/
structure Hub where
  threads : Fmap Thread
  harts : Fmap Hart
  os : Bool
  ports : Fmap Port
  outstanding : List Outstanding
  hold : List HubHold
  cxlDown : List Nat
  clock : Clock
  power : Power
  trust : Trust
  procs : List Proc
  procMem : Nat
deriving DecidableEq, Repr

/-- The state of the Decusk.  `cur` is the team that issues; the other resident teams are in `teams`.
`inbox` holds the steps of the outside world still to come, each with its time, `draws` and `serial` feed the times, choices and
values the spec leaves open, `fetched` the window bytes that engines have read over a link (owner, address, cause of
a failure or 0), `busy` the cycles until which each side is occupied, `out` what left the package. -/
structure State where
  now : Nat
  cur : Team
  teams : List Team
  coolbox : List Held
  net : List Net
  homeHolds : List HomeHold
  mem : Mem
  ctxs : List Ctx
  tables : Tables
  disp : Dispatcher
  copies : List Copy
  engines : Fmap Engine
  eq : EqEngines
  faults : List ParkedFault
  postings : List Posting
  hub : Hub
  busy : Fmap Nat
  issued : List Nat
  fetched : List (Nat × Nat × Nat)
  inbox : List (Nat × Instr)
  out : List Out
  draws : List Nat
  serial : Nat
  nextId : Nat
deriving DecidableEq, Repr

/-- Why the machine stops with a fault. -/
inductive Fault where
  /-- Raised by step when the package is off (R7, R401: no power island remains). Safe: nothing runs. -/
  | poweredOff
  /-- Raised by RANGER_LOAD_STORE and REGISTER_WRITE at a physical address that Table 10-2 leaves unassigned. Safe. -/
  | unassignedAddress
deriving DecidableEq, Repr

/-- Why an instruction has no meaning here. -/
inductive Refusal where
  /-- Answered only by an arm of exec that has no meaning yet. Safe: no claim can be made of it. -/
  | notModelled (mnemonic : String)
deriving DecidableEq, Repr

/-- No codes set (R101). -/
def Codes.zero : Codes := ⟨false, false, false, false, false⟩

/-- The team of an empty slot: no lanes, no groups, nothing pending. -/
def Team.empty : Team where
  id := ⟨0, 0, 0, 0, 0, 0, 0, 0, 0, 0, 0, 0, 0, 0, 0, 0, 0, 0, 0, 0, 0, 0, [], 0⟩
  status := .running
  arch := ⟨0, [], [], [], 0, [], [], none, none, [], none, none⟩
  shadow := []
  frames := []
  ckpts := []
  pend := []
  deferred := []
  park := none
  wait := none
  sys := ⟨0x7F, 0, [], 0, 0, 0x7F⟩
  sched := ⟨0, 0, 0, 0, 0, [], false, none, false, false, false⟩
  score := []
  openBatch := []
  tags := []
  batchLog := []
  grants := []
  wants := none
  children := []
  fence := none
  drained := none
  links := []

/-- The machine right after package reset (R402): nothing resident, every table, queue, store and cache empty,
ports off, clocks at 0, the package limit at 2,800 W, no process and no context. -/
def State.reset : State where
  now := 0
  cur := Team.empty
  teams := []
  coolbox := []
  net := []
  homeHolds := []
  mem := ⟨[], [], [], [], [], []⟩
  ctxs := []
  tables := ⟨[], [], [], [], [], [], [], [], 0, 0, 0, [], [], []⟩
  disp := ⟨[], [], [], [], [], []⟩
  copies := []
  engines := []
  eq := ⟨[], [], [], []⟩
  faults := []
  postings := []
  hub := ⟨[], [], false, [], [], [], [0, 1, 2, 3], ⟨0, 0, 0, 0, false, false, false, 0, 0, 0⟩, ⟨2800, [], [], false, none, false⟩,
    ⟨0, false, false, false, []⟩, [], 0⟩
  busy := []
  issued := []
  fetched := []
  inbox := []
  out := []
  draws := []
  serial := 0
  nextId := 1

end Sys2Proof.Machine
end

