-- ==== Sys2Proof/Machine/Ops.lean ====
section
/-! DEFINITION. The named operations over memory, teams and the parts of State, and taking a trap. -/

namespace Sys2Proof.Machine

/-! ### Finite maps in canonical form -/

/-- The value at a key, `d` where none is listed. -/
def fget (d : α) : Fmap α → Nat → α
  | [], _ => d
  | (k, v) :: m, n => if n = k then v else if n < k then d else fget d m n

/-- Setting a key; setting the default removes the entry, so the form stays canonical. (A map in canonical form lists nothing at
or below `n` behind the entry of `n`.) -/
def fput [DecidableEq α] (d : α) : Fmap α → Nat → α → Fmap α
  | [], n, v => if v = d then [] else [(n, v)]
  | (k, w) :: m, n, v =>
    if n < k then (if v = d then (k, w) :: m else (n, v) :: (k, w) :: m)
    else if n = k then (if v = d then m.dropWhile (fun x => decide (x.1 ≤ n)) else (n, v) :: m)
    else (k, w) :: fput d m n v

/-- Keys from `lo` on rise strictly and no entry is the default. -/
def fwfFrom [DecidableEq α] (d : α) : Nat → Fmap α → Bool
  | _, [] => true
  | lo, (k, v) :: m => decide (lo ≤ k) && decide (v ≠ d) && fwfFrom d (k + 1) m

/-- The canonical form of a finite map. -/
def fwf [DecidableEq α] (d : α) (m : Fmap α) : Bool := fwfFrom d 0 m

/-! ### Memory at the ordering points -/

/-- What a byte that nothing has written reads as (R402: HBM contents are unspecified; log entry 1). -/
def Mem.unlisted : Byte := 0

/-- The memory's canonical form: bytes and word poison. -/
def Mem.wf (m : Mem) : Bool := fwf Mem.unlisted m.bytes && fwf false m.poison

/-- One byte at its ordering point. -/
def Mem.get (m : Mem) (k : Nat) : Byte := fget Mem.unlisted m.bytes k

/-- `n` bytes from `k` up. -/
def Mem.read (m : Mem) (k : Nat) : Nat → List Byte
  | 0 => []
  | n + 1 => m.get k :: m.read (k + 1) n

/-- Storing one byte. -/
def Mem.set (m : Mem) (k : Nat) (b : Byte) : Mem := { m with bytes := fput Mem.unlisted m.bytes k b }

/-- Storing bytes from `k` up. -/
def Mem.write (m : Mem) (k : Nat) : List Byte → Mem
  | [] => m
  | b :: bs => (m.set k b).write (k + 1) bs

/-- The poison bit of the word that holds a byte (R218). -/
def Mem.poisoned (m : Mem) (k : Nat) : Bool := fget false m.poison (k / 4)

/-- Setting the poison bit of a word. -/
def Mem.setPoison (m : Mem) (k : Nat) (p : Bool) : Mem := { m with poison := fput false m.poison (k / 4) p }

/-- A little-endian number of `n` bytes. -/
def Mem.nat (m : Mem) (k n : Nat) : Nat := ofBytes (m.read k n)

/-- Does any word of the `n` bytes at `k` carry poison? -/
def Mem.anyPoison (m : Mem) (k n : Nat) : Bool := (List.range n).any fun i => m.poisoned (k + i)

/-- Storing bytes that carry the poison of their source words (R218): a word all of whose bytes are written
takes its source's poison, a word partly written is poisoned when its source is, and is else left as it was. -/
def Mem.store (m : Mem) (k : Nat) (data : List (Byte × Bool)) : Mem :=
  let m' := m.write k (data.map (·.1))
  let n := data.length
  let first := k / 4
  let count := if n = 0 then 0 else (k + n - 1) / 4 + 1 - first
  (List.range count).foldl (fun acc j =>
    let w := 4 * (first + j)
    let part := data.zipIdx.filter fun (_, i) => decide (w ≤ k + i) && decide (k + i < w + 4)
    if part.any (·.1.2) then acc.setPoison w true
    else if part.length = 4 then acc.setPoison w false else acc) m'

/-- Reading bytes with the poison of their words. -/
def Mem.load (m : Mem) (k n : Nat) : List (Byte × Bool) :=
  (List.range n).map fun i => (m.get (k + i), m.poisoned (k + i))

/-! ### Choices the spec leaves open, and names -/

/-- The next time, place or order that the spec leaves open: one that the state foresees, else a free value (log entry 2). -/
def draw (s : State) : Nat × State := match s.draws with
  | n :: rest => (n, { s with draws := rest })
  | [] => (Config.freeTime s.serial, { s with serial := s.serial + 1 })

/-- A fresh number for an effect, a result, a team or a request. -/
def fresh (s : State) : Nat × State := (s.nextId, { s with nextId := s.nextId + 1 })

/-! ### Lists and lane masks -/

/-- Updating the elements of a list that satisfy a test. -/
def modifyWhere (p : α → Bool) (f : α → α) (l : List α) : List α := l.map fun x => if p x then f x else x

/-- Changing the last element with a property. -/
def modifyLast (p : α → Bool) (f : α → α) : List α → List α
  | [] => []
  | x :: xs => if xs.any p then x :: modifyLast p f xs else if p x then f x :: xs else x :: xs

/-- The first element with a property, after which others are tried. -/
def firstSome (f : α → Option β) : List α → Option β
  | [] => none
  | x :: xs => match f x with
    | some y => some y
    | none => firstSome f xs

/-- Is lane `l` in a mask? -/
def inMask (m : LaneMask) (l : Nat) : Bool := m.getLsbD l

/-- The mask of a list of lanes. -/
def maskOf (ls : List Nat) : LaneMask := ls.foldl (fun m l => m ||| BitVec.twoPow 1024 l) 0

/-- The lanes of a mask below `w`, in ascending order. -/
def lanesOf (w : Nat) (m : LaneMask) : List Nat := (List.range w).filter (inMask m)

/-- Mask word `j` (R28). -/
def maskWord (m : LaneMask) (j : Nat) : Word := m.extractLsb' (32 * j) 32

/-- The summary word: bit j is the OR of mask word j (R28). -/
def summary (m : LaneMask) : Word :=
  (List.range 32).foldl (fun acc j => if maskWord m j = 0 then acc else acc ||| BitVec.twoPow 32 j) 0

/-- The smallest of a list of numbers, 0 of none. -/
def minimum : List Nat → Nat
  | [] => 0
  | x :: xs => xs.foldl min x

/-- Insertion into a list ordered by a key. -/
def insertBy (key : α → Nat) (x : α) : List α → List α
  | [] => [x]
  | y :: ys => if key x < key y then x :: y :: ys else y :: insertBy key x ys

/-- A list ordered by a key, equal keys in their old order. -/
def sortBy (key : α → Nat) (l : List α) : List α := l.foldl (fun acc x => insertBy key x acc) []

/-! ### The mode word (Table 3-3) -/

def Mode.guard (m : Mode) : Nat := bits m.toNat 20 17
def Mode.typ (m : Mode) : Nat := bits m.toNat 16 12
def Mode.round (m : Mode) : Nat := bits m.toNat 11 9
def Mode.flush (m : Mode) : Bool := bit m.toNat 8
def Mode.sat (m : Mode) : Bool := bit m.toNat 7
def Mode.sb (m : Mode) : Nat := bits m.toNat 6 5
def Mode.nf (m : Mode) : Nat := bits m.toNat 4 1

/-- The type codes of Table 3-5 that are assigned (R50). -/
def typeLegal (t : Nat) : Bool := t ≤ 17 && t != 7

/-- When a guard holds on a lane's codes (R49, Table 3-4). -/
def guardHolds (g : Nat) (c : Codes) : Bool :=
  match g with
  | 0 => true
  | 1 => c.z
  | 2 => !c.z
  | 3 => c.c
  | 4 => !c.c
  | 5 => c.n
  | 6 => !c.n
  | 7 => c.v
  | 8 => !c.v
  | 9 => c.c && !c.z
  | 10 => !c.c || c.z
  | 11 => c.n == c.v
  | 12 => c.n != c.v
  | 13 => !c.z && c.n == c.v
  | 14 => c.z || c.n != c.v
  | _ => false

/-! ### Teams -/

/-- The team width W (R443). -/
def Team.width (t : Team) : Nat := 16 <<< t.id.wcode

/-- The team-state window slot of a team: side × 32 + slot (R184). -/
def Team.slotKey (t : Team) : Nat := t.id.tile * 64 + t.id.side * 32 + t.id.slot

/-- PLACE (Table 8-2): the side's number, the team slot and the context. -/
def Team.place (t : Team) : Nat := (t.id.tile * 2 + t.id.side) + t.id.slot <<< 10 + t.id.ctx <<< 15

/-- A team has ended its last lane and is ending (R81). -/
def Team.ending (t : Team) : Bool := t.arch.groups.isEmpty && t.arch.moved.isEmpty

def Lane.zero : Lane := ⟨0, 0, Codes.zero, 0, 0⟩
def Frame.zero : Frame := ⟨0, 0, 0, [], true, []⟩

def Team.lane (t : Team) (l : Nat) : Lane := t.arch.lanes.getD l Lane.zero
def Team.frame (t : Team) (l : Nat) : Frame := t.frames.getD l Frame.zero

/-- Changing one element of a list. -/
def modifyAt (f : α → α) : List α → Nat → List α
  | [], _ => []
  | x :: xs, 0 => f x :: xs
  | x :: xs, n + 1 => x :: modifyAt f xs n

def Team.setArch (t : Team) (f : Arch → Arch) : Team := { t with arch := f t.arch }
def Team.setLane (t : Team) (l : Nat) (f : Lane → Lane) : Team :=
  { t with arch := { t.arch with lanes := modifyAt f t.arch.lanes l } }
def Team.setFrame (t : Team) (l : Nat) (f : Frame → Frame) : Team := { t with frames := modifyAt f t.frames l }

/-- Applying a change to the team with a number: the one that issues, another resident one, or one that is pre-empted. -/
def State.modTeam (s : State) (uid : Nat) (f : Team → Team) : State :=
  if s.cur.id.uid = uid then { s with cur := f s.cur }
  else { s with
    teams := modifyWhere (fun t => t.id.uid == uid) f s.teams
    disp := { s.disp with images := modifyWhere (fun t => t.id.uid == uid) f s.disp.images } }

/-- The resident team with a number; number 0 names none. -/
def State.team? (s : State) (uid : Nat) : Option Team :=
  if uid = 0 then none
  else if s.cur.id.uid = uid then some s.cur
  else s.teams.find? (·.id.uid == uid)

/-- Every resident team. -/
def State.allTeams (s : State) : List Team := (s.cur :: s.teams).filter fun t => t.id.uid != 0

/-- The resident team in a team slot. -/
def State.teamAt (s : State) (tile slot : Nat) : Option Team :=
  s.allTeams.find? fun t => t.slotKey == tile * 64 + slot

/-- Making a resident team the one that issues. -/
def State.bringIn (s : State) (uid : Nat) : State :=
  if s.cur.id.uid = uid then s
  else match s.teams.find? (·.id.uid == uid) with
    | none => s
    | some t =>
      let rest := s.teams.filter (·.id.uid != uid)
      { s with cur := t, teams := if s.cur.id.uid = 0 then rest else s.cur :: rest }

/-- A context as it is created: a watchdog window of 1,000 µs and a Hamper timer of 2,048 cycles (Tables 17-8, 19-4). -/
def Ctx.blank (id : Nat) : Ctx :=
  ⟨id, 0, 0, 1000, false, false, 0, true, 0, 2048, 0, [], 0, 0, 0, 0, 0, 0, 0, 0, 0, 0, 0, 0, 0, 0, [], [], [], [], [], 0, 0, 0⟩

/-- The descriptors of nf0 to nf15 at team start (Table 6-2). -/
def startFormats : List Word :=
  [0x07073408, 0x0F032508, 0x010B1204, 0x030B2306, 0x010B3206, 0x00017008, 0x00013004, 0x00008008] ++ List.replicate 8 0x07073408

def State.ctx? (s : State) (c : Nat) : Option Ctx := s.ctxs.find? (·.id == c)
def State.modCtx (s : State) (c : Nat) (f : Ctx → Ctx) : State :=
  { s with ctxs := modifyWhere (fun x => x.id == c) f s.ctxs }

/-- Is a context's process frozen for a migration (R380)? -/
def State.frozen (s : State) (ctx : Nat) : Bool := s.hub.procs.any fun p => p.ctx == ctx && p.frozen

def Window.zero : Window := ⟨0, 0, 0, 0, false, false⟩
def State.window (s : State) (key : Nat) : Window := fget Window.zero s.tables.slotWindows key
def State.modWindow (s : State) (key : Nat) (f : Window → Window) : State :=
  { s with tables := { s.tables with slotWindows := fput Window.zero s.tables.slotWindows key (f (s.window key)) } }

/-- A refused command, issue or write changes nothing but STATUS.refused (R182). -/
def State.refuse (s : State) (key : Nat) : State := s.modWindow key fun w => { w with refused := true }

/-- The device clock (R418): nanoseconds, slewed by parts per million. -/
def State.deviceTime (s : State) : Nat :=
  let c := s.hub.clock
  c.devBase + (((s.now - c.atCycle : Nat) * 5 * (1000000 + c.slew)) / 8000000).toNat

/-- The time that the device clock has counted, without the step at its first lock: what wall-clock times are measured in (R4). -/
def State.wallTime (s : State) : Nat := (s.deviceTime - s.hub.clock.stepped).toNat

/-- The context makes progress (R416). -/
def State.progress (s : State) (c : Nat) : State :=
  s.modCtx c fun x => { x with progress := s.wallTime, measuring := true }

/-- Are some requests still on their way or held at a home? -/
def State.waitsFor (s : State) (ids : List Nat) : Bool :=
  (s.net.any fun x => ids.contains x.id) || s.homeHolds.any fun h => ids.contains h.reply.id

/-- The first privileged issue that can act now: one that starts, or one whose awaited requests are done. -/
def State.privReady (s : State) : Option Priv :=
  s.tables.priv.find? fun p => match p.waits with
    | none => true
    | some ids => !s.waitsFor ids

/-- A privileged issue is done (R185). -/
def State.privDone (s : State) (key : Nat) : State :=
  { s.modWindow key fun w => { w with busy := false } with tables := { (s.modWindow key fun w => { w with busy := false }).tables with priv := s.tables.priv.filter (·.key != key) } }

/-- Adding to a stall counter (R420): unit code, unit number, index. -/
def State.count (s : State) (unit number idx n : Nat) : State :=
  let k := (unit * 1024 + number) * 32 + idx
  { s with tables := { s.tables with counters := fput 0 s.tables.counters k (fget 0 s.tables.counters k + n) } }

/-! ### The current group (R83-R87) -/

/-- A group's depth: the largest call depth of its lanes (R83). -/
def Team.groupDepth (t : Team) (g : Group) : Nat :=
  (lanesOf t.width g.mask).foldl (fun d l => max d (t.lane l).depth.toNat) 0

/-- Which of two groups the selection rule prefers: greater depth, then lower PC (R86). -/
def Team.prefers (t : Team) (g h : Group) : Bool :=
  let dg := t.groupDepth g
  let dh := t.groupDepth h
  decide (dh < dg) || (dg == dh && decide (g.pc.toNat < h.pc.toNat))

/-- The group the selection rule chooses of a list. -/
def Team.choose (t : Team) : List Group → Option Group
  | [] => none
  | g :: gs => match t.choose gs with
    | none => some g
    | some h => if t.prefers g h then some g else some h

/-- The group the rule would choose last. -/
def Team.chooseLast (t : Team) : List Group → Option Group
  | [] => none
  | g :: gs => match t.chooseLast gs with
    | none => some g
    | some h => if t.prefers g h then some h else some g

/-- Every group of the team, those moved to the overflow region included (R88). -/
def Team.allGroups (t : Team) : List Group := t.arch.groups ++ t.arch.moved.map (·.group)

/-- The groups that are not parked on the fault of their fetch (R324). -/
def Team.freeGroups (t : Team) : List Group := t.allGroups.filter fun g => !t.sched.parked.contains g.pc

/-- Is a REP or a macro under way (R85)? -/
def Team.inSequence (t : Team) : Bool := t.arch.rep.isSome || t.arch.mac.isSome

/-- The group whose wait start is earliest among those of age 256 or more, the current one apart (R87). Of groups with one wait
start, which the spec does not order, the first of the list is taken (log entry 110). -/
def Team.starved (t : Team) : Option Group :=
  let old := t.freeGroups.filter fun g => g.pc != t.arch.pc && decide (256 ≤ t.sched.issues - g.waitIssue)
  (sortBy (fun g => g.waitIssue) old).head?

/-- The group that issues next: one in a REP or a macro goes on (R85), a quantum (R87) and a YIELD (R82) act
before the selection rule (R86). In a quantum its group goes on even after its own YIELD: R82 and R87 do not say which of them
prevails (log entry 109). -/
def Team.current (t : Team) : Option Group :=
  if t.inSequence then t.allGroups.find? (·.pc == t.arch.pc)
  else
    let gs := t.freeGroups
    match if 0 < t.sched.quantum then gs.find? (·.pc == t.arch.pc) else none with
    | some g => some g
    | none => match t.starved with
      | some h => some h
      | none => t.choose (match t.sched.yielded with
        | some p => if 1 < gs.length then gs.filter (·.pc != p) else gs
        | none => gs)

/-- Is the group that would issue next parked on the fault of its fetch, so that the team issues nothing (R324)? -/
def Team.fetchStuck (t : Team) : Bool :=
  !t.sched.parked.isEmpty && match t.current with
    | some g => t.sched.parked.contains g.pc
    | none => true

/-! ### Frames and the Rucksack's windows (R89-R92) -/

/-- E, the bytes of a group overflow entry (R88). -/
def overflowBytes (w : Nat) : Nat := roundUp (16 + 4 * ceilDiv w 32) 16

/-- C, the chunk rows of a spill area (R90). -/
def chunkRows (w size : Nat) : Nat := (size - w * overflowBytes w) / (w * 64)

/-- The slot limit 16 × C (R90). -/
def slotLimit (w size : Nat) : Nat := 16 * chunkRows w size

/-- Where slot `n` of lane `l` lives in the spill area (R90). -/
def Team.spillAddr (t : Team) (l n : Nat) : Nat :=
  t.id.spill + ((n / 16) * t.width + l) * 64 + (n % 16) * 4

/-- The live range of a lane whose frame pointer is `fp` (R91). -/
def liveRange (fp : Nat) : Nat × Nat := (if fp < 2 then 0 else 16 * ((fp - 2) / 16), 16 * ceilDiv (fp + 64) 16)

/-- Resident slots of a lane, with the chunks whose spill is held (R93). -/
def Frame.used (f : Frame) : Nat := f.hi - f.lo + 16 * f.spilling.length

/-- A register that holds 0 and no poison. -/
def PWord.zero : PWord := ⟨0, false⟩

/-- Removing the slots of a range from a lane's resident slots: they read 0 when they enter again (R71, R91). -/
def Frame.clear (f : Frame) (lo hi : Nat) : Frame :=
  { f with slots := (List.range (hi - lo)).foldl (fun m i => fput PWord.zero m (lo + i) PWord.zero) f.slots }

/-- One transfer-free move of the Rucksack toward the live range: upward extension, after a call by one chunk more than is needed, or
dropping a chunk above it to make room for a refill (R91). `pinned` chunks hold destinations of pending results. -/
def Frame.settle1 (size : Nat) (pinned : List Nat) (fp : Nat) (f : Frame) : Frame :=
  let (a, b) := liveRange fp
  if f.hi < f.top then f
  else if (f.hi < b || (f.up && f.lo ≤ a && f.hi < b + 16)) && f.used + 16 ≤ size then { f.clear f.hi (f.hi + 16) with hi := f.hi + 16 }
  else if a < f.lo && size < f.used + 16 && b + 16 ≤ f.hi && !pinned.contains (f.hi / 16 - 1) then
    { f.clear (f.hi - 16) f.hi with hi := f.hi - 16 }
  else f

/-- All transfer-free moves: at most the seven chunks a call can need (R72, R91). -/
def Frame.settle (size : Nat) (pinned : List Nat) (fp : Nat) : Nat → Frame → Frame
  | 0, f => f
  | n + 1, f => (f.settle1 size pinned fp).settle size pinned fp n

/-- What the Rucksack does next for a lane: the moves that need no transfer, spill the lowest chunk, refill the chunk
below `lo`, or after a readmission the one at `hi`. -/
inductive Transfer where
  | move
  | spill (chunk : Nat)
  | refill (chunk : Nat)
  | raise (chunk : Nat)
deriving DecidableEq, Repr

/-- The transfer a lane needs, if any; a lane that last returned also refills one chunk ahead of need (R91). -/
def Frame.needs (size : Nat) (pinned : List Nat) (fp : Nat) (f : Frame) : Option Transfer :=
  let (a, b) := liveRange fp
  if f.hi < f.top then (if f.used + 16 ≤ size then some (.raise (f.hi / 16)) else none)
  else if f.hi < b then
    if f.used + 16 ≤ size || f.hi - f.lo + 16 ≤ size then none
    else if f.lo + 16 ≤ a && !pinned.contains (f.lo / 16) then some (.spill (f.lo / 16)) else none
  else if (a < f.lo || (!f.up && 0 < f.lo && a ≤ f.lo && f.lo < a + 16)) && f.used + 16 ≤ size then
    some (.refill (f.lo / 16 - 1))
  else none

/-! ### Words being rebuilt (R216)

The arrays are numbered: frame store 0 (address: (slot × 1,024 + lane) × 65,536 + frame slot), scratchpad 1 (virtual address),
accumulator 2 (row × 256 + element), macro cells 3 (set × 2^32 + cell), L1 4 (context × 2^48 + virtual address), Coolbox 5 (entry × 64 +
word), control store 6, checkpoint store 7 and group table 8 (slot), home-slice cache 9 (physical address); 10 is memory behind a home
slice, which has its own ECC (R217). -/

/-- Is a word at one of `n` addresses of an array being rebuilt? -/
def State.rebuilding (s : State) (tile kind lo n : Nat) : Bool :=
  s.tables.rebuilds.any fun r => (r.tile == tile || kind == 9) && r.kind == kind && decide (s.now < r.until_) && decide (lo ≤ r.address) && decide (r.address < lo + n)

/-- Does a read of one of a tile's own bytes wait for its array: its slice, or its L1? -/
def State.byteRebuilding (s : State) (tile ctx va : Nat) (scratch cached : Bool) : Bool :=
  if scratch then s.rebuilding tile 1 (va / 4 * 4) 4 else cached && s.rebuilding tile 4 (ctx * 2 ^ 48 + va / 4 * 4) 4

/-! ### Checkpoints and rollback (R186, R190) -/

/-- Young checkpoints: those younger than Q (R186). -/
def Team.young (t : Team) (now : Nat) : List Ckpt := t.ckpts.filter fun c => decide (now < c.time + Config.Q)

/-- Taking a checkpoint of the team's present state. -/
def Team.checkpoint (t : Team) (id time : Nat) : Team := { t with ckpts := ⟨id, time, false, t.arch⟩ :: t.ckpts }

/-- The account of every group, moved ones too, that the shadow unit starts from, and that a checkpoint gives it back (R194). -/
def shadowOf (a : Arch) : List (BitVec 48 × LaneMask) := (a.groups ++ a.moved.map (·.group)).map fun g => (g.pc, g.mask)

/-- The shadow unit's own placement (R194): some lanes are at a PC, joining those already there. -/
def shadowJoin (sh : List (BitVec 48 × LaneMask)) (pc : BitVec 48) (m : LaneMask) : List (BitVec 48 × LaneMask) :=
  if m = 0 then sh
  else if sh.any (·.1 == pc) then modifyWhere (·.1 == pc) (fun x => (x.1, x.2 ||| m)) sh else (pc, m) :: sh

/-- The shadow unit follows a group from one PC to another. -/
def shadowMove (sh : List (BitVec 48 × LaneMask)) (from_ dest : BitVec 48) : List (BitVec 48 × LaneMask) :=
  match sh.find? (·.1 == from_) with
  | some (_, m) => shadowJoin (sh.filter (·.1 != from_)) dest m
  | none => sh

/-- Words taken back by a discarded pop or reservation (R428, R439). -/
def Ring.giveBack (r : Ring) (slots : List Nat) : Ring := { r with returned := r.returned ++ slots }

/-- T and F pass over leading written, freed and void slots (R429, R430). -/
def Ring.advance (r : Ring) : Nat → Ring
  | 0 => r
  | n + 1 =>
    let m := 2 * (r.size + 1)
    if r.tail != r.rsv && (r.written.contains r.tail || r.void.contains r.tail) then
      Ring.advance { r with tail := (r.tail + 1) % m, written := r.written.erase r.tail } n
    else if r.free != r.tail && (r.freed.contains r.free || (r.void.contains r.free && r.tail != r.free)) then
      let head := if r.head = r.free then (r.head + 1) % m else r.head
      Ring.advance { r with free := (r.free + 1) % m, head := head, freed := r.freed.erase r.free, void := r.void.erase r.free } n
    else r

/-- Reserved slots become void: pops skip them, T and F pass over them (R439). -/
def Ring.voidSlots (r : Ring) (slots : List Nat) : Ring :=
  Ring.advance { r with void := r.void ++ slots } (4 * (r.size + 1))

def TileQueue.none : TileQueue := ⟨false, false, 0, 0, 0, 0, ⟨0, 0, 0, 0, 0, [], [], [], []⟩⟩
def Thread.none : Thread := ⟨0, ⟨4095, 0, 0, 0, 0, [], [], [], []⟩, []⟩
def LinkQueue.none : LinkQueue := ⟨0, 0, 0, 0, 0, 0, 0, [], []⟩

/-- The fields of a queue handle (Table 21-1). -/
def handleKind (h : Word) : Nat := bits h.toNat 31 30
def handleTile (h : Word) : Nat := bits h.toNat 29 21
def handleEntry (h : Word) : Nat := bits h.toNat 20 15
def handleGen (h : Word) : Nat := bits h.toNat 14 0

def State.queue (s : State) (tile e : Nat) : TileQueue := fget TileQueue.none s.tables.queues (tile * 64 + e)
def State.modQueue (s : State) (tile e : Nat) (f : TileQueue → TileQueue) : State :=
  { s with tables := { s.tables with queues := fput TileQueue.none s.tables.queues (tile * 64 + e) (f (s.queue tile e)) } }
def State.thread (s : State) (j : Nat) : Thread := fget Thread.none s.hub.threads j
def State.modThread (s : State) (j : Nat) (f : Thread → Thread) : State :=
  { s with hub := { s.hub with threads := fput Thread.none s.hub.threads j (f (s.thread j)) } }
def State.modLink (s : State) (c e : Nat) (f : LinkQueue → LinkQueue) : State :=
  s.modCtx c fun x => { x with links := fput LinkQueue.none x.links e (f (fget LinkQueue.none x.links e)) }

/-- Adding to a notify register: the count holds at its maximum (R366). -/
def State.notify (s : State) (j : Nat) : State :=
  s.modThread j fun t => { t with notify := min (t.notify + 1) 0xFFFFFFFF }

/-- A slot's key in the words of a ring whose counters run modulo twice its size. -/
def Ring.index (r : Ring) (c : Nat) : Nat := c % (r.size + 1)

/-- Slots reserved through a handle become void (R428, R439). -/
def State.voidPush (s : State) (ctx : Nat) (h : Word) (slots : List Nat) : State :=
  match handleKind h with
  | 0 => s.modQueue (handleTile h) (handleEntry h) fun q => { q with ring := q.ring.voidSlots slots }
  | 1 => s.modThread (handleEntry h) fun t => { t with ring := t.ring.voidSlots slots }
  | _ => s.modLink ctx (handleEntry h) fun q => { q with void := q.void ++ slots }

/-- Words taken through a handle go to the returned list (R428, R439). -/
def State.unpop (s : State) (h : Word) (slots : List Nat) : State :=
  s.modQueue (handleTile h) (handleEntry h) fun q => { q with ring := q.ring.giveBack slots }

/-- Undoing the queue side of a discarded effect: a pop's words go to the returned list, a push's slots are
void (R439 step 1). -/
def State.discardQueue (s : State) (e : Held) : State :=
  match e.eff with
  | .pop h slots => s.unpop h slots
  | .push h words => s.voidPush e.ctx h (words.map (·.1))
  | _ => s

/-- Channels are freed; the numbering of each continues for the next group that configures it (R254). -/
def Engine.free (g : Engine) (p : Channel → Bool) : Engine :=
  { g with
    channels := g.channels.filter fun k => !p k
    numbers := (g.channels.filter p).foldl (fun m k => fput 0 m k.chan k.number) g.numbers }

/-- The next command number of a channel, held or not. -/
def Engine.number (g : Engine) (chan : Nat) : Nat := match g.channels.find? (·.chan == chan) with
  | some k => k.number
  | none => fget 0 g.numbers chan

/-- An MCFG is undone: the channel's previous configuration stands again, and numbers that were taken stay taken (R254, R257). -/
def Engine.undoConfig (g : Engine) (id chan : Nat) : Engine :=
  match g.old.find? (·.1 == id) with
  | none => g
  | some (_, cs) =>
    let n := g.number chan
    let g := g.free fun k => k.chan == chan
    { g with
      channels := ((cs.filter fun k => k.chan == chan).map fun k => { k with number := n }) ++ g.channels
      old := g.old.filter (·.1 != id) }

/-- A command that was issued is void (R257); the set of a void MLDB is again of the type it had before, unless a later MLDB gave it
another one since. -/
def Engine.voidCommand (g : Engine) (mid : Nat) : Engine :=
  let g := { g with cmds := modifyWhere (fun c => c.mid == mid) (fun c => { c with void := true }) g.cmds }
  match g.cmds.find? fun c => c.mid == mid with
  | none => g
  | some c =>
    let x := bits ((c.record.headD 0).toNat) 22 22
    let later := (g.cmds.dropWhile fun y => y.mid != mid).find? fun y =>
      y.op == 1 && !y.void && y.chan == c.chan && bits ((y.record.headD 0).toNat) 22 22 == x
    if c.op != 1 then g
    else match later with
    | some y => { g with cmds := modifyWhere (fun z => z.mid == y.mid) (fun z => { z with prior := c.prior }) g.cmds }
    | none => { g with sets := modifyAt (fun m => { m with typ := c.prior.1, desc := c.prior.2.1, sparse := c.prior.2.2 }) g.sets x }

/-- The engine's account of a command whose record is discarded: its ring slot is void (R257); the copies of a
discarded request are dropped, and with them their scoreboard entry and their place in a batch (R244, R415). -/
def State.discardWork (s : State) (e : Held) : State :=
  match e.eff with
  | .command mid => { s with engines := s.engines.map fun (k, g) => (k, if k = e.tile then g.voidCommand mid else g) }
  | .mcfg chan => { s with engines := s.engines.map fun (k, g) => (k, if k = e.tile then g.undoConfig e.id chan else g) }
  | .copy cids =>
    let s := { s with copies := s.copies.filter fun c => !cids.contains c.cid }
    s.modTeam e.uid fun t => { t with
      score := t.score.filter fun x => s.copies.any fun c => c.ins == x.ins,
      openBatch := t.openBatch.filter fun c => !cids.contains c,
      tags := t.tags.map fun (g, l) => (g, l.filter fun c => !cids.contains c) }
  | .forest rid => { s with eq := { s.eq with reqs := s.eq.reqs.filter (·.rid != rid) } }
  | .spill c p => s.modTeam e.uid fun t => t.setFrame p.lane fun f =>
      { f with spilling := f.spilling.erase c, lo := min f.lo (16 * c) }
  | .entry n _ => s.modTeam e.uid fun t => t.setArch fun a => { a with moved := modifyWhere (·.entry == n) (fun m => { m with stored := false }) a.moved }
  | _ => s

/-- Discarding the held effects that satisfy a test, youngest first. -/
def State.discard (s : State) (p : Held → Bool) : State :=
  let gone := s.coolbox.filter p
  let s := gone.reverse.foldl (fun s e => (s.discardQueue e).discardWork e) s
  { s with coolbox := s.coolbox.filter fun e => !p e }

/-- Undoing the BSEALs and BWAITs that a team issued after `c` (R415). -/
def Team.undoBatches (t : Team) (c : Nat) : Team :=
  let t := (t.batchLog.filter fun b => decide (c < b.time)).foldl (fun t b =>
    if b.sealing then { t with openBatch := t.openBatch ++ (t.tags.filter (·.1 == b.tag)).flatMap (·.2),
                               tags := t.tags.filter (·.1 != b.tag) }
    else { t with tags := (b.tag, b.copies) :: t.tags.filter (·.1 != b.tag) }) t
  { t with batchLog := t.batchLog.filter fun b => decide (b.time ≤ c) }

/-- The results that pend when a team goes back to a checkpoint, if they are not the checkpoint's own instruction's: its results
land later in the checkpoint too (R188), and every earlier one landed before it was taken (R47). -/
def Team.undone (t : Team) (c : Ckpt) : List Pend := t.pend.filter fun p => p.ckpt != some c.id

/-- Restoring a team from a checkpoint: what R186 lists, nothing pending but the results of the checkpoint's own instruction and the
traps of engine work that the checkpoint has behind it, nothing waiting or parked, younger checkpoints dropped; RETRY counts the rollback (R175, R190, R440). -/
def Team.restore (t : Team) (c : Ckpt) (cause : Nat) : Team :=
  let t := t.undoBatches c.time
  { t with
    status := .running
    arch := { c.arch with moved := c.arch.moved.map fun m => { m with stored := false } }
    shadow := shadowOf c.arch
    frames := t.frames.zipIdx.map fun (f, l) =>
      let fp := ((c.arch.lanes.getD l Lane.zero).fp).toNat
      f.settle t.id.frame [] fp 8
    ckpts := { c with retried := true } :: t.ckpts.filter fun k => decide (k.id < c.id)
    pend := (t.pend.filter fun p => p.ckpt == some c.id).map fun p => { p with raised := false }
    deferred := t.deferred.filter fun d => !d.replay && d.cause != 11 && decide (d.time ≤ c.time)
    park := none
    wait := none
    grants := []
    wants := none
    fence := none
    links := []
    sys := { t.sys with retry := if t.sys.retry = 0xFFFF then 0xFFFF else t.sys.retry + 1, retryCause := BitVec.ofNat 7 cause }
    sched := { t.sched with quantum := 0, yielded := none, parked := [] } }

/-- Reservations granted to an instruction that then does not issue: pops return their words, pushes are voided
(R428). A grant's key is 0 and 1 for the pops of a and b, 2 for a pop and 3 for the push of d. -/
def State.dropGrants (s : State) (t : Team) : State :=
  t.grants.foldl (fun s (key, slots) =>
    match t.arch.ports.getD (key / 4) none with
    | none => s
    | some h => if key % 4 = 3 then s.voidPush t.id.ctx h (slots.map (·.1)) else s.unpop h (slots.map (·.1))) s

/-- The reservations of pushes that some of a team's pending results will make become void, when those results are dropped. -/
def State.dropPends (s : State) (t : Team) (ps : List Pend) : State :=
  ps.foldl (fun s p =>
    match t.arch.ports.getD (p.reg.toNat - 96) none with
    | some h => if p.slots.isEmpty then s else s.voidPush t.id.ctx h p.slots
    | none => s) s

/-! ### Taking a trap (R178) and its outcomes (R182) -/

/-- The bytes of a trap record (R179, Table 8-3); seq is filled in when it is posted. -/
def trapRecord (t : Team) (cause : Nat) (pc : BitVec 48) (time : Nat) (word : Word) (mask : LaneMask)
    (value : Dword) (shadow : Bool) : List Byte :=
  let w := t.width
  let lanes := lanesOf w mask
  let low := lanes.headD 0
  let (inRep, left) := match t.arch.rep with
    | some (k, n, _) => (true, n - k)
    | none => (false, 0)
  let head := cause + 1 <<< 8 + (t.arch.mac.getD 0) <<< 16 + b2n t.arch.mac.isSome <<< 21 + b2n inRep <<< 22 + b2n shadow <<< 23
  toBytes 4 head ++ toBytes 4 t.place ++ toBytes 8 pc.toNat ++ toBytes 8 time ++ toBytes 8 value.toNat ++
  toBytes 4 word.toNat ++ toBytes 4 left ++ toBytes 4 (summary mask).toNat ++ toBytes 4 (maskWord mask 0).toNat ++
  toBytes 4 (lanes.length + low <<< 16) ++ toBytes 4 0 ++ toBytes 8 (t.id.wid.toNat + low)

/-- How a trap is described: its cause, its mask, per-lane values, the word as issued, whether the shadow unit
found it, the RESUMEPC, a SYSC's destination, and whether a Resume makes a Format L instruction's unfinished requests again. -/
structure TrapInfo where
  cause : Nat
  mask : LaneMask
  tval : List (Nat × Dword)
  word : Word
  shadow : Bool
  pc : BitVec 48
  time : Nat
  resumePc : BitVec 48
  sysc : Option Reg
  replay : Bool
deriving DecidableEq, Repr

/-- The value of a lane in a trap (Table 8-3), 0 where the cause gives none. -/
def tvalOf (tv : List (Nat × Dword)) (l : Nat) : Dword := ((tv.find? (·.1 == l)).map (·.2)).getD 0

/-- The per-lane values of a trap: those its cause states, else values the spec does not state (Table 8-2: TVAL is
cause-specific; free values, log entry 13). -/
def State.tvals (s : State) (w : Nat) (i : TrapInfo) : List (Nat × Dword) × State :=
  if (List.range w).all fun l => i.tval.any fun x => x.1 == l then (i.tval, s)
  else ((List.range w).map fun l => (l, match i.tval.find? fun x => x.1 == l with
    | some x => x.2
    | none => Config.freeValue (s.serial + l)), { s with serial := s.serial + 1024 })

/-- Taking a trap (R178): the instruction takes no effect, its record enters the Coolbox with the instruction's
issue time, and the team is parked; the group at `groupPc` is the trapping group. -/
def State.takeTrap (s : State) (uid : Nat) (groupPc : BitVec 48) (i : TrapInfo) : State :=
  match s.team? uid with
  | none => s
  | some t =>
    let low := (lanesOf t.width i.mask).headD 0
    let (tv, s) := s.tvals t.width i
    let record := trapRecord t i.cause i.pc i.time i.word i.mask (tvalOf tv low) i.shadow
    let (id, s) := fresh s
    let s := s.dropGrants t
    let s := { s with coolbox := s.coolbox ++ [Held.mk id t.id.tile t.id.side uid t.id.ctx i.time i.pc i.word i.mask i.time 3 (.trap record)] }
    s.modTeam uid fun t => { t with
      status := .trapParked
      wait := none
      grants := []
      wants := none
      park := some ⟨i.cause, i.mask, tv, i.pc, i.time, i.resumePc, groupPc, t.arch.rep.isSome, t.arch.mac.isSome, record, i.sysc, i.replay⟩
      sched := { t.sched with stallCause := 20 } }

/-- The state a signature reset sets (R192). -/
def sigReset : Word := 0xFFFFFFFF

/-- Two groups at one PC: the lanes of both, the earlier wait start, the signature reset (R84, R193). -/
def mergeGroup (g h : Group) : Group :=
  let (wt, wi) := if g.waitIssue < h.waitIssue then (g.waitTime, g.waitIssue) else (h.waitTime, h.waitIssue)
  ⟨g.pc, g.mask ||| h.mask, wt, wi, sigReset, true⟩

/-- A group joins the group that is already at its PC, in the table or moved (R84, R88), or enters the table. -/
def Team.join (t : Team) (g : Group) : Team :=
  if t.arch.groups.any (·.pc == g.pc) then
    t.setArch fun a => { a with groups := modifyWhere (fun h => h.pc == g.pc) (mergeGroup g) a.groups }
  else if t.arch.moved.any (·.group.pc == g.pc) then
    t.setArch fun a => { a with moved := modifyWhere (fun m => m.group.pc == g.pc) (fun m => { m with group := mergeGroup g m.group, joins := m.joins ||| g.mask }) a.moved }
  else t.setArch fun a => { a with groups := g :: a.groups }

/-- The group at a PC leaves the table, or the overflow region. -/
def Team.without (t : Team) (pc : BitVec 48) : Team :=
  t.setArch fun a => { a with groups := a.groups.filter (·.pc != pc), moved := a.moved.filter (·.group.pc != pc) }

/-- The group at a PC continues at another PC, joining a group that is already there (R84). -/
def Team.moveGroup (t : Team) (fromPc dest : BitVec 48) : Team :=
  match t.allGroups.find? (·.pc == fromPc) with
  | none => t
  | some g =>
    if fromPc = dest then t
    else { (t.without fromPc).join { g with pc := dest } with shadow := shadowMove t.shadow fromPc dest }

/-- Where the trapping group goes on after a Resume: at RESUMEPC (R182), or where it stopped when what a Format L instruction has left
unfinished is made again (R47). -/
def Park.next (p : Park) : BitVec 48 := if p.replay then p.groupPc else p.resumePc

/-- A team that goes on after a trap: every lane of the trapping group continues at RESUMEPC; the 64 bits of RESULT, `v`, go to a SYSC's pair (R182, R196). -/
def Team.resumed (t : Team) (p : Park) (v : Dword) : Team :=
  let t := t.moveGroup p.groupPc p.next
  let t := match p.sysc with
    | some d =>
      let k := d.toNat - 64
      if 64 ≤ d.toNat && d.toNat < 95 then
        t.setArch fun a => { a with k := (a.k.set k ⟨v.extractLsb' 0 32, false⟩).set (k + 1) ⟨v.extractLsb' 32 32, false⟩ }
      else t
    | none => t
  { t.setArch fun a => { a with pc := p.next } with status := .running, park := none }

/-- Returning from a trap by Resume (R182). A RESUMEPC that Ranger wrote elsewhere clears the saved REP count, the macro index and a
kept completion mask (done where it is written). -/
def State.resume (s : State) (uid : Nat) : State :=
  match s.team? uid with
  | none => s
  | some t => match t.park with
    | none => s
    | some p => s.modTeam uid fun x => x.resumed p (s.window t.slotKey).result

end Sys2Proof.Machine
end

