-- ==== Sys2Proof/Machine/Translate.lean ====
section
/-! DEFINITION. Regions, homes and ordering points of addresses, page tables and TLBs, scratchpad windows, the
access checks (10, 15), and the L1. -/

namespace Sys2Proof.Machine

/-! ### Regions and homes -/

/-- Is an address in the scratchpad region (Table 10-1)? -/
def isScratch (va : Nat) : Bool := Config.scratchBase ≤ va && va < Config.scratchTop
/-- Is an address in the translated region (Table 10-1)? -/
def isTranslated (va : Nat) : Bool := va < Config.scratchBase
/-- The owner tile of a scratchpad address (R203). -/
def ownerTile (va : Nat) : Nat := (va - Config.scratchBase) / Config.sliceBytes
/-- The offset of a scratchpad address in its slice. -/
def sliceOffset (va : Nat) : Nat := (va - Config.scratchBase) % Config.sliceBytes
/-- The virtual address of a byte of a tile's slice (R203). -/
def sliceAddr (t off : Nat) : Nat := Config.scratchBase + t * Config.sliceBytes + off

/-- The memories of the physical map that a page may name (Table 10-2). -/
inductive Space where
  | hbm
  | cxl
  | host
  | peer
  | none
deriving DecidableEq, Repr

/-- Which memory a physical address is in (Table 10-2). -/
def spaceOf (pa : Nat) : Space :=
  if pa < 0x10000000000 then .hbm
  else if pa < 0x50000000000 then .cxl
  else if 0x80000000000 ≤ pa && pa < 0xC0000000000 then .host
  else if 0x400000000000 ≤ pa && pa < 0x800000000000 then .peer
  else .none

/-- The home slice of a physical address (R205). -/
def homeOf (pa : Nat) : Nat :=
  match spaceOf pa with
  | .hbm => bits pa 39 36 * 8 + bits pa 14 12
  | _ => bits pa 18 12

/-- The CXL port of an expander address: 4-way interleave at 4 KiB (R393 allows 1, 2 or 4; log entry 17). -/
def cxlPort (pa : Nat) : Nat := pa / 4096 % 4

/-- Is an expander address out of reach? -/
def State.cxlFailed (s : State) (pa : Nat) : Bool := !isScratch pa && spaceOf pa == .cxl && s.hub.cxlDown.contains (cxlPort pa)

/-- Is a key in a host or peer window, whose memory is beyond an optical port? -/
def isWindow (pa : Nat) : Bool := !isScratch pa && (spaceOf pa == .host || spaceOf pa == .peer)

/-- The route entry that serves a host or peer window address (Table 17-7). -/
def routeIndex (pa : Nat) : Nat :=
  if spaceOf pa = .host then bits pa 41 36 else 64 + bits pa 45 36

/-- The port a request to a window takes, if its route is valid (R381). -/
def State.portOf (s : State) (pa : Nat) : Option Nat :=
  let r := (fget 0 s.tables.routes (routeIndex pa)).toNat
  if bit r 63 then
    let n := bits r 37 36 + 1
    let i := (pa / 64) % n
    some (bits r (9 * i + 8) (9 * i))
  else none

/-- The ordering point of a byte (R36, R294) as a number: owner ports of tiles from 0, home slices from 1,024,
ports toward host and peer windows from 2,048, the hub at 4,096. -/
def pointOf (key : Nat) : Nat :=
  if isScratch key then ownerTile key
  else match spaceOf key with
    | .hbm | .cxl => 1024 + homeOf key
    | _ => 2048 + routeIndex key

/-! ### Page tables (R317-R320) -/

/-- What an access needs of its leaf (Table 15-2). -/
structure Need where
  read : Bool
  write : Bool
  exec : Bool
  noEf : Bool
  mx : Bool
deriving DecidableEq, Repr

def Need.r : Need := ⟨true, false, false, false, false⟩
def Need.w : Need := ⟨false, true, false, false, false⟩
def Need.rw : Need := ⟨true, true, false, false, false⟩
def Need.x : Need := ⟨false, false, true, false, false⟩

/-- What translating an address gives: a leaf with the page it maps, a fault at a level (R324), or PAGE_FAULT
that cannot be replayed (R319). -/
inductive Walked where
  | leaf (base size : Nat) (pte : Dword)
  | absent (level : Nat)
  | malformed
deriving DecidableEq, Repr

/-- The bytes a leaf at a level maps (R317). -/
def levelSize (level : Nat) : Nat := 4096 * 512 ^ level

/-- May a leaf frame stand in a page-table entry (R319)? -/
def frameLegal (pa : Nat) : Bool := spaceOf pa != .none

/-- The sixteen entries of an aligned 64 KiB run agree but for frame bits 15:12, which count (R319). -/
def c64Legal (m : Mem) (table idx : Nat) : Bool :=
  let first := idx / 16 * 16
  let e0 := m.nat (table + 8 * first) 8
  (List.range 16).all fun j => m.nat (table + 8 * (first + j)) 8 == (e0 - bits e0 15 12 * 4096) + j * 4096

/-- The walk from a level's table (R317), levels counted down to 0; `cached` gives the entry of a level that the tile's cache of table
entries holds (R322). -/
def walkFrom (m : Mem) (cached : Nat → Option Nat) (va : Nat) : Nat → Nat → Walked
  | level, table =>
    let idx := (va / (4096 * 512 ^ level)) % 512
    let e := (cached level).getD (m.nat (table + 8 * idx) 8)
    if !bit e 63 then .absent level
    else if bits e 11 2 != 0 || bit e 0 then .malformed
    else if bit e 1 then
      if level = 3 then .malformed
      else
        let size := if bit e 56 then 65536 else levelSize level
        let frame := bits e 47 12 * 4096
        if bit e 56 && level != 0 then .malformed
        else if bit e 56 then
          if !c64Legal m table idx then .malformed
          else if frameLegal frame then .leaf (va / 65536 * 65536) size (BitVec.ofNat 64 (e - bits e 15 12 * 4096)) else .malformed
        else if frame % size != 0 || !frameLegal frame then .malformed
        else .leaf (va / size * size) size (BitVec.ofNat 64 e)
    else if level = 0 || bits e 62 48 != 0 then .malformed
    else match level with
      | 0 => .malformed
      | l + 1 => walkFrom m cached va l (bits e 47 12 * 4096)

/-- The entry that leads from a level's table toward an address, as a tile's cache of table entries holds it (R322). -/
def Mem.tableEntry (m : Mem) (tile ctx va level : Nat) : Option Nat :=
  (m.table.find? fun e => e.tile == tile && e.ctx == ctx && e.level == level && e.va == va / levelSize level * levelSize level).map (·.entry)

/-- The entries that lead to other tables on a walk, by level. -/
def tablesOf (m : Mem) (cached : Nat → Option Nat) (va : Nat) : Nat → Nat → List (Nat × Nat)
  | 0, _ => []
  | l + 1, table =>
    let e := (cached (l + 1)).getD (m.nat (table + 8 * ((va / (4096 * 512 ^ (l + 1))) % 512)) 8)
    if bit e 63 && !bit e 1 then (l + 1, e) :: tablesOf m cached va l (bits e 47 12 * 4096) else []

/-- Translating through the tile's TLB, else by a walk from the context's root (R322). With translation
disabled in ROOT nothing is present (log entry 7). -/
def State.walk (s : State) (tile ctx va : Nat) : Walked :=
  match s.mem.tlb.find? (fun e => e.tile == tile && e.ctx == ctx && decide (e.va ≤ va) && decide (va < e.va + e.size)) with
  | some e => .leaf e.va e.size e.pte
  | none => match s.ctx? ctx with
    | none => .absent 3
    | some c =>
      let r := c.root.toNat
      if bit r 0 then walkFrom s.mem (s.mem.tableEntry tile ctx va) va 3 (bits r 47 12 * 4096) else .absent 3

/-- The outcome of the checks of R221 step 5 and R320. -/
inductive Access where
  | ok (pa : Nat) (ef xw : Bool)
  | fault (level : Nat)
  | bad (cause : Nat)
deriving DecidableEq, Repr

/-- Translating one address and checking its leaf in the order of R221 step 5 (R320, Table 8-6). -/
def State.translate (s : State) (tile ctx va : Nat) (n : Need) : Access :=
  match s.walk tile ctx va with
  | .absent l => .fault l
  | .malformed => .bad 24
  | .leaf base _ pte =>
    let e := pte.toNat
    let tag := bits e 55 48
    let mine := ((s.ctx? ctx).map (·.tag)).getD 0
    if n.exec && !bit e 60 then .bad 12
    else if n.read && !bit e 62 then .bad 25
    else if n.write && !bit e 61 then .bad 26
    else if tag != 0 && tag != mine then .bad 31
    else if n.noEf && bit e 59 then .bad 32
    else if n.mx && !bit e 57 then .bad 30
    else .ok (bits e 47 12 * 4096 + (va - base)) (bit e 59) (bit e 58)

/-- The cache of table entries after a walk that reached a leaf: the tables it went through, where the tile keeps them. The spec leaves
open which it keeps (R322): a free value (log entry 119). -/
def State.walkedTables (s : State) (tile ctx va : Nat) : List TableEntry :=
  if Config.keepsTables s.now then
    let root := ((s.ctx? ctx).map fun c : Ctx => c.root.toNat).getD 0
    ((tablesOf s.mem (s.mem.tableEntry tile ctx va) va 3 (bits root 47 12 * 4096)).filter fun (l, _) => (s.mem.tableEntry tile ctx va l).isNone).map
      (fun (l, e) => ⟨tile, ctx, l, va / levelSize l * levelSize l, e⟩) ++ s.mem.table
  else s.mem.table

/-- Keeping a translation that an access used in the tile's TLB, and the table entries that led to it; absent ones are never held
(R322). -/
def State.fillTlb (s : State) (tile ctx va : Nat) : State :=
  if s.mem.tlb.any (fun e => e.tile == tile && e.ctx == ctx && decide (e.va ≤ va) && decide (va < e.va + e.size)) then s
  else match s.walk tile ctx va with
    | .leaf base size pte => { s with mem := { s.mem with tlb := ⟨tile, ctx, base, size, pte⟩ :: s.mem.tlb, table := s.walkedTables tile ctx va } }
    | _ => s

/-! ### Scratchpad windows (R206, R328) -/

/-- The fields of a window table entry (Table 15-5). -/
def winValid (w : Dword) : Bool := bit w.toNat 63
def winScope (w : Dword) : Nat := bits w.toNat 62 61
def winCtx (w : Dword) : Nat := bits w.toNat 60 44
def winOwner (w : Dword) : Nat := bits w.toNat 43 32
def winSize (w : Dword) : Nat := (bits w.toNat 31 16 + 1) * 16
def winBase (w : Dword) : Nat := bits w.toNat 15 0 * 16

/-- The entries of a tile's window table, with their indices. -/
def State.windowsOf (s : State) (tile : Nat) : List (Nat × Dword) :=
  s.tables.windows.filterMap fun (k, w) => if k / 128 = tile then some (k % 128, w) else none

/-- The group a team belongs to, as it stands on its tile. -/
def State.group? (s : State) (gid : Nat) : Option GroupRt := s.disp.groups.find? (·.gid == gid)

/-- The context that last held a byte of a slice (R208). -/
def State.lastHeld (s : State) (tile off : Nat) : Option Nat :=
  (s.tables.zones.find? fun (t, b, n, _) => t == tile && decide (b ≤ off) && decide (off < b + n)).map fun (_, _, _, c) => c

/-- Writing a window entry. An owner of scope 2 is not written: it must be zero (R328, R381). A window given to a context that did
not hold some of its bytes before reads 0 there (R208). -/
def State.setWindow (s : State) (tile i : Nat) (e : Dword) : State :=
  let e := if winScope e = 2 then e &&& ~~~(0xFFF00000000 : Dword) else e
  let s := { s with tables := { s.tables with windows := fput 0 s.tables.windows (tile * 128 + i) e } }
  if !winValid e then s
  else
    let (c, b, n) := (winCtx e, winBase e, winSize e)
    let fresh (k : Nat) : Bool := decide (sliceAddr tile b ≤ k) && decide (k < sliceAddr tile b + n) && s.lastHeld tile (k - sliceAddr tile 0) != some c
    { s with
      mem := { s.mem with bytes := s.mem.bytes.filter fun (k, _) => !fresh k, poison := s.mem.poison.filter fun (k, _) => !fresh (4 * k) }
      tables := { s.tables with zones := (tile, b, n, c) :: s.tables.zones.filter fun (t, b', n', _) => t != tile || decide (b' < b) || decide (b + n < b' + n') } }

/-- Does a window admit a team (R206)? -/
def State.admits (s : State) (tile : Nat) (w : Dword) (t : Team) : Bool :=
  winValid w && winCtx w == t.id.ctx &&
  match winScope w, s.group? t.id.gid with
  | 0, some g => t.id.tile == tile && winOwner w == g.slot
  | 1, some g => t.id.tile / 8 == tile / 8 && winOwner w == g.gslot
  | 2, _ => true
  | _, _ => false

/-- Do the `n` bytes at a scratchpad address lie in one window that admits the team (R206)? -/
def State.windowOk (s : State) (t : Team) (va n : Nat) : Bool :=
  let tile := ownerTile va
  let off := sliceOffset va
  (s.windowsOf tile).any fun (_, w) => winBase w ≤ off && off + n ≤ winBase w + winSize w && s.admits tile w t

/-! ### The L1 (R211-R213, R227) -/

/-- The line of a tile that holds an address, tagged by context and virtual address (R211). -/
def Mem.line? (m : Mem) (tile ctx va : Nat) : Option Line :=
  m.lines.find? fun l => l.tile == tile && l.ctx == ctx && l.va == va / 64 * 64

def Line.byteAt (l : Line) (i : Nat) : Byte := l.bytes.getD i 0

/-- A byte of the L1, if it is valid there. -/
def Mem.l1Byte (m : Mem) (tile ctx va : Nat) : Option (Byte × Bool) :=
  match m.line? tile ctx va with
  | some l => if l.valid.getLsbD (va % 64) then some (l.byteAt (va % 64), l.poison.getLsbD (va % 64 / 4)) else none
  | none => none

def Line.blank (tile ctx va : Nat) : Line := ⟨tile, ctx, va / 64 * 64, 0, 0, List.replicate 64 0, 0⟩

/-- Changing (or making) the line of an address. -/
def Mem.modLine (m : Mem) (tile ctx va : Nat) (f : Line → Line) : Mem :=
  let base := va / 64 * 64
  match m.line? tile ctx va with
  | some _ => { m with lines := modifyWhere (fun l => l.tile == tile && l.ctx == ctx && l.va == base) f m.lines }
  | none => { m with lines := f (Line.blank tile ctx va) :: m.lines }

/-- Setting the bits of a list of positions. -/
def setBits (v : BitVec n) (is : List Nat) (b : Bool) : BitVec n :=
  is.foldl (fun v i => if b then v ||| BitVec.twoPow n i else v &&& ~~~(BitVec.twoPow n i)) v

/-- Writing bytes into a line as valid and dirty, no fill being made (R212); word poison as R218. -/
def Line.put (l : Line) (off : Nat) (data : List (Byte × Bool)) : Line :=
  let is := (List.range data.length).map (off + ·)
  let words := (List.range 16).filterMap fun w =>
    let part := data.zipIdx.filter fun (_, i) => (off + i) / 4 == w
    if part.isEmpty then none
    else if part.any (·.1.2) then some (w, true)
    else if part.length = 4 then some (w, false) else none
  { l with
    valid := setBits l.valid is true
    dirty := setBits l.dirty is true
    bytes := (List.range 64).map fun i => if off ≤ i && i < off + data.length then (data.getD (i - off) (0, false)).1 else l.byteAt i
    poison := words.foldl (fun p (w, b) => setBits p [w] b) l.poison }

/-- Merging a fill around a line's dirty bytes (R213). -/
def Line.fill (l : Line) (data : List (Byte × Bool)) : Line :=
  let fresh := (List.range 64).filter fun i => !l.dirty.getLsbD i
  { l with
    valid := BitVec.allOnes 64
    bytes := fresh.foldl (fun bs i => bs.set i (data.getD i (0, false)).1) l.bytes
    poison := (List.range 16).foldl (fun p w =>
      if (List.range 4).any (fun j => l.dirty.getLsbD (4 * w + j)) then
        (if (data.getD (4 * w) (0, false)).2 && (List.range 4).any (fun j => !l.dirty.getLsbD (4 * w + j)) then setBits p [w] true else p)
      else setBits p [w] (data.getD (4 * w) (0, false)).2) l.poison }

/-- The dirty runs of a line as pieces, with the poison of their words. -/
def Line.dirtyPieces (l : Line) : List Piece :=
  (List.range 64).filterMap fun i =>
    if l.dirty.getLsbD i then some ⟨0, l.va + i, [(l.byteAt i, l.poison.getLsbD (i / 4))]⟩ else none

/-- Dirty bytes of one 32-bit word travel together, so that a whole word carries its own poison bit (R218). -/
def Line.writeBack (l : Line) : List Piece :=
  (List.range 16).flatMap fun w =>
    if (List.range 4).all fun j => l.dirty.getLsbD (4 * w + j) then
      [⟨0, l.va + 4 * w, (List.range 4).map fun j => (l.byteAt (4 * w + j), l.poison.getLsbD w)⟩]
    else l.dirtyPieces.filter fun p => (p.ea - l.va) / 4 == w

/-! ### Sending requests (R26, R296) -/

/-- Is this an answer on its way back to its tile? -/
def Act.isReply : Act → Bool
  | .ack .. | .filled .. => true
  | _ => false

/-- Sending a request to the ordering point of a key: travel takes a time the spec leaves open, and requests of
one tile to one point arrive in the order sent (R212, R281, R296). -/
def State.send (s : State) (tile side uid ctx issue : Nat) (pc : BitVec 48) (word : Word) (va pa : Nat) (after : List Nat)
    (act : Act) : Nat × State :=
  let (d, s) := draw s
  let (id, s) := fresh s
  let point := pointOf pa
  let behind := (s.net.filter fun x => x.tile == tile && x.point == point && !x.act.isReply).foldl (fun m x => max m x.due) 0
  let travel := if isScratch pa && ownerTile pa = tile then 0 else d
  (id, { s with net := s.net ++ [⟨id, max (s.now + travel) behind, tile, side, uid, ctx, issue, pc, word, point, va, pa, 0, after, act⟩] })

/-- A request that is sent once others have been acknowledged (R299). -/
def State.sendAfter (s : State) (tile side uid ctx issue : Nat) (pc : BitVec 48) (word : Word) (va : Nat) (after : List Nat) (act : Act) :
    Nat × State :=
  let (id, s) := fresh s
  (id, { s with net := s.net ++ [⟨id, s.now, tile, side, uid, ctx, issue, pc, word, 9999, va, 0, 0, after, act⟩] })

/-- Where the bytes of a write-back or store go: the key of its first byte, by the tile's translation; a page
that is gone is written where the TLB or the table last put it (log entry 9). -/
def State.keyOf (s : State) (tile ctx va : Nat) : Option Nat :=
  if isScratch va then some va
  else match s.walk tile ctx va with
    | .leaf base _ pte => some (bits pte.toNat 47 12 * 4096 + (va - base))
    | _ => none

/-- Writing back a line's dirty bytes to its home; the line stays valid and clean (R212, R227). Gives the
numbers of the requests sent. -/
def State.writeBackLine (s : State) (l : Line) (uid issue : Nat) : List Nat × State :=
  if l.dirty = 0 then ([], s)
  else match s.keyOf l.tile l.ctx l.va with
    | none => ([], s)
    | some pa =>
      let parts := if isWindow pa then l.writeBack.map fun p => [p] else [l.writeBack]
      let (ids, s) := parts.foldl (fun (ids, s) ps =>
        let first := (ps.headD ⟨0, l.va, []⟩).ea
        let va := if isWindow pa then first else l.va
        let (id, s) := s.send l.tile 0 uid l.ctx issue 0 0 va (pa + (va - l.va)) [] (.write ps)
        (ids ++ [id], s)) (([] : List Nat), s)
      (ids, { s with mem := { s.mem with
        lines := modifyWhere (fun k => k.tile == l.tile && k.ctx == l.ctx && k.va == l.va) (fun k => { k with dirty := 0 }) s.mem.lines } })

/-- A fill that is not merged when it arrives. -/
def Act.unmerged : Act → Act
  | .filled pid xs n sg line _ => .filled pid xs n sg line false
  | .load pid xs n sg (some _) => .load pid xs n sg (some false)
  | a => a

/-- The fills under way to lines that satisfy a test are not merged when they arrive: what they carry may be older than a write, a
write-back or an invalidation of the line (R212, R295, R300). -/
def State.staleFills (s : State) (p : Line → Bool) : State :=
  let stale (x : Net) : Net := if p (Line.blank x.tile x.ctx x.va) then { x with act := x.act.unmerged } else x
  { s with net := s.net.map stale, homeHolds := s.homeHolds.map fun h => { h with reply := stale h.reply } }

/-- Is a request, or its answer, a write-back of an L1 line? -/
def Net.writesBack (x : Net) : Bool := x.word == 0 && match x.act with
  | .write _ | .ack none _ _ _ _ _ => true
  | _ => false

/-- The write-backs of lines that satisfy a test that have still to be acknowledged (R299, R302, R308). -/
def State.writingBack (s : State) (p : Line → Bool) : List Nat :=
  let mine (x : Net) : Bool := x.writesBack && p { Line.blank x.tile x.ctx x.va with dirty := BitVec.allOnes 64 }
  (s.net.filter mine).map (·.id) ++ (s.homeHolds.filter fun h => mine h.reply).map fun h => h.reply.id

/-- Writing back every line of a tile that satisfies a test, and dropping those that `drop` names. Gives the numbers of the write-backs
of such lines that are under way, earlier ones too. -/
def State.cleanLines (s : State) (p drop : Line → Bool) (uid issue : Nat) : List Nat × State :=
  let (ids, s) := (s.mem.lines.filter p).foldl (fun (ids, s) l =>
    let (i, s) := (s.staleFills fun k => l.dirty != 0 && k.tile == l.tile && k.ctx == l.ctx && k.va == l.va).writeBackLine l uid issue
    (ids ++ i, s)) (s.writingBack p, s)
  (ids, { s with mem := { s.mem with lines := s.mem.lines.filter fun l => !(p l && drop l) } }.staleFills fun l => p l && drop l)

/-- The lines of a tile and context that overlap a range (R227). -/
def overlaps (tile ctx lo hi : Nat) (l : Line) : Bool :=
  l.tile == tile && l.ctx == ctx && decide (l.va < hi) && decide (lo < l.va + 64) && decide (lo < hi)

/-! ### The binding table (R298, R330) -/

/-- An entry of a context's binding table: region base and end, and object (Table 15-6). -/
def State.binding (s : State) (c i : Nat) : Option (Nat × Nat × Nat) :=
  match s.ctx? c with
  | none => none
  | some x =>
    let lo := s.mem.nat (x.bindBase + 16 * i) 8
    let hi := s.mem.nat (x.bindBase + 16 * i + 8) 8
    if bit hi 63 then
      let v := hi * 2 ^ 64 + lo
      some (bits v 35 0 * 4096, (bits v 63 36 + 1) * 4096, bits v 111 64)
    else none

/-- The entries of a context's binding table. -/
def State.bindingList (s : State) (c : Nat) : List (Nat × Nat × Nat) := (List.range 1024).filterMap (s.binding c)

/-- A tile's binding cache: the table, or the entries before an update that has not reached the tile yet (R330, R332, R333). -/
def State.bindingCache (s : State) (tile c : Nat) : List (Nat × Nat × Nat) :=
  match (s.ctx? c).bind fun x => x.bindOld.find? fun (t, until_, _) => t == tile && decide (s.now < until_) with
  | some (_, _, es) => es
  | none => s.bindingList c

/-- The regions bound to an object, as a tile knows them (R299, R300). -/
def State.boundTo (s : State) (tile c obj : Nat) : List (Nat × Nat) :=
  (s.bindingCache tile c).filterMap fun (b, n, o) => if o = obj then some (b, n) else none

/-- Is a line in a region of a list? -/
def inRegions (rs : List (Nat × Nat)) (l : Line) : Bool := rs.any fun (b, n) => decide (b ≤ l.va) && decide (l.va < b + n)

/-- Does any binding entry cover a line? (R302: unbound memory is what no entry covers.) -/
def State.bound (s : State) (c : Nat) (l : Line) : Bool :=
  (s.bindingCache l.tile c).any fun (b, n, _) => decide (b ≤ l.va) && decide (l.va < b + n)

end Sys2Proof.Machine
end

