-- ==== Sys2Proof/Machine/Operands.lean ====
section
/-! DEFINITION. Register fields and operand forms: what each field of each instruction may name (R42-R45), the
causes an instruction has at decode that depend on the mode or the issuer (R56), and reading and writing
registers (R23, R43, R69). -/

namespace Sys2Proof.Machine

/-- The kinds of Table 3-2. -/
inductive RegKind where
  | frame
  | uni
  | port
  | zero
  | special
  | lit
  | illegal
deriving DecidableEq, Repr

/-- The kind of a register number (Table 3-2); m0-m2 stand only in macro bodies, where they are replaced. -/
def regKind (r : Reg) : RegKind :=
  let n := r.toNat
  if n < 64 then .frame else if n < 96 then .uni else if n < 112 then .port
  else if n = 112 then .zero else if n < 120 then .special else if n < 125 then .illegal
  else if n < 127 then .special else .lit

/-- Is a register per lane as a source (Table 3-2)? Frame registers, ports, lane, widlo, widhi, depth and cc are. -/
def perLane (r : Reg) : Bool :=
  match regKind r with
  | .frame | .port => true
  | .special => let n := r.toNat; n = 113 || n = 115 || n = 116 || n = 119 || n = 125
  | _ => false

/-- What a register field of an instruction may name and how it is used. `words` counts 32-bit registers. -/
structure Role where
  reads : Bool
  writes : Bool
  words : Nat
  frame : Bool
  uni : Bool
  port : Bool
  zero : Bool
  special : Bool
  lit : Bool
  multiple : Nat
  uniform : Bool
deriving DecidableEq, Repr

/-- A field the entry leaves unused, or that is no register. -/
def Role.none : Role := ⟨false, false, 0, true, true, true, true, true, true, 1, false⟩
/-- Any legal source of R42; a 64-bit one names the even register of a pair (R43). -/
def Role.src (w : Nat) : Role := ⟨true, false, w, true, true, true, true, true, true, w, false⟩
/-- A destination: frame, uniform, port, zero. -/
def Role.dst (w : Nat) : Role := ⟨false, true, w, true, true, true, true, false, false, w, false⟩
/-- A destination that is also read. -/
def Role.sd (w : Nat) : Role := { Role.dst w with reads := true }
/-- The forms without queue ports. -/
def Role.srcNP (w : Nat) : Role := { Role.src w with port := false }
def Role.dstNP (w : Nat) : Role := { Role.dst w with port := false }
def Role.sdNP (w : Nat) : Role := { Role.sd w with port := false }
/-- An address pair: an even frame or uniform register (R220). -/
def Role.base : Role := ⟨true, false, 2, true, true, false, false, false, false, 2, false⟩
/-- A uniform address pair. -/
def Role.ubase : Role := { Role.base with frame := false, uniform := true }
/-- A uniform source: k0-k31, zero, team, width, span, clock or the literal (R104). -/
def Role.usrc (w : Nat) : Role := ⟨true, false, w, false, true, false, true, true, true, w, true⟩
/-- The first of four registers (R220, R277). -/
def Role.quad (rd wr : Bool) : Role := ⟨rd, wr, 4, true, true, false, false, false, false, 4, false⟩
def Role.kquad : Role := ⟨true, false, 4, false, true, false, false, false, false, 4, true⟩
/-- The first of eight uniform registers (R255, R357). -/
def Role.kblock : Role := ⟨true, false, 8, false, true, false, false, false, false, 8, true⟩
/-- A queue port named, neither popped nor pushed (R435). -/
def Role.portName : Role := ⟨false, false, 0, false, false, true, false, false, false, 1, false⟩
/-- A frame pair read and written (R228). -/
def Role.fpair (rd wr : Bool) : Role := ⟨rd, wr, 2, true, false, false, false, false, false, 2, false⟩

/-- May a register number stand in a field of this role? -/
def Role.legal (o : Role) (r : Reg) : Bool :=
  match regKind r with
  | .frame => o.frame && r.toNat % o.multiple == 0
  | .uni => o.uni && (r.toNat - 64) % o.multiple == 0
  | .port => o.port
  | .zero => o.zero
  | .special => o.special && !(o.uniform && perLane r)
  | .lit => o.lit
  | .illegal => false

/-- The operand forms of an instruction under a mode: its fields with their roles, its lookahead, whether the
mode's type is one its entry accepts, whether it acts once for the team, whether it ignores the guard, and
whether the literal, as a 64-bit source, is the high half of a binary64 (R43). -/
structure Shape where
  d : Role
  a : Role
  b : Role
  la : Option Nat
  typeOk : Bool
  once : Bool
  noGuard : Bool
  litHigh : Bool
  implicit : Bool
deriving DecidableEq, Repr

/-- A shape with the given fields and nothing special. -/
def Shape.of (d a b : Role) : Shape := ⟨d, a, b, none, true, false, false, false, false⟩

def wOf (w : BitVec 1) : Nat := if w = 1 then 2 else 1

/-- Registers of a value of the mode's type (R128). -/
def modeWords (t : Nat) : Nat := if t = 1 || t = 11 || t = 15 || t = 17 then 2 else 1

/-- The type sets of Table 7-1. -/
def typeA (t : Nat) : Bool := t ≤ 5
def typeS (t : Nat) : Bool := t ≤ 3
def typeF (t : Nat) : Bool := t ≤ 1

/-- The width of a scan operation (Table 5-9). -/
def scanWords (op t : Nat) : Nat :=
  if 13 ≤ op then modeWords t else if [1, 4, 5, 8, 9].contains op then 2 else 1

/-- The operand forms (Tables 5-3, 5-5, 5-6, 5-8, 6-5, 7-1, 8-1, 10-4, 11-1, 12-3, 13-1, 14-1, 16-3, 19-1, 21-3,
22-6; R331, R334, R67). `tw` is the register count of the operand whose type CVT, CVTI, CVTF, PACK or UNPACK
takes from its control word (R146). A team's own WCS or TLBINV has no operand form here, so that an odd pair is
PRIVILEGED and not ILLEGAL_OPERAND: DESIGN CHOICE, log 133. -/
def shape (i : Instr) (m : Mode) (tw : Nat) : Shape :=
  let t := m.typ
  let v := modeWords t
  let hi := t = 1
  let N := Role.none
  let flt (d a b : Role) (c : BitVec 1) (ok : Bool) : Shape :=
    { Shape.of d a b with typeOk := if c = 1 then typeS t else ok, litHigh := hi }
  let long (s : Shape) (l : BitVec 4) : Shape := { s with la := some l.toNat }
  let imp (s : Shape) : Shape := { s with implicit := true }
  let once (s : Shape) : Shape := { s with once := true }
  match i with
  | .nop | .mode .. | .rep .. | .macroRun .. | .region | .sigchk _ | .sigset _ | .eqfence | .fence _ =>
      { Shape.of N N N with once := true, noGuard := true }
  | .bra _ | .ret | .exit | .call .. => Shape.of N N N
  | .yield => { Shape.of N N N with noGuard := true }
  | .jmp _ | .callr .. => Shape.of N Role.base N
  | .add w _ _ _ _ _ | .addc w _ _ _ _ _ | .sub w _ _ _ _ _ | .subb w _ _ _ _ _ | .mul w _ _ _ _ _ =>
      Shape.of (.dst (wOf w)) (.src (wOf w)) (.src (wOf w))
  | .min _ w _ _ _ _ _ | .max _ w _ _ _ _ _ | .mulh _ w _ _ _ _ => Shape.of (.dst (wOf w)) (.src (wOf w)) (.src (wOf w))
  | .neg w _ _ _ _ | .abs w _ _ _ _ => Shape.of (.dst (wOf w)) (.src (wOf w)) N
  | .mad w _ _ _ _ _ => Shape.of (.sd (wOf w)) (.src (wOf w)) (.src (wOf w))
  | .div _ w _ _ _ l _ | .rem _ w _ _ _ l _ => long (Shape.of (.sd (wOf w)) (.src (wOf w)) N) l
  | .mulw .. => Shape.of (.dst 2) (.src 1) (.src 1)
  | .madw .. => Shape.of (.sd 2) (.src 1) (.src 1)
  | .mov w _ _ _ => Shape.of (.dst (wOf w)) (.src (wOf w)) N
  | .ldi w _ _ _ => Shape.of (.dst (wOf w)) N N
  | .and w _ _ _ _ | .or w _ _ _ _ | .xor w _ _ _ _ | .andn w _ _ _ _ => Shape.of (.dst (wOf w)) (.src (wOf w)) (.src (wOf w))
  | .not w _ _ _ | .brev w _ _ _ => Shape.of (.dst (wOf w)) (.src (wOf w)) N
  | .shl w _ _ _ _ | .shr w _ _ _ _ | .shra w _ _ _ _ | .rot w _ _ _ _ => Shape.of (.dst (wOf w)) (.src (wOf w)) (.src 1)
  | .popc w _ _ _ | .clz w _ _ _ | .ctz w _ _ _ => Shape.of (.dst 1) (.src (wOf w)) N
  | .sel w _ _ _ _ => { Shape.of (.dst (wOf w)) (.src (wOf w)) (.src (wOf w)) with noGuard := true }
  | .bfx _ w _ _ _ _ => Shape.of (.dst (wOf w)) (.src (wOf w)) (.src 1)
  | .bfi w _ _ _ _ => Shape.of (.sd (wOf w)) (.src (wOf w)) (.src 1)
  | .cmpN w _ _ _ | .cmpS w _ _ _ | .tst w _ _ _ => Shape.of N (.src (wOf w)) (.src (wOf w))
  | .fshf .. | .perm .. | .dot4N .. | .dot4S .. | .sad .. => Shape.of (.sd 1) (.src 1) (.src 1)
  | .lea .. => Shape.of (.dst 2) (.src 2) (.src 1)
  | .getcc .. => Shape.of (.dst 1) N N
  | .setcc .. => Shape.of N (.src 1) N
  | .shfl _ w _ _ _ _ => Shape.of (.dst (wOf w)) (.src (wOf w)) (.src 1)
  | .voteSome .. | .voteEvery .. | .voteSame .. | .ballot .. => Shape.of (.dst 1) (.src 1) N
  | .scan op _ _ _ | .scanEx op _ _ _ | .reduce op _ _ _ =>
      let w := scanWords op.toNat t
      { Shape.of (.dst w) (.src w) N with typeOk := op.toNat < 13 || typeF t, litHigh := 13 ≤ op.toNat && hi }
  | .matchLane w _ _ _ => Shape.of (.dst 1) (.src (wOf w)) N
  | .bcast w _ _ _ _ => Shape.of (.dst (wOf w)) (.src (wOf w)) (.usrc 1)
  | .kmov w _ _ _ _ => once (Shape.of { Role.dst (wOf w) with frame := false, port := false, zero := false } (.src (wOf w)) (.usrc 1))
  | .fadd c _ _ _ _ | .fsub c _ _ _ _ | .fmul c _ _ _ _ | .fmin c _ _ _ _ | .fmax c _ _ _ _ | .fminm c _ _ _ _
  | .fmaxm c _ _ _ _ | .fcpys c _ _ _ _ => flt (.dst v) (.src v) (.src v) c (typeA t)
  | .fma c _ _ _ _ | .fnma c _ _ _ _ => flt (.sd v) (.src v) (.src v) c (typeA t)
  | .fdiv c _ _ l _ => long (flt (.sd v) (.src v) N c (typeS t)) l
  | .fsqrt c _ _ l _ | .frcp c _ _ l _ => long (flt (.dst v) (.src v) N c (typeS t)) l
  | .fabs c _ _ _ | .fneg c _ _ _ | .frint c _ _ _ => flt (.dst v) (.src v) N c (typeA t)
  | .fcmp .. => flt (.dst 1) (.src v) (.src v) 0 (typeS t)
  | .fclass c _ _ _ | .fgetx c _ _ _ => flt (.dst 1) (.src v) N c (typeA t)
  | .fscale c _ _ _ _ => flt (.dst v) (.src v) (.src 1) c (typeA t)
  | .sinpi _ _ l _ | .cospi _ _ l _ | .exp2 _ _ l _ | .log2 _ _ l _ | .rcpa _ _ l _ | .rsqa _ _ l _ | .tanh _ _ l _ =>
      long (flt (.dst v) (.src v) N 0 (typeF t)) l
  | .fmtld _ l _ _ => once (long (Shape.of N .ubase N) l)
  | .fmtrd .. => Shape.of (.dst 1) N N
  | .cvt .. => { Shape.of (.dst v) { Role.src tw with multiple := 1 } (.usrc 1) with typeOk := typeS t || t = 6 }
  | .cvti .. => { Shape.of (.dst v) { Role.src tw with multiple := 1 } (.usrc 1) with typeOk := 8 ≤ t && t ≤ 15 }
  | .cvtf .. => { Shape.of (.dst v) { Role.src tw with multiple := 1 } (.usrc 1) with typeOk := typeS t || t = 6 }
  | .pack .. => { Shape.of (.sd 1) { Role.src tw with multiple := 1 } (.src 1) with typeOk := 4 ≤ t && t ≤ 6 }
  | .unpack .. => { Shape.of { Role.dst tw with multiple := 1 } (.src 1) (.src 1) with typeOk := 4 ≤ t && t ≤ 6 }
  | .scale .. => { Shape.of (.dst v) (.src v) (.src 1) with typeOk := typeS t, litHigh := hi }
  | .ld ty _ _ l _ _ => long (Shape.of (.dst (if ty = 5 then 2 else 1)) .base N) l
  | .ldv _ _ l _ _ => long (Shape.of (.quad false true) .base N) l
  | .ldkB32 _ _ l _ _ => long (Shape.of (.dst 1) .ubase N) l
  | .ldkB64 _ _ l _ _ => long (Shape.of (.dst 2) .ubase N) l
  | .ldmx _ _ l _ _ => long { Shape.of (.fpair true true) .base N with typeOk := t = 6 } l
  | .acq _ _ l _ _ => long (Shape.of (.dstNP 2) .base N) l
  | .pref .. => Shape.of N .base (.src 1)
  | .st n _ _ _ _ => Shape.of (.src (if n = 3 then 2 else 1)) .base (.src 1)
  | .stv .. => Shape.of (.quad true false) .base (.src 1)
  | .stmx .. => { Shape.of (.fpair true false) .base (.src 1) with typeOk := t = 6 }
  | .rel .. => Shape.of { Role.srcNP 2 with special := false, lit := false } .base (.src 1)
  | .flush .. | .invl .. => once (Shape.of N .ubase (.usrc 1))
  | .atom _ w _ _ l _ _ => imp (long (Shape.of (.sdNP (wOf w)) .base N) l)
  | .acas w _ _ l _ _ => imp (long (Shape.of (if w = 1 then .quad true true else { Role.quad true true with words := 2, multiple := 2 }) .base N) l)
  | .afadd _ _ l _ _ | .afmm _ _ l _ _ _ =>
      imp (long { Shape.of { Role.sdNP v with zero := false } .base N with typeOk := typeF t } l)
  | .ared _ w _ _ _ _ => imp (Shape.of { Role.srcNP (wOf w) with special := false, lit := false } .base (.src 1))
  | .aprog _ _ l _ _ => imp (long (Shape.of (.quad true true) .base N) l)
  | .apload .. => once (imp (Shape.of N .ubase (.usrc 1)))
  | .cpl .. => Shape.of { Role.base with writes := false } .base (.srcNP 1)
  | .cpf .. => Shape.of .base (.srcNP 1) (.srcNP 1)
  | .cpt .. => Shape.of .base (.quad true false) (.srcNP 1)
  | .cpm .. => Shape.of .kquad .base (.srcNP 1)
  | .binit .. => Shape.of (.srcNP 1) .base (.srcNP 1)
  | .arrive .. => imp (Shape.of N .base (.srcNP 1))
  | .expect .. => imp (Shape.of (.sdNP 1) .base (.srcNP 1))
  | .wait .. => once (Shape.of { Role.usrc 1 with multiple := 1 } .ubase (.usrc 1))
  | .cadd .. => imp (Shape.of (.srcNP 1) .base (.srcNP 1))
  | .cread _ _ l _ _ => long (Shape.of (.dstNP 2) .base N) l
  | .bseal .. | .bwait .. => { Shape.of N (.usrc 1) N with once := true, noGuard := true }
  | .stallrd .. => once (Shape.of { Role.dstNP 2 with zero := false } (.usrc 1) N)
  | .mcfg .. => once (imp (Shape.of N .kblock N))
  | .mldb .. | .mma .. | .mmas .. | .mzero .. | .mstore .. | .mrun .. => once (imp (Shape.of (.dstNP 1) .kblock N))
  | .mdrain .. => once (imp (Shape.of { Role.dstNP 1 with uni := false, zero := false } .kblock N))
  | .qmap .. => once (Shape.of .portName (.usrc 1) N)
  | .qunmap .. => once (Shape.of .portName N N)
  | .qstat .. => once (Shape.of (.dstNP 1) .portName N)
  | .qnotify .. => once (imp (Shape.of .portName N N))
  | .spawn .. => imp (Shape.of (.dstNP 1) .base (.src 1))
  | .grow .. => once (imp (Shape.of (.dstNP 1) (.usrc 1) N))
  | .job .. => once (imp (Shape.of N .ubase (.usrc 1)))
  | .launch .. => once (imp (Shape.of (.dstNP 1) .ubase (.usrc 1)))
  | .eqset .. => { Shape.of N .ubase N with once := true, noGuard := true }
  | .unite _ _ l _ | .same _ _ l _ => long (Shape.of { Role.sdNP 1 with zero := false } { Role.srcNP 1 with special := false, lit := false } N) l
  | .find _ _ l _ => long (Shape.of { Role.dstNP 1 with zero := false } { Role.srcNP 1 with special := false, lit := false } N) l
  | .relabel .. => once (imp (Shape.of N .kblock N))
  | .eqsnap .. | .equndo .. | .eqdrop .. => once (imp (Shape.of (.dstNP 1) N N))
  | .eqsize .. => once (Shape.of { Role.dstNP 1 with zero := false } N N)
  | .trap _ | .brk => Shape.of N N N
  | .sysc .. => once (Shape.of { Role.dst 2 with frame := false, port := false } (.usrc 1) N)
  | .mfs _ lit => Shape.of (.dst (if lit = 4 || lit = 5 then 2 else 1)) N N
  | .mts .. => Shape.of N N (.src 1)
  | .bind .. => once (imp (Shape.of N .kquad (.usrc 1)))
  | .unbind .. => once (imp (Shape.of N .ubase N))
  | .tlbinv .. | .wcs .. => Shape.of N N N
  | _ => Shape.of N N N

/-- The register fields d, a and b of an instruction; 0 where it has none (R42: an unused field holds 0). -/
def regFields (i : Instr) : Reg × Reg × Reg :=
  match encodeWord i with
  | none => (0, 0, 0)
  | some w =>
    let f := fieldsOf w 0 0
    match i with
    | .mode .. | .rep .. | .fence _ => (0, 0, 0)
    | .call .. | .callr .. => (0, f.a, 0)
    | _ => (f.d, f.a, if isFormatL (opcode w).toNat then 0 else f.b)

/-- The CALL and CALLR shift, the FENCE scope, the mode fields, the system-register number and the like, checked
at decode (R48, R60, R75, R175, R177, R308, R352). Gives the cause 3 or 4, or none. -/
def fieldCause (i : Instr) : Option Nat :=
  match i with
  | .mode _ t r _ _ _ _ => if !typeLegal t.toNat || 6 ≤ r.toNat then some 3 else none
  | .rep _ d a b => if 5 ≤ d.toNat || 5 ≤ a.toNat || 5 ≤ b.toNat then some 3 else none
  | .call x _ | .callr x _ => if x.toNat < 2 || 63 < x.toNat then some 3 else none
  | .fence s => if 5 ≤ s.toNat then some 3 else none
  | .mfs d lit =>
    if 9 < lit.toNat then some 4
    else if regKind d = .uni && [0, 1, 5, 6].contains lit.toNat then some 4 else none
  | .mts _ lit => if 1 < lit.toNat then some 4 else none
  | .eqsize _ lit => if 4 < lit.toNat then some 4 else none
  | .macroRun _ d a b =>
    if [d, a, b].any fun r => regKind r = .illegal || regKind r = .lit then some 4 else none
  | .mdrain .. => none
  | _ => none

/-- Does the instruction have a per-lane source (R44)? Ports named by the queue instructions do not count, nor
does KMOV's a. -/
def hasLaneSource (i : Instr) (sh : Shape) : Bool :=
  let (d, a, b) := regFields i
  let lane (o : Role) (r : Reg) : Bool := o.reads && perLane r
  match i with
  | .kmov .. => lane sh.b b
  | _ => lane sh.d d || lane sh.a a || lane sh.b b

/-- ARED and REL, whose uniform d asks for a uniform base and offset though it is only read (R277, R305). -/
def uniformTogether (i : Instr) : Bool :=
  match i with
  | .ared .. | .rel .. => true
  | _ => false

/-- The first cause of R56 that an instruction has at decode once its word is one: ILLEGAL_ENCODING (3),
ILLEGAL_OPERAND (4), PRIVILEGED (5). A word with a bad mode type has cause 3 whatever its fields. -/
def decodeCause (i : Instr) (m : Mode) : Option Nat :=
  let sh := shape i m 1
  let (d, a, b) := regFields i
  if fieldCause i = some 3 || !sh.typeOk then some 3
  else if fieldCause i = some 4 then some 4
  else if !(sh.d.legal d && sh.a.legal a && sh.b.legal b) then some 4
  else if (sh.d.writes || uniformTogether i) && regKind d = .uni && hasLaneSource i sh then some 4
  else match i with
    | .tlbinv .. | .wcs .. => some 5
    | _ => none

/-! ### Reading and writing registers -/

/-- The slot a frame register names for a lane (R68). -/
def Team.slotOf (t : Team) (l : Nat) (r : Nat) : Nat := (t.lane l).fp.toNat + r

/-- A frame slot of a lane: the last value written to it, 0 where none was since it entered (R71). -/
def Team.slotWord (t : Team) (l n : Nat) : PWord := fget PWord.zero (t.frame l).slots n

/-- The codes of a lane as register 125 reads them (Table 5-2). -/
def Codes.word (c : Codes) : Word := BitVec.ofNat 32 (8 * b2n c.n + 4 * b2n c.z + 2 * b2n c.c + b2n c.v)

/-- The work identifier of a lane (R31). -/
def Team.widOf (t : Team) (l : Nat) : Dword := t.id.wid + BitVec.ofNat 64 l

/-- A special register as a 64-bit source (R43, Table 5-1). -/
def Team.special (t : Team) (now l n : Nat) : PVal :=
  match n with
  | 113 => ⟨BitVec.ofNat 64 l, false⟩
  | 114 => ⟨BitVec.ofNat 64 t.id.member, false⟩
  | 115 => ⟨t.widOf l, false⟩
  | 116 => ⟨(t.widOf l) >>> 32, false⟩
  | 117 => ⟨BitVec.ofNat 64 t.width, false⟩
  | 118 => ⟨BitVec.ofNat 64 (16 <<< t.id.span), false⟩
  | 119 => ⟨(t.lane l).depth.zeroExtend 64, false⟩
  | 125 => ⟨(t.lane l).cc.word.zeroExtend 64, (t.lane l).cc.p⟩
  | 126 => ⟨BitVec.ofNat 64 now, false⟩
  | _ => ⟨0, false⟩

/-- Two words as one value. -/
def pairVal (lo hi : PWord) : PVal := ⟨hi.w ++ lo.w, lo.p || hi.p⟩

/-- Register `r` as lane `l` sees it, `words` registers wide (R23, R43, R69); popped words of a port are in
`pops`, by lane, low word first. -/
def readReg (t : Team) (now : Nat) (lit : Word) (litHigh : Bool) (pops : List (Nat × PWord)) (words : Nat) (r : Reg)
    (l : Nat) : PVal :=
  let n := r.toNat
  match regKind r with
  | .frame =>
    let s := t.slotOf l n
    if words = 1 then ⟨(t.slotWord l s).w.zeroExtend 64, (t.slotWord l s).p⟩ else pairVal (t.slotWord l s) (t.slotWord l (s + 1))
  | .uni =>
    let k (i : Nat) := t.arch.k.getD (i - 64) PWord.zero
    if words = 1 then ⟨(k n).w.zeroExtend 64, (k n).p⟩ else pairVal (k n) (k (n + 1))
  | .port =>
    match pops.filter (·.1 == l) with
    | [(_, x)] => ⟨x.w.zeroExtend 64, x.p⟩
    | (_, x) :: (_, y) :: _ => pairVal x y
    | [] => ⟨0, false⟩
  | .special =>
    let v := t.special now l n
    if words = 1 then ⟨(v.v.extractLsb' 0 32).zeroExtend 64, v.p⟩ else v
  | .lit =>
    if words = 1 then ⟨lit.zeroExtend 64, false⟩
    else if litHigh then ⟨lit ++ (0 : Word), false⟩ else ⟨lit.signExtend 64, false⟩
  | _ => ⟨0, false⟩

/-- The four or eight registers that start at `r`, as lane `l` sees them. -/
def readRegs (t : Team) (l : Nat) (r : Reg) (n : Nat) : List PWord :=
  (List.range n).map fun i =>
    if r.toNat < 64 then t.slotWord l (t.slotOf l (r.toNat + i)) else t.arch.k.getD (r.toNat - 64 + i) PWord.zero

/-- Where a result for lane `l` goes when its destination is `r` (R69). -/
def destOf (t : Team) (r : Reg) (l : Nat) : Dest :=
  match regKind r with
  | .frame => .slot l (t.slotOf l r.toNat)
  | .uni => .uni (r.toNat - 64)
  | .port => .port (r.toNat - 96)
  | _ => .none

/-- Writing words to a destination (R23: with their poison bits). A port's words are pushed elsewhere. -/
def Team.write (t : Team) (d : Dest) (ws : List PWord) : Team :=
  match d with
  | .slot l n => t.setFrame l fun f =>
      { f with slots := ws.zipIdx.foldl (fun m (w, i) => fput PWord.zero m (n + i) w) f.slots }
  | .uni n => t.setArch fun a => { a with k := ws.zipIdx.foldl (fun k (w, i) => k.set (n + i) w) a.k }
  | .fmt n => t.setArch fun a => { a with nf := a.nf.set n (ws.headD PWord.zero).w }
  | _ => t

/-- A value as the words of `n` registers, low word first. -/
def PVal.words (v : PVal) (n : Nat) : List PWord :=
  if n = 1 then [⟨v.v.extractLsb' 0 32, v.p⟩] else [⟨v.v.extractLsb' 0 32, v.p⟩, ⟨v.v.extractLsb' 32 32, v.p⟩]

/-- The slots of the frame registers an instruction names for a lane, over its fields. -/
def slotsNamed (t : Team) (sh : Shape) (d a b : Reg) (l : Nat) : List Nat :=
  let one (o : Role) (r : Reg) : List Nat :=
    if (o.reads || o.writes) && regKind r = .frame then (List.range o.words).map fun i => t.slotOf l (r.toNat + i) else []
  one sh.d d ++ one sh.a a ++ one sh.b b

/-- Are the slots an instruction names resident for a lane (R92)? -/
def resident (t : Team) (l : Nat) (slots : List Nat) : Bool :=
  slots.all fun n => (t.frame l).lo ≤ n && n < (t.frame l).hi

end Sys2Proof.Machine
end

