-- ==== Sys2Proof/Machine/Flags.lean ====
section
/-! DEFINITION. The integer condition codes (Table 5-4, R110, R115, R116). -/

namespace Sys2Proof.Machine

/-- The result and codes of a `w`-bit addition with a carry in (Table 5-4: add, addc, mad's final addition). -/
def addCodes {w : Nat} (a b : BitVec w) (cin : Bool) : BitVec w × Codes :=
  let exact := a.toNat + b.toNat + b2n cin
  let r := BitVec.ofNat w exact
  let signed := a.toInt + b.toInt + (b2n cin : Nat)
  (r, ⟨r.msb, r == 0, decide (2 ^ w ≤ exact), decide (r.toInt ≠ signed), false⟩)

/-- The result and codes of a `w`-bit subtraction with a borrow in: C is set when no borrow occurs. -/
def subCodes {w : Nat} (a b : BitVec w) (bin : Bool) : BitVec w × Codes :=
  let r := a - b - BitVec.ofNat w (b2n bin)
  let signed := a.toInt - b.toInt - (b2n bin : Nat)
  (r, ⟨r.msb, r == 0, decide (b.toNat + b2n bin ≤ a.toNat), decide (r.toInt ≠ signed), false⟩)

/-- The codes of a result alone, C as given and V as given. -/
def resCodes {w : Nat} (r : BitVec w) (c v : Bool) : Codes := ⟨r.msb, r == 0, c, v, false⟩

/-- The low half of a product and its codes: C and V say that the unsigned or the signed product needs more
than `w` bits. -/
def mulCodes {w : Nat} (a b : BitVec w) : BitVec w × Codes :=
  let r := a * b
  (r, resCodes r (decide (2 ^ w ≤ a.toNat * b.toNat)) (decide (r.toInt ≠ a.toInt * b.toInt)))

/-- CMP's codes: Z and C as SUB, N set when a is less in the variant's sense, V clear (R116). -/
def cmpCodes {w : Nat} (signed : Bool) (a b : BitVec w) : Codes :=
  let (_, c) := subCodes a b false
  { c with n := if signed then decide (a.toInt < b.toInt) else decide (a.toNat < b.toNat), v := false }

/-- TST's codes (Table 5-6). -/
def tstCodes {w : Nat} (a b : BitVec w) : Codes := resCodes (a &&& b) false false

/-- The quotient, remainder and V of R110. -/
def divRem {w : Nat} (signed : Bool) (n m : BitVec w) : BitVec w × BitVec w × Bool :=
  if m = 0 then (BitVec.allOnes w, n, true)
  else if signed then
    if n = BitVec.intMin w && m = BitVec.allOnes w then (n, 0, true)
    else (BitVec.ofInt w (n.toInt.tdiv m.toInt), BitVec.ofInt w (n.toInt.tmod m.toInt), false)
  else (n / m, n % m, false)

end Sys2Proof.Machine
end

