-- ==== Sys2Proof/Machine/Rings.lean ====
section
/-! DEFINITION. Hardware queues: handles, reservations, pops and pushes (21). -/

namespace Sys2Proof.Machine

/-- A count in the cycle modulo 2 × (size + 1) (R426). -/
def Ring.step (r : Ring) (c n : Nat) : Nat := (c + n) % (2 * (r.size + 1))

/-- The distance from one count to a later one. -/
def Ring.dist (r : Ring) (lo hi : Nat) : Nat := (hi + 2 * (r.size + 1) - lo) % (2 * (r.size + 1))

/-- Room is N − (V − F) (R426). -/
def Ring.room (r : Ring) : Nat := r.size + 1 - r.dist r.free r.rsv

/-- The counts in [H, T) that are not void (R429). -/
def Ring.poppable (r : Ring) : List Nat :=
  ((List.range (r.dist r.head r.tail)).map (r.step r.head)).filter fun c => !r.void.contains c

/-- Words a pop could take now, returned slots included (Table 21-4). -/
def Ring.available (r : Ring) : Nat := r.returned.length + r.poppable.length

/-- Taking `k` words: returned slots first, oldest first, then from H, void slots being skipped (R429). -/
def Ring.take (r : Ring) (k : Nat) : Option (List Nat × Ring) :=
  if r.available < k then none
  else
    let back := r.returned.take k
    let more := r.poppable.take (k - back.length)
    let head := match more.getLast? with
      | some c => r.step c 1
      | none => r.head
    some (back ++ more, { r with returned := r.returned.drop k, head := head })

/-- Reserving `k` slots for a push (R430). -/
def Ring.reserve (r : Ring) (k : Nat) : Option (Nat × Ring) :=
  if r.room < k then none else some (r.rsv, { r with rsv := r.step r.rsv k })

/-- Marking slots written, after which T passes over them (R430). -/
def Ring.fill (r : Ring) (slots : List Nat) : Ring :=
  Ring.advance { r with written := r.written ++ slots } (4 * (r.size + 1))

/-- Freeing popped slots, after which F passes over them (R429). -/
def Ring.release (r : Ring) (slots : List Nat) : Ring :=
  Ring.advance { r with freed := r.freed ++ slots } (4 * (r.size + 1))

/-- The fields of a link-queue entry (Table 21-8). -/
def LinkQueue.valid (q : LinkQueue) : Bool := bit q.q0.toNat 63
def LinkQueue.size (q : LinkQueue) : Nat := bits q.q0.toNat 59 48
def LinkQueue.target (q : LinkQueue) : Nat := bits q.q0.toNat 47 0
def LinkQueue.gen (q : LinkQueue) : Nat := bits q.q1.toNat 62 48
def LinkQueue.bell (q : LinkQueue) : Nat := bits q.q1.toNat 47 0
def LinkQueue.credit (q : LinkQueue) : Nat := bits q.q2.toNat 47 0

def State.link (s : State) (c e : Nat) : LinkQueue :=
  match s.ctx? c with
  | some x => fget LinkQueue.none x.links e
  | none => LinkQueue.none

/-- Words unconsumed: a consumed count that runs ahead of sent is taken as sent (R427). -/
def LinkQueue.room (q : LinkQueue) : Nat :=
  let ahead := (q.consumed + 2 ^ 32 - q.sent) % 2 ^ 32
  let consumed := if 0 < ahead && ahead < 2 ^ 31 then q.sent else q.consumed
  let gone := (q.passed + 2 ^ 32 - q.sent) % 2 ^ 32 + q.void.length
  q.size + 1 - (q.rsv + 2 ^ 33 - consumed - gone) % 2 ^ 32

/-- An optical port that is up (Table 18-1). -/
def Port.off : Port := ⟨0, 0, false, false, 0, 0, 100, false, 0, 0⟩
def State.port (s : State) (p : Nat) : Port := fget Port.off s.hub.ports p

/-- The port of a window address is up. -/
def State.routeUp (s : State) (pa : Nat) : Bool :=
  match s.portOf pa with
  | some p => (s.port p).state == 4
  | none => false

/-- A handle is good for a context (R434, R436): kind, MBZ fields, validity, generation and context. -/
def State.handleOk (s : State) (c : Nat) (h : Word) : Bool :=
  let e := handleEntry h
  match handleKind h with
  | 0 =>
    let q := s.queue (handleTile h) e
    q.valid && q.gen == handleGen h && q.ctx == c
  | 1 => handleTile h == 0 && (match s.ctx? c with
      | some x => fget 0 x.rights e == handleGen h + 1
      | none => false)
  | 2 => handleTile h == 0 && (s.link c e).valid && (s.link c e).gen == handleGen h
  | _ => false

/-- May the team pop the queue (R424, R426)? The group or gang is that of the window that holds the ring. -/
def State.mayPop (s : State) (t : Team) (h : Word) : Bool :=
  handleKind h == 0 &&
  let tile := handleTile h
  let q := s.queue tile (handleEntry h)
  let owner := (s.windowsOf tile).find? fun (_, w) =>
    winValid w && winCtx w == q.ctx && decide (winBase w ≤ q.base) && decide (q.base + 4 * (q.ring.size + 1) ≤ winBase w + winSize w)
  match owner, s.group? t.id.gid with
  | some (_, w), some g =>
    match q.scope with
    | 2 => true
    | 1 =>
      t.id.tile / 8 == tile / 8 &&
      (if winScope w = 0 then
        s.disp.groups.any fun o => o.tile == tile && o.slot == winOwner w && o.work == g.work && o.gang == g.gang
      else winOwner w == g.gslot)
    | _ => winScope w == 0 && t.id.tile == tile && winOwner w == g.slot
  | some _, none => q.scope == 2
  | none, _ => false

/-- Why a pop (or a push) through a port traps at issue, if it does (R424, R428, R434, R436). -/
def State.portCause (s : State) (t : Team) (p : Nat) (pop : Bool) (k : Nat) : Option Nat :=
  match t.arch.ports.getD p none with
  | none => some 74
  | some h =>
    if !s.handleOk t.id.ctx h then some 75
    else if pop && !s.mayPop t h then some 76
    else
      let size := match handleKind h with
        | 0 => (s.queue (handleTile h) (handleEntry h)).ring.size + 1
        | 1 => 4096
        | _ => min 4096 ((s.link t.id.ctx (handleEntry h)).size + 1)
      if size < k then some 4
      else if handleKind h = 2 then
        let q := s.link t.id.ctx (handleEntry h)
        if (s.portOf q.target).isNone then some 37
        else if !s.routeUp q.target then some 77 else none
      else none

/-- The word at a count of a tile queue (R426). -/
def State.queueWord (s : State) (tile : Nat) (q : TileQueue) (c : Nat) : PWord :=
  let k := sliceAddr tile (q.base + 4 * q.ring.index c)
  ⟨BitVec.ofNat 32 (s.mem.nat k 4), s.mem.poisoned k⟩

/-- Granting a reservation of `k` words through a port, as one step at the ordering point (R428-R431): the slots
taken, with their words for a pop. -/
def State.grant (s : State) (t : Team) (p : Nat) (pop : Bool) (k : Nat) : Option (List (Nat × PWord) × State) :=
  match t.arch.ports.getD p none with
  | none => none
  | some h =>
    let e := handleEntry h
    let blank (start : Nat) (f : Nat → Nat) := (List.range k).map fun i => (f (start + i), PWord.zero)
    match handleKind h with
    | 0 =>
      let q := s.queue (handleTile h) e
      if pop then
        match q.ring.take k with
        | some (slots, r) =>
          some (slots.map fun c => (c, s.queueWord (handleTile h) q c), s.modQueue (handleTile h) e fun q => { q with ring := r })
        | none => none
      else match q.ring.reserve k with
        | some (v, r) => some (blank v (· % (2 * (q.ring.size + 1))), s.modQueue (handleTile h) e fun q => { q with ring := r })
        | none => none
    | 1 =>
      match (s.thread e).ring.reserve k with
      | some (v, r) => some (blank v (· % 8192), s.modThread e fun t => { t with ring := r })
      | none => none
    | _ =>
      let q := s.link t.id.ctx e
      if q.room < k then none
      else some (blank q.rsv (· % 2 ^ 32), s.modLink t.id.ctx e fun q => { q with rsv := (q.rsv + k) % 2 ^ 32 })

end Sys2Proof.Machine
end

