-- ==== Sys2Proof/Machine/Issue.lean ====
section
/-! DEFINITION. How a team issues an instruction: what it waits for, its operands, and what follows it
(signature, checkpoint, PC and groups) (R29, R46, R56, R84, R104, R178, R188, R190, R192). -/

namespace Sys2Proof.Machine

/-- What an instruction's meaning works on: the instruction and its word, the issuing team and group, the mode it
captured, the active lanes, the lanes it is performed for (one when it acts once for the team, R104), the words of each lane's result,
and its operands by lane. -/
structure Issue where
  i : Instr
  word : Word
  lit : Word
  t : Team
  g : Group
  mode : Mode
  sh : Shape
  act : List Nat
  lanes : List Nat
  uniform : Bool
  now : Nat
  rd : Reg
  ra : Reg
  rb : Reg
  portUnits : Nat
  dw : Nat → Nat
  d : Nat → PVal
  a : Nat → PVal
  b : Nat → PVal

/-- What an instruction's own effect leaves for the issue to complete: lanes that transfer and where, lanes that
end, cycles of the side, the signature state it sets (none: its word enters the state), whether a checkpoint is
taken, whether the PC stays (the instruction is performed again), whether it yields (R82), and how many of its cycles are bank
conflicts (R210). -/
structure End where
  targets : List (Nat × BitVec 48)
  ended : List Nat
  cycles : Nat
  sig : Option Word
  ckpt : Bool
  stay : Bool
  yields : Bool
  conflicts : Nat
deriving DecidableEq, Repr

/-- The outcome of an instruction's meaning before the issue completes it. -/
inductive Res where
  | done (s : State) (e : End)
  | trap (cause : Nat) (mask : LaneMask) (tval : List (Nat × Dword)) (next : Bool) (sysc : Option Reg)
  | rollback (cause : Nat) (mask : LaneMask) (tval : List (Nat × Dword)) (shadow : Bool)
  | stall (s : State) (cause : Nat)
  | wait (s : State)
deriving DecidableEq, Repr

/-! ### Which instructions read and write codes, address memory, reach other lanes -/

/-- Instructions that write the condition codes (R103). -/
def writesCodes : Instr → Bool
  | .add _ c _ _ _ _ | .addc _ c _ _ _ _ | .sub _ c _ _ _ _ | .subb _ c _ _ _ _ | .mul _ c _ _ _ _ | .mad _ c _ _ _ _
  | .neg _ c _ _ _ | .abs _ c _ _ _ | .div _ _ c _ _ _ _ | .rem _ _ c _ _ _ _ | .min _ _ c _ _ _ _ | .max _ _ c _ _ _ _
  | .mulw _ c _ _ _ _ | .madw _ c _ _ _ _
  | .fadd c _ _ _ _ | .fsub c _ _ _ _ | .fmul c _ _ _ _ | .fma c _ _ _ _ | .fnma c _ _ _ _ | .fdiv c _ _ _ _
  | .fsqrt c _ _ _ _ | .frcp c _ _ _ _ | .fmin c _ _ _ _ | .fmax c _ _ _ _ | .fminm c _ _ _ _ | .fmaxm c _ _ _ _
  | .fabs c _ _ _ | .fneg c _ _ _ | .fcpys c _ _ _ _ | .fclass c _ _ _ | .frint c _ _ _ | .fscale c _ _ _ _ | .fgetx c _ _ _ => c == 1
  | .cmpN .. | .cmpS .. | .tst .. | .setcc .. | .unite .. | .spawn .. => true
  | _ => false

/-- Instructions that read the codes as a value or as a selector (R104). -/
def readsCodes : Instr → Bool
  | .addc .. | .subb .. | .getcc .. | .sel .. => true
  | _ => false

/-- The memory instructions that wait for an acquire (R300, R306). -/
def isMemory : Instr → Bool
  | .ld .. | .ldv .. | .ldkB32 .. | .ldkB64 .. | .ldmx .. | .acq .. | .st .. | .stv .. | .stmx .. | .rel .. | .flush ..
  | .invl .. | .atom .. | .acas .. | .afadd .. | .afmm .. | .ared .. | .aprog .. | .apload .. | .cpl .. | .cpf .. | .cpt ..
  | .cpm .. | .binit .. | .arrive .. | .expect .. | .cadd .. | .cread .. | .fmtld .. | .pref .. | .wait .. => true
  | _ => false

/-- Instructions that read another lane's register (R119, R228, R229, R152). -/
def reachesLanes : Instr → Bool
  | .shfl .. | .bcast .. | .kmov .. | .scale .. | .ldmx .. | .stmx .. => true
  | _ => false

/-- Instructions that wait for every pending result first: REGION, MFS and MTS of XFLAGS or SEED, and those that
take an implicit checkpoint (R47, R176, R177). -/
def landsFirst (i : Instr) (sh : Shape) (ports : Bool) : Bool :=
  sh.implicit || ports ||
  match i with
  | .region => true
  | .mfs _ lit => lit == 0
  | .mts .. => true
  | _ => false

/-! ### What an instruction waits for -/

/-- Is an issue inside the lookahead window of a pending result (R46)? -/
def inWindow (t : Team) (p : Pend) : Bool := t.sched.issues ≤ p.issueNo + p.la

/-- Does a pending result's destination meet a register field, for the lanes given (R46)? -/
def meets (t : Team) (p : Pend) (words : Nat) (r : Reg) (lanes : List Nat) : Bool :=
  p.results.any fun x => match x.dest with
    | .slot l n => lanes.contains l && regKind r = .frame &&
        (let s := t.slotOf l r.toNat; decide (s < n + x.width) && decide (n < s + words))
    | .uni n => regKind r = .uni && decide (r.toNat - 64 < n + x.width) && decide (n < r.toNat - 64 + words)
    | _ => false

/-- Does an instruction use format register `n` (R144)? -/
def readsFormat (t : Team) (i : Instr) (now : Nat) (act : List Nat) (n : Nat) : Bool :=
  let sel := n == t.arch.mode.nf
  let typed := sel && t.arch.mode.typ == 6
  let named (b : Reg) (lit : Word) : Bool := act.any fun l =>
    let v := (readReg t now lit false [] 1 b l).v.toNat
    bits v 12 8 == 6 && bits v 7 4 == n
  match i with
  | .fmtrd .. | .scale .. | .ldmx .. | .stmx .. => sel
  | .ldv .. | .cvtf .. | .pack .. | .unpack .. => typed
  | .cvt _ _ b lit => typed || named b lit
  | .cvti _ _ b lit => named b lit
  | _ => false

/-- FMTLD writes the format register that the mode selects (R153). -/
def writesFormat (i : Instr) : Bool :=
  match i with
  | .fmtld .. => true
  | _ => false

/-- The pending result an instruction must wait for, if any (R46): one whose destination it reads outside the
window, or writes at all; a pending code is treated like a destination. -/
def dependence (t : Team) (i : Instr) (sh : Shape) (d a b : Reg) (now : Nat) (act : List Nat) : Bool :=
  let lanes := if reachesLanes i then List.range t.width else act
  let codesRead := (t.arch.mode.guard != 0 && !sh.noGuard) || readsCodes i || [d, a, b].contains 125
  t.pend.any fun p =>
    let out := !inWindow t p
    let rd (o : Role) (r : Reg) := o.reads && meets t p o.words r lanes
    let fmt (f : Nat → Bool) := p.results.any fun x => match x.dest with
      | .fmt n => f n
      | _ => false
    (out && (rd sh.d d || rd sh.a a || rd sh.b b || fmt (readsFormat t i now act) || (p.hasCc && codesRead))) ||
    (writesFormat i && fmt (· == t.arch.mode.nf)) || (sh.d.writes && meets t p sh.d.words d lanes) || (p.hasCc && writesCodes i)

/-- Coolbox units a tile has in use (R437), with the units taken for pushes that are held when results land (R432). -/
def State.unitsUsed (s : State) (tile : Nat) : Nat :=
  (s.coolbox.filter (·.tile == tile)).foldl (fun n e => n + e.units) 0 +
  (s.allTeams.filter (·.id.tile == tile)).foldl (fun n t => t.pend.foldl (fun n p =>
    let k := p.results.foldl (fun k r => match r.dest with | .port _ => k + r.width | _ => k) 0
    if k = 0 then n else n + 1 + ceilDiv (4 * k) 32) n) 0

/-- Units of a push or a pop's removal of `k` words (Table 21-5). -/
def queueUnits (k : Nat) : Nat := 1 + ceilDiv (4 * k) 32

/-- Placing an effect in the Coolbox (R23, R37). -/
def State.hold (s : State) (t : Team) (pc : BitVec 48) (word : Word) (mask : LaneMask) (units : Nat) (e : Effect) : State :=
  let (id, s) := fresh s
  { s with coolbox := s.coolbox ++ [Held.mk id t.id.tile t.id.side t.id.uid t.id.ctx s.now pc word mask s.now units e] }

/-- Holding an effect of an instruction that issues. -/
def Issue.hold (o : Issue) (s : State) (units : Nat) (e : Effect) : State := s.hold o.t o.g.pc o.word (maskOf o.act) units e

/-- Do the units an instruction needs, with those of its port moves, stand free (R437)? -/
def Issue.room (o : Issue) (s : State) (units : Nat) : Bool :=
  decide (s.unitsUsed o.t.id.tile + o.portUnits + units ≤ Config.coolboxUnits)

/-! ### Reservations of port operands (R428) -/

/-- The reservations an instruction makes, in the order a, b, then d: grant key, pop or push, and words. -/
def portMoves (sh : Shape) (d a b : Reg) (n : Nat) : List (Nat × Bool × Nat) :=
  let one (o : Role) (r : Reg) (f : Nat) : List (Nat × Bool × Nat) :=
    if regKind r = .port && o.words != 0 then
      (if o.reads then [((r.toNat - 96) * 4 + f, true, n * o.words)] else [])
    else []
  one sh.a a 0 ++ one sh.b b 1 ++ one sh.d d 2 ++
    (if regKind d = .port && sh.d.writes then [((d.toNat - 96) * 4 + 3, false, n * sh.d.words)] else [])

/-- The outcome of making an instruction's reservations: all granted, one waits, or a trap. -/
inductive Reserved where
  | granted (s : State)
  | waits (s : State) (cause : Nat)
  | bad (cause : Nat)

/-- Making reservations one at a time; those granted stand while a later one waits (R428). -/
def reserve (s : State) : List (Nat × Bool × Nat) → Reserved
  | [] => .granted s
  | (key, pop, k) :: rest =>
    if s.cur.grants.any (·.1 == key) then reserve s rest
    else match s.portCause s.cur (key / 4) pop k with
      | some c => .bad c
      | none => match s.grant s.cur (key / 4) pop k with
        | none => .waits { s with cur := { s.cur with wants := some (key, k) } } (if pop then 5 else 6)
        | some (slots, s) => reserve { s with cur := { s.cur with grants := s.cur.grants ++ [(key, slots)], wants := none } } rest

/-- The popped words of a field by lane: ascending lanes, low word first (R428). -/
def popped (t : Team) (r : Reg) (f : Nat) (words : Nat → Nat) (act : List Nat) : List (Nat × PWord) :=
  match t.grants.find? (·.1 == (r.toNat - 96) * 4 + f) with
  | some (_, slots) => (act.flatMap fun l => List.replicate (words l) l).zip (slots.map (·.2))
  | none => []

/-! ### Preparing an issue -/

/-- The lanes of a group for which an instruction is active (R28, R49): guard and, at a replay, the completion
mask that is kept for it (R182, R326). -/
def activeLanes (t : Team) (g : Group) (sh : Shape) : List Nat :=
  let m := match t.arch.only with
    | some (pc, m) => if pc = g.pc then g.mask &&& m else g.mask
    | none => g.mask
  (lanesOf t.width m).filter fun l => sh.noGuard || guardHolds t.arch.mode.guard (t.lane l).cc

/-- Lanes on which the guard is evaluated and whose codes are poisoned (R103). -/
def poisonedGuard (t : Team) (g : Group) (sh : Shape) : List Nat :=
  if sh.noGuard || t.arch.mode.guard = 0 then []
  else (lanesOf t.width g.mask).filter fun l => (t.lane l).cc.p

/-- The queue and launch instructions of class 0x9. -/
def queueOrLaunch : Instr → Bool
  | .qmap .. | .qunmap .. | .qstat .. | .qnotify .. | .spawn .. | .grow .. | .job .. | .launch .. => true
  | _ => false

/-- An instruction acts once for the team: where its entry says so, or when no destination and no source is per lane
(R104, R220, R277, R306, R404, and the copy and equivalence entries). SPAWN places a record for each active lane. -/
def actsOnce (i : Instr) (sh : Shape) (d : Reg) : Bool :=
  sh.once || (!queueOrLaunch i && !(sh.d.writes && (regKind d = .frame || regKind d = .port)) && !hasLaneSource i sh)

/-- The registers that the type in a lane's control word makes of the operand it names (R146). -/
def controlWords (t : Team) (now : Nat) (b : Reg) (lit : Word) (act : List Nat) (l : Nat) : Nat :=
  modeWords (bits (readReg t now lit false (popped t b 1 (fun _ => 1) act) 1 b l).v.toNat 12 8)

/-- The registers of the operand whose type CVT, CVTI, CVTF, PACK and UNPACK take from b (R146), over the lanes. -/
def runtimeWords (t : Team) (i : Instr) (now : Nat) (act : List Nat) : Nat :=
  match i with
  | .cvt _ _ b lit | .cvti _ _ b lit | .cvtf _ _ b lit | .pack _ _ b lit | .unpack _ _ b lit =>
    if act.any fun l => controlWords t now b lit act l = 2 then 2 else 1
  | _ => 1

/-- The registers that a lane reads of a: PACK's source has the type its own control word names (R150). -/
def aWords (t : Team) (i : Instr) (sh : Shape) (now : Nat) (act : List Nat) (l : Nat) : Nat := match i with
  | .pack _ _ b lit => controlWords t now b lit act l
  | _ => sh.a.words

/-- The registers that a lane's result takes: UNPACK's has the type its own control word names (R151). -/
def dWords (t : Team) (i : Instr) (sh : Shape) (now : Nat) (act : List Nat) (l : Nat) : Nat := match i with
  | .unpack _ _ b lit => controlWords t now b lit act l
  | _ => sh.d.words

/-- The reservations an instruction makes for its active lanes, with the words of each: none when no lane is active. -/
def issueMoves (t : Team) (i : Instr) (sh : Shape) (now : Nat) (d a b : Reg) (act : List Nat) : List (Nat × Bool × Nat) :=
  if act.isEmpty then []
  else (portMoves sh d a b act.length).map fun (key, pop, n) =>
    (key, pop, if key % 4 = 0 then (act.map (aWords t i sh now act)).sum else if key % 4 = 3 then (act.map (dWords t i sh now act)).sum else n)

/-- PACK and UNPACK with a port for b pop their control words before the words that these name are reserved (R146, R428; log entry 122). -/
def controlMoves (t : Team) (i : Instr) (sh : Shape) (d a b : Reg) (act : List Nat) : List (Nat × Bool × Nat) := match i with
  | .pack .. | .unpack .. =>
    if regKind b = .port && !act.isEmpty && !t.grants.any (·.1 == (b.toNat - 96) * 4 + 1) then
      (portMoves sh d a b act.length).filter fun m => m.1 == (b.toNat - 96) * 4 + 1
    else []
  | _ => []

/-- The Coolbox units of an issue's port moves. -/
def moveUnits (ms : List (Nat × Bool × Nat)) : Nat := ms.foldl (fun n m => n + queueUnits m.2.2) 0

/-- Why an instruction does not issue yet, if it does not: frames (R92), pending results (R46, R47), an acquire (R300), a drain
(R262), a request to the dispatcher, checkpoints (R186). The number is the stall cause. -/
def stallCause (t : Team) (i : Instr) (sh : Shape) (d a b : Reg) (now : Nat) (act : List Nat) : Option Nat :=
  let seen := if reachesLanes i then List.range t.width else act
  let ports := !(portMoves sh d a b act.length).isEmpty
  if seen.any fun l => !resident t l (slotsNamed t sh d a b l) then some 2
  else if landsFirst i sh ports && !t.pend.isEmpty then some 3
  else if dependence t i sh d a b now act then some 3
  else if isMemory i && t.pend.any (·.acq) then some 8
  else if t.pend.any fun p => (opcode p.word).toNat = 0x406 then some 17
  else if t.pend.any fun p => [0x505, 0x506, 0x507, 0x508].contains (opcode p.word).toNat then some 14
  else if (sh.implicit || ports || i = .region) && Config.youngCheckpoints ≤ (t.young now).length then some 10
  else none

/-- Does an instruction read a frame slot that is being rebuilt (R216)? -/
def State.slotsRebuilding (s : State) (t : Team) (sh : Shape) (d a b : Reg) (lanes : List Nat) : Bool :=
  lanes.any fun l => (slotsNamed t sh d a b l).any fun n => s.rebuilding t.id.tile 0 ((t.id.slot * 1024 + l) * 65536 + n) 1

/-- Everything an instruction meets before its own effect: the causes of decode (R56), a poisoned guard (R103),
waiting for frames (R92), pending results (R46, R47), acquires (R300), checkpoints (R186), reservations (R428)
and room in the Coolbox; then its operands. -/
def prepare (i : Instr) (s : State) : Except Res (Issue × State) :=
  let t := s.cur
  match t.current, encodeWord i with
  | some g, some word =>
    let mode := t.arch.mode
    match decodeCause i mode with
    | some c => .error (.trap c (maskOf (activeLanes t g (Shape.of .none .none .none))) [] false none)
    | none =>
      let sh0 := shape i mode 1
      let act := activeLanes t g sh0
      let sh := shape i mode (runtimeWords t i s.now act)
      let (d, a, b) := regFields i
      let bad := poisonedGuard t g sh
      if !bad.isEmpty then .error (.rollback 19 (maskOf bad) [] false)
      else if !(controlMoves t i sh d a b act).isEmpty then match stallCause t i sh d a b s.now act with
        | some c => .error (.stall s c)
        | none => match reserve s (controlMoves t i sh d a b act) with
          | .bad c => .error (.trap c (maskOf act) [] false none)
          | .waits s c => .error (.stall s c)
          | .granted s => .error (.wait s)
      else
        match (if s.slotsRebuilding t sh d a b (if reachesLanes i then List.range t.width else act) then some 12 else none).or (stallCause t i sh d a b s.now act) with
        | some c => .error (.stall s c)
        | none => match reserve s (issueMoves t i sh s.now d a b act) with
          | .bad c => .error (.trap c (maskOf act) [] false none)
          | .waits s c => .error (.stall s c)
          | .granted s =>
            let t := s.cur
            let units := moveUnits (issueMoves t i sh s.now d a b act)
            if Config.coolboxUnits < s.unitsUsed t.id.tile + units then .error (.stall s 9)
            else
              let lit := literal i
              let once := actsOnce i sh d
              let lanes := if once then act.take 1 else act
              let rd (w : Nat → Nat) (r : Reg) (f l : Nat) := readReg t s.now lit sh.litHigh (popped t r f w act) (w l) r l
              .ok (⟨i, word, lit, t, g, mode, sh, act, lanes, once, s.now, d, a, b, units, dWords t i sh s.now act,
                rd (fun _ => sh.d.words) d 2, rd (aWords t i sh s.now act) a 0, rd (fun _ => sh.b.words) b 1⟩, s)
  | _, _ => .error (.wait s)

/-! ### Signatures (R192, R193) -/

/-- CRC-32C of one more byte: reflected polynomial 0x82F6_3B78. -/
def crcByte (c : Word) (b : Byte) : Word :=
  (List.range 8).foldl (fun c _ => if c &&& 1 = 1 then (c >>> 1) ^^^ 0x82F63B78 else c >>> 1) (c ^^^ b.zeroExtend 32)

/-- A signature state absorbs a word, low byte first. -/
def crcWord (c w : Word) : Word := (toBytes 4 w.toNat).foldl crcByte c

/-! ### Group placement (R84, R88) -/

/-- The bytes of a group overflow entry (Table 4-3). -/
def groupEntry (w : Nat) (g : Group) : List Byte :=
  let n := ceilDiv w 32
  let body := toBytes 8 g.pc.toNat ++ toBytes 4 (g.waitTime % 2 ^ 32) ++ toBytes 4 (summary g.mask).toNat ++
    (List.range n).flatMap fun j => toBytes 4 (maskWord g.mask j).toNat
  body ++ List.replicate (overflowBytes w - body.length) 0

/-- The address of overflow entry `j` of a team (R90). -/
def Team.overflowAddr (t : Team) (j : Nat) : Nat :=
  t.id.spill + chunkRows t.width t.id.spillSize * t.width * 64 + j * overflowBytes t.width

/-- The lowest overflow entry not in use. -/
def Team.freeEntry (t : Team) : Nat :=
  ((List.range (t.arch.moved.length + 1)).find? fun j => !t.arch.moved.any (·.entry == j)).getD 0

/-- The group of the table that the rule would choose last moves to the overflow region (R88); the Rucksack then writes its entry (R94). -/
def Team.moveOut (t : Team) : Team :=
  match t.chooseLast t.arch.groups with
  | none => t
  | some g => t.setArch fun a => { a with groups := a.groups.filter (· != g), moved := a.moved ++ [⟨t.freeEntry, g, false, 0⟩] }

/-- Groups in the table beyond 32 move to the overflow region (R88). -/
def Team.overflow (t : Team) : Nat → Team
  | 0 => t
  | n + 1 => if t.arch.groups.length ≤ 32 then t else t.moveOut.overflow n

/-- The parts of the current group after an instruction: lanes by their new PC. -/
def partition (fall : BitVec 48) (targets : List (Nat × BitVec 48)) (lanes : List Nat) : List (BitVec 48 × LaneMask × Bool) :=
  lanes.foldl (fun ps l =>
    let (pc, moved) := match targets.find? (·.1 == l) with
      | some (_, p) => (p, true)
      | none => (fall, false)
    let bitOf := BitVec.twoPow 1024 l
    if ps.any (·.1 == pc) then ps.map fun (p, m, k) => if p = pc then (p, m ||| bitOf, k || moved) else (p, m, k)
    else ps ++ [(pc, bitOf, moved)]) []

/-- Placing the lanes of the current group after an instruction (R84): ended lanes leave, the others are
partitioned by PC; a part that transferred has its signature reset, one that fell through keeps it (R193). -/
def Team.place_ (t : Team) (g : Group) (sig : Word) (fall : BitVec 48) (e : End) (now : Nat) : Team :=
  let rest := t.without g.pc
  let lanes := (lanesOf t.width g.mask).filter fun l => !e.ended.contains l
  let parts := partition fall e.targets lanes
  parts.foldl (fun t (pc, m, moved) =>
    t.join ⟨pc, m, if e.yields then g.waitTime else now, if e.yields then g.waitIssue else t.sched.issues, if moved then sigReset else sig, g.sigOk || moved || e.sig.isSome⟩) rest

/-- The shadow unit places the lanes that it has at the issuing PC by its own account of their transfers (R194). -/
def Team.shadowPlace (t : Team) (pc fall : BitVec 48) (e : End) : List (BitVec 48 × LaneMask) :=
  let mine := ((t.shadow.find? (·.1 == pc)).map (·.2)).getD 0
  let parts := partition fall e.targets ((lanesOf t.width mine).filter fun l => !e.ended.contains l)
  parts.foldl (fun sh (p, m, _) => shadowJoin sh p m) (t.shadow.filter (·.1 != pc))

/-- The part of the current group that goes on when it splits: the one the selection rule prefers (log entry 10). -/
def mainPart (t : Team) (ps : List (BitVec 48 × LaneMask × Bool)) : BitVec 48 :=
  match t.choose (ps.map fun (pc, m, _) => ⟨pc, m, 0, 0, 0, true⟩) with
  | some g => g.pc
  | none => 0

/-! ### Completing an issue -/

/-- The cycles of a lane instruction (R29): one pass per mask word whose summary bit is set, each of `per` cycles; one
cycle when it acts once, no word is set or no lane is active (R86). -/
def passes (o : Issue) (per : Nat) : Nat :=
  if o.uniform || o.act.isEmpty then 1
  else
    let words := (List.range (ceilDiv o.t.width 32)).filter fun j => maskWord o.g.mask j != 0
    max 1 (words.length * per)

/-- An instruction that runs on at the next instruction, taking its passes. -/
def Issue.plain (o : Issue) (s : State) : Res := .done s ⟨[], [], passes o 1, none, o.sh.implicit, false, false, 0⟩

/-- The same with `per` cycles a pass. -/
def Issue.timed (o : Issue) (s : State) (per : Nat) : Res := .done s ⟨[], [], passes o per, none, o.sh.implicit, false, false, 0⟩

/-- An instruction of one cycle that makes no lane pass. -/
def Issue.single (o : Issue) (s : State) : Res := .done s ⟨[], [], 1, none, o.sh.implicit, false, false, 0⟩

/-- The part of a reservation that belongs to some of the lanes it was made for (R428: ascending lanes). -/
def grantPart (act : List Nat) (lanes : Nat → Bool) (slots : List (Nat × PWord)) : List (Nat × PWord) :=
  let k := slots.length / max 1 act.length
  if act.all lanes then slots
  else ((act.flatMap fun l => List.replicate k l).zip slots).filterMap fun (l, x) => if lanes l then some x else none

/-- The lanes of an instruction that have still to be performed, when it parks (R221). -/
def unfinished (t : Team) (e : End) : Nat → Bool :=
  match t.arch.only with
  | some (_, m) => fun l => e.stay && inMask m l
  | none => fun _ => false

/-- The removals of the words an instruction popped are held (R429); those of lanes that are parked stay granted. -/
def holdPops (o : Issue) (s : State) (e : End) : State :=
  let later := unfinished s.cur e
  o.t.grants.foldl (fun s (key, slots) =>
    let now := (grantPart o.act (fun l => !later l) slots).map (·.1)
    if key % 4 = 3 || now.isEmpty then s
    else match o.t.arch.ports.getD (key / 4) none with
      | some h => o.hold s (queueUnits now.length) (.pop h now)
      | none => s) s

/-- The number of the side a team runs on, and the record that it issued in this cycle (R29, R416, R462). -/
def sideOf (t : Team) : Nat := t.id.tile * 2 + t.id.side

/-- Does the group at a PC issue because it starved (R87)? Its quantum of 64 issues starts with this one. -/
def Team.startsQuantum (t : Team) (pc : BitVec 48) : Bool := !t.inSequence && (t.starved.map (·.pc)) == some pc

/-- REP and macro invocations, which stay at their PC while what they begin is issued (R61, R64). -/
def beginsSequence : Instr → Bool
  | .rep .. | .macroRun .. => true
  | _ => false

/-- The team's account of an issue: reservations used up but those of lanes still to be performed, the issue counted. -/
def Team.counted (t : Team) (o : Issue) (e : End) (fall : BitVec 48) (now : Nat) : Team :=
  { t with
    grants := if e.stay then o.t.grants.map fun (key, slots) => (key, grantPart o.act (unfinished t e) slots) else []
    wants := none
    arch := { t.arch with only := if e.stay then t.arch.only else none }
    sched := { t.sched with issues := t.sched.issues + 1, lastIssue := now, stallCause := 0, yielded := if e.yields then some fall else none,
                            passOver := e.yields && t.allGroups.length ≤ 1 } }

/-- The current group stays at its PC: its signature state and its wait start (R83, R192). -/
def Team.keepGroup (t : Team) (pc : BitVec 48) (sig : Word) (reset : Bool) (now : Nat) : Team := t.setArch fun a =>
  { a with groups := modifyWhere (fun h => h.pc == pc) (fun h => { h with sig := sig, sigOk := h.sigOk || reset, waitTime := now, waitIssue := t.sched.issues }) a.groups }

/-- A REP or a macro goes on to its next iteration or operation (R60, R64): the team, and whether its group stays at its PC. -/
def Team.sequence (t : Team) (e : End) (keep : Team → Team) : Team × Bool :=
  match t.arch.rep, t.arch.mac with
  | some (k, n, b), _ =>
    if e.stay then (keep t, true)
    else if k + 1 < n then (keep (t.setArch fun a => { a with rep := some (k + 1, n, b) }), true)
    else (t.setArch fun a => { a with rep := none }, false)
  | none, some j =>
    if e.stay then (keep t, true)
    else (keep (t.setArch fun a => { a with mac := some (j + 1) }), true)
  | none, none => if e.stay then (keep t, true) else (t, false)

/-- Where the current group falls through to: past the instruction, its REP or its macro. -/
def Team.fallPc (t : Team) (o : Issue) : BitVec 48 :=
  o.g.pc + BitVec.ofNat 48 (match t.arch.rep with | some (_, _, n) => n | none => if t.arch.mac.isSome then 4 else 4 * (1 + litCount o.word))

/-- The signature state after an issue (R192): the word enters once, when the instruction has been performed for every lane and not
when it parks or is suspended (log entry 116). -/
def Issue.newSig (o : Issue) (e : End) : Word :=
  if e.stay && !beginsSequence o.i then o.g.sig else e.sig.getD (crcWord o.g.sig o.word)

/-- The team after an instruction that has its effect: the issue counted, its groups placed, its quantum (R84, R87). -/
def Team.after (t : Team) (o : Issue) (e : End) (now : Nat) : Team :=
  let sig := o.newSig e
  let fall := t.fallPc o
  let (t, stays) := (t.counted o e fall now).sequence e fun t => t.keepGroup o.g.pc sig e.sig.isSome now
  let parts := partition fall e.targets ((lanesOf t.width o.g.mask).filter fun l => !e.ended.contains l)
  let main := mainPart t parts
  let joined := t.allGroups.any fun h => h.pc == main && h.pc != o.g.pc
  let q := if t.sched.quantum != 0 then t.sched.quantum - 1 else if o.t.startsQuantum o.g.pc then 63 else 0
  if stays then { t.setArch fun a => { a with pc := o.g.pc } with sched := { t.sched with quantum := q } }
  else { (t.place_ o.g sig fall e now).setArch fun a => { a with pc := main } with
    shadow := t.shadowPlace o.g.pc fall e
    sched := { t.sched with quantum := if joined || parts.isEmpty then 0 else q } }

/-- The implicit checkpoint after an instruction (R188): results that land later are also written into it. -/
def State.implicitCheckpoint (s : State) : State :=
  let (id, s) := fresh s
  let t := { s.cur with pend := s.cur.pend.map fun (p : Pend) => if p.issueNo + 1 = s.cur.sched.issues then { p with ckpt := some id } else p }
  { s with cur := t.checkpoint id s.now }

/-- The side that issued: until when it is occupied, until when it makes passes (8,192 on), and until when the instruction occupies
it (16,384 on). -/
def State.occupy (s : State) (e : End) : State :=
  let passing := e.cycles - e.conflicts
  { s with
    busy := fput 0 (fput 0 (fput 0 s.busy (sideOf s.cur) (s.now + max e.cycles (if s.hub.power.throttle then 8 else 0)))
      (8192 + sideOf s.cur) (s.now + passing)) (16384 + sideOf s.cur) (s.now + e.cycles)
    issued := sideOf s.cur :: s.issued }

/-- Completing an instruction that has its effect: removals of popped words, the team and its groups, the checkpoint
(R188: after the register writes), the record of progress (R416), the side. -/
def finish (o : Issue) (s : State) (e : End) : State :=
  let s := holdPops o s e
  let t := s.cur.after o e s.now
  let s := { s with cur := t.overflow t.arch.groups.length }
  let s := if e.ckpt || !o.t.grants.isEmpty then s.implicitCheckpoint else s
  (s.progress s.cur.id.ctx).occupy e

/-- The parked faults of a team's own side and fetch mean nothing any more (R327): their replies do nothing. -/
def State.voidFaults (s : State) (uid : Nat) : State :=
  let own (f : ParkedFault) : Bool := f.uid == uid && (f.stops || f.unit == 7)
  { s with
    faults := modifyWhere own (fun f => { f with uid := 0 }) s.faults
    net := s.net.filter fun x => !s.faults.any fun f => own f && f.item == x.id && f.item != 0 }

/-- A signature mismatch or a consumed poison: the team is rolled back once to its latest checkpoint, every held
effect it issued after that being discarded; a second time, it traps (R190). -/
def rollbackOrTrap (s : State) (uid : Nat) (groupPc : BitVec 48) (i : TrapInfo) : State :=
  match s.team? uid with
  | none => s
  | some t => match t.ckpts.head? with
    | some c =>
      if c.retried then s.takeTrap uid groupPc i
      else
        let s := (s.dropGrants t).dropPends t (t.undone c)
        let s := (s.voidFaults uid).discard fun e => e.uid == uid && decide (c.time < e.issue)
        s.modTeam uid fun t => t.restore c i.cause
    | none => s.takeTrap uid groupPc i

/-- What is known of a trap at an issue; one after which the team goes on past the instruction (TRAP, BRK, SYSC)
resumes there, which in a REP or a macro is its next iteration or operation (R182, log entry 14). -/
def trapInfo (o : TrapInfo) (s : State) (g : Group) (word : Word) (next : Bool) : TrapInfo :=
  { o with
    word := word, pc := g.pc, time := s.now
    resumePc := if !next then g.pc
      else match s.cur.arch.rep, s.cur.arch.mac with
        | some (k, n, b), _ => if k + 1 < n then g.pc else g.pc + BitVec.ofNat 48 b
        | none, some _ => g.pc
        | none, none => g.pc + BitVec.ofNat 48 (4 * (1 + litCount word)) }

/-- TRAP, BRK and SYSC are issued: they count, also for a YIELD and the group's wait start (R82, R83), their word enters the signature,
and a sequence moves on. -/
def Team.pastTrap (t : Team) (g : Group) (word : Word) (now : Nat) : Team :=
  { t with
    sched := { t.sched with issues := t.sched.issues + 1, yielded := none }
    arch := { t.arch with
      pc := g.pc
      only := none
      groups := modifyWhere (fun h => h.pc == g.pc) (fun h => { h with sig := crcWord h.sig word, waitTime := now, waitIssue := t.sched.issues + 1 }) t.arch.groups
      rep := match t.arch.rep with
        | some (k, n, b) => if k + 1 < n then some (k + 1, n, b) else none
        | none => none
      mac := t.arch.mac.map (· + 1) } }

/-- Concluding an instruction: it completes, traps, is rolled back, stalls or waits. -/
def conclude (i : Instr) (s : State) (o : Option Issue) (r : Res) : State :=
  let g := s.cur.current.getD ⟨0, 0, 0, 0, 0, false⟩
  let word := (encodeWord i).getD 0
  let used (s : State) : State := { s with
    busy := fput 0 s.busy (sideOf s.cur) (s.now + 1), issued := sideOf s.cur :: s.issued }
  match r with
  | .done s' e => match o with
    | some o => finish o s' e
    | none => s'
  | .trap c m tv next sysc =>
    let s' := s.takeTrap s.cur.id.uid g.pc (trapInfo ⟨c, m, tv, 0, false, 0, 0, 0, sysc, false⟩ s g word next)
    used (if next then { s' with cur := s'.cur.pastTrap g word s.now } else s')
  | .rollback c m tv sh => used (rollbackOrTrap s s.cur.id.uid g.pc (trapInfo ⟨c, m, tv, 0, sh, 0, 0, 0, none, false⟩ s g word false))
  | .stall s' c => { s' with cur := { s'.cur with sched := { s'.cur.sched with stallCause := c, stallTime := s'.now + 1 } } }
  | .wait s' => s'

/-- Issuing an instruction with its own effect `body` (R29, R56). -/
def issue (i : Instr) (body : Issue → State → Res) (s : State) : Host.Outcome State Fault Refusal :=
  match prepare i s with
  | .error r => .next (conclude i s none r)
  | .ok (o, s') => .next (conclude i s' (some o) (body o s'))

/-! ### Results -/

/-- The slots reserved for the words that some lanes push to d. -/
def Issue.pushSlots (o : Issue) (lanes : List Nat) : List Nat :=
  match o.t.grants.find? (·.1 == (o.rd.toNat - 96) * 4 + 3) with
  | some (_, slots) => (grantPart o.act lanes.contains slots).map (·.1)
  | none => []

/-- Writing the results of an instruction whose results land at issue: registers and codes; the words of a port
destination are pushed as one held effect (R428, R430). -/
def Issue.commit (o : Issue) (s : State) (rs : List LaneResult) : State :=
  let t := rs.foldl (fun t r =>
    let t := if r.words.isEmpty then t else t.write r.dest r.words
    t.setLane r.lane fun ln => { ln with cc := r.cc.getD ln.cc, xflags := ln.xflags ||| r.xf }) s.cur
  let s := { s with cur := t }
  let out := rs.flatMap fun r => match r.dest with
    | .port _ => r.words
    | _ => []
  if out.isEmpty then s
  else match o.pushSlots (rs.map (·.lane)), o.t.arch.ports.getD (o.rd.toNat - 96) none with
    | slots, some h => o.hold s (queueUnits out.length) (.push h (slots.zip out))
    | _, none => s

/-- A lane's result in the destination of the instruction. -/
def Issue.result (o : Issue) (l : Nat) (v : PVal) (cc : Option Codes) (xf : BitVec 5) : LaneResult :=
  ⟨l, destOf o.t o.rd l, o.dw l, 0, true, if o.sh.d.writes then v.words (o.dw l) else [], cc, xf⟩

/-- The results of an instruction computed lane by lane, or once for the team with the codes going to every
active lane (R104). -/
def Issue.results (o : Issue) (f : Nat → PVal × Option Codes × BitVec 5) : List LaneResult :=
  if o.uniform then
    match o.lanes with
    | [] => []
    | l :: _ =>
      let (v, cc, xf) := f l
      o.result l v cc xf :: (o.act.drop 1).map fun k => ⟨k, .none, 0, 0, true, [], cc, xf⟩
  else o.lanes.map fun l =>
    let (v, cc, xf) := f l
    o.result l v cc xf

/-- One value for the destination of an instruction that acts once: every active lane of a frame register (R104). -/
def Issue.toAll (o : Issue) (v : PVal) : List LaneResult :=
  match o.act with
  | [] => []
  | l :: _ => if regKind o.rd = .frame then o.act.map fun k => o.result k v none 0 else [o.result l v none 0]

/-- The same for a value that lands later. -/
def Issue.destsAll (o : Issue) (width : Nat) : List LaneResult :=
  (if regKind o.rd = .frame then o.act else o.act.take 1).map fun l => ⟨l, destOf o.t o.rd l, width, 0, false, [], none, 0⟩

/-- A Format L instruction's results pend (R46): they land no earlier than `due`. -/
def Issue.pend (o : Issue) (s : State) (rs : List LaneResult) (due : Nat) (atomic acq : Bool) (range : List (Nat × Nat)) :
    Nat × State :=
  let (id, s) := fresh s
  let p : Pend := ⟨id, o.g.pc, o.word, s.now, s.cur.sched.issues, o.sh.la.getD 0, o.rd, due, none, atomic, acq,
    rs.any (·.cc.isSome), false, o.uniform, maskOf o.act, false, 0, 0, [], range, none, if regKind o.rd = .port then o.pushSlots (rs.map (·.lane)) else [], [], rs⟩
  (id, { s with cur := { s.cur with pend := s.cur.pend ++ [p] } })

/-- Each lane's result lands at a time of its own, which the spec leaves open (R46). -/
def spread (s : State) : List LaneResult → List LaneResult × State
  | [] => ([], s)
  | r :: rs =>
    let (n, s) := draw s
    let (rest, s') := spread s rs
    ({ r with due := s.now + 1 + n } :: rest, s')

/-- A Format L instruction whose results are known at issue: they land at times the spec leaves open (R46). With no
lane active nothing pends. -/
def Issue.pendAfter (o : Issue) (s : State) (rs : List LaneResult) (per : Nat) : Res :=
  if rs.isEmpty then o.timed s per
  else
    let (rs, s) := spread s rs
    o.timed (o.pend s rs (s.now + 1) false false []).2 per

/-- The lanes whose value carries poison. -/
def poisonedLanes (ls : List Nat) (f : Nat → PVal) : List Nat := ls.filter fun l => (f l).p

end Sys2Proof.Machine
end

