-- ==== Sys2Proof/Machine/Faults.lean ====
section
/-! DEFINITION. Replayable translation faults (R324-R327) and fetching an instruction, in a REP or a macro too
(R40, R56, R61, R64, R65). -/

namespace Sys2Proof.Machine

/-- The bytes of a fault record with its sequence number 0 (Table 15-3). -/
def faultRecord (t : Team) (f : ParkedFault) : List Byte :=
  let lanes := lanesOf t.width f.mask
  toBytes 4 (24 + 3 <<< 8 + f.unit <<< 16 + b2n f.write <<< 24 + b2n f.readWrite <<< 25 + f.level <<< 26) ++
  toBytes 4 t.place ++ toBytes 8 f.pc.toNat ++ toBytes 8 f.time ++ toBytes 8 f.va ++
  toBytes 4 (lanes.length + lanes.headD 0 <<< 16) ++ toBytes 4 (summary f.mask).toNat ++ toBytes 4 (maskWord f.mask 0).toNat ++
  toBytes 4 0 ++ toBytes 4 0 ++ toBytes 4 0 ++ toBytes 8 0

/-- A unit parks on a translation fault: one record for the page of its lowest unfinished lane goes to the
context's fault buffer (R324, R325). -/
def State.parkFault (s : State) (t : Team) (unit item : Nat) (pc : BitVec 48) (word : Word) (issue : Nat) (mask : LaneMask)
    (va : Nat) (n : Need) (level : Nat) : State :=
  let (id, s) := fresh s
  let f : ParkedFault := ⟨0, t.id.ctx, unit, t.id.uid, t.slotKey, item, pc, word, issue, s.now, mask, va,
    n.write && !n.read, n.write && n.read, level, false, 0, id, [], unit == 0 && item == 0⟩
  { s with
    faults := s.faults ++ [f]
    postings := s.postings ++ [⟨id, .fault, some t.id.ctx, t.place, t.id.uid, faultRecord t f, 0, 0⟩] }

/-- The issuing team parks with the lanes that have still to be performed (R221, R324). -/
def State.parkTeam (s : State) (unit : Nat) (pc : BitVec 48) (word : Word) (mask : LaneMask) (va : Nat) (n : Need)
    (level : Nat) (eas : List (Nat × Dword)) : State :=
  let s := s.parkFault s.cur unit 0 pc word s.now mask va n level
  let s := { s with faults := modifyWhere (fun f => f.uid == s.cur.id.uid && f.item == 0 && f.unit == unit) (fun f => { f with eas := eas }) s.faults }
  { s with cur := { s.cur with status := .faultParked, arch := { s.cur.arch with only := some (pc, mask) }, sched := { s.cur.sched with stallCause := 11 } } }

/-- The group at a PC that cannot be fetched parks; the team's other groups go on (R324, R325). -/
def State.parkGroup (s : State) (g : Group) (va level : Nat) : State :=
  let s := s.parkFault s.cur 7 0 g.pc 0 s.now g.mask va Need.x level
  { s with cur := { s.cur with sched := { s.cur.sched with parked := g.pc :: s.cur.sched.parked } } }

/-- Posting an error record (R197, R198): to its context's trap buffer, or to the device error ring. -/
def State.errorRecord (s : State) (ctx : Option Nat) (cause unit side : Nat) (pc : BitVec 48) (addr lane : Nat) : State :=
  let (id, s) := fresh s
  let bytes := toBytes 4 (cause + 2 <<< 8 + unit <<< 16) ++ toBytes 4 (side + (ctx.getD 0x1FFFF) <<< 15) ++ toBytes 8 pc.toNat ++
    toBytes 8 s.now ++ toBytes 8 addr ++ toBytes 4 lane ++ List.replicate 28 0
  { s with postings := s.postings ++ [⟨id, .error, ctx, side, 0, bytes, 0, 0⟩] }

/-! ### Fetching -/

/-- What fetching gives: an instruction, a word that does not decode or cannot be fetched and its cause, or a
fault of the fetch at an address. -/
inductive Fetched where
  | instr (i : Instr)
  | bad (cause : Nat) (word : Word)
  | fault (level va : Nat)
deriving DecidableEq, Repr

/-- What fetching one word gives. -/
inductive FetchedWord where
  | word (w : Word)
  | bad (cause : Nat)
  | fault (level va : Nat)
deriving DecidableEq, Repr

/-- The instruction or literal word at a PC (R40, R320): the fetch needs the execute right; the scratchpad and
the regions above it hold no page and give NO_EXECUTE (log entry 11); a poisoned word is consumed (log entry 120). -/
def State.codeWord (s : State) (t : Team) (pc : BitVec 48) : FetchedWord :=
  if !isTranslated pc.toNat then .bad 12
  else match s.translate t.id.tile t.id.ctx pc.toNat Need.x with
    | .fault l => .fault l pc.toNat
    | .bad c => .bad c
    | .ok pa _ _ => if s.mem.poisoned pa then .bad 19 else .word (BitVec.ofNat 32 (s.mem.nat pa 4))

/-- The cause of a decode error (R56, Table 8-6). -/
def causeOf : DecodeError → Nat
  | .zeroWord => 0
  | .illegalOpcode => 1
  | .illegalEncoding => 3

/-- Decoding the word fetched, with the literal words that follow it at `pc + 4` (R45); a word that is no instruction whatever follows
it traps without its literals being fetched (R56). -/
def State.withLiterals (s : State) (t : Team) (pc : BitVec 48) (w : Word) : Fetched :=
  let lits (n : Nat) : List FetchedWord := (List.range n).map fun j => s.codeWord t (pc + BitVec.ofNat 48 (4 * (j + 1)))
  let ls := lits (litCount w)
  match decode w 0 0 with
  | .error e => .bad (causeOf e) w
  | .ok _ =>
  match firstSome (fun x => match x with
      | .fault l va => some (Fetched.fault l va)
      | .bad c => some (Fetched.bad c w)
      | .word _ => none) ls with
  | some f => f
  | none =>
    let val (j : Nat) : Word := match ls[j]? with
      | some (.word x) => x
      | _ => 0
    match decode w (val 0) (val 1) with
    | .ok i => .instr i
    | .error e => .bad (causeOf e) w

/-- A step code's stride (R60). -/
def stride (c : BitVec 3) : Nat := if c = 0 then 0 else 2 ^ (c.toNat - 1)

/-- The class of a register that stepping keeps (R61): frame, uniform, port, or none. -/
def stepClass (r : Nat) : Nat := if r < 64 then 0 else if r < 96 then 1 else if r < 112 then 2 else 3

/-- A word with its fields stepped for iteration `k`, and whether every stepped field keeps its class (R61). -/
def stepWord (rep w : Word) (k : Nat) : Word × Bool :=
  let at_ (lo c : Nat) : Nat := (ext w lo 7).toNat + k * stride (ext rep c 3)
  let keeps (lo c : Nat) : Bool := stride (ext rep c 3) == 0 || stepClass (at_ lo c) == stepClass (ext w lo 7).toNat
  (ext w 21 11 ++ BitVec.ofNat 7 (at_ 14 12) ++ BitVec.ofNat 7 (at_ 7 9) ++ BitVec.ofNat 7 (at_ 0 6), keeps 14 12 && keeps 7 9 && keeps 0 6)

/-- The control-store word of operation `j` of macro `i` on a tile (R66). -/
def State.macroWord (s : State) (tile i j : Nat) : Word := fget 0 s.tables.store (tile * 4096 + 32 * i + j)

/-- The fields of a word that hold registers, which macro substitution replaces (R64): all three of Format T,
the first two of Format L. -/
def substWord (inv w : Word) : Word :=
  let op := (opcode w).toNat
  let s (r : Reg) : Reg := if r = 120 then ext inv 14 7 else if r = 121 then ext inv 7 7 else if r = 122 then ext inv 0 7 else r
  if op = 2 || op = 0x299 then w
  else ext w 21 11 ++ s (ext w 14 7) ++ s (ext w 7 7) ++ (if isFormatL op then ext w 0 7 else s (ext w 0 7))

/-- Is a word forbidden as a macro operation (R65)? -/
def macroForbids (w : Word) : Bool :=
  let op := (opcode w).toNat
  op = 3 || (4 ≤ op && op ≤ 10) || 0x780 ≤ op || op = 0x593 ||
  (op != 2 && op != 0x299 && (ext w 14 7 = 127 || ext w 7 7 = 127 || (!isFormatL op && ext w 0 7 = 127))) ||
  (isFormatL op && addressesMemory op && ext w 2 1 = 1)

/-- The instruction a team's current group issues next (R40, R61, R64); a macro resumed at operation 0 may have become empty. -/
def State.fetch (s : State) (t : Team) (g : Group) : Fetched :=
  match s.codeWord t g.pc with
  | .fault l va => .fault l va
  | .bad c => .bad c 0
  | .word w =>
    match t.arch.rep, t.arch.mac with
    | some (k, _, _), _ =>
      match s.codeWord t (g.pc + 4) with
      | .fault l va => .fault l va
      | .bad c => .bad c 0
      | .word x =>
        let (y, keeps) := stepWord w x k
        if keeps then s.withLiterals t (g.pc + 4) y else .bad 4 y
    | none, some j =>
      let x := s.macroWord t.id.tile (ext w 21 7).toNat j
      if fget false s.tables.storePoison (t.id.tile * 4096 + 32 * (ext w 21 7).toNat + j) then .bad 19 w
      else if j = 0 && x = 0 then .bad 6 w
      else match decode (substWord w x) 0 0 with
      | .error .zeroWord => .bad 0 (substWord w x)
      | .error .illegalOpcode => .bad 1 (substWord w x)
      | r =>
        if macroForbids x then .bad 2 (substWord w x)
        else match r with
          | .ok i => .instr i
          | .error _ => .bad 3 (substWord w x)
    | none, none => s.withLiterals t g.pc w

/-- A macro whose next operation is empty, or that has made 32, ends: its group goes on after the invocation, a quantum ending if it
joins another group there (R64, R84, R87). -/
def State.endMacro (s : State) : State :=
  match s.cur.arch.mac, s.cur.current with
  | some j, some g =>
    match s.codeWord s.cur g.pc with
    | .word w =>
      if 32 ≤ j || (j != 0 && s.macroWord s.cur.id.tile (ext w 21 7).toNat j = 0) then
        let joined := s.cur.allGroups.any (·.pc == g.pc + 4)
        let t := (s.cur.setArch fun a => { a with mac := none, pc := g.pc + 4 }).moveGroup g.pc (g.pc + 4)
        { s with cur := { t with sched := { t.sched with quantum := if joined then 0 else t.sched.quantum } } }
      else s
    | _ => s
  | _, _ => s

/-- A word that cannot be issued: the group traps, or parks on the fetch (R56, R324). A trap in a REP or
macro names the word as stepped or substituted. -/
def State.fetchStops (s : State) (f : Fetched) : State :=
  match s.cur.current with
  | none => s
  | some g =>
    let used (s : State) : State := { s with
      busy := fput 0 s.busy (sideOf s.cur) (s.now + 1), issued := sideOf s.cur :: s.issued }
    match f with
    | .instr _ => s
    | .bad c w =>
      let mask := maskOf (activeLanes s.cur g (Shape.of .none .none .none))
      let i : TrapInfo := ⟨c, mask, [], w, false, g.pc, s.now, g.pc, none, false⟩
      used (if c = 19 then rollbackOrTrap s s.cur.id.uid g.pc i else s.takeTrap s.cur.id.uid g.pc i)
    | .fault l va => s.parkGroup g va l

end Sys2Proof.Machine
end

