-- ==== Sys2Proof/Machine/Memory.lean ====
section
/-! DEFINITION. What memory instructions share: effective addresses, the checks of R221, reading through held writes
and the L1 (R211-R215), bank cost (R210), results that arrive, and releasing stores. -/

namespace Sys2Proof.Machine

/-! ### Addresses and checks -/

/-- A Format L effective address: the base plus the literal when sub bit 2 is set (R220). -/
def Issue.addrL (o : Issue) (sub : BitVec 1) (l : Nat) : PVal :=
  ⟨(o.a l).v + (if sub = 1 then o.lit.signExtend 64 else 0), (o.a l).p⟩

/-- A Format T effective address: the base plus the 32-bit offset in b (R220). -/
def Issue.addrT (o : Issue) (l : Nat) : PVal :=
  ⟨(o.a l).v + ((o.b l).v.extractLsb' 0 32).signExtend 64, (o.a l).p || (o.b l).p⟩

/-- An address an instruction may form (R202). -/
def addressLegal (ea : Nat) : Bool := ea < 2 ^ 48 && (isTranslated ea || isScratch ea)

/-- A lane's access that passed its checks: where its first byte is kept, and whether its page is effectful. -/
structure Access1 where
  lane : Nat
  ea : Nat
  key : Nat
  ef : Bool
deriving DecidableEq, Repr

/-- The outcome of the checks of R221: a trap or rollback, or the accesses to make and the lanes that fault. -/
inductive Checked where
  | bad (r : Res)
  | ok (xs : List Access1) (faults : List (Nat × Nat × Nat))
deriving DecidableEq, Repr

/-- The mask of an access trap: every active lane when the instruction acts once (R178, R224). -/
def Issue.maskFor (o : Issue) (ls : List Nat) : LaneMask := maskOf (if o.uniform then o.act else ls)

/-- A trap of address checks: TVAL of each lane is its ea (R221). -/
def Issue.addressTrap (o : Issue) (cause : Nat) (bad : List (Nat × PVal)) : Res :=
  let ea (l : Nat) : Dword := if o.uniform then (bad.headD (0, ⟨0, false⟩)).2.v else ((bad.find? (·.1 == l)).map (·.2.v)).getD 0
  let ls := if o.uniform then o.act else bad.map (·.1)
  .trap cause (maskOf ls) (ls.map fun l => (l, ea l)) false none

/-- The poison of step 1 of R221: the same mask and values. -/
def Issue.addressPoison (o : Issue) (bad : List (Nat × PVal)) : Res :=
  match o.addressTrap 19 bad with
  | .trap c m tv _ _ => .rollback c m tv false
  | r => r

/-- The checks of R221 for one access of `n` bytes by each lane of a list. `odds` are the alignment tests, each with
its cause; `scratch` is the cause that a scratchpad address has for the instruction, if any; `last` is a check made
after the translation checks, on the key (R279). -/
def Issue.checkWith (o : Issue) (s : State) (eas : List (Nat × PVal)) (n : Nat) (odds : List (Nat × (Nat → Bool))) (need : Need)
    (scratch : Option Nat) (last : Nat → Option Nat) : Checked :=
  let t := s.cur
  let poison := eas.filter fun x => x.2.p
  let range := eas.filter fun x => !addressLegal x.2.v.toNat
  let odd := odds.find? fun (_, f) => eas.any fun x => f x.2.v.toNat
  let inSp := eas.filter fun x => isScratch x.2.v.toNat
  let window := inSp.filter fun x => !s.windowOk t x.2.v.toNat n
  if !poison.isEmpty then .bad (o.addressPoison poison)
  else if !range.isEmpty then .bad (o.addressTrap 27 range)
  else match odd with
  | some (c, f) => .bad (o.addressTrap c (eas.filter fun x => f x.2.v.toNat))
  | none =>
    if scratch.isSome && !inSp.isEmpty then .bad (o.addressTrap (scratch.getD 0) inSp)
    else if !window.isEmpty then .bad (o.addressTrap 29 window)
    else
      let tr := eas.map fun x =>
        (x, if isScratch x.2.v.toNat then Access.ok x.2.v.toNat false false else s.translate t.id.tile t.id.ctx x.2.v.toNat need)
      let causeIs (c : Nat) := tr.filterMap fun (x, r) => if r = .bad c then some x else none
      match ([24, 25, 26, 31, 32, 30] : List Nat).find? fun c => !(causeIs c).isEmpty with
      | some c => .bad (o.addressTrap c (causeIs c))
      | none =>
        let xs := tr.filterMap fun (x, r) => match r with
          | .ok pa ef _ => some (⟨x.1, x.2.v.toNat, pa, ef⟩ : Access1)
          | _ => none
        match firstSome (fun x => last x.key) xs with
        | some c => .bad (o.addressTrap c ((xs.filter fun x => last x.key == some c).map fun x => (x.lane, ⟨BitVec.ofNat 64 x.ea, false⟩)))
        | none => .ok xs (tr.filterMap fun (x, r) => match r with
            | .fault l => some (x.1, l, x.2.v.toNat)
            | _ => none)

/-- The checks with one alignment, 1 for none. -/
def Issue.check (o : Issue) (s : State) (eas : List (Nat × PVal)) (n align alignCause : Nat) (need : Need) (scratch : Option Nat)
    (last : Nat → Option Nat) : Checked :=
  o.checkWith s eas n [(alignCause, fun ea => ea % align != 0)] need scratch last

/-! ### Atomics that an access must wait for (R280) -/

/-- The bytes of a team's held and pending atomics: address and length. -/
def State.atomicBytes (s : State) (uid : Nat) : List (Nat × Nat) :=
  let width : AtomOp → Nat
    | .alu _ w | .cas w | .fadd w _ | .fmm w _ _ => w
  (s.coolbox.filter (·.uid == uid)).flatMap (fun e => match e.eff with
    | .atomic _ op xs => xs.map fun x => (x.ea, width op)
    | .aprog _ xs => xs.map fun x => (x.ea / 64 * 64, 64)
    | _ => []) ++
  (s.net.filter (·.uid == uid)).flatMap (fun x => match x.act with
    | .atomic _ op r => [(r.ea, width op)]
    | .aprog _ r => [(r.ea / 64 * 64, 64)]
    | .ack _ _ _ _ ea n => [(ea, n)]
    | _ => []) ++
  (s.homeHolds.filter (·.reply.uid == uid)).flatMap (fun h => match h.reply.act with
    | .ack _ _ _ _ ea n => [(ea, n)]
    | _ => []) ++
  match s.team? uid with
  | some t => t.pend.flatMap fun p => if p.atomic then p.range else []
  | none => []

/-- Do two ranges of bytes meet? -/
def rangesMeet (a n b m : Nat) : Bool := a < b + m && b < a + n

/-- Does any of `n` bytes at an address belong to a held or pending atomic of the team? -/
def State.meetsAtomic (s : State) (uid ea n : Nat) : Bool := (s.atomicBytes uid).any fun (a, m) => rangesMeet ea n a m

/-- Has a BIND or UNBIND of the team still to be acknowledged (R333)? -/
def State.bindsOut (s : State) (uid : Nat) : Bool :=
  let isBind (w : Word) : Bool := (opcode w).toNat = 0x590 || (opcode w).toNat = 0x591
  (s.coolbox.any fun e => e.uid == uid && isBind e.word) || s.net.any fun x => x.uid == uid && isBind x.word

/-! ### Reading -/

/-- A byte of the youngest write that the team still holds (R213); within one store the higher lane stands (R214). -/
def State.heldByte (s : State) (uid ea : Nat) : Option (Byte × Bool) :=
  firstSome (fun (e : Held) =>
    if e.uid = uid then
      match e.eff with
      | .write ps _ => firstSome (fun (p : Piece) =>
          if p.ea ≤ ea && ea < p.ea + p.data.length then p.data[ea - p.ea]? else none) ps.reverse
      | .rel ps _ => firstSome (fun (p : Piece) =>
          if p.ea ≤ ea && ea < p.ea + p.data.length then p.data[ea - p.ea]? else none) ps.reverse
      | .spill _ p => if p.ea ≤ ea && ea < p.ea + p.data.length then p.data[ea - p.ea]? else none
      | _ => none
    else none) s.coolbox.reverse

/-- Has a line of a window been read over its link for an owner? Its failure's cause, 0 for none. -/
def State.fetchedLine (s : State) (owner key : Nat) : Option Nat := (s.fetched.find? fun (o, k, _) => o == owner && k == key / 64 * 64).map (·.2.2)

/-- Asking for a line of a window over its link, once. -/
def State.fetchLine (s : State) (owner tile side uid ctx issue : Nat) (pc : BitVec 48) (word : Word) (va pa : Nat) : State :=
  if s.net.any fun x => x.pa == pa / 64 * 64 && (match x.act with | .fetch o _ => o == owner | _ => false) then s
  else (s.send tile side uid ctx issue pc word (va - pa % 64) (pa / 64 * 64) [] (.fetch owner 64)).2

/-- Is a write of a tile's context to a range still on its way (R234, R240)? -/
def State.writeOut (s : State) (tile ctx ea n : Nat) : Bool :=
  s.net.any fun x => x.tile == tile && x.ctx == ctx && match x.act with
    | .write ps => ps.any fun p => rangesMeet p.ea p.data.length ea n
    | _ => false

/-- What the tile itself supplies of `n` bytes: held writes, then for non-effectful translated memory its L1 (R213). -/
def State.ownBytes (s : State) (t : Team) (ea n : Nat) (cached : Bool) : List (Option (Byte × Bool)) :=
  (List.range n).map fun i =>
    match s.heldByte t.id.uid (ea + i) with
    | some b => some b
    | none => if cached then s.mem.l1Byte t.id.tile t.id.ctx (ea + i) else none

/-- Bytes as the 32-bit words of registers, each with the poison of its bytes (R218); a value narrower than 32 bits
is extended. -/
def loadedWords (signed : Bool) (bs : List (Byte × Bool)) : List PWord :=
  if bs.length < 4 then
    let v := ofBytes (bs.map (·.1))
    let n := 8 * bs.length
    let w : Word := if signed && bit v (n - 1) then BitVec.ofNat 32 (v + 2 ^ 32 - 2 ^ n) else BitVec.ofNat 32 v
    [⟨w, bs.any (·.2)⟩]
  else
    (List.range (bs.length / 4)).map fun j =>
      let part := (bs.drop (4 * j)).take 4
      ⟨BitVec.ofNat 32 (ofBytes (part.map (·.1))), part.any (·.2)⟩

/-- A result of a pending instruction arrives for a lane, or for all its lanes (LDK). -/
def Pend.arrive (p : Pend) (lane : Nat) (ws : List PWord) (xf : BitVec 5) : Pend :=
  { p with results := p.results.map fun r =>
      if p.bcast || r.lane = lane then { r with ready := true, words := ws.take r.width, xf := xf } else r }

/-- A pending instruction fails on a lane: its result does not land there (R292). One that is performed once fails for every lane
that was active at its issue (R178). -/
def Pend.fail (p : Pend) (lane cause ea : Nat) : Pend :=
  let mask := if p.once || p.bcast then p.mask else BitVec.twoPow 1024 lane
  { p with
    tval := p.tval ++ (lanesOf 1024 mask).map fun l => (l, BitVec.ofNat 64 ea)
    failed := p.failed ||| mask
    cause := if p.failed = 0 then cause else p.cause }

/-- Changing a pending result of a team: the youngest with its number. -/
def State.modPend (s : State) (uid pid : Nat) (f : Pend → Pend) : State :=
  s.modTeam uid fun t => { t with pend := modifyLast (fun p => p.id == pid) f t.pend }

/-- A releases's write that waits for its write-backs (R299). -/
def Act.releases : Act → Bool
  | .write _ | .relWrite _ | .arrive .. | .count .. => true
  | _ => false

/-- The releases of a tile that have still to be performed at an object which a read of `n` bytes meets: for cached memory those of the
line, whose later loads see the released value (R299), for the scratchpad the team's own (R304). -/
def State.releasing (s : State) (t : Team) (va n : Nat) : List Nat :=
  (s.net.filter fun x => x.point == 9999 && x.act.releases && x.tile == t.id.tile && x.ctx == t.id.ctx &&
    if isScratch va then x.uid == t.id.uid && rangesMeet va n x.va 16 else x.va / 64 == va / 64).map (·.id)

/-- A team's read goes to its ordering point, behind the releases of the tile that it has to see. -/
def Issue.sendRead (o : Issue) (s : State) (va key n : Nat) (act : Act) : State :=
  let t := o.t
  match s.releasing t va n with
  | [] => (s.send t.id.tile t.id.side t.id.uid t.id.ctx s.now o.g.pc o.word va key [] act).2
  | ids => (s.sendAfter t.id.tile t.id.side t.id.uid t.id.ctx s.now o.g.pc o.word va ids act).2

/-- What a load reads at once: the line of a cached address, else the address itself. -/
def loadUnit (x : Access1) : Bool × Nat := if isScratch x.ea then (true, x.ea) else (false, x.ea / 64)

/-- The accesses of a list by what they read at once, in ascending lane order. -/
def byLine (xs : List Access1) : List (List Access1) :=
  ((xs.map loadUnit).eraseDups).map fun j => xs.filter fun x => loadUnit x == j

/-- What one lane's load takes from the tile itself: held writes and the L1, and its own slice where nothing of the team is still on its
way there (R213). -/
def Issue.ownLane (o : Issue) (s : State) (n : Nat) (x : Access1) : List (Option (Byte × Bool)) :=
  let sp := isScratch x.ea
  let local_ := sp && ownerTile x.ea == o.t.id.tile && (s.releasing o.t x.ea n).isEmpty
  (s.ownBytes o.t x.ea n (!sp)).zipIdx.map fun (b, i) => match b with
    | some v => some v
    | none => if local_ then some (s.mem.get (x.key + i), s.mem.poisoned (x.key + i)) else none

/-- The loads of the lanes that read one line, whose results pend as `pid`: at once from held writes, the L1 or the tile's own slice,
else by one request to the ordering point, so that every lane reads one value of a shared byte (R214), with a fill of the line when
cached (R213). -/
def Issue.loadLine (o : Issue) (s : State) (pid n : Nat) (signed : Bool) (xs : List Access1) : State :=
  let own (x : Access1) := o.ownLane s n x
  let here := xs.filter fun x => (own x).all (·.isSome)
  let away := xs.filter fun x => !(own x).all (·.isSome)
  let s' := here.foldl (fun s' x => s'.modPend o.t.id.uid pid fun p => p.arrive x.lane (loadedWords signed ((own x).filterMap id)) 0) s
  match away with
  | [] => s'
  | x :: _ => o.sendRead s' x.ea x.key n
      (.load pid (away.map fun y => (y.lane, y.ea, own y)) n signed (if isScratch x.ea then none else some true))

/-- Where each lane's result goes; LDK and loads performed once give one value (R224). -/
def Issue.dests (o : Issue) (lanes : List Nat) (width : Nat) : List LaneResult :=
  lanes.map fun l => ⟨l, destOf o.t o.rd l, width, 0, false, [], none, 0⟩

/-! ### Bank cost -/

/-- The most distinct words that the lanes of a part want of one bank (R210). -/
def bankLoad (words : List Nat) : Nat :=
  let ws := words.eraseDups
  (List.range 32).foldl (fun m b => max m (ws.filter fun w => w % 32 == b).length) 0

/-- The loads on the banks of the parts of each pass that scratchpad accesses of `n` bytes in the tile's own slice make: parts of 32, 16
or 8 columns; a part without such an access makes none. -/
def Issue.bankParts (o : Issue) (xs : List Access1) (n : Nat) : List (List Nat) :=
  let cols := if n ≤ 4 then 32 else if n ≤ 8 then 16 else 8
  ((List.range (ceilDiv o.t.width 32)).filter fun j => maskWord o.g.mask j != 0).map fun j =>
    ((List.range (32 / cols)).map fun k =>
      let part := xs.filter fun x => x.lane / 32 == j && x.lane % 32 / cols == k && isScratch x.ea && ownerTile x.ea == o.t.id.tile
      bankLoad (part.flatMap fun x => (List.range (ceilDiv n 4)).map fun w => x.ea / 4 + w)).filter (· != 0)

/-- The side's cycles for an access: its parts with their conflicts, and a pass of one cycle for each mask word without a part. -/
def Issue.bankCycles (o : Issue) (xs : List Access1) (n : Nat) : Nat :=
  if o.uniform || o.act.isEmpty then 1
  else max 1 ((o.bankParts xs n).foldl (fun sum ps => sum + max 1 (ps.foldl (· + ·) 0)) 0)

/-- The cycles of an access that are bank conflicts (R210): those beyond one for each part. -/
def Issue.conflicts (o : Issue) (xs : List Access1) (n : Nat) : Nat :=
  if o.uniform then 0 else (o.bankParts xs n).foldl (fun sum ps => sum + (ps.foldl (· + ·) 0 - ps.length)) 0

/-! ### Completing an access -/

/-- The instruction's end with the lanes that met a translation fault: it stays, parked for them (R221). An access to
an effectful page takes a checkpoint (R215). -/
def Issue.access (o : Issue) (s : State) (xs : List Access1) (faults : List (Nat × Nat × Nat)) (need : Need) (cycles conflicts : Nat) (ckpt : Bool) : Res :=
  let ck := o.sh.implicit || ckpt || xs.any (·.ef)
  match faults with
  | [] => .done s ⟨[], [], cycles, none, ck, false, false, conflicts⟩
  | (_, level, va) :: _ =>
    let mask := o.maskFor (faults.map (·.1))
    let ea (l : Nat) : Dword := BitVec.ofNat 64 (if o.uniform then va else ((faults.find? (·.1 == l)).map (·.2.2)).getD va)
    let s := s.parkTeam 0 o.g.pc o.word mask va need level ((lanesOf o.t.width mask).map fun l => (l, ea l))
    .done s ⟨[], [], cycles, none, ck && !xs.isEmpty, true, false, conflicts⟩

/-- Does a range of bytes meet one that the team's copies may read or write (R243)? -/
def Team.meetsScore (t : Team) (ea n : Nat) : Bool :=
  t.score.any fun e => (e.src ++ e.dst).any fun (a, m) => rangesMeet ea n a m

/-- Does a read of bytes that the tile itself holds wait for an array (R216)? -/
def State.rangeRebuilding (s : State) (tile ctx va n : Nat) : Bool :=
  (List.range n).any fun i => s.byteRebuilding tile ctx (va + i) (isScratch (va + i) && ownerTile (va + i) == tile) (s.mem.l1Byte tile ctx (va + i)).isSome

/-- Waits that an access meets once it passed its checks: an array's rebuild (R216), atomics it overlaps (R280), copies it overlaps (R243), an
effectful page's checkpoint (R47, R186, R215), and room in the Coolbox. -/
def Issue.accessWaits (o : Issue) (s : State) (xs : List Access1) (n units : Nat) : Option Nat :=
  if xs.any fun x => s.rangeRebuilding o.t.id.tile o.t.id.ctx x.ea n then some 12
  else if xs.any fun x => s.meetsAtomic o.t.id.uid x.ea n then some 13
  else if xs.any fun x => s.cur.meetsScore x.ea n then some 7
  else if xs.any (·.ef) && !s.cur.pend.isEmpty then some 3
  else if xs.any (·.ef) && Config.youngCheckpoints ≤ (s.cur.young s.now).length then some 10
  else if 0 < units && !o.room s units then some 9
  else none

/-- Coolbox units of a per-lane or uniform effect of `n` data bytes a lane (Table 21-5). -/
def Issue.unitsFor (o : Issue) (lanes n : Nat) : Nat :=
  if lanes = 0 then 0 else if o.uniform then 1 + ceilDiv n 32 else 1 + ceilDiv (lanes * (8 + n)) 32

/-- Loads of `n` bytes a lane (R222, R223, R224, R215); `mark` adds to the pending result what the entry needs. -/
def Issue.load (o : Issue) (s : State) (eas : List (Nat × PVal)) (n : Nat) (signed : Bool) (noEf : Bool)
    (mark : Pend → Pend) (results : List Nat → List LaneResult) : Res :=
  let need : Need := { Need.r with noEf := noEf }
  match o.check s eas n n 28 need none fun _ => none with
  | .bad r => r
  | .ok xs faults =>
    let ef := xs.filter (·.ef)
    let units := o.unitsFor ef.length n
    match o.accessWaits s xs n units with
    | some c => .stall s c
    | none =>
      let s := xs.foldl (fun s x => if isScratch x.ea then s else s.fillTlb o.t.id.tile o.t.id.ctx x.ea) s
      if xs.isEmpty then o.access s xs faults need (passes o 1) 0 false
      else
        let (rs, s) := spread s (results (xs.map (·.lane)))
        let (pid, s) := o.pend s rs (if ef.isEmpty then s.now + 1 else s.now + Config.Q) false false []
        let s := s.modPend o.t.id.uid pid mark
        let s := if ef.isEmpty then s else o.hold s units (.efload pid signed (ef.map fun x => (x.lane, x.ea, n)))
        let s := (byLine (xs.filter fun x => !x.ef)).foldl (fun s line => o.loadLine s pid n signed line) s
        o.access s xs faults need (o.bankCycles xs n) (o.conflicts xs n) false

/-- The bytes of words, each with the poison of its word. -/
def wordBytes (ws : List PWord) : List (Byte × Bool) := ws.flatMap fun w => (toBytes 4 w.w.toNat).map (·, w.p)

/-- Stores of `n` bytes a lane (R225, R212): one held effect, its pieces in ascending lane order. -/
def Issue.store (o : Issue) (s : State) (eas : List (Nat × PVal)) (n : Nat) (noEf : Bool) (data : Nat → List (Byte × Bool)) : Res :=
  let need : Need := { Need.w with noEf := noEf }
  match o.check s eas n n 28 need none fun _ => none with
  | .bad r => r
  | .ok xs faults =>
    let units := o.unitsFor xs.length n
    match o.accessWaits s xs n units with
    | some c => .stall s c
    | none =>
      let s := xs.foldl (fun s x => if isScratch x.ea then s else s.fillTlb o.t.id.tile o.t.id.ctx x.ea) s
      let s := if xs.isEmpty then s
        else o.hold s units (.write (xs.map fun x => ⟨x.lane, x.ea, (data x.lane).take n⟩) false)
      o.access s xs faults need (o.bankCycles xs n) (o.conflicts xs n) false

/-! ### Effects on memory as they leave the Coolbox (R212) -/

/-- The page of an address is effectful, as the tile translates it now. -/
def State.effectful (s : State) (tile ctx va : Nat) : Bool :=
  match s.walk tile ctx va with
  | .leaf _ _ pte => bit pte.toNat 59
  | _ => false

/-- Storing bytes with poison at a key. -/
def State.memStore (s : State) (key : Nat) (data : List (Byte × Bool)) : State := { s with mem := s.mem.store key data }

/-- Does a valid window of the context hold the `n` bytes at a scratchpad address? -/
def State.covered (s : State) (ctx va n : Nat) : Bool := (s.windowsOf (ownerTile va)).any fun (_, w) =>
  winValid w && winCtx w == ctx && decide (winBase w ≤ sliceOffset va) && decide (sliceOffset va + n ≤ winBase w + winSize w)

/-- The check of R206 at the owner port when an access of a team, or of an engine for it, is performed there: a window that holds the
bytes and admits the team, or for a team that has ended one of its context. -/
def State.ownerAdmits (s : State) (uid ctx va n : Nat) : Bool := match (s.team? uid).or (s.disp.images.find? fun t => t.id.uid == uid && uid != 0) with
  | some t => s.windowOk t va n
  | none => s.covered ctx va n

/-- One piece of a released store: to the owner port, the L1, or uncached to the home (R212). -/
def State.releasePiece (s : State) (e : Held) (p : Piece) : State :=
  if isScratch p.ea then
    if ownerTile p.ea = e.tile && s.ownerAdmits e.uid e.ctx p.ea p.data.length then s.memStore p.ea p.data
    else (s.send e.tile e.side e.uid e.ctx e.issue e.pc e.word p.ea p.ea [] (.write [p])).2
  else if s.effectful e.tile e.ctx p.ea then
    match s.keyOf e.tile e.ctx p.ea with
    | some k => (s.send e.tile e.side e.uid e.ctx e.issue e.pc e.word p.ea k [] (.write [p])).2
    | none => s
  else { s with mem := s.mem.modLine e.tile e.ctx p.ea fun l => l.put (p.ea % 64) p.data }.staleFills fun l =>
    l.tile == e.tile && l.ctx == e.ctx && l.va == p.ea / 64 * 64

/-- Writing back and dropping the tile's L1 lines that overlap a range; the numbers of the write-backs (R227). -/
def State.flushRange (s : State) (tile ctx uid issue lo hi : Nat) (drop : Bool) : List Nat × State :=
  s.cleanLines (overlaps tile ctx lo hi) (fun _ => drop) uid issue

end Sys2Proof.Machine
end

