-- ==== Sys2Proof/Machine/Loads.lean ====
section
/-! DEFINITION. The loads and stores of class 0x5, LDMX and STMX, PREF, FLUSH and INVL, and FMTLD
(R153, R219-R229, R313, R323). -/

namespace Sys2Proof.Machine

/-! ### What several of them share -/

/-- Each lane's address under Format L and Format T. -/
def Issue.addrsL (o : Issue) (x : BitVec 1) : List (Nat × PVal) := o.lanes.map fun l => (l, o.addrL x l)
def Issue.addrsT (o : Issue) : List (Nat × PVal) := o.lanes.map fun l => (l, o.addrT l)

/-- The `n` words of d for a lane, each with its own poison bit (R218). -/
def Issue.dataWords (o : Issue) (l n : Nat) : List PWord :=
  match regKind o.rd with
  | .frame | .uni => readRegs o.t l o.rd n
  | .port => ((popped o.t o.rd 2 (fun _ => n) o.act).filter (·.1 == l)).map (·.2)
  | _ => (o.d l).words n

/-- The descriptor of the format register that the mode selects. -/
def Issue.descriptor (o : Issue) : Word := o.t.arch.nf.getD o.mode.nf 0

/-- Bits of the slot of a format's elements in memory (R136). -/
def slotWidth (desc : Word) : Nat := if bits desc.toNat 3 0 ≤ 4 then 4 else 8

/-- Do bytes that hold elements of a format hold a non-zero padding bit (R137)? -/
def padded (desc : Word) (bs : List Byte) : Bool :=
  let w := bits desc.toNat 3 0
  bs.any fun b => if slotWidth desc = 4 then bits b.toNat 3 0 / 2 ^ w != 0 || bits b.toNat 7 4 / 2 ^ w != 0 else b.toNat / 2 ^ w != 0

/-- The lanes of a block in registers (R139): 8 for 8-bit slots, 4 for 4-bit slots. -/
def Issue.runLength (o : Issue) : Nat := if slotWidth o.descriptor = 8 then 8 else 4

/-- An MX block must lie below 0xF00 in its frame (R323). -/
def pairReach (key : Nat) : Option Nat := if 0xF00 ≤ key % 4096 then some 30 else none

/-- The scale address of a block of `n` bytes (R323). -/
def scaleAddr (e n : Nat) : Nat := e / 4096 * 4096 + 0xF00 + e % 4096 / n

/-- The accesses' scale bytes. -/
def scaleOf (n : Nat) (xs : List Access1) : List Access1 := xs.map fun x => { x with ea := scaleAddr x.ea n }

/-- Writing back and dropping the tile's bytes of the lines of a block and its scale (R313). -/
def State.cleanPair (s : State) (tile ctx uid issue e n : Nat) : State :=
  let s := (s.flushRange tile ctx uid issue e (e + n) true).2
  (s.flushRange tile ctx uid issue (scaleAddr e n) (scaleAddr e n + 1) true).2

/-! ### Loads -/

/-- LD (R222): the bytes of each type, s8 and s16 extended by sign. -/
def execLd (t : BitVec 3) (d a : Reg) (l : BitVec 4) (x : BitVec 1) (lit : Word) (s : State) : Host.Outcome State Fault Refusal :=
  issue (.ld t d a l x lit) (fun o s =>
    let n := match t.toNat with
      | 0 | 1 => 1
      | 2 | 3 => 2
      | 4 => 4
      | _ => 8
    o.load s (o.addrsL x) n (t = 1 || t = 3) false id fun ls => o.dests ls o.sh.d.words) s

/-- LDV (R223): under type nf the padding of what is loaded is checked as it lands. -/
def execLdv (d a : Reg) (l : BitVec 4) (x : BitVec 1) (lit : Word) (s : State) : Host.Outcome State Fault Refusal :=
  issue (.ldv d a l x lit) (fun o s =>
    let mark (p : Pend) : Pend := { p with
      range := p.results.map fun r => ((o.addrL x r.lane).v.toNat, 16)
      fmt := if o.mode.typ = 6 then some o.descriptor else none }
    o.load s (o.addrsL x) 16 false true mark fun ls => o.dests ls 4) s

/-- LDK (R224): one access for the team, whose value goes to d or to every active lane's d. -/
def Issue.loadK (o : Issue) (s : State) (x : BitVec 1) (n : Nat) : Res :=
  let o' := { o with uniform := true, lanes := o.act.take 1 }
  o'.load s (o'.addrsL x) n false true (fun p => { p with bcast := true }) fun _ => o.dests o.lanes (n / 4)

/-- LDK.B32 (R224). -/
def execLdkB32 (d a : Reg) (l : BitVec 4) (x : BitVec 1) (lit : Word) (s : State) : Host.Outcome State Fault Refusal :=
  issue (.ldkB32 d a l x lit) (fun o s => o.loadK s x 4) s

/-- LDK.B64 (R224). -/
def execLdkB64 (d a : Reg) (l : BitVec 4) (x : BitVec 1) (lit : Word) (s : State) : Host.Outcome State Fault Refusal :=
  issue (.ldkB64 d a l x lit) (fun o s => o.loadK s x 8) s

/-- FMTLD (R153): as `ld.b32` from the word that holds the address; the word goes to the selected format register, where it
is checked as it lands. -/
def execFmtld (a : Reg) (l : BitVec 4) (x : BitVec 1) (lit : Word) (s : State) : Host.Outcome State Fault Refusal :=
  issue (.fmtld a l x lit) (fun o s =>
    let eas := (o.addrsL x).map fun (k, v) => (k, (⟨v.v &&& ~~~3#64, v.p⟩ : PVal))
    o.load s eas 4 false false (fun p => { p with range := eas.map fun x => (x.2.v.toNat, 4) }) fun ls => ls.map fun k => ⟨k, .fmt o.mode.nf, 1, 0, false, [], none, 0⟩) s

/-- Sending the read of one block with its scale (R228, R313), for the active lanes of its run. -/
def Issue.loadPair (o : Issue) (s : State) (pid n : Nat) (run : List Access1) : State :=
  match run with
  | [] => s
  | x :: _ =>
    let t := o.t
    let sc := scaleAddr x.ea n
    let s := s.cleanPair t.id.tile t.id.ctx t.id.uid s.now x.ea n
    let own := (List.range n).map (fun i => s.heldByte t.id.uid (x.ea + i)) ++ [s.heldByte t.id.uid sc]
    o.sendRead s x.ea x.key n (.pair pid x.ea n own (run.map (·.lane)) o.mode.sb)

/-- The accesses of a list by run of lanes. -/
def runsOf (n : Nat) (xs : List Access1) : List (List Access1) :=
  ((xs.map fun x => x.lane / n).eraseDups).map fun j => xs.filter fun x => x.lane / n == j

/-- LDMX (R228): each run reads its block and scale as one. -/
def execLdmx (d a : Reg) (l : BitVec 4) (x : BitVec 1) (lit : Word) (s : State) : Host.Outcome State Fault Refusal :=
  issue (.ldmx d a l x lit) (fun o s =>
    let n := o.runLength
    let need : Need := { Need.r with noEf := true, mx := true }
    match o.check s (o.act.map fun k => (k, o.addrL x (k - k % n))) (4 * n) (4 * n) 28 need (some 30) pairReach with
    | .bad r => r
    | .ok xs faults =>
      match (o.accessWaits s xs (4 * n) 0).or (o.accessWaits s (scaleOf (4 * n) xs) 1 0) with
      | some c => .stall s c
      | none =>
        if xs.isEmpty then o.access s xs faults need (passes o 1) 0 false
        else
          let s := xs.foldl (fun s x => s.fillTlb o.t.id.tile o.t.id.ctx x.ea) s
          let (k, s) := draw s
          let rs : List LaneResult := xs.map fun x => ⟨x.lane, destOf o.t o.rd x.lane, 2, 0, false, readRegs o.t x.lane o.rd 2, none, 0⟩
          let (pid, s) := o.pend s rs (s.now + 1 + k) false false []
          let s := s.modPend o.t.id.uid pid fun p => { p with fmt := some o.descriptor }
          let s := (runsOf n xs).foldl (fun s run => o.loadPair s pid (4 * n) run) s
          o.access s xs faults need (passes o 1) 0 false) s

/-! ### Stores -/

/-- ST (R225): the low bytes of d. -/
def execSt (n : BitVec 2) (d a b : Reg) (lit : Word) (s : State) : Host.Outcome State Fault Refusal :=
  issue (.st n d a b lit) (fun o s =>
    o.store s o.addrsT (2 ^ n.toNat) false fun l => wordBytes (o.dataWords l o.sh.d.words)) s

/-- STV (R225): four registers. -/
def execStv (d a b : Reg) (lit : Word) (s : State) : Host.Outcome State Fault Refusal :=
  issue (.stv d a b lit) (fun o s => o.store s o.addrsT 16 true fun l => wordBytes (o.dataWords l 4)) s

/-- The runs that have active and inactive lanes (R229). -/
def Issue.mixedRuns (o : Issue) (n : Nat) : List Nat :=
  o.act.filter fun l => (List.range n).any fun i => !o.act.contains (l - l % n + i)

/-- One run's held write: the block from the lanes' d, the scale from the first lane's d + 1 (R229). -/
def Issue.runPieces (o : Issue) (n : Nat) (run : List Access1) : List Piece :=
  match run with
  | [] => []
  | x :: _ =>
    let w (l : Nat) := readRegs o.t l o.rd 2
    let sw := (w x.lane).getD 1 PWord.zero
    [⟨x.lane, x.ea, run.flatMap fun y => wordBytes ((w y.lane).take 1)⟩,
     ⟨x.lane, scaleAddr x.ea (4 * n), [(sw.w.extractLsb' (8 * o.mode.sb) 8, sw.p)]⟩]

/-- STMX (R229): each run is one held effect. -/
def execStmx (d a b : Reg) (lit : Word) (s : State) : Host.Outcome State Fault Refusal :=
  issue (.stmx d a b lit) (fun o s =>
    let n := o.runLength
    let mixed := o.mixedRuns n
    let need : Need := { Need.w with noEf := true, mx := true }
    if !mixed.isEmpty then .trap 30 (maskOf mixed) [] false none
    else match o.check s (o.act.map fun k => (k, o.addrT (k - k % n))) (4 * n) (4 * n) 28 need (some 30) pairReach with
    | .bad r => r
    | .ok xs faults =>
      let runs := runsOf n xs
      let per := 1 + ceilDiv (n * (8 + 4)) 32
      match (o.accessWaits s xs (4 * n) (per * runs.length)).or (o.accessWaits s (scaleOf (4 * n) xs) 1 0) with
      | some c => .stall s c
      | none =>
        let s := xs.foldl (fun s x => s.fillTlb o.t.id.tile o.t.id.ctx x.ea) s
        let s := runs.foldl (fun s run => o.hold s per (.write (o.runPieces n run) true)) s
        o.access s xs faults need (passes o 1) 0 false) s

/-! ### PREF, FLUSH and INVL -/

/-- PREF (R226): a fill of the line of each lane whose page the TLB holds; anything else is ignored. -/
def execPref (a b : Reg) (lit : Word) (s : State) : Host.Outcome State Fault Refusal :=
  issue (.pref a b lit) (fun o s =>
    let t := o.t
    let p := poisonedLanes o.lanes o.addrT
    let held (ea : Nat) : Bool := s.mem.tlb.any fun e => e.tile == t.id.tile && e.ctx == t.id.ctx && decide (e.va ≤ ea) && decide (ea < e.va + e.size)
    if !p.isEmpty then o.addressPoison (p.map fun l => (l, o.addrT l))
    else
      o.plain (o.lanes.foldl (fun s l =>
        let ea := (o.addrT l).v.toNat
        if addressLegal ea && isTranslated ea && held ea && (s.mem.line? t.id.tile t.id.ctx ea).all (fun k => k.valid != BitVec.allOnes 64) then
          match s.translate t.id.tile t.id.ctx ea Need.r with
          | .ok pa false _ => o.sendRead s ea pa 0 (.load 0 [(l, ea, [])] 0 false (some true))
          | _ => s
        else s) s)) s

/-- The checks of FLUSH and INVL, and what they then do with the range (R227). -/
def Issue.lines (o : Issue) (s : State) (f : Nat → Nat → Res) : Res :=
  match o.lanes with
  | [] => o.single s
  | l :: _ =>
    let ea := (o.a l).v.toNat
    let len := (o.b l).v.toNat % 2 ^ 32
    if (o.a l).p || (o.b l).p then o.addressPoison [(l, o.a l)]
    else if 2 ^ 48 < ea + len then o.addressTrap 27 [(l, o.a l)]
    else if s.cur.meetsScore ea len then .stall s 7
    else f ea len

/-- FLUSH (R227): held in issue order. -/
def execFlush (a b : Reg) (lit : Word) (s : State) : Host.Outcome State Fault Refusal :=
  issue (.flush a b lit) (fun o s => o.lines s fun ea len =>
    if o.room s 1 then o.single (o.hold s 1 (.flush ea len)) else .stall s 9) s

/-- INVL (R227): at issue. -/
def execInvl (a b : Reg) (lit : Word) (s : State) : Host.Outcome State Fault Refusal :=
  issue (.invl a b lit) (fun o s => o.lines s fun ea len =>
    o.single (s.flushRange o.t.id.tile o.t.id.ctx o.t.id.uid s.now ea (ea + len) true).2) s

end Sys2Proof.Machine
end

