-- ==== Sys2Proof/Machine/Visibility.lean ====
section
/-! DEFINITION. ACQ, REL and FENCE (R299-R308). -/

namespace Sys2Proof.Machine

/-- The regions that are bound to objects now, as a tile knows them, with their objects (R299, R315: the bindings at issue). -/
def State.regionsOf (s : State) (tile ctx : Nat) (objs : List Nat) : List (Nat × Nat × Nat) :=
  objs.eraseDups.flatMap fun o => (s.boundTo tile ctx o).map fun (b, n) => (o, b, n)

/-- Reading an object at its ordering point, after the tile's bytes of its line have been written back and dropped
(R300 step 1). -/
def Issue.readObject (o : Issue) (s : State) (pid n : Nat) (acquire : Bool) (x : Access1) : State :=
  let t := o.t
  let s := if isScratch x.ea then s else (s.flushRange t.id.tile t.id.ctx t.id.uid s.now x.ea (x.ea + n) true).2
  o.sendRead s x.ea x.key n (.object pid x.lane x.ea n acquire)

/-- ACQ (R306); one of an effectful page is held as a load is, but takes no checkpoint (R215, R305). -/
def execAcq (d a : Reg) (l : BitVec 4) (x : BitVec 1) (lit : Word) (s : State) : Host.Outcome State Fault Refusal :=
  issue (.acq d a l x lit) (fun o s =>
    match o.check s (o.addrsL x) 8 8 28 Need.r none fun _ => none with
    | .bad r => r
    | .ok xs faults =>
      let (xs, ef) := (xs.map fun y => { y with ef := false }, xs.filter (·.ef))
      let units := o.unitsFor ef.length 8
      if s.bindsOut o.t.id.uid then .stall s 8
      else match o.accessWaits s xs 8 units with
      | some c => .stall s c
      | none =>
        if xs.isEmpty then o.access s xs faults Need.r (passes o 1) 0 false
        else
          let s := xs.foldl (fun s x => if isScratch x.ea then s else s.fillTlb o.t.id.tile o.t.id.ctx x.ea) s
          let (k, s) := draw s
          let due := if ef.isEmpty then s.now + 1 + k else max (s.now + Config.Q) (s.now + 1 + k)
          let regions := (s.regionsOf o.t.id.tile o.t.id.ctx (xs.map (·.ea))).map (·.2)
          let (pid, s) := o.pend s (o.dests (xs.map (·.lane)) 2) due false true regions
          let s := if ef.isEmpty then s else o.hold s units (.efload pid false (ef.map fun x => (x.lane, x.ea, 8)))
          let s := (xs.filter fun x => !ef.any (·.lane == x.lane)).foldl (fun s x => o.readObject s pid 8 true x) s
          o.access s xs faults Need.r (o.bankCycles xs 8) (o.conflicts xs 8) false) s

/-- REL (R307): one held effect, which writes the value in d (0 for zero) once its regions are written back; it takes no checkpoint, on
an effectful page either (R305). -/
def execRel (d a b : Reg) (lit : Word) (s : State) : Host.Outcome State Fault Refusal :=
  issue (.rel d a b lit) (fun o s =>
    match o.check s o.addrsT 8 8 28 Need.w none fun _ => none with
    | .bad r => r
    | .ok xs faults =>
      let xs := xs.map fun y => { y with ef := false }
      let units := o.unitsFor xs.length 8
      if s.bindsOut o.t.id.uid then .stall s 8
      else match o.accessWaits s xs 8 units with
      | some c => .stall s c
      | none =>
        let s := xs.foldl (fun s x => if isScratch x.ea then s else s.fillTlb o.t.id.tile o.t.id.ctx x.ea) s
        let s := if xs.isEmpty then s
          else o.hold s units (.rel (xs.map fun x => ⟨x.lane, x.ea, wordBytes (o.dataWords x.lane 2)⟩)
            (s.regionsOf o.t.id.tile o.t.id.ctx (xs.map (·.ea))))
        o.access s xs faults Need.w (o.bankCycles xs 8) (o.conflicts xs 8) false) s

/-! ### FENCE -/

/-- Has an ARED of the team still to be acknowledged (R280, R308)? -/
def State.aredOut (s : State) (uid : Nat) : Bool :=
  (s.coolbox.any fun e => e.uid == uid && match e.eff with
    | .atomic none _ _ => true
    | _ => false) ||
  (s.net.any fun x => x.uid == uid && match x.act with
    | .atomic none _ _ => true
    | .ack none _ _ _ _ n => n != 0
    | _ => false) ||
  s.homeHolds.any fun h => h.reply.uid == uid && match h.reply.act with
    | .ack none _ _ _ _ n => n != 0
    | _ => false

/-- A team's requests that are not yet acknowledged and go to a point that satisfies a test. -/
def State.outTo (s : State) (uid : Nat) (p : Nat → Bool) : Bool :=
  (s.net.any fun x => x.uid == uid && (p x.point || x.point == 9999)) || s.homeHolds.any fun h => h.reply.uid == uid && p h.reply.point

/-- Are the conditions of a fence met, but for the write-backs of scope 3 (Table 14-2)? -/
def State.fenceMet (s : State) (t : Team) (scope : Nat) : Bool :=
  let u := t.id.uid
  t.pend.isEmpty && !s.aredOut u &&
  (scope < 1 || !(s.coolbox.any (·.uid == u)) && !s.outTo u (· == t.id.tile)) &&
  (scope < 2 || !s.outTo u (· < 1024)) && (scope < 3 || !s.outTo u (· < 2048)) && (scope < 4 || !s.outTo u fun _ => true)

/-- FENCE (R308): it issues when its conditions hold; at device scope it first writes back the context's dirty bytes of
the tile, and it ends by invalidating the context's lines in unbound regions. -/
def execFence (sc : BitVec 7) (s : State) : Host.Outcome State Fault Refusal :=
  issue (.fence sc) (fun o s =>
    let t := o.t
    if !s.fenceMet t sc.toNat then .stall s 8
    else if sc.toNat < 3 then o.single s
    else
      let mine (l : Line) : Bool := l.tile == t.id.tile && l.ctx == t.id.ctx
      match t.fence with
      | none =>
        let (ids, s) := s.cleanLines (fun l => mine l && l.dirty != 0) (fun _ => false) t.id.uid s.now
        .stall { s with cur := { s.cur with fence := some ids } } 8
      | some ids =>
        if s.waitsFor ids then .stall s 8
        else
          let s := (s.cleanLines (fun l => mine l && !s.bound t.id.ctx l) (fun _ => true) t.id.uid s.now).2
          o.single { s with cur := { s.cur with fence := none } }) s

end Sys2Proof.Machine
end

