-- ==== Sys2Proof/Machine/Atomics.lean ====
section
/-! DEFINITION. The atomics of class 0x6 as they issue (R275-R280, R290, R291); they are performed in
Machine/Homes.lean. -/

namespace Sys2Proof.Machine

/-- The memories in which an atomic is refused (Table 13-3). -/
def atomSpace (key : Nat) : Option Nat := if spaceOf key = .host && !isScratch key then some 57 else none
def aprogSpace (key : Nat) : Option Nat := if isScratch key || spaceOf key = .host || spaceOf key = .peer then some 57 else none

/-- The lanes' results of an atomic; one performed once gives its flags to every active lane (R104, R285). -/
def Issue.atomDests (o : Issue) (lanes : List Nat) (width : Nat) : List LaneResult :=
  o.dests lanes width ++ if o.uniform then (o.act.drop 1).map fun k => ⟨k, .none, 0, 0, false, [], none, 0⟩ else []

/-- An atomic of `w` bytes at each lane's address (R279, R280): checked, held, its results pending when it has any. -/
def Issue.atomic (o : Issue) (s : State) (eas : List (Nat × PVal)) (align w bytes : Nat) (last : Nat → Option Nat) (width : Option Nat)
    (eff : Option Nat → List Access1 → Effect) : Res :=
  match o.check s eas w align 56 Need.rw none last with
  | .bad r => r
  | .ok xs faults =>
    let units := o.unitsFor xs.length bytes
    let span (x : Access1) : Access1 := if align = 1 then { x with ea := x.ea / 64 * 64 } else x
    match o.accessWaits s (xs.map span) (if align = 1 then 64 else w) units with
    | some c => .stall s c
    | none =>
      if xs.isEmpty then o.access s xs faults Need.rw (passes o 1) 0 false
      else
        let s := xs.foldl (fun s x => if isScratch x.ea then s else s.fillTlb o.t.id.tile o.t.id.ctx x.ea) s
        let (pid, s) : Option Nat × State := match width with
          | none => (none, s)
          | some n =>
            let (rs, s) := spread s (o.atomDests (xs.map (·.lane)) n)
            let range := xs.map fun x => ((span x).ea, if align = 1 then 64 else w)
            let (pid, s) := o.pend s rs (s.now + Config.Q) true false range
            (some pid, s.modPend o.t.id.uid pid fun p => { p with bcast := o.uniform })
        o.access (o.hold s units (eff pid xs)) xs faults Need.rw (passes o 1) 0 true

/-- A lane's request of an atomic with one operand in d. -/
def Issue.request (o : Issue) (x : Access1) : AtomReq := ⟨x.lane, x.ea, o.d x.lane, ⟨0, false⟩⟩

/-- ATOM (R282). -/
def execAtom (op : BitVec 4) (w : BitVec 1) (d a : Reg) (l : BitVec 4) (x : BitVec 1) (lit : Word) (s : State) :
    Host.Outcome State Fault Refusal :=
  issue (.atom op w d a l x lit) (fun o s =>
    let n := 4 * wOf w
    o.atomic s (o.addrsL x) n n n atomSpace (some (wOf w)) fun pid xs => .atomic pid (.alu op.toNat n) (xs.map o.request)) s

/-- ACAS (R284): the expected and the new value in d's registers. -/
def execAcas (w : BitVec 1) (d a : Reg) (l : BitVec 4) (x : BitVec 1) (lit : Word) (s : State) : Host.Outcome State Fault Refusal :=
  issue (.acas w d a l x lit) (fun o s =>
    let k := wOf w
    let value (ws : List PWord) : PVal :=
      if k = 1 then ⟨(ws.getD 0 PWord.zero).w.zeroExtend 64, (ws.getD 0 PWord.zero).p⟩ else pairVal (ws.getD 0 PWord.zero) (ws.getD 1 PWord.zero)
    let req (y : Access1) : AtomReq :=
      let ws := readRegs o.t y.lane o.rd (2 * k)
      ⟨y.lane, y.ea, value (ws.take k), value (ws.drop k)⟩
    o.atomic s (o.addrsL x) (4 * k) (4 * k) (8 * k) atomSpace (some k) fun pid xs => .atomic pid (.cas (4 * k)) (xs.map req)) s

/-- AFADD (R285), under the mode captured at issue. -/
def execAfadd (d a : Reg) (l : BitVec 4) (x : BitVec 1) (lit : Word) (s : State) : Host.Outcome State Fault Refusal :=
  issue (.afadd d a l x lit) (fun o s =>
    let k := modeWords o.mode.typ
    o.atomic s (o.addrsL x) (4 * k) (4 * k) (4 * k) atomSpace (some k) fun pid xs => .atomic pid (.fadd (4 * k) o.mode) (xs.map o.request)) s

/-- AFMM (R286): minimum for 0, maximum for 1. -/
def execAfmm (d a : Reg) (l : BitVec 4) (x m : BitVec 1) (lit : Word) (s : State) : Host.Outcome State Fault Refusal :=
  issue (.afmm d a l x m lit) (fun o s =>
    let k := modeWords o.mode.typ
    o.atomic s (o.addrsL x) (4 * k) (4 * k) (4 * k) atomSpace (some k) fun pid xs =>
      .atomic pid (.fmm (4 * k) (m = 1) o.mode) (xs.map o.request)) s

/-- ARED (R283): without a result. -/
def execAred (op : BitVec 4) (w : BitVec 1) (d a b : Reg) (lit : Word) (s : State) : Host.Outcome State Fault Refusal :=
  issue (.ared op w d a b lit) (fun o s =>
    let n := 4 * wOf w
    o.atomic s o.addrsT n n n atomSpace none fun pid xs => .atomic pid (.alu op.toNat n) (xs.map o.request)) s

/-- APROG (R291): the operand in d:d+1, the routine's number in d+2. -/
def execAprog (d a : Reg) (l : BitVec 4) (x : BitVec 1) (lit : Word) (s : State) : Host.Outcome State Fault Refusal :=
  issue (.aprog d a l x lit) (fun o s =>
    let req (y : Access1) : AtomReq :=
      let ws := readRegs o.t y.lane o.rd 3
      ⟨y.lane, y.ea, pairVal (ws.getD 0 PWord.zero) (ws.getD 1 PWord.zero),
        ⟨((ws.getD 2 PWord.zero).w &&& 63).zeroExtend 64, (ws.getD 2 PWord.zero).p⟩⟩
    o.atomic s (o.addrsL x) 1 1 12 aprogSpace (some 2) fun pid xs => .aprog (pid.getD 0) (xs.map req)) s

/-- APLOAD (R290): the index, then the address checks of a 64-byte read. -/
def execApload (a b : Reg) (lit : Word) (s : State) : Host.Outcome State Fault Refusal :=
  issue (.apload a b lit) (fun o s =>
    match o.lanes with
    | [] => o.single s
    | l :: _ =>
      let idx := (o.b l).v.toNat % 2 ^ 32
      if (o.b l).p then .rollback 19 (maskOf o.act) [] false
      else if 63 < idx then .trap 60 (maskOf o.act) [] false none
      else match o.check s [(l, o.a l)] 64 64 28 Need.r none fun _ => none with
      | .bad r => r
      | .ok xs faults =>
        match o.accessWaits s xs 64 1 with
        | some c => .stall s c
        | none =>
          let s := xs.foldl (fun s x => o.hold s 1 (.apload x.ea idx (maskOf o.act))) s
          o.access s xs faults Need.r 1 0 false) s

end Sys2Proof.Machine
end

