-- ==== Sys2Proof/Machine/Copies.lean ====
section
/-! DEFINITION. CPL, CPF, CPT and CPM as they issue (R230-R243); the engine is in Machine/CopyEngine.lean. -/

namespace Sys2Proof.Machine

/-! ### Layout records (R238, R240) -/

/-- A unit's bytes, not counting an MX scale. -/
def unitBytes (u : Nat) : Nat := [1, 2, 4, 8, 16, 32].getD u 0

/-- A layout record that keeps the limits of Table 11-3; with `source`, only the fields that name the source are read
(R358). -/
def parseLayout (bs : List Byte) (source : Bool) : Option Layout :=
  let f (off n : Nat) : Nat := ofBytes ((bs.drop off).take n)
  let head := f 16 4
  let unit := bits head 2 0
  let rank := bits head 5 4 + 1
  let b := unitBytes unit
  let dims := List.range 4
  let ext := dims.map fun k => f (24 + 4 * k) 4
  let stride := b :: (List.range 3).map fun k => f (40 + 4 * k) 4
  let box := dims.map fun k => f (52 + 2 * k) 2
  let pitch := f 60 4
  let okDim (k : Nat) : Bool :=
    if k < rank then 1 ≤ ext.getD k 0 && ext.getD k 0 ≤ 2 ^ 31 && stride.getD k 0 % b == 0 && (source || box.getD k 0 != 0)
    else ext.getD k 0 == 0 && stride.getD k 0 == 0 && (source || box.getD k 0 == 0)
  let pitchOk := if rank = 1 then pitch == 0 else box.getD 0 0 * b ≤ pitch && pitch % 4 == 0
  if 6 ≤ unit || f 0 8 / 2 ^ 48 != 0 || !dims.all okDim || f 0 8 % b != 0 then none
  else if !source && (f 8 8 / 2 ^ 48 != 0 || head / 64 != 0 || f 20 4 != 0 || !pitchOk || f 8 8 % b != 0) then none
  else some ⟨f 0 8, f 8 8, unit, rank, ext.map fun e => if e = 0 then 1 else e, stride, box.map fun k => if k = 0 then 1 else k, pitch⟩

def Layout.bytes (y : Layout) : Nat := unitBytes y.unit
def Layout.mx (y : Layout) : Bool := 4 ≤ y.unit
def Layout.boxAt (y : Layout) (k : Nat) : Nat := y.box.getD k 1
def Layout.rows (y : Layout) : Nat := y.boxAt 1 * y.boxAt 2 * y.boxAt 3
def Layout.units (y : Layout) : Nat := y.boxAt 0 * y.rows

/-- A coordinate of the record's rank; the others count as 0 (R238). -/
def Layout.coord (y : Layout) (cs : List Int) (k : Nat) : Int := if k < y.rank then cs.getD k 0 else 0

/-- Where a row of units starts in the source, and a unit's address there: (row, unit). -/
def Layout.srcRow (y : Layout) (x : List Nat) : Nat :=
  y.src + x.getD 1 0 * y.stride.getD 1 0 + x.getD 2 0 * y.stride.getD 2 0 + x.getD 3 0 * y.stride.getD 3 0
def Layout.srcUnit (y : Layout) (x : List Nat) : Nat := y.srcRow x + x.getD 0 0 * y.bytes

/-- The scale byte of a unit: in a page by its address, in the scratchpad after the row's blocks (R240). -/
def Layout.scaleAt (y : Layout) (row unit k blocks : Nat) : Nat :=
  if isScratch unit then row + blocks * y.bytes + k else scaleAddr unit y.bytes

/-- The range [lo, lo + n) of the source bytes that a box can read, if it reads any; in the scratchpad with all scale bytes of each row
(R240, R243). -/
def Layout.srcHull (y : Layout) (cs : List Int) : Option (Nat × Nat) :=
  let lo (k : Nat) : Int := max 0 (y.coord cs k)
  let hi (k : Nat) : Int := min ((y.ext.getD k 1 : Int) - 1) (y.coord cs k + y.boxAt k - 1)
  if (List.range 4).any fun k => decide (hi k < lo k) then none
  else
    let at_ (f : Nat → Int) : List Nat := (List.range 4).map fun k => (f k).toNat
    let first := y.srcUnit (at_ lo)
    let last := y.srcUnit (at_ hi)
    let blocks := y.ext.getD 0 1
    let scale := if isScratch last then blocks - 1 else (hi 0).toNat
    let past := if y.mx then max (last + y.bytes) (y.scaleAt (y.srcRow (at_ hi)) last scale blocks + 1) else last + y.bytes
    some (first, past - first)

/-- A box row's address in the destination. -/
def Layout.dstRow (y : Layout) (r : Nat) : Nat := y.dst + r * y.pitch

/-- The range of the destination bytes a box may write. -/
def Layout.dstHull (y : Layout) : Nat × Nat :=
  let row := y.dstRow (y.rows - 1)
  let k := y.boxAt 0 - 1
  let unit := row + k * y.bytes
  let past := if y.mx then max (unit + y.bytes) (y.scaleAt row unit k (y.boxAt 0) + 1) else unit + y.bytes
  (y.dst, past - y.dst)

/-- A record that CPT refuses beyond its field limits (R240). -/
def Layout.bad (y : Layout) (cs : List Int) : Bool :=
  let (d, n) := y.dstHull
  2 ^ 24 < n || (y.mx && isScratch y.dst && 1 < y.rank && y.pitch < y.boxAt 0 * (y.bytes + 1)) ||
  match y.srcHull cs with
  | some (a, m) => rangesMeet a m d n
  | none => false

/-! ### The control word (R232) -/

def ctlSink (c : Word) : Nat := bits c.toNat 31 30
def ctlSreg (c : Word) : Nat := bits c.toNat 29 25
def ctlCount (c : Word) : Nat := bits c.toNat 24 0

/-- The sink address: the uniform pair that sreg names. -/
def sinkPair (t : Team) (c : Word) : PVal :=
  pairVal (t.arch.k.getD (ctlSreg c) PWord.zero) (t.arch.k.getD (ctlSreg c + 1) PWord.zero)

/-! ### The checks (R233) -/

/-- A range that a copy addresses: its lane, first byte, bytes and alignment. -/
structure Range where
  lane : Nat
  ea : Nat
  n : Nat
  align : Nat
deriving DecidableEq, Repr

/-- Does a range lie in one region (R202)? -/
def rangeLegal (ea n : Nat) : Bool := addressLegal ea && addressLegal (ea + n - 1) && isScratch ea == isScratch (ea + n - 1)

/-- A trap of a copy's checks: the mask and the address of each lane. -/
def copyTrap (cause : Nat) (mask : List Nat → List Nat) (bad : List (Nat × Nat)) : Res :=
  let ls := mask (bad.map (·.1)).eraseDups
  let ea (l : Nat) : Nat := ((bad.find? (·.1 == l)).map (·.2)).getD (bad.headD (0, 0)).2
  .trap cause (maskOf ls) (ls.map fun l => (l, BitVec.ofNat 64 (ea l))) false none

/-- Item 3 of R233 over the ranges of every lane. -/
def rangeTrap (s : State) (mask : List Nat → List Nat) (rs : List Range) : Option Res :=
  let rs := rs.filter fun r => r.n != 0
  let range := rs.filter fun r => !rangeLegal r.ea r.n
  let odd := rs.filter fun r => r.ea % r.align != 0
  let window := rs.filter fun r => isScratch r.ea && !s.windowOk s.cur r.ea r.n
  let fail (c : Nat) (l : List Range) : Option Res := some (copyTrap c mask (l.map fun r => (r.lane, r.ea)))
  if !range.isEmpty then fail 27 range
  else if !odd.isEmpty then fail 28 odd
  else if !window.isEmpty then fail 29 window else none

/-- Items 4 and 5: does a sink fail, and with which cause (R233, R409)? -/
def sinkCause (s : State) (c : Word) : Option Nat :=
  let ea := (sinkPair s.cur c).v.toNat
  if ctlSink c = 3 || ctlSreg c % 2 = 1 || (ctlSink c = 0 && ctlSreg c != 0) then some 45
  else if ctlSink c = 1 && (ea % 16 != 0 || !isScratch ea || !s.windowOk s.cur ea 16) then some 45
  else if ctlSink c = 2 && (ea % 8 != 0 || isScratch ea) then some 71 else none

/-- The range of a sink address, where there is one. -/
def sinkRange (t : Team) (c : Word) (l : Nat) : List Range :=
  if (ctlSink c = 1 || ctlSink c = 2) && ctlSreg c % 2 = 0 then [⟨l, (sinkPair t c).v.toNat, if ctlSink c = 1 then 16 else 8, 1⟩] else []

/-- Is the sink address poisoned? -/
def sinkPoison (t : Team) (c : Word) : Bool := (ctlSink c = 1 || ctlSink c = 2) && ctlSreg c % 2 = 0 && (sinkPair t c).p

/-- Must a copy wait for pending results before its checks: it takes an implicit checkpoint, and reads the pair that sreg names (R46,
R47, R234)? -/
def Issue.sinkPends (o : Issue) (cs : List PVal) : Bool :=
  !o.t.pend.isEmpty && cs.any fun c => !c.p && (ctlSink (c.v.extractLsb' 0 32) == 1 || ctlSink (c.v.extractLsb' 0 32) == 2)

/-! ### Issuing a copy (R234, R243) -/

/-- The hull of ranges of bytes. -/
def hull (rs : List (Nat × Nat)) : List (Nat × Nat) :=
  match rs.filter fun r => r.2 != 0 with
  | [] => []
  | r :: rest =>
    let lo := rest.foldl (fun m x => min m x.1) r.1
    let hi := rest.foldl (fun m x => max m (x.1 + x.2)) (r.1 + r.2)
    [(lo, hi - lo)]

/-- Why a copy waits at issue: eight entries taken or hulls that meet (R243), an atomic (R280), a checkpoint (R47,
R186) or room in the Coolbox (R437). -/
def Issue.copyWaits (o : Issue) (s : State) (src dst : List (Nat × Nat)) (sink units : Nat) : Option Nat :=
  let t := s.cur
  let meet (xs ys : List (Nat × Nat)) : Bool := xs.any fun x => ys.any fun y => rangesMeet x.1 x.2 y.1 y.2
  let a := hull src
  let d := hull dst
  if 8 ≤ t.score.length || t.score.any fun e => meet a e.dst || meet d e.dst || meet d e.src then some 7
  else if (src ++ dst).any fun r => r.2 != 0 && s.meetsAtomic t.id.uid r.1 r.2 then some 13
  else if sink != 0 && Config.youngCheckpoints ≤ (t.young s.now).length then some 10
  else if !o.room s units then some 9
  else none

/-- Segments of 64 aligned bytes that a range touches. -/
def segmentsOf (ea n : Nat) : Nat := if n = 0 then 0 else (ea + n - 1) / 64 + 1 - ea / 64

/-- What one lane's copy moves. -/
structure Plan where
  lane : Nat
  mask : LaneMask
  kind : CopyKind
  src : Nat
  dst : Nat
  len : Nat
  valid : Nat
  total : Nat
deriving DecidableEq, Repr

/-- A copy instruction that passed its checks: its scoreboard entry, its copies, its place in the open batch, and its
held request. -/
def Issue.startCopy (o : Issue) (s : State) (ctl : Word) (ps : List Plan) (src dst : List (Nat × Nat)) (units cycles : Nat) : Res :=
  let sink := ctlSink ctl
  if sink = 0 && 65535 ≤ s.cur.openBatch.length then .trap 72 (maskOf (ps.map (·.lane))) [] false none
  else match o.copyWaits s src dst sink units with
    | some c => .stall s c
    | none =>
      let t := o.t
      let (ins, s) := fresh s
      let ea := (sinkPair t ctl).v.toNat
      let copy (cid : Nat) (p : Plan) : Copy :=
        ⟨cid, ins, t.id.tile, t.id.side, t.id.uid, t.id.ctx, s.now, o.g.pc, o.word, p.lane, p.mask, p.kind, p.src, p.dst, p.len, p.valid,
          sink, ea, false, 0, p.total, [], [], match p.kind with | .cpm ts => ts.map fun _ => 0 | _ => [0], [], 0, false, false⟩
      let (cids, s) := ps.foldl (fun (cids, s) p =>
        let (cid, s) := fresh s
        (cids ++ [cid], { s with copies := s.copies ++ [copy cid p] })) (([] : List Nat), s)
      let s := { s with cur := { s.cur with
        score := s.cur.score ++ [⟨ins, hull src, hull dst⟩]
        openBatch := if sink = 0 then s.cur.openBatch ++ cids else s.cur.openBatch } }
      .done (o.hold s units (.copy cids)) ⟨[], [], cycles, none, sink != 0, false, false, 0⟩

/-- Coolbox units of a copy request (Table 21-5). -/
def Issue.copyUnits (o : Issue) : Nat := if o.uniform then 2 else 1 + ceilDiv (o.lanes.length * 24) 32

/-- CPL and CPF (R236, R237): one copy for each active lane, or one for the team. `size` is the destination's bytes. -/
def Issue.laneCopies (o : Issue) (s : State) (cpl : Bool) : Res :=
  match o.lanes with
  | [] => o.plain s
  | low :: _ =>
    let ctl (l : Nat) : Word := (o.b l).v.extractLsb' 0 32
    let c0 := ctl low
    let n (l : Nat) : Nat := ctlCount (ctl l)
    let size (l : Nat) : Nat := if cpl then 32 else n l
    let dst (l : Nat) : Nat := (o.d l).v.toNat
    let src (l : Nat) : Nat := (o.a l).v.toNat
    let mask (ls : List Nat) : List Nat := if o.uniform then o.act else ls
    let poison := o.lanes.filter fun l => (o.d l).p || (o.b l).p || (cpl && n l != 0 && (o.a l).p) || sinkPoison o.t (ctl l)
    let rs := o.lanes.map (fun l => (⟨l, dst l, size l, 4⟩ : Range)) ++
      (if cpl then o.lanes.map fun l => (⟨l, src l, n l, 1⟩ : Range) else []) ++ o.lanes.flatMap fun l => sinkRange o.t (ctl l) l
    let differs := o.lanes.filter fun l => ctlSink (ctl l) != ctlSink c0 || ctlSreg (ctl l) != ctlSreg c0
    let dsts := o.lanes.map fun l => (dst l, size l)
    let srcs := if cpl then o.lanes.map fun l => (src l, n l) else []
    let big := o.lanes.filter fun l => if cpl then 32 < n l else n l % 4 != 0 || 0x1000000 < n l
    let overlap := if cpl then o.lanes.filter fun l => n l != 0 && dsts.any fun d => rangesMeet (src l) (n l) d.1 d.2 else []
    if o.sinkPends (o.lanes.map o.b) then .stall s 3
    else if !poison.isEmpty then .rollback 19 (maskOf (mask poison)) [] false
    else match rangeTrap s mask rs with
    | some r => r
    | none =>
      match sinkCause s c0 with
      | some 45 => .trap 45 (maskOf (mask o.lanes)) [] false none
      | other =>
        if !differs.isEmpty then .trap 45 (maskOf (mask differs)) [] false none
        else match other with
        | some c => .trap c (maskOf (mask o.lanes)) [] false none
        | none =>
          let wrong := o.lanes.filter fun l => big.contains l || overlap.contains l
          if !wrong.isEmpty then .trap 44 (maskOf (mask wrong)) [] false none
          else
            let plan (l : Nat) : Plan :=
              ⟨l, maskOf (mask [l]), if cpl then .cpl else .cpf ((o.a l).v.extractLsb' 0 32), src l, dst l, size l, n l, segmentsOf (dst l) (size l)⟩
            o.startCopy s c0 (o.lanes.map plan) srcs dsts o.copyUnits (passes o 1)

/-- CPL (R236). -/
def execCpl (d a b : Reg) (lit : Word) (s : State) : Host.Outcome State Fault Refusal :=
  issue (.cpl d a b lit) (fun o s => o.laneCopies s true) s

/-- CPF (R237): the pattern's poison does not travel (R235, log entry 16). -/
def execCpf (d a b : Reg) (lit : Word) (s : State) : Host.Outcome State Fault Refusal :=
  issue (.cpf d a b lit) (fun o s => o.laneCopies s false) s

/-- The bytes of a record as a load of the team reads them now (R213, R240), once the team's writes to them have left its tile and, in
a window, the line has come over its link: none while it waits, or the cause of a failure. -/
def State.readNow (s : State) (t : Team) (x : Access1) (n : Nat) : State × Option (Except Nat (List Byte)) :=
  let bytes := (s.ownBytes t x.ea n (!isScratch x.ea)).zipIdx.map fun (b, i) => match b with
    | some v => v.1
    | none => s.mem.get (x.key + i)
  if s.writeOut t.id.tile t.id.ctx x.ea n then (s, none)
  else if !isScratch x.ea && s.cxlFailed x.key then (s, some (.error 36))
  else if isScratch x.ea || !isWindow x.key then (s, some (.ok bytes))
  else match s.fetchedLine t.id.uid x.key with
    | none => (s.fetchLine t.id.uid t.id.tile t.id.side t.id.uid t.id.ctx s.now 0 0 x.ea x.key, none)
    | some c => ({ s with fetched := s.fetched.filter fun f => f.1 != t.id.uid }, some (if c = 0 then .ok bytes else .error c))

/-- CPT (R240): the leader's box, from the record as it reads at issue. -/
def execCpt (d a b : Reg) (lit : Word) (s : State) : Host.Outcome State Fault Refusal :=
  issue (.cpt d a b lit) (fun o s =>
    match o.act with
    | [] => o.single s
    | l :: _ =>
      let ctl : Word := (o.b l).v.extractLsb' 0 32
      let cs := readRegs o.t l o.ra 4
      let coords := cs.map fun c => c.w.toInt
      let o' := { o with uniform := false, lanes := [l] }
      if o.sinkPends [o.b l] then .stall s 3
      else if (o.d l).p || (o.b l).p || cs.any (·.p) || sinkPoison o.t ctl then .rollback 19 (maskOf [l]) [] false
      else match o'.check s [(l, o.d l)] 64 64 28 Need.r none fun _ => none with
      | .bad r => r
      | .ok [] faults => o'.access s [] faults Need.r 1 0 false
      | .ok (x :: _) _ =>
        match o'.accessWaits s [x] 64 0 with
        | some c => .stall s c
        | none =>
        let (s, got) := s.readNow o.t x 64
        match got with
        | none => .stall s 3
        | some (.error c) => .trap c (maskOf [l]) [(l, (o.d l).v)] false none
        | some (.ok bytes) =>
        match parseLayout bytes false with
        | none => .trap 40 (maskOf [l]) [] false none
        | some y =>
          let (dst, n) := y.dstHull
          let src := match y.srcHull coords with
            | some r => [r]
            | none => []
          if y.bad coords then .trap 40 (maskOf [l]) [] false none
          else match rangeTrap s id (src.map (fun r => ⟨l, r.1, r.2, 1⟩) ++ [⟨l, dst, n, 1⟩] ++ sinkRange o.t ctl l) with
          | some r => r
          | none => match sinkCause s ctl with
            | some c => .trap c (maskOf [l]) [] false none
            | none =>
              if ctlCount ctl != 0 then .trap 44 (maskOf [l]) [] false none
              else
                let total := if y.mx then y.units else segmentsOf dst n
                o'.startCopy s ctl [⟨l, maskOf [l], .cpt y coords, y.src, dst, n, 0, total⟩] src [(dst, n)] 2 1) s

/-- The formed groups of the team's gang by number in the gang (R32, R242). -/
def State.gangGroup (s : State) (t : Team) (g : Nat) : Option GroupRt :=
  match s.group? t.id.gid with
  | none => none
  | some mine => s.disp.groups.find? fun x => x.work == mine.work && x.gang == mine.gang && x.number == mine.gang * 2 ^ t.id.w2 + g

/-- CPM (R242): the leader's range to the same offset in the target groups' windows. -/
def execCpm (d a b : Reg) (lit : Word) (s : State) : Host.Outcome State Fault Refusal :=
  issue (.cpm d a b lit) (fun o s =>
    match o.act with
    | [] => o.single s
    | l :: _ =>
      let ctl : Word := (o.b l).v.extractLsb' 0 32
      let ws := readRegs o.t l o.rd 4
      let w (i : Nat) : Nat := (ws.getD i PWord.zero).w.toNat
      let len := ctlCount ctl
      let src := (o.a l).v.toNat
      let named := (List.range 64).filter fun g => bit (w 2 + w 3 * 2 ^ 32) g
      let groups := named.filterMap fun g => s.gangGroup o.t g
      let dst (g : GroupRt) : Nat := sliceAddr g.tile (g.base + w 0)
      let bar (g : GroupRt) : Nat := sliceAddr g.tile (g.base + w 1)
      let outside := groups.filterMap fun g =>
        if g.size < w 0 + len then some (dst g) else if g.size < w 1 + 16 then some (bar g) else none
      let dsts := groups.map fun g => (dst g, len)
      let o' := { o with uniform := false, lanes := [l] }
      if o.sinkPends [o.b l] then .stall s 3
      else if (o.a l).p || (o.b l).p || ws.any (·.p) || sinkPoison o.t ctl then .rollback 19 (maskOf [l]) [] false
      else if named.isEmpty || groups.length != named.length then .trap 42 (maskOf [l]) [] false none
      else match rangeTrap s id (⟨l, src, len, 4⟩ :: sinkRange o.t ctl l) with
      | some r => r
      | none =>
        if !outside.isEmpty then copyTrap 29 id (outside.map (l, ·))
        else if ctlSink ctl != 1 || w 1 % 16 != 0 || (sinkCause s ctl).isSome then .trap 45 (maskOf [l]) [] false none
        else if len % 4 != 0 || 0x1000000 < len || dsts.any fun r => rangesMeet src len r.1 r.2 then .trap 44 (maskOf [l]) [] false none
        else
          let targets := groups.map fun g => (dst g, bar g)
          let d := (dsts.headD (0, 0)).1
          o'.startCopy s ctl [⟨l, maskOf [l], .cpm targets, src, d, len, len, segmentsOf d len⟩] [(src, len)] dsts 2 1) s

end Sys2Proof.Machine
end

