-- ==== Sys2Proof/Machine/Sync.lean ====
section
/-! DEFINITION. BINIT, ARRIVE, EXPECT, WAIT, CADD, CREAD, BSEAL, BWAIT and STALLRD (R403-R421). -/

namespace Sys2Proof.Machine

/-! ### Barrier objects (R406) -/

/-- A barrier object as its four words. -/
structure Barrier where
  w0 : Word
  w1 : Word
  w2 : Word
  w3 : Word
deriving DecidableEq, Repr

def Barrier.phase (b : Barrier) : Nat := bits b.w0.toNat 31 16
def Barrier.init (b : Barrier) : Nat := bits b.w0.toNat 15 0
def Barrier.pending (b : Barrier) : Nat := bits b.w1.toNat 15 0
def Barrier.carry (b : Barrier) : Nat := bits b.w3.toNat 23 0

/-- What BINIT writes (R408). -/
def Barrier.start (init : Nat) : Barrier := ⟨BitVec.ofNat 32 init, BitVec.ofNat 32 init, 0, 0xB5000000⟩

/-- A barrier operation that meets such an object fails with BARRIER_BAD (R406). -/
def Barrier.bad (b : Barrier) : Bool := bits b.w3.toNat 31 24 != 0xB5 || bits b.w1.toNat 31 16 != 0 || b.init == 0

/-- The object at a scratchpad address. -/
def State.barrier (s : State) (ea : Nat) : Barrier :=
  let w (i : Nat) : Word := BitVec.ofNat 32 (s.mem.nat (ea + 4 * i) 4)
  ⟨w 0, w 1, w 2, w 3⟩

def Barrier.bytes (b : Barrier) : List (Byte × Bool) := wordBytes ([b.w0, b.w1, b.w2, b.w3].map fun w => ⟨w, false⟩)

/-! ### Addresses (R405) -/

/-- A barrier address that is not a multiple of 16 in the scratchpad; a counter address that is not a multiple of 8
in translated memory. -/
def barrierOdd (ea : Nat) : Bool := ea % 16 != 0 || !isScratch ea
def counterOdd (ea : Nat) : Bool := ea % 8 != 0 || isScratch ea
def eitherOdd : List (Nat × (Nat → Bool)) :=
  [(68, fun ea => isScratch ea && ea % 16 != 0), (71, fun ea => !isScratch ea && ea % 8 != 0)]

/-- Does the team hold an effect for the `n` bytes of an object (R411, R412)? -/
def State.holdsFor (s : State) (uid ea n : Nat) : Bool :=
  s.coolbox.any fun e => e.uid == uid && match e.eff with
    | .write ps _ | .rel ps _ => ps.any fun p => rangesMeet ea n p.ea p.data.length
    | .arrive xs _ => xs.any fun x => rangesMeet ea n x.2 16
    | .expect _ xs => xs.any fun x => rangesMeet ea n x.2.1 16
    | .cadd xs _ => xs.any fun x => rangesMeet ea n x.2.1 8
    | .atomic _ _ xs => xs.any fun x => rangesMeet ea n x.ea 8
    | .aprog _ xs => xs.any fun x => rangesMeet ea n (x.ea / 64 * 64) 64
    | _ => false

/-! ### The instructions -/

/-- BINIT (R408): held as a store of the whole object. -/
def execBinit (d a b : Reg) (lit : Word) (s : State) : Host.Outcome State Fault Refusal :=
  issue (.binit d a b lit) (fun o s =>
    let n (l : Nat) : Nat := (o.d l).v.toNat % 2 ^ 32
    let p := poisonedLanes o.lanes o.d
    if !p.isEmpty then .rollback 19 (o.maskFor p) [] false
    else match o.checkWith s o.addrsT 16 [(68, barrierOdd)] Need.w none fun _ => none with
    | .bad r => r
    | .ok xs faults =>
      let bad := o.lanes.filter fun l => n l == 0 || 65535 < n l
      let units := o.unitsFor xs.length 16
      if !bad.isEmpty then .trap 4 (o.maskFor bad) [] false none
      else match o.accessWaits s xs 16 units with
      | some c => .stall s c
      | none =>
        let s := if xs.isEmpty then s
          else o.hold s units (.write (xs.map fun x => ⟨x.lane, x.ea, (Barrier.start (n x.lane)).bytes⟩) false)
        o.access s xs faults Need.w (passes o 1) 0 false) s

/-- ARRIVE (R408): a held release. -/
def execArrive (a b : Reg) (lit : Word) (s : State) : Host.Outcome State Fault Refusal :=
  issue (.arrive a b lit) (fun o s =>
    match o.checkWith s o.addrsT 16 [(68, barrierOdd)] Need.rw none fun _ => none with
    | .bad r => r
    | .ok xs faults =>
      let units := o.unitsFor xs.length 0
      if s.bindsOut o.t.id.uid then .stall s 8
      else match o.accessWaits s xs 16 units with
      | some c => .stall s c
      | none =>
        let s := if xs.isEmpty then s
          else o.hold s units (.arrive (xs.map fun x => (x.lane, x.ea)) (s.regionsOf o.t.id.tile o.t.id.ctx (xs.map (·.ea))))
        o.access s xs faults Need.rw (passes o 1) 0 false) s

/-- EXPECT (R408): performed at the owner port as an atomic; the phase lands no earlier than Q cycles after issue. -/
def execExpect (d a b : Reg) (lit : Word) (s : State) : Host.Outcome State Fault Refusal :=
  issue (.expect d a b lit) (fun o s =>
    let p := poisonedLanes o.lanes o.d
    if !p.isEmpty then .rollback 19 (o.maskFor p) [] false
    else match o.checkWith s o.addrsT 16 [(68, barrierOdd)] Need.rw none fun _ => none with
    | .bad r => r
    | .ok xs faults =>
      let units := o.unitsFor xs.length 4
      match o.accessWaits s xs 16 units with
      | some c => .stall s c
      | none =>
        if xs.isEmpty then o.access s xs faults Need.rw (passes o 1) 0 false
        else
          let (k, s) := draw s
          let (pid, s) := o.pend s (o.dests (xs.map (·.lane)) 1) (max (s.now + Config.Q) (s.now + 1 + k)) true false (xs.map fun x => (x.ea, 16))
          let s := o.hold s units (.expect pid (xs.map fun x => (x.lane, x.ea, (o.d x.lane).v.toNat % 2 ^ 32)))
          o.access s xs faults Need.rw (passes o 1) 0 false) s

/-- CADD (R410): a held release; the addend is zero-extended. -/
def execCadd (d a b : Reg) (lit : Word) (s : State) : Host.Outcome State Fault Refusal :=
  issue (.cadd d a b lit) (fun o s =>
    match o.checkWith s o.addrsT 8 [(71, counterOdd)] Need.rw none fun _ => none with
    | .bad r => r
    | .ok xs faults =>
      let units := o.unitsFor xs.length 4
      if s.bindsOut o.t.id.uid then .stall s 8
      else match o.accessWaits s xs 8 units with
      | some c => .stall s c
      | none =>
        let s := xs.foldl (fun s x => s.fillTlb o.t.id.tile o.t.id.ctx x.ea) s
        let s := if xs.isEmpty then s
          else o.hold s units (.cadd (xs.map fun x => (x.lane, x.ea, ⟨(o.d x.lane).v &&& 0xFFFFFFFF#64, (o.d x.lane).p⟩))
            (s.regionsOf o.t.id.tile o.t.id.ctx (xs.map (·.ea))))
        o.access s xs faults Need.rw (passes o 1) 0 false) s

/-- CREAD (R412): 8 bytes at the ordering point, once the team holds nothing for the object; an effectful page asks for no checkpoint. -/
def execCread (d a : Reg) (l : BitVec 4) (x : BitVec 1) (lit : Word) (s : State) : Host.Outcome State Fault Refusal :=
  issue (.cread d a l x lit) (fun o s =>
    match o.checkWith s (o.addrsL x) 8 eitherOdd Need.rw none fun _ => none with
    | .bad r => r
    | .ok xs faults =>
      let xs := xs.map fun y => { y with ef := false }
      if xs.any fun y => s.holdsFor o.t.id.uid y.ea (if isScratch y.ea then 16 else 8) then .stall s 8
      else match o.accessWaits s xs 8 0 with
      | some c => .stall s c
      | none =>
        if xs.isEmpty then o.access s xs faults Need.rw (passes o 1) 0 false
        else
          let s := xs.foldl (fun s y => if isScratch y.ea then s else s.fillTlb o.t.id.tile o.t.id.ctx y.ea) s
          let (k, s) := draw s
          let (pid, s) := o.pend s (o.dests (xs.map (·.lane)) 2) (s.now + 1 + k) false false []
          let s := xs.foldl (fun s y => o.readObject s pid 8 false y) s
          o.access s xs faults Need.rw (o.bankCycles xs 8) (o.conflicts xs 8) false) s

/-- Does a home still hold a result of an object's line (R288)? -/
def State.lineHeld (s : State) (key : Nat) : Bool := s.homeHolds.any fun h => h.line == key / 64

/-- Has a waited object reached what is waited for, or failed (R411)? `key` is where it is kept. -/
def State.reached (s : State) (ea key target : Nat) : Bool :=
  if isScratch ea then
    let b := s.barrier ea
    let n := (b.phase + 2 ^ 16 - target) % 2 ^ 16
    b.bad || (1 ≤ n && n ≤ 32767)
  else !s.lineHeld key && (s.mem.anyPoison key 8 || target ≤ s.mem.nat key 8)

/-- The acquire actions of R300 step 2 for an object. -/
def State.acquire (s : State) (tile ctx uid : Nat) (regions : List (Nat × Nat)) : State :=
  (s.cleanLines (fun l => l.tile == tile && l.ctx == ctx && inRegions regions l) (fun _ => true) uid s.now).2

/-- The regions that a WAIT acquires: those bound to its object when it was issued first (R315). -/
def Issue.waitRegions (o : Issue) (s : State) (ea : Nat) : List (Nat × Nat) := match o.t.wait with
  | some w => if w.pc = o.g.pc then w.regions else s.boundTo o.t.id.tile o.t.id.ctx ea
  | none => s.boundTo o.t.id.tile o.t.id.ctx ea

/-- Since when a WAIT that is issued again after its team woke has waited: since its first issue. -/
def Issue.waitSince (o : Issue) (s : State) : Nat := match o.t.wait with
  | some w => if w.pc = o.g.pc then w.since else s.now
  | none => s.now

/-- WAIT (R411): suspends the team until the object has reached its phase or target. -/
def execWait (d a b : Reg) (lit : Word) (s : State) : Host.Outcome State Fault Refusal :=
  issue (.wait d a b lit) (fun o s =>
    match o.lanes with
    | [] => o.single s
    | l :: _ =>
      let t := o.t
      match o.checkWith s [(l, o.addrT l)] 8 eitherOdd Need.rw none fun _ => none with
      | .bad r => r
      | .ok [] faults => o.access s [] faults Need.rw 1 0 false
      | .ok (x :: _) _ =>
        let sp := isScratch x.ea
        let target := if sp then o.d l else readReg t s.now o.lit false [] 2 o.rd l
        let odd := (regKind o.rd = .frame || regKind o.rd = .uni) && o.rd.toNat % 2 = 1
        if sp && ownerTile x.ea != t.id.tile then .trap 69 (maskOf o.act) (o.act.map fun k => (k, BitVec.ofNat 64 x.ea)) false none
        else if (sp && target.v.toNat / 2 ^ 16 != 0) || (!sp && odd) then .trap 4 (maskOf o.act) [] false none
        else if target.p then .rollback 19 (maskOf o.act) [] false
        else if s.holdsFor t.id.uid x.ea (if sp then 16 else 8) || s.bindsOut t.id.uid then .stall s 8
        else
          let s := if sp then s else (s.flushRange t.id.tile t.id.ctx t.id.uid s.now x.ea (x.ea + 8) true).2
          if sp && (s.barrier x.ea).bad then .trap 68 (maskOf o.act) (o.act.map fun k => (k, BitVec.ofNat 64 x.ea)) false none
          else if !sp && !s.lineHeld x.key && s.mem.anyPoison x.key 8 then .rollback 19 (maskOf o.act) [] false
          else if !sp && s.net.any fun y => y.uid == t.id.uid && y.pa / 64 == x.key / 64 then .stall s 8
          else if s.reached x.ea x.key target.v.toNat then
            let s := s.acquire t.id.tile t.id.ctx t.id.uid (o.waitRegions s x.ea)
            o.single { s with cur := { s.cur with wait := none } }
          else
            let ext := match s.walk t.id.tile t.id.ctx x.ea with
              | .leaf _ _ pte => !sp && bit pte.toNat 58
              | _ => false
            .wait { s with cur := { s.cur with
              status := .waiting, wait := some ⟨o.g.pc, x.ea, target.v.toNat, o.waitSince s, ext, o.waitRegions s x.ea⟩, sched := { s.cur.sched with stallCause := 8 } } }) s

/-- The tag of BSEAL and BWAIT, checked (R414). -/
def Issue.withTag (o : Issue) (k : Nat → Res) : Res :=
  let v := o.a 0
  if v.p then .rollback 19 (maskOf o.act) [] false
  else if 15 < v.v.toNat % 2 ^ 32 then .trap 43 (maskOf o.act) [] false none
  else k (v.v.toNat % 2 ^ 32)

/-- BSEAL (R414). -/
def execBseal (a : Reg) (lit : Word) (s : State) : Host.Outcome State Fault Refusal :=
  issue (.bseal a lit) (fun o s => o.withTag fun g =>
    let t := s.cur
    if t.tags.any (·.1 == g) then .trap 43 (maskOf o.act) [] false none
    else o.single { s with cur := { t with
      tags := (g, t.openBatch) :: t.tags, openBatch := [], batchLog := ⟨s.now, g, true, t.openBatch⟩ :: t.batchLog } }) s

/-- BWAIT (R414): until the batch counts no copy. -/
def execBwait (a : Reg) (lit : Word) (s : State) : Host.Outcome State Fault Refusal :=
  issue (.bwait a lit) (fun o s => o.withTag fun g =>
    let t := s.cur
    match t.tags.find? (·.1 == g) with
    | none => o.single s
    | some (_, []) => o.single { s with cur := { t with
        tags := t.tags.filter (·.1 != g), batchLog := ⟨s.now, g, false, []⟩ :: t.batchLog } }
    | some _ => .stall s 8) s

/-- The largest index of each unit's causes (Table 19-5). -/
def stallTop (unit : Nat) : Option Nat := [20, 20, 6, 7, 3, 5][unit]?

/-- The counter a selector names, seen from a team (Table 19-5): its key. -/
def counterKey (t : Team) (unit idx : Nat) : Nat :=
  let (u, n) := match unit with
    | 0 => (0, t.id.tile * 2 + t.id.side)
    | 1 => (0, t.id.tile * 2 + (1 - t.id.side))
    | 4 => (4, t.id.tile * 2 + t.id.side)
    | 5 => (5, t.id.tile / 8)
    | u => (u, t.id.tile)
  (u * 1024 + n) * 32 + idx

/-- The index under which a unit counts its idle cycles (Table 19-5). -/
def idleIndex (unit : Nat) : Nat := [1, 1, 6, 7, 3, 5].getD unit 0

/-- A stall counter: each unit adds 1 to exactly one of its counters in every cycle, so its idle cycles are the cycles since reset
that it counted to no other cause (R420). -/
def State.stallCount (s : State) (key : Nat) : Nat :=
  let base := key / 32 * 32
  if key % 32 = idleIndex (key / 32 / 1024) then
    s.now - ((List.range 32).filter fun i => base + i != key).foldl (fun n i => n + fget 0 s.tables.counters (base + i)) 0
  else fget 0 s.tables.counters key

/-- STALLRD (R421): all ones when a team of another context shares the unit's tile or cluster. -/
def execStallrd (d a : Reg) (lit : Word) (s : State) : Host.Outcome State Fault Refusal :=
  issue (.stallrd d a lit) (fun o s =>
    match o.act with
    | [] => o.single s
    | _ =>
      let v := o.a 0
      let sel := v.v.toNat % 2 ^ 32
      let unit := bits sel 15 8
      let idx := bits sel 7 0
      let near (t : Team) : Bool := if unit = 5 then t.id.tile / 8 == o.t.id.tile / 8 else t.id.tile == o.t.id.tile
      let shared := s.allTeams.any fun t => near t && t.id.ctx != o.t.id.ctx
      if v.p then .rollback 19 (maskOf o.act) [] false
      else match stallTop unit with
      | none => .trap 73 (maskOf o.act) [] false none
      | some top =>
        if top < idx || sel / 2 ^ 16 != 0 then .trap 73 (maskOf o.act) [] false none
        else
          let n : Dword := if shared then BitVec.allOnes 64 else BitVec.ofNat 64 (s.stallCount (counterKey o.t unit idx))
          o.single (o.commit s (o.toAll ⟨n, false⟩))) s

end Sys2Proof.Machine
end

