-- ==== Sys2Proof/Machine/Equivalence.lean ====
section
/-! DEFINITION. The instructions of class 0xA as they issue (R344-R359); the engine is in Machine/EquivalenceEngine.lean. -/

namespace Sys2Proof.Machine

def State.forest? (s : State) (fid : Nat) : Option Forest := s.eq.forests.find? (·.fid == fid)
def State.modForest (s : State) (fid : Nat) (f : Forest → Forest) : State :=
  { s with eq := { s.eq with forests := modifyWhere (fun x => x.fid == fid) f s.eq.forests } }

/-- The team's current forest, while it is live (R345). -/
def State.currentForest (s : State) (t : Team) : Option Forest := t.arch.forest.bind s.forest?

/-- The byte ranges of a forest's arrays and log. -/
def Forest.ranges (f : Forest) : List (Nat × Nat) := [(f.parent, 4 * f.count), (f.size, 4 * f.count), (f.log, 16 * f.logCap)]

/-- A descriptor as it is read (Table 16-1), if it keeps the table's limits; the third part is its state. -/
def parseForest (bs : List Byte) (fid engine ctx va key : Nat) : Option Forest :=
  let f (off n : Nat) : Nat := ofBytes ((bs.drop off).take n)
  let addr (a : Nat) : Bool := a < 2 ^ 48 && a % 64 == 0
  if addr (f 0 8) && addr (f 8 8) && addr (f 24 8) && 1 ≤ f 16 4 && f 16 4 ≤ 2 ^ 31 && f 32 4 ≤ 2 ^ 24 && f 36 4 == 0 && f 52 8 == 0 && f 60 4 == 0 then
    some ⟨fid, engine, ctx, va, key, f 16 4, f 0 8, f 8 8, f 24 8, f 32 4, 0, 0, f 20 4, f 40 4, f 44 4, []⟩
  else none

/-- Do ranges overlap each other? -/
def anyMeet : List (Nat × Nat) → Bool
  | [] => false
  | (a, n) :: rest => (rest.any fun (b, m) => n != 0 && m != 0 && rangesMeet a n b m) || anyMeet rest

/-- R337 against the leaves present now: a page that is present must be readable, writable and not effectful. -/
def State.forestLegal (s : State) (tile ctx : Nat) (f : Forest) : Bool :=
  !anyMeet ((f.va, 64) :: f.ranges) && f.ranges.all fun (a, n) =>
    n == 0 || (isTranslated (a + n - 1) && (List.range ((a + n - 1) / 4096 + 1 - a / 4096)).all fun i =>
      match s.translate tile ctx ((a / 4096 + i) * 4096) { Need.rw with noEf := true } with
      | .bad _ => false
      | _ => true)

/-- Holding a write or a result of a request, with the forest as it stands (R363). -/
def State.eqHold (s : State) (f : Forest) (rid wid va pa n v : Nat) (p result : Bool) : State :=
  let (hid, s) := fresh s
  { s with eq := { s.eq with holds := s.eq.holds ++ [⟨hid, f.engine, rid, wid, s.now, va, pa, n, v, p, result, (s.forest? f.fid).getD f⟩] } }

/-- Bytes of a descriptor that a release writes, from `classes` to `state`. -/
def releaseBytes : Nat := 32

/-- Is a forest's release under way: formed, not yet performed at the descriptor's home? -/
def State.leavingForest (s : State) (f : Forest) : Bool := s.eq.holds.any fun h => h.rid == 0 && h.before.fid == f.fid && h.n == releaseBytes

/-- The state field of a descriptor as EQSET finds it: the owner's held write, else what the home has. -/
def State.forestState (s : State) (key : Nat) : Nat := match s.eq.holds.find? fun h => h.rid == 0 && h.pa == key + 48 with
  | some h => h.v
  | none => s.mem.nat (key + 48) 4

/-- EQSET (R346): the descriptor, which lies in translated memory (R336, log entry 127), becomes the team's current forest; a forest that
is not live is taken by the local engine, whose write of the state is held (R363). -/
def execEqset (a : Reg) (lit : Word) (s : State) : Host.Outcome State Fault Refusal :=
  issue (.eqset a lit) (fun o s =>
    let l := o.act.headD 0
    let t := o.t
    let all := maskOf o.act
    let o' := { o with uniform := true, lanes := [l] }
    match o'.check s [(l, o.a l)] 64 64 28 Need.rw none fun _ => none with
    | .bad r => r
    | .ok [] faults => o'.access s [] faults Need.rw 1 0 false
    | .ok (x :: _) _ =>
      let hold (s : State) (fid : Nat) : Res := o.single { s with cur := s.cur.setArch fun r => { r with forest := some fid } }
      let local_ := t.id.tile / 8
      let st := s.forestState x.key
      let live := s.eq.forests.find? fun f => f.key == x.key && f.engine + 1 == st
      if isScratch x.ea then .trap 63 all [] false none
      else if ((s.currentForest t).map (·.key)) == some x.key then o.single s
      else if live.any s.leavingForest then .stall s 14
      else if st = 0 then
        match parseForest (s.mem.read x.key 64) s.nextId local_ t.id.ctx x.ea x.key with
        | none => .trap 63 all [] false none
        | some f =>
          if !s.forestLegal t.id.tile t.id.ctx f then .trap 63 all [] false none
          else if 8 ≤ (s.eq.forests.filter (·.engine == local_)).length then .trap 65 all [] false none
          else
            let (fid, s) := fresh s
            let s := ({ s with eq := { s.eq with forests := s.eq.forests ++ [f] } } : State).eqHold f 0 0 (f.va + 48) (f.key + 48) 4 (local_ + 1) false false
            hold s fid
      else if 64 < st then .trap 63 all [] false none
      else match live with
        | some f => hold s f.fid
        | none => .trap 63 all [] false none) s

/-! ### Walks (R347, R348) -/

/-- Walks that an engine has under way or that its accepted requests have still to start. -/
def State.walksOf (s : State) (engine : Nat) : Nat :=
  (s.eq.reqs.filter fun r => r.kind ≤ 2 && ((s.forest? r.forest).map (·.engine)) == some engine).foldl (fun n r => n + (r.lanes.length - r.results.length)) 0

/-- A request for the owner of the current forest, held in the Coolbox. -/
def Issue.request_ (o : Issue) (s : State) (kind fid : Nat) (pid : Option Nat) (block : List PWord) (lanes : List (Nat × PWord × PWord)) : State :=
  let (rid, s) := fresh s
  let r : EqReq := ⟨rid, kind, fid, o.t.id.uid, o.t.id.tile, o.t.id.side, o.t.id.ctx, o.g.pc, o.word, s.now, pid, block, lanes, none, 0, [], 0, [], false⟩
  o.hold { s with eq := { s.eq with reqs := s.eq.reqs ++ [r] } } 3 (.forest rid)

/-- An engine starts the walks of accepted requests in their order while it has fewer than 256 under way (R343). -/
def State.startWalks (s : State) (engine : Nat) : State :=
  let ours (rid : Nat) : Bool := (s.eq.reqs.find? fun r => r.rid == rid).any fun r => ((s.forest? r.forest).map (·.engine)) == some engine
  let reqs := sortBy (fun r : EqReq => r.arrived.getD 0) (s.eq.reqs.filter fun r => decide (r.kind ≤ 2) && r.arrived.isSome && ours r.rid)
  let waiting := reqs.flatMap fun r =>
    (r.lanes.filter fun (l, _) => !r.results.contains l && !s.eq.walks.any fun w => w.rid == r.rid && w.lane == l).map fun x => (r, x)
  let room := 256 - (s.eq.walks.filter fun w => ours w.rid).length
  (waiting.take room).foldl (fun s (r, l, x, y) =>
    let (wid, s) := fresh s
    { s with eq := { s.eq with walks := s.eq.walks ++ [⟨wid, r.rid, l, r.kind, x.w.toNat, y.w.toNat, 0, 0, false, .find false x.w.toNat [], false, s.now⟩] } }) s

/-- UNITE, FIND and SAME: elements checked, one walk for each active lane (or one for the team). -/
def Issue.walks (o : Issue) (s : State) (kind : Nat) (x y : Nat → PVal) : Res :=
  match s.currentForest o.t with
  | none => .trap 63 (maskOf o.act) [] false none
  | some f =>
    let p := o.lanes.filter fun l => (x l).p || (y l).p
    let el (v : PVal) : Nat := v.v.toNat % 2 ^ 32
    let bad (l : Nat) : Bool := f.count ≤ el (x l) || f.count ≤ el (y l)
    let worst (l : Nat) : Nat := if f.count ≤ el (x l) then el (x l) else el (y l)
    let out := o.lanes.filter bad
    let busy := s.walksOf f.engine
    if !p.isEmpty then .rollback 19 (o.maskFor p) [] false
    else if !out.isEmpty then
      let ls := if o.uniform then o.act else out
      .trap 64 (maskOf ls) (ls.map fun l => (l, BitVec.ofNat 64 (if o.uniform then worst (out.headD 0) else worst l))) false none
    else if o.lanes.isEmpty then o.plain s
    else if busy != 0 && 256 < busy + o.lanes.length then .stall s 14
    else if !o.room s 3 then .stall s 9
    else
      let w (v : PVal) : PWord := ⟨v.v.extractLsb' 0 32, v.p⟩
      let rs := o.dests o.lanes 1 ++ if o.uniform then (o.act.drop 1).map fun k => ⟨k, .none, 0, 0, false, [], none, 0⟩ else []
      let (k, s) := draw s
      let (pid, s) := o.pend s rs (max (s.now + Config.Q) (s.now + 1 + k)) false false []
      let s := s.modPend o.t.id.uid pid fun p => { p with bcast := o.uniform, hasCc := kind == 0 }
      o.plain (o.request_ s kind f.fid (some pid) [] (o.lanes.map fun l => (l, w (x l), w (y l))))

/-- UNITE (R348). -/
def execUnite (d a : Reg) (l : BitVec 4) (lit : Word) (s : State) : Host.Outcome State Fault Refusal :=
  issue (.unite d a l lit) (fun o s => o.walks s 0 o.d o.a) s
/-- FIND (R348). -/
def execFind (d a : Reg) (l : BitVec 4) (lit : Word) (s : State) : Host.Outcome State Fault Refusal :=
  issue (.find d a l lit) (fun o s => o.walks s 1 o.a o.a) s
/-- SAME (R348). -/
def execSame (d a : Reg) (l : BitVec 4) (lit : Word) (s : State) : Host.Outcome State Fault Refusal :=
  issue (.same d a l lit) (fun o s => o.walks s 2 o.d o.a) s

/-! ### RELABEL, marks, EQSIZE and EQFENCE -/

/-- Does a relabel record break Table 16-8 (R359)? -/
def relabelBad (r : List Word) : Bool :=
  let f := rfield_ r
  let func := f 0 2 0
  let vt := f 0 9 8
  let flt := vt = 1 || vt = 2
  f 0 31 17 != 0 || (f 0 16 16 = 1 && !(3 ≤ func && flt)) || f 0 15 15 != 0 || 4 < f 0 14 12 || (f 0 14 12 != 0 && !(func = 3 && flt)) ||
  f 0 11 10 != 0 || vt = 3 || (func < 3 && vt != 0) || f 0 7 5 != 0 || f 0 3 3 != 0 || 5 < func || f 4 31 0 != 0 || f 8 63 48 != 0 ||
  f 8 47 0 % 64 != 0 || f 16 63 48 != 0 || f 16 47 0 % 64 != 0 || (func < 3 && f 16 47 0 != 0) || f 24 63 48 != 0
where
  /-- Bits of a 32-byte record counted from a byte. -/
  rfield_ (r : List Word) (off hi lo : Nat) : Nat :=
    bits (r.zipIdx.foldl (fun n (w, i) => n + w.toNat * 2 ^ (32 * i)) 0) (8 * off + hi) (8 * off + lo)

/-- RELABEL (R359). -/
def execRelabel (a : Reg) (lit : Word) (s : State) : Host.Outcome State Fault Refusal :=
  issue (.relabel a lit) (fun o s =>
    match s.currentForest o.t, o.lanes with
    | none, _ => .trap 63 (maskOf o.act) [] false none
    | some _, [] => o.single s
    | some f, l :: _ =>
      let all := maskOf o.act
      let block := readRegs o.t l o.ra 8
      let r := block.map (·.w)
      let ctr := (r.getD 6 0).toNat + (r.getD 7 0).toNat % 2 ^ 16 * 2 ^ 32
      if block.any (·.p) then .rollback 19 all [] false
      else if relabelBad r then .trap 4 all [] false none
      else if ctr % 8 != 0 || isScratch ctr then .trap 71 all [] false none
      else if !o.room s 3 then .stall s 9
      else o.single (o.request_ s 3 f.fid none block [(l, PWord.zero, PWord.zero)])) s

/-- A mark operation (R356): held as one request; the team issues nothing until d is written. -/
def Issue.mark (o : Issue) (s : State) (kind : Nat) : Res :=
  match s.currentForest o.t with
  | none => .trap 63 (maskOf o.act) [] false none
  | some f =>
    if o.lanes.isEmpty then o.single s
    else if !o.room s 3 then .stall s 9
    else
      let (pid, s) := o.pend s (o.destsAll 1) (s.now + Config.Q) false false []
      let s := s.modPend o.t.id.uid pid fun p => { p with bcast := true }
      o.single (o.request_ s kind f.fid (some pid) [] [])

/-- EQSNAP (R356). -/
def execEqsnap (d : Reg) (lit : Word) (s : State) : Host.Outcome State Fault Refusal := issue (.eqsnap d lit) (fun o s => o.mark s 4) s
/-- EQUNDO (R356). -/
def execEqundo (d : Reg) (lit : Word) (s : State) : Host.Outcome State Fault Refusal := issue (.equndo d lit) (fun o s => o.mark s 5) s
/-- EQDROP (R356). -/
def execEqdrop (d : Reg) (lit : Word) (s : State) : Host.Outcome State Fault Refusal := issue (.eqdrop d lit) (fun o s => o.mark s 6) s

/-- A class-size register (Table 16-5). -/
def Forest.register (f : Forest) (n : Nat) : Nat := [f.classes, f.maxSize, f.maxRoot, f.count, f.logFill].getD n 0

/-- EQSIZE (R352): the read travels to the owner, and the team issues nothing until its value lands. -/
def execEqsize (d : Reg) (lit : Word) (s : State) : Host.Outcome State Fault Refusal :=
  issue (.eqsize d lit) (fun o s =>
    match s.currentForest o.t with
    | none => .trap 63 (maskOf o.act) [] false none
    | some f =>
      if o.lanes.isEmpty then o.single s
      else
        let (pid, s) := o.pend s (o.destsAll 1) (s.now + Config.Q) false false []
        let s := s.modPend o.t.id.uid pid fun p => { p with bcast := true }
        let (k, s) := draw s
        let (rid, s) := fresh s
        let r : EqReq := ⟨rid, 7, f.fid, o.t.id.uid, o.t.id.tile, o.t.id.side, o.t.id.ctx, o.g.pc, o.word, s.now, some pid, [⟨lit, false⟩], [],
          some (s.now + 1 + k), 0, [], 0, [], false⟩
        o.single { s with eq := { s.eq with reqs := s.eq.reqs ++ [r] } }) s

/-- Has a request, or a write of it that the engine still holds, to be awaited? -/
def State.eqBusy (s : State) (rids : List Nat) : Bool :=
  (s.eq.reqs.any fun r => rids.contains r.rid) || s.eq.holds.any fun h => rids.contains h.rid

/-- EQFENCE (R353): it waits for the requests that the owner accepted before it, then writes back and drops the tile's lines of the forest
and waits for those write-backs (a list that begins with 0). -/
def execEqfence (s : State) : Host.Outcome State Fault Refusal :=
  issue .eqfence (fun o s =>
    let t := o.t
    match s.currentForest t with
    | none => .trap 63 (maskOf o.act) [] false none
    | some f =>
      let landed (ids : List Nat) : List Nat × State := f.ranges.foldl (fun (ids, s) (a, n) =>
        let (i, s) := s.flushRange t.id.tile t.id.ctx t.id.uid s.now a (a + n) true
        (ids ++ i, s)) (ids, s)
      let pending := t.pend.any fun p => (opcode p.word).toNat / 16 = 0x50
      let held := s.coolbox.any fun e => e.uid == t.id.uid && match e.eff with
        | .forest _ => true
        | _ => false
      if pending || held then .stall s 8
      else match t.fence with
      | none =>
        let rids := (s.eq.reqs.filter fun r => r.forest == f.fid && r.arrived.isSome).map (·.rid)
        let rids := rids ++ (s.eq.holds.filter fun h => h.engine == f.engine && h.rid != 0).map (·.rid)
        .stall { s with cur := { s.cur with fence := some rids } } 8
      | some rids =>
        if s.eqBusy (rids.filter (· != 0)) || s.waitsFor rids then .stall s 8
        else match rids with
        | 0 :: _ => o.single { s with cur := { s.cur with fence := none } }
        | _ =>
          let (ids, s) := landed []
          if ids.isEmpty then o.single { s with cur := { s.cur with fence := none } }
          else .stall { s with cur := { s.cur with fence := some (0 :: ids) } } 8) s

end Sys2Proof.Machine
end

