-- ==== Sys2Proof/Machine/Binding.lean ====
section
/-! DEFINITION. BIND, UNBIND, TLBINV and WCS (R66, R67, R185, R331-R334), and the update of the binding table. -/

namespace Sys2Proof.Machine

/-- Does a region of `n` bytes lie in the translated region? -/
def inTranslated (a n : Nat) : Bool := a + n ≤ Config.scratchBase

/-- A trap of BIND or UNBIND whose value is the region base. -/
def Issue.bindTrap (o : Issue) (cause base : Nat) : Res :=
  .trap cause (maskOf o.act) (o.act.map fun l => (l, BitVec.ofNat 64 base)) false none

/-- BIND (R332): the checks at issue, then a held request. -/
def execBind (a b : Reg) (lit : Word) (s : State) : Host.Outcome State Fault Refusal :=
  issue (.bind a b lit) (fun o s =>
    match o.lanes with
    | [] => o.single s
    | l :: _ =>
      let ws := readRegs o.t l o.ra 4
      let pair (i : Nat) : Nat := (pairVal (ws.getD i PWord.zero) (ws.getD (i + 1) PWord.zero)).v.toNat
      let base := pair 0
      let obj := pair 2
      let pages := (o.b l).v.toNat % 2 ^ 32
      if ws.any (·.p) || (o.b l).p then .rollback 19 (maskOf o.act) [] false
      else if base % 4096 != 0 || obj % 8 != 0 then o.bindTrap 28 (if base % 4096 != 0 then base else obj)
      else if pages = 0 || 2 ^ 28 < pages then .trap 4 (maskOf o.act) [] false none
      else if !inTranslated base (4096 * pages) || !inTranslated obj 8 then
        o.bindTrap 27 (if !inTranslated base (4096 * pages) then base else obj)
      else if !o.room s 3 then .stall s 9
      else o.single (o.hold s 3 (.bind base pages obj (maskOf o.act)))) s

/-- UNBIND (R332). -/
def execUnbind (a : Reg) (lit : Word) (s : State) : Host.Outcome State Fault Refusal :=
  issue (.unbind a lit) (fun o s =>
    match o.lanes with
    | [] => o.single s
    | l :: _ =>
      let base := (o.a l).v.toNat
      if (o.a l).p then .rollback 19 (maskOf o.act) [] false
      else if base % 4096 != 0 then o.bindTrap 28 base
      else if !inTranslated base 4096 then o.bindTrap 27 base
      else if !o.room s 3 then .stall s 9
      else o.single (o.hold s 3 (.unbind base (maskOf o.act)))) s

/-! ### The table (R332) -/

/-- Writing a binding table entry: valid, object, pages and base of Table 15-6. -/
def State.setBinding (s : State) (c i : Nat) (v : Nat) : State :=
  match s.ctx? c with
  | none => s
  | some x => { s with mem := s.mem.write (x.bindBase + 16 * i) (toBytes 16 v) }

/-- The valid entries of a context's table with their indices. -/
def State.bindings (s : State) (c : Nat) : List (Nat × Nat × Nat × Nat) :=
  (List.range 1024).filterMap fun i => (s.binding c i).map fun e => (i, e)

/-- BIND at the table: the cause of its failure, if it fails. -/
def State.bindNow (s : State) (c base pages obj : Nat) : Option Nat × State :=
  let all := s.bindings c
  if all.any fun (_, b, n, o) => b == base && n == 4096 * pages && o == obj then (none, s)
  else if all.any fun (_, b, n, _) => rangesMeet base (4096 * pages) b n then (some 33, s)
  else match (List.range 1024).find? fun i => (s.binding c i).isNone with
    | none => (some 34, s)
    | some i => (none, s.setBinding c i (2 ^ 127 + obj * 2 ^ 64 + (pages - 1) * 2 ^ 36 + base / 4096))

/-- UNBIND at the table. -/
def State.unbindNow (s : State) (c base : Nat) : Option Nat × State :=
  match (s.bindings c).find? fun (_, b, _, _) => b == base with
  | none => (some 35, s)
  | some (i, _) => (none, s.setBinding c i 0)

/-- A trap to be met at a boundary joins one of the same instruction and cause: one mask holds the failing lanes (R246, R292). -/
def joinDeferred (d : Deferred) : List Deferred → List Deferred
  | [] => [d]
  | e :: es =>
    if e.cause = d.cause && e.pc = d.pc && e.time = d.time && e.replay = d.replay then { e with mask := e.mask ||| d.mask, tval := e.tval ++ d.tval } :: es
    else e :: joinDeferred d es

/-- A trap that is met at the team's next instruction boundary (R246); a team that has left is not told. -/
def State.defer (s : State) (uid cause : Nat) (pc : BitVec 48) (time : Nat) (word : Word) (mask : LaneMask) (tval : List (Nat × Dword)) : State :=
  s.modTeam uid fun t => { t with deferred := joinDeferred ⟨cause, pc, time, word, mask, tval, false⟩ t.deferred }

/-- A deferred trap of engine work whose team may have ended: its record is then posted without parking (R273, R360). -/
def State.deferFor (s : State) (uid tile ctx : Nat) (d : Deferred) : State :=
  let alive (t : Team) : Bool := t.id.uid == uid && !t.ending
  if uid != 0 && (s.allTeams ++ s.disp.images).any alive then s.modTeam uid fun t => { t with deferred := joinDeferred d t.deferred }
  else
    let (id, s) := fresh s
    let t := { Team.empty with id := { Team.empty.id with uid := uid, tile := tile, ctx := ctx } }
    let record := trapRecord t d.cause d.pc d.time d.word 0 ((d.tval.map (·.2)).headD 0) false
    { s with postings := s.postings ++ [⟨id, .trap, some ctx, t.place, 0, record, 0, 0⟩] }

/-- The lanes of a team that have not ended, resident or pre-empted. -/
def State.collectiveMask (s : State) (uid : Nat) : LaneMask :=
  (((s.team? uid).or (s.disp.images.find? fun t => t.id.uid == uid)).map fun t => t.allGroups.foldl (fun m g => m ||| g.mask) 0).getD 0

/-- The team of a number has not ended. -/
def State.alive (s : State) (uid : Nat) : Bool :=
  uid != 0 && (s.allTeams ++ s.disp.images).any fun t => t.id.uid == uid && !t.ending

/-- The tiles' binding caches of a context after an update of its table, whose entries were `es` before: each tile that runs the context
keeps them for a time which the spec leaves open; the acknowledgement follows the last (R332, R333). -/
def State.spreadBinding (s : State) (c : Nat) (es : List (Nat × Nat × Nat)) : Nat × State :=
  let tiles := (((s.allTeams.filter fun t => t.id.ctx == c).map (·.id.tile)).eraseDups)
  let (last, fresh_, s) := tiles.foldl (fun (last, xs, s) t =>
    let (d, s) := draw s
    (max last d, xs ++ [(t, s.now + d, es)], s)) (0, ([] : List (Nat × Nat × List (Nat × Nat × Nat))), s)
  (last, s.modCtx c fun x => { x with bindOld := (x.bindOld.filter fun (_, u, _) => decide (s.now < u)) ++ fresh_ })

/-- BINDING_UPDATE (R332): the request at the head of its queue at the table; its acknowledgement goes back. -/
def execBindingUpdate (id : Nat) (s : State) : Host.Outcome State Fault Refusal :=
  match s.net.find? (·.id == id) with
  | none => .next s
  | some x =>
    let before := s.bindingList x.ctx
    let done (r : Option Nat × State) (base : Nat) (mask : LaneMask) : State :=
      let (failed, s) := r
      let (last, s) := s.spreadBinding x.ctx before
      let (d, s) := draw s
      let s := match failed with
        | some c => s.defer x.uid c x.pc x.issue x.word mask ((lanesOf 1024 mask).map fun l => (l, BitVec.ofNat 64 base))
        | none => s
      { s with net := (s.net.filter fun y => y.id != id) ++ [{ x with due := s.now + max last d, act := .ack none [] 0 none base 0 }] }
    .next (match x.act with
      | .bind base pages obj m => done (s.bindNow x.ctx base pages obj) base m
      | .unbind base m => done (s.unbindNow x.ctx base) base m
      | _ => s)

/-! ### TLBINV and WCS -/

/-- The requests of a tile that were translated through the TLB entries of a list and are not yet performed. -/
def State.through (s : State) (tile : Nat) (es : List Tlb) : List Nat :=
  (s.net.filter fun x => x.tile == tile && es.any fun e =>
    x.ctx == e.ctx && decide (bits e.pte.toNat 47 12 * 4096 ≤ x.pa) && decide (x.pa < bits e.pte.toNat 47 12 * 4096 + e.size)).map (·.id)

/-- TLBINV (R334): a team's own traps PRIVILEGED; a privileged one removes the matching entries, waits for the requests
translated through them, then clears busy. -/
def execTlbinv (a b : Reg) (lit : Word) (s : State) : Host.Outcome State Fault Refusal :=
  match s.privReady with
  | some ⟨key, w, waits⟩ =>
    match waits with
    | some _ => .next (s.privDone key)
    | none =>
      let tile := key / 64
      let page := bits (s.window key).issueA.toNat 47 12 * 4096
      let sel := (s.window key).issueB.toNat
      let hit (e : Tlb) : Bool := e.tile == tile && (bit sel 31 || (e.ctx == bits sel 16 0 && (bit sel 30 || (decide (e.va ≤ page) && decide (page < e.va + e.size)))))
      let ids := s.through tile (s.mem.tlb.filter hit)
      .next { s with
        mem := { s.mem with
          tlb := s.mem.tlb.filter fun e => !hit e
          table := s.mem.table.filter fun e => !hit ⟨e.tile, e.ctx, e.va, levelSize e.level, 0⟩ }
        tables := { s.tables with priv := s.tables.priv.map fun p => if p.key = key then ⟨key, w, some ids⟩ else p } }
  | none => issue (.tlbinv a b lit) (fun o s => o.plain s) s

/-- WCS (R67): a team's own traps PRIVILEGED; a privileged one writes the tile's control store at once. -/
def execWcs (a b : Reg) (lit : Word) (s : State) : Host.Outcome State Fault Refusal :=
  match s.privReady with
  | some ⟨key, _, _⟩ =>
    let n := bits (s.window key).issueA.toNat 11 0
    let w : Word := (s.window key).issueB.extractLsb' 0 32
    .next ({ s with tables := { s.tables with store := fput 0 s.tables.store (key / 64 * 4096 + n) w } }.privDone key)
  | none => issue (.wcs a b lit) (fun o s => o.plain s) s

end Sys2Proof.Machine
end

