-- ==== Sys2Proof/Machine/FloatOps.lean ====
section
/-! DEFINITION. Floating-point formats, exact values, rounding and the operations on them (R127-R134, R140-R143,
R160-R170, R481). A finite value is kept exactly, as a whole number and a power of two; a quotient or a root carries
a sticky last bit far below the rounding position. -/

namespace Sys2Proof.Machine

/-- A format (Tables 6-1 and 6-3): exponent bits (0: a scaled integer), mantissa bits, bias, top codes (0 IEEE-like,
1 one NaN code, 2 finite saturating), subnormals, a sign bit, and the total width. -/
structure Fmt where
  e : Nat
  m : Nat
  bias : Int
  top : Nat
  sub : Bool
  sign : Bool
  width : Nat
deriving DecidableEq, Repr

def Fmt.f32 : Fmt := ⟨8, 23, 127, 0, true, true, 32⟩
def Fmt.f64 : Fmt := ⟨11, 52, 1023, 0, true, true, 64⟩
def Fmt.f16 : Fmt := ⟨5, 10, 15, 0, true, true, 16⟩
def Fmt.bf16 : Fmt := ⟨8, 7, 127, 0, true, true, 16⟩

/-- The format of a descriptor (Table 6-3). -/
def Fmt.ofDescriptor (w : Word) : Fmt :=
  let v := w.toNat
  ⟨bits v 11 8, bits v 15 12, ((ext w 24 8 : BitVec 8)).toInt, bits v 19 18, bit v 17, bit v 16, bits v 3 0⟩

/-- A valid descriptor (R131, R132): its fields in range, the width their sum, E up to 7, M up to 8. -/
def descriptorValid (w : Word) : Bool :=
  let f := Fmt.ofDescriptor w
  bits w.toNat 23 20 == 0 && bits w.toNat 7 4 == 0 && f.top != 3 && 2 ≤ f.width && f.width ≤ 8 && f.e ≤ 7 && f.m ≤ 8 &&
  f.width == b2n f.sign + f.e + f.m &&
  (if f.e = 0 then f.top == 0 && !f.sub else f.top != 0 || (2 ≤ f.e && 1 ≤ f.m))

/-- The format of a scalar type code with the descriptor of the format register in use (Table 3-5). -/
def fmtOf (t : Nat) (nf : Word) : Fmt :=
  match t with
  | 1 => Fmt.f64
  | 2 | 4 => Fmt.f16
  | 3 | 5 => Fmt.bf16
  | 6 => Fmt.ofDescriptor nf
  | _ => Fmt.f32

/-- An exact value: NaN (signalling or not), an infinity, or (−1)^neg × m × 2^e. -/
inductive Num where
  | nan (signalling : Bool)
  | inf (neg : Bool)
  | fin (neg : Bool) (m : Nat) (e : Int)
deriving DecidableEq, Repr

/-- Exception flags (Table 7-3). -/
def NV : BitVec 5 := 16
def DZ : BitVec 5 := 8
def OF : BitVec 5 := 4
def UF : BitVec 5 := 2
def NX : BitVec 5 := 1

/-- Rounding, flush and saturation as an instruction captured them, with the SEED that a stochastic rounding uses. -/
structure Rm where
  rnd : Nat
  flush : Bool
  sat : Bool
  seed : Nat
deriving DecidableEq, Repr

/-- The exponent, mantissa and sign fields of a code. -/
def Fmt.expOf (f : Fmt) (x : Nat) : Nat := x / 2 ^ f.m % 2 ^ f.e
def Fmt.manOf (f : Fmt) (x : Nat) : Nat := x % 2 ^ f.m
def Fmt.negOf (f : Fmt) (x : Nat) : Bool := f.sign && bit x (f.width - 1)

/-- The value of a code (R133), subnormals as they are. -/
def Fmt.value (f : Fmt) (code : Nat) : Num :=
  let x := code % 2 ^ f.width
  let s := f.negOf x
  if f.e = 0 then
    let n : Int := if s then (x : Int) - 2 ^ f.width else x
    .fin (n < 0) n.natAbs (-f.bias)
  else
    let e := f.expOf x
    let m := f.manOf x
    let all := 2 ^ f.e - 1
    if e = 0 then (if f.sub then .fin s m (1 - f.bias - f.m) else .fin s 0 0)
    else if f.top = 0 && e = all then (if m = 0 then .inf s else .nan (m < 2 ^ (f.m - 1)))
    else if f.top = 1 && e = all && m = 2 ^ f.m - 1 then .nan false
    else .fin s (2 ^ f.m + m) ((e : Int) - f.bias - f.m)

/-- A code is a subnormal. -/
def Fmt.subnormal (f : Fmt) (code : Nat) : Bool := f.e != 0 && f.sub && f.expOf code == 0 && f.manOf code != 0

/-- The value an operand has under the flush setting (R142). -/
def Fmt.read (f : Fmt) (flush : Bool) (code : Nat) : Num :=
  if flush && f.subnormal code then .fin (f.negOf code) 0 0 else f.value code

/-- Bits of a positive number. -/
def bitLen (m : Nat) : Nat := if m = 0 then 0 else Nat.log2 m + 1

/-- `m × 2^e` as a whole multiple of 2^q under a rounding (R140, R141), and whether that is inexact. -/
def roundAt (r : Rm) (neg : Bool) (m : Nat) (e q : Int) : Nat × Bool :=
  if q ≤ e then (m * 2 ^ (e - q).toNat, false)
  else
    let sh := (q - e).toNat
    let lo := m / 2 ^ sh
    let rem := m % 2 ^ sh
    let up := match r.rnd with
      | 1 => false
      | 2 => !neg && rem != 0
      | 3 => neg && rem != 0
      | 4 => decide (2 ^ sh ≤ 2 * rem)
      | 5 => decide (r.seed ≤ rem * 2 ^ 32 / 2 ^ sh)
      | _ => decide (2 ^ sh < 2 * rem) || (2 * rem == 2 ^ sh && lo % 2 == 1)
    (if up then lo + 1 else lo, rem != 0)

/-- The sign bit of a code. -/
def Fmt.signBit (f : Fmt) (neg : Bool) : Nat := if neg && f.sign then 2 ^ (f.width - 1) else 0

/-- The largest finite value, as a mantissa and the exponent field (R133). -/
def Fmt.maxCode (f : Fmt) : Nat :=
  match f.top with
  | 0 => (2 ^ f.e - 2) * 2 ^ f.m + (2 ^ f.m - 1)
  | 1 => 2 ^ (f.e + f.m) - 2
  | _ => 2 ^ (f.e + f.m) - 1

/-- The canonical NaN (R129); a format with top 2 has none. -/
def Fmt.nanCode (f : Fmt) : Nat := if f.top = 0 then (2 ^ f.e - 1) * 2 ^ f.m + 2 ^ (f.m - 1) else 2 ^ (f.e + f.m) - 1

/-- The magnitude code of `k × 2^q`, k having at most m + 1 bits (or being the next power of two), q at or above the
subnormal step. -/
def Fmt.magCode (f : Fmt) (k : Nat) (q : Int) : Nat :=
  let (k, q) := if k = 2 ^ (f.m + 1) then (2 ^ f.m, q + 1) else (k, q)
  if k < 2 ^ f.m then k else (q + f.bias + f.m).toNat * 2 ^ f.m + (k - 2 ^ f.m)

/-- Does IEEE 754 give the largest finite value, not infinity, on overflow under this rounding? -/
def overflowToMax (r : Rm) (neg : Bool) : Bool := r.rnd == 1 || (r.rnd == 2 && neg) || (r.rnd == 3 && !neg)

/-- Rounding a non-zero finite value into a floating format: the code and the conditions (R134, R142, R143, R481). -/
def Fmt.roundFin (f : Fmt) (r : Rm) (neg : Bool) (m : Nat) (e : Int) : Nat × BitVec 5 :=
  let top : Int := (bitLen m : Int) - 1 + e
  let qu := top - f.m
  let minExp := 1 - f.bias
  let (ku, _) := roundAt r neg m e qu
  let tiny := decide (top < minExp) && !(top = minExp - 1 && ku = 2 ^ (f.m + 1))
  if f.sign = false && neg then
    let (k, x) := roundAt r neg m e (max qu (if f.sub then minExp - f.m else minExp))
    if k = 0 then (0, if x then NX else 0) else (0, NV)
  else if r.flush && tiny then (f.signBit neg, UF ||| NX)
  else
    let below := decide (top < minExp)
    let q := if below then (if f.sub then minExp - f.m else minExp) else qu
    let (k, x) := roundAt r neg m e q
    let code := if below && !f.sub then (if k = 0 then 0 else 2 ^ f.m) else f.magCode k q
    if f.maxCode < code then
      let res := match f.top with
        | 0 => if r.sat || overflowToMax r neg then f.maxCode else (2 ^ f.e - 1) * 2 ^ f.m
        | 1 => if r.sat then f.maxCode else f.nanCode
        | _ => f.maxCode
      (f.signBit neg + res, OF ||| NX)
    else (f.signBit neg + code, if !x then 0 else if tiny then UF ||| NX else NX)

/-- Rounding into a scaled integer: clamping to the ends of the range (Table 6-4). -/
def Fmt.roundInt (f : Fmt) (r : Rm) (neg : Bool) (m : Nat) (e : Int) : Nat × BitVec 5 :=
  let (k, x) := roundAt r neg m e (-f.bias)
  let n : Int := if neg then -(k : Int) else k
  let lo : Int := if f.sign then -(2 ^ (f.width - 1)) else 0
  let hi : Int := if f.sign then 2 ^ (f.width - 1) - 1 else 2 ^ f.width - 1
  let code (v : Int) : Nat := (v % 2 ^ f.width).toNat
  if n < lo then (code lo, NV) else if hi < n then (code hi, NV) else (code n, if x then NX else 0)

/-- Rounding any value into a format: the code and the conditions (Tables 6-4 and 6-7). -/
def Fmt.round (f : Fmt) (r : Rm) : Num → Nat × BitVec 5
  | .nan sig =>
    if f.e = 0 || f.top = 2 then (0, NV) else (f.nanCode, if sig then NV else 0)
  | .inf neg =>
    if f.e = 0 then
      (if neg then (if f.sign then 2 ^ (f.width - 1) else 0) else (if f.sign then 2 ^ (f.width - 1) - 1 else 2 ^ f.width - 1), NV)
    else if neg && !f.sign then (0, NV)
    else match f.top with
      | 0 => (f.signBit neg + (2 ^ f.e - 1) * 2 ^ f.m, 0)
      | 1 => (f.signBit neg + (if r.sat then f.maxCode else f.nanCode), NV)
      | _ => (f.signBit neg + f.maxCode, NV)
  | .fin neg m e =>
    if m = 0 then (if f.e = 0 then 0 else f.signBit neg, 0)
    else if f.e = 0 then f.roundInt r neg m e
    else f.roundFin r neg m e

/-! ### Arithmetic on exact values -/

/-- A NaN operand makes the result NaN; a signalling one, or an invalid operation, makes it raise NV. -/
def Num.isNan : Num → Bool
  | .nan _ => true
  | _ => false
def Num.isSnan : Num → Bool
  | .nan s => s
  | _ => false
def Num.isNeg : Num → Bool
  | .nan _ => false
  | .inf n => n
  | .fin n _ _ => n
def Num.neg : Num → Num
  | .nan s => .nan s
  | .inf n => .inf !n
  | .fin n m e => .fin (!n) m e

/-- The sum (R162); `rdn` is round toward −∞, which makes an exact zero sum of opposite signs −0. -/
def Num.add (rdn : Bool) : Num → Num → Num
  | .nan s, y => .nan (s || y.isSnan)
  | x, .nan s => .nan (s || x.isSnan)
  | .inf a, .inf b => if a = b then .inf a else .nan true
  | .inf a, _ => .inf a
  | _, .inf b => .inf b
  | .fin a m e, .fin b n g =>
    if m = 0 && n = 0 then .fin (if a = b then a else rdn) 0 0
    else if m = 0 then .fin b n g
    else if n = 0 then .fin a m e
    else
      let q := min e g
      let x : Int := (m * 2 ^ (e - q).toNat : Nat)
      let y : Int := (n * 2 ^ (g - q).toNat : Nat)
      let t := (if a then -x else x) + (if b then -y else y)
      if t = 0 then .fin rdn 0 0 else .fin (t < 0) t.natAbs q

/-- The product (R162). -/
def Num.mul : Num → Num → Num
  | .nan s, y => .nan (s || y.isSnan)
  | x, .nan s => .nan (s || x.isSnan)
  | .inf a, .inf b => .inf (a != b)
  | .inf a, .fin b n _ => if n = 0 then .nan true else .inf (a != b)
  | .fin a m _, .inf b => if m = 0 then .nan true else .inf (a != b)
  | .fin a m e, .fin b n g => .fin (a != b) (m * n) (e + g)

/-- The quotient to `p` bits and a sticky bit, with DZ where it is raised (Table 7-5). -/
def Num.div (p : Nat) : Num → Num → Num × BitVec 5
  | .nan s, y => (.nan (s || y.isSnan), 0)
  | x, .nan s => (.nan (s || x.isSnan), 0)
  | .inf _, .inf _ => (.nan true, 0)
  | .inf a, .fin b _ _ => (.inf (a != b), 0)
  | .fin a _ _, .inf b => (.fin (a != b) 0 0, 0)
  | .fin a m e, .fin b n g =>
    if n = 0 then (if m = 0 then (.nan true, 0) else (.inf (a != b), DZ))
    else if m = 0 then (.fin (a != b) 0 0, 0)
    else
      let k := p + 4 + bitLen n
      let q := m * 2 ^ k / n
      let st := b2n (m * 2 ^ k % n != 0)
      (.fin (a != b) (2 * q + st) (e - g - k - 1), 0)

/-- The whole square root, bit by bit from `i` down. -/
def isqrtFrom (n : Nat) : Nat → Nat → Nat
  | 0, r => r
  | i + 1, r => isqrtFrom n i (if (r + 2 ^ i) * (r + 2 ^ i) ≤ n then r + 2 ^ i else r)
def isqrt (n : Nat) : Nat := isqrtFrom n (bitLen n / 2 + 1) 0

/-- The square root to `p` bits and a sticky bit (Table 7-5). -/
def Num.sqrt (p : Nat) : Num → Num
  | .nan s => .nan s
  | .inf n => if n then .nan true else .inf false
  | .fin n m e =>
    if m = 0 then .fin n 0 0
    else if n then .nan true
    else
      let odd := (e % 2 != 0)
      let m := if odd then 2 * m else m
      let e := if odd then e - 1 else e
      let k := p + 4
      let x := m * 2 ^ (2 * k)
      let r := isqrt x
      .fin false (2 * r + b2n (r * r != x)) (e / 2 - k - 1)

/-- Is x below y, −0 and +0 being equal? Neither is a NaN. -/
def Num.lt : Num → Num → Bool
  | .inf a, y => a && y != .inf true
  | x, .inf b => !b && x != .inf false
  | .fin a m e, .fin b n g =>
    let q := min e g
    let x : Int := (m * 2 ^ (e - q).toNat : Nat)
    let y : Int := (n * 2 ^ (g - q).toNat : Nat)
    decide ((if a then -x else x) < (if b then -y else y))
  | _, _ => false

/-- The order of minimum and maximum: −0 below +0 (R164). -/
def Num.below (x y : Num) : Bool :=
  x.lt y || (!y.lt x && x.isNeg && !y.isNeg)

/-- The relation of a comparison as codes (Table 7-4). -/
def Num.relation (x y : Num) : Codes :=
  if x.isNan || y.isNan then ⟨false, false, true, true, false⟩
  else if x.lt y then ⟨true, false, false, false, false⟩
  else if y.lt x then ⟨false, false, true, false, false⟩
  else ⟨false, true, true, false, false⟩

/-- A value scaled by a power of two; beyond ±8,192 nothing changes in any format. -/
def Num.scale (x : Num) (n : Int) : Num :=
  match x with
  | .fin s m e => .fin s m (e + max (-8192) (min 8192 n))
  | x => x

/-- A value rounded to an integer, as its sign and magnitude. -/
def Num.toWhole (r : Rm) : Num → Bool × Nat
  | .fin s m e => (s, (roundAt r s m e 0).1)
  | _ => (false, 0)

/-- Operations on codes of one format: each reads its operands under flush, computes exactly and rounds once. -/
def Fmt.fadd (f : Fmt) (r : Rm) (x y : Nat) : Nat × BitVec 5 :=
  f.round r ((f.read r.flush x).add (r.rnd == 3) (f.read r.flush y))
def Fmt.fsub (f : Fmt) (r : Rm) (x y : Nat) : Nat × BitVec 5 :=
  f.round r ((f.read r.flush x).add (r.rnd == 3) (f.read r.flush y).neg)
def Fmt.fmul (f : Fmt) (r : Rm) (x y : Nat) : Nat × BitVec 5 :=
  f.round r ((f.read r.flush x).mul (f.read r.flush y))
def Fmt.fma (f : Fmt) (r : Rm) (d x y : Nat) : Nat × BitVec 5 :=
  f.round r (((f.read r.flush x).mul (f.read r.flush y)).add (r.rnd == 3) (f.read r.flush d))
def Fmt.fnma (f : Fmt) (r : Rm) (d x y : Nat) : Nat × BitVec 5 :=
  f.round r ((f.read r.flush d).add (r.rnd == 3) ((f.read r.flush x).mul (f.read r.flush y)).neg)
def Fmt.fdiv (f : Fmt) (r : Rm) (x y : Nat) : Nat × BitVec 5 :=
  let (q, fl) := (f.read r.flush x).div f.m (f.read r.flush y)
  let (c, fl') := f.round r q
  (c, fl ||| fl')
def Fmt.fsqrt (f : Fmt) (r : Rm) (x : Nat) : Nat × BitVec 5 := f.round r ((f.read r.flush x).sqrt f.m)
def Fmt.frcp (f : Fmt) (r : Rm) (x : Nat) : Nat × BitVec 5 :=
  let (q, fl) := (Num.fin false 1 0).div f.m (f.read r.flush x)
  let (c, fl') := f.round r q
  (c, fl ||| fl')

/-- An operand's bits, or the zero it is read as under flush. -/
def Fmt.flushed (f : Fmt) (flush : Bool) (x : Nat) : Nat :=
  if flush && f.subnormal x then f.signBit (f.negOf x) else x % 2 ^ f.width

/-- FMIN, FMAX (`num`: a NaN yields to a number) and FMINM, FMAXM (R164). -/
def Fmt.minMax (f : Fmt) (r : Rm) (greater num : Bool) (x y : Nat) : Nat × BitVec 5 :=
  let a := f.read r.flush x
  let b := f.read r.flush y
  let fl := if a.isSnan || b.isSnan then NV else 0
  let res :=
    if a.isNan && b.isNan then f.nanCode
    else if a.isNan then (if num then f.flushed r.flush y else f.nanCode)
    else if b.isNan then (if num then f.flushed r.flush x else f.nanCode)
    else if greater then (if a.below b then f.flushed r.flush y else f.flushed r.flush x)
    else (if b.below a then f.flushed r.flush y else f.flushed r.flush x)
  (res, fl)

/-- FABS, FNEG and FCPYS act on the sign bit only (R165). -/
def Fmt.withSign (f : Fmt) (x : Nat) (neg : Bool) : Nat := x % 2 ^ (f.width - 1) + f.signBit neg

/-- FCLASS (R167). -/
def Fmt.classMask (f : Fmt) (x : Nat) : Nat :=
  let s := f.negOf x
  match f.value x with
  | .nan sig => if sig then 256 else 512
  | .inf _ => if s then 1 else 128
  | .fin _ m _ =>
    if m = 0 then (if s then 8 else 16)
    else if f.subnormal x then (if s then 4 else 32) else (if s then 2 else 64)

/-- FRINT (R168). -/
def Fmt.frint (f : Fmt) (r : Rm) (x : Nat) : Nat × BitVec 5 :=
  match f.read r.flush x with
  | .fin s m e =>
    if m = 0 then (f.signBit s, 0)
    else if 0 ≤ e then (x % 2 ^ f.width, 0)
    else
      let (k, _) := roundAt r s m e 0
      if k = 0 then (f.signBit s, 0) else ((f.round { r with flush := false } (.fin s k 0)).1, 0)
  | v => f.round r v

/-- FGETX: floor(log2 |a|) in `n` bits, or the special results of Table 7-6. -/
def Fmt.fgetx (f : Fmt) (r : Rm) (n : Nat) (x : Nat) : Nat × BitVec 5 :=
  match f.read r.flush x with
  | .nan _ => (2 ^ (n - 1), NV)
  | .inf _ => (2 ^ (n - 1) - 1, NV)
  | .fin _ m e =>
    if m = 0 then (2 ^ (n - 1), NV)
    else ((((bitLen m : Int) - 1 + e) % 2 ^ n).toNat, 0)

end Sys2Proof.Machine
end

