-- ==== Sys2Proof/Machine/Homes.lean ====
section
/-! DEFINITION. What is done at the ordering points: accesses, atomics and programmable atomics, what the homes hold,
moved pages, and barrier operations (R206, R278-R293, R294, R406-R410). -/

namespace Sys2Proof.Machine

/-! ### Answers (R288, R294) -/

/-- Sending an answer back to its tile: answers of one point to one tile arrive in order; the tile's own port answers at once. -/
def State.sendBack (s : State) (x : Net) : State :=
  let (d, s) := if x.point = x.tile then (0, s) else draw s
  let behind := (s.net.filter fun y => y.tile == x.tile && y.point == x.point && y.act.isReply).foldl (fun m y => max m y.due) 0
  { s with net := s.net ++ [{ x with due := max (s.now + d) behind }] }

/-- A request has been performed: its answer is sent, or held with the results of its line (R288). `late` is how many
cycles after now the result is formed. -/
def State.answer (s : State) (x : Net) (force : Bool) (late : Nat) (act : Act) : State :=
  let s := { s with net := s.net.filter fun y => y.id != x.id }
  let line := s.homeHolds.filter fun h => h.home + 1024 == x.point && h.line == x.pa / 64
  if 1024 ≤ x.point && x.point < 2048 && (force || !line.isEmpty) then
    let (hid, s) := fresh s
    let formed := line.foldl (fun m h => max m h.formed) s.now + late
    { s with homeHolds := s.homeHolds ++ [⟨hid, x.point - 1024, x.pa / 64, formed, { x with act := act }⟩] }
  else s.sendBack { x with act := act }

/-- The pending result a request is for. -/
def State.pend? (s : State) (uid pid : Nat) : Option Pend := (s.team? uid).bind fun t => t.pend.find? (·.id == pid)

/-- A request that fails for the lanes of a list, with their addresses: their results do not land, and the request is kept for a Resume
(R47), or the team traps at its next boundary (R387); a copy's write stops its copy when its answer arrives (R246). -/
def State.failAt (s : State) (x : Net) (cause : Nat) (xs : List (Nat × Nat)) (pid : Option Nat) : State :=
  let ea := (xs.headD (0, 0)).2
  match pid with
  | some p => (s.modPend x.uid p fun q => { q with redo := q.redo ++ [x] }).answer x false 0 (.ack (some p) (xs.map fun y => (y.1, [])) 0 (some cause) ea 0)
  | none => (if s.copies.any fun c => c.writes.any fun w => w.1 == x.id then s
      else s.defer x.uid cause x.pc x.issue x.word (maskOf (xs.map (·.1))) (xs.map fun y => (y.1, BitVec.ofNat 64 y.2))).answer x false 0 (.ack none [] 0 (some cause) ea 0)

/-- The lanes and addresses a request is for. -/
def Act.lanes : Act → List (Nat × Nat)
  | .load _ xs .. | .filled _ xs .. => xs.map fun x => (x.1, x.2.1)
  | .object _ lane ea .. | .expect _ lane ea _ | .arrive lane ea => [(lane, ea)]
  | .pair _ ea _ _ lanes _ => lanes.map fun l => (l, ea)
  | .atomic _ _ r | .aprog _ r => [(r.lane, r.ea)]
  | .write ps => ps.map fun p => (p.lane, p.ea)
  | .relWrite p => [(p.lane, p.ea)]
  | .credit ea _ _ | .count ea _ => [(0, ea)]
  | _ => []

/-- The pending result a request completes. -/
def Act.pid : Act → Option Nat
  | .load pid .. | .filled pid .. | .object pid .. | .expect pid .. | .pair pid .. | .aprog pid _ => some pid
  | .atomic pid .. => pid
  | _ => none

/-- The first address a request is for. -/
def Act.ea (a : Act) : Nat := (a.lanes.headD (0, 0)).2

/-- A request fails as a whole. -/
def State.failNet (s : State) (x : Net) (cause : Nat) : State :=
  match x.act with
  | .fetch owner _ => ({ s with fetched := s.fetched ++ [(owner, x.pa, cause)] } : State).answer x false 0 (.ack none [] 0 none 0 0)
  | a => s.failAt x cause a.lanes a.pid

/-- The check of R206 at the owner port when the access is performed there, an engine's as one of the team that issued its work. -/
def State.portAdmits (s : State) (x : Net) (va n : Nat) : Bool := !isScratch va || s.ownerAdmits x.uid x.ctx va n

/-! ### Plain accesses -/

/-- What bytes of a tile's own hold over what the point gives. -/
def overlay (own : List (Option (Byte × Bool))) (bs : List (Byte × Bool)) : List (Byte × Bool) :=
  bs.zipIdx.map fun (b, i) => ((own[i]?).join).getD b

/-- Writing one byte of a register word. -/
def putByte (w : Word) (k : Nat) (b : Byte) : Word :=
  (w &&& ~~~((0xFF : Word) <<< (8 * k))) ||| (b.zeroExtend 32 <<< (8 * k))

/-- The read of an MX block and its scale as one (R228, R313): padding is checked, each lane of the run takes its word
and the scale byte. Both lie in one frame, wherever the page has moved to (R323, R335). -/
def State.readPair (s : State) (x : Net) (pid ea n : Nat) (own : List (Option (Byte × Bool))) (lanes : List Nat) (sb : Nat) : State :=
  let blk := overlay (own.take n) (s.mem.load x.pa n)
  let scale := (overlay (own.drop n) (s.mem.load (scaleAddr x.pa n) 1)).headD (0, false)
  let p := s.pend? x.uid pid
  let pad := match p.bind (·.fmt) with
    | some d => padded d (blk.map (·.1))
    | none => false
  let s := if pad then s.errorRecord (some x.ctx) 88 0 (x.tile * 2 + x.side) x.pc ea 0 else s
  let old (l : Nat) : PWord := (((p.bind fun p => p.results.find? (·.lane == l)).map fun r => r.words.getD 1 PWord.zero)).getD PWord.zero
  let word (l : Nat) : PWord :=
    let w := (loadedWords false ((blk.drop (4 * (l % (n / 4)))).take 4)).headD PWord.zero
    ⟨w.w, w.p || pad⟩
  s.answer x false 0 (.ack (some pid) (lanes.map fun l => (l, [word l, ⟨putByte (old l).w sb scale.1, (old l).p || scale.2⟩])) 0 none 0 0)

/-- A load of some lanes at its ordering point: those that the owner port does not admit fail, the others are served as one (R206, R213,
R214). -/
def State.performLoad (s : State) (x : Net) (pid : Nat) (xs : List (Nat × Nat × List (Option (Byte × Bool)))) (n : Nat) (sg : Bool) (fill : Option Bool) : State :=
  let ok := xs.filter fun y => s.portAdmits x y.2.1 n
  let bad := xs.filter fun y => !s.portAdmits x y.2.1 n
  let s := if bad.isEmpty || ok.isEmpty then s
    else
      let (id, s) := fresh s
      let y := { x with id := id, act := .load pid bad n sg fill }
      ({ s with net := s.net ++ [y] } : State).failNet y 29
  if ok.isEmpty then s.failNet x 29
  else match fill with
  | some merge => s.answer x false 0 (.filled pid ok n sg (s.mem.load (x.pa / 64 * 64) 64) merge)
  | none => s.answer x false 0 (.ack (some pid) (ok.map fun y => (y.1, loadedWords sg (overlay y.2.2 (s.mem.load x.pa n)))) 0 none 0 0)

/-- Performing an access at its ordering point (R294, R281): stores, reads, the read of an object, and a counter's
addition, which is held as an atomic is (R410). -/
def State.performAccess (s : State) (x : Net) : State :=
  match x.act with
  | .write ps =>
    if ps.all fun p => s.portAdmits x p.ea p.data.length then
      (ps.foldl (fun s p => s.memStore (x.pa + (p.ea - x.va)) p.data) s).answer x false 0 (.ack none [] 0 none x.act.ea 0)
    else s.failNet x 29
  | .load pid xs n sg fill => s.performLoad x pid xs n sg fill
  | .object pid lane ea n _ =>
    if !s.portAdmits x ea n then s.failNet x 29
    else s.answer x false 0 (.ack (some pid) [(lane, loadedWords false (s.mem.load x.pa n))] 0 none 0 0)
  | .pair pid ea n own lanes sb => s.readPair x pid ea n own lanes sb
  | .count ea v =>
    let m := s.mem.nat x.pa 8
    let p := v.p || s.mem.anyPoison x.pa 8
    (s.memStore x.pa ((toBytes 8 (m + v.v.toNat)).map (·, p))).answer x true 0 (.ack none [] 0 none ea 0)
  | .fetch owner _ => ({ s with fetched := s.fetched ++ [(owner, x.pa, 0)] } : State).answer x false 0 (.ack none [] 0 none 0 0)
  | _ => s

/-! ### Atomics (R278-R287) -/

/-- The new value of an operation of Table 13-2 on `n` bytes. -/
def aluOp (op n m v : Nat) : Nat :=
  let w := 8 * n
  let signed (x : Nat) : Int := (BitVec.ofNat w x).toInt
  match op with
  | 0 => (m + v) % 2 ^ w
  | 1 => min m v
  | 2 => if signed v < signed m then v else m
  | 3 => max m v
  | 4 => if signed m < signed v then v else m
  | 5 => m &&& v
  | 6 => m ||| v
  | 7 => m ^^^ v
  | 8 => v
  | 9 => if v ≤ m then 0 else m + 1
  | _ => if m = 0 || v < m then v else m - 1

/-- The bytes an atomic acts on. -/
def AtomOp.width : AtomOp → Nat
  | .alu _ w | .cas w | .fadd w _ | .fmm w _ _ => w

/-- The rounding of a mode at a home; rsr rounds as rne (R285). -/
def homeRm (m : Mode) : Rm := ⟨if m.round = 5 then 0 else m.round, m.flush, m.sat, 0⟩

/-- The new value with its poison, if the location is written, and the flags raised (R282-R287). -/
def AtomOp.apply (op : AtomOp) (m : PVal) (r : AtomReq) : Option PVal × BitVec 5 :=
  let n := op.width
  let x := m.v.toNat % 2 ^ (8 * n)
  let v := r.v.v.toNat % 2 ^ (8 * n)
  let p := m.p || r.v.p
  let f := if n = 8 then Fmt.f64 else Fmt.f32
  match op with
  | .alu op _ => (some ⟨BitVec.ofNat 64 (aluOp op n x v), p⟩, 0)
  | .cas _ => if x = v && !p then (some r.x, 0) else (none, 0)
  | .fadd _ mode =>
    let (c, fl) := f.fadd (homeRm mode) x v
    (some ⟨BitVec.ofNat 64 c, p⟩, if p then 0 else fl)
  | .fmm _ greater mode =>
    let (c, fl) := f.minMax (homeRm mode) greater true x v
    (some ⟨BitVec.ofNat 64 c, p⟩, if p then 0 else fl)

/-- An atomic as one step at its place (R281, R282): the old value returns. -/
def State.performAtomic (s : State) (x : Net) (pid : Option Nat) (op : AtomOp) (r : AtomReq) : State :=
  let n := op.width
  if !s.portAdmits x r.ea n then s.failNet x 29
  else
    let old := s.mem.load x.pa n
    let m : PVal := ⟨BitVec.ofNat 64 (ofBytes (old.map (·.1))), old.any (·.2)⟩
    let (v, fl) := op.apply m r
    let s := match v with
      | some y => s.memStore x.pa ((toBytes n y.v.toNat).map (·, y.p))
      | none => s
    s.answer x true 0 (.ack pid [(r.lane, loadedWords false old)] fl none r.ea n)

/-! ### Programmable atomics (R289-R292) -/

/-- What a routine's run comes to: its result, the line's bytes and its cycles, or the cause that stops it. -/
inductive Run where
  | done (a0 a1 : Word) (line : List Byte) (cycles : Nat)
  | stop (cause : Nat)
deriving DecidableEq, Repr

/-- The state of a home core: its registers, the line with the routine's own stores, its word counter and cycles. -/
structure CoreState where
  regs : Fmap Word
  line : List Byte
  pc : Nat
  cycles : Nat
deriving DecidableEq, Repr

def CoreState.reg (c : CoreState) (r : Nat) : Word := if r = 0 then 0 else fget 0 c.regs r
def CoreState.setReg (c : CoreState) (r : Nat) (v : Word) : CoreState := if r = 0 then c else { c with regs := fput 0 c.regs r v }

/-- The immediates of RV32I. -/
def rvI (w : Word) : Word := (w.extractLsb' 20 12).signExtend 32
def rvS (w : Word) : Word := (w.extractLsb' 25 7 ++ w.extractLsb' 7 5).signExtend 32
def rvB (w : Word) : Word := (w.extractLsb' 31 1 ++ w.extractLsb' 7 1 ++ w.extractLsb' 25 6 ++ w.extractLsb' 8 4 ++ (0#1)).signExtend 32
def rvJ (w : Word) : Word := (w.extractLsb' 31 1 ++ w.extractLsb' 12 8 ++ w.extractLsb' 20 1 ++ w.extractLsb' 21 10 ++ (0#1)).signExtend 32
def rvOp (w : Word) : Nat := bits w.toNat 6 0
def rvF3 (w : Word) : Nat := bits w.toNat 14 12
def rvF7 (w : Word) : Nat := bits w.toNat 31 25

/-- Is a word one that a routine may hold before its ECALL (R289)? Its place gives JAL and branches their targets. -/
def rvLegal (i : Nat) (w : Word) : Bool :=
  let target (o : Word) : Bool :=
    let t := (BitVec.ofNat 32 (4 * i) + o).toNat
    t % 4 == 0 && t < 64
  match rvOp w with
  | 0x37 | 0x17 => true
  | 0x6F => target (rvJ w)
  | 0x67 => rvF3 w == 0
  | 0x63 => rvF3 w != 2 && rvF3 w != 3 && target (rvB w)
  | 0x03 => [0, 1, 2, 4, 5].contains (rvF3 w)
  | 0x23 => rvF3 w ≤ 2
  | 0x13 => if rvF3 w = 1 then rvF7 w == 0 else if rvF3 w = 5 then rvF7 w == 0 || rvF7 w == 0x20 else true
  | 0x33 => rvF7 w == 0 || (rvF7 w == 0x20 && (rvF3 w == 0 || rvF3 w == 5))
  | _ => false

/-- ECALL. -/
def rvEcall : Word := 0x73

/-- The words of an image up to and with its first ECALL, if it is a legal one (R289). -/
def parseImage (ws : List Word) : Option (List Word) :=
  match ws.findIdx? (· == rvEcall) with
  | none => none
  | some n => if ((ws.take n).zipIdx.all fun (w, i) => rvLegal i w) then some (ws.take (n + 1)) else none

/-- An OP or OP-IMM result. -/
def rvAlu (f3 : Nat) (alt : Bool) (a b : Word) : Word :=
  let sh := b.toNat % 32
  match f3 with
  | 0 => if alt then a - b else a + b
  | 1 => a <<< sh
  | 2 => if a.toInt < b.toInt then 1 else 0
  | 3 => if a.toNat < b.toNat then 1 else 0
  | 4 => a ^^^ b
  | 5 => if alt then a.sshiftRight sh else a >>> sh
  | 6 => a ||| b
  | _ => a &&& b

/-- A load or store of the line: `none` when it is outside the line or misaligned (R292). -/
def CoreState.span (_ : CoreState) (addr : Word) (f3 : Nat) : Option (Nat × Nat) :=
  let n := 2 ^ (f3 % 4)
  let a := addr.toNat
  if a % n = 0 && a + n ≤ 64 then some (a, n) else none

/-- Running a routine from its word counter, at most `fuel` instructions (R291, R292). -/
def runRoutine (prog : List Word) : Nat → CoreState → Run
  | 0, _ => .stop 58
  | fuel + 1, c =>
    match prog[c.pc]? with
    | none => .stop 61
    | some w =>
      if 64 < c.cycles then .stop 58
      else if w = rvEcall then .done (c.reg 10) (c.reg 11) c.line c.cycles
      else
        let rd := bits w.toNat 11 7
        let a := c.reg (bits w.toNat 19 15)
        let b := c.reg (bits w.toNat 24 20)
        let pc : Word := BitVec.ofNat 32 (4 * c.pc)
        let f3 := rvF3 w
        let step (c : CoreState) (cost : Nat) : CoreState := { c with pc := c.pc + 1, cycles := c.cycles + cost }
        match rvOp w with
        | 0x37 => runRoutine prog fuel (step (c.setReg rd (w &&& 0xFFFFF000)) 1)
        | 0x17 => runRoutine prog fuel (step (c.setReg rd (pc + (w &&& 0xFFFFF000))) 1)
        | 0x6F => runRoutine prog fuel { c.setReg rd (pc + 4) with pc := (pc + rvJ w).toNat / 4, cycles := c.cycles + 1 }
        | 0x67 =>
          let t := ((a + rvI w) &&& ~~~1#32).toNat
          if t % 4 != 0 || 64 ≤ t then .stop 61
          else runRoutine prog fuel { c.setReg rd (pc + 4) with pc := t / 4, cycles := c.cycles + 1 }
        | 0x63 =>
          let taken := match f3 with
            | 0 => a == b
            | 1 => a != b
            | 4 => decide (a.toInt < b.toInt)
            | 5 => !decide (a.toInt < b.toInt)
            | 6 => decide (a.toNat < b.toNat)
            | _ => !decide (a.toNat < b.toNat)
          runRoutine prog fuel (if taken then { c with pc := (pc + rvB w).toNat / 4, cycles := c.cycles + 1 } else step c 1)
        | 0x03 => match c.span (a + rvI w) f3 with
          | none => .stop 59
          | some (at_, n) =>
            let v := ofBytes ((c.line.drop at_).take n)
            let r : Word := if f3 < 4 && n < 4 && bit v (8 * n - 1) then BitVec.ofNat 32 (v + 2 ^ 32 - 2 ^ (8 * n)) else BitVec.ofNat 32 v
            runRoutine prog fuel (step (c.setReg rd r) 2)
        | 0x23 => match c.span (a + rvS w) f3 with
          | none => .stop 59
          | some (at_, n) =>
            let line := (toBytes n b.toNat).zipIdx.foldl (fun l (x, i) => l.set (at_ + i) x) c.line
            runRoutine prog fuel (step { c with line := line } 2)
        | 0x13 => runRoutine prog fuel (step (c.setReg rd (rvAlu f3 (f3 = 5 && rvF7 w = 0x20) a (rvI w))) 1)
        | 0x33 => runRoutine prog fuel (step (c.setReg rd (rvAlu f3 (rvF7 w = 0x20) a b)) 1)
        | _ => .stop 61

/-- What an APROG's run comes to on the line as its home holds it now. -/
def State.aprogOut (s : State) (x : Net) (r : AtomReq) : Run :=
  let line := s.mem.load (x.pa / 64 * 64) 64
  let prog := ((s.ctx? x.ctx).map fun c => fget [] c.routines r.x.v.toNat).getD []
  if prog.isEmpty then .stop 60
  else
    let c : CoreState := ⟨[], line.map (·.1), 0, 0⟩
    let c := ((c.setReg 10 (r.v.v.extractLsb' 0 32)).setReg 11 (r.v.v.extractLsb' 32 32)).setReg 12 (BitVec.ofNat 32 (r.ea % 64))
    runRoutine prog 66 c

/-- Does a run end by its time (R292)? -/
def State.aprogLate (s : State) (x : Net) (r : AtomReq) : Bool := s.aprogOut x r == .stop 58

/-- The answer of an APROG: a poisoned operand or line is not run, and its result is the poisoned operand (R291). -/
def State.performAprog (s : State) (x : Net) (pid : Nat) (r : AtomReq) : State :=
  let key := x.pa / 64 * 64
  let words (a0 a1 : Word) (p : Bool) : List PWord := [⟨a0, p⟩, ⟨a1, p⟩]
  if r.v.p || s.mem.anyPoison key 64 then
    s.answer x true 0 (.ack (some pid) [(r.lane, words (r.v.v.extractLsb' 0 32) (r.v.v.extractLsb' 32 32) true)] 0 none r.ea 64)
  else match s.aprogOut x r with
    | .stop c => (s.modPend x.uid pid fun q => { q with redo := q.redo ++ [x] }).answer x true 0 (.ack (some pid) [(r.lane, [])] 0 (some c) r.ea 64)
    | .done a0 a1 line cycles =>
      (s.memStore key (line.map (·, false))).answer x true cycles (.ack (some pid) [(r.lane, words a0 a1 false)] 0 none r.ea 64)

/-! ### The steps -/

/-- The request with a number. -/
def State.net? (s : State) (id : Nat) : Option Net := s.net.find? fun x => x.id == id

/-- ATOMIC_PERFORM (R281): an atomic takes its place in its line's order. -/
def execAtomicPerform (id : Nat) (s : State) : Host.Outcome State Fault Refusal :=
  match s.net? id with
  | some x => .next (match x.act with
    | .atomic pid op r => s.performAtomic x pid op r
    | _ => s)
  | none => .next s

/-- APROG_RUN (R291): a routine's run, which locks its line to its commit. -/
def execAprogRun (id : Nat) (s : State) : Host.Outcome State Fault Refusal :=
  match s.net? id with
  | some x => .next (match x.act with
    | .aprog pid r => if s.aprogLate x r then s else s.performAprog x pid r
    | _ => s)
  | none => .next s

/-- APROG_TIMEOUT (R292): a run that has not come to its ECALL after 64 cycles stops, its line unchanged. -/
def execAprogTimeout (id : Nat) (s : State) : Host.Outcome State Fault Refusal :=
  match s.net? id with
  | some x => .next (match x.act with
    | .aprog pid r => if s.aprogLate x r then s.performAprog x pid r else s
    | _ => s)
  | none => .next s

/-- HOME_COMMIT (R288): a result that a home has held for Q cycles leaves, its line's earlier ones before it. -/
def execHomeCommit (id : Nat) (s : State) : Host.Outcome State Fault Refusal :=
  match s.homeHolds.find? fun h => h.id == id with
  | some h =>
    if s.now < h.formed + Config.Q || (s.homeHolds.takeWhile fun k => k.id != id).any (fun k => k.home == h.home && k.line == h.line) then .next s
    else .next (({ s with homeHolds := s.homeHolds.filter fun k => k.id != id } : State).sendBack h.reply)
  | none => .next s

/-- What a request needs of its page (R320). -/
def Act.need : Act → Need
  | .load .. | .object .. | .pair .. | .fetch .. => Need.r
  | .write _ | .relWrite _ => Need.w
  | _ => Need.rw

/-- The unit whose request parks (Table 15-3): a copy's write and an engine's credit are their engine's. -/
def Net.unit (x : Net) : Nat :=
  let own (_ : Unit) : Nat := match (opcode x.word).toNat / 128 with
    | 7 => 1
    | 8 => 2
    | 10 => 4
    | _ => 0
  match x.act with
  | .credit .. | .count .. => own ()
  | .write _ => if (opcode x.word).toNat / 128 = 7 then 1 else 0
  | _ => 0

/-- Does a request belong to a Format L instruction of a team, which stops while it is parked (R47)? -/
def State.stopsTeam (s : State) (x : Net) : Bool :=
  x.unit == 0 && x.act.pid.any fun pid => (s.pend? x.uid pid).isSome

/-- A request in flight parks on its page (R47, R293, R324): the team stops at its next instruction boundary when the request is a
Format L instruction's. -/
def State.parkRequest (s : State) (x : Net) (t : Team) (level : Nat) : State :=
  let s := s.parkFault t x.unit x.id x.pc x.word x.issue (maskOf (x.act.lanes.map (·.1))) x.va x.act.need level
  if s.stopsTeam x then
    ({ s with faults := modifyWhere (fun f => f.item == x.id && f.uid == x.uid) (fun f => { f with stops := true }) s.faults } : State).modTeam x.uid fun t =>
      if t.status == .running || t.status == .waiting then { t with status := .faultParked, wait := none, sched := { t.sched with stallCause := 11 } } else t
  else s

/-- MOVED (R293): the old home answers a later request for a moving page; the tile translates again and sends again. After
eight such answers in a row the team traps; a page that is absent now faults, and the request waits for the reply. -/
def execMoved (id : Nat) (s : State) : Host.Outcome State Fault Refusal :=
  match s.net? id with
  | none => .next s
  | some x =>
    let put (s : State) (y : Net) : State := { s with net := modifyWhere (fun z => z.id == id) (fun _ => y) s.net }
    if 7 ≤ x.tries then .next (s.failNet x 39)
    else match s.walk x.tile x.ctx x.va, s.team? x.uid with
    | .leaf base _ pte, _ =>
      let pa := bits pte.toNat 47 12 * 4096 + (x.va - base)
      let (d, s) := draw s
      let behind := (s.net.filter fun y => y.tile == x.tile && y.point == pointOf pa && !y.act.isReply && y.id != id).foldl (fun m y => max m y.due) 0
      .next (put s { x with due := max (s.now + d) behind, point := pointOf pa, pa := pa, tries := x.tries + 1 })
    | .absent level, some t => .next ((put s { x with point := 9999, tries := x.tries + 1 }).parkRequest x t level)
    | _, _ => .next (s.failNet x 24)

/-! ### Moving a page (R335)

Which page moves, and where to, is the resident system's to say: a move that it has decided on stands in `Mem.moving` with no step done
(log entry 128). -/

/-- May the next step of a move be done: the copy has reached a peer, or nothing asks for the old frame any more? -/
def State.moveReady (s : State) (m : Moving) : Bool :=
  if m.stage = 4 then !s.waitsFor m.ids
  else if m.stage = 5 then !s.net.any fun x => !x.act.isReply && decide (m.frame ≤ x.pa / 4096) && decide (x.pa / 4096 < m.frame + m.count)
  else true

/-- The copy of F to F′: in this device at once, to a peer in lines. -/
def State.moveCopy (s : State) (m : Moving) : List Nat × State :=
  if isWindow (4096 * m.target) then (List.range (64 * m.count)).foldl (fun (ids, s) i =>
    let (id, s) := s.send Config.tiles 0 0 m.ctx s.now 0 0 (m.va + 64 * i) (4096 * m.target + 64 * i) [] (.write [⟨0, m.va + 64 * i, s.mem.load (4096 * m.frame + 64 * i) 64⟩])
    (ids ++ [id], s)) (([] : List Nat), s)
  else ([], s.memStore (4096 * m.target) (s.mem.load (4096 * m.frame) (4096 * m.count)))

/-- One step of a move: the new home holds requests; the entry is rewritten and TLBINV issued on every tile; the old home answers
"moved"; the copy; the new home is enabled; and the old home answers nothing any more. A page moves only between frames of one tag
(R369). -/
def State.moveOn (s : State) (m : Moving) : State :=
  let set (s : State) (m' : Moving) : State := { s with mem := { s.mem with moving := s.mem.moving.map fun x => if x = m then m' else x } }
  let hit (ctx va size : Nat) : Bool := ctx == m.ctx && rangesMeet va size m.va (4096 * m.count)
  match m.stage with
  | 0 =>
    if bits (s.mem.nat m.entry 8) 55 48 = bits m.pte.toNat 55 48 then set s { m with stage := 1 }
    else { s with mem := { s.mem with moving := s.mem.moving.filter (· != m) } }
  | 1 =>
    let s := set (s.memStore m.entry ((toBytes 8 m.pte.toNat).map (·, false))) { m with stage := 2 }
    { s with mem := { s.mem with
      tlb := s.mem.tlb.filter fun e => !hit e.ctx e.va e.size
      table := s.mem.table.filter fun e => !hit e.ctx e.va (levelSize e.level) } }
  | 2 => set s { m with stage := 3 }
  | 3 =>
    let (ids, s) := s.moveCopy m
    set s { m with stage := 4, ids := ids }
  | 4 => set s { m with stage := 5, ids := [] }
  | _ => { s with mem := { s.mem with moving := s.mem.moving.filter (· != m) } }

/-- One step of any move under way. -/
def State.moveStep (s : State) : Option State := (s.mem.moving.find? s.moveReady).map s.moveOn

/-! ### Barriers (R406-R408) -/

/-- The check for the end of a phase, after each operation (R407). -/
def Barrier.settled (b : Barrier) : Barrier :=
  if b.pending = 0 && b.w2 = 0 then
    ⟨BitVec.ofNat 32 ((b.phase + 1) % 2 ^ 16 * 2 ^ 16 + b.init), BitVec.ofNat 32 b.init, BitVec.ofNat 32 b.carry, 0xB5000000⟩
  else b

def State.setBarrier (s : State) (ea : Nat) (b : Barrier) : State := s.memStore ea b.bytes

/-- BARRIER_ARRIVAL (R408). -/
def execBarrierArrival (id : Nat) (s : State) : Host.Outcome State Fault Refusal :=
  match s.net? id with
  | none => .next s
  | some x => .next (match x.act with
    | .arrive _ ea =>
      let b := s.barrier ea
      if !s.portAdmits x ea 16 then s.failNet x 29
      else if b.bad then s.failNet x 68
      else if b.pending = 0 then s.failNet x 70
      else (s.setBarrier ea ({ b with w1 := b.w1 - 1 } : Barrier).settled).answer x false 0 (.ack none [] 0 none ea 0)
    | _ => s)

/-- EXPECTATION (R408): bytes for this phase, or with `next` for the one after it. -/
def execExpectation (id : Nat) (s : State) : Host.Outcome State Fault Refusal :=
  match s.net? id with
  | none => .next s
  | some x => .next (match x.act with
    | .expect pid lane ea n =>
      let b := s.barrier ea
      let count := bits n 30 0
      let later := bit n 31
      let past := if later then 2 ^ 24 ≤ b.carry + count else decide ((2 ^ 31 : Int) ≤ b.w2.toInt + count)
      if !s.portAdmits x ea 16 then s.failNet x 29
      else if b.bad then s.failNet x 68
      else if past then s.failNet x 70
      else
        let b' : Barrier := if later then { b with w3 := b.w3 + BitVec.ofNat 32 count } else { b with w2 := b.w2 + BitVec.ofNat 32 count }
        let phase := if later then (b.phase + 1) % 2 ^ 16 else b.phase
        (s.setBarrier ea b'.settled).answer x false 0 (.ack (some pid) [(lane, [⟨BitVec.ofNat 32 phase, false⟩])] 0 none ea 16)
    | _ => s)

/-- ENGINE_CREDIT (R408): bytes that an engine's operation landed. A failure traps the team that issued the work. -/
def execEngineCredit (id : Nat) (s : State) : Host.Outcome State Fault Refusal :=
  match s.net? id with
  | none => .next s
  | some x => .next (match x.act with
    | .credit ea n mask =>
      let b := s.barrier ea
      let ack (s : State) (failed : Option Nat) : State := s.answer x false 0 (.ack none [] 0 failed ea 0)
      let fail (c : Nat) : State :=
        ack (s.defer x.uid c x.pc x.issue x.word mask ((lanesOf 1024 mask).map fun l => (l, BitVec.ofNat 64 ea))) (some c)
      if !s.portAdmits x ea 16 then fail 29
      else if b.bad then fail 68
      else ack (s.setBarrier ea ({ b with w2 := b.w2 - BitVec.ofNat 32 n } : Barrier).settled) none
    | _ => s)

end Sys2Proof.Machine
end

