-- ==== Sys2Proof/Machine/Links.lean ====
section
/-! DEFINITION. Optical and CXL ports, flits and requests, and accesses as they arrive at their ordering points
(R384-R395, R294). -/

namespace Sys2Proof.Machine

/-! ### Ports -/

def State.modPort (s : State) (p : Nat) (f : Port → Port) : State :=
  { s with hub := { s.hub with ports := fput Port.off s.hub.ports p (f (s.port p)) } }

/-- Is a page of a frame in motion at its old home (R293, R335)? -/
def State.isMoving (s : State) (pa : Nat) : Bool :=
  !isScratch pa && s.mem.moving.any fun m => decide (3 ≤ m.stage) && decide (m.frame ≤ pa / 4096) && decide (pa / 4096 < m.frame + m.count)

/-- Does the new home of a page hold what arrives for it (R335 steps 1 and 5)? -/
def State.isHeld (s : State) (pa : Nat) : Bool :=
  !isScratch pa && s.mem.moving.any fun m => decide (1 ≤ m.stage) && decide (m.stage < 5) && decide (m.target ≤ pa / 4096) && decide (pa / 4096 < m.target + m.count)

/-- A message that the hub holds for Q cycles before it leaves (R438, Table 21-6). -/
def State.hubSend (s : State) (m : Out) : State :=
  let (id, s) := fresh s
  { s with hub := { s.hub with hold := s.hub.hold ++ [⟨id, s.now, m⟩] } }

/-! ### Outbound requests (R388, R389) -/

/-- The op of a request header and the bytes it moves (Table 18-2). -/
def Act.flit : Act → Nat × Nat
  | .write ps => (1, ps.foldl (fun n p => n + p.data.length) 0)
  | .load _ _ n _ fill => (0, if fill.isSome then 64 else n)
  | .object _ _ _ n _ => (0, n)
  | .pair _ _ n _ _ _ => (0, n + 1)
  | .fetch _ n => (0, n)
  | .atomic _ op _ => (6, op.width)
  | .count .. => (6, 8)
  | _ => (0, 0)

/-- Where a request's bytes begin: a fill reads its whole line. -/
def Net.base (x : Net) : Nat := match x.act with
  | .load _ _ _ _ (some _) => x.pa / 64 * 64
  | _ => x.pa

/-- Has a request been sent over a link and not been answered? -/
def State.isOut (s : State) (id : Nat) : Bool := s.hub.outstanding.any fun o => o.item.id == id

/-- The lowest free tag of a port, if its window admits the bytes (R389). -/
def State.linkTag (s : State) (port : Nat) (write : Bool) (n : Nat) : Option Nat :=
  let mine := s.hub.outstanding.filter fun o => o.port == port
  let inFlight := (mine.filter fun o => o.write == write).foldl (fun m o => m + o.bytes) 0
  if 262144 < inFlight + n then none
  else (List.range 4096).find? fun t => !mine.any fun o => o.tag == t

/-- The payload of a write or a counter's addition. -/
def Act.payload : Act → List (Byte × Bool)
  | .write ps => ps.flatMap (·.data)
  | .count _ v => (toBytes 8 v.v.toNat).map (·, v.p)
  | _ => []

/-- The poison bits of a payload by word. -/
def payloadPoison (bs : List (Byte × Bool)) : BitVec 16 :=
  (List.range 16).foldl (fun p w => if ((bs.drop (4 * w)).take 4).any (·.2) then setBits p [w] true else p) 0

/-- The bytes of a payload with the poison bits of its words. -/
def payloadBytes (bytes : List Byte) (poison : BitVec 16) : List (Byte × Bool) := bytes.zipIdx.map fun (b, i) => (b, poison.getLsbD (i / 4))

/-- A request to a host or peer window goes out on its route's port, if it is up; a port that pauses, has no free tag or
no window room makes it wait (R385, R387, R389, R390). -/
def State.toLink (s : State) (x : Net) : State :=
  match s.portOf x.pa with
  | none => s.failNet x 37
  | some p =>
    let port := s.port p
    if port.state != 4 then s.failNet x 37
    else if port.pause then s
    else
      let (op, n) := x.act.flit
      match s.linkTag p (op == 1) n with
      | none => s
      | some tag =>
        let demand := match x.act with
          | .load 0 .. => false
          | _ => true
        let bs := x.act.payload
        let s := s.hubSend (match x.act with
          | .atomic _ aop r => .atomic p tag (x.base % 2 ^ 36) aop r.v r.x
          | _ => .flit p tag op (x.base % 2 ^ 36) (bs.map (·.1)) (payloadPoison bs) demand)
        { s with hub := { s.hub with outstanding := s.hub.outstanding ++ [⟨p, tag, s.wallTime, n, op == 1, demand, x⟩] } }

/-- ORDERING_POINT_ACCESS (R294): an access arrives and is performed, or goes on over a link to its point. -/
def execOrderingPointAccess (id : Nat) (s : State) : Host.Outcome State Fault Refusal :=
  match s.net? id with
  | none => .next s
  | some x =>
    .next (if x.act.isReply || s.isOut id || s.isMoving x.pa then s
      else if isWindow x.pa then s.toLink x
      else if s.cxlFailed x.pa then s.failNet x 36
      else s.performAccess x)

/-! ### Responses -/

/-- Taking the outstanding request of a tag. -/
def State.take (s : State) (port tag : Nat) : Option (Outstanding × State) :=
  (s.hub.outstanding.find? fun o => o.port == port && o.tag == tag).map fun o =>
    (o, { s with hub := { s.hub with outstanding := s.hub.outstanding.filter fun q => !(q.port == port && q.tag == tag) } })

/-- READ_DATA (R388): the bytes read, with the poison of their words, complete the request. -/
def execReadData (port tag : Nat) (bytes : List Byte) (poison : BitVec 16) (s : State) : Host.Outcome State Fault Refusal :=
  match s.take port tag with
  | none => .next s
  | some (o, s) =>
    let bs := payloadBytes bytes poison
    .next (match o.item.act with
      | .pair _ _ n .. => ((s.memStore o.item.pa (bs.take n)).memStore (scaleAddr o.item.pa n) ((bs.drop n).take 1)).performAccess o.item
      | _ => (s.memStore o.item.base bs).performAccess o.item)

/-- WRITE_ACKNOWLEDGEMENT (R388). -/
def execWriteAcknowledgement (port tag : Nat) (s : State) : Host.Outcome State Fault Refusal :=
  match s.take port tag with
  | none => .next s
  | some (o, s) => .next (s.performAccess o.item)

/-- REFUSED (R390): a refused prefetch is dropped without a record. -/
def execRefused (port tag : Nat) (s : State) : Host.Outcome State Fault Refusal :=
  match s.take port tag with
  | none => .next s
  | some (o, s) => .next (if o.demand then s.failNet o.item 37 else { s with net := s.net.filter fun y => y.id != o.item.id })

/-- ERROR_RESPONSE (R388): the requester traps LINK_ERROR. -/
def execErrorResponse (port tag : Nat) (s : State) : Host.Outcome State Fault Refusal :=
  match s.take port tag with
  | none => .next s
  | some (o, s) => .next (s.failNet o.item 37)

/-- ATOMIC_RESULT (R278, R388): the old value returns from the peer's home, with its poison bits and the conditions raised there (R285,
R287). -/
def execAtomicResult (port tag : Nat) (v : AtomValue) (s : State) : Host.Outcome State Fault Refusal :=
  match s.take port tag with
  | none => .next s
  | some (o, s) =>
    .next (match o.item.act with
      | .atomic pid op r => s.answer o.item false 0 (.ack pid [(r.lane, loadedWords false (payloadBytes (toBytes op.width v.v.toNat) v.poison))] v.conds none r.ea op.width)
      | _ => s.answer o.item false 0 (.ack none [] 0 none 0 0))

/-- HOST_TIMEOUT (R392): no response within the port's timeout; a peer window's request traps LINK_ERROR. -/
def execHostTimeout (port tag : Nat) (s : State) : Host.Outcome State Fault Refusal :=
  match s.take port tag with
  | none => .next s
  | some (o, s') =>
    if s.wallTime < o.time + 1000 * (s.port port).timeout then .next s
    else .next (s'.failNet o.item (if spaceOf o.item.pa = .host then 38 else 37))

/-! ### Inbound requests (R391) -/

/-- A request from outside as one of the homes' requests: its tile number names the port, its issue the tag, its word the op
of the response. -/
def State.inbound (s : State) (port tag op ctx va pa : Nat) (act : Act) : State :=
  (s.send (1024 + port) 0 0 ctx tag 0 (BitVec.ofNat 32 op) va pa [] act).2

/-- The answer to an inbound request that is refused or in error. -/
def State.turnAway (s : State) (port tag op va : Nat) : State := s.hubSend (.flit port tag op va [] 0 false)

/-- Translating an inbound address by the window's context; a peer names a physical address. -/
def State.inboundPa (s : State) (ctx : Option Nat) (va : Nat) (need : Need) : Access :=
  match ctx with
  | some c => s.translate Config.tiles c va need
  | none => if spaceOf va = .hbm || spaceOf va = .cxl then .ok va false false else .bad 27

/-- A flit whose header breaks Table 18-2: an op above 7, or a bit that must be zero, bits 63:48 of the address among them (R388). -/
def badHeader (op mbz va : Nat) : Bool := decide (7 < op) || mbz != 0 || decide (2 ^ 48 ≤ va)

/-- LINK_READ (R388, R390, R391): a flit with an illegal op or a bit set that must be zero is answered as an error, and so is a fault; a
non-demand read of an effectful page is refused. -/
def execLinkRead (port tag : Nat) (ctx : Option Nat) (va n : Nat) (demand : ReadHead) (s : State) : Host.Outcome State Fault Refusal :=
  if badHeader demand.op demand.mbz va then .next (s.turnAway port tag 5 va)
  else match s.inboundPa ctx va Need.r with
  | .ok pa ef _ =>
    if ef && !demand.demand then .next (s.turnAway port tag 4 va)
    else .next (s.inbound port tag 2 (ctx.getD 0) va pa (.object 0 0 va n false))
  | _ => .next (s.turnAway port tag 5 va)

/-- LINK_WRITE (R391). -/
def execLinkWrite (port tag : Nat) (ctx : Option Nat) (va : Nat) (bytes : List Byte) (poison : WriteHead) (s : State) :
    Host.Outcome State Fault Refusal :=
  if badHeader 1 poison.mbz va then .next (s.turnAway port tag 5 va)
  else match s.inboundPa ctx va Need.w with
  | .ok pa _ _ => .next (s.inbound port tag 3 (ctx.getD 0) va pa (.write [⟨0, va, payloadBytes bytes poison.poison⟩]))
  | _ => .next (s.turnAway port tag 5 va)

/-- The operation a peer's atomic names: 0-10 as Table 13-2, 11 compare and swap, 12 floating addition, 13 and 14 floating
minimum and maximum, under the mode captured at its issue (the flit's own codes are not given; log entry 18). -/
def linkOp (op w : Nat) (mode : Mode) : AtomOp :=
  match op with
  | 11 => .cas w
  | 12 => .fadd w mode
  | 13 => .fmm w false mode
  | 14 => .fmm w true mode
  | _ => .alu op w

/-- LINK_ATOMIC (R278): performed, held and committed at the local home; the old value returns, with the conditions raised. -/
def execLinkAtomic (port tag pa op : Nat) (w : AtomHead) (x y : AtomWord) (s : State) :
    Host.Outcome State Fault Refusal :=
  if badHeader 6 w.mbz pa then .next (s.turnAway port tag 5 pa)
  else match s.inboundPa none pa Need.rw with
  | .ok pa _ _ => .next (s.inbound port tag 7 0 pa pa (.atomic none (linkOp op w.width w.mode) ⟨0, pa, ⟨x.v, x.p⟩, ⟨y.v, y.p⟩⟩))
  | _ => .next (s.turnAway port tag 5 pa)

/-- The answer to an inbound request leaves by its port. -/
def State.answerOut (s : State) (x : Net) : State :=
  let s := { s with net := s.net.filter fun y => y.id != x.id }
  match x.act with
  | .ack _ rs xf failed ea _ =>
    let bs := wordBytes (rs.flatMap (·.2))
    if failed.isNone && x.word = 7 then s.hubSend (.result (x.tile - 1024) x.issue (bs.map (·.1)) (payloadPoison bs) xf)
    else s.hubSend (.flit (x.tile - 1024) x.issue (if failed.isSome then 5 else x.word.toNat) ea (bs.map (·.1)) (payloadPoison bs) false)
  | _ => s

/-- HUB_HOLD_RELEASE (R438): after Q cycles the hub's message leaves. -/
def execHubHoldRelease (id : Nat) (s : State) : Host.Outcome State Fault Refusal :=
  match s.hub.hold.find? fun h => h.id == id with
  | some h =>
    if s.now < h.formed + Config.Q then .next s
    else .next { s with hub := { s.hub with hold := s.hub.hold.filter fun k => k.id != id }, out := s.out ++ [h.msg] }
  | none => .next s

/-! ### Bring-up and loss (R385, R387, R394, R395) -/

/-- PORT_BRING_UP (R385): lasers on and locking under way; ports 384 to 387 stand for the CXL ports (log entry 17). -/
def execPortBringUp (port peer : Nat) (s : State) : Host.Outcome State Fault Refusal :=
  if port < 384 then .next (s.modPort port fun p => if p.state = 0 || p.state = 5 then { p with state := 3, peer := peer } else p)
  else .next { s with hub := { s.hub with cxlDown := s.hub.cxlDown.filter (· != port - 384) } }

/-- Every request in flight on a port fails (R387). -/
def State.failPort (s : State) (port cause : Nat) : State :=
  let mine := s.hub.outstanding.filter fun o => o.port == port
  let s := { s with hub := { s.hub with outstanding := s.hub.outstanding.filter fun o => o.port != port } }
  mine.foldl (fun s o => s.failNet o.item cause) s

/-- LOSS_OF_LOCK (R387): the port pauses and retrains. -/
def execLossOfLock (port wave : Nat) (s : State) : Host.Outcome State Fault Refusal :=
  if (s.port port).state = 4 then .next (s.modPort port fun p => { p with pause := true, lost := wave, retrains := min 255 (p.retrains + 1) })
  else .next s

/-- TRAINING_DONE (R385, R387): at bring-up one failed wavelength takes the spare; in a retrain a free spare takes the lost
wavelength's place, else the port goes down and its requests fail. -/
def execTrainingDone (port failed : Nat) (spareOk : Bool) (s : State) : Host.Outcome State Fault Refusal :=
  let p := s.port port
  let mask : BitVec 8 := BitVec.ofNat 8 failed
  let bad := (List.range 8).filter fun i => bit failed i
  if p.state = 3 then
    .next (s.modPort port fun p =>
      match bad with
      | [] => { p with state := 4, failed := 0, spare := false, spareBad := !spareOk, replaced := 0 }
      | [i] => if spareOk then { p with state := 4, failed := mask, spare := true, spareBad := false, replaced := i }
        else { p with state := 5, failed := mask, spareBad := true }
      | _ => { p with state := 5, failed := mask, spareBad := !spareOk })
  else if p.state = 4 && p.pause then
    let stillBad := p.spareBad && !spareOk
    if !p.spare && !stillBad then
      .next (s.modPort port fun p => { p with pause := false, spareBad := false, spare := true, replaced := p.lost, failed := setBits p.failed [p.lost] true })
    else
      .next ((s.modPort port fun p => { p with pause := false, spareBad := stillBad, state := 5, failed := setBits p.failed [p.lost] true }).failPort port 37)
  else .next s

/-- BACK_INVALIDATE (R394): the home answers once no operation holds the line; it keeps no copy that differs from the
ordering point's memory, so nothing else changes. -/
def execBackInvalidate (pa : Nat) (s : State) : Host.Outcome State Fault Refusal := .next (s.hubSend (.snoop pa))

/-- CXL_FAILURE (R395): requests to the expanders behind a port fail. -/
def execCxlFailure (port : Nat) (s : State) : Host.Outcome State Fault Refusal :=
  let s := { s with hub := { s.hub with cxlDown := if s.hub.cxlDown.contains port then s.hub.cxlDown else s.hub.cxlDown ++ [port] } }
  let hit := s.net.filter fun x => !x.act.isReply && s.cxlFailed x.pa
  .next (hit.foldl (fun s x => s.failNet x 36) s)

end Sys2Proof.Machine
end

