-- ==== Sys2Proof/Machine/Matrix.lean ====
section
/-! DEFINITION. MCFG and the collective matrix commands as they issue, and the checks of a command record
(R248-R259, R269); the engine is in Machine/MatrixEngine.lean. -/

namespace Sys2Proof.Machine

/-! ### Engines -/

def PVal.z : PVal := ⟨0, false⟩
/-- A macro set that nothing has loaded (R248). -/
def MacroSet.none : MacroSet := ⟨31, 0, false, Option.none, [], [], []⟩
def Engine.none : Engine := ⟨0, [MacroSet.none, MacroSet.none], [], [], [], [], [], [], [], []⟩
def State.engine (s : State) (tile : Nat) : Engine := fget Engine.none s.engines tile
def State.modEngine (s : State) (tile : Nat) (f : Engine → Engine) : State :=
  { s with engines := fput Engine.none s.engines tile (f (s.engine tile)) }
def Engine.set (g : Engine) (x : Nat) : MacroSet := g.sets.getD x MacroSet.none
def Engine.modSet (g : Engine) (x : Nat) (f : MacroSet → MacroSet) : Engine := { g with sets := modifyAt f g.sets x }
def Engine.channel? (g : Engine) (c : Nat) : Option Channel := g.channels.find? (·.chan == c)
def Engine.modChannel (g : Engine) (c : Nat) (f : Channel → Channel) : Engine :=
  { g with channels := modifyWhere (fun x => x.chan == c) f g.channels }
def Engine.modCmd (g : Engine) (mid : Nat) (f : Command → Command) : Engine :=
  { g with cmds := modifyWhere (fun x => x.mid == mid) f g.cmds }

/-- Do the commands of a channel that have not retired include one that was not voided? -/
def Engine.unretired (g : Engine) (c : Nat) : List Command := g.cmds.filter fun x => x.chan == c && x.parent.isNone

/-! ### Records (Tables 12-4 and 12-5) -/

/-- A 32-byte record as one number, its bytes in order. -/
def recordNat (r : List Word) : Nat := r.zipIdx.foldl (fun n (w, i) => n + w.toNat * 2 ^ (32 * i)) 0
/-- A field of a record: bits `hi` to `lo` counted from byte `off`. -/
def rfield (r : List Word) (off hi lo : Nat) : Nat := bits (recordNat r) (8 * off + hi) (8 * off + lo)

def recOp (r : List Word) : Nat := rfield r 0 31 28
def recSink (r : List Word) : Nat := rfield r 0 27 26
def recWt (r : List Word) : Bool := rfield r 0 25 25 == 1
def recRed (r : List Word) : Bool := rfield r 0 24 24 == 1
def recStrict (r : List Word) : Bool := rfield r 0 23 23 == 1
def recSet (r : List Word) : Nat := rfield r 0 22 22
def recAcc64 (r : List Word) : Bool := rfield r 0 21 21 == 1
def recRm (r : List Word) : Rm := ⟨rfield r 0 20 18, rfield r 0 17 17 == 1, rfield r 0 16 16 == 1, 0⟩
def recChan (r : List Word) : Nat := rfield r 0 1 0
def recWphase (r : List Word) : Nat := rfield r 4 31 16
def recWbar (r : List Word) : Nat := rfield r 4 15 0 * 16
def recSinkAddr (r : List Word) : Nat := rfield r 8 47 0
def recRows (r : List Word) : Nat := rfield r 24 23 16 + 1
def recAccRow (r : List Word) : Nat := rfield r 24 31 24

/-- The operand slot of a channel: type code and descriptor. -/
def Channel.slot (c : Channel) (i : Nat) : Nat × Word := (c.types.getD i 31, c.descs.getD i 0)

/-- Bits that an element of a type takes in memory (R136). -/
def elemBits (typ : Nat) (desc : Word) : Nat :=
  match typ with
  | 6 => slotWidth desc
  | 2 | 3 => 16
  | 1 => 64
  | _ => 32

/-- The N of a B tile (Table 12-1). -/
def tileN (typ : Nat) : Nat :=
  match typ with
  | 6 => 256
  | 2 | 3 => 128
  | 1 => 32
  | _ => 64

/-- A column's 256 stored values in bytes (Table 12-6). -/
def columnBytes (typ : Nat) (desc : Word) : Nat := 32 * elemBits typ desc

/-- K of an A row: 256 for MMA, 512 for MMAS (R259). -/
def recK (r : List Word) : Nat := if recOp r = 3 then 512 else 256

/-- An A row's bytes. -/
def aRowBytes (r : List Word) (typ : Nat) (desc : Word) : Nat :=
  recK r * elemBits typ desc / 8 + if rfield r 28 2 2 = 1 then recK r / 32 else 0

/-- An MSTORE destination row's bytes. -/
def dRowBytes (r : List Word) (desc : Word) : Nat := (rfield r 24 15 8 + 1) * elemBits (rfield r 28 4 0) desc / 8

/-- All bytes an MLDB reads of one column: values, scales in the scratchpad, metadata (R263). -/
def mldbBytes (r : List Word) (typ : Nat) (desc : Word) : Nat :=
  columnBytes typ desc + (if rfield r 28 10 10 = 1 && isScratch (rfield r 16 47 0) then 8 else 0) + if rfield r 28 11 11 = 1 then 64 else 0

/-- Does a record break Table 12-4 or Table 12-5 (R256 item 5)? -/
def recordBad (c : Channel) (r : List Word) : Bool :=
  let op := recOp r
  let f := rfield r
  let mma := op = 2 || op = 3
  let (at_, ad) := c.slot (f 28 1 0)
  let (bt, bd) := c.slot (f 28 9 8)
  let (_, dd) := c.slot (f 28 9 8)
  let dt := f 28 4 0
  let common : Bool :=
    recSink r == 3 || (recRed r && !mma) || (recStrict r && op != 3) || (recSet r != 0 && !(op = 1 || mma)) ||
    (recAcc64 r && !([2, 3, 4, 5, 6].contains op)) || (f 0 20 16 != 0 && !(mma || op = 5)) || 4 < f 0 20 18 || f 0 15 2 != 0 ||
    (!recWt r && f 4 31 0 != 0) || f 8 63 48 != 0 || (recSink r = 0 && f 8 47 0 != 0) || (recSink r = 1 && f 8 47 16 != 0)
  let body : Bool := match op with
    | 1 =>
      f 16 63 48 != 0 || f 24 31 0 % 64 != 0 || f 24 31 0 < mldbBytes r bt bd || tileN bt < f 28 7 0 + 1 || f 28 31 12 != 0
    | 2 | 3 =>
      f 16 31 20 != 0 || f 16 19 0 % 16 != 0 || f 20 15 0 % 16 != 0 || f 20 15 0 < aRowBytes r at_ ad || f 20 31 28 != 0 ||
      f 20 27 16 + 1 ≤ f 24 11 0 || f 24 15 12 != 0 || f 28 31 3 != 0
    | 4 => f 16 63 0 != 0 || f 24 15 0 != 0 || f 28 31 0 != 0
    | 5 =>
      f 16 31 20 != 0 || f 16 19 0 % 16 != 0 || f 20 31 16 != 0 || f 20 15 0 % 16 != 0 || !([0, 1, 2, 3, 6].contains dt) ||
      f 20 15 0 < dRowBytes r dd || f 24 7 0 != 0 || (dt = 6 && slotWidth dd = 4 && f 24 15 8 % 2 = 0) || f 28 7 5 != 0 || f 28 31 10 != 0
    | 6 => f 16 63 0 != 0 || 3 < f 24 10 8 || f 24 23 11 != 0 || f 28 31 0 != 0
    | 7 => f 16 31 20 != 0 || f 16 19 0 % 32 != 0 || f 20 31 12 != 0 || f 24 63 0 != 0
    | _ => true
  common || body

/-- Does a record name formats or sets that do not go together (R250, R256 item 6, R258)? -/
def formatBad (g : Engine) (c : Channel) (r : List Word) : Bool :=
  let (at_, ad) := c.slot (rfield r 28 1 0)
  let (bt, bd) := c.slot (rfield r 28 9 8)
  let x := recSet r
  let held := bit c.sets x
  match recOp r with
  | 1 => !held || bt = 31 || (rfield r 28 10 10 = 1 && bt != 6) || (bt = 6 && !descriptorValid bd)
  | 2 | 3 =>
    let b := g.set x
    !held || b.typ = 31 || b.sparse != (recOp r == 3) || at_ != b.typ || (at_ = 6 && !descriptorValid ad) ||
    (at_ = 1 && !recAcc64 r) || (rfield r 28 2 2 = 1 && at_ != 6)
  | 5 => rfield r 28 4 0 = 6 && bt != 6
  | _ => false

/-- Physical rows from an accumulator row on (R251). -/
def physRows (acc64 : Bool) (r m : Nat) : Nat × Nat := if acc64 then (2 * r, 2 * m) else (r, m)

/-- Do accumulator rows lie outside the channel's (R256 item 7)? -/
def rowsOutside (c : Channel) (acc64 : Bool) (r m : Nat) : Bool :=
  let (lo, n) := physRows acc64 r m
  lo < c.accBase || c.accBase + c.accCount < lo + n

/-- The values an MDRAIN gives: per lane, and the row and register that its last lane reaches (R269). -/
def drainPer (r : List Word) : Nat := 2 ^ rfield r 24 10 8
def drainRows (r : List Word) (lanes : List Nat) : Nat :=
  (rfield r 24 7 0 + (lanes.getLast?.getD 0) * drainPer r + drainPer r - 1) / 256 + 1

/-- The address checks of item 9, in a window of `size` bytes from `base` in a tile's slice. -/
def addressCause (c : Channel) (r : List Word) (tile base size : Nat) : Option Nat :=
  let inWindow (off n : Nat) : Bool := off + n ≤ size
  let (at_, ad) := c.slot (rfield r 28 1 0)
  let (bt, bd) := c.slot (rfield r 28 9 8)
  let src := rfield r 16 47 0
  let srcLen := rfield r 28 7 0 * rfield r 24 31 0 + mldbBytes r bt bd
  let lo := sliceAddr tile base
  let window : Bool :=
    (!recWt r || inWindow (recWbar r) 16) && (recSink r != 1 || inWindow (recSinkAddr r * 16) 16) &&
    match recOp r with
    | 1 => !isScratch src || (lo ≤ src && src + srcLen ≤ lo + size)
    | 2 | 3 => inWindow (rfield r 16 19 0) ((rfield r 20 27 16 + 1) * rfield r 20 15 0) && aRowBytes r at_ ad ≤ size
    | 5 => inWindow (rfield r 16 19 0) ((recRows r - 1) * rfield r 20 15 0 + dRowBytes r bd)
    | 7 => inWindow (rfield r 16 19 0) (32 * (rfield r 20 11 0 + 1))
    | _ => true
  if !window then some 29
  else if recSink r = 2 && (recSinkAddr r % 8 != 0 || isScratch (recSinkAddr r)) then some 71
  else if recOp r = 1 && !rangeLegal src srcLen then some 27
  else if recOp r = 1 && src % 64 != 0 then some 28
  else none

/-- The cause of a record that is refused (R256 items 4 to 9, but MDRAIN's own), for a group and its window. -/
def State.recordCause (s : State) (tile gid base size : Nat) (r : List Word) : Option Nat :=
  let g := s.engine tile
  match g.channel? (recChan r) with
  | none => some 46
  | some c =>
    if c.gid != gid then some 46
    else if recordBad c r then some 48
    else if formatBad g c r then some 53
    else if [2, 3, 4, 5].contains (recOp r) && rowsOutside c (recAcc64 r) (recAccRow r) (recRows r) then some 55
    else addressCause c r tile base size

/-! ### Collective issue (R255, R256) -/

/-- Items 1 to 3: every lane of the team in the group and active, a share, a clean block. -/
def Issue.collective (o : Issue) (s : State) (k : GroupRt → List Word → Res) : Res :=
  let all := lanesOf o.t.width (o.t.allGroups.foldl (fun m g => m ||| g.mask) 0)
  let block := readRegs o.t 0 o.ra 8
  match s.group? o.t.id.gid with
  | none => .trap 52 (maskOf o.act) [] false none
  | some grp =>
    if o.act != all then .trap 7 (maskOf o.act) [] false none
    else if grp.share = 0 then .trap 52 (maskOf o.act) [] false none
    else if block.any (·.p) then .rollback 19 (maskOf o.act) [] false
    else k grp (block.map (·.w))

/-- Does a channel descriptor break Table 12-2 or R132 (R254)? -/
def channelBad (r : List Word) : Bool :=
  let f := rfield r
  let rel := f 0 2 2 = 1
  let slotBad (i : Nat) : Bool :=
    let t := f 12 (8 * i + 4) (8 * i)
    let d : Word := BitVec.ofNat 32 (f (16 + 4 * i) 31 0)
    f 12 (8 * i + 7) (8 * i + 5) != 0 || !([0, 1, 2, 3, 6].contains t) || (if t = 6 then !descriptorValid d else d != 0)
  if rel then recordNat r / 8 != 0
  else
    f 0 31 25 != 0 || f 0 7 5 != 0 || f 0 24 16 = 0 || 256 < f 0 24 16 || 256 < f 0 15 8 + f 0 24 16 || f 4 31 20 != 0 ||
    f 4 19 0 % 32 != 0 || f 8 31 13 != 0 || f 8 12 0 = 0 || 4096 < f 8 12 0 || (List.range 4).any slotBad

/-- Do two ranges of rows, or two lists of sets, meet? -/
def Channel.clashes (c : Channel) (base count sets : Nat) : Bool := rangesMeet c.accBase c.accCount base count || c.sets &&& sets != 0

/-- Rows and sets that pass to a context that did not hold them read 0 (R248, R252). -/
def Engine.give (g : Engine) (ctx base count sets : Nat) : Engine :=
  let g := (List.range count).foldl (fun g i =>
    let r := base + i
    if fget 0 g.owners r = ctx + 1 then g
    else { g with
      acc := g.acc.filter fun (k, _) => k / 256 != r
      status := fput 0 g.status r 0
      owners := fput 0 g.owners r (ctx + 1) }) g
  [0, 1].foldl (fun g x => if bit sets x && (g.set x).ctx != some ctx then g.modSet x fun _ => { MacroSet.none with ctx := some ctx } else g) g

/-- MCFG (R254): in force at issue; the engine fetches the ring once it has left the Coolbox.  A freed channel's numbering goes on for
whoever configures it next (log entry 126). -/
def execMcfg (a : Reg) (lit : Word) (s : State) : Host.Outcome State Fault Refusal :=
  issue (.mcfg a lit) (fun o s => o.collective s fun grp r =>
    let f := rfield r
    let tile := o.t.id.tile
    let g := s.engine tile
    let c := f 0 1 0
    let rel := f 0 2 2 = 1
    let own := g.channel? c
    let sets := f 0 4 3
    let all := maskOf o.act
    let foreign := match own with
      | some x => x.gid != grp.gid
      | none => false
    let clash := !rel && g.channels.any fun x => x.chan != c && x.clashes (f 0 15 8) (f 0 24 16) sets
    if channelBad r || foreign || clash then .trap 47 all [] false none
    else if 16 * grp.share < f 0 24 16 then .trap 52 all [] false none
    else if !rel && grp.size < f 4 19 0 + 32 * f 8 12 0 then .trap 29 all [] false none
    else if !(g.unretired c).isEmpty then .stall s 15
    else if !o.room s 3 then .stall s 9
    else
      let types := (List.range 4).map fun i => f 12 (8 * i + 4) (8 * i)
      let descs : List Word := (List.range 4).map fun i => BitVec.ofNat 32 (f (16 + 4 * i) 31 0)
      let spent := (own.map (·.spent)).getD 0
      let ch : Channel := ⟨c, grp.gid, o.t.id.ctx, grp.base, grp.size, f 4 19 0, f 8 12 0, f 0 15 8, f 0 24 16, sets, types, descs, g.number c, false, false, grp.share, spent⟩
      let rest := g.free fun k => k.chan == c
      let g := { rest with
        channels := if rel then rest.channels else ch :: rest.channels
        old := g.old ++ [(s.nextId, match own with | some x => [x] | none => [])] }
      let g := if rel then g else g.give o.t.id.ctx (f 0 15 8) (f 0 24 16) sets
      o.single (o.hold (s.modEngine tile fun _ => g) 3 (.mcfg c))) s

/-- A command: numbered, its slot taken, its record held (R257). -/
def Issue.append (o : Issue) (s : State) (r : List Word) (pid : Option Nat) : Nat × State :=
  let tile := o.t.id.tile
  let g := s.engine tile
  let c := recChan r
  let n := ((g.channel? c).map (·.number)).getD 0
  let (bt, bd) := ((g.channel? c).map fun x => x.slot (rfield r 28 9 8)).getD (31, 0)
  let x := g.set (recSet r)
  let (mid, s) := fresh s
  let cmd : Command := ⟨mid, c, n, none, recOp r, r, o.t.id.uid, o.t.id.ctx, o.t.id.gid, o.g.pc, o.word, s.now, false, false, false, 0, 0, 0, none,
    false, false, false, pid, if recOp r = 1 then bt else x.typ, if recOp r = 1 then bd else x.desc, if recOp r = 1 then rfield r 28 11 11 == 1 else x.sparse,
    (x.typ, x.desc, x.sparse), none⟩
  let s := s.modEngine tile fun g =>
    let g := g.modChannel c fun k => { k with number := (k.number + 1) % 2 ^ 32 }
    let g := { g with cmds := g.cmds ++ [cmd] }
    if recOp r = 1 then g.modSet (recSet r) fun m => { m with typ := bt, desc := bd, sparse := rfield r 28 11 11 == 1 } else g
  (n, o.hold s 3 (.command mid))

/-- Is the slot of the next command still taken (R257)? -/
def State.ringFull (s : State) (tile c : Nat) : Bool :=
  let g := s.engine tile
  match g.channel? c with
  | some k => (g.unretired c).any fun x => x.number % k.rsize == k.number % k.rsize
  | none => false

/-- A matrix command but MDRAIN: its number goes to d (R256, R257). -/
def Issue.command (o : Issue) (s : State) (op : Nat) : Res :=
  o.collective s fun grp r =>
    let all := maskOf o.act
    match s.recordCause o.t.id.tile grp.gid grp.base grp.size r with
    | some 46 => .trap 46 all [] false none
    | other =>
      if recOp r != op then .trap 48 all [] false none
      else match other with
      | some c => .trap c all [] false none
      | none =>
        if s.ringFull o.t.id.tile (recChan r) then .stall s 16
        else if !o.room s 3 then .stall s 9
        else
          let (n, s) := o.append s r none
          o.single (o.commit s (o.toAll ⟨BitVec.ofNat 64 n, false⟩))

/-- MLDB (R263). -/
def execMldb (d a : Reg) (lit : Word) (s : State) : Host.Outcome State Fault Refusal := issue (.mldb d a lit) (fun o s => o.command s 1) s
/-- MMA (R264). -/
def execMma (d a : Reg) (lit : Word) (s : State) : Host.Outcome State Fault Refusal := issue (.mma d a lit) (fun o s => o.command s 2) s
/-- MMAS (R264). -/
def execMmas (d a : Reg) (lit : Word) (s : State) : Host.Outcome State Fault Refusal := issue (.mmas d a lit) (fun o s => o.command s 3) s
/-- MZERO (R268). -/
def execMzero (d a : Reg) (lit : Word) (s : State) : Host.Outcome State Fault Refusal := issue (.mzero d a lit) (fun o s => o.command s 4) s
/-- MSTORE (R269). -/
def execMstore (d a : Reg) (lit : Word) (s : State) : Host.Outcome State Fault Refusal := issue (.mstore d a lit) (fun o s => o.command s 5) s
/-- MRUN (R270). -/
def execMrun (d a : Reg) (lit : Word) (s : State) : Host.Outcome State Fault Refusal := issue (.mrun d a lit) (fun o s => o.command s 7) s

/-- MDRAIN (R269): the values pend in d's registers, and the team issues nothing until they land. -/
def execMdrain (d a : Reg) (lit : Word) (s : State) : Host.Outcome State Fault Refusal :=
  issue (.mdrain d a lit) (fun o s => o.collective s fun grp r =>
    let all := maskOf o.act
    let acc64 := recAcc64 r
    let regs := drainPer r * if acc64 then 2 else 1
    let rows := drainRows r o.act
    let ch := (s.engine o.t.id.tile).channel? (recChan r)
    let outside := ch.any fun c => rowsOutside c acc64 (recAccRow r) rows
    match s.recordCause o.t.id.tile grp.gid grp.base grp.size r with
    | some 46 => .trap 46 all [] false none
    | other =>
      if recOp r != 6 then .trap 48 all [] false none
      else if other = some 48 || other = some 53 then .trap (other.getD 0) all [] false none
      else if outside then .trap 55 all [] false none
      else if 63 < o.rd.toNat + regs - 1 || (acc64 && o.rd.toNat % 2 = 1) || (acc64 && 127 < recAccRow r + rows - 1) then .trap 54 all [] false none
      else match other with
      | some c => .trap c all [] false none
      | none =>
        if o.act.any fun l => !resident o.t l ((List.range regs).map fun i => o.t.slotOf l (o.rd.toNat + i)) then .stall s 2
        else if s.ringFull o.t.id.tile (recChan r) then .stall s 16
        else if !o.room s 3 then .stall s 9
        else
          let (pid, s) := o.pend s (o.act.map fun l => ⟨l, destOf o.t o.rd l, regs, 0, false, [], none, 0⟩) (s.now + Config.Q) false false []
          o.single (o.append s r (some pid)).2) s

end Sys2Proof.Machine
end

