-- ==== Sys2Proof/Machine/Records.lean ====
section
/-! DEFINITION. Records on their way to their rings (R180, R197, R198, R325, R367, R382), ending a team's lanes and a
context (R182, R244, R274, R327), and rebuilding array words (R191, R216, R217). -/

namespace Sys2Proof.Machine

/-! ### Rings of records -/

/-- A ring of 64-byte slots: its base, the counts of freed and posted slots, and its size (R382). -/
structure RecordRing where
  base : Nat
  head : Nat
  tail : Nat
  slots : Nat
deriving DecidableEq, Repr

/-- The ring that a record is for (Table 17-2). -/
def State.recordRing (s : State) (p : Posting) : RecordRing :=
  match p.ctx.bind s.ctx?, p.kind with
  | some c, .fault => ⟨c.faultBase, c.faultHead, c.faultTail, 2 ^ c.faultLog⟩
  | some c, _ => ⟨c.trapBase, c.trapHead, c.trapTail, 2 ^ c.trapLog⟩
  | none, _ => ⟨s.tables.errBase, s.tables.errHead, s.tables.errTail, 4096⟩

/-- Has a ring a free slot (R382)? -/
def RecordRing.free (r : RecordRing) : Bool := decide ((r.tail + 2 ^ 32 - r.head) % 2 ^ 32 < r.slots)

/-- A slot of a ring has been posted. -/
def State.bumpTail (s : State) (p : Posting) : State :=
  match p.ctx.bind s.ctx?, p.kind with
  | some c, .fault => s.modCtx c.id fun x => { x with faultTail := (x.faultTail + 1) % 2 ^ 32, seq := x.seq + 1 }
  | some c, _ => s.modCtx c.id fun x => { x with trapTail := (x.trapTail + 1) % 2 ^ 32, seq := x.seq + 1 }
  | none, _ => { s with tables := { s.tables with errTail := (s.tables.errTail + 1) % 2 ^ 32 } }

/-- Bytes with a number of four bytes put in at an offset. -/
def patch4 (bs : List Byte) (at_ v : Nat) : List Byte := bs.take at_ ++ toBytes 4 v ++ bs.drop (at_ + 4)

/-- Do two records go to one ring? -/
def Posting.sameRing (p q : Posting) : Bool := p.ctx == q.ctx && (p.kind == .fault) == (q.kind == .fault)

/-- The postings before one. -/
def State.postedBefore (s : State) (id : Nat) : List Posting := s.postings.takeWhile fun q => q.id != id

/-- Can a record be written into its ring now: a free slot, and no earlier record of the ring waiting (R180)? -/
def State.canWrite (s : State) (p : Posting) : Bool :=
  p.stage == 0 && (s.recordRing p).free && !(s.postedBefore p.id).any fun q => q.stage == 0 && p.sameRing q

/-- The sequence number that a record gets, and its bytes with it. -/
def State.recordSeq (s : State) (p : Posting) : Nat := ((p.ctx.bind s.ctx?).map (·.seq)).getD 0
def State.recordBytes (s : State) (p : Posting) : List Byte := patch4 p.bytes (if p.kind = .fault then 48 else 52) (s.recordSeq p)

/-- A record is written into the next slot of its ring with its sequence number. -/
def State.writeRecord (s : State) (p : Posting) : State :=
  let r := s.recordRing p
  let slot := r.tail % r.slots
  let seq := s.recordSeq p
  let bytes := s.recordBytes p
  let s := (s.memStore (r.base + 64 * slot) (bytes.map (·, false))).bumpTail p
  let s := if p.kind = .trap then s.modTeam p.uid fun t => { t with park := t.park.map fun k => { k with record := bytes } } else s
  { s with
    faults := if p.kind = .fault then modifyWhere (fun f => f.id == p.id) (fun f => { f with seq := seq, posted := true }) s.faults else s.faults
    postings := (s.postings.filter fun q => q.id != p.id) ++ [{ p with bytes := bytes, stage := 1, index := slot }] }

/-- The thread that a record's slot index goes to (R367). -/
def State.threadOf (s : State) (ctx : Option Nat) : Nat := ((ctx.bind s.ctx?).map (·.thread)).getD 0

/-- Pushing one word to a thread's queue and writing its notify register, if it has room (R366). -/
def State.tellThread (s : State) (j : Nat) (w : Word) : Option State :=
  match (s.thread j).ring.reserve 1 with
  | none => none
  | some (v, r) =>
    some ((s.modThread j fun t => { t with ring := r.fill [v], words := fput PWord.zero t.words (r.index v) ⟨w, false⟩ }).notify j)

/-- A written record's index reaches its thread, in the order the context's records reached the rings (R180). -/
def State.tellRecord (s : State) (p : Posting) : State :=
  if p.stage != 1 || (s.postedBefore p.id).any (fun q => q.stage == 1 && q.ctx == p.ctx) then s
  else match s.tellThread (s.threadOf p.ctx) (BitVec.ofNat 32 p.index) with
  | some s => { s with postings := s.postings.filter fun q => q.id != p.id }
  | none => s

/-- The posting of a kind with a number. -/
def State.posting? (s : State) (id : Nat) (k : RecordKind) : Option Posting := s.postings.find? fun p => p.id == id && p.kind == k

/-- One record goes as far as it can: into its ring, then its index to the thread. -/
def State.post (s : State) (id : Nat) (k : RecordKind) : State :=
  let s := match s.posting? id k with
    | some p => if s.canWrite p then s.writeRecord p else s
    | none => s
  match s.posting? id k with
  | some p => s.tellRecord p
  | none => s

/-- Can a posting make progress? -/
def State.canPost (s : State) (p : Posting) : Bool :=
  s.canWrite p || (p.stage == 1 && !(s.postedBefore p.id).any (fun q => q.stage == 1 && q.ctx == p.ctx) &&
    decide (1 ≤ (s.thread (s.threadOf p.ctx)).ring.room))

/-- TRAP_RECORD_POST (R180). -/
def execTrapRecordPost (id : Nat) (s : State) : Host.Outcome State Fault Refusal := .next (s.post id .trap)
/-- FAULT_RECORD_POST (R325). -/
def execFaultRecordPost (id : Nat) (s : State) : Host.Outcome State Fault Refusal := .next (s.post id .fault)
/-- ERROR_RECORD_POST (R198). -/
def execErrorRecordPost (id : Nat) (s : State) : Host.Outcome State Fault Refusal := .next (s.post id .error)

/-- A record of kind C or K for a context: a trap record that parks no team (R199). -/
def State.contextRecord (s : State) (ctx cause value : Nat) : State :=
  let (id, s) := fresh s
  let bytes := toBytes 4 (cause + 1 <<< 8) ++ toBytes 4 (ctx <<< 15) ++ toBytes 8 0 ++ toBytes 8 s.now ++ toBytes 8 value ++ List.replicate 32 0
  { s with postings := s.postings ++ [⟨id, .trap, some ctx, ctx <<< 15, 0, bytes, 0, 0⟩] }

/-! ### Ending a team's lanes (R182) -/

/-- Every lane of a team ends as by EXIT; what it issued before still leaves, and the traps of its engine work are posted (R246, R273). -/
def State.endLanes (s : State) (uid : Nat) : State :=
  match s.team? uid with
  | none => s
  | some t =>
    let s := (s.dropGrants t).dropPends t (t.pend.filter (·.raised))
    let s := { s with faults := s.faults.filter fun f => !(f.uid == uid && (f.stops || f.unit == 3 || f.unit == 7)) }
    s.modTeam uid fun t => { t with
      arch := { t.arch with groups := [], moved := [], rep := none, mac := none, only := none }
      pend := t.pend.filter fun p => !p.raised
      links := []
      shadow := []
      status := .running
      park := none
      wait := none
      deferred := t.deferred.filter fun d => !d.replay && d.cause != 11
      grants := []
      wants := none
      fence := none
      sched := { t.sched with stallCause := 0, parked := [] } }

/-! ### Groups (R329, R446) -/

/-- The fields of a quota table entry (Table 22-4). -/
def quotaValid (q : BitVec 128) : Bool := bit q.toNat 127
def quotaCtx (q : BitVec 128) : Nat := bits q.toNat 126 110
def quotaKernel (q : BitVec 128) : Nat := bits q.toNat 109 62
def quotaTeams (q : BitVec 128) : Nat := bits q.toNat 61 55
def quotaUsed (q : BitVec 128) : Nat := bits q.toNat 54 48
def quotaShare (q : BitVec 128) : Nat := bits q.toNat 35 31

/-- The valid quota entries of a tile with their indices. -/
def State.quotasOf (s : State) (tile : Nat) : List (Nat × BitVec 128) :=
  s.tables.quotas.filterMap fun (k, q) => if k / 64 = tile && quotaValid q then some (k % 64, q) else none

/-- Writing a quota entry. -/
def State.setQuota (s : State) (tile i : Nat) (q : BitVec 128) : State :=
  { s with tables := { s.tables with quotas := fput 0 s.tables.quotas (tile * 64 + i) q } }

/-- The entry of a kernel on a tile. -/
def State.quotaOf (s : State) (tile ctx kernel : Nat) : Option (Nat × BitVec 128) :=
  (s.quotasOf tile).find? fun (_, q) => quotaCtx q == ctx && quotaKernel q == kernel

/-- The macro bodies of a kernel of a context. -/
def State.macrosOf (s : State) (ctx kernel : Nat) : List (Nat × List Word) :=
  ((s.disp.kernels.find? fun k => k.ctx == ctx && k.profile.entry == kernel).map (·.macros)).getD []

/-- Clearing a kernel's entry: the macros it alone used there become empty (R66, R446). -/
def State.clearQuota (s : State) (tile i : Nat) (q : BitVec 128) : State :=
  let s := s.setQuota tile i 0
  let others := (s.quotasOf tile).flatMap fun (_, r) => (s.macrosOf (quotaCtx r) (quotaKernel r)).map (·.1)
  let mine := ((s.macrosOf (quotaCtx q) (quotaKernel q)).map (·.1)).filter fun m => !others.contains m
  mine.foldl (fun s m =>
    let k := tile * 4096 + 32 * m
    { s with tables := { s.tables with store := fput 0 s.tables.store k 0, storePoison := fput false s.tables.storePoison k false } }) s

/-- `n` teams of a kernel leave a tile; the last one clears the entry. -/
def State.releaseQuota (s : State) (tile ctx kernel n : Nat) : State :=
  match s.quotaOf tile ctx kernel with
  | none => s
  | some (i, q) =>
    let used := quotaUsed q - n
    if used = 0 then s.clearQuota tile i q
    else s.setQuota tile i (BitVec.ofNat 128 (q.toNat - quotaUsed q * 2 ^ 48 + used * 2 ^ 48))

/-- A group's window goes: the queues whose rings lie in it lose their valid bit, then its entry clears (R329). -/
def State.closeWindow (s : State) (g : GroupRt) : State :=
  match g.window with
  | none => s
  | some i =>
    let inside (q : TileQueue) : Bool := decide (g.base ≤ q.base) && decide (q.base < g.base + g.size)
    let queues := s.tables.queues.filterMap fun (k, q) =>
      if k / 64 = g.tile && inside q then (if { q with valid := false } = TileQueue.none then none else some (k, { q with valid := false })) else some (k, q)
    { s with tables := { s.tables with queues := queues, windows := fput 0 s.tables.windows (g.tile * 128 + i) 0 } }

/-- A group has no team left on its tile: its window closes, and its channels are released as their commands retire (R254, R329). -/
def State.closeGroup (s : State) (gid : Nat) : State :=
  match s.group? gid with
  | none => s
  | some g =>
    let s := s.closeWindow g
    let s := s.modEngine g.tile fun e => e.free fun c => c.gid == gid && (e.unretired c.chan).isEmpty
    { s with disp := { s.disp with groups := s.disp.groups.filter fun x => x.gid != gid } }

/-! ### Killing a context (R182) -/

/-- Engines stop the commands of a context, discard their held effects and free its channels (R274). -/
def Engine.dropCtx (g : Engine) (c : Nat) : Engine :=
  let gone := (g.cmds.filter fun x => x.ctx == c).map (·.mid)
  { g.free fun x => x.ctx == c with
    cmds := g.cmds.filter fun x => x.ctx != c
    holds := g.holds.filter fun h => !gone.contains h.mid
    old := g.old.filter fun (_, cs) => !cs.any fun x => x.ctx == c }

/-- Requests of a context leave the equivalence engines (R362). -/
def EqEngines.dropCtx (q : EqEngines) (c : Nat) : EqEngines :=
  let gone := (q.reqs.filter fun r => r.ctx == c).map (·.rid)
  let adding (f : Forest) : Nat := (q.walks.filter fun w => !gone.contains w.rid && (q.reqs.any fun r => r.rid == w.rid && r.forest == f.fid) &&
    match w.stage with
    | .add .. => true
    | _ => false).length
  { q with
    forests := q.forests.map fun f => { f with reserved := min f.reserved (adding f) }
    reqs := q.reqs.filter fun r => r.ctx != c
    walks := q.walks.filter fun w => !gone.contains w.rid
    holds := q.holds.filter fun h => !gone.contains h.rid }

/-- A forest whose every holder's context was killed keeps its arrays; its marks and its log go (R356). -/
def State.dropMarks (s : State) (c : Nat) : State :=
  let held (fid : Nat) (p : Team → Bool) : Bool := (s.allTeams ++ s.disp.images).any fun t => t.arch.forest == some fid && p t
  let f (x : Forest) : Forest :=
    if held x.fid (fun t => t.id.ctx == c) && !held x.fid (fun t => t.id.ctx != c) then { x with marks := [], logFill := 0, reserved := 0 } else x
  { s with eq := { s.eq with forests := s.eq.forests.map f } }

/-- Every team of the context ends, its held effects are discarded, its engine work stops, its parked faults, waiting work,
windows and tables go. -/
def State.killContext (s : State) (c : Nat) : State :=
  let s := s.dropMarks c
  let ts := s.allTeams.filter fun t => t.id.ctx == c
  let s := ts.foldl (fun s t => (s.dropGrants t).dropPends t t.pend) s
  let s := s.discard fun e => e.ctx == c
  let gs := s.disp.groups.filter fun g => g.ctx == c
  let s := gs.foldl (fun s g => s.closeWindow g) s
  let quotas := s.tables.quotas.filter fun (_, q) => quotaValid q && quotaCtx q == c
  let s := quotas.foldl (fun s (k, q) => s.clearQuota (k / 64) (k % 64) q) s
  let s := ts.foldl (fun s t => s.modWindow t.slotKey fun _ => Window.zero) s
  { s with
    cur := if s.cur.id.uid != 0 && s.cur.id.ctx == c then Team.empty else s.cur
    teams := s.teams.filter fun t => t.id.ctx != c
    copies := s.copies.filter fun x => x.ctx != c
    engines := s.engines.filterMap fun (k, g) => if g.dropCtx c = Engine.none then none else some (k, g.dropCtx c)
    eq := s.eq.dropCtx c
    faults := s.faults.filter fun f => f.ctx != c
    disp := { s.disp with
      works := s.disp.works.filter fun w => w.ctx != c
      groups := s.disp.groups.filter fun g => g.ctx != c
      hampers := (s.disp.hampers.map fun h => if h.tasks.any (fun t => t.ctx == c) then { h with tasks := [], formed := false } else h)
      images := s.disp.images.filter fun t => t.id.ctx != c }
    ctxs := modifyWhere (fun x => x.id == c) (fun x => { x with pool := [], areas := [], measuring := false }) s.ctxs }

/-! ### Array damage (R191, R216, R217) -/

/-- Poisoning the words of a key range. -/
def State.poisonWord (s : State) (key : Nat) : State := { s with mem := s.mem.setPoison key true }

/-- Damage that kills the context of the team that needs the word: UNCORRECTABLE with the row (R191). -/
def State.uncorrectable (s : State) (ctx row : Nat) : State := (s.killContext ctx).contextRecord ctx 21 row

/-- The team of a window slot key. -/
def State.teamOfKey (s : State) (key : Nat) : Option Team := s.allTeams.find? fun t => t.slotKey == key

/-- The data word `k` of bytes, or of pieces one after the other, becomes poisoned. -/
def poisonBytes (k : Nat) (bs : List (Byte × Bool)) : List (Byte × Bool) := bs.zipIdx.map fun (b, i) => (b.1, b.2 || i / 4 == k)
def poisonPieces : Nat → List Piece → List Piece
  | _, [] => []
  | k, p :: ps =>
    let n := ceilDiv p.data.length 4
    if k < n then { p with data := poisonBytes k p.data } :: ps else p :: poisonPieces (k - n) ps

/-- A held effect whose data word `k` is lost (R217). -/
def Effect.damaged (k : Nat) : Effect → Effect
  | .write ps u => .write (poisonPieces k ps) u
  | .rel ps r => .rel (poisonPieces k ps) r
  | .cadd xs r => .cadd (modifyAt (fun (l, a, v) => (l, a, { v with p := true })) xs k) r
  | .atomic pid op xs => .atomic pid op (modifyAt (fun x => { x with v := { x.v with p := true } }) xs k)
  | .aprog pid xs => .aprog pid (modifyAt (fun x => { x with v := { x.v with p := true } }) xs k)
  | .push h ws => .push h (modifyAt (fun (i, w) => (i, { w with p := true })) ws k)
  | .spill c p => .spill c { p with data := poisonBytes k p.data }
  | .entry n p => .entry n { p with data := poisonBytes k p.data }
  | e => e

/-- The team one of whose group overflow entries holds a byte, by its key (R191). -/
def State.entryTeam (s : State) (key : Nat) : Option Team :=
  s.allTeams.find? fun t => t.arch.moved.any fun m => m.stored && match s.keyOf t.id.tile t.id.ctx (t.overflowAddr m.entry) with
    | some k => decide (k ≤ key) && decide (key < k + overflowBytes t.width)
    | none => false

/-- What becomes of a word that cannot be rebuilt: its context is killed, or it is poisoned, with the context it belongs to, its unit and
its place for the record. -/
inductive Lost where
  | kills (ctx : Nat)
  | poisons (ctx : Option Nat) (unit place : Nat)
deriving DecidableEq, Repr

/-- A word of memory is lost, or of a group overflow entry, which a checkpoint needs (R191). -/
def State.loseByte (s : State) (key : Nat) (ctx : Option Nat) (unit place : Nat) : State × Lost := match s.entryTeam key with
  | some t => (s, .kills t.id.ctx)
  | none => (s.poisonWord key, .poisons ctx unit place)

/-- A word that cannot be rebuilt (R191, R217), by its array and its address there. -/
def State.lose (s : State) (tile kind address : Nat) : State × Lost :=
  let place := tile * 2
  match kind with
  | 0 =>
    let (l, n) := (address / 65536 % 1024, address % 65536)
    match s.teamAt tile (address / 2 ^ 26) with
    | none => (s, .poisons none 6 place)
    | some t =>
      let (a, b) := liveRange (t.lane l).fp.toNat
      if a ≤ n && n < b then (s, .kills t.id.ctx)
      else (s.modTeam t.id.uid fun t => t.setFrame l fun f =>
        { f with slots := fput PWord.zero f.slots n ⟨(fget PWord.zero f.slots n).w, true⟩ }, .poisons (some t.id.ctx) 6 place)
  | 1 =>
    let owner := (s.windowsOf tile).find? fun (_, w) => winValid w && decide (sliceAddr tile (winBase w) ≤ address) && decide (address < sliceAddr tile (winBase w) + winSize w)
    s.loseByte address (owner.map fun (_, w) => winCtx w) 6 place
  | 2 =>
    let owner := (s.engine tile).channels.find? fun k => decide (k.accBase ≤ address / 256) && decide (address / 256 < k.accBase + k.accCount)
    (s.modEngine tile fun g => { g with acc := fput ⟨0, false⟩ g.acc address ⟨(fget ⟨0, false⟩ g.acc address).w, true⟩ }, .poisons (owner.map (·.ctx)) 2 place)
  | 3 =>
    let (x, k) := (address / 2 ^ 32, address % 2 ^ 32)
    (s.modEngine tile fun g => g.modSet x fun m => { m with cells := fput PVal.z m.cells k ⟨(fget PVal.z m.cells k).v, true⟩ },
      .poisons ((s.engine tile).set x).ctx 2 place)
  | 4 =>
    let (c, va) := (address / 2 ^ 48, address % 2 ^ 48)
    match s.mem.line? tile c (va / 64 * 64), (s.keyOf tile c va).bind s.entryTeam with
    | some _, some t => (s, .kills t.id.ctx)
    | some _, none => ({ s with mem := s.mem.modLine tile c (va / 64 * 64) fun l => { l with poison := setBits l.poison [va % 64 / 4] true } }, .poisons (some c) 6 place)
    | none, _ => (s, .poisons none 6 place)
  | 5 =>
    match s.coolbox.find? fun e => e.tile == tile && e.id == address / 64 with
    | some e => ({ s with coolbox := modifyWhere (fun x => x.id == e.id) (fun x => { x with eff := x.eff.damaged (address % 64) }) s.coolbox }, .poisons (some e.ctx) 6 place)
    | none => (s, .poisons none 6 place)
  | 6 => ({ s with tables := { s.tables with storePoison := fput false s.tables.storePoison (tile * 4096 + address % 4096) true } }, .poisons none 6 place)
  | 7 | 8 => match s.teamAt tile address with
    | some t => (s, .kills t.id.ctx)
    | none => (s, .poisons none 6 place)
  | _ =>
    let owner := s.mem.tlb.find? fun e => bits e.pte.toNat 47 12 * 4096 ≤ address && address < bits e.pte.toNat 47 12 * 4096 + e.size
    s.loseByte address (owner.map (·.ctx)) 5 (homeOf address)

/-- What is posted for a lost word of a row: a killed context's UNCORRECTABLE, or ARRAY_POISON for the context it belongs to (R191, R198). -/
def State.postLost (s : State) (row : Nat) : Lost → State
  | .kills c => s.uncorrectable c row
  | .poisons c unit place => s.errorRecord c 90 unit place 0 row 0

/-- Do two lost words call for one record? -/
def Lost.alike : Lost → Lost → Bool
  | .poisons c .., .poisons d .. => c == d
  | .kills c, .kills d => c == d
  | _, _ => false

/-- ARRAY_REBUILD (R216, R217): a read finds a damaged word. It waits at most 288 cycles while the word is rebuilt, and ARRAY_CORRECTED is
posted; with a second damaged word of its column (`other`: its row and address) neither can be rebuilt, and a word that memory's own ECC
cannot correct arrives poisoned. -/
def execArrayRebuild (tile kind row address : Nat) (other : Option (Nat × Nat)) (s : State) : Host.Outcome State Fault Refusal :=
  match other with
  | some (row', address') =>
    let (s, a) := s.lose tile kind address
    let (s, b) := s.lose tile kind address'
    let s := s.postLost row a
    .next (if a.alike b then s else s.postLost row' b)
  | none =>
    if 10 ≤ kind then let (s, a) := s.lose tile kind address; .next (s.postLost row a)
    else
      let (d, s) := draw s
      let r : Rebuild := ⟨tile, kind, address, s.now + d % 289⟩
      let s := { s with tables := { s.tables with rebuilds := r :: s.tables.rebuilds.filter fun x => decide (s.now < x.until_) } }
      .next (s.errorRecord none 89 (if kind = 9 then 5 else 6) (if kind = 9 then homeOf address else tile * 2) 0 row 0)

end Sys2Proof.Machine
end

