-- ==== Sys2Proof/Machine/Admission.lean ====
section
/-! DEFINITION. Launch records and their checks (R443, R444), admission (R446-R449) and Hampers (R456-R461). -/

namespace Sys2Proof.Machine

/-! ### Records (Tables 22-2, 22-7, 22-9) -/

/-- A little-endian field of a record. -/
def fieldAt (bs : List Byte) (off n : Nat) : Nat := ofBytes ((bs.drop off).take n)

/-- Reading a number of 64-byte blocks of a record at their ordering points: the bytes, or the cause of the first block
that cannot be accessed. A device access uses no tile's TLB. -/
def State.readRecord (s : State) (ctx va : Nat) (need : Need) : Nat → Except Nat (List Byte)
  | 0 => .ok []
  | k + 1 =>
    if isScratch va then
      match s.readRecord ctx (va + 64) need k with
      | .ok bs => .ok (s.mem.read va 64 ++ bs)
      | .error c => .error c
    else match s.translate Config.tiles ctx va need with
    | .ok pa _ _ => match s.readRecord ctx (va + 64) need k with
      | .ok bs => .ok (s.mem.read pa 64 ++ bs)
      | .error c => .error c
    | .bad c => .error c
    | .fault _ => .error 24

/-- The fields of a launch record (Table 22-2). -/
def parseProfile (bs : List Byte) : Profile :=
  let f := fieldAt bs
  let widths := f 8 8
  { entry := f 0 8 % 2 ^ 48
    widths := (List.range 6).map fun i => bits widths (8 * i + 5) (8 * i)
    wcode := bits (f 16 4) 2 0
    span := bits (f 16 4) 5 4
    cls := bits (f 16 4) 9 8
    yield := bits (f 16 4) 15 12
    frame := bits (f 20 4) 11 0
    groups := f 24 4
    maxGroups := f 28 4
    teams := bits (f 32 4) 6 0
    share := bits (f 32 4) 12 8
    scratch := f 36 4
    spill := f 40 8 % 2 ^ 48
    spillSize := f 48 4
    maxDepth := bits (f 52 4) 7 0
    sync := f 56 8
    counter := f 64 8
    trapEntry := f 72 8
    args := (List.range 8).map fun i => BitVec.ofNat 32 (f (96 + 4 * i) 4) }

/-- Bits of a record that must be zero and are not (Table 22-2). -/
def recordMbz (bs : List Byte) : Bool :=
  let f := fieldAt bs
  f 0 8 / 2 ^ 48 != 0 || (f 8 8 &&& 0xFFFFC0C0C0C0C0C0) != 0 || (f 16 4 &&& 0xFFFF0CC8) != 0 || f 20 4 / 2 ^ 12 != 0 ||
  (f 32 4 &&& 0xFFFFE080) != 0 || f 40 8 / 2 ^ 48 != 0 || f 52 4 / 2 ^ 8 != 0 || f 84 4 != 0 || f 88 8 != 0

def Profile.w (p : Profile) (i : Nat) : Nat := p.widths.getD i 0
/-- Team width W. -/
def Profile.width (p : Profile) : Nat := 16 <<< p.wcode
/-- Teams of a group. -/
def Profile.teamsPer (p : Profile) : Nat := 2 ^ p.w 1

/-- A kernel of a context whose `.entry` is at an address. -/
def State.kernelAt (s : State) (ctx entry : Nat) : Option Kernel := s.disp.kernels.find? fun k => k.ctx == ctx && k.profile.entry == entry

/-- The `.entry` of the kernel that an entry belongs to: its own, or that of the kernel whose `.task` it is. -/
def State.kernelEntry (s : State) (ctx entry : Nat) : Nat :=
  match s.disp.kernels.find? fun k => k.ctx == ctx && (k.profile.entry == entry || k.tasks.any fun (e, _) => e == entry) with
  | some k => k.profile.entry
  | none => entry

/-- An address field that is misaligned or outside the translated region. -/
def addrBad (a align : Nat) : Bool := a % align != 0 || !isTranslated a

/-- Groups of a profile that fit together on one empty tile. -/
def Profile.perTile (p : Profile) (scratch : Nat) : Nat :=
  let cols := if p.width = 16 then 2 * (Config.columnSlots / max 1 p.frame) else Config.columnSlots / max 1 (p.width / 32 * p.frame)
  let side := min 32 (min (1024 / p.width) cols)
  let byTeams := min (2 * side) p.teams / p.teamsPer
  if p.scratch = 0 then byTeams else min byTeams (min 128 (min Config.sliceBytes scratch / p.scratch))

/-- The checks of Table 22-3 but the last; `profile` is set for a job's profile, whose entry, groups, counter and sync are not
looked at (R454). -/
def State.launchCause (s : State) (ctx : Nat) (bs : List Byte) (profile : Bool) : Option Nat :=
  let p := parseProfile bs
  let g := ((s.ctx? ctx).map (·.grant.toNat)).getD 0
  let grantScratch := bits g 63 32 * 16
  let record : Bool :=
    recordMbz bs || p.wcode = 7 || p.span = 3 || p.width < 16 <<< p.span || p.frame % 16 != 0 || p.frame < 96 || Config.columnSlots < p.frame ||
    p.scratch % 16 != 0 || Config.sliceBytes < p.scratch || p.teams = 0 || 64 < p.teams || 16 < p.share ||
    addrBad p.spill 64 || p.spillSize % 64 != 0 || addrBad p.trapEntry 4 ||
    (!profile && (p.groups = 0 || p.maxGroups < p.groups || addrBad p.sync 8 || addrBad p.counter 8 || (s.kernelAt ctx p.entry).isNone))
  let sum := p.widths.foldl (· + ·) 0
  let fields : Bool :=
    p.widths.any (32 < ·) || 64 < sum || p.w 0 != p.wcode + 4 || (!profile && 2 ^ (64 - p.w 0 - p.w 1) ≤ p.maxGroups - 1)
  let quota : Bool :=
    2048 < p.teamsPer * p.width || p.teams < p.teamsPer || (!profile && 8 * p.perTile grantScratch < min (2 ^ p.w 2) p.maxGroups) ||
    bits g 6 0 < p.teams || bits g 12 8 < p.share || grantScratch < p.scratch
  if record then some 80 else if fields then some 81 else if slotLimit p.width p.spillSize < 64 then some 83 else if quota then some 82 else none

/-! ### The loader (R377-R379) -/

/-- Does a context have a team of a kernel, resident or pre-empted, or one still to be admitted? -/
def State.kernelInUse (s : State) (k : Kernel) : Bool :=
  (s.disp.works.any fun w => w.ctx == k.ctx && s.kernelEntry w.ctx w.profile.entry == k.profile.entry) ||
  s.disp.groups.any fun g => g.ctx == k.ctx && g.kernel == k.profile.entry

/-- Writing bytes at virtual addresses of a context by its page table. -/
def State.writeVa (s : State) (ctx va : Nat) (bs : List Byte) : State :=
  bs.zipIdx.foldl (fun s (b, i) => match s.keyOf Config.tiles ctx (va + i) with
    | some k => s.memStore k [(b, false)]
    | none => s) s

def State.modKernel (s : State) (k : Kernel) (f : Kernel → Kernel) : State :=
  { s with disp := { s.disp with kernels := modifyWhere (fun x => x.ctx == k.ctx && x.index == k.index) f s.disp.kernels } }

/-- Heap bytes of a kernel's function. -/
def Kernel.heapBytes (k : Kernel) : Nat := roundUp k.code.length 4096

/-- Evicting the cold kernels of a context, least recently launched first: their landing entries go back to their stubs. -/
def State.evictCold (s : State) (ctx : Nat) : State :=
  let cold := sortBy (·.lastLaunch) (s.disp.kernels.filter fun k => k.ctx == ctx && k.loaded && !s.kernelInUse k)
  let base := ((s.ctx? ctx).map (·.landing)).getD 0
  cold.foldl (fun s k =>
    ((s.modKernel k fun x => { x with loaded := false }).modCtx ctx fun c => { c with heap := c.heap - k.heapBytes }).writeVa ctx (base + 8 * k.index) (toBytes 8 k.stub)) s

/-- Placing a kernel's function, if the heap has room, at once or after the cold ones are evicted. -/
def State.loadKernel (s : State) (k : Kernel) : Option State :=
  if k.loaded then some s
  else
    let try_ (s : State) : Option State :=
      match s.ctx? k.ctx with
      | none => none
      | some c =>
        if c.heapEnd < c.heap + k.heapBytes then none
        else
          some (((s.writeVa k.ctx k.base k.code).writeVa k.ctx (c.landing + 8 * k.index) (toBytes 8 k.profile.entry)).modKernel k
            (fun x => { x with loaded := true }) |>.modCtx k.ctx fun c => { c with heap := c.heap + k.heapBytes })
    match try_ s with
    | some s => some s
    | none => try_ (s.evictCold k.ctx)

/-! ### Works -/

def State.modWork (s : State) (id : Nat) (f : Work → Work) : State :=
  { s with disp := { s.disp with works := modifyWhere (fun w => w.id == id) f s.disp.works } }
def State.work? (s : State) (id : Nat) : Option Work := s.disp.works.find? fun w => w.id == id

/-- The status word of a launch record (R445). -/
def State.writeStatus (s : State) (ctx record v : Nat) : State := s.writeVa ctx (record + 80) (toBytes 4 v)

/-- Starting a grid from a launch record that can be read and written: its work's number, or the cause of its refusal (R444, R445). -/
def State.startGrid (s : State) (ctx record : Nat) (bs : List Byte) (timetable : Option Nat) : Except Nat Nat × State :=
  let p := parseProfile bs
  let refuse (c : Nat) : Except Nat Nat × State := (.error c, s.writeStatus ctx record (c + 0x100))
  match s.launchCause ctx bs false, s.kernelAt ctx p.entry with
  | some c, _ => refuse c
  | none, none => refuse 80
  | none, some k => match s.loadKernel k with
    | none => refuse 84
    | some s =>
      let s := s.modKernel k fun x => { x with lastLaunch := s.now }
      let (id, s) := fresh s
      let w : Work := ⟨id, ctx, .grid, p, record, s.now, p.groups, 0, 0, 0, [], 0, 0, [], timetable, false, false, false⟩
      let s := s.writeStatus ctx record 0x7F
      (.ok id, { s with disp := { s.disp with works := s.disp.works ++ [w] } })

/-! ### Admission (R447, R448) -/

/-- Where a team goes: its side, its slot there, and its half. -/
structure Spot where
  side : Nat
  slot : Nat
  half : Nat
deriving DecidableEq, Repr

/-- Frame slots in use in one column of a half of a side (R27, R89). -/
def columnUse (ts : List Team) (half : Nat) : Nat :=
  ts.foldl (fun n t => if t.width = 16 then (if t.id.half = half then n + t.id.frame else n) else n + t.width / 32 * t.id.frame) 0

/-- A side, slot and half of a tile for one more team, if there is one (R447). -/
def State.spot (s : State) (tile width frame : Nat) : Option Spot :=
  firstSome (fun side =>
    let ts := s.allTeams.filter fun t => t.id.tile == tile && t.id.side == side
    let lanes := ts.foldl (fun n t => n + t.width) 0
    let per := if width = 16 then frame else width / 32 * frame
    let fits (h : Nat) : Bool := decide (columnUse ts h + per ≤ Config.columnSlots)
    if 32 ≤ ts.length || 1024 < lanes + width then none
    else match (List.range 32).find? fun k => !ts.any fun t => t.id.slot == k with
    | none => none
    | some slot =>
      if width = 16 then (if fits 0 then some ⟨side, slot, 0⟩ else if fits 1 then some ⟨side, slot, 1⟩ else none)
      else if fits 0 && fits 1 then some ⟨side, slot, 0⟩ else none) [0, 1]

/-- What a team of a work starts with. -/
structure TeamSpec where
  member : Nat
  wid : Dword
  mask : LaneMask
  spill : Nat
  args : List Word
  k24 : Nat
  k25 : Nat
  k26 : Nat
  laneArgs : List (List Word)
  records : List (Nat × Nat)
  syncs : List Nat
deriving DecidableEq, Repr

/-- A word of a 64-bit value. -/
def wordOf (v i : Nat) : Word := BitVec.ofNat 32 (v / 2 ^ (32 * i))

/-- The uniform registers at team start (R98, R449). -/
def startK (args : List Word) (k24 k25 k26 landing window : Nat) : List PWord :=
  ((List.range 8).map (fun i => args.getD i 0) ++ List.replicate 16 0 ++
    [wordOf k24 0, wordOf k25 0, wordOf k26 0, wordOf k26 1, wordOf landing 0, wordOf landing 1, wordOf window 0, wordOf window 1]).map (⟨·, false⟩)

/-- The lanes at team start (R70, R141). -/
def startLanes (w : Nat) : List Lane := (List.range w).map fun l => ⟨0, 0, Codes.zero, 0, BitVec.ofNat 32 ((l + 1) * 0x9E3779B9)⟩

/-- A team is stuck: resident, not ended, running or waiting. -/
def Team.stuck (t : Team) : Bool := t.status == .running || t.status == .waiting

/-- The stuck teams of a context, in ascending team number. -/
def State.stuckTeams (s : State) (c : Nat) : List Team := sortBy (·.slotKey) (s.allTeams.filter fun t => t.id.ctx == c && t.stuck)

/-- The watchdog measures from when a context has a stuck team (R417). -/
def State.measureFrom (s : State) (c : Nat) : State :=
  if (s.stuckTeams c).isEmpty then s.modCtx c fun x => { x with progress := s.wallTime } else s

/-- Forming one team (R448). -/
def State.formTeam (s : State) (w : Work) (g : GroupRt) (p : Spot) (x : TeamSpec) : State :=
  let pr := w.profile
  let s := s.measureFrom w.ctx
  let (uid, s) := fresh s
  let (ck, s) := fresh s
  let landing := ((s.ctx? w.ctx).map (·.landing)).getD 0
  let window := if g.window.isSome then sliceAddr g.tile g.base else Config.scratchTop
  let ident : Ident :=
    ⟨uid, g.tile, p.side, p.slot, p.half, w.ctx, w.id, g.number, x.member, g.gid, pr.wcode, pr.span, pr.frame, pr.w 1, pr.w 2, x.wid, pr.cls, pr.yield,
      BitVec.ofNat 48 pr.trapEntry, x.spill, pr.spillSize, pr.counter, x.records, s.now⟩
  let arch : Arch := ⟨BitVec.ofNat 48 pr.entry, [⟨BitVec.ofNat 48 pr.entry, x.mask, s.now, 0, sigReset, true⟩], [], startLanes pr.width, 0,
    startK x.args x.k24 x.k25 x.k26 landing window, startFormats, none, none, List.replicate 16 none, none, none⟩
  let frame (l : Nat) : Frame :=
    ⟨0, pr.frame, 0, (x.laneArgs.getD l []).zipIdx.foldl (fun m (v, i) => fput PWord.zero m i ⟨v, false⟩) [], true, []⟩
  let t : Team := { Team.empty with
    id := ident
    arch := arch
    shadow := shadowOf arch
    frames := (List.range pr.width).map frame
    ckpts := [⟨ck, s.now, false, arch⟩]
    sys := { Team.empty.sys with tval := List.replicate pr.width 0 }
    sched := { Team.empty.sched with lastIssue := s.now } }
  let s := x.syncs.eraseDups.foldl (fun s o => if o = 0 then s else
    (s.cleanLines (fun l => l.tile == g.tile && l.ctx == w.ctx && inRegions (s.boundTo g.tile w.ctx o) l) (fun _ => true) uid s.now).2) s
  { s with teams := s.teams ++ [t] }

/-- A free run of a slice of `size` bytes, its first byte (R447). -/
def State.freeRun (s : State) (tile size : Nat) : Option Nat :=
  let ws := (s.windowsOf tile).map (·.2)
  let starts := 0 :: ws.map fun w => winBase w + winSize w
  (sortBy (fun x => x) starts).find? fun b => decide (b + size ≤ Config.sliceBytes) && !ws.any fun w => winValid w && rangesMeet b size (winBase w) (winSize w)

/-- A window entry (Table 15-5). -/
def windowEntry (scope ctx owner size base : Nat) : Dword :=
  BitVec.ofNat 64 (2 ^ 63 + scope * 2 ^ 61 + ctx * 2 ^ 44 + owner * 2 ^ 32 + (size / 16 - 1) * 2 ^ 16 + base / 16)

/-- The group slots of a tile in use. -/
def State.freeGroupSlot (s : State) (tile : Nat) : Nat :=
  let used := (s.disp.groups.filter fun g => g.tile == tile).map (·.slot)
  ((List.range (used.length + 1)).find? fun k => !used.contains k).getD 0

/-- A gang's slot in its cluster, the owner of a window of scope 1 (R328): the one its groups have there, or the first that no other
gang's group has (log entry 8). -/
def State.gangSlot (s : State) (tile work gang : Nat) : Nat :=
  let here := s.disp.groups.filter fun g => g.tile / 8 == tile / 8
  match here.find? fun g => g.work == work && g.gang == gang with
  | some g => g.gslot
  | none => ((List.range (here.length + 1)).find? fun k => !here.any fun g => g.gslot == k).getD 0

/-- May a kernel's macros stand in a tile's control store (R66)? -/
def State.macrosFit (s : State) (tile : Nat) (ms : List (Nat × List Word)) : Bool :=
  ms.all fun (i, ws) => s.macroWord tile i 0 == 0 || (List.range 32).all fun j => s.macroWord tile i j == ws.getD j 0

/-- Writing a kernel's macros (R20). -/
def State.putMacros (s : State) (tile : Nat) (ms : List (Nat × List Word)) : State :=
  ms.foldl (fun s (i, ws) => ws.zipIdx.foldl (fun s (w, j) =>
    let k := tile * 4096 + 32 * i + j
    { s with tables := { s.tables with store := fput 0 s.tables.store k w, storePoison := fput false s.tables.storePoison k false } }) s) s

/-- Counting `n` more teams of a kernel on a tile, with its entry and macros when it is new there (R446, R447). -/
def State.takeQuota (s : State) (tile ctx : Nat) (p : Profile) (n : Nat) : Option State :=
  let kernel := s.kernelEntry ctx p.entry
  match s.quotaOf tile ctx kernel with
  | some (i, q) =>
    if quotaTeams q < quotaUsed q + n then none else some (s.setQuota tile i (BitVec.ofNat 128 (q.toNat + n * 2 ^ 48)))
  | none =>
    let qs := s.quotasOf tile
    let ms := s.macrosOf ctx kernel
    if p.teams < n || 16 < qs.foldl (fun m (_, q) => m + quotaShare q) p.share || !s.macrosFit tile ms then none
    else match (List.range 64).find? fun i => !qs.any fun (k, _) => k == i with
    | none => none
    | some i =>
      let v := 2 ^ 127 + ctx * 2 ^ 110 + kernel * 2 ^ 62 + p.teams * 2 ^ 55 + n * 2 ^ 48 + p.frame % 2 ^ 12 * 2 ^ 36 + p.share * 2 ^ 31 + p.scratch / 16
      some ((s.putMacros tile ms).setQuota tile i (BitVec.ofNat 128 v))

/-- Giving a group its window, when its kernel asks for one (R447, R329). A gang of several groups shares its windows (R33). -/
def State.openWindow (s : State) (p : Profile) (g : GroupRt) : Option (GroupRt × State) :=
  if p.scratch = 0 then some (g, s)
  else match s.freeRun g.tile p.scratch, (List.range 128).find? fun i => !(s.windowsOf g.tile).any fun (k, _) => k == i with
  | some base, some i =>
    let g := { g with window := some i, base := base, size := p.scratch }
    let e := if 0 < p.w 2 then windowEntry 1 g.ctx g.gslot p.scratch base else windowEntry 0 g.ctx g.slot p.scratch base
    some (g, s.setWindow g.tile i e)
  | _, _ => none

/-- Forming a group's teams on a tile, if each finds a side. -/
def State.formTeams (s : State) (w : Work) (g : GroupRt) : List TeamSpec → Option State
  | [] => some s
  | x :: xs => match s.spot g.tile w.profile.width w.profile.frame with
    | none => none
    | some p => (s.formTeam w g p x).formTeams w g xs

/-- Admitting a group with its teams to a tile, if all of R447 holds. -/
def State.admitGroup (s : State) (w : Work) (number gang tile : Nat) (ts : List TeamSpec) : Option State :=
  if Config.tiles ≤ tile then none
  else match s.takeQuota tile w.ctx w.profile ts.length with
  | none => none
  | some s =>
    let (gid, s) := fresh s
    let g : GroupRt := ⟨gid, w.ctx, w.id, number, gang, s.gangSlot tile w.id gang, tile, s.freeGroupSlot tile, none, 0, 0, ts.length, s.kernelEntry w.ctx w.profile.entry, w.profile.share, none, none⟩
    match s.openWindow w.profile g with
    | none => none
    | some (g, s) => ({ s with disp := { s.disp with groups := s.disp.groups ++ [g] } } : State).formTeams w g ts

/-- The teams of group `n` of a grid (R31, R443, R449). A group number past the last index field keeps its high bits in the
identifier, as `group = wid >> (w0 + w1)` of R32 needs: DESIGN CHOICE, log 131. -/
def gridTeams (w : Work) (n : Nat) : List TeamSpec :=
  let p := w.profile
  (List.range p.teamsPer).map fun t =>
    let i := n * p.teamsPer + t
    ⟨t, BitVec.ofNat 64 (i * 2 ^ p.w 0), maskOf (List.range p.width), p.spill + i * p.spillSize, p.args, n, w.count, w.record, [], [], [p.sync]⟩

/-- Records of the next chunk of a job (R455). -/
def chunkSize (width slots r : Nat) : Nat := min r (roundUp (max width (min (64 * width) (ceilDiv r (2 * slots)))) width)

/-- A free area of a context's task spill pool (R459). -/
def Ctx.area (c : Ctx) (size : Nat) : Option Nat :=
  let starts := roundUp c.tspill 64 :: c.areas.map fun (_, b, n) => roundUp (b + n) 64
  (sortBy (fun x => x) starts).find? fun b => decide (c.tspill ≤ b) && decide (b + size ≤ c.tspill + c.tspillSize) &&
    !c.areas.any fun (_, a, n) => rangesMeet b size a n

/-- Admitting groups one after the other, each to the first tile of a list that takes it. -/
def State.admitAll (s : State) (w : Work) (gang : Nat) (tiles : List Nat) : List Nat → Option State
  | [] => some s
  | n :: ns => match firstSome (fun t => s.admitGroup w n gang t (gridTeams w n)) tiles with
    | none => none
    | some s => s.admitAll w gang tiles ns

/-- The tiles of a tile's cluster, starting with it. -/
def clusterFrom (tile : Nat) : List Nat := tile :: ((List.range 8).map (tile / 8 * 8 + ·)).filter (· != tile)

/-- Has a work groups, chunks or a team that wait for admission? -/
def Work.waits (w : Work) : Bool :=
  !w.killed && decide (w.next < w.count) && match w.kind with
    | .job _ _ _ slots => decide (w.live < slots)
    | _ => true

/-- Admitting what a work has next on a tile, if it fits (R447): a gang's groups together, a chunk, or a Hamper's team. Groups
of a gang none of whose earlier groups lives are taken by any cluster: DESIGN CHOICE, log 132. -/
def State.admitNext (s : State) (w : Work) (tile : Nat) : Option State :=
  let p := w.profile
  match w.kind with
  | .grid =>
    let gang := w.next / 2 ^ p.w 2
    let last := min w.count ((gang + 1) * 2 ^ p.w 2)
    let earlier := s.disp.groups.find? fun g => g.work == w.id && g.gang == gang
    let ns := (List.range (last - w.next)).map (w.next + ·)
    if earlier.any fun g => g.tile / 8 != tile / 8 then none
    else match (if p.w 2 = 0 then s.admitAll w gang [tile] ns else s.admitAll w gang (clusterFrom tile) ns) with
    | none => none
    | some s => some (s.modWork w.id fun x => { x with next := last, live := x.live + ns.length * p.teamsPer })
  | .job _ _ count slots =>
    let c := chunkSize p.width slots (count - w.next)
    let slot := ((List.range slots).find? fun i => !w.slotsUsed.contains i).getD 0
    let x : TeamSpec := ⟨0, 0, maskOf (List.range p.width), p.spill + slot * p.spillSize, p.args, w.next, c, w.record, [], [], [p.sync]⟩
    match s.admitGroup w w.next w.next tile [x] with
    | none => none
    | some s => some (s.modWork w.id fun y => { y with next := y.next + c, live := y.live + 1, slotsUsed := y.slotsUsed ++ [slot] })
  | .task lanes team _ =>
    if tile / 8 != w.cluster then none
    else match (s.ctx? w.ctx).bind fun c => c.area p.spillSize with
    | none => none
    | some area =>
      let mask := if team then maskOf (List.range p.width) else maskOf (List.range lanes.length)
      let args := if team then lanes.headD [] else []
      let x : TeamSpec := ⟨0, 0, mask, area, args, if team then 0 else lanes.length, 0, if team then w.record else 0, if team then [] else lanes, w.credits, w.credits.map (·.2)⟩
      match s.admitGroup w 0 0 tile [x] with
      | none => none
      | some s =>
        let uid := ((s.teams.getLast?).map (·.id.uid)).getD 0
        some ((s.modWork w.id fun y => { y with next := 1, live := 1 }).modCtx w.ctx fun c => { c with areas := c.areas ++ [(uid, area, p.spillSize)] })

/-- The order in which waiting works are admitted: higher class first, then the older request (R447). -/
def State.waiting (s : State) : List Work := sortBy (fun w => (3 - w.profile.cls) * 2 ^ 64 + w.since) (s.disp.works.filter fun w => w.waits && !s.frozen w.ctx)

/-! ### Hampers (R457-R461) -/

/-- A task record (Table 22-9), if it keeps the table's limits. -/
def parseTask (bs : List Byte) (ctx record : Nat) : Option Task :=
  let f := fieldAt bs
  if f 0 8 / 2 ^ 48 != 0 || f 40 8 % 8 != 0 || !isTranslated (f 40 8) || f 48 8 % 8 != 0 || !isTranslated (f 48 8) || f 56 4 / 2 ^ 11 != 0 || f 60 4 != 0 then none
  else some ⟨ctx, f 0 8, (List.range 8).map fun i => BitVec.ofNat 32 (f (8 + 4 * i) 4), f 40 8, f 48 8, bits (f 56 4) 7 0, bits (f 56 4) 9 8, bit (f 56 4) 10, record⟩

/-- The kernel whose profile a task's entry has, and the argument count of a lane task (R456). -/
def State.taskKernel (s : State) (t : Task) : Option (Kernel × Nat) :=
  if t.team then (s.kernelAt t.ctx t.entry).map fun k => (k, 8)
  else firstSome (fun k => if k.ctx == t.ctx then (k.tasks.find? fun (e, _) => e == t.entry).map fun (_, n) => (k, n) else none) s.disp.kernels

/-- The profile a task team runs under: its entry, its class at most the profile's. -/
def taskProfile (k : Kernel) (t : Task) : Profile := { k.profile with entry := t.entry, cls := min t.cls k.profile.cls, counter := 0, sync := 0, args := [] }

/-- Do two tasks go to one Hamper? -/
def Task.sameKey (x y : Task) : Bool := x.ctx == y.ctx && x.entry == y.entry && x.cls == y.cls && x.team == y.team

def State.hampersOf (s : State) (cluster : Nat) : List Hamper := s.disp.hampers.filter fun h => h.cluster == cluster && !h.tasks.isEmpty

def State.setHamper (s : State) (h : Hamper) : State :=
  { s with disp := { s.disp with hampers := (if h.tasks.isEmpty then [] else [h]) ++ s.disp.hampers.filter fun x => !(x.cluster == h.cluster && x.index == h.index) } }

/-- A Hamper forms its team, which waits for admission in its cluster (R457). -/
def State.formHamper (s : State) (h : Hamper) : State :=
  match h.tasks with
  | [] => s
  | t :: _ => match s.taskKernel t with
    | none => s
    | some (k, n) =>
      let (id, s) := fresh s
      let lanes := h.tasks.map fun x => x.args.take n
      let w : Work := ⟨id, t.ctx, .task lanes t.team t.depth, taskProfile k t, t.record, s.now, 1, 0, 0, 0, h.tasks.map fun x => (x.counter, x.sync),
        h.cluster, h.index, [], none, false, false, false⟩
      let s := { s with disp := { s.disp with works := s.disp.works ++ [w] } }
      s.setHamper { h with formed := true }

/-- Records a Hamper may hold. -/
def State.hamperRoom (s : State) (t : Task) : Nat :=
  if t.team then 1 else ((s.taskKernel t).map fun (k, _) => k.profile.width).getD 0

/-- A record enters a Hamper; one that is full forms its team. -/
def State.enterHamper (s : State) (h : Hamper) (t : Task) : State :=
  let h := { h with tasks := h.tasks ++ [t], since := if h.tasks.isEmpty then s.now else h.since }
  if s.hamperRoom t ≤ h.tasks.length then (s.setHamper h).formHamper h else s.setHamper h

/-- The Hamper of a cluster that takes a record now: one of its key with room, else a free one (R460). -/
def State.hamperFor (s : State) (cluster : Nat) (t : Task) : Option Hamper :=
  let hs := s.hampersOf cluster
  match hs.find? fun h => !h.formed && (h.tasks.head?).any (·.sameKey t) && h.tasks.length < s.hamperRoom t with
  | some h => some h
  | none => ((List.range 32).find? fun i => !hs.any fun h => h.index == i).map fun i => ⟨cluster, i, [], 0, false⟩

/-- The pool's first record: the highest class, then the oldest (R458). -/
def poolFirst (ts : List Task) : Option Task := (sortBy (fun t => 3 - t.cls) ts).head?

/-- The Hampers of a cluster take records from the pools while they can (R458). -/
def State.drainPools (s : State) (cluster : Nat) : Nat → State
  | 0 => s
  | n + 1 =>
    match firstSome (fun c => firstSome (fun t => (s.hamperFor cluster t).map fun h => (c, h, t)) (sortBy (fun t => 3 - t.cls) c.pool)) s.ctxs with
    | none => s
    | some (c, h, t) => ((s.modCtx c.id fun x => { x with pool := x.pool.erase t }).enterHamper h t).drainPools cluster n

/-- Placing an accepted record in a Hamper or the pool; the status SPAWN returns (R460). -/
def State.placeTask (s : State) (cluster : Nat) (t : Task) : Nat × State :=
  match s.hamperFor cluster t with
  | some h => (0, (s.enterHamper h t).drainPools cluster 64)
  | none => match s.ctx? t.ctx with
    | some c => if c.pool.length < c.poolSize then (0, s.modCtx t.ctx fun x => { x with pool := x.pool ++ [t] }) else (1, s)
    | none => (1, s)

/-- HAMPER_TIMER (R457): a Hamper's timer expires. -/
def execHamperTimer (cluster hamper : Nat) (s : State) : Host.Outcome State Fault Refusal :=
  match s.disp.hampers.find? fun h => h.cluster == cluster && h.index == hamper && !h.formed && !h.tasks.isEmpty with
  | none => .next s
  | some h =>
    let timer := (((h.tasks.head?).bind fun t => s.ctx? t.ctx).map (·.htimer)).getD 2048
    .next (if s.now < h.since + timer then s else s.formHamper h)

/-- A task team that finds no spill area: the first time in its wait the context's thread is told (R459). -/
def State.wantsArea (s : State) (w : Work) : Bool := match w.kind with
  | .task .. => !w.asked && ((s.ctx? w.ctx).bind fun c => c.area w.profile.spillSize).isNone
  | _ => false

def State.askArea (s : State) (w : Work) : State :=
  if s.wantsArea w then
    match s.tellThread (s.threadOf (some w.ctx)) (BitVec.ofNat 32 (0x80000000 + w.ctx)) with
    | some s => s.modWork w.id fun x => { x with asked := true }
    | none => s
  else s

/-- ADMISSION (R447): the first waiting work that the tile can take is admitted there. -/
def execAdmission (wid tile : Nat) (s : State) : Host.Outcome State Fault Refusal :=
  match s.work? wid with
  | none => .next s
  | some w =>
    let ahead := s.waiting.takeWhile fun v => v.id != wid
    if !w.waits || s.frozen w.ctx || ahead.any (fun v => (s.admitNext v tile).isSome) then .next s
    else match s.admitNext w tile with
    | none => .next (s.askArea w)
    | some s => match w.kind with
      | .task .. => .next ((s.setHamper ⟨w.cluster, w.hamper, [], 0, false⟩).drainPools w.cluster 64)
      | _ => .next s

end Sys2Proof.Machine
end

