-- ==== Sys2Proof/Machine/Control.lean ====
section
/-! DEFINITION. The instruction stream: NOP, MODE, REP, macro invocation, branches, calls, returns, EXIT and YIELD
(R58-R64, R74-R82). -/

namespace Sys2Proof.Machine

/-- Chunks of a lane that hold the destination of a pending result. -/
def Team.pinned (t : Team) (l : Nat) : List Nat :=
  t.pend.flatMap fun p => (p.results.filterMap fun r => match r.dest with
    | .slot k n => if k = l then some [n / 16, (n + r.width - 1) / 16] else none
    | _ => none).flatten

/-- Moving a lane's frame pointer and depth, with the residence moves that need no transfer (R91). -/
def Team.moveFrame (t : Team) (l : Nat) (fp depth : Word) (up : Bool) : Team :=
  let pins := t.pinned l
  (t.setLane l fun ln => { ln with fp := fp, depth := depth }).setFrame l fun f =>
    ({ f with up := up }).settle t.id.frame pins fp.toNat 8

/-- The outcome of a control instruction: some lanes transfer, some end. -/
def Issue.transfer (o : Issue) (s : State) (targets : List (Nat × BitVec 48)) (ended : List Nat) : Res :=
  .done s ⟨targets, ended, passes o 1, none, false, false, false, 0⟩

/-- An instruction of one cycle without lane passes that stays at its PC: REP and a macro invocation (R61, R64). -/
def Issue.begins (_o : Issue) (s : State) : Res := .done s ⟨[], [], 1, none, false, true, false, 0⟩

/-- A target that JMP and CALLR refuse: it is no PC (R78). -/
def badTarget (v : PVal) : Bool := v.v.extractLsb' 0 2 != 0 || v.v.extractLsb' 48 16 != 0

/-- The checks of a target pair (R78, R79), then the transfer. When one lane of a JMP has a poisoned target and another an illegal one,
POISON_CONSUMED is taken whatever their order: R78's loop does not say which of two lanes' causes prevails (log entry 111). -/
def Issue.withTargets (o : Issue) (k : (Nat → BitVec 48) → Res) : Res :=
  let p := poisonedLanes o.act o.a
  let bad := o.act.filter fun l => badTarget (o.a l)
  if !p.isEmpty then .rollback 19 (maskOf p) [] false
  else if !bad.isEmpty then .trap 8 (maskOf bad) [] false none
  else k fun l => (o.a l).v.extractLsb' 0 48

/-- Do pending results with a property go to one of `words` slots of a lane from slot `n` on? -/
def Team.awaits (t : Team) (which : Pend → Bool) (l n words : Nat) : Bool :=
  t.pend.any fun p => which p && p.results.any fun x => match x.dest with
    | .slot k m => k == l && decide (m < n + words) && decide (n < m + x.width)
    | _ => false

/-- A call with shift `x` (R72, R79): the slot limit, the link, the frame pointer and the depth; a result that pends in a link slot
lands first, so that the link stands (R46). -/
def Issue.doCall (o : Issue) (s : State) (x : Reg) (len : Nat) (target : Nat → BitVec 48) : Res :=
  let t := s.cur
  let n := x.toNat
  let limit := slotLimit t.width t.id.spillSize
  let fp (l : Nat) : Nat := (t.lane l).fp.toNat
  let beyond := o.act.filter fun l => decide (limit < fp l + n + 64)
  let ret := o.g.pc + BitVec.ofNat 48 len
  if !beyond.isEmpty then .trap 10 (maskOf beyond) [] false none
  else if o.act.any fun l => !resident t l [fp l + n - 2, fp l + n - 1] then .stall s 2
  else if o.act.any fun l => t.awaits (fun _ => true) l (fp l + n - 2) 2 then .stall s 3
  else
    let t := o.act.foldl (fun t l =>
      let t := t.write (.slot l (fp l + n - 2)) [⟨ret.extractLsb' 0 32, false⟩, ⟨BitVec.ofNat 32 (n * 2 ^ 16 + bits ret.toNat 47 32), false⟩]
      t.moveFrame l (BitVec.ofNat 32 (fp l + n)) ((s.cur.lane l).depth + 1) true) t
    o.transfer { s with cur := t } (o.act.map fun l => (l, target l)) []

/-- NOP (R58). -/
def execNop (s : State) : Host.Outcome State Fault Refusal :=
  issue .nop (fun o s => o.single s) s

/-- MODE (R59): the mode word. -/
def execMode (g : BitVec 4) (t : BitVec 5) (r : BitVec 3) (f sc : BitVec 1) (b : BitVec 2) (n : BitVec 4) (s : State) :
    Host.Outcome State Fault Refusal :=
  issue (.mode g t r f sc b n) (fun o s =>
    o.single { s with cur := s.cur.setArch fun a => { a with mode := g ++ t ++ r ++ f ++ sc ++ b ++ n ++ 0#1 } }) s

/-- The instruction that an opcode stands for with its fields zero, or with a literal where it must have one: its
shape says which fields an entry uses. -/
def sampleOf (op : Nat) : Option Instr :=
  match decode (wordT op 0 0 0) 0 0 with
  | .ok i => some i
  | .error _ => match decode (wordT op 0 127 0) 0 0 with
    | .ok i => some i
    | .error _ => none

/-- Is a target forbidden (R62 item 3)? -/
def repForbids (rep w : Word) (m : Mode) : Bool :=
  let op := (opcode w).toNat
  let steps : List (Nat × Nat) := [(12, 14), (9, 7), (6, 0)]
  let used (lo : Nat) : Bool :=
    match sampleOf op with
    | none => true
    | some i =>
      let sh := shape i m 1
      let role := if lo = 14 then sh.d else if lo = 7 then sh.a else sh.b
      let named := role.words != 0 || !role.frame
      (named || (op = 0x299 && lo = 14)) && !(lo = 0 && isFormatL op)
  (2 ≤ op && op ≤ 10) || 0x780 ≤ op || op = 0x593 || op = 0x580 || op = 0x581 ||
  steps.any fun (c, lo) => stride (ext rep c 3) != 0 && (!used lo || 112 ≤ (ext w lo 7).toNat)

/-- REP (R60-R62): it is decoded with its target; a cause of the target is met inside the REP, at iteration 0. -/
def execRep (c : BitVec 6) (d a b : BitVec 3) (s : State) : Host.Outcome State Fault Refusal :=
  issue (.rep c d a b) (fun o s =>
    match s.codeWord s.cur (o.g.pc + 4) with
    | .fault l va => .wait (s.parkGroup o.g va l)
    | .bad cause => .trap cause o.g.mask [] false none
    | .word w =>
      let assigned := w != 0 && (findRow (opcode w).toNat (rowsOf ((opcode w).toNat / 128))).isSome
      if assigned && repForbids o.word w o.mode then .trap 3 o.g.mask [] false none
      else
        let s := { s with cur := s.cur.setArch fun r => { r with pc := o.g.pc, rep := some (0, c.toNat + 1, 8 + 4 * litCount w) } }
        match s.fetch s.cur o.g with
        | .bad cause x => .wait (s.fetchStops (.bad cause x))
        | .instr i => match decodeCause i o.mode with
          | some cause => .wait (s.fetchStops (.bad cause ((encodeWord i).getD 0)))
          | none => o.begins s
        | .fault _ _ => o.begins s) s

/-- MACRO (R63, R64): an empty macro traps. -/
def execMacroRun (i : BitVec 7) (d a b : Reg) (s : State) : Host.Outcome State Fault Refusal :=
  issue (.macroRun i d a b) (fun o s =>
    if s.macroWord s.cur.id.tile i.toNat 0 = 0 then .trap 6 (maskOf (activeLanes o.t o.g (Shape.of .none .none .none))) [] false none
    else o.begins { s with cur := s.cur.setArch fun r => { r with mac := some 0 } }) s

/-- BRA (R77). -/
def execBra (lit : Word) (s : State) : Host.Outcome State Fault Refusal :=
  issue (.bra lit) (fun o s => o.transfer s (o.act.map fun l => (l, o.g.pc + lit.signExtend 48)) []) s

/-- JMP (R78). -/
def execJmp (a : Reg) (s : State) : Host.Outcome State Fault Refusal :=
  issue (.jmp a) (fun o s => o.withTargets fun t => o.transfer s (o.act.map fun l => (l, t l)) []) s

/-- CALL (R79). -/
def execCall (x : Reg) (lit : Word) (s : State) : Host.Outcome State Fault Refusal :=
  issue (.call x lit) (fun o s => o.doCall s x 8 fun _ => o.g.pc + lit.signExtend 48) s

/-- CALLR (R79). -/
def execCallr (x : BitVec 7) (a : Reg) (s : State) : Host.Outcome State Fault Refusal :=
  issue (.callr x a) (fun o s => o.withTargets fun t => o.doCall s x 4 t) s

/-- The link words of a lane, and the shift they record (R72). -/
def linkOf (s : State) (l : Nat) : PWord × PWord :=
  (s.cur.slotWord l ((s.cur.lane l).fp.toNat - 2), s.cur.slotWord l ((s.cur.lane l).fp.toNat - 1))
def linkShift (s : State) (l : Nat) : Nat := bits (linkOf s l).2.w.toNat 22 16

/-- A link that RET refuses (R80). -/
def badLink (s : State) (l : Nat) : Bool :=
  let k := linkOf s l
  bits k.2.w.toNat 31 23 != 0 || bits k.1.w.toNat 1 0 != 0 ||
    decide (linkShift s l < 2) || linkShift s l == 64 || linkShift s l == 65 || decide (66 < linkShift s l)

/-- A return: lanes at depth 0 end, the others go back to their links with their frame pointers (R80). When one lane's link is poisoned
and another's is bad, POISON_CONSUMED is taken whatever their order: R80's loop does not say which of two lanes' causes prevails (log
entry 111). -/
def Issue.doRet (o : Issue) (s : State) : Res :=
  let t := s.cur
  let fp (l : Nat) : Nat := (t.lane l).fp.toNat
  let ls := o.act.filter fun l => (t.lane l).depth != 0
  let p := ls.filter fun l => (linkOf s l).1.p || (linkOf s l).2.p
  let bad := ls.filter (badLink s)
  if ls.any fun l => !resident t l [fp l - 2, fp l - 1] then .stall s 2
  else if ls.any fun l => t.awaits (fun p => !inWindow t p) l (fp l - 2) 2 then .stall s 3
  else if !p.isEmpty then .rollback 19 (maskOf p) [] false
  else if !bad.isEmpty then .trap 9 (maskOf bad) [] false none
  else
    let t' := ls.foldl (fun t l =>
      t.moveFrame l (BitVec.ofNat 32 (fp l + 2 ^ 32 - linkShift s l)) ((s.cur.lane l).depth - 1) false) t
    o.transfer { s with cur := t' } (ls.map fun l => (l, (linkOf s l).2.w.extractLsb' 0 16 ++ (linkOf s l).1.w))
      (o.act.filter fun l => (t.lane l).depth == 0)

/-- RET (R80): lanes at depth 0 end, the others return to their links. -/
def execRet (s : State) : Host.Outcome State Fault Refusal :=
  issue .ret (fun o s => o.doRet s) s

/-- EXIT (R81): active lanes end. -/
def execExit (s : State) : Host.Outcome State Fault Refusal :=
  issue .exit (fun o s => o.transfer s [] o.act) s

/-- YIELD (R82). -/
def execYield (s : State) : Host.Outcome State Fault Refusal :=
  issue .yield (fun o s => .done s ⟨[], [], passes o 1, none, false, false, true, 0⟩) s

end Sys2Proof.Machine
end

