-- ==== Sys2Proof/Machine/Dispatcher.lean ====
section
/-! DEFINITION. The dispatcher: SPAWN, GROW, JOB and LAUNCH as they are performed (R452-R460), the end of a team and its
credits (R81, R450), the Timetable (R464, R465) and the watchdog (R416, R417). -/

namespace Sys2Proof.Machine

/-! ### Following write-backs (R299) -/

/-- The release actions for objects whose bound regions are given (R299 steps 1 and 2): the write-backs under way. -/
def State.releaseActions (s : State) (tile ctx uid issue : Nat) (regions : List (Nat × Nat)) (objs : List Nat) : List Nat × State :=
  let (ids, s) := s.cleanLines (fun l => l.tile == tile && l.ctx == ctx && inRegions regions l) (fun _ => false) uid issue
  objs.foldl (fun (ids, s) o =>
    let (i, s) := if isScratch o then ([], s) else s.flushRange tile ctx uid issue o (o + 8) true
    (ids ++ i, s)) (ids, s)

/-- The same with the regions bound now. -/
def State.releaseObjects (s : State) (tile ctx uid issue : Nat) (objs : List Nat) : List Nat × State :=
  s.releaseActions tile ctx uid issue (objs.flatMap fun o => s.boundTo tile ctx o) objs

/-- Bytes at an address as the tile sees them. -/
def State.peek (s : State) (tile ctx va n : Nat) : List Byte :=
  (List.range n).map fun i => match s.mem.l1Byte tile ctx (va + i) with
    | some b => b.1
    | none => match s.keyOf tile ctx (va + i) with
      | some k => s.mem.get k
      | none => 0

/-! ### Requests to the dispatcher -/

/-- A pending result is void: its destinations are not written. -/
def Pend.void (p : Pend) : Pend := { p with results := p.results.map fun r => { r with ready := true, words := [] } }

/-- A request fails at the dispatcher: the team traps at its next boundary (R246, R452-R455). -/
def State.askFails (s : State) (x : Net) (cause : Nat) (mask : LaneMask) (va : Nat) (pid : Option Nat) : State :=
  let s := s.defer x.uid cause x.pc x.issue x.word mask ((lanesOf 1024 mask).map fun l => (l, BitVec.ofNat 64 va))
  match pid with
  | some p => s.modPend x.uid p Pend.void
  | none => s

/-- The team names a counter that it may wait on (R463). -/
def State.names (s : State) (uid counter : Nat) : State :=
  if counter = 0 then s else s.modTeam uid fun t => { t with children := if t.children.contains counter then t.children else counter :: t.children }

/-- LAUNCH at the dispatcher (R452). -/
def State.askLaunch (s : State) (x : Net) (mask : LaneMask) (pid ea : Nat) : State :=
  match s.readRecord x.ctx ea Need.rw 2 with
  | .error c => s.askFails x c mask ea (some pid)
  | .ok bs =>
    let (r, s) := s.startGrid x.ctx ea bs none
    let v : Word := match r with
      | .ok _ => 0
      | .error c => BitVec.ofNat 32 (0x80000000 + c)
    let s := match r with
      | .ok _ => s.names x.uid (fieldAt bs 64 8)
      | .error _ => s
    s.modPend x.uid pid fun p => p.arrive 0 [⟨v, false⟩] 0

/-- GROW at the dispatcher (R453). -/
def State.askGrow (s : State) (x : Net) (mask : LaneMask) (pid n : Nat) : State :=
  match ((s.team? x.uid).bind fun t => s.work? t.id.work) with
  | none => s
  | some w =>
    if w.kind = .grid && w.count + n ≤ w.profile.maxGroups then
      (s.modWork w.id fun v => { v with count := v.count + n, since := s.now }).modPend x.uid pid fun p => p.arrive 0 [⟨BitVec.ofNat 32 w.count, false⟩] 0
    else s.askFails x 87 mask 0 (some pid)

/-- A job card (Table 22-7) that is broken, or whose profile is. -/
def State.cardBad (s : State) (ctx : Nat) (bs : List Byte) : Bool :=
  let f := fieldAt bs
  f 0 8 / 2 ^ 48 != 0 || f 8 8 / 2 ^ 48 != 0 || f 16 4 = 0 || 65536 < f 16 4 || f 20 4 = 0 || addrBad (f 24 8) 8 || addrBad (f 32 8) 8 ||
  f 48 4 = 0 || 4096 < f 48 4 || f 52 4 != 0 || f 56 8 != 0 || (s.kernelAt ctx (f 0 8)).isNone || addrBad (f 40 8) 64

/-- JOB at the dispatcher (R455). -/
def State.askJob (s : State) (x : Net) (mask : LaneMask) (ea : Nat) : State :=
  match s.readRecord x.ctx ea Need.r 1 with
  | .error c => s.askFails x c mask ea none
  | .ok bs =>
    let f := fieldAt bs
    if s.cardBad x.ctx bs then s.askFails x 86 mask ea none
    else match s.readRecord x.ctx (f 40 8) Need.r 2 with
    | .error _ => s.askFails x 86 mask ea none
    | .ok ps =>
      match s.launchCause x.ctx ps true, (s.kernelAt x.ctx (f 0 8)).bind s.loadKernel with
      | none, some s =>
        let p := { parseProfile ps with entry := f 0 8, counter := f 24 8, sync := f 32 8 }
        let (id, s) := fresh s
        let w : Work := ⟨id, x.ctx, .job (f 8 8) (f 16 4) (f 20 4) (f 48 4), p, ea, s.now, f 20 4, 0, 0, 0, [], 0, 0, [], none, false, false, false⟩
        ({ s with disp := { s.disp with works := s.disp.works ++ [w] } } : State).names x.uid (f 24 8)
      | _, _ => s.askFails x 86 mask ea none

/-- SPAWN at the dispatcher: one record after the other (R460). -/
def State.askSpawn (s : State) (x : Net) (pid : Nat) (xs : List (Nat × Nat)) : State :=
  let one (acc : List Nat × State) (r : Nat × Nat) : List Nat × State :=
    let (bad, s) := acc
    let (l, ea) := r
    let z (v : Nat) : Codes := ⟨false, v != 0, false, false, false⟩
    let land (s : State) (v : Nat) : State := s.modPend x.uid pid fun p =>
      let p := p.arrive l [⟨BitVec.ofNat 32 v, false⟩] 0
      { p with results := modifyWhere (fun r => r.lane == l) (fun r => { r with cc := some (z v) }) p.results }
    let fail (s : State) : List Nat × State :=
      (bad ++ [l], s.modPend x.uid pid fun p => { p with results := modifyWhere (fun r => r.lane == l) (fun r => { r with ready := true, words := [] }) p.results })
    match s.readRecord x.ctx ea Need.r 1 with
    | .error _ => fail s
    | .ok bs => match parseTask bs x.ctx ea with
      | none => fail s
      | some t => match s.taskKernel t with
        | none => fail s
        | some (k, _) =>
          if k.profile.maxDepth < t.depth then (bad, land s 2)
          else
            let (v, s) := s.placeTask (x.tile / 8) t
            (bad, land (if v = 0 then s.names x.uid t.counter else s) v)
  let (bad, s) := xs.foldl one ([], s)
  if bad.isEmpty then s
  else s.defer x.uid 85 x.pc x.issue x.word (maskOf bad) (bad.map fun l => (l, BitVec.ofNat 64 (((xs.find? fun y => y.1 == l).map (·.2)).getD 0)))

/-- A request is performed at the dispatcher. -/
def State.performAsk (s : State) (x : Net) (mask : LaneMask) (e : Effect) : State :=
  let s := { s with net := s.net.filter fun y => y.id != x.id }
  match e with
  | .launch pid ea => s.askLaunch x mask pid ea
  | .grow pid n => s.askGrow x mask pid n
  | .job ea => s.askJob x mask ea
  | .spawn pid xs => s.askSpawn x pid xs
  | _ => s

/-! ### The end of a team (R81, R450) -/

/-- A team gives back its slot, its frames, its place in the quota table (R446, R463). -/
def State.leave (s : State) (t : Team) : State :=
  let kernel := ((s.group? t.id.gid).map (·.kernel)).getD 0
  let s := { s with
    cur := if s.cur.id.uid = t.id.uid then Team.empty else s.cur
    teams := s.teams.filter fun x => x.id.uid != t.id.uid }
  (s.modWindow t.slotKey fun _ => Window.zero).releaseQuota t.id.tile t.id.ctx kernel 1

/-- A group has one team less; with the last one it goes, and the grid counts it as ended. -/
def State.teamLeavesGroup (s : State) (t : Team) : State :=
  match s.group? t.id.gid with
  | none => s
  | some g =>
    if g.live ≤ 1 then (s.closeGroup g.gid).modWork g.work fun w => { w with ended := w.ended + 1 }
    else { s with disp := { s.disp with groups := modifyWhere (fun x => x.gid == g.gid) (fun x => { x with live := x.live - 1 }) s.disp.groups } }

/-- Adding 1 to a completion counter as a CADD would, once write-backs are acknowledged (R450). -/
def State.creditCounter (s : State) (t : Team) (counter : Nat) (after : List Nat) : Option Nat × State :=
  if counter = 0 then (none, s)
  else
    let (id, s) := s.sendAfter t.id.tile t.id.side 0 t.id.ctx s.now 0 0 counter after (.count counter ⟨1, false⟩)
    (some id, s)

def State.dropWork (s : State) (id : Nat) : State := { s with disp := { s.disp with works := s.disp.works.filter fun w => w.id != id } }

/-- A work whose last team has ended is complete: its counter is credited, and a grid's record is marked (R445, R450). -/
def State.settleWork (s : State) (t : Team) : State :=
  match s.work? t.id.work with
  | none => s
  | some w =>
    if w.live != 0 || (!w.killed && w.next < w.count) then s
    else if w.killed then s.dropWork w.id
    else
      let after := w.credits.map (·.2)
      match w.kind with
      | .task .. => s.dropWork w.id
      | .job .. => (s.creditCounter t w.profile.counter after).2.dropWork w.id
      | .grid =>
        let (cid, s) := s.creditCounter t w.profile.counter after
        let mark : Piece := ⟨0, w.record + 80, (toBytes 4 0x27F).map (·, false)⟩
        ((s.sendAfter t.id.tile t.id.side 0 t.id.ctx s.now 0 0 (w.record + 80) cid.toList (.write [mark])).2).dropWork w.id

/-- Can a team end now: no lane left, Q cycles since its last issue, nothing held (R81)? -/
def State.canEnd (s : State) (t : Team) : Bool :=
  t.ending && t.deferred.isEmpty && decide (t.sched.lastIssue + Config.Q ≤ s.now) && !s.coolbox.any fun e => e.uid == t.id.uid

/-- A team ends: release actions for its counters, its resources, its credits. -/
def State.endTeam (s : State) (t : Team) : State :=
  let objs := (t.id.counter :: t.id.records.map (·.1)).filter (· != 0)
  let (ids, s) := s.releaseObjects t.id.tile t.id.ctx t.id.uid s.now objs
  let s := (s.leave t).modCtx t.id.ctx fun c => { c with areas := c.areas.filter fun a => a.1 != t.id.uid }
  let s := s.teamLeavesGroup t
  let s := s.modWork t.id.work fun w => { w with
    live := w.live - 1
    credits := match w.kind with
      | .task .. => w.credits
      | _ => w.credits ++ ids.map fun i => (0, i)
    slotsUsed := match w.kind with
      | .job .. => w.slotsUsed.erase ((t.id.spill - w.profile.spill) / max 1 w.profile.spillSize)
      | _ => w.slotsUsed }
  let killed := ((s.work? t.id.work).map (·.killed)).getD true
  let s := if killed then s else t.id.records.foldl (fun s r => (s.creditCounter t r.1 ids).2) s
  s.settleWork t

/-- TEAM_END (R81). -/
def execTeamEnd (uid : Nat) (s : State) : Host.Outcome State Fault Refusal :=
  match s.team? uid with
  | some t => .next (if s.canEnd t then s.endTeam t else s)
  | none => .next s

/-! ### The Timetable (R464, R465) -/

/-- A team whose image is dropped by a kill ends without its effects. -/
def State.dropImages (s : State) (p : Team → Bool) : State :=
  let gone := s.disp.images.filter p
  let s := { s with disp := { s.disp with images := s.disp.images.filter fun t => !p t } }
  gone.foldl (fun s t =>
    let s := s.modCtx t.id.ctx fun c => { c with areas := c.areas.filter fun a => a.1 != t.id.uid }
    let s := s.teamLeavesGroup t
    (s.modWork t.id.work fun w => { w with live := w.live - 1 }).settleWork t) s

/-- Every team of a launch is killed as by command 3, its waiting groups are dropped, it is never credited (R465). -/
def State.killWork (s : State) (id : Nat) : State :=
  let s := s.modWork id fun w => { w with killed := true, next := w.count }
  let s := (s.allTeams.filter fun t => t.id.work == id).foldl (fun s t => s.endLanes t.id.uid) s
  let s := s.dropImages fun t => t.id.work == id
  match s.work? id with
  | some w => if w.live = 0 then s.dropWork id else s
  | none => s

def TimeEntry.none : TimeEntry := ⟨0, 0, Option.none, false, 0⟩
def State.timeEntry (s : State) (i : Nat) : TimeEntry := fget TimeEntry.none s.disp.timetable i
def State.modEntry (s : State) (i : Nat) (f : TimeEntry → TimeEntry) : State :=
  { s with disp := { s.disp with timetable := fput TimeEntry.none s.disp.timetable i (f (s.timeEntry i)) } }

/-- The fields of a Timetable entry (Table 22-10). -/
def TimeEntry.valid (e : TimeEntry) : Bool := bit e.hi.toNat 63
def TimeEntry.rule (e : TimeEntry) : Nat := bits e.hi.toNat 62 61
def TimeEntry.period (e : TimeEntry) : Nat := bits e.hi.toNat 60 41
def TimeEntry.ctx (e : TimeEntry) : Nat := bits (e.hi.toNat * 2 ^ 64 + e.lo.toNat) 64 48
def TimeEntry.record (e : TimeEntry) : Nat := bits e.lo.toNat 47 0

/-- The launch that an entry started last is not yet complete (R465). -/
def State.running (s : State) (e : TimeEntry) : Bool := e.last.any fun id => (s.work? id).isSome

/-- A Timetable record of kind C: entry, rule, and bit 10 for a refused launch (R465). -/
def State.overrun (s : State) (i rule : Nat) (refused : Bool) (ctx : Nat) : State := s.contextRecord ctx 93 (i + rule * 256 + b2n refused * 1024)

/-- Starting an entry's launch as the launch call would; a refused one is reported and does not overrun the next slot. -/
def State.startEntry (s : State) (i : Nat) : State :=
  let e := s.timeEntry i
  let refused (s : State) : State := (s.modEntry i fun e => { e with last := Option.none }).overrun i e.rule true e.ctx
  match s.readRecord e.ctx e.record Need.rw 2 with
  | .error _ => refused s
  | .ok bs => match s.startGrid e.ctx e.record bs (some i) with
    | (.ok id, s) => s.modEntry i fun e => { e with last := some id }
    | (.error _, s) => refused s

/-- Does the Timetable run: the clock has locked, or runs free by its mode (R419)? -/
def State.clockRuns (s : State) : Bool := s.hub.clock.locked || s.hub.clock.mode

/-- TIMETABLE_SLOT (R464, R465): a slot begins. -/
def execTimetableSlot (entry : Nat) (s : State) : Host.Outcome State Fault Refusal :=
  let e := s.timeEntry entry
  if !e.valid || !s.clockRuns || s.deviceTime < e.next || e.period = 0 then .next s
  else
    let s := s.modEntry entry fun e => { e with next := (s.deviceTime / (1000 * e.period) + 1) * (1000 * e.period) }
    if s.frozen e.ctx then .next s
    else if !s.running e then .next (s.startEntry entry)
    else
      let s := s.overrun entry e.rule false e.ctx
      match e.rule with
      | 1 => .next (s.modEntry entry fun e => { e with deferred := true })
      | 2 => .next ((s.killWork (e.last.getD 0)).startEntry entry)
      | _ => .next s

/-- DEFERRED_LAUNCH (R465): the deferred launch starts as the previous one completes. -/
def execDeferredLaunch (entry : Nat) (s : State) : Host.Outcome State Fault Refusal :=
  let e := s.timeEntry entry
  if e.deferred && !s.running e then .next ((s.modEntry entry fun e => { e with deferred := false }).startEntry entry) else .next s

/-! ### The watchdog (R416, R417) -/

/-- Is a stuck team in an external wait? -/
def State.externalWait (s : State) (t : Team) : Bool :=
  t.wait.any (·.ext) ||
  (match t.wants with
   | some (key, _) => match t.arch.ports.getD (key / 4) none with
     | some h => if key % 4 = 3 then handleKind h == 2 else (s.queue (handleTile h) (handleEntry h)).ext
     | none => false
   | none => false) ||
  s.net.any fun x => x.uid == t.id.uid && (opcode x.word).toNat == 0x395 &&
    match s.walk x.tile x.ctx x.va with
    | .leaf _ _ pte => bit pte.toNat 58
    | _ => false

/-- Has a context's window of no progress passed? -/
def State.windowOver (s : State) (x : Ctx) : Bool :=
  x.measuring && x.window != 0 && decide (x.progress + x.window * 1000 ≤ s.wallTime) && !(s.stuckTeams x.id).isEmpty

/-- WATCHDOG (R417). -/
def execWatchdog (ctx : Nat) (s : State) : Host.Outcome State Fault Refusal :=
  match s.ctx? ctx with
  | none => .next s
  | some x =>
    if !s.windowOver x then .next s
    else
      let ts := s.stuckTeams ctx
      let stop (s : State) (ext fired : Bool) : State := s.modCtx ctx fun c => { c with measuring := false, external := ext, fired := c.fired || fired }
      match ts with
      | [] => .next s
      | t :: _ =>
        if ts.all s.externalWait then .next (stop s true false)
        else
          let s := stop s false true
          let (id, s) := fresh s
          let pc := ((t.current).map (·.pc)).getD 0
          let record := trapRecord t 22 pc s.now 0 0 (BitVec.ofNat 64 t.sched.stallCause) false
          .next { s with postings := s.postings ++ [⟨id, .trap, some ctx, t.place, 0, record, 0, 0⟩] }

end Sys2Proof.Machine
end

