-- ==== Sys2Proof/Machine/CopyEngine.lean ====
section
/-! DEFINITION. The copy engines: segments read or formed, held and landed, sink credits, faults (R234-R247, R413). -/

namespace Sys2Proof.Machine

/-! ### What a copy writes -/

/-- Where a destination byte comes from: nowhere (a gap, or a byte of a higher lane), a constant, or an address. -/
inductive Src where
  | gap
  | const (b : Byte)
  | at_ (va : Nat)
deriving DecidableEq, Repr

/-- The tensor coordinates of a box unit, if it lies in the tensor (R240). -/
def Layout.inside (y : Layout) (cs : List Int) (ix : List Nat) : Option (List Nat) :=
  let x (k : Nat) : Int := y.coord cs k + ix.getD k 0
  if (List.range 4).all fun k => decide (0 ≤ x k) && decide (x k < (y.ext.getD k 1 : Int)) then
    some ((List.range 4).map fun k => (x k).toNat)
  else none

/-- The box indices of unit `i0` of box row `r`. -/
def Layout.index (y : Layout) (i0 r : Nat) : List Nat := [i0, r % y.boxAt 1, r / y.boxAt 1 % y.boxAt 2, r / (y.boxAt 1 * y.boxAt 2)]

/-- The source of destination byte `o` of a copy that moves bytes (R236, R237, R240, R242). -/
def Copy.source (c : Copy) (o : Nat) : Src :=
  match c.kind with
  | .cpl => if o < c.valid then .at_ (c.src + o) else .const 0
  | .cpf p => .const (p.extractLsb' (8 * (o % 4)) 8)
  | .cpm _ => .at_ (c.src + o)
  | .cpt y cs =>
    let (r, w) := if y.pitch = 0 then (0, o) else (o / y.pitch, o % y.pitch)
    if y.boxAt 0 * y.bytes ≤ w then .gap
    else match y.inside cs (y.index (w / y.bytes) r) with
    | some x => .at_ (y.srcUnit x + w % y.bytes)
    | none => .const 0

/-- An MX unit's bytes: its block, then its scale (R240). -/
def mxSegment (y : Layout) (cs : List Int) (u : Nat) : List (Nat × Src) :=
  let k := u % y.boxAt 0
  let r := u / y.boxAt 0
  let row := y.dstRow r
  let unit := row + k * y.bytes
  let dst := (List.range y.bytes).map (unit + ·) ++ [y.scaleAt row unit k (y.boxAt 0)]
  match y.inside cs (y.index k r) with
  | some x =>
    let su := y.srcUnit x
    dst.zip ((List.range y.bytes).map (fun i => Src.at_ (su + i)) ++ [Src.at_ (y.scaleAt (y.srcRow x) su (x.getD 0 0) (y.ext.getD 0 1))])
  | none => dst.zip (List.replicate y.bytes (Src.const 0) ++ [Src.const 127])

/-- The destinations of a copy: one, or CPM's targets. -/
def Copy.dsts (c : Copy) : List Nat := match c.kind with
  | .cpm ts => ts.map (·.1)
  | _ => [c.dst]

/-- The bytes of segment `n`: each byte of the first destination with its source. CPM's other targets take the same bytes (R242). -/
def Copy.segment (c : Copy) (n : Nat) : List (Nat × Src) :=
  let plain : List (Nat × Src) :=
    let lo := max c.dst ((c.dst / 64 + n) * 64)
    let hi := min (c.dst + c.len) ((c.dst / 64 + n + 1) * 64)
    (List.range (hi - lo)).map fun i => (lo + i, c.source (lo + i - c.dst))
  match c.kind with
  | .cpt y cs => if y.mx then mxSegment y cs n else plain
  | _ => plain

/-- Does a higher lane of the same instruction write a byte (R236)? -/
def State.overwritten (s : State) (c : Copy) (va : Nat) : Bool :=
  match c.kind with
  | .cpl | .cpf _ => s.copies.any fun x => x.ins == c.ins && decide (c.lane < x.lane) && decide (x.dst ≤ va) && decide (va < x.dst + x.len)
  | _ => false

/-! ### Completion (R235, R241, R413) -/

def State.modCopy (s : State) (cid : Nat) (f : Copy → Copy) : State := { s with copies := modifyWhere (fun c => c.cid == cid) f s.copies }
def State.copy? (s : State) (cid : Nat) : Option Copy := s.copies.find? fun c => c.cid == cid

/-- A copy is over: it leaves its batch; when its whole instruction is over, its scoreboard entry frees (R243, R413). -/
def State.copyOver (s : State) (c : Copy) : State :=
  let s := s.modCopy c.cid fun x => { x with finished := true, held := [] }
  let s := { s with fetched := s.fetched.filter fun f => f.1 != c.cid }
  let s := s.modTeam c.uid fun t => { t with
    openBatch := t.openBatch.erase c.cid
    tags := t.tags.map fun (g, l) => (g, l.erase c.cid)
    batchLog := t.batchLog.map fun b => { b with copies := b.copies.erase c.cid } }
  if s.copies.any fun x => x.ins == c.ins && !x.finished then s
  else
    let s := { s with copies := s.copies.filter fun x => x.ins != c.ins || !x.writes.isEmpty }
    s.modTeam c.uid fun t => { t with score := t.score.filter fun e => e.ins != c.ins }

/-- Bytes a completed copy credits to a barrier (R241). -/
def Copy.creditBytes (c : Copy) : Nat := match c.kind with
  | .cpl => 32
  | .cpt y _ => y.units * (y.bytes + if y.mx then 1 else 0)
  | _ => c.len

/-- A credit of an engine to a barrier or a counter on its way (R241, R408, R410). -/
def State.sendCredit (s : State) (c : Copy) (barrier : Bool) (ea n : Nat) : State :=
  (s.sendAfter c.tile 0 c.uid c.ctx c.issue c.pc c.word ea [] (if barrier then .credit ea n c.mask else .count ea ⟨1, false⟩)).2

/-- The cause of a copy's violation of its page, or of a failure of its access (R246, R387, R392). -/
def copyCause (c : Nat) : Nat := if c = 30 || (36 ≤ c && c ≤ 38) then c else 41

/-- A copy stops: what it wrote stands, its sink is never credited, and its team traps (R246). -/
def State.stopCopy (s : State) (c : Copy) (cause va : Nat) : State :=
  (s.defer c.uid cause c.pc c.issue c.word c.mask ((lanesOf 1024 c.mask).map fun l => (l, BitVec.ofNat 64 va))).copyOver c

/-- Does a counter's page forbid an engine's credit: a right or the tenant tag (Table 15-2, R246, R273)? -/
def State.sinkBad (s : State) (tile ctx ea : Nat) : Bool := match s.translate tile ctx ea Need.w with
  | .bad _ => true
  | _ => false

/-- A copy whose every byte has landed credits its sink and is over. -/
def State.copyDone (s : State) (c : Copy) : State :=
  if c.sink = 2 && s.sinkBad c.tile c.ctx c.sinkEa then s.stopCopy c 41 c.sinkEa
  else
  let s := match c.sink, c.kind with
    | _, .cpm _ => s
    | 1, _ => s.sendCredit c true c.sinkEa c.creditBytes
    | 2, _ => s.sendCredit c false c.sinkEa 1
    | _, _ => s
  (s.copyOver c).progress c.ctx

/-- What the landed segments of a target bring: the end of the copy, or for CPM the receiver's credit, whose answer is the
acknowledgement (R242). -/
def State.copyLanded (s : State) (c : Copy) (target : Nat) : State :=
  if c.finished || c.landed.getD target 0 != c.total then s
  else match c.kind with
  | .cpm ts =>
    let (id, s) := s.sendAfter c.tile 0 c.uid c.ctx c.issue c.pc c.word (ts.getD target (0, 0)).2 [] (.credit (ts.getD target (0, 0)).2 c.len c.mask)
    s.modCopy c.cid fun x => { x with acks := x.acks ++ [(target, id)] }
  | _ => s.copyDone c

/-- The request of a copy leaves the Coolbox: it starts; destinations without bytes are done at once (R234, R237). -/
def State.startCopies (s : State) (cids : List Nat) : State :=
  cids.foldl (fun s cid =>
    let s := s.modCopy cid fun c => { c with started := true }
    match s.copy? cid with
    | none => s
    | some c => if c.total = 0 then (List.range c.dsts.length).foldl (fun s t => s.copyLanded c t) s else s) s

/-- CPM_ACKNOWLEDGEMENT (R242): a receiver's acknowledgement, which follows its credit, credits the sender's barrier. -/
def execCpmAcknowledgement (cid tile : Nat) (s : State) : Host.Outcome State Fault Refusal :=
  match s.copy? cid with
  | none => .next s
  | some c => match c.acks.find? fun (t, id) => ownerTile (c.dsts.getD t 0) == tile && id == 0 with
    | none => .next s
    | some a =>
      let s := (s.modCopy cid fun x => { x with acks := x.acks.erase a, acked := x.acked + 1 }).sendCredit c true c.sinkEa c.len
      .next (if c.acked + 1 = c.dsts.length then s.copyDone c else s)

/-! ### Segments (R234, R244, R245) -/

/-- What reading a source byte gives. -/
inductive Got where
  | byte (b : Byte × Bool)
  | fault (level va : Nat)
  | bad (cause va : Nat)
  | away (va key : Nat)
deriving DecidableEq, Repr

/-- Reading one byte as an engine of a tile does: the tile's L1 where it is valid, else the ordering point (R234). -/
def State.engineByte (s : State) (owner tile ctx va : Nat) (need : Need) (cause : Nat → Nat) : Got :=
  if isScratch va then .byte (s.mem.get va, s.mem.poisoned va)
  else match s.translate tile ctx va { need with noEf := true } with
    | .fault l => .fault l va
    | .bad c => .bad (cause c) va
    | .ok pa _ _ => match s.mem.l1Byte tile ctx va with
      | some b => .byte b
      | none =>
        if isWindow pa then match s.fetchedLine owner pa with
          | none => .away va pa
          | some 0 => .byte (s.mem.get pa, s.mem.poisoned pa)
          | some c => .bad c va
        else if s.cxlFailed pa then .bad 36 va
        else .byte (s.mem.get pa, s.mem.poisoned pa)

/-- The team that engine work belongs to, for its records: the resident one, or what the work knows of it. -/
def State.ownerTeam (s : State) (uid tile side ctx : Nat) : Team :=
  (s.team? uid).getD { Team.empty with id := { Team.empty.id with uid := uid, tile := tile, side := side, ctx := ctx } }

/-- May a segment be written: the first byte whose page does not let it be, with its level or cause. -/
def State.writeBlocked (s : State) (c : Copy) (mx : Bool) (vas : List Nat) : Option Got :=
  firstSome (fun va =>
    if isScratch va then none
    else match s.translate c.tile c.ctx va { Need.w with noEf := true, mx := mx } with
      | .fault l => some (.fault l va)
      | .bad x => some (.bad (copyCause x) va)
      | .ok .. => none) vas

/-- A byte and its address joined to pieces: to the last one where it continues it, else a piece of its own. -/
def addByte (lane : Nat) (ps : List Piece) (b : Nat × Byte × Bool) : List Piece :=
  match ps.getLast? with
  | some p => if p.ea + p.data.length = b.1 then ps.dropLast ++ [{ p with data := p.data ++ [b.2] }] else ps ++ [⟨lane, b.1, [b.2]⟩]
  | none => [⟨lane, b.1, [b.2]⟩]

/-- Bytes with their addresses as pieces of consecutive bytes. -/
def piecesOf (lane : Nat) (bs : List (Nat × Byte × Bool)) : List Piece := bs.foldl (addByte lane) []

/-- Is a line on its way to an owner over a link? -/
def State.fetching (s : State) (owner : Nat) : Bool := s.net.any fun x => match x.act with
  | .fetch o _ => o == owner
  | _ => false

/-- The bytes of a copy's next segment that it writes. -/
def State.segmentOf (s : State) (c : Copy) : List (Nat × Src) := (c.segment c.next).filter fun b => b.2 != .gap && !s.overwritten c b.1

/-- Are bytes of a segment's source still on their way from the tile (R234)? -/
def State.sourceOut (s : State) (c : Copy) (bs : List (Nat × Src)) : Bool := bs.any fun b => match b.2 with
  | .at_ va => s.writeOut c.tile c.ctx va 1
  | _ => false

/-- Does an engine's read of a byte wait for an array, its tile's or the home's (R216)? -/
def State.readRebuilding (s : State) (tile ctx va : Nat) : Bool :=
  s.rangeRebuilding tile ctx va 1 || (isScratch va && s.rebuilding (ownerTile va) 1 (va / 4 * 4) 4) ||
  match s.keyOf tile ctx va with
  | some k => !isScratch va && s.rebuilding 0 9 (k / 4 * 4) 4
  | none => false

/-- Does an engine's read of `n` bytes wait for an array? -/
def State.engineRebuilding (s : State) (tile ctx va n : Nat) : Bool := !s.tables.rebuilds.isEmpty && (List.range n).any fun i => s.readRebuilding tile ctx (va + i)

/-- Does a segment's source wait for an array? -/
def State.sourceRebuilding (s : State) (c : Copy) (bs : List (Nat × Src)) : Bool := bs.any fun b => match b.2 with
  | .at_ va => s.readRebuilding c.tile c.ctx va
  | _ => false

/-- Can a copy form its next segment? -/
def State.canSegment (s : State) (c : Copy) : Bool :=
  c.started && !c.finished && !c.parked && !s.fetching c.cid && decide (c.next < c.total) && decide (fget 0 s.busy (2048 + c.tile) ≤ 2 * s.now + 1) &&
  !((s.team? c.uid).any fun t => t.sched.preempt && !t.sched.evict) && !(s.disp.images.any fun t => t.id.uid == c.uid && !t.sched.evict) &&
  !s.sourceOut c (s.segmentOf c) && !s.sourceRebuilding c (s.segmentOf c)

/-- A destination word takes the poison of every source word that supplied one of its bytes (R235). -/
def spreadPoison (bs : List (Nat × Byte × Bool)) : List (Nat × Byte × Bool) :=
  bs.map fun (va, b, _) => (va, b, bs.any fun (v, _, p) => v / 4 == va / 4 && p)

/-- Does a copy move units of an MX format? -/
def Copy.blocks (c : Copy) : Bool := match c.kind with
  | .cpt y _ => y.mx
  | _ => false

/-- What one source byte gives a copy. -/
def Copy.reads (c : Copy) (s : State) : Src → Got
  | .at_ va => s.engineByte c.cid c.tile c.ctx va { Need.r with mx := c.blocks } copyCause
  | .const b => .byte (b, false)
  | .gap => .byte (0, false)

/-- The byte read, and what stood in its way. -/
def Got.byte? : Got → Option (Byte × Bool)
  | .byte b => some b
  | _ => none
def Got.trouble : Got → Option Got
  | .byte _ => none
  | g => some g

/-- The first byte of an MX block of a segment that lies at 0xF00 or beyond in its frame, its source's or its destination's (R323). -/
def Copy.pairBad (c : Copy) (bs : List (Nat × Src)) : Option Got :=
  if !c.blocks then none
  else match bs with
  | [] => none
  | (d, x) :: _ => firstSome (fun va => if !isScratch va && (pairReach va).isSome then some (.bad 30 va) else none) (match x with | .at_ va => [va, d] | _ => [d])

/-- The bytes of a segment's source that an L1 line holds, when the segment is an MX unit: both lines are written back and dropped
before the unit is read at its home (R313). -/
def State.unitCached (s : State) (c : Copy) (bs : List (Nat × Src)) : List Nat :=
  if c.blocks then bs.filterMap fun b => match b.2 with
    | .at_ va => if !isScratch va && (s.mem.l1Byte c.tile c.ctx va).isSome then some va else none
    | _ => none
  else []

/-- A segment's pieces for each target. -/
def Copy.toTargets (c : Copy) (now : Nat) (ps : List Piece) : List (Nat × Nat × List Piece) :=
  c.dsts.zipIdx.map fun (d, t) => (t, now, ps.map fun p => { p with ea := p.ea - c.dst + d })

/-- COPY_SEGMENT (R234, R244): the engine reads or forms one destination segment and holds its write, for CPM one to each target (R242). -/
def execCopySegment (cid : Nat) (s : State) : Host.Outcome State Fault Refusal :=
  match s.copy? cid with
  | none => .next s
  | some c =>
    if !s.canSegment c then .next s
    else
      let bytes := s.segmentOf c
      let got := bytes.map fun b => (b.1, c.reads s b.2)
      match ((firstSome (fun g => Got.trouble g.2) got).or (c.pairBad bytes)).or (s.writeBlocked c c.blocks (bytes.map (·.1))) with
      | some (.fault l va) =>
        let n : Need := if got.any fun (_, g) => g == .fault l va then Need.r else Need.w
        let s := s.parkFault (s.ownerTeam c.uid c.tile c.side c.ctx) 1 cid c.pc c.word c.issue c.mask va n l
        .next (s.modCopy cid fun x => { x with parked := true })
      | some (.bad cause va) => .next (s.stopCopy c cause va)
      | some (.away va key) => .next (s.fetchLine cid c.tile c.side c.uid c.ctx c.issue c.pc c.word va key)
      | _ => match s.unitCached c bytes with
        | va :: vas => .next ((va :: vas).foldl (fun s va => (s.flushRange c.tile c.ctx c.uid c.issue va (va + 1) true).2) s)
        | [] =>
          let bs := got.filterMap fun g => (Got.byte? g.2).map (g.1, ·)
          let ps := piecesOf c.lane (if c.blocks then bs else spreadPoison bs)
          let k := 2048 + c.tile
          let s := { s with busy := fput 0 s.busy k (max (fget 0 s.busy k) (2 * s.now) + c.dsts.length) }
          .next (s.modCopy cid fun x => { x with next := x.next + 1, held := x.held ++ c.toTargets s.now ps })

/-- COPY_WRITE_LANDS (R234): a held segment leaves the engine after Q cycles for its owner port or home; the tile's own line
is written back and invalidated first. A page that is absent now parks the copy at that segment (R245). -/
def execCopyWriteLands (cid : Nat) (s : State) : Host.Outcome State Fault Refusal :=
  match s.copy? cid with
  | none => .next s
  | some c => match c.held with
    | (target, formed, ps) :: rest =>
      if s.now < formed + Config.Q || c.parked then .next s
      else match s.writeBlocked c c.blocks (ps.map (·.ea)) with
      | some (.fault l va) =>
        let s := s.parkFault (s.ownerTeam c.uid c.tile c.side c.ctx) 1 cid c.pc c.word c.issue c.mask va Need.w l
        .next (s.modCopy cid fun x => { x with parked := true, next := x.next - x.held.length, held := [] })
      | some (.bad cause va) => .next (s.stopCopy c cause va)
      | _ =>
        let s := s.modCopy cid fun x => { x with held := rest }
        match ps with
        | [] =>
          let s := s.modCopy cid fun x => { x with landed := modifyAt (· + 1) x.landed target }
          .next (match s.copy? cid with | some c => s.copyLanded c target | none => s)
        | p :: _ =>
          let s := ps.foldl (fun s q => if isScratch q.ea then s else (s.flushRange c.tile c.ctx c.uid c.issue q.ea (q.ea + q.data.length) true).2) s
          match s.keyOf c.tile c.ctx p.ea with
          | none => .next (s.stopCopy c 41 p.ea)
          | some key =>
            let (id, s) := s.send c.tile c.side c.uid c.ctx c.issue c.pc c.word p.ea key [] (.write ps)
            .next (s.modCopy cid fun x => { x with writes := x.writes ++ [(id, target)] })
    | [] => .next s

/-- The answer to a receiver's credit: it acknowledges, or the copy is over (R242). -/
def State.copyCredited (s : State) (c : Copy) (id : Nat) (failed : Option Nat) : State :=
  if failed.isSome then s.copyOver c
  else s.modCopy c.cid fun x => { x with acks := x.acks.map fun (t, i) => if i = id then (t, 0) else (t, i) }

/-- A copy's write is acknowledged, or has failed at an address (R235, R246). -/
def State.copyAck (s : State) (c : Copy) (id : Nat) (failed : Option Nat) (ea : Nat) : State :=
  let target := ((c.writes.find? fun w => w.1 == id).map (·.2)).getD 0
  let s := s.modCopy c.cid fun x => { x with writes := x.writes.filter fun w => w.1 != id }
  if c.finished then { s with copies := s.copies.filter fun x => x.cid != c.cid || !x.writes.isEmpty || s.copies.any fun y => y.ins == c.ins && !y.finished }
  else match failed with
  | some x => s.stopCopy c (copyCause x) ea
  | none =>
    let s := s.modCopy c.cid fun x => { x with landed := modifyAt (· + 1) x.landed target }
    match s.copy? c.cid with
    | some c => s.copyLanded c target
    | none => s

end Sys2Proof.Machine
end

