-- ==== Sys2Proof/Machine/Release.lean ====
section
/-! DEFINITION. Effects as they leave the Coolbox (R37, R212, R299, R437), what comes back (R294, R308), results that land
(R46, R47, R137, R188), the Rucksack (R91-R94), waking and reservations (R411, R428). -/

namespace Sys2Proof.Machine

/-! ### Sending -/

/-- A request whose address is translated now is sent to its ordering point; an absent page parks it (R299, R324). -/
def State.routeNet (s : State) (x : Net) : State :=
  let set (s : State) (y : Net) : State := { s with net := modifyWhere (fun z => z.id == x.id) (fun _ => y) s.net }
  let put (key : Nat) : State :=
    let (d, s) := draw s
    let point := pointOf key
    let behind := (s.net.filter fun y => y.id != x.id && y.tile == x.tile && y.point == point && !y.act.isReply).foldl (fun m y => max m y.due) 0
    let travel := if isScratch key && ownerTile key = x.tile then 0 else d
    set s { x with due := max (s.now + travel) behind, point := point, pa := key, after := [] }
  if isScratch x.va then put x.va
  else match s.walk x.tile x.ctx x.va with
    | .leaf base _ pte => put (bits pte.toNat 47 12 * 4096 + (x.va - base))
    | .absent l => (set s { x with after := [] }).parkRequest x (s.ownerTeam x.uid x.tile x.side x.ctx) l
    | .malformed => s.failNet x 24

/-- Sending a held effect's request, once its write-backs are acknowledged. -/
def Held.sendWhen (e : Held) (s : State) (ids : List Nat) (va : Nat) (act : Act) : State :=
  let (id, s) := s.sendAfter e.tile e.side e.uid e.ctx e.issue e.pc e.word va ids act
  if ids.isEmpty then (match s.net? id with | some x => s.routeNet x | none => s) else s

/-- A request to the dispatcher, once its write-backs are acknowledged. -/
def Held.askWhen (e : Held) (s : State) (ids : List Nat) (f : Effect) : State :=
  let (id, s) := s.sendAfter e.tile e.side e.uid e.ctx e.issue e.pc e.word 0 ids (.ask e.mask f)
  if ids.isEmpty then (match s.net? id with | some x => s.performAsk x e.mask f | none => s) else s

/-- Is a parked request waiting for its fault's reply (R326)? -/
def State.parkedNet (s : State) (x : Net) : Bool := s.faults.any fun f => f.item == x.id && f.unit != 3 && f.uid == x.uid && f.item != 0

/-- RELEASE_WRITE (R299): what waited for write-backs goes to its ordering point, or is performed by the dispatcher. -/
def execReleaseWrite (id : Nat) (s : State) : Host.Outcome State Fault Refusal :=
  match s.net? id with
  | none => .next s
  | some x =>
    if x.point != 9999 || s.waitsFor x.after || s.parkedNet x then .next s
    else .next (match x.act with
      | .ask m e => s.performAsk x m e
      | _ => s.routeNet x)

/-! ### Queues (R427, R430, R439) -/

/-- The words of a link queue that can leave do, in the order of their reservations. -/
def State.pumpLink (s : State) (e : Held) (entry : Nat) : Nat → State
  | 0 => s
  | n + 1 =>
    let q := s.link e.ctx entry
    if q.passed = q.rsv then s
    else if q.void.contains q.passed then
      (s.modLink e.ctx entry fun q => { q with void := q.void.erase q.passed, passed := (q.passed + 1) % 2 ^ 32 }).pumpLink e entry n
    else match q.ready.find? fun (k, _) => k == q.passed with
    | none => s
    | some (_, w) =>
      let key := q.target + 4 * (q.sent % (q.size + 1))
      let s := (s.send Config.tiles e.side e.uid e.ctx e.issue e.pc e.word key key [] (.write [⟨0, key, wordBytes [w]⟩])).2
      let next (q : LinkQueue) : LinkQueue :=
        { q with ready := q.ready.filter fun (k, _) => k != q.passed, sent := (q.sent + 1) % 2 ^ 32, passed := (q.passed + 1) % 2 ^ 32 }
      (s.modLink e.ctx entry next).pumpLink e entry n

/-- Writing pushed words and setting their written bits (R430). -/
def State.releasePush (s : State) (e : Held) (h : Word) (words : List (Nat × PWord)) : State :=
  let n := handleEntry h
  match handleKind h with
  | 0 =>
    let tile := handleTile h
    let q := s.queue tile n
    let s := words.foldl (fun s (c, w) => s.memStore (sliceAddr tile (q.base + 4 * q.ring.index c)) (wordBytes [w])) s
    s.modQueue tile n fun q => { q with ring := q.ring.fill (words.map (·.1)) }
  | 1 => s.modThread n fun t =>
      { t with words := words.foldl (fun m (c, w) => fput PWord.zero m (t.ring.index c) w) t.words, ring := t.ring.fill (words.map (·.1)) }
  | _ =>
    let s := s.modLink e.ctx n fun q => { q with ready := q.ready ++ words }
    s.pumpLink e n ((s.link e.ctx n).ready.length + (s.link e.ctx n).void.length)

/-- A notification leaves: a thread's notify register, or a doorbell that carries the words sent (R366, R427). -/
def State.releaseNotify (s : State) (e : Held) (h : Word) : State :=
  match handleKind h with
  | 1 => s.notify (handleEntry h)
  | 2 =>
    let q := s.link e.ctx (handleEntry h)
    if q.bell = 0 then s
    else (s.send Config.tiles e.side e.uid e.ctx e.issue e.pc e.word q.bell q.bell [] (.write [⟨0, q.bell, (toBytes 8 q.sent).map (·, false)⟩])).2
  | _ => s

/-- LINK_CREDIT (R427): the hub reads the consumed count at its home again. -/
def execLinkCredit (ctx entry : Nat) (s : State) : Host.Outcome State Fault Refusal :=
  match s.keyOf Config.tiles ctx (s.link ctx entry).credit with
  | some key => .next (s.modLink ctx entry fun q => { q with consumed := s.mem.nat key 4 })
  | none => .next s

/-! ### Releases -/

/-- The tile's L1 holds some bytes of a line no more, and no fill under way brings them (R280). -/
def State.dropBytes (s : State) (tile ctx va n : Nat) : State :=
  let s := match s.mem.line? tile ctx va with
    | some _ => { s with mem := s.mem.modLine tile ctx va fun l => { l with valid := setBits l.valid ((List.range n).map (va % 64 + ·)) false } }
    | none => s
  s.staleFills fun l => l.tile == tile && l.ctx == ctx && l.va == va / 64 * 64

/-- Sending an atomic's requests: its line's dirty bytes are written back ahead of it, and the bytes it touches invalidated (R280). -/
def State.releaseAtomic (s : State) (e : Held) (n : Nat) (r : AtomReq) (act : Act) : State :=
  let first := r.ea / n * n
  let s := if isScratch r.ea then s else (s.flushRange e.tile e.ctx e.uid e.issue first (first + n) false).2.dropBytes e.tile e.ctx first n
  e.sendWhen s [] r.ea act

/-- Installing a routine, or the deferred trap of an illegal image (R289, R290). -/
def State.releaseApload (s : State) (e : Held) (ea idx : Nat) (mask : LaneMask) : State :=
  let bs := s.peek e.tile e.ctx ea 64
  let ws : List Word := (List.range 16).map fun i => BitVec.ofNat 32 (fieldAt bs (4 * i) 4)
  let bad (c : Nat) : State := s.defer e.uid c e.pc e.issue e.word mask ((lanesOf 1024 mask).map fun l => (l, BitVec.ofNat 64 ea))
  match s.translate e.tile e.ctx ea Need.r, isScratch ea with
  | .bad c, false => bad c
  | .fault _, false => bad 24
  | _, _ => match parseImage ws with
    | some p => s.modCtx e.ctx fun c => { c with routines := fput [] c.routines idx p }
    | none => bad 61

/-- The regions captured for one object of a release. -/
def regionsFor (rs : List (Nat × Nat × Nat)) (o : Nat) : List (Nat × Nat) := rs.filterMap fun (x, b, n) => if x = o then some (b, n) else none

/-- A release of one lane (R299): its object's regions and own line go first. -/
def State.releaseOne (s : State) (e : Held) (rs : List (Nat × Nat × Nat)) (ea : Nat) (act : Act) : State :=
  let (ids, s) := s.releaseActions e.tile e.ctx e.uid e.issue (regionsFor rs ea) [ea]
  e.sendWhen s ids ea act

/-- Reads of an effectful page leave: they go to their ordering points and are not cached (R215); the lanes that read one address go
together (R214), an acquire's one by one. -/
def State.releaseEfload (s : State) (e : Held) (pid : Nat) (signed : Bool) (xs : List (Nat × Nat × Nat)) : State :=
  if ((s.pend? e.uid pid).map (·.acq)).getD false then xs.foldl (fun s (l, ea, n) => e.sendWhen s [] ea (.object pid l ea n true)) s
  else ((xs.map fun x => x.2.1).eraseDups).foldl (fun s j =>
    match xs.filter fun x => x.2.1 == j with
    | [] => s
    | (l, ea, n) :: rest => e.sendWhen s [] ea (.load pid (((l, ea, n) :: rest).map fun y => (y.1, y.2.1, List.replicate n none)) n signed none)) s

/-- A matrix command's record is written into its ring slot; an MCFG lets the engine fetch (R254, R257). -/
def State.releaseCommand (s : State) (e : Held) (mid : Nat) : State :=
  let g := s.engine e.tile
  match g.cmds.find? fun c => c.mid == mid with
  | none => s
  | some c =>
    let s := match g.channel? c.chan with
      | some k => s.memStore (sliceAddr e.tile (k.base + k.ring + 32 * (c.number % k.rsize))) (wordBytes (c.record.map fun w => ⟨w, false⟩))
      | none => s
    s.modEngine e.tile fun g => g.modCmd mid fun c => { c with written := true }

/-- A spill has left: its slots' positions free (R93). -/
def State.spillGone (s : State) (uid : Nat) (chunk lane : Nat) : State :=
  s.modTeam uid fun t => t.setFrame lane fun f =>
    let f := { f with spilling := f.spilling.erase chunk }
    if f.lo ≤ 16 * chunk && 16 * chunk < f.hi then f else f.clear (16 * chunk) (16 * chunk + 16)

/-- What an effect does as it leaves. -/
def State.releaseEffect (s : State) (e : Held) : State :=
  match e.eff with
  | .write ps unit =>
    match ps with
    | p :: _ =>
      if unit then
        let n := p.data.length
        e.sendWhen (s.cleanPair e.tile e.ctx e.uid e.issue p.ea n) [] p.ea (.write ps)
      else ps.foldl (fun s p => s.releasePiece e p) s
    | [] => s
  | .rel ps rs => ps.foldl (fun s p => s.releaseOne e rs p.ea (.write [p])) s
  | .arrive xs rs => xs.foldl (fun s (l, ea) => s.releaseOne e rs ea (.arrive l ea)) s
  | .cadd xs rs => xs.foldl (fun s (_, ea, v) => s.releaseOne e rs ea (.count ea v)) s
  | .expect pid xs => xs.foldl (fun s (l, ea, n) => e.sendWhen s [] ea (.expect pid l ea n)) s
  | .atomic pid op xs => xs.foldl (fun s r => s.releaseAtomic e op.width r (.atomic pid op r)) s
  | .aprog pid xs => xs.foldl (fun s r => s.releaseAtomic e 64 r (.aprog pid r)) s
  | .apload ea idx mask => s.releaseApload e ea idx mask
  | .efload pid signed xs => s.releaseEfload e pid signed xs
  | .flush ea len => (s.flushRange e.tile e.ctx e.uid e.issue ea (ea + len) false).2
  | .copy cids => s.startCopies cids
  | .command mid => s.releaseCommand e mid
  | .mcfg chan => s.modEngine e.tile fun g =>
      { g.modChannel chan (fun c => { c with fetchable := true }) with old := g.old.filter fun (k, _) => k != e.id }
  | .push h words => s.releasePush e h words
  | .pop h slots => s.modQueue (handleTile h) (handleEntry h) fun q => { q with ring := q.ring.release slots }
  | .notify h => s.releaseNotify e h
  | .spawn pid xs =>
    let (ids, s) := xs.foldl (fun (ids, s) (_, ea) =>
      let (i, s) := s.releaseObjects e.tile e.ctx e.uid e.issue ([fieldAt (s.peek e.tile e.ctx ea 64) 48 8].filter (· != 0))
      let (j, s) := if isScratch ea then ([], s) else s.flushRange e.tile e.ctx e.uid e.issue ea (ea + 64) false
      (ids ++ i ++ j, s)) (([] : List Nat), s)
    e.askWhen s ids (.spawn pid xs)
  | .grow pid n => e.askWhen s [] (.grow pid n)
  | .job ea =>
    let (i, s) := s.releaseObjects e.tile e.ctx e.uid e.issue ([fieldAt (s.peek e.tile e.ctx ea 64) 32 8].filter (· != 0))
    let (j, s) := if isScratch ea then ([], s) else s.flushRange e.tile e.ctx e.uid e.issue ea (ea + 64) false
    e.askWhen s (i ++ j) (.job ea)
  | .launch pid ea =>
    let (i, s) := s.releaseObjects e.tile e.ctx e.uid e.issue ([fieldAt (s.peek e.tile e.ctx ea 128) 56 8].filter (· != 0))
    let (j, s) := if isScratch ea then ([], s) else s.flushRange e.tile e.ctx e.uid e.issue ea (ea + 128) false
    e.askWhen s (i ++ j) (.launch pid ea)
  | .forest rid =>
    let s := { s with eq := { s.eq with reqs := modifyWhere (fun r => r.rid == rid) (fun r => { r with arrived := some s.now }) s.eq.reqs } }
    match ((s.eq.reqs.find? fun r => r.rid == rid).bind fun r => s.forest? r.forest) with
    | some f => s.startWalks f.engine
    | none => s
  | .bind base pages obj mask =>
    let key := ((s.ctx? e.ctx).map (·.bindBase)).getD 0
    (s.send e.tile e.side e.uid e.ctx e.issue e.pc e.word key key [] (.bind base pages obj mask)).2
  | .unbind base mask =>
    let key := ((s.ctx? e.ctx).map (·.bindBase)).getD 0
    (s.send e.tile e.side e.uid e.ctx e.issue e.pc e.word key key [] (.unbind base mask)).2
  | .spill chunk p => (s.releasePiece e p).spillGone e.uid chunk p.lane
  | .entry _ p => s.releasePiece e p
  | .trap record =>
    let (id, s) := fresh s
    { s with postings := s.postings ++ [⟨id, .trap, some e.ctx, fieldAt record 4 4, e.uid, record, 0, 0⟩] }

/-- Can an effect leave now: Q cycles after its issue or landing, every earlier effect of its team having left, the pushes that earlier
Format L instructions have still to make among them (R37, R39, R432, R437; log entry 117)? -/
def State.canRelease (s : State) (e : Held) : Bool :=
  decide (e.since + Config.Q ≤ s.now) && !((s.coolbox.takeWhile fun x => x.id != e.id).any fun x => x.uid == e.uid) &&
  !((s.team? e.uid).any fun t => t.pend.any fun p => !p.slots.isEmpty && !p.raised && decide (p.issue < e.issue)) && !s.rebuilding e.tile 5 (e.id * 64) 64

/-- COOLBOX_RELEASE (R437). -/
def execCoolboxRelease (id : Nat) (s : State) : Host.Outcome State Fault Refusal :=
  match s.coolbox.find? fun e => e.id == id with
  | none => .next s
  | some e =>
    if !s.canRelease e then .next s
    else .next (({ s with coolbox := s.coolbox.filter fun x => x.id != id } : State).releaseEffect e)

/-- L1_EVICTION (R212): a tile may write back and drop a line at any time. -/
def execL1Eviction (tile ctx va : Nat) (s : State) : Host.Outcome State Fault Refusal :=
  .next (s.cleanLines (fun l => l.tile == tile && l.ctx == ctx && l.va == va / 64 * 64) (fun _ => true) 0 s.now).2

/-! ### Acknowledgements -/

/-- The address of a lane's request that failed. -/
def Pend.eaOf (p : Pend) (lane ea : Nat) : Nat := ((p.redo.flatMap fun x => x.act.lanes).find? (·.1 == lane)).elim ea (·.2)

/-- ACKNOWLEDGEMENT (R294, R308): an answer arrives at its tile, or leaves by the port its request came from. -/
def execAcknowledgement (id : Nat) (s : State) : Host.Outcome State Fault Refusal :=
  match s.net? id with
  | none => .next s
  | some x =>
    if !x.act.isReply || s.now < x.due then .next s
    else if 1024 ≤ x.tile then .next (s.answerOut x)
    else
      let s := { s with net := s.net.filter fun y => y.id != id }
      .next (match x.act with
        | .ack (some pid) rs _ (some c) ea _ => rs.foldl (fun s (l, _) => s.modPend x.uid pid fun p => p.fail l c (p.eaOf l ea)) s
        | .ack (some pid) rs xf none _ _ => rs.foldl (fun s (l, ws) => s.modPend x.uid pid fun p => p.arrive l ws xf) s
        | .ack none _ _ failed ea _ => match s.copies.find? (fun c => c.writes.any fun w => w.1 == id), s.copies.find? (fun c => c.acks.any fun a => a.2 == id) with
          | some c, _ => s.copyAck c id failed ea
          | none, some c => s.copyCredited c id failed
          | none, none => s
        | .filled pid xs n sg line merge =>
          let s := if merge then { s with mem := s.mem.modLine x.tile x.ctx x.va fun l => l.fill line }
            else match s.mem.line? x.tile x.ctx x.va with
              | some _ => { s with mem := s.mem.modLine x.tile x.ctx x.va fun l => { l with valid := l.dirty } }
              | none => s
          if pid = 0 then s
          else xs.foldl (fun s (lane, ea, own) => s.modPend x.uid pid fun p => p.arrive lane (loadedWords sg (overlay own ((line.drop (ea % 64)).take n))) 0) s
        | _ => s)

/-! ### Results that land (R46, R47) -/

/-- Writing results into what a checkpoint holds of them (R188). -/
def Arch.land (a : Arch) (rs : List LaneResult) : Arch :=
  rs.foldl (fun a r =>
    let a := match r.dest with
      | .uni n => { a with k := r.words.zipIdx.foldl (fun k (w, i) => k.set (n + i) w) a.k }
      | .fmt n => if r.words.isEmpty then a else { a with nf := a.nf.set n (r.words.headD PWord.zero).w }
      | _ => a
    { a with lanes := modifyAt (fun ln => { ln with cc := r.cc.getD ln.cc, xflags := ln.xflags ||| r.xf }) a.lanes r.lane }) a

/-- The blocks of an LDV under type nf whose padding is not zero: their addresses (R137). -/
def badBlocks (p : Pend) : List Nat :=
  match p.fmt with
  | none => []
  | some d =>
    let size := if slotWidth d = 4 then 16 else 32
    ((p.results.zip p.range).filterMap fun (r, ea, _) =>
      if padded d ((wordBytes r.words).map (·.1)) then some (ea / size * size) else none).eraseDups

/-- The results of a pending instruction with the elements of bad blocks poisoned. -/
def checkedResults (p : Pend) : List LaneResult :=
  match p.fmt with
  | none => p.results
  | some d =>
    let size := if slotWidth d = 4 then 16 else 32
    let bad := badBlocks p
    if p.range.isEmpty then p.results
    else (p.results.zip p.range).map fun (r, ea, _) =>
      if bad.contains (ea / size * size) then { r with words := r.words.map fun w => { w with p := true } } else r

/-- FMTLD's word lands only if it is clean and a descriptor; else the cause of its trap (R153). -/
def formatCause (r : LaneResult) : Option Nat :=
  match r.dest, r.words with
  | .fmt _, w :: _ => if w.p then some 19 else if descriptorValid w.w then none else some 20
  | _, _ => none

/-- Has a lane's result come, and has its time? -/
def Pend.come (p : Pend) (now : Nat) (r : LaneResult) : Bool := r.ready && decide (r.due ≤ now) && decide (p.due ≤ now)

/-- Must a pending instruction's results land together: an acquire, a port's words, elements whose padding is checked, a format
register? -/
def Pend.together (p : Pend) : Bool := p.acq || p.fmt.isSome || p.results.any fun r => match r.dest with
  | .port _ | .fmt _ => true
  | _ => false

/-- Has every lane's result come, or failed? -/
def Pend.over (p : Pend) (now : Nat) : Bool := p.results.all fun r => p.come now r || inMask p.failed r.lane

/-- The results that land now: each lane's by itself, or all together (R46). -/
def Pend.landing (p : Pend) (now : Nat) (r : LaneResult) : Bool :=
  !inMask p.failed r.lane && p.come now r && (!p.together || p.over now)

/-- Can something of a pending instruction land now, or its trap be raised? -/
def Pend.lands (p : Pend) (now : Nat) : Bool :=
  p.results.any (p.landing now) || (p.over now && !p.raised && (p.failed != 0 || p.results.isEmpty))

/-- What of a pending instruction has still to land: the other results, with what belongs to them. -/
def Pend.rest (p : Pend) (landed : LaneResult → Bool) : Pend :=
  { p with
    results := p.results.filter fun r => !landed r
    range := if p.fmt.isSome && !p.range.isEmpty then ((p.results.zip p.range).filter fun x => !landed x.1).map (·.2) else p.range
    slots := (((p.results.flatMap fun r => List.replicate r.width r).zip p.slots).filter fun x => !landed x.1).map (·.2) }

/-- FMTLD's request, to be made again by a Resume (R47, R153). -/
def State.formatRequest (s : State) (t : Team) (p : Pend) : Net :=
  let ea := (p.range.headD (0, 0)).1
  ⟨0, s.now, t.id.tile, t.id.side, t.id.uid, t.id.ctx, p.issue, p.pc, p.word, 9999, ea, 0, 0, [],
    .load p.id [((p.results.headD ⟨0, .none, 0, 0, false, [], none, 0⟩).lane, ea, List.replicate 4 none)] 4 false (if isScratch ea then none else some true)⟩

/-- Words that land on a port are pushed as one held effect: held from now, in the place of the instruction's issue (R39, R432). Those
of lanes that have ended are discarded, their slots void (R81). -/
def State.pushLanded (s : State) (t : Team) (p : Pend) (rs : List LaneResult) : State :=
  match t.arch.ports.getD (p.reg.toNat - 96) none with
  | none => s
  | some h =>
    let live (l : Nat) : Bool := t.allGroups.any fun g => inMask g.mask l
    let words := ((p.results.flatMap fun r => List.replicate r.width r).zip p.slots).filter fun x => rs.any fun r => r.lane == x.1.lane
    let gone := (words.filter fun x => !live x.1.lane).map (·.2)
    let s := if gone.isEmpty then s else s.voidPush t.id.ctx h gone
    let kept := (words.filter fun x => live x.1.lane).map (·.2)
    let out := (rs.filter fun r => live r.lane).flatMap (·.words)
    if out.isEmpty then s
    else
      let (id, s) := fresh s
      let e := Held.mk id t.id.tile t.id.side t.id.uid t.id.ctx p.issue p.pc p.word (maskOf (rs.map (·.lane))) s.now (queueUnits out.length) (.push h (kept.zip out))
      let later (x : Held) : Bool := x.uid == t.id.uid && decide (p.issue < x.issue)
      { s with coolbox := s.coolbox.takeWhile (fun x => !later x) ++ e :: s.coolbox.dropWhile fun x => !later x }

/-- Writing the results of lanes (R46): a lane that has ended discards its own unless a checkpoint that the team still holds is to have
them (R81, R188). -/
def Team.landed (t : Team) (p : Pend) (rs : List LaneResult) : Team :=
  let kept (l : Nat) : Bool := (t.allGroups.any fun g => inMask g.mask l) || t.ckpts.any fun k => some k.id == p.ckpt
  let t := (rs.filter fun r => kept r.lane).foldl (fun t r =>
    let t := if r.words.isEmpty then t else t.write r.dest r.words
    t.setLane r.lane fun ln => { ln with cc := r.cc.getD ln.cc, xflags := ln.xflags ||| r.xf }) t
  { t with ckpts := modifyWhere (fun k => some k.id == p.ckpt) (fun k => { k with arch := k.arch.land rs }) t.ckpts }

/-- What stays of a pending instruction is kept, or nothing when nothing does. -/
def Team.keepPend (t : Team) (p : Pend) : Team :=
  { t with pend := if p.results.isEmpty && p.failed = 0 then t.pend.filter fun q => q.id != p.id else modifyLast (fun q => q.id == p.id) (fun _ => p) t.pend }

/-- RESULT_LANDS (R46, R188, R292, R300): the results that have come are written, into the checkpoint they belong to as well; an
acquire's regions are invalidated first, and lanes that failed make a trap once every other lane is done. -/
def execResultLands (uid pid : Nat) (s : State) : Host.Outcome State Fault Refusal :=
  match s.team? uid, s.pend? uid pid with
  | some t, some p =>
    if !p.lands s.now then .next s
    else
      let cause := firstSome formatCause (p.results.filter (p.landing s.now))
      let p := match cause with
        | some c => { (p.fail ((p.results.headD ⟨0, .none, 0, 0, false, [], none, 0⟩).lane) c ((p.range.headD (0, 0)).1)) with redo := [s.formatRequest t p] }
        | none => p
      let lands := p.landing s.now
      let rs := (checkedResults p).filter lands
      let s := if p.acq && !rs.isEmpty then s.acquire t.id.tile t.id.ctx uid p.range else s
      let s := if rs.isEmpty then s else (badBlocks p).foldl (fun s ea => s.errorRecord (some t.id.ctx) 88 0 (sideOf t) p.pc ea 0) s
      let isOver := p.over s.now
      let s := s.modTeam uid fun t => (t.landed p rs).keepPend { p.rest lands with raised := isOver && p.failed != 0 }
      let s := s.pushLanded t p (rs.filter fun r => match r.dest with
        | .port _ => true
        | _ => false)
      .next (if isOver && p.failed != 0 then
          s.modTeam uid fun t => { t with deferred := t.deferred ++ [⟨p.cause, p.pc, p.issue, p.word, p.failed, p.tval, true⟩] }
        else s)
  | _, _ => .next s

/-- The requests of a team's failed lanes are made again after a Resume (R47). -/
def State.redoPends (s : State) (uid : Nat) : State :=
  match s.team? uid with
  | none => s
  | some t =>
    let xs := (t.pend.filter (·.raised)).flatMap (·.redo)
    let again (p : Pend) : Pend :=
      { p with
        failed := 0
        raised := false
        tval := []
        redo := []
        results := p.results.map fun r => { r with ready := false } }
    let clear (p : Pend) : Pend := if p.raised then again p else p
    let s := s.modTeam uid fun t => { t with pend := t.pend.map clear }
    xs.foldl (fun s x =>
      let (id, s) := fresh s
      let x := { x with id := id, tile := t.id.tile, side := t.id.side, tries := 0, after := [] }
      ({ s with net := s.net ++ [x] } : State).routeNet x) s

/-- What a team's failed lanes have left undone is given up: another RESUMEPC, a redirect or an end (R47, R182). -/
def State.dropRaised (s : State) (uid : Nat) : State :=
  match s.team? uid with
  | none => s
  | some t => (s.dropPends t (t.pend.filter (·.raised))).modTeam uid fun t => { t with pend := t.pend.filter fun p => !p.raised }

/-- The checkpoints a team keeps: the young ones and the youngest of the others (R186). -/
def Team.settleCkpts (t : Team) (now : Nat) : Team :=
  { t with ckpts := t.young now ++ (t.ckpts.filter fun c => !decide (now < c.time + Config.Q)).take 1 }

/-- CHECKPOINT_SETTLE (R186). -/
def execCheckpointSettle (uid : Nat) (s : State) : Host.Outcome State Fault Refusal :=
  match s.team? uid with
  | some _ => .next (s.modTeam uid fun t => t.settleCkpts s.now)
  | none => .next s

/-! ### The Rucksack (R91-R94) -/

/-- Does a lane's chunk wait for the reply to its fault? -/
def State.rucksackParked (s : State) (uid lane : Nat) : Bool := s.faults.any fun f => f.uid == uid && f.unit == 3 && f.item / 65536 == lane

/-- What the Rucksack does next for a lane of a team. -/
def State.transferOf (s : State) (t : Team) (l : Nat) : Option Transfer :=
  let f := t.frame l
  if t.ending || t.sched.preempt || s.rucksackParked t.id.uid l then none
  else if f.settle1 t.id.frame (t.pinned l) (t.lane l).fp.toNat ≠ f then some .move
  else f.needs t.id.frame (t.pinned l) (t.lane l).fp.toNat

/-- A side's Rucksack moves one lane-chunk a cycle. -/
def rucksackKey (t : Team) : Nat := 4096 + sideOf t

/-- The words of a chunk as one piece. -/
def Team.chunkPiece (t : Team) (l chunk : Nat) : Piece :=
  ⟨l, t.spillAddr l (16 * chunk), wordBytes ((List.range 16).map fun i => t.slotWord l (16 * chunk + i))⟩

/-- A transfer at an address of the spill area that its page does not let be: it parks, or the team traps SPILL_FAULT with the
affected lanes (R94). -/
def State.transferBlocked (s : State) (t : Team) (item va : Nat) (mask : LaneMask) (need : Need) : Option State :=
  let pc := ((t.current).map (·.pc)).getD 0
  if isScratch va then none
  else match s.translate t.id.tile t.id.ctx va need with
    | .ok .. => none
    | .fault level => some (s.parkFault t 3 item pc 0 s.now mask va need level)
    | .bad _ => some (s.defer t.id.uid 13 pc s.now 0 mask ((lanesOf 1024 mask).map fun l => (l, BitVec.ofNat 64 va)))

/-- The same for a lane's chunk. -/
def State.spillBlocked (s : State) (t : Team) (l chunk : Nat) (need : Need) : Option State :=
  s.transferBlocked t (l * 65536 + chunk) (t.spillAddr l (16 * chunk)) (maskOf [l]) need

/-! ### Group overflow entries (R88, R94) -/

/-- A group overflow entry's transfer as a fault names it; lanes' chunks come before. -/
def entryItem (n : Nat) : Nat := (1024 + n) * 65536

/-- A moved group whose entry has still to be written, unless its page is being waited for. -/
def State.entryToWrite (s : State) (t : Team) : Option Moved :=
  if t.ending then none else t.arch.moved.find? fun m => !m.stored && !s.rucksackParked t.id.uid (1024 + m.entry)

/-- The Rucksack writes a moved group's entry as a held effect (R88, R93, R94). -/
def State.writeEntry (s : State) (t : Team) (m : Moved) : State :=
  let va := t.overflowAddr m.entry
  match s.transferBlocked t (entryItem m.entry) va m.group.mask Need.w with
  | some s => s
  | none =>
    if Config.coolboxUnits < s.unitsUsed t.id.tile + 3 || s.now < fget 0 s.busy (rucksackKey t) then s
    else
      let s := s.hold t (((t.current).map (·.pc)).getD 0) 0 m.group.mask 3 (.entry m.entry ⟨0, va, (groupEntry t.width m.group).map (·, false)⟩)
      let s := { s with busy := fput 0 s.busy (rucksackKey t) (s.now + 1) }
      s.modTeam t.id.uid fun t => t.setArch fun a => { a with moved := modifyWhere (·.entry == m.entry) (fun m => { m with stored := true }) a.moved }

/-- The bytes of a spill area as the team's own load reads them (R93). -/
def State.spillBytes (s : State) (t : Team) (va n : Nat) : List (Byte × Bool) :=
  let own := s.ownBytes t va n (!isScratch va)
  let mem := match s.keyOf t.id.tile t.id.ctx va with
    | some k => s.mem.load k n
    | none => List.replicate n (0, false)
  overlay own mem

/-- A group as its overflow entry gives it back (R88, R94): PC, mask and the low half of its wait start, with the lanes that joined it
meanwhile; its signature is reset and not valid (R193). What the entry does not hold is the team's account (log entry 25). -/
def Moved.readBack (m : Moved) (w : Nat) (bs : List (Byte × Bool)) : Group :=
  let raw := bs.map (·.1)
  if !m.stored then { m.group with sig := sigReset, sigOk := false }
  else
    let mask : LaneMask := BitVec.ofNat 1024 (ofBytes ((raw.drop 16).take (4 * ceilDiv w 32)) % 2 ^ w)
    let wait := m.group.waitTime / 2 ^ 32 * 2 ^ 32 + ofBytes ((raw.drop 8).take 4)
    ⟨BitVec.ofNat 48 (ofBytes (raw.take 8)), mask ||| m.joins, if m.joins = 0 then wait else min wait m.group.waitTime, m.group.waitIssue, sigReset, false⟩

/-- A moved group comes back to the table: its entry is read, its place in the region is free again. An entry that is poisoned is one
that could not be rebuilt (R191). -/
def State.readEntry (s : State) (t : Team) (m : Moved) : State :=
  let bs := s.spillBytes t (t.overflowAddr m.entry) (overflowBytes t.width)
  let g := m.readBack t.width bs
  if m.stored && bs.any (·.2) then s.uncorrectable t.id.ctx (t.overflowAddr m.entry)
  else s.modTeam t.id.uid fun t =>
    let t := t.setArch fun a => { a with moved := a.moved.filter fun x => x.entry != m.entry }
    if g.mask = 0 then t else t.join g

/-- RUCKSACK_SPILL (R88, R91, R93): a moved group's entry is written (lane 1,024 and above), the lowest chunk leaves the window as a
held write, or the window moves without a transfer. -/
def execRucksackSpill (uid lane : Nat) (s : State) : Host.Outcome State Fault Refusal :=
  match s.team? uid with
  | none => .next s
  | some t =>
    if 1024 ≤ lane then .next (match s.entryToWrite t with
      | some m => s.writeEntry t m
      | none => s)
    else match s.transferOf t lane with
    | some (.spill c) =>
      match s.spillBlocked t lane c Need.w with
      | some s => .next s
      | none =>
        if Config.coolboxUnits < s.unitsUsed t.id.tile + 3 || s.now < fget 0 s.busy (rucksackKey t) then .next s
        else
          let s := s.hold t (((t.current).map (·.pc)).getD 0) 0 (maskOf [lane]) 3 (.spill c (t.chunkPiece lane c))
          let s := { s with busy := fput 0 s.busy (rucksackKey t) (s.now + 1) }
          .next (s.modTeam uid fun t => t.setFrame lane fun f => { f with lo := f.lo + 16, spilling := c :: f.spilling })
    | some .move => .next (s.modTeam uid fun t => t.setFrame lane fun f => f.settle t.id.frame (t.pinned lane) (t.lane lane).fp.toNat 8)
    | _ => .next s

/-- The words of a chunk as the team's own load reads them (R93). -/
def State.chunkWords (s : State) (t : Team) (l chunk : Nat) : List PWord := loadedWords false (s.spillBytes t (t.spillAddr l (16 * chunk)) 64)

/-- Slots of a lane from words. -/
def Frame.put (f : Frame) (n : Nat) (ws : List PWord) : Frame :=
  { f with slots := ws.zipIdx.foldl (fun m (w, i) => fput PWord.zero m (n + i) w) f.slots }

/-- A chunk of a lane comes back from the spill area. -/
def State.refill (s : State) (t : Team) (lane c : Nat) (place : Frame → Frame) : State :=
  match s.spillBlocked t lane c Need.r with
  | some s => s
  | none =>
    if s.now < fget 0 s.busy (rucksackKey t) then s
    else
      let ws := s.chunkWords t lane c
      let s := { s with busy := fput 0 s.busy (rucksackKey t) (s.now + 1) }
      s.modTeam t.id.uid fun t => t.setFrame lane fun f => place (f.put (16 * c) ws)

/-- RUCKSACK_REFILL (R91, R93, R96): the chunk below the window comes back, or after a readmission the one above it. -/
def execRucksackRefill (uid lane : Nat) (s : State) : Host.Outcome State Fault Refusal :=
  match s.team? uid with
  | none => .next s
  | some t => match s.transferOf t lane with
    | some (.refill c) => .next (s.refill t lane c fun f => { f with lo := 16 * c })
    | some (.raise c) => .next (s.refill t lane c fun f => { f with hi := 16 * c + 16 })
    | _ => .next s

/-! ### Waking (R411) and reservations (R428) -/

/-- Does a waiting team go on: its object has reached its target or gone bad, or its page has gone? -/
def State.wakes (s : State) (t : Team) : Bool :=
  t.status == .waiting && !t.sched.preempt && match t.wait with
    | none => true
    | some w => match s.keyOf t.id.tile t.id.ctx w.ea with
      | some key => s.reached w.ea key w.target
      | none => true

/-- WAIT_WAKE (R411): the WAIT is evaluated again. -/
def execWaitWake (uid : Nat) (s : State) : Host.Outcome State Fault Refusal :=
  match s.team? uid with
  | some t => .next (if s.wakes t then s.modTeam uid fun t => { t with status := .running } else s)
  | none => .next s

/-- RESERVATION_GRANT (R428): a reservation that waited is granted. -/
def execReservationGrant (uid : Nat) (s : State) : Host.Outcome State Fault Refusal :=
  match s.team? uid with
  | none => .next s
  | some t => match t.wants with
    | none => .next s
    | some (key, k) =>
      if (s.portCause t (key / 4) (key % 4 != 3) k).isSome then .next s
      else match s.grant t (key / 4) (key % 4 != 3) k with
      | none => .next s
      | some (slots, s) => .next (s.modTeam uid fun t => { t with grants := t.grants ++ [(key, slots)], wants := none })

end Sys2Proof.Machine
end

