-- ==== Sys2Proof/Machine/MatrixEngine.lean ====
section
/-! DEFINITION. The matrix engine: commands started in order, segments and rows read, held and committed, drains, credits,
stopping errors (R248-R273). -/

namespace Sys2Proof.Machine

/-! ### Commands and their order (R260) -/

/-- Does a command use the compute unit (R260)? -/
def Command.compute (c : Command) : Bool := c.op != 1 && c.op != 7
/-- The macro set that an MMA or MMAS reads. -/
def Command.reads (c : Command) (x : Nat) : Bool := (c.op == 2 || c.op == 3) && recSet c.record == x
/-- Is it an MLDB into a set? -/
def Command.loads (c : Command) (x : Nat) : Bool := c.op == 1 && recSet c.record == x
/-- 64-byte segments of one column (R263). -/
def Command.segs (c : Command) : Nat := ceilDiv (mldbBytes c.record c.btyp c.bdesc) 64
/-- Rows, segments or segment records of a command. -/
def Command.total (c : Command) : Nat :=
  match c.op with
  | 1 => (rfield c.record 28 7 0 + 1) * c.segs
  | 6 => 1
  | 7 => rfield c.record 20 11 0 + 1
  | _ => recRows c.record
/-- Has a command finished its last row? A void one has nothing to do. -/
def Command.finished (c : Command) : Bool := c.void || (c.started && decide (c.total ≤ c.row))
/-- May the next command of the channel start after it? -/
def Command.passed (c : Command) : Bool :=
  c.void || (c.started && !c.parked && !c.stopped && (c.op != 7 || decide (c.total ≤ c.row)))

/-- Significand bits of an operand type (R249). -/
def significand (typ : Nat) (desc : Word) : Nat :=
  match typ with
  | 6 => let f := Fmt.ofDescriptor desc; if f.e = 0 then f.width else f.m + 1
  | 3 => 8
  | 2 => 11
  | 1 => 53
  | _ => 24

/-- Compute-unit cycles of one row: D, twice in redundant mode (R249); a row of another command takes one. -/
def Engine.rowCycles (g : Engine) (c : Command) : Nat :=
  if c.op = 2 || c.op = 3 then
    let (t, d) := ((g.channel? c.chan).map fun k => k.slot (rfield c.record 28 1 0)).getD (0, 0)
    ceilDiv (significand t d) 2 * if recRed c.record then 2 else 1
  else 1

/-- Are all of a group's resident teams drained for its pre-emption (R274)? -/
def State.groupStopped (s : State) (gid : Nat) : Bool :=
  let ts := s.allTeams.filter fun t => t.id.gid == gid && !t.ending
  !ts.isEmpty && ts.all fun t => t.status == .preempted && !t.sched.evict

/-- Commands of a channel before one; a segment record's MRUN, in whose place it stands, is none (R270). -/
def Engine.before (g : Engine) (c : Command) : List Command :=
  (g.cmds.takeWhile fun x => x.mid != c.mid).filter fun x => x.chan == c.chan && c.parent != some x.mid

/-- The hazards of R260 among earlier commands of the channel. -/
def hazardsClear (before : List Command) (c : Command) : Bool :=
  before.all fun b => b.void ||
    ((c.op != 1 || !b.reads (recSet c.record) || b.finished) &&
     (!(c.op == 2 || c.op == 3) || !b.loads (recSet c.record)) &&
     (!c.compute || !b.compute || b.finished))

/-- A command's wait (R261); a segment record whose barrier lies outside the window waits for none, and is stopped (R270). -/
def State.mxWaitOver (s : State) (tile : Nat) (k : Channel) (r : List Word) : Bool :=
  !recWt r || decide (k.size < recWbar r + 16) ||
  (let n := ((s.barrier (sliceAddr tile (k.base + recWbar r))).phase + 2 ^ 16 - recWphase r) % 2 ^ 16
   decide (1 ≤ n) && decide (n ≤ 32767))

/-- Can a command start as far as its channel goes, the commands `before` it being given? -/
def State.channelReady (s : State) (tile : Nat) (g : Engine) (before : List Command) (c : Command) : Bool :=
  match g.channel? c.chan with
  | none => false
  | some k => k.fetchable && !k.halted && c.written && !c.void && !c.stopped && !c.parked && !s.groupStopped c.gid &&
    before.all Command.passed && s.mxWaitOver tile k c.record && hazardsClear before c

/-- The record that an MRUN reads next, as it stands (R270). -/
def State.segmentRecord (s : State) (tile : Nat) (k : Channel) (c : Command) : List Word :=
  (List.range 8).map fun i => BitVec.ofNat 32 (s.mem.nat (sliceAddr tile (k.base + rfield c.record 16 19 0 + 32 * c.row + 4 * i)) 4)

/-- A segment record as a command in its MRUN's place. -/
def Engine.child (g : Engine) (k : Channel) (c : Command) (mid : Nat) (r : List Word) : Command :=
  let (bt, bd) := k.slot (rfield r 28 9 8)
  let x := g.set (recSet r)
  let load := recOp r = 1
  { c with
    mid := mid, parent := some c.mid, op := recOp r, record := r, written := true, started := false, row := 0, busyUntil := 0, done := 0
    credited := Option.none, posted := false, pid := Option.none, btyp := if load then bt else x.typ, bdesc := if load then bd else x.desc
    bsparse := if load then rfield r 28 11 11 == 1 else x.sparse }

/-- What an MRUN that has started does next: its next record as a command, with the commands before it, and the cause of a record that
is refused when it is due to start (R270). -/
def State.nextRecord (s : State) (tile : Nat) (g : Engine) (c : Command) : Option (Option Nat × Command × List Command) :=
  match g.channel? c.chan with
  | none => none
  | some k =>
    if c.op != 7 || !c.started || c.stopped || decide (c.total ≤ c.row) then none
    else
      let r := s.segmentRecord tile k c
      let before := g.before c ++ g.cmds.filter fun x => x.parent == some c.mid
      let cause := if recOp r = 6 || recOp r = 7 then some 48 else (s.recordCause tile k.gid k.base k.size r).or (if recChan r != c.chan then some 46 else none)
      some (cause, g.child k c 0 r, before)

/-- Is the compute unit free: no command on it that could run a row? -/
def State.runner (s : State) (g : Engine) : Option Command :=
  g.cmds.find? fun c => c.compute && c.started && !c.finished && !c.stopped && !s.groupStopped c.gid

/-- Commands of an engine that are ready for the compute unit: each with the time at which its channel's turn begins. -/
def State.contenders (s : State) (tile : Nat) (g : Engine) : List (Nat × Nat) :=
  g.cmds.filterMap fun c =>
    let turn := max g.turn (((g.channel? c.chan).map (·.spent)).getD 0)
    if !c.started && c.compute && s.channelReady tile g (g.before c) c then some (turn, c.chan)
    else match s.nextRecord tile g c with
    | some (_, x, before) => if x.compute && s.channelReady tile g before x then some (turn, c.chan) else none
    | _ => none

/-- May a channel have the compute unit now (R260)? -/
def State.mayCompute (s : State) (tile : Nat) (g : Engine) (chan : Nat) : Bool :=
  (s.runner g).isNone &&
  match sortBy (fun (t, c) => 4 * t + c) (s.contenders tile g) with
  | (_, c) :: _ => c == chan
  | [] => false

/-- Can COMMAND_START act on a command: it starts, or as an MRUN its next record does? -/
def State.canStart (s : State) (tile : Nat) (c : Command) : Bool :=
  let g := s.engine tile
  if !c.started then s.channelReady tile g (g.before c) c && (!c.compute || s.mayCompute tile g c.chan)
  else match s.nextRecord tile g c with
  | some (_, x, before) => s.channelReady tile g before x && (!x.compute || s.mayCompute tile g c.chan)
  | none => false

/-! ### Stopping errors (R273) -/

/-- The channel of stopped commands goes on after them; one whose group has ended goes with its last command (R254). -/
def State.settleCommands (s : State) (tile : Nat) (p : Command → Bool) : State :=
  s.modEngine tile fun g =>
    let gone := g.cmds.filter fun c => c.stopped && p c
    let g := { g with
      cmds := g.cmds.filter fun c => !gone.any fun x => x.mid == c.mid
      channels := modifyWhere (fun k => gone.any fun x => x.chan == k.chan) (fun k => { k with halted := false }) g.channels }
    g.free fun k => (s.group? k.gid).isNone && (g.unretired k.chan).isEmpty

/-- When Ranger settles a trap, the channel that it halted goes on. -/
def State.settleTrap (s : State) (t : Team) (p : Park) : State :=
  s.settleCommands t.id.tile fun c => c.uid == t.id.uid && c.pc == p.pc && c.issue == p.time

/-- A command stops, with its MRUN: its channel halts and its team traps, or the record is posted when the team has ended. -/
def State.stopCommand (s : State) (tile : Nat) (c : Command) (cause value : Nat) : State :=
  let s := s.modEngine tile fun g =>
    { g with cmds := modifyWhere (fun x => x.mid == c.mid || some x.mid == c.parent) (fun x => { x with stopped := true }) g.cmds }.modChannel c.chan
      fun k => { k with halted := true }
  let lanes := lanesOf 1024 (s.collectiveMask c.uid)
  let vals : List (Nat × Dword) := if lanes.isEmpty then [(0, BitVec.ofNat 64 value)] else lanes.map fun l => (l, BitVec.ofNat 64 value)
  let ended := !s.alive c.uid
  let s := s.deferFor c.uid tile c.ctx ⟨cause, c.pc, c.issue, c.word, s.collectiveMask c.uid, vals, false⟩
  if ended then s.settleCommands tile fun x => x.mid == c.mid || some x.mid == c.parent else s

/-! ### Starting (R260, R270) -/

/-- Compute-unit cycles of a whole command, scaled by the share of its kernel. -/
def Engine.cost (g : Engine) (c : Command) : Nat :=
  let share := ((g.channel? c.chan).map (·.share)).getD 1
  c.total * g.rowCycles c * 720720 / max 1 share

/-- Does a command multiply: its rows start with a read of A (R311)? -/
def Command.multiplies (c : Command) : Bool := c.op == 2 || c.op == 3

/-- A command's next row is to be formed from `now` on. -/
def Command.toRow (c : Command) (now : Nat) : Command := { c with busyUntil := if c.multiplies then now else now + 1, arow := none }

/-- A command takes its unit; a compute command takes its channel's turn. -/
def Engine.take (g : Engine) (now : Nat) (c : Command) : Engine × Command :=
  let c := { c with started := true }.toRow now
  if c.compute then
    let turn := max g.turn (((g.channel? c.chan).map (·.spent)).getD 0)
    ({ g with turn := turn }.modChannel c.chan fun k => { k with spent := turn + g.cost c }, c)
  else (g, c)

/-- The record as the engine reads it from its ring slot: of each byte the appended or the written value (R257). -/
def State.slotRecord (s : State) (tile : Nat) (k : Channel) (c : Command) : List Word × State :=
  let (d, s) := draw s
  let at_ := sliceAddr tile (k.base + k.ring + 32 * (c.number % k.rsize))
  (c.record.zipIdx.map fun (w, i) =>
    BitVec.ofNat 32 (ofBytes ((toBytes 4 w.toNat).zipIdx.map fun (b, j) => if bit d (4 * i + j) then s.mem.get (at_ + 4 * i + j) else b)), s)

/-- COMMAND_START (R260, R261, R270): a command starts, or an MRUN reads its next record and starts it. -/
def execCommandStart (tile mid : Nat) (s : State) : Host.Outcome State Fault Refusal :=
  let g := s.engine tile
  match g.cmds.find? fun c => c.mid == mid with
  | none => .next s
  | some c =>
    if !s.canStart tile c then .next s
    else match g.channel? c.chan, s.nextRecord tile g c with
    | some _, some (some x, _, _) => .next (s.stopCommand tile c x 0)
    | some _, some (none, x, _) =>
      let (id, s) := fresh s
      let (g, x) := (g.modCmd mid fun y => { y with row := y.row + 1 }).take s.now { x with mid := id }
      let g := if x.op = 1 then g.modSet (recSet x.record) fun m => { m with typ := x.btyp, desc := x.bdesc, sparse := x.bsparse } else g
      let inside (y : Command) : Bool := y.mid == mid || y.parent == some mid
      let head := g.cmds.takeWhile fun y => !inside y
      let rest := g.cmds.drop head.length
      let cmds := head ++ rest.filter inside ++ [x] ++ rest.filter fun y => !inside y
      .next (s.modEngine tile fun _ => { g with cmds := cmds })
    | some k, none =>
      let (r, s) := if c.parent.isNone && c.row = 0 then s.slotRecord tile k c else (c.record, s)
      let wrong : Option Nat := if r = c.record then none else if recOp r != c.op || recChan r != c.chan then some 48
        else s.recordCause tile k.gid k.base k.size r
      match wrong with
      | some x => .next (s.stopCommand tile c x 0)
      | none =>
        let (g, c) := g.take s.now { c with record := r }
        .next (s.modEngine tile fun _ => g.modCmd mid fun _ => c)
    | none, _ => .next s

/-! ### Elements -/

/-- Element `i` of packed bytes and its poison (R136). -/
def elementAt (bs : List (Byte × Bool)) (eb i : Nat) : PVal :=
  if eb = 4 then
    let b := bs.getD (i / 2) (0, false)
    ⟨BitVec.ofNat 64 (bits b.1.toNat (4 * (i % 2) + 3) (4 * (i % 2))), b.2⟩
  else
    let part := (bs.drop (i * (eb / 8))).take (eb / 8)
    ⟨BitVec.ofNat 64 (ofBytes (part.map (·.1))), part.any (·.2)⟩

/-- Elements packed into bytes, each byte with the poison of its elements. -/
def packElements (eb : Nat) (vs : List (Nat × Bool)) : List (Byte × Bool) :=
  if eb = 4 then
    (List.range (vs.length / 2)).map fun i =>
      let a := vs.getD (2 * i) (0, false)
      let b := vs.getD (2 * i + 1) (0, false)
      (BitVec.ofNat 8 (a.1 % 16 + b.1 % 16 * 16), a.2 || b.2)
  else vs.flatMap fun (v, p) => (toBytes (eb / 8) v).map (·, p)

/-- The 32-element blocks of a list of nf bytes that hold padding (R137): their numbers. -/
def paddedBlocks (typ : Nat) (desc : Word) (bs : List (Byte × Bool)) : List Nat :=
  if typ != 6 then []
  else
    let n := 4 * slotWidth desc
    (List.range (bs.length / n)).filter fun b => padded desc (((bs.drop (b * n)).take n).map (·.1))

/-- The value of a code under a scale byte (R138, R264). -/
def scaledValue (f : Fmt) (flush : Bool) (code s : Nat) : Num :=
  if s = 255 then .nan false else (f.read flush code).scale ((s : Int) - 127)

/-- A list cut into pieces of `n`. -/
def chunks (n : Nat) : Nat → List α → List (List α)
  | 0, _ => []
  | j + 1, l => l.take n :: chunks n j (l.drop n)

/-! ### MLDB (R263, R273) -/

/-- Where a command's next 64 bytes begin in their column, and how many of them hold values. -/
def Command.segOff (c : Command) : Nat := c.row % c.segs * 64
def Command.segCol (c : Command) : Nat := c.row / c.segs
def Command.segValues (c : Command) : Nat := min 64 (columnBytes c.btyp c.bdesc - c.segOff)
/-- The column's address, whether its format is an MX one, and the bytes of a block of 32 elements. -/
def Command.segBase (c : Command) : Nat := rfield c.record 16 47 0 + c.segCol * rfield c.record 24 31 0
def Command.mx (c : Command) : Bool := rfield c.record 28 10 10 == 1
def Command.block (c : Command) : Nat := 4 * elemBits c.btyp c.bdesc

/-- MLDB_SEGMENT's guard: an earlier command that reads the set and that a strike took back finishes first (R260, R272), and a source
word that is being rebuilt is waited for (R216). -/
def State.canLoad (s : State) (tile : Nat) (c : Command) : Bool :=
  c.op == 1 && c.started && !c.finished && !c.stopped && !c.parked && !s.groupStopped c.gid && decide (c.busyUntil ≤ s.now) && !s.fetching c.mid &&
  (((s.engine tile).before c).all fun b => b.void || !b.reads (recSet c.record) || b.finished) &&
  !s.engineRebuilding tile c.ctx (c.segBase + c.segOff) (min 64 (mldbBytes c.record c.btyp c.bdesc - c.segOff))

/-- One byte of a column as the engine reads it. -/
def State.columnByte (s : State) (tile : Nat) (c : Command) (mx : Bool) (va : Nat) : Got :=
  s.engineByte c.mid tile c.ctx va { Need.r with mx := mx } fun y => if y = 30 then 30 else 49

/-- The next 64 bytes of a column. -/
def State.segGot (s : State) (tile : Nat) (c : Command) : List Got :=
  (List.range (min 64 (mldbBytes c.record c.btyp c.bdesc - c.segOff))).map fun i =>
    s.columnByte tile c (c.mx && decide (c.segOff + i < columnBytes c.btyp c.bdesc)) (c.segBase + c.segOff + i)

/-- The scales that memory pairs with the blocks of those bytes (R223, R263). -/
def State.segScales (s : State) (tile : Nat) (c : Command) : List (Nat × Got) :=
  if c.mx && !isScratch c.segBase then
    (List.range (c.segValues / c.block)).map fun b =>
      ((c.segOff + b * c.block) / c.block, s.columnByte tile c true (scaleAddr (c.segBase + c.segOff + b * c.block) c.block))
  else []

/-- The values of a segment, each with its place in the set; one of a block with padding carries poison. -/
def Command.cells (c : Command) (bs : List (Byte × Bool)) (bad : List Nat) : List (Nat × Nat × PVal) :=
  let eb := elemBits c.btyp c.bdesc
  (List.range (8 * c.segValues / eb)).map fun i =>
    let v := elementAt (bs.take c.segValues) eb i
    (4 * recSet c.record, c.segCol * 256 + 8 * c.segOff / eb + i, { v with p := v.p || bad.contains (i / 32) })

/-- What stands in a segment after the values: scales of a scratchpad column, metadata codes. -/
def Command.tail (c : Command) (bs : List (Byte × Bool)) : List (Nat × Nat × PVal) :=
  let x := recSet c.record
  let values := columnBytes c.btyp c.bdesc
  let scales := if c.mx && isScratch c.segBase then 8 else 0
  bs.zipIdx.flatMap fun ((b, p), i) =>
    let o := c.segOff + i
    if o < values then []
    else if o < values + scales then [(4 * x + 1, c.segCol * 8 + (o - values), ⟨b.zeroExtend 64, p⟩)]
    else
      let g := 2 * (o - values - scales)
      [(4 * x + 2, c.segCol * 128 + g, ⟨BitVec.ofNat 64 (b.toNat % 16), p⟩), (4 * x + 2, c.segCol * 128 + g + 1, ⟨BitVec.ofNat 64 (b.toNat / 16), p⟩)]

/-- What a segment clears first: with the column's first bytes the column, with the command's first the columns past its last. -/
def Command.clears (c : Command) : List (Nat × Nat × PVal) :=
  let x := recSet c.record
  let n := rfield c.record 28 7 0 + 1
  (if c.row = 0 then (List.range (256 - n)).map fun i => (4 * x + 3, n + i, PVal.z) else []) ++
    if c.segOff = 0 then [(4 * x + 3, c.segCol, PVal.z)] else []

/-- MLDB_SEGMENT (R263): 64 bytes of a column are read; what they hold is kept for Q cycles, then it is in the set. -/
def execMldbSegment (tile mid : Nat) (s : State) : Host.Outcome State Fault Refusal :=
  match (s.engine tile).cmds.find? fun c => c.mid == mid with
  | none => .next s
  | some c =>
    if !s.canLoad tile c then .next s
    else
      let got := s.segGot tile c
      let paired := s.segScales tile c
      match firstSome Got.trouble (got ++ paired.map (·.2)) with
      | some (.fault l va) =>
        let s := s.parkFault (s.ownerTeam c.uid tile 0 c.ctx) 2 mid c.pc c.word c.issue (s.collectiveMask c.uid) va Need.r l
        .next (s.modEngine tile fun g => g.modCmd mid fun c => { c with parked := true })
      | some (.bad cause va) => .next (s.stopCommand tile c cause va)
      | some (.away va key) => .next (s.fetchLine mid tile 0 c.uid c.ctx c.issue c.pc c.word va key)
      | _ =>
        let bs := got.filterMap Got.byte?
        let bad := paddedBlocks c.btyp c.bdesc (bs.take c.segValues)
        let sc : List (Nat × Nat × PVal) := paired.filterMap fun y => y.2.byte?.map fun b => (4 * recSet c.record + 1, c.segCol * 8 + y.1, ⟨b.1.zeroExtend 64, b.2⟩)
        let cells := c.clears ++ c.cells bs bad ++ c.tail bs ++ sc
        let s := bad.foldl (fun s b => s.errorRecord (some c.ctx) 88 2 (tile * 2) c.pc (c.segBase + c.segOff + b * c.block) 0) s
        let (hid, s) := fresh s
        .next (s.modEngine tile fun g => { g with holds := g.holds ++ [RowHold.mk hid mid c.row s.now [] [] cells [] []] }.modCmd mid fun c =>
          { c with row := c.row + 1, busyUntil := s.now + 1 })

/-! ### Accumulators (R251, R271) -/

/-- The accumulators with the engine's own held updates. -/
def Engine.accView (g : Engine) : Fmap PWord := g.holds.foldl (fun m h => h.acc.foldl (fun m (k, w) => fput PWord.zero m k w) m) g.acc
/-- The status bits with the held ones. -/
def Engine.statusView (g : Engine) : Fmap Nat := g.holds.foldl (fun m h => h.status.foldl (fun m (k, v) => fput 0 m k v) m) g.status

/-- Value `n` of an accumulator row: its code and poison. -/
def accValue (m : Fmap PWord) (acc64 : Bool) (r n : Nat) : PVal :=
  if acc64 then pairVal (fget PWord.zero m (512 * r + 2 * n)) (fget PWord.zero m (512 * r + 2 * n + 1))
  else let w := fget PWord.zero m (256 * r + n); ⟨w.w.zeroExtend 64, w.p⟩

/-- The words of value `n` of an accumulator row. -/
def accWords (acc64 : Bool) (r n code : Nat) (p : Bool) : List (Nat × PWord) :=
  if acc64 then [(512 * r + 2 * n, ⟨BitVec.ofNat 32 code, p⟩), (512 * r + 2 * n + 1, ⟨BitVec.ofNat 32 (code / 2 ^ 32), p⟩)]
  else [(256 * r + n, ⟨BitVec.ofNat 32 code, p⟩)]

/-- The physical rows of an accumulator row. -/
def physical (acc64 : Bool) (r : Nat) : List Nat := if acc64 then [2 * r, 2 * r + 1] else [r]
/-- The format of accumulators. -/
def accFmt (acc64 : Bool) : Fmt := if acc64 then Fmt.f64 else Fmt.f32

/-! ### MMA and MMAS (R264-R267) -/

/-- The exact sum of a block's products. -/
def blockSum (rdn : Bool) : List Num → Num
  | [] => .fin false 0 0
  | p :: ps => ps.foldl (Num.add rdn) p

/-- An accumulator value with the blocks added one after the other, each rounded once and added with one rounding (R264). -/
def accumulate (t : Fmt) (rm : Rm) (s : Nat) (blocks : List (List Num)) : Nat :=
  let rdn := rm.rnd == 3
  blocks.foldl (fun s b =>
    let e := (t.round rm (blockSum rdn b)).1
    (t.round rm (Num.add rdn (t.read rm.flush s) (t.value e))).1) s

/-- A column of a set: its 256 stored values under their scales, its codes, and whether any part of it carries poison. -/
structure Column where
  vals : List Num
  codes : List Nat
  poison : Bool
deriving DecidableEq, Repr

def MacroSet.column (m : MacroSet) (typ : Nat) (desc : Word) (sparse flush : Bool) (n : Nat) : Column :=
  let cells := m.cells.filter fun (k, _) => k / 256 == n
  let scales := m.scales.filter fun (k, _) => k / 8 == n
  let metas := m.metas.filter fun (k, _) => k / 128 == n
  let f := fmtOf typ desc
  let scale (j : Nat) : Nat := (fget ⟨127, false⟩ scales (n * 8 + j)).v.toNat
  ⟨(List.range 256).map fun k => scaledValue f flush (fget PVal.z cells (n * 256 + k)).v.toNat (scale (k / 32)),
   if sparse then (List.range 128).map fun g => (fget ⟨4, false⟩ metas (n * 128 + g)).v.toNat else [],
   (cells ++ scales ++ if sparse then metas else []).any fun (_, v) => v.p⟩

/-- An illegal metadata code: p0 ≥ p1 (R266). -/
def codeIllegal (c : Nat) : Bool := decide (bits c 3 2 ≤ bits c 1 0)

/-- The products of an A row with a column, in order of logical k. -/
def Column.products (b : Column) (sparse : Bool) (a : List Num) : List Num :=
  if !sparse then (a.zip b.vals).map fun (x, y) => x.mul y
  else
    let vals := chunks 2 128 b.vals
    ((chunks 4 128 a).zip (b.codes.zip vals)).flatMap fun (xs, c, ys) => xs.zipIdx.map fun (x, i) =>
      if codeIllegal c then .fin false 0 0
      else if i = bits c 1 0 then x.mul (ys.getD 0 (.fin false 0 0))
      else if i = bits c 3 2 then x.mul (ys.getD 1 (.fin false 0 0))
      else x.mul (.fin false 0 0)

/-- The address of the row of A that a command reads next, and its bytes (R264). -/
def Command.aAddr (c : Command) (tile : Nat) (k : Channel) : Nat :=
  sliceAddr tile (k.base + rfield c.record 16 19 0 + ((rfield c.record 24 11 0 + c.row) % (rfield c.record 20 27 16 + 1)) * rfield c.record 20 15 0)
def State.aRow (s : State) (tile : Nat) (k : Channel) (c : Command) : List (Byte × Bool) :=
  let (t, d) := k.slot (rfield c.record 28 1 0)
  s.mem.load (c.aAddr tile k) (aRowBytes c.record t d)

/-- The lanes that an MDRAIN answers. -/
def State.drainLanes (s : State) (c : Command) : List Nat := match c.pid.bind fun p => s.pend? c.uid p with
  | some p => p.results.map (·.lane)
  | none => []

/-- Accumulator rows that a command's next row reads: all an MDRAIN's (R269). -/
def State.rowsRead (s : State) (c : Command) : List Nat :=
  let n := if c.op = 6 then drainRows c.record (s.drainLanes c) else 1
  (List.range n).flatMap fun i => physical (recAcc64 c.record) (recAccRow c.record + c.row + i)

/-- Does a command's next row wait for an array: accumulators, its set, or the row of A that it starts with (R216)? -/
def State.rowRebuilding (s : State) (tile : Nat) (c : Command) : Bool :=
  if c.multiplies && c.arow.isNone then
    ((s.engine tile).channel? c.chan).any fun k => s.engineRebuilding tile c.ctx (c.aAddr tile k) (s.aRow tile k c).length
  else (c.op != 4 && (s.rowsRead c).any fun p => s.rebuilding tile 2 (256 * p) 256) || (c.multiplies && s.rebuilding tile 3 (recSet c.record * 2 ^ 32) (2 ^ 32))

/-- May a compute command go on with its next row? -/
def State.canRow (s : State) (tile : Nat) (c : Command) : Bool :=
  ((s.runner (s.engine tile)).map (·.mid)) == some c.mid && decide (c.busyUntil ≤ s.now) && !s.rowRebuilding tile c

/-- A row of a compute command has been formed: it is held, and the next one begins. -/
def State.formRow (s : State) (tile : Nat) (c : Command) (acc : List (Nat × PWord)) (status : List (Nat × Nat)) (ps : List Piece)
    (vals : List (Nat × Nat × List PWord)) : State :=
  let (hid, s) := fresh s
  s.modEngine tile fun g =>
    { g with holds := g.holds ++ [RowHold.mk hid c.mid c.row s.now acc status [] ps vals] }.modCmd c.mid fun c => { c with row := c.row + 1 }.toRow s.now

/-- The bytes of a row of A that hold values; the rest are scales. -/
def Command.aBytes (c : Command) (k : Channel) : Nat :=
  let (t, d) := k.slot (rfield c.record 28 1 0)
  recK c.record * elemBits t d / 8

/-- The values of a row of A under their scales. -/
def Command.aValues (c : Command) (k : Channel) (bs : List (Byte × Bool)) : List Num :=
  let (t, d) := k.slot (rfield c.record 28 1 0)
  let vals := bs.take (c.aBytes k)
  let scales := bs.drop (c.aBytes k)
  (List.range (recK c.record)).map fun i =>
    scaledValue (fmtOf t d) (recRm c.record).flush (elementAt vals (elemBits t d) i).v.toNat (if scales.isEmpty then 127 else (scales.getD (i / 32) (127, false)).1.toNat)

/-- The columns that a command multiplies with. -/
def Engine.columns (g : Engine) (c : Command) : List Column :=
  (List.range (tileN c.btyp)).map fun n => (g.set (recSet c.record)).column c.btyp c.bdesc (c.op == 3) (recRm c.record).flush n

/-- Value `n` of an accumulator row with the products of a row of A and a column added (R264, R265). -/
def Command.added (c : Command) (view : Fmap PWord) (a : List Num) (poison : Bool) (n : Nat) (b : Column) : List (Nat × PWord) :=
  let acc64 := recAcc64 c.record
  let row := recAccRow c.record + c.row
  let old := accValue view acc64 row n
  accWords acc64 row n (accumulate (accFmt acc64) (recRm c.record) old.v.toNat (chunks (recK c.record / 16) 16 (b.products (c.op == 3) a))) (old.p || poison || b.poison)

/-- MMA_ROW (R264-R267, R311): as a row starts its row of A is read; as its last digit-cycle ends, that times the set is added into one
accumulator row. -/
def execMmaRow (tile mid : Nat) (s : State) : Host.Outcome State Fault Refusal :=
  let g := s.engine tile
  match g.cmds.find? fun c => c.mid == mid with
  | none => .next s
  | some c => match g.channel? c.chan with
    | none => .next s
    | some k =>
      if !(c.op == 2 || c.op == 3) || !s.canRow tile c then .next s
      else match c.arow with
      | none => .next (s.modEngine tile fun g => g.modCmd mid fun c => { c with arow := some (s.aRow tile k c), busyUntil := s.now + g.rowCycles c })
      | some bs =>
        let r := c.record
        let (at_, ad) := k.slot (rfield r 28 1 0)
        let bad := paddedBlocks at_ ad (bs.take (c.aBytes k))
        let cols := g.columns c
        let illegal := cols.findIdx? fun b => b.codes.any codeIllegal
        let rowPoison := bs.any (·.2) || !bad.isEmpty || illegal.isSome
        let acc := cols.zipIdx.flatMap fun (b, n) => c.added g.accView (c.aValues k bs) rowPoison n b
        let strict := recStrict r && illegal.isSome
        let status := if strict then (physical (recAcc64 r) (recAccRow r + c.row)).map fun p => (p, c.number * 4 + 2 + fget 0 g.statusView p % 2) else []
        let s := bad.foldl (fun s b => s.errorRecord (some c.ctx) 88 2 (tile * 2) c.pc (c.aAddr tile k + b * (4 * elemBits at_ ad)) 0) s
        let s := match illegal with
          | some n => if strict || c.posted then s else
            (s.errorRecord (some c.ctx) 91 2 (tile * 2) c.pc (c.number + n * 2 ^ 32) 0).modEngine tile fun g => g.modCmd mid fun c => { c with posted := true }
          | none => s
        .next (s.formRow tile c acc status [] [])

/-! ### MZERO, MSTORE, MDRAIN (R268, R269) -/

/-- MZERO_ROW (R268). -/
def execMzeroRow (tile mid : Nat) (s : State) : Host.Outcome State Fault Refusal :=
  match (s.engine tile).cmds.find? fun c => c.mid == mid with
  | none => .next s
  | some c =>
    if c.op != 4 || !s.canRow tile c then .next s
    else
      let ps := physical (recAcc64 c.record) (recAccRow c.record + c.row)
      .next (s.formRow tile c (ps.flatMap fun p => (List.range 256).map fun n => (256 * p + n, PWord.zero)) (ps.map (·, 0)) [] [])

/-- What stops a drain at a row (R269): the cause and the value. -/
def rowStop (status : Fmap Nat) (acc64 : Bool) (row : Nat) : Option (Nat × Nat) :=
  let vs := (physical acc64 row).map fun p => fget 0 status p
  match vs.find? fun v => bit v 1, vs.find? fun v => bit v 0 with
  | some v, _ => some (50, v / 4 + row * 2 ^ 32)
  | none, some v => some (51, v / 4 + row * 2 ^ 32)
  | none, none => none

/-- MSTORE_ROW (R269): a row is converted and its write held. -/
def execMstoreRow (tile mid : Nat) (s : State) : Host.Outcome State Fault Refusal :=
  let g := s.engine tile
  match g.cmds.find? fun c => c.mid == mid with
  | none => .next s
  | some c => match g.channel? c.chan with
    | none => .next s
    | some k =>
      if c.op != 5 || !s.canRow tile c then .next s
      else
        let r := c.record
        let acc64 := recAcc64 r
        let row := recAccRow r + c.row
        match rowStop g.statusView acc64 row with
        | some (cause, v) => .next (s.stopCommand tile c cause v)
        | none =>
          let (_, dd) := k.slot (rfield r 28 9 8)
          let dt := rfield r 28 4 0
          let rm := recRm r
          let view := g.accView
          let vs := (List.range (rfield r 24 15 8 + 1)).map fun n =>
            let v := accValue view acc64 row n
            (((fmtOf dt dd).round rm ((accFmt acc64).read rm.flush v.v.toNat)).1, v.p)
          let addr := sliceAddr tile (k.base + rfield r 16 19 0 + c.row * rfield r 20 15 0)
          .next (s.formRow tile c [] [] [⟨0, addr, packElements (elemBits dt dd) vs⟩] [])

/-- MDRAIN_READ (R269): the rows are checked, and every lane's values read. -/
def execMdrainRead (tile mid : Nat) (s : State) : Host.Outcome State Fault Refusal :=
  let g := s.engine tile
  match g.cmds.find? fun c => c.mid == mid with
  | none => .next s
  | some c =>
    if c.op != 6 || !s.canRow tile c then .next s
    else
      let r := c.record
      let acc64 := recAcc64 r
      let per := drainPer r
      let lanes := s.drainLanes c
      let rows := (List.range (drainRows r lanes)).map (recAccRow r + ·)
      match firstSome (rowStop g.statusView acc64) rows with
      | some (cause, v) => .next (s.stopCommand tile c cause v)
      | none =>
        let view := g.accView
        let words (l : Nat) : List PWord := (List.range per).flatMap fun j =>
          let q := rfield r 24 7 0 + l * per + j
          (accWords acc64 0 0 (accValue view acc64 (recAccRow r + q / 256) (q % 256)).v.toNat
            (accValue view acc64 (recAccRow r + q / 256) (q % 256)).p).map (·.2)
        .next (s.formRow tile c [] [] [] (lanes.map fun l => (l, 0, words l)))

/-! ### Commits (R271) -/

/-- One part of a macro set takes what was loaded. -/
def Engine.load (g : Engine) (x : Nat × Nat × PVal) : Engine :=
  let (kind, key, v) := x
  g.modSet (kind / 4) fun m => match kind % 4 with
    | 0 => { m with cells := fput PVal.z m.cells key v }
    | 1 => { m with scales := fput ⟨127, false⟩ m.scales key v }
    | 2 => { m with metas := fput ⟨4, false⟩ m.metas key v }
    | _ => { m with
        cells := m.cells.filter fun (k, _) => k / 256 != key
        scales := m.scales.filter fun (k, _) => k / 8 != key
        metas := m.metas.filter fun (k, _) => k / 128 != key }

/-- A held update takes effect. -/
def State.commitHold (s : State) (tile : Nat) (h : RowHold) : State :=
  let s := h.bytes.foldl (fun s p => s.memStore p.ea p.data) s
  s.modEngine tile fun g =>
    let g := { g with
      acc := h.acc.foldl (fun m (k, w) => fput PWord.zero m k w) g.acc
      status := h.status.foldl (fun m (k, v) => fput 0 m k v) g.status
      holds := g.holds.filter fun x => x.hid != h.hid }
    (h.cells.foldl Engine.load g).modCmd h.mid fun c => { c with done := max c.done (h.row + 1) }

/-- Is a hold one of an MDRAIN's values? -/
def Engine.drains (g : Engine) (h : RowHold) : Bool := (g.cmds.find? fun c => c.mid == h.mid).any fun c => c.op == 6

/-- ROW_COMMIT (R271): Q cycles after its row ended. -/
def execRowCommit (tile hid : Nat) (s : State) : Host.Outcome State Fault Refusal :=
  match (s.engine tile).holds.find? fun h => h.hid == hid with
  | none => .next s
  | some h => .next (if s.now < h.formed + Config.Q || (s.engine tile).drains h then s else s.commitHold tile h)

/-- MDRAIN_LANDING (R269): the values land together. -/
def execMdrainLanding (tile hid : Nat) (s : State) : Host.Outcome State Fault Refusal :=
  let g := s.engine tile
  match g.holds.find? fun h => h.hid == hid with
  | none => .next s
  | some h => match g.cmds.find? fun c => c.mid == h.mid with
    | none => .next s
    | some c =>
      if s.now < h.formed + Config.Q || c.op != 6 then .next s
      else
        let land (p : Nat) (s : State) (v : Nat × Nat × List PWord) : State := s.modPend c.uid p fun q => q.arrive v.1 v.2.2 0
        let s := match c.pid with
          | some p => h.vals.foldl (land p) s
          | none => s
        .next (s.commitHold tile h)

/-! ### Retirement (R262) -/

/-- Bytes that a command credits to a barrier (Table 12-6). -/
def Command.credit (c : Command) (k : Channel) : Nat :=
  let r := c.record
  match c.op with
  | 1 => (rfield r 28 7 0 + 1) * (columnBytes c.btyp c.bdesc + (if rfield r 28 10 10 = 1 then 8 else 0) + if rfield r 28 11 11 = 1 then 64 else 0)
  | 2 | 3 => let (t, d) := k.slot (rfield r 28 1 0); recRows r * aRowBytes r t d
  | 5 => recRows r * dRowBytes r (k.slot (rfield r 28 9 8)).2
  | _ => 32

/-- The barrier or counter that a command credits, and its credit (R262). -/
def Command.sinkEa (c : Command) (tile : Nat) (k : Channel) : Nat :=
  if recSink c.record = 1 then sliceAddr tile (k.base + 16 * recSinkAddr c.record) else recSinkAddr c.record
def Command.sinkAct (c : Command) (tile : Nat) (k : Channel) (mask : LaneMask) : Act :=
  if recSink c.record = 1 then .credit (c.sinkEa tile k) (c.credit k) mask else .count (c.sinkEa tile k) ⟨1, false⟩

/-- Has a command made all its effects? -/
def Engine.complete (g : Engine) (c : Command) : Bool :=
  c.finished && !c.void && !c.stopped && (!g.holds.any fun h => h.mid == c.mid) &&
  (if c.op = 7 then !g.cmds.any fun x => x.parent == some c.mid else decide (c.total ≤ c.done))

/-- May a command's sink be credited, as earlier commands of its channel go? -/
def Engine.mayCredit (g : Engine) (c : Command) : Bool :=
  (g.before c).all fun b => b.void || (!(c.compute && b.compute) && !((c.op == 2 || c.op == 3) && b.loads (recSet c.record)))

/-- Can COMMAND_RETIRE act: pass over a void slot, credit the sink, or retire? -/
def State.canRetire (s : State) (tile : Nat) (c : Command) : Bool :=
  let g := s.engine tile
  if c.void then (g.before c).all Command.passed
  else g.complete c && match recSink c.record, c.credited with
    | 0, _ => true
    | _, none => g.mayCredit c
    | _, some id => !s.waitsFor [id]

/-- COMMAND_RETIRE (R254, R257, R262, R273): the sink is credited, then the slot frees; a channel whose group has ended goes with its last
command. -/
def execCommandRetire (tile mid : Nat) (s : State) : Host.Outcome State Fault Refusal :=
  let g := s.engine tile
  match g.cmds.find? fun c => c.mid == mid with
  | none => .next s
  | some c => match g.channel? c.chan with
    | none => .next (s.modEngine tile fun g => { g with cmds := g.cmds.filter fun x => x.mid != mid })
    | some k =>
      if !s.canRetire tile c then .next s
      else if !c.void && recSink c.record != 0 && c.credited.isNone then
        let ea := c.sinkEa tile k
        if recSink c.record != 1 && s.sinkBad tile c.ctx ea then .next (s.stopCommand tile c 49 ea)
        else
        let (id, s) := s.sendAfter tile 0 c.uid c.ctx c.issue c.pc c.word ea [] (c.sinkAct tile k (s.collectiveMask c.uid))
        .next (s.modEngine tile fun g => g.modCmd mid fun c => { c with credited := some id })
      else
        let s := s.modEngine tile fun g =>
          let g := { g with cmds := g.cmds.filter fun x => x.mid != mid }
          g.free fun x => x.chan == c.chan && (g.unretired c.chan).isEmpty && (s.group? k.gid).isNone
        .next (if c.void then s else s.progress c.ctx)

end Sys2Proof.Machine
end

