-- ==== Sys2Proof/Machine/EquivalenceEngine.lean ====
section
/-! DEFINITION. The equivalence engine: walks and their steps, RELABEL, mark operations, holding and commits, releasing a
forest (R338-R364). -/

namespace Sys2Proof.Machine

/-! ### Accesses (R361, R363, R364) -/

/-- Why an access of the engine is not made: a replayable fault, a cause with its value, or a line asked for over a link. -/
inductive EqTrouble where
  | park (level va : Nat)
  | stop (cause value : Nat)
  | away (va key : Nat)
deriving DecidableEq, Repr

/-- An engine translates and reads for itself, with no L1: tiles from 600 up name the engines. -/
def Forest.unit (f : Forest) : Nat := 600 + f.engine

/-- A value of `n` bytes as the engine sees it: its own latest held write, else what the ordering point has. A
forest's pages must keep both rights, so an access of its arrays and log meets the lack of either (R337); records and values are only
read. -/
def State.eqRead (s : State) (f : Forest) (owner va n : Nat) (need : Need := Need.rw) : Except EqTrouble (Nat × Bool) :=
  match (s.eq.holds.filter fun h => h.before.fid == f.fid && !h.result && h.va == va && h.n == n).getLast? with
  | some h => .ok (h.v, h.p)
  | none =>
    let got := (List.range n).map fun i => s.engineByte owner f.unit f.ctx (va + i) need fun c => c
    match firstSome (fun g : Got => match g with | .byte _ => none | g => some g) got with
    | some (.fault l a) => .error (.park l a)
    | some (.bad c a) => .error (.stop c a)
    | some (.away a k) => .error (.away a k)
    | _ =>
      let bs := got.map fun g => match g with
        | .byte b => b
        | _ => (0, false)
      .ok (ofBytes (bs.map (·.1)), bs.any (·.2))

/-- Forming a write of `n` bytes; a result is only written. -/
def State.eqPut (s : State) (f : Forest) (rid wid va n v : Nat) (p : Bool) (need : Need := Need.rw) : Except EqTrouble State :=
  if isScratch va then .ok (s.eqHold f rid wid va va n v p false)
  else match s.translate f.unit f.ctx va { need with noEf := true } with
    | .fault l => .error (.park l va)
    | .bad c => .error (.stop c va)
    | .ok pa _ _ => .ok (s.eqHold f rid wid va pa n v p false)

/-- Log entries free beyond the reserved room (R340). -/
def Forest.free (f : Forest) : Nat := f.logCap - f.logFill - f.reserved

/-- Appending a log entry for an entry's old value (R354). -/
def State.eqLog (s : State) (f : Forest) (rid wid : Nat) (size : Bool) (x old : Nat) (p : Bool) : Except EqTrouble State :=
  match s.eqPut f rid wid (f.log + 16 * f.logFill) 16 (x + b2n size * 2 ^ 31 + old * 2 ^ 32) p with
  | .ok s => .ok (s.modForest f.fid fun g => { g with logFill := g.logFill + 1 })
  | .error e => .error e

/-! ### Steps (R339, R340) -/

/-- A parent entry, checked (R339); the value of a failure is the element. -/
def State.eqParent (s : State) (f : Forest) (owner x : Nat) : Except EqTrouble (Nat × Bool) :=
  match s.eqRead f owner (f.parent + 4 * x) 4 with
  | .ok (p, q) => if x < p || f.count ≤ p then .error (.stop 67 x) else .ok (p, q)
  | .error (.stop c _) => .error (.stop c x)
  | .error e => .error e

/-- What a step gives: the state after it and what it found. -/
abbrev EqStep (α : Type) := Except EqTrouble (α × State)

/-- Writing an entry, logged while a mark is live. -/
def State.eqWrite (s : State) (f : Forest) (rid wid : Nat) (size : Bool) (x old : Nat) (q : Bool) (v : Nat) (p : Bool) : Except EqTrouble State :=
  let at_ := (if size then f.size else f.parent) + 4 * x
  let name (e : EqTrouble) : EqTrouble := match e with
    | .stop c _ => .stop c x
    | e => e
  let logged := if f.marks.isEmpty then .ok s else s.eqLog f rid wid size x old q
  match logged with
  | .error e => .error (name e)
  | .ok s => match s.eqPut f rid wid at_ 4 v p with
    | .error e => .error (name e)
    | .ok s => .ok s

/-- lower(z, y): gives whether what it read carried poison. -/
def State.lower (s : State) (f : Forest) (owner rid wid z y : Nat) (poison : Bool) : EqStep Bool :=
  match s.eqRead f owner (f.parent + 4 * z) 4 with
  | .error (.stop c _) => .error (.stop c z)
  | .error e => .error e
  | .ok (p, q) =>
    if p ≤ y || (!f.marks.isEmpty && f.free = 0) then .ok (q, s)
    else match s.eqWrite f rid wid false z p q y poison with
      | .ok s => .ok (q, s)
      | .error e => .error e

/-- link(h, g): nothing when it fails, else size[h] and its poison. -/
def State.linkRoots (s : State) (f : Forest) (owner rid wid h g : Nat) (poison : Bool) : EqStep (Option (Nat × Bool)) :=
  match s.eqParent f owner h with
  | .error e => .error e
  | .ok (p, q) =>
    if p != h then .ok (none, s)
    else if !f.marks.isEmpty && f.free < 2 then .error (.stop 62 h)
    else match s.eqRead f owner (f.size + 4 * h) 4 with
    | .error (.stop c _) => .error (.stop c h)
    | .error e => .error e
    | .ok (n, r) => match s.eqWrite f rid wid false h p q g poison with
      | .error e => .error e
      | .ok s => .ok (some (n, r),
          s.modForest f.fid fun x => { x with classes := (x.classes + 2 ^ 32 - 1) % 2 ^ 32, reserved := x.reserved + if x.marks.isEmpty then 0 else 1 })

/-- add(r, n): the parent to go on with, or nothing when the size has been added (R351). -/
def State.addSize (s : State) (f : Forest) (owner rid wid r n : Nat) (poison : Bool) : EqStep (Option Nat) :=
  match s.eqParent f owner r with
  | .error e => .error e
  | .ok (p, _) =>
    if p != r then .ok (some p, s)
    else match s.eqRead f owner (f.size + 4 * r) 4 with
    | .error (.stop c _) => .error (.stop c r)
    | .error e => .error e
    | .ok (old, q) =>
      let v := (old + n) % 2 ^ 32
      match s.eqWrite f rid wid true r old q v (q || poison) with
      | .error e => .error e
      | .ok s => .ok (none, s.modForest f.fid fun x =>
          let x := { x with reserved := x.reserved - if x.marks.isEmpty then 0 else 1 }
          if x.maxSize < v || (v = x.maxSize && r < x.maxRoot) then { x with maxSize := v, maxRoot := r } else x)

/-! ### Walks (R342, R348, R350) -/

def State.walk? (s : State) (wid : Nat) : Option Walk := s.eq.walks.find? fun w => w.wid == wid
def State.modWalk (s : State) (wid : Nat) (f : Walk → Walk) : State :=
  { s with eq := { s.eq with walks := modifyWhere (fun w => w.wid == wid) f s.eq.walks } }
def State.req? (s : State) (rid : Nat) : Option EqReq := s.eq.reqs.find? fun r => r.rid == rid
def State.modReq (s : State) (rid : Nat) (f : EqReq → EqReq) : State :=
  { s with eq := { s.eq with reqs := modifyWhere (fun r => r.rid == rid) f s.eq.reqs } }

/-- Did a request of a forest reach the owner before another? -/
def EqReq.sooner (x r : EqReq) : Bool :=
  match x.arrived, r.arrived with
  | some a, some b => x.forest == r.forest && (decide (a < b) || (a == b && decide (x.rid < r.rid)))
  | _, _ => false

/-- Does a request quiesce its forest (R355, R359)? -/
def EqReq.quiesces (r : EqReq) : Bool := decide (3 ≤ r.kind) && r.kind != 7

/-- Is a request held back: a walk by an earlier RELABEL or mark operation, those by anything earlier (R355, R359)? An EQSIZE is not, and
holds nothing back (R352). -/
def State.quiesced (s : State) (r : EqReq) : Bool := r.kind != 7 && s.eq.reqs.any fun x => x.kind != 7 && x.sooner r && (r.quiesces || x.quiesces)

/-- The request and forest of a walk that can take a step. -/
def State.stepping (s : State) (w : Walk) : Option (EqReq × Forest) :=
  match s.req? w.rid with
  | none => none
  | some r => match s.forest? r.forest with
    | none => none
    | some f => if w.parked || s.quiesced r || s.fetching w.wid then none else some (r, f)

/-- A request has nothing more to do: it goes, and waiting walks start. -/
def State.reqOver (s : State) (rid engine : Nat) : State :=
  ({ s with eq := { s.eq with reqs := s.eq.reqs.filter fun r => r.rid != rid } } : State).startWalks engine

/-- A walk's lane is over. -/
def State.walkOver (s : State) (w : Walk) (f : Forest) : State :=
  let s := { s with eq := { s.eq with walks := s.eq.walks.filter fun x => x.wid != w.wid } }
  let s := s.modReq w.rid fun r => { r with results := r.results ++ [w.lane] }
  match s.req? w.rid with
  | some r => if r.lanes.length ≤ r.results.length then s.reqOver r.rid f.engine else s.startWalks f.engine
  | none => s

/-- The element at which a walk stands (R350). -/
def Walk.element (w : Walk) : Nat := match w.stage with
  | .find _ y _ => y
  | .lower _ path root => path.headD root
  | .link => max w.rx w.ry
  | .add r _ => r
  | .check => w.rx
  | .done res _ => res

/-- A walk's access is not made: the walk parks, stops, or waits for a line. -/
def State.walkTrouble (s : State) (w : Walk) (r : EqReq) (f : Forest) (e : EqTrouble) : State :=
  match e with
  | .park l va =>
    (s.parkFault (s.ownerTeam r.uid r.tile r.side r.ctx) 4 w.wid r.pc r.word r.issue (maskOf [w.lane]) va Need.rw l).modWalk w.wid fun w =>
      { w with parked := true }
  | .stop c v =>
    let s := match w.stage with
      | .add .. => s.modForest f.fid fun x => { x with reserved := x.reserved - if x.marks.isEmpty then 0 else 1 }
      | _ => s
    let s := match r.pid with
      | some pid => s.modPend r.uid pid fun p => p.fail w.lane c v
      | none => s
    s.walkOver w f
  | .away va key => s.fetchLine w.wid Config.tiles r.side r.uid r.ctx r.issue r.pc r.word va key

/-- Lines read over a link serve one step. -/
def State.unfetch (s : State) (owner : Nat) : State := { s with fetched := s.fetched.filter fun x => x.1 != owner }

/-- The walk goes to a stage; a result is held for Q cycles (R363). -/
def State.walkTo (s : State) (w : Walk) (f : Forest) (g : WalkStage) : State :=
  let s := (s.unfetch w.wid).modWalk w.wid fun _ => { w with stage := g }
  match g with
  | .done res z => s.eqHold f w.rid w.wid 0 0 (b2n z) res w.poison true
  | _ => s

/-- A find of the walk has reached a root (Table 16-4). -/
def State.found (s : State) (w : Walk) (f : Forest) (second : Bool) (root : Nat) : State :=
  if !second then
    let w := { w with rx := root }
    if w.kind = 1 then s.walkTo w f (.done root false) else s.walkTo w f (.find true w.y [])
  else
    let w := { w with ry := root }
    if w.rx = root then s.walkTo w f (.done (if w.kind = 0 then root else 1) true)
    else s.walkTo w f (if w.kind = 0 then .link else .check)

/-- PARENT_READ (R342). -/
def execParentRead (wid : Nat) (s : State) : Host.Outcome State Fault Refusal :=
  match s.walk? wid with
  | none => .next s
  | some w => match w.stage, s.stepping w with
    | .find second y path, some (r, f) => match s.eqParent f wid y with
      | .error e => .next (s.walkTrouble w r f e)
      | .ok (p, q) =>
        let w := { w with poison := w.poison || q }
        if p = y then .next (if path.isEmpty then s.found w f second y else s.walkTo w f (.lower second path y))
        else .next (s.walkTo w f (.find second p (path ++ [y])))
    | _, _ => .next s

/-- LOWER_STEP (R340). -/
def execLowerStep (wid : Nat) (s : State) : Host.Outcome State Fault Refusal :=
  match s.walk? wid with
  | none => .next s
  | some w => match w.stage, s.stepping w with
    | .lower second path root, some (r, f) => match path with
      | [] => .next (s.found w f second root)
      | z :: rest => match s.lower f wid w.rid wid z root w.poison with
        | .error e => .next (s.walkTrouble w r f e)
        | .ok (_, s) => .next (if rest.isEmpty then s.found w f second root else s.walkTo w f (.lower second rest root))
    | _, _ => .next s

/-- LINK_STEP (R340). -/
def execLinkStep (wid : Nat) (s : State) : Host.Outcome State Fault Refusal :=
  match s.walk? wid with
  | none => .next s
  | some w => match w.stage, s.stepping w with
    | .link, some (r, f) => match s.linkRoots f wid w.rid wid (max w.rx w.ry) (min w.rx w.ry) w.poison with
      | .error e => .next (s.walkTrouble w r f e)
      | .ok (none, s) => .next (s.walkTo w f (.find false w.x []))
      | .ok (some (n, q), s) => .next (s.walkTo { w with poison := w.poison || q } f (.add (min w.rx w.ry) n))
    | _, _ => .next s

/-- ADD_STEP (R340, R351). -/
def execAddStep (wid : Nat) (s : State) : Host.Outcome State Fault Refusal :=
  match s.walk? wid with
  | none => .next s
  | some w => match w.stage, s.stepping w with
    | .add x n, some (r, f) => match s.addSize f wid w.rid wid x n w.poison with
      | .error e => .next (s.walkTrouble w r f e)
      | .ok (some p, s) => .next (s.walkTo w f (.add p n))
      | .ok (none, s) => .next (s.walkTo w f (.done (min w.rx w.ry) false))
    | _, _ => .next s

/-- SAME_STEP (R348): both entries read in one step. -/
def execSameStep (wid : Nat) (s : State) : Host.Outcome State Fault Refusal :=
  match s.walk? wid with
  | none => .next s
  | some w => match w.stage, s.stepping w with
    | .check, some (r, f) => match s.eqParent f wid w.rx, s.eqParent f wid w.ry with
      | .error e, _ => .next (s.walkTrouble w r f e)
      | _, .error e => .next (s.walkTrouble w r f e)
      | .ok (p, _), .ok (q, _) => .next (s.walkTo w f (if p = w.rx && q = w.ry then .done 0 false else .find false w.x []))
    | _, _ => .next s

/-! ### Mark operations (R355, R356) -/

/-- A request but a walk that can act: its forest. -/
def State.acting (s : State) (r : EqReq) : Option Forest :=
  if r.parked || !(r.arrived.any fun a => decide (a ≤ s.now)) || s.quiesced r || s.fetching r.rid then none else s.forest? r.forest

/-- The lanes that a request but a walk stands for: those that were active at a mark operation's issue, a RELABEL's leader (R178, R246). -/
def State.reqMask (s : State) (r : EqReq) : LaneMask := match r.pid.bind (s.pend? r.uid) with
  | some p => p.mask
  | none => maskOf (r.lanes.map (·.1))

/-- A request's access is not made. -/
def State.reqTrouble (s : State) (r : EqReq) (e : EqTrouble) (fail : Nat → Nat → State) : State :=
  match e with
  | .park l va =>
    (s.parkFault (s.ownerTeam r.uid r.tile r.side r.ctx) 4 r.rid r.pc r.word r.issue (s.reqMask r) va Need.rw l).modReq r.rid fun r =>
      { r with parked := true }
  | .stop c v => fail c v
  | .away va key => s.fetchLine r.rid Config.tiles r.side r.uid r.ctx r.issue r.pc r.word va key

/-- A mark operation that stops changes nothing and traps its team. -/
def State.markStops (s : State) (r : EqReq) (c v : Nat) : State :=
  let s : State := match r.pid with
    | some pid => s.modPend r.uid pid fun p => p.fail ((lanesOf 1024 p.mask).headD 0) c v
    | none => s
  s.reqOver r.rid (((s.forest? r.forest).map Forest.engine).getD 0)

/-- EQUNDO's writes: the old values of entries `j` − 1 down to the mark's. -/
def State.undoFrom (s : State) (f : Forest) (r : EqReq) (stop : Nat) : Nat → Except EqTrouble State
  | 0 => .ok s
  | j + 1 =>
    if j < stop then .ok s
    else match s.eqRead f r.rid (f.log + 16 * j) 16 with
    | .error e => .error e
    | .ok (v, p) =>
      let x := v % 2 ^ 31
      match s.eqPut f r.rid 0 ((if bit v 31 then f.size else f.parent) + 4 * x) 4 (bits v 63 32) p with
      | .error e => .error e
      | .ok s => s.undoFrom f r stop j

/-- A mark operation's result is formed: the live marks left. -/
def State.markDone (s : State) (f : Forest) (r : EqReq) (g : Forest → Forest) : State :=
  let s := (s.unfetch r.rid).eqHold f r.rid 0 0 0 0 (g f).marks.length false true
  (s.modForest f.fid g).modReq r.rid fun r => { r with progress := 1 }

/-- MARK_OPERATION (R356, Table 16-7), and the owner's part of an EQSIZE: its value is the register as the read finds it (R352). -/
def execMarkOperation (rid : Nat) (s : State) : Host.Outcome State Fault Refusal :=
  match s.req? rid with
  | none => .next s
  | some r => match s.acting r with
    | none => .next s
    | some f =>
      if r.kind < 4 || r.progress != 0 then .next s
      else if r.kind = 7 then
        .next ((s.eqHold f rid 0 0 0 0 (f.register ((r.block.headD PWord.zero).w.toNat)) false true).modReq rid fun r => { r with progress := 1 })
      else if r.kind = 4 then
        if 8 ≤ f.marks.length then .next (s.markStops r 66 0)
        else if f.logCap = 0 then .next (s.markStops r 62 0)
        else .next (s.markDone f r fun g => { g with marks := (f.logFill, f.classes, f.maxSize, f.maxRoot) :: f.marks })
      else match f.marks with
      | [] => .next (s.markStops r 66 0)
      | (fill, c, m, q) :: ms =>
        if r.kind = 5 then match s.undoFrom f r fill f.logFill with
          | .error e => .next (s.reqTrouble r e (s.markStops r))
          | .ok s => .next (s.markDone f r fun g => { g with logFill := fill, classes := c, maxSize := m, maxRoot := q, marks := ms })
        else .next (s.markDone f r fun g => { g with marks := ms, logFill := if ms.isEmpty then 0 else g.logFill })

/-! ### RELABEL (R357-R360) -/

/-- Fields of a relabel record. -/
def EqReq.field (r : EqReq) (off hi lo : Nat) : Nat := rfield (r.block.map (·.w)) off hi lo

/-- Bytes of a value of a vtype. -/
def relabelBytes (r : EqReq) : Nat := if 3 ≤ r.field 0 2 0 && r.field 0 9 8 = 2 then 8 else 4

/-- The coordinates of element `i` (R358). -/
def Layout.coords (y : Layout) (i : Nat) : List Nat :=
  let e (k : Nat) : Nat := y.ext.getD k 1
  [i % e 0, i / e 0 % e 1, i / (e 0 * e 1) % e 2, i / (e 0 * e 1 * e 2)]

/-- The unit of element `i`. -/
def Layout.unitOf (y : Layout) (i : Nat) : Nat := y.srcUnit (y.coords i)

/-- A layout record as the engine reads it. -/
def State.eqLayout (s : State) (f : Forest) (r : EqReq) (va : Nat) : Except EqTrouble Layout :=
  match s.eqRead f r.rid va 64 Need.r with
  | .error e => .error e
  | .ok (v, _) => match parseLayout (toBytes 64 v) true with
    | some y => .ok y
    | none => .error (.stop 40 va)

/-- Both records, the values' only where it is used, with R358's checks. -/
def State.relabelLayouts (s : State) (f : Forest) (r : EqReq) : Except EqTrouble (Layout × Option Layout) :=
  let dstrec := r.field 8 47 0
  let valrec := r.field 16 47 0
  let n := relabelBytes r
  let units (y : Layout) : List (Nat × Nat) := (List.range f.count).map fun i => (y.unitOf i, y.bytes)
  let meets (xs ys : List (Nat × Nat)) : Bool := xs.any fun (a, m) => ys.any fun (b, k) => m != 0 && k != 0 && rangesMeet a m b k
  let bad (y : Layout) : Bool := y.ext.foldl (· * ·) 1 != f.count || y.mx || y.bytes != n || meets (units y) f.ranges
  match s.eqLayout f r dstrec with
  | .error e => .error e
  | .ok d =>
    if bad d then .error (.stop 40 dstrec)
    else if r.field 0 2 0 < 3 then .ok (d, none)
    else match s.eqLayout f r valrec with
    | .error e => .error e
    | .ok v => if bad v || meets (units d) (units v) then .error (.stop 40 valrec) else .ok (d, some v)

/-- The root of an element, the entries passed on the way, and whether any carried poison; `fuel` covers every path. -/
def State.rootOf (s : State) (f : Forest) (owner : Nat) : Nat → Nat → List Nat → Bool → Except EqTrouble (Nat × List Nat × Bool)
  | 0, x, path, q => .ok (x, path, q)
  | fuel + 1, x, path, q => match s.eqParent f owner x with
    | .error e => .error e
    | .ok (p, b) => if p = x then .ok (x, path, q || b) else s.rootOf f owner fuel p (path ++ [x]) (q || b)

/-- Compressing a path to its root. -/
def State.compress (s : State) (f : Forest) (r : EqReq) (root : Nat) (q : Bool) : List Nat → Except EqTrouble State
  | [] => .ok s
  | z :: zs => match s.lower ((s.forest? f.fid).getD f) r.rid r.rid r.progress z root q with
    | .error e => .error e
    | .ok (_, s) => s.compress f r root q zs

/-- All elements with their roots. -/
def State.allRoots (s : State) (f : Forest) (owner : Nat) : List Nat → Except EqTrouble (List (Nat × Nat × Bool))
  | [] => .ok []
  | i :: is => match s.rootOf f owner (i + 1) i [] false, s.allRoots f owner is with
    | .ok (root, _, q), .ok rest => .ok ((i, root, q) :: rest)
    | .error e, _ => .error e
    | _, .error e => .error e

/-- The values of elements. -/
def State.relabelValues (s : State) (f : Forest) (r : EqReq) (y : Layout) : List Nat → Except EqTrouble (List (Nat × Bool))
  | [] => .ok []
  | i :: is => match s.eqRead f r.rid (y.unitOf i) y.bytes Need.r, s.relabelValues f r y is with
    | .ok v, .ok rest => .ok (v :: rest)
    | .error e, _ => .error e
    | _, .error e => .error e

/-- A list in the order that a number names (the order of a sum is not fixed, R359). -/
def pickOrder (n : Nat) : Nat → List α → List α
  | 0, l => l
  | k + 1, l => match l with
    | [] => []
    | x :: xs =>
      let i := n % l.length
      (l.getD i x) :: pickOrder (n / l.length) k (if i = 0 then xs else l.eraseIdx i)

/-- The sum, least or greatest of values under a record. -/
def relabelFold (r : EqReq) (vs : List Nat) : Nat :=
  let func := r.field 0 2 0
  let flt := r.field 0 9 8
  let rm : Rm := ⟨r.field 0 14 12, r.field 0 16 16 == 1, false, 0⟩
  let f := if flt = 2 then Fmt.f64 else Fmt.f32
  let signed (v : Nat) : Int := (BitVec.ofNat 32 v).toInt
  match vs with
  | [] => 0
  | v :: rest =>
    if flt = 0 then match func with
      | 3 => (rest.foldl (· + ·) v) % 2 ^ 32
      | 4 => rest.foldl (fun a b => if signed b < signed a then b else a) v
      | _ => rest.foldl (fun a b => if signed a < signed b then b else a) v
    else if func = 3 then rest.foldl (fun a b => (f.fadd rm a b).1) (f.round rm (f.read rm.flush v)).1
    else rest.foldl (fun a b => (f.minMax rm (func == 5) true a b).1) (f.minMax rm (func == 5) true v v).1

/-- The result for the class of element `i` and its poison (R359). -/
def State.relabelResult (s : State) (f : Forest) (r : EqReq) (y : Option Layout) (roots : List (Nat × Nat × Bool)) (root : Nat) :
    Except EqTrouble (Nat × Bool) :=
  let members := roots.filter fun (_, q, _) => q == root
  let poison := members.any fun (_, _, p) => p
  match r.field 0 2 0, y with
  | 0, _ => .ok (root, poison)
  | 1, _ => .ok (members.length, poison)
  | 2, _ => .ok ((roots.filter fun (i, q, _) => i == q && decide (i < root)).length, poison || roots.any fun (i, _, p) => decide (i < root) && p)
  | _, some y => match s.relabelValues f r y (members.map (·.1)) with
    | .error e => .error e
    | .ok vs => .ok (relabelFold r (pickOrder r.order vs.length (vs.map (·.1))), poison || vs.any (·.2))
  | _, none => .ok (0, poison)

/-- A RELABEL stops (R360): its leader traps (R246). -/
def State.relabelStops (s : State) (r : EqReq) (c v : Nat) : State :=
  (s.deferFor r.uid r.tile r.ctx ⟨c, r.pc, r.issue, r.word, s.reqMask r, r.lanes.map fun x => (x.1, BitVec.ofNat 64 v), false⟩).reqOver r.rid (((s.forest? r.forest).map Forest.engine).getD 0)

/-- Can RELABEL_RUN act? At its end it waits for its held writes, and for those that are under way over a link (R309, R359). -/
def State.canRelabel (s : State) (r : EqReq) : Bool :=
  r.kind == 3 && match s.acting r with
    | none => false
    | some f => decide (r.progress ≤ 2 * f.count) || (!(s.eq.holds.any fun h => h.rid == r.rid) && !s.waitsFor r.results)

/-- RELABEL_RUN (R359): 0 reads the records, 1 to n compress the elements, n + 1 to 2n write their results, then the counter. -/
def execRelabelRun (rid : Nat) (s : State) : Host.Outcome State Fault Refusal :=
  match s.req? rid with
  | none => .next s
  | some r => match s.acting r with
    | none => .next s
    | some f =>
      let k := r.progress
      let go (s : State) : State := (s.unfetch rid).modReq rid fun r => { r with progress := k + 1 }
      let trouble (e : EqTrouble) : State := s.reqTrouble r e (s.relabelStops r)
      if !s.canRelabel r then .next s
      else if k = 0 then match s.relabelLayouts f r with
        | .error e => .next (trouble e)
        | .ok (dst, vals) =>
          let (d, s) := draw s
          .next ((go s).modReq rid fun r => { r with layouts := dst :: vals.toList, order := d })
      else match r.layouts with
      | [] => .next s
      | dst :: vals =>
        if k ≤ f.count then match s.rootOf f rid k (k - 1) [] false with
          | .error e => .next (trouble e)
          | .ok (root, path, q) => match s.compress f r root q path with
            | .error e => .next (trouble e)
            | .ok s => .next (go s)
        else if k ≤ 2 * f.count then match s.allRoots f rid (List.range f.count) with
          | .error e => .next (trouble e)
          | .ok roots =>
            let i := k - 1 - f.count
            let root := ((roots.getD i (i, i, false)).2).1
            if r.field 0 4 4 = 1 && root != i then .next (go s)
            else match s.relabelResult f r vals.head? roots root with
            | .error e => .next (trouble e)
            | .ok (v, p) => match s.eqPut f rid k (dst.unitOf i) dst.bytes v p Need.w with
              | .error e => .next (trouble e)
              | .ok s => .next (go s)
        else
          let ea := r.field 24 47 0
          .next (((s.sendAfter Config.tiles 0 r.uid r.ctx r.issue r.pc r.word ea [] (.count ea ⟨1, false⟩)).2.reqOver rid f.engine).progress r.ctx)

/-! ### Commits (R363) and releasing a forest (R338) -/

/-- The codes that a UNITE lands (R348). -/
def Pend.unite (p : Pend) (lane : Nat) (z poison : Bool) : Pend :=
  { p with results := p.results.map fun r => if p.bcast || r.lane == lane then { r with cc := some ⟨false, z, false, false, poison⟩ } else r }

/-- A pending result with a held result in it: a UNITE's with its codes (R348). -/
def EqHold.arrives (h : EqHold) (kind lane : Nat) (p : Pend) : Pend :=
  if kind = 0 then (p.arrive lane [⟨BitVec.ofNat 32 h.v, h.p⟩] 0).unite lane (h.n == 1) h.p else p.arrive lane [⟨BitVec.ofNat 32 h.v, h.p⟩] 0

/-- Can a hold of an engine commit: Q cycles old, and the first of its engine? -/
def State.canCommit (s : State) (h : EqHold) : Bool :=
  decide (h.formed + Config.Q ≤ s.now) && ((s.eq.holds.find? fun x => x.engine == h.engine).map (·.hid)) == some h.hid

/-- EQ_COMMIT (R338, R363): a held write is performed at its ordering point, a held result goes to its team; with the write of its
descriptor a forest's release is done. -/
def execEqCommit (hid : Nat) (s : State) : Host.Outcome State Fault Refusal :=
  match s.eq.holds.find? fun h => h.hid == hid with
  | none => .next s
  | some h =>
    if !s.canCommit h then .next s
    else
      let s := { s with eq := { s.eq with
        holds := s.eq.holds.filter fun x => x.hid != hid
        forests := if h.rid = 0 && h.n = releaseBytes then s.eq.forests.filter fun x => x.fid != h.before.fid else s.eq.forests } }
      if h.result then match s.req? h.rid with
        | none => .next s
        | some r =>
          let lane := ((s.walk? h.wid).map (·.lane)).getD 0
          let s := match r.pid with
            | some pid => s.modPend r.uid pid (h.arrives r.kind lane)
            | none => s
          match s.walk? h.wid with
          | some x => if r.kind ≤ 2 then .next (s.walkOver x h.before) else .next (s.reqOver r.rid h.engine)
          | none => .next (s.reqOver r.rid h.engine)
      else
        let data := (toBytes h.n h.v).map (·, h.p)
        if isWindow h.pa && !isScratch h.va then
          let (id, s) := s.send Config.tiles 0 0 h.before.ctx s.now 0 0 h.va h.pa [] (.write [⟨0, h.va, data⟩])
          .next (s.modReq h.rid fun r => if r.kind = 3 then { r with results := r.results ++ [id] } else r)
        else .next (s.memStore h.pa data)

/-- Does a team hold a forest: as its current one, or in a checkpoint that a rollback restores (R345, R346; log entry 47)? -/
def Team.holdsForest (t : Team) (fid : Nat) : Bool := t.arch.forest == some fid || (t.status != .preempted && t.ckpts.any fun c => c.arch.forest == some fid)

/-- Is a forest without holders, marks and work? -/
def State.canDrop (s : State) (f : Forest) : Bool :=
  f.marks.isEmpty && !s.allTeams.any (fun t => t.holdsForest f.fid) && !s.disp.images.any (fun t => t.arch.forest == some f.fid) &&
  !(s.eq.reqs.any fun r => r.forest == f.fid) && !s.eq.holds.any fun h => h.before.fid == f.fid

/-- FOREST_RELEASE (R338, R363): the write of the registers and of state 0 into the descriptor is formed; it is one step at the
descriptor's home, Q cycles later. -/
def execForestRelease (fid : Nat) (s : State) : Host.Outcome State Fault Refusal :=
  match s.forest? fid with
  | none => .next s
  | some f =>
    if !s.canDrop f then .next s
    else
      let bs := toBytes 4 f.classes ++ toBytes 8 f.log ++ toBytes 4 f.logCap ++ toBytes 4 f.logFill ++ toBytes 4 f.maxSize ++ toBytes 4 f.maxRoot ++ toBytes 4 0
      .next (s.eqHold f 0 0 (f.va + 20) (f.key + 20) releaseBytes (ofBytes bs) false false)

end Sys2Proof.Machine
end

