-- ==== Sys2Proof/Machine/Preemption.lean ====
section
/-! DEFINITION. Eviction (R463), pre-emption and its drain (R96, R274, R314, R466), images and readmission (R467-R469). -/

namespace Sys2Proof.Machine

/-! ### Requests -/

/-- PREEMPT (R466): Ranger writes 1 to a slot's PREEMPT; a slot without a team and another value change nothing. -/
def execPreempt (tile slot : Nat) (v : Dword) (s : State) : Host.Outcome State Fault Refusal :=
  match s.teamAt tile slot with
  | some t => .next (if v = 1 then s.modTeam t.id.uid fun t => { t with sched := { t.sched with preempt := true } } else s)
  | none => .next s

/-- Is work that a counter of a context counts not yet complete (R463)? -/
def State.incomplete (s : State) (ctx counter : Nat) : Bool :=
  (s.disp.works.any fun w => w.ctx == ctx && (w.profile.counter == counter || w.credits.any fun c => c.1 == counter)) ||
  (s.disp.hampers.any fun h => h.tasks.any fun t => t.ctx == ctx && t.counter == counter) ||
  (s.ctx? ctx).any fun c => c.pool.any fun t => t.counter == counter

/-- Does a work of a context wait in a cluster for want of a team slot, frame slots or quota on some tile? -/
def State.crowded (s : State) (ctx cluster : Nat) : Bool :=
  let tiles := (List.range 8).map (cluster * 8 + ·)
  let full (w : Work) (tile : Nat) : Bool :=
    (s.spot tile w.profile.width w.profile.frame).isNone ||
    match s.quotaOf tile ctx (s.kernelEntry ctx w.profile.entry) with
    | some (_, q) => decide (quotaTeams q ≤ quotaUsed q)
    | none => false
  s.waiting.any fun w => w.ctx == ctx && !tiles.any (fun t => (s.admitNext w t).isSome) && tiles.any (full w)

/-- May a team be evicted (R463)? -/
def State.evictable (s : State) (t : Team) : Bool :=
  t.status == .waiting && !t.sched.preempt && t.id.yield != 15 &&
  match t.wait with
  | some w => t.children.contains w.ea && s.incomplete t.id.ctx w.ea && decide (w.since + 2 ^ (t.id.yield + 10) < s.now) && s.crowded t.id.ctx (t.id.tile / 8)
  | none => false

/-- The evictable team of a cluster that has waited longest. -/
def State.toEvict (s : State) (cluster : Nat) : Option Team :=
  (sortBy (fun t : Team => ((t.wait.map (·.since)).getD 0) * 2 ^ 20 + t.slotKey) (s.allTeams.filter fun t => t.id.tile / 8 == cluster && s.evictable t)).head?

/-- TEAM_EVICTION (R463): the team that has waited longest is pre-empted alone. -/
def execTeamEviction (uid : Nat) (s : State) : Host.Outcome State Fault Refusal :=
  match s.team? uid with
  | none => .next s
  | some t => match s.toEvict (t.id.tile / 8) with
    | some u => .next (if u.id.uid = uid then s.modTeam uid fun t => { t with sched := { t.sched with preempt := true, evict := true } } else s)
    | none => .next s

/-! ### The drain (R466) -/

/-- The lowest resident chunk of a lane, ended ones too, at or below the top of its live range (R96). -/
def Team.chunkToSpill (t : Team) : Option (Nat × Nat) :=
  firstSome (fun l =>
    let f := t.frame l
    if f.lo < min f.hi (liveRange (t.lane l).fp.toNat).2 then some (l, f.lo / 16) else none) (List.range t.width)

/-- Results that must land before the image is complete; those of a matrix drain land from their engine's image (R274), and failed lanes
wait with their parked trap (R47). -/
def Team.landing (t : Team) : Bool := t.pend.any fun p => (opcode p.word).toNat != 0x406 && !p.raised

/-- One step of a team's drain: spill, wait for held effects, write back, done; nothing when it has to wait. -/
def State.drain (s : State) (t : Team) : Option State :=
  let u := t.id.uid
  let mine (l : Line) : Bool := l.tile == t.id.tile && l.ctx == t.id.ctx
  if t.status == .preempted || t.landing || !t.deferred.isEmpty then none
  else match t.chunkToSpill with
  | some (l, c) =>
    if s.rucksackParked u l then none
    else match s.spillBlocked t l c Need.w with
    | some s => some s
    | none =>
      if Config.coolboxUnits < s.unitsUsed t.id.tile + 3 then none
      else
        let s := s.hold t (((t.current).map (·.pc)).getD 0) 0 (maskOf [l]) 3 (.spill c (t.chunkPiece l c))
        some (s.modTeam u fun t => t.setFrame l fun f => { f with lo := f.lo + 16, spilling := c :: f.spilling })
  | none =>
    if (t.frames.any fun f => !f.spilling.isEmpty) || (s.coolbox.any fun e => e.uid == u) || s.aredOut u || s.outTo u fun p => decide (p < 2048) then none
    else match t.drained with
    | none =>
      let (ids, s) := s.cleanLines (fun l => mine l && l.dirty != 0) (fun _ => false) u s.now
      some (s.modTeam u fun t => { t with drained := some ids })
    | some ids =>
      if s.waitsFor ids then none
      else
        let s := (s.cleanLines (fun l => mine l && !s.bound t.id.ctx l) (fun _ => true) u s.now).2
        some (s.modTeam u fun t => { t with fence := none, drained := none, status := .preempted })

/-! ### Images (R274, R469) -/

/-- The part of an engine that a group's channels hold: their commands go on from the row or segment they have reached, their shares of
another engine's compute unit anew (R260). -/
def Engine.part (g : Engine) (gid : Nat) : Engine :=
  let ks := g.channels.filter fun k => k.gid == gid
  let chan (c : Nat) : Bool := ks.any fun k => k.chan == c
  let row (r : Nat) : Bool := ks.any fun k => decide (k.accBase ≤ r) && decide (r < k.accBase + k.accCount)
  { Engine.none with
    sets := [0, 1].map fun x => if ks.any fun k => bit k.sets x then g.set x else MacroSet.none
    acc := g.acc.filter fun (k, _) => row (k / 256)
    status := g.status.filter fun (k, _) => row k
    channels := ks.map fun k => { k with spent := 0 }
    cmds := (g.cmds.filter fun c => chan c.chan).map fun c => if c.op != 7 && c.row < c.total then { c with started := false, arow := Option.none } else c }

/-- An engine without a group's channels. -/
def Engine.without (g : Engine) (gid : Nat) : Engine :=
  let ks := g.channels.filter fun k => k.gid == gid
  { g.free fun k => k.gid == gid with
    cmds := g.cmds.filter fun c => !ks.any fun k => k.chan == c.chan }

/-- Does an engine still hold an update of a group's channels? -/
def Engine.holding (g : Engine) (gid : Nat) : Bool :=
  g.holds.any fun h => g.cmds.any fun c => c.mid == h.mid && g.channels.any fun k => k.chan == c.chan && k.gid == gid

/-- The bytes of a window that are not 0, by offset, and the offsets of its poisoned words. -/
def Mem.windowBytes (m : Mem) (lo size : Nat) : List Host.Cell × List Nat :=
  ((m.bytes.filter fun (k, _) => decide (lo ≤ k) && decide (k < lo + size)).map fun (k, b) => (k - lo, b),
   (m.poison.filter fun (k, _) => decide (lo ≤ 4 * k) && decide (4 * k < lo + size)).map fun (k, _) => 4 * k - lo)

/-- A group whose last resident team is pre-empted gives its window and channels to the image. -/
def State.saveGroup (s : State) (g : GroupRt) : State :=
  let saved := if g.window.isSome then s.mem.windowBytes (sliceAddr g.tile g.base) g.size else ([], [])
  let part := (s.engine g.tile).part g.gid
  let s := (s.closeWindow g).modEngine g.tile fun e => e.without g.gid
  { s with disp := { s.disp with groups := modifyWhere (fun x => x.gid == g.gid) (fun x => { x with saved := some saved, part := some part, window := none }) s.disp.groups } }

/-! A copy of a pre-empted team goes on in the windows as they come back, wherever that is (R247, R467): while a group is away, an
address in its window stands as its group's number and its offset. -/

/-- The place of an offset in the window of a group that is away. -/
def awayAddr (gid off : Nat) : Nat := 2 ^ 60 + gid * 2 ^ 20 + off

/-- A copy with its addresses changed. -/
def Copy.relocate (f : Nat → Nat) (c : Copy) : Copy :=
  { c with
    src := f c.src
    dst := f c.dst
    sinkEa := f c.sinkEa
    kind := match c.kind with
      | .cpt y cs => .cpt { y with src := f y.src, dst := f y.dst } cs
      | .cpm ts => .cpm (ts.map fun (d, b) => (f d, f b))
      | k => k }

/-- A scoreboard entry with its addresses changed. -/
def Score.relocate (f : Nat → Nat) (e : Score) : Score :=
  { e with src := e.src.map fun (a, n) => (f a, n), dst := e.dst.map fun (a, n) => (f a, n) }

/-- Changing the addresses of a pre-empted team's copies. -/
def State.relocate (s : State) (uid : Nat) (f : Nat → Nat) : State :=
  { s with
    copies := modifyWhere (fun c => c.uid == uid) (Copy.relocate f) s.copies
    disp := { s.disp with images := modifyWhere (fun t => t.id.uid == uid) (fun t => { t with score := t.score.map (Score.relocate f) }) s.disp.images } }

/-- The pre-empted teams of a group's gang. -/
def State.gangImages (s : State) (g : GroupRt) : List Team :=
  s.disp.images.filter fun t => (s.group? t.id.gid).any fun x => x.work == g.work && x.gang == g.gang

/-- The copies of a gang's pre-empted teams name the windows that are away by group and offset. -/
def State.nameWindows (s : State) (g : GroupRt) : State :=
  (s.gangImages g).foldl (fun s t => (s.disp.groups.filter fun x => x.work == g.work && x.gang == g.gang && x.saved.isSome).foldl (fun s x =>
    let lo := sliceAddr x.tile x.base
    s.relocate t.id.uid fun a => if lo ≤ a && a < lo + x.size then awayAddr x.gid (a - lo) else a) s) s

/-- A group's window stands at its new place. -/
def State.placeWindow (s : State) (g : GroupRt) : State :=
  (s.gangImages g).foldl (fun s t => s.relocate t.id.uid fun a =>
    if awayAddr g.gid 0 ≤ a && a < awayAddr (g.gid + 1) 0 then sliceAddr g.tile g.base + (a - awayAddr g.gid 0) else a) s

/-- Are all teams of a group that have not ended pre-empted and not merely evicted? -/
def State.groupAway (s : State) (gid : Nat) : Bool :=
  !s.allTeams.any (fun t => t.id.gid == gid) && !s.disp.images.any fun t => t.id.gid == gid && t.sched.evict

/-- Can a drained team's image be completed: its copies stand at a segment boundary, and for a group's last team its engine has
committed? -/
def State.canImage (s : State) (t : Team) : Bool :=
  t.status == .preempted &&
  (t.sched.evict || !s.copies.any fun c => c.uid == t.id.uid && (!c.held.isEmpty || !c.writes.isEmpty)) &&
  (t.sched.evict || s.allTeams.any (fun x => x.id.gid == t.id.gid && x.id.uid != t.id.uid) || !(s.engine t.id.tile).holding t.id.gid)

/-- A team's image is complete: its slot, frames and quota are freed. -/
def State.imageTeam (s : State) (t : Team) : State :=
  let s := s.leave t
  let s := { s with disp := { s.disp with images := s.disp.images ++ [t] } }
  match s.group? t.id.gid with
  | some g => (if s.groupAway t.id.gid then s.saveGroup g else s).nameWindows g
  | none => s

/-- One step of any pre-emption under way. -/
def State.drainStep (s : State) : Option State :=
  firstSome (fun t => if s.canImage t then some (s.imageTeam t) else s.drain t) (s.allTeams.filter fun t => t.sched.preempt && !t.ending)

/-! ### Readmission (R467) -/

/-- A lane's window as it comes back: lo = hi = 16 × floor(fp / 16); the Rucksack refills the live range, above it what was spilled
there (R96). -/
def Frame.readmit (fp : Nat) (f : Frame) : Frame :=
  let n := 16 * (fp / 16)
  { Frame.zero with lo := n, hi := n, top := max f.top f.lo }

/-- Is a team itself parked on a fault of its side or of a Format L request? -/
def State.sideParked (s : State) (uid : Nat) : Bool := s.faults.any fun f => f.uid == uid && f.stops

/-- A pre-empted team takes its new place. -/
def State.placeTeam (s : State) (t : Team) (g : GroupRt) (p : Spot) : State :=
  let (ck, s) := fresh s
  let window := if g.window.isSome then sliceAddr g.tile g.base else Config.scratchTop
  let arch := { t.arch with k := (t.arch.k.set 30 ⟨wordOf window 0, false⟩).set 31 ⟨wordOf window 1, false⟩ }
  let t := { t with
    id := { t.id with tile := g.tile, side := p.side, slot := p.slot, half := p.half }
    status := if t.park.isSome then .trapParked else if s.sideParked t.id.uid then .faultParked else .running
    wait := none
    fence := none
    drained := none
    arch := arch
    frames := t.frames.zipIdx.map fun (f, l) => f.readmit (t.lane l).fp.toNat
    ckpts := [⟨ck, s.now, false, arch⟩]
    sched := { t.sched with lastIssue := s.now, stallTime := s.now, quantum := 0, refilling := true, yielded := none, passOver := false, preempt := false, evict := false } }
  let s := (s.cleanLines (fun l => l.tile == g.tile && l.ctx == t.id.ctx) (fun _ => true) t.id.uid s.now).2
  { s with
    teams := s.teams ++ [t]
    disp := { s.disp with images := s.disp.images.filter fun x => x.id.uid != t.id.uid }
    copies := modifyWhere (fun c => c.uid == t.id.uid) (fun c => { c with tile := g.tile, side := p.side }) s.copies
    faults := modifyWhere (fun f => f.uid == t.id.uid) (fun f => { f with slotKey := t.slotKey }) s.faults }

/-- Placing teams of a group, if each finds a side. -/
def State.placeTeams (s : State) (g : GroupRt) : List Team → Option State
  | [] => some s
  | t :: ts => match s.spot g.tile t.width t.id.frame with
    | none => none
    | some p => (s.placeTeam t g p).placeTeams g ts

/-- Can a group's channels stand beside those of an engine? -/
def Engine.fits (g part : Engine) : Bool :=
  part.channels.all fun k => !g.channels.any fun x => x.chan == k.chan || x.clashes k.accBase k.accCount k.sets

/-- An engine with a group's part restored for its window at `base`. -/
def Engine.restore (g part : Engine) (ctx base : Nat) : Engine :=
  let g := part.channels.foldl (fun g k => g.give ctx k.accBase k.accCount k.sets) g
  let row (r : Nat) : Bool := part.channels.any fun k => decide (k.accBase ≤ r) && decide (r < k.accBase + k.accCount)
  let held (x : Nat) : Bool := part.channels.any fun k => bit k.sets x
  { g with
    sets := [0, 1].map fun x => if held x then part.set x else g.set x
    acc := part.acc.foldl (fun m (k, w) => fput PWord.zero m k w) (g.acc.filter fun (k, _) => !row (k / 256))
    status := part.status.foldl (fun m (k, v) => fput 0 m k v) (g.status.filter fun (k, _) => !row k)
    channels := part.channels.map (fun k => { k with base := base }) ++ g.channels
    cmds := g.cmds ++ part.cmds }

/-- A saved group comes back to a tile with all its teams. -/
def State.readmitGroup (s : State) (w : Work) (g : GroupRt) (tile : Nat) : Option State :=
  let ts := s.disp.images.filter fun t => t.id.gid == g.gid
  if Config.tiles ≤ tile then none
  else match s.takeQuota tile w.ctx w.profile ts.length with
  | none => none
  | some s =>
    let s := { s with disp := { s.disp with groups := modifyWhere (fun x => x.gid == g.gid) (fun x => { x with tile := Config.tiles }) s.disp.groups } }
    let g := { g with tile := tile, slot := s.freeGroupSlot tile, gslot := s.gangSlot tile g.work g.gang }
    let part := g.part.getD Engine.none
    if !(s.engine tile).fits part then none
    else match s.openWindow w.profile g with
    | none => none
    | some (g, s) =>
      let (bytes, poison) := g.saved.getD ([], [])
      let lo := sliceAddr tile g.base
      let inside (k : Nat) : Bool := decide (lo ≤ k) && decide (k < lo + g.size)
      let mem := { s.mem with
        bytes := bytes.foldl (fun m (k, b) => fput Mem.unlisted m (lo + k) b) (if g.window.isSome then s.mem.bytes.filter fun (k, _) => !inside k else s.mem.bytes)
        poison := poison.foldl (fun m k => fput false m ((lo + k) / 4) true) (if g.window.isSome then s.mem.poison.filter fun (k, _) => !inside (4 * k) else s.mem.poison) }
      let g := { g with saved := none, part := none }
      let s := ({ s with mem := mem } : State).modEngine tile fun e => e.restore part g.ctx g.base
      let s := ({ s with disp := { s.disp with groups := modifyWhere (fun x => x.gid == g.gid) (fun _ => g) s.disp.groups } } : State).placeWindow g
      s.placeTeams g (s.disp.images.filter fun t => t.id.gid == g.gid)

/-- May an image of a group that stands in place be readmitted: pre-empted, or evicted and its counter has reached its target? -/
def State.mayReturn (s : State) (t : Team) : Bool :=
  !t.sched.evict || match t.wait with
    | some w => match s.keyOf t.id.tile t.id.ctx w.ea with
      | some key => s.reached w.ea key w.target
      | none => true
    | none => true

/-- One team of a group in place comes back to its tile. -/
def State.readmitTeam (s : State) (w : Work) (g : GroupRt) (t : Team) : Option State :=
  match s.takeQuota g.tile w.ctx w.profile 1 with
  | none => none
  | some s => s.placeTeams g [t]

/-- The saved groups of a group's gang, in ascending number: they come back together. -/
def State.gangOf (s : State) (w : Work) (g : GroupRt) : List GroupRt :=
  if w.profile.w 2 = 0 then [g]
  else sortBy (fun x => x.number) (s.disp.groups.filter fun x => x.work == g.work && x.gang == g.gang && x.saved.isSome)

/-- Groups readmitted one after the other, each to the first tile of a list that takes it. -/
def State.readmitAll (s : State) (w : Work) (tiles : List Nat) : List GroupRt → Option State
  | [] => some s
  | g :: gs => match firstSome (s.readmitGroup w g) tiles with
    | none => none
    | some s => s.readmitAll w tiles gs

/-- Readmission of a group's images at a tile, if it can be: for a group in place its first team that may return. -/
def State.readmit (s : State) (g : GroupRt) (tile : Nat) : Option State :=
  match s.work? g.work with
  | none => none
  | some w =>
    let images := s.disp.images.filter fun t => t.id.gid == g.gid
    let ahead := s.waiting.any fun v => decide (w.profile.cls < v.profile.cls) && (s.admitNext v tile).isSome
    if s.frozen g.ctx || images.isEmpty || ahead then none
    else if g.saved.isNone then
      if tile != g.tile then none else firstSome (s.readmitTeam w g) (images.filter s.mayReturn)
    else
      let placed := s.disp.groups.find? fun x => x.work == g.work && x.gang == g.gang && x.saved.isNone && x.gid != g.gid
      if w.profile.w 2 = 0 then s.readmitGroup w g tile
      else if placed.any fun x => x.tile / 8 != tile / 8 then none
      else s.readmitAll w (clusterFrom tile) (s.gangOf w g)

/-- READMISSION (R447, R467). -/
def execReadmission (gid tile : Nat) (s : State) : Host.Outcome State Fault Refusal :=
  match s.group? gid with
  | none => .next s
  | some g => .next ((s.readmit g tile).getD s)

end Sys2Proof.Machine
end

