-- ==== Sys2Proof/Machine/Strike.lean ====
section
/-! DEFINITION. A strike report (R438-R441): effects discarded, teams rolled back, engines, homes and the hub restarted. -/

namespace Sys2Proof.Machine

/-! ### Teams (R439, R440) -/

/-- Is a team rolled back that discards from `c` on: it issued an instruction at or after `c` (R439), or it is parked and the instruction
that trapped or faulted was issued then (R181, R327)? -/
def State.issuedSince (s : State) (t : Team) (c : Nat) : Bool :=
  match t.status, t.park with
  | .trapParked, some p => decide (c ≤ p.time)
  | .faultParked, _ => s.faults.any fun f => f.uid == t.id.uid && f.stops && decide (c ≤ f.issue)
  | _, _ => decide (c ≤ t.sched.lastIssue) || s.faults.any fun f => f.uid == t.id.uid && f.unit == 7 && decide (c ≤ f.issue)

/-- The checkpoint a strike takes a team back to: its latest one older than `c`, or the start checkpoint. -/
def Team.before (t : Team) (c : Nat) : Option Ckpt := (t.ckpts.find? fun k => decide (k.time < c)).or t.ckpts.getLast?

/-- Rolling one team back; the second time to the same checkpoint it parks with STRIKE_REPEAT (R440). -/
def State.strikeTeam (s : State) (t : Team) (c : Nat) : State :=
  match t.before c with
  | none => s
  | some k =>
    let s := (s.dropGrants t).dropPends t (t.undone k)
    let s := (s.voidFaults t.id.uid).modTeam t.id.uid fun t => t.restore k 18
    if !k.retried then s
    else match (s.team? t.id.uid).bind fun t => t.current with
    | none => s
    | some g => s.takeTrap t.id.uid g.pc ⟨18, g.mask, [], 0, false, g.pc, k.time, g.pc, none, false⟩

/-! ### Engines of the tile (R244, R272) -/

/-- A copy's held segments formed at or after `c` are discarded and made again. -/
def Copy.struck (x : Copy) (c : Nat) : Copy :=
  let kept := x.held.filter fun (_, formed, _) => decide (formed < c)
  { x with held := kept, next := x.next - (x.held.length - kept.length) / x.dsts.length }

/-- A matrix engine's held updates formed at or after `c` are discarded; their commands go back to the first discarded row, and a row
in progress starts again (R272). -/
def Engine.struck (g : Engine) (c now : Nat) : Engine :=
  let gone := g.holds.filter fun h => decide (c ≤ h.formed)
  let back (x : Command) : Command :=
    let rows := (gone.filter fun h => h.mid == x.mid).map (·.row)
    if rows.isEmpty then (if x.arow.isNone then x else x.toRow now) else { x with row := minimum rows }.toRow now
  { g with holds := g.holds.filter fun h => decide (h.formed < c), cmds := g.cmds.map back }

/-! ### The equivalence engine (R363) -/

/-- A walk after its engine's strike: from its beginning, unless its link or its result stands. -/
def Walk.struck (w : Walk) (hit : Bool) : Walk :=
  let again : Walk := { w with rx := 0, ry := 0, poison := false, stage := .find false w.x [] }
  if hit then again
  else match w.stage with
  | .add _ n => { w with stage := .add (min w.rx w.ry) n }
  | .done .. => w
  | _ => again

/-- The engine discards what it formed at or after `c`: its forests stand as before the first of it. The writes of descriptors it forms
again at once. -/
def EqEngines.struck (q : EqEngines) (engine c now : Nat) : EqEngines :=
  let hit (h : EqHold) : Bool := h.engine == engine && decide (c ≤ h.formed)
  let again := ((q.holds.filter fun h => h.rid == 0 && hit h).map fun (h : EqHold) => { h with formed := now })
  let q : EqEngines := { q with holds := (q.holds.filter fun h => h.rid != 0 || !hit h) ++ again }
  let gone := q.holds.filter fun h => h.rid != 0 && hit h
  if gone.isEmpty then q
  else
    let hitWalk (w : Walk) : Bool := gone.any fun h => h.wid == w.wid && h.rid == w.rid
    let ours (rid : Nat) : Bool := q.reqs.any fun r => r.rid == rid && gone.any fun h => h.before.fid == r.forest
    let walks := q.walks.map fun w => if ours w.rid then w.struck (hitWalk w) else w
    let adding (f : Forest) : Nat := (walks.filter fun w => (q.reqs.any fun r => r.rid == w.rid && r.forest == f.fid) && match w.stage with
      | .add .. => true
      | _ => false).length
    let forest (f : Forest) : Forest := match gone.find? fun h => h.before.fid == f.fid with
      | some h => { h.before with reserved := if h.before.marks.isEmpty then 0 else adding f }
      | none => f
    let req (r : EqReq) : EqReq :=
      let mine := gone.filter fun h => h.rid == r.rid
      if mine.isEmpty || r.kind < 3 then r
      else if r.kind = 3 then { r with progress := minimum (mine.map (·.wid)) } else { r with progress := 0 }
    { q with
      holds := q.holds.filter fun h => h.rid == 0 || !hit h
      forests := q.forests.map forest
      walks := walks
      reqs := q.reqs.map req }

/-! ### Homes and the hub (R288, R438) -/

/-- Results formed at or after `c` are made again at the same places in their lines' orders: they are held anew. -/
def HomeHold.struck (h : HomeHold) (homes : List Nat) (c now : Nat) : HomeHold :=
  if homes.contains h.home && decide (c ≤ h.formed) then { h with formed := now } else h

/-- The two home slices beside a tile's row (Table 21-6). -/
def homesUnder (tile : Nat) : List Nat := [tile / 64 * 16 + tile / 8 % 8, tile / 64 * 16 + 8 + tile / 8 % 8]

/-- A strike on a tile (R439): the effects issued at or after `c` of the teams that roll back are discarded, and the Rucksack's (R96);
those of a team that carries on stand. -/
def State.strikeTile (s : State) (tile c : Nat) : State :=
  let ts := s.allTeams.filter fun t => t.id.tile == tile && s.issuedSince t c
  let again (e : Held) : Bool := ts.any (fun t => t.id.uid == e.uid) || match e.eff with
    | .spill .. | .entry .. => true
    | _ => false
  let s := s.discard fun e => e.tile == tile && decide (c ≤ e.issue) && again e
  let s := ts.foldl (fun s t => match s.team? t.id.uid with
    | some t => s.strikeTeam t c
    | none => s) s
  let s := { s with copies := s.copies.map fun x => if x.tile = tile then x.struck c else x }
  if s.engine tile = Engine.none then s else s.modEngine tile fun g => g.struck c s.now

/-- STRIKE_REPORT (R438, R439): sensor 0 is a compute die's over tile `area`, 1 the base die's under it, any other the hub's. Every
strike is reported within S cycles (R37): a report of another time is none (log entry 118). -/
def execStrikeReport (time sensor area : Nat) (s : State) : Host.Outcome State Fault Refusal :=
  let c := time - Config.U
  if s.now < time || time + Config.S < s.now then .next s
  else match sensor with
  | 0 => .next (s.strikeTile area c)
  | 1 =>
    let u := s.strikeTile area c
    .next { u with
      eq := u.eq.struck (area / 8) c s.now
      homeHolds := u.homeHolds.map fun h => h.struck (homesUnder area) c s.now }
  | _ => .next { s with hub := { s.hub with hold := s.hub.hold.map fun h => if c ≤ h.formed then { h with formed := s.now } else h } }

end Sys2Proof.Machine
end

