-- ==== Sys2Proof/Machine/Ranger.lean ====
section
/-! DEFINITION. What Ranger writes and reads: trap commands (R182-R185), fault replies (R326, R327), tile queue entries (R426),
control registers (R381-R383, R184), and its loads and stores of device memory (R312). -/

namespace Sys2Proof.Machine

/-! ### Settling a parked trap (R182) -/

/-- Command 1: resume a parked trap. -/
def State.cmdResume (s : State) (tile slot : Nat) : State :=
  match s.teamAt tile slot with
  | none => s.refuse (tile * 64 + slot)
  | some t => match t.park with
    | none => s.refuse (tile * 64 + slot)
    | some p =>
      if t.status != .trapParked then s.refuse (tile * 64 + slot)
      else ((if p.replay then (s.resume t.id.uid).redoPends t.id.uid else s.resume t.id.uid).settleTrap t p).modWindow t.slotKey fun w => { w with resumePc := p.resumePc.setWidth 64 }

/-- The causes that are not of kind T (Table 8-6). -/
def notTrapKind (c : Nat) : Bool := [21, 22, 23, 80, 81, 82, 83, 84, 88, 89, 90, 91, 92, 93, 94, 95].contains c

/-- One lane enters the trap entry: its link goes to fp + 64 and fp + 65, once they are resident (R92, R183). -/
def Team.redirectLane (t : Team) (resumePc : BitVec 48) (l : Nat) : Team :=
  let n := (t.lane l).fp.toNat
  let link : List PWord := [⟨resumePc.extractLsb' 0 32, false⟩, ⟨BitVec.ofNat 32 (66 * 2 ^ 16 + bits resumePc.toNat 47 32), false⟩]
  { t.moveFrame l (BitVec.ofNat 32 (n + 66)) ((t.lane l).depth + 1) true with links := t.links ++ [(l, n + 64, link)] }

/-- The lanes of the group that trapped. -/
def Team.trapLanes (t : Team) (p : Park) : List Nat :=
  lanesOf t.width (((t.allGroups.find? fun g => g.pc == p.groupPc).map (·.mask)).getD 0)

/-- Would a redirect pass the slot limit in some lane (R79, R183)? -/
def Team.redirectLimit (t : Team) (p : Park) : Bool :=
  (t.trapLanes p).any fun l => decide (slotLimit t.width t.id.spillSize < (t.lane l).fp.toNat + 66 + 64)

/-- Is a redirect of a parked trap refused (R183)? -/
def Team.redirectRefused (t : Team) (p : Park) : Bool :=
  t.status != .trapParked || t.id.trapEntry == 0 || p.inRep || p.inMac || t.redirectLimit p || notTrapKind p.cause

/-- Redirect links whose slots are resident, and for which no result pends, are written; the team waits for the others (R46, R92). -/
def Team.writeLinks (t : Team) : Team :=
  let ready (x : Nat × Nat × List PWord) : Bool := resident t x.1 [x.2.1, x.2.1 + 1] && !t.awaits (fun _ => true) x.1 x.2.1 2
  { (t.links.filter ready).foldl (fun t (l, n, ws) => t.write (.slot l n) ws) t with links := t.links.filter fun x => !ready x }

/-- The implicit call of a redirect, and the system registers of the trap (R183, Table 8-2). -/
def Team.redirect (t : Team) (p : Park) : Team :=
  let t := (t.trapLanes p).foldl (fun t l => t.redirectLane p.resumePc l) t
  let t := t.setArch fun a => { a with only := none, groups := modifyWhere (fun g => g.pc == p.groupPc) (fun g => { g with sig := sigReset, sigOk := true }) a.groups }
  let t := t.moveGroup p.groupPc t.id.trapEntry
  { t with
    status := .running
    park := none
    sys := { t.sys with tcause := BitVec.ofNat 7 p.cause, tpc := p.pc, tval := (List.range t.width).map (tvalOf p.tval), tlane := p.mask }
    sched := { t.sched with stallCause := 0, quantum := 0 } }.writeLinks

/-- Command 2: redirect a parked trap to the trap entry. -/
def State.cmdRedirect (s : State) (tile slot : Nat) : State :=
  match s.teamAt tile slot with
  | none => s.refuse (tile * 64 + slot)
  | some t => match t.park with
    | none => s.refuse (tile * 64 + slot)
    | some p =>
      if t.redirectRefused p then s.refuse (tile * 64 + slot)
      else ((s.dropRaised t.id.uid).modTeam t.id.uid fun t => t.redirect p).settleTrap t p

/-- Command 3: every lane of the team ends. -/
def State.cmdKillTeam (s : State) (tile slot : Nat) : State :=
  match s.teamAt tile slot with
  | none => s
  | some t => match t.park with
    | some p => (s.endLanes t.id.uid).settleTrap t p
    | none => s.endLanes t.id.uid

/-- Command 4: every team of the slot's context ends; a record of kind K says so, whose value is not stated (R199, log entry 121). -/
def State.cmdKillContext (s : State) (tile slot : Nat) : State :=
  match s.teamAt tile slot with
  | none => s
  | some t => ({ s.killContext t.id.ctx with serial := s.serial + 1 } : State).contextRecord t.id.ctx 23 (Config.freeValue s.serial).toNat

/-- RESUME (R182). -/
def execResume (tile slot : Nat) (s : State) : Host.Outcome State Fault Refusal := .next (s.cmdResume tile slot)
/-- REDIRECT (R183). -/
def execRedirect (tile slot : Nat) (s : State) : Host.Outcome State Fault Refusal := .next (s.cmdRedirect tile slot)
/-- KILL_TEAM (R182). -/
def execKillTeam (tile slot : Nat) (s : State) : Host.Outcome State Fault Refusal := .next (s.cmdKillTeam tile slot)
/-- KILL_CONTEXT (R182). -/
def execKillContext (tile slot : Nat) (s : State) : Host.Outcome State Fault Refusal := .next (s.cmdKillContext tile slot)

/-- Writing RESUMEPC (R184): a value with bits 1:0 or 63:48 set is refused; a written one ends a REP or macro in which the trap
arose and a kept completion mask (R182). -/
def State.writeResumePc (s : State) (tile slot : Nat) (v : Dword) : State :=
  if bits v.toNat 1 0 != 0 || bits v.toNat 63 48 != 0 then s.refuse (tile * 64 + slot)
  else
    let s := s.modWindow (tile * 64 + slot) fun w => { w with resumePc := v }
    match s.teamAt tile slot with
    | none => s
    | some t => (if t.park.any (·.replay) then s.dropRaised t.id.uid else s).modTeam t.id.uid fun t =>
      match t.park with
      | none => t
      | some p => { t with
          park := some { p with resumePc := v.extractLsb' 0 48, replay := false }
          arch := { t.arch with
            only := none
            rep := if p.inRep then none else t.arch.rep
            mac := if p.inMac then none else t.arch.mac } }

/-- RESUMEPC_WRITE (R184). -/
def execResumepcWrite (tile slot : Nat) (v : Dword) (s : State) : Host.Outcome State Fault Refusal := .next (s.writeResumePc tile slot v)

/-! ### Answering a fault (R326, R327) -/

/-- Work parked on a fault goes on: a copy, a command, a walk or a request. -/
def State.unpark (s : State) (item : Nat) : State :=
  let cmd (g : Engine) : Engine := { g with cmds := modifyWhere (fun c => c.mid == item) (fun c => { c with parked := false }) g.cmds }
  { s with
    copies := modifyWhere (fun c => c.cid == item) (fun c => { c with parked := false }) s.copies
    engines := s.engines.map fun (k, g) => (k, cmd g)
    disp := { s.disp with groups := s.disp.groups.map fun g => { g with part := g.part.map cmd } }
    eq := { s.eq with
      walks := modifyWhere (fun w => w.wid == item) (fun w => { w with parked := false }) s.eq.walks
      reqs := modifyWhere (fun r => r.rid == item) (fun r => { r with parked := false }) s.eq.reqs } }

/-- A team goes on once none of its own faults is left; a group whose fetch was parked is fetched again. -/
def State.unparkTeam (s : State) (f : ParkedFault) : State :=
  let more := s.faults.any fun x => x.uid == f.uid && x.stops
  s.modTeam f.uid fun t =>
    if f.unit = 7 then { t with sched := { t.sched with parked := t.sched.parked.filter (· != f.pc) } }
    else if t.status = .faultParked && !more then { t with status := .running, sched := { t.sched with stallCause := 0 } } else t

/-- Reply 1: the parked unit performs its unfinished lanes or segments. -/
def State.replay (s : State) (f : ParkedFault) : State :=
  let s := { s with faults := s.faults.filter fun x => x.id != f.id }
  let s := if f.stops || f.unit = 7 then s.unparkTeam f else s
  if f.unit = 3 || f.unit = 7 || f.item = 0 then s else s.unpark f.item

/-- The command of an engine with a property. -/
def State.command? (s : State) (p : Command → Bool) : Option (Nat × Command) :=
  firstSome (fun (k, g) => (g.cmds.find? p).map fun c => (k, c)) s.engines

/-- A parked request becomes a trap of its unit's cause. -/
def State.failItem (s : State) (f : ParkedFault) (x : Net) : State :=
  let drop : State := { s with net := s.net.filter fun y => y.id != x.id }
  match f.unit with
  | 1 => match s.copies.find? fun c => c.writes.any fun w => w.1 == x.id with
    | some c => drop.copyAck c x.id (some 41) f.va
    | none => drop.deferFor f.uid x.tile f.ctx ⟨41, f.pc, f.issue, f.word, f.mask, (lanesOf 1024 f.mask).map fun l => (l, BitVec.ofNat 64 f.va), false⟩
  | 2 => match s.command? fun c => c.credited == some x.id with
    | some (tile, c) => drop.stopCommand tile c 49 f.va
    | none => drop.deferFor f.uid x.tile f.ctx ⟨49, f.pc, f.issue, f.word, f.mask, [(0, BitVec.ofNat 64 f.va)], false⟩
  | 4 => drop.deferFor f.uid x.tile f.ctx ⟨24, f.pc, f.issue, f.word, f.mask, [(0, BitVec.ofNat 64 f.va)], false⟩
  | _ => s.failNet x 24

/-- A parked engine's work stops with its unit's cause. -/
def State.failWork (s : State) (f : ParkedFault) : State :=
  match s.copy? f.item, s.command? (fun c => c.mid == f.item), s.walk? f.item, s.req? f.item with
  | some c, _, _, _ => s.stopCopy c 41 f.va
  | _, some (tile, c), _, _ => s.stopCommand tile c 49 f.va
  | _, _, some w, _ => match s.req? w.rid with
    | some r => match s.forest? r.forest with
      | some g => s.walkTrouble w r g (.stop 24 w.element)
      | none => s
    | none => s
  | _, _, _, some r => if r.kind = 3 then s.relabelStops r 24 f.va else s.markStops r 24 f.va
  | _, _, _, _ => s

/-- Reply 2: the fault becomes a trap of its unit's cause, with the unfinished lanes in the mask. -/
def State.unresolved (s : State) (f : ParkedFault) : State :=
  let s := { s with faults := s.faults.filter fun x => x.id != f.id }
  if f.unit = 0 && f.item = 0 then s.takeTrap f.uid f.pc ⟨24, f.mask, f.eas, f.word, false, f.pc, f.issue, f.pc, none, false⟩
  else if f.unit = 7 then s.defer f.uid 11 f.pc f.issue 0 f.mask ((lanesOf 1024 f.mask).map fun l => (l, BitVec.ofNat 64 f.va))
  else
  let s := if f.stops then s.unparkTeam f else s
  if f.unit = 3 then s.defer f.uid 13 f.pc f.issue f.word f.mask ((lanesOf 1024 f.mask).map fun l => (l, BitVec.ofNat 64 f.va))
  else match s.net? f.item with
    | some x => s.failItem f x
    | none => (s.unpark f.item).failWork f

/-- The fault that a reply names: posted, of the slot, with the sequence number. -/
def State.faultAt (s : State) (tile slot seq : Nat) : Option ParkedFault :=
  s.faults.find? fun f => f.posted && f.slotKey == tile * 64 + slot && f.seq == seq && f.reply == 0

/-- A reply acts on a fault: kept when the team is pre-empted, else at once; a team that a strike has rolled back or that has
gone needs nothing more (R327). -/
def State.applyReply (s : State) (f : ParkedFault) (r : Nat) : State :=
  if f.uid = 0 then { s with faults := s.faults.filter fun x => x.id != f.id }
  else if s.disp.images.any fun t => t.id.uid == f.uid then
    { s with faults := modifyWhere (fun x => x.id == f.id) (fun x => { x with reply := r }) s.faults }
  else if r = 1 then s.replay f else s.unresolved f

/-- FAULTREPLY: a write that names no parked fault of the slot, or holds another reply, is refused. -/
def State.faultReply (s : State) (tile slot seq r : Nat) : State :=
  match s.faultAt tile slot seq with
  | some f => if r = 1 || r = 2 then s.applyReply f r else s.refuse (tile * 64 + slot)
  | none => s.refuse (tile * 64 + slot)

/-- A reply that was kept in an image acts once its team is resident again (R327). -/
def State.keptReply (s : State) : Option State :=
  (s.faults.find? fun f => f.reply != 0 && !s.disp.images.any fun t => t.id.uid == f.uid).map fun f => s.applyReply f f.reply

/-- REPLAY (R326). -/
def execReplay (tile slot seq : Nat) (s : State) : Host.Outcome State Fault Refusal := .next (s.faultReply tile slot seq 1)
/-- UNRESOLVABLE (R326). -/
def execUnresolvable (tile slot seq : Nat) (s : State) : Host.Outcome State Fault Refusal := .next (s.faultReply tile slot seq 2)

/-! ### Tile queue entries (R426) -/

/-- A queue entry's words as Ranger reads them (Table 21-2), high and low. -/
def TileQueue.hi (q : TileQueue) : Dword :=
  BitVec.ofNat 64 (b2n q.valid * 2 ^ 63 + b2n q.ext * 2 ^ 62 + q.ctx * 2 ^ 45 + q.gen * 2 ^ 30 + q.scope * 2 ^ 28 + q.ring.size * 2 ^ 16 + q.base / 16)
def TileQueue.lo (q : TileQueue) : Dword :=
  BitVec.ofNat 64 (q.ring.free * 2 ^ 39 + q.ring.head * 2 ^ 26 + q.ring.rsv * 2 ^ 13 + q.ring.tail)

/-- Does a ring lie wholly in one valid window of the context whose owner is of the kind its scope needs? -/
def State.ringOk (s : State) (tile ctx scope base bytes : Nat) : Bool :=
  (s.windowsOf tile).any fun (_, w) => winCtx w == ctx && decide (winBase w ≤ base) && decide (base + bytes ≤ winBase w + winSize w) &&
    match scope with
    | 0 => winScope w == 0
    | 1 => decide (winScope w ≤ 1)
    | 2 => true
    | _ => false

/-- Writing an entry: the counters are the port's own and start at 0 in a ring that was not in use (MBZ bits are ignored). -/
def State.writeQueue (s : State) (tile entry : Nat) (hi : Dword) : State :=
  let v := hi.toNat
  let (ctx, gen, scope, size, base) := (bits v 61 45, bits v 44 30, bits v 29 28, bits v 27 16, bits v 15 0 * 16)
  let valid := bit v 63 && s.ringOk tile ctx scope base (4 * (size + 1))
  s.modQueue tile entry fun q =>
    let ring : Ring := if q.valid && q.ring.size = size && q.base = base then q.ring else ⟨size, 0, 0, 0, 0, [], [], [], []⟩
    ⟨valid, bit v 62, ctx, gen, scope, base, ring⟩

/-- QUEUE_ENTRY_WRITE (R426): the low word holds the counters and bits 63:60 of the base, which are zero. -/
def execQueueEntryWrite (tile entry : Nat) (hi lo : Dword) (s : State) : Host.Outcome State Fault Refusal :=
  let _ := lo
  .next (s.writeQueue tile entry hi)

/-! ### Clocks and notify registers -/

/-- Writing CLKMODE: only while the clock is unlocked. -/
def State.writeClkmode (s : State) (v : Dword) : State :=
  if s.hub.clock.locked then s else { s with hub := { s.hub with clock := { s.hub.clock with mode := bit v.toNat 0 } } }

/-- CLKMODE_WRITE (R419). -/
def execClkmodeWrite (v : Dword) (s : State) : Host.Outcome State Fault Refusal := .next (s.writeClkmode v)

/-- Handing a value to a Ranger thread. -/
def State.yields (s : State) (place : Nat) (v : Dword) : State := { s with out := s.out ++ [.value place v] }

/-- The words a thread drains from its queue (R366). -/
def Thread.drained (t : Thread) : List Word :=
  ((t.ring.take t.ring.available).map fun (cs, _) => cs.map fun c => (fget PWord.zero t.words (t.ring.index c)).w).getD []

/-- NOTIFY_READ (R366, R383): the count is returned and set to 0, and the thread drains its queue until it is empty. -/
def execNotifyRead (thread : Nat) (s : State) : Host.Outcome State Fault Refusal :=
  let t := s.thread thread
  let s := t.drained.foldl (fun s w => s.yields (0x5C2 + thread * 4096) (w.setWidth 64)) (s.yields (0x5C0 + thread * 4096) (BitVec.ofNat 64 t.notify))
  .next (s.modThread thread fun t => match t.ring.take t.ring.available with
    | some (cs, r) => { t with notify := 0, ring := r.release cs }
    | none => { t with notify := 0 })

/-! ### Control registers (R381, R382, R184) -/

/-- The register space that a control address is in (Table 17-7), with its index and offset. -/
inductive Reg17 where
  | slot (key off : Nat)
  | tile (t off : Nat)
  | port (p off : Nat)
  | route (i : Nat)
  | clock (off : Nat)
  | errors (off : Nat)
  | context (c off : Nat)
  | other
deriving DecidableEq, Repr

/-- Is an address in a control space of Table 10-2? -/
def isControl (pa : Nat) : Bool :=
  (decide (0xE0000000000 ≤ pa) && decide (pa < 0xE0002000000)) || (decide (0xE0010000000 ≤ pa) && decide (pa < 0xE0040000000))

/-- The register that holds an address; offsets are multiples of 8. -/
def regOf (pa : Nat) : Reg17 :=
  let d := pa - 0xE0000000000
  let within (base size : Nat) : Bool := decide (base ≤ d) && decide (d < base + size)
  if within 0 0x2000000 then .slot (d / 0x10000 * 64 + d / 0x400 % 64) (d % 0x400 / 8 * 8)
  else if within 0x10000000 (512 * 0x2000) then .tile ((d - 0x10000000) / 0x2000) (d % 0x2000 / 8 * 8)
  else if within 0x11000000 (384 * 0x40) then .port ((d - 0x11000000) / 0x40) (d % 0x40 / 8 * 8)
  else if within 0x11010000 (1088 * 8) then .route ((d - 0x11010000) / 8)
  else if within 0x11020000 32 then .clock (d % 32 / 8 * 8)
  else if within 0x11030000 32 then .errors (d % 32 / 8 * 8)
  else if within 0x20000000 (2 ^ 17 * 0x1000) then .context ((d - 0x20000000) / 0x1000) (d % 0x1000 / 8 * 8)
  else .other

/-- The state of a team slot as STATUS shows it (Table 8-5). -/
def Team.stateCode (t : Team) : Nat :=
  match t.status with
  | .running => if t.fetchStuck then 4 else 1
  | .waiting => 2
  | .trapParked => 3
  | .faultParked => 4
  | .preempted => 5

/-- STATUS (Table 8-5). -/
def State.statusReg (s : State) (key : Nat) : Dword :=
  let w := s.window key
  let (cause, state) := match s.teamOfKey key with
    | some t => (if t.status = .trapParked then (t.park.map (·.cause)).getD 0x7F else 0x7F, t.stateCode)
    | none => (0x7F, 0)
  BitVec.ofNat 64 (cause * 2 ^ 18 + b2n w.busy * 2 ^ 17 + b2n w.refused * 2 ^ 16 + state)

/-- Eight bytes of a list from an offset. -/
def eightAt (bs : List Byte) (off : Nat) : Dword := BitVec.ofNat 64 (ofBytes ((bs.drop off).take 8))

/-- A team-state window's registers as Ranger reads them (Table 8-4, R370). The write-only ones (COMMAND, ISSUE, FAULTREPLY,
PREEMPT) read 0: DESIGN CHOICE, log 130. -/
def State.slotReg (s : State) (key off : Nat) : Dword :=
  let w := s.window key
  let t := s.teamOfKey key
  let park := (t.filter fun t => t.status = .trapParked).bind (·.park)
  if off = 0 then s.statusReg key
  else if off = 0x10 then (match park with | some p => p.resumePc.setWidth 64 | none => w.resumePc)
  else if off = 0x18 then w.result
  else if off = 0x20 then w.issueA
  else if off = 0x28 then w.issueB
  else match t, park with
  | some t, some p =>
    if 0x80 ≤ off && off < 0x100 then (maskWord p.mask ((off - 0x80) / 4 + 1)) ++ (maskWord p.mask ((off - 0x80) / 4))
    else if 0x100 ≤ off && off < 0x140 then eightAt p.record (off - 0x100)
    else if 0x200 ≤ off && off < 0x280 && p.cause = 16 then
      (t.arch.k.getD ((off - 0x200) / 4 + 1) PWord.zero).w ++ (t.arch.k.getD ((off - 0x200) / 4) PWord.zero).w
    else 0
  | _, _ => 0

/-- PSTAT (Table 18-1). -/
def Port.pstat (p : Port) : Nat :=
  p.state * 2 ^ 28 + p.failed.toNat * 2 ^ 16 + b2n p.spare * 2 ^ 12 + b2n p.spareBad * 2 ^ 11 + p.replaced * 2 ^ 8 + p.retrains

/-- A context control block's registers (Table 17-8, 21-8, 19-4). -/
def State.contextReg (s : State) (c off : Nat) : Dword :=
  let x := (s.ctx? c).getD (Ctx.blank c)
  let n (v : Nat) : Dword := BitVec.ofNat 64 v
  if 0x800 ≤ off then
    let q := s.link c ((off - 0x800) / 32)
    match off % 32 with
    | 0 => q.q0
    | 8 => q.q1
    | 16 => q.q2
    | _ => n q.sent
  else match off with
  | 0x00 => x.root
  | 0x08 => n x.tag
  | 0x10 => n (b2n x.external * 2 ^ 33 + b2n x.fired * 2 ^ 32 + x.window)
  | 0x18 => n x.thread
  | 0x20 => n x.htimer
  | 0x28 => n x.bindBase
  | 0x30 => x.grant
  | 0x40 => n x.trapBase
  | 0x48 => n x.trapLog
  | 0x50 => n (x.trapTail * 2 ^ 32 + x.trapHead)
  | 0x60 => n x.faultBase
  | 0x68 => n x.faultLog
  | 0x70 => n (x.faultTail * 2 ^ 32 + x.faultHead)
  | 0x80 => n x.poolBase
  | 0x88 => n x.poolSize
  | 0x90 => n x.tspill
  | 0x98 => n x.tspillSize
  | _ => 0

/-- The eight bytes of control space at an address. -/
def State.controlReg (s : State) (pa : Nat) : Dword :=
  match regOf pa with
  | .slot key off => s.slotReg key off
  | .tile t off =>
    if off < 0x400 then fget 0 s.tables.windows (t * 128 + off / 8)
    else if off < 0x800 then (fget 0 s.tables.quotas (t * 64 + (off - 0x400) / 16)).extractLsb' (off % 16 * 8) 64
    else if off < 0xC00 then (let q := s.queue t ((off - 0x800) / 16); if off % 16 = 8 then q.hi else q.lo)
    else 0
  | .port p off => BitVec.ofNat 64 (if off = 0 then (s.port p).pstat else if off = 8 then (s.port p).timeout else 0)
  | .route i => fget 0 s.tables.routes i
  | .clock off =>
    let c := s.hub.clock
    BitVec.ofNat 64 (match off with
      | 0 => c.pairDev
      | 8 => c.pairTile
      | 16 => b2n c.locked + 2 * b2n c.holdover
      | _ => b2n c.mode)
  | .errors off => BitVec.ofNat 64 (match off with
      | 0 => s.tables.errBase
      | 16 => s.tables.errHead
      | 24 => s.tables.errTail
      | _ => 0)
  | .context c off => s.contextReg c off
  | .other => 0

/-- Changing a context, which comes to be with the first write to its block. -/
def State.setCtx (s : State) (c : Nat) (f : Ctx → Ctx) : State :=
  if (s.ctx? c).isSome then s.modCtx c f else { s with ctxs := s.ctxs ++ [f (Ctx.blank c)] }

/-- The privileged words: wcs and tlbinv with their MBZ fields zero (R185). -/
def isPrivileged (w : Word) : Bool :=
  match decode w 0 0 with
  | .ok (.wcs ..) | .ok (.tlbinv ..) => true
  | _ => false

/-- ISSUE: a privileged issue starts, or is refused (R185). -/
def State.writeIssue (s : State) (key : Nat) (w : Word) : State :=
  let x := s.window key
  let bad := match decode w 0 0 with
    | .ok (.wcs ..) => bits x.issueA.toNat 63 12 != 0
    | .ok (.tlbinv ..) => bits x.issueB.toNat 29 17 != 0
    | _ => true
  if bad || x.busy then s.refuse key
  else
    let s := s.modWindow key fun x => { x with busy := true }
    { s with tables := { s.tables with priv := s.tables.priv ++ [⟨key, w, none⟩] } }

/-- Writing a team-state window: `v` in place in its eight bytes, `new` those bytes with the old ones kept, `m` the bits written. -/
def State.writeSlot (s : State) (key off : Nat) (v new m : Dword) : State :=
  let (tile, slot) := (key / 64, key % 64)
  match off with
  | 0x00 => if bit (v &&& m).toNat 16 then s.modWindow key fun w => { w with refused := false } else s
  | 0x08 => match v.toNat with
    | 1 => s.cmdResume tile slot
    | 2 => s.cmdRedirect tile slot
    | 3 => s.cmdKillTeam tile slot
    | 4 => s.cmdKillContext tile slot
    | _ => s.refuse key
  | 0x10 => s.writeResumePc tile slot new
  | 0x18 => s.modWindow key fun w => { w with result := new }
  | 0x20 => s.modWindow key fun w => { w with issueA := new }
  | 0x28 => s.modWindow key fun w => { w with issueB := new }
  | 0x30 => s.writeIssue key (v.extractLsb' 0 32)
  | 0x38 => s.faultReply tile slot (bits v.toNat 31 0) (bits v.toNat 33 32)
  | 0x40 => match s.teamOfKey key with
    | some t => if v = 1 then s.modTeam t.id.uid fun t => { t with sched := { t.sched with preempt := true } } else s
    | none => s
  | _ => s

/-- A new watchdog window, if it is 0 or within its limits (R416). -/
def watchdogWindow (old new : Nat) : Nat := if new = 0 || (10 ≤ new && new ≤ 1000000) then new else old

/-- Writing a link queue's entry of a context. -/
def linkWritten (off : Nat) (new : Dword) (q : LinkQueue) : LinkQueue :=
  match off % 32 with
  | 0 => { q with q0 := new &&& 0x8FFFFFFFFFFFFFFF }
  | 8 => { q with q1 := new &&& 0x7FFFFFFFFFFFFFFF }
  | 16 => { q with q2 := new &&& 0x0000FFFFFFFFFFFF }
  | _ => q

/-- Writing a register of a context's block (Table 17-8): bits that the table leaves unassigned are ignored, and the monitor gives a tag
only once a tenant has attested the device (R368). -/
def State.ctxWritten (s : State) (off : Nat) (v new m : Dword) (x : Ctx) : Ctx :=
  let n := new.toNat
  if off = 0x00 then { x with root := new &&& 0x0000FFFFFFFFF001 }
  else if off = 0x08 then (if n % 256 = 0 || s.hub.trust.attested then { x with tag := n % 256 } else x)
  else if off = 0x10 then { x with window := watchdogWindow x.window (n % 2 ^ 32), fired := x.fired && !bit (v &&& m).toNat 32 }
  else if off = 0x18 then { x with thread := n % 64 }
  else if off = 0x20 then (if 64 ≤ n % 65536 then { x with htimer := n % 65536 } else x)
  else if off = 0x28 then { x with bindBase := n / 16384 * 16384 }
  else if off = 0x30 then { x with grant := new &&& 0xFFFFFFFF00001F7F }
  else if off = 0x40 then { x with trapBase := n }
  else if off = 0x48 then { x with trapLog := n % 32 }
  else if off = 0x50 then { x with trapHead := n % 2 ^ 32 }
  else if off = 0x60 then { x with faultBase := n }
  else if off = 0x68 then { x with faultLog := n % 32 }
  else if off = 0x70 then { x with faultHead := n % 2 ^ 32 }
  else if off = 0x80 then { x with poolBase := n / 64 * 64 }
  else if off = 0x88 then { x with poolSize := n }
  else if off = 0x90 then { x with tspill := n % 2 ^ 48 / 64 * 64 }
  else if off = 0x98 then { x with tspillSize := n / 64 * 64 }
  else x

/-- Writing a context control block. -/
def State.writeContext (s : State) (c off : Nat) (v new m : Dword) : State :=
  if 0x800 ≤ off then
    let e := (off - 0x800) / 32
    s.setCtx c fun x => { x with links := fput LinkQueue.none x.links e (linkWritten off new (fget LinkQueue.none x.links e)) }
  else s.setCtx c (s.ctxWritten off v new m)

/-- The bits that a write of `n` bytes at an address changes in their eight bytes, the bits written, and the eight bytes after it. -/
def writeMask (pa n : Nat) : Dword := BitVec.ofNat 64 ((2 ^ (8 * n) - 1) * 2 ^ (pa % 8 * 8))
def writeBits (pa n : Nat) (v : Dword) : Dword := (v <<< (pa % 8 * 8)) &&& writeMask pa n
def State.written (s : State) (pa n : Nat) (v : Dword) : Dword := (s.controlReg pa &&& ~~~writeMask pa n) ||| writeBits pa n v

/-- Writing a control register: `v` in place, `new` its eight bytes after the write, `m` the bits written. -/
def State.writeReg (s : State) (r : Reg17) (v new m : Dword) : State :=
  match r with
  | .slot key off => s.writeSlot key off v new m
  | .tile t off =>
    if off < 0x400 then s.setWindow t (off / 8) new
    else if 0x800 ≤ off && off < 0xC00 && off % 16 = 8 then s.writeQueue t ((off - 0x800) / 16) new
    else s
  | .port p off =>
    if off = 0 then s.modPort p fun x => { x with retrains := new.toNat % 256 }
    else if off = 8 && 10 ≤ new.toNat && new.toNat ≤ 10000 then s.modPort p fun x => { x with timeout := new.toNat }
    else s
  | .route i => { s with tables := { s.tables with routes := fput 0 s.tables.routes i (new &&& 0x8000003FFFFFFFFF) } }
  | .clock off => if off = 24 then s.writeClkmode new else s
  | .errors off =>
    if off = 0 then { s with tables := { s.tables with errBase := new.toNat } }
    else if off = 16 then { s with tables := { s.tables with errHead := new.toNat % 2 ^ 32 } }
    else s
  | .context c off => s.writeContext c off v new m
  | .other => s

/-- Writing `n` bytes of control space at an address, inside eight aligned bytes. -/
def State.writeControl (s : State) (pa n : Nat) (value : Dword) : State :=
  s.writeReg (regOf pa) (writeBits pa n value) (s.written pa n value) (writeMask pa n)

/-- REGISTER_WRITE (R381): a field that is read-only and a bit that must be zero ignore the write. -/
def execRegisterWrite (pa n : Nat) (v : Dword) (s : State) : Host.Outcome State Fault Refusal :=
  if isControl pa then .next (s.writeControl pa n v) else .fault .unassignedAddress

/-- RANGER_LOAD_STORE (R312): a load or store of device memory at its home slice, of a window over its link, or of a register. -/
def execRangerLoadStore (pa n : Nat) (store : Bool) (v : Dword) (s : State) : Host.Outcome State Fault Refusal :=
  if isControl pa then
    .next (if store then s.writeControl pa n v else s.yields pa ((s.controlReg pa >>> (pa % 8 * 8)) &&& BitVec.ofNat 64 (2 ^ (8 * n) - 1)))
  else match spaceOf pa with
  | .none => .fault .unassignedAddress
  | .hbm | .cxl =>
    .next (if store then s.memStore pa ((toBytes n v.toNat).map (·, false)) else s.yields pa (BitVec.ofNat 64 (s.mem.nat pa n)))
  | .host | .peer =>
    let act : Act := if store then .write [⟨0, pa, (toBytes n v.toNat).map (·, false)⟩] else .object 0 0 pa n false
    .next (s.send Config.tiles 0 0 0 s.now 0 0 pa pa [] act).2

end Sys2Proof.Machine
end

