-- ==== Sys2Proof/Machine/HubUnits.lean ====
section
/-! DEFINITION. The hub: the device clock (R396, R418, R419), power (R399-R401), package reset (R402) and the root of trust's SPDM
(R397, R398). -/

namespace Sys2Proof.Machine

/-! ### The device clock -/

def State.modClock (s : State) (f : Clock → Clock) : State := { s with hub := { s.hub with clock := f s.hub.clock } }

/-- The device clock goes on from its present time at another rate, by parts per million. -/
def State.slewTo (s : State) (ppm : Int) : State :=
  let t := s.deviceTime
  s.modClock fun c => { c with devBase := t, atCycle := s.now, slew := ppm }

/-- A rate toward a time, at most 100 ppm (its amount is a choice the spec leaves open, log entry 2). -/
def State.slewToward (s : State) (target : Nat) : State :=
  let (d, s) := draw s
  let ppm : Int := (d % 101 : Nat)
  s.slewTo (if target = s.deviceTime then 0 else if s.deviceTime < target then ppm else -ppm)

/-- PTP_EVENT_MESSAGE (R396): timestamped to within 8 ns at its port; on the clock's port it slews a clock that has locked. -/
def execPtpEventMessage (nic : Nat) (master : Dword) (error : Nat) (s : State) : Host.Outcome State Fault Refusal :=
  let stamp := s.deviceTime + error % 17 - 8
  let s := { s with out := s.out ++ [.ptp nic (BitVec.ofNat 64 stamp)] }
  let s := if s.hub.clock.holdover || !s.hub.clock.locked then s.modClock fun c => { c with port := nic } else s
  .next (if s.hub.clock.locked && !s.hub.clock.holdover && s.hub.clock.port = nic then s.slewToward master.toNat else s)

/-- Each Timetable entry's next slot is the first multiple of its period after the present time. -/
def State.alignSlots (s : State) : State :=
  let f (e : TimeEntry) : TimeEntry := { e with next := (s.deviceTime / (1000 * e.period) + 1) * (1000 * e.period) }
  { s with disp := { s.disp with timetable := s.disp.timetable.map fun (k, e) => (k, f e) } }

/-- CLOCK_LOCK (R419): the first lock under CLKMODE 0 steps the clock to PTP time; every other lock only slews it. -/
def execClockLock (ptp : Dword) (s : State) : Host.Outcome State Fault Refusal :=
  let first := !s.hub.clock.locked
  let s := s.modClock fun c => { c with locked := true, holdover := false }
  .next (if first && !s.hub.clock.mode then
      (s.modClock fun c => { c with devBase := ptp.toNat, atCycle := s.now, slew := 0, stepped := c.stepped + (ptp.toNat - s.deviceTime) }).alignSlots
    else s.slewToward ptp.toNat)

/-- HOLDOVER (R396): the clock goes on by its own oscillator and reports to thread 0. -/
def execHoldover (s : State) : Host.Outcome State Fault Refusal :=
  .next (((s.slewTo 0).modClock fun c => { c with holdover := true }).notify 0)

/-- Is a microsecond of the device clock over since the last latch? -/
def State.latchDue (s : State) : Bool := decide (s.hub.clock.pairDev / 1000 < s.deviceTime / 1000)

/-- CLKPAIR_LATCH (R418). -/
def execClkpairLatch (s : State) : Host.Outcome State Fault Refusal :=
  .next (if s.latchDue then s.modClock fun c => { c with pairDev := s.deviceTime, pairTile := s.now } else s)

/-! ### Power -/

def State.modPower (s : State) (f : Power → Power) : State := { s with hub := { s.hub with power := f s.hub.power } }

/-- POWER_GRANT (R399): every 2 µs each unit is granted a current; how many issue cycles a tile then skips depends on its
demand, which the spec leaves open (log entry 2). -/
def execPowerGrant (grants : List Nat) (s : State) : Host.Outcome State Fault Refusal :=
  let s := s.modPower fun p => { p with grants := grants }
  .next ((List.range (min grants.length Config.tiles)).foldl (fun s t =>
    let (d, s) := draw s
    s.modPower fun p => { p with withheld := fput 0 p.withheld t (if d % 3200 = 0 then 0 else s.now + d % 3200) }) s)

/-- POWER_LIMIT (R399): 1,000 W to 2,800 W. -/
def execPowerLimit (watts : Nat) (s : State) : Host.Outcome State Fault Refusal :=
  .next (if 1000 ≤ watts && watts ≤ 2800 then s.modPower fun p => { p with limit := watts } else s)

/-- DROOP (R400): tile-clock cycles are each up to one eighth longer; counts do not change, only the device time that passes. -/
def execDroop (tile cycles : Nat) (s : State) : Host.Outcome State Fault Refusal :=
  let _ := tile
  let (d, s) := draw s
  let t := s.deviceTime + min d (cycles * 5 / 64)
  .next (s.modClock fun c => { c with devBase := t, atCycle := s.now })

/-- A record of kind C to every context; its value is not stated. -/
def State.tellAll (s : State) (cause : Nat) : State :=
  s.ctxs.foldl (fun s c => ({ s with serial := s.serial + 1 } : State).contextRecord c.id cause (Config.freeValue s.serial).toNat) s

/-- EMERGENCY_THROTTLE_BEGIN (R401). -/
def execEmergencyThrottleBegin (s : State) : Host.Outcome State Fault Refusal :=
  .next (if s.hub.power.throttle then s else (s.modPower fun p => { p with throttle := true }).tellAll 95)

/-- EMERGENCY_THROTTLE_END (R401). -/
def execEmergencyThrottleEnd (s : State) : Host.Outcome State Fault Refusal :=
  .next (if s.hub.power.throttle then (s.modPower fun p => { p with throttle := false }).tellAll 95 else s)

/-- ORDERLY_SHUTDOWN (R401): the package is off 100 ms of the device clock later (R4). -/
def execOrderlyShutdown (s : State) : Host.Outcome State Fault Refusal :=
  .next (if s.hub.power.offAt.isSome then s else (s.modPower fun p => { p with offAt := some (s.wallTime + 100000000) }).tellAll 94)

/-- Has the time of power-off come? -/
def State.offDue (s : State) : Bool := s.hub.power.offAt.any fun t => decide (t ≤ s.wallTime)

/-- POWER_OFF (R401). -/
def execPowerOff (s : State) : Host.Outcome State Fault Refusal :=
  .next (if s.offDue then s.modPower fun p => { p with off := true } else s)

/-- PACKAGE_RESET (R402): everything as after reset; expanders and what lies beyond the ports keep their bytes, HBM reads as a
byte that nothing has written (log entry 1). The steps of the outside world still to come keep their distance in time. -/
def execPackageReset (s : State) : Host.Outcome State Fault Refusal :=
  let kept (k : Nat) : Bool := !isScratch k && spaceOf k != .hbm
  .next { State.reset with
    mem := { State.reset.mem with
      bytes := s.mem.bytes.filter fun (k, _) => kept k
      poison := s.mem.poison.filter fun (k, _) => kept (4 * k) }
    inbox := s.inbox.map fun (t, i) => (t - s.now, i)
    out := s.out
    draws := s.draws
    serial := s.serial
    nextId := s.nextId }

/-! ### SPDM 1.3 at the root of trust -/

def State.modTrust (s : State) (f : Trust → Trust) : State := { s with hub := { s.hub with trust := f s.hub.trust } }

/-- A response: its code as SPDM gives it, and bytes that depend on the part's keys and the transcript (free values). -/
def State.respond (s : State) (code : Nat) (req : List Byte) : State :=
  let t := s.hub.trust.transcript ++ req
  ({ s with out := s.out ++ [.spdm code (Config.trustBytes code t)] } : State).modTrust fun x => { x with transcript := t }

/-- An ERROR response to a request out of order, or for a chain or a block that does not exist. -/
def State.spdmError (s : State) : State := { s with out := s.out ++ [.spdm 0x7F []] }

/-- A request that is answered once the algorithms are negotiated. -/
def State.afterNegotiation (s : State) (ok : Bool) (code : Nat) (req : List Byte) : State :=
  if 3 ≤ s.hub.trust.stage && ok then s.respond code req else s.spdmError

/-- GET_VERSION (R397): begins a connection anew. -/
def execGetVersion (s : State) : Host.Outcome State Fault Refusal :=
  .next ((s.modTrust fun t => { t with stage := 1, session := false, pending := false, transcript := [] }).respond 0x04 [0x84])

/-- GET_CAPABILITIES (R397). -/
def execGetCapabilities (req : List Byte) (s : State) : Host.Outcome State Fault Refusal :=
  .next (if s.hub.trust.stage = 1 then (s.modTrust fun t => { t with stage := 2 }).respond 0x61 req else s.spdmError)

/-- NEGOTIATE_ALGORITHMS (R397). -/
def execNegotiateAlgorithms (req : List Byte) (s : State) : Host.Outcome State Fault Refusal :=
  .next (if s.hub.trust.stage = 2 then (s.modTrust fun t => { t with stage := 3 }).respond 0x63 req else s.spdmError)

/-- GET_DIGESTS (R397). -/
def execGetDigests (s : State) : Host.Outcome State Fault Refusal := .next (s.afterNegotiation true 0x01 [0x81])

/-- GET_CERTIFICATE (R397): one chain, in slot 0. -/
def execGetCertificate (slot offset len : Nat) (s : State) : Host.Outcome State Fault Refusal :=
  .next (s.afterNegotiation (slot == 0) 0x02 ([0x82] ++ toBytes 2 offset ++ toBytes 2 len))

/-- CHALLENGE (R397). -/
def execChallenge (slot : Nat) (nonce : List Byte) (s : State) : Host.Outcome State Fault Refusal :=
  .next (s.afterNegotiation (slot == 0) 0x03 ([0x83] ++ nonce))

/-- GET_MEASUREMENTS (R398): blocks 1 to 7 and 0xF0; 0 asks for their number and 0xFF for all of them. -/
def execGetMeasurements (index : Nat) (sign : Bool) (nonce : List Byte) (s : State) : Host.Outcome State Fault Refusal :=
  .next (s.afterNegotiation (decide (index ≤ 7) || index == 0xF0 || index == 0xFF) 0x60 (toBytes 2 (0xE0 + index * 256) ++ toBytes 1 (b2n sign) ++ nonce))

/-- KEY_EXCHANGE (R397): a session is being opened. -/
def execKeyExchange (req : List Byte) (s : State) : Host.Outcome State Fault Refusal :=
  .next (if 3 ≤ s.hub.trust.stage then (s.modTrust fun t => { t with pending := true }).respond 0x64 req else s.spdmError)

/-- FINISH (R397, R398): the session is open, and the tenant has attested the device. -/
def execFinish (req : List Byte) (s : State) : Host.Outcome State Fault Refusal :=
  .next (if s.hub.trust.pending then (s.modTrust fun t => { t with pending := false, session := true, attested := true }).respond 0x65 req else s.spdmError)

/-- END_SESSION (R397). -/
def execEndSession (s : State) : Host.Outcome State Fault Refusal :=
  .next (if s.hub.trust.session then (s.respond 0x6C [0xEC]).modTrust fun t => { t with session := false } else s.spdmError)

end Sys2Proof.Machine
end

