-- ==== Sys2Proof/Machine/Package.lean ====
section
/-! DEFINITION. The application package and its digest (R374-R376), and the loader that places it (R377, R378). -/

namespace Sys2Proof.Machine

/-! ### SHA-384 (R374: the digest; FIPS 180-4, which the spec names) -/

def shaK : List Dword :=
  [0x428A2F98D728AE22, 0x7137449123EF65CD, 0xB5C0FBCFEC4D3B2F, 0xE9B5DBA58189DBBC, 0x3956C25BF348B538,
   0x59F111F1B605D019, 0x923F82A4AF194F9B, 0xAB1C5ED5DA6D8118, 0xD807AA98A3030242, 0x12835B0145706FBE,
   0x243185BE4EE4B28C, 0x550C7DC3D5FFB4E2, 0x72BE5D74F27B896F, 0x80DEB1FE3B1696B1, 0x9BDC06A725C71235,
   0xC19BF174CF692694, 0xE49B69C19EF14AD2, 0xEFBE4786384F25E3, 0x0FC19DC68B8CD5B5, 0x240CA1CC77AC9C65] ++
  [0x2DE92C6F592B0275, 0x4A7484AA6EA6E483, 0x5CB0A9DCBD41FBD4, 0x76F988DA831153B5, 0x983E5152EE66DFAB,
   0xA831C66D2DB43210, 0xB00327C898FB213F, 0xBF597FC7BEEF0EE4, 0xC6E00BF33DA88FC2, 0xD5A79147930AA725,
   0x06CA6351E003826F, 0x142929670A0E6E70, 0x27B70A8546D22FFC, 0x2E1B21385C26C926, 0x4D2C6DFC5AC42AED,
   0x53380D139D95B3DF, 0x650A73548BAF63DE, 0x766A0ABB3C77B2A8, 0x81C2C92E47EDAEE6, 0x92722C851482353B] ++
  [0xA2BFE8A14CF10364, 0xA81A664BBC423001, 0xC24B8B70D0F89791, 0xC76C51A30654BE30, 0xD192E819D6EF5218,
   0xD69906245565A910, 0xF40E35855771202A, 0x106AA07032BBD1B8, 0x19A4C116B8D2D0C8, 0x1E376C085141AB53,
   0x2748774CDF8EEB99, 0x34B0BCB5E19B48A8, 0x391C0CB3C5C95A63, 0x4ED8AA4AE3418ACB, 0x5B9CCA4F7763E373,
   0x682E6FF3D6B2B8A3, 0x748F82EE5DEFB2FC, 0x78A5636F43172F60, 0x84C87814A1F0AB72, 0x8CC702081A6439EC] ++
  [0x90BEFFFA23631E28, 0xA4506CEBDE82BDE9, 0xBEF9A3F7B2C67915, 0xC67178F2E372532B, 0xCA273ECEEA26619C,
   0xD186B8C721C0C207, 0xEADA7DD6CDE0EB1E, 0xF57D4F7FEE6ED178, 0x06F067AA72176FBA, 0x0A637DC5A2C898A6,
   0x113F9804BEF90DAE, 0x1B710B35131C471B, 0x28DB77F523047D84, 0x32CAAB7B40C72493, 0x3C9EBE0A15C9BEBC,
   0x431D67C49C100D4C, 0x4CC5D4BECB3E42B6, 0x597F299CFC657E2A, 0x5FCB6FAB3AD6FAEC, 0x6C44198C4A475817]

def shaStart : List Dword :=
  [0xCBBB9D5DC1059ED8, 0x629A292A367CD507, 0x9159015A3070DD17, 0x152FECD8F70E5939,
   0x67332667FFC00B31, 0x8EB44A8768581511, 0xDB0C2E0D64F98FA7, 0x47B5481DBEFA4FA4]

/-- A big-endian doubleword of a block. -/
def beDword (bs : List Byte) (i : Nat) : Dword := BitVec.ofNat 64 (ofBytes ((bs.drop (8 * i)).take 8).reverse)

/-- The 80 words of a block's schedule, latest first. -/
def shaSchedule (block : List Byte) : Nat → List Dword
  | 0 => (List.range 16).reverse.map (beDword block)
  | n + 1 =>
    let w := shaSchedule block n
    let at_ (i : Nat) : Dword := w.getD i 0
    let s0 (x : Dword) : Dword := x.rotateRight 1 ^^^ x.rotateRight 8 ^^^ (x >>> 7)
    let s1 (x : Dword) : Dword := x.rotateRight 19 ^^^ x.rotateRight 61 ^^^ (x >>> 6)
    (s1 (at_ 1) + at_ 6 + s0 (at_ 14) + at_ 15) :: w

/-- One round. -/
def shaRound (h : List Dword) (kw : Dword × Dword) : List Dword :=
  let v (i : Nat) : Dword := h.getD i 0
  let (a, b, c, e, f, g) := (v 0, v 1, v 2, v 4, v 5, v 6)
  let t1 := v 7 + (e.rotateRight 14 ^^^ e.rotateRight 18 ^^^ e.rotateRight 41) + ((e &&& f) ^^^ (~~~e &&& g)) + kw.1 + kw.2
  let t2 := (a.rotateRight 28 ^^^ a.rotateRight 34 ^^^ a.rotateRight 39) + ((a &&& b) ^^^ (a &&& c) ^^^ (b &&& c))
  [t1 + t2, a, b, c, v 3 + t1, e, f, g]

/-- One block. -/
def shaBlock (h : List Dword) (block : List Byte) : List Dword :=
  ((shaK.zip (shaSchedule block 64).reverse).foldl shaRound h).zipWith (· + ·) h

/-- The blocks of a padded message. -/
def shaBlocks (h : List Dword) (bs : List Byte) : Nat → List Dword
  | 0 => h
  | n + 1 => shaBlocks (shaBlock h (bs.take 128)) (bs.drop 128) n

/-- The first 32 bytes of a message's SHA-384. -/
def shaPrefix (bs : List Byte) : List Byte :=
  let n := bs.length
  let total := (n + 17 + 127) / 128 * 128
  let padded := bs ++ [0x80] ++ List.replicate (total - n - 17) 0 ++ (toBytes 16 (8 * n)).reverse
  ((shaBlocks shaStart padded (total / 128)).take 4).flatMap fun h => (toBytes 8 h.toNat).reverse

/-! ### Kernel table entries (R375) -/

/-- Where the operating system puts what a package brings: landing table, stubs and code, data; the heap's capacity in bytes. -/
structure Placement where
  landing : Nat
  code : Nat
  data : Nat
  heap : Nat
deriving DecidableEq, Repr

/-- A part of a package, if it lies inside it. -/
def part (bs : List Byte) (off n : Nat) : Option (List Byte) := if off + n ≤ bs.length then some ((bs.drop off).take n) else none

/-- A number in a package. -/
def num (bs : List Byte) (off n : Nat) : Nat := ofBytes ((bs.drop off).take n)

/-- One kernel of a package: its entry fields. -/
structure KernelEntry where
  code : List Byte
  data : List Byte
  profile : List Byte
  tasks : List (Nat × Nat)
  macros : List (Nat × List Word)
  relocs : List (Nat × Nat × Nat)
deriving DecidableEq, Repr

/-- A name of 1 to 255 bytes ended by a zero byte. -/
def nameOk (bs : List Byte) (off : Nat) : Bool :=
  let n := ((bs.drop off).take 256).findIdx? (· == 0)
  n.any fun k => decide (1 ≤ k)

/-- The `.task` entries of a profile block. -/
def parseTasks (bs : List Byte) (off : Nat) : Option (List (Nat × Nat)) :=
  let n := num bs (off + 128) 4
  let ts := (List.range n).map fun i => (num bs (off + 132 + 8 * i) 4, num bs (off + 136 + 8 * i) 4)
  if off + 132 + 8 * n ≤ bs.length && ts.all fun t => decide (t.2 ≤ 8) then some ts else none

/-- The macros of a macro block. -/
def parseMacros (bs : List Byte) (off : Nat) : Option (List (Nat × List Word)) :=
  if off = 0 then some []
  else
    let mask := num bs off 16
    let is := (List.range 128).filter fun i => bit mask i
    if off + 16 + 128 * is.length ≤ bs.length then
      some (is.zipIdx.map fun (i, j) => (i, (List.range 32).map fun w => BitVec.ofNat 32 (num bs (off + 16 + 128 * j + 4 * w) 4)))
    else none

/-- The relocations of a relocation block, each inside its code or data. -/
def parseRelocs (bs : List Byte) (off codelen datalen kcount : Nat) : Option (List (Nat × Nat × Nat)) :=
  if off = 0 then some []
  else
    let n := num bs off 4
    let rs := (List.range n).map fun i => (num bs (off + 4 + 12 * i) 4, num bs (off + 8 + 12 * i) 4, num bs (off + 12 + 12 * i) 4)
    let ok (r : Nat × Nat × Nat) : Bool :=
      let (place, kind, value) := r
      let room := if bit place 31 then datalen else codelen
      match kind with
      | 0 => decide (place % 2 ^ 31 + 8 ≤ room) && decide (value ≤ codelen)
      | 1 => decide (place % 2 ^ 31 + 8 ≤ room) && decide (value ≤ datalen)
      | 2 => decide (place % 2 ^ 31 + 4 ≤ room) && decide (value < kcount)
      | _ => false
    if off + 4 + 12 * n ≤ bs.length && rs.all ok then some rs else none

/-- The fields of a launch record that are 0 in a profile block. -/
def profileZeros (p : Profile) (bs : List Byte) : Bool :=
  p.groups == 0 && p.maxGroups == 0 && p.spill == 0 && p.sync == 0 && p.counter == 0 && num bs 80 4 == 0 && p.args.all (· == 0)

/-- A kernel table entry and its blocks (Table 17-6), if they keep the rules of R375. -/
def parseKernel (bs : List Byte) (off kcount : Nat) : Option KernelEntry :=
  let f (i : Nat) : Nat := num bs (off + 4 * i) 4
  let (code, codelen, data, datalen, prof, macs, rel) := (f 1, f 2, f 3, f 4, f 5, f 6, f 7)
  if bs.length < off + 32 || !nameOk bs (f 0) || code % 4096 != 0 || codelen % 4 != 0 || data % 4096 != 0 || (datalen == 0 && data != 0) ||
    prof % 64 != 0 || macs % 16 != 0 || rel % 4 != 0 then none
  else match part bs code codelen, part bs data datalen, part bs prof 128, parseTasks bs prof, parseMacros bs macs, parseRelocs bs rel codelen datalen kcount with
  | some c, some d, some p, some ts, some ms, some rs =>
    let x := parseProfile p
    let inCode (o : Nat) : Bool := decide (o < codelen) && o % 4 == 0
    if recordMbz p || !profileZeros x p || !inCode x.entry || (x.trapEntry != 0 && !inCode (x.trapEntry - 1)) || !ts.all (fun t => inCode t.1) then none
    else some ⟨c, d, p, ts, ms, rs⟩
  | _, _, _, _, _, _ => none

/-- The whole kernel table, if every entry is well formed. -/
def parseKernels (bs : List Byte) (ktab kcount : Nat) : Option (List KernelEntry) :=
  (List.range kcount).foldr (fun i acc => match parseKernel bs (ktab + 32 * i) kcount, acc with
    | some k, some ks => some (k :: ks)
    | _, _ => none) (some [])

/-- Is a macro index used by two kernels with different bodies (R20)? -/
def macrosClash (ks : List KernelEntry) : Bool :=
  let all := ks.flatMap (·.macros)
  all.any fun (i, w) => all.any fun (j, v) => i == j && w != v

/-- A package (Table 17-5), if loadpkg accepts it. -/
def parsePackage (bs : List Byte) : Option (List KernelEntry × Nat) :=
  let (kcount, fcount) := (num bs 24 4, num bs 28 4)
  if bs.length < 64 || num bs 0 4 != 0x4B505659 || num bs 4 2 != 1 || 1 < num bs 6 2 || kcount = 0 || 4096 < kcount || fcount = 0 || 65536 < fcount ||
    fcount < kcount || shaPrefix (bs.drop 64) != (bs.drop 32).take 32 then none
  else match parseKernels bs (num bs 16 8) kcount with
  | some ks => if macrosClash ks then none else some (ks, fcount)
  | none => none

/-! ### Placing -/

/-- Bytes with some replaced from an offset on. -/
def patch (bs : List Byte) (off : Nat) (new : List Byte) : List Byte := bs.take off ++ new ++ bs.drop (off + new.length)

/-- A kernel's code and data with the relocations made, for a code base, a data base and the landing index of kernel 0. -/
def KernelEntry.relocate (k : KernelEntry) (code data index : Nat) : List Byte × List Byte :=
  k.relocs.foldl (fun (c, d) (place, kind, value) =>
    let new := match kind with
      | 0 => toBytes 8 (code + value)
      | 1 => toBytes 8 (data + value)
      | _ => toBytes 4 (8 * (index + value))
    if bit place 31 then (c, patch d (place % 2 ^ 31) new) else (patch c place new, d)) (k.code, k.data)

/-- A function's stub: the word `trap` and its literal 0x4C000000 + i (R378). -/
def stubBytes (i : Nat) : List Byte := toBytes 4 0xB0603F80 ++ toBytes 4 (0x4C000000 + i)

/-- One kernel comes to be: its stub, its landing entry, its data; its code waits for its first use. -/
def State.addKernel (s : State) (ctx : Nat) (pl : Placement) (index first code data : Nat) (k : KernelEntry) : State :=
  let (c, d) := k.relocate code data first
  let p := parseProfile k.profile
  let p := { p with entry := code + p.entry, trapEntry := if p.trapEntry = 0 then 0 else code + p.trapEntry - 1 }
  let stub := pl.code + 8 * index
  let kernel : Kernel := ⟨ctx, p, k.tasks.map fun (o, n) => (code + o, n), k.macros, index, stub, code, c, false, 0⟩
  let s := ((s.writeVa ctx stub (stubBytes index)).writeVa ctx (pl.landing + 8 * index) (toBytes 8 stub)).writeVa ctx data
    (d ++ List.replicate (roundUp d.length 4096 - d.length) 0)
  { s with disp := { s.disp with kernels := s.disp.kernels ++ [kernel] } }

/-- The kernels of a package, one after the other in whole pages. -/
def State.addKernels (s : State) (ctx : Nat) (pl : Placement) (first : Nat) : List KernelEntry → Nat → Nat → Nat → State
  | [], _, _, _ => s
  | k :: ks, index, code, data =>
    (s.addKernel ctx pl index first code data k).addKernels ctx pl first ks (index + 1) (code + roundUp k.code.length 4096) (data + roundUp k.data.length 4096)

/-- Loading a package for a context: its kernels take the next landing indices (R377). -/
def State.placePackage (s : State) (ctx : Nat) (pl : Placement) (ks : List KernelEntry) (fcount : Nat) : State :=
  let first := (s.disp.kernels.filter fun k => k.ctx == ctx).length
  let pl := if first = 0 then pl else { pl with landing := ((s.ctx? ctx).map (·.landing)).getD pl.landing }
  let s := s.modCtx ctx fun c => { c with landing := pl.landing, heapEnd := max c.heapEnd pl.heap }
  s.addKernels ctx pl first ks first (roundUp (pl.code + 8 * (first + fcount)) 4096) pl.data

end Sys2Proof.Machine
end

