-- ==== Sys2Proof/Machine/Calls.lean ====
section
/-! DEFINITION. System calls (R370-R373, Table 17-3) and live migration (R380). Where a call leaves a choice to the operating
system (which frames, which queue entry, where a package goes), the choice comes with the call. -/

namespace Sys2Proof.Machine

/-! ### Processes and the reply cache (R372, R373) -/

def Proc.blank (ctx : Nat) : Proc := ⟨ctx, [], 0, [], [], [], [], none, false, none⟩
def State.proc (s : State) (ctx : Nat) : Proc := (s.hub.procs.find? fun p => p.ctx == ctx).getD (Proc.blank ctx)
def State.modProc (s : State) (ctx : Nat) (f : Proc → Proc) : State :=
  if s.hub.procs.any fun p => p.ctx == ctx then { s with hub := { s.hub with procs := modifyWhere (fun p => p.ctx == ctx) f s.hub.procs } }
  else { s with hub := { s.hub with procs := s.hub.procs ++ [f (Proc.blank ctx)] } }

/-- A hart that waits for a call gets its result in a0 and goes on after its ECALL (R370). -/
def Hart.answered (h : Hart) (ctx : Nat) (id : Dword) (r : Dword) : Hart :=
  if h.calling = some (ctx, id) then { h with calling := none, x := h.x.set 10 r, pc := h.pc + 4 } else h

/-- A call's reply reaches the caller. -/
def State.reply (s : State) (ctx : Nat) (id : Dword) (r : Int) : State :=
  { s with
    out := s.out ++ [.reply ctx id (BitVec.ofInt 64 r)]
    hub := { s.hub with harts := s.hub.harts.map fun (k, h) => (k, h.answered ctx id (BitVec.ofInt 64 r)) } }

/-- The entries of a reply cache. -/
def cacheSize : Nat := 65536

/-- Committing a result; when the cache is full, the oldest entry is dropped. -/
def Proc.commit (p : Proc) (q : Nat) (v : Dword) : Proc :=
  match p.cache with
  | (k, _) :: rest =>
    if cacheSize ≤ p.cache.length then { p with cache := rest ++ [(q, v)], lowest := max p.lowest (k + 1) } else { p with cache := p.cache ++ [(q, v)] }
  | [] => { p with cache := [(q, v)] }

def State.commit (s : State) (ctx q : Nat) (r : Int) : State := s.modProc ctx fun p => p.commit q (BitVec.ofInt 64 r)

/-- The recorded result of an identifier. -/
def Proc.recorded (p : Proc) (q : Nat) : Option Dword := (p.cache.find? fun x => x.1 == q).map (·.2)

/-- The result of a call with an identifier (R373): `perform` gives the result and the effect; a process that has ended or is frozen gets
none. Identifiers are held to be the older the smaller they are. -/
def State.callResult (s : State) (ctx : Nat) (id : Dword) (once : Bool) (perform : State → Int × State) : Option Int × State :=
  let p := s.proc ctx
  let q := id.toNat % 2 ^ 63
  let retry := bit id.toNat 63
  if p.ended.isSome || p.frozen then (none, s)
  else if q = 0 then
    if once then (some (-2), s)
    else
      let (r, s) := perform s
      (some r, s)
  else match p.recorded q with
  | some v => (some v.toInt, s)
  | none =>
    if retry then
      if q < p.lowest then (some (-6), s) else (some (-1), s.commit ctx q (-1))
    else
      let (r, s) := perform s
      (some r, s.commit ctx q r)

/-- A call whose result reaches its caller. -/
def State.call (s : State) (ctx : Nat) (id : Dword) (once : Bool) (perform : State → Int × State) : State :=
  match s.callResult ctx id once perform with
  | (some r, s) => s.reply ctx id r
  | (none, s) => s

/-! ### Plain calls -/

/-- NULL (R371). -/
def execNullCall (ctx : Nat) (id : Dword) (s : State) : Host.Outcome State Fault Refusal := .next (s.call ctx id false fun s => (0, s))

/-- TIME (R418). -/
def execTimeCall (ctx : Nat) (id : Dword) (s : State) : Host.Outcome State Fault Refusal := .next (s.call ctx id false fun s => (s.deviceTime, s))

/-- LAUNCH_CALL (R445): the handle, or −2, −3 for CODE_HEAP_FULL, −4 for a record that cannot be read and written. -/
def State.callLaunch (s : State) (ctx record : Nat) : Int × State :=
  if record % 64 != 0 then (-2, s)
  else match s.readRecord ctx record Need.rw 2 with
  | .error _ => (-4, s)
  | .ok bs => match s.startGrid ctx record bs none with
    | (.ok id, s) => (id, s.modProc ctx fun p => { p with handles := p.handles ++ [(id, id)] })
    | (.error c, s) => (if c = 84 then -3 else -2, s)

def execLaunchCall (ctx : Nat) (id : Dword) (record : Nat) (s : State) : Host.Outcome State Fault Refusal :=
  .next (s.call ctx id true fun s => s.callLaunch ctx record)

/-- LAUNCHWAIT (R371): 0 when the launch is complete, 1 while it runs. -/
def State.callLaunchwait (s : State) (ctx handle : Nat) : Int :=
  match (s.proc ctx).handles.find? fun h => h.1 == handle with
  | none => -2
  | some (_, w) => if (s.work? w).isSome then 1 else 0

def execLaunchwait (ctx : Nat) (id handle : Dword) (s : State) : Host.Outcome State Fault Refusal :=
  .next (s.call ctx id false fun s => (s.callLaunchwait ctx handle.toNat, s))

/-- LOG (R371): the bytes written. -/
def State.callLog (s : State) (ctx va len : Nat) : Int × State :=
  if !isTranslated (va + len) || (List.range len).any fun i => (s.keyOf Config.tiles ctx (va + i)).isNone then (-2, s)
  else (len, s.modProc ctx fun p => { p with log := p.log ++ s.peek Config.tiles ctx va len })

def execLogCall (ctx : Nat) (id : Dword) (va len : Nat) (s : State) : Host.Outcome State Fault Refusal :=
  .next (s.call ctx id false fun s => s.callLog ctx va len)

/-- EXIT_CALL (R371): the process's context and queues end; the call does not return. -/
def State.callExit (s : State) (ctx : Nat) (code : Dword) : State :=
  let p := s.proc ctx
  let s := p.queues.foldl (fun s h => if handleKind h = 0 then s.modQueue (handleTile h) (handleEntry h) fun q => { q with valid := false } else s) s
  (s.killContext ctx).modProc ctx fun p => { p with ended := some code, handles := [], queues := [], threads := [] }

/-- EXIT_CALL with its identifier. -/
def State.exitCall (s : State) (ctx : Nat) (id code : Dword) : State :=
  let p := s.proc ctx
  if p.ended.isSome || p.frozen then s else if id.toNat % 2 ^ 63 = 0 then s.reply ctx id (-2) else s.callExit ctx code

def execExitCall (ctx : Nat) (id code : Dword) (s : State) : Host.Outcome State Fault Refusal := .next (s.exitCall ctx id code)

/-! ### Pages (Table 15-1) -/

/-- Storing a page-table entry. -/
def State.setPte (s : State) (at_ v : Nat) : State := s.memStore at_ ((toBytes 8 v).map (·, false))

/-- A page's level-0 entry: tables that are not there are made of the frames given, cleared. -/
def State.tableFor (s : State) (va : Nat) : Nat → Nat → List Nat → Option (Nat × List Nat × State)
  | 0, table, fs => some (table + 8 * (va / 4096 % 512), fs, s)
  | level + 1, table, fs =>
    let at_ := table + 8 * (va / (4096 * 512 ^ (level + 1)) % 512)
    let e := s.mem.nat at_ 8
    if bit e 63 then if bit e 1 then none else s.tableFor va level (bits e 47 12 * 4096) fs
    else match fs with
      | [] => none
      | f :: rest => ((s.memStore f (List.replicate 4096 (0, false))).setPte at_ (2 ^ 63 + f)).tableFor va level f rest

/-- Mapping pages from `va` up, each to the next frame. -/
def State.mapPages (s : State) (root va attr : Nat) : Nat → List Nat → Option State
  | 0, _ => some s
  | n + 1, fs => match s.tableFor va 3 root fs with
    | some (at_, f :: rest, s) =>
      if bit (s.mem.nat at_ 8) 63 || f % 4096 != 0 || !frameLegal f then none
      else (s.setPte at_ (attr * 2 ^ 48 + f + 2)).mapPages root (va + 4096) attr n rest
    | _ => none

/-- An entry carries no tag but tag 0 and the process's own (R369). -/
def tagAllowed (attr tag : Nat) : Bool := attr % 256 == 0 || attr % 256 == tag

/-- Does a leaf under a table name the frame with a tag that is neither 0 nor `tag` (R318, R369)? -/
def taggedUnder (m : Mem) (f tag : Nat) : Nat → Nat → Bool
  | 0, table => (List.range 512).any fun i =>
    let e := m.nat (table + 8 * i) 8
    bit e 63 && bits e 55 48 != 0 && bits e 55 48 != tag && bits e 47 12 == f / 4096
  | level + 1, table => (List.range 512).any fun i =>
    let e := m.nat (table + 8 * i) 8
    bit e 63 && (if bit e 1 then bits e 55 48 != 0 && bits e 55 48 != tag && bits e 47 12 / 512 ^ (level + 1) == f / 4096 / 512 ^ (level + 1)
      else taggedUnder m f tag level (bits e 47 12 * 4096))

/-- Is a frame tagged for a process of another tag (R369): does a leaf of some context's table name it so? -/
def State.frameOfOther (s : State) (tag f : Nat) : Bool :=
  s.ctxs.any fun c => bit c.root.toNat 0 && taggedUnder s.mem f tag 3 (bits c.root.toNat 47 12 * 4096)

/-- MAP (R371): valid attributes without C64; −4 for another tenant's tag or a frame tagged for another tenant (R369), −3 when frames run out or a page is already there. -/
def State.callMap (s : State) (ctx va pages : Nat) (attr : Dword) (frames : List Nat) : Int × State :=
  let a := attr.toNat
  match s.ctx? ctx with
  | none => (-2, s)
  | some c =>
    if va % 4096 != 0 || pages = 0 || !isTranslated (va + 4096 * pages - 1) || 2 ^ 16 ≤ a || !bit a 15 || bit a 8 || !bit c.root.toNat 0 then (-2, s)
    else if !tagAllowed a c.tag || frames.any (s.frameOfOther c.tag) then (-4, s)
    else match s.mapPages (bits c.root.toNat 47 12 * 4096) va a pages frames with
    | some s => (0, s)
    | none => (-3, s)

def execMapCall (ctx : Nat) (id : Dword) (va pages : Nat) (attr : Dword) (frames : List Nat) (s : State) : Host.Outcome State Fault Refusal :=
  .next (s.call ctx id true fun s => s.callMap ctx va pages attr frames)

/-- The level-0 entry of a page, if the tables above it are there. -/
def entryOf (m : Mem) (va : Nat) : Nat → Nat → Option Nat
  | 0, table => some (table + 8 * (va / 4096 % 512))
  | level + 1, table =>
    let e := m.nat (table + 8 * (va / (4096 * 512 ^ (level + 1)) % 512)) 8
    if bit e 63 && !bit e 1 then entryOf m va level (bits e 47 12 * 4096) else none

/-- UNMAP (R371): a TLBINV on each tile follows before a frame is used again (R334). -/
def State.callUnmap (s : State) (ctx va pages : Nat) : Int × State :=
  match s.ctx? ctx with
  | none => (-2, s)
  | some c =>
    if va % 4096 != 0 || pages = 0 || !isTranslated (va + 4096 * pages - 1) || !bit c.root.toNat 0 then (-2, s)
    else (0, (List.range pages).foldl (fun s i => match entryOf s.mem (va + 4096 * i) 3 (bits c.root.toNat 47 12 * 4096) with
      | some at_ => s.setPte at_ 0
      | none => s) s)

def execUnmap (ctx : Nat) (id : Dword) (va pages : Nat) (s : State) : Host.Outcome State Fault Refusal :=
  .next (s.call ctx id true fun s => s.callUnmap ctx va pages)

/-! ### Queues (Table 21-1) -/

def queueHandle (kind tile entry gen : Nat) : Nat := kind * 2 ^ 30 + tile * 2 ^ 21 + entry * 2 ^ 15 + gen

/-- A queue handle is the process's. -/
def State.ownQueue (s : State) (ctx h : Nat) : State := s.modProc ctx fun p => { p with queues := p.queues ++ [BitVec.ofNat 32 h] }

/-- QCREATE (R425): `args` holds the words, and then what the operating system chooses: for a tile queue the tile, entry, base,
scope and ext; for a thread queue the thread; for a link queue the entry, ring, bell and credit. -/
def State.callQcreate (s : State) (ctx kind : Nat) (args : List Dword) : Int × State :=
  let a (i : Nat) : Nat := (args.getD i 0).toNat
  let made (h : Nat) (s : State) : Int × State := (h, s.ownQueue ctx h)
  if kind = 0 then
    if a 0 = 0 || 4096 < a 0 || Config.tiles ≤ a 1 || 64 ≤ a 2 || 4 ≤ a 4 then (-2, s)
    else
      let old := s.queue (a 1) (a 2)
      let gen := (old.gen + 1) % 2 ^ 15
      let hi := 2 ^ 63 + (a 5 % 2) * 2 ^ 62 + ctx * 2 ^ 45 + gen * 2 ^ 30 + a 4 * 2 ^ 28 + (a 0 - 1) * 2 ^ 16 + a 3 / 16 % 2 ^ 16
      if old.valid then (-3, s)
      else
        let s := s.writeQueue (a 1) (a 2) (BitVec.ofNat 64 hi)
        if (s.queue (a 1) (a 2)).valid then made (queueHandle 0 (a 1) (a 2) gen) s else (-3, s)
  else if kind = 1 then
    match s.ctx? ctx with
    | none => (-2, s)
    | some c => match fget 0 c.rights (a 1 % 64) with
      | 0 => (-4, s)
      | g + 1 => made (queueHandle 1 0 (a 1 % 64) g) s
  else if kind = 2 then
    if a 0 = 0 || 4096 < a 0 || 64 ≤ a 1 || a 2 % 4 != 0 || a 3 % 8 != 0 || a 4 % 8 != 0 || !isWindow (a 2) then (-2, s)
    else
      let old := s.link ctx (a 1)
      let gen := (old.gen + 1) % 2 ^ 15
      if old.valid then (-3, s)
      else made (queueHandle 2 0 (a 1) gen) (s.modLink ctx (a 1) fun _ =>
        { LinkQueue.none with
          q0 := BitVec.ofNat 64 (2 ^ 63 + (a 0 - 1) * 2 ^ 48 + a 2)
          q1 := BitVec.ofNat 64 (gen * 2 ^ 48 + a 3 % 2 ^ 48)
          q2 := BitVec.ofNat 64 (a 4 % 2 ^ 48) })
  else (-2, s)

def execQcreate (ctx : Nat) (id : Dword) (kind : Nat) (args : List Dword) (s : State) : Host.Outcome State Fault Refusal :=
  .next (s.call ctx id true fun s => s.callQcreate ctx kind args)

/-- QDESTROY (R371): the process's own queue; its entry loses its valid bit. -/
def State.callQdestroy (s : State) (ctx : Nat) (handle : Dword) : Int × State :=
  let h : Word := handle.extractLsb' 0 32
  if !(s.proc ctx).queues.contains h || 2 ^ 32 ≤ handle.toNat then (-2, s)
  else
    let s := s.modProc ctx fun p => { p with queues := p.queues.erase h }
    (0, match handleKind h with
      | 0 => s.modQueue (handleTile h) (handleEntry h) fun q => { q with valid := false }
      | 2 => s.modLink ctx (handleEntry h) fun q => { q with q0 := q.q0 &&& 0x7FFFFFFFFFFFFFFF }
      | _ => s)

def execQdestroy (ctx : Nat) (id handle : Dword) (s : State) : Host.Outcome State Fault Refusal :=
  .next (s.call ctx id true fun s => s.callQdestroy ctx handle)

/-- BINDTHREAD (R365, R425): a push right to one of the process's own threads, of the next generation. -/
def State.callBindthread (s : State) (ctx thread : Nat) : Int × State :=
  if thread < 4 || 64 ≤ thread || (s.ctx? ctx).isNone then (-2, s)
  else if s.hub.procs.any fun p => p.ctx != ctx && p.threads.contains thread then (-4, s)
  else
    let s := s.modProc ctx fun p => { p with threads := if p.threads.contains thread then p.threads else p.threads ++ [thread] }
    (0, s.modCtx ctx fun c => { c with rights := fput 0 c.rights thread (fget 0 c.rights thread % 2 ^ 15 + 1) })

def execBindthread (ctx : Nat) (id : Dword) (thread : Nat) (s : State) : Host.Outcome State Fault Refusal :=
  .next (s.call ctx id true fun s => s.callBindthread ctx thread)

/-! ### The Timetable and packages -/

/-- TIMETABLE_CALL (R464): an entry of the caller's context; its first slot is the next multiple of its period. -/
def State.callTimetable (s : State) (ctx entry : Nat) (hi lo : Dword) : Int × State :=
  let e : TimeEntry := { TimeEntry.none with hi := hi &&& 0xFFFFFE0000000001, lo := lo }
  let old := s.timeEntry entry
  if 256 ≤ entry then (-2, s)
  else if (old.valid && old.ctx != ctx) || (e.valid && e.ctx != ctx) then (-4, s)
  else if !e.valid then (0, s.modEntry entry fun _ => TimeEntry.none)
  else if e.rule = 3 || e.period = 0 || 1000000 < e.period || !isTranslated e.record || e.record % 64 != 0 then (-2, s)
  else (0, s.modEntry entry fun x => { e with last := x.last, next := (s.deviceTime / (1000 * e.period) + 1) * (1000 * e.period) })

def execTimetableCall (ctx : Nat) (id : Dword) (entry : Nat) (hi lo : Dword) (s : State) : Host.Outcome State Fault Refusal :=
  .next (s.call ctx id true fun s => s.callTimetable ctx entry hi lo)

/-- LOADPKG (R374): `args` holds the package's address and length, and then where the operating system puts its parts. -/
def State.callLoadpkg (s : State) (ctx : Nat) (args : List Dword) : Int × State :=
  let a (i : Nat) : Nat := (args.getD i 0).toNat
  let (va, len) := (a 0, a 1)
  if (s.ctx? ctx).isNone || va % 4096 != 0 || !isTranslated (va + len) || (List.range len).any fun i => (s.keyOf Config.tiles ctx (va + i)).isNone then (-2, s)
  else match parsePackage (s.peek Config.tiles ctx va len) with
  | none => (-2, s)
  | some (ks, fcount) =>
    let (h, s) := fresh (s.placePackage ctx ⟨a 2, a 3, a 4, a 5⟩ ks fcount)
    (h, s.modProc ctx fun p => { p with handles := p.handles ++ [(h, 0)] })

def execLoadpkg (ctx : Nat) (id : Dword) (args : List Dword) (s : State) : Host.Outcome State Fault Refusal :=
  .next (s.call ctx id true fun s => s.callLoadpkg ctx args)

/-! ### Live migration (R380) -/

/-- The process goes on where it is. -/
def State.thaw (s : State) (ctx : Nat) : State := s.modProc ctx fun p => { p with frozen := false, migrating := none }

/-- MIGRATE's effect: the process freezes and every team of its context is pre-empted. -/
def State.migrateCall (s : State) (ctx : Nat) (id : Dword) : State :=
  let p := s.proc ctx
  let q := id.toNat % 2 ^ 63
  if p.ended.isSome || p.frozen then s
  else if q = 0 || (p.recorded q).isSome || bit id.toNat 63 then s.call ctx id true fun s => (-1, s)
  else
    let stop (t : Team) : Team := if t.id.ctx = ctx then { t with sched := { t.sched with preempt := true } } else t
    ({ s with cur := stop s.cur, teams := s.teams.map stop } : State).modProc ctx fun p => { p with frozen := true, migrating := some q }

/-- MIGRATE (R380). -/
def execMigrate (ctx : Nat) (id target : Dword) (s : State) : Host.Outcome State Fault Refusal :=
  let _ := target
  .next (s.migrateCall ctx id)

/-- Has a frozen context drained: no team resident, nothing held, nothing on its way? -/
def State.drained (s : State) (ctx : Nat) : Bool :=
  !(s.allTeams.any fun t => t.id.ctx == ctx) && !(s.coolbox.any fun e => e.ctx == ctx) && !(s.net.any fun x => x.ctx == ctx) &&
  !(s.homeHolds.any fun h => h.reply.ctx == ctx) && !s.hub.outstanding.any fun o => o.item.ctx == ctx

/-- The stream of a drained process leaves (its bytes' layout is not given: free values), or fails, which one the spec leaves
open: then the process goes on here and the call returns −1. -/
def State.migrateStep (s : State) : Option State :=
  (s.hub.procs.find? fun p => p.frozen && p.migrating.isSome && s.drained p.ctx).map fun p =>
    let (d, s) := draw s
    let q := p.migrating.getD 0
    if d = 0 then
      ({ s with out := s.out ++ [.stream p.ctx (Config.trustBytes 0x10000 (toBytes 8 s.serial))], serial := s.serial + 1 } : State).modProc p.ctx
        fun p => { p with migrating := none }
    else ((s.thaw p.ctx).commit p.ctx q (-1)).reply p.ctx (BitVec.ofNat 64 q) (-1)

/-- A context image header that this part accepts (Table 22-11, R470). -/
def imageOk (bs : List Byte) : Bool :=
  decide (64 ≤ bs.length) && num bs 0 4 == 0x49435659 && decide (num bs 4 2 ≤ 1) && decide (num bs 6 2 ≤ 1) && num bs 56 8 == 0

/-- MIGRATION_STREAM (R380, R470): a later image is refused, with the status of IMAGE_VERSION (kind L, R199), and nothing is admitted; else the addresses are
announced and the process resumes, its teams being readmitted. -/
def execMigrationStream (ctx : Nat) (image : List Byte) (s : State) : Host.Outcome State Fault Refusal :=
  if !imageOk image then .next { s with out := s.out ++ [.refusal ctx (0x100 + 92)] }
  else .next ((({ s.setCtx ctx id with out := s.out ++ [.announce ctx] } : State).thaw ctx))

/-- RESUMPTION_CONFIRMED (R380): the source releases the process's resources. -/
def execResumptionConfirmed (ctx : Nat) (s : State) : Host.Outcome State Fault Refusal :=
  .next (if s.frozen ctx then
      let s := s.killContext ctx
      { s with
        hub := { s.hub with procs := s.hub.procs.filter fun p => p.ctx != ctx }
        disp := { s.disp with timetable := s.disp.timetable.filter fun (_, e) => e.ctx != ctx, kernels := s.disp.kernels.filter fun k => k.ctx != ctx }
        ctxs := s.ctxs.filter fun c => c.id != ctx }
    else s)

end Sys2Proof.Machine
end

