-- ==== Sys2Proof/Machine/Special.lean ====
section
/-! DEFINITION. The special functions (R171-R173).  Outside Table 7-8 a result is any value within the bound of Table
7-7 of the exact one: which of them is a free value (`Config.specialPick`).  The exact value is bracketed by a
fixed-point series far more precise than the format. -/

namespace Sys2Proof.Machine

/-- The functions of Table 7-7. -/
inductive Func where
  | sinpi
  | cospi
  | exp2
  | log2
  | rcpa
  | rsqa
  | tanh
deriving DecidableEq, Repr

/-- The number of a function, by opcode. -/
def Func.code : Func → Nat
  | .sinpi => 0
  | .cospi => 1
  | .exp2 => 2
  | .log2 => 3
  | .rcpa => 4
  | .rsqa => 5
  | .tanh => 6

/-- The bound in ulps (Table 7-7). -/
def Func.ulps : Func → Nat
  | .rsqa | .tanh => 2
  | _ => 1

/-- The sum of z^k / k! from a term on, `p` fraction bits, until the terms vanish. -/
def expFrom (p z : Nat) : Nat → Nat → Nat → Nat → Nat
  | 0, _, _, acc => acc
  | n + 1, k, t, acc => if t = 0 then acc else expFrom p z n (k + 1) (t * z / 2 ^ p / (k + 1)) (acc + t)

/-- e^z for `z` with `p` fraction bits. -/
def expFix (p z : Nat) : Nat := expFrom p z (2 * p + 200) 0 (2 ^ p) 0

/-- The alternating sine series from a term on: positive terms less negative ones. -/
def sinFrom (p z2 : Nat) : Nat → Nat → Nat → Int → Bool → Int
  | 0, _, _, acc, _ => acc
  | n + 1, k, t, acc, plus =>
    if t = 0 then acc
    else sinFrom p z2 n (k + 2) (t * z2 / 2 ^ p / ((k + 1) * (k + 2))) (if plus then acc + t else acc - t) (!plus)

/-- sin z for `z` with `p` fraction bits, at most π/2. -/
def sinFix (p z : Nat) : Nat := (sinFrom p (z * z / 2 ^ p) (p + 100) 1 z 0 true).toNat

/-- The sum of w^(2k) / (2k + 1) from a term on, with alternating signs for the arc tangent. -/
def atanFrom (num den : Nat) (alt : Bool) : Nat → Nat → Nat → Int → Bool → Int
  | 0, _, _, acc, _ => acc
  | n + 1, k, t, acc, plus =>
    if t = 0 then acc
    else atanFrom num den alt n (k + 2) (t * num / den) (if plus || !alt then acc + (t / k : Nat) else acc - (t / k : Nat)) (!plus)

/-- atan(1/n), and the inverse hyperbolic tangent of num/den, with `p` fraction bits. -/
def atanInv (p n : Nat) : Nat := (atanFrom 1 (n * n) true (p + 100) 1 (2 ^ p / n) 0 true).toNat
def atanhFix (p num den : Nat) : Nat := (atanFrom (num * num) (den * den) false (p + 100) 1 (2 ^ p * num / den) 0 true).toNat

/-- π and ln 2 with `p` fraction bits. -/
def piFix (p : Nat) : Nat := 16 * atanInv p 5 - 4 * atanInv p 239
def ln2Fix (p : Nat) : Nat := 2 * atanhFix p 1 3

/-- Precision for an operand of magnitude m × 2^e: beyond any closeness of an exact value to a representable one. -/
def precisionFor (m : Nat) (e : Int) : Nat := 200 + 3 * (-(bitLen m + e)).toNat

/-- `m × 2^e` with `p` fraction bits. -/
def toFix (p m : Nat) (e : Int) : Nat :=
  let q := e + p
  if 0 ≤ q then m * 2 ^ q.toNat else m / 2 ^ (-q).toNat

/-- sin(π r) for r = n / 2^p with 0 ≤ r < 2: its sign and magnitude. -/
def sinPiFix (p n : Nat) : Bool × Nat :=
  let one := 2 ^ p
  let neg := decide (one ≤ n)
  let h := n % one
  let h := if one < 2 * h then one - h else h
  (neg, sinFix p (h * piFix p / 2 ^ p))

/-- The exact value outside Table 7-8 as sign and magnitude, a point strictly between two representable values:
`x × 2^−p`, x odd. -/
def Func.approx (fn : Func) (neg : Bool) (m : Nat) (e : Int) : Bool × Nat × Nat :=
  let p := precisionFor m e
  let mid (v : Nat) : Nat × Nat := (2 * v + 1, p + 1)
  match fn with
  | .sinpi =>
    let (s, v) := sinPiFix p (toFix p m e % 2 ^ (p + 1))
    (s != neg, mid v)
  | .cospi =>
    let (s, v) := sinPiFix p ((toFix p m e + 2 ^ p / 2) % 2 ^ (p + 1))
    (s, mid v)
  | .exp2 =>
    let x := toFix p m e
    let whole := x / 2 ^ p
    let frac := x % 2 ^ p
    let (k, f) : Int × Nat := if !neg then (whole, frac) else if frac = 0 then (-whole, 0) else (-whole - 1, 2 ^ p - frac)
    let v := expFix p (f * ln2Fix p / 2 ^ p)
    if 0 ≤ k then (false, (2 * v + 1) * 2 ^ (min k 1100).toNat, p + 1)
    else (false, 2 * v + 1, p + 1 + (min (-k) 1200).toNat)
  | .log2 =>
    let n : Int := (bitLen m : Int) - 1 + e
    let one := 2 ^ (bitLen m - 1)
    let v := 2 * atanhFix p (m - one) (m + one) * 2 ^ p / ln2Fix p
    let t : Int := n * 2 ^ p + v
    (t < 0, mid t.natAbs)
  | .rcpa => match (Num.fin neg 1 0).div 60 (.fin neg m e) with
    | (.fin _ q g, _) => (neg, q * 2 ^ g.toNat, (-g).toNat)
    | _ => (neg, 1, 0)
  | .rsqa => match (Num.fin false m e).sqrt 200 with
    | .fin _ q g => match (Num.fin false 1 0).div 120 (.fin false q g) with
      | (.fin _ q g, _) => (false, q * 2 ^ g.toNat, (-g).toNat)
      | _ => (false, 1, 0)
    | _ => (false, 1, 0)
  | .tanh =>
    let x := expFix p (2 * toFix p m e)
    (neg, mid ((x - 2 ^ p) * 2 ^ p / (x + 2 ^ p)))

/-- The representable values within the bound of the point x × 2^−p, in half steps of the exact value's ulp 2^q: each
is j × 2^(q−1), j even, or below the binade's start. -/
def candidates (f : Fmt) (ulps x p : Nat) : List Int × Int :=
  let top : Int := (bitLen x : Int) - 1 - p
  let q := max (top - f.m) (1 - f.bias - f.m)
  let sh := (q - 1 + p)
  let near : Int := if 0 ≤ sh then (x / 2 ^ sh.toNat : Nat) else (x * 2 ^ (-sh).toNat : Nat)
  let bottom : Int := 2 ^ (f.m + 1)
  let inBinade := decide (q = top - f.m) && decide (1 - f.bias - f.m < q)
  let ok (j : Int) : Bool :=
    let a : Int := if 0 ≤ sh then j * 2 ^ sh.toNat else j
    let b : Int := if 0 ≤ sh then x else x * 2 ^ (-sh).toNat
    let w : Int := if 0 ≤ sh then 2 * ulps * 2 ^ sh.toNat else 2 * ulps
    (j % 2 == 0 || (inBinade && decide (j < bottom))) && decide ((a - b).natAbs ≤ w.natAbs)
  (((List.range (4 * ulps + 4)).map fun i => near - 2 * ulps - 1 + (i : Nat)).filter ok, q - 1)

/-- The magnitude code of a value that is representable in the format. -/
def Fmt.exactCode (f : Fmt) (v : Nat) (q : Int) : Nat := (f.roundFin ⟨1, false, false, 0⟩ false v q).1

/-- Tininess after rounding (R142, R160): the value x × 2^−p, rounded to the format's precision with an unbounded
exponent range, is below the smallest normal value. -/
def Fmt.roundsTiny (f : Fmt) (x p : Nat) : Bool :=
  (Num.fin false x (-p)).lt (.fin false (2 ^ (f.m + 2) - 1) (-1 - f.bias - f.m))

/-- The result of a special function outside Table 7-8: one of the values within the bound, then flush, overflow and
saturation (R171).  It is tiny when the exact value rounds tiny or the value within the bound that is delivered is below
the smallest normal one (log entry 125). -/
def Func.within (fn : Func) (f : Fmt) (flush sat : Bool) (code : Nat) (neg : Bool) (m : Nat) (e : Int) : Nat × BitVec 5 :=
  let (s, x, p) := fn.approx neg m e
  if (f.value f.maxCode).lt (.fin false x (-p)) then (f.signBit s + (if sat then f.maxCode else (2 ^ f.e - 1) * 2 ^ f.m), OF ||| NX)
  else
    let (all, q) := candidates f fn.ulps x p
    let js := all.filter fun j => (if j = 0 then 0 else f.exactCode j.natAbs q) ≤ f.maxCode
    let key := (b2n (f.width == 64)) * 4 + (b2n flush) * 2 + b2n sat
    let j := js.getD (Config.specialPick fn.code key code % js.length) 0
    let c := if j = 0 then 0 else f.exactCode j.natAbs q
    let tiny := decide (c < 2 ^ f.m) || f.roundsTiny x p
    if flush && tiny then (f.signBit s, UF ||| NX)
    else
      let sj := if j < 0 then !s else s
      (f.signBit sj + c, if tiny then UF ||| NX else NX)

/-- `m × 2^e` is a whole number: its value; or a whole number and a half: the whole number (Table 7-8). -/
def wholeOf (m : Nat) (e : Int) : Option Nat :=
  if 0 ≤ e then some (m * 2 ^ (min e 2000).toNat)
  else if m % 2 ^ (-e).toNat = 0 then some (m / 2 ^ (-e).toNat) else none
def halfOf (m : Nat) (e : Int) : Option Nat :=
  match wholeOf m e with
  | some _ => none
  | none => match wholeOf m (e + 1) with
    | some k => some (k / 2)
    | none => none

/-- `m × 2^e` is a power of two: its exponent. -/
def powerOf (m : Nat) (e : Int) : Option Int :=
  if m = 2 ^ (bitLen m - 1) then some ((bitLen m : Int) - 1 + e) else none

/-- 1 and the whole numbers, as codes of a format. -/
def Fmt.ofInt (f : Fmt) (n : Int) : Nat := (f.round ⟨0, false, false, 0⟩ (.fin (n < 0) n.natAbs 0)).1
def Fmt.infCode (f : Fmt) (neg : Bool) : Nat := f.signBit neg + (2 ^ f.e - 1) * 2 ^ f.m

/-- A special function of a code: Table 7-8 where it has a row, a value within the bound elsewhere. -/
def Func.eval (fn : Func) (f : Fmt) (flush sat : Bool) (code : Nat) : Nat × BitVec 5 :=
  let one (neg : Bool) : Nat := f.signBit neg + f.ofInt 1
  match f.read flush code with
  | .nan s => (f.nanCode, if s then NV else 0)
  | .inf n => match fn with
    | .sinpi | .cospi => (f.nanCode, NV)
    | .exp2 => (if n then 0 else f.infCode false, 0)
    | .log2 => if n then (f.nanCode, NV) else (f.infCode false, 0)
    | .rcpa => (f.signBit n, 0)
    | .rsqa => if n then (f.nanCode, NV) else (0, 0)
    | .tanh => (one n, 0)
  | .fin n m e =>
    let rest := fn.within f flush sat (f.flushed flush code) n m e
    if m = 0 then match fn with
      | .sinpi | .tanh => (f.signBit n, 0)
      | .cospi | .exp2 => (one false, 0)
      | .log2 => (f.infCode true, DZ)
      | .rcpa | .rsqa => (f.infCode n, DZ)
    else match fn with
      | .sinpi => match wholeOf m e, halfOf m e with
        | some _, _ => (f.signBit n, 0)
        | none, some k =>
          -- n + 0.5 with n = k, or −k − 1 for a negative operand
          (one ((k % 2 == 1) != n), 0)
        | none, none => rest
      | .cospi => match wholeOf m e, halfOf m e with
        | some k, _ => (one (k % 2 == 1), 0)
        | none, some _ => (0, 0)
        | none, none => rest
      | .exp2 => match wholeOf m e with
        | some k =>
          let g : Int := if n then -(k : Int) else k
          if 1 - f.bias - f.m ≤ g && g ≤ f.bias then
            if flush && g < 1 - f.bias then (0, UF ||| NX) else (f.exactCode 1 g, 0)
          else rest
        | none => rest
      | .log2 =>
        if n then (f.nanCode, NV)
        else match powerOf m e with
          | some k => (f.ofInt k, 0)
          | none => rest
      | .rcpa => match powerOf m e with
        | some k =>
          if -k ≤ f.bias then
            if flush && -k < 1 - f.bias then (f.signBit n, UF ||| NX) else (f.signBit n + f.exactCode 1 (-k), 0)
          else rest
        | none => rest
      | .rsqa =>
        if n then (f.nanCode, NV)
        else match powerOf m e with
          | some k => if k % 2 = 0 then (f.exactCode 1 (-(k / 2)), 0) else rest
          | none => rest
      | .tanh =>
        let bound := if f.width = 64 then 20 else 10
        if (Num.fin false m e).lt (.fin false bound 0) then rest else (one n, NX)

end Sys2Proof.Machine
end

