-- ==== Sys2Proof/Machine/Float.lean ====
section
/-! DEFINITION. Class 0x3 and the special functions of class 0x4: floating-point instructions (R155-R173). -/

namespace Sys2Proof.Machine

/-- The format of the mode's type, with the descriptor captured at issue (R144). -/
def Issue.fmt (o : Issue) : Fmt := fmtOf o.mode.typ (o.t.arch.nf.getD o.mode.nf 0)

/-- The mode's rounding, rsr being taken as rne (R140, R156). -/
def Issue.rm (o : Issue) : Rm := ⟨if o.mode.round = 5 then 0 else o.mode.round, o.mode.flush, o.mode.sat, 0⟩

/-- The packed types act on two elements independently (R156); the conditions are ORed (R160). -/
def Issue.each (o : Issue) (g : (PVal → Nat) → Nat × BitVec 5) : Dword × BitVec 5 :=
  if o.mode.typ = 4 || o.mode.typ = 5 then
    let (x, fx) := g fun v => v.v.toNat % 2 ^ 16
    let (y, fy) := g fun v => v.v.toNat / 2 ^ 16 % 2 ^ 16
    (BitVec.ofNat 64 (x + y * 2 ^ 16), fx ||| fy)
  else
    let (x, fx) := g fun v => v.v.toNat
    (BitVec.ofNat 64 x, fx)

/-- The codes of a `.cc` variant: the result compared with +0 (R161).  Under flush the result is compared with its own
value, a subnormal one too: where FABS, FNEG or FCPYS leaves one, R161's "as FCMP would" and its "r > 0" differ, and this
is the model's choice (log entry 124). -/
def Issue.signCodes (o : Issue) (r : Dword) : Codes := (o.fmt.value r.toNat).relation (.fin false 0 0)

/-- The codes of an integer result (R161: FCLASS and FGETX). -/
def intCodes (r : Dword) : Codes := resCodes (r.extractLsb' 0 32) false false

/-- Cycles of a pass (Table 7-2): other class 0x3, fdiv and fsqrt, frcp, special functions. -/
def Issue.cycles (o : Issue) (narrow wide : Nat) : Nat := if o.mode.typ = 1 then wide else narrow

/-- The results of a floating-point instruction. A lane whose result is poisoned records no condition (R160). -/
def Issue.floats (o : Issue) (c : BitVec 1) (poison : Nat → Bool) (codes : Dword → Codes)
    (g : Nat → (PVal → Nat) → Nat × BitVec 5) : List LaneResult :=
  o.results fun l =>
    let (v, fl) := o.each (g l)
    (⟨v, poison l⟩, if c = 1 then some { codes v with p := poison l } else none, if poison l then 0 else fl)

def Issue.fp1 (o : Issue) (l : Nat) : Bool := (o.a l).p
def Issue.fp2 (o : Issue) (l : Nat) : Bool := (o.a l).p || (o.b l).p
def Issue.fp3 (o : Issue) (l : Nat) : Bool := (o.d l).p || o.fp2 l

/-- An instruction of two value operands that lands at issue. -/
def Issue.float2 (o : Issue) (s : State) (c : BitVec 1) (g : Fmt → Rm → Nat → Nat → Nat × BitVec 5) : Res :=
  o.timed (o.commit s (o.floats c o.fp2 o.signCodes fun l e => g o.fmt o.rm (e (o.a l)) (e (o.b l)))) (o.cycles 1 2)

/-- One that also reads d. -/
def Issue.float3 (o : Issue) (s : State) (c : BitVec 1) (g : Fmt → Rm → Nat → Nat → Nat → Nat × BitVec 5) : Res :=
  o.timed (o.commit s (o.floats c o.fp3 o.signCodes fun l e => g o.fmt o.rm (e (o.d l)) (e (o.a l)) (e (o.b l)))) (o.cycles 1 2)

/-- One value operand. -/
def Issue.float1 (o : Issue) (s : State) (c : BitVec 1) (codes : Dword → Codes) (g : Fmt → Rm → Nat → Nat × BitVec 5) : Res :=
  o.timed (o.commit s (o.floats c o.fp1 codes fun l e => g o.fmt o.rm (e (o.a l)))) (o.cycles 1 2)

/-- A special function (R171). -/
def Issue.special (o : Issue) (s : State) (fn : Func) : Res :=
  o.pendAfter s (o.floats 0 o.fp1 o.signCodes fun l e => fn.eval o.fmt o.mode.flush o.mode.sat (e (o.a l))) (o.cycles 2 16)

/-- FADD (R162). -/
def execFadd (c : BitVec 1) (d a b : Reg) (lit : Word) (s : State) : Host.Outcome State Fault Refusal :=
  issue (.fadd c d a b lit) (fun o s => o.float2 s c Fmt.fadd) s

/-- FSUB (R162). -/
def execFsub (c : BitVec 1) (d a b : Reg) (lit : Word) (s : State) : Host.Outcome State Fault Refusal :=
  issue (.fsub c d a b lit) (fun o s => o.float2 s c Fmt.fsub) s

/-- FMUL (R162). -/
def execFmul (c : BitVec 1) (d a b : Reg) (lit : Word) (s : State) : Host.Outcome State Fault Refusal :=
  issue (.fmul c d a b lit) (fun o s => o.float2 s c Fmt.fmul) s

/-- FMA (R162). -/
def execFma (c : BitVec 1) (d a b : Reg) (lit : Word) (s : State) : Host.Outcome State Fault Refusal :=
  issue (.fma c d a b lit) (fun o s => o.float3 s c Fmt.fma) s

/-- FNMA (R162). -/
def execFnma (c : BitVec 1) (d a b : Reg) (lit : Word) (s : State) : Host.Outcome State Fault Refusal :=
  issue (.fnma c d a b lit) (fun o s => o.float3 s c Fmt.fnma) s

/-- FDIV (R163). -/
def execFdiv (c : BitVec 1) (d a : Reg) (l : BitVec 4) (lit : Word) (s : State) : Host.Outcome State Fault Refusal :=
  issue (.fdiv c d a l lit) (fun o s => o.pendAfter s (o.floats c (fun l => (o.d l).p || (o.a l).p) o.signCodes fun l e => o.fmt.fdiv o.rm (e (o.d l)) (e (o.a l))) (o.cycles 4 16)) s

/-- FSQRT (R163). -/
def execFsqrt (c : BitVec 1) (d a : Reg) (l : BitVec 4) (lit : Word) (s : State) : Host.Outcome State Fault Refusal :=
  issue (.fsqrt c d a l lit) (fun o s => o.pendAfter s (o.floats c o.fp1 o.signCodes fun l e => o.fmt.fsqrt o.rm (e (o.a l))) (o.cycles 4 16)) s

/-- FRCP (R163). -/
def execFrcp (c : BitVec 1) (d a : Reg) (l : BitVec 4) (lit : Word) (s : State) : Host.Outcome State Fault Refusal :=
  issue (.frcp c d a l lit) (fun o s => o.pendAfter s (o.floats c o.fp1 o.signCodes fun l e => o.fmt.frcp o.rm (e (o.a l))) (o.cycles 2 8)) s

/-- FMIN (R164). -/
def execFmin (c : BitVec 1) (d a b : Reg) (lit : Word) (s : State) : Host.Outcome State Fault Refusal :=
  issue (.fmin c d a b lit) (fun o s => o.float2 s c fun f r => f.minMax r false true) s

/-- FMAX (R164). -/
def execFmax (c : BitVec 1) (d a b : Reg) (lit : Word) (s : State) : Host.Outcome State Fault Refusal :=
  issue (.fmax c d a b lit) (fun o s => o.float2 s c fun f r => f.minMax r true true) s

/-- FMINM (R164). -/
def execFminm (c : BitVec 1) (d a b : Reg) (lit : Word) (s : State) : Host.Outcome State Fault Refusal :=
  issue (.fminm c d a b lit) (fun o s => o.float2 s c fun f r => f.minMax r false false) s

/-- FMAXM (R164). -/
def execFmaxm (c : BitVec 1) (d a b : Reg) (lit : Word) (s : State) : Host.Outcome State Fault Refusal :=
  issue (.fmaxm c d a b lit) (fun o s => o.float2 s c fun f r => f.minMax r true false) s

/-- FABS (R165). -/
def execFabs (c : BitVec 1) (d a : Reg) (lit : Word) (s : State) : Host.Outcome State Fault Refusal :=
  issue (.fabs c d a lit) (fun o s => o.float1 s c o.signCodes fun f _ x => (f.withSign x false, 0)) s

/-- FNEG (R165). -/
def execFneg (c : BitVec 1) (d a : Reg) (lit : Word) (s : State) : Host.Outcome State Fault Refusal :=
  issue (.fneg c d a lit) (fun o s => o.float1 s c o.signCodes fun f _ x => (f.withSign x (!f.negOf x), 0)) s

/-- FCPYS (R165). -/
def execFcpys (c : BitVec 1) (d a b : Reg) (lit : Word) (s : State) : Host.Outcome State Fault Refusal :=
  issue (.fcpys c d a b lit) (fun o s => o.float2 s c fun f _ x y => (f.withSign x (f.negOf y), 0)) s

/-- FCMP (R166): the relation in the layout of register 125; the codes stay. -/
def execFcmp (d a b : Reg) (lit : Word) (s : State) : Host.Outcome State Fault Refusal :=
  issue (.fcmp d a b lit) (fun o s =>
    o.timed (o.commit s (o.floats 0 o.fp2 o.signCodes fun l e =>
      let x := o.fmt.read o.mode.flush (e (o.a l))
      let y := o.fmt.read o.mode.flush (e (o.b l))
      ((x.relation y).word.toNat, if x.isSnan || y.isSnan then NV else 0))) (o.cycles 1 2)) s

/-- FCLASS (R167: the flush setting does not apply). -/
def execFclass (c : BitVec 1) (d a : Reg) (lit : Word) (s : State) : Host.Outcome State Fault Refusal :=
  issue (.fclass c d a lit) (fun o s => o.float1 s c intCodes fun f _ x => (f.classMask x, 0)) s

/-- FRINT (R168). -/
def execFrint (c : BitVec 1) (d a : Reg) (lit : Word) (s : State) : Host.Outcome State Fault Refusal :=
  issue (.frint c d a lit) (fun o s => o.float1 s c o.signCodes Fmt.frint) s

/-- FSCALE (R169: both elements of a packed value are scaled by the same b). -/
def execFscale (c : BitVec 1) (d a b : Reg) (lit : Word) (s : State) : Host.Outcome State Fault Refusal :=
  issue (.fscale c d a b lit) (fun o s => o.timed (o.commit s (o.floats c o.fp2 o.signCodes fun l e =>
    o.fmt.round o.rm ((o.fmt.read o.mode.flush (e (o.a l))).scale ((o.b l).v.extractLsb' 0 32).toInt))) (o.cycles 1 2)) s

/-- FGETX (R170: 32 bits, or 16 bits in each half of a packed result). -/
def execFgetx (c : BitVec 1) (d a : Reg) (lit : Word) (s : State) : Host.Outcome State Fault Refusal :=
  issue (.fgetx c d a lit) (fun o s => o.float1 s c intCodes fun f r x => f.fgetx r (if o.mode.typ = 4 || o.mode.typ = 5 then 16 else 32) x) s

/-- SINPI (R171, R172). -/
def execSinpi (d a : Reg) (l : BitVec 4) (lit : Word) (s : State) : Host.Outcome State Fault Refusal :=
  issue (.sinpi d a l lit) (fun o s => o.special s .sinpi) s

/-- COSPI (R171, R172). -/
def execCospi (d a : Reg) (l : BitVec 4) (lit : Word) (s : State) : Host.Outcome State Fault Refusal :=
  issue (.cospi d a l lit) (fun o s => o.special s .cospi) s

/-- EXP2 (R171, R172). -/
def execExp2 (d a : Reg) (l : BitVec 4) (lit : Word) (s : State) : Host.Outcome State Fault Refusal :=
  issue (.exp2 d a l lit) (fun o s => o.special s .exp2) s

/-- LOG2 (R171, R172). -/
def execLog2 (d a : Reg) (l : BitVec 4) (lit : Word) (s : State) : Host.Outcome State Fault Refusal :=
  issue (.log2 d a l lit) (fun o s => o.special s .log2) s

/-- RCPA (R171, R172). -/
def execRcpa (d a : Reg) (l : BitVec 4) (lit : Word) (s : State) : Host.Outcome State Fault Refusal :=
  issue (.rcpa d a l lit) (fun o s => o.special s .rcpa) s

/-- RSQA (R171, R172). -/
def execRsqa (d a : Reg) (l : BitVec 4) (lit : Word) (s : State) : Host.Outcome State Fault Refusal :=
  issue (.rsqa d a l lit) (fun o s => o.special s .rsqa) s

/-- TANH (R171, R172). -/
def execTanh (d a : Reg) (l : BitVec 4) (lit : Word) (s : State) : Host.Outcome State Fault Refusal :=
  issue (.tanh d a l lit) (fun o s => o.special s .tanh) s

end Sys2Proof.Machine
end

