-- ==== Sys2Proof/Machine/Formats.lean ====
section
/-! DEFINITION. Conversions, packing, scaling and the format registers (R138-R154). FMTLD is with the loads
(Machine/Loads.lean). -/

namespace Sys2Proof.Machine

/-- The control word of a lane (R146): its type, format register and slot. -/
def ctlType (b : PVal) : Nat := bits b.v.toNat 12 8
def ctlFormat (b : PVal) : Nat := bits b.v.toNat 7 4
def ctlSlot (b : PVal) : Nat := bits b.v.toNat 2 0

/-- Why a control word traps at issue (R146): zero bits, a type the entry does not accept, an odd register named for a
64-bit value. `accepts` is the entry's types, `r` the field whose type it gives. -/
def Issue.ctlBad (o : Issue) (accepts : Nat → Bool) (r : Reg) (l : Nat) : Bool :=
  let v := (o.b l).v.toNat % 2 ^ 32
  let t := bits v 12 8
  bits v 31 13 != 0 || bit v 3 || !accepts t ||
  (modeWords t == 2 && (regKind r = .frame || regKind r = .uni) && r.toNat % 2 == 1)

/-- The checks of R146 on every lane the instruction is performed for, then the instruction. -/
def Issue.controlled (o : Issue) (accepts : Nat → Bool) (r : Reg) (k : Unit → Res) : Res :=
  if o.lanes.any fun l => (o.b l).p then .rollback 19 (maskOf o.act) [] false
  else if o.lanes.any (o.ctlBad accepts r) then .trap 4 (maskOf o.act) [] false none
  else k ()

/-- A floating source type of CVT, CVTI, PACK and UNPACK. -/
def scalarOrNf (t : Nat) : Bool := t ≤ 3 || t = 6
/-- The integer types s8 to s64 and n8 to n64. -/
def intType (t : Nat) : Bool := 8 ≤ t && t ≤ 15
/-- Bits of an integer type and whether it is signed. -/
def intBits (t : Nat) : Nat := 8 * 2 ^ (t % 4)
def intSigned (t : Nat) : Bool := t < 12

/-- The bits of a's value of a type: the literal, as a binary64 source, is the high half (R43). -/
def Issue.source (o : Issue) (t l : Nat) : Nat :=
  if o.ra = 127 && t = 1 then o.lit.toNat * 2 ^ 32 else (o.a l).v.toNat

/-- The value of a in lane `l`, of the type its control word names, under flush (R147). -/
def Issue.sourceValue (o : Issue) (l : Nat) : Num :=
  let t := ctlType (o.b l)
  (fmtOf t (o.t.arch.nf.getD (ctlFormat (o.b l)) 0)).read o.mode.flush (o.source t l)

/-- The value of an integer source (R149). -/
def Issue.sourceInt (o : Issue) (l : Nat) : Num :=
  let t := ctlType (o.b l)
  let n := intBits t
  let v := (o.a l).v.toNat % 2 ^ n
  let i : Int := if intSigned t && 2 ^ (n - 1) ≤ v then (v : Int) - 2 ^ n else v
  .fin (i < 0) i.natAbs 0

/-- One step of a SEED (R141). -/
def seedStep (x : Word) : Word :=
  let x := if x = 0 then 1 else x
  let x := x ^^^ (x <<< 13)
  let x := x ^^^ (x >>> 17)
  x ^^^ (x <<< 5)

/-- The mode's rounding for a conversion, with the SEED that a lane draws (R140, R141). -/
def Issue.rmOf (o : Issue) (l : Nat) : Rm :=
  ⟨o.mode.round, o.mode.flush, o.mode.sat, (seedStep (o.t.lane l).seed).toNat⟩

/-- Lanes that round stochastically step their SEED: one lane for an instruction performed once; a NaN is not
rounded (R141, R147). -/
def Issue.stepSeeds (o : Issue) (s : State) (v : Nat → Num) : State :=
  if o.mode.round != 5 then s
  else { s with cur := o.lanes.foldl (fun t l =>
    if (v l).isNan then t else t.setLane l fun ln => { ln with seed := seedStep ln.seed }) s.cur }

/-- A conversion that lands at issue: per lane a value and its conditions. -/
def Issue.convert (o : Issue) (s : State) (poison : Nat → Bool) (g : Nat → Nat × BitVec 5) : Res :=
  o.timed (o.commit s (o.results fun l =>
    let (v, fl) := g l
    (⟨BitVec.ofNat 64 v, poison l⟩, none, if poison l then 0 else fl))) 1

/-- A value rounded into the integer type of the mode (R148). -/
def Num.toInteger (x : Num) (r : Rm) (t : Nat) : Nat × BitVec 5 :=
  let n := intBits t
  let lo : Int := if intSigned t then -(2 ^ (n - 1)) else 0
  let hi : Int := if intSigned t then 2 ^ (n - 1) - 1 else 2 ^ n - 1
  let w := if n = 64 then 64 else 32
  let code (v : Int) : Nat := (v % 2 ^ w).toNat
  match x with
  | .nan _ => (0, NV)
  | .inf neg => (code (if neg then lo else hi), NV)
  | .fin s m e =>
    let k : Int := ((roundAt r s m e 0).1 : Nat)
    let i := if s then -k else k
    if i < lo then (code lo, NV) else if hi < i then (code hi, NV) else (code i, 0)

/-- Bits of a slot of a format of a width (R136). -/
def slotBits (width : Nat) : Nat := if width ≤ 4 then 4 else if width ≤ 8 then 8 else 16

/-- CVT (R147). -/
def execCvt (d a b : Reg) (lit : Word) (s : State) : Host.Outcome State Fault Refusal :=
  issue (.cvt d a b lit) (fun o s => o.controlled scalarOrNf o.ra fun _ =>
    o.convert (o.stepSeeds s o.sourceValue) (fun l => (o.a l).p) fun l => o.fmt.round (o.rmOf l) (o.sourceValue l)) s

/-- CVTI (R148). -/
def execCvti (d a b : Reg) (lit : Word) (s : State) : Host.Outcome State Fault Refusal :=
  issue (.cvti d a b lit) (fun o s => o.controlled scalarOrNf o.ra fun _ =>
    o.convert s (fun l => (o.a l).p) fun l => (o.sourceValue l).toInteger o.rm o.mode.typ) s

/-- CVTF (R149). -/
def execCvtf (d a b : Reg) (lit : Word) (s : State) : Host.Outcome State Fault Refusal :=
  issue (.cvtf d a b lit) (fun o s => o.controlled intType o.ra fun _ =>
    o.convert (o.stepSeeds s o.sourceInt) (fun l => (o.a l).p) fun l => o.fmt.round (o.rmOf l) (o.sourceInt l)) s

/-- The bits of a slot of a lane's 32-bit value, as its control word names it (R150, R151). -/
def Issue.slotOf (o : Issue) (v : PVal) (l : Nat) : Nat :=
  let n := slotBits o.fmt.width
  let j := ctlSlot (o.b l) % (32 / n)
  bits v.v.toNat (n * j + n - 1) (n * j)

/-- A lane's d with one slot replaced (R150). -/
def Issue.withSlot (o : Issue) (l v : Nat) : Nat :=
  let n := slotBits o.fmt.width
  let j := ctlSlot (o.b l) % (32 / n)
  let old := (o.d l).v.toNat % 2 ^ 32
  old - bits old (n * j + n - 1) (n * j) * 2 ^ (n * j) + v * 2 ^ (n * j)

/-- The lanes whose slot has a non-zero padding bit (R151). -/
def Issue.padLanes (o : Issue) : List Nat := o.lanes.filter fun l => o.slotOf (o.a l) l / 2 ^ o.fmt.width != 0

/-- Does a padded slot poison a lane (R151)? Its whole block is; every lane when a and b are uniform. With a uniform a and slots that
differ by lane, which R151 does not speak of, the block is (log entry 123). -/
def Issue.padPoison (o : Issue) (l : Nat) : Bool :=
  let run := if slotBits o.fmt.width = 4 then 4 else 8
  let all := !perLane o.ra && !perLane o.rb
  o.padLanes.any fun k => all || k / run == l / run

/-- One error record when a slot has padding (R151). -/
def Issue.padRecord (o : Issue) (s : State) : State :=
  match o.padLanes with
  | [] => s
  | l :: _ => s.errorRecord (some o.t.id.ctx) 88 0 (sideOf o.t) o.g.pc 0 l

/-- PACK (R150): one slot of d is replaced. -/
def execPack (d a b : Reg) (lit : Word) (s : State) : Host.Outcome State Fault Refusal :=
  issue (.pack d a b lit) (fun o s => o.controlled (· ≤ 3) o.ra fun _ =>
    o.convert (o.stepSeeds s o.sourceValue) (fun l => (o.d l).p || (o.a l).p) fun l =>
      let r := o.fmt.round (o.rmOf l) (o.sourceValue l)
      (o.withSlot l r.1, r.2)) s

/-- UNPACK (R151): a slot with padding poisons its block, and one record is posted. -/
def execUnpack (d a b : Reg) (lit : Word) (s : State) : Host.Outcome State Fault Refusal :=
  issue (.unpack d a b lit) (fun o s => o.controlled (· ≤ 3) o.rd fun _ =>
    o.convert (o.padRecord s) (fun l => (o.a l).p || o.padPoison l) fun l =>
      (fmtOf (ctlType (o.b l)) 0).round o.rm (o.fmt.read o.mode.flush (o.slotOf (o.a l) l))) s

/-- The scale that a lane's block has: the b of the block's first lane, active or not (R152). -/
def Issue.blockScale (o : Issue) (l : Nat) : PVal :=
  let run := if 4 < (Fmt.ofDescriptor (o.t.arch.nf.getD o.mode.nf 0)).width then 8 else 4
  o.b (l - l % run)

/-- A value times its block's scale: a scale of 255 gives NaN (R152). -/
def Issue.scaled (o : Issue) (l : Nat) : Nat × BitVec 5 :=
  let k := bits (o.blockScale l).v.toNat (8 * o.mode.sb + 7) (8 * o.mode.sb)
  let x := o.fmt.read o.mode.flush (o.a l).v.toNat
  if k = 255 then (o.fmt.nanCode, if x.isSnan then NV else 0) else o.fmt.round o.rm (x.scale ((k : Int) - 127))

/-- SCALE (R152); a port's lane that popped nothing supplies 0 (R119). -/
def execScale (d a b : Reg) (lit : Word) (s : State) : Host.Outcome State Fault Refusal :=
  issue (.scale d a b lit) (fun o s => o.convert s (fun l => (o.a l).p || (o.blockScale l).p) o.scaled) s

/-- FMTRD (R154). -/
def execFmtrd (d : Reg) (lit : Word) (s : State) : Host.Outcome State Fault Refusal :=
  issue (.fmtrd d lit) (fun o s => o.convert s (fun _ => false) fun _ => ((o.t.arch.nf.getD o.mode.nf 0).toNat, 0)) s

end Sys2Proof.Machine
end

