-- ==== Sys2Proof/Machine/Integer.lean ====
section
/-! DEFINITION. Class 0x1: integer, logic, bit, compare, select, address and code instructions (R109-R118). -/

namespace Sys2Proof.Machine

/-- A value at `n` bits. -/
def PVal.at (v : PVal) (n : Nat) : BitVec n := v.v.setWidth n

/-- The codes of a lane before the instruction. -/
def Issue.codes (o : Issue) (l : Nat) : Codes := (o.t.lane l).cc

/-- Performing an instruction lane by lane, or once for the team (R104): a result, the codes of a `.cc` variant, and
the poison of the sources that contribute (R106). -/
def Issue.compute (o : Issue) (s : State) (cc : Bool) (poison : Nat → Bool) (f : Nat → Dword × Codes) : Res :=
  o.plain (o.commit s (o.results fun l =>
    let (v, k) := f l
    (⟨v, poison l⟩, if cc then some { k with p := poison l } else none, 0)))

/-- A variant of 32 or 64 bits whose operation is one at any width. -/
def sized (w : BitVec 1) (f : (n : Nat) → BitVec n × Codes) : Dword × Codes :=
  if w = 1 then ((f 64).1, (f 64).2) else ((f 32).1.zeroExtend 64, (f 32).2)

/-- A variant that has no codes. -/
def plainSized (w : BitVec 1) (f : (n : Nat) → BitVec n) : Dword × Codes := sized w fun n => (f n, Codes.zero)

/-- Poison of a and b. -/
def Issue.ab (o : Issue) (l : Nat) : Bool := (o.a l).p || (o.b l).p
/-- Poison of d, a and b. -/
def Issue.dab (o : Issue) (l : Nat) : Bool := (o.d l).p || o.ab l
/-- Poison of a. -/
def Issue.ap (o : Issue) (l : Nat) : Bool := (o.a l).p

/-- The arithmetic of Table 5-3 over a and b. -/
def Issue.arith (o : Issue) (s : State) (w c : BitVec 1) (f : (n : Nat) → Nat → BitVec n → BitVec n → BitVec n × Codes) : Res :=
  o.compute s (c = 1) o.ab fun l => sized w fun n => f n l ((o.a l).at n) ((o.b l).at n)

/-- The same with the codes as a source: ADDC and SUBB (R109). -/
def Issue.arithC (o : Issue) (s : State) (w c : BitVec 1) (f : (n : Nat) → Nat → BitVec n → BitVec n → BitVec n × Codes) : Res :=
  o.compute s (c = 1) (fun l => o.ab l || (o.codes l).p) fun l => sized w fun n => f n l ((o.a l).at n) ((o.b l).at n)

/-- The same over a alone. -/
def Issue.arith1 (o : Issue) (s : State) (w c : BitVec 1) (f : (n : Nat) → BitVec n → BitVec n × Codes) : Res :=
  o.compute s (c = 1) o.ap fun l => sized w fun n => f n ((o.a l).at n)

/-- A logic instruction of two operands (Table 5-5). -/
def Issue.logic (o : Issue) (s : State) (w : BitVec 1) (f : (n : Nat) → BitVec n → BitVec n → BitVec n) : Res :=
  o.compute s false o.ab fun l => plainSized w fun n => f n ((o.a l).at n) ((o.b l).at n)

/-- A logic instruction of one operand. -/
def Issue.logic1 (o : Issue) (s : State) (w : BitVec 1) (f : (n : Nat) → BitVec n → BitVec n) : Res :=
  o.compute s false o.ap fun l => plainSized w fun n => f n ((o.a l).at n)

/-- A shift: b modulo the width is the amount (Table 5-5). -/
def Issue.shift (o : Issue) (s : State) (w : BitVec 1) (f : (n : Nat) → BitVec n → Nat → BitVec n) : Res :=
  o.compute s false o.ab fun l => plainSized w fun n => f n ((o.a l).at n) ((o.b l).v.toNat % n)

/-- A count of bits, 32 bits wide whatever the variant. -/
def Issue.countBits (o : Issue) (s : State) (w : BitVec 1) (f : (n : Nat) → BitVec n → Nat) : Res :=
  o.compute s false o.ap fun l => (BitVec.ofNat 64 (if w = 1 then f 64 ((o.a l).at 64) else f 32 ((o.a l).at 32)), Codes.zero)

/-- Codes only: CMP and TST. -/
def Issue.compare (o : Issue) (s : State) (w : BitVec 1) (f : (n : Nat) → BitVec n → BitVec n → Codes) : Res :=
  o.compute s true o.ab fun l => sized w fun n => (0, f n ((o.a l).at n) ((o.b l).at n))

/-- Lesser and greater, unsigned or signed. -/
def minOf {n : Nat} (sg : Bool) (x y : BitVec n) : BitVec n := if sg then (if x.toInt ≤ y.toInt then x else y) else (if x ≤ y then x else y)
def maxOf {n : Nat} (sg : Bool) (x y : BitVec n) : BitVec n := if sg then (if x.toInt ≤ y.toInt then y else x) else (if x ≤ y then y else x)

/-- The high half of the product (Table 5-3). -/
def mulHigh {n : Nat} (sg : Bool) (x y : BitVec n) : BitVec n :=
  if sg then BitVec.ofInt n ((x.toInt * y.toInt) / 2 ^ n) else BitVec.ofNat n ((x.toNat * y.toNat) / 2 ^ n)

/-- The 64-bit product of two 32-bit values. -/
def mulWide (sg : Bool) (x y : Word) : Dword :=
  if sg then x.signExtend 64 * y.signExtend 64 else x.zeroExtend 64 * y.zeroExtend 64

/-- The number of 1 bits. -/
def popCount {n : Nat} (x : BitVec n) : Nat := ((List.range n).filter fun i => x.getLsbD i).length
/-- Zeros above the highest 1 bit; the width when there is none. -/
def leadingZeros {n : Nat} (x : BitVec n) : Nat := (((List.range n).reverse.takeWhile fun i => !x.getLsbD i)).length
/-- Zeros below the lowest 1 bit; the width when there is none. -/
def trailingZeros {n : Nat} (x : BitVec n) : Nat := ((List.range n).takeWhile fun i => !x.getLsbD i).length
/-- Bit i moved to bit n - 1 - i. -/
def bitReverse {n : Nat} (x : BitVec n) : BitVec n := BitVec.ofBoolListLE ((List.range n).reverse.map fun i => x.getLsbD i) |>.setWidth n

/-- BFX (R113). -/
def bitExtract {n : Nat} (sg : Bool) (x : BitVec n) (b : Nat) : BitVec n :=
  let pos := b % 256
  let len := min (b / 256 % 256) n
  if sg then
    let f := (x.toInt / 2 ^ pos) % 2 ^ len
    BitVec.ofInt n (if 0 < len && 2 ^ (len - 1) ≤ f then f - 2 ^ len else f)
  else BitVec.ofNat n (x.toNat / 2 ^ pos % 2 ^ len)

/-- BFI (R113). -/
def bitInsert {n : Nat} (d x : BitVec n) (b : Nat) : BitVec n :=
  let pos := b % 256
  let len := min (b / 256 % 256) n
  let m : BitVec n := BitVec.ofNat n ((2 ^ len - 1) * 2 ^ pos)
  (d &&& ~~~m) ||| (BitVec.ofNat n (x.toNat * 2 ^ pos) &&& m)

/-- A byte of a 32-bit value as a number, zero- or sign-extended. -/
def byteInt (sg : Bool) (x : Word) (i : Nat) : Int :=
  let b : BitVec 8 := x.extractLsb' (8 * i) 8
  if sg then b.toInt else b.toNat

/-- DOT4 and SAD (Table 5-6). -/
def dot4 (sg : Bool) (d x y : Word) : Word :=
  BitVec.ofInt 32 (d.toNat + (List.range 4).foldl (fun t i => t + byteInt sg x i * byteInt sg y i) 0)
def sumAbs (d x y : Word) : Word :=
  BitVec.ofInt 32 (d.toNat + (List.range 4).foldl (fun t i => t + (byteInt false x i - byteInt false y i).natAbs) 0)

/-- FSHF and PERM (R114). -/
def funnel (d x : Word) (b : Nat) : Word := BitVec.ofNat 32 ((x.toNat * 2 ^ 32 + d.toNat) / 2 ^ (b % 64))
def permute (d x : Word) (b : Nat) : Word :=
  let t : Dword := d ++ x
  BitVec.ofNat 32 ((List.range 4).foldl (fun r i =>
    let sel := b / 16 ^ i % 16
    r + (if 8 ≤ sel then 0 else (t.extractLsb' (8 * sel) 8).toNat) * 256 ^ i) 0)

/-- The byte size of the mode's element type (R118). -/
def elementSize (t : Nat) : Nat :=
  match t with
  | 8 | 12 | 6 => 1
  | 9 | 13 | 2 | 3 => 2
  | 11 | 15 | 17 | 1 => 8
  | _ => 4

/-- The instructions whose results land later, computed at issue (R46, R110). -/
def Issue.division (o : Issue) (s : State) (u w c : BitVec 1) (pick : {n : Nat} → BitVec n × BitVec n × Bool → BitVec n) : Res :=
  let p (l : Nat) := (o.d l).p || o.ap l
  let cc : Bool := c = 1
  let rs := o.results fun l =>
    let r := sized w fun n =>
      let q := divRem (u = 1) ((o.d l).at n) ((o.a l).at n)
      (pick q, resCodes (pick q) false q.2.2)
    (⟨r.1, p l⟩, if cc then some { r.2 with p := p l } else none, 0)
  o.pendAfter s rs 1

/-- ADD (R109): a + b. -/
def execAdd (w c : BitVec 1) (d a b : Reg) (lit : Word) (s : State) : Host.Outcome State Fault Refusal :=
  issue (.add w c d a b lit) (fun o s => o.arith s w c fun _ _ x y => addCodes x y false) s

/-- ADDC (R109): a + b + C. -/
def execAddc (w c : BitVec 1) (d a b : Reg) (lit : Word) (s : State) : Host.Outcome State Fault Refusal :=
  issue (.addc w c d a b lit) (fun o s => o.arithC s w c fun _ l x y => addCodes x y (o.codes l).c) s

/-- SUB (R109): a - b. -/
def execSub (w c : BitVec 1) (d a b : Reg) (lit : Word) (s : State) : Host.Outcome State Fault Refusal :=
  issue (.sub w c d a b lit) (fun o s => o.arith s w c fun _ _ x y => subCodes x y false) s

/-- SUBB (R109): a - b - (1 - C). -/
def execSubb (w c : BitVec 1) (d a b : Reg) (lit : Word) (s : State) : Host.Outcome State Fault Refusal :=
  issue (.subb w c d a b lit) (fun o s => o.arithC s w c fun _ l x y => subCodes x y !(o.codes l).c) s

/-- NEG (R109): 0 - a. -/
def execNeg (w c : BitVec 1) (d a : Reg) (lit : Word) (s : State) : Host.Outcome State Fault Refusal :=
  issue (.neg w c d a lit) (fun o s => o.arith1 s w c fun _ x => subCodes 0 x false) s

/-- MUL (R109): the low half of a × b. -/
def execMul (w c : BitVec 1) (d a b : Reg) (lit : Word) (s : State) : Host.Outcome State Fault Refusal :=
  issue (.mul w c d a b lit) (fun o s => o.arith s w c fun _ _ x y => mulCodes x y) s

/-- MAD (R109): a × b + d, with the codes of the final addition. -/
def execMad (w c : BitVec 1) (d a b : Reg) (lit : Word) (s : State) : Host.Outcome State Fault Refusal :=
  issue (.mad w c d a b lit) (fun o s => o.compute s (c = 1) o.dab fun l => sized w fun n =>
    addCodes ((o.a l).at n * (o.b l).at n) ((o.d l).at n) false) s

/-- ABS (R109). -/
def execAbs (w c : BitVec 1) (d a : Reg) (lit : Word) (s : State) : Host.Outcome State Fault Refusal :=
  issue (.abs w c d a lit) (fun o s => o.arith1 s w c fun n x =>
    let r := if x.toInt < 0 then 0 - x else x
    (r, resCodes r false (x == BitVec.intMin n))) s

/-- DIV (R110). -/
def execDiv (u w c : BitVec 1) (d a : Reg) (l : BitVec 4) (lit : Word) (s : State) : Host.Outcome State Fault Refusal :=
  issue (.div u w c d a l lit) (fun o s => o.division s u w c fun q => q.1) s

/-- REM (R110). -/
def execRem (u w c : BitVec 1) (d a : Reg) (l : BitVec 4) (lit : Word) (s : State) : Host.Outcome State Fault Refusal :=
  issue (.rem u w c d a l lit) (fun o s => o.division s u w c fun q => q.2.1) s

/-- MIN (R109). -/
def execMin (u w c : BitVec 1) (d a b : Reg) (lit : Word) (s : State) : Host.Outcome State Fault Refusal :=
  issue (.min u w c d a b lit) (fun o s => o.arith s w c fun _ _ x y =>
    (minOf (u = 1) x y, resCodes (minOf (u = 1) x y) false false)) s

/-- MAX (R109). -/
def execMax (u w c : BitVec 1) (d a b : Reg) (lit : Word) (s : State) : Host.Outcome State Fault Refusal :=
  issue (.max u w c d a b lit) (fun o s => o.arith s w c fun _ _ x y =>
    (maxOf (u = 1) x y, resCodes (maxOf (u = 1) x y) false false)) s

/-- MULH (R109). -/
def execMulh (u w : BitVec 1) (d a b : Reg) (lit : Word) (s : State) : Host.Outcome State Fault Refusal :=
  issue (.mulh u w d a b lit) (fun o s => o.logic s w fun _ x y => mulHigh (u = 1) x y) s

/-- MULW (R109). -/
def execMulw (u c : BitVec 1) (d a b : Reg) (lit : Word) (s : State) : Host.Outcome State Fault Refusal :=
  issue (.mulw u c d a b lit) (fun o s => o.compute s (c = 1) o.ab fun l =>
    let r := mulWide (u = 1) ((o.a l).at 32) ((o.b l).at 32)
    (r, resCodes r false false)) s

/-- MADW (R109). -/
def execMadw (u c : BitVec 1) (d a b : Reg) (lit : Word) (s : State) : Host.Outcome State Fault Refusal :=
  issue (.madw u c d a b lit) (fun o s => o.compute s (c = 1) o.dab fun l =>
    addCodes (mulWide (u = 1) ((o.a l).at 32) ((o.b l).at 32)) (o.d l).v false) s

/-- MOV (R112). -/
def execMov (w : BitVec 1) (d a : Reg) (lit : Word) (s : State) : Host.Outcome State Fault Refusal :=
  issue (.mov w d a lit) (fun o s => o.logic1 s w fun _ x => x) s

/-- LDI (R112): the literal, two literal words for 64 bits, low first. -/
def execLdi (w : BitVec 1) (d : Reg) (lit lit2 : Word) (s : State) : Host.Outcome State Fault Refusal :=
  issue (.ldi w d lit lit2) (fun o s => o.compute s false (fun _ => false) fun _ =>
    (if w = 1 then lit2 ++ lit else lit.zeroExtend 64, Codes.zero)) s

/-- AND (R112). -/
def execAnd (w : BitVec 1) (d a b : Reg) (lit : Word) (s : State) : Host.Outcome State Fault Refusal :=
  issue (.and w d a b lit) (fun o s => o.logic s w fun _ x y => x &&& y) s

/-- OR (R112). -/
def execOr (w : BitVec 1) (d a b : Reg) (lit : Word) (s : State) : Host.Outcome State Fault Refusal :=
  issue (.or w d a b lit) (fun o s => o.logic s w fun _ x y => x ||| y) s

/-- XOR (R112). -/
def execXor (w : BitVec 1) (d a b : Reg) (lit : Word) (s : State) : Host.Outcome State Fault Refusal :=
  issue (.xor w d a b lit) (fun o s => o.logic s w fun _ x y => x ^^^ y) s

/-- ANDN (R112): a AND NOT b. -/
def execAndn (w : BitVec 1) (d a b : Reg) (lit : Word) (s : State) : Host.Outcome State Fault Refusal :=
  issue (.andn w d a b lit) (fun o s => o.logic s w fun _ x y => x &&& ~~~y) s

/-- NOT (R112). -/
def execNot (w : BitVec 1) (d a : Reg) (lit : Word) (s : State) : Host.Outcome State Fault Refusal :=
  issue (.not w d a lit) (fun o s => o.logic1 s w fun _ x => ~~~x) s

/-- SHL (R112). -/
def execShl (w : BitVec 1) (d a b : Reg) (lit : Word) (s : State) : Host.Outcome State Fault Refusal :=
  issue (.shl w d a b lit) (fun o s => o.shift s w fun _ x n => x <<< n) s

/-- SHR (R112). -/
def execShr (w : BitVec 1) (d a b : Reg) (lit : Word) (s : State) : Host.Outcome State Fault Refusal :=
  issue (.shr w d a b lit) (fun o s => o.shift s w fun _ x n => x >>> n) s

/-- SHRA (R112). -/
def execShra (w : BitVec 1) (d a b : Reg) (lit : Word) (s : State) : Host.Outcome State Fault Refusal :=
  issue (.shra w d a b lit) (fun o s => o.shift s w fun _ x n => x.sshiftRight n) s

/-- ROT (R112): to the left. -/
def execRot (w : BitVec 1) (d a b : Reg) (lit : Word) (s : State) : Host.Outcome State Fault Refusal :=
  issue (.rot w d a b lit) (fun o s => o.shift s w fun _ x n => x.rotateLeft n) s

/-- POPC (R112). -/
def execPopc (w : BitVec 1) (d a : Reg) (lit : Word) (s : State) : Host.Outcome State Fault Refusal :=
  issue (.popc w d a lit) (fun o s => o.countBits s w fun _ x => popCount x) s

/-- CLZ (R112). -/
def execClz (w : BitVec 1) (d a : Reg) (lit : Word) (s : State) : Host.Outcome State Fault Refusal :=
  issue (.clz w d a lit) (fun o s => o.countBits s w fun _ x => leadingZeros x) s

/-- CTZ (R112). -/
def execCtz (w : BitVec 1) (d a : Reg) (lit : Word) (s : State) : Host.Outcome State Fault Refusal :=
  issue (.ctz w d a lit) (fun o s => o.countBits s w fun _ x => trailingZeros x) s

/-- BREV (R112). -/
def execBrev (w : BitVec 1) (d a : Reg) (lit : Word) (s : State) : Host.Outcome State Fault Refusal :=
  issue (.brev w d a lit) (fun o s => o.logic1 s w fun _ x => bitReverse x) s

/-- SEL (R117): the guard selects; poisoned codes trap on the lanes it reads (R103), the lowest of the group's when
it is performed once (R104). -/
def execSel (w : BitVec 1) (d a b : Reg) (lit : Word) (s : State) : Host.Outcome State Fault Refusal :=
  issue (.sel w d a b lit) (fun o s =>
    let g := o.mode.guard
    let bad := if g = 0 then [] else o.lanes.filter fun l => (o.codes l).p
    if !bad.isEmpty then .rollback 19 (maskOf bad) [] false
    else
      let pick (l : Nat) := if guardHolds g (o.codes l) then o.a l else o.b l
      o.compute s false (fun l => (pick l).p) fun l => plainSized w fun n => (pick l).at n) s

/-- BFX (R113). -/
def execBfx (u w : BitVec 1) (d a b : Reg) (lit : Word) (s : State) : Host.Outcome State Fault Refusal :=
  issue (.bfx u w d a b lit) (fun o s => o.compute s false o.ab fun l => plainSized w fun n =>
    bitExtract (u = 1) ((o.a l).at n) (o.b l).v.toNat) s

/-- BFI (R113). -/
def execBfi (w : BitVec 1) (d a b : Reg) (lit : Word) (s : State) : Host.Outcome State Fault Refusal :=
  issue (.bfi w d a b lit) (fun o s => o.compute s false o.dab fun l => plainSized w fun n =>
    bitInsert ((o.d l).at n) ((o.a l).at n) (o.b l).v.toNat) s

/-- CMP_N (R116). -/
def execCmpN (w : BitVec 1) (a b : Reg) (lit : Word) (s : State) : Host.Outcome State Fault Refusal :=
  issue (.cmpN w a b lit) (fun o s => o.compare s w fun _ x y => cmpCodes false x y) s

/-- CMP_S (R116). -/
def execCmpS (w : BitVec 1) (a b : Reg) (lit : Word) (s : State) : Host.Outcome State Fault Refusal :=
  issue (.cmpS w a b lit) (fun o s => o.compare s w fun _ x y => cmpCodes true x y) s

/-- TST (R115). -/
def execTst (w : BitVec 1) (a b : Reg) (lit : Word) (s : State) : Host.Outcome State Fault Refusal :=
  issue (.tst w a b lit) (fun o s => o.compare s w fun _ x y => tstCodes x y) s

/-- FSHF (R114). -/
def execFshf (d a b : Reg) (lit : Word) (s : State) : Host.Outcome State Fault Refusal :=
  issue (.fshf d a b lit) (fun o s => o.compute s false o.dab fun l =>
    ((funnel ((o.d l).at 32) ((o.a l).at 32) (o.b l).v.toNat).zeroExtend 64, Codes.zero)) s

/-- PERM (R114). -/
def execPerm (d a b : Reg) (lit : Word) (s : State) : Host.Outcome State Fault Refusal :=
  issue (.perm d a b lit) (fun o s => o.compute s false o.dab fun l =>
    ((permute ((o.d l).at 32) ((o.a l).at 32) (o.b l).v.toNat).zeroExtend 64, Codes.zero)) s

/-- LEA (R118). -/
def execLea (d a b : Reg) (lit : Word) (s : State) : Host.Outcome State Fault Refusal :=
  issue (.lea d a b lit) (fun o s => o.compute s false o.ab fun l =>
    ((o.a l).v + ((o.b l).at 32).signExtend 64 * BitVec.ofNat 64 (elementSize o.mode.typ), Codes.zero)) s

/-- DOT4_N (R115). -/
def execDot4N (d a b : Reg) (lit : Word) (s : State) : Host.Outcome State Fault Refusal :=
  issue (.dot4N d a b lit) (fun o s => o.compute s false o.dab fun l =>
    ((dot4 false ((o.d l).at 32) ((o.a l).at 32) ((o.b l).at 32)).zeroExtend 64, Codes.zero)) s

/-- DOT4_S (R115). -/
def execDot4S (d a b : Reg) (lit : Word) (s : State) : Host.Outcome State Fault Refusal :=
  issue (.dot4S d a b lit) (fun o s => o.compute s false o.dab fun l =>
    ((dot4 true ((o.d l).at 32) ((o.a l).at 32) ((o.b l).at 32)).zeroExtend 64, Codes.zero)) s

/-- SAD (R115). -/
def execSad (d a b : Reg) (lit : Word) (s : State) : Host.Outcome State Fault Refusal :=
  issue (.sad d a b lit) (fun o s => o.compute s false o.dab fun l =>
    ((sumAbs ((o.d l).at 32) ((o.a l).at 32) ((o.b l).at 32)).zeroExtend 64, Codes.zero)) s

/-- GETCC (R115): the codes as a value, with their poison. -/
def execGetcc (d : Reg) (lit : Word) (s : State) : Host.Outcome State Fault Refusal :=
  issue (.getcc d lit) (fun o s => o.compute s false (fun l => (o.codes l).p) fun l =>
    ((o.codes l).word.zeroExtend 64, Codes.zero)) s

/-- SETCC (R115). -/
def execSetcc (a : Reg) (lit : Word) (s : State) : Host.Outcome State Fault Refusal :=
  issue (.setcc a lit) (fun o s => o.compute s true o.ap fun l =>
    let v := (o.a l).v
    (0, ⟨v.getLsbD 3, v.getLsbD 2, v.getLsbD 1, v.getLsbD 0, false⟩)) s

end Sys2Proof.Machine
end

