-- ==== Sys2Proof/Machine/Lanes.lean ====
section
/-! DEFINITION. Class 0x2: cross-lane instructions (R119-R126). -/

namespace Sys2Proof.Machine

/-- The source lane of SHFL (Table 5-7). -/
def shflSource (v : BitVec 2) (span l : Nat) (c : Word) : Nat :=
  let base := l - l % span
  if v = 0 then base + c.toNat % span
  else if v = 1 then
    let t : Int := (l : Int) + c.toInt
    if -(span : Int) < c.toInt && c.toInt < span && (base : Int) ≤ t && t < base + span then t.toNat else l
  else if v = 2 then base + (l - base + c.toNat) % span
  else base + (l % span ^^^ c.toNat % span)

/-- Results that land at issue, per lane a value and its poison. -/
def Issue.moves (o : Issue) (s : State) (g : Nat → PVal) : Res :=
  o.plain (o.commit s (o.results fun l => (g l, none, 0)))

/-- Does any active lane's a carry poison (R121)? -/
def Issue.anyPoison (o : Issue) : Bool := o.act.any fun l => (o.a l).p

/-- A vote: one number for every active lane (R121). -/
def Issue.vote (o : Issue) (s : State) (f : List Word → Bool) : Res :=
  o.moves s fun _ => ⟨BitVec.ofNat 64 (b2n (f (o.act.map fun l => (o.a l).at 32))), o.anyPoison⟩

/-- The lane that BCAST and KMOV name: 0xFFFF_FFFF is the lowest active lane (R123). -/
def Issue.named (o : Issue) : Nat :=
  let l := o.act.headD 0
  let v := (o.b l).at 32
  if v = 0xFFFFFFFF then l else v.toNat % o.t.width

/-- BCAST and KMOV: a poisoned selector traps (R106); with no lane active nothing happens. -/
def Issue.fromLane (o : Issue) (s : State) : Res :=
  if o.act.any fun l => (o.b l).p then .rollback 19 (maskOf o.act) [] false
  else o.moves s fun _ => o.a o.named

/-- A combining step's value, its poison and the conditions it raised, with those of the steps below it. -/
structure Comb where
  v : Dword
  p : Bool
  fl : BitVec 5
deriving DecidableEq, Repr

/-- An integer operation at the width of its table row. -/
def combInt (op : Nat) {n : Nat} (x y : BitVec n) : BitVec n :=
  match op with
  | 0 | 1 => x + y
  | 2 | 4 => minOf false x y
  | 3 | 5 => minOf true x y
  | 6 | 8 => maxOf false x y
  | 7 | 9 => maxOf true x y
  | 10 => x &&& y
  | 11 => x ||| y
  | _ => x ^^^ y

/-- x ⊕ y (Table 5-9). -/
def Issue.comb (o : Issue) (op : Nat) (x y : Comb) : Comb :=
  if 13 ≤ op then
    let (r, fl) := match op with
      | 13 => o.fmt.fadd o.rm x.v.toNat y.v.toNat
      | 14 => o.fmt.minMax o.rm false true x.v.toNat y.v.toNat
      | _ => o.fmt.minMax o.rm true true x.v.toNat y.v.toNat
    ⟨BitVec.ofNat 64 r, x.p || y.p, x.fl ||| y.fl ||| fl⟩
  else if scanWords op 0 = 2 then ⟨combInt op x.v y.v, x.p || y.p, 0⟩
  else ⟨(combInt op (x.v.extractLsb' 0 32) (y.v.extractLsb' 0 32)).zeroExtend 64, x.p || y.p, 0⟩

/-- The identity of an operation (Table 5-9). -/
def Issue.identity (o : Issue) (op : Nat) : Dword :=
  match op with
  | 2 | 10 => 0xFFFFFFFF
  | 3 => 0x7FFFFFFF
  | 4 => BitVec.allOnes 64
  | 5 => 0x7FFFFFFFFFFFFFFF
  | 7 => 0x80000000
  | 9 => 0x8000000000000000
  | 13 => BitVec.ofNat 64 (o.fmt.signBit true)
  | 14 => BitVec.ofNat 64 (o.fmt.infCode false)
  | 15 => BitVec.ofNat 64 (o.fmt.infCode true)
  | _ => 0

/-- The inclusive left folds over the active lanes in ascending order (R125). -/
def Issue.folds (o : Issue) (op : Nat) : List Nat → Option Comb → List (Nat × Comb)
  | [], _ => []
  | l :: ls, acc =>
    let x : Comb := ⟨(o.a l).v, (o.a l).p, 0⟩
    let r := match acc with
      | none => x
      | some c => o.comb op c x
    (l, r) :: o.folds op ls (some r)

/-- One level of the tree: position i combines 2i and 2i + 1 (R126). -/
def Issue.level (o : Issue) (op : Nat) : List (Option Comb) → List (Option Comb)
  | x :: y :: rest =>
    (match x, y with
      | some a, some b => some (o.comb op a b)
      | some a, none => some a
      | none, b => b) :: o.level op rest
  | l => l

/-- All levels: at most ten. -/
def Issue.tree (o : Issue) (op : Nat) : Nat → List (Option Comb) → List (Option Comb)
  | 0, l => l
  | n + 1, l => if l.length ≤ 1 then l else o.tree op n (o.level op l)

/-- Writing combined values; a lane whose result is poisoned records no condition (R160). -/
def Issue.combined (o : Issue) (s : State) (g : Nat → Comb) : Res :=
  o.timed (o.commit s (o.results fun l =>
    let c := g l
    (⟨c.v, c.p⟩, none, if c.p then 0 else c.fl))) (if o.sh.litHigh then 2 else 1)

/-- What lane `l` finds in a list of folds. -/
def foldAt (fs : List (Nat × Comb)) (l : Nat) : Option Comb := (fs.find? (·.1 == l)).map (·.2)

/-- SHFL (R120): every read precedes every write. -/
def execShfl (v : BitVec 2) (w : BitVec 1) (d a b : Reg) (lit : Word) (s : State) : Host.Outcome State Fault Refusal :=
  issue (.shfl v w d a b lit) (fun o s => o.moves s fun l =>
    let x := o.a (shflSource v (16 <<< o.t.id.span) l ((o.b l).at 32))
    ⟨x.v, x.p || (o.b l).p⟩) s

/-- VOTE_SOME (R121). -/
def execVoteSome (d a : Reg) (lit : Word) (s : State) : Host.Outcome State Fault Refusal :=
  issue (.voteSome d a lit) (fun o s => o.vote s fun vs => vs.any (· != 0)) s

/-- VOTE_EVERY (R121). -/
def execVoteEvery (d a : Reg) (lit : Word) (s : State) : Host.Outcome State Fault Refusal :=
  issue (.voteEvery d a lit) (fun o s => o.vote s fun vs => vs.all (· != 0)) s

/-- VOTE_SAME (R121). -/
def execVoteSame (d a : Reg) (lit : Word) (s : State) : Host.Outcome State Fault Refusal :=
  issue (.voteSame d a lit) (fun o s => o.vote s fun vs => vs.all (· == vs.headD 0)) s

/-- BALLOT (R122): lane l receives word l mod ceil(W / 32). -/
def execBallot (d a : Reg) (lit : Word) (s : State) : Host.Outcome State Fault Refusal :=
  issue (.ballot d a lit) (fun o s =>
    let m := maskOf (o.act.filter fun l => (o.a l).at 32 != 0)
    o.moves s fun l => ⟨(maskWord m (l % ceilDiv o.t.width 32)).zeroExtend 64, o.anyPoison⟩) s

/-- SCAN (R125). -/
def execScan (sc : BitVec 4) (d a : Reg) (lit : Word) (s : State) : Host.Outcome State Fault Refusal :=
  issue (.scan sc d a lit) (fun o s =>
    let fs := o.folds sc.toNat o.act none
    o.combined s fun l => (foldAt fs l).getD ⟨0, false, 0⟩) s

/-- SCAN_EX (R125): the fold of the lanes below; the lowest active lane receives the identity. -/
def execScanEx (sc : BitVec 4) (d a : Reg) (lit : Word) (s : State) : Host.Outcome State Fault Refusal :=
  issue (.scanEx sc d a lit) (fun o s =>
    let fs := o.folds sc.toNat o.act none
    o.combined s fun l => match (o.act.filter (· < l)).getLast? with
      | some k => (foldAt fs k).getD ⟨0, false, 0⟩
      | none => ⟨o.identity sc.toNat, false, 0⟩) s

/-- REDUCE (R126): the tree over the W lane positions. -/
def execReduce (sc : BitVec 4) (d a : Reg) (lit : Word) (s : State) : Host.Outcome State Fault Refusal :=
  issue (.reduce sc d a lit) (fun o s =>
    let leaves := (List.range o.t.width).map fun l =>
      if o.act.contains l then some (⟨(o.a l).v, (o.a l).p, 0⟩ : Comb) else none
    let r := ((o.tree sc.toNat 10 leaves).headD none).getD ⟨0, false, 0⟩
    o.combined s fun _ => r) s

/-- MATCH (R121): the lowest active lane that holds the same a. -/
def execMatchLane (w : BitVec 1) (d a : Reg) (lit : Word) (s : State) : Host.Outcome State Fault Refusal :=
  issue (.matchLane w d a lit) (fun o s => o.moves s fun l =>
    ⟨BitVec.ofNat 64 ((o.act.find? fun k => (o.a k).v == (o.a l).v).getD l), o.anyPoison⟩) s

/-- BCAST (R123). -/
def execBcast (w : BitVec 1) (d a b : Reg) (lit : Word) (s : State) : Host.Outcome State Fault Refusal :=
  issue (.bcast w d a b lit) (fun o s => o.fromLane s) s

/-- KMOV (R123). -/
def execKmov (w : BitVec 1) (d a b : Reg) (lit : Word) (s : State) : Host.Outcome State Fault Refusal :=
  issue (.kmov w d a b lit) (fun o s => o.fromLane s) s

end Sys2Proof.Machine
end

