-- ==== Sys2Proof/Machine/Launching.lean ====
section
/-! DEFINITION. SPAWN, GROW, JOB and LAUNCH as they issue (R451-R460); the dispatcher is in Machine/Dispatcher.lean. -/

namespace Sys2Proof.Machine

/-- A result of a launch instruction: pending until Q cycles have passed, with lookahead 0 (R452, R460). -/
def Issue.pendQ (o : Issue) (s : State) (rs : List LaneResult) (codes bcast : Bool) : Nat × State :=
  let (k, s) := draw s
  let (pid, s) := o.pend s rs (max (s.now + Config.Q) (s.now + 1 + k)) false false []
  (pid, s.modPend o.t.id.uid pid fun p => { p with hasCc := codes, bcast := bcast })

/-- SPAWN (R460): a held request for one task record for each active lane. -/
def execSpawn (d a b : Reg) (lit : Word) (s : State) : Host.Outcome State Fault Refusal :=
  issue (.spawn d a b lit) (fun o s =>
    match o.check s o.addrsT 64 64 28 Need.r none fun _ => none with
    | .bad r => r
    | .ok xs faults =>
      match o.accessWaits s xs 64 (if xs.isEmpty then 0 else 3) with
      | some c => .stall s c
      | none =>
        if xs.isEmpty then o.access s xs faults Need.r (passes o 1) 0 false
        else
          let (pid, s) := o.pendQ s (o.dests (xs.map (·.lane)) 1) true false
          o.access (o.hold s 3 (.spawn pid (xs.map fun x => (x.lane, x.ea)))) xs faults Need.r (passes o 1) 0 false) s

/-- GROW (R453). -/
def execGrow (d a : Reg) (lit : Word) (s : State) : Host.Outcome State Fault Refusal :=
  issue (.grow d a lit) (fun o s =>
    match o.lanes with
    | [] => o.single s
    | l :: _ =>
      let n := (o.a l).v.toNat % 2 ^ 32
      if (o.a l).p then .rollback 19 (maskOf o.act) [] false
      else if n = 0 then .trap 4 (maskOf o.act) [] false none
      else if !o.room s 3 then .stall s 9
      else
        let (pid, s) := o.pendQ s (o.destsAll 1) false true
        o.single (o.hold s 3 (.grow pid n))) s

/-- JOB (R455): checked as a 64-byte read. -/
def execJob (a b : Reg) (lit : Word) (s : State) : Host.Outcome State Fault Refusal :=
  issue (.job a b lit) (fun o s =>
    match o.check s o.addrsT 64 64 28 Need.r none fun _ => none with
    | .bad r => r
    | .ok xs faults =>
      match o.accessWaits s xs 64 (if xs.isEmpty then 0 else 3) with
      | some c => .stall s c
      | none => o.access (xs.foldl (fun s x => o.hold s 3 (.job x.ea)) s) xs faults Need.r 1 0 false) s

/-- LAUNCH (R452): checked as a 128-byte read and write. -/
def execLaunch (d a b : Reg) (lit : Word) (s : State) : Host.Outcome State Fault Refusal :=
  issue (.launch d a b lit) (fun o s =>
    let eas := o.addrsT.flatMap fun (l, v) => [(l, v), (l, ⟨v.v + 64, v.p⟩)]
    match o.check s eas 64 64 28 Need.rw none fun _ => none with
    | .bad r => r
    | .ok xs faults =>
      if !faults.isEmpty then o.access s [] faults Need.rw 1 0 false
      else match o.accessWaits s xs 64 (if xs.isEmpty then 0 else 3) with
      | some c => .stall s c
      | none =>
        match xs with
        | [] => o.single s
        | x :: _ =>
          let (pid, s) := o.pendQ s (o.destsAll 1) false true
          o.access (o.hold s 3 (.launch pid x.ea)) xs [] Need.rw 1 0 false) s

end Sys2Proof.Machine
end

