-- ==== Sys2Proof/Machine/Queues.lean ====
section
/-! DEFINITION. QMAP, QUNMAP, QSTAT and QNOTIFY (R434-R436). -/

namespace Sys2Proof.Machine

/-- A port is busy while a pending result has still to push to it (R434). -/
def Team.portBusy (t : Team) (p : Nat) : Bool := t.pend.any fun x => x.reg.toNat == 96 + p && !x.slots.isEmpty

/-- Binding a port of the issuing team. -/
def State.setPort (s : State) (p : Nat) (h : Option Word) : State :=
  { s with cur := s.cur.setArch fun a => { a with ports := a.ports.set p h } }

/-- The port an instruction names in a field (R435). -/
def portOfReg (r : Reg) : Nat := r.toNat - 96

/-- QMAP (R436). -/
def execQmap (d a : Reg) (lit : Word) (s : State) : Host.Outcome State Fault Refusal :=
  issue (.qmap d a lit) (fun o s =>
    match o.lanes with
    | [] => o.single s
    | l :: _ =>
      let h : Word := (o.a l).v.extractLsb' 0 32
      if (o.a l).p then .rollback 19 (maskOf o.act) [] false
      else if !s.handleOk o.t.id.ctx h then .trap 75 (maskOf o.act) [] false none
      else if s.cur.portBusy (portOfReg d) then .trap 78 (maskOf o.act) [] false none
      else o.single (s.setPort (portOfReg d) (some h))) s

/-- QUNMAP (R436). -/
def execQunmap (d : Reg) (lit : Word) (s : State) : Host.Outcome State Fault Refusal :=
  issue (.qunmap d lit) (fun o s =>
    if o.lanes.isEmpty then o.single s
    else if s.cur.portBusy (portOfReg d) then .trap 78 (maskOf o.act) [] false none
    else o.single (s.setPort (portOfReg d) none)) s

/-- What QSTAT reads of a port's queue (Table 21-4). -/
def State.queueStatus (s : State) (t : Team) (p : Nat) : Nat :=
  match t.arch.ports.getD p none with
  | none => 0
  | some h =>
    let e := handleEntry h
    let put (up : Bool) (room ready : Nat) : Nat := 2 ^ 31 + b2n up * 2 ^ 30 + min room 4096 * 2 ^ 16 + ready % 2 ^ 13
    if !s.handleOk t.id.ctx h then 2 ^ 31
    else match handleKind h with
    | 0 => put true (s.queue (handleTile h) e).ring.room (s.queue (handleTile h) e).ring.available
    | 1 => put true (s.thread e).ring.room (s.thread e).ring.available
    | _ => put (s.routeUp (s.link t.id.ctx e).target) (s.link t.id.ctx e).room 0

/-- QSTAT (R436): reads without popping. -/
def execQstat (d a : Reg) (lit : Word) (s : State) : Host.Outcome State Fault Refusal :=
  issue (.qstat d a lit) (fun o s => o.single (o.commit s (o.toAll ⟨BitVec.ofNat 64 (s.queueStatus s.cur (portOfReg a)), false⟩))) s

/-- Why QNOTIFY traps at issue, if it does (R427, R436). -/
def State.notifyCause (s : State) (t : Team) (p : Nat) : Option Nat :=
  match t.arch.ports.getD p none with
  | none => some 74
  | some h =>
    if !s.handleOk t.id.ctx h then some 75
    else match handleKind h with
    | 0 => some 79
    | 1 => none
    | _ =>
      let q := s.link t.id.ctx (handleEntry h)
      if (s.portOf q.target).isNone || (q.bell != 0 && (s.portOf q.bell).isNone) then some 37
      else if !s.routeUp q.target then some 77 else none

/-- QNOTIFY (R436): held behind the team's pushes. -/
def execQnotify (d : Reg) (lit : Word) (s : State) : Host.Outcome State Fault Refusal :=
  issue (.qnotify d lit) (fun o s =>
    if o.lanes.isEmpty then o.single s
    else match s.notifyCause s.cur (portOfReg d) with
    | some c => .trap c (maskOf o.act) [] false none
    | none =>
      if !o.room s 3 then .stall s 9
      else match o.t.arch.ports.getD (portOfReg d) none with
      | some h => o.single (o.hold s 3 (.notify h))
      | none => o.single s) s

end Sys2Proof.Machine
end

