-- ==== Sys2Proof/Machine/System.lean ====
section
/-! DEFINITION. Class 0xB: REGION, signatures, TRAP, SYSC, BRK and the system registers (R174-R177, R187, R194-R196).
BIND, UNBIND, TLBINV and WCS are with the tables (Machine/Binding.lean). -/

namespace Sys2Proof.Machine

/-- The value of a system register for a lane (Table 8-2). -/
def Issue.sysReg (o : Issue) (n l : Nat) : Dword :=
  let t := o.t
  match n with
  | 0 => (t.lane l).xflags.zeroExtend 64
  | 1 => (t.lane l).seed.zeroExtend 64
  | 2 => o.g.sig.zeroExtend 64
  | 3 => t.sys.tcause.zeroExtend 64
  | 4 => t.sys.tpc.zeroExtend 64
  | 5 => t.sys.tval.getD l 0
  | 6 => BitVec.ofNat 64 (b2n (inMask t.sys.tlane l))
  | 7 => BitVec.ofNat 64 (t.sys.retry.toNat + t.sys.retryCause.toNat * 2 ^ 16)
  | 8 =>
    let young := (t.young o.now).length
    BitVec.ofNat 64 (young + 8 * b2n (t.ckpts.any fun c => decide (c.time + Config.Q ≤ o.now)))
  | _ => BitVec.ofNat 64 t.place

/-- REGION (R187): a checkpoint, once every pending result has landed. -/
def execRegion (s : State) : Host.Outcome State Fault Refusal :=
  issue .region (fun _ s => .done s ⟨[], [], 1, none, true, false, false, 0⟩) s

/-- SIGCHK (R194). -/
def execSigchk (lit : Word) (s : State) : Host.Outcome State Fault Refusal :=
  issue (.sigchk lit) (fun o s =>
    let clean : Res := .done s ⟨[], [], 1, some sigReset, false, false, false, 0⟩
    if !o.g.sigOk then clean
    else if o.g.sig ^^^ 0xFFFFFFFF != lit then .rollback 17 o.g.mask [] false
    else if !(o.t.arch.groups.all fun g => o.t.shadow.contains (g.pc, g.mask)) then .rollback 17 o.g.mask [] true
    else clean) s

/-- SIGSET (R195). -/
def execSigset (lit : Word) (s : State) : Host.Outcome State Fault Refusal :=
  issue (.sigset lit) (fun _ s => .done s ⟨[], [], 1, some lit, false, false, false, 0⟩) s

/-- One trap value for every lane of the team (R196). -/
def Issue.everyLane (o : Issue) (v : Dword) : List (Nat × Dword) := (List.range o.t.width).map fun l => (l, v)

/-- TRAP (R196): with no active lane it has no effect. -/
def execTrap (lit : Word) (s : State) : Host.Outcome State Fault Refusal :=
  issue (.trap lit) (fun o s =>
    if o.act.isEmpty then o.plain s
    else .trap 14 (maskOf o.act) (o.everyLane (lit.zeroExtend 64)) true none) s

/-- SYSC (R196): once for the team; the result goes to the pair d when Ranger resumes. -/
def execSysc (d a : Reg) (lit : Word) (s : State) : Host.Outcome State Fault Refusal :=
  issue (.sysc d a lit) (fun o s =>
    match o.lanes with
    | [] => o.single s
    | l :: _ =>
      if (o.a l).p then .rollback 19 (maskOf o.act) [] false
      else .trap 16 (maskOf o.act) (o.everyLane (((o.a l).v.extractLsb' 0 32).zeroExtend 64)) true (some d)) s

/-- BRK (R196). -/
def execBrk (s : State) : Host.Outcome State Fault Refusal :=
  issue .brk (fun o s =>
    if o.act.isEmpty then o.plain s
    else .trap 15 (maskOf o.act) (o.everyLane 0) true none) s

/-- MFS (R176). -/
def execMfs (d : Reg) (lit : Word) (s : State) : Host.Outcome State Fault Refusal :=
  issue (.mfs d lit) (fun o s => o.plain (o.commit s (o.results fun l => (⟨o.sysReg lit.toNat l, false⟩, none, 0)))) s

/-- MTS (R177): XFLAGS or SEED of each active lane. -/
def execMts (b : Reg) (lit : Word) (s : State) : Host.Outcome State Fault Refusal :=
  issue (.mts b lit) (fun o s =>
    let v (l : Nat) : Word := (o.b l).v.extractLsb' 0 32
    let p := poisonedLanes o.act o.b
    let bad := if lit = 0 then o.act.filter fun l => (v l) >>> 5 != 0 else []
    if !p.isEmpty then .rollback 19 (maskOf p) [] false
    else if !bad.isEmpty then .trap 4 (maskOf bad) [] false none
    else
      o.plain { s with cur := o.act.foldl (fun t l => t.setLane l fun ln =>
        if lit = 0 then { ln with xflags := (v l).extractLsb' 0 5 } else { ln with seed := v l }) s.cur }) s

end Sys2Proof.Machine
end

