-- ==== Sys2Proof/Machine/Dispatch.lean ====
section
/-! DEFINITION. What each instruction does: one arm per constructor of Instr. -/

namespace Sys2Proof.Machine

/-- The meaning of every instruction and step. -/
def exec (i : Instr) (s : State) : Host.Outcome State Fault Refusal :=
  match i with
  | .nop => Sys2Proof.Machine.execNop s
  | .mode g t r f sc b n => Sys2Proof.Machine.execMode g t r f sc b n s
  | .rep c d a b => Sys2Proof.Machine.execRep c d a b s
  | .bra lit => Sys2Proof.Machine.execBra lit s
  | .jmp a => Sys2Proof.Machine.execJmp a s
  | .call x lit => Sys2Proof.Machine.execCall x lit s
  | .callr x a => Sys2Proof.Machine.execCallr x a s
  | .ret => Sys2Proof.Machine.execRet s
  | .exit => Sys2Proof.Machine.execExit s
  | .yield => Sys2Proof.Machine.execYield s
  | .add w c d a b lit => Sys2Proof.Machine.execAdd w c d a b lit s
  | .addc w c d a b lit => Sys2Proof.Machine.execAddc w c d a b lit s
  | .sub w c d a b lit => Sys2Proof.Machine.execSub w c d a b lit s
  | .subb w c d a b lit => Sys2Proof.Machine.execSubb w c d a b lit s
  | .neg w c d a lit => Sys2Proof.Machine.execNeg w c d a lit s
  | .mul w c d a b lit => Sys2Proof.Machine.execMul w c d a b lit s
  | .mad w c d a b lit => Sys2Proof.Machine.execMad w c d a b lit s
  | .abs w c d a lit => Sys2Proof.Machine.execAbs w c d a lit s
  | .div u w c d a l lit => Sys2Proof.Machine.execDiv u w c d a l lit s
  | .rem u w c d a l lit => Sys2Proof.Machine.execRem u w c d a l lit s
  | .min u w c d a b lit => Sys2Proof.Machine.execMin u w c d a b lit s
  | .max u w c d a b lit => Sys2Proof.Machine.execMax u w c d a b lit s
  | .mulh u w d a b lit => Sys2Proof.Machine.execMulh u w d a b lit s
  | .mulw u c d a b lit => Sys2Proof.Machine.execMulw u c d a b lit s
  | .madw u c d a b lit => Sys2Proof.Machine.execMadw u c d a b lit s
  | .mov w d a lit => Sys2Proof.Machine.execMov w d a lit s
  | .ldi w d lit lit2 => Sys2Proof.Machine.execLdi w d lit lit2 s
  | .and w d a b lit => Sys2Proof.Machine.execAnd w d a b lit s
  | .or w d a b lit => Sys2Proof.Machine.execOr w d a b lit s
  | .xor w d a b lit => Sys2Proof.Machine.execXor w d a b lit s
  | .andn w d a b lit => Sys2Proof.Machine.execAndn w d a b lit s
  | .not w d a lit => Sys2Proof.Machine.execNot w d a lit s
  | .shl w d a b lit => Sys2Proof.Machine.execShl w d a b lit s
  | .shr w d a b lit => Sys2Proof.Machine.execShr w d a b lit s
  | .shra w d a b lit => Sys2Proof.Machine.execShra w d a b lit s
  | .rot w d a b lit => Sys2Proof.Machine.execRot w d a b lit s
  | .popc w d a lit => Sys2Proof.Machine.execPopc w d a lit s
  | .clz w d a lit => Sys2Proof.Machine.execClz w d a lit s
  | .ctz w d a lit => Sys2Proof.Machine.execCtz w d a lit s
  | .brev w d a lit => Sys2Proof.Machine.execBrev w d a lit s
  | .sel w d a b lit => Sys2Proof.Machine.execSel w d a b lit s
  | .bfx u w d a b lit => Sys2Proof.Machine.execBfx u w d a b lit s
  | .bfi w d a b lit => Sys2Proof.Machine.execBfi w d a b lit s
  | .cmpN w a b lit => Sys2Proof.Machine.execCmpN w a b lit s
  | .cmpS w a b lit => Sys2Proof.Machine.execCmpS w a b lit s
  | .tst w a b lit => Sys2Proof.Machine.execTst w a b lit s
  | .fshf d a b lit => Sys2Proof.Machine.execFshf d a b lit s
  | .perm d a b lit => Sys2Proof.Machine.execPerm d a b lit s
  | .lea d a b lit => Sys2Proof.Machine.execLea d a b lit s
  | .dot4N d a b lit => Sys2Proof.Machine.execDot4N d a b lit s
  | .dot4S d a b lit => Sys2Proof.Machine.execDot4S d a b lit s
  | .sad d a b lit => Sys2Proof.Machine.execSad d a b lit s
  | .getcc d lit => Sys2Proof.Machine.execGetcc d lit s
  | .setcc a lit => Sys2Proof.Machine.execSetcc a lit s
  | .shfl v w d a b lit => Sys2Proof.Machine.execShfl v w d a b lit s
  | .voteSome d a lit => Sys2Proof.Machine.execVoteSome d a lit s
  | .voteEvery d a lit => Sys2Proof.Machine.execVoteEvery d a lit s
  | .voteSame d a lit => Sys2Proof.Machine.execVoteSame d a lit s
  | .ballot d a lit => Sys2Proof.Machine.execBallot d a lit s
  | .scan o d a lit => Sys2Proof.Machine.execScan o d a lit s
  | .scanEx o d a lit => Sys2Proof.Machine.execScanEx o d a lit s
  | .reduce o d a lit => Sys2Proof.Machine.execReduce o d a lit s
  | .matchLane w d a lit => Sys2Proof.Machine.execMatchLane w d a lit s
  | .bcast w d a b lit => Sys2Proof.Machine.execBcast w d a b lit s
  | .kmov w d a b lit => Sys2Proof.Machine.execKmov w d a b lit s
  | .fadd c d a b lit => Sys2Proof.Machine.execFadd c d a b lit s
  | .fsub c d a b lit => Sys2Proof.Machine.execFsub c d a b lit s
  | .fmul c d a b lit => Sys2Proof.Machine.execFmul c d a b lit s
  | .fma c d a b lit => Sys2Proof.Machine.execFma c d a b lit s
  | .fnma c d a b lit => Sys2Proof.Machine.execFnma c d a b lit s
  | .fdiv c d a l lit => Sys2Proof.Machine.execFdiv c d a l lit s
  | .fsqrt c d a l lit => Sys2Proof.Machine.execFsqrt c d a l lit s
  | .frcp c d a l lit => Sys2Proof.Machine.execFrcp c d a l lit s
  | .fmin c d a b lit => Sys2Proof.Machine.execFmin c d a b lit s
  | .fmax c d a b lit => Sys2Proof.Machine.execFmax c d a b lit s
  | .fminm c d a b lit => Sys2Proof.Machine.execFminm c d a b lit s
  | .fmaxm c d a b lit => Sys2Proof.Machine.execFmaxm c d a b lit s
  | .fabs c d a lit => Sys2Proof.Machine.execFabs c d a lit s
  | .fneg c d a lit => Sys2Proof.Machine.execFneg c d a lit s
  | .fcpys c d a b lit => Sys2Proof.Machine.execFcpys c d a b lit s
  | .fcmp d a b lit => Sys2Proof.Machine.execFcmp d a b lit s
  | .fclass c d a lit => Sys2Proof.Machine.execFclass c d a lit s
  | .frint c d a lit => Sys2Proof.Machine.execFrint c d a lit s
  | .fscale c d a b lit => Sys2Proof.Machine.execFscale c d a b lit s
  | .fgetx c d a lit => Sys2Proof.Machine.execFgetx c d a lit s
  | .sinpi d a l lit => Sys2Proof.Machine.execSinpi d a l lit s
  | .cospi d a l lit => Sys2Proof.Machine.execCospi d a l lit s
  | .exp2 d a l lit => Sys2Proof.Machine.execExp2 d a l lit s
  | .log2 d a l lit => Sys2Proof.Machine.execLog2 d a l lit s
  | .rcpa d a l lit => Sys2Proof.Machine.execRcpa d a l lit s
  | .rsqa d a l lit => Sys2Proof.Machine.execRsqa d a l lit s
  | .tanh d a l lit => Sys2Proof.Machine.execTanh d a l lit s
  | .fmtld a l o lit => Sys2Proof.Machine.execFmtld a l o lit s
  | .fmtrd d lit => Sys2Proof.Machine.execFmtrd d lit s
  | .cvt d a b lit => Sys2Proof.Machine.execCvt d a b lit s
  | .cvti d a b lit => Sys2Proof.Machine.execCvti d a b lit s
  | .cvtf d a b lit => Sys2Proof.Machine.execCvtf d a b lit s
  | .pack d a b lit => Sys2Proof.Machine.execPack d a b lit s
  | .unpack d a b lit => Sys2Proof.Machine.execUnpack d a b lit s
  | .scale d a b lit => Sys2Proof.Machine.execScale d a b lit s
  | .ld t d a l o lit => Sys2Proof.Machine.execLd t d a l o lit s
  | .ldv d a l o lit => Sys2Proof.Machine.execLdv d a l o lit s
  | .ldkB32 d a l o lit => Sys2Proof.Machine.execLdkB32 d a l o lit s
  | .ldkB64 d a l o lit => Sys2Proof.Machine.execLdkB64 d a l o lit s
  | .ldmx d a l o lit => Sys2Proof.Machine.execLdmx d a l o lit s
  | .acq d a l o lit => Sys2Proof.Machine.execAcq d a l o lit s
  | .pref a b lit => Sys2Proof.Machine.execPref a b lit s
  | .st n d a b lit => Sys2Proof.Machine.execSt n d a b lit s
  | .stv d a b lit => Sys2Proof.Machine.execStv d a b lit s
  | .stmx d a b lit => Sys2Proof.Machine.execStmx d a b lit s
  | .rel d a b lit => Sys2Proof.Machine.execRel d a b lit s
  | .flush a b lit => Sys2Proof.Machine.execFlush a b lit s
  | .invl a b lit => Sys2Proof.Machine.execInvl a b lit s
  | .fence sc => Sys2Proof.Machine.execFence sc s
  | .atom op w d a l o lit => Sys2Proof.Machine.execAtom op w d a l o lit s
  | .acas w d a l o lit => Sys2Proof.Machine.execAcas w d a l o lit s
  | .afadd d a l o lit => Sys2Proof.Machine.execAfadd d a l o lit s
  | .afmm d a l o m lit => Sys2Proof.Machine.execAfmm d a l o m lit s
  | .ared op w d a b lit => Sys2Proof.Machine.execAred op w d a b lit s
  | .aprog d a l o lit => Sys2Proof.Machine.execAprog d a l o lit s
  | .apload a b lit => Sys2Proof.Machine.execApload a b lit s
  | .cpl d a b lit => Sys2Proof.Machine.execCpl d a b lit s
  | .cpf d a b lit => Sys2Proof.Machine.execCpf d a b lit s
  | .cpt d a b lit => Sys2Proof.Machine.execCpt d a b lit s
  | .cpm d a b lit => Sys2Proof.Machine.execCpm d a b lit s
  | .binit d a b lit => Sys2Proof.Machine.execBinit d a b lit s
  | .arrive a b lit => Sys2Proof.Machine.execArrive a b lit s
  | .expect d a b lit => Sys2Proof.Machine.execExpect d a b lit s
  | .wait d a b lit => Sys2Proof.Machine.execWait d a b lit s
  | .cadd d a b lit => Sys2Proof.Machine.execCadd d a b lit s
  | .cread d a l o lit => Sys2Proof.Machine.execCread d a l o lit s
  | .bseal a lit => Sys2Proof.Machine.execBseal a lit s
  | .bwait a lit => Sys2Proof.Machine.execBwait a lit s
  | .stallrd d a lit => Sys2Proof.Machine.execStallrd d a lit s
  | .mcfg a lit => Sys2Proof.Machine.execMcfg a lit s
  | .mldb d a lit => Sys2Proof.Machine.execMldb d a lit s
  | .mma d a lit => Sys2Proof.Machine.execMma d a lit s
  | .mmas d a lit => Sys2Proof.Machine.execMmas d a lit s
  | .mzero d a lit => Sys2Proof.Machine.execMzero d a lit s
  | .mstore d a lit => Sys2Proof.Machine.execMstore d a lit s
  | .mdrain d a lit => Sys2Proof.Machine.execMdrain d a lit s
  | .mrun d a lit => Sys2Proof.Machine.execMrun d a lit s
  | .qmap d a lit => Sys2Proof.Machine.execQmap d a lit s
  | .qunmap d lit => Sys2Proof.Machine.execQunmap d lit s
  | .qstat d a lit => Sys2Proof.Machine.execQstat d a lit s
  | .qnotify d lit => Sys2Proof.Machine.execQnotify d lit s
  | .spawn d a b lit => Sys2Proof.Machine.execSpawn d a b lit s
  | .grow d a lit => Sys2Proof.Machine.execGrow d a lit s
  | .job a b lit => Sys2Proof.Machine.execJob a b lit s
  | .launch d a b lit => Sys2Proof.Machine.execLaunch d a b lit s
  | .eqset a lit => Sys2Proof.Machine.execEqset a lit s
  | .unite d a l lit => Sys2Proof.Machine.execUnite d a l lit s
  | .find d a l lit => Sys2Proof.Machine.execFind d a l lit s
  | .same d a l lit => Sys2Proof.Machine.execSame d a l lit s
  | .relabel a lit => Sys2Proof.Machine.execRelabel a lit s
  | .eqsnap d lit => Sys2Proof.Machine.execEqsnap d lit s
  | .equndo d lit => Sys2Proof.Machine.execEqundo d lit s
  | .eqdrop d lit => Sys2Proof.Machine.execEqdrop d lit s
  | .eqsize d lit => Sys2Proof.Machine.execEqsize d lit s
  | .eqfence => Sys2Proof.Machine.execEqfence s
  | .region => Sys2Proof.Machine.execRegion s
  | .sigchk lit => Sys2Proof.Machine.execSigchk lit s
  | .sigset lit => Sys2Proof.Machine.execSigset lit s
  | .trap lit => Sys2Proof.Machine.execTrap lit s
  | .sysc d a lit => Sys2Proof.Machine.execSysc d a lit s
  | .brk => Sys2Proof.Machine.execBrk s
  | .mfs d lit => Sys2Proof.Machine.execMfs d lit s
  | .mts b lit => Sys2Proof.Machine.execMts b lit s
  | .bind a b lit => Sys2Proof.Machine.execBind a b lit s
  | .unbind a lit => Sys2Proof.Machine.execUnbind a lit s
  | .tlbinv a b lit => Sys2Proof.Machine.execTlbinv a b lit s
  | .wcs a b lit => Sys2Proof.Machine.execWcs a b lit s
  | .macroRun n d a b => Sys2Proof.Machine.execMacroRun n d a b s
  | .checkpointSettle uid => Sys2Proof.Machine.execCheckpointSettle uid s
  | .resultLands uid pid => Sys2Proof.Machine.execResultLands uid pid s
  | .coolboxRelease id => Sys2Proof.Machine.execCoolboxRelease id s
  | .releaseWrite id => Sys2Proof.Machine.execReleaseWrite id s
  | .l1Eviction tile ctx va => Sys2Proof.Machine.execL1Eviction tile ctx va s
  | .acknowledgement id => Sys2Proof.Machine.execAcknowledgement id s
  | .atomicPerform id => Sys2Proof.Machine.execAtomicPerform id s
  | .homeCommit id => Sys2Proof.Machine.execHomeCommit id s
  | .aprogRun id => Sys2Proof.Machine.execAprogRun id s
  | .aprogTimeout id => Sys2Proof.Machine.execAprogTimeout id s
  | .moved id => Sys2Proof.Machine.execMoved id s
  | .trapRecordPost id => Sys2Proof.Machine.execTrapRecordPost id s
  | .faultRecordPost id => Sys2Proof.Machine.execFaultRecordPost id s
  | .errorRecordPost id => Sys2Proof.Machine.execErrorRecordPost id s
  | .arrayRebuild tile kind row address other => Sys2Proof.Machine.execArrayRebuild tile kind row address other s
  | .rucksackSpill uid lane => Sys2Proof.Machine.execRucksackSpill uid lane s
  | .rucksackRefill uid lane => Sys2Proof.Machine.execRucksackRefill uid lane s
  | .copySegment cid => Sys2Proof.Machine.execCopySegment cid s
  | .copyWriteLands cid => Sys2Proof.Machine.execCopyWriteLands cid s
  | .cpmAcknowledgement cid tile => Sys2Proof.Machine.execCpmAcknowledgement cid tile s
  | .commandStart tile mid => Sys2Proof.Machine.execCommandStart tile mid s
  | .mldbSegment tile mid => Sys2Proof.Machine.execMldbSegment tile mid s
  | .mmaRow tile mid => Sys2Proof.Machine.execMmaRow tile mid s
  | .mzeroRow tile mid => Sys2Proof.Machine.execMzeroRow tile mid s
  | .mstoreRow tile mid => Sys2Proof.Machine.execMstoreRow tile mid s
  | .mdrainRead tile mid => Sys2Proof.Machine.execMdrainRead tile mid s
  | .mdrainLanding tile mid => Sys2Proof.Machine.execMdrainLanding tile mid s
  | .rowCommit tile hid => Sys2Proof.Machine.execRowCommit tile hid s
  | .commandRetire tile mid => Sys2Proof.Machine.execCommandRetire tile mid s
  | .parentRead wid => Sys2Proof.Machine.execParentRead wid s
  | .lowerStep wid => Sys2Proof.Machine.execLowerStep wid s
  | .linkStep wid => Sys2Proof.Machine.execLinkStep wid s
  | .addStep wid => Sys2Proof.Machine.execAddStep wid s
  | .sameStep wid => Sys2Proof.Machine.execSameStep wid s
  | .relabelRun rid => Sys2Proof.Machine.execRelabelRun rid s
  | .markOperation rid => Sys2Proof.Machine.execMarkOperation rid s
  | .eqCommit hid => Sys2Proof.Machine.execEqCommit hid s
  | .forestRelease fid => Sys2Proof.Machine.execForestRelease fid s
  | .barrierArrival id => Sys2Proof.Machine.execBarrierArrival id s
  | .expectation id => Sys2Proof.Machine.execExpectation id s
  | .engineCredit id => Sys2Proof.Machine.execEngineCredit id s
  | .waitWake uid => Sys2Proof.Machine.execWaitWake uid s
  | .bindingUpdate id => Sys2Proof.Machine.execBindingUpdate id s
  | .reservationGrant uid => Sys2Proof.Machine.execReservationGrant uid s
  | .linkCredit ctx entry => Sys2Proof.Machine.execLinkCredit ctx entry s
  | .strikeReport time sensor area => Sys2Proof.Machine.execStrikeReport time sensor area s
  | .admission wid tile => Sys2Proof.Machine.execAdmission wid tile s
  | .teamEnd uid => Sys2Proof.Machine.execTeamEnd uid s
  | .hamperTimer cluster hamper => Sys2Proof.Machine.execHamperTimer cluster hamper s
  | .teamEviction uid => Sys2Proof.Machine.execTeamEviction uid s
  | .readmission gid tile => Sys2Proof.Machine.execReadmission gid tile s
  | .timetableSlot entry => Sys2Proof.Machine.execTimetableSlot entry s
  | .deferredLaunch entry => Sys2Proof.Machine.execDeferredLaunch entry s
  | .watchdog ctx => Sys2Proof.Machine.execWatchdog ctx s
  | .queueEntryWrite tile entry hi lo => Sys2Proof.Machine.execQueueEntryWrite tile entry hi lo s
  | .clkmodeWrite v => Sys2Proof.Machine.execClkmodeWrite v s
  | .notifyRead thread => Sys2Proof.Machine.execNotifyRead thread s
  | .registerWrite pa n v => Sys2Proof.Machine.execRegisterWrite pa n v s
  | .linkRead port tag ctx va n demand => Sys2Proof.Machine.execLinkRead port tag ctx va n demand s
  | .linkWrite port tag ctx va bytes poison => Sys2Proof.Machine.execLinkWrite port tag ctx va bytes poison s
  | .readData port tag bytes poison => Sys2Proof.Machine.execReadData port tag bytes poison s
  | .writeAcknowledgement port tag => Sys2Proof.Machine.execWriteAcknowledgement port tag s
  | .refused port tag => Sys2Proof.Machine.execRefused port tag s
  | .errorResponse port tag => Sys2Proof.Machine.execErrorResponse port tag s
  | .linkAtomic port tag pa op w x y => Sys2Proof.Machine.execLinkAtomic port tag pa op w x y s
  | .atomicResult port tag v => Sys2Proof.Machine.execAtomicResult port tag v s
  | .hostTimeout port tag => Sys2Proof.Machine.execHostTimeout port tag s
  | .orderingPointAccess id => Sys2Proof.Machine.execOrderingPointAccess id s
  | .rangerLoadStore pa n store v => Sys2Proof.Machine.execRangerLoadStore pa n store v s
  | .hubHoldRelease id => Sys2Proof.Machine.execHubHoldRelease id s
  | .resume tile slot => Sys2Proof.Machine.execResume tile slot s
  | .redirect tile slot => Sys2Proof.Machine.execRedirect tile slot s
  | .killTeam tile slot => Sys2Proof.Machine.execKillTeam tile slot s
  | .killContext tile slot => Sys2Proof.Machine.execKillContext tile slot s
  | .resumepcWrite tile slot v => Sys2Proof.Machine.execResumepcWrite tile slot v s
  | .replay tile slot seq => Sys2Proof.Machine.execReplay tile slot seq s
  | .unresolvable tile slot seq => Sys2Proof.Machine.execUnresolvable tile slot seq s
  | .preempt tile slot v => Sys2Proof.Machine.execPreempt tile slot v s
  | .portBringUp port peer => Sys2Proof.Machine.execPortBringUp port peer s
  | .lossOfLock port wave => Sys2Proof.Machine.execLossOfLock port wave s
  | .trainingDone port failed spareOk => Sys2Proof.Machine.execTrainingDone port failed spareOk s
  | .backInvalidate pa => Sys2Proof.Machine.execBackInvalidate pa s
  | .cxlFailure port => Sys2Proof.Machine.execCxlFailure port s
  | .ptpEventMessage nic master error => Sys2Proof.Machine.execPtpEventMessage nic master error s
  | .clockLock ptp => Sys2Proof.Machine.execClockLock ptp s
  | .holdover => Sys2Proof.Machine.execHoldover s
  | .clkpairLatch => Sys2Proof.Machine.execClkpairLatch s
  | .powerGrant grants => Sys2Proof.Machine.execPowerGrant grants s
  | .powerLimit watts => Sys2Proof.Machine.execPowerLimit watts s
  | .droop tile cycles => Sys2Proof.Machine.execDroop tile cycles s
  | .emergencyThrottleBegin => Sys2Proof.Machine.execEmergencyThrottleBegin s
  | .emergencyThrottleEnd => Sys2Proof.Machine.execEmergencyThrottleEnd s
  | .orderlyShutdown => Sys2Proof.Machine.execOrderlyShutdown s
  | .powerOff => Sys2Proof.Machine.execPowerOff s
  | .packageReset => Sys2Proof.Machine.execPackageReset s
  | .getVersion => Sys2Proof.Machine.execGetVersion s
  | .getCapabilities req => Sys2Proof.Machine.execGetCapabilities req s
  | .negotiateAlgorithms req => Sys2Proof.Machine.execNegotiateAlgorithms req s
  | .getDigests => Sys2Proof.Machine.execGetDigests s
  | .getCertificate slot offset len => Sys2Proof.Machine.execGetCertificate slot offset len s
  | .challenge slot nonce => Sys2Proof.Machine.execChallenge slot nonce s
  | .getMeasurements index sign nonce => Sys2Proof.Machine.execGetMeasurements index sign nonce s
  | .keyExchange req => Sys2Proof.Machine.execKeyExchange req s
  | .finish req => Sys2Proof.Machine.execFinish req s
  | .endSession => Sys2Proof.Machine.execEndSession s
  | .nullCall ctx id => Sys2Proof.Machine.execNullCall ctx id s
  | .launchCall ctx id record => Sys2Proof.Machine.execLaunchCall ctx id record s
  | .launchwait ctx id handle => Sys2Proof.Machine.execLaunchwait ctx id handle s
  | .mapCall ctx id va pages attr frames => Sys2Proof.Machine.execMapCall ctx id va pages attr frames s
  | .unmap ctx id va pages => Sys2Proof.Machine.execUnmap ctx id va pages s
  | .qcreate ctx id kind args => Sys2Proof.Machine.execQcreate ctx id kind args s
  | .qdestroy ctx id handle => Sys2Proof.Machine.execQdestroy ctx id handle s
  | .bindthread ctx id thread => Sys2Proof.Machine.execBindthread ctx id thread s
  | .timeCall ctx id => Sys2Proof.Machine.execTimeCall ctx id s
  | .timetableCall ctx id entry hi lo => Sys2Proof.Machine.execTimetableCall ctx id entry hi lo s
  | .loadpkg ctx id args => Sys2Proof.Machine.execLoadpkg ctx id args s
  | .migrate ctx id target => Sys2Proof.Machine.execMigrate ctx id target s
  | .exitCall ctx id code => Sys2Proof.Machine.execExitCall ctx id code s
  | .logCall ctx id va len => Sys2Proof.Machine.execLogCall ctx id va len s
  | .migrationStream ctx image => Sys2Proof.Machine.execMigrationStream ctx image s
  | .resumptionConfirmed ctx => Sys2Proof.Machine.execResumptionConfirmed ctx s

end Sys2Proof.Machine
end

