-- ==== Sys2Proof/Machine/Riscv.lean ====
section
/-! DEFINITION. The instructions of a Ranger thread as far as they touch registers only (R365: a RISC-V hart of the RV64GC
profile).  The manual names the profile and does not repeat it: what stands here is the RISC-V standard's (PRESUMED, log entry 104). -/

namespace Sys2Proof.Machine

/-! ### Words and their fields -/

def rgOpcode (w : Word) : Nat := bits w.toNat 6 0
def rgRd (w : Word) : Nat := bits w.toNat 11 7
def rgF3 (w : Word) : Nat := bits w.toNat 14 12
def rgRs1 (w : Word) : Nat := bits w.toNat 19 15
def rgRs2 (w : Word) : Nat := bits w.toNat 24 20
def rgRs3 (w : Word) : Nat := bits w.toNat 31 27
def rgF7 (w : Word) : Nat := bits w.toNat 31 25
def rgCsr (w : Word) : Nat := bits w.toNat 31 20

def rgImmI (w : Word) : Dword := (w.extractLsb' 20 12).signExtend 64
def rgImmS (w : Word) : Dword := (w.extractLsb' 25 7 ++ w.extractLsb' 7 5).signExtend 64
def rgImmB (w : Word) : Dword := (w.extractLsb' 31 1 ++ w.extractLsb' 7 1 ++ w.extractLsb' 25 6 ++ w.extractLsb' 8 4 ++ (0 : BitVec 1)).signExtend 64
def rgImmU (w : Word) : Dword := (w.extractLsb' 12 20 ++ (0 : BitVec 12)).signExtend 64
def rgImmJ (w : Word) : Dword := (w.extractLsb' 31 1 ++ w.extractLsb' 12 8 ++ w.extractLsb' 20 1 ++ w.extractLsb' 21 10 ++ (0 : BitVec 1)).signExtend 64

/-- Words from their fields; an immediate is taken modulo its width. -/
def rgI (op f3 rd rs1 imm : Nat) : Word := BitVec.ofNat 32 (imm % 4096 * 2 ^ 20 + rs1 * 2 ^ 15 + f3 * 2 ^ 12 + rd * 2 ^ 7 + op)
def rgS (op f3 rs1 rs2 imm : Nat) : Word :=
  BitVec.ofNat 32 (bits imm 11 5 * 2 ^ 25 + rs2 * 2 ^ 20 + rs1 * 2 ^ 15 + f3 * 2 ^ 12 + bits imm 4 0 * 2 ^ 7 + op)
def rgB (f3 rs1 rs2 imm : Nat) : Word :=
  BitVec.ofNat 32 (bits imm 12 12 * 2 ^ 31 + bits imm 10 5 * 2 ^ 25 + rs2 * 2 ^ 20 + rs1 * 2 ^ 15 + f3 * 2 ^ 12 + bits imm 4 1 * 2 ^ 8 + bits imm 11 11 * 2 ^ 7 + 0x63)
def rgR (op f3 f7 rd rs1 rs2 : Nat) : Word := BitVec.ofNat 32 (f7 * 2 ^ 25 + rs2 * 2 ^ 20 + rs1 * 2 ^ 15 + f3 * 2 ^ 12 + rd * 2 ^ 7 + op)
def rgJ (rd imm : Nat) : Word :=
  BitVec.ofNat 32 (bits imm 20 20 * 2 ^ 31 + bits imm 10 1 * 2 ^ 21 + bits imm 11 11 * 2 ^ 20 + bits imm 19 12 * 2 ^ 12 + rd * 2 ^ 7 + 0x6F)

/-! ### Compressed instructions -/

/-- A number whose sign bit is bit `n` − 1, sign-extended to 21 bits. -/
def rgSext (n v : Nat) : Nat := if bit v (n - 1) then v + 2 ^ 21 - 2 ^ n else v

/-- Quadrant 0: loads and stores of the eight popular registers. -/
def rgExpand0 (c : Nat) : Option Word :=
  let r := 8 + bits c 4 2
  let b := 8 + bits c 9 7
  let w := bits c 12 10 * 8 + bits c 6 6 * 4 + bits c 5 5 * 64
  let d := bits c 12 10 * 8 + bits c 6 5 * 64
  match bits c 15 13 with
  | 0 =>
    let imm := bits c 12 11 * 16 + bits c 10 7 * 64 + bits c 6 6 * 4 + bits c 5 5 * 8
    if imm = 0 then none else some (rgI 0x13 0 r 2 imm)
  | 1 => some (rgI 0x07 3 r b d)
  | 2 => some (rgI 0x03 2 r b w)
  | 3 => some (rgI 0x03 3 r b d)
  | 5 => some (rgS 0x27 3 b r d)
  | 6 => some (rgS 0x23 2 b r w)
  | 7 => some (rgS 0x23 3 b r d)
  | _ => none

/-- Quadrant 1: immediates, register operations, jumps and branches. -/
def rgExpand1 (c : Nat) : Option Word :=
  let rd := bits c 11 7
  let p := 8 + bits c 9 7
  let q := 8 + bits c 4 2
  let imm := rgSext 6 (bits c 12 12 * 32 + bits c 6 2)
  let sh := bits c 12 12 * 32 + bits c 6 2
  match bits c 15 13 with
  | 0 => some (rgI 0x13 0 rd rd imm)
  | 1 => if rd = 0 then none else some (rgI 0x1B 0 rd rd imm)
  | 2 => some (rgI 0x13 0 rd 0 imm)
  | 3 =>
    if rd = 2 then
      let n := rgSext 10 (bits c 12 12 * 512 + bits c 4 3 * 128 + bits c 5 5 * 64 + bits c 2 2 * 32 + bits c 6 6 * 16)
      if n = 0 then none else some (rgI 0x13 0 2 2 n)
    else if sh = 0 then none else some (BitVec.ofNat 32 (imm % 2 ^ 20 * 2 ^ 12 + rd * 2 ^ 7 + 0x37))
  | 4 => match bits c 11 10 with
    | 0 => some (rgI 0x13 5 p p sh)
    | 1 => some (rgI 0x13 5 p p (0x400 + sh))
    | 2 => some (rgI 0x13 7 p p imm)
    | _ => match bits c 12 12 * 4 + bits c 6 5 with
      | 0 => some (rgR 0x33 0 0x20 p p q)
      | 1 => some (rgR 0x33 4 0 p p q)
      | 2 => some (rgR 0x33 6 0 p p q)
      | 3 => some (rgR 0x33 7 0 p p q)
      | 4 => some (rgR 0x3B 0 0x20 p p q)
      | 5 => some (rgR 0x3B 0 0 p p q)
      | _ => none
  | 5 => some (rgJ 0 (rgSext 12 (bits c 12 12 * 2048 + bits c 8 8 * 1024 + bits c 10 9 * 256 + bits c 6 6 * 128 + bits c 7 7 * 64 + bits c 2 2 * 32 +
      bits c 11 11 * 16 + bits c 5 3 * 2)))
  | _ => some (rgB (bits c 13 13) p 0 (rgSext 9 (bits c 12 12 * 256 + bits c 6 5 * 64 + bits c 2 2 * 32 + bits c 11 10 * 8 + bits c 4 3 * 2)))

/-- Quadrant 2: stack accesses, register jumps and moves. -/
def rgExpand2 (c : Nat) : Option Word :=
  let rd := bits c 11 7
  let rs := bits c 6 2
  match bits c 15 13 with
  | 0 => some (rgI 0x13 1 rd rd (bits c 12 12 * 32 + rs))
  | 1 => some (rgI 0x07 3 rd 2 (bits c 12 12 * 32 + bits c 6 5 * 8 + bits c 4 2 * 64))
  | 2 => if rd = 0 then none else some (rgI 0x03 2 rd 2 (bits c 12 12 * 32 + bits c 6 4 * 4 + bits c 3 2 * 64))
  | 3 => if rd = 0 then none else some (rgI 0x03 3 rd 2 (bits c 12 12 * 32 + bits c 6 5 * 8 + bits c 4 2 * 64))
  | 4 =>
    if bits c 12 12 = 0 then
      if rs = 0 then (if rd = 0 then none else some (rgI 0x67 0 0 rd 0)) else some (rgR 0x33 0 0 rd 0 rs)
    else if rs = 0 then (if rd = 0 then some 0x00100073 else some (rgI 0x67 0 1 rd 0)) else some (rgR 0x33 0 0 rd rd rs)
  | 5 => some (rgS 0x27 3 2 rs (bits c 12 10 * 8 + bits c 9 7 * 64))
  | 6 => some (rgS 0x23 2 2 rs (bits c 12 9 * 4 + bits c 8 7 * 64))
  | _ => some (rgS 0x23 3 2 rs (bits c 12 10 * 8 + bits c 9 7 * 64))

/-- The 32-bit instruction that a 16-bit one stands for; none when it is reserved. -/
def rgExpand (c : Nat) : Option Word :=
  match bits c 1 0 with
  | 0 => rgExpand0 c
  | 1 => rgExpand1 c
  | 2 => rgExpand2 c
  | _ => none

/-! ### Integer operations -/

/-- A 32-bit result, sign-extended. -/
def rgWord (v : Word) : Dword := v.signExtend 64

/-- OP and OP-IMM: `alt` is the SUB or arithmetic-shift bit. -/
def rgAlu {w : Nat} (sh : Nat) (f3 : Nat) (alt : Bool) (a b : BitVec w) : BitVec w :=
  match f3 with
  | 0 => if alt then a - b else a + b
  | 1 => a <<< (b.toNat % sh)
  | 2 => BitVec.ofNat w (b2n (decide (a.toInt < b.toInt)))
  | 3 => BitVec.ofNat w (b2n (decide (a.toNat < b.toNat)))
  | 4 => a ^^^ b
  | 5 => if alt then a.sshiftRight (b.toNat % sh) else a >>> (b.toNat % sh)
  | 6 => a ||| b
  | _ => a &&& b

/-- The M extension. -/
def rgMul {w : Nat} (f3 : Nat) (a b : BitVec w) : BitVec w :=
  match f3 with
  | 0 => a * b
  | 1 => BitVec.ofInt w (a.toInt * b.toInt / 2 ^ w)
  | 2 => BitVec.ofInt w (a.toInt * b.toNat / 2 ^ w)
  | 3 => BitVec.ofNat w (a.toNat * b.toNat / 2 ^ w)
  | 4 => if b = 0 then BitVec.allOnes w else BitVec.ofInt w (a.toInt.tdiv b.toInt)
  | 5 => if b = 0 then BitVec.allOnes w else a / b
  | 6 => if b = 0 then a else BitVec.ofInt w (a.toInt.tmod b.toInt)
  | _ => if b = 0 then a else a % b

/-- A register operation: OP with its function field; none when the word is no instruction. -/
def rgOp (f3 f7 : Nat) (a b : Dword) : Option Dword :=
  match f7 with
  | 0 => some (rgAlu 64 f3 false a b)
  | 1 => some (rgMul f3 a b)
  | 0x20 => if f3 = 0 || f3 = 5 then some (rgAlu 64 f3 true a b) else none
  | _ => none

/-- The 32-bit register operations. -/
def rgOpW (f3 f7 : Nat) (a b : Word) : Option Dword :=
  match f7 with
  | 0 => if f3 = 0 || f3 = 1 || f3 = 5 then some (rgWord (rgAlu 32 f3 false a b)) else none
  | 1 => if f3 = 0 || 4 ≤ f3 then some (rgWord (rgMul f3 a b)) else none
  | 0x20 => if f3 = 0 || f3 = 5 then some (rgWord (rgAlu 32 f3 true a b)) else none
  | _ => none

/-- OP-IMM and its 32-bit form. -/
def rgOpImm (w : Word) (a : Dword) : Option Dword :=
  let f3 := rgF3 w
  let top := bits w.toNat 31 26
  if f3 = 1 then (if top = 0 then some (rgAlu 64 1 false a (rgImmI w)) else none)
  else if f3 = 5 then (if top = 0 || top = 0x10 then some (rgAlu 64 5 (top == 0x10) a (BitVec.ofNat 64 (bits w.toNat 25 20))) else none)
  else some (rgAlu 64 f3 false a (rgImmI w))
def rgOpImmW (w : Word) (a : Word) : Option Dword :=
  let sh : Word := BitVec.ofNat 32 (rgRs2 w)
  match rgF3 w, rgF7 w with
  | 0, _ => some (rgWord (a + (rgImmI w).extractLsb' 0 32))
  | 1, 0 => some (rgWord (rgAlu 32 1 false a sh))
  | 5, 0 => some (rgWord (rgAlu 32 5 false a sh))
  | 5, 0x20 => some (rgWord (rgAlu 32 5 true a sh))
  | _, _ => none

/-- Is a branch taken? -/
def rgTaken (f3 : Nat) (a b : Dword) : Option Bool :=
  match f3 with
  | 0 => some (a == b)
  | 1 => some (a != b)
  | 4 => some (decide (a.toInt < b.toInt))
  | 5 => some (decide (b.toInt ≤ a.toInt))
  | 6 => some (decide (a.toNat < b.toNat))
  | 7 => some (decide (b.toNat ≤ a.toNat))
  | _ => none

/-- What an AMO writes: its function, the old value and the register. -/
def rgAmo {w : Nat} (f5 : Nat) (m r : BitVec w) : Option (BitVec w) :=
  match f5 with
  | 0 => some (m + r)
  | 1 => some r
  | 4 => some (m ^^^ r)
  | 8 => some (m ||| r)
  | 12 => some (m &&& r)
  | 16 => some (if m.toInt < r.toInt then m else r)
  | 20 => some (if r.toInt < m.toInt then m else r)
  | 24 => some (if m.toNat < r.toNat then m else r)
  | 28 => some (if r.toNat < m.toNat then m else r)
  | _ => none

/-- A loaded value: LB, LH, LW, LD, LBU, LHU, LWU. -/
def rgLoaded (f3 v : Nat) : Dword :=
  match f3 with
  | 0 => (BitVec.ofNat 8 v).signExtend 64
  | 1 => (BitVec.ofNat 16 v).signExtend 64
  | 2 => (BitVec.ofNat 32 v).signExtend 64
  | _ => BitVec.ofNat 64 v

/-! ### Floating point -/

/-- The format of a width, and a register's value in it: a single is NaN-boxed. -/
def rgFmt (double : Bool) : Fmt := if double then Fmt.f64 else Fmt.f32
def rgUnbox (double : Bool) (v : Dword) : Nat :=
  if double then v.toNat else if v.toNat / 2 ^ 32 = 2 ^ 32 - 1 then v.toNat % 2 ^ 32 else Fmt.f32.nanCode
def rgBox (double : Bool) (v : Nat) : Dword := BitVec.ofNat 64 (if double then v else v + (2 ^ 32 - 1) * 2 ^ 32)

/-- The rounding of a word's field and frm; none when it is reserved. -/
def rgRound (frm rm : Nat) : Option Rm :=
  match if rm = 7 then frm else rm with
  | 0 => some ⟨0, false, false, 0⟩
  | 1 => some ⟨1, false, false, 0⟩
  | 2 => some ⟨3, false, false, 0⟩
  | 3 => some ⟨2, false, false, 0⟩
  | 4 => some ⟨4, false, false, 0⟩
  | _ => none

/-- A float as an integer of a kind: W, WU, L, LU. -/
def rgToInt (rm : Rm) (kind : Nat) (x : Num) : Dword × BitVec 5 :=
  let lo : Int := match kind with | 0 => -(2 ^ 31) | 2 => -(2 ^ 63) | _ => 0
  let hi : Int := match kind with | 0 => 2 ^ 31 - 1 | 1 => 2 ^ 32 - 1 | 2 => 2 ^ 63 - 1 | _ => 2 ^ 64 - 1
  let out (n : Int) : Dword := if kind < 2 then rgWord (BitVec.ofInt 32 n) else BitVec.ofInt 64 n
  match x with
  | .nan _ => (out hi, NV)
  | .inf neg => (out (if neg then lo else hi), NV)
  | .fin neg m e =>
    let (k, inexact) := roundAt rm neg m e 0
    let n : Int := if neg then -(k : Int) else k
    if n < lo then (out lo, NV) else if hi < n then (out hi, NV) else (out n, if inexact then NX else 0)

/-- An integer register as a float. -/
def rgOfInt (f : Fmt) (rm : Rm) (kind : Nat) (x : Dword) : Nat × BitVec 5 :=
  let n : Int := match kind with
    | 0 => (x.extractLsb' 0 32).toInt
    | 1 => (x.toNat % 2 ^ 32 : Nat)
    | 2 => x.toInt
    | _ => x.toNat
  f.round rm (.fin (decide (n < 0)) n.natAbs 0)

/-- FLE, FLT and FEQ. -/
def rgCompare (f3 : Nat) (a b : Num) : Option (Bool × BitVec 5) :=
  let nan := a.isNan || b.isNan
  let quiet : BitVec 5 := if a.isSnan || b.isSnan then NV else 0
  match f3 with
  | 0 => some (!nan && !b.lt a, if nan then NV else 0)
  | 1 => some (!nan && a.lt b, if nan then NV else 0)
  | 2 => some (!nan && !a.lt b && !b.lt a, quiet)
  | _ => none

/-- The result of a floating-point instruction: whether it goes to a float register, its value, and the conditions raised; none when the
word is no instruction.  `x` is the integer register that rs1 names. -/
def rgFloat (w : Word) (frm : Nat) (a b : Dword) (x : Dword) : Option (Bool × Dword × BitVec 5) :=
  let double := bits w.toNat 25 25 = 1
  let f := rgFmt double
  let (p, q) := (rgUnbox double a, rgUnbox double b)
  let float (r : Nat × BitVec 5) : Option (Bool × Dword × BitVec 5) := some (true, rgBox double r.1, r.2)
  let rounded (g : Rm → Option (Bool × Dword × BitVec 5)) : Option (Bool × Dword × BitVec 5) := (rgRound frm (rgF3 w)).bind g
  let wide (v : Nat) : Dword := if double then BitVec.ofNat 64 v else rgWord (BitVec.ofNat 32 v)
  if bits w.toNat 26 26 = 1 then none
  else match bits w.toNat 31 27, rgRs2 w, rgF3 w with
  | 0, _, _ => rounded fun r => float (f.fadd r p q)
  | 1, _, _ => rounded fun r => float (f.fsub r p q)
  | 2, _, _ => rounded fun r => float (f.fmul r p q)
  | 3, _, _ => rounded fun r => float (f.fdiv r p q)
  | 11, 0, _ => rounded fun r => float (f.fsqrt r p)
  | 4, _, 0 => float (f.withSign p (f.negOf q), 0)
  | 4, _, 1 => float (f.withSign p (!f.negOf q), 0)
  | 4, _, 2 => float (f.withSign p (f.negOf p != f.negOf q), 0)
  | 5, _, 0 => float (f.minMax ⟨0, false, false, 0⟩ false true p q)
  | 5, _, 1 => float (f.minMax ⟨0, false, false, 0⟩ true true p q)
  | 8, n, _ =>
    if n = b2n (!double) then rounded fun r => float (f.round r ((rgFmt !double).value (rgUnbox (!double) a))) else none
  | 20, _, f3 => (rgCompare f3 (f.value p) (f.value q)).map fun (y, fl) => (false, BitVec.ofNat 64 (b2n y), fl)
  | 24, n, _ => if 4 ≤ n then none else rounded fun r => let (v, fl) := rgToInt r n (f.value p); some (false, v, fl)
  | 26, n, _ => if 4 ≤ n then none else rounded fun r => float (rgOfInt f r n x)
  | 28, 0, 0 => some (false, wide (if double then a.toNat else a.toNat % 2 ^ 32), 0)
  | 28, 0, 1 => some (false, BitVec.ofNat 64 (f.classMask p), 0)
  | 30, 0, 0 => some (true, rgBox double (if double then x.toNat else x.toNat % 2 ^ 32), 0)
  | _, _, _ => none

/-- FMADD, FMSUB, FNMSUB and FNMADD. -/
def rgFused (w : Word) (frm : Nat) (a b c : Dword) : Option (Dword × BitVec 5) :=
  let double := bits w.toNat 25 25 = 1
  let f := rgFmt double
  let (x, y, z) := (f.value (rgUnbox double a), f.value (rgUnbox double b), f.value (rgUnbox double c))
  if bits w.toNat 26 26 = 1 then none
  else (rgRound frm (rgF3 w)).map fun r =>
    let p := x.mul y
    let p := if bit w.toNat 3 then p.neg else p
    let z := if bit w.toNat 2 then z.neg else z
    let (v, fl) := f.round r (p.add (r.rnd == 3) z)
    (rgBox double v, fl)

end Sys2Proof.Machine
end

