-- ==== Sys2Proof/Machine/Hart.lean ====
section
/-! DEFINITION. Ranger's threads as RISC-V harts (R2, R365, R366, R369, R370, R381, R383), and the resident operating system's serving
of calls from ECALL and SYSC (R370).  What RISC-V itself defines is taken from its standard (PRESUMED, log entry 104). -/

namespace Sys2Proof.Machine

/-! ### Harts and their registers -/

/-- A hart as reset leaves it: it does not run before the boot starts it, and is in machine mode (log entry 104). -/
def Hart.reset : Hart := ⟨false, false, none, 0, List.replicate 32 0, List.replicate 32 0, [], 3, none, 0⟩
def State.hart (s : State) (j : Nat) : Hart := fget Hart.reset s.hub.harts j
def State.setHart (s : State) (j : Nat) (h : Hart) : State := { s with hub := { s.hub with harts := fput Hart.reset s.hub.harts j h } }

/-- Register 0 reads 0 and drops what is written. -/
def Hart.get (h : Hart) (r : Nat) : Dword := if r = 0 then 0 else h.x.getD r 0
def Hart.put (h : Hart) (r : Nat) (v : Dword) : Hart := if r = 0 then h else { h with x := h.x.set r v }
def Hart.freg (h : Hart) (r : Nat) : Dword := h.f.getD r 0

/-- A control and status register as it is held. -/
def Hart.held (h : Hart) (n : Nat) : Dword := fget 0 h.csr n
def Hart.hold (h : Hart) (n : Nat) (v : Dword) : Hart := { h with csr := fput 0 h.csr n v }

/-- mstatus and its fields. -/
def Hart.status (h : Hart) : Nat := (h.held 0x300).toNat
def Hart.setStatus (h : Hart) (hi lo v : Nat) : Hart :=
  h.hold 0x300 (BitVec.ofNat 64 (h.status - bits h.status hi lo * 2 ^ lo + v % 2 ^ (hi + 1 - lo) * 2 ^ lo))
/-- A float register is written: FS becomes dirty. -/
def Hart.putFloat (h : Hart) (r : Nat) (v : Dword) : Hart := { h with f := h.f.set r v }.setStatus 14 13 3
/-- Conditions join fflags. -/
def Hart.raise (h : Hart) (fl : BitVec 5) : Hart := if fl = 0 then h else (h.hold 0x003 (h.held 0x003 ||| fl.zeroExtend 64)).setStatus 14 13 3
def Hart.frm (h : Hart) : Nat := bits (h.held 0x003).toNat 7 5

/-! ### Traps and interrupts of a hart -/

/-- Entering a trap handler, the supervisor's where the cause is delegated and it did not arise in machine mode; `monitor`: an access
that the monitor keeps the operating system from (R369) goes to machine mode. -/
def Hart.trap (h : Hart) (cause tval : Dword) (interrupt monitor : Bool) : Hart :=
  let code : Dword := if interrupt then cause ||| 0x8000000000000000 else cause
  let deleg := if interrupt then h.held 0x303 else h.held 0x302
  let vector (base : Dword) : Dword :=
    if interrupt && bits base.toNat 1 0 = 1 then (base &&& ~~~3) + 4 * cause else base &&& ~~~3
  let h := { h with resv := none, wfi := false }
  if !monitor && h.mode ≤ 1 && bit deleg.toNat cause.toNat then
    let g := (((h.hold 0x141 h.pc).hold 0x142 code).hold 0x143 tval).setStatus 8 8 h.mode
    let g := (g.setStatus 5 5 (bits h.status 1 1)).setStatus 1 1 0
    { g with mode := 1, pc := vector (h.held 0x105) }
  else
    let g := (((h.hold 0x341 h.pc).hold 0x342 code).hold 0x343 tval).setStatus 12 11 h.mode
    let g := (g.setStatus 7 7 (bits h.status 3 3)).setStatus 3 3 0
    { g with mode := 3, pc := vector (h.held 0x305) }

/-- mip: a non-zero notify count is the supervisor external interrupt (R366). -/
def State.hartPending (s : State) (j : Nat) : Nat :=
  let v := ((s.hart j).held 0x344).toNat
  v - bits v 9 9 * 2 ^ 9 + b2n ((s.thread j).notify != 0) * 2 ^ 9

/-- The interrupt that a hart takes now: of those pending and enabled in sie or mie (R383), the machine's before the supervisor's. -/
def State.hartInterrupt (s : State) (j : Nat) : Option Nat :=
  let h := s.hart j
  let both (i : Nat) : Bool := bit (s.hartPending j) i && bit (h.held 0x304).toNat i
  let toS (i : Nat) : Bool := bit (h.held 0x303).toNat i
  let enabled (i : Nat) : Bool := if toS i then h.mode = 0 || (h.mode = 1 && bit h.status 1) else h.mode < 3 || bit h.status 3
  ([11, 3, 7, 9, 1, 5].filter fun i => both i && enabled i).find? fun i => !toS i || ([11, 3, 7, 9, 1, 5].all fun k => !(both k && enabled k && !toS k))

/-- Does a hart in WFI wake: for a non-zero count (R366), or a pending interrupt that is enabled? -/
def State.hartWakes (s : State) (j : Nat) : Bool :=
  (s.thread j).notify != 0 || (List.range 12).any fun i => bit (s.hartPending j) i && bit ((s.hart j).held 0x304).toNat i

/-! ### Memory (R312, R369, R381) -/

/-- What an access of a hart may do: reach a physical address, or trap. -/
inductive HartAccess where
  | ok (pa : Nat)
  | trap (cause : Nat) (monitor : Bool)
deriving DecidableEq, Repr

/-- The fields that only the monitor reaches: the device error ring's block, ROOT and TAG (R381, Table 17-8). -/
def machineOnly (pa : Nat) : Bool := match regOf pa with
  | .errors _ => true
  | .context _ off => off == 0x00 || off == 0x08
  | _ => false

/-- Access-fault and page-fault causes of a fetch (0), a load (1) and a store (2). -/
def accessFault (kind : Nat) : Nat := [1, 5, 7].getD kind 7
def pageFault (kind : Nat) : Nat := [12, 13, 15].getD kind 15

/-- The tenant tag of the process whose tables a hart uses: that of the context with the same root (R368, R369). -/
def State.hartTag (s : State) (root : Nat) : Nat :=
  ((s.ctxs.find? fun c => bit c.root.toNat 0 && bits c.root.toNat 47 12 == root).map (·.tag)).getD 0

/-- Translating an access. Control space stands at its physical addresses, for the monitor and, but for the monitor's fields, the
operating system (R381); below machine mode the tables of Table 15-1 that satp names translate when it is on, and a page with a tag is
kept from the operating system, and from a control program of another tag (R369). -/
def State.hartAddr (s : State) (h : Hart) (mode kind : Nat) (va : Dword) : HartAccess :=
  let a := va.toNat
  let satp := (h.held 0x180).toNat
  if isControl a then (if mode = 3 || (mode = 1 && !machineOnly a) then .ok a else .trap (accessFault kind) false)
  else if mode = 3 || bits satp 63 60 = 0 then (if spaceOf a = .none then .trap (accessFault kind) false else .ok a)
  else if 2 ^ 48 ≤ a then .trap (pageFault kind) false
  else match walkFrom s.mem (fun _ => none) a 3 (bits satp 35 0 * 4096) with
  | .leaf base _ pte =>
    let tag := bits pte.toNat 55 48
    let right := match kind with
      | 0 => bit pte.toNat 60
      | 1 => bit pte.toNat 62 || (bit h.status 19 && bit pte.toNat 60)
      | _ => bit pte.toNat 61
    if mode = 1 && tag != 0 then .trap (accessFault kind) true
    else if tag != 0 && tag != s.hartTag (bits satp 35 0) then .trap (accessFault kind) false
    else if !right then .trap (pageFault kind) false
    else .ok (bits pte.toNat 47 12 * 4096 + (a - base))
  | _ => .trap (pageFault kind) false

/-- The mode of loads and stores (MPRV). -/
def Hart.dataMode (h : Hart) : Nat := if h.mode = 3 && bit h.status 17 then bits h.status 12 11 else h.mode

/-- The name under which a hart's lines come over a link. -/
def hartOwner (j : Nat) : Nat := 2 ^ 50 + j

/-- What a hart's read gives: the bytes, an access fault, or a line that has still to come over its link. -/
inductive HartRead where
  | val (v : Nat)
  | fail
  | away
deriving DecidableEq, Repr

/-- Reading at a physical address: a register, device memory at its home (R312), a window over its link. -/
def State.hartRead (s : State) (j pa n : Nat) : HartRead :=
  if isControl pa then .val (((s.controlReg pa).toNat >>> (pa % 8 * 8)) % 2 ^ (8 * n))
  else match spaceOf pa with
  | .none => .fail
  | .hbm | .cxl => if s.mem.anyPoison pa n || s.cxlFailed pa then .fail else .val (s.mem.nat pa n)
  | .host | .peer => match s.fetchedLine (hartOwner j) pa with
    | none => .away
    | some 0 => .val (s.mem.nat pa n)
    | some _ => .fail

/-- Writing there; a reservation of another hart on those bytes is lost. -/
def State.hartWrite (s : State) (j pa n v : Nat) : State :=
  let data := (toBytes n v).map (·, false)
  let lost (h : Hart) : Hart := if h.resv.any fun r => rangesMeet r.1 r.2.1 pa n then { h with resv := none } else h
  let s := { s with hub := { s.hub with harts := s.hub.harts.map fun (k, h) => (k, if k = j then h else lost h) } }
  if isControl pa then s.writeControl pa n (BitVec.ofNat 64 v)
  else match spaceOf pa with
  | .host | .peer => (s.send Config.tiles 0 0 0 s.now 0 0 pa pa [] (.write [⟨0, pa, data⟩])).2
  | _ => s.memStore pa data

/-! ### Control and status registers (R383) -/

/-- The fields of sstatus, and of mstatus that can be written. -/
def sstatusMask : Dword := 0xC6122
def mstatusMask : Dword := 0x7E79AA

/-- Reading a register: none when the hart has none of that number. -/
def State.csrRead (s : State) (j n : Nat) : Option Dword :=
  let h := s.hart j
  let cycles : Dword := BitVec.ofNat 64 (s.now * 5 / 4)
  match n with
  | 0x001 => some (h.held 0x003 &&& 0x1F)
  | 0x002 => some (BitVec.ofNat 64 h.frm)
  | 0x003 => some (h.held 0x003 &&& 0xFF)
  | 0x100 => some (h.held 0x300 &&& sstatusMask)
  | 0x104 => some (h.held 0x304 &&& h.held 0x303)
  | 0x144 => some (BitVec.ofNat 64 (s.hartPending j) &&& h.held 0x303)
  | 0x344 => some (BitVec.ofNat 64 (s.hartPending j))
  | 0x301 => some 0x800000000014112D
  | 0x5C0 => some (BitVec.ofNat 64 (s.thread j).notify)
  | 0x5C1 => some (BitVec.ofNat 64 j)
  | 0xC00 | 0xB00 => some cycles
  | 0xC01 => some (BitVec.ofNat 64 s.deviceTime)
  | 0xC02 | 0xB02 => some (h.held 0xB02)
  | 0xF11 | 0xF12 | 0xF13 | 0xF15 => some 0
  | 0xF14 => some (BitVec.ofNat 64 j)
  | _ =>
    if [0x105, 0x106, 0x140, 0x141, 0x142, 0x143, 0x180, 0x300, 0x302, 0x303, 0x304, 0x305, 0x306, 0x340, 0x341, 0x342, 0x343].contains n ||
        (0x3A0 ≤ n && n < 0x3F0) then some (h.held n) else none

/-- Writing one. -/
def Hart.csrWrite (h : Hart) (n : Nat) (v : Dword) : Hart :=
  let part (k : Nat) (mask : Dword) : Hart := h.hold k ((h.held k &&& ~~~mask) ||| (v &&& mask))
  match n with
  | 0x001 => (part 0x003 0x1F).setStatus 14 13 3
  | 0x002 => (h.hold 0x003 ((h.held 0x003 &&& 0x1F) ||| ((v &&& 7) <<< 5))).setStatus 14 13 3
  | 0x003 => (part 0x003 0xFF).setStatus 14 13 3
  | 0x100 => part 0x300 sstatusMask
  | 0x104 => part 0x304 (h.held 0x303)
  | 0x144 => part 0x344 (h.held 0x303 &&& 0x2)
  | 0x300 => part 0x300 mstatusMask
  | 0x302 => part n 0xB3FF
  | 0x303 => part n 0x222
  | 0x304 => part n 0xAAA
  | 0x344 => part n 0x222
  | 0x141 | 0x341 => part n (~~~1)
  | 0x301 => h
  | _ => h.hold n v

/-- Every access to NOTIFY returns the count, sets it to 0 and lets the thread drain its queue (R366, R383). -/
def State.notified (s : State) (j : Nat) : State := match execNotifyRead j s with
  | .next s => s
  | _ => s

/-- Is an access to a register illegal: none of that number, too low a mode, a write of a read-only one (5C1 too)? -/
def State.csrIllegal (s : State) (j n : Nat) (writes : Bool) : Bool :=
  let h := s.hart j
  (s.csrRead j n).isNone || h.mode < bits n 9 8 || (writes && (bits n 11 10 = 3 || n = 0x5C1)) || (n ≤ 3 && bits h.status 14 13 = 0) ||
  (n = 0x180 && h.mode = 1 && bit h.status 20)

/-! ### Calls of the resident operating system (R370, Table 17-3) -/

/-- The arguments of a call, true where one is of 64 bits. -/
def callShape (n : Nat) : List Bool := match n with
  | 0x01 => [true]
  | 0x02 => [false]
  | 0x03 => [true, false, false]
  | 0x04 => [true, false]
  | 0x05 => [false, false]
  | 0x06 => [false]
  | 0x07 => [false]
  | 0x09 => [false, true, false, false]
  | 0x0A => [true, false]
  | 0x0B => [true, false]
  | 0x0C => [false]
  | 0x0D => [true, false]
  | _ => []

/-- A team's arguments in k16 to k21: a 64-bit one in the next even pair (R370). -/
def teamArgs (k : List PWord) : List Bool → Nat → List Dword
  | [], _ => []
  | wide :: rest, r =>
    let word (i : Nat) : Word := (k.getD i PWord.zero).w
    if wide then
      let r := r + r % 2
      (word (r + 1) ++ word r) :: teamArgs k rest (r + 2)
    else (word r).zeroExtend 64 :: teamArgs k rest (r + 1)

/-- A hart's: a0 to a5, one each; a 32-bit one's low word. -/
def Hart.args (h : Hart) (shape : List Bool) : List Dword :=
  shape.zipIdx.map fun (wide, i) => if wide then h.get (10 + i) else (h.get (10 + i)) &&& 0xFFFFFFFF

/-- Choices that are the operating system's: numbers the spec leaves open. -/
def drawSome (s : State) : Nat → List Nat × State
  | 0 => ([], s)
  | n + 1 =>
    let (d, s) := draw s
    let (ds, s) := drawSome s n
    (d :: ds, s)

/-- Is a call one of control programs only, or one that may not be done twice (Table 17-3)? -/
def controlOnly (n : Nat) : Bool := [0x02, 0x03, 0x04, 0x07, 0x09, 0x0A, 0x0B, 0x0C].contains n
def callOnce (n : Nat) : Bool := [0x01, 0x03, 0x04, 0x05, 0x06, 0x07, 0x09, 0x0A, 0x0B, 0x0C].contains n

/-- What a call does and gives, but for migrate and exit, with the operating system's choices drawn; a number that is not listed
gives −5 (R371). -/
def State.perform (s : State) (ctx n : Nat) (args : List Dword) : Int × State :=
  let a (i : Nat) : Nat := (args.getD i 0).toNat
  match n with
  | 0x00 => (0, s)
  | 0x01 => s.callLaunch ctx (a 0)
  | 0x02 => (s.callLaunchwait ctx (a 0), s)
  | 0x03 =>
    let (ds, s) := drawSome s (min (a 1) 4096 + 3 * (min (a 1) 4096 / 512 + 2))
    s.callMap ctx (a 0) (a 1) (args.getD 2 0) (ds.map fun d => d % 2 ^ 28 * 4096)
  | 0x04 => s.callUnmap ctx (a 0) (a 1)
  | 0x05 =>
    let (ds, s) := drawSome s 5
    s.callQcreate ctx (a 0) (args.getD 1 0 :: ds.map (BitVec.ofNat 64))
  | 0x06 => s.callQdestroy ctx (args.getD 0 0)
  | 0x07 => s.callBindthread ctx (a 0)
  | 0x08 => (s.deviceTime, s)
  | 0x09 =>
    if 4 ≤ a 3 || 2 ^ 20 ≤ a 2 || 2 ^ 48 ≤ a 1 then (-2, s)
    else s.callTimetable ctx (a 0) (BitVec.ofNat 64 (2 ^ 63 + a 3 * 2 ^ 61 + a 2 * 2 ^ 41 + ctx / 2 ^ 16)) (BitVec.ofNat 64 (ctx % 2 ^ 16 * 2 ^ 48 + a 1))
  | 0x0A =>
    let (ds, s) := drawSome s 4
    s.callLoadpkg ctx (args.take 2 ++ ds.map (BitVec.ofNat 64))
  | 0x0D => s.callLog ctx (a 0) (a 1)
  | _ => (-5, s)

/-- The process that a thread runs: of the context bound to it, or of one that was given it by bindthread (R365). -/
def State.processOf (s : State) (j : Nat) : Option Nat :=
  ((s.ctxs.find? fun c => c.thread == j && decide (4 ≤ j)).map (·.id)).or ((s.hub.procs.find? fun p => p.threads.contains j).map (·.ctx))

/-- A control program's ECALL as the operating system serves it (R370): a7, a0 to a5, and a6. -/
def State.serveHart (s : State) (j ctx : Nat) : State :=
  let h := s.hart j
  let n := (h.get 17).toNat
  let id := h.get 16
  let args := h.args (callShape n)
  let s := s.setHart j { h with calling := some (ctx, id) }
  match n with
  | 0x0B => s.migrateCall ctx id
  | 0x0C => s.exitCall ctx id (args.getD 0 0)
  | _ => s.call ctx id (callOnce n) fun s => s.perform ctx n args

/-- May the operating system serve a team's SYSC now: its record has reached its ring and the thread (R180)? -/
def State.mayServe (s : State) (t : Team) : Bool :=
  s.hub.os && t.status == .trapParked && t.park.any (fun p => p.cause == 16 && !p.record.isEmpty) && !t.sched.preempt &&
  !(s.postings.any fun p => p.uid == t.id.uid) && !s.coolbox.any fun e => e.uid == t.id.uid

/-- A team's SYSC as the operating system serves it (R370): its number, k16 to k21, and k22:k23; the result goes to RESULT, and the team
is resumed. A call that only control programs may make is denied (log entry 129). -/
def State.serveTeam (s : State) (t : Team) : State :=
  let vals : List (Nat × Dword) := match t.park with
    | some p => p.tval
    | none => []
  let n := (vals.headD (0, 0)).2.toNat
  let k := t.arch.k
  let id : Dword := (k.getD 23 PWord.zero).w ++ (k.getD 22 PWord.zero).w
  let (r, s) := if controlOnly n then (some (-4), s) else s.callResult t.id.ctx id (callOnce n) fun s => s.perform t.id.ctx n (teamArgs k (callShape n) 16)
  match r with
  | some r => (s.modWindow t.slotKey fun w => { w with result := BitVec.ofInt 64 r }).cmdResume t.id.tile (t.slotKey % 64)
  | none => s

/-! ### One instruction -/

/-- A hart's trap at its present PC. -/
def State.hartTrap (s : State) (j cause : Nat) (tval : Dword) (monitor : Bool) : State :=
  s.setHart j ((s.hart j).trap (BitVec.ofNat 64 cause) tval false monitor)

/-- An instruction that the hart has not. -/
def State.hartIllegal (s : State) (j : Nat) (w : Word) : State := s.hartTrap j 2 (w.zeroExtend 64) false

/-- A hart goes on after an instruction of `len` bytes. -/
def State.hartNext (s : State) (j len : Nat) (h : Hart) : State := s.setHart j { h with pc := h.pc + BitVec.ofNat 64 len }

/-- A load of `n` bytes, with what is done with them: a misaligned one traps, a line over a link is waited for. -/
def State.hartLoad (s : State) (j : Nat) (va : Dword) (n : Nat) (k : State → Nat → Nat → State) : State :=
  let h := s.hart j
  if va.toNat % n != 0 then s.hartTrap j 4 va false
  else match s.hartAddr h h.dataMode 1 va with
  | .trap c m => s.hartTrap j c va m
  | .ok pa => match s.hartRead j pa n with
    | .fail => s.hartTrap j 5 va false
    | .away => s.fetchLine (hartOwner j) Config.tiles 0 0 0 s.now 0 0 va.toNat pa
    | .val v => k { s with fetched := s.fetched.filter fun x => x.1 != hartOwner j } pa v

/-- A store of `n` bytes. -/
def State.hartStore (s : State) (j : Nat) (va : Dword) (n v len : Nat) : State :=
  let h := s.hart j
  if va.toNat % n != 0 then s.hartTrap j 6 va false
  else match s.hartAddr h h.dataMode 2 va with
  | .trap c m => s.hartTrap j c va m
  | .ok pa => (s.hartWrite j pa n v).hartNext j len h

/-- LR, SC and the AMOs, in one step at the home; a store's rights are needed but for LR. -/
def State.hartAtomic (s : State) (j : Nat) (w : Word) : State :=
  let h := s.hart j
  let n := if rgF3 w = 3 then 8 else 4
  let f5 := bits w.toNat 31 27
  let va := h.get (rgRs1 w)
  let r := h.get (rgRs2 w)
  let shown (v : Nat) : Dword := if n = 8 then BitVec.ofNat 64 v else rgWord (BitVec.ofNat 32 v)
  let put (s : State) (v : Dword) : State := s.hartNext j 4 ((s.hart j).put (rgRd w) v)
  if rgF3 w != 2 && rgF3 w != 3 then s.hartIllegal j w
  else if f5 = 2 then
    if rgRs2 w != 0 then s.hartIllegal j w
    else s.hartLoad j va n fun s pa v => put (s.setHart j { s.hart j with resv := some (pa, n, v) }) (shown v)
  else if va.toNat % n != 0 then s.hartTrap j 6 va false
  else match s.hartAddr h h.dataMode 2 va with
  | .trap c m => s.hartTrap j c va m
  | .ok pa => match s.hartRead j pa n with
    | .fail => s.hartTrap j 7 va false
    | .away => s.fetchLine (hartOwner j) Config.tiles 0 0 0 s.now 0 0 va.toNat pa
    | .val v =>
      let s := { s with fetched := s.fetched.filter fun x => x.1 != hartOwner j }
      let s' := s.setHart j { h with resv := none }
      if f5 = 3 then (if h.resv = some (pa, n, v) then put (s'.hartWrite j pa n r.toNat) 0 else put s' 1)
      else
        let new : Option Nat := if n = 8 then (rgAmo f5 (BitVec.ofNat 64 v) r).map (·.toNat) else (rgAmo f5 (BitVec.ofNat 32 v) (r.extractLsb' 0 32)).map (·.toNat)
        match new with
        | some x => put (s.hartWrite j pa n x) (shown v)
        | none => s.hartIllegal j w

/-- The CSR instructions: the old value goes to rd; an access to NOTIFY clears it whatever its operand (R383). -/
def State.hartCsr (s : State) (j : Nat) (w : Word) : State :=
  let h := s.hart j
  let n := rgCsr w
  let src : Dword := if bit (rgF3 w) 2 then BitVec.ofNat 64 (rgRs1 w) else h.get (rgRs1 w)
  let writes := rgF3 w % 4 = 1 || rgRs1 w != 0
  if s.csrIllegal j n (writes && n != 0x5C0) then s.hartIllegal j w
  else
    let old := (s.csrRead j n).getD 0
    if n = 0x5C0 then (s.notified j).hartNext j 4 (h.put (rgRd w) old)
    else
      let new := match rgF3 w % 4 with
        | 1 => src
        | 2 => old ||| src
        | _ => old &&& ~~~src
      let h := if writes then h.csrWrite n new else h
      s.hartNext j 4 (h.put (rgRd w) old)

/-- ECALL, EBREAK, the returns, WFI and SFENCE.VMA. A control program's ECALL is the operating system's to serve (R370). -/
def State.hartSystem (s : State) (j : Nat) (w : Word) : State :=
  let h := s.hart j
  match w.toNat with
  | 0x00000073 => match if s.hub.os && h.mode = 0 then s.processOf j else none with
    | some ctx => s.serveHart j ctx
    | none => s.hartTrap j (8 + h.mode) 0 false
  | 0x00100073 => s.hartTrap j 3 h.pc false
  | 0x10200073 =>
    if h.mode = 0 || (h.mode = 1 && bit h.status 22) then s.hartIllegal j w
    else
      let g := (((h.setStatus 1 1 (bits h.status 5 5)).setStatus 5 5 1).setStatus 8 8 0)
      s.setHart j { (if h.mode = 3 || bits h.status 8 8 < 3 then g.setStatus 17 17 0 else g) with mode := bits h.status 8 8, pc := h.held 0x141 }
  | 0x30200073 =>
    if h.mode != 3 then s.hartIllegal j w
    else
      let g := (((h.setStatus 3 3 (bits h.status 7 7)).setStatus 7 7 1).setStatus 12 11 0)
      s.setHart j { (if bits h.status 12 11 < 3 then g.setStatus 17 17 0 else g) with mode := bits h.status 12 11, pc := h.held 0x341 }
  | 0x10500073 => if h.mode = 0 || (h.mode = 1 && bit h.status 21) then s.hartIllegal j w else s.hartNext j 4 { h with wfi := true }
  | _ => if rgF7 w = 9 && rgRd w = 0 && h.mode != 0 then s.hartNext j 4 h else s.hartIllegal j w

/-- Running one 32-bit instruction, or what a 16-bit one of `len` bytes stands for. -/
def State.hartExec (s : State) (j : Nat) (w : Word) (len : Nat) : State :=
  let h := s.hart j
  let a := h.get (rgRs1 w)
  let b := h.get (rgRs2 w)
  let (p, q) := (h.freg (rgRs1 w), h.freg (rgRs2 w))
  let put (v : Dword) : State := s.hartNext j len (h.put (rgRd w) v)
  let putIf (v : Option Dword) : State := match v with
    | some v => put v
    | none => s.hartIllegal j w
  let link : Dword := h.pc + BitVec.ofNat 64 len
  let floats := bits h.status 14 13 != 0
  match rgOpcode w with
  | 0x37 => put (rgImmU w)
  | 0x17 => put (h.pc + rgImmU w)
  | 0x6F => s.setHart j { h.put (rgRd w) link with pc := h.pc + rgImmJ w }
  | 0x67 => if rgF3 w != 0 then s.hartIllegal j w else s.setHart j { h.put (rgRd w) link with pc := (a + rgImmI w) &&& ~~~1 }
  | 0x63 => match rgTaken (rgF3 w) a b with
    | some t => s.setHart j { h with pc := if t then h.pc + rgImmB w else link }
    | none => s.hartIllegal j w
  | 0x03 =>
    if rgF3 w = 7 then s.hartIllegal j w
    else s.hartLoad j (a + rgImmI w) (2 ^ (rgF3 w % 4)) fun s _ v => s.hartNext j len ((s.hart j).put (rgRd w) (rgLoaded (rgF3 w) v))
  | 0x23 => if 4 ≤ rgF3 w then s.hartIllegal j w else s.hartStore j (a + rgImmS w) (2 ^ rgF3 w) (b.toNat % 2 ^ (8 * 2 ^ rgF3 w)) len
  | 0x13 => putIf (rgOpImm w a)
  | 0x1B => putIf (rgOpImmW w (a.extractLsb' 0 32))
  | 0x33 => putIf (rgOp (rgF3 w) (rgF7 w) a b)
  | 0x3B => putIf (rgOpW (rgF3 w) (rgF7 w) (a.extractLsb' 0 32) (b.extractLsb' 0 32))
  | 0x0F => if 2 ≤ rgF3 w then s.hartIllegal j w else s.hartNext j len h
  | 0x2F => s.hartAtomic j w
  | 0x73 => if rgF3 w = 4 then s.hartIllegal j w else if rgF3 w = 0 then s.hartSystem j w else s.hartCsr j w
  | 0x07 =>
    if !floats || (rgF3 w != 2 && rgF3 w != 3) then s.hartIllegal j w
    else s.hartLoad j (a + rgImmI w) (2 ^ rgF3 w) fun s _ v => s.hartNext j len ((s.hart j).putFloat (rgRd w) (rgBox (rgF3 w == 3) v))
  | 0x27 =>
    if !floats || (rgF3 w != 2 && rgF3 w != 3) then s.hartIllegal j w
    else s.hartStore j (a + rgImmS w) (2 ^ rgF3 w) (q.toNat % 2 ^ (8 * 2 ^ rgF3 w)) len
  | 0x43 | 0x47 | 0x4B | 0x4F => match if floats then rgFused w h.frm p q (h.freg (rgRs3 w)) else none with
    | some (v, fl) => s.hartNext j len ((h.putFloat (rgRd w) v).raise fl)
    | none => s.hartIllegal j w
  | 0x53 => match if floats then rgFloat w h.frm p q a else none with
    | some (true, v, fl) => s.hartNext j len ((h.putFloat (rgRd w) v).raise fl)
    | some (false, v, fl) => s.hartNext j len ((h.put (rgRd w) v).raise fl)
    | none => s.hartIllegal j w
  | _ => s.hartIllegal j w

/-- Fetching two bytes. -/
def State.hartFetch (s : State) (j : Nat) (va : Dword) (k : State → Nat → State) : State :=
  let h := s.hart j
  match s.hartAddr h h.mode 0 va with
  | .trap c m => s.hartTrap j c va m
  | .ok pa => match s.hartRead j pa 2 with
    | .fail => s.hartTrap j 1 va false
    | .away => s.fetchLine (hartOwner j) Config.tiles 0 0 0 s.now 0 0 va.toNat pa
    | .val v => k s v

/-- One instruction of a hart, or the interrupt it takes. -/
def State.hartRun (s : State) (j : Nat) : State :=
  match s.hartInterrupt j with
  | some i => s.setHart j ((s.hart j).trap (BitVec.ofNat 64 i) 0 true false)
  | none =>
    let s := s.setHart j { s.hart j with wfi := false }
    let pc := (s.hart j).pc
    s.hartFetch j pc fun s lo =>
      if lo % 4 = 3 then s.hartFetch j (pc + 2) fun s hi => s.hartExec j (BitVec.ofNat 32 (lo + hi * 2 ^ 16)) 4
      else match rgExpand lo with
      | some w => s.hartExec j w 2
      | none => s.hartIllegal j (BitVec.ofNat 32 lo)

/-- May a hart step in this cycle? -/
def State.hartDue (s : State) (j : Nat) : Bool :=
  let h := s.hart j
  h.run && h.calling.isNone && decide (h.due ≤ 5 * s.now) && !s.fetching (hartOwner j) && (!h.wfi || s.hartWakes j || (s.hartInterrupt j).isSome)

/-- A step of the first hart that is due: its clock runs at five cycles to the tiles' four (R2), and minstret counts it. -/
def State.hartStep (s : State) : Option State :=
  (s.hub.harts.find? fun (j, _) => s.hartDue j).map fun (j, h) =>
    (s.setHart j ({ h with due := max h.due (5 * s.now - 4) + 4 }.hold 0xB02 (h.held 0xB02 + 1))).hartRun j

/-- What the resident system does by itself: its harts' instructions, and the calls of teams that it serves. -/
def State.rangerStep (s : State) : Option State := s.hartStep.or ((s.allTeams.find? s.mayServe).map s.serveTeam)

end Sys2Proof.Machine
end

