-- ==== Sys2Proof/Machine/Sequence.lean ====
section
/-! DEFINITION. What happens next: the steps of the outside world, a privileged issue, the units' own steps, a
team's issue, and the passing of a cycle with its counters. -/

namespace Sys2Proof.Machine

/-! ### What the units have due

The order of these lists is the order in which steps of one cycle are taken; where the spec orders them (R180, R407, R431, R461)
it is the spec's, else a choice (log entry 2). -/

/-- The step of the outside world that comes now: the first whose time has come. -/
def State.arriving (s : State) : Option (Instr × State) :=
  match s.inbox with
  | (t, i) :: rest => if t ≤ s.now then some (i, { s with inbox := rest }) else none
  | [] => none

/-- Held effects that can leave, by tile and side, records of traps by ascending PLACE (R180). -/
def State.dueReleases (s : State) : List Instr :=
  let key (e : Held) : Nat := match e.eff with
    | .trap _ => 2 ^ 40 + ((s.team? e.uid).map (·.place)).getD 0
    | _ => e.tile * 2 + e.side
  ((sortBy key (s.coolbox.filter s.canRelease)).map fun e => .coolboxRelease e.id) ++
  (s.net.filter fun x => x.point == 9999 && !x.act.isReply).map fun x => .releaseWrite x.id

/-- Held results and writes whose Q cycles are over. -/
def State.dueHolds (s : State) : List Instr :=
  (s.homeHolds.map fun h => .homeCommit h.id) ++ (s.copies.map fun c => .copyWriteLands c.cid) ++
  (s.engines.flatMap fun (k, g) => g.holds.map fun h => if g.drains h then .mdrainLanding k h.hid else .rowCommit k h.hid) ++
  (s.eq.holds.map fun h => .eqCommit h.hid) ++ (s.hub.hold.map fun h => .hubHoldRelease h.id) ++
  s.copies.flatMap fun c => (c.acks.filter fun a => a.2 == 0).map fun (t, _) => .cpmAcknowledgement c.cid (ownerTile (c.dsts.getD t 0))

/-- A request is not performed before an older one of its team to its page that was answered "moved" (R293). -/
def State.afterMoved (s : State) (x : Net) : Bool :=
  (s.net.takeWhile fun y => y.id != x.id).any fun y => y.uid == x.uid && y.ctx == x.ctx && y.va / 4096 == x.va / 4096 && y.tries != 0 && !y.act.isReply

/-- Where operations of one cycle on a barrier stand (R407): others and BINIT, arrivals and credits, expectations, reads. -/
def Net.rank (x : Net) : Nat := match x.act with
  | .arrive .. | .credit .. => 1
  | .expect .. => 2
  | .object .. => if isScratch x.pa then 3 else 0
  | _ => 0

/-- The issuer's place for the order of one cycle; an engine's credit counts as from side 0 of its tile (R407). -/
def Net.from_ (x : Net) : Nat := match x.act with
  | .arrive .. | .expect .. => x.tile * 2 + x.side
  | .credit .. => x.tile * 2
  | _ => 0

/-- The step that performs a request. -/
def State.netStep (s : State) (x : Net) : Instr :=
  if s.isMoving x.pa then .moved x.id
  else match x.act with
  | .atomic .. => if isWindow x.pa then .orderingPointAccess x.id else .atomicPerform x.id
  | .aprog _ r => if s.aprogLate x r then .aprogTimeout x.id else .aprogRun x.id
  | .arrive .. => .barrierArrival x.id
  | .expect .. => .expectation x.id
  | .credit .. => .engineCredit x.id
  | .bind .. | .unbind .. => .bindingUpdate x.id
  | _ => .orderingPointAccess x.id

/-- Is an answer that of a routine's run? -/
def Act.isRun : Act → Bool
  | .ack _ _ _ _ _ 64 => true
  | _ => false

/-- Do the four home cores of a slice all run (R2)? -/
def State.coresBusy (s : State) (point : Nat) : Bool :=
  decide (4 ≤ (s.homeHolds.filter fun h => h.home + 1024 == point && decide (s.now < h.formed) && h.reply.act.isRun).length)

/-- An APROG waits for a home core; what arrives for its line after it waits behind it, so the line's order is that of arrival. -/
def State.coreWaits (s : State) (x : Net) : Bool :=
  s.coresBusy x.point &&
  ((match x.act with | .aprog .. => true | _ => false) ||
    s.net.any fun y => y.point == x.point && y.pa / 64 == x.pa / 64 && decide (y.due < x.due) && match y.act with | .aprog .. => true | _ => false)

/-- Does a request wait for its owner port's or its home's array (R216)? -/
def State.arrayBusy (s : State) (x : Net) : Bool :=
  if isScratch x.pa then s.rebuilding (ownerTile x.pa) 1 (x.pa / 64 * 64) 64 else s.rebuilding 0 9 (x.pa / 64 * 64) 64

/-- Requests of a rank that have arrived. -/
def State.dueNet (s : State) (rank : Nat) : List Instr :=
  let xs := s.net.filter fun x =>
    decide (x.due ≤ s.now) && !x.act.isReply && x.point != 9999 && x.rank == rank && !s.afterMoved x && !s.isHeld x.pa && !s.coreWaits x && !s.arrayBusy x
  (sortBy (fun x => x.due * 4096 + x.from_) xs).map s.netStep

/-- Answers that have arrived, and commands that can retire. -/
def State.dueAnswers (s : State) : List Instr :=
  ((sortBy (·.due) (s.net.filter fun x => decide (x.due ≤ s.now) && x.act.isReply)).map fun x => .acknowledgement x.id) ++
  s.engines.flatMap fun (k, g) => (g.cmds.filter fun c => s.canRetire k c).map fun c => .commandRetire k c.mid

/-- Steps of teams: waking, landing results, checkpoints that age. -/
def State.dueTeams (s : State) : List Instr :=
  s.allTeams.flatMap fun t =>
    (if s.wakes t then [.waitWake t.id.uid] else []) ++
    ((t.pend.filter fun p => p.lands s.now).map fun p => .resultLands t.id.uid p.id) ++
    (if (t.settleCkpts s.now).ckpts = t.ckpts then [] else [.checkpointSettle t.id.uid])

/-- Steps of the copy engines and matrix engines. -/
def State.dueEngines (s : State) : List Instr :=
  ((s.copies.filter s.canSegment).map fun c => .copySegment c.cid) ++
  s.engines.flatMap fun (k, g) => g.cmds.flatMap fun c =>
    if s.canStart k c then [.commandStart k c.mid]
    else if s.canLoad k c then [.mldbSegment k c.mid]
    else if s.canRow k c then
      [match c.op with
       | 4 => .mzeroRow k c.mid
       | 5 => .mstoreRow k c.mid
       | 6 => .mdrainRead k c.mid
       | _ => .mmaRow k c.mid]
    else []

/-- The next step of a walk. -/
def Walk.step (w : Walk) : List Instr := match w.stage with
  | .find .. => [.parentRead w.wid]
  | .lower .. => [.lowerStep w.wid]
  | .link => [.linkStep w.wid]
  | .add .. => [.addStep w.wid]
  | .check => [.sameStep w.wid]
  | .done .. => []

/-- Steps of the equivalence engines. -/
def State.dueForests (s : State) : List Instr :=
  (s.eq.walks.flatMap fun w => if (s.stepping w).isSome then w.step else []) ++
  (s.eq.reqs.flatMap fun r => if (s.acting r).isNone then [] else if r.kind = 3 then (if s.canRelabel r then [.relabelRun r.rid] else []) else [.markOperation r.rid]) ++
  (s.eq.forests.filter s.canDrop).map fun f => .forestRelease f.fid

/-- Records that can be posted, in the order in which they left (R180). -/
def State.dueRecords (s : State) : List Instr :=
  (s.postings.filter s.canPost).map fun p => match p.kind with
    | .trap => .trapRecordPost p.id
    | .fault => .faultRecordPost p.id
    | .error => .errorRecordPost p.id

/-- Does the side's selection prefer one team to another: the highest class, then the oldest last issue, then the lowest slot? -/
def prefersTeam (x y : Team) : Bool :=
  decide (y.id.cls < x.id.cls) || (x.id.cls == y.id.cls && (decide (x.sched.lastIssue < y.sched.lastIssue) ||
    (x.sched.lastIssue == y.sched.lastIssue && decide (x.id.slot < y.id.slot))))

/-- Teams in the order in which their sides would issue them (R91, R462). -/
def inIssueOrder (ts : List Team) : List Team :=
  let insert (l : List Team) (t : Team) : List Team := l.takeWhile (fun u => !prefersTeam t u) ++ t :: l.dropWhile fun u => !prefersTeam t u
  ts.foldl insert []

/-- Transfers of the Rucksacks, and reservations that can be granted by ascending tile and side (R431). -/
def State.dueFrames (s : State) : List Instr :=
  ((inIssueOrder s.allTeams).flatMap fun t => (if (s.entryToWrite t).isSome then [.rucksackSpill t.id.uid 1024] else []) ++
    (List.range t.frames.length).flatMap fun l => match s.transferOf t l with
    | some .move | some (.spill _) => [.rucksackSpill t.id.uid l]
    | some (.refill _) | some (.raise _) => [.rucksackRefill t.id.uid l]
    | none => []) ++
  (sortBy sideOf (s.allTeams.filter fun t => t.wants.isSome)).map fun t => .reservationGrant t.id.uid

/-- Steps of the dispatcher: ends, Hampers, readmission ahead of admission (R463), eviction, Timetable and watchdogs. -/
def State.dueWork (s : State) : List Instr :=
  let tiles := List.range Config.tiles
  ((s.allTeams.filter s.canEnd).map fun t => .teamEnd t.id.uid) ++
  ((s.disp.hampers.filter fun h => !h.formed && !h.tasks.isEmpty).map fun h => .hamperTimer h.cluster h.index) ++
  ((s.disp.groups.filter fun g => s.disp.images.any fun t => t.id.gid == g.gid).flatMap fun g =>
    if g.saved.isNone then [.readmission g.gid g.tile] else ((tiles.find? fun t => (s.readmit g t).isSome).map fun t => .readmission g.gid t).toList) ++
  (s.waiting.flatMap fun w => match tiles.find? fun t => (s.admitNext w t).isSome with
    | some t => [.admission w.id t]
    | none => if s.wantsArea w then [.admission w.id 0] else []) ++
  ((s.allTeams.filter s.evictable).map fun t => .teamEviction t.id.uid) ++
  ((s.disp.timetable.filter fun (_, e) => e.valid && decide (e.next ≤ s.deviceTime)).map fun (k, _) => .timetableSlot k) ++
  ((s.disp.timetable.filter fun (_, e) => e.deferred).map fun (k, _) => .deferredLaunch k) ++
  (s.ctxs.filter s.windowOver).map fun c => .watchdog c.id

/-- Steps of the hub and the caches: consumed counts, timeouts, clocks, power, and an eviction when a tile's L1 holds more than its
4,096 lines (R211). -/
def State.dueHub (s : State) : List Instr :=
  (s.ctxs.flatMap fun c => c.links.filterMap fun (e, q) => if q.valid && q.passed != q.rsv || q.valid && q.consumed != q.sent then some (.linkCredit c.id e) else none) ++
  (s.hub.outstanding.map fun o => .hostTimeout o.port o.tag) ++
  (if s.latchDue then [.clkpairLatch] else []) ++ (if s.offDue then [.powerOff] else []) ++
  if s.mem.lines.length ≤ 4096 then []
  else ((s.mem.lines.find? fun l => decide (4096 < (s.mem.lines.filter fun k => k.tile == l.tile).length)).map fun l => .l1Eviction l.tile l.ctx l.va).toList

/-- Everything that may be due, in order. -/
def State.due (s : State) : List Instr :=
  s.dueReleases ++ s.dueHolds ++ s.dueNet 0 ++ s.dueAnswers ++ s.dueNet 1 ++ s.dueNet 2 ++ s.dueNet 3 ++ s.dueTeams ++ s.dueEngines ++
  s.dueForests ++ s.dueRecords ++ s.dueFrames ++ s.dueWork ++ s.dueHub

/-- Would a step change anything now? -/
def State.acts (s : State) (i : Instr) : Bool := match exec i s with
  | .next t => decide (t ≠ s)
  | _ => true

/-- The first step that a unit has due. -/
def State.nextEvent (s : State) : Option Instr := s.due.find? s.acts

/-! ### Traps at boundaries, pre-emption, migration -/

/-- A team takes its first deferred trap at its instruction boundary: it stops at the instruction it would issue next; one whose
lanes have ended has its record posted (R246, R273). RESUMEPC is that instruction, or the trapping one for a Format L instruction, a
matrix drain and a fetch (R47, R182, R273). -/
def State.takeDeferred (s : State) (t : Team) (d : Deferred) : State :=
  let s := s.modTeam t.id.uid fun t => { t with deferred := t.deferred.drop 1 }
  if t.ending then
    (s.deferFor t.id.uid t.id.tile t.id.ctx d).settleCommands t.id.tile fun c => c.uid == t.id.uid && c.pc == d.pc && c.issue == d.time
  else
    let fetch := d.cause == 11
    let stop := if fetch then d.pc else ((t.current).map (·.pc)).getD t.arch.pc
    let drain := decide ((opcode d.word).toNat = 0x406) && t.pend.any fun p => p.pc == d.pc && p.issue == d.time
    let s := if drain then s.modTeam t.id.uid fun t => { t with pend := t.pend.filter fun p => !(p.pc == d.pc && p.issue == d.time) } else s
    let s := if fetch then s.modTeam t.id.uid fun t => { t with sched := { t.sched with parked := t.sched.parked.filter (· != d.pc) } } else s
    let i : TrapInfo := ⟨d.cause, d.mask, d.tval, d.word, false, d.pc, d.time, if drain || fetch || d.replay then d.pc else stop, none, d.replay⟩
    if d.cause = 19 then rollbackOrTrap s t.id.uid stop i else s.takeTrap t.id.uid stop i

/-- May a team take its first deferred trap now? The fault of a fetch waits for another group's REP or macro to end (R85). -/
def Team.atBoundary (t : Team) (d : Deferred) : Bool :=
  (t.status == .running || t.status == .waiting) && !(d.cause == 11 && t.inSequence && t.arch.pc != d.pc)

/-- A deferred trap is taken at the team's instruction boundary (R246). -/
def State.boundary (s : State) : Option State :=
  firstSome (fun t => match t.deferred with
    | d :: _ => if t.atBoundary d then some (s.takeDeferred t d) else none
    | [] => none) s.allTeams

/-- What goes on in the background: replies kept in images, pages that move, pre-emptions, migrations, and what the resident
system does. -/
def State.background (s : State) : Option State := s.keptReply.or (s.moveStep.or (s.drainStep.or (s.migrateStep.or s.rangerStep)))

/-! ### Issue selection (R462, R82, R88) -/

/-- Is a team ready to issue (R462)? One whose Format L instruction has failed on a lane stops until its trap is taken (R47). -/
def State.isReady (s : State) (t : Team) : Bool :=
  t.status == .running && !t.ending && decide (t.sched.stallTime ≤ s.now) && !t.sched.preempt && !t.fetchStuck && !t.pend.any fun p => p.failed != 0

/-- The team of a list that the rule chooses. -/
def firstTeam (ts : List Team) : Option Team := ts.foldl (fun b t => match b with
  | none => some t
  | some u => if prefersTeam t u then some t else some u) none

/-- The team that a side selects: one that has yielded is passed over once when another is ready (R82). -/
def State.pick (s : State) (side : Nat) : Option Team :=
  let ts := s.allTeams.filter fun t => sideOf t == side && s.isReady t
  match firstTeam ts with
  | some t => if t.sched.passOver then (firstTeam (ts.filter fun u => u.id.uid != t.id.uid)).or (some t) else some t
  | none => none

/-- May a side select in this cycle: it has not issued, is not occupied, and its cycle is not withheld (R399)? -/
def State.mayIssue (s : State) (side : Nat) : Bool :=
  !s.issued.contains side && decide (fget 0 s.busy side ≤ s.now) && decide (fget 0 s.hub.power.withheld (side / 2) ≤ s.now)

/-- The next side that can select in this cycle, in ascending order (R431), with the team it selects brought in. -/
def State.select (s : State) : Option State :=
  firstSome (fun side => (s.pick side).map fun t =>
    let clear (u : Team) : Team := if sideOf u = side then { u with sched := { u.sched with passOver := false } } else u
    let s := s.bringIn t.id.uid
    { s with cur := clear s.cur, teams := s.teams.map clear }) (sortBy (fun d => d) ((s.allTeams.map sideOf).filter s.mayIssue))

/-- The moved group that the rule would choose first. -/
def Team.firstMoved (t : Team) : Option Moved :=
  (t.choose (t.arch.moved.map (·.group))).bind fun g => t.arch.moved.find? fun m => m.group.pc == g.pc

/-- The moved group that the team needs before it issues again: one that lanes have joined, or the one that would issue (R88). -/
def Team.neededMoved (t : Team) : Option Moved :=
  (t.arch.moved.find? (·.joins != 0)).or (t.current.bind fun g => t.arch.moved.find? fun m => m.group.pc == g.pc)

/-- The issuing team makes a frame wait (R88, R92). -/
def State.waitFrames (s : State) : State := { s with cur := { s.cur with sched := { s.cur.sched with stallCause := 2, stallTime := s.now + 1 } } }

/-- A moved group is brought back: its page is read, or faults; in a full table the group the rule would choose last goes out (R88, R94). -/
def State.bringBack (s : State) (m : Moved) : State :=
  let t := s.cur
  match s.transferBlocked t (entryItem m.entry) (t.overflowAddr m.entry) m.group.mask Need.r with
  | some s => s
  | none =>
    let t := if 32 ≤ t.arch.groups.length then t.moveOut else t
    ({ s with cur := t } : State).readEntry t m

/-- Moved groups before an issue: entries that have still to be written and groups that are needed are waited for; otherwise one returns
when an entry is free, the one that the rule would choose first (R88). -/
def State.returnGroups (s : State) : Option State :=
  let t := s.cur
  let parked (m : Moved) : Bool := s.rucksackParked t.id.uid (1024 + m.entry)
  if t.arch.moved.isEmpty then none
  else if t.arch.moved.any fun m => !m.stored then some s.waitFrames
  else match t.neededMoved with
    | some m => some (if parked m then s.waitFrames else (s.bringBack m).waitFrames)
    | none =>
      if t.arch.groups.length < 32 then
        match t.firstMoved with
        | some m => if parked m then none else some (s.bringBack m).waitFrames
        | none => none
      else none

/-- Is a lane's live range resident? -/
def Team.liveResident (t : Team) (l : Nat) : Bool :=
  let (a, b) := liveRange (t.lane l).fp.toNat
  decide ((t.frame l).lo ≤ a) && decide (b ≤ (t.frame l).hi)

/-- Frames that a team waits for before it issues: the links of a redirect (R183), and after a readmission every live range (R96). -/
def State.awaitFrames (s : State) : Bool × State :=
  let t := s.cur.writeLinks
  let back := t.sched.refilling && !(List.range t.width).all t.liveResident
  let s := { s with cur := { t with sched := { t.sched with refilling := back } } }
  if back || !t.links.isEmpty then (true, s.waitFrames) else (false, s)

/-- Does a team wait for its checkpoint store, its group table or the control store word it issues (R216)? -/
def State.teamRebuilding (s : State) (g : Group) : Bool :=
  let t := s.cur
  s.rebuilding t.id.tile 7 t.id.slot 1 || s.rebuilding t.id.tile 8 t.id.slot 1 ||
  match t.arch.mac, s.codeWord t g.pc with
  | some j, .word w => s.rebuilding t.id.tile 6 (32 * (ext w 21 7).toNat + j) 1
  | _, _ => false

/-- Does a team wait, from their issue until they land, for an MDRAIN's values or an answer of the equivalence engine (R269, R353,
R356)? -/
def Team.suspendedFor (t : Team) : Option Nat :=
  if t.pend.any fun p => (opcode p.word).toNat = 0x406 then some 17
  else if t.pend.any fun p => [0x505, 0x506, 0x507, 0x508].contains (opcode p.word).toNat then some 14
  else none

/-- A selected team issues: moved groups and frames come back first, a macro that has ended is left behind, then the instruction at its
PC is fetched and run. -/
def State.issueNext (s : State) : Host.Outcome State Fault Refusal :=
  match s.cur.suspendedFor, s.returnGroups with
  | some c, _ => .next { s with cur := { s.cur with sched := { s.cur.sched with stallCause := c, stallTime := s.now + 1 } } }
  | none, some s => .next s
  | none, none =>
    let (waits, s) := s.awaitFrames
    if waits then .next s
    else
      let s := s.endMacro
      match s.cur.current with
      | none => .next s
      | some g =>
        if s.teamRebuilding g then .next { s with cur := { s.cur with sched := { s.cur.sched with stallCause := 12, stallTime := s.now + 1 } } }
        else match s.fetch s.cur g with
        | .instr i => exec i s
        | f => .next (s.fetchStops f)

/-! ### Stall counters and the passing of a cycle (R420) -/

/-- What a side counts a cycle to; 1 stands for idle. -/
def State.sideCause (s : State) (side : Nat) : Nat :=
  let upTo (k : Nat) : Bool := decide (s.now < fget 0 s.busy (k + side))
  if upTo 8192 then 0
  else if upTo 16384 then 4
  else if upTo 0 || decide (s.now < fget 0 s.hub.power.withheld (side / 2)) then 19
  else match firstTeam (s.allTeams.filter fun t => sideOf t == side && !t.ending && t.status != .preempted) with
    | none => 1
    | some t => match t.status with
      | .trapParked => 20
      | .faultParked => 11
      | .waiting => 8
      | _ => if t.fetchStuck then 11 else if t.sched.stallCause = 0 then 1 else t.sched.stallCause

/-- The lowest-numbered cause that holds. -/
def lowestCause (cs : List Bool) : Option Nat := cs.findIdx? fun b => b

/-- What a copy engine counts a cycle to, none when it is idle. -/
def State.copyCause (s : State) (tile : Nat) : Option Nat :=
  let cs := s.copies.filter fun c => c.tile == tile && c.started && !c.finished
  if cs.isEmpty then none
  else lowestCause [cs.any fun c => c.held.any fun (_, t, _) => t == s.now, cs.any fun c => s.fetching c.cid, cs.any fun c => !c.writes.isEmpty,
    cs.any fun c => !c.held.isEmpty, cs.any fun c => c.parked, decide (s.now < fget 0 s.hub.power.withheld tile)]

/-- What a matrix engine counts a cycle to, none when it is idle. -/
def State.engineCause (s : State) (tile : Nat) (g : Engine) : Option Nat :=
  let waiting := g.cmds.filter fun c => !c.started && c.written && !c.void
  let ready (f : Channel → Command → Bool) : Bool := waiting.any fun c => (g.channel? c.chan).any fun k => f k c
  lowestCause [g.cmds.any fun c => c.started && c.compute && decide (s.now < c.busyUntil), ready fun k c => !s.mxWaitOver tile k c.record,
    g.cmds.any fun c => s.fetching c.mid, ready fun _ c => !hazardsClear (g.before c) c, g.cmds.any fun c => c.parked,
    g.channels.any fun k => k.halted, decide (s.now < fget 0 s.hub.power.withheld tile)]

/-- What a side's Rucksack counts a cycle to, none when it is idle. -/
def State.rucksackCause (s : State) (side : Nat) (ts : List Team) : Option Nat :=
  lowestCause [decide (s.now < fget 0 s.busy (4096 + side)), ts.any fun t => t.frames.any fun f => !f.spilling.isEmpty,
    ts.any fun t => s.faults.any fun f => f.uid == t.id.uid && f.unit == 3]

/-- What an equivalence engine counts a cycle to, none when it is idle. -/
def State.forestCause (s : State) (engine : Nat) : Option Nat :=
  let of_ (rid : Nat) : Bool := (s.req? rid).any fun r => (s.forest? r.forest).any fun f => f.engine == engine
  let ws := s.eq.walks.filter fun w => of_ w.rid
  let rs := s.eq.reqs.filter fun r => r.arrived.isSome && of_ r.rid
  lowestCause [ws.any fun w => !w.parked && (s.stepping w).isSome, decide (256 ≤ ws.length), ws.any fun w => s.fetching w.wid, rs.any fun r => s.quiesced r,
    ws.any fun w => w.parked]

/-- The counters of a cycle (R420): every unit that is not idle adds 1 to one of its counters. -/
def State.countCycle (s : State) : State :=
  let one (unit number : Nat) (s : State) (c : Option Nat) : State := match c with
    | some c => if c = idleIndex unit then s else s.count unit number c 1
    | none => s
  let sides := (s.allTeams.map sideOf).eraseDups
  let r := sides.foldl (fun r d =>
    one 4 d (one 0 d r (some (s.sideCause d))) (s.rucksackCause d (s.allTeams.filter fun t => sideOf t == d))) s
  let r := ((s.copies.map (·.tile)).eraseDups).foldl (fun r t => one 2 t r (s.copyCause t)) r
  let r := s.engines.foldl (fun r (t, g) => one 3 t r (s.engineCause t g)) r
  ((s.eq.forests.map (·.engine)).eraseDups).foldl (fun r e => one 5 e r (s.forestCause e)) r

/-- A cycle passes. -/
def State.tick (s : State) : State := { s.countCycle with now := s.now + 1, issued := [] }

/-! ### One step -/

/-- The word that a privileged issue runs next, decoded (R185). -/
def State.privileged (s : State) : Option Instr :=
  match s.privReady with
  | some p => match decode p.word 0 0 with
    | .ok i => some i
    | .error _ => none
  | none => none

/-- A team issues, or the cycle passes. -/
def State.issueOrTick (s : State) : Host.Outcome State Fault Refusal :=
  match s.select with
  | some s' => s'.issueNext
  | none => .next s.tick

/-- The step: the outside world first, then a privileged issue, the units' own steps, a trap at a boundary, background work, a
team's issue; when nothing is due in this cycle, the cycle passes. -/
def State.step (s : State) : Host.Outcome State Fault Refusal :=
  if s.hub.power.off then .fault .poweredOff
  else match s.arriving with
  | some (i, s') => exec i s'
  | none => match s.privileged with
    | some i => exec i s
    | none => match s.nextEvent with
      | some i => exec i s
      | none => match s.boundary with
        | some s' => .next s'
        | none => match s.background with
          | some s' => .next s'
          | none => s.issueOrTick

/-! ### Placing an instruction -/

/-- The team that runs a placed instruction: 16 lanes, its window of 96 slots, its one group at 0x10000, the start
formats. -/
def Team.placed : Team :=
  { Team.empty with
    id := { Team.empty.id with uid := 1, ctx := 1, gid := 1, frame := 96, spill := 0x100000, spillSize := 0x10000 }
    arch := ⟨0x10000, [⟨0x10000, maskOf (List.range 16), 0, 0, sigReset, true⟩], [], List.replicate 16 Lane.zero, 0,
      List.replicate 32 PWord.zero, startFormats, none, none, List.replicate 16 none, none, none⟩
    shadow := [(0x10000, maskOf (List.range 16))]
    frames := List.replicate 16 { Frame.zero with hi := 96 }
    sys := { Team.empty.sys with tval := List.replicate 16 0 } }

/-- The context of the placed instruction: its page table maps the first GiB onto itself, readable, writable and
executable. -/
def Ctx.placed : Ctx := { Ctx.blank 1 with root := 0x1001 }

/-- The memory of the placed instruction: the page table, and its bytes at 0x10000. -/
def Mem.placed (m : Mem) (code : List Byte) : Mem :=
  let clear (bs : List Byte) : List (Byte × Bool) := bs.map fun b => (b, false)
  { m with lines := [], tlb := [], table := [], moving := [] } |>.store 0x1000 (clear (toBytes 8 0x8000000000002000))
    |>.store 0x2000 (clear (toBytes 8 0xF000000000000002)) |>.store 0x10000 (clear code)

/-- The one team of a machine that runs a placed instruction, its context and its group. -/
def State.placed (s : State) (code : List Byte) : State :=
  { s with
    inbox := []
    cur := Team.placed
    ctxs := [Ctx.placed]
    disp := { s.disp with groups := [⟨1, 1, 0, 0, 0, 0, 0, 0, none, 0, 0, 1, 0, 0, none, none⟩] }
    mem := s.mem.placed code }

end Sys2Proof.Machine
end

