-- ==== Sys2Proof/Machine/Step.lean ====
section
/-! DEFINITION. One step of the machine, and placing an instruction where the next step fetches it. -/

namespace Sys2Proof.Machine

/-- One step (Machine/Sequence.lean says what comes first). -/
def step (s : State) : Host.Outcome State Fault Refusal := s.step

/-- `s` with an instruction placed where the next step fetches it. A program comes to run through a launch of a
process that Ranger has loaded; this stands for that load and launch (log entry 12). The encodings that are not instruction words
(the steps that units and the outside world take) are not in the table's bits and are never placed. -/
def State.withFetchWord (s : State) (nbits w : Nat) : State := s.placed (toBytes 12 (w % 2 ^ nbits))

end Sys2Proof.Machine
end

