-- ==== Sys2Proof/WellFormed.lean ====
section
/-! DEFINITION. Which instructions a word can stand for: the checks are those a word's own encoding makes (R45, R52,
R56).  Steps that no word encodes are well-formed as they stand. -/

namespace Sys2Proof

/-- The fields hold assigned codes: an atomic's operation (Table 13-2), a load's type (Table 10-4), and the two low
bits of a displacement, which are zero (R74). -/
def Instr.codesOk : Instr → Bool
  | .atom op .. => op.toNat ≤ 10
  | .ared op .. => op.toNat ≤ 10
  | .ld t .. => t.toNat ≤ 5
  | .bra lit => ext lit 0 2 == 0
  | .call _ lit => ext lit 0 2 == 0
  | _ => true

/-- An instruction carries a literal only where its word is followed by one (R45). -/
def Instr.literalsOk (i : Instr) : Bool :=
  match encodeWord i with
  | none => true
  | some w => (litCount w != 0 || literal i == 0) && (litCount w == 2 || literal2 i == 0)

/-- The instruction is one that some word, with the literal words after it, stands for. -/
def Instr.wf (i : Instr) : Bool := i.codesOk && i.literalsOk

end Sys2Proof
end

