-- ==== Sys2Proof/Laws/Encoding.lean ====
section
/-! SUPPORT. What the fields of an instruction's word are, and what decoding makes of them (R40, R41, R45, R56). -/

namespace Sys2Proof

/-- The opcode of a word made of an opcode and three fields. -/
theorem opcode_wordT (op : Nat) (d a b : Reg) : opcode (wordT op d a b) = BitVec.ofNat 11 op := by
  unfold opcode wordT ext
  apply BitVec.eq_of_getLsbD_eq
  intro i hi
  simp only [BitVec.getLsbD_extractLsb', hi, decide_true, Bool.true_and, BitVec.getLsbD_append]
  rw [if_neg (by omega), if_neg (by omega), if_neg (by omega)]
  congr 1
  omega
theorem d_wordT (op : Nat) (d a b : Reg) : ext (wordT op d a b) 14 7 = d := by
  unfold wordT ext
  apply BitVec.eq_of_getLsbD_eq
  intro i hi
  simp only [BitVec.getLsbD_extractLsb', hi, decide_true, Bool.true_and, BitVec.getLsbD_append]
  rw [if_neg (by omega), if_neg (by omega), if_pos (by omega)]
  congr 1
  omega
theorem a_wordT (op : Nat) (d a b : Reg) : ext (wordT op d a b) 7 7 = a := by
  unfold wordT ext
  apply BitVec.eq_of_getLsbD_eq
  intro i hi
  simp only [BitVec.getLsbD_extractLsb', hi, decide_true, Bool.true_and, BitVec.getLsbD_append]
  rw [if_neg (by omega), if_pos (by omega)]
  congr 1
  omega
theorem b_wordT (op : Nat) (d a b : Reg) : ext (wordT op d a b) 0 7 = b := by
  unfold wordT ext
  apply BitVec.eq_of_getLsbD_eq
  intro i hi
  simp only [BitVec.getLsbD_extractLsb', hi, decide_true, Bool.true_and, BitVec.getLsbD_append]
  rw [if_pos (by omega)]
  congr 1
  omega
theorem opcode_wordM (op : Nat) (l : BitVec 21) : opcode (wordM op l) = BitVec.ofNat 11 op := by
  unfold opcode wordM ext
  apply BitVec.eq_of_getLsbD_eq
  intro i hi
  simp only [BitVec.getLsbD_extractLsb', hi, decide_true, Bool.true_and, BitVec.getLsbD_append]
  rw [if_neg (by omega)]
  congr 1
  omega
/-- The sub field of a word that addresses memory: lookahead, offset bit, two unused bits. -/
theorem sub_la (l : BitVec 4) (o : BitVec 1) : ext (l ++ o ++ 0#2 : BitVec 7) 3 4 = l := by revert l o; decide
theorem sub_off (l : BitVec 4) (o : BitVec 1) : ext (l ++ o ++ 0#2 : BitVec 7) 2 1 = o := by revert l o; decide
theorem sub_low (l : BitVec 4) (o : BitVec 1) : ext (l ++ o ++ 0#2 : BitVec 7) 0 2 = 0 := by revert l o; decide
theorem la_of (l : BitVec 4) : ext (l ++ 0#3 : BitVec 7) 3 4 = l := by revert l; decide
theorem lo_of (l : BitVec 4) : ext (l ++ 0#3 : BitVec 7) 0 3 = 0 := by revert l; decide

/-- A word whose opcode is not 0 is not the zero word. -/
theorem wordT_ne (op : Nat) (d a b : Reg) (h : BitVec.ofNat 11 op ≠ 0) : wordT op d a b ≠ 0 := by
  intro h0
  apply h
  rw [← opcode_wordT op d a b, h0]
  rfl

theorem wordM_ne (op : Nat) (l : BitVec 21) (h : BitVec.ofNat 11 op ≠ 0) : wordM op l ≠ 0 := by
  intro h0
  apply h
  rw [← opcode_wordM op l, h0]
  rfl

/-- Decoding an opcode and its fields, from the row that it matches. -/
theorem decodeFields_row {op : BitVec 11} {f : Fields} {k : BitVec 11 → Fields → Option Instr} {i : Instr}
    (hk : findRow op.toNat (rowsOf (op.toNat / 128)) = some k) (h : k op f = some i) : decodeFields op f = .ok i := by
  unfold decodeFields
  rw [hk]
  dsimp only
  rw [h]

/-- Decoding a word of three fields, with the literals of an instruction that carries one only where its word says so, is decoding
its opcode and its fields. -/
theorem decode_wordT (i : Instr) (op : Nat) (d a b : Reg) (h : BitVec.ofNat 11 op ≠ 0) (hw : encodeWord i = some (wordT op d a b)) (hl : i.literalsOk = true) :
    decode (wordT op d a b) (literal i) (literal2 i) = decodeFields (BitVec.ofNat 11 op) ⟨d, a, b, literal i, literal2 i⟩ := by
  have hz : (wordT op d a b == 0) = false := by rw [beq_eq_false_iff_ne]; exact wordT_ne _ _ _ _ h
  unfold decode
  rw [hz, opcode_wordT]
  simp only [Bool.false_eq_true, if_false]
  unfold fieldsOf
  rw [d_wordT, a_wordT, b_wordT]
  unfold Instr.literalsOk at hl
  rw [hw] at hl
  simp only [Bool.and_eq_true, Bool.or_eq_true, bne_iff_ne, beq_iff_eq] at hl
  have e1 : (if 1 ≤ litCount (wordT op d a b) then literal i else 0) = literal i := by
    split
    · rfl
    · rcases hl.1 with h | h
      · omega
      · exact h.symm
  have e2 : (if 2 ≤ litCount (wordT op d a b) then literal2 i else 0) = literal2 i := by
    split
    · rfl
    · rcases hl.2 with h | h
      · omega
      · exact h.symm
  rw [e1, e2]

end Sys2Proof
end

