-- ==== Sys2Proof/Laws/PerInstr.lean ====
section
/-! SUPPORT. What is said of each instruction as syntax, one lemma per constructor: its word, if it has one, is not the zero word and
its opcode is assigned (R52, R56). -/

namespace Sys2Proof.Laws.Encoding

/-- The word of a well-formed instruction is not zero and its opcode is a row of the opcode table. -/
def Statement (i : Instr) : Prop :=
  i.wf = true → ∀ w, encodeWord i = some w → w ≠ 0 ∧ (findRow (opcode w).toNat (rowsOf ((opcode w).toNat / 128))).isSome = true

/-- The same from the word's shape. -/
theorem ofT {i : Instr} {op : Nat} {d a b : Reg} (hw : encodeWord i = some (wordT op d a b)) (h : i.wf = true → BitVec.ofNat 11 op ≠ 0 ∧
    (findRow (BitVec.ofNat 11 op).toNat (rowsOf ((BitVec.ofNat 11 op).toNat / 128))).isSome = true) : Statement i := by
  intro hi w h'
  rw [hw] at h'
  cases h'
  rw [opcode_wordT]
  exact ⟨wordT_ne _ _ _ _ (h hi).1, (h hi).2⟩

theorem ofM {i : Instr} {op : Nat} {l : BitVec 21} (hw : encodeWord i = some (wordM op l)) (h : i.wf = true → BitVec.ofNat 11 op ≠ 0 ∧
    (findRow (BitVec.ofNat 11 op).toNat (rowsOf ((BitVec.ofNat 11 op).toNat / 128))).isSome = true) : Statement i := by
  intro hi w h'
  rw [hw] at h'
  cases h'
  rw [opcode_wordM]
  exact ⟨wordM_ne _ _ (h hi).1, (h hi).2⟩

theorem ofNone {i : Instr} (hw : encodeWord i = none) : Statement i := by
  intro _ w h
  rw [hw] at h
  cases h

theorem nop : Statement .nop := ofT rfl (fun _ => by decide)
theorem mode x0 x1 x2 x3 x4 x5 x6 : Statement (.mode x0 x1 x2 x3 x4 x5 x6) := ofM rfl (fun _ => by decide)
theorem rep x0 x1 x2 x3 : Statement (.rep x0 x1 x2 x3) := ofM rfl (fun _ => by decide)
theorem bra x0 : Statement (.bra x0) := ofT rfl (fun _ => by decide)
theorem jmp x0 : Statement (.jmp x0) := ofT rfl (fun _ => by decide)
theorem call x0 x1 : Statement (.call x0 x1) := ofT rfl (fun _ => by decide)
theorem callr x0 x1 : Statement (.callr x0 x1) := ofT rfl (fun _ => by decide)
theorem ret : Statement .ret := ofT rfl (fun _ => by decide)
theorem exit : Statement .exit := ofT rfl (fun _ => by decide)
theorem yield : Statement .yield := ofT rfl (fun _ => by decide)
theorem add x0 x1 x2 x3 x4 x5 : Statement (.add x0 x1 x2 x3 x4 x5) := ofT rfl (fun hw => by clear hw; revert x0 x1; decide)
theorem addc x0 x1 x2 x3 x4 x5 : Statement (.addc x0 x1 x2 x3 x4 x5) := ofT rfl (fun hw => by clear hw; revert x0 x1; decide)
theorem sub x0 x1 x2 x3 x4 x5 : Statement (.sub x0 x1 x2 x3 x4 x5) := ofT rfl (fun hw => by clear hw; revert x0 x1; decide)
theorem subb x0 x1 x2 x3 x4 x5 : Statement (.subb x0 x1 x2 x3 x4 x5) := ofT rfl (fun hw => by clear hw; revert x0 x1; decide)
theorem neg x0 x1 x2 x3 x4 : Statement (.neg x0 x1 x2 x3 x4) := ofT rfl (fun hw => by clear hw; revert x0 x1; decide)
theorem mul x0 x1 x2 x3 x4 x5 : Statement (.mul x0 x1 x2 x3 x4 x5) := ofT rfl (fun hw => by clear hw; revert x0 x1; decide)
theorem mad x0 x1 x2 x3 x4 x5 : Statement (.mad x0 x1 x2 x3 x4 x5) := ofT rfl (fun hw => by clear hw; revert x0 x1; decide)
theorem abs x0 x1 x2 x3 x4 : Statement (.abs x0 x1 x2 x3 x4) := ofT rfl (fun hw => by clear hw; revert x0 x1; decide)
theorem div x0 x1 x2 x3 x4 x5 x6 : Statement (.div x0 x1 x2 x3 x4 x5 x6) := ofT rfl (fun hw => by clear hw; revert x0 x1 x2; decide)
theorem rem x0 x1 x2 x3 x4 x5 x6 : Statement (.rem x0 x1 x2 x3 x4 x5 x6) := ofT rfl (fun hw => by clear hw; revert x0 x1 x2; decide)
theorem min x0 x1 x2 x3 x4 x5 x6 : Statement (.min x0 x1 x2 x3 x4 x5 x6) := ofT rfl (fun hw => by clear hw; revert x0 x1 x2; decide)
theorem max x0 x1 x2 x3 x4 x5 x6 : Statement (.max x0 x1 x2 x3 x4 x5 x6) := ofT rfl (fun hw => by clear hw; revert x0 x1 x2; decide)
theorem mulh x0 x1 x2 x3 x4 x5 : Statement (.mulh x0 x1 x2 x3 x4 x5) := ofT rfl (fun hw => by clear hw; revert x0 x1; decide)
theorem mulw x0 x1 x2 x3 x4 x5 : Statement (.mulw x0 x1 x2 x3 x4 x5) := ofT rfl (fun hw => by clear hw; revert x0 x1; decide)
theorem madw x0 x1 x2 x3 x4 x5 : Statement (.madw x0 x1 x2 x3 x4 x5) := ofT rfl (fun hw => by clear hw; revert x0 x1; decide)
theorem mov x0 x1 x2 x3 : Statement (.mov x0 x1 x2 x3) := ofT rfl (fun hw => by clear hw; revert x0; decide)
theorem ldi x0 x1 x2 x3 : Statement (.ldi x0 x1 x2 x3) := ofT rfl (fun hw => by clear hw; revert x0; decide)
theorem and x0 x1 x2 x3 x4 : Statement (.and x0 x1 x2 x3 x4) := ofT rfl (fun hw => by clear hw; revert x0; decide)
theorem or x0 x1 x2 x3 x4 : Statement (.or x0 x1 x2 x3 x4) := ofT rfl (fun hw => by clear hw; revert x0; decide)
theorem xor x0 x1 x2 x3 x4 : Statement (.xor x0 x1 x2 x3 x4) := ofT rfl (fun hw => by clear hw; revert x0; decide)
theorem andn x0 x1 x2 x3 x4 : Statement (.andn x0 x1 x2 x3 x4) := ofT rfl (fun hw => by clear hw; revert x0; decide)
theorem not x0 x1 x2 x3 : Statement (.not x0 x1 x2 x3) := ofT rfl (fun hw => by clear hw; revert x0; decide)
theorem shl x0 x1 x2 x3 x4 : Statement (.shl x0 x1 x2 x3 x4) := ofT rfl (fun hw => by clear hw; revert x0; decide)
theorem shr x0 x1 x2 x3 x4 : Statement (.shr x0 x1 x2 x3 x4) := ofT rfl (fun hw => by clear hw; revert x0; decide)
theorem shra x0 x1 x2 x3 x4 : Statement (.shra x0 x1 x2 x3 x4) := ofT rfl (fun hw => by clear hw; revert x0; decide)
theorem rot x0 x1 x2 x3 x4 : Statement (.rot x0 x1 x2 x3 x4) := ofT rfl (fun hw => by clear hw; revert x0; decide)
theorem popc x0 x1 x2 x3 : Statement (.popc x0 x1 x2 x3) := ofT rfl (fun hw => by clear hw; revert x0; decide)
theorem clz x0 x1 x2 x3 : Statement (.clz x0 x1 x2 x3) := ofT rfl (fun hw => by clear hw; revert x0; decide)
theorem ctz x0 x1 x2 x3 : Statement (.ctz x0 x1 x2 x3) := ofT rfl (fun hw => by clear hw; revert x0; decide)
theorem brev x0 x1 x2 x3 : Statement (.brev x0 x1 x2 x3) := ofT rfl (fun hw => by clear hw; revert x0; decide)
theorem sel x0 x1 x2 x3 x4 : Statement (.sel x0 x1 x2 x3 x4) := ofT rfl (fun hw => by clear hw; revert x0; decide)
theorem bfx x0 x1 x2 x3 x4 x5 : Statement (.bfx x0 x1 x2 x3 x4 x5) := ofT rfl (fun hw => by clear hw; revert x0 x1; decide)
theorem bfi x0 x1 x2 x3 x4 : Statement (.bfi x0 x1 x2 x3 x4) := ofT rfl (fun hw => by clear hw; revert x0; decide)
theorem cmpN x0 x1 x2 x3 : Statement (.cmpN x0 x1 x2 x3) := ofT rfl (fun hw => by clear hw; revert x0; decide)
theorem cmpS x0 x1 x2 x3 : Statement (.cmpS x0 x1 x2 x3) := ofT rfl (fun hw => by clear hw; revert x0; decide)
theorem tst x0 x1 x2 x3 : Statement (.tst x0 x1 x2 x3) := ofT rfl (fun hw => by clear hw; revert x0; decide)
theorem fshf x0 x1 x2 x3 : Statement (.fshf x0 x1 x2 x3) := ofT rfl (fun _ => by decide)
theorem perm x0 x1 x2 x3 : Statement (.perm x0 x1 x2 x3) := ofT rfl (fun _ => by decide)
theorem lea x0 x1 x2 x3 : Statement (.lea x0 x1 x2 x3) := ofT rfl (fun _ => by decide)
theorem dot4N x0 x1 x2 x3 : Statement (.dot4N x0 x1 x2 x3) := ofT rfl (fun _ => by decide)
theorem dot4S x0 x1 x2 x3 : Statement (.dot4S x0 x1 x2 x3) := ofT rfl (fun _ => by decide)
theorem sad x0 x1 x2 x3 : Statement (.sad x0 x1 x2 x3) := ofT rfl (fun _ => by decide)
theorem getcc x0 x1 : Statement (.getcc x0 x1) := ofT rfl (fun _ => by decide)
theorem setcc x0 x1 : Statement (.setcc x0 x1) := ofT rfl (fun _ => by decide)
theorem shfl x0 x1 x2 x3 x4 x5 : Statement (.shfl x0 x1 x2 x3 x4 x5) := ofT rfl (fun hw => by clear hw; revert x0 x1; decide)
theorem voteSome x0 x1 x2 : Statement (.voteSome x0 x1 x2) := ofT rfl (fun _ => by decide)
theorem voteEvery x0 x1 x2 : Statement (.voteEvery x0 x1 x2) := ofT rfl (fun _ => by decide)
theorem voteSame x0 x1 x2 : Statement (.voteSame x0 x1 x2) := ofT rfl (fun _ => by decide)
theorem ballot x0 x1 x2 : Statement (.ballot x0 x1 x2) := ofT rfl (fun _ => by decide)
theorem scan x0 x1 x2 x3 : Statement (.scan x0 x1 x2 x3) := ofT rfl (fun hw => by clear hw; revert x0; decide)
theorem scanEx x0 x1 x2 x3 : Statement (.scanEx x0 x1 x2 x3) := ofT rfl (fun hw => by clear hw; revert x0; decide)
theorem reduce x0 x1 x2 x3 : Statement (.reduce x0 x1 x2 x3) := ofT rfl (fun hw => by clear hw; revert x0; decide)
theorem matchLane x0 x1 x2 x3 : Statement (.matchLane x0 x1 x2 x3) := ofT rfl (fun hw => by clear hw; revert x0; decide)
theorem bcast x0 x1 x2 x3 x4 : Statement (.bcast x0 x1 x2 x3 x4) := ofT rfl (fun hw => by clear hw; revert x0; decide)
theorem kmov x0 x1 x2 x3 x4 : Statement (.kmov x0 x1 x2 x3 x4) := ofT rfl (fun hw => by clear hw; revert x0; decide)
theorem fadd x0 x1 x2 x3 x4 : Statement (.fadd x0 x1 x2 x3 x4) := ofT rfl (fun hw => by clear hw; revert x0; decide)
theorem fsub x0 x1 x2 x3 x4 : Statement (.fsub x0 x1 x2 x3 x4) := ofT rfl (fun hw => by clear hw; revert x0; decide)
theorem fmul x0 x1 x2 x3 x4 : Statement (.fmul x0 x1 x2 x3 x4) := ofT rfl (fun hw => by clear hw; revert x0; decide)
theorem fma x0 x1 x2 x3 x4 : Statement (.fma x0 x1 x2 x3 x4) := ofT rfl (fun hw => by clear hw; revert x0; decide)
theorem fnma x0 x1 x2 x3 x4 : Statement (.fnma x0 x1 x2 x3 x4) := ofT rfl (fun hw => by clear hw; revert x0; decide)
theorem fdiv x0 x1 x2 x3 x4 : Statement (.fdiv x0 x1 x2 x3 x4) := ofT rfl (fun hw => by clear hw; revert x0; decide)
theorem fsqrt x0 x1 x2 x3 x4 : Statement (.fsqrt x0 x1 x2 x3 x4) := ofT rfl (fun hw => by clear hw; revert x0; decide)
theorem frcp x0 x1 x2 x3 x4 : Statement (.frcp x0 x1 x2 x3 x4) := ofT rfl (fun hw => by clear hw; revert x0; decide)
theorem fmin x0 x1 x2 x3 x4 : Statement (.fmin x0 x1 x2 x3 x4) := ofT rfl (fun hw => by clear hw; revert x0; decide)
theorem fmax x0 x1 x2 x3 x4 : Statement (.fmax x0 x1 x2 x3 x4) := ofT rfl (fun hw => by clear hw; revert x0; decide)
theorem fminm x0 x1 x2 x3 x4 : Statement (.fminm x0 x1 x2 x3 x4) := ofT rfl (fun hw => by clear hw; revert x0; decide)
theorem fmaxm x0 x1 x2 x3 x4 : Statement (.fmaxm x0 x1 x2 x3 x4) := ofT rfl (fun hw => by clear hw; revert x0; decide)
theorem fabs x0 x1 x2 x3 : Statement (.fabs x0 x1 x2 x3) := ofT rfl (fun hw => by clear hw; revert x0; decide)
theorem fneg x0 x1 x2 x3 : Statement (.fneg x0 x1 x2 x3) := ofT rfl (fun hw => by clear hw; revert x0; decide)
theorem fcpys x0 x1 x2 x3 x4 : Statement (.fcpys x0 x1 x2 x3 x4) := ofT rfl (fun hw => by clear hw; revert x0; decide)
theorem fcmp x0 x1 x2 x3 : Statement (.fcmp x0 x1 x2 x3) := ofT rfl (fun _ => by decide)
theorem fclass x0 x1 x2 x3 : Statement (.fclass x0 x1 x2 x3) := ofT rfl (fun hw => by clear hw; revert x0; decide)
theorem frint x0 x1 x2 x3 : Statement (.frint x0 x1 x2 x3) := ofT rfl (fun hw => by clear hw; revert x0; decide)
theorem fscale x0 x1 x2 x3 x4 : Statement (.fscale x0 x1 x2 x3 x4) := ofT rfl (fun hw => by clear hw; revert x0; decide)
theorem fgetx x0 x1 x2 x3 : Statement (.fgetx x0 x1 x2 x3) := ofT rfl (fun hw => by clear hw; revert x0; decide)
theorem sinpi x0 x1 x2 x3 : Statement (.sinpi x0 x1 x2 x3) := ofT rfl (fun _ => by decide)
theorem cospi x0 x1 x2 x3 : Statement (.cospi x0 x1 x2 x3) := ofT rfl (fun _ => by decide)
theorem exp2 x0 x1 x2 x3 : Statement (.exp2 x0 x1 x2 x3) := ofT rfl (fun _ => by decide)
theorem log2 x0 x1 x2 x3 : Statement (.log2 x0 x1 x2 x3) := ofT rfl (fun _ => by decide)
theorem rcpa x0 x1 x2 x3 : Statement (.rcpa x0 x1 x2 x3) := ofT rfl (fun _ => by decide)
theorem rsqa x0 x1 x2 x3 : Statement (.rsqa x0 x1 x2 x3) := ofT rfl (fun _ => by decide)
theorem tanh x0 x1 x2 x3 : Statement (.tanh x0 x1 x2 x3) := ofT rfl (fun _ => by decide)
theorem fmtld x0 x1 x2 x3 : Statement (.fmtld x0 x1 x2 x3) := ofT rfl (fun _ => by decide)
theorem fmtrd x0 x1 : Statement (.fmtrd x0 x1) := ofT rfl (fun _ => by decide)
theorem cvt x0 x1 x2 x3 : Statement (.cvt x0 x1 x2 x3) := ofT rfl (fun _ => by decide)
theorem cvti x0 x1 x2 x3 : Statement (.cvti x0 x1 x2 x3) := ofT rfl (fun _ => by decide)
theorem cvtf x0 x1 x2 x3 : Statement (.cvtf x0 x1 x2 x3) := ofT rfl (fun _ => by decide)
theorem pack x0 x1 x2 x3 : Statement (.pack x0 x1 x2 x3) := ofT rfl (fun _ => by decide)
theorem unpack x0 x1 x2 x3 : Statement (.unpack x0 x1 x2 x3) := ofT rfl (fun _ => by decide)
theorem scale x0 x1 x2 x3 : Statement (.scale x0 x1 x2 x3) := ofT rfl (fun _ => by decide)
theorem ld x0 x1 x2 x3 x4 x5 : Statement (.ld x0 x1 x2 x3 x4 x5) := ofT rfl (fun hw => by clear hw; revert x0; decide)
theorem ldv x0 x1 x2 x3 x4 : Statement (.ldv x0 x1 x2 x3 x4) := ofT rfl (fun _ => by decide)
theorem ldkB32 x0 x1 x2 x3 x4 : Statement (.ldkB32 x0 x1 x2 x3 x4) := ofT rfl (fun _ => by decide)
theorem ldkB64 x0 x1 x2 x3 x4 : Statement (.ldkB64 x0 x1 x2 x3 x4) := ofT rfl (fun _ => by decide)
theorem ldmx x0 x1 x2 x3 x4 : Statement (.ldmx x0 x1 x2 x3 x4) := ofT rfl (fun _ => by decide)
theorem acq x0 x1 x2 x3 x4 : Statement (.acq x0 x1 x2 x3 x4) := ofT rfl (fun _ => by decide)
theorem pref x0 x1 x2 : Statement (.pref x0 x1 x2) := ofT rfl (fun _ => by decide)
theorem st x0 x1 x2 x3 x4 : Statement (.st x0 x1 x2 x3 x4) := ofT rfl (fun hw => by clear hw; revert x0; decide)
theorem stv x0 x1 x2 x3 : Statement (.stv x0 x1 x2 x3) := ofT rfl (fun _ => by decide)
theorem stmx x0 x1 x2 x3 : Statement (.stmx x0 x1 x2 x3) := ofT rfl (fun _ => by decide)
theorem rel x0 x1 x2 x3 : Statement (.rel x0 x1 x2 x3) := ofT rfl (fun _ => by decide)
theorem flush x0 x1 x2 : Statement (.flush x0 x1 x2) := ofT rfl (fun _ => by decide)
theorem invl x0 x1 x2 : Statement (.invl x0 x1 x2) := ofT rfl (fun _ => by decide)
theorem fence x0 : Statement (.fence x0) := ofT rfl (fun _ => by decide)
theorem atom x0 x1 x2 x3 x4 x5 x6 : Statement (.atom x0 x1 x2 x3 x4 x5 x6) := ofT rfl fun hw =>
  (by decide : ∀ (x0 : BitVec 4) (x1 : BitVec 1), decide (x0.toNat ≤ 10) = true → BitVec.ofNat 11 (768 + x0.toNat * 2 + x1.toNat) ≠ 0 ∧
    (findRow (BitVec.ofNat 11 (768 + x0.toNat * 2 + x1.toNat)).toNat (rowsOf ((BitVec.ofNat 11 (768 + x0.toNat * 2 + x1.toNat)).toNat / 128))).isSome = true)
    x0 x1 ((Bool.and_eq_true _ _).mp hw).1
theorem acas x0 x1 x2 x3 x4 x5 : Statement (.acas x0 x1 x2 x3 x4 x5) := ofT rfl (fun hw => by clear hw; revert x0; decide)
theorem afadd x0 x1 x2 x3 x4 : Statement (.afadd x0 x1 x2 x3 x4) := ofT rfl (fun _ => by decide)
theorem afmm x0 x1 x2 x3 x4 x5 : Statement (.afmm x0 x1 x2 x3 x4 x5) := ofT rfl (fun _ => by decide)
theorem ared x0 x1 x2 x3 x4 x5 : Statement (.ared x0 x1 x2 x3 x4 x5) := ofT rfl fun hw =>
  (by decide : ∀ (x0 : BitVec 4) (x1 : BitVec 1), decide (x0.toNat ≤ 10) = true → BitVec.ofNat 11 (800 + x0.toNat * 2 + x1.toNat) ≠ 0 ∧
    (findRow (BitVec.ofNat 11 (800 + x0.toNat * 2 + x1.toNat)).toNat (rowsOf ((BitVec.ofNat 11 (800 + x0.toNat * 2 + x1.toNat)).toNat / 128))).isSome = true)
    x0 x1 ((Bool.and_eq_true _ _).mp hw).1
theorem aprog x0 x1 x2 x3 x4 : Statement (.aprog x0 x1 x2 x3 x4) := ofT rfl (fun _ => by decide)
theorem apload x0 x1 x2 : Statement (.apload x0 x1 x2) := ofT rfl (fun _ => by decide)
theorem cpl x0 x1 x2 x3 : Statement (.cpl x0 x1 x2 x3) := ofT rfl (fun _ => by decide)
theorem cpf x0 x1 x2 x3 : Statement (.cpf x0 x1 x2 x3) := ofT rfl (fun _ => by decide)
theorem cpt x0 x1 x2 x3 : Statement (.cpt x0 x1 x2 x3) := ofT rfl (fun _ => by decide)
theorem cpm x0 x1 x2 x3 : Statement (.cpm x0 x1 x2 x3) := ofT rfl (fun _ => by decide)
theorem binit x0 x1 x2 x3 : Statement (.binit x0 x1 x2 x3) := ofT rfl (fun _ => by decide)
theorem arrive x0 x1 x2 : Statement (.arrive x0 x1 x2) := ofT rfl (fun _ => by decide)
theorem expect x0 x1 x2 x3 : Statement (.expect x0 x1 x2 x3) := ofT rfl (fun _ => by decide)
theorem wait x0 x1 x2 x3 : Statement (.wait x0 x1 x2 x3) := ofT rfl (fun _ => by decide)
theorem cadd x0 x1 x2 x3 : Statement (.cadd x0 x1 x2 x3) := ofT rfl (fun _ => by decide)
theorem cread x0 x1 x2 x3 x4 : Statement (.cread x0 x1 x2 x3 x4) := ofT rfl (fun _ => by decide)
theorem bseal x0 x1 : Statement (.bseal x0 x1) := ofT rfl (fun _ => by decide)
theorem bwait x0 x1 : Statement (.bwait x0 x1) := ofT rfl (fun _ => by decide)
theorem stallrd x0 x1 x2 : Statement (.stallrd x0 x1 x2) := ofT rfl (fun _ => by decide)
theorem mcfg x0 x1 : Statement (.mcfg x0 x1) := ofT rfl (fun _ => by decide)
theorem mldb x0 x1 x2 : Statement (.mldb x0 x1 x2) := ofT rfl (fun _ => by decide)
theorem mma x0 x1 x2 : Statement (.mma x0 x1 x2) := ofT rfl (fun _ => by decide)
theorem mmas x0 x1 x2 : Statement (.mmas x0 x1 x2) := ofT rfl (fun _ => by decide)
theorem mzero x0 x1 x2 : Statement (.mzero x0 x1 x2) := ofT rfl (fun _ => by decide)
theorem mstore x0 x1 x2 : Statement (.mstore x0 x1 x2) := ofT rfl (fun _ => by decide)
theorem mdrain x0 x1 x2 : Statement (.mdrain x0 x1 x2) := ofT rfl (fun _ => by decide)
theorem mrun x0 x1 x2 : Statement (.mrun x0 x1 x2) := ofT rfl (fun _ => by decide)
theorem qmap x0 x1 x2 : Statement (.qmap x0 x1 x2) := ofT rfl (fun _ => by decide)
theorem qunmap x0 x1 : Statement (.qunmap x0 x1) := ofT rfl (fun _ => by decide)
theorem qstat x0 x1 x2 : Statement (.qstat x0 x1 x2) := ofT rfl (fun _ => by decide)
theorem qnotify x0 x1 : Statement (.qnotify x0 x1) := ofT rfl (fun _ => by decide)
theorem spawn x0 x1 x2 x3 : Statement (.spawn x0 x1 x2 x3) := ofT rfl (fun _ => by decide)
theorem grow x0 x1 x2 : Statement (.grow x0 x1 x2) := ofT rfl (fun _ => by decide)
theorem job x0 x1 x2 : Statement (.job x0 x1 x2) := ofT rfl (fun _ => by decide)
theorem launch x0 x1 x2 x3 : Statement (.launch x0 x1 x2 x3) := ofT rfl (fun _ => by decide)
theorem eqset x0 x1 : Statement (.eqset x0 x1) := ofT rfl (fun _ => by decide)
theorem unite x0 x1 x2 x3 : Statement (.unite x0 x1 x2 x3) := ofT rfl (fun _ => by decide)
theorem find x0 x1 x2 x3 : Statement (.find x0 x1 x2 x3) := ofT rfl (fun _ => by decide)
theorem same x0 x1 x2 x3 : Statement (.same x0 x1 x2 x3) := ofT rfl (fun _ => by decide)
theorem relabel x0 x1 : Statement (.relabel x0 x1) := ofT rfl (fun _ => by decide)
theorem eqsnap x0 x1 : Statement (.eqsnap x0 x1) := ofT rfl (fun _ => by decide)
theorem equndo x0 x1 : Statement (.equndo x0 x1) := ofT rfl (fun _ => by decide)
theorem eqdrop x0 x1 : Statement (.eqdrop x0 x1) := ofT rfl (fun _ => by decide)
theorem eqsize x0 x1 : Statement (.eqsize x0 x1) := ofT rfl (fun _ => by decide)
theorem eqfence : Statement .eqfence := ofT rfl (fun _ => by decide)
theorem region : Statement .region := ofT rfl (fun _ => by decide)
theorem sigchk x0 : Statement (.sigchk x0) := ofT rfl (fun _ => by decide)
theorem sigset x0 : Statement (.sigset x0) := ofT rfl (fun _ => by decide)
theorem trap x0 : Statement (.trap x0) := ofT rfl (fun _ => by decide)
theorem sysc x0 x1 x2 : Statement (.sysc x0 x1 x2) := ofT rfl (fun _ => by decide)
theorem brk : Statement .brk := ofT rfl (fun _ => by decide)
theorem mfs x0 x1 : Statement (.mfs x0 x1) := ofT rfl (fun _ => by decide)
theorem mts x0 x1 : Statement (.mts x0 x1) := ofT rfl (fun _ => by decide)
theorem bind x0 x1 x2 : Statement (.bind x0 x1 x2) := ofT rfl (fun _ => by decide)
theorem unbind x0 x1 : Statement (.unbind x0 x1) := ofT rfl (fun _ => by decide)
theorem tlbinv x0 x1 x2 : Statement (.tlbinv x0 x1 x2) := ofT rfl (fun _ => by decide)
theorem wcs x0 x1 x2 : Statement (.wcs x0 x1 x2) := ofT rfl (fun _ => by decide)
theorem macroRun x0 x1 x2 x3 : Statement (.macroRun x0 x1 x2 x3) := ofT rfl (fun hw => by clear hw; revert x0; decide)
theorem checkpointSettle x0 : Statement (.checkpointSettle x0) := ofNone rfl
theorem resultLands x0 x1 : Statement (.resultLands x0 x1) := ofNone rfl
theorem coolboxRelease x0 : Statement (.coolboxRelease x0) := ofNone rfl
theorem releaseWrite x0 : Statement (.releaseWrite x0) := ofNone rfl
theorem l1Eviction x0 x1 x2 : Statement (.l1Eviction x0 x1 x2) := ofNone rfl
theorem acknowledgement x0 : Statement (.acknowledgement x0) := ofNone rfl
theorem atomicPerform x0 : Statement (.atomicPerform x0) := ofNone rfl
theorem homeCommit x0 : Statement (.homeCommit x0) := ofNone rfl
theorem aprogRun x0 : Statement (.aprogRun x0) := ofNone rfl
theorem aprogTimeout x0 : Statement (.aprogTimeout x0) := ofNone rfl
theorem moved x0 : Statement (.moved x0) := ofNone rfl
theorem trapRecordPost x0 : Statement (.trapRecordPost x0) := ofNone rfl
theorem faultRecordPost x0 : Statement (.faultRecordPost x0) := ofNone rfl
theorem errorRecordPost x0 : Statement (.errorRecordPost x0) := ofNone rfl
theorem arrayRebuild x0 x1 x2 x3 x4 : Statement (.arrayRebuild x0 x1 x2 x3 x4) := ofNone rfl
theorem rucksackSpill x0 x1 : Statement (.rucksackSpill x0 x1) := ofNone rfl
theorem rucksackRefill x0 x1 : Statement (.rucksackRefill x0 x1) := ofNone rfl
theorem copySegment x0 : Statement (.copySegment x0) := ofNone rfl
theorem copyWriteLands x0 : Statement (.copyWriteLands x0) := ofNone rfl
theorem cpmAcknowledgement x0 x1 : Statement (.cpmAcknowledgement x0 x1) := ofNone rfl
theorem commandStart x0 x1 : Statement (.commandStart x0 x1) := ofNone rfl
theorem mldbSegment x0 x1 : Statement (.mldbSegment x0 x1) := ofNone rfl
theorem mmaRow x0 x1 : Statement (.mmaRow x0 x1) := ofNone rfl
theorem mzeroRow x0 x1 : Statement (.mzeroRow x0 x1) := ofNone rfl
theorem mstoreRow x0 x1 : Statement (.mstoreRow x0 x1) := ofNone rfl
theorem mdrainRead x0 x1 : Statement (.mdrainRead x0 x1) := ofNone rfl
theorem mdrainLanding x0 x1 : Statement (.mdrainLanding x0 x1) := ofNone rfl
theorem rowCommit x0 x1 : Statement (.rowCommit x0 x1) := ofNone rfl
theorem commandRetire x0 x1 : Statement (.commandRetire x0 x1) := ofNone rfl
theorem parentRead x0 : Statement (.parentRead x0) := ofNone rfl
theorem lowerStep x0 : Statement (.lowerStep x0) := ofNone rfl
theorem linkStep x0 : Statement (.linkStep x0) := ofNone rfl
theorem addStep x0 : Statement (.addStep x0) := ofNone rfl
theorem sameStep x0 : Statement (.sameStep x0) := ofNone rfl
theorem relabelRun x0 : Statement (.relabelRun x0) := ofNone rfl
theorem markOperation x0 : Statement (.markOperation x0) := ofNone rfl
theorem eqCommit x0 : Statement (.eqCommit x0) := ofNone rfl
theorem forestRelease x0 : Statement (.forestRelease x0) := ofNone rfl
theorem barrierArrival x0 : Statement (.barrierArrival x0) := ofNone rfl
theorem expectation x0 : Statement (.expectation x0) := ofNone rfl
theorem engineCredit x0 : Statement (.engineCredit x0) := ofNone rfl
theorem waitWake x0 : Statement (.waitWake x0) := ofNone rfl
theorem bindingUpdate x0 : Statement (.bindingUpdate x0) := ofNone rfl
theorem reservationGrant x0 : Statement (.reservationGrant x0) := ofNone rfl
theorem linkCredit x0 x1 : Statement (.linkCredit x0 x1) := ofNone rfl
theorem strikeReport x0 x1 x2 : Statement (.strikeReport x0 x1 x2) := ofNone rfl
theorem admission x0 x1 : Statement (.admission x0 x1) := ofNone rfl
theorem teamEnd x0 : Statement (.teamEnd x0) := ofNone rfl
theorem hamperTimer x0 x1 : Statement (.hamperTimer x0 x1) := ofNone rfl
theorem teamEviction x0 : Statement (.teamEviction x0) := ofNone rfl
theorem readmission x0 x1 : Statement (.readmission x0 x1) := ofNone rfl
theorem timetableSlot x0 : Statement (.timetableSlot x0) := ofNone rfl
theorem deferredLaunch x0 : Statement (.deferredLaunch x0) := ofNone rfl
theorem watchdog x0 : Statement (.watchdog x0) := ofNone rfl
theorem resume x0 x1 : Statement (.resume x0 x1) := ofNone rfl
theorem redirect x0 x1 : Statement (.redirect x0 x1) := ofNone rfl
theorem killTeam x0 x1 : Statement (.killTeam x0 x1) := ofNone rfl
theorem killContext x0 x1 : Statement (.killContext x0 x1) := ofNone rfl
theorem resumepcWrite x0 x1 x2 : Statement (.resumepcWrite x0 x1 x2) := ofNone rfl
theorem replay x0 x1 x2 : Statement (.replay x0 x1 x2) := ofNone rfl
theorem unresolvable x0 x1 x2 : Statement (.unresolvable x0 x1 x2) := ofNone rfl
theorem preempt x0 x1 x2 : Statement (.preempt x0 x1 x2) := ofNone rfl
theorem queueEntryWrite x0 x1 x2 x3 : Statement (.queueEntryWrite x0 x1 x2 x3) := ofNone rfl
theorem clkmodeWrite x0 : Statement (.clkmodeWrite x0) := ofNone rfl
theorem notifyRead x0 : Statement (.notifyRead x0) := ofNone rfl
theorem registerWrite x0 x1 x2 : Statement (.registerWrite x0 x1 x2) := ofNone rfl
theorem portBringUp x0 x1 : Statement (.portBringUp x0 x1) := ofNone rfl
theorem lossOfLock x0 x1 : Statement (.lossOfLock x0 x1) := ofNone rfl
theorem linkRead x0 x1 x2 x3 x4 x5 : Statement (.linkRead x0 x1 x2 x3 x4 x5) := ofNone rfl
theorem linkWrite x0 x1 x2 x3 x4 x5 : Statement (.linkWrite x0 x1 x2 x3 x4 x5) := ofNone rfl
theorem readData x0 x1 x2 x3 : Statement (.readData x0 x1 x2 x3) := ofNone rfl
theorem writeAcknowledgement x0 x1 : Statement (.writeAcknowledgement x0 x1) := ofNone rfl
theorem refused x0 x1 : Statement (.refused x0 x1) := ofNone rfl
theorem errorResponse x0 x1 : Statement (.errorResponse x0 x1) := ofNone rfl
theorem linkAtomic x0 x1 x2 x3 x4 x5 x6 : Statement (.linkAtomic x0 x1 x2 x3 x4 x5 x6) := ofNone rfl
theorem atomicResult x0 x1 x2 : Statement (.atomicResult x0 x1 x2) := ofNone rfl
theorem hostTimeout x0 x1 : Statement (.hostTimeout x0 x1) := ofNone rfl
theorem backInvalidate x0 : Statement (.backInvalidate x0) := ofNone rfl
theorem cxlFailure x0 : Statement (.cxlFailure x0) := ofNone rfl
theorem ptpEventMessage x0 x1 x2 : Statement (.ptpEventMessage x0 x1 x2) := ofNone rfl
theorem clockLock x0 : Statement (.clockLock x0) := ofNone rfl
theorem holdover : Statement .holdover := ofNone rfl
theorem clkpairLatch : Statement .clkpairLatch := ofNone rfl
theorem powerGrant x0 : Statement (.powerGrant x0) := ofNone rfl
theorem powerLimit x0 : Statement (.powerLimit x0) := ofNone rfl
theorem droop x0 x1 : Statement (.droop x0 x1) := ofNone rfl
theorem emergencyThrottleBegin : Statement .emergencyThrottleBegin := ofNone rfl
theorem emergencyThrottleEnd : Statement .emergencyThrottleEnd := ofNone rfl
theorem orderlyShutdown : Statement .orderlyShutdown := ofNone rfl
theorem powerOff : Statement .powerOff := ofNone rfl
theorem packageReset : Statement .packageReset := ofNone rfl
theorem getVersion : Statement .getVersion := ofNone rfl
theorem getCapabilities x0 : Statement (.getCapabilities x0) := ofNone rfl
theorem negotiateAlgorithms x0 : Statement (.negotiateAlgorithms x0) := ofNone rfl
theorem getDigests : Statement .getDigests := ofNone rfl
theorem getCertificate x0 x1 x2 : Statement (.getCertificate x0 x1 x2) := ofNone rfl
theorem challenge x0 x1 : Statement (.challenge x0 x1) := ofNone rfl
theorem getMeasurements x0 x1 x2 : Statement (.getMeasurements x0 x1 x2) := ofNone rfl
theorem keyExchange x0 : Statement (.keyExchange x0) := ofNone rfl
theorem finish x0 : Statement (.finish x0) := ofNone rfl
theorem endSession : Statement .endSession := ofNone rfl
theorem nullCall x0 x1 : Statement (.nullCall x0 x1) := ofNone rfl
theorem launchCall x0 x1 x2 : Statement (.launchCall x0 x1 x2) := ofNone rfl
theorem launchwait x0 x1 x2 : Statement (.launchwait x0 x1 x2) := ofNone rfl
theorem mapCall x0 x1 x2 x3 x4 x5 : Statement (.mapCall x0 x1 x2 x3 x4 x5) := ofNone rfl
theorem unmap x0 x1 x2 x3 : Statement (.unmap x0 x1 x2 x3) := ofNone rfl
theorem qcreate x0 x1 x2 x3 : Statement (.qcreate x0 x1 x2 x3) := ofNone rfl
theorem qdestroy x0 x1 x2 : Statement (.qdestroy x0 x1 x2) := ofNone rfl
theorem bindthread x0 x1 x2 : Statement (.bindthread x0 x1 x2) := ofNone rfl
theorem timeCall x0 x1 : Statement (.timeCall x0 x1) := ofNone rfl
theorem timetableCall x0 x1 x2 x3 x4 : Statement (.timetableCall x0 x1 x2 x3 x4) := ofNone rfl
theorem loadpkg x0 x1 x2 : Statement (.loadpkg x0 x1 x2) := ofNone rfl
theorem migrate x0 x1 x2 : Statement (.migrate x0 x1 x2) := ofNone rfl
theorem exitCall x0 x1 x2 : Statement (.exitCall x0 x1 x2) := ofNone rfl
theorem logCall x0 x1 x2 x3 : Statement (.logCall x0 x1 x2 x3) := ofNone rfl
theorem orderingPointAccess x0 : Statement (.orderingPointAccess x0) := ofNone rfl
theorem rangerLoadStore x0 x1 x2 x3 : Statement (.rangerLoadStore x0 x1 x2 x3) := ofNone rfl
theorem hubHoldRelease x0 : Statement (.hubHoldRelease x0) := ofNone rfl
theorem trainingDone x0 x1 x2 : Statement (.trainingDone x0 x1 x2) := ofNone rfl
theorem migrationStream x0 x1 : Statement (.migrationStream x0 x1) := ofNone rfl
theorem resumptionConfirmed x0 : Statement (.resumptionConfirmed x0) := ofNone rfl

end Sys2Proof.Laws.Encoding
end

