-- ==== Sys2Proof/Safety.lean ====
section
/-! DEFINITION. What counts as a safe step, and the terms in which the statements speak of an instruction that issues. -/

namespace Sys2Proof.Machine

/-- The memory invariant: bytes and poison in canonical form. -/
def State.MemInv (s : State) : Prop := s.mem.wf = true

/-- A step is safe when it neither faults nor is refused and keeps the memory invariant. -/
def safeStep (s : State) : Prop :=
  match step s with
  | .next s' => s'.MemInv
  | .fault _ => False
  | .refused _ => False

/-- A context but for the record that one of its teams issued (R416). -/
def Ctx.still (c : Ctx) : Ctx := { c with progress := 0, measuring := true }

/-- A pending result but for the checkpoint that it also lands in (R188). -/
def Pend.still (p : Pend) : Pend := { p with ckpt := none }

/-- A context but for what an issue may change of it: the record that one of its teams issued (R416) and the reservations of its
link queues (R427). -/
@[reducible] def Ctx.registers (c : Ctx) : Ctx := { c with progress := 0, measuring := true, links := [] }

/-- What lies beyond a team's own reach: memory at the ordering points, which effects reach only through the Coolbox (R37), and the
tables and registers of the tiles, the contexts, the dispatcher and the hub (R381, R382). -/
structure Beyond where
  bytes : List Host.Cell
  poison : Fmap Bool
  windows : Fmap Dword
  quotas : Fmap (BitVec 128)
  routes : Fmap Dword
  errors : Nat × Nat × Nat
  counters : Fmap Nat
  works : List Work
  groups : List GroupRt
  hampers : List Hamper
  timetable : Fmap TimeEntry
  kernels : List Kernel
  ports : Fmap Port
  outstanding : List Outstanding
  hold : List HubHold
  cxlDown : List Nat
  clock : Clock
  power : Power
  trust : Trust
  procs : List Proc
  ctxs : List Ctx
  out : List Out
deriving DecidableEq

/-- What lies beyond the teams' reach in a state. -/
@[reducible] def State.beyond (s : State) : Beyond where
  bytes := s.mem.bytes
  poison := s.mem.poison
  windows := s.tables.windows
  quotas := s.tables.quotas
  routes := s.tables.routes
  errors := (s.tables.errBase, s.tables.errHead, s.tables.errTail)
  counters := s.tables.counters
  works := s.disp.works
  groups := s.disp.groups
  hampers := s.disp.hampers
  timetable := s.disp.timetable
  kernels := s.disp.kernels
  ports := s.hub.ports
  outstanding := s.hub.outstanding
  hold := s.hub.hold
  cxlDown := s.hub.cxlDown
  clock := s.hub.clock
  power := s.hub.power
  trust := s.hub.trust
  procs := s.hub.procs
  ctxs := s.ctxs.map Ctx.registers
  out := s.out

/-- `t` is `u` but for what the issue of any instruction changes besides its own effect: the groups and their PCs, a REP or macro
under way, the issue's counts and cycles, a checkpoint, reservations used up, and held effects added to the Coolbox (words popped
by an operand are removed, groups beyond 32 move to memory). -/
structure Settles (u t : State) : Prop where
  coolbox : u.coolbox <+: t.coolbox
  ctxs : t.ctxs.map Ctx.still = u.ctxs.map Ctx.still
  pend : t.cur.pend.map Pend.still = u.cur.pend.map Pend.still
  arch : t.cur.arch = { u.cur.arch with
    groups := t.cur.arch.groups, moved := t.cur.arch.moved, pc := t.cur.arch.pc, only := t.cur.arch.only, rep := t.cur.arch.rep, mac := t.cur.arch.mac }
  team : t.cur = { u.cur with
    arch := t.cur.arch, shadow := t.cur.shadow, ckpts := t.cur.ckpts, pend := t.cur.pend, grants := t.cur.grants, wants := t.cur.wants,
    sched := t.cur.sched }
  rest : t = { u with
    cur := t.cur, coolbox := t.coolbox, ctxs := t.ctxs, busy := t.busy, issued := t.issued, nextId := t.nextId }

/-- Lane `l` is in a group at a PC (R74, R83). -/
def Team.stands (t : Team) (l : Nat) (pc : BitVec 48) : Prop := ∃ g ∈ t.allGroups, g.pc = pc ∧ inMask g.mask l = true

/-- An instruction whose lanes all go on at the next one. -/
def End.onward (e : End) : Prop := e.targets = [] ∧ e.ended = [] ∧ e.stay = false

/-- Past an instruction: its own word and its literals (R45, R84). -/
def Issue.nextPc (o : Issue) : BitVec 48 := o.g.pc + BitVec.ofNat 48 (4 * (1 + litCount o.word))

/-- The instruction with operands `o` concludes as `e` says: its own effect made `u`, the issue is counted, and its lanes are where
`e` puts them. The places of lanes are said outside a REP or macro. -/
structure Concludes (o : Issue) (e : End) (u t : State) : Prop where
  settles : Settles u t
  issues : t.cur.sched.issues = u.cur.sched.issues + 1
  lanes : u.cur.arch.rep = none → u.cur.arch.mac = none → e.stay = false → ∀ l, l < u.cur.width → l < 1024 → inMask o.g.mask l = true →
    l ∉ e.ended → t.cur.stands l (((e.targets.find? (·.1 == l)).map (·.2)).getD o.nextPc)
  ended : u.cur.arch.rep = none → u.cur.arch.mac = none → e.stay = false → ∀ l ∈ e.ended, l < 1024 →
    (∀ g ∈ u.cur.allGroups, g.pc ≠ o.g.pc → inMask g.mask l = false) → ∀ pc, ¬ t.cur.stands l pc
  stays : e.stay = true → ∀ l pc, u.cur.stands l pc → t.cur.stands l pc
  others : ∀ l pc, pc ≠ o.g.pc → u.cur.stands l pc → t.cur.stands l pc
  sig : u.cur.arch.rep = none → u.cur.arch.mac = none → e.onward → lanesOf u.cur.width o.g.mask ≠ [] →
    (∀ g ∈ u.cur.allGroups, g.pc ≠ o.g.pc → g.pc ≠ o.nextPc) →
    ∃ g ∈ t.cur.allGroups, g.pc = o.nextPc ∧ g.sig = e.sig.getD (crcWord o.g.sig o.word) ∧ g.sigOk = (o.g.sigOk || e.sig.isSome)

/-- The instruction with operands `o` completes and its lanes go on at the next one: its own effect made `u`. -/
def Completes (o : Issue) (u t : State) : Prop := ∃ e : End, e.onward ∧ e.sig = none ∧ Concludes o e u t

/-- A context but for the counts of its link queues (R428). -/
def Ctx.unlinked (c : Ctx) : Ctx := { c with links := [] }

/-- `t` is `s` but for the reservations of port operands: the team's grants and the counts of the queues they are made in (R428). -/
structure Reserves (s t : State) : Prop where
  cur : t.cur = { s.cur with grants := t.cur.grants, wants := t.cur.wants }
  tables : t.tables = { s.tables with queues := t.tables.queues }
  hub : t.hub = { s.hub with threads := t.hub.threads }
  ctxs : t.ctxs.map Ctx.unlinked = s.ctxs.map Ctx.unlinked
  rest : t = { s with cur := t.cur, tables := t.tables, hub := t.hub, ctxs := t.ctxs }

/-- A frame but for the values of its slots. -/
def Frame.bounds (f : Frame) : Frame := { f with slots := [] }

/-- A destination holds words, low word first: the slots of a lane's frame, or uniform registers. -/
def destHolds (u t : Team) (d : Dest) (ws : List PWord) : Prop :=
  match d with
  | .slot l n => l < u.frames.length → ∀ j, j < ws.length → t.slotWord l (n + j) = ws.getD j PWord.zero
  | .uni n => ∀ j, j < ws.length → n + j < u.arch.k.length → t.arch.k.getD (n + j) PWord.zero = ws.getD j PWord.zero
  | _ => True

/-- Is slot `n` of lane `l` among the `w` registers of a destination? -/
def Dest.hasSlot (d : Dest) (w l n : Nat) : Prop := match d with
  | .slot k m => k = l ∧ m ≤ n ∧ n < m + w
  | _ => False

/-- Is uniform register `n` among the `w` registers of a destination? -/
def Dest.hasUni (d : Dest) (w n : Nat) : Prop := match d with
  | .uni m => m ≤ n ∧ n < m + w
  | _ => False

/-- The lane whose operands make the result of lane `l`: its own, or the one for which an instruction acts once (R104). -/
def Issue.giver (o : Issue) (l : Nat) : Nat := if o.uniform then o.act.headD l else l

/-- What a lane's result is: the value for d, the codes it sets if any, and the exception flags it raises. -/
abbrev LaneRule := Nat → PVal × Option Codes × BitVec 5

/-- `u` is `s` with the results of an instruction in its registers and nothing else changed: every lane's d holds its value, every
active lane has its codes and flags, every other register, code and flag is as before; words for a queue port are held
as one push, and nothing else is added to the Coolbox. -/
structure Computes (o : Issue) (s u : State) (f : LaneRule) : Prop where
  dest : ∀ l ∈ o.lanes, o.sh.d.writes = true → destHolds s.cur u.cur (destOf o.t o.rd l) ((f l).1.words (o.dw l))
  slots : ∀ l n, (∀ k ∈ o.lanes, o.sh.d.writes = true → ¬ (destOf o.t o.rd k).hasSlot ((f k).1.words (o.dw k)).length l n) →
    u.cur.slotWord l n = s.cur.slotWord l n
  unis : ∀ n, (∀ k ∈ o.lanes, o.sh.d.writes = true → ¬ (destOf o.t o.rd k).hasUni ((f k).1.words (o.dw k)).length n) →
    u.cur.arch.k.getD n PWord.zero = s.cur.arch.k.getD n PWord.zero
  codes : ∀ l ∈ o.act, l < s.cur.arch.lanes.length →
    (u.cur.lane l).cc = (f (o.giver l)).2.1.getD (s.cur.lane l).cc ∧ (u.cur.lane l).xflags = (s.cur.lane l).xflags ||| (f (o.giver l)).2.2
  idle : ∀ l, l ∉ o.act → u.cur.lane l = s.cur.lane l
  lanes : ∀ l, (u.cur.lane l).fp = (s.cur.lane l).fp ∧ (u.cur.lane l).depth = (s.cur.lane l).depth ∧ (u.cur.lane l).seed = (s.cur.lane l).seed
  frames : u.cur.frames.map Frame.bounds = s.cur.frames.map Frame.bounds
  team : u.cur = { s.cur with arch := { s.cur.arch with k := u.cur.arch.k, lanes := u.cur.arch.lanes }, frames := u.cur.frames }
  push : ∀ h, regKind o.rd = .port → o.sh.d.writes = true → o.lanes ≠ [] → o.t.arch.ports.getD (o.rd.toNat - 96) none = some h →
    ∃ slots : List Nat, u.coolbox.map (·.eff) = s.coolbox.map (·.eff) ++ [.push h (slots.zip (o.lanes.flatMap fun l => (f l).1.words (o.dw l)))]
  coolbox : regKind o.rd ≠ .port → u.coolbox = s.coolbox
  rest : u = { s with cur := u.cur, coolbox := u.coolbox, nextId := u.nextId }

/-- What a prepared issue is: the instruction, its word, the team with its reservations made, the current group, the active lanes. -/
structure Prepared (i : Instr) (s : State) (o : Issue) (s1 : State) : Prop where
  instr : o.i = i
  word : encodeWord i = some o.word
  lit : o.lit = literal i
  group : s.cur.current = some o.g
  team : o.t = s1.cur
  mode : o.mode = s.cur.arch.mode
  now : o.now = s.now
  legal : decodeCause i s.cur.arch.mode = none
  sh : o.sh = shape i s.cur.arch.mode (runtimeWords s.cur i s.now (activeLanes s.cur o.g (shape i s.cur.arch.mode 1)))
  act : o.act = activeLanes s.cur o.g (shape i s.cur.arch.mode 1)
  ready : stallCause s.cur i o.sh (regFields i).1 (regFields i).2.1 (regFields i).2.2 s.now o.act = none
  unpoisoned : poisonedGuard s.cur o.g o.sh = []
  uniform : o.uniform = actsOnce i o.sh (regFields i).1
  lanes : o.lanes = if o.uniform then o.act.take 1 else o.act
  regs : o.rd = (regFields i).1 ∧ o.ra = (regFields i).2.1 ∧ o.rb = (regFields i).2.2
  dw : o.dw = dWords s1.cur i o.sh s1.now o.act
  d : o.d = readReg s1.cur s1.now (literal i) o.sh.litHigh (popped s1.cur o.rd 2 (fun _ => o.sh.d.words) o.act) o.sh.d.words o.rd
  a : ∀ l, o.a l = readReg s1.cur s1.now (literal i) o.sh.litHigh (popped s1.cur o.ra 0 (aWords s1.cur i o.sh s1.now o.act) o.act)
    (aWords s1.cur i o.sh s1.now o.act l) o.ra l
  b : o.b = readReg s1.cur s1.now (literal i) o.sh.litHigh (popped s1.cur o.rb 1 (fun _ => o.sh.b.words) o.act) o.sh.b.words o.rb
  reserves : Reserves s s1

/-! ### The tables of results -/

/-- A lane's result from a value with codes: `cc` says whether the codes are written, `p` is the poison of the sources (R103, R106). -/
def valueRule (cc p : Bool) (v : Dword × Codes) : PVal × Option Codes × BitVec 5 := (⟨v.1, p⟩, if cc then some { v.2 with p := p } else none, 0)

/-- The integer, logic, bit, compare and code instructions whose results land at issue (Tables 5-3, 5-5, 5-6). -/
def integerRule : Instr → Option (Issue → LaneRule)
  | .add w c _ _ _ _ => some fun o l => valueRule (c = 1) (o.ab l) (sized w fun n => addCodes ((o.a l).at n) ((o.b l).at n) false)
  | .addc w c _ _ _ _ => some fun o l => valueRule (c = 1) (o.ab l || (o.codes l).p)
      (sized w fun n => addCodes ((o.a l).at n) ((o.b l).at n) (o.codes l).c)
  | .sub w c _ _ _ _ => some fun o l => valueRule (c = 1) (o.ab l) (sized w fun n => subCodes ((o.a l).at n) ((o.b l).at n) false)
  | .subb w c _ _ _ _ => some fun o l => valueRule (c = 1) (o.ab l || (o.codes l).p)
      (sized w fun n => subCodes ((o.a l).at n) ((o.b l).at n) !(o.codes l).c)
  | .neg w c _ _ _ => some fun o l => valueRule (c = 1) (o.ap l) (sized w fun n => subCodes 0 ((o.a l).at n) false)
  | .mul w c _ _ _ _ => some fun o l => valueRule (c = 1) (o.ab l) (sized w fun n => mulCodes ((o.a l).at n) ((o.b l).at n))
  | .mad w c _ _ _ _ => some fun o l => valueRule (c = 1) (o.dab l)
      (sized w fun n => addCodes ((o.a l).at n * (o.b l).at n) ((o.d l).at n) false)
  | .abs w c _ _ _ => some fun o l => valueRule (c = 1) (o.ap l) (sized w fun n =>
      let x := (o.a l).at n
      let r := if x.toInt < 0 then 0 - x else x
      (r, resCodes r false (x == BitVec.intMin n)))
  | .min u w c _ _ _ _ => some fun o l => valueRule (c = 1) (o.ab l) (sized w fun n =>
      let r := minOf (u = 1) ((o.a l).at n) ((o.b l).at n)
      (r, resCodes r false false))
  | .max u w c _ _ _ _ => some fun o l => valueRule (c = 1) (o.ab l) (sized w fun n =>
      let r := maxOf (u = 1) ((o.a l).at n) ((o.b l).at n)
      (r, resCodes r false false))
  | .mulh u w _ _ _ _ => some fun o l => valueRule false (o.ab l) (plainSized w fun n => mulHigh (u = 1) ((o.a l).at n) ((o.b l).at n))
  | .mulw u c _ _ _ _ => some fun o l => valueRule (c = 1) (o.ab l)
      (let r := mulWide (u = 1) ((o.a l).at 32) ((o.b l).at 32)
       (r, resCodes r false false))
  | .madw u c _ _ _ _ => some fun o l => valueRule (c = 1) (o.dab l)
      (addCodes (mulWide (u = 1) ((o.a l).at 32) ((o.b l).at 32)) (o.d l).v false)
  | .mov w _ _ _ => some fun o l => valueRule false (o.ap l) (plainSized w fun n => (o.a l).at n)
  | .ldi w _ lit lit2 => some fun _ _ => valueRule false false (if w = 1 then lit2 ++ lit else lit.zeroExtend 64, Codes.zero)
  | .and w _ _ _ _ => some fun o l => valueRule false (o.ab l) (plainSized w fun n => (o.a l).at n &&& (o.b l).at n)
  | .or w _ _ _ _ => some fun o l => valueRule false (o.ab l) (plainSized w fun n => (o.a l).at n ||| (o.b l).at n)
  | .xor w _ _ _ _ => some fun o l => valueRule false (o.ab l) (plainSized w fun n => (o.a l).at n ^^^ (o.b l).at n)
  | .andn w _ _ _ _ => some fun o l => valueRule false (o.ab l) (plainSized w fun n => (o.a l).at n &&& ~~~(o.b l).at n)
  | .not w _ _ _ => some fun o l => valueRule false (o.ap l) (plainSized w fun n => ~~~(o.a l).at n)
  | .shl w _ _ _ _ => some fun o l => valueRule false (o.ab l) (plainSized w fun n => (o.a l).at n <<< ((o.b l).v.toNat % n))
  | .shr w _ _ _ _ => some fun o l => valueRule false (o.ab l) (plainSized w fun n => (o.a l).at n >>> ((o.b l).v.toNat % n))
  | .shra w _ _ _ _ => some fun o l => valueRule false (o.ab l) (plainSized w fun n => ((o.a l).at n).sshiftRight ((o.b l).v.toNat % n))
  | .rot w _ _ _ _ => some fun o l => valueRule false (o.ab l) (plainSized w fun n => ((o.a l).at n).rotateLeft ((o.b l).v.toNat % n))
  | .popc w _ _ _ => some fun o l => valueRule false (o.ap l) (BitVec.ofNat 64 (if w = 1 then popCount ((o.a l).at 64) else popCount ((o.a l).at 32)), Codes.zero)
  | .clz w _ _ _ => some fun o l => valueRule false (o.ap l)
      (BitVec.ofNat 64 (if w = 1 then leadingZeros ((o.a l).at 64) else leadingZeros ((o.a l).at 32)), Codes.zero)
  | .ctz w _ _ _ => some fun o l => valueRule false (o.ap l)
      (BitVec.ofNat 64 (if w = 1 then trailingZeros ((o.a l).at 64) else trailingZeros ((o.a l).at 32)), Codes.zero)
  | .brev w _ _ _ => some fun o l => valueRule false (o.ap l) (plainSized w fun n => bitReverse ((o.a l).at n))
  | .bfx u w _ _ _ _ => some fun o l => valueRule false (o.ab l) (plainSized w fun n => bitExtract (u = 1) ((o.a l).at n) (o.b l).v.toNat)
  | .bfi w _ _ _ _ => some fun o l => valueRule false (o.dab l) (plainSized w fun n => bitInsert ((o.d l).at n) ((o.a l).at n) (o.b l).v.toNat)
  | .cmpN w _ _ _ => some fun o l => valueRule true (o.ab l) (sized w fun n => (0, cmpCodes false ((o.a l).at n) ((o.b l).at n)))
  | .cmpS w _ _ _ => some fun o l => valueRule true (o.ab l) (sized w fun n => (0, cmpCodes true ((o.a l).at n) ((o.b l).at n)))
  | .tst w _ _ _ => some fun o l => valueRule true (o.ab l) (sized w fun n => (0, tstCodes ((o.a l).at n) ((o.b l).at n)))
  | .fshf .. => some fun o l => valueRule false (o.dab l) ((funnel ((o.d l).at 32) ((o.a l).at 32) (o.b l).v.toNat).zeroExtend 64, Codes.zero)
  | .perm .. => some fun o l => valueRule false (o.dab l) ((permute ((o.d l).at 32) ((o.a l).at 32) (o.b l).v.toNat).zeroExtend 64, Codes.zero)
  | .lea .. => some fun o l => valueRule false (o.ab l)
      ((o.a l).v + ((o.b l).at 32).signExtend 64 * BitVec.ofNat 64 (elementSize o.mode.typ), Codes.zero)
  | .dot4N .. => some fun o l => valueRule false (o.dab l) ((dot4 false ((o.d l).at 32) ((o.a l).at 32) ((o.b l).at 32)).zeroExtend 64, Codes.zero)
  | .dot4S .. => some fun o l => valueRule false (o.dab l) ((dot4 true ((o.d l).at 32) ((o.a l).at 32) ((o.b l).at 32)).zeroExtend 64, Codes.zero)
  | .sad .. => some fun o l => valueRule false (o.dab l) ((sumAbs ((o.d l).at 32) ((o.a l).at 32) ((o.b l).at 32)).zeroExtend 64, Codes.zero)
  | .getcc .. => some fun o l => valueRule false (o.codes l).p ((o.codes l).word.zeroExtend 64, Codes.zero)
  | .setcc .. => some fun o l => valueRule true (o.ap l)
      (0, ⟨(o.a l).v.getLsbD 3, (o.a l).v.getLsbD 2, (o.a l).v.getLsbD 1, (o.a l).v.getLsbD 0, false⟩)
  | .mfs _ lit => some fun o l => (⟨o.sysReg lit.toNat l, false⟩, none, 0)
  | _ => none

/-- A lane's floating-point result: the elements of the mode's type act independently, a poisoned lane records no condition (R156,
R160, R161). -/
def floatRes (o : Issue) (c : BitVec 1) (p : Bool) (codes : Dword → Codes) (g : (PVal → Nat) → Nat × BitVec 5) : PVal × Option Codes × BitVec 5 :=
  (⟨(o.each g).1, p⟩, if c = 1 then some { codes (o.each g).1 with p := p } else none, if p then 0 else (o.each g).2)

/-- The floating-point instructions whose results land at issue (R162-R170). -/
def floatRule : Instr → Option (Issue → LaneRule)
  | .fadd c _ _ _ _ => some fun o l => floatRes o c (o.fp2 l) o.signCodes fun e => o.fmt.fadd o.rm (e (o.a l)) (e (o.b l))
  | .fsub c _ _ _ _ => some fun o l => floatRes o c (o.fp2 l) o.signCodes fun e => o.fmt.fsub o.rm (e (o.a l)) (e (o.b l))
  | .fmul c _ _ _ _ => some fun o l => floatRes o c (o.fp2 l) o.signCodes fun e => o.fmt.fmul o.rm (e (o.a l)) (e (o.b l))
  | .fma c _ _ _ _ => some fun o l => floatRes o c (o.fp3 l) o.signCodes fun e => o.fmt.fma o.rm (e (o.d l)) (e (o.a l)) (e (o.b l))
  | .fnma c _ _ _ _ => some fun o l => floatRes o c (o.fp3 l) o.signCodes fun e => o.fmt.fnma o.rm (e (o.d l)) (e (o.a l)) (e (o.b l))
  | .fmin c _ _ _ _ => some fun o l => floatRes o c (o.fp2 l) o.signCodes fun e => o.fmt.minMax o.rm false true (e (o.a l)) (e (o.b l))
  | .fmax c _ _ _ _ => some fun o l => floatRes o c (o.fp2 l) o.signCodes fun e => o.fmt.minMax o.rm true true (e (o.a l)) (e (o.b l))
  | .fminm c _ _ _ _ => some fun o l => floatRes o c (o.fp2 l) o.signCodes fun e => o.fmt.minMax o.rm false false (e (o.a l)) (e (o.b l))
  | .fmaxm c _ _ _ _ => some fun o l => floatRes o c (o.fp2 l) o.signCodes fun e => o.fmt.minMax o.rm true false (e (o.a l)) (e (o.b l))
  | .fabs c _ _ _ => some fun o l => floatRes o c (o.fp1 l) o.signCodes fun e => (o.fmt.withSign (e (o.a l)) false, 0)
  | .fneg c _ _ _ => some fun o l => floatRes o c (o.fp1 l) o.signCodes fun e => (o.fmt.withSign (e (o.a l)) (!o.fmt.negOf (e (o.a l))), 0)
  | .fcpys c _ _ _ _ => some fun o l => floatRes o c (o.fp2 l) o.signCodes fun e => (o.fmt.withSign (e (o.a l)) (o.fmt.negOf (e (o.b l))), 0)
  | .fcmp .. => some fun o l => floatRes o 0 (o.fp2 l) o.signCodes fun e =>
      let x := o.fmt.read o.mode.flush (e (o.a l))
      let y := o.fmt.read o.mode.flush (e (o.b l))
      ((x.relation y).word.toNat, if x.isSnan || y.isSnan then NV else 0)
  | .fclass c _ _ _ => some fun o l => floatRes o c (o.fp1 l) intCodes fun e => (o.fmt.classMask (e (o.a l)), 0)
  | .frint c _ _ _ => some fun o l => floatRes o c (o.fp1 l) o.signCodes fun e => o.fmt.frint o.rm (e (o.a l))
  | .fscale c _ _ _ _ => some fun o l => floatRes o c (o.fp2 l) o.signCodes fun e =>
      o.fmt.round o.rm ((o.fmt.read o.mode.flush (e (o.a l))).scale ((o.b l).v.extractLsb' 0 32).toInt)
  | .fgetx c _ _ _ => some fun o l => floatRes o c (o.fp1 l) intCodes fun e =>
      o.fmt.fgetx o.rm (if o.mode.typ = 4 || o.mode.typ = 5 then 16 else 32) (e (o.a l))
  | _ => none

/-- The long-latency instructions: their results are known at issue and land later (R46, R110, R163, R171). -/
def longRule : Instr → Option (Issue → LaneRule)
  | .div u w c _ _ _ _ => some fun o l => valueRule (c = 1) ((o.d l).p || o.ap l) (sized w fun n =>
      let q := divRem (u = 1) ((o.d l).at n) ((o.a l).at n)
      (q.1, resCodes q.1 false q.2.2))
  | .rem u w c _ _ _ _ => some fun o l => valueRule (c = 1) ((o.d l).p || o.ap l) (sized w fun n =>
      let q := divRem (u = 1) ((o.d l).at n) ((o.a l).at n)
      (q.2.1, resCodes q.2.1 false q.2.2))
  | .fdiv c _ _ _ _ => some fun o l => floatRes o c ((o.d l).p || (o.a l).p) o.signCodes fun e => o.fmt.fdiv o.rm (e (o.d l)) (e (o.a l))
  | .fsqrt c _ _ _ _ => some fun o l => floatRes o c (o.fp1 l) o.signCodes fun e => o.fmt.fsqrt o.rm (e (o.a l))
  | .frcp c _ _ _ _ => some fun o l => floatRes o c (o.fp1 l) o.signCodes fun e => o.fmt.frcp o.rm (e (o.a l))
  | .sinpi .. => some fun o l => floatRes o 0 (o.fp1 l) o.signCodes fun e => Func.sinpi.eval o.fmt o.mode.flush o.mode.sat (e (o.a l))
  | .cospi .. => some fun o l => floatRes o 0 (o.fp1 l) o.signCodes fun e => Func.cospi.eval o.fmt o.mode.flush o.mode.sat (e (o.a l))
  | .exp2 .. => some fun o l => floatRes o 0 (o.fp1 l) o.signCodes fun e => Func.exp2.eval o.fmt o.mode.flush o.mode.sat (e (o.a l))
  | .log2 .. => some fun o l => floatRes o 0 (o.fp1 l) o.signCodes fun e => Func.log2.eval o.fmt o.mode.flush o.mode.sat (e (o.a l))
  | .rcpa .. => some fun o l => floatRes o 0 (o.fp1 l) o.signCodes fun e => Func.rcpa.eval o.fmt o.mode.flush o.mode.sat (e (o.a l))
  | .rsqa .. => some fun o l => floatRes o 0 (o.fp1 l) o.signCodes fun e => Func.rsqa.eval o.fmt o.mode.flush o.mode.sat (e (o.a l))
  | .tanh .. => some fun o l => floatRes o 0 (o.fp1 l) o.signCodes fun e => Func.tanh.eval o.fmt o.mode.flush o.mode.sat (e (o.a l))
  | _ => none

/-- A lane's result but for the time at which it lands (R46). -/
def LaneResult.untimed (r : LaneResult) : LaneResult := { r with due := 0 }

/-- `u` is `s` with one result pending, of the instruction with operands `o`: nothing has landed, no register, code or byte of memory
has changed; each lane's result lands after this cycle. -/
structure Pends (o : Issue) (s u : State) (rs : List LaneResult) : Prop where
  pend : ∃ p : Pend, u.cur.pend = s.cur.pend ++ [p] ∧ p.results.map LaneResult.untimed = rs.map LaneResult.untimed ∧
    (∀ r ∈ p.results, s.now < r.due) ∧ p.pc = o.g.pc ∧ p.word = o.word ∧ p.issue = s.now ∧
    p.issueNo = s.cur.sched.issues ∧ p.la = o.sh.la.getD 0 ∧ p.hasCc = rs.any (·.cc.isSome) ∧ s.now < p.due
  rest : u = { s with cur := { s.cur with pend := u.cur.pend }, draws := u.draws, serial := u.serial, nextId := u.nextId }

/-- A plain value without codes or flags. -/
def bareRule (v : PVal) : PVal × Option Codes × BitVec 5 := (v, none, 0)

/-- A combined value: a poisoned one records no condition (R125, R126, R160). -/
def combRule (c : Comb) : PVal × Option Codes × BitVec 5 := (⟨c.v, c.p⟩, none, if c.p then 0 else c.fl)

/-- The cross-lane instructions (Tables 5-7 to 5-9). -/
def crossLaneRule : Instr → Option (Issue → LaneRule)
  | .shfl v _ _ _ _ _ => some fun o l =>
      let x := o.a (shflSource v (16 <<< o.t.id.span) l ((o.b l).at 32))
      bareRule ⟨x.v, x.p || (o.b l).p⟩
  | .voteSome .. => some fun o _ => bareRule ⟨BitVec.ofNat 64 (b2n (o.act.any fun l => (o.a l).at 32 != 0)), o.act.any fun l => (o.a l).p⟩
  | .voteEvery .. => some fun o _ => bareRule ⟨BitVec.ofNat 64 (b2n (o.act.all fun l => (o.a l).at 32 != 0)), o.act.any fun l => (o.a l).p⟩
  | .voteSame .. => some fun o _ => bareRule
      ⟨BitVec.ofNat 64 (b2n (o.act.all fun l => (o.a l).at 32 == ((o.act.map fun k => (o.a k).at 32).headD 0))), o.act.any fun l => (o.a l).p⟩
  | .ballot .. => some fun o l => bareRule
      ⟨(maskWord (maskOf (o.act.filter fun k => (o.a k).at 32 != 0)) (l % ceilDiv o.t.width 32)).zeroExtend 64, o.act.any fun l => (o.a l).p⟩
  | .matchLane .. => some fun o l => bareRule ⟨BitVec.ofNat 64 ((o.act.find? fun k => (o.a k).v == (o.a l).v).getD l), o.act.any fun l => (o.a l).p⟩
  | .scan op _ _ _ => some fun o l => combRule ((foldAt (o.folds op.toNat o.act none) l).getD ⟨0, false, 0⟩)
  | .scanEx op _ _ _ => some fun o l => combRule (match (o.act.filter (· < l)).getLast? with
      | some k => (foldAt (o.folds op.toNat o.act none) k).getD ⟨0, false, 0⟩
      | none => ⟨o.identity op.toNat, false, 0⟩)
  | .reduce op _ _ _ => some fun o _ => combRule (((o.tree op.toNat 10 ((List.range o.t.width).map fun k =>
      if o.act.contains k then some (⟨(o.a k).v, (o.a k).p, 0⟩ : Comb) else none)).headD none).getD ⟨0, false, 0⟩)
  | _ => none

/-! ### Conversions -/

/-- The control words of the lanes that an instruction is performed for are legal and carry no poison (R146). -/
def Issue.controlOk (o : Issue) (accepts : Nat → Bool) (r : Reg) : Prop := ∀ l ∈ o.lanes, (o.b l).p = false ∧ o.ctlBad accepts r l = false

/-- What a conversion checks at issue. -/
def convertReady : Instr → Issue → Prop
  | .cvt .., o => o.controlOk scalarOrNf o.ra
  | .cvti .., o => o.controlOk scalarOrNf o.ra
  | .cvtf .., o => o.controlOk intType o.ra
  | .pack .., o => o.controlOk (· ≤ 3) o.ra
  | .unpack .., o => o.controlOk (· ≤ 3) o.rd
  | _, _ => True

/-- A converted value and its conditions; a poisoned one records none (R160). -/
def convRes (p : Bool) (x : Nat × BitVec 5) : PVal × Option Codes × BitVec 5 := (⟨BitVec.ofNat 64 x.1, p⟩, none, if p then 0 else x.2)

/-- The conversions (R147-R154). -/
def convertRule : Instr → Option (Issue → LaneRule)
  | .cvt .. => some fun o l => convRes (o.a l).p (o.fmt.round (o.rmOf l) (o.sourceValue l))
  | .cvti .. => some fun o l => convRes (o.a l).p ((o.sourceValue l).toInteger o.rm o.mode.typ)
  | .cvtf .. => some fun o l => convRes (o.a l).p (o.fmt.round (o.rmOf l) (o.sourceInt l))
  | .pack .. => some fun o l =>
      let r := o.fmt.round (o.rmOf l) (o.sourceValue l)
      convRes ((o.d l).p || (o.a l).p) (o.withSlot l r.1, r.2)
  | .unpack .. => some fun o l => convRes ((o.a l).p || o.padPoison l)
      ((fmtOf (ctlType (o.b l)) 0).round o.rm (o.fmt.read o.mode.flush (o.slotOf (o.a l) l)))
  | .scale .. => some fun o l => convRes ((o.a l).p || (o.blockScale l).p) (o.scaled l)
  | .fmtrd .. => some fun o _ => convRes false ((o.t.arch.nf.getD o.mode.nf 0).toNat, 0)
  | _ => none

/-- The value that a conversion rounds with a lane's SEED in the stochastic mode (R141, R147). -/
def seedValue : Instr → Issue → Option (Nat → Num)
  | .cvt .., o => some o.sourceValue
  | .pack .., o => some o.sourceValue
  | .cvtf .., o => some o.sourceInt
  | _, _ => none

/-- Does a lane draw from its SEED? A NaN is not rounded. -/
def drawsSeed (i : Instr) (o : Issue) (l : Nat) : Bool :=
  o.mode.round == 5 && o.lanes.contains l && ((seedValue i o).map fun v => !(v l).isNan).getD false

/-- The lanes whose slot has padding, of an UNPACK. -/
def padsOf : Instr → Issue → List Nat
  | .unpack .., o => o.padLanes
  | _, _ => []

/-- `u` is `s` with the SEEDs that a conversion draws stepped, and with the error record of an UNPACK that met padding. -/
structure Draws (i : Instr) (o : Issue) (s u : State) : Prop where
  seeds : ∀ l, l < s.cur.arch.lanes.length →
    u.cur.lane l = if drawsSeed i o l then { s.cur.lane l with seed := seedStep (s.cur.lane l).seed } else s.cur.lane l
  records : u.postings.length = s.postings.length + if padsOf i o = [] then 0 else 1
  rest : u = { s with
    cur := { s.cur with arch := { s.cur.arch with lanes := u.cur.arch.lanes } }, postings := u.postings, nextId := u.nextId }

/-! ### Control -/

/-- The instruction concludes with its lanes moved: a lane in `ended` is in no group any more, another stands where `goal` sends it,
else at the next instruction. -/
def Transfers (o : Issue) (goal : Nat → Option (BitVec 48)) (ended : List Nat) (u t : State) : Prop :=
  ∃ e : End, e.ended = ended ∧ e.stay = false ∧ (∀ l, (e.targets.find? (·.1 == l)).map (·.2) = goal l) ∧ Concludes o e u t

/-- The instruction concludes and its group stays at its PC, where a REP or macro goes on. -/
def Begins (o : Issue) (u t : State) : Prop := ∃ e : End, e.stay = true ∧ Concludes o e u t

/-- Lanes move their frame pointer and depth: every other lane keeps all it has, and a slot that stays in the live range keeps its
word unless it is one that `link` writes. -/
structure Frames (act : List Nat) (fp : Nat → Word) (depth : Nat → BitVec 32) (link : Nat → Nat → Option PWord) (s u : State) : Prop where
  lanes : ∀ l, l < s.cur.arch.lanes.length → u.cur.lane l =
    if l ∈ act then { s.cur.lane l with fp := fp l, depth := depth l } else s.cur.lane l
  slots : ∀ l ∈ act, l < s.cur.frames.length → ∀ n, n < (s.cur.frame l).hi → n < (liveRange (fp l).toNat).2 →
    u.cur.slotWord l n = (link l n).getD (s.cur.slotWord l n)
  others : ∀ l, l ∉ act → u.cur.frame l = s.cur.frame l
  rest : u = { s with cur := { s.cur with arch := { s.cur.arch with lanes := u.cur.arch.lanes }, frames := u.cur.frames } }

/-- The words of a link at the slots below a new frame pointer (R72, R79). -/
def linkWords (fp n : Nat) (ret : BitVec 48) (k : Nat) : Option PWord :=
  if k = fp + n - 2 then some ⟨ret.extractLsb' 0 32, false⟩
  else if k = fp + n - 2 + 1 then some ⟨BitVec.ofNat 32 (n * 2 ^ 16 + bits ret.toNat 47 32), false⟩ else none

/-- The targets of JMP and CALLR are PCs and carry no poison (R78). -/
def targetsOk (o : Issue) : Prop := ∀ l ∈ o.act, (o.a l).p = false ∧ badTarget (o.a l) = false

/-- A call with shift `n` is within the slot limit, its link's slots are resident and no result is pending in them (R72, R79, R92, R46). -/
def callOk (o : Issue) (s : State) (n : Nat) : Prop := ∀ l ∈ o.act,
  (s.cur.lane l).fp.toNat + n + 64 ≤ slotLimit s.cur.width s.cur.id.spillSize ∧
  resident s.cur l [(s.cur.lane l).fp.toNat + n - 2, (s.cur.lane l).fp.toNat + n - 1] = true ∧
  s.cur.awaits (fun _ => true) l ((s.cur.lane l).fp.toNat + n - 2) 2 = false

/-- A call with shift `n` of an instruction of `len` bytes: every active lane's frame pointer rises by `n`, its depth by 1, and its link
holds the shift and the return PC (R72, R79). -/
def Called (o : Issue) (n len : Nat) (s u : State) : Prop :=
  Frames o.act (fun l => BitVec.ofNat 32 ((s.cur.lane l).fp.toNat + n)) (fun l => (s.cur.lane l).depth + 1)
    (fun l => linkWords (s.cur.lane l).fp.toNat n (o.g.pc + BitVec.ofNat 48 len)) s u

/-- A lane's link is resident, awaits no result outside the window, and is without poison and legal (R80, R47). -/
def linkOk (s : State) (l : Nat) : Prop :=
  resident s.cur l [(s.cur.lane l).fp.toNat - 2, (s.cur.lane l).fp.toNat - 1] = true ∧
  s.cur.awaits (fun p => !inWindow s.cur p) l ((s.cur.lane l).fp.toNat - 2) 2 = false ∧ (linkOf s l).1.p = false ∧ (linkOf s l).2.p = false ∧ badLink s l = false

/-- What a REP meets: its target word can be fetched and is not forbidden, and the instruction of iteration 0 is legal, or its
fetch faults when it is issued (R61, R62). -/
def repOk (s : State) (o : Issue) (n : Nat) (w : Word) : Prop :=
  let t := s.cur.setArch fun r => { r with pc := o.g.pc, rep := some (0, n, 8 + 4 * litCount w) }
  s.codeWord s.cur (o.g.pc + 4) = .word w ∧
  (w != 0 && (findRow (opcode w).toNat (rowsOf ((opcode w).toNat / 128))).isSome && repForbids o.word w o.mode) = false ∧
  ((∃ i, State.fetch { s with cur := t } t o.g = .instr i ∧ decodeCause i o.mode = none) ∨ ∃ l va, State.fetch { s with cur := t } t o.g = .fault l va)

/-! ### Traps -/

/-- A trap is taken (R178): the team is parked with what the record says, the lanes of `tv` having its values, the record is held
with the instruction's issue time, and no register, frame, pending result or byte of memory changes. -/
structure TrapTaken (s t : State) (cause : Nat) (mask : LaneMask) (tv : List (Nat × Dword)) (pc resume : BitVec 48) (word : Word)
    (sysc : Option Reg) : Prop where
  status : t.cur.status = .trapParked
  park : ∃ p, t.cur.park = some p ∧ p.cause = cause ∧ p.mask = mask ∧ p.pc = pc ∧ p.time = s.now ∧ p.resumePc = resume ∧ p.groupPc = pc ∧ p.sysc = sysc ∧
    ∀ l, l < s.cur.width → ∀ v, (tv.find? (·.1 == l)).map (·.2) = some v → tvalOf p.tval l = v
  record : ∃ h b, t.coolbox = s.coolbox ++ [h] ∧ h.eff = .trap b ∧ h.issue = s.now ∧ h.uid = s.cur.id.uid ∧ h.pc = pc ∧ h.word = word ∧ h.mask = mask
  registers : t.cur.arch.lanes = s.cur.arch.lanes ∧ t.cur.arch.k = s.cur.arch.k ∧ t.cur.arch.nf = s.cur.arch.nf ∧ t.cur.arch.mode = s.cur.arch.mode ∧
    t.cur.frames = s.cur.frames ∧ t.cur.pend = s.cur.pend ∧ t.cur.sys = s.cur.sys
  memory : t.mem = s.mem
  others : t.teams = s.teams ∧ t.net = s.net ∧ t.now = s.now

/-- The team goes back to a checkpoint (R190): its architectural state is the checkpoint's (each overflow entry to be written
again where it is not yet), it runs, the effects that it issued after the
checkpoint are discarded from the Coolbox, RETRY counts the rollback and the checkpoint is used once; memory does not change. -/
structure RolledBack (s t : State) (c : Ckpt) (cause : Nat) : Prop where
  arch : t.cur.arch = { c.arch with moved := t.cur.arch.moved } ∧ t.cur.arch.moved.map (·.group) = c.arch.moved.map (·.group)
  status : t.cur.status = .running
  coolbox : t.coolbox = s.coolbox.filter fun e => !(e.uid == s.cur.id.uid && decide (c.time < e.issue))
  ckpts : t.cur.ckpts = { c with retried := true } :: s.cur.ckpts.filter fun k => decide (k.id < c.id)
  pend : t.cur.pend = (s.cur.pend.filter fun p => p.ckpt == some c.id).map fun p => { p with raised := false }
  retry : t.cur.sys.retry = (if s.cur.sys.retry = 0xFFFF then 0xFFFF else s.cur.sys.retry + 1) ∧ t.cur.sys.retryCause = BitVec.ofNat 7 cause
  memory : t.mem = s.mem

/-! ### Memory instructions -/

/-- What a memory instruction checks: the accesses of some lanes (R221), and what it waits for. -/
structure AccessRule where
  who : Issue
  eas : List (Nat × PVal)
  bytes : Nat
  odds : List (Nat × (Nat → Bool))
  need : Need
  scratch : Option Nat
  last : Nat → Option Nat
  span : Access1 → Access1
  waits : Nat
  units : List Access1 → Nat
  early : Prop
  ready : List Access1 → Prop

/-- The outcome of the checks. -/
def AccessRule.check (r : AccessRule) (s : State) : Checked := r.who.checkWith s r.eas r.bytes r.odds r.need r.scratch r.last

/-- The accesses pass, none faults, and nothing has to be awaited. -/
structure AccessRule.passes (r : AccessRule) (s : State) (xs : List Access1) : Prop where
  early : r.early
  check : r.check s = .ok xs []
  some : xs ≠ []
  ready : r.ready xs
  waits : r.who.accessWaits s (xs.map r.span) r.waits (r.units xs) = none

/-- The alignment test of an instruction. -/
def alignOdd (n c : Nat) : List (Nat × (Nat → Bool)) := [(c, fun ea => ea % n != 0)]

/-- The common shape: aligned accesses of `n` bytes. -/
def plainAccess (o : Issue) (eas : List (Nat × PVal)) (n cause : Nat) (need : Need) (units : List Access1 → Nat) : AccessRule :=
  ⟨o, eas, n, alignOdd n cause, need, none, fun _ => none, id, n, units, True, fun _ => True⟩

/-- A load of `n` bytes: its units are those of effectful pages (R215). -/
def loadAccess (o : Issue) (eas : List (Nat × PVal)) (n : Nat) (noEf : Bool) : AccessRule :=
  plainAccess o eas n 28 { Need.r with noEf := noEf } fun xs => o.unitsFor (xs.filter (·.ef)).length n

/-- The bytes that LD and ST read or write for a type code (R222). -/
def loadBytes (t : BitVec 3) : Nat := match t.toNat with
  | 0 | 1 => 1
  | 2 | 3 => 2
  | 4 => 4
  | _ => 8

/-- The issue of an LDK: one access for the team. -/
def Issue.one (o : Issue) : Issue := { o with uniform := true, lanes := o.act.take 1 }

/-- The checks of every memory instruction that addresses memory through a or a and b. -/
def accessOf : Instr → Option (Issue → State → AccessRule)
  | .ld t _ _ _ x _ => some fun o _ => loadAccess o (o.addrsL x) (loadBytes t) false
  | .ldv _ _ _ x _ => some fun o _ => loadAccess o (o.addrsL x) 16 true
  | .ldkB32 _ _ _ x _ => some fun o _ => loadAccess o.one (o.one.addrsL x) 4 true
  | .ldkB64 _ _ _ x _ => some fun o _ => loadAccess o.one (o.one.addrsL x) 8 true
  | .fmtld _ _ x _ => some fun o _ => loadAccess o ((o.addrsL x).map fun (k, v) => (k, (⟨v.v &&& ~~~3#64, v.p⟩ : PVal))) 4 false
  | .acq _ _ _ x _ => some fun o s => { plainAccess o (o.addrsL x) 8 28 Need.r fun xs => o.unitsFor (xs.filter (·.ef)).length 8 with
      span := fun y => { y with ef := false }, ready := fun _ => s.bindsOut o.t.id.uid = false }
  | .cread _ _ _ x _ => some fun o s => ⟨o, o.addrsL x, 8, eitherOdd, Need.rw, none, fun _ => none, fun y => { y with ef := false }, 8, fun _ => 0, True,
      fun xs => ∀ y ∈ xs, s.holdsFor o.t.id.uid y.ea (if isScratch y.ea then 16 else 8) = false⟩
  | .ldmx _ _ _ x _ => some fun o s =>
      let n := o.runLength
      ⟨o, o.act.map fun k => (k, o.addrL x (k - k % n)), 4 * n, alignOdd (4 * n) 28, { Need.r with noEf := true, mx := true }, some 30, pairReach, id, 4 * n,
        fun _ => 0, True, fun xs => o.accessWaits s (scaleOf (4 * n) xs) 1 0 = none⟩
  | .st n _ _ _ _ => some fun o _ => plainAccess o o.addrsT (2 ^ n.toNat) 28 Need.w fun xs => o.unitsFor xs.length (2 ^ n.toNat)
  | .stv .. => some fun o _ => plainAccess o o.addrsT 16 28 { Need.w with noEf := true } fun xs => o.unitsFor xs.length 16
  | .stmx .. => some fun o s =>
      let n := o.runLength
      ⟨o, o.act.map fun k => (k, o.addrT (k - k % n)), 4 * n, alignOdd (4 * n) 28, { Need.w with noEf := true, mx := true }, some 30, pairReach, id, 4 * n,
        fun xs => (1 + ceilDiv (n * (8 + 4)) 32) * (runsOf n xs).length, o.mixedRuns n = [], fun xs => o.accessWaits s (scaleOf (4 * n) xs) 1 0 = none⟩
  | .rel .. => some fun o s => { plainAccess o o.addrsT 8 28 Need.w fun xs => o.unitsFor xs.length 8 with
      span := fun y => { y with ef := false }, ready := fun _ => s.bindsOut o.t.id.uid = false }
  | .binit .. => some fun o _ => ⟨o, o.addrsT, 16, [(68, barrierOdd)], Need.w, none, fun _ => none, id, 16, fun xs => o.unitsFor xs.length 16,
      ∀ l ∈ o.lanes, (o.d l).p = false, fun _ => ∀ l ∈ o.lanes, 1 ≤ (o.d l).v.toNat % 2 ^ 32 ∧ (o.d l).v.toNat % 2 ^ 32 ≤ 65535⟩
  | .arrive .. => some fun o s => ⟨o, o.addrsT, 16, [(68, barrierOdd)], Need.rw, none, fun _ => none, id, 16, fun xs => o.unitsFor xs.length 0, True,
      fun _ => s.bindsOut o.t.id.uid = false⟩
  | .expect .. => some fun o _ => ⟨o, o.addrsT, 16, [(68, barrierOdd)], Need.rw, none, fun _ => none, id, 16, fun xs => o.unitsFor xs.length 4,
      ∀ l ∈ o.lanes, (o.d l).p = false, fun _ => True⟩
  | .cadd .. => some fun o s => ⟨o, o.addrsT, 8, [(71, counterOdd)], Need.rw, none, fun _ => none, id, 8, fun xs => o.unitsFor xs.length 4, True,
      fun _ => s.bindsOut o.t.id.uid = false⟩
  | .atom _ w _ _ _ x _ => some fun o _ => { plainAccess o (o.addrsL x) (4 * wOf w) 56 Need.rw fun xs => o.unitsFor xs.length (4 * wOf w) with last := atomSpace }
  | .acas w _ _ _ x _ => some fun o _ => { plainAccess o (o.addrsL x) (4 * wOf w) 56 Need.rw fun xs => o.unitsFor xs.length (8 * wOf w) with last := atomSpace }
  | .afadd _ _ _ x _ => some fun o _ =>
      { plainAccess o (o.addrsL x) (4 * modeWords o.mode.typ) 56 Need.rw fun xs => o.unitsFor xs.length (4 * modeWords o.mode.typ) with last := atomSpace }
  | .afmm _ _ _ x _ _ => some fun o _ =>
      { plainAccess o (o.addrsL x) (4 * modeWords o.mode.typ) 56 Need.rw fun xs => o.unitsFor xs.length (4 * modeWords o.mode.typ) with last := atomSpace }
  | .ared _ w _ _ _ _ => some fun o _ => { plainAccess o o.addrsT (4 * wOf w) 56 Need.rw fun xs => o.unitsFor xs.length (4 * wOf w) with last := atomSpace }
  | .aprog _ _ _ x _ => some fun o _ => ⟨o, o.addrsL x, 1, alignOdd 1 56, Need.rw, none, aprogSpace, fun y => { y with ea := y.ea / 64 * 64 }, 64,
      fun xs => o.unitsFor xs.length 12, True, fun _ => True⟩
  | .apload .. => some fun o _ => { plainAccess o (o.lanes.map fun l => (l, o.a l)) 64 28 Need.r fun _ => 1 with
      early := ∃ l, o.lanes = [l] ∧ (o.b l).p = false ∧ (o.b l).v.toNat % 2 ^ 32 ≤ 63, ready := fun xs => xs.length ≤ 1 }
  | .spawn .. => some fun o _ => plainAccess o o.addrsT 64 28 Need.r fun xs => if xs.isEmpty then 0 else 3
  | .job .. => some fun o _ => { plainAccess o o.addrsT 64 28 Need.r fun xs => if xs.isEmpty then 0 else 3 with ready := fun xs => xs.length ≤ 1 }
  | .launch .. => some fun o _ =>
      plainAccess o (o.addrsT.flatMap fun (l, v) => [(l, v), (l, ⟨v.v + 64, v.p⟩)]) 64 28 Need.rw fun xs => if xs.isEmpty then 0 else 3
  | _ => none

/-- What is held for the accesses that pass: the effect, for the number of a pending result if there is one, and the results that
then pend. -/
structure HeldRule where
  units : Nat
  effect : Nat → Effect
  results : Option (List LaneResult)

/-- ACAS's operands of a lane: the expected and the new value (R284). -/
def casRequest (o : Issue) (k : Nat) (y : Access1) : AtomReq :=
  let ws := readRegs o.t y.lane o.rd (2 * k)
  let value (ws : List PWord) : PVal :=
    if k = 1 then ⟨(ws.getD 0 PWord.zero).w.zeroExtend 64, (ws.getD 0 PWord.zero).p⟩ else pairVal (ws.getD 0 PWord.zero) (ws.getD 1 PWord.zero)
  ⟨y.lane, y.ea, value (ws.take k), value (ws.drop k)⟩

/-- APROG's operands of a lane: the value and the routine's number (R291). -/
def progRequest (o : Issue) (y : Access1) : AtomReq :=
  let ws := readRegs o.t y.lane o.rd 3
  ⟨y.lane, y.ea, pairVal (ws.getD 0 PWord.zero) (ws.getD 1 PWord.zero), ⟨((ws.getD 2 PWord.zero).w &&& 63).zeroExtend 64, (ws.getD 2 PWord.zero).p⟩⟩

/-- The memory instructions that hold one effect (R212, R280, R299, R408, R410, R452, R455, R460). -/
def heldOf : Instr → Option (Issue → State → List Access1 → HeldRule)
  | .st n _ _ _ _ => some fun o _ xs => ⟨o.unitsFor xs.length (2 ^ n.toNat),
      fun _ => .write (xs.map fun x => ⟨x.lane, x.ea, (wordBytes (o.dataWords x.lane o.sh.d.words)).take (2 ^ n.toNat)⟩) false, none⟩
  | .stv .. => some fun o _ xs => ⟨o.unitsFor xs.length 16, fun _ => .write (xs.map fun x => ⟨x.lane, x.ea, (wordBytes (o.dataWords x.lane 4)).take 16⟩) false, none⟩
  | .rel .. => some fun o s xs => ⟨o.unitsFor xs.length 8, fun _ => .rel (xs.map fun x => ⟨x.lane, x.ea, wordBytes (o.dataWords x.lane 2)⟩)
      (s.regionsOf o.t.id.tile o.t.id.ctx (xs.map (·.ea))), none⟩
  | .binit .. => some fun o _ xs => ⟨o.unitsFor xs.length 16, fun _ => .write (xs.map fun x => ⟨x.lane, x.ea, (Barrier.start ((o.d x.lane).v.toNat % 2 ^ 32)).bytes⟩) false, none⟩
  | .arrive .. => some fun o s xs => ⟨o.unitsFor xs.length 0, fun _ => .arrive (xs.map fun x => (x.lane, x.ea)) (s.regionsOf o.t.id.tile o.t.id.ctx (xs.map (·.ea))), none⟩
  | .expect .. => some fun o _ xs => ⟨o.unitsFor xs.length 4, fun pid => .expect pid (xs.map fun x => (x.lane, x.ea, (o.d x.lane).v.toNat % 2 ^ 32)),
      some (o.dests (xs.map (·.lane)) 1)⟩
  | .cadd .. => some fun o s xs => ⟨o.unitsFor xs.length 4, fun _ => .cadd (xs.map fun x => (x.lane, x.ea, ⟨(o.d x.lane).v &&& 0xFFFFFFFF#64, (o.d x.lane).p⟩))
      (s.regionsOf o.t.id.tile o.t.id.ctx (xs.map (·.ea))), none⟩
  | .atom op w _ _ _ _ _ => some fun o _ xs => ⟨o.unitsFor xs.length (4 * wOf w), fun pid => .atomic (some pid) (.alu op.toNat (4 * wOf w)) (xs.map o.request),
      some (o.atomDests (xs.map (·.lane)) (wOf w))⟩
  | .acas w _ _ _ _ _ => some fun o _ xs => ⟨o.unitsFor xs.length (8 * wOf w), fun pid => .atomic (some pid) (.cas (4 * wOf w)) (xs.map (casRequest o (wOf w))),
      some (o.atomDests (xs.map (·.lane)) (wOf w))⟩
  | .afadd .. => some fun o _ xs => ⟨o.unitsFor xs.length (4 * modeWords o.mode.typ), fun pid => .atomic (some pid) (.fadd (4 * modeWords o.mode.typ) o.mode) (xs.map o.request),
      some (o.atomDests (xs.map (·.lane)) (modeWords o.mode.typ))⟩
  | .afmm _ _ _ _ m _ => some fun o _ xs => ⟨o.unitsFor xs.length (4 * modeWords o.mode.typ),
      fun pid => .atomic (some pid) (.fmm (4 * modeWords o.mode.typ) (m = 1) o.mode) (xs.map o.request), some (o.atomDests (xs.map (·.lane)) (modeWords o.mode.typ))⟩
  | .ared op w _ _ _ _ => some fun o _ xs => ⟨o.unitsFor xs.length (4 * wOf w), fun _ => .atomic none (.alu op.toNat (4 * wOf w)) (xs.map o.request), none⟩
  | .aprog .. => some fun o _ xs => ⟨o.unitsFor xs.length 12, fun pid => .aprog pid (xs.map (progRequest o)), some (o.atomDests (xs.map (·.lane)) 2)⟩
  | .apload .. => some fun o _ xs => ⟨1, fun _ => .apload ((xs.map (·.ea)).headD 0) ((o.b (o.lanes.headD 0)).v.toNat % 2 ^ 32) (maskOf o.act), none⟩
  | .spawn .. => some fun o _ xs => ⟨3, fun pid => .spawn pid (xs.map fun x => (x.lane, x.ea)), some (o.dests (xs.map (·.lane)) 1)⟩
  | .job .. => some fun _ _ xs => ⟨3, fun _ => .job ((xs.map (·.ea)).headD 0), none⟩
  | .launch .. => some fun o _ xs => ⟨3, fun pid => .launch pid ((xs.map (·.ea)).headD 0), some (o.destsAll 1)⟩
  | _ => none

/-- Where a pending result lands, and how wide it is. -/
def LaneResult.place (r : LaneResult) : Nat × Dest × Nat := (r.lane, r.dest, r.width)

/-- `u` is `s` with the pending result of the instruction with operands `o` as its youngest, its results at `ds`; it lands after
`after` cycles. -/
def PendsAt (o : Issue) (s u : State) (ds : List (Nat × Dest × Nat)) (after : Nat) : Prop :=
  ∃ p : Pend, u.cur.pend = s.cur.pend ++ [p] ∧ p.id = s.nextId ∧ p.results.map LaneResult.place = ds ∧ p.pc = o.g.pc ∧ p.word = o.word ∧
    p.issue = s.now ∧ p.issueNo = s.cur.sched.issues ∧ p.la = o.sh.la.getD 0 ∧ s.now + after ≤ p.due

/-- `u` is `s` with one effect held in the Coolbox, stamped with the issue's time, and the results of the instruction pending until at
least Q cycles have passed; no register and no byte of memory changes. -/
structure Requests (o : Issue) (s u : State) (r : HeldRule) : Prop where
  held : ∃ h : Held, u.coolbox = s.coolbox ++ [h] ∧ h.eff = r.effect s.nextId ∧ h.units = r.units ∧ h.uid = o.t.id.uid ∧ h.issue = s.now ∧ h.pc = o.g.pc ∧
    h.word = o.word ∧ h.mask = maskOf o.act
  pend : match r.results with
    | none => u.cur.pend = s.cur.pend
    | some rs => PendsAt o s u (rs.map LaneResult.place) Config.Q
  rest : u = { s with
    cur := { s.cur with pend := u.cur.pend }, coolbox := u.coolbox, mem := { s.mem with tlb := u.mem.tlb, table := u.mem.table }
    draws := u.draws, serial := u.serial, nextId := u.nextId }

/-- `t` is `s` but for requests under way, L1 lines, TLB entries and the table entries kept with them, held results of the homes, draws and numbers: no byte of memory, no
poison and no register changes. -/
structure Quiet (s t : State) : Prop where
  rest : t = { s with
    mem := { s.mem with lines := t.mem.lines, tlb := t.mem.tlb, table := t.mem.table }
    net := t.net, homeHolds := t.homeHolds, draws := t.draws, serial := t.serial, nextId := t.nextId }

/-- What a load reads in each lane, and where that goes. -/
structure LoadRule where
  bytes : Nat
  signed : Bool
  dests : List LaneResult

/-- The loads of R153 and R222 to R224. -/
def loadOf : Instr → Option (Issue → List Access1 → LoadRule)
  | .ld t _ _ _ _ _ => some fun o xs => ⟨loadBytes t, t = 1 || t = 3, o.dests (xs.map (·.lane)) o.sh.d.words⟩
  | .ldv .. => some fun o xs => ⟨16, false, o.dests (xs.map (·.lane)) 4⟩
  | .ldkB32 .. => some fun o _ => ⟨4, false, o.dests o.lanes 1⟩
  | .ldkB64 .. => some fun o _ => ⟨8, false, o.dests o.lanes 2⟩
  | .fmtld .. => some fun o xs => ⟨4, false, xs.map fun x => ⟨x.lane, .fmt o.mode.nf, 1, 0, false, [], none, 0⟩⟩
  | _ => none

/-- A load of a lane reads memory (R213, R214): its result is there when the tile supplies every byte (the team's youngest held write, then the
tile's L1 for memory, the tile's own slice for a scratchpad); otherwise one request for its line and those of the other lanes that read the
line is on its way, with the bytes that the tile supplies. -/
def Reads (o : Issue) (s u : State) (n : Nat) (signed : Bool) (x : Access1) : Prop :=
  if (o.ownLane s n x).all (·.isSome) then
    ∀ p, u.cur.pend.getLast? = some p → ∀ r ∈ p.results, r.lane = x.lane →
      r.ready = true ∧ r.words = (loadedWords signed ((o.ownLane s n x).filterMap id)).take r.width
  else ∃ y ∈ u.net, ∃ ys, y.act = .load s.nextId ys n signed (if isScratch y.va then none else some true) ∧ (x.lane, x.ea, o.ownLane s n x) ∈ ys ∧
    y.va / 64 = x.ea / 64 ∧ y.uid = o.t.id.uid ∧ y.tile = o.t.id.tile ∧ s.now ≤ y.due

/-- `u` is `s` with a load of the accesses `xs` under way: the result pends, what lies on effectful pages is held as one effect, and the
rest is read. -/
structure Loads (o : Issue) (s u : State) (r : LoadRule) (xs : List Access1) : Prop where
  pend : PendsAt o s u (r.dests.map LaneResult.place) (if xs.any (·.ef) then Config.Q else 1)
  held : (if xs.any (·.ef) then ∃ h : Held, u.coolbox = s.coolbox ++ [h] ∧
      h.eff = .efload s.nextId r.signed ((xs.filter (·.ef)).map fun x => (x.lane, x.ea, r.bytes)) ∧ h.issue = s.now ∧ h.uid = o.t.id.uid
    else u.coolbox = s.coolbox)
  reads : ∀ x ∈ xs, x.ef = false → Reads o s u r.bytes r.signed x
  net : s.net <+: u.net
  rest : u = { s with
    cur := { s.cur with pend := u.cur.pend }, coolbox := u.coolbox, net := u.net, mem := { s.mem with tlb := u.mem.tlb, table := u.mem.table }
    draws := u.draws, serial := u.serial, nextId := u.nextId }

/-- No line of the issuing tile and context overlaps a range. -/
def Issue.uncached (o : Issue) (u : State) (lo n : Nat) : Prop := ∀ l ∈ u.mem.lines, overlaps o.t.id.tile o.t.id.ctx lo (lo + n) l = false

/-- `u` is `s` with reads at the ordering point under way for the accesses `xs`, the tile's bytes of each object written back and dropped
first (R300 step 1), what lies on effectful pages being held as one effect. -/
structure ReadsObjects (o : Issue) (s u : State) (acquire : Bool) (xs : List Access1) : Prop where
  pend : PendsAt o s u ((o.dests (xs.map (·.lane)) 2).map LaneResult.place) 1
  acq : ∀ p, u.cur.pend.getLast? = some p → p.acq = acquire ∧
    (acquire = true → p.range = (s.regionsOf o.t.id.tile o.t.id.ctx (xs.map (·.ea))).map (·.2))
  reads : ∀ x ∈ xs, (acquire && x.ef) = false → ∃ y ∈ u.net, y.act = .object s.nextId x.lane x.ea 8 acquire ∧ y.va = x.ea ∧
    (y.point ≠ 9999 → y.pa = x.key) ∧ y.uid = o.t.id.uid ∧ s.now ≤ y.due
  held : (if acquire && xs.any (·.ef) then ∃ h : Held, u.coolbox = s.coolbox ++ [h] ∧
      h.eff = .efload s.nextId false ((xs.filter (·.ef)).map fun x => (x.lane, x.ea, 8)) ∧ h.issue = s.now ∧ h.uid = o.t.id.uid
    else u.coolbox = s.coolbox)
  clean : ∀ x ∈ xs, (acquire && x.ef) = false → isScratch x.ea = false → o.uncached u x.ea 8
  rest : Quiet { s with cur := { s.cur with pend := u.cur.pend }, coolbox := u.coolbox } u

/-- `u` is `s` with the reads of the MX blocks of `xs` under way (R228): each run of lanes reads its block with its scale as one, the tile's bytes of
both written back and dropped first (R313). -/
structure ReadsBlocks (o : Issue) (s u : State) (xs : List Access1) : Prop where
  pend : PendsAt o s u (xs.map fun x => (x.lane, destOf o.t o.rd x.lane, 2)) 1
  reads : ∀ run ∈ runsOf o.runLength xs, ∀ x, run.head? = some x → ∃ y ∈ u.net, y.va = x.ea ∧ (y.point ≠ 9999 → y.pa = x.key) ∧ y.uid = o.t.id.uid ∧ s.now ≤ y.due ∧
    y.act = .pair s.nextId x.ea (4 * o.runLength)
      ((List.range (4 * o.runLength)).map (fun i => s.heldByte o.t.id.uid (x.ea + i)) ++ [s.heldByte o.t.id.uid (scaleAddr x.ea (4 * o.runLength))])
      (run.map (·.lane)) o.mode.sb
  clean : ∀ run ∈ runsOf o.runLength xs, ∀ x, run.head? = some x → o.uncached u x.ea (4 * o.runLength) ∧ o.uncached u (scaleAddr x.ea (4 * o.runLength)) 1
  rest : Quiet { s with cur := { s.cur with pend := u.cur.pend } } u

/-- `u` is `s` with one held write for each run of MX lanes: the block and its scale leave together (R229). -/
structure HoldsBlocks (o : Issue) (s u : State) (xs : List Access1) : Prop where
  held : ∃ hs : List Held, u.coolbox = s.coolbox ++ hs ∧ hs.map (·.eff) = (runsOf o.runLength xs).map (fun run => Effect.write (o.runPieces o.runLength run) true) ∧
    ∀ h ∈ hs, h.issue = s.now ∧ h.uid = o.t.id.uid
  rest : u = { s with coolbox := u.coolbox, mem := { s.mem with tlb := u.mem.tlb, table := u.mem.table }, nextId := u.nextId }

/-- What FLUSH and INVL act on: the lane whose operands give the range, which is in the address space and meets no copy (R227, R243). -/
structure Issue.lineRange (o : Issue) (s : State) (ea len : Nat) : Prop where
  one : ∃ l, o.lanes = [l] ∧ (o.a l).v.toNat = ea ∧ (o.b l).v.toNat % 2 ^ 32 = len ∧ (o.a l).p = false ∧ (o.b l).p = false
  inside : ea + len ≤ 2 ^ 48
  copies : s.cur.meetsScore ea len = false

/-- Is a line of the issuing tile and context? -/
def Issue.ownsLine (o : Issue) (l : Line) : Bool := l.tile == o.t.id.tile && l.ctx == o.t.id.ctx

/-- The dirty bytes of the lines that satisfy a test are on their way to their homes: one write for a line, or one for each piece in a window
of another package. -/
def WritesBack (s u : State) (p : Line → Bool) : Prop := ∀ l ∈ s.mem.lines, p l = true → l.dirty ≠ 0 → ∀ pa, s.keyOf l.tile l.ctx l.va = some pa →
  ∀ ps ∈ (if isWindow pa then l.writeBack.map fun p => [p] else [l.writeBack]), ∃ y ∈ u.net, y.act = .write ps ∧ s.now ≤ y.due

/-- A lane's PREF asks for its line (R226): its page is held by the TLB and readable, and the line is not whole. -/
def Issue.prefetches (o : Issue) (s : State) (l pa : Nat) : Prop :=
  let ea := (o.addrT l).v.toNat
  addressLegal ea = true ∧ isTranslated ea = true ∧
  (s.mem.tlb.any fun e => e.tile == o.t.id.tile && e.ctx == o.t.id.ctx && decide (e.va ≤ ea) && decide (ea < e.va + e.size)) = true ∧
  ((s.mem.line? o.t.id.tile o.t.id.ctx ea).all fun k => k.valid != BitVec.allOnes 64) = true ∧
  ∃ w, s.translate o.t.id.tile o.t.id.ctx ea Need.r = .ok pa false w

/-- `u` is `s` with its team parked on a translation fault (R221, R324): the lanes `mask` have still to be performed, one record for the page
of the first of them is on its way to the fault buffer, and no register, held effect or byte of memory changes. -/
structure FaultParked (s u : State) (pc : BitVec 48) (word : Word) (mask : LaneMask) (level va : Nat) : Prop where
  team : u.cur = { s.cur with
    status := .faultParked, arch := { s.cur.arch with only := some (pc, mask) }, sched := { s.cur.sched with stallCause := 11 } }
  fault : ∃ f ∈ u.faults, f.uid = s.cur.id.uid ∧ f.pc = pc ∧ f.word = word ∧ f.mask = mask ∧ f.va = va ∧ f.level = level ∧ f.issue = s.now ∧ f.posted = false ∧ f.stops = true
  posting : ∃ p, u.postings = s.postings ++ [p] ∧ p.kind = .fault ∧ p.ctx = some s.cur.id.ctx ∧ p.uid = s.cur.id.uid
  rest : u = { s with cur := u.cur, faults := u.faults, postings := u.postings, nextId := u.nextId }

/-! ### Copies -/

/-- What a copy moves. -/
def Copy.plan (c : Copy) : Plan := ⟨c.lane, c.mask, c.kind, c.src, c.dst, c.len, c.valid, c.total⟩

/-- A copy instruction past its checks: who copies, the control word, the copies, the ranges read and written, and its Coolbox units. -/
structure CopyRule where
  who : Issue
  ctl : Word
  plans : List Plan
  src : List (Nat × Nat)
  dst : List (Nat × Nat)
  units : Nat

/-- Nothing has to be awaited, and the open batch has room (R234, R243, R437). -/
structure CopyRule.free (r : CopyRule) (s : State) : Prop where
  batch : ctlSink r.ctl = 0 → s.cur.openBatch.length < 65535
  waits : r.who.copyWaits s r.src r.dst (ctlSink r.ctl) r.units = none

/-- `u` is `s` with the copies of a rule issued (R234, R241): each in the list of copies, one entry of the scoreboard, a place in the open batch
where the sink is the batch, and one held request. -/
structure Starts (o : Issue) (s u : State) (r : CopyRule) : Prop where
  copies : ∃ cs : List Copy, u.copies = s.copies ++ cs ∧ cs.map Copy.plan = r.plans ∧
    (∀ c ∈ cs, c.ins = s.nextId ∧ c.issue = s.now ∧ c.uid = o.t.id.uid ∧ c.tile = o.t.id.tile ∧ c.sink = ctlSink r.ctl ∧
      c.sinkEa = (sinkPair o.t r.ctl).v.toNat ∧ c.pc = o.g.pc ∧ c.started = false) ∧
    (∃ h : Held, u.coolbox = s.coolbox ++ [h] ∧ h.eff = .copy (cs.map (·.cid)) ∧ h.units = r.units ∧ h.issue = s.now ∧ h.uid = o.t.id.uid) ∧
    u.cur.openBatch = (if ctlSink r.ctl = 0 then s.cur.openBatch ++ cs.map (·.cid) else s.cur.openBatch)
  score : u.cur.score = s.cur.score ++ [⟨s.nextId, hull r.src, hull r.dst⟩]
  rest : u = { s with
    cur := { s.cur with score := u.cur.score, openBatch := u.cur.openBatch }, copies := u.copies, coolbox := u.coolbox, fetched := u.fetched, nextId := u.nextId }

/-- CPL and CPF past their checks (R233, R236, R237). -/
def laneCopy (cpl : Bool) (o : Issue) (s : State) (r : CopyRule) : Prop :=
  let ctl (l : Nat) : Word := (o.b l).v.extractLsb' 0 32
  let n (l : Nat) : Nat := ctlCount (ctl l)
  let size (l : Nat) : Nat := if cpl then 32 else n l
  let dst (l : Nat) : Nat := (o.d l).v.toNat
  let src (l : Nat) : Nat := (o.a l).v.toNat
  let mask (ls : List Nat) : List Nat := if o.uniform then o.act else ls
  let c0 := ctl (o.lanes.headD 0)
  o.lanes ≠ [] ∧ o.sinkPends (o.lanes.map o.b) = false ∧
  (∀ l ∈ o.lanes, (o.d l).p = false ∧ (o.b l).p = false ∧ (cpl = true → n l ≠ 0 → (o.a l).p = false) ∧ sinkPoison o.t (ctl l) = false) ∧
  rangeTrap s mask (o.lanes.map (fun l => (⟨l, dst l, size l, 4⟩ : Range)) ++
    (if cpl then o.lanes.map fun l => (⟨l, src l, n l, 1⟩ : Range) else []) ++ o.lanes.flatMap fun l => sinkRange o.t (ctl l) l) = none ∧
  sinkCause s c0 = none ∧
  (∀ l ∈ o.lanes, ctlSink (ctl l) = ctlSink c0 ∧ ctlSreg (ctl l) = ctlSreg c0) ∧
  (∀ l ∈ o.lanes, if cpl then n l ≤ 32 ∧ (n l ≠ 0 → ∀ k ∈ o.lanes, rangesMeet (src l) (n l) (dst k) 32 = false)
    else n l % 4 = 0 ∧ n l ≤ 0x1000000) ∧
  r = ⟨o, c0, o.lanes.map fun l =>
      ⟨l, maskOf (mask [l]), if cpl then .cpl else .cpf ((o.a l).v.extractLsb' 0 32), src l, dst l, size l, n l, segmentsOf (dst l) (size l)⟩,
    if cpl then o.lanes.map fun l => (src l, n l) else [], o.lanes.map fun l => (dst l, size l), o.copyUnits⟩

/-- The team's leader alone (R104). -/
def Issue.leader (o : Issue) (l : Nat) : Issue := { o with uniform := false, lanes := [l] }

/-- CPT past its checks: the record as it reads at issue, the leader's box (R240). -/
def boxCopy (o : Issue) (s : State) (r : CopyRule) : Prop := ∃ l ls x y,
  let ctl : Word := (o.b l).v.extractLsb' 0 32
  let cs := readRegs o.t l o.ra 4
  let coords := cs.map fun c => c.w.toInt
  o.act = l :: ls ∧ o.sinkPends [o.b l] = false ∧ (o.d l).p = false ∧ (o.b l).p = false ∧ (∀ c ∈ cs, c.p = false) ∧ sinkPoison o.t ctl = false ∧
  (o.leader l).check s [(l, o.d l)] 64 64 28 Need.r none (fun _ => none) = .ok [x] [] ∧
  (∃ bytes, (s.readNow o.t x 64).2 = some (.ok bytes) ∧ parseLayout bytes false = some y) ∧ y.bad coords = false ∧
  rangeTrap s id ((y.srcHull coords).toList.map (fun r => ⟨l, r.1, r.2, 1⟩) ++ [⟨l, y.dstHull.1, y.dstHull.2, 1⟩] ++ sinkRange o.t ctl l) = none ∧
  sinkCause s ctl = none ∧ ctlCount ctl = 0 ∧ (o.leader l).accessWaits s [x] 64 0 = none ∧
  r = ⟨o.leader l, ctl, [⟨l, maskOf [l], .cpt y coords, y.src, y.dstHull.1, y.dstHull.2, 0, if y.mx then y.units else segmentsOf y.dstHull.1 y.dstHull.2⟩],
    (y.srcHull coords).toList, [y.dstHull], 2⟩

/-- CPM past its checks: the groups that the mask names, and the same offset in each one's window (R242). -/
def groupCopy (o : Issue) (s : State) (r : CopyRule) : Prop := ∃ l ls,
  let ctl : Word := (o.b l).v.extractLsb' 0 32
  let ws := readRegs o.t l o.rd 4
  let w (i : Nat) : Nat := (ws.getD i PWord.zero).w.toNat
  let len := ctlCount ctl
  let src := (o.a l).v.toNat
  let named := (List.range 64).filter fun g => bit (w 2 + w 3 * 2 ^ 32) g
  let groups := named.filterMap fun g => s.gangGroup o.t g
  let dst (g : GroupRt) : Nat := sliceAddr g.tile (g.base + w 0)
  let dsts := groups.map fun g => (dst g, len)
  o.act = l :: ls ∧ o.sinkPends [o.b l] = false ∧ (o.a l).p = false ∧ (o.b l).p = false ∧ (∀ c ∈ ws, c.p = false) ∧ sinkPoison o.t ctl = false ∧
  named ≠ [] ∧ groups.length = named.length ∧ rangeTrap s id (⟨l, src, len, 4⟩ :: sinkRange o.t ctl l) = none ∧
  (∀ g ∈ groups, w 0 + len ≤ g.size ∧ w 1 + 16 ≤ g.size) ∧ ctlSink ctl = 1 ∧ w 1 % 16 = 0 ∧ sinkCause s ctl = none ∧
  len % 4 = 0 ∧ len ≤ 0x1000000 ∧ (∀ d ∈ dsts, rangesMeet src len d.1 d.2 = false) ∧
  r = ⟨o.leader l, ctl, [⟨l, maskOf [l], .cpm (groups.map fun g => (dst g, sliceAddr g.tile (g.base + w 1))), src, (dsts.headD (0, 0)).1, len, len,
    segmentsOf (dsts.headD (0, 0)).1 len⟩], [(src, len)], dsts, 2⟩

/-- The copy instructions past their checks. -/
def copyOf : Instr → Option (Issue → State → CopyRule → Prop)
  | .cpl .. => some (laneCopy true)
  | .cpf .. => some (laneCopy false)
  | .cpt .. => some boxCopy
  | .cpm .. => some groupCopy
  | _ => none

/-! ### Instructions with an effect of their own -/

/-- When an instruction has its effect, and what that makes of the state. -/
structure EffectRule where
  when : Prop
  effect : State → Prop

/-- An instruction of the team as a whole seen as one that gives its value in each destination: every active lane's frame register, or the
one uniform register. -/
def Issue.spread (o : Issue) : Issue :=
  let ls := if regKind o.rd = .frame then o.act else o.act.take 1
  { o with uniform := false, act := ls, lanes := ls }

/-- `u` is `s` with a value in d of every active lane, or in the one uniform register, and nothing else changed. -/
def Gives (o : Issue) (s u : State) (v : PVal) : Prop := Computes o.spread s u fun _ => (v, none, 0)

/-- A batch tag in a's low bits (R414). -/
def Issue.tag (o : Issue) : Nat := (o.a 0).v.toNat % 2 ^ 32

/-- Every instruction of a table completes with its effect, for all its forms, where its rule says that it has it. -/
def HasEffect (tbl : Instr → Option (Issue → State → EffectRule)) : Prop := ∀ i f, tbl i = some f → ∀ s o s1,
  prepare i s = .ok (o, s1) → (f o s1).when → ∃ u t, exec i s = .next t ∧ (f o s1).effect u ∧ Completes o u t

/-- BSEAL, BWAIT and STALLRD (R414, R421). -/
def batchOf : Instr → Option (Issue → State → EffectRule)
  | .bseal .. => some fun o s => ⟨(o.a 0).p = false ∧ o.tag ≤ 15 ∧ (s.cur.tags.find? fun x => x.1 == o.tag) = none,
      fun u => u = { s with cur := { s.cur with
        tags := (o.tag, s.cur.openBatch) :: s.cur.tags, openBatch := [], batchLog := ⟨s.now, o.tag, true, s.cur.openBatch⟩ :: s.cur.batchLog } }⟩
  | .bwait .. => some fun o s => ⟨(o.a 0).p = false ∧ o.tag ≤ 15 ∧ ∀ x, (s.cur.tags.find? fun x => x.1 == o.tag) = some x → x.2 = [],
      fun u => u.cur.tags = s.cur.tags.filter (fun x => x.1 != o.tag) ∧ u = { s with cur := { s.cur with tags := u.cur.tags, batchLog := u.cur.batchLog } }⟩
  | .stallrd .. => some fun o s =>
      let sel := (o.a 0).v.toNat % 2 ^ 32
      ⟨o.act ≠ [] ∧ (o.a 0).p = false ∧ sel < 2 ^ 16 ∧ ∃ top, stallTop (bits sel 15 8) = some top ∧ bits sel 7 0 ≤ top,
        fun u => Gives o s u ⟨if s.allTeams.any (fun t => (if bits sel 15 8 = 5 then t.id.tile / 8 == o.t.id.tile / 8 else t.id.tile == o.t.id.tile) && t.id.ctx != o.t.id.ctx)
          then BitVec.allOnes 64 else BitVec.ofNat 64 (s.stallCount (counterKey o.t (bits sel 15 8) (bits sel 7 0))), false⟩⟩
  | _ => none

/-- QMAP, QUNMAP, QSTAT, QNOTIFY and GROW (R436, R453). -/
def queueOf : Instr → Option (Issue → State → EffectRule)
  | .qmap d _ _ => some fun o s =>
      let h : Word := (o.a (o.lanes.headD 0)).v.extractLsb' 0 32
      ⟨o.lanes ≠ [] ∧ (o.a (o.lanes.headD 0)).p = false ∧ s.handleOk o.t.id.ctx h = true ∧ s.cur.portBusy (portOfReg d) = false,
        fun u => u = { s with cur := s.cur.setArch fun a => { a with ports := a.ports.set (portOfReg d) (some h) } }⟩
  | .qunmap d _ => some fun o s => ⟨o.lanes ≠ [] ∧ s.cur.portBusy (portOfReg d) = false,
      fun u => u = { s with cur := s.cur.setArch fun a => { a with ports := a.ports.set (portOfReg d) none } }⟩
  | .qstat _ a _ => some fun o s => ⟨True, fun u => Gives o s u ⟨BitVec.ofNat 64 (s.queueStatus s.cur (portOfReg a)), false⟩⟩
  | .qnotify d _ => some fun o s => ⟨o.lanes ≠ [] ∧ s.notifyCause s.cur (portOfReg d) = none ∧ o.room s 3 = true,
      fun u => ∃ h, o.t.arch.ports.getD (portOfReg d) none = some h ∧ Requests o s u ⟨3, fun _ => .notify h, none⟩⟩
  | .grow .. => some fun o s =>
      let n := (o.a (o.lanes.headD 0)).v.toNat % 2 ^ 32
      ⟨o.lanes ≠ [] ∧ (o.a (o.lanes.headD 0)).p = false ∧ n ≠ 0 ∧ o.room s 3 = true, fun u => Requests o s u ⟨3, fun pid => .grow pid n, some (o.destsAll 1)⟩⟩
  | _ => none

/-- A pair of the registers that BIND reads. -/
def Issue.quadPair (o : Issue) (i : Nat) : Nat :=
  let ws := readRegs o.t (o.lanes.headD 0) o.ra 4
  (pairVal (ws.getD i PWord.zero) (ws.getD (i + 1) PWord.zero)).v.toNat

/-- BIND and UNBIND at issue (R332). -/
def bindOf : Instr → Option (Issue → State → EffectRule)
  | .bind .. => some fun o s =>
      let pages := (o.b (o.lanes.headD 0)).v.toNat % 2 ^ 32
      ⟨o.lanes ≠ [] ∧ (∀ w ∈ readRegs o.t (o.lanes.headD 0) o.ra 4, w.p = false) ∧ (o.b (o.lanes.headD 0)).p = false ∧ o.quadPair 0 % 4096 = 0 ∧ o.quadPair 2 % 8 = 0 ∧
        1 ≤ pages ∧ pages ≤ 2 ^ 28 ∧ inTranslated (o.quadPair 0) (4096 * pages) = true ∧ inTranslated (o.quadPair 2) 8 = true ∧ o.room s 3 = true,
        fun u => Requests o s u ⟨3, fun _ => .bind (o.quadPair 0) pages (o.quadPair 2) (maskOf o.act), none⟩⟩
  | .unbind .. => some fun o s =>
      let base := (o.a (o.lanes.headD 0)).v.toNat
      ⟨o.lanes ≠ [] ∧ (o.a (o.lanes.headD 0)).p = false ∧ base % 4096 = 0 ∧ inTranslated base 4096 = true ∧ o.room s 3 = true,
        fun u => Requests o s u ⟨3, fun _ => .unbind base (maskOf o.act), none⟩⟩
  | _ => none

/-! ### Equivalence instructions -/

/-- `u` is `s` with a request for the owner of a forest, held in the Coolbox as one effect (R339, R341), and its result pending where it has one. -/
structure Asks (o : Issue) (s u : State) (kind fid : Nat) (block : List PWord) (lanes : List (Nat × PWord × PWord)) (results : Option (List LaneResult)) : Prop where
  request : ∃ r : EqReq, u.eq = { s.eq with reqs := s.eq.reqs ++ [r] } ∧ r.kind = kind ∧ r.forest = fid ∧ r.uid = o.t.id.uid ∧ r.ctx = o.t.id.ctx ∧ r.issue = s.now ∧
    r.block = block ∧ r.lanes = lanes ∧ r.arrived = none ∧ r.pid = (if results.isSome then some s.nextId else none) ∧
    ∃ h : Held, u.coolbox = s.coolbox ++ [h] ∧ h.eff = .forest r.rid ∧ h.units = 3 ∧ h.issue = s.now ∧ h.uid = o.t.id.uid
  pend : match results with
    | none => u.cur.pend = s.cur.pend
    | some rs => PendsAt o s u (rs.map LaneResult.place) Config.Q
  rest : u = { s with
    cur := { s.cur with pend := u.cur.pend }, coolbox := u.coolbox, eq := { s.eq with reqs := u.eq.reqs }, draws := u.draws, serial := u.serial, nextId := u.nextId }

/-- An operand as an element number. -/
def PVal.element (v : PVal) : Nat := v.v.toNat % 2 ^ 32

/-- UNITE, FIND and SAME: the elements lie in the forest, and the engine has room for the walks (R343, R347). -/
def walkRule (kind : Nat) (x y : Issue → Nat → PVal) (o : Issue) (s : State) : EffectRule :=
  let w (v : PVal) : PWord := ⟨v.v.extractLsb' 0 32, v.p⟩
  ⟨∃ f, s.currentForest o.t = some f ∧ o.lanes ≠ [] ∧ (∀ l ∈ o.lanes, (x o l).p = false ∧ (y o l).p = false ∧ (x o l).element < f.count ∧ (y o l).element < f.count) ∧
      (s.walksOf f.engine = 0 ∨ s.walksOf f.engine + o.lanes.length ≤ 256) ∧ o.room s 3 = true,
    fun u => ∃ f, s.currentForest o.t = some f ∧ Asks o s u kind f.fid [] (o.lanes.map fun l => (l, w (x o l), w (y o l))) (some (o.atomDests o.lanes 1))⟩

/-- EQSNAP, EQUNDO and EQDROP (R356). -/
def markRule (kind : Nat) (o : Issue) (s : State) : EffectRule :=
  ⟨o.lanes ≠ [] ∧ (∃ f, s.currentForest o.t = some f) ∧ o.room s 3 = true,
    fun u => ∃ f, s.currentForest o.t = some f ∧ Asks o s u kind f.fid [] [] (some (o.destsAll 1))⟩

/-- `u` is `s` with the read of a class-size register on its way to the forest's owner, and its result pending (R352). -/
structure AsksSize (o : Issue) (s u : State) (fid : Nat) (lit : Word) : Prop where
  request : ∃ r : EqReq, u.eq = { s.eq with reqs := s.eq.reqs ++ [r] } ∧ r.kind = 7 ∧ r.forest = fid ∧ r.uid = o.t.id.uid ∧ r.issue = s.now ∧
    r.block = [⟨lit, false⟩] ∧ r.pid = some s.nextId ∧ ∃ at_, r.arrived = some at_ ∧ s.now < at_
  pend : PendsAt o s u ((o.destsAll 1).map LaneResult.place) Config.Q
  rest : u = { s with
    cur := { s.cur with pend := u.cur.pend }, eq := { s.eq with reqs := u.eq.reqs }, draws := u.draws, serial := u.serial, nextId := u.nextId }

/-- The instructions of class 0xA but EQSET. -/
def forestOf : Instr → Option (Issue → State → EffectRule)
  | .unite .. => some (walkRule 0 (·.d) (·.a))
  | .find .. => some (walkRule 1 (·.a) (·.a))
  | .same .. => some (walkRule 2 (·.d) (·.a))
  | .relabel .. => some fun o s =>
      let block := readRegs o.t (o.lanes.headD 0) o.ra 8
      let r := block.map (·.w)
      let ctr := (r.getD 6 0).toNat + (r.getD 7 0).toNat % 2 ^ 16 * 2 ^ 32
      ⟨o.lanes ≠ [] ∧ (∃ f, s.currentForest o.t = some f) ∧ (∀ w ∈ block, w.p = false) ∧ relabelBad r = false ∧ ctr % 8 = 0 ∧ isScratch ctr = false ∧ o.room s 3 = true,
        fun u => ∃ f, s.currentForest o.t = some f ∧ Asks o s u 3 f.fid block [(o.lanes.headD 0, PWord.zero, PWord.zero)] none⟩
  | .eqsnap .. => some (markRule 4)
  | .equndo .. => some (markRule 5)
  | .eqdrop .. => some (markRule 6)
  | .eqsize _ lit => some fun o s => ⟨o.lanes ≠ [] ∧ ∃ f, s.currentForest o.t = some f,
      fun u => ∃ f, s.currentForest o.t = some f ∧ AsksSize o s u f.fid lit⟩
  | .eqfence => some fun o s => ⟨∃ f rids, s.currentForest o.t = some f ∧ (∀ p ∈ o.t.pend, (opcode p.word).toNat / 16 ≠ 0x50) ∧
        (∀ e ∈ s.coolbox, e.uid = o.t.id.uid → ∀ rid, e.eff ≠ .forest rid) ∧ o.t.fence = some (0 :: rids) ∧ s.eqBusy (rids.filter (· != 0)) = false ∧
        s.waitsFor (0 :: rids) = false,
      fun u => u = { s with cur := { s.cur with fence := none } }⟩
  | _ => none

/-- EQSET's descriptor passes its checks at an access (R346). -/
def Issue.descriptorAt (o : Issue) (s : State) (x : Access1) : Prop :=
  ({ o with uniform := true, lanes := [o.act.headD 0] } : Issue).check s [(o.act.headD 0, o.a (o.act.headD 0))] 64 64 28 Need.rw none (fun _ => none) = .ok [x] []

/-- `u` is `s` with the team's current forest changed. -/
def Selects (s u : State) (fid : Nat) : Prop := u = { s with cur := s.cur.setArch fun r => { r with forest := some fid } }

/-! ### Matrix instructions -/

/-- A matrix instruction issues collectively (R255, R256): every lane of the team in the current group and active, the group with a share of the engine,
the block of registers without poison. -/
structure Collective (o : Issue) (s : State) (g : GroupRt) (r : List Word) : Prop where
  group : s.group? o.t.id.gid = some g
  lanes : o.act = lanesOf o.t.width (o.t.allGroups.foldl (fun m g => m ||| g.mask) 0)
  share : g.share ≠ 0
  clean : ∀ w ∈ readRegs o.t 0 o.ra 8, w.p = false
  record : r = (readRegs o.t 0 o.ra 8).map (·.w)

/-- `u` is `s` with a command of the matrix engine issued (R257): numbered in its channel, its record held as one effect; an MLDB gives its set the
type and descriptor that it loads. -/
structure Appends (o : Issue) (s u : State) (r : List Word) (pid : Option Nat) : Prop where
  command : ∃ c : Command, (u.engine o.t.id.tile).cmds = (s.engine o.t.id.tile).cmds ++ [c] ∧ c.chan = recChan r ∧ c.op = recOp r ∧ c.record = r ∧ c.uid = o.t.id.uid ∧
    c.ctx = o.t.id.ctx ∧ c.gid = o.t.id.gid ∧ c.issue = s.now ∧ c.pid = pid ∧ c.written = false ∧ c.started = false ∧ c.done = 0 ∧
    (∀ k, (s.engine o.t.id.tile).channel? (recChan r) = some k → c.number = k.number) ∧
    ∃ h : Held, u.coolbox = s.coolbox ++ [h] ∧ h.eff = .command c.mid ∧ h.units = 3 ∧ h.issue = s.now ∧ h.uid = o.t.id.uid
  channels : (u.engine o.t.id.tile).channels =
    (s.engine o.t.id.tile).channels.map fun k => if k.chan == recChan r then { k with number := (k.number + 1) % 2 ^ 32 } else k
  sets : recOp r ≠ 1 → (u.engine o.t.id.tile).sets = (s.engine o.t.id.tile).sets
  rows : (u.engine o.t.id.tile).acc = (s.engine o.t.id.tile).acc ∧ (u.engine o.t.id.tile).status = (s.engine o.t.id.tile).status ∧
    (u.engine o.t.id.tile).owners = (s.engine o.t.id.tile).owners ∧ (u.engine o.t.id.tile).holds = (s.engine o.t.id.tile).holds
  engines : ∀ k, k ≠ o.t.id.tile → u.engine k = s.engine k
  rest : u = { s with engines := u.engines, coolbox := u.coolbox, nextId := u.nextId }

/-- The channel that an MCFG record describes (Table 12-2). -/
def channelOf (o : Issue) (s : State) (g : GroupRt) (r : List Word) : Channel :=
  let f := rfield r
  let own := (s.engine o.t.id.tile).channel? (f 0 1 0)
  ⟨f 0 1 0, g.gid, o.t.id.ctx, g.base, g.size, f 4 19 0, f 8 12 0, f 0 15 8, f 0 24 16, f 0 4 3, (List.range 4).map fun i => f 12 (8 * i + 4) (8 * i),
    (List.range 4).map fun i => BitVec.ofNat 32 (f (16 + 4 * i) 31 0), (s.engine o.t.id.tile).number (f 0 1 0), false, false, g.share, (own.map (·.spent)).getD 0⟩

/-- MCFG past its checks (R254). -/
structure Configures (o : Issue) (s : State) (g : GroupRt) (r : List Word) : Prop where
  collective : Collective o s g r
  good : channelBad r = false
  own : ∀ x, (s.engine o.t.id.tile).channel? (rfield r 0 1 0) = some x → x.gid = g.gid
  apart : rfield r 0 2 2 = 1 ∨ ∀ x ∈ (s.engine o.t.id.tile).channels, x.chan ≠ rfield r 0 1 0 → x.clashes (rfield r 0 15 8) (rfield r 0 24 16) (rfield r 0 4 3) = false
  share : rfield r 0 24 16 ≤ 16 * g.share
  window : rfield r 0 2 2 = 1 ∨ rfield r 4 19 0 + 32 * rfield r 8 12 0 ≤ g.size
  idle : (s.engine o.t.id.tile).unretired (rfield r 0 1 0) = []
  room : o.room s 3 = true

/-- `u` is `s` with a channel configured or released (R252, R254): in force at once, the other channels as they were, its rows and sets read 0 where another
context held them, and the configuration is held as one effect. -/
structure Configured (o : Issue) (s u : State) (g : GroupRt) (r : List Word) : Prop where
  channel : (u.engine o.t.id.tile).channel? (rfield r 0 1 0) = if rfield r 0 2 2 = 1 then none else some (channelOf o s g r)
  others : ∀ c, c ≠ rfield r 0 1 0 → (u.engine o.t.id.tile).channel? c = (s.engine o.t.id.tile).channel? c
  held : ∃ h : Held, u.coolbox = s.coolbox ++ [h] ∧ h.eff = .mcfg (rfield r 0 1 0) ∧ h.units = 3 ∧ h.issue = s.now ∧ h.uid = o.t.id.uid
  commands : (u.engine o.t.id.tile).cmds = (s.engine o.t.id.tile).cmds ∧ (u.engine o.t.id.tile).holds = (s.engine o.t.id.tile).holds
  engines : ∀ k, k ≠ o.t.id.tile → u.engine k = s.engine k
  rest : u = { s with engines := u.engines, coolbox := u.coolbox, nextId := u.nextId }

/-- The operation code of the record that each matrix command needs (Table 12-4). -/
def commandOp : Instr → Option Nat
  | .mldb .. => some 1
  | .mma .. => some 2
  | .mmas .. => some 3
  | .mzero .. => some 4
  | .mstore .. => some 5
  | .mrun .. => some 7
  | _ => none

/-- The command ring has a free slot and the Coolbox has room (R257, R437). -/
def Issue.commandRoom (o : Issue) (s : State) (r : List Word) : Prop := s.ringFull o.t.id.tile (recChan r) = false ∧ o.room s 3 = true

/-- MDRAIN past its checks (R269). -/
structure Drains (o : Issue) (s : State) (g : GroupRt) (r : List Word) : Prop where
  collective : Collective o s g r
  record : s.recordCause o.t.id.tile g.gid g.base g.size r = none
  op : recOp r = 6
  rows : ∀ c, (s.engine o.t.id.tile).channel? (recChan r) = some c → rowsOutside c (recAcc64 r) (recAccRow r) (drainRows r o.act) = false
  regs : o.rd.toNat + drainPer r * (if recAcc64 r then 2 else 1) - 1 ≤ 63 ∧ (recAcc64 r = true → o.rd.toNat % 2 = 0 ∧ recAccRow r + drainRows r o.act - 1 ≤ 127)
  resident : ∀ l ∈ o.act, resident o.t l ((List.range (drainPer r * if recAcc64 r then 2 else 1)).map fun i => o.t.slotOf l (o.rd.toNat + i)) = true
  room : o.commandRoom s r

/-! ### Waiting and the privileged instructions -/

/-- The state in which WAIT reads its object: a counter's bytes are written back and dropped first (R411). -/
def Issue.watched (o : Issue) (s : State) (ea : Nat) : State :=
  if isScratch ea then s else (s.flushRange o.t.id.tile o.t.id.ctx o.t.id.uid s.now ea (ea + 8) true).2

/-- WAIT's object passes its checks at an access, with its phase or target (R411). -/
structure Watches (o : Issue) (s : State) (x : Access1) (target : PVal) : Prop where
  active : o.lanes ≠ []
  object : o.checkWith s [(o.lanes.headD 0, o.addrT (o.lanes.headD 0))] 8 eitherOdd Need.rw none (fun _ => none) = .ok [x] []
  value : target = if isScratch x.ea then o.d (o.lanes.headD 0) else readReg o.t s.now o.lit false [] 2 o.rd (o.lanes.headD 0)
  clean : target.p = false
  barrier : isScratch x.ea = true → ownerTile x.ea = o.t.id.tile ∧ target.v.toNat < 2 ^ 16 ∧ (s.barrier x.ea).bad = false
  counter : isScratch x.ea = false → ((regKind o.rd = .frame ∨ regKind o.rd = .uni) → o.rd.toNat % 2 = 0) ∧
    ((o.watched s x.ea).lineHeld x.key = true ∨ (o.watched s x.ea).mem.anyPoison x.key 8 = false) ∧
    ∀ y ∈ (o.watched s x.ea).net, y.uid = o.t.id.uid → y.pa / 64 ≠ x.key / 64
  held : s.holdsFor o.t.id.uid x.ea (if isScratch x.ea then 16 else 8) = false
  bound : s.bindsOut o.t.id.uid = false

/-- A TLB entry that a privileged TLBINV removes (R334): its tile's entries that the selector names. -/
def tlbNamed (s : State) (key : Nat) (e : Tlb) : Prop :=
  let page := bits (s.window key).issueA.toNat 47 12 * 4096
  let sel := (s.window key).issueB.toNat
  e.tile = key / 64 ∧ (bit sel 31 = true ∨ (e.ctx = bits sel 16 0 ∧ (bit sel 30 = true ∨ (e.va ≤ page ∧ page < e.va + e.size))))

/-! ### Events at ordering points and homes -/

/-- `u` is `s` with the bytes `data` stored from `key` up, and every other byte and word poison as before. -/
structure Stored (key : Nat) (data : List (Byte × Bool)) (s u : State) : Prop where
  bytes : ∀ i b, data[i]? = some b → u.mem.get (key + i) = b.1
  others : ∀ a, a < key ∨ key + data.length ≤ a → u.mem.get a = s.mem.get a
  poison : ∀ a, a / 4 < key / 4 ∨ (key + data.length - 1) / 4 < a / 4 → u.mem.poisoned a = s.mem.poisoned a
  rest : u = { s with mem := { s.mem with bytes := u.mem.bytes, poison := u.mem.poison } }

/-- The request `x` of `s` has been performed in `u`: its answer `act` is on its way back, or held by the home of its line, where the
result is formed `late` cycles from now (R288, R294). An atomic's answer is always held when its point is a home. -/
structure Answered (x : Net) (late : Nat) (atomic : Bool) (act : Act) (s u : State) : Prop where
  answer : (∃ y ∈ u.net, y = { x with due := y.due, act := act } ∧ s.now ≤ y.due) ∨
    ∃ h ∈ u.homeHolds, h.home + 1024 = x.point ∧ h.line = x.pa / 64 ∧ h.reply = { x with act := act } ∧ s.now + late ≤ h.formed
  held : atomic = true → 1024 ≤ x.point → x.point < 2048 →
    ∃ h ∈ u.homeHolds, h.home + 1024 = x.point ∧ h.line = x.pa / 64 ∧ h.reply = { x with act := act } ∧ s.now + late ≤ h.formed
  others : ∀ y, y.id ≠ x.id → (y ∈ u.net ↔ y ∈ s.net)
  holds : ∀ h ∈ s.homeHolds, h ∈ u.homeHolds
  rest : u = { s with net := u.net, homeHolds := u.homeHolds, draws := u.draws, serial := u.serial, nextId := u.nextId }

/-- The request `x` fails with a cause: the result that waits for it learns so and keeps the request for a Resume (R47), or its team traps at its
next boundary (R246, R294); a copy learns so by the answer to its write. -/
def Failed (x : Net) (cause : Nat) (s u : State) : Prop := match x.act.pid with
  | some p => Answered x 0 false (.ack (some p) (x.act.lanes.map fun y => (y.1, [])) 0 (some cause) x.act.ea 0)
      (s.modPend x.uid p fun q => { q with redo := q.redo ++ [x] }) u
  | none => Answered x 0 false (.ack none [] 0 (some cause) x.act.ea 0)
      (if s.copies.any fun c => c.writes.any fun w => w.1 == x.id then s
        else s.defer x.uid cause x.pc x.issue x.word (maskOf (x.act.lanes.map (·.1))) (x.act.lanes.map fun y => (y.1, BitVec.ofNat 64 y.2))) u

/-- The barrier after one arrival (R407, R408): its pending count is one less; a phase that is over hands its carry to the next one. -/
def Barrier.arrived (b : Barrier) : Barrier :=
  if b.pending = 1 ∧ b.w2 = 0 then
    ⟨BitVec.ofNat 32 ((b.phase + 1) % 2 ^ 16 * 2 ^ 16 + b.init), BitVec.ofNat 32 b.init, BitVec.ofNat 32 b.carry, 0xB5000000⟩
  else { b with w1 := BitVec.ofNat 32 (b.pending - 1) }

/-- What performing an access at its ordering point does (R281, R294). -/
def accessRule (x : Net) (s : State) : Option (State → Prop) := match x.act with
  | .write [p] => if s.portAdmits x p.ea p.data.length then
      some fun u => ∃ w, Stored (x.pa + (p.ea - x.va)) p.data s w ∧ Answered x 0 false (.ack none [] 0 none p.ea 0) w u
    else some (Failed x 29 s)
  | .object pid lane ea n _ => if s.portAdmits x ea n then some (Answered x 0 false (.ack (some pid) [(lane, loadedWords false (s.mem.load x.pa n))] 0 none 0 0) s)
    else some (Failed x 29 s)
  | .load pid xs n sg fill =>
    if !xs.isEmpty && xs.all (fun y => s.portAdmits x y.2.1 n) then match fill with
      | some merge => some (Answered x 0 false (.filled pid xs n sg (s.mem.load (x.pa / 64 * 64) 64) merge) s)
      | none => some (Answered x 0 false (.ack (some pid) (xs.map fun y => (y.1, loadedWords sg (overlay y.2.2 (s.mem.load x.pa n)))) 0 none 0 0) s)
    else if xs.all fun y => !s.portAdmits x y.2.1 n then some (Failed x 29 s) else none
  | .fetch owner _ => some (Answered x 0 false (.ack none [] 0 none 0 0) { s with fetched := s.fetched ++ [(owner, x.pa, 0)] })
  | .count ea v => some fun u => ∃ w, Stored x.pa ((toBytes 8 (s.mem.nat x.pa 8 + v.v.toNat)).map (·, v.p || s.mem.anyPoison x.pa 8)) s w ∧
      Answered x 0 true (.ack none [] 0 none ea 0) w u
  | _ => none

/-- What the events at the ordering points and homes promise of their next state. -/
def homePromise : Instr → State → Option (State → Prop)
  | .atomicPerform id, s => match s.net? id with
    | none => none
    | some x => match x.act with
      | .atomic pid op r =>
        if s.portAdmits x r.ea op.width then
          let old := s.mem.load x.pa op.width
          let out := op.apply ⟨BitVec.ofNat 64 (ofBytes (old.map (·.1))), old.any (·.2)⟩ r
          some fun u => ∃ w, (match out.1 with | some y => Stored x.pa ((toBytes op.width y.v.toNat).map (·, y.p)) s w | none => w = s) ∧
            Answered x 0 true (.ack pid [(r.lane, loadedWords false old)] out.2 none r.ea op.width) w u
        else some (Failed x 29 s)
      | _ => none
  | .aprogRun id, s => match s.net? id with
    | none => none
    | some x => match x.act with
      | .aprog pid r =>
        if r.v.p || s.mem.anyPoison (x.pa / 64 * 64) 64 then
          if s.aprogLate x r then none
          else some (Answered x 0 true (.ack (some pid) [(r.lane, [⟨r.v.v.extractLsb' 0 32, true⟩, ⟨r.v.v.extractLsb' 32 32, true⟩])] 0 none r.ea 64) s)
        else match s.aprogOut x r with
        | .done a0 a1 line cycles => some fun u => ∃ w, Stored (x.pa / 64 * 64) (line.map (·, false)) s w ∧
            Answered x cycles true (.ack (some pid) [(r.lane, [⟨a0, false⟩, ⟨a1, false⟩])] 0 none r.ea 64) w u
        | .stop c => if c = 58 then none else some (Answered x 0 true (.ack (some pid) [(r.lane, [])] 0 (some c) r.ea 64)
            (s.modPend x.uid pid fun q => { q with redo := q.redo ++ [x] }))
      | _ => none
  | .aprogTimeout id, s => match s.net? id with
    | none => none
    | some x => match x.act with
      | .aprog pid r =>
        if s.aprogOut x r = .stop 58 && !r.v.p && !s.mem.anyPoison (x.pa / 64 * 64) 64 then
          some (Answered x 0 true (.ack (some pid) [(r.lane, [])] 0 (some 58) r.ea 64) (s.modPend x.uid pid fun q => { q with redo := q.redo ++ [x] }))
        else none
      | _ => none
  | .homeCommit id, s => match s.homeHolds.find? (·.id == id) with
    | none => none
    | some h =>
      if s.now < h.formed + Config.Q || (s.homeHolds.takeWhile (·.id != id)).any (fun k => k.home == h.home && k.line == h.line) then some (· = s)
      else some fun u => (∃ y ∈ u.net, y = { h.reply with due := y.due } ∧ s.now ≤ y.due ∧ u.net = s.net ++ [y]) ∧ u.homeHolds = s.homeHolds.filter (·.id != id) ∧
        u = { s with net := u.net, homeHolds := u.homeHolds, draws := u.draws, serial := u.serial }
  | .barrierArrival id, s => match s.net? id with
    | none => none
    | some x => match x.act with
      | .arrive _ ea =>
        let b := s.barrier ea
        if !s.portAdmits x ea 16 then some (Failed x 29 s)
        else if b.bad then some (Failed x 68 s)
        else if b.pending = 0 then some (Failed x 70 s)
        else some fun u => ∃ w, Stored ea b.arrived.bytes s w ∧ Answered x 0 false (.ack none [] 0 none ea 0) w u
      | _ => none
  | .expectation id, s => match s.net? id with
    | none => none
    | some x => match x.act with
      | .expect pid lane ea n =>
        let b := s.barrier ea
        let count := n % 2 ^ 31
        if !s.portAdmits x ea 16 then some (Failed x 29 s)
        else if b.bad then some (Failed x 68 s)
        else if bit n 31 then
          if 2 ^ 24 ≤ b.carry + count then some (Failed x 70 s)
          else some fun u => ∃ w, Stored ea ({ b with w3 := b.w3 + BitVec.ofNat 32 count } : Barrier).settled.bytes s w ∧
            Answered x 0 false (.ack (some pid) [(lane, [⟨BitVec.ofNat 32 ((b.phase + 1) % 2 ^ 16), false⟩])] 0 none ea 16) w u
        else if (2 ^ 31 : Int) ≤ b.w2.toInt + count then some (Failed x 70 s)
        else some fun u => ∃ w, Stored ea ({ b with w2 := b.w2 + BitVec.ofNat 32 count } : Barrier).settled.bytes s w ∧
            Answered x 0 false (.ack (some pid) [(lane, [⟨BitVec.ofNat 32 b.phase, false⟩])] 0 none ea 16) w u
      | _ => none
  | .engineCredit id, s => match s.net? id with
    | none => none
    | some x => match x.act with
      | .credit ea n _ =>
        let b := s.barrier ea
        if s.portAdmits x ea 16 && !b.bad then
          some fun u => ∃ w, Stored ea ({ b with w2 := b.w2 - BitVec.ofNat 32 n } : Barrier).settled.bytes s w ∧ Answered x 0 false (.ack none [] 0 none ea 0) w u
        else none
      | _ => none
  | .orderingPointAccess id, s => match s.net? id with
    | none => none
    | some x =>
      if s.isOut id || s.isMoving x.pa || isWindow x.pa then none
      else if x.act.isReply then some (· = s)
      else if s.cxlFailed x.pa then match x.act with
        | .fetch .. => none
        | _ => some (Failed x 36 s)
      else accessRule x s
  | .moved id, s => match s.net? id with
    | none => none
    | some x =>
      match x.act with
      | .fetch .. => none
      | _ =>
        if 7 ≤ x.tries then some (Failed x 39 s)
        else match s.walk x.tile x.ctx x.va with
        | .leaf base _ pte =>
          let pa := bits pte.toNat 47 12 * 4096 + (x.va - base)
          some fun u => (∃ y, y = { x with due := y.due, point := pointOf pa, pa := pa, tries := x.tries + 1 } ∧ s.now ≤ y.due ∧ u.net = modifyWhere (fun z => z.id == id) (fun _ => y) s.net) ∧
            u = { s with net := u.net, draws := u.draws, serial := u.serial }
        | .malformed => some (Failed x 24 s)
        | .absent _ => none
  | _, _ => none

/-! ### Events of the Coolbox, of results and of waiting teams -/

/-- `u` is `s` with the team of a number changed by `f`, and no other team. -/
structure TeamChanges (uid : Nat) (f : Team → Team) (s u : State) : Prop where
  team : ∀ t, s.team? uid = some t → u.team? uid = some (f t)
  others : ∀ v, v ≠ uid → u.team? v = s.team? v
  rest : u = { s with cur := u.cur, teams := u.teams, disp := { s.disp with images := u.disp.images } }

/-- `u` is `s` with a request under way for a scratchpad address or one that the tile translates to `key`. -/
def Sent (e : Held) (va key : Nat) (act : Act) (s u : State) : Prop :=
  ∃ y ∈ u.net, y.act = act ∧ y.uid = e.uid ∧ y.ctx = e.ctx ∧ y.tile = e.tile ∧ y.va = va ∧ y.pa = key ∧ y.point = pointOf key ∧ y.issue = e.issue ∧ s.now ≤ y.due ∧
    u = { s with net := u.net, draws := u.draws, serial := u.serial, nextId := u.nextId } ∧ ∀ x ∈ s.net, x.id ≠ y.id → x ∈ u.net

/-- A piece of a held store leaves (R206, R212): to the tile's own slice, to the owner port or home, or into the tile's L1. -/
def PieceLeaves (e : Held) (p : Piece) (s u : State) : Prop :=
  if isScratch p.ea then
    if ownerTile p.ea = e.tile && s.ownerAdmits e.uid e.ctx p.ea p.data.length then Stored p.ea p.data s u else Sent e p.ea p.ea (.write [p]) s u
  else if s.effectful e.tile e.ctx p.ea then match s.keyOf e.tile e.ctx p.ea with
    | some k => Sent e p.ea k (.write [p]) s u
    | none => u = s
  else (∀ i b, p.data[i]? = some b → p.ea % 64 + i < 64 → ∃ q, u.mem.l1Byte e.tile e.ctx (p.ea + i) = some (b.1, q) ∧ (b.2 = true → q = true)) ∧
    u = { s with mem := { s.mem with lines := u.mem.lines }, net := u.net, homeHolds := u.homeHolds }

/-- The pieces of a held store leave in their order. -/
def LeaveInOrder (e : Held) : List Piece → State → State → Prop
  | [], s, u => u = s
  | p :: ps, s, u => ∃ w, PieceLeaves e p s w ∧ LeaveInOrder e ps w u

/-- Does a pending result land plainly: no acquire, no port, no format or padding to check, no lane failed (R46)? -/
def Pend.plain (p : Pend) : Bool := !p.acq && p.fmt.isNone && p.failed == 0 && p.results.all fun r => match r.dest with
  | .port _ | .fmt _ => false
  | _ => true

/-- The results of a plain pending instruction whose time has come (R46): each lane's by itself. -/
def Pend.due? (p : Pend) (now : Nat) : List LaneResult := p.results.filter fun r => r.ready && decide (r.due ≤ now) && decide (p.due ≤ now)

/-- A team in which some results of a plain pending instruction have landed: the lanes that still stand, or whose checkpoint is to have them,
hold their words, codes and flags; the others of the instruction pend on (R46, R81, R188). -/
def Team.takes (t : Team) (p : Pend) (rs : List LaneResult) : Team :=
  let kept (l : Nat) : Bool := (t.allGroups.any fun g => inMask g.mask l) || t.ckpts.any fun k => some k.id == p.ckpt
  let w := (rs.filter fun r => kept r.lane).foldl (fun t r =>
    (if r.words.isEmpty then t else t.write r.dest r.words).setLane r.lane fun ln => { ln with cc := r.cc.getD ln.cc, xflags := ln.xflags ||| r.xf }) t
  { w with ckpts := modifyWhere (fun k => some k.id == p.ckpt) (fun k => { k with arch := k.arch.land rs }) w.ckpts }

/-- What an effect does as it leaves the Coolbox, of the kinds that the queues, the caches, the matrix and equivalence engines, the trap buffer
and the binding table take, and of stores. -/
def EffectDone (e : Held) (s u : State) : Prop := match e.eff with
  | .write ps false => LeaveInOrder e ps s u
  | .expect pid [(l, ea, n)] => isScratch ea = true → (∀ x ∈ s.net, x.id ≠ s.nextId) → Sent e ea ea (.expect pid l ea n) s u
  | .pop h slots => (∀ k, u.queue (k / 64) (k % 64) = if k = handleTile h * 64 + handleEntry h then
        { s.queue (k / 64) (k % 64) with ring := (s.queue (k / 64) (k % 64)).ring.release slots } else s.queue (k / 64) (k % 64)) ∧
      u = { s with tables := { s.tables with queues := u.tables.queues } }
  | .push h words => handleKind h = 0 →
      (u.queue (handleTile h) (handleEntry h)).ring = (s.queue (handleTile h) (handleEntry h)).ring.fill (words.map (·.1)) ∧
      u = { s with mem := u.mem, tables := { s.tables with queues := u.tables.queues } }
  | .notify h => handleKind h = 1 → (u.thread (handleEntry h)).notify = min ((s.thread (handleEntry h)).notify + 1) 0xFFFFFFFF ∧
      (∀ k, k ≠ handleEntry h → u.thread k = s.thread k) ∧ u = { s with hub := { s.hub with threads := u.hub.threads } }
  | .flush ea len => WritesBack s u (overlaps e.tile e.ctx ea (ea + len)) ∧ Quiet s u
  | .trap record => ∃ p : Posting, u = { s with postings := s.postings ++ [p], nextId := u.nextId } ∧ p.kind = .trap ∧ p.ctx = some e.ctx ∧ p.bytes = record
  | .mcfg c => (∀ k, (s.engine e.tile).channel? c = some k → (u.engine e.tile).channel? c = some { k with fetchable := true }) ∧
      (∀ k, k ≠ e.tile → u.engine k = s.engine k) ∧ u = { s with engines := u.engines }
  | .forest rid => u.eq.reqs = s.eq.reqs.map (fun r => if r.rid = rid then { r with arrived := some s.now } else r) ∧ u.eq.holds = s.eq.holds ∧ u.eq.forests = s.eq.forests ∧
      u = { s with eq := u.eq, nextId := u.nextId }
  | .bind base pages obj mask =>
      let key := ((s.ctx? e.ctx).map (·.bindBase)).getD 0
      Sent e key key (.bind base pages obj mask) s u
  | .unbind base mask =>
      let key := ((s.ctx? e.ctx).map (·.bindBase)).getD 0
      Sent e key key (.unbind base mask) s u
  | _ => True

/-- What the events of the Coolbox, of pending results, frames and waiting teams promise of their next state: they wait where their
conditions do not hold, and have their effect where they do. -/
def coolboxPromise : Instr → State → Option (State → Prop)
  | .coolboxRelease id, s => match s.coolbox.find? (·.id == id) with
    | none => some (· = s)
    | some e =>
      if !s.canRelease e then some (· = s)
      else some fun u => u.coolbox = s.coolbox.filter (·.id != id) ∧ u.now = s.now ∧ EffectDone e { s with coolbox := s.coolbox.filter (·.id != id) } u
  | .releaseWrite id, s => match s.net? id with
    | none => some (· = s)
    | some x =>
      if x.point ≠ 9999 || s.waitsFor x.after || s.parkedNet x then some (· = s)
      else
        let goes (key : Nat) : Option (State → Prop) := some fun u => (∃ y, y = { x with due := y.due, point := pointOf key, pa := key, after := [] } ∧ s.now ≤ y.due ∧
            u.net = modifyWhere (fun z => z.id == x.id) (fun _ => y) s.net) ∧ u = { s with net := u.net, draws := u.draws, serial := u.serial }
        match x.act with
        | .ask .. => some fun u => u.coolbox = s.coolbox ∧ u.now = s.now
        | _ =>
          if isScratch x.va then goes x.va
          else match s.walk x.tile x.ctx x.va with
          | .leaf base _ pte => goes (bits pte.toNat 47 12 * 4096 + (x.va - base))
          | .absent l => some fun u => ∃ f ∈ u.faults, f.item = x.id ∧ f.uid = x.uid ∧ f.va = x.va ∧ f.level = l ∧ f.word = x.word
          | .malformed => match x.act with
            | .fetch .. => some fun u => u.now = s.now
            | _ => some (Failed x 24 s)
  | .l1Eviction tile ctx va, s =>
    let p (l : Line) : Bool := l.tile == tile && l.ctx == ctx && l.va == va / 64 * 64
    some fun u => WritesBack s u p ∧ (∀ l ∈ u.mem.lines, p l = false) ∧ Quiet s u
  | .acknowledgement id, s => match s.net? id with
    | none => some (· = s)
    | some x =>
      let gone : State := { s with net := s.net.filter (·.id != id) }
      if !x.act.isReply || s.now < x.due then some (· = s)
      else if 1024 ≤ x.tile then match x.act with
        | .ack _ rs xf failed ea _ => some fun u => ∃ h : HubHold, u = { gone with hub := { s.hub with hold := s.hub.hold ++ [h] }, nextId := u.nextId } ∧ h.formed = s.now ∧
            h.msg = if failed.isNone && x.word = 7 then .result (x.tile - 1024) x.issue ((wordBytes (rs.flatMap (·.2))).map (·.1)) (payloadPoison (wordBytes (rs.flatMap (·.2)))) xf
              else .flit (x.tile - 1024) x.issue (if failed.isSome then 5 else x.word.toNat) ea ((wordBytes (rs.flatMap (·.2))).map (·.1)) (payloadPoison (wordBytes (rs.flatMap (·.2)))) false
        | _ => some (· = gone)
      else match x.act with
      | .ack (some pid) rs xf none _ _ => some (TeamChanges x.uid (fun t => { t with
            pend := rs.foldl (fun ps r => modifyLast (·.id == pid) (fun p => p.arrive r.1 r.2 xf) ps) t.pend }) gone)
      | .ack (some pid) rs _ (some c) ea _ => some (TeamChanges x.uid (fun t => { t with
            pend := rs.foldl (fun ps r => modifyLast (·.id == pid) (fun p => p.fail r.1 c (p.eaOf r.1 ea)) ps) t.pend }) gone)
      | .ack none .. => if s.copies.all fun c => !(c.writes.any fun w => w.1 == id) && !(c.acks.any fun a => a.2 == id) then some (· = gone)
          else some fun u => u.now = s.now ∧ u.coolbox = s.coolbox
      | .filled pid xs n sg line true => some fun u => ∃ v, v = { gone with mem := gone.mem.modLine x.tile x.ctx x.va fun l => l.fill line } ∧
          if pid = 0 then u = v
          else TeamChanges x.uid (fun t => { t with pend := xs.foldl (fun ps y => modifyLast (·.id == pid)
            (fun p => p.arrive y.1 (loadedWords sg (overlay y.2.2 ((line.drop (y.2.1 % 64)).take n))) 0) ps) t.pend }) v u
      | _ => some fun u => u.now = s.now ∧ u.coolbox = s.coolbox ∧ u.net = gone.net
  | .resultLands uid pid, s => match s.team? uid, s.pend? uid pid with
    | some _, some p =>
      if !p.lands s.now then some (· = s)
      else if p.plain then
        let rs := p.due? s.now
        some (TeamChanges uid (fun t => { t.takes p rs with
          pend := if rs.length = p.results.length then t.pend.filter (·.id != pid)
            else modifyLast (·.id == pid) (fun _ => { p.rest (fun r => r.ready && decide (r.due ≤ s.now) && decide (p.due ≤ s.now)) with raised := false }) t.pend }) s)
      else some fun u => u.now = s.now ∧ u.mem.bytes = s.mem.bytes
    | _, _ => some (· = s)
  | .checkpointSettle uid, s => match s.team? uid with
    | none => some (· = s)
    | some _ => some (TeamChanges uid (fun t => { t with ckpts := t.young s.now ++ (t.ckpts.filter fun c => decide (c.time + Config.Q ≤ s.now)).take 1 }) s)
  | .waitWake uid, s => match s.team? uid with
    | none => some (· = s)
    | some t => if s.wakes t then some (TeamChanges uid (fun t => { t with status := .running }) s) else some (· = s)
  | .reservationGrant uid, s => match s.team? uid with
    | none => some (· = s)
    | some t => match t.wants with
      | none => some (· = s)
      | some (key, k) =>
        if (s.portCause t (key / 4) (key % 4 != 3) k).isSome then some (· = s)
        else match s.grant t (key / 4) (key % 4 != 3) k with
        | none => some (· = s)
        | some (slots, v) => some (TeamChanges uid (fun t => { t with grants := t.grants ++ [(key, slots)], wants := none }) v)
  | .linkCredit ctx entry, s => match s.ctx? ctx, s.keyOf Config.tiles ctx (s.link ctx entry).credit with
    | some _, some key => some fun u => (u.link ctx entry).consumed = s.mem.nat key 4 ∧ (∀ e, e ≠ entry → u.link ctx e = s.link ctx e) ∧ (∀ c, c ≠ ctx → u.ctx? c = s.ctx? c) ∧ u = { s with ctxs := u.ctxs }
    | _, _ => some (· = s)
  | .rucksackSpill uid lane, s => match s.team? uid with
    | none => some (· = s)
    | some t =>
      if 1024 ≤ lane then match s.entryToWrite t with
        | none => some (· = s)
        | some m =>
          if (s.transferBlocked t (entryItem m.entry) (t.overflowAddr m.entry) m.group.mask Need.w).isSome then
            some fun u => u.now = s.now ∧ u.coolbox = s.coolbox
          else if Config.coolboxUnits < s.unitsUsed t.id.tile + 3 || s.now < fget 0 s.busy (rucksackKey t) then some (· = s)
          else some fun u => ∃ (h : Held) (n : Nat), h.eff = .entry m.entry ⟨0, t.overflowAddr m.entry, (groupEntry t.width m.group).map (·, false)⟩ ∧ h.units = 3 ∧
            h.uid = t.id.uid ∧ h.issue = s.now ∧
            TeamChanges t.id.uid (fun t => t.setArch fun a => { a with moved := modifyWhere (·.entry == m.entry) (fun m => { m with stored := true }) a.moved })
              { s with coolbox := s.coolbox ++ [h], busy := fput 0 s.busy (rucksackKey t) (s.now + 1), nextId := n } u
      else match s.transferOf t lane with
      | some (.spill c) =>
        if (s.spillBlocked t lane c Need.w).isSome then some fun u => u.now = s.now ∧ u.coolbox = s.coolbox
        else if Config.coolboxUnits < s.unitsUsed t.id.tile + 3 || s.now < fget 0 s.busy (rucksackKey t) then some (· = s)
        else some fun u => ∃ (h : Held) (n : Nat), h.eff = .spill c ⟨lane, t.spillAddr lane (16 * c), wordBytes ((List.range 16).map fun i => t.slotWord lane (16 * c + i))⟩ ∧ h.units = 3 ∧ h.uid = uid ∧ h.issue = s.now ∧
          TeamChanges uid (fun t => t.setFrame lane fun f => { f with lo := f.lo + 16, spilling := c :: f.spilling })
            { s with coolbox := s.coolbox ++ [h], busy := fput 0 s.busy (rucksackKey t) (s.now + 1), nextId := n } u
      | some .move => some (TeamChanges uid (fun t => t.setFrame lane fun f => f.settle t.id.frame (t.pinned lane) (t.lane lane).fp.toNat 8) s)
      | _ => some (· = s)
  | .rucksackRefill uid lane, s => match s.team? uid with
    | none => some (· = s)
    | some t =>
      let comes (c : Nat) (place : Frame → Frame) : Option (State → Prop) :=
        if (s.spillBlocked t lane c Need.r).isSome then some fun u => u.now = s.now ∧ u.coolbox = s.coolbox
        else if s.now < fget 0 s.busy (rucksackKey t) then some (· = s)
        else some (TeamChanges t.id.uid (fun t' => t'.setFrame lane fun f => place (f.put (16 * c) (s.chunkWords t lane c)))
          { s with busy := fput 0 s.busy (rucksackKey t) (s.now + 1) })
      match s.transferOf t lane with
      | some (.refill c) => comes c fun f => { f with lo := 16 * c }
      | some (.raise c) => comes c fun f => { f with hi := 16 * c + 16 }
      | _ => some (· = s)
  | _, _ => none
/-! ### Events of the copy engines -/

/-- `u` is `s` with the copy of a number changed by `f`, and no other copy. -/
structure CopyChanges (cid : Nat) (f : Copy → Copy) (s u : State) : Prop where
  copy : ∀ c, s.copy? cid = some c → u.copy? cid = some (f c)
  others : ∀ k, k ≠ cid → u.copy? k = s.copy? k
  rest : u = { s with copies := u.copies }

/-- `u` is `s` with a request that waits for nothing but its way to a home: the credit or count of an engine. -/
def Queued (tile uid ctx issue va : Nat) (act : Act) (s u : State) : Prop :=
  ∃ y : Net, u = { s with net := s.net ++ [y], nextId := u.nextId } ∧
    y.act = act ∧ y.va = va ∧ y.tile = tile ∧ y.uid = uid ∧ y.ctx = ctx ∧ y.issue = issue ∧ y.point = 9999 ∧ y.after = [] ∧ y.due = s.now

/-- The bytes of pieces with their addresses. -/
def placedBytes (ps : List Piece) : List (Nat × Byte × Bool) := ps.flatMap fun p => p.data.zipIdx.map fun b => (p.ea + b.2, b.1)

/-- What the events of the copy engines promise of their next state. -/
def copyPromise : Instr → State → Option (State → Prop)
  | .copySegment cid, s => match s.copy? cid with
    | none => some (· = s)
    | some c =>
      if !s.canSegment c then some (· = s)
      else some fun u =>
        let seg := s.segmentOf c
        (∀ bs : List (Nat × Byte × Bool), seg.map (fun b => (b.1, c.reads s b.2)) = bs.map (fun b => (b.1, Got.byte b.2)) → c.pairBad seg = none →
          s.writeBlocked c c.blocks (seg.map (·.1)) = none → s.unitCached c seg = [] →
          ∃ (ps : List Piece) (n : Nat), placedBytes ps = (if c.blocks then bs else spreadPoison bs) ∧ (∀ p ∈ ps, p.lane = c.lane) ∧ 2 * s.now + c.dsts.length ≤ n ∧
            CopyChanges cid (fun x => { x with next := x.next + 1, held := x.held ++ c.toTargets s.now ps }) { s with busy := fput 0 s.busy (2048 + c.tile) n } u) ∧
        (∀ (bs : List (Nat × Byte × Bool)) k va, seg.map (fun b => (b.1, c.reads s b.2)) = bs.map (fun b => (b.1, Got.byte b.2)) → c.pairBad seg = some (.bad k va) →
          u = s.stopCopy c k va) ∧
        ∀ (bs : List (Nat × Byte × Bool)) (k va : Nat) (after : List (Nat × Got)), seg.map (fun b => (b.1, c.reads s b.2)) = bs.map (fun b => (b.1, Got.byte b.2)) ++ (va, .bad k va) :: after → u = s.stopCopy c k va
  | .copyWriteLands cid, s => match s.copy? cid with
    | none => some (· = s)
    | some c => match c.held with
      | [] => some (· = s)
      | (target, formed, ps) :: rest =>
        if s.now < formed + Config.Q || c.parked then some (· = s)
        else match s.writeBlocked c c.blocks (ps.map (·.ea)) with
        | some (.bad cause va) => some (· = s.stopCopy c cause va)
        | some (.fault l va) => some fun u => ∃ v, CopyChanges cid (fun x => { x with parked := true, next := x.next - x.held.length, held := [] }) v u ∧
            v = { s with faults := v.faults, postings := v.postings, nextId := v.nextId } ∧ ∃ f ∈ v.faults, f.item = cid ∧ f.unit = 1 ∧ f.va = va ∧ f.level = l
        | _ => match ps with
        | [] => none
        | p :: _ =>
          if ps.all fun q => isScratch q.ea then some fun u => ∃ (v w : State) (y : Net), CopyChanges cid (fun x => { x with held := rest }) s v ∧
            y.act = .write ps ∧ y.va = p.ea ∧ y.pa = p.ea ∧ y.tile = c.tile ∧ y.ctx = c.ctx ∧ y.uid = c.uid ∧ y.point = pointOf p.ea ∧ s.now ≤ y.due ∧
            w = { v with net := s.net ++ [y], draws := w.draws, serial := w.serial, nextId := w.nextId } ∧
            CopyChanges cid (fun x => { x with writes := x.writes ++ [(y.id, target)] }) w u
          else none
  | .cpmAcknowledgement cid tile, s => match s.copy? cid with
    | none => some (· = s)
    | some c => match c.acks.find? fun a => ownerTile (c.dsts.getD a.1 0) == tile && a.2 == 0 with
      | none => some (· = s)
      | some a => some fun u => ∃ v w, CopyChanges cid (fun x => { x with acks := x.acks.erase a, acked := x.acked + 1 }) s v ∧
          Queued c.tile c.uid c.ctx c.issue c.sinkEa (.credit c.sinkEa c.len c.mask) v w ∧ u = if c.acked + 1 = c.dsts.length then w.copyDone c else w
  | _, _ => none
/-! ### Events of the matrix engines -/

/-- `u` is `s` with one tile's matrix engine changed by `f`, and no other. -/
structure EngineChanges (tile : Nat) (f : Engine → Engine) (s u : State) : Prop where
  engine : u.engine tile = f (s.engine tile)
  others : ∀ k, k ≠ tile → u.engine k = s.engine k
  rest : u = { s with engines := u.engines }

/-- `u` is `s` with a row or segment of a command formed: what it updates is held from now on, and the command goes on to its next row. -/
def FormsRow (tile : Nat) (c : Command) (P : RowHold → Prop) (s u : State) : Prop :=
  ∃ h : RowHold, P h ∧ h.mid = c.mid ∧ h.row = c.row ∧ h.formed = s.now ∧
    EngineChanges tile (fun g => { g with holds := g.holds ++ [h] }.modCmd c.mid fun x =>
      if c.op = 1 then { x with row := x.row + 1, busyUntil := s.now + 1 } else { x with row := x.row + 1 }.toRow s.now) { s with nextId := u.nextId } u

/-- Do a command's ring slot and the command agree: the words appended are those that stand in the slot (R257)? -/
def State.slotAgrees (s : State) (tile : Nat) (k : Channel) (c : Command) : Prop :=
  ∀ i w, c.record[i]? = some w → s.mem.read (sliceAddr tile (k.base + k.ring + 32 * (c.number % k.rsize)) + 4 * i) 4 = toBytes 4 w.toNat

/-- What the events of the matrix engines promise of their next state. -/
def matrixPromise : Instr → State → Option (State → Prop)
  | .commandStart tile mid, s => match (s.engine tile).cmds.find? fun c => c.mid == mid with
    | none => some (· = s)
    | some c =>
      if !s.canStart tile c then some (· = s)
      else match (s.engine tile).channel? c.chan with
      | none => some (· = s)
      | some k =>
        let g := s.engine tile
        if !c.started then some fun u => (c.parent.isNone → s.slotAgrees tile k c) →
          EngineChanges tile (fun _ => (g.take s.now c).1.modCmd mid fun _ => (g.take s.now c).2) { s with draws := u.draws, serial := u.serial } u
        else match s.nextRecord tile g c with
        | some (some x, _, _) => some (· = s.stopCommand tile c x 0)
        | some (none, _, _) => some fun u => u = { s with engines := u.engines, nextId := u.nextId } ∧ (∀ k, k ≠ tile → u.engine k = s.engine k) ∧
            ∃ id, (∃ y ∈ (u.engine tile).cmds, y.mid = id ∧ y.record = s.segmentRecord tile k c ∧ y.parent = some mid ∧ y.started = true ∧ y.row = 0) ∧
              ((u.engine tile).cmds.filter fun y => y.mid != id).Perm ((g.cmds.map fun y => if y.mid = mid then { y with row := y.row + 1 } else y).filter fun y => y.mid != id)
        | none => none
  | .mldbSegment tile mid, s => match (s.engine tile).cmds.find? fun c => c.mid == mid with
    | none => some (· = s)
    | some c =>
      if !s.canLoad tile c then some (· = s)
      else some fun u => ∀ (bs : List (Byte × Bool)) (sc : List (Nat × Byte × Bool)), s.segGot tile c = bs.map Got.byte → s.segScales tile c = sc.map (fun y => (y.1, Got.byte y.2)) →
        paddedBlocks c.btyp c.bdesc (bs.take c.segValues) = [] →
        FormsRow tile c (fun h =>
          (∀ i, i < 8 * c.segValues / elemBits c.btyp c.bdesc →
            (4 * recSet c.record, c.segCol * 256 + 8 * c.segOff / elemBits c.btyp c.bdesc + i, elementAt (bs.take c.segValues) (elemBits c.btyp c.bdesc) i) ∈ h.cells) ∧
          (∀ y ∈ sc, (4 * recSet c.record + 1, c.segCol * 8 + y.1, ⟨y.2.1.zeroExtend 64, y.2.2⟩) ∈ h.cells) ∧ h.acc = [] ∧ h.status = [] ∧ h.bytes = [] ∧ h.vals = []) s u
  | .mmaRow tile mid, s => match (s.engine tile).cmds.find? fun c => c.mid == mid with
    | none => some (· = s)
    | some c => match (s.engine tile).channel? c.chan with
      | none => some (· = s)
      | some k =>
        if !(c.op == 2 || c.op == 3) || !s.canRow tile c then some (· = s)
        else match c.arow with
        | none => some (EngineChanges tile (fun g => g.modCmd mid fun c => { c with arow := some (s.aRow tile k c), busyUntil := s.now + g.rowCycles c }) s)
        | some bs => some fun u =>
          let g := s.engine tile
          paddedBlocks (k.slot (rfield c.record 28 1 0)).1 (k.slot (rfield c.record 28 1 0)).2 (bs.take (c.aBytes k)) = [] → (∀ b ∈ g.columns c, b.codes.any codeIllegal = false) →
          FormsRow tile c (fun h => (∀ n b, (g.columns c)[n]? = some b → ∀ w ∈ c.added g.accView (c.aValues k bs) (bs.any (·.2)) n b, w ∈ h.acc) ∧
            (∀ w ∈ h.acc, ∃ n b, (g.columns c)[n]? = some b ∧ w ∈ c.added g.accView (c.aValues k bs) (bs.any (·.2)) n b) ∧ h.status = [] ∧ h.cells = [] ∧ h.bytes = [] ∧ h.vals = []) s u
  | .mzeroRow tile mid, s => match (s.engine tile).cmds.find? fun c => c.mid == mid with
    | none => some (· = s)
    | some c =>
      if c.op ≠ 4 ∨ !s.canRow tile c then some (· = s)
      else some (FormsRow tile c (fun h =>
        (∀ p ∈ physical (recAcc64 c.record) (recAccRow c.record + c.row), (p, 0) ∈ h.status ∧ ∀ n, n < 256 → (256 * p + n, PWord.zero) ∈ h.acc) ∧
        (∀ x ∈ h.status, x.1 ∈ physical (recAcc64 c.record) (recAccRow c.record + c.row) ∧ x.2 = 0) ∧
        (∀ x ∈ h.acc, x.1 / 256 ∈ physical (recAcc64 c.record) (recAccRow c.record + c.row) ∧ x.2 = PWord.zero) ∧ h.cells = [] ∧ h.bytes = [] ∧ h.vals = []) s)
  | .mstoreRow tile mid, s => match (s.engine tile).cmds.find? fun c => c.mid == mid with
    | none => some (· = s)
    | some c => match (s.engine tile).channel? c.chan with
      | none => some (· = s)
      | some k =>
        if c.op ≠ 5 ∨ !s.canRow tile c then some (· = s)
        else
          let g := s.engine tile
          let r := c.record
          match rowStop g.statusView (recAcc64 r) (recAccRow r + c.row) with
          | some x => some (· = s.stopCommand tile c x.1 x.2)
          | none =>
            let t := fmtOf (rfield r 28 4 0) (k.slot (rfield r 28 9 8)).2
            some (FormsRow tile c (fun h => h.acc = [] ∧ h.status = [] ∧ h.cells = [] ∧ h.vals = [] ∧
              h.bytes = [⟨0, sliceAddr tile (k.base + rfield r 16 19 0 + c.row * rfield r 20 15 0), packElements (elemBits (rfield r 28 4 0) (k.slot (rfield r 28 9 8)).2)
                ((List.range (rfield r 24 15 8 + 1)).map fun n =>
                  let v := accValue g.accView (recAcc64 r) (recAccRow r + c.row) n
                  ((t.round (recRm r) ((accFmt (recAcc64 r)).read (recRm r).flush v.v.toNat)).1, v.p))⟩]) s)
  | .mdrainRead tile mid, s => match (s.engine tile).cmds.find? fun c => c.mid == mid with
    | none => some (· = s)
    | some c =>
      if c.op ≠ 6 ∨ !s.canRow tile c then some (· = s)
      else
        let g := s.engine tile
        let r := c.record
        let lanes := s.drainLanes c
        match firstSome (rowStop g.statusView (recAcc64 r)) ((List.range (drainRows r lanes)).map (recAccRow r + ·)) with
        | some x => some (· = s.stopCommand tile c x.1 x.2)
        | none => some (FormsRow tile c (fun h => h.acc = [] ∧ h.status = [] ∧ h.cells = [] ∧ h.bytes = [] ∧ h.vals.map (·.1) = lanes ∧
            ∀ x ∈ h.vals, x.2.2 = (List.range (drainPer r)).flatMap fun j =>
              let q := rfield r 24 7 0 + x.1 * drainPer r + j
              let v := accValue g.accView (recAcc64 r) (recAccRow r + q / 256) (q % 256)
              (accWords (recAcc64 r) 0 0 v.v.toNat v.p).map (·.2)) s)
  | .rowCommit tile hid, s => match (s.engine tile).holds.find? fun h => h.hid == hid with
    | none => some (· = s)
    | some h =>
      if s.now < h.formed + Config.Q || (s.engine tile).drains h then some (· = s)
      else some fun u => EngineChanges tile (fun g =>
          (h.cells.foldl Engine.load { g with acc := h.acc.foldl (fun m w => fput PWord.zero m w.1 w.2) g.acc, status := h.status.foldl (fun m v => fput 0 m v.1 v.2) g.status, holds := g.holds.filter fun x => x.hid != h.hid }).modCmd h.mid
            fun c => { c with done := max c.done (h.row + 1) }) { s with mem := u.mem } u ∧
        (h.bytes = [] → u.mem = s.mem) ∧ ∀ p, h.bytes = [p] → Stored p.ea p.data s { s with mem := u.mem }
  | .mdrainLanding tile hid, s => match (s.engine tile).holds.find? fun h => h.hid == hid with
    | none => some (· = s)
    | some h => match (s.engine tile).cmds.find? fun c => c.mid == h.mid with
      | none => some (· = s)
      | some c =>
        if s.now < h.formed + Config.Q || c.op != 6 then some (· = s)
        else match c.pid with
        | none => some (· = s.commitHold tile h)
        | some p => some fun u => ∃ v, TeamChanges c.uid (fun t => { t with pend := h.vals.foldl (fun ps x => modifyLast (fun q => q.id == p) (fun q => q.arrive x.1 x.2.2 0) ps) t.pend }) s v ∧ u = v.commitHold tile h
  | .commandRetire tile mid, s => match (s.engine tile).cmds.find? fun c => c.mid == mid with
    | none => some (· = s)
    | some c => match (s.engine tile).channel? c.chan with
      | none => some (· = s.modEngine tile fun g => { g with cmds := g.cmds.filter fun x => x.mid != mid })
      | some k =>
        if !s.canRetire tile c then some (· = s)
        else if !c.void && recSink c.record != 0 && c.credited.isNone then
          if recSink c.record != 1 && s.sinkBad tile c.ctx (c.sinkEa tile k) then some (· = s.stopCommand tile c 49 (c.sinkEa tile k))
          else some fun u => ∃ v, Queued tile c.uid c.ctx c.issue (c.sinkEa tile k) (c.sinkAct tile k (s.collectiveMask c.uid)) s v ∧
            EngineChanges tile (fun g => g.modCmd mid fun c => { c with credited := some s.nextId }) v u
        else some fun u => (u.engine tile).cmds = (s.engine tile).cmds.filter (fun x => x.mid != mid) ∧ (∀ k, k ≠ tile → u.engine k = s.engine k) ∧
          u = { s with engines := u.engines, ctxs := if c.void then s.ctxs else (s.progress c.ctx).ctxs }
  | _, _ => none
/-! ### Events of the equivalence engines -/

/-- `u` is `s` with a write of an equivalence engine formed and held (R363): `n` bytes of value `v` at an address. -/
def EqWrites (rid wid va n v : Nat) (p : Bool) (s u : State) : Prop :=
  ∃ h : EqHold, u = { s with eq := { s.eq with holds := s.eq.holds ++ [h] }, nextId := u.nextId } ∧
    h.rid = rid ∧ h.wid = wid ∧ h.va = va ∧ h.n = n ∧ h.v = v ∧ h.p = p ∧ h.result = false ∧ h.formed = s.now

/-- `u` is `s` with a walk at a stage (Table 16-4); a walk that is done holds its result, with what it says of a UNITE's codes (R348, R363). -/
def WalkGoes (w : Walk) (f : Forest) (g : WalkStage) (s u : State) : Prop :=
  u = { s with eq := { s.eq with walks := u.eq.walks, holds := u.eq.holds }, fetched := u.fetched, nextId := u.nextId } ∧
  u.eq.walks = s.eq.walks.map (fun x => if x.wid = w.wid then { w with stage := g } else x) ∧ u.fetched = s.fetched.filter (·.1 != w.wid) ∧
  match g with
  | .done res z => ∃ h : EqHold, u.eq.holds = s.eq.holds ++ [h] ∧ h.engine = f.engine ∧ h.rid = w.rid ∧ h.wid = w.wid ∧ h.n = b2n z ∧ h.v = res ∧ h.p = w.poison ∧ h.result = true ∧ h.formed = s.now
  | _ => u.eq.holds = s.eq.holds

/-- `u` is `s` with one of a walk's finds at its root (Table 16-4): the second find begins, or the walk links, checks or is done. -/
def FindsRoot (w : Walk) (f : Forest) (second : Bool) (root : Nat) (s u : State) : Prop :=
  if second then
    if w.rx = root then WalkGoes { w with ry := root } f (.done (if w.kind = 0 then root else 1) true) s u
    else WalkGoes { w with ry := root } f (if w.kind = 0 then .link else .check) s u
  else if w.kind = 1 then WalkGoes { w with rx := root } f (.done root false) s u
  else WalkGoes { w with rx := root } f (.find true w.y []) s u

/-- `u` is `s` with an engine's write on its way over a link. -/
def WindowWrite (id : Nat) (h : EqHold) (s u : State) : Prop :=
  ∃ y : Net, u = { s with net := s.net ++ [y], nextId := u.nextId, draws := u.draws, serial := u.serial } ∧ y.id = id ∧ y.tile = Config.tiles ∧ y.ctx = h.before.ctx ∧
    y.va = h.va ∧ y.pa = h.pa ∧ y.point = pointOf h.pa ∧ y.act = .write [⟨0, h.va, (toBytes h.n h.v).map (·, h.p)⟩] ∧ s.now ≤ y.due

/-- A request of an engine that has gone a step further. -/
def RequestGoes (rid n : Nat) (s u : State) : Prop :=
  u = { s with eq := { s.eq with reqs := s.eq.reqs.map fun r => if r.rid = rid then { r with progress := n } else r }, fetched := s.fetched.filter (·.1 != rid) }

/-- What the events of the equivalence engines promise of their next state. -/
def forestPromise : Instr → State → Option (State → Prop)
  | .parentRead wid, s => match s.walk? wid with
    | none => some (· = s)
    | some w => match w.stage, s.stepping w with
      | .find second y path, some (r, f) => match s.eqParent f wid y with
        | .error e => some (· = s.walkTrouble w r f e)
        | .ok (p, q) =>
          let w := { w with poison := w.poison || q }
          if p = y then some (if path.isEmpty then FindsRoot w f second y s else WalkGoes w f (.lower second path y) s)
          else some (WalkGoes w f (.find second p (path ++ [y])) s)
      | _, _ => some (· = s)
  | .lowerStep wid, s => match s.walk? wid with
    | none => some (· = s)
    | some w => match w.stage, s.stepping w with
      | .lower second (z :: rest) root, some (r, f) => match s.lower f wid w.rid wid z root w.poison with
        | .error e => some (· = s.walkTrouble w r f e)
        | .ok (_, v) => some fun u => (if rest.isEmpty then FindsRoot w f second root v u else WalkGoes w f (.lower second rest root) v u) ∧
            ∀ p q, s.eqRead f wid (f.parent + 4 * z) 4 = .ok (p, q) → (p ≤ root → v = s) ∧ (root < p → f.marks = [] → EqWrites w.rid wid (f.parent + 4 * z) 4 root w.poison s v)
      | .lower .., some _ => none
      | _, _ => some (· = s)
  | .linkStep wid, s => match s.walk? wid with
    | none => some (· = s)
    | some w => match w.stage, s.stepping w with
      | .link, some (r, f) => match s.linkRoots f wid w.rid wid (max w.rx w.ry) (min w.rx w.ry) w.poison with
        | .error e => some (· = s.walkTrouble w r f e)
        | .ok (none, v) => some fun u => v = s ∧ WalkGoes w f (.find false w.x []) s u
        | .ok (some (n, q), v) => some fun u => WalkGoes { w with poison := w.poison || q } f (.add (min w.rx w.ry) n) v u ∧
            (f.marks = [] → ∃ x, EqWrites w.rid wid (f.parent + 4 * max w.rx w.ry) 4 (min w.rx w.ry) w.poison s x ∧
              v = x.modForest f.fid fun g => { g with classes := (g.classes + 2 ^ 32 - 1) % 2 ^ 32, reserved := g.reserved + if g.marks.isEmpty then 0 else 1 })
      | _, _ => some (· = s)
  | .addStep wid, s => match s.walk? wid with
    | none => some (· = s)
    | some w => match w.stage, s.stepping w with
      | .add x n, some (r, f) => match s.addSize f wid w.rid wid x n w.poison with
        | .error e => some (· = s.walkTrouble w r f e)
        | .ok (some p, v) => some fun u => v = s ∧ WalkGoes w f (.add p n) s u
        | .ok (none, v) => some fun u => WalkGoes w f (.done (min w.rx w.ry) false) v u ∧
            ∀ old q, s.eqRead f wid (f.size + 4 * x) 4 = .ok (old, q) → f.marks = [] → ∃ y, EqWrites w.rid wid (f.size + 4 * x) 4 ((old + n) % 2 ^ 32) (q || w.poison) s y ∧
              v = y.modForest f.fid fun g =>
                let g := { g with reserved := g.reserved - (if g.marks.isEmpty then 0 else 1) }
                if g.maxSize < (old + n) % 2 ^ 32 ∨ ((old + n) % 2 ^ 32 = g.maxSize ∧ x < g.maxRoot) then { g with maxSize := (old + n) % 2 ^ 32, maxRoot := x } else g
      | _, _ => some (· = s)
  | .sameStep wid, s => match s.walk? wid with
    | none => some (· = s)
    | some w => match w.stage, s.stepping w with
      | .check, some (r, f) => match s.eqParent f wid w.rx, s.eqParent f wid w.ry with
        | .ok (p, _), .ok (q, _) => some (WalkGoes w f (if p = w.rx && q = w.ry then .done 0 false else .find false w.x []) s)
        | .error e, _ => some (· = s.walkTrouble w r f e)
        | _, .error e => some (· = s.walkTrouble w r f e)
      | _, _ => some (· = s)
  | .relabelRun rid, s => match s.req? rid with
    | none => some (· = s)
    | some r => match s.acting r with
      | none => some (· = s)
      | some f =>
        if !s.canRelabel r then some (· = s)
        else if r.progress = 0 then match s.relabelLayouts f r with
          | .error e => some (· = s.reqTrouble r e (s.relabelStops r))
          | .ok (d, vs) => some fun u => ∃ n, u = { s with eq := { s.eq with reqs := s.eq.reqs.map fun r => if r.rid = rid then { r with progress := 1, layouts := d :: vs.toList, order := n } else r }, fetched := s.fetched.filter (·.1 != rid), draws := u.draws, serial := u.serial }
        else match r.layouts with
        | [] => some (· = s)
        | d :: vs =>
          if r.progress ≤ f.count then match s.rootOf f rid r.progress (r.progress - 1) [] false with
            | .error e => some (· = s.reqTrouble r e (s.relabelStops r))
            | .ok (root, path, q) => match s.compress f r root q path with
              | .error e => some (· = s.reqTrouble r e (s.relabelStops r))
              | .ok v => some (RequestGoes rid (r.progress + 1) v)
          else if r.progress ≤ 2 * f.count then match s.allRoots f rid (List.range f.count) with
            | .error e => some (· = s.reqTrouble r e (s.relabelStops r))
            | .ok roots =>
              let i := r.progress - 1 - f.count
              let root := ((roots.getD i (i, i, false)).2).1
              if r.field 0 4 4 = 1 && root != i then some (RequestGoes rid (r.progress + 1) s)
              else match s.relabelResult f r vs.head? roots root with
              | .error e => some (· = s.reqTrouble r e (s.relabelStops r))
              | .ok (n, p) => match s.eqPut f rid r.progress (d.unitOf i) d.bytes n p Need.w with
                | .error e => some (· = s.reqTrouble r e (s.relabelStops r))
                | .ok _ => some fun u => ∃ v, EqWrites rid r.progress (d.unitOf i) d.bytes n p s v ∧ RequestGoes rid (r.progress + 1) v u
          else some fun u => ∃ v, Queued Config.tiles r.uid r.ctx r.issue (r.field 24 47 0) (.count (r.field 24 47 0) ⟨1, false⟩) s v ∧ u = (v.reqOver rid f.engine).progress r.ctx
  | .markOperation rid, s => match s.req? rid with
    | none => some (· = s)
    | some r => match s.acting r with
      | none => some (· = s)
      | some f =>
        let done (v u : State) (n : Nat) (g : Forest → Forest) : Prop := ∃ h : EqHold, h.engine = f.engine ∧ h.rid = rid ∧ h.v = n ∧ h.p = false ∧ h.result = true ∧ h.formed = v.now ∧
          u = { v with eq := { v.eq with holds := v.eq.holds ++ [h], forests := v.eq.forests.map (fun x => if x.fid = f.fid then g x else x), reqs := v.eq.reqs.map fun r => if r.rid = rid then { r with progress := 1 } else r }, fetched := v.fetched.filter (·.1 != rid), nextId := u.nextId }
        if r.kind < 4 || r.progress != 0 then some (· = s)
        else if r.kind = 7 then some fun u => ∃ h : EqHold, h.engine = f.engine ∧ h.rid = rid ∧ h.v = f.register ((r.block.headD PWord.zero).w.toNat) ∧ h.p = false ∧ h.result = true ∧ h.formed = s.now ∧
          u = { s with eq := { s.eq with holds := s.eq.holds ++ [h], reqs := s.eq.reqs.map fun r => if r.rid = rid then { r with progress := 1 } else r }, nextId := u.nextId }
        else if r.kind = 4 then
          if 8 ≤ f.marks.length then some (· = s.markStops r 66 0)
          else if f.logCap = 0 then some (· = s.markStops r 62 0)
          else some fun u => done s u (f.marks.length + 1) fun g => { g with marks := (f.logFill, f.classes, f.maxSize, f.maxRoot) :: f.marks }
        else match f.marks with
        | [] => some (· = s.markStops r 66 0)
        | (fill, c, m, q) :: ms =>
          if r.kind = 5 then match s.undoFrom f r fill f.logFill with
            | .error e => some (· = s.reqTrouble r e (s.markStops r))
            | .ok v => some fun u => done v u ms.length fun g => { g with logFill := fill, classes := c, maxSize := m, maxRoot := q, marks := ms }
          else some fun u => done s u ms.length fun g => { g with marks := ms, logFill := if ms.isEmpty then 0 else g.logFill }
  | .eqCommit hid, s => match s.eq.holds.find? fun h => h.hid == hid with
    | none => some (· = s)
    | some h =>
      let gone : State := { s with eq := { s.eq with
        holds := s.eq.holds.filter fun x => x.hid != hid
        forests := if h.rid = 0 ∧ h.n = releaseBytes then s.eq.forests.filter fun x => x.fid != h.before.fid else s.eq.forests } }
      if !s.canCommit h then some (· = s)
      else if h.result then match s.req? h.rid with
        | none => some (· = gone)
        | some r => match r.pid with
          | some pid => some fun u => ∃ v, TeamChanges r.uid (fun t => { t with pend := modifyLast (fun p => p.id == pid) (h.arrives r.kind (((s.walk? h.wid).map (·.lane)).getD 0)) t.pend }) gone v ∧
              u = match s.walk? h.wid with
                | some x => if r.kind ≤ 2 then v.walkOver x h.before else v.reqOver r.rid h.engine
                | none => v.reqOver r.rid h.engine
          | none => none
      else if isWindow h.pa && !isScratch h.va then some fun u => ∃ id v, WindowWrite id h gone v ∧
        u = { v with eq := { v.eq with reqs := v.eq.reqs.map fun r => if r.rid = h.rid ∧ r.kind = 3 then { r with results := r.results ++ [id] } else r } }
      else some (Stored h.pa ((toBytes h.n h.v).map (·, h.p)) gone)
  | .forestRelease fid, s => match s.forest? fid with
    | none => some (· = s)
    | some f =>
      if !s.canDrop f then some (· = s)
      else some fun u => ∃ h : EqHold, u = { s with eq := { s.eq with holds := s.eq.holds ++ [h] }, nextId := u.nextId } ∧
        h.engine = f.engine ∧ h.rid = 0 ∧ h.va = f.va + 20 ∧ h.pa = f.key + 20 ∧ h.n = releaseBytes ∧ h.p = false ∧ h.result = false ∧ h.formed = s.now ∧
        h.v = ofBytes (toBytes 4 f.classes ++ toBytes 8 f.log ++ toBytes 4 f.logCap ++ toBytes 4 f.logFill ++ toBytes 4 f.maxSize ++ toBytes 4 f.maxRoot ++ toBytes 4 0)
  | _, _ => none
/-! ### Records, damage and strikes -/

/-- `v` is `s` with a record written into the next slot of its ring (R180, R325, R382): its bytes with the sequence number, the ring's tail one further. -/
structure RecordWritten (p : Posting) (bytes : List Byte) (s v : State) : Prop where
  stored : Stored ((s.recordRing p).base + 64 * ((s.recordRing p).tail % (s.recordRing p).slots)) (bytes.map (·, false)) s { s with mem := v.mem }
  posting : v.postings = s.postings.filter (·.id != p.id) ++ [{ p with bytes := bytes, stage := 1, index := (s.recordRing p).tail % (s.recordRing p).slots }]
  ring : (v.recordRing p).tail = ((s.recordRing p).tail + 1) % 2 ^ 32 ∧ (v.recordRing p).head = (s.recordRing p).head ∧ (v.recordRing p).base = (s.recordRing p).base ∧
    (v.recordRing p).slots = (s.recordRing p).slots
  rest : v = { s with
    mem := v.mem, postings := v.postings, ctxs := v.ctxs, tables := { s.tables with errTail := v.tables.errTail }, cur := v.cur, teams := v.teams
    disp := { s.disp with images := v.disp.images }, faults := v.faults }

/-- Posting a record. -/
def posts (id : Nat) (k : RecordKind) (s : State) : State → Prop := match s.posting? id k with
  | none => (· = s)
  | some p =>
    if s.canWrite p then fun u => ∃ v, RecordWritten p (s.recordBytes p) s v ∧ u = v.tellRecord { p with bytes := s.recordBytes p, stage := 1, index := (s.recordRing p).tail % (s.recordRing p).slots }
    else (· = s.tellRecord p)

/-- What the events of records, damaged words and strikes promise of their next state. -/
def recordPromise : Instr → State → Option (State → Prop)
  | .trapRecordPost id, s => some (posts id .trap s)
  | .faultRecordPost id, s => some (posts id .fault s)
  | .errorRecordPost id, s => some (posts id .error s)
  | .arrayRebuild tile kind row address other, s => match other with
    | some (row', address') => some fun u =>
      let a := s.lose tile kind address
      let b := a.1.lose tile kind address'
      u = if a.2.alike b.2 then b.1.postLost row a.2 else (b.1.postLost row a.2).postLost row' b.2
    | none =>
      if kind < 10 then some fun u => ∃ n d se, n ≤ s.now + 288 ∧
        u = ({ s with tables := { s.tables with rebuilds := ⟨tile, kind, address, n⟩ :: s.tables.rebuilds.filter fun x => decide (s.now < x.until_) }, draws := d, serial := se } : State).errorRecord
          none 89 (if kind = 9 then 5 else 6) (if kind = 9 then homeOf address else tile * 2) 0 row 0
      else if (s.entryTeam address).isSome then some (· = (s.lose tile kind address).1.postLost row (s.lose tile kind address).2)
      else some fun u => (∀ a, u.mem.get a = s.mem.get a) ∧ ∀ a, u.mem.poisoned a = if a / 4 = address / 4 then true else s.mem.poisoned a
  | .strikeReport time sensor area, s => if s.now < time ∨ time + Config.S < s.now then some (· = s) else match sensor with
    | 0 => some (· = s.strikeTile area (time - Config.U))
    | 1 => some fun u =>
      let v := s.strikeTile area (time - Config.U)
      (∀ h ∈ v.homeHolds, ((h.home ∉ homesUnder area ∨ h.formed < time - Config.U) → h ∈ u.homeHolds) ∧
        (h.home ∈ homesUnder area → time - Config.U ≤ h.formed → { h with formed := s.now } ∈ u.homeHolds)) ∧
      u = { v with eq := v.eq.struck (area / 8) (time - Config.U) s.now, homeHolds := u.homeHolds }
    | _ => some fun u => u = { s with hub := { s.hub with hold := u.hub.hold } } ∧
      ∀ h ∈ s.hub.hold, (h.formed < time - Config.U → h ∈ u.hub.hold) ∧ (time - Config.U ≤ h.formed → { h with formed := s.now } ∈ u.hub.hold)
  | _, _ => none

/-! ### Events of the dispatcher -/

/-- What the events of the dispatcher promise of their next state. -/
def dispatcherPromise : Instr → State → Option (State → Prop)
  | .admission wid tile, s => match s.work? wid with
    | none => some (· = s)
    | some w =>
      if !w.waits || s.frozen w.ctx || (s.waiting.takeWhile fun v => v.id != wid).any (fun v => (s.admitNext v tile).isSome) then some (· = s)
      else match s.admitNext w tile with
      | none => some (· = s.askArea w)
      | some v => match w.kind with
        | .task .. => some (· = (v.setHamper ⟨w.cluster, w.hamper, [], 0, false⟩).drainPools w.cluster 64)
        | .grid => some fun u => u = v ∧ u.work? wid = some { w with
            next := min w.count ((w.next / 2 ^ w.profile.w 2 + 1) * 2 ^ w.profile.w 2)
            live := w.live + (min w.count ((w.next / 2 ^ w.profile.w 2 + 1) * 2 ^ w.profile.w 2) - w.next) * w.profile.teamsPer }
        | .job _ _ count slots => some fun u => u = v ∧ u.work? wid = some { w with
            next := w.next + chunkSize w.profile.width slots (count - w.next), live := w.live + 1
            slotsUsed := w.slotsUsed ++ [((List.range slots).find? fun i => !w.slotsUsed.contains i).getD 0] }
  | .teamEnd uid, s => match s.team? uid with
    | none => some (· = s)
    | some t =>
      if !s.canEnd t then some (· = s)
      else some fun u => u.teams = s.teams.filter (fun x => x.id.uid != t.id.uid) ∧ u.cur = (if s.cur.id.uid = t.id.uid then Team.empty else s.cur) ∧ u.coolbox = s.coolbox ∧ u.now = s.now
  | .hamperTimer cluster hamper, s => match s.disp.hampers.find? fun h => h.cluster == cluster && h.index == hamper && !h.formed && !h.tasks.isEmpty with
    | none => some (· = s)
    | some h =>
      if s.now < h.since + (((h.tasks.head?).bind fun t => s.ctx? t.ctx).map (·.htimer)).getD 2048 then some (· = s)
      else match h.tasks with
      | [] => none
      | t :: _ => match s.taskKernel t with
        | none => some (· = s)
        | some (k, n) => some fun u => ∃ w : Work, w.id = s.nextId ∧ w.ctx = t.ctx ∧ w.kind = .task (h.tasks.map fun x => x.args.take n) t.team t.depth ∧ w.profile = taskProfile k t ∧
            w.credits = h.tasks.map (fun x => (x.counter, x.sync)) ∧ w.count = 1 ∧ w.next = 0 ∧ w.cluster = h.cluster ∧ w.hamper = h.index ∧
            u = { s with nextId := s.nextId + 1, disp := { s.disp with works := s.disp.works ++ [w], hampers := { h with formed := true } :: s.disp.hampers.filter fun x => !(x.cluster == h.cluster && x.index == h.index) } }
  | .teamEviction uid, s => match s.team? uid with
    | none => some (· = s)
    | some t => match s.toEvict (t.id.tile / 8) with
      | none => some (· = s)
      | some v => if v.id.uid = uid then some (TeamChanges uid (fun t => { t with sched := { t.sched with preempt := true, evict := true } }) s) else some (· = s)
  | .readmission gid tile, s => match s.group? gid with
    | none => some (· = s)
    | some g => match s.readmit g tile with
      | none => some (· = s)
      | some v => some (· = v)
  | .timetableSlot entry, s =>
    let e := s.timeEntry entry
    if !e.valid || !s.clockRuns || s.deviceTime < e.next || e.period = 0 then some (· = s)
    else some fun u => ∃ v : State, v.timeEntry entry = { e with next := (s.deviceTime / (1000 * e.period) + 1) * (1000 * e.period) } ∧ (∀ k, k ≠ entry → v.timeEntry k = s.timeEntry k) ∧
      v = { s with disp := { s.disp with timetable := v.disp.timetable } } ∧
      u = if s.frozen e.ctx then v
        else if !s.running e then v.startEntry entry
        else if e.rule = 1 then (v.overrun entry e.rule false e.ctx).modEntry entry fun e => { e with deferred := true }
        else if e.rule = 2 then ((v.overrun entry e.rule false e.ctx).killWork (e.last.getD 0)).startEntry entry
        else v.overrun entry e.rule false e.ctx
  | .deferredLaunch entry, s =>
    if (s.timeEntry entry).deferred && !s.running (s.timeEntry entry) then some fun u => ∃ v : State, v.timeEntry entry = { s.timeEntry entry with deferred := false } ∧
      (∀ k, k ≠ entry → v.timeEntry k = s.timeEntry k) ∧ v = { s with disp := { s.disp with timetable := v.disp.timetable } } ∧ u = v.startEntry entry
    else some (· = s)
  | .watchdog ctx, s => match s.ctx? ctx with
    | none => some (· = s)
    | some x =>
      if !s.windowOver x then some (· = s)
      else match s.stuckTeams ctx with
      | [] => some (· = s)
      | t :: ts => some fun u =>
        let waits := (t :: ts).all s.externalWait
        u.ctx? ctx = some { x with measuring := false, external := waits, fired := x.fired || !waits } ∧ (∀ k, k ≠ ctx → u.ctx? k = s.ctx? k) ∧
        (if waits then u.postings = s.postings else ∃ p : Posting, u.postings = s.postings ++ [p] ∧ p.kind = .trap ∧ p.ctx = some ctx ∧
          p.bytes = trapRecord t 22 (((t.current).map (·.pc)).getD 0) s.now 0 0 (BitVec.ofNat 64 t.sched.stallCause) false) ∧
        u = { s with ctxs := u.ctxs, postings := u.postings, nextId := u.nextId }
  | .bindingUpdate id, s => match s.net.find? (·.id == id) with
    | none => some (· = s)
    | some x =>
      let answers (v u : State) (cause : Option Nat) (base : Nat) (mask : LaneMask) : Prop := ∃ (y w : State) (d : Nat),
        y = { v with ctxs := y.ctxs, draws := y.draws, serial := y.serial } ∧ (∀ k, k ≠ x.ctx → y.ctx? k = v.ctx? k) ∧
        (∀ c, v.ctx? x.ctx = some c → ∃ old, y.ctx? x.ctx = some { c with bindOld := old }) ∧
        (match cause with
        | none => w = y
        | some c => TeamChanges x.uid (fun t => { t with deferred := joinDeferred ⟨c, x.pc, x.issue, x.word, mask, (lanesOf 1024 mask).map fun l => (l, BitVec.ofNat 64 base), false⟩ t.deferred }) y w) ∧
        u = { w with net := (s.net.filter fun y => y.id != id) ++ [{ x with due := s.now + d, act := .ack none [] 0 none base 0 }] }
      match x.act with
      | .bind base pages obj m =>
        if (s.bindings x.ctx).any fun e => e.2.1 == base && e.2.2.1 == 4096 * pages && e.2.2.2 == obj then some fun u => answers s u none base m
        else if (s.bindings x.ctx).any fun e => rangesMeet base (4096 * pages) e.2.1 e.2.2.1 then some fun u => answers s u (some 33) base m
        else match (List.range 1024).find? fun i => (s.binding x.ctx i).isNone with
        | none => some fun u => answers s u (some 34) base m
        | some i => some fun u => ∃ v, v = s.setBinding x.ctx i (2 ^ 127 + obj * 2 ^ 64 + (pages - 1) * 2 ^ 36 + base / 4096) ∧ answers v u none base m
      | .unbind base m => match (s.bindings x.ctx).find? fun e => e.2.1 == base with
        | none => some fun u => answers s u (some 35) base m
        | some e => some fun u => answers (s.setBinding x.ctx e.1 0) u none base m
      | _ => some (· = s)
  | _, _ => none
/-! ### What Ranger writes and reads -/

/-- `u` is `s` with a slot's window register changed by `f`, and no other. -/
structure WindowChanges (key : Nat) (f : Window → Window) (s u : State) : Prop where
  window : u.window key = f (s.window key)
  others : ∀ k, k ≠ key → u.window k = s.window k
  rest : u = { s with tables := { s.tables with slotWindows := u.tables.slotWindows } }

/-- A refused command or write changes nothing but STATUS.refused (R182). -/
def Refuses (key : Nat) : State → State → Prop := WindowChanges key fun w => { w with refused := true }

/-- A team all of whose lanes have ended, with nothing that it waits for (R182); the traps of its engine work stay to be posted (R246, R273). -/
def Team.killed (t : Team) : Team :=
  { t with
    arch := { t.arch with groups := [], moved := [], rep := none, mac := none, only := none }
    pend := t.pend.filter fun p => !p.raised
    links := [], shadow := [], status := .running, park := none, wait := none
    deferred := t.deferred.filter fun d => !d.replay && d.cause != 11
    grants := [], wants := none, fence := none
    sched := { t.sched with stallCause := 0, parked := [] } }

/-- `u` is `s` without a fault that a reply has answered (R326). -/
def State.answered (s : State) (f : ParkedFault) : State := { s with faults := s.faults.filter fun x => x.id != f.id }

/-- A team that stopped on faults goes on, unless another of them is left (R326). -/
def Team.wakes (more : Bool) (t : Team) : Team :=
  if t.status = .faultParked && !more then { t with status := .running, sched := { t.sched with stallCause := 0 } } else t

/-- The answer to a fault (R326, R327): a reply that names none is refused; one for a pre-empted team is kept; else `act` says what happens. -/
def replies (tile slot seq r : Nat) (s : State) (act : ParkedFault → State → Prop) : State → Prop := match s.faultAt tile slot seq with
  | none => Refuses (tile * 64 + slot) s
  | some f =>
    if f.uid = 0 then (· = s.answered f)
    else if s.disp.images.any fun t => t.id.uid == f.uid then fun u => u = { s with faults := u.faults } ∧ u.faults = s.faults.map fun x => if x.id = f.id then { x with reply := r } else x
    else act f

/-- Writing control space (R381): a table entry, a route, a context's register, a register of a slot's window; a read-only one ignores the write. `new` is what the
register's eight bytes hold with the bytes written. (That a window's zeroing leaves other bytes is said of a memory in its canonical form.) -/
@[irreducible] def registerRule (r : Reg17) (new : Dword) (s u : State) : Prop :=
  match r with
  | .tile t off =>
    let e := if winScope new = 2 then new &&& ~~~(0xFFF00000000 : Dword) else new
    let inside (k : Nat) : Prop := winValid e = true ∧ sliceAddr t (winBase e) ≤ k ∧ k < sliceAddr t (winBase e) + winSize e ∧ s.lastHeld t (k - sliceAddr t 0) ≠ some (winCtx e)
    if off < 0x400 then fget 0 u.tables.windows (t * 128 + off / 8) = e ∧ (∀ k, k ≠ t * 128 + off / 8 → fget 0 u.tables.windows k = fget 0 s.tables.windows k) ∧
      u = { s with tables := { s.tables with windows := u.tables.windows, zones := u.tables.zones }, mem := { s.mem with bytes := u.mem.bytes, poison := u.mem.poison } } ∧
      (∀ k, inside k → u.mem.get k = Mem.unlisted) ∧ (s.mem.wf = true → ∀ k, ¬inside k → u.mem.get k = s.mem.get k)
    else if 0x800 ≤ off ∧ off < 0xC00 ∧ off % 16 = 8 then u = s.writeQueue t ((off - 0x800) / 16) new
    else u = s
  | .port p off =>
    if off = 8 ∧ 10 ≤ new.toNat ∧ new.toNat ≤ 10000 then u.port p = { s.port p with timeout := new.toNat } ∧ (∀ k, k ≠ p → u.port k = s.port k) ∧ u = { s with hub := { s.hub with ports := u.hub.ports } }
    else if off = 0 then u.port p = { s.port p with retrains := new.toNat % 256 } ∧ (∀ k, k ≠ p → u.port k = s.port k) ∧ u = { s with hub := { s.hub with ports := u.hub.ports } }
    else u = s
  | .route i => fget 0 u.tables.routes i = new &&& 0x8000003FFFFFFFFF ∧ (∀ k, k ≠ i → fget 0 u.tables.routes k = fget 0 s.tables.routes k) ∧ u = { s with tables := { s.tables with routes := u.tables.routes } }
  | .errors off => u = { s with tables := { s.tables with errBase := if off = 0 then new.toNat else s.tables.errBase, errHead := if off = 16 then new.toNat % 2 ^ 32 else s.tables.errHead } }
  | .clock off => if off = 24 ∧ !s.hub.clock.locked then u = { s with hub := { s.hub with clock := { s.hub.clock with mode := bit new.toNat 0 } } } else u = s
  | .slot key off => (off = 0x18 → WindowChanges key (fun w => { w with result := new }) s u) ∧ (off = 0x20 → WindowChanges key (fun w => { w with issueA := new }) s u) ∧
    (off = 0x28 → WindowChanges key (fun w => { w with issueB := new }) s u)
  | .context c off => ∀ x, s.ctx? c = some x → off < 0x800 → (∀ k, k ≠ c → u.ctx? k = s.ctx? k) ∧ u = { s with ctxs := u.ctxs } ∧
    (off = 0x00 → u.ctx? c = some { x with root := new &&& 0x0000FFFFFFFFF001 }) ∧
    (off = 0x08 → u.ctx? c = some (if new.toNat % 256 = 0 || s.hub.trust.attested then { x with tag := new.toNat % 256 } else x)) ∧
    (off = 0x18 → u.ctx? c = some { x with thread := new.toNat % 64 }) ∧
    (off = 0x28 → u.ctx? c = some { x with bindBase := new.toNat / 16384 * 16384 }) ∧
    (off = 0x30 → u.ctx? c = some { x with grant := new &&& 0xFFFFFFFF00001F7F }) ∧
    (off = 0x40 → u.ctx? c = some { x with trapBase := new.toNat }) ∧
    (off = 0x50 → u.ctx? c = some { x with trapHead := new.toNat % 2 ^ 32 }) ∧
    (off = 0x60 → u.ctx? c = some { x with faultBase := new.toNat }) ∧
    (off = 0x70 → u.ctx? c = some { x with faultHead := new.toNat % 2 ^ 32 })
  | .other => u = s

/-- What Ranger's commands, replies, writes and reads promise of their next state. -/
def rangerPromise : Instr → State → Option (State → Prop)
  | .resume tile slot, s => match s.teamAt tile slot with
    | none => some (Refuses (tile * 64 + slot) s)
    | some t => match t.park with
      | none => some (Refuses (tile * 64 + slot) s)
      | some p =>
        if t.status != .trapParked then some (Refuses (tile * 64 + slot) s)
        else some fun u => ∃ v, v = (if p.replay then (s.resume t.id.uid).redoPends t.id.uid else s.resume t.id.uid).settleTrap t p ∧ WindowChanges t.slotKey (fun w => { w with resumePc := p.resumePc.setWidth 64 }) v u ∧
          (s.team? t.id.uid = some t → TeamChanges t.id.uid (fun x => x.resumed p (s.window t.slotKey).result) s (s.resume t.id.uid) ∧
            (t.resumed p (s.window t.slotKey).result).status = .running ∧ (t.resumed p (s.window t.slotKey).result).park = none)
  | .redirect tile slot, s => match s.teamAt tile slot with
    | none => some (Refuses (tile * 64 + slot) s)
    | some t => match t.park with
      | none => some (Refuses (tile * 64 + slot) s)
      | some p =>
        if t.redirectRefused p then some (Refuses (tile * 64 + slot) s)
        else some fun u => ∃ v, TeamChanges t.id.uid (fun t => t.redirect p) (s.dropRaised t.id.uid) v ∧ u = v.settleTrap t p ∧
          (t.redirect p).status = .running ∧ (t.redirect p).park = none ∧ (t.redirect p).sys.tcause = BitVec.ofNat 7 p.cause ∧ (t.redirect p).sys.tpc = p.pc ∧ (t.redirect p).sys.tlane = p.mask
  | .killTeam tile slot, s => match s.teamAt tile slot with
    | none => some (· = s)
    | some t => if s.team? t.id.uid = some t then some fun u => ∃ v w : State, v.teams = s.teams ∧ v.cur = s.cur ∧ v.disp = s.disp ∧ v.coolbox = s.coolbox ∧
          v.faults = s.faults.filter (fun f => !(f.uid == t.id.uid && (f.stops || f.unit == 3 || f.unit == 7))) ∧
        TeamChanges t.id.uid Team.killed v w ∧ u = match t.park with
          | some p => w.settleTrap t p
          | none => w
      else none
  | .killContext tile slot, s => match s.teamAt tile slot with
    | none => some (· = s)
    | some t => some fun u => (∀ x ∈ u.teams, x.id.ctx ≠ t.id.ctx) ∧ (∀ x ∈ u.copies, x.ctx ≠ t.id.ctx) ∧ (∀ f ∈ u.faults, f.ctx ≠ t.id.ctx) ∧ (∀ r ∈ u.eq.reqs, r.ctx ≠ t.id.ctx) ∧
        (∀ w ∈ u.disp.works, w.ctx ≠ t.id.ctx) ∧ (∀ g ∈ u.disp.groups, g.ctx ≠ t.id.ctx) ∧ (∀ x ∈ u.disp.images, x.id.ctx ≠ t.id.ctx)
  | .resumepcWrite tile slot v, s =>
    if bits v.toNat 1 0 != 0 || bits v.toNat 63 48 != 0 then some (Refuses (tile * 64 + slot) s)
    else some fun u => ∃ w, WindowChanges (tile * 64 + slot) (fun w => { w with resumePc := v }) s w ∧ match s.teamAt tile slot with
      | none => u = w
      | some t => TeamChanges t.id.uid (fun t => match t.park with
        | none => t
        | some p => { t with
            park := some { p with resumePc := v.extractLsb' 0 48, replay := false }
            arch := { t.arch with only := none, rep := if p.inRep then none else t.arch.rep, mac := if p.inMac then none else t.arch.mac } })
          (if t.park.any (·.replay) then w.dropRaised t.id.uid else w) u
  | .replay tile slot seq, s => some (replies tile slot seq 1 s fun f u =>
      if f.unit = 7 then TeamChanges f.uid (fun t => { t with sched := { t.sched with parked := t.sched.parked.filter (· != f.pc) } }) (s.answered f) u
      else ∃ v, (if f.stops then TeamChanges f.uid (Team.wakes ((s.answered f).faults.any fun x => x.uid == f.uid && x.stops)) (s.answered f) v else v = s.answered f) ∧
        u = if f.unit = 3 ∨ f.item = 0 then v else v.unpark f.item)
  | .unresolvable tile slot seq, s => some (replies tile slot seq 2 s fun f u =>
      let eas := (lanesOf 1024 f.mask).map fun l => (l, BitVec.ofNat 64 f.va)
      if f.unit = 0 ∧ f.item = 0 then u = (s.answered f).takeTrap f.uid f.pc ⟨24, f.mask, f.eas, f.word, false, f.pc, f.issue, f.pc, none, false⟩
      else if f.unit = 7 then TeamChanges f.uid (fun t => { t with deferred := joinDeferred ⟨11, f.pc, f.issue, 0, f.mask, eas, false⟩ t.deferred }) (s.answered f) u
      else if f.unit = 3 ∧ !f.stops then TeamChanges f.uid (fun t => { t with deferred := joinDeferred ⟨13, f.pc, f.issue, f.word, f.mask, eas, false⟩ t.deferred }) (s.answered f) u
      else u = s.unresolved f)
  | .preempt tile slot v, s => match s.teamAt tile slot with
    | none => some (· = s)
    | some t => if v = 1 then some (TeamChanges t.id.uid (fun t => { t with sched := { t.sched with preempt := true } }) s) else some (· = s)
  | .queueEntryWrite tile entry hi _, s => some fun u =>
      let v := hi.toNat
      let q := s.queue tile entry
      let base := bits v 15 0 * 16
      let size := bits v 27 16
      u.queue tile entry = ⟨bit v 63 && s.ringOk tile (bits v 61 45) (bits v 29 28) base (4 * (size + 1)), bit v 62, bits v 61 45, bits v 44 30, bits v 29 28, base,
        if q.valid && q.ring.size = size && q.base = base then q.ring else ⟨size, 0, 0, 0, 0, [], [], [], []⟩⟩ ∧
      (∀ k, k ≠ tile * 64 + entry → fget TileQueue.none u.tables.queues k = fget TileQueue.none s.tables.queues k) ∧ u = { s with tables := { s.tables with queues := u.tables.queues } }
  | .clkmodeWrite v, s => some fun u => u = if s.hub.clock.locked then s else { s with hub := { s.hub with clock := { s.hub.clock with mode := bit v.toNat 0 } } }
  | .notifyRead j, s => some fun u =>
      u.out = s.out ++ .value (0x5C0 + j * 4096) (BitVec.ofNat 64 (s.thread j).notify) :: (s.thread j).drained.map (fun w => .value (0x5C2 + j * 4096) (w.setWidth 64)) ∧
      (u.thread j).notify = 0 ∧ (∀ k, k ≠ j → u.thread k = s.thread k) ∧ u = { s with out := u.out, hub := { s.hub with threads := u.hub.threads } }
  | .registerWrite pa n v, s => if isControl pa then some (registerRule (regOf pa) (s.written pa n v) s) else none
  | .rangerLoadStore pa n store v, s =>
    if isControl pa then
      if store then some (registerRule (regOf pa) (s.written pa n v) s)
      else some fun u => u = { s with out := s.out ++ [.value pa ((s.controlReg pa >>> (pa % 8 * 8)) &&& BitVec.ofNat 64 (2 ^ (8 * n) - 1))] }
    else match spaceOf pa with
    | .none => none
    | .hbm | .cxl => if store then some (Stored pa ((toBytes n v.toNat).map (·, false)) s) else some fun u => u = { s with out := s.out ++ [.value pa (BitVec.ofNat 64 (s.mem.nat pa n))] }
    | .host | .peer => some fun u => ∃ y : Net, y.act = (if store then .write [⟨0, pa, (toBytes n v.toNat).map (·, false)⟩] else .object 0 0 pa n false) ∧ y.va = pa ∧ y.pa = pa ∧ s.now ≤ y.due ∧
        u = { s with net := s.net ++ [y], draws := u.draws, serial := u.serial, nextId := u.nextId }
  | _, _ => none
/-! ### What comes over the links -/

/-- `u` is `s` without the request outstanding on a port with a tag (R388). -/
def State.settledTag (s : State) (port tag : Nat) : State :=
  { s with hub := { s.hub with outstanding := s.hub.outstanding.filter fun q => !(q.port == port && q.tag == tag) } }

/-- The request outstanding on a port with a tag. -/
def State.outstanding? (s : State) (port tag : Nat) : Option Outstanding := s.hub.outstanding.find? fun o => o.port == port && o.tag == tag

/-- The request `x` fails with a cause; an instruction fetch that fails parks its team when it is taken up (R246, R387). -/
def Fails (x : Net) (cause : Nat) (s u : State) : Prop := match x.act with
  | .fetch owner _ => Answered x 0 false (.ack none [] 0 none 0 0) { s with fetched := s.fetched ++ [(owner, x.pa, cause)] } u
  | _ => Failed x cause s u

/-- Requests fail one after the other. -/
def FailEach (cause : Nat) : List Net → State → State → Prop
  | [], s, u => u = s
  | x :: xs, s, u => ∃ v, Fails x cause s v ∧ FailEach cause xs v u

/-- `u` is `s` with one more message in the hub's hold (R438). -/
def Leaves (m : Out) (s u : State) : Prop := ∃ h : HubHold, h.msg = m ∧ h.formed = s.now ∧ u = { s with hub := { s.hub with hold := s.hub.hold ++ [h] }, nextId := s.nextId + 1 }

/-- `u` is `s` with one more request on its way to its home: one that came in by a port and is answered there (R391). -/
def Enters (port tag op ctx va pa : Nat) (act : Act) (s u : State) : Prop :=
  ∃ y : Net, u = { s with net := s.net ++ [y], draws := u.draws, serial := u.serial, nextId := s.nextId + 1 } ∧ y.act = act ∧ y.tile = 1024 + port ∧ y.issue = tag ∧
    y.word = BitVec.ofNat 32 op ∧ y.ctx = ctx ∧ y.va = va ∧ y.pa = pa ∧ y.point = pointOf pa ∧ s.now ≤ y.due

/-- `u` is `s` with a port changed by `f`, and no other. -/
structure PortChanges (p : Nat) (f : Port → Port) (s u : State) : Prop where
  port : u.port p = f (s.port p)
  others : ∀ k, k ≠ p → u.port k = s.port k
  rest : u = { s with hub := { s.hub with ports := u.hub.ports } }

/-- What a port is after bring-up (R385): one failed wavelength takes the spare. -/
def Port.trained (p : Port) (failed : Nat) (spareOk : Bool) : Port :=
  match (List.range 8).filter fun i => bit failed i with
  | [] => { p with state := 4, failed := 0, spare := false, spareBad := !spareOk, replaced := 0 }
  | [i] => if spareOk then { p with state := 4, failed := BitVec.ofNat 8 failed, spare := true, spareBad := false, replaced := i }
    else { p with state := 5, failed := BitVec.ofNat 8 failed, spareBad := true }
  | _ => { p with state := 5, failed := BitVec.ofNat 8 failed, spareBad := !spareOk }

/-- What the messages of the links and what befalls their ports promise of the next state. -/
def linkPromise : Instr → State → Option (State → Prop)
  | .linkRead port tag ctx va n demand, s =>
    if badHeader demand.op demand.mbz va then some (Leaves (.flit port tag 5 va [] 0 false) s)
    else match s.inboundPa ctx va Need.r with
    | .ok pa ef _ => some (if ef && !demand.demand then Leaves (.flit port tag 4 va [] 0 false) s else Enters port tag 2 (ctx.getD 0) va pa (.object 0 0 va n false) s)
    | _ => some (Leaves (.flit port tag 5 va [] 0 false) s)
  | .linkWrite port tag ctx va bytes poison, s =>
    if badHeader 1 poison.mbz va then some (Leaves (.flit port tag 5 va [] 0 false) s)
    else match s.inboundPa ctx va Need.w with
    | .ok pa _ _ => some (Enters port tag 3 (ctx.getD 0) va pa (.write [⟨0, va, payloadBytes bytes poison.poison⟩]) s)
    | _ => some (Leaves (.flit port tag 5 va [] 0 false) s)
  | .linkAtomic port tag pa op w x y, s =>
    if badHeader 6 w.mbz pa then some (Leaves (.flit port tag 5 pa [] 0 false) s)
    else match s.inboundPa none pa Need.rw with
    | .ok q _ _ => some (Enters port tag 7 0 q q (.atomic none (linkOp op w.width w.mode) ⟨0, q, ⟨x.v, x.p⟩, ⟨y.v, y.p⟩⟩) s)
    | _ => some (Leaves (.flit port tag 5 pa [] 0 false) s)
  | .readData port tag bytes poison, s => match s.outstanding? port tag with
    | none => some (· = s)
    | some o => match o.item.act with
      | .pair _ _ n .. => accessRule o.item
          (((s.settledTag port tag).memStore o.item.pa ((payloadBytes bytes poison).take n)).memStore (scaleAddr o.item.pa n) (((payloadBytes bytes poison).drop n).take 1))
      | _ =>
        let v := (s.settledTag port tag).memStore o.item.base (payloadBytes bytes poison)
        (accessRule o.item v).map fun P u => Stored o.item.base (payloadBytes bytes poison) (s.settledTag port tag) v ∧ P u
  | .writeAcknowledgement port tag, s => match s.outstanding? port tag with
    | none => some (· = s)
    | some o => accessRule o.item (s.settledTag port tag)
  | .refused port tag, s => match s.outstanding? port tag with
    | none => some (· = s)
    | some o => some (if o.demand then Fails o.item 37 (s.settledTag port tag)
      else fun u => u = { s.settledTag port tag with net := s.net.filter fun y => y.id != o.item.id })
  | .errorResponse port tag, s => match s.outstanding? port tag with
    | none => some (· = s)
    | some o => some (Fails o.item 37 (s.settledTag port tag))
  | .atomicResult port tag v, s => match s.outstanding? port tag with
    | none => some (· = s)
    | some o => match o.item.act with
      | .atomic pid op r => some (Answered o.item 0 false (.ack pid [(r.lane, loadedWords false (payloadBytes (toBytes op.width v.v.toNat) v.poison))] v.conds none r.ea op.width) (s.settledTag port tag))
      | _ => some (Answered o.item 0 false (.ack none [] 0 none 0 0) (s.settledTag port tag))
  | .hostTimeout port tag, s => match s.outstanding? port tag with
    | none => some (· = s)
    | some o =>
      if s.wallTime < o.time + 1000 * (s.port port).timeout then some (· = s)
      else some (Fails o.item (if spaceOf o.item.pa = .host then 38 else 37) (s.settledTag port tag))
  | .hubHoldRelease id, s => match s.hub.hold.find? (·.id == id) with
    | none => some (· = s)
    | some h => some fun u => u = if s.now < h.formed + Config.Q then s else { s with hub := { s.hub with hold := s.hub.hold.filter (·.id != id) }, out := s.out ++ [h.msg] }
  | .portBringUp port peer, s =>
    if port < 384 then
      if (s.port port).state = 0 ∨ (s.port port).state = 5 then some (PortChanges port (fun p => { p with state := 3, peer := peer }) s) else some (PortChanges port id s)
    else some fun u => (∀ k, k ∈ u.hub.cxlDown ↔ k ∈ s.hub.cxlDown ∧ k ≠ port - 384) ∧ u = { s with hub := { s.hub with cxlDown := u.hub.cxlDown } }
  | .lossOfLock port wave, s =>
    if (s.port port).state = 4 then some (PortChanges port (fun p => { p with pause := true, lost := wave, retrains := min 255 (p.retrains + 1) }) s) else some (· = s)
  | .trainingDone port failed spareOk, s =>
    let p := s.port port
    if p.state = 3 then some (PortChanges port (·.trained failed spareOk) s)
    else if p.state = 4 ∧ p.pause then
      if p.spare ∨ (p.spareBad ∧ !spareOk) then
        some fun u => ∃ v w, PortChanges port (fun p => { p with pause := false, spareBad := p.spareBad && !spareOk, state := 5, failed := setBits p.failed [p.lost] true }) s v ∧
          w = { v with hub := { v.hub with outstanding := s.hub.outstanding.filter (·.port != port) } } ∧
          FailEach 37 ((s.hub.outstanding.filter (·.port == port)).map (·.item)) w u
      else some (PortChanges port (fun p => { p with pause := false, spareBad := false, spare := true, replaced := p.lost, failed := setBits p.failed [p.lost] true }) s)
    else some (· = s)
  | .backInvalidate pa, s => some (Leaves (.snoop pa) s)
  | .cxlFailure port, s => some fun u => ∃ v, (∀ k, k ∈ v.hub.cxlDown ↔ k ∈ s.hub.cxlDown ∨ k = port) ∧ v = { s with hub := { s.hub with cxlDown := v.hub.cxlDown } } ∧
      FailEach 36 (s.net.filter fun x => !x.act.isReply && v.cxlFailed x.pa) v u
  | _, _ => none
/-! ### The device clock, power, package reset and the root of trust -/

/-- The device clock goes on from its present time toward another at a rate of at most 100 ppm (R418). -/
def SlewsToward (target : Nat) (s u : State) : Prop := ∃ ppm : Int, -100 ≤ ppm ∧ ppm ≤ 100 ∧ (s.deviceTime < target → 0 ≤ ppm) ∧ (target < s.deviceTime → ppm ≤ 0) ∧
  u = { s with
    hub := { s.hub with clock := { s.hub.clock with devBase := s.deviceTime, atCycle := s.now, slew := ppm } }
    draws := u.draws, serial := u.serial }

/-- Every context gets a record of kind C, with a value that the spec does not state (R401). -/
def TellEach (cause : Nat) : List Ctx → State → State → Prop
  | [], s, u => u = s
  | c :: cs, s, u => ∃ n v, TellEach cause cs (({ s with serial := n } : State).contextRecord c.id cause v) u

/-- What the device clock, power and package reset promise of the next state. -/
def hubPromise : Instr → State → Option (State → Prop)
  | .ptpEventMessage nic master _, s =>
    let c := s.hub.clock
    some fun u => ∃ (stamp : Nat) (v : State), stamp ≤ s.deviceTime + 8 ∧ s.deviceTime ≤ stamp + 8 ∧
      v = { s with
        out := s.out ++ [.ptp nic (BitVec.ofNat 64 stamp)]
        hub := { s.hub with clock := { c with port := if c.locked ∧ ¬c.holdover then c.port else nic } } } ∧
      (if c.locked ∧ ¬c.holdover ∧ c.port = nic then SlewsToward master.toNat v u else u = v)
  | .clockLock ptp, s => some fun u => ∃ v : State, v = { s with hub := { s.hub with clock := { s.hub.clock with locked := true, holdover := false } } } ∧
      (if s.hub.clock.locked ∨ s.hub.clock.mode then SlewsToward ptp.toNat v u
      else ∃ (k : Clock) (w : State), k = { v.hub.clock with devBase := ptp.toNat, atCycle := s.now, slew := 0, stepped := v.hub.clock.stepped + (ptp.toNat - v.deviceTime) } ∧
        w = { v with hub := { v.hub with clock := k } } ∧ w.deviceTime = ptp.toNat ∧ u = w.alignSlots)
  | .holdover, s => some fun u => ∃ v : State,
      v = { s with hub := { s.hub with clock := { s.hub.clock with devBase := s.deviceTime, atCycle := s.now, slew := 0, holdover := true } } } ∧ v.deviceTime = s.deviceTime ∧ u = v.notify 0
  | .clkpairLatch, s => some fun u => u = if s.hub.clock.pairDev / 1000 < s.deviceTime / 1000 then
      { s with hub := { s.hub with clock := { s.hub.clock with pairDev := s.deviceTime, pairTile := s.now } } } else s
  | .powerGrant grants, s => some fun u => u.hub.power.grants = grants ∧ (∀ t, fget 0 u.hub.power.withheld t = fget 0 s.hub.power.withheld t ∨ fget 0 u.hub.power.withheld t < s.now + 3200) ∧
      u = { s with hub := { s.hub with power := { s.hub.power with grants := u.hub.power.grants, withheld := u.hub.power.withheld } }, draws := u.draws, serial := u.serial }
  | .powerLimit watts, s => some fun u => u = if 1000 ≤ watts ∧ watts ≤ 2800 then { s with hub := { s.hub with power := { s.hub.power with limit := watts } } } else s
  | .droop _ cycles, s => some fun u => ∃ late, late ≤ cycles * 5 / 64 ∧ u = { s with
      hub := { s.hub with clock := { s.hub.clock with devBase := s.deviceTime + late, atCycle := s.now } }
      draws := u.draws, serial := u.serial }
  | .emergencyThrottleBegin, s => some fun u => if s.hub.power.throttle then u = s
      else TellEach 95 s.ctxs { s with hub := { s.hub with power := { s.hub.power with throttle := true } } } u
  | .emergencyThrottleEnd, s => some fun u => if s.hub.power.throttle then TellEach 95 s.ctxs { s with hub := { s.hub with power := { s.hub.power with throttle := false } } } u
      else u = s
  | .orderlyShutdown, s => match s.hub.power.offAt with
    | some _ => some (· = s)
    | none => some (TellEach 94 s.ctxs { s with hub := { s.hub with power := { s.hub.power with offAt := some (s.wallTime + 100000000) } } })
  | .powerOff, s => match s.hub.power.offAt with
    | none => some (· = s)
    | some t => some fun u => u = if t ≤ s.wallTime then { s with hub := { s.hub with power := { s.hub.power with off := true } } } else s
  | .packageReset, s => some fun u => u = { State.reset with
        mem := { State.reset.mem with bytes := u.mem.bytes, poison := u.mem.poison }
        inbox := u.inbox, out := s.out, draws := s.draws, serial := s.serial, nextId := s.nextId } ∧
      u.inbox = s.inbox.map (fun e => (e.1 - s.now, e.2)) ∧
      (s.MemInv → ∀ k, u.mem.get k = if isScratch k = true ∨ spaceOf k = .hbm then Mem.unlisted else s.mem.get k)
  | _, _ => none

/-- `u` is `s` after a response of a code, its bytes as the part's keys and the transcript give them (R397). -/
def Responds (code : Nat) (req : List Byte) (s u : State) : Prop := u = { s with
  out := s.out ++ [.spdm code (Config.trustBytes code (s.hub.trust.transcript ++ req))]
  hub := { s.hub with trust := { s.hub.trust with transcript := s.hub.trust.transcript ++ req } } }

/-- An ERROR response (SPDM). -/
def Objects (s u : State) : Prop := u = { s with out := s.out ++ [.spdm 0x7F []] }

/-- `s` with the connection of the root of trust changed. -/
def State.withTrust (s : State) (t : Trust) : State := { s with hub := { s.hub with trust := t } }

/-- What the requests to the root of trust promise of the next state (R397, R398). -/
def trustPromise : Instr → State → Option (State → Prop)
  | .getVersion, s => some (Responds 0x04 [0x84] (s.withTrust { s.hub.trust with stage := 1, session := false, pending := false, transcript := [] }))
  | .getCapabilities req, s => some (if s.hub.trust.stage = 1 then Responds 0x61 req (s.withTrust { s.hub.trust with stage := 2 }) else Objects s)
  | .negotiateAlgorithms req, s => some (if s.hub.trust.stage = 2 then Responds 0x63 req (s.withTrust { s.hub.trust with stage := 3 }) else Objects s)
  | .getDigests, s => some (if 3 ≤ s.hub.trust.stage then Responds 0x01 [0x81] s else Objects s)
  | .getCertificate slot offset len, s => some (if 3 ≤ s.hub.trust.stage ∧ slot = 0 then Responds 0x02 ([0x82] ++ toBytes 2 offset ++ toBytes 2 len) s else Objects s)
  | .challenge slot nonce, s => some (if 3 ≤ s.hub.trust.stage ∧ slot = 0 then Responds 0x03 ([0x83] ++ nonce) s else Objects s)
  | .getMeasurements index sign nonce, s => some (if 3 ≤ s.hub.trust.stage ∧ (index ≤ 7 ∨ index = 0xF0 ∨ index = 0xFF) then
      Responds 0x60 (toBytes 2 (0xE0 + index * 256) ++ toBytes 1 (b2n sign) ++ nonce) s else Objects s)
  | .keyExchange req, s => some (if 3 ≤ s.hub.trust.stage then Responds 0x64 req (s.withTrust { s.hub.trust with pending := true }) else Objects s)
  | .finish req, s => some (if s.hub.trust.pending then Responds 0x65 req (s.withTrust { s.hub.trust with pending := false, session := true, attested := true }) else Objects s)
  | .endSession, s => some fun u => if s.hub.trust.session then ∃ v, Responds 0x6C [0xEC] s v ∧ u = v.withTrust { v.hub.trust with session := false } else Objects s u
  | _, _ => none
/-! ### System calls and live migration -/

/-- `u` is `s` with a process changed by `f`, and no other. -/
structure ProcChanges (ctx : Nat) (f : Proc → Proc) (s u : State) : Prop where
  proc : u.proc ctx = f (s.proc ctx)
  others : ∀ k, k ≠ ctx → u.proc k = s.proc k
  rest : u = { s with hub := { s.hub with procs := u.hub.procs } }

/-- The reply of a call: it goes out, and a hart of Ranger that waits for it goes on with it (R370). -/
def Replies (ctx : Nat) (id : Dword) (r : Int) (s u : State) : Prop := u = { s with
  out := s.out ++ [.reply ctx id (BitVec.ofInt 64 r)]
  hub := { s.hub with harts := s.hub.harts.map fun x => (x.1, x.2.answered ctx id (BitVec.ofInt 64 r)) } }

/-- `u` is `s` with a result in the process's reply cache under an identifier that has none; below its size the cache drops nothing (R373). -/
structure Commits (ctx q : Nat) (r : Int) (s u : State) : Prop where
  recorded : (s.proc ctx).recorded q = none → (u.proc ctx).recorded q = some (BitVec.ofInt 64 r)
  kept : (s.proc ctx).cache.length < 65536 → ∀ k, k ≠ q → (u.proc ctx).recorded k = (s.proc ctx).recorded k
  proc : u.proc ctx = { s.proc ctx with cache := (u.proc ctx).cache, lowest := (u.proc ctx).lowest }
  others : ∀ k, k ≠ ctx → u.proc k = s.proc k
  rest : u = { s with hub := { s.hub with procs := u.hub.procs } }

/-- Serving a call (R372, R373): one that has an identifier is performed at most once; a recorded result answers it again. `perform` says what performing it gives. -/
def Serves (ctx : Nat) (id : Dword) (once : Bool) (perform : Int → State → Prop) (s u : State) : Prop :=
  let p := s.proc ctx
  let q := id.toNat % 2 ^ 63
  if p.ended.isSome ∨ p.frozen then u = s
  else if q = 0 then if once then Replies ctx id (-2) s u else ∃ r v, perform r v ∧ Replies ctx id r v u
  else match p.recorded q with
  | some v => Replies ctx id v.toInt s u
  | none =>
    if bit id.toNat 63 then if q < p.lowest then Replies ctx id (-6) s u else ∃ w, Commits ctx q (-1) s w ∧ Replies ctx id (-1) w u
    else ∃ r v w, perform r v ∧ Commits ctx q r v w ∧ Replies ctx id r w u

/-- Unmapping pages one after the other: a page's entry, where its tables are there, becomes 0. -/
def UnmapEach (root : Nat) : List Nat → State → State → Prop
  | [], s, u => u = s
  | va :: vs, s, u => ∃ v, (match entryOf s.mem va 3 root with | some a => Stored a ((toBytes 8 0).map (·, false)) s v | none => v = s) ∧ UnmapEach root vs v u

/-- Do pages lie in translated space, and is the context's table there (R371)? -/
abbrev Ctx.pagesOk (c : Ctx) (va pages : Nat) : Prop := va % 4096 = 0 ∧ pages ≠ 0 ∧ isTranslated (va + 4096 * pages - 1) = true ∧ bit c.root.toNat 0 = true

/-- What performing a call gives (Table 17-3): its result and the state after it. -/
def performRule : Instr → State → Option (Int → State → Prop)
  | .nullCall _ _, s => some fun r v => r = 0 ∧ v = s
  | .timeCall _ _, s => some fun r v => r = s.deviceTime ∧ v = s
  | .launchCall ctx _ record, s => some fun r v =>
    if record % 64 ≠ 0 then r = -2 ∧ v = s
    else match s.readRecord ctx record Need.rw 2 with
    | .error _ => r = -4 ∧ v = s
    | .ok bs => match s.startGrid ctx record bs none with
      | (.error c, w) => r = (if c = 84 then -3 else -2) ∧ v = w
      | (.ok h, w) => r = h ∧ ProcChanges ctx (fun p => { p with handles := p.handles ++ [(h, h)] }) w v
  | .launchwait ctx _ handle, s => some fun r v => v = s ∧ match (s.proc ctx).handles.find? fun h => h.1 == handle.toNat with
    | none => r = -2
    | some h => r = if (s.work? h.2).isSome then 1 else 0
  | .logCall ctx _ va len, s => some fun r v =>
    if isTranslated (va + len) = true ∧ ∀ i < len, (s.keyOf Config.tiles ctx (va + i)).isSome then
      r = len ∧ ProcChanges ctx (fun p => { p with log := p.log ++ s.peek Config.tiles ctx va len }) s v
    else r = -2 ∧ v = s
  | .mapCall ctx _ va pages attr frames, s => some fun r v => match s.ctx? ctx with
    | none => r = -2 ∧ v = s
    | some c =>
      let a := attr.toNat
      if ¬c.pagesOk va pages ∨ 2 ^ 16 ≤ a ∨ bit a 15 = false ∨ bit a 8 = true then r = -2 ∧ v = s
      else if (a % 256 ≠ 0 ∧ a % 256 ≠ c.tag) ∨ ∃ f ∈ frames, s.frameOfOther c.tag f = true then r = -4 ∧ v = s
      else match s.mapPages (bits c.root.toNat 47 12 * 4096) va a pages frames with
      | none => r = -3 ∧ v = s
      | some w => r = 0 ∧ v = w ∧ ∀ e f, pages = 1 → frames = [f] → entryOf s.mem va 3 (bits c.root.toNat 47 12 * 4096) = some e →
          Stored e ((toBytes 8 (a * 2 ^ 48 + f + 2)).map (·, false)) s v
  | .unmap ctx _ va pages, s => some fun r v => match s.ctx? ctx with
    | none => r = -2 ∧ v = s
    | some c =>
      if ¬c.pagesOk va pages then r = -2 ∧ v = s
      else r = 0 ∧ UnmapEach (bits c.root.toNat 47 12 * 4096) ((List.range pages).map fun i => va + 4096 * i) s v
  | .qcreate ctx _ kind args, s => some fun r v =>
    let a (i : Nat) : Nat := (args.getD i 0).toNat
    let made (h : Nat) (w : State) : Prop := r = h ∧ ProcChanges ctx (fun p => { p with queues := p.queues ++ [BitVec.ofNat 32 h] }) w v
    match kind with
    | 0 =>
      if a 0 = 0 ∨ 4096 < a 0 ∨ Config.tiles ≤ a 1 ∨ 64 ≤ a 2 ∨ 4 ≤ a 4 then r = -2 ∧ v = s
      else if (s.queue (a 1) (a 2)).valid then r = -3 ∧ v = s
      else
        let gen := ((s.queue (a 1) (a 2)).gen + 1) % 2 ^ 15
        let w := s.writeQueue (a 1) (a 2) (BitVec.ofNat 64 (2 ^ 63 + (a 5 % 2) * 2 ^ 62 + ctx * 2 ^ 45 + gen * 2 ^ 30 + a 4 * 2 ^ 28 + (a 0 - 1) * 2 ^ 16 + a 3 / 16 % 2 ^ 16))
        if (w.queue (a 1) (a 2)).valid then made (queueHandle 0 (a 1) (a 2) gen) w else r = -3 ∧ v = w
    | 1 => match s.ctx? ctx with
      | none => r = -2 ∧ v = s
      | some c => match fget 0 c.rights (a 1 % 64) with
        | 0 => r = -4 ∧ v = s
        | g + 1 => made (queueHandle 1 0 (a 1 % 64) g) s
    | 2 =>
      if a 0 = 0 ∨ 4096 < a 0 ∨ 64 ≤ a 1 ∨ a 2 % 4 ≠ 0 ∨ a 3 % 8 ≠ 0 ∨ a 4 % 8 ≠ 0 ∨ isWindow (a 2) = false then r = -2 ∧ v = s
      else if (s.link ctx (a 1)).valid then r = -3 ∧ v = s
      else
        let gen := ((s.link ctx (a 1)).gen + 1) % 2 ^ 15
        made (queueHandle 2 0 (a 1) gen) (s.modLink ctx (a 1) fun _ => { LinkQueue.none with
          q0 := BitVec.ofNat 64 (2 ^ 63 + (a 0 - 1) * 2 ^ 48 + a 2)
          q1 := BitVec.ofNat 64 (gen * 2 ^ 48 + a 3 % 2 ^ 48)
          q2 := BitVec.ofNat 64 (a 4 % 2 ^ 48) })
    | _ => r = -2 ∧ v = s
  | .qdestroy ctx _ handle, s => some fun r v =>
    let h : Word := handle.extractLsb' 0 32
    if handle.toNat < 2 ^ 32 ∧ h ∈ (s.proc ctx).queues then r = 0 ∧ ∃ w, ProcChanges ctx (fun p => { p with queues := p.queues.erase h }) s w ∧
      v = match handleKind h with
        | 0 => w.modQueue (handleTile h) (handleEntry h) fun q => { q with valid := false }
        | 2 => w.modLink ctx (handleEntry h) fun q => { q with q0 := q.q0 &&& 0x7FFFFFFFFFFFFFFF }
        | _ => w
    else r = -2 ∧ v = s
  | .bindthread ctx _ thread, s => some fun r v => match s.ctx? ctx with
    | none => r = -2 ∧ v = s
    | some c =>
      if thread < 4 ∨ 64 ≤ thread then r = -2 ∧ v = s
      else if ∃ p ∈ s.hub.procs, p.ctx ≠ ctx ∧ thread ∈ p.threads then r = -4 ∧ v = s
      else r = 0 ∧ ∃ w, ProcChanges ctx (fun p => { p with threads := if thread ∈ p.threads then p.threads else p.threads ++ [thread] }) s w ∧
        (∀ k, k ≠ ctx → v.ctx? k = s.ctx? k) ∧ v.ctx? ctx = some { c with rights := fput 0 c.rights thread (fget 0 c.rights thread % 2 ^ 15 + 1) } ∧ v = { w with ctxs := v.ctxs }
  | .timetableCall ctx _ entry hi lo, s => some fun r v =>
    let e : TimeEntry := { TimeEntry.none with hi := hi &&& 0xFFFFFE0000000001, lo := lo }
    let old := s.timeEntry entry
    if 256 ≤ entry then r = -2 ∧ v = s
    else if old.valid ∧ old.ctx ≠ ctx ∨ e.valid ∧ e.ctx ≠ ctx then r = -4 ∧ v = s
    else if ¬e.valid then r = 0 ∧ v = s.modEntry entry fun _ => TimeEntry.none
    else if e.rule = 3 ∨ e.period = 0 ∨ 1000000 < e.period ∨ isTranslated e.record = false ∨ e.record % 64 ≠ 0 then r = -2 ∧ v = s
    else r = 0 ∧ ∃ next, s.deviceTime < next ∧ next ≤ s.deviceTime + 1000 * e.period ∧ next % (1000 * e.period) = 0 ∧ v = s.modEntry entry fun x => { e with last := x.last, next := next }
  | .loadpkg ctx _ args, s => some fun r v =>
    let a (i : Nat) : Nat := (args.getD i 0).toNat
    if (s.ctx? ctx).isSome ∧ a 0 % 4096 = 0 ∧ isTranslated (a 0 + a 1) = true ∧ ∀ i < a 1, (s.keyOf Config.tiles ctx (a 0 + i)).isSome then
      match parsePackage (s.peek Config.tiles ctx (a 0) (a 1)) with
      | none => r = -2 ∧ v = s
      | some (ks, fcount) => ∃ w, w = s.placePackage ctx ⟨a 2, a 3, a 4, a 5⟩ ks fcount ∧ r = w.nextId ∧
          ProcChanges ctx (fun p => { p with handles := p.handles ++ [(w.nextId, 0)] }) { w with nextId := w.nextId + 1 } v
    else r = -2 ∧ v = s
  | _, _ => none

/-- The caller, the identifier and the at-most-once mark of a call that `State.call` serves (Table 17-3). -/
def callOf : Instr → Option (Nat × Dword × Bool)
  | .nullCall ctx id | .timeCall ctx id | .launchwait ctx id _ | .logCall ctx id _ _ => some (ctx, id, false)
  | .launchCall ctx id _ | .mapCall ctx id _ _ _ _ | .unmap ctx id _ _ | .qcreate ctx id _ _ | .qdestroy ctx id _ | .bindthread ctx id _ |
    .timetableCall ctx id _ _ _ | .loadpkg ctx id _ => some (ctx, id, true)
  | _ => none

/-- Tile queues of a process end: their entries lose the valid bit. -/
def EndQueues : List Word → State → State → Prop
  | [], s, u => u = s
  | h :: hs, s, u => EndQueues hs (if handleKind h = 0 then s.modQueue (handleTile h) (handleEntry h) fun q => { q with valid := false } else s) u

/-- What the calls that end or move a process, and the two sides of a migration, promise of the next state (R371, R380). -/
def processPromise : Instr → State → Option (State → Prop)
  | .exitCall ctx id code, s => some fun u =>
    if (s.proc ctx).ended.isSome ∨ (s.proc ctx).frozen then u = s
    else if id.toNat % 2 ^ 63 = 0 then Replies ctx id (-2) s u
    else ∃ v, EndQueues (s.proc ctx).queues s v ∧ ProcChanges ctx (fun p => { p with ended := some code, handles := [], queues := [], threads := [] }) (v.killContext ctx) u
  | .migrate ctx id _, s => some fun u =>
    let q := id.toNat % 2 ^ 63
    if (s.proc ctx).ended.isSome ∨ (s.proc ctx).frozen then u = s
    else if q = 0 ∨ ((s.proc ctx).recorded q).isSome ∨ bit id.toNat 63 = true then Serves ctx id true (fun r v => r = -1 ∧ v = s) s u
    else ∃ v, v = { s with
        cur := if s.cur.id.ctx = ctx then { s.cur with sched := { s.cur.sched with preempt := true } } else s.cur
        teams := s.teams.map fun t => if t.id.ctx = ctx then { t with sched := { t.sched with preempt := true } } else t } ∧
      ProcChanges ctx (fun p => { p with frozen := true, migrating := some q }) v u
  | .migrationStream ctx image, s => some fun u =>
    if imageOk image = false then u = { s with out := s.out ++ [.refusal ctx (0x100 + 92)] }
    else ∃ v, v = { s.setCtx ctx id with out := s.out ++ [.announce ctx] } ∧ ProcChanges ctx (fun p => { p with frozen := false, migrating := none }) v u
  | .resumptionConfirmed ctx, s => some fun u =>
    if s.frozen ctx = false then u = s
    else ∃ v, v = s.killContext ctx ∧ u = { v with
      hub := { v.hub with procs := v.hub.procs.filter fun p => p.ctx != ctx }
      disp := { v.disp with timetable := v.disp.timetable.filter fun e => e.2.ctx != ctx, kernels := v.disp.kernels.filter fun k => k.ctx != ctx }
      ctxs := v.ctxs.filter fun c => c.id != ctx }
  | _, _ => none
/-! ### Issuing and stepping -/

/-- The shape of an instruction in the team's mode, with the words that its operands at run time give it (R41, R228, R269). -/
def State.shapeOf (s : State) (i : Instr) (g : Group) : Shape :=
  shape i s.cur.arch.mode (runtimeWords s.cur i s.now (activeLanes s.cur g (shape i s.cur.arch.mode 1)))

/-- The reservations that an instruction makes for its queue ports, of `t` the team that issues it with what is granted so far (R428). -/
def State.moves (s : State) (i : Instr) (g : Group) (t : Team) : List (Nat × Bool × Nat) :=
  issueMoves t i (s.shapeOf i g) s.now (regFields i).1 (regFields i).2.1 (regFields i).2.2 (activeLanes s.cur g (shape i s.cur.arch.mode 1))

/-- Nothing holds an instruction back: its word has no cause at decode, its guard carries no poison, no result is pending, its slots
are resident in every lane and none of them is being rebuilt, the control words of a PACK or UNPACK that a port gives have been popped, its
reservations are granted, which makes `s1`, and neither a checkpoint nor the Coolbox lacks room (R56, R103, R92, R216, R146, R46, R186, R428,
R437). -/
structure ReadyToIssue (i : Instr) (s : State) (g : Group) (w : Word) (s1 : State) : Prop where
  group : s.cur.current = some g
  word : encodeWord i = some w
  legal : decodeCause i s.cur.arch.mode = none
  guard : s.cur.arch.mode.guard = 0 ∨ ∀ l ∈ lanesOf s.cur.width g.mask, (s.cur.lane l).cc.p = false
  settled : s.cur.pend = []
  checkpoints : (s.cur.young s.now).length < Config.youngCheckpoints
  registers : ∀ l, l < s.cur.width → resident s.cur l (slotsNamed s.cur (s.shapeOf i g) (regFields i).1 (regFields i).2.1 (regFields i).2.2 l) = true
  arrays : s.slotsRebuilding s.cur (s.shapeOf i g) (regFields i).1 (regFields i).2.1 (regFields i).2.2
    (if reachesLanes i then List.range s.cur.width else activeLanes s.cur g (shape i s.cur.arch.mode 1)) = false
  control : controlMoves s.cur i (s.shapeOf i g) (regFields i).1 (regFields i).2.1 (regFields i).2.2 (activeLanes s.cur g (shape i s.cur.arch.mode 1)) = []
  ports : reserve s (s.moves i g s.cur) = .granted s1
  coolbox : s1.unitsUsed s1.cur.id.tile + moveUnits (s.moves i g s1.cur) ≤ Config.coolboxUnits

/-- The team that a side has selected waits for nothing before it issues: no values of a drain or answer of an engine, no group that was
moved out, no frames after a readmission or for the link of a redirect (R269, R353, R88, R96, R183). -/
def State.settled (s : State) : Prop :=
  s.cur.suspendedFor = none ∧ s.returnGroups = none ∧ s.cur.links = [] ∧ s.cur.sched.refilling = false

/-- The word at a PC of a team's code and the literal words after it decode to an instruction, outside a REP or macro (R40, R45). -/
def Team.finds (t : Team) (s : State) (pc : BitVec 48) (i : Instr) : Prop :=
  t.arch.rep = none ∧ t.arch.mac = none ∧
  ∃ w l1 l2, s.codeWord t pc = .word w ∧
    (1 ≤ litCount w → s.codeWord t (pc + 4) = .word l1) ∧ (2 ≤ litCount w → s.codeWord t (pc + 8) = .word l2) ∧ decode w l1 l2 = .ok i

end Sys2Proof.Machine
end

