-- ==== Sys2Proof/Certificates/Slice0/Obligations.lean ====
section
/-! DEFINITION. The statements for the provers, one definition each. -/

open Sys2Proof Sys2Proof.Machine

/-- O1 (R41, R45, R109, R146, R154, R165, R253, R281, R299, R332, R421, R435). Each of 37 words that the spec writes out as the encoding of an
instruction, with the literal word that follows it where it has one, decodes to that instruction with that instruction's operands. -/
def Obligations.DecodeWords : Prop :=
  decode 0x10010286 0 0 = .ok (.add 0 0 4 5 6 0) ∧
  decode 0x14810310 0 0 = .ok (.div 1 0 0 4 6 2 0) ∧
  decode 0x1E400270 0 0 = .ok (.cmpN 0 4 112 0) ∧
  decode 0x42002200 0 0 = .ok (.fmtld 68 0 0 0) ∧
  decode 0x4200220C 8 0 = .ok (.fmtld 68 1 1 8) ∧
  decode 0x42314000 0 0 = .ok (.fmtrd 69 0) ∧
  decode 0x30008205 0 0 = .ok (.fadd 0 2 4 5 0) ∧
  decode 0x34608285 0 0 = .ok (.fma 1 2 5 5 0) ∧
  decode 0x40018418 0 0 = .ok (.sinpi 6 8 3 0) ∧
  decode 0xB090A000 0 0 = .ok (.sysc 66 64 0) ∧
  decode 0xB0C13F80 0 0 = .ok (.mfs 4 0) ∧
  decode 0xB0E03F86 1 0 = .ok (.mts 6 1) ∧
  decode 0x80002000 0 0 = .ok (.mcfg 64 0) ∧
  decode 0x8050A400 0 0 = .ok (.mma 66 72 0) ∧
  decode 0x80C22800 0 0 = .ok (.mdrain 8 80 0) ∧
  decode 0x60012200 0 0 = .ok (.atom 0 0 4 68 0 0 0) ∧
  decode 0x62C10500 0 0 = .ok (.acas 0 4 10 0 0 0) ∧
  decode 0x6321A205 8 0 = .ok (.afmm 6 68 0 1 1 8) ∧
  decode 0x64126270 0 0 = .ok (.ared 0 0 73 68 112 0) ∧
  decode 0x51412200 0 0 = .ok (.acq 4 68 0 0 0) ∧
  decode 0x52D2A270 0 0 = .ok (.rel 74 68 112 0) ∧
  decode 0x5320C000 0 0 = .ok (.fence 3) ∧
  decode 0xB200247F 16 0 = .ok (.bind 72 127 16) ∧
  decode 0xA0002200 0 0 = .ok (.eqset 68 0) ∧
  decode 0xA0210288 0 0 = .ok (.unite 4 5 1 0) ∧
  decode 0x72126F7F 64 0 = .ok (.binit 73 94 127 64) ∧
  decode 0x729FE270 1 0 = .ok (.cadd 127 68 112 1) ∧
  decode 0x72A12200 0 0 = .ok (.cread 4 68 0 0 0) ∧
  decode 0x73133F80 0x301 0 = .ok (.stallrd 76 127 0x301) ∧
  decode 0x90182000 0 0 = .ok (.qmap 96 64 0) ∧
  decode 0x92018570 0 0 = .ok (.spawn 6 10 112 0) ∧
  decode 0x9230A400 0 0 = .ok (.grow 66 72 0) ∧
  decode 0x92402270 0 0 = .ok (.job 68 112 0) ∧
  decode 0x9270A27F 0 0 = .ok (.launch 66 68 127 0) ∧
  decode 0x00C10000 0x40 0 = .ok (.call 4 0x40) ∧
  decode 0x00A00500 0 0 = .ok (.jmp 10) ∧
  decode 0x00610240 0 0 = .ok (.rep 2 0 1 1)

/-- O2 (R41, R42, R43, R44, R45, R56). For every instruction that has an encoding and whose operands are well-formed, decoding its word with
its literal words gives that instruction back, at every value of every operand that the encoding admits. -/
def Obligations.DecodeInvertsEncode : Prop :=
  ∀ i w, i.wf = true → encodeWord i = some w → decode w (literal i) (literal2 i) = .ok i

/-- O3 (R27, R29, R40, R45, R56, R76). When nothing arrives, no event is due and no team is at a boundary, a step selects a team and, where
the word at the PC of its current group and the literal words after it decode to an instruction, is exec of that instruction; it is exec
of the decoded privileged instruction that a slot has ready, of the event that is due, and of the entry that arrives, in that order of
precedence; and where no team can issue, time goes on by one cycle. The selected team awaits no group, frame, drain or answer and no array
that is being rebuilt. The precedence among these is the model's choice (log entries 5 and
6). -/
def Obligations.StepRunsDecoded : Prop :=
  (∀ s i rest t, s.hub.power.off = false → s.inbox = (t, i) :: rest → t ≤ s.now → step s = exec i { s with inbox := rest }) ∧
  (∀ s p i, s.arriving = none → s.hub.power.off = false → s.privReady = some p → decode p.word 0 0 = .ok i → step s = exec i s) ∧
  (∀ s i, s.arriving = none → s.hub.power.off = false → s.privileged = none → s.nextEvent = some i → step s = exec i s) ∧
  (∀ s v g i, s.arriving = none → s.hub.power.off = false → s.privileged = none → s.nextEvent = none → s.boundary = none →
    s.background = none → s.select = some v → v.settled → v.cur.current = some g → v.teamRebuilding g = false → v.cur.finds v g.pc i → step s = exec i v) ∧
  (∀ s, s.arriving = none → s.hub.power.off = false → s.privileged = none → s.nextEvent = none → s.boundary = none → s.background = none →
    s.select = none → ∃ t, step s = .next t ∧ t.now = s.now + 1 ∧ t.issued = [])

/-- O4 (R42, R43, R46, R49, R56, R92, R102, R103, R104, R186, R216, R428). When an instruction's word has no cause at decode, its guard
carries no poison, no result is pending, its slots are resident and none of them is being rebuilt, the control words that a port gives a
PACK or UNPACK have been popped, the reservations for its queue ports are granted, and neither a checkpoint nor the Coolbox lacks room, it
is prepared: its active lanes, its operands and its shape are those of the current group, the mode and its register fields, and nothing in
the state changes before its own effect but those reservations. -/
def Obligations.IssuesWhenReady : Prop :=
  ∀ i s g w s1, ReadyToIssue i s g w s1 → ∃ o, prepare i s = .ok (o, s1) ∧ Prepared i s o s1

/-- O5 (R402, R418, R385). After reset the tile clocks read 0, the Coolboxes, TLBs, L1s, control stores, macro sets, window and routing tables
are empty or zero, every optical port is off and every CXL link down, no context, process or Timetable entry exists, the device clock is
unlocked, and memory is in canonical form with nothing listed. That an unlisted byte reads 0 is the model's choice (log entry 1) and no
part of this statement. -/
def Obligations.ResetLeaves : Prop :=
  State.reset.now = 0 ∧ State.reset.coolbox = [] ∧ State.reset.mem.tlb = [] ∧ State.reset.mem.lines = [] ∧ State.reset.ctxs = [] ∧
  State.reset.allTeams = [] ∧ State.reset.disp.timetable = [] ∧ State.reset.hub.procs = [] ∧
  (∀ k, fget 0 State.reset.tables.windows k = 0) ∧ (∀ k, fget 0 State.reset.tables.routes k = 0) ∧
  (∀ k, fget 0 State.reset.tables.store k = 0) ∧ (∀ p, (State.reset.port p).state = 0) ∧
  (∀ p, p < 4 → p ∈ State.reset.hub.cxlDown) ∧ State.reset.hub.clock.locked = false ∧ State.reset.deviceTime = 0 ∧
  State.reset.hub.clock.mode = false ∧ (∀ k, fget 0 State.reset.tables.counters k = 0) ∧ State.reset.MemInv

/-- O6 (R42, R43, R49). zero reads 0 and a write to it changes nothing; lane reads the lane index; clock reads the tile cycle count, its low
half or all 64 bits; cc reads the condition codes in bits 3 to 0; widlo as a pair reads the lane's work identifier; the literal reads
zero-extended in 32 bits, sign-extended in 64 bits, and as the high half for binary64. -/
def Obligations.FixedRegisters : Prop :=
  ∀ (t : Team) (now : Nat) (lit : Word) (high : Bool) (pops : List (Nat × PWord)) (l : Nat),
  (∀ w, readReg t now lit high pops w 112 l = ⟨0, false⟩) ∧
  (∀ w, w = 1 ∨ w = 2 → l < 2 ^ 32 → readReg t now lit high pops w 113 l = ⟨BitVec.ofNat 64 l, false⟩) ∧
  readReg t now lit high pops 1 126 l = ⟨BitVec.ofNat 64 (now % 2 ^ 32), false⟩ ∧
  readReg t now lit high pops 2 126 l = ⟨BitVec.ofNat 64 now, false⟩ ∧
  (∀ w, w = 1 ∨ w = 2 → readReg t now lit high pops w 125 l = ⟨(t.lane l).cc.word.zeroExtend 64, (t.lane l).cc.p⟩) ∧
  readReg t now lit high pops 2 115 l = ⟨t.id.wid + BitVec.ofNat 64 l, false⟩ ∧
  readReg t now lit high pops 1 127 l = ⟨lit.zeroExtend 64, false⟩ ∧
  readReg t now lit false pops 2 127 l = ⟨lit.signExtend 64, false⟩ ∧
  readReg t now lit true pops 2 127 l = ⟨lit ++ (0 : Word), false⟩ ∧
  (∀ ws, t.write (destOf t 112 l) ws = t)

/-- O7 (R400, R401, R204, R381). A step of a package that is powered off ends in the fault poweredOff. A register
write of Ranger outside control space, and a load or store of Ranger at an address that Table 10-2 gives to nothing, end in the fault
unassignedAddress. That the run stops is the model's choice (log entries 102, 103). -/
def Obligations.StopsAreNamed : Prop :=
  (∀ s, s.hub.power.off = true → step s = .fault .poweredOff) ∧
  ∀ pa n v s, isControl pa = false → exec (.registerWrite pa n v) s = .fault .unassignedAddress ∧
    (spaceOf pa = .none → ∀ st, exec (.rangerLoadStore pa n st v) s = .fault .unassignedAddress)

/-- O8 (R103, R104, R106, R109, R110, R111, R112, R113, R114, R115, R116, R118). In every form that the spec gives the instructions named,
with their operands prepared, each instruction of integerRule (ADD, ADDC, SUB, SUBB, NEG, MUL, MAD, ABS, MIN, MAX, MULH, MULW, MADW, MOV,
LDI, AND, OR, XOR, ANDN, NOT, SHL, SHR, SHRA, ROT, POPC, CLZ, CTZ, BREV, BFX, BFI, CMP, TST, FSHF, PERM, LEA, DOT4, SAD, GETCC, SETCC,
MFS) completes: d of every lane holds the value the rule gives, the codes are those of the rule or unchanged, poison spreads as R103 says,
every other register, code, flag and byte of memory is as before, and the lanes go on at the next instruction. -/
def Obligations.IntegerResults : Prop :=
  ∀ i f, integerRule i = some f → ∀ s o s1, prepare i s = .ok (o, s1) → ∃ u t, exec i s = .next t ∧ Computes o s1 u (f o) ∧ Completes o u t

/-- O9 (R117, R103, R55). In every form that the spec gives the instructions named, with their operands prepared, SEL completes: each lane
whose mask bit is set gets a where its codes satisfy the guard and b otherwise; everything else is as before. The guard's codes carry no
poison. -/
def Obligations.SelectResults : Prop :=
  ∀ w d a b lit s o s1, prepare (.sel w d a b lit) s = .ok (o, s1) → (o.mode.guard = 0 ∨ ∀ l ∈ o.lanes, (o.codes l).p = false) →
  ∃ u t, exec (.sel w d a b lit) s = .next t ∧ Completes o u t ∧ Computes o s1 u fun l =>
    let x := if guardHolds o.mode.guard (o.codes l) then o.a l else o.b l
    valueRule false x.p (plainSized w fun n => x.at n)

/-- O10 (R46, R110, R163, R164, R171, R172, R173). In every form that the spec gives the instructions named, with their operands prepared,
DIV, REM, FDIV, FSQRT, FRCP, SINPI, COSPI, EXP2, LOG2, RCPA, RSQA and TANH complete at issue: the results that the rule gives pend, with
the instruction's lookahead, and land later; no register, code or byte of memory changes at issue. When they land is drawn (log entry 2);
the special functions' values are free within their bounds (log entry 4). -/
def Obligations.LongResults : Prop :=
  ∀ i f, longRule i = some f → ∀ s o s1, prepare i s = .ok (o, s1) →
  (o.lanes ≠ [] → ∃ u t, exec i s = .next t ∧ Pends o s1 u (o.results (f o)) ∧ Completes o u t) ∧
  (o.lanes = [] → ∃ t, exec i s = .next t ∧ Completes o s1 t)

/-- O11 (R156, R158, R159, R160, R161, R162, R165, R166, R167, R168, R169, R170). In every form that the spec gives the instructions named,
with their operands prepared, each instruction of floatRule (FADD, FSUB, FMUL, FMA, FNMA, FMIN, FMAX, FMINM, FMAXM, FABS, FNEG, FCPYS,
FCMP, FCLASS, FRINT, FSCALE, FGETX) completes with the value, codes and flags of its rule in every lane and everything else as before. -/
def Obligations.FloatResults : Prop :=
  ∀ i f, floatRule i = some f → ∀ s o s1, prepare i s = .ok (o, s1) → ∃ u t, exec i s = .next t ∧ Computes o s1 u (f o) ∧ Completes o u t

/-- O12 (R119, R120, R121, R122, R123, R124, R125, R126). In every form that the spec gives the instructions named, with their operands
prepared, SHFL, VOTE, BALLOT, MATCH, SCAN and REDUCE complete with what their rule gives each active lane and everything else as before;
BCAST and KMOV give every destination the named lane's value where no lane's b carries poison. -/
def Obligations.CrossLaneResults : Prop :=
  (∀ i f, crossLaneRule i = some f → ∀ s o s1, prepare i s = .ok (o, s1) →
    ∃ u t, exec i s = .next t ∧ Computes o s1 u (f o) ∧ Completes o u t) ∧
  (∀ i, (∃ w d a b lit, i = .bcast w d a b lit ∨ i = .kmov w d a b lit) → ∀ s o s1, prepare i s = .ok (o, s1) → (∀ l ∈ o.act, (o.b l).p = false) →
    ∃ u t, exec i s = .next t ∧ Completes o u t ∧ Computes o s1 u fun _ => bareRule (o.a o.named))

/-- O13 (R141, R146, R147, R148, R149, R150, R151, R152, R154, R160). In every form that the spec gives the instructions named, with their
operands prepared, CVT, CVTI, CVTF, PACK, UNPACK, SCALE and FMTRD complete with the rule's value and flags, where the control words that
they meet are legal and carry no poison; a lane that rounds with its SEED has it stepped, and an UNPACK that meets padding posts its
record. -/
def Obligations.ConversionResults : Prop :=
  ∀ i f, convertRule i = some f → ∀ s o s1, prepare i s = .ok (o, s1) → convertReady i o →
  ∃ s2, Draws i o s1 s2 ∧ ∃ u t, exec i s = .next t ∧ Computes o s2 u (f o) ∧ Completes o u t

/-- O14 (R154). FMTRD completes with the descriptor of the format register that the mode selects in d, as a 32-bit value, and everything else
as before; with a uniform d it acts once; a or b other than 0 is an illegal encoding; the word 0x42314000 is fmtrd k5.
The rule: "FMTRD writes the descriptor held in the selected format register to d, as a 32-bit value." -/
def Obligations.FmtrdReads : Prop :=
  (∀ d lit s o s1, prepare (.fmtrd d lit) s = .ok (o, s1) → ∃ u t, exec (.fmtrd d lit) s = .next t ∧ Completes o u t ∧
    (Computes o s1 u fun _ => (⟨((s1.cur.arch.nf.getD s.cur.arch.mode.nf 0).zeroExtend 64 : Dword), false⟩, none, 0)) ∧
    (regKind d = .uni → o.uniform = true)) ∧
  (∀ d a b lit lit2, a ≠ 0 ∨ b ≠ 0 → decode (wordT 0x211 d a b) lit lit2 = .error .illegalEncoding) ∧
  decode 0x42314000 0 0 = .ok (.fmtrd 69 0)

/-- O15 (R77). BRA completes: every active lane of the current group stands at the PC plus the sign-extended literal, every other lane of the
group at the next instruction, and every lane of another group where it was; no register, code, flag or byte of memory changes.
The rule: "BRA branches by a displacement that is the same for every lane." -/
def Obligations.BranchTakesDisplacement : Prop :=
  ∀ lit s o s1, prepare (.bra lit) s = .ok (o, s1) →
  ∃ t, exec (.bra lit) s = .next t ∧ Transfers o (fun l => if l ∈ o.act then some (o.g.pc + lit.signExtend 48) else none) [] s1 t

/-- O16 (R78, R83). JMP completes where every target is a legal PC without poison: each active lane stands at bits 47:0 of its own a, the
others of the group at the next instruction; nothing else changes. -/
def Obligations.JumpTakesTargets : Prop :=
  ∀ a s o s1, prepare (.jmp a) s = .ok (o, s1) → targetsOk o →
  ∃ t, exec (.jmp a) s = .next t ∧ Transfers o (fun l => if l ∈ o.act then some ((o.a l).v.extractLsb' 0 48) else none) [] s1 t

/-- O17 (R72, R78, R79). CALL and CALLR complete within the slot limit with the link's slots resident: each active lane's frame pointer rises
by x, its depth by 1, its link holds the return PC and x, every slot outside the link keeps its word, every other lane keeps all it has,
and the lane stands at the target. -/
def Obligations.CallsPushLinks : Prop :=
  (∀ x lit s o s1, prepare (.call x lit) s = .ok (o, s1) → callOk o s1 x.toNat → ∃ u t, exec (.call x lit) s = .next t ∧ Called o x.toNat 8 s1 u ∧
    Transfers o (fun l => if l ∈ o.act then some (o.g.pc + lit.signExtend 48) else none) [] u t) ∧
  (∀ x a s o s1, prepare (.callr x a) s = .ok (o, s1) → targetsOk o → callOk o s1 x.toNat → ∃ u t, exec (.callr x a) s = .next t ∧
    Called o x.toNat 4 s1 u ∧ Transfers o (fun l => if l ∈ o.act then some ((o.a l).v.extractLsb' 0 48) else none) [] u t)

/-- O18 (R80, R72). RET completes where every link it reads is resident, without poison and legal: a lane of depth 0 ends; each other active
lane's frame pointer falls by the shift that its link holds, its depth by 1, and it stands at the link's return PC; every other lane keeps
all it has. -/
def Obligations.ReturnsPopLinks : Prop :=
  ∀ s o s1, prepare .ret s = .ok (o, s1) → (∀ l ∈ o.act, (s1.cur.lane l).depth ≠ 0 → linkOk s1 l) →
  let back := o.act.filter fun l => (s1.cur.lane l).depth != 0
  ∃ u t, exec .ret s = .next t ∧
    Frames back (fun l => BitVec.ofNat 32 ((s1.cur.lane l).fp.toNat + 2 ^ 32 - linkShift s1 l)) (fun l => (s1.cur.lane l).depth - 1) (fun _ _ => none) s1 u ∧
    Transfers o (fun l => if l ∈ back then some ((linkOf s1 l).2.w.extractLsb' 0 16 ++ (linkOf s1 l).1.w) else none)
      (o.act.filter fun l => (s1.cur.lane l).depth == 0) u t

/-- O19 (R81). EXIT completes: the active lanes stand nowhere any more, the other lanes of the group at the next instruction, lanes of other
groups where they were; no register or byte of memory changes. -/
def Obligations.ExitEndsLanes : Prop :=
  ∀ s o s1, prepare .exit s = .ok (o, s1) → ∃ t, exec .exit s = .next t ∧ Transfers o (fun _ => none) o.act s1 t

/-- O20 (R58, R76, R192, R193). NOP completes and changes nothing but what every issue does; YIELD completes and yields to the other teams of
its side; SIGSET completes with the signature at its literal, SIGCHK with the signature back at its start value where there is none to
check, or it agrees and the shadow unit has the mask of every group in the table. -/
def Obligations.PlainControl : Prop :=
  (∀ s o s1, prepare .nop s = .ok (o, s1) → ∃ t, exec .nop s = .next t ∧ Completes o s1 t) ∧
  (∀ s o s1, prepare .yield s = .ok (o, s1) → ∃ t, exec .yield s = .next t ∧ Completes o s1 t ∧ t.cur.sched.yielded = some (s1.cur.fallPc o)) ∧
  (∀ lit s o s1, prepare (.sigset lit) s = .ok (o, s1) → ∃ t e, exec (.sigset lit) s = .next t ∧ e.onward ∧ e.sig = some lit ∧ Concludes o e s1 t) ∧
  (∀ lit s o s1, prepare (.sigchk lit) s = .ok (o, s1) →
    (o.g.sigOk = false ∨ (o.g.sig ^^^ 0xFFFFFFFF = lit ∧ ∀ g ∈ o.t.arch.groups, (g.pc, g.mask) ∈ o.t.shadow)) →
    ∃ t e, exec (.sigchk lit) s = .next t ∧ e.onward ∧ e.sig = some sigReset ∧ Concludes o e s1 t)

/-- O21 (R50, R59, R60, R127, R141, R160). MODE completes with the mode register holding its fields; MTS completes with the flags or the SEED
of each active lane at its b; every other register, lane and byte of memory is as before. -/
def Obligations.ModeWrites : Prop :=
  (∀ g t r f c b n s o s1, prepare (.mode g t r f c b n) s = .ok (o, s1) → ∃ u, exec (.mode g t r f c b n) s = .next u ∧
    Completes o { s1 with cur := s1.cur.setArch fun a => { a with mode := g ++ t ++ r ++ f ++ c ++ b ++ n ++ 0#1 } } u) ∧
  (∀ b lit s o s1, prepare (.mts b lit) s = .ok (o, s1) →
    (∀ l ∈ o.act, (o.b l).p = false ∧ (lit = 0 → ((o.b l).v.extractLsb' 0 32) >>> 5 = 0)) →
    ∃ u t, exec (.mts b lit) s = .next t ∧ Completes o u t ∧
      u = { s1 with cur := { s1.cur with arch := { s1.cur.arch with lanes := u.cur.arch.lanes } } } ∧
      ∀ l, l < s1.cur.arch.lanes.length → u.cur.lane l =
        if l ∈ o.act then (if lit = 0 then { s1.cur.lane l with xflags := ((o.b l).v.extractLsb' 0 32).extractLsb' 0 5 } else { s1.cur.lane l with seed := (o.b l).v.extractLsb' 0 32 })
        else s1.cur.lane l)

/-- O22 (R61, R62, R63, R64, R65). REP completes where its target can be fetched and is allowed: the team is at iteration 0 of c + 1 with the
group at its PC; a macro invocation completes where its store slot is not empty: the team is at word 0 of the body; nothing else changes. -/
def Obligations.RepeatAndMacroBegin : Prop :=
  (∀ c d a b s o s1 w, prepare (.rep c d a b) s = .ok (o, s1) → repOk s1 o (c.toNat + 1) w → ∃ t, exec (.rep c d a b) s = .next t ∧
    Begins o { s1 with cur := s1.cur.setArch fun r => { r with pc := o.g.pc, rep := some (0, c.toNat + 1, 8 + 4 * litCount w) } } t) ∧
  (∀ n d a b s o s1, prepare (.macroRun n d a b) s = .ok (o, s1) → s1.macroWord s1.cur.id.tile n.toNat 0 ≠ 0 →
    ∃ t, exec (.macroRun n d a b) s = .next t ∧ Begins o { s1 with cur := s1.cur.setArch fun r => { r with mac := some 0 } } t)

/-- O23 (R187). REGION ignores the mask and the guard; with a Format L result pending it waits; otherwise it completes with a new newest
checkpoint, of time now, not retried, that holds the team's state at the next instruction, and its word enters the signature.
The rule: "The checkpoint's resume PC is the next instruction, and its retried bit is clear." -/
def Obligations.RegionTakesCheckpoint : Prop :=
  (∀ s o s1, prepare .region s = .ok (o, s1) → ∃ t c, exec .region s = .next t ∧ Completes o s1 t ∧ t.cur.ckpts = c :: s1.cur.ckpts ∧
    c.time = s1.now ∧ c.retried = false ∧ c.arch = t.cur.arch) ∧
  (∀ s g, s.cur.current = some g → s.cur.pend ≠ [] → ∃ t, exec .region s = .next t ∧ t.cur.sched.stallCause = 3 ∧
    t = { s with cur := { s.cur with sched := t.cur.sched } }) ∧
  (∀ m, (shape .region m 1).noGuard = true ∧ (shape .region m 1).once = true)

/-- O24 (R178, R179, R185, R199). TRAP, BRK and SYSC with an active lane take the trap of cause 14, 15 or 16: the team is parked, the record
has the lanes, the values, the PC and the resume PC after the instruction, and SYSC's destination is kept for the reply; with no active
lane they complete and do nothing. Inside a REP or macro the resume PC is the model's (log entry 14). -/
def Obligations.TrapInstructions : Prop :=
  ∀ s o s1 i c v sysc, ((∃ lit, i = .trap lit ∧ c = 14 ∧ v = lit.zeroExtend 64 ∧ sysc = none) ∨ (i = .brk ∧ c = 15 ∧ v = 0 ∧ sysc = none) ∨
      (∃ d a lit, i = .sysc d a lit ∧ c = 16 ∧ v = ((o.a (o.lanes.headD 0)).v.extractLsb' 0 32).zeroExtend 64 ∧ sysc = some d ∧
        (o.a (o.lanes.headD 0)).p = false)) →
    prepare i s = .ok (o, s1) → s1.cur.id.uid ≠ 0 →
    (o.lanes ≠ [] → ∃ t r, exec i s = .next t ∧ TrapTaken s1 t c (maskOf o.act) (o.everyLane v) o.g.pc r o.word sysc ∧
      (s1.cur.arch.rep = none → s1.cur.arch.mac = none → r = o.nextPc) ∧ t.cur.sched.issues = s1.cur.sched.issues + 1) ∧
    (o.lanes = [] → ∃ t, exec i s = .next t ∧ Completes o s1 t)

/-- O25 (R42, R43, R44, R56, R178, R179). An instruction whose word has a cause at decode, in the mode the team is in, takes that trap: the
team is parked at the instruction with the active lanes in the record, and nothing of the instruction's own effect happens. -/
def Obligations.DecodeTraps : Prop :=
  ∀ i w g s c, encodeWord i = some w → s.cur.current = some g → s.privReady = none → s.cur.id.uid ≠ 0 → decodeCause i s.cur.arch.mode = some c →
  ∃ t, exec i s = .next t ∧ TrapTaken s t c (maskOf (activeLanes s.cur g (Shape.of .none .none .none))) [] g.pc g.pc w none

/-- O26 (R103, R190). An instruction that would read poisoned codes for its guard, in a team whose newest checkpoint is not retried, takes the
team back to that checkpoint: its architectural state is the checkpoint's, and effects held since then are gone. -/
def Obligations.PoisonedGuardRollsBack : Prop :=
  ∀ i w g s c cs, encodeWord i = some w → s.cur.current = some g → s.privReady = none → s.cur.id.uid ≠ 0 → decodeCause i s.cur.arch.mode = none →
  poisonedGuard s.cur g (shape i s.cur.arch.mode (runtimeWords s.cur i s.now (activeLanes s.cur g (shape i s.cur.arch.mode 1)))) ≠ [] →
  s.cur.ckpts = c :: cs → c.retried = false → ∃ t, exec i s = .next t ∧ RolledBack s t c 19

/-- O27 (R212, R221, R222, R280, R284, R291, R299, R408, R410, R452, R455, R460). In every form that the spec gives the instructions named,
with their operands prepared, each instruction of heldOf whose accesses pass the checks completes: one effect is held in the Coolbox,
computed for the addresses and data of its lanes as the rule says, with its pending result where it has one; no byte of memory and no
register changes at issue. -/
def Obligations.HeldAccesses : Prop :=
  ∀ i f g, accessOf i = some f → heldOf i = some g → ∀ s o s1 xs, prepare i s = .ok (o, s1) → (f o s1).passes s1 xs →
  ∃ u t, exec i s = .next t ∧ Requests o s1 u (g o s1 xs) ∧ Completes o u t

/-- O28 (R153, R213, R214, R215, R221, R222, R223, R224). In every form that the spec gives the instructions named, with their operands
prepared, each load of loadOf whose accesses pass the checks completes: each lane's bytes are those of the team's youngest held write, the
tile's L1 or scratchpad, and a request for the line is under way where the tile does not supply every byte; no byte of memory changes. -/
def Obligations.LoadsRead : Prop :=
  ∀ i f g, accessOf i = some f → loadOf i = some g → ∀ s o s1 xs, prepare i s = .ok (o, s1) → (f o s1).passes s1 xs →
  ∃ u t, exec i s = .next t ∧ Loads o s1 u (g o xs) xs ∧ Completes o u t

/-- O29 (R298, R299, R412, R221). ACQ and CREAD whose accesses pass the checks complete with a read at the ordering point of each lane's
object under way, the tile's bytes of the object written back and dropped; ACQ also acquires. -/
def Obligations.ObjectReads : Prop :=
  (∀ d a l x lit f, accessOf (.acq d a l x lit) = some f → ∀ s o s1 xs, prepare (.acq d a l x lit) s = .ok (o, s1) → (f o s1).passes s1 xs →
    ∃ u t, exec (.acq d a l x lit) s = .next t ∧ ReadsObjects o s1 u true xs ∧ Completes o u t) ∧
  (∀ d a l x lit f, accessOf (.cread d a l x lit) = some f → ∀ s o s1 xs, prepare (.cread d a l x lit) s = .ok (o, s1) → (f o s1).passes s1 xs →
    ∃ u t, exec (.cread d a l x lit) s = .next t ∧ ReadsObjects o s1 u false xs ∧ Completes o u t)

/-- O30 (R221, R228, R229). LDMX and STMX whose accesses pass the checks complete: each run of lanes reads its block with its scale as one, or
holds one write of the block and its scale. -/
def Obligations.BlockAccesses : Prop :=
  (∀ d a l x lit f, accessOf (.ldmx d a l x lit) = some f → ∀ s o s1 xs, prepare (.ldmx d a l x lit) s = .ok (o, s1) → (f o s1).passes s1 xs →
    ∃ u t, exec (.ldmx d a l x lit) s = .next t ∧ ReadsBlocks o s1 u xs ∧ Completes o u t) ∧
  (∀ d a b lit f, accessOf (.stmx d a b lit) = some f → ∀ s o s1 xs, prepare (.stmx d a b lit) s = .ok (o, s1) → (f o s1).passes s1 xs →
    ∃ u t, exec (.stmx d a b lit) s = .next t ∧ HoldsBlocks o s1 u xs ∧ Completes o u t)

/-- O31 (R211, R227, R243). FLUSH of a legal range with room in the Coolbox completes with one flush of that range held; INVL of a legal range
completes with no line of its tile and context left in the range, their dirty bytes on the way to their homes, and no byte of memory
changed. -/
def Obligations.CacheMaintenance : Prop :=
  (∀ a b lit s o s1 ea len, prepare (.flush a b lit) s = .ok (o, s1) → o.lineRange s1 ea len → o.room s1 1 = true →
    ∃ u t, exec (.flush a b lit) s = .next t ∧ Requests o s1 u ⟨1, fun _ => .flush ea len, none⟩ ∧ Completes o u t) ∧
  (∀ a b lit s o s1 ea len, prepare (.invl a b lit) s = .ok (o, s1) → o.lineRange s1 ea len → ∃ u t, exec (.invl a b lit) s = .next t ∧
    (Quiet s1 u ∧ o.uncached u ea len ∧ WritesBack s1 u (overlaps o.t.id.tile o.t.id.ctx ea (ea + len))) ∧ Completes o u t)

/-- O32 (R300, R301, R302). A FENCE of team, group or tile scope whose earlier effects are ordered completes and changes nothing else. One of
a wider scope first sends the dirty lines of its tile and context to their homes and keeps what it waits for; once that has arrived it
completes and its unbound lines are dropped. -/
def Obligations.Fences : Prop :=
  (∀ sc s o s1, prepare (.fence sc) s = .ok (o, s1) → s1.fenceMet o.t sc.toNat = true → sc.toNat < 3 → ∃ t, exec (.fence sc) s = .next t ∧ Completes o s1 t) ∧
  (∀ sc s o s1, prepare (.fence sc) s = .ok (o, s1) → s1.fenceMet o.t sc.toNat = true → 3 ≤ sc.toNat →
    (o.t.fence = none → ∃ t ids, exec (.fence sc) s = .next t ∧ t.cur.fence = some ids ∧ WritesBack s1 t o.ownsLine ∧
      Quiet { s1 with cur := t.cur } t ∧ t.cur = { s1.cur with fence := some ids, sched := t.cur.sched }) ∧
    ∀ ids, o.t.fence = some ids → s1.waitsFor ids = false → ∃ u t, exec (.fence sc) s = .next t ∧
      (Quiet { s1 with cur := { s1.cur with fence := none } } u ∧ (∀ l ∈ u.mem.lines, o.ownsLine l = true → s1.bound o.t.id.ctx l = true) ∧
        WritesBack s1 u fun l => o.ownsLine l && !s1.bound o.t.id.ctx l) ∧ Completes o u t)

/-- O33 (R226). PREF with no poisoned base or offset completes: each active lane whose line can be asked for has a fill of that line under
way; where no lane can ask, nothing changes; no register, byte of memory, line or TLB entry changes, and nothing is held in the Coolbox. -/
def Obligations.PrefetchAsksForLines : Prop :=
  ∀ a b lit s o s1, prepare (.pref a b lit) s = .ok (o, s1) → (∀ l ∈ o.lanes, (o.addrT l).p = false) →
  ∃ u t, exec (.pref a b lit) s = .next t ∧ (u = { s1 with net := u.net, draws := u.draws, serial := u.serial, nextId := u.nextId } ∧ s1.net <+: u.net ∧
    (∀ l ∈ o.lanes, ∀ pa, o.prefetches s1 l pa → ∃ y ∈ u.net, y.act = .load 0 [(l, (o.addrT l).v.toNat, [])] 0 false (some true) ∧
      y.va = (o.addrT l).v.toNat ∧ (y.point = 9999 ∨ y.pa = pa)) ∧
    ((∀ l ∈ o.lanes, ∀ pa, ¬ o.prefetches s1 l pa) → u = s1)) ∧ Completes o u t

/-- O34 (R178, R179, R221). A memory instruction whose first failing check of R221 gives a trap takes it: the team is parked at the
instruction with the cause, the failing lanes and their addresses; nothing of the instruction's effect happens. -/
def Obligations.AccessTraps : Prop :=
  ∀ i f, accessOf i = some f → ∀ s o s1 c m tv, prepare i s = .ok (o, s1) → s1.cur.id.uid ≠ 0 → (f o s1).early →
  (f o s1).check s1 = .bad (.trap c m tv false none) → ∃ t, exec i s = .next t ∧ TrapTaken s1 t c m tv o.g.pc o.g.pc o.word none

/-- O35 (R190, R221). A memory instruction whose address operands carry poison, in a team whose newest checkpoint is not retried, takes the
team back to that checkpoint. -/
def Obligations.AccessPoisonRollsBack : Prop :=
  ∀ i f, accessOf i = some f → ∀ s o s1 m tv k ks, prepare i s = .ok (o, s1) → s1.cur.id.uid ≠ 0 → (f o s1).early →
  (f o s1).check s1 = .bad (.rollback 19 m tv false) → s1.cur.ckpts = k :: ks → k.retried = false → ∃ t, exec i s = .next t ∧ RolledBack s1 t k 19

/-- O36 (R221, R324, R325). A memory instruction all of whose accesses meet a replayable translation fault, with nothing to await, parks its
team: the lanes that have still to be performed, one record for the first page with its level and address, and the group stays at the
instruction. -/
def Obligations.TranslationFaultsPark : Prop :=
  ∀ i f, accessOf i = some f → ∀ s o s1 l level va fs, prepare i s = .ok (o, s1) → (f o s1).early → (f o s1).ready [] →
  (f o s1).check s1 = .ok [] ((l, level, va) :: fs) → (f o s1).who.accessWaits s1 [] (f o s1).waits ((f o s1).units []) = none →
  ∃ u t e, exec i s = .next t ∧ FaultParked s1 u o.g.pc o.word ((f o s1).who.maskFor (((l, level, va) :: fs).map (·.1))) level va ∧
    e.stay = true ∧ Concludes o e u t

/-- O37 (R231, R232, R233, R234, R236, R237, R240, R241, R242, R243, R437). A copy instruction past its checks, with nothing to await,
completes: its copies are in the list of copies with the plan the control word and operands give, one entry of the scoreboard covers what
they read and write, the open batch counts them; no byte of memory changes at issue. -/
def Obligations.CopiesStart : Prop :=
  ∀ i P, copyOf i = some P → ∀ s o s1 r, prepare i s = .ok (o, s1) → P o s1 r → r.free s1 → ∃ u t, exec i s = .next t ∧ Starts o s1 u r ∧ Completes o u t

/-- O38 (R414, R421). BSEAL of a free tag completes with the open batch under that tag and an empty one open; BWAIT of a tag whose batch
counts 0 copies, or of a free tag, completes with the tag free; STALLRD with a legal selector completes with the counter in the pair d;
nothing else changes. -/
def Obligations.BatchInstructions : Prop :=
  HasEffect batchOf

/-- O39 (R435, R436, R453). Each completes under the conditions that its rule names with the effect it names: a port maps to a handle or to
none, the status of a queue is in d, a notification is asked for, a GROW is held as one effect. -/
def Obligations.QueueInstructions : Prop :=
  HasEffect queueOf

/-- O40 (R332). BIND and UNBIND complete under the conditions of R332 with one effect held: the entry's number and the four words that it is
to have. -/
def Obligations.BindingInstructions : Prop :=
  HasEffect bindOf

/-- O41 (R339, R341, R343, R347, R356). Each instruction of class 0xA but EQSET completes under the conditions that its rule names with one
request for the forest's engine held and its result pending. -/
def Obligations.EquivalenceInstructions : Prop :=
  HasEffect forestOf

/-- O42 (R336, R345, R346, R355, R363). EQSET of a descriptor in translated memory: of the current forest's own it completes and changes
nothing; of one that a live forest of an engine has and that no release is writing, it completes with that forest current; of one that no
engine owns and that is legal, with room in the engine, it completes with a new forest current and the write of its owner's number into
the descriptor held by the engine. -/
def Obligations.EqsetSelectsForests : Prop :=
  ∀ a lit s o s1 x, prepare (.eqset a lit) s = .ok (o, s1) → o.descriptorAt s1 x → isScratch x.ea = false →
  (∀ f, s1.currentForest o.t = some f → f.key = x.key → ∃ t, exec (.eqset a lit) s = .next t ∧ Completes o s1 t) ∧
  ((∀ f, s1.currentForest o.t = some f → f.key ≠ x.key) →
    (∀ f, s1.forestState x.key ≠ 0 → s1.forestState x.key ≤ 64 →
      s1.eq.forests.find? (fun f => f.key == x.key && f.engine + 1 == s1.forestState x.key) = some f → s1.leavingForest f = false →
      ∃ u t, exec (.eqset a lit) s = .next t ∧ Selects s1 u f.fid ∧ Completes o u t) ∧
    (∀ f, s1.forestState x.key = 0 → parseForest (s1.mem.read x.key 64) s1.nextId (o.t.id.tile / 8) o.t.id.ctx x.ea x.key = some f →
      s1.forestLegal o.t.id.tile o.t.id.ctx f = true → (s1.eq.forests.filter (·.engine == o.t.id.tile / 8)).length < 8 →
      ∃ u t h, exec (.eqset a lit) s = .next t ∧ h.rid = 0 ∧ h.engine = f.engine ∧ h.va = f.va + 48 ∧ h.pa = f.key + 48 ∧ h.n = 4 ∧ h.v = o.t.id.tile / 8 + 1 ∧
        h.p = false ∧ h.result = false ∧ h.formed = s1.now ∧
        Selects { s1 with eq := { s1.eq with forests := s1.eq.forests ++ [f], holds := s1.eq.holds ++ [h] }, nextId := u.nextId } u f.fid ∧ Completes o u t))

/-- O43 (R252, R254, R255). MCFG past its checks completes: the channel that its record names is described by the record, or gone, the other
channels and the other tiles' engines are as they were, and the record is held as one effect. -/
def Obligations.ChannelConfiguration : Prop :=
  ∀ a lit s o s1 g r, prepare (.mcfg a lit) s = .ok (o, s1) → Configures o s1 g r →
  ∃ u t, exec (.mcfg a lit) s = .next t ∧ Configured o s1 u g r ∧ Completes o u t

/-- O44 (R255, R256, R257, R258). Each matrix command that issues collectively, with a legal record of its own operation and room for it,
completes: the record is held with the next number of its channel, and d gets that number in every active lane. -/
def Obligations.MatrixCommands : Prop :=
  ∀ i op s o s1 g r, commandOp i = some op → prepare i s = .ok (o, s1) → Collective o s1 g r → s1.recordCause o.t.id.tile g.gid g.base g.size r = none →
  recOp r = op → o.commandRoom s1 r →
  ∃ u t, exec i s = .next t ∧ (∃ v, Appends o s1 v r none ∧
    Gives o v u ⟨BitVec.ofNat 64 (((s1.engine o.t.id.tile).channel? (recChan r)).map (·.number) |>.getD 0), false⟩) ∧ Completes o u t

/-- O45 (R255, R256, R257, R269). MDRAIN past its checks completes: its record is held with the next number of its channel, and its
destination registers pend in every active lane until the engine delivers. -/
def Obligations.DrainHolds : Prop :=
  ∀ d a lit s o s1 g r, prepare (.mdrain d a lit) s = .ok (o, s1) → Drains o s1 g r →
  ∃ u t, exec (.mdrain d a lit) s = .next t ∧
    (∃ v, PendsAt o s1 v (o.act.map fun l => (l, destOf o.t o.rd l, drainPer r * if recAcc64 r then 2 else 1)) Config.Q ∧
      v = { s1 with cur := { s1.cur with pend := v.cur.pend }, nextId := v.nextId } ∧ Appends o v u r (some s1.nextId)) ∧ Completes o u t

/-- O46 (R411, R300, R305, R306, R315). WAIT on an object that has reached its phase or target completes, with the regions bound to the object
when it was first issued no longer cached by its tile and context; on one that has not, the team is suspended with the object, the target
and those regions, at the instruction. -/
def Obligations.WaitInstruction : Prop :=
  ∀ d a b lit s o s1 x v, prepare (.wait d a b lit) s = .ok (o, s1) → Watches o s1 x v →
  ((o.watched s1 x.ea).reached x.ea x.key v.v.toNat = true → ∃ u t, exec (.wait d a b lit) s = .next t ∧
    (Quiet { s1 with cur := { s1.cur with wait := none } } u ∧
      ∀ l ∈ u.mem.lines, l.tile = o.t.id.tile → l.ctx = o.t.id.ctx → inRegions (o.waitRegions (o.watched s1 x.ea) x.ea) l = false) ∧
    Completes o u t) ∧
  ((o.watched s1 x.ea).reached x.ea x.key v.v.toNat = false → ∃ t w, exec (.wait d a b lit) s = .next t ∧ t.cur.status = .waiting ∧
    t.cur.wait = some w ∧ w.pc = o.g.pc ∧ w.ea = x.ea ∧ w.target = v.v.toNat ∧ w.since = o.waitSince s1 ∧ w.regions = o.waitRegions (o.watched s1 x.ea) x.ea ∧ t.cur = { s1.cur with status := .waiting, wait := t.cur.wait, sched := t.cur.sched } ∧
    Quiet { s1 with cur := t.cur } t)

/-- O47 (R66, R68, R195, R322, R334). WCS writes the low word of ISSUE_B at the control-store address that ISSUE_A names and no other word, and ends
the window's busy state. TLBINV removes the entries of its tile's TLB and table cache that the selector names and no others, then waits for the accesses
that use them, then ends the busy state. -/
def Obligations.PrivilegedInstructions : Prop :=
  (∀ a b lit s p, s.privReady = some p →
    let at_ := p.key / 64 * 4096 + bits (s.window p.key).issueA.toNat 11 0
    ∃ t, exec (.wcs a b lit) s = .next t ∧ fget 0 t.tables.store at_ = (s.window p.key).issueB.extractLsb' 0 32 ∧
      (∀ k, k ≠ at_ → fget 0 t.tables.store k = fget 0 s.tables.store k) ∧
      t.window p.key = { s.window p.key with busy := false } ∧ (∀ k, k ≠ p.key → t.window k = s.window k) ∧
      (∀ q, q ∈ t.tables.priv ↔ q ∈ s.tables.priv ∧ q.key ≠ p.key) ∧
      t = { s with tables := { s.tables with store := t.tables.store, priv := t.tables.priv, slotWindows := t.tables.slotWindows } }) ∧
  (∀ a b lit s p, s.privReady = some p →
    (p.waits = none → ∃ t, exec (.tlbinv a b lit) s = .next t ∧ (∀ e, e ∈ t.mem.tlb ↔ e ∈ s.mem.tlb ∧ ¬ tlbNamed s p.key e) ∧
      (∀ e, e ∈ t.mem.table ↔ e ∈ s.mem.table ∧ ¬ tlbNamed s p.key ⟨e.tile, e.ctx, e.va, levelSize e.level, 0⟩) ∧
      (∀ q ∈ t.tables.priv, q.key = p.key → ∃ es ids, q.waits = some ids ∧ (∀ e, e ∈ es ↔ e ∈ s.mem.tlb ∧ tlbNamed s p.key e) ∧
        ids = s.through (p.key / 64) es) ∧
      (∀ q, q.key ≠ p.key → (q ∈ t.tables.priv ↔ q ∈ s.tables.priv)) ∧
      t = { s with mem := { s.mem with tlb := t.mem.tlb, table := t.mem.table }, tables := { s.tables with priv := t.tables.priv } }) ∧
    (p.waits ≠ none → ∃ t, exec (.tlbinv a b lit) s = .next t ∧ t.window p.key = { s.window p.key with busy := false } ∧
      (∀ k, k ≠ p.key → t.window k = s.window k) ∧ (∀ q, q ∈ t.tables.priv ↔ q ∈ s.tables.priv ∧ q.key ≠ p.key) ∧
      t = { s with tables := { s.tables with priv := t.tables.priv, slotWindows := t.tables.slotWindows } }))

/-- O48 (R281, R284, R285, R286, R287, R288, R291, R292, R294, R407, R408, R410). Each event at an ordering point or home, in a state that has
what it acts on, gives the next state that its rule describes: the bytes stored and no others, the result on its way or held by the home,
and everything else as before. -/
def Obligations.HomeEvents : Prop :=
  ∀ i s P, homePromise i s = some P → ∃ t, exec i s = .next t ∧ P t

/-- O49 (R46, R91, R92, R186, R212, R295, R411, R428, R436, R437, R438). From every state, each event of the Coolbox (COOLBOX_RELEASE,
RELEASE_WRITE, ACKNOWLEDGEMENT), of the L1 (L1_EVICTION), of pending results (RESULT_LANDS), of checkpoints (CHECKPOINT_SETTLE), of frames
(RUCKSACK_SPILL, RUCKSACK_REFILL), of waiting teams (WAIT_WAKE), of reservations (RESERVATION_GRANT) and of link queues (LINK_CREDIT) gives a
next state: with the effect that its rule describes where it has something to act on and its conditions hold, and unchanged where not. -/
def Obligations.CoolboxEvents : Prop :=
  ∀ s uid l id e tile ctx va, ∀ i ∈ [Instr.coolboxRelease id, .releaseWrite id, .acknowledgement id, .l1Eviction tile ctx va, .resultLands uid id,
    .checkpointSettle uid, .waitWake uid, .reservationGrant uid, .linkCredit ctx e, .rucksackSpill uid l, .rucksackRefill uid l],
    ∃ P t, coolboxPromise i s = some P ∧ exec i s = .next t ∧ P t

/-- O50 (R234, R235, R238, R239, R243, R244, R245, R246, R247, R248). Each event of the copy engines gives the next state that its rule
describes: bytes read, written, credited or failed, and the copy one piece further; nothing else changes. -/
def Obligations.CopyEvents : Prop :=
  ∀ i s P, copyPromise i s = some P → ∃ t, exec i s = .next t ∧ P t

/-- O51 (R257, R260, R261, R262, R263, R265, R266, R269, R270, R271, R272, R273). Each event of the matrix engines gives the next state that
its rule describes for the command, its rows, its sets and its channel; no other tile's engine changes. -/
def Obligations.MatrixEvents : Prop :=
  ∀ i s P, matrixPromise i s = some P → ∃ t, exec i s = .next t ∧ P t

/-- O52 (R347, R348, R349, R350, R351, R353, R354, R356, R357, R361, R362, R363). Each event of the equivalence engines gives the next state
that its rule describes for the forest, the walk or the request, as Table 16-4 has its steps. -/
def Obligations.ForestEvents : Prop :=
  ∀ i s P, forestPromise i s = some P → ∃ t, exec i s = .next t ∧ P t

/-- O53 (R180, R325, R382, R438). Each posting event writes the record of its kind into the next slot of its ring with the ring's tail one
further; a damaged word is poisoned; a strike makes what was held since it held again. -/
def Obligations.RecordEvents : Prop :=
  ∀ i s P, recordPromise i s = some P → ∃ t, exec i s = .next t ∧ P t

/-- O54 (R440, R441, R442, R445, R447, R448, R450, R452, R455, R463, R466). Each event of the dispatcher gives the next state that its rule
describes: grids, teams admitted and retired, jobs, timetable entries, pre-emption and redirection. -/
def Obligations.DispatcherEvents : Prop :=
  ∀ i s P, dispatcherPromise i s = some P → ∃ t, exec i s = .next t ∧ P t

/-- O55 (R182, R183, R184, R195, R326, R327, R381, R382). Each command, reply, register write and read of Ranger gives the next state that its
rule describes; a refused one changes nothing but STATUS.refused. -/
def Obligations.RangerEvents : Prop :=
  ∀ i s P, rangerPromise i s = some P → ∃ t, exec i s = .next t ∧ P t

/-- O56 (R385, R386, R387, R388, R389, R390, R391, R392). Each message that comes over a link and each change of a port gives the next state
that its rule describes. -/
def Obligations.LinkEvents : Prop :=
  ∀ i s P, linkPromise i s = some P → ∃ t, exec i s = .next t ∧ P t

/-- O57 (R397, R398, R400, R401, R402, R418). Each event of the device clock, of power and of package reset, and each request to the root of
trust, gives the next state that its rule describes. The contents of the root of trust's responses are free (log entry 4), their codes
presumed from SPDM. -/
def Obligations.HubEvents : Prop :=
  (∀ i s P, hubPromise i s = some P → ∃ t, exec i s = .next t ∧ P t) ∧ ∀ i s P, trustPromise i s = some P → ∃ t, exec i s = .next t ∧ P t

/-- O58 (R371, R372, R373, R380). A call that the process layer serves is performed with the result and effect of Table 17-3 and recorded
under its identifier, or answered again from the reply cache; the calls that end or move a process, and the two sides of a migration, give
the next state that their rules describe. -/
def Obligations.CallEvents : Prop :=
  (∀ i s ctx id once perform, callOf i = some (ctx, id, once) → performRule i s = some perform →
    ∃ t, exec i s = .next t ∧ Serves ctx id once perform s t) ∧
  ∀ i s P, processPromise i s = some P → ∃ t, exec i s = .next t ∧ P t

/-- O59 (R204, R218). From every state whose memory is in canonical form (bytes and poisoned words listed by rising address, none listed with
the value that an unlisted one has), each step that answers a next state answers one whose memory is in that form. What an unlisted byte
reads as is the model's choice (log entry 1). -/
def Obligations.MemoryFormKept : Prop :=
  ∀ s t, s.MemInv → step s = .next t → t.MemInv

/-- O60 (R37, R381, R382, R416, R363). The issue of an instruction that a word encodes, in every state and whatever comes of it (its effect, a
wait, a trap, a rollback), changes no byte and no poison bit of memory at the ordering points and no table or register of the tiles'
windows and quotas, the routes, the error ring, the stall counters, the contexts' control blocks, the dispatcher, the Timetable, the
ports, clock, power, trust and processes, and nothing leaves the package: effects reach these only through the Coolbox and the units. -/
def Obligations.IssueStaysInside : Prop :=
  ∀ i s t, (encodeWord i).isSome = true → exec i s = .next t → t.beyond = s.beyond
end

