-- ==== Sys2Proof/Laws/Fmap.lean ====
section
/-! SUPPORT. The laws of finite maps: a write is read back, it leaves every other key alone, and it keeps the canonical form. -/

namespace Sys2Proof.Machine

theorem fget_dropWhile_self (d : α) (m : Fmap α) (n : Nat) : fget d (m.dropWhile fun x => decide (x.1 ≤ n)) n = d := by
  induction m with
  | nil => rfl
  | cons x m ih =>
    obtain ⟨k, v⟩ := x
    by_cases h : k ≤ n
    · simpa [h] using ih
    · have h1 : n ≠ k := by omega
      have h2 : n < k := by omega
      simp [h, fget, h1, h2]

theorem fget_dropWhile_above (d : α) (m : Fmap α) {n k : Nat} (hk : n < k) : fget d (m.dropWhile fun x => decide (x.1 ≤ n)) k = fget d m k := by
  induction m with
  | nil => rfl
  | cons x m ih =>
    obtain ⟨j, v⟩ := x
    by_cases h : j ≤ n
    · have h1 : k ≠ j := by omega
      have h2 : ¬ k < j := by omega
      simpa [h, fget, h1, h2] using ih
    · simp [h]

theorem fget_dropWhile_below (d : α) (m : Fmap α) {n k : Nat} (hk : k < n) : fget d (m.dropWhile fun x => decide (x.1 ≤ n)) k = d := by
  induction m with
  | nil => rfl
  | cons x m ih =>
    obtain ⟨j, v⟩ := x
    by_cases h : j ≤ n
    · simpa [h] using ih
    · have h1 : k ≠ j := by omega
      have h2 : k < j := by omega
      simp [h, fget, h1, h2]

/-- What is written is read back. -/
@[simp] theorem fget_fput_self [DecidableEq α] (d : α) (m : Fmap α) (n : Nat) (v : α) : fget d (fput d m n v) n = v := by
  induction m with
  | nil => by_cases h : v = d <;> simp [fput, fget, h]
  | cons x m ih =>
    obtain ⟨k, w⟩ := x
    rcases Nat.lt_trichotomy n k with h | h | h
    · have h1 : n ≠ k := by omega
      by_cases hv : v = d <;> simp [fput, fget, h, h1, hv]
    · subst h
      by_cases hv : v = d
      · simp [fput, hv, fget_dropWhile_self]
      · simp [fput, fget, hv]
    · have h1 : ¬ n < k := by omega
      have h2 : n ≠ k := by omega
      simpa [fput, fget, h1, h2] using ih

/-- Every other key reads as before. -/
theorem fget_fput_of_ne [DecidableEq α] (d : α) (m : Fmap α) {n k : Nat} (v : α) (h : k ≠ n) : fget d (fput d m n v) k = fget d m k := by
  induction m with
  | nil =>
    by_cases hv : v = d
    · simp [fput, hv]
    · by_cases h2 : k < n <;> simp [fput, fget, hv, h]
  | cons x m ih =>
    obtain ⟨j, w⟩ := x
    rcases Nat.lt_trichotomy n j with hj | hj | hj
    · by_cases hv : v = d
      · simp [fput, hj, hv]
      · by_cases hk : k < n
        · have h1 : k ≠ j := by omega
          have h2 : k < j := by omega
          simp [fput, hj, hv, fget, h, hk, h1, h2]
        · simp [fput, hj, hv, fget, h, hk]
    · subst hj
      by_cases hv : v = d
      · rcases Nat.lt_or_gt_of_ne h with hk | hk
        · simp [fput, hv, fget, h, hk, fget_dropWhile_below]
        · have h2 : ¬ k < n := by omega
          simp [fput, hv, fget, h, h2, fget_dropWhile_above d m hk]
      · by_cases hk : k < n <;> simp [fput, fget, hv, h, hk]
    · have h1 : ¬ n < j := by omega
      have h2 : n ≠ j := by omega
      by_cases hk : k = j
      · simp [fput, fget, h1, h2, hk]
      · by_cases hk2 : k < j <;> simp [fput, fget, h1, h2, hk, hk2, ih]

theorem fget_fput [DecidableEq α] (d : α) (m : Fmap α) (n k : Nat) (v : α) :
    fget d (fput d m n v) k = if k = n then v else fget d m k := by
  by_cases h : k = n
  · simp [h]
  · simp [h, fget_fput_of_ne d m v h]

/-! ### The canonical form -/

theorem fwfFrom_mono [DecidableEq α] {d : α} {lo hi : Nat} {m : Fmap α} (h : lo ≤ hi) (hm : fwfFrom d hi m = true) : fwfFrom d lo m = true := by
  cases m with
  | nil => rfl
  | cons x m =>
    obtain ⟨k, v⟩ := x
    simp only [fwfFrom, Bool.and_eq_true, decide_eq_true_eq] at hm ⊢
    exact ⟨⟨by omega, hm.1.2⟩, hm.2⟩

theorem dropWhile_of_fwfFrom [DecidableEq α] {d : α} {n : Nat} {m : Fmap α} (hm : fwfFrom d (n + 1) m = true) :
    m.dropWhile (fun x => decide (x.1 ≤ n)) = m := by
  cases m with
  | nil => rfl
  | cons x m =>
    obtain ⟨k, v⟩ := x
    simp only [fwfFrom, Bool.and_eq_true, decide_eq_true_eq] at hm
    have : ¬ k ≤ n := by omega
    simp [this]

theorem fwfFrom_fput [DecidableEq α] {d : α} {m : Fmap α} {lo n : Nat} (v : α) (h : lo ≤ n) (hm : fwfFrom d lo m = true) :
    fwfFrom d lo (fput d m n v) = true := by
  induction m generalizing lo with
  | nil => by_cases hv : v = d <;> simp [fput, fwfFrom, hv, h]
  | cons x m ih =>
    obtain ⟨k, w⟩ := x
    simp only [fwfFrom, Bool.and_eq_true, decide_eq_true_eq] at hm
    obtain ⟨⟨hk, hw⟩, hr⟩ := hm
    rcases Nat.lt_trichotomy n k with hn | hn | hn
    · by_cases hv : v = d
      · simp [fput, hn, hv, fwfFrom, hk, hw, hr]
      · have : n + 1 ≤ k := by omega
        simp [fput, hn, hv, fwfFrom, h, hw, hr, this]
    · subst hn
      by_cases hv : v = d
      · simp only [fput, hv, Nat.lt_irrefl, if_false, if_true]
        rw [dropWhile_of_fwfFrom hr]
        exact fwfFrom_mono (by omega) hr
      · simp [fput, hv, fwfFrom, h, hr]
    · have h1 : ¬ n < k := by omega
      have h2 : n ≠ k := by omega
      simp [fput, h1, h2, fwfFrom, hk, hw, ih (lo := k + 1) (by omega) hr]

/-- Setting a key keeps the canonical form. -/
theorem fwf_fput [DecidableEq α] {d : α} {m : Fmap α} (n : Nat) (v : α) (hm : fwf d m = true) : fwf d (fput d m n v) = true :=
  fwfFrom_fput v (Nat.zero_le n) hm

@[simp] theorem fwf_nil [DecidableEq α] (d : α) : fwf d ([] : Fmap α) = true := rfl

end Sys2Proof.Machine
end

