-- ==== Sys2Proof/Laws/Memory.lean ====
section
/-! SUPPORT. The laws of memory: what is written is read back, every other byte is left alone, and the canonical form is kept. -/

namespace Sys2Proof.Machine

@[simp] theorem Mem.get_set_self (m : Mem) (k : Nat) (b : Byte) : (m.set k b).get k = b := by simp [Mem.get, Mem.set]
theorem Mem.get_set (m : Mem) (k j : Nat) (b : Byte) : (m.set k b).get j = if j = k then b else m.get j := by
  simp [Mem.get, Mem.set, fget_fput]
@[simp] theorem Mem.set_poison (m : Mem) (k : Nat) (b : Byte) : (m.set k b).poison = m.poison := rfl
@[simp] theorem Mem.set_lines (m : Mem) (k : Nat) (b : Byte) : (m.set k b).lines = m.lines := rfl
@[simp] theorem Mem.get_setPoison (m : Mem) (k j : Nat) (p : Bool) : (m.setPoison k p).get j = m.get j := rfl
theorem Mem.poisoned_setPoison (m : Mem) (k j : Nat) (p : Bool) : (m.setPoison k p).poisoned j = if j / 4 = k / 4 then p else m.poisoned j := by
  simp [Mem.poisoned, Mem.setPoison, fget_fput]

/-- A byte outside the stored bytes reads as before; one inside reads what was stored. -/
theorem Mem.get_write (m : Mem) (k : Nat) (bs : List Byte) (j : Nat) :
    (m.write k bs).get j = if k ≤ j ∧ j < k + bs.length then bs.getD (j - k) 0 else m.get j := by
  induction bs generalizing m k with
  | nil => simp [Mem.write] <;> omega
  | cons b bs ih =>
    rw [Mem.write, ih, Mem.get_set]
    by_cases h1 : j = k
    · subst h1
      have h2 : ¬ (j + 1 ≤ j ∧ j < j + 1 + bs.length) := by omega
      simp [h2]
    · by_cases h2 : k + 1 ≤ j ∧ j < k + 1 + bs.length
      · have h3 : k ≤ j ∧ j < k + (b :: bs).length := by simp; omega
        have h4 : j - k = (j - (k + 1)) + 1 := by omega
        rw [if_pos h2, if_pos h3, h4]
        simp
      · have h3 : ¬ (k ≤ j ∧ j < k + (b :: bs).length) := by simp; omega
        rw [if_neg h2, if_neg h3, if_neg h1]

@[simp] theorem Mem.write_poison (m : Mem) (k : Nat) (bs : List Byte) : (m.write k bs).poison = m.poison := by
  induction bs generalizing m k with
  | nil => rfl
  | cons b bs ih => rw [Mem.write, ih]; rfl

theorem foldl_keeps {β γ : Type} (P : β → Prop) (f : β → γ → β) (hf : ∀ b c, P b → P (f b c)) (l : List γ) (b : β) (h : P b) : P (l.foldl f b) := by
  induction l generalizing b with
  | nil => exact h
  | cons c l ih => exact ih (f b c) (hf b c h)

/-- Storing data with its poison writes exactly the data's bytes. -/
theorem Mem.get_store (m : Mem) (k : Nat) (data : List (Byte × Bool)) (j : Nat) : (m.store k data).get j = (m.write k (data.map (·.1))).get j := by
  unfold Mem.store
  refine foldl_keeps (fun (x : Mem) => x.get j = (m.write k (data.map (·.1))).get j) _ (fun acc i h => ?_) _ _ rfl
  dsimp only
  split
  · simpa using h
  · split
    · simpa using h
    · exact h

/-! ### The canonical form -/

theorem Mem.wf_set {m : Mem} (k : Nat) (b : Byte) (h : m.wf = true) : (m.set k b).wf = true := by
  simp only [Mem.wf, Bool.and_eq_true] at h ⊢
  exact ⟨fwf_fput k b h.1, h.2⟩

theorem Mem.wf_setPoison {m : Mem} (k : Nat) (p : Bool) (h : m.wf = true) : (m.setPoison k p).wf = true := by
  simp only [Mem.wf, Bool.and_eq_true] at h ⊢
  exact ⟨h.1, fwf_fput (k / 4) p h.2⟩

theorem Mem.wf_write {m : Mem} (k : Nat) (bs : List Byte) (h : m.wf = true) : (m.write k bs).wf = true := by
  induction bs generalizing m k with
  | nil => exact h
  | cons b bs ih => exact ih (k + 1) (Mem.wf_set k b h)

theorem Mem.wf_store {m : Mem} (k : Nat) (data : List (Byte × Bool)) (h : m.wf = true) : (m.store k data).wf = true := by
  unfold Mem.store
  refine foldl_keeps (fun (x : Mem) => x.wf = true) _ (fun acc i h => ?_) _ _ (Mem.wf_write k _ h)
  dsimp only
  split
  · exact Mem.wf_setPoison _ _ h
  · split
    · exact Mem.wf_setPoison _ _ h
    · exact h

end Sys2Proof.Machine
end

