-- ==== Sys2Proof/Laws/Issue.lean ====
section
/-! SUPPORT. What an issue does besides an instruction's own effect, said once: preparing, completing, trapping, stalling. -/

namespace Sys2Proof.Machine

theorem Settles.refl (s : State) : Settles s s := ⟨List.prefix_refl _, rfl, rfl, rfl, rfl, rfl⟩

theorem Settles.trans {a b c : State} (h : Settles a b) (k : Settles b c) : Settles a c := by
  refine ⟨h.coolbox.trans k.coolbox, k.ctxs.trans h.ctxs, k.pend.trans h.pend, ?_, ?_, ?_⟩
  · have x := k.arch; rw [h.arch] at x; exact x
  · have x := k.team; rw [h.team] at x; exact x
  · have x := k.rest; rw [h.rest] at x; exact x

/-- Holding an effect only adds it to the Coolbox. -/
theorem settles_hold (s : State) (t : Team) (pc : BitVec 48) (w : Word) (m : LaneMask) (n : Nat) (e : Effect) : Settles s (s.hold t pc w m n e) :=
  ⟨⟨_, rfl⟩, rfl, rfl, rfl, rfl, rfl⟩

theorem settles_foldl {α : Type} (f : State → α → State) (hf : ∀ s x, Settles s (f s x)) (l : List α) (s : State) : Settles s (l.foldl f s) :=
  foldl_keeps (fun t => Settles s t) f (fun t x h => h.trans (hf t x)) l s (Settles.refl s)

theorem settles_holdPops (o : Issue) (s : State) (e : End) : Settles s (holdPops o s e) := by
  unfold holdPops
  refine settles_foldl _ (fun s x => ?_) _ s
  obtain ⟨key, slots⟩ := x
  dsimp only
  split
  · exact Settles.refl s
  · split
    · exact settles_hold ..
    · exact Settles.refl s

theorem settles_progress (s : State) (c : Nat) : Settles s (s.progress c) := by
  refine ⟨List.prefix_refl _, ?_, rfl, rfl, rfl, rfl⟩
  simp only [State.progress, State.modCtx, modifyWhere, List.map_map]
  refine List.map_congr_left fun x _ => ?_
  simp only [Function.comp]
  split <;> rfl

/-- Teams that differ only in their groups, counts, checkpoints and grants. -/
theorem settles_cur {s : State} {t : Team} (hp : t.pend.map Pend.still = s.cur.pend.map Pend.still)
    (ha : t.arch = { s.cur.arch with
      groups := t.arch.groups, moved := t.arch.moved, pc := t.arch.pc, only := t.arch.only, rep := t.arch.rep, mac := t.arch.mac })
    (ht : t = { s.cur with
      arch := t.arch, shadow := t.shadow, ckpts := t.ckpts, pend := t.pend, grants := t.grants, wants := t.wants, sched := t.sched }) :
    Settles s { s with cur := t } := ⟨List.prefix_refl _, rfl, hp, ha, ht, rfl⟩

/-- A team that differs from another only in what an issue changes. -/
structure TeamSettles (u t : Team) : Prop where
  pend : t.pend.map Pend.still = u.pend.map Pend.still
  arch : t.arch = { u.arch with
    groups := t.arch.groups, moved := t.arch.moved, pc := t.arch.pc, only := t.arch.only, rep := t.arch.rep, mac := t.arch.mac }
  team : t = { u with
    arch := t.arch, shadow := t.shadow, ckpts := t.ckpts, pend := t.pend, grants := t.grants, wants := t.wants, sched := t.sched }

theorem TeamSettles.refl (t : Team) : TeamSettles t t := ⟨rfl, rfl, rfl⟩

theorem TeamSettles.trans {a b c : Team} (h : TeamSettles a b) (k : TeamSettles b c) : TeamSettles a c := by
  refine ⟨k.pend.trans h.pend, ?_, ?_⟩
  · have x := k.arch; rw [h.arch] at x; exact x
  · have x := k.team; rw [h.team] at x; exact x

theorem TeamSettles.settles {s : State} {t : Team} (h : TeamSettles s.cur t) : Settles s { s with cur := t } :=
  settles_cur h.pend h.arch h.team

/-- Joining a group changes nothing but the groups. -/
theorem Team.join_eq (t : Team) (g : Group) : ∃ gs ms, t.join g = { t with arch := { t.arch with groups := gs, moved := ms } } := by
  unfold Team.join
  dsimp only
  split
  · exact ⟨_, t.arch.moved, rfl⟩
  · split <;> exact ⟨_, _, rfl⟩

theorem Team.place_eq (t : Team) (g : Group) (sig : Word) (fall : BitVec 48) (e : End) (now : Nat) :
    ∃ gs ms, t.place_ g sig fall e now = { t with arch := { t.arch with groups := gs, moved := ms } } := by
  unfold Team.place_
  refine foldl_keeps (fun (x : Team) => ∃ gs ms, x = { t with arch := { t.arch with groups := gs, moved := ms } }) _ (fun x p h => ?_) _ _ ⟨_, _, rfl⟩
  obtain ⟨pc, m, k⟩ := p
  obtain ⟨gs, ms, rfl⟩ := h
  obtain ⟨gs', ms', h⟩ := Team.join_eq { t with arch := { t.arch with groups := gs, moved := ms } } ⟨pc, m, _, _, _, _⟩
  exact ⟨gs', ms', h⟩

theorem Team.place_settles (t : Team) (g : Group) (sig : Word) (fall : BitVec 48) (e : End) (now : Nat) : TeamSettles t (t.place_ g sig fall e now) := by
  obtain ⟨gs, ms, h⟩ := t.place_eq g sig fall e now
  rw [h]; exact ⟨rfl, rfl, rfl⟩

theorem Team.keepGroup_settles (t : Team) (pc : BitVec 48) (sig : Word) (r : Bool) (now : Nat) : TeamSettles t (t.keepGroup pc sig r now) := ⟨rfl, rfl, rfl⟩

theorem Team.sequence_settles (t : Team) (e : End) (keep : Team → Team) (hk : ∀ t, TeamSettles t (keep t)) : TeamSettles t (t.sequence e keep).1 := by
  unfold Team.sequence
  split
  · split
    · exact hk t
    · split
      · exact TeamSettles.trans (b := t.setArch _) ⟨rfl, rfl, rfl⟩ (hk _)
      · exact ⟨rfl, rfl, rfl⟩
  · split
    · exact hk t
    · exact TeamSettles.trans (b := t.setArch _) ⟨rfl, rfl, rfl⟩ (hk _)
  · split
    · exact hk t
    · exact TeamSettles.refl t

theorem Team.sequence_sched (t : Team) (e : End) (keep : Team → Team) (hk : ∀ t, (keep t).sched = t.sched) : (t.sequence e keep).1.sched = t.sched := by
  unfold Team.sequence
  split
  · split
    · exact hk t
    · split
      · exact hk _
      · rfl
  · split
    · exact hk t
    · exact hk _
  · split
    · exact hk t
    · rfl

theorem Team.after_settles (t : Team) (o : Issue) (e : End) (now : Nat) : TeamSettles t (t.after o e now) := by
  have h1 : TeamSettles t (t.counted o e (t.fallPc o) now) := ⟨rfl, rfl, rfl⟩
  have h2 := Team.sequence_settles (t.counted o e (t.fallPc o) now) e (fun t => t.keepGroup o.g.pc (o.newSig e) e.sig.isSome now)
    (fun t => Team.keepGroup_settles t _ _ _ _)
  unfold Team.after
  dsimp only
  split
  · exact (h1.trans h2).trans ⟨rfl, rfl, rfl⟩
  · exact (h1.trans h2).trans ((Team.place_settles _ _ _ _ _ _).trans ⟨rfl, rfl, rfl⟩)

theorem Team.after_issues (t : Team) (o : Issue) (e : End) (now : Nat) : (t.after o e now).sched.issues = t.sched.issues + 1 := by
  have h := Team.sequence_sched (t.counted o e (t.fallPc o) now) e (fun t => t.keepGroup o.g.pc (o.newSig e) e.sig.isSome now)
    (fun t => rfl)
  unfold Team.after
  dsimp only
  split
  · simp only; rw [h]; rfl
  · simp only; rw [h]; rfl

theorem Team.moveOut_settles (t : Team) : TeamSettles t t.moveOut := by
  unfold Team.moveOut
  split
  · exact TeamSettles.refl t
  · exact ⟨rfl, rfl, rfl⟩

theorem Team.overflow_settles (t : Team) (n : Nat) : TeamSettles t (t.overflow n) := by
  induction n generalizing t with
  | zero => exact TeamSettles.refl t
  | succ n ih =>
    unfold Team.overflow
    split
    · exact TeamSettles.refl t
    · exact t.moveOut_settles.trans (ih _)

theorem Team.overflow_sched (t : Team) (n : Nat) : (t.overflow n).sched = t.sched := by
  induction n generalizing t with
  | zero => rfl
  | succ n ih =>
    unfold Team.overflow
    split
    · rfl
    · rw [ih]
      unfold Team.moveOut
      split <;> rfl

theorem settles_checkpoint (s : State) : Settles s s.implicitCheckpoint := by
  refine ⟨List.prefix_refl _, rfl, ?_, rfl, rfl, rfl⟩
  simp only [State.implicitCheckpoint, fresh, Team.checkpoint, List.map_map]
  refine List.map_congr_left fun p _ => ?_
  by_cases h : p.issueNo + 1 = s.cur.sched.issues
  · simp [h, Pend.still]
  · simp [h]

theorem settles_occupy (s : State) (e : End) : Settles s (s.occupy e) := ⟨List.prefix_refl _, rfl, rfl, rfl, rfl, rfl⟩

theorem holdPops_cur (o : Issue) (s : State) (e : End) : (holdPops o s e).cur = s.cur := by
  unfold holdPops
  refine foldl_keeps (fun (x : State) => x.cur = s.cur) _ (fun x p h => ?_) _ _ rfl
  obtain ⟨key, slots⟩ := p
  dsimp only
  split
  · exact h
  · split
    · exact h
    · exact h

/-- Completing an instruction: its own effect stands, and the issue is counted. -/
theorem finish_settles (o : Issue) (s : State) (e : End) :
    Settles s (finish o s e) ∧ (finish o s e).cur.sched.issues = s.cur.sched.issues + 1 := by
  have h1 := settles_holdPops o s e
  have h2 := ((Team.after_settles (holdPops o s e).cur o e (holdPops o s e).now).trans
    (Team.overflow_settles _ ((holdPops o s e).cur.after o e (holdPops o s e).now).arch.groups.length)).settles (s := holdPops o s e)
  have hs : (((holdPops o s e).cur.after o e (holdPops o s e).now).overflow
      ((holdPops o s e).cur.after o e (holdPops o s e).now).arch.groups.length).sched.issues = s.cur.sched.issues + 1 := by
    rw [Team.overflow_sched, Team.after_issues, holdPops_cur]
  have h3 := h1.trans h2
  unfold finish
  dsimp only
  split
  · exact ⟨(h3.trans (settles_checkpoint _)).trans ((settles_progress _ _).trans (settles_occupy _ _)), hs⟩
  · exact ⟨h3.trans ((settles_progress _ _).trans (settles_occupy _ _)), hs⟩

end Sys2Proof.Machine
end

