-- ==== Sys2Proof/Laws/Registers.lean ====
section
/-! SUPPORT. Writing registers: what a result changes, and what it leaves alone. -/

namespace Sys2Proof.Machine

theorem modifyAt_length (f : α → α) (l : List α) (n : Nat) : (modifyAt f l n).length = l.length := by
  induction l generalizing n with
  | nil => rfl
  | cons x l ih => cases n <;> simp [modifyAt, ih]

theorem getD_modifyAt (f : α → α) (l : List α) (n k : Nat) (d : α) :
    (modifyAt f l n).getD k d = if k = n ∧ n < l.length then f (l.getD n d) else l.getD k d := by
  induction l generalizing n k with
  | nil => simp [modifyAt]
  | cons x l ih =>
    cases n with
    | zero => cases k <;> simp [modifyAt]
    | succ n => cases k with
      | zero => simp [modifyAt]
      | succ k => simpa [modifyAt] using ih n k

/-- Words put from key `n` up are read back; every other key reads as before. -/
theorem fget_putWords (m : Fmap PWord) (n k : Nat) (ws : List PWord) (b : Nat) :
    fget PWord.zero ((ws.zipIdx b).foldl (fun m (x : PWord × Nat) => fput PWord.zero m (n + x.2) x.1) m) k =
      if n + b ≤ k ∧ k < n + b + ws.length then ws.getD (k - (n + b)) PWord.zero else fget PWord.zero m k := by
  induction ws generalizing m b with
  | nil => simp <;> omega
  | cons w ws ih =>
    rw [List.zipIdx_cons, List.foldl_cons, ih, fget_fput]
    by_cases h1 : k = n + b
    · subst h1
      have h2 : ¬ (n + (b + 1) ≤ n + b ∧ n + b < n + (b + 1) + ws.length) := by omega
      rw [if_neg h2]
      simp
    · by_cases h2 : n + (b + 1) ≤ k ∧ k < n + (b + 1) + ws.length
      · have h3 : n + b ≤ k ∧ k < n + b + (w :: ws).length := by simp; omega
        have h4 : k - (n + b) = (k - (n + (b + 1))) + 1 := by omega
        rw [if_pos h2, if_pos h3, h4]; simp
      · have h3 : ¬ (n + b ≤ k ∧ k < n + b + (w :: ws).length) := by simp; omega
        rw [if_neg h2, if_neg h3, if_neg h1]

theorem getD_setWords (k : List PWord) (n i : Nat) (ws : List PWord) (b : Nat) :
    ((ws.zipIdx b).foldl (fun k (x : PWord × Nat) => k.set (n + x.2) x.1) k).getD i PWord.zero =
      if n + b ≤ i ∧ i < n + b + ws.length ∧ i < k.length then ws.getD (i - (n + b)) PWord.zero else k.getD i PWord.zero := by
  induction ws generalizing k b with
  | nil => simp <;> omega
  | cons w ws ih =>
    rw [List.zipIdx_cons, List.foldl_cons, ih]
    simp only [List.length_set]
    by_cases h1 : i = n + b
    · subst h1
      have h2 : ¬ (n + (b + 1) ≤ n + b ∧ n + b < n + (b + 1) + ws.length ∧ n + b < k.length) := by omega
      rw [if_neg h2]
      by_cases h3 : n + b < k.length
      · simp [h3]
      · simp [h3]
    · have hs : (k.set (n + b) w).getD i PWord.zero = k.getD i PWord.zero := by
        simp [Ne.symm h1]
      by_cases h2 : n + (b + 1) ≤ i ∧ i < n + (b + 1) + ws.length ∧ i < k.length
      · have h3 : n + b ≤ i ∧ i < n + b + (w :: ws).length ∧ i < k.length := by simp; omega
        have h4 : i - (n + b) = (i - (n + (b + 1))) + 1 := by omega
        rw [if_pos h2, if_pos h3, h4]; simp
      · have h3 : ¬ (n + b ≤ i ∧ i < n + b + (w :: ws).length ∧ i < k.length) := by simp; omega
        rw [if_neg h2, if_neg h3, hs]

theorem length_setWords (k : List PWord) (n : Nat) (ws : List (PWord × Nat)) :
    (ws.foldl (fun k (x : PWord × Nat) => k.set (n + x.2) x.1) k).length = k.length :=
  foldl_keeps (fun (x : List PWord) => x.length = k.length) _ (fun x p h => by simpa using h) _ _ rfl

/-- A frame slot after a write to a destination. -/
theorem slotWord_write (t : Team) (d : Dest) (ws : List PWord) (l n : Nat) :
    (t.write d ws).slotWord l n = match d with
      | .slot k m => if l = k ∧ k < t.frames.length ∧ m ≤ n ∧ n < m + ws.length then ws.getD (n - m) PWord.zero else t.slotWord l n
      | _ => t.slotWord l n := by
  cases d with
  | slot k m =>
    simp only [Team.write, Team.setFrame, Team.slotWord, Team.frame, getD_modifyAt]
    by_cases h : l = k ∧ k < t.frames.length
    · obtain ⟨rfl, hk⟩ := h
      have := fget_putWords (t.frames.getD l Frame.zero).slots m n ws 0
      simp only [Nat.add_zero] at this
      simp only [hk, true_and, and_self, if_true, this]
    · have h2 : ¬ (l = k ∧ k < t.frames.length ∧ m ≤ n ∧ n < m + ws.length) := fun x => h ⟨x.1, x.2.1⟩
      rw [if_neg h, if_neg h2]
  | _ => rfl

/-- A uniform register after a write to a destination. -/
theorem uni_write (t : Team) (d : Dest) (ws : List PWord) (n : Nat) :
    (t.write d ws).arch.k.getD n PWord.zero = match d with
      | .uni m => if m ≤ n ∧ n < m + ws.length ∧ n < t.arch.k.length then ws.getD (n - m) PWord.zero else t.arch.k.getD n PWord.zero
      | _ => t.arch.k.getD n PWord.zero := by
  cases d with
  | uni m => exact getD_setWords t.arch.k m n ws 0
  | _ => rfl

/-- Is a destination one that results of an instruction name: not a format register? -/
def Dest.plain : Dest → Bool
  | .fmt _ => false
  | _ => true

theorem destOf_plain (t : Team) (r : Reg) (l : Nat) : (destOf t r l).plain = true := by
  unfold destOf; split <;> rfl

/-- What a write leaves alone. -/
structure WriteKeeps (u t : Team) : Prop where
  frames : t.frames.map Frame.bounds = u.frames.map Frame.bounds
  klen : t.arch.k.length = u.arch.k.length
  llen : t.arch.lanes.length = u.arch.lanes.length
  team : t = { u with arch := { u.arch with k := t.arch.k, lanes := t.arch.lanes }, frames := t.frames }
  lanes : ∀ l, (t.lane l).fp = (u.lane l).fp ∧ (t.lane l).depth = (u.lane l).depth ∧ (t.lane l).seed = (u.lane l).seed

theorem WriteKeeps.refl (t : Team) : WriteKeeps t t := ⟨rfl, rfl, rfl, rfl, fun _ => ⟨rfl, rfl, rfl⟩⟩

theorem WriteKeeps.trans {a b c : Team} (h : WriteKeeps a b) (k : WriteKeeps b c) : WriteKeeps a c := by
  refine ⟨k.frames.trans h.frames, k.klen.trans h.klen, k.llen.trans h.llen, ?_, fun l => ?_⟩
  · have x := k.team; rw [h.team] at x; exact x
  · obtain ⟨a1, a2, a3⟩ := h.lanes l; obtain ⟨b1, b2, b3⟩ := k.lanes l
    exact ⟨b1.trans a1, b2.trans a2, b3.trans a3⟩

theorem WriteKeeps.flen {u t : Team} (h : WriteKeeps u t) : t.frames.length = u.frames.length := by
  simpa using congrArg List.length h.frames

theorem map_modifyAt (g : α → β) (f : α → α) (hf : ∀ x, g (f x) = g x) (l : List α) (n : Nat) : (modifyAt f l n).map g = l.map g := by
  induction l generalizing n with
  | nil => rfl
  | cons x l ih => cases n <;> simp [modifyAt, hf, ih]

theorem write_keeps (t : Team) (d : Dest) (ws : List PWord) (hd : d.plain = true) : WriteKeeps t (t.write d ws) := by
  cases d with
  | slot l n => exact ⟨by simp only [Team.write, Team.setFrame]; refine map_modifyAt _ _ (fun x => ?_) _ _; rfl, rfl, rfl, rfl, fun _ => ⟨rfl, rfl, rfl⟩⟩
  | uni n => exact ⟨rfl, length_setWords _ _ _, rfl, rfl, fun _ => ⟨rfl, rfl, rfl⟩⟩
  | fmt n => simp [Dest.plain] at hd
  | _ => exact WriteKeeps.refl t

/-- Codes and exception flags of one lane. -/
theorem setCodes_keeps (t : Team) (l : Nat) (f : Codes → Codes) (g : BitVec 5 → BitVec 5) :
    WriteKeeps t (t.setLane l fun ln => { ln with cc := f ln.cc, xflags := g ln.xflags }) := by
  refine ⟨rfl, rfl, modifyAt_length _ _ _, rfl, fun k => ?_⟩
  simp only [Team.setLane, Team.lane, getD_modifyAt]
  by_cases h : k = l ∧ l < t.arch.lanes.length
  · obtain ⟨rfl, h⟩ := h; simp [h]
  · simp [h]

theorem lane_write (t : Team) (d : Dest) (ws : List PWord) (l : Nat) : (t.write d ws).lane l = t.lane l := by
  cases d <;> rfl

end Sys2Proof.Machine
end

