-- ==== Sys2Proof/Laws/Compute.lean ====
section
/-! SUPPORT. Results that land as an instruction issues: `Issue.commit` computes what `Computes` says. -/

namespace Sys2Proof.Machine

/-- Landing one result. -/
def Team.land (t : Team) (r : LaneResult) : Team :=
  (if r.words.isEmpty then t else t.write r.dest r.words).setLane r.lane fun ln => { ln with cc := r.cc.getD ln.cc, xflags := ln.xflags ||| r.xf }

theorem land_keeps (t : Team) (r : LaneResult) (h : r.dest.plain = true) : WriteKeeps t (t.land r) := by
  unfold Team.land
  split
  · exact setCodes_keeps t r.lane (fun c => r.cc.getD c) (fun x => x ||| r.xf)
  · exact (write_keeps t _ _ h).trans (setCodes_keeps _ r.lane (fun c => r.cc.getD c) (fun x => x ||| r.xf))

theorem lands_keeps (rs : List LaneResult) (h : ∀ r ∈ rs, r.dest.plain = true) (t : Team) : WriteKeeps t (rs.foldl Team.land t) := by
  induction rs generalizing t with
  | nil => exact WriteKeeps.refl t
  | cons r rs ih =>
    exact (land_keeps t r (h r (by simp))).trans (ih (fun q hq => h q (by simp [hq])) _)

theorem slotWord_land (t : Team) (r : LaneResult) (l n : Nat) (h : ¬ r.dest.hasSlot r.words.length l n) : (t.land r).slotWord l n = t.slotWord l n := by
  unfold Team.land
  split
  · rfl
  · show (t.write r.dest r.words).slotWord l n = _
    rw [slotWord_write]
    cases hd : r.dest with
    | slot k m =>
      have h' : ¬ (l = k ∧ k < t.frames.length ∧ m ≤ n ∧ n < m + r.words.length) := by
        rintro ⟨rfl, _, h1, h2⟩; exact h (by simp [Dest.hasSlot, hd, h1, h2])
      simp [h']
    | _ => rfl

theorem uni_land (t : Team) (r : LaneResult) (n : Nat) (h : ¬ r.dest.hasUni r.words.length n) :
    (t.land r).arch.k.getD n PWord.zero = t.arch.k.getD n PWord.zero := by
  unfold Team.land
  split
  · rfl
  · show (t.write r.dest r.words).arch.k.getD n PWord.zero = _
    rw [uni_write]
    cases hd : r.dest with
    | uni m =>
      have h' : ¬ (m ≤ n ∧ n < m + r.words.length ∧ n < t.arch.k.length) := by
        rintro ⟨h1, h2, _⟩; exact h (by simp [Dest.hasUni, hd, h1, h2])
      simp only [h', if_false]
    | _ => rfl

theorem slotWord_lands (rs : List LaneResult) (t : Team) (l n : Nat) (h : ∀ r ∈ rs, ¬ r.dest.hasSlot r.words.length l n) :
    (rs.foldl Team.land t).slotWord l n = t.slotWord l n := by
  induction rs generalizing t with
  | nil => rfl
  | cons r rs ih => rw [List.foldl_cons, ih _ (fun q hq => h q (by simp [hq])), slotWord_land _ _ _ _ (h r (by simp))]

theorem uni_lands (rs : List LaneResult) (t : Team) (n : Nat) (h : ∀ r ∈ rs, ¬ r.dest.hasUni r.words.length n) :
    (rs.foldl Team.land t).arch.k.getD n PWord.zero = t.arch.k.getD n PWord.zero := by
  induction rs generalizing t with
  | nil => rfl
  | cons r rs ih => rw [List.foldl_cons, ih _ (fun q hq => h q (by simp [hq])), uni_land _ _ _ (h r (by simp))]

/-- Two results write no register in common. -/
def Apart (r q : LaneResult) : Prop :=
  (∀ l n, r.dest.hasSlot r.words.length l n → ¬ q.dest.hasSlot q.words.length l n) ∧
  (∀ n, r.dest.hasUni r.words.length n → ¬ q.dest.hasUni q.words.length n)

theorem land_holds (t : Team) (r : LaneResult) : destHolds t (t.land r) r.dest r.words := by
  cases hd : r.dest with
  | slot l m =>
    intro hl j hj
    have hw : ¬ r.words.isEmpty := by cases hr : r.words <;> simp_all
    unfold Team.land
    rw [if_neg hw]
    show (t.write r.dest r.words).slotWord l (m + j) = _
    rw [slotWord_write, hd]
    simp [hl, hj]
  | uni m =>
    intro j hj hl
    have hw : ¬ r.words.isEmpty := by cases hr : r.words <;> simp_all
    unfold Team.land
    rw [if_neg hw]
    show (t.write r.dest r.words).arch.k.getD (m + j) PWord.zero = _
    rw [uni_write, hd]
    simp [hj, hl]
  | _ => trivial

/-- The destination of each result holds its words when all have landed. -/
theorem lands_hold (rs : List LaneResult) (t : Team) (hp : ∀ r ∈ rs, r.dest.plain = true) (hs : rs.Pairwise Apart) (r : LaneResult) (hr : r ∈ rs) :
    destHolds t (rs.foldl Team.land t) r.dest r.words := by
  induction rs generalizing t with
  | nil => simp at hr
  | cons q rs ih =>
    obtain ⟨h1, h2⟩ := List.pairwise_cons.1 hs
    have hq := land_keeps t q (hp q (by simp))
    rcases List.mem_cons.1 hr with rfl | hr
    · have hh := land_holds t r
      cases hd : r.dest with
      | slot l m =>
        rw [hd] at hh
        intro hl j hj
        rw [List.foldl_cons, slotWord_lands, hh hl j hj]
        intro x hx
        exact (h1 x hx).1 l (m + j) (by simp only [Dest.hasSlot, hd, true_and]; omega)
      | uni m =>
        rw [hd] at hh
        intro j hj hl
        rw [List.foldl_cons, uni_lands, hh j hj hl]
        intro x hx
        exact (h1 x hx).2 (m + j) (by simp only [Dest.hasUni, hd]; omega)
      | _ => trivial
    · have := ih (t.land q) (fun x hx => hp x (by simp [hx])) h2 hr
      cases hd : r.dest with
      | slot l m =>
        rw [hd] at this
        intro hl; exact this (by rw [hq.flen]; exact hl)
      | uni m =>
        rw [hd] at this
        intro j hj hl; exact this j hj (by rw [hq.klen]; exact hl)
      | _ => trivial

theorem lane_land (t : Team) (r : LaneResult) (l : Nat) :
    (t.land r).lane l = if l = r.lane ∧ r.lane < t.arch.lanes.length then
      { t.lane l with cc := r.cc.getD (t.lane l).cc, xflags := (t.lane l).xflags ||| r.xf } else t.lane l := by
  have key (u : Team) (hu : u.arch.lanes = t.arch.lanes) : (u.setLane r.lane fun ln => { ln with cc := r.cc.getD ln.cc, xflags := ln.xflags ||| r.xf }).lane l
      = if l = r.lane ∧ r.lane < t.arch.lanes.length then
      { t.lane l with cc := r.cc.getD (t.lane l).cc, xflags := (t.lane l).xflags ||| r.xf } else t.lane l := by
    simp only [Team.setLane, Team.lane, getD_modifyAt, hu]
    by_cases h : l = r.lane ∧ r.lane < t.arch.lanes.length
    · obtain ⟨rfl, h⟩ := h; simp [h]
    · simp [h]
  unfold Team.land
  split
  · exact key t rfl
  · exact key _ (by cases r.dest <;> rfl)

theorem lane_lands_of_not_mem (rs : List LaneResult) (t : Team) (l : Nat) (h : ∀ r ∈ rs, r.lane ≠ l) : (rs.foldl Team.land t).lane l = t.lane l := by
  induction rs generalizing t with
  | nil => rfl
  | cons r rs ih =>
    rw [List.foldl_cons, ih _ (fun q hq => h q (by simp [hq])), lane_land, if_neg]
    rintro ⟨rfl, _⟩; exact h r (by simp) rfl

theorem lane_lands (rs : List LaneResult) (hp : ∀ r ∈ rs, r.dest.plain = true) (hn : (rs.map (·.lane)).Nodup) (t : Team) (r : LaneResult) (hr : r ∈ rs) (hl : r.lane < t.arch.lanes.length) :
    (rs.foldl Team.land t).lane r.lane = { t.lane r.lane with cc := r.cc.getD (t.lane r.lane).cc, xflags := (t.lane r.lane).xflags ||| r.xf } := by
  induction rs generalizing t with
  | nil => simp at hr
  | cons q rs ih =>
    simp only [List.map_cons, List.nodup_cons] at hn
    rcases List.mem_cons.1 hr with rfl | hr
    · rw [List.foldl_cons, lane_lands_of_not_mem, lane_land, if_pos ⟨rfl, hl⟩]
      intro x hx e; exact hn.1 (by rw [← e]; exact List.mem_map_of_mem hx)
    · have hne : r.lane ≠ q.lane := by
        intro e; exact hn.1 (by rw [← e]; exact List.mem_map_of_mem hr)
      have hk := (land_keeps t q (hp q (by simp))).llen
      rw [List.foldl_cons, ih (fun x hx => hp x (by simp [hx])) hn.2 _ hr (by rw [hk]; exact hl), lane_land, if_neg (fun h => hne h.1)]

/-- What preparing an issue makes sure of. -/
structure Issue.Ok (o : Issue) : Prop where
  nodup : o.act.Nodup
  lanes : o.lanes = if o.uniform then o.act.take 1 else o.act
  uni : regKind o.rd = .uni → o.sh.d.writes = true → o.lanes.length ≤ 1

theorem results_mem {o : Issue} {f : LaneRule} {r : LaneResult} (h : r ∈ o.results f) :
    (∃ l ∈ o.lanes, r = o.result l (f l).1 (f l).2.1 (f l).2.2) ∨
    (o.uniform = true ∧ ∃ l ∈ o.lanes, ∃ k ∈ o.act, r = ⟨k, .none, 0, 0, true, [], (f l).2.1, (f l).2.2⟩) := by
  unfold Issue.results at h
  split at h
  · rename_i hu
    split at h
    · simp at h
    · rename_i l ls hl
      rcases List.mem_cons.1 h with rfl | h
      · exact .inl ⟨l, by simp [hl], rfl⟩
      · obtain ⟨k, hk, rfl⟩ := List.mem_map.1 h
        exact .inr ⟨hu, l, by simp [hl], k, List.mem_of_mem_drop hk, rfl⟩
  · obtain ⟨l, hl, rfl⟩ := List.mem_map.1 h
    exact .inl ⟨l, hl, rfl⟩

theorem Issue.Ok.sub {o : Issue} (h : o.Ok) {l : Nat} (hl : l ∈ o.lanes) : l ∈ o.act := by
  rw [h.lanes] at hl
  split at hl
  · exact List.mem_of_mem_take hl
  · exact hl

theorem results_plain {o : Issue} {f : LaneRule} {r : LaneResult} (h : r ∈ o.results f) : r.dest.plain = true := by
  rcases results_mem h with ⟨l, _, rfl⟩ | ⟨_, _, _, _, _, rfl⟩
  · exact destOf_plain _ _ _
  · rfl

theorem results_lanes {o : Issue} (h : o.Ok) (f : LaneRule) : (o.results f).map (·.lane) = o.act := by
  unfold Issue.results
  have hl := h.lanes
  split
  · rename_i hu
    simp only [hu, if_true] at hl
    split
    · rename_i he
      rw [he] at hl
      cases ha : o.act with
      | nil => rfl
      | cons a as => rw [ha] at hl; simp at hl
    · rename_i l ls he
      cases ha : o.act with
      | nil => rw [ha, he] at hl; simp at hl
      | cons a as =>
        rw [ha, he] at hl
        simp only [List.take_succ_cons, List.take_zero, List.cons.injEq] at hl
        simp [Issue.result, hl.1, Function.comp_def]
  · rename_i hu
    simp only [hu, Bool.false_eq_true, if_false] at hl
    simp [Issue.result, hl, Function.comp_def]

theorem result_words (o : Issue) (l : Nat) (v : PVal) (c : Option Codes) (x : BitVec 5) :
    (o.result l v c x).words = if o.sh.d.writes then v.words (o.dw l) else [] := rfl

theorem results_apart {o : Issue} (h : o.Ok) (f : LaneRule) : (o.results f).Pairwise Apart := by
  have key : ∀ ls : List Nat, ls.Nodup → (regKind o.rd = .uni → o.sh.d.writes = true → ls.length ≤ 1) →
      (ls.map fun l => o.result l (f l).1 (f l).2.1 (f l).2.2).Pairwise Apart := by
    intro ls hn hu
    rw [List.pairwise_map]
    refine List.Pairwise.imp_of_mem (R := fun a b => a ≠ b) (fun {a b} ha hb hne => ?_) hn
    constructor
    · intro l n h1 h2
      simp only [Issue.result, destOf] at h1 h2
      cases hk : regKind o.rd <;> simp only [hk, Dest.hasSlot] at h1 h2
      exact hne (h1.1.trans h2.1.symm)
    · intro n h1 h2
      simp only [Issue.result, destOf] at h1 h2
      cases hk : regKind o.rd <;> simp only [hk, Dest.hasUni] at h1 h2
      by_cases hw : o.sh.d.writes = true
      · have := hu hk hw
        rcases ls with _ | ⟨x, _ | ⟨y, ls⟩⟩
        · simp at ha
        · simp at ha hb; exact hne (ha.trans hb.symm)
        · simp at this
      · simp only [hw] at h1; simp at h1; omega
  unfold Issue.results
  split
  · split
    · exact List.Pairwise.nil
    · refine List.pairwise_cons.2 ⟨?_, ?_⟩
      · intro q hq
        obtain ⟨k, _, rfl⟩ := List.mem_map.1 hq
        exact ⟨fun _ _ _ h => h, fun _ _ h => h⟩
      · rw [List.pairwise_map]
        exact List.Pairwise.imp (fun {a b} _ => ⟨fun _ _ h => absurd h (by simp [Dest.hasSlot]), fun _ h => absurd h (by simp [Dest.hasUni])⟩) (List.pairwise_of_forall (fun _ _ => trivial) : (o.act.drop 1).Pairwise fun _ _ => True)
  · refine key _ ?_ (fun a b => h.uni a b)
    rename_i hu
    rw [h.lanes]; simp only [hu, Bool.false_eq_true, if_false]; exact h.nodup

/-- The words that results push through a port. -/
def portWords (rs : List LaneResult) : List PWord := rs.flatMap fun r => match r.dest with
  | .port _ => r.words
  | _ => []

theorem commit_eq (o : Issue) (s : State) (rs : List LaneResult) : o.commit s rs =
    if (portWords rs).isEmpty then { s with cur := rs.foldl Team.land s.cur }
    else match o.t.arch.ports.getD (o.rd.toNat - 96) none with
      | some h => o.hold { s with cur := rs.foldl Team.land s.cur } (queueUnits (portWords rs).length)
          (.push h ((o.pushSlots (rs.map (·.lane))).zip (portWords rs)))
      | none => { s with cur := rs.foldl Team.land s.cur } := by
  unfold Issue.commit
  show (if (portWords rs).isEmpty then _ else _) = _
  split
  · rfl
  · cases o.t.arch.ports.getD (o.rd.toNat - 96) none <;> rfl

theorem commit_cur (o : Issue) (s : State) (rs : List LaneResult) : (o.commit s rs).cur = rs.foldl Team.land s.cur := by
  rw [commit_eq]; split
  · rfl
  · split <;> rfl

theorem portWords_results {o : Issue} (f : LaneRule) :
    portWords (o.results f) = if regKind o.rd = .port then (o.results f).flatMap (·.words) else [] := by
  unfold portWords
  split
  · rename_i hk
    rw [List.flatMap_def, List.flatMap_def]
    congr 1
    refine List.map_congr_left fun r hr => ?_
    rcases results_mem hr with ⟨l, _, rfl⟩ | ⟨_, l, _, k, _, rfl⟩
    · simp only [Issue.result, destOf, hk]
    · rfl
  · rename_i hk
    rw [List.flatMap_eq_nil_iff]
    intro r hr
    rcases results_mem hr with ⟨l, _, rfl⟩ | ⟨_, l, _, k, _, rfl⟩
    · simp only [Issue.result, destOf]
      cases h : regKind o.rd <;> simp_all
    · rfl

theorem results_words {o : Issue} (h : o.Ok) (f : LaneRule) (hw : o.sh.d.writes = true) :
    (o.results f).flatMap (·.words) = o.lanes.flatMap fun l => (f l).1.words (o.dw l) := by
  unfold Issue.results
  have hl := h.lanes
  split
  · rename_i hu
    simp only [hu, if_true] at hl
    split
    · rename_i he; simp [he]
    · rename_i l ls he
      have : ls = [] := by
        cases ha : o.act with
        | nil => rw [ha, he] at hl; simp at hl
        | cons a as => rw [ha, he] at hl; simp at hl; exact hl.2
      subst this
      simp only [he, List.flatMap_cons, List.flatMap_nil, List.append_nil, result_words, hw, if_true]
      rw [List.flatMap_eq_nil_iff.2 fun r hr => ?_, List.append_nil]
      obtain ⟨k, _, rfl⟩ := List.mem_map.1 hr
      rfl
  · simp [List.flatMap_map, result_words, hw]

theorem words_length_pos (v : PVal) (n : Nat) : (v.words n).length ≠ 0 := by
  unfold PVal.words; split <;> simp

theorem giver_of_mem {o : Issue} (h : o.Ok) {l : Nat} (hl : l ∈ o.lanes) : o.giver l = l := by
  unfold Issue.giver
  split
  · rename_i hu
    have := h.lanes; simp only [hu, if_true] at this
    rw [this] at hl
    cases ha : o.act with
    | nil => rw [ha] at hl; simp at hl
    | cons a as => rw [ha] at hl; simp at hl; simp [hl]
  · rfl

/-- The result of a lane: its codes and flags come from the lane whose operands it takes. -/
theorem result_of_lane {o : Issue} (h : o.Ok) (f : LaneRule) {l : Nat} (hl : l ∈ o.act) :
    ∃ r ∈ o.results f, r.lane = l ∧ r.cc = (f (o.giver l)).2.1 ∧ r.xf = (f (o.giver l)).2.2 := by
  have hm : l ∈ (o.results f).map (·.lane) := by rw [results_lanes h]; exact hl
  obtain ⟨r, hr, rfl⟩ := List.mem_map.1 hm
  refine ⟨r, hr, rfl, ?_⟩
  rcases results_mem hr with ⟨k, hk, rfl⟩ | ⟨hu, k, hk, j, hj, rfl⟩
  · rw [show (o.result k (f k).1 (f k).2.1 (f k).2.2).lane = k from rfl, giver_of_mem h hk]; exact ⟨rfl, rfl⟩
  · have : o.giver j = k := by
      have := giver_of_mem h hk
      unfold Issue.giver at this ⊢
      simp only [hu, if_true] at this ⊢
      cases ha : o.act with
      | nil => rw [ha] at hj; simp at hj
      | cons a as => rw [ha] at this; simpa using this
    simp [this]

/-- Results that land at issue do what `Computes` says. -/
theorem computes_commit {o : Issue} (h : o.Ok) {s : State} (f : LaneRule) : Computes o s (o.commit s (o.results f)) f := by
  have hp : ∀ r ∈ o.results f, r.dest.plain = true := fun r hr => results_plain hr
  have hk := lands_keeps (o.results f) hp s.cur
  constructor
  · intro l hl hw
    rw [commit_cur]
    have hm : o.result l (f l).1 (f l).2.1 (f l).2.2 ∈ o.results f := by
      unfold Issue.results
      split
      · rename_i hu
        have hll := h.lanes; simp only [hu, if_true] at hll
        split
        · rename_i he; rw [he] at hl; simp at hl
        · rename_i k ks he
          have : l = k := by
            have e := giver_of_mem h hl
            have e2 := giver_of_mem h (l := k) (by simp [he])
            unfold Issue.giver at e e2
            simp only [hu, if_true] at e e2
            cases ha : o.act with
            | nil => rw [ha, he] at hll; simp at hll
            | cons a as => rw [ha] at e e2; exact (e.symm.trans (by simpa using e2))
          subst this; simp
      · exact List.mem_map_of_mem hl
    have := lands_hold (o.results f) s.cur hp (results_apart h f) _ hm
    simpa [Issue.result, hw] using this
  · intro l n hs
    rw [commit_cur]
    refine slotWord_lands _ _ _ _ fun r hr => ?_
    rcases results_mem hr with ⟨k, hk, rfl⟩ | ⟨_, _, _, _, _, rfl⟩
    · by_cases hw : o.sh.d.writes = true
      · simpa [Issue.result, hw] using hs k hk hw
      · simp only [Issue.result, hw]
        cases destOf o.t o.rd k <;> simp [Dest.hasSlot]
    · exact fun x => x
  · intro n hs
    rw [commit_cur]
    refine uni_lands _ _ _ fun r hr => ?_
    rcases results_mem hr with ⟨k, hk, rfl⟩ | ⟨_, _, _, _, _, rfl⟩
    · by_cases hw : o.sh.d.writes = true
      · simpa [Issue.result, hw] using hs k hk hw
      · simp only [Issue.result, hw]
        cases destOf o.t o.rd k <;> simp [Dest.hasUni]
    · exact fun x => x
  · intro l hl hlen
    rw [commit_cur]
    obtain ⟨r, hr, rfl, hc, hx⟩ := result_of_lane h f hl
    rw [lane_lands _ hp (by rw [results_lanes h]; exact h.nodup) s.cur r hr hlen, hc, hx]
    exact ⟨rfl, rfl⟩
  · intro l hl
    rw [commit_cur]
    refine lane_lands_of_not_mem _ _ _ fun r hr e => hl ?_
    rw [← results_lanes h f, ← e]; exact List.mem_map_of_mem hr
  · intro l; rw [commit_cur]; exact hk.lanes l
  · rw [commit_cur]; exact hk.frames
  · rw [commit_cur]; exact hk.team
  · intro q hkind hw hne hq
    rw [commit_eq, portWords_results, if_pos hkind, results_words h f hw]
    have hne2 : (o.lanes.flatMap fun l => (f l).1.words (o.dw l)) ≠ [] := by
      intro e
      rw [List.flatMap_eq_nil_iff] at e
      obtain ⟨l, hl⟩ := List.exists_mem_of_ne_nil _ hne
      exact words_length_pos _ _ (by rw [e l hl]; rfl)
    rw [if_neg (by simpa using hne2), hq]
    exact ⟨o.pushSlots ((o.results f).map (·.lane)), by simp [Issue.hold, State.hold, fresh]⟩
  · intro hkind
    rw [commit_eq, portWords_results, if_neg hkind]; rfl
  · rw [commit_eq]
    split
    · rfl
    · split <;> rfl

end Sys2Proof.Machine
end

