-- ==== Sys2Proof/Laws/Groups.lean ====
section
/-! SUPPORT. Where lanes stand after groups join, split, move and end. -/

namespace Sys2Proof.Machine

/-- No group holds lane `l`. -/
def Team.absent (t : Team) (l : Nat) : Prop := ∀ g ∈ t.allGroups, inMask g.mask l = false

theorem Team.absent_not_stands {t : Team} {l : Nat} (h : t.absent l) (pc : BitVec 48) : ¬ t.stands l pc := by
  rintro ⟨g, hg, -, hm⟩; rw [h g hg] at hm; cases hm

theorem inMask_or (a b : LaneMask) (l : Nat) : inMask (a ||| b) l = (inMask a l || inMask b l) := by simp [inMask]

theorem mem_allGroups {t : Team} {g : Group} : g ∈ t.allGroups ↔ g ∈ t.arch.groups ∨ ∃ x ∈ t.arch.moved, x.group = g := by
  simp [Team.allGroups]

/-- The three ways a group joins: the group of the table at its PC takes its lanes, the moved one does, or it enters the table. -/
theorem Team.join_cases (t : Team) (g : Group) :
    (∃ (f : Group → Group) (m : Moved → Moved), (∀ h, (f h).pc = g.pc ∧ (f h).mask = g.mask ||| h.mask) ∧ (∀ x, (m x).group = f x.group) ∧
      (((∃ h ∈ t.arch.groups, h.pc = g.pc) ∧ t.join g = t.setArch fun a => { a with groups := modifyWhere (fun h => h.pc == g.pc) f a.groups }) ∨
       ((∃ x ∈ t.arch.moved, x.group.pc = g.pc) ∧ t.join g = t.setArch fun a => { a with moved := modifyWhere (fun x => x.group.pc == g.pc) m a.moved }))) ∨
    ((∀ h ∈ t.allGroups, h.pc ≠ g.pc) ∧ t.join g = t.setArch fun a => { a with groups := g :: a.groups }) := by
  unfold Team.join
  split
  · rename_i h
    refine .inl ⟨mergeGroup g, fun m => { m with group := mergeGroup g m.group, joins := m.joins ||| g.mask }, fun h => ⟨rfl, rfl⟩, fun _ => rfl, .inl ⟨?_, rfl⟩⟩
    simpa using h
  · rename_i hn
    split
    · rename_i h
      refine .inl ⟨mergeGroup g, fun m => { m with group := mergeGroup g m.group, joins := m.joins ||| g.mask }, fun h => ⟨rfl, rfl⟩, fun _ => rfl, .inr ⟨?_, rfl⟩⟩
      simpa using h
    · rename_i hf
      refine .inr ⟨fun h hh => ?_, rfl⟩
      rcases mem_allGroups.1 hh with h1 | ⟨x, hx, rfl⟩
      · intro he; exact hn (by simpa using ⟨h, h1, he⟩)
      · intro he; exact hf (by simpa using ⟨x, hx, he⟩)

theorem Team.join_keeps {t : Team} {g : Group} {l : Nat} {pc : BitVec 48} (h : t.stands l pc) : (t.join g).stands l pc := by
  obtain ⟨k, hk, rfl, hm⟩ := h
  rcases t.join_cases g with ⟨f, m, hf, hmv, ⟨-, he⟩ | ⟨-, he⟩⟩ | ⟨-, he⟩
  all_goals rw [he]
  all_goals rcases mem_allGroups.1 hk with h1 | ⟨x, hx, rfl⟩
  · by_cases hp : k.pc = g.pc
    · refine ⟨f k, mem_allGroups.2 (.inl ?_), (hf k).1.trans hp.symm, by rw [(hf k).2, inMask_or, hm, Bool.or_true]⟩
      exact List.mem_map.2 ⟨k, h1, by simp [hp]⟩
    · exact ⟨k, mem_allGroups.2 (.inl (List.mem_map.2 ⟨k, h1, by simp [hp]⟩)), rfl, hm⟩
  · exact ⟨x.group, mem_allGroups.2 (.inr ⟨x, hx, rfl⟩), rfl, hm⟩
  · exact ⟨k, mem_allGroups.2 (.inl h1), rfl, hm⟩
  · by_cases hp : x.group.pc = g.pc
    · refine ⟨f x.group, mem_allGroups.2 (.inr ⟨m x, List.mem_map.2 ⟨x, hx, by simp [hp]⟩, hmv x⟩), (hf _).1.trans hp.symm,
        by rw [(hf _).2, inMask_or, hm, Bool.or_true]⟩
    · exact ⟨x.group, mem_allGroups.2 (.inr ⟨x, List.mem_map.2 ⟨x, hx, by simp [hp]⟩, rfl⟩), rfl, hm⟩
  · exact ⟨k, mem_allGroups.2 (.inl (.tail _ h1)), rfl, hm⟩
  · exact ⟨x.group, mem_allGroups.2 (.inr ⟨x, hx, rfl⟩), rfl, hm⟩

theorem Team.join_stands {t : Team} {g : Group} {l : Nat} (h : inMask g.mask l = true) : (t.join g).stands l g.pc := by
  rcases t.join_cases g with ⟨f, m, hf, hmv, ⟨⟨k, hk, hp⟩, he⟩ | ⟨⟨x, hx, hp⟩, he⟩⟩ | ⟨-, he⟩
  all_goals rw [he]
  · exact ⟨f k, mem_allGroups.2 (.inl (List.mem_map.2 ⟨k, hk, by simp [hp]⟩)), (hf k).1, by rw [(hf k).2, inMask_or, h, Bool.true_or]⟩
  · exact ⟨f x.group, mem_allGroups.2 (.inr ⟨m x, List.mem_map.2 ⟨x, hx, by simp [hp]⟩, hmv x⟩), (hf _).1, by rw [(hf _).2, inMask_or, h, Bool.true_or]⟩
  · exact ⟨g, mem_allGroups.2 (.inl (.head _)), rfl, h⟩

theorem Team.join_absent {t : Team} {g : Group} {l : Nat} (ha : t.absent l) (h : inMask g.mask l = false) : (t.join g).absent l := by
  rcases t.join_cases g with ⟨f, m, hf, hmv, ⟨-, he⟩ | ⟨-, he⟩⟩ | ⟨-, he⟩
  all_goals rw [he]; intro k hk; rcases mem_allGroups.1 hk with h1 | ⟨y, hy, rfl⟩
  · obtain ⟨q, hq, rfl⟩ := List.mem_map.1 h1
    have := ha q (mem_allGroups.2 (.inl hq))
    split
    · rw [(hf q).2, inMask_or, h, this]; rfl
    · exact this
  · exact ha _ (mem_allGroups.2 (.inr ⟨y, hy, rfl⟩))
  · exact ha _ (mem_allGroups.2 (.inl h1))
  · obtain ⟨q, hq, rfl⟩ := List.mem_map.1 hy
    have := ha q.group (mem_allGroups.2 (.inr ⟨q, hq, rfl⟩))
    split
    · rw [hmv, (hf _).2, inMask_or, h, this]; rfl
    · exact this
  · rcases List.mem_cons.1 h1 with rfl | h2
    · exact h
    · exact ha _ (mem_allGroups.2 (.inl h2))
  · exact ha _ (mem_allGroups.2 (.inr ⟨y, hy, rfl⟩))

/-! ### The parts of a group -/

/-- Where lane `l` goes. -/
def laneGoal (fall : BitVec 48) (targets : List (Nat × BitVec 48)) (l : Nat) : BitVec 48 :=
  ((targets.find? (·.1 == l)).map (·.2)).getD fall

/-- A lane is in a part that goes to a PC. -/
def inPart (ps : List (BitVec 48 × LaneMask × Bool)) (l : Nat) (pc : BitVec 48) : Prop := ∃ p ∈ ps, p.1 = pc ∧ inMask p.2.1 l = true

/-- One lane joins the parts. -/
def addPart (fall : BitVec 48) (targets : List (Nat × BitVec 48)) (ps : List (BitVec 48 × LaneMask × Bool)) (l : Nat) :
    List (BitVec 48 × LaneMask × Bool) :=
  let (pc, moved) := match targets.find? (·.1 == l) with
    | some (_, p) => (p, true)
    | none => (fall, false)
  let bitOf := BitVec.twoPow 1024 l
  if ps.any (·.1 == pc) then ps.map fun (p, m, k) => if p = pc then (p, m ||| bitOf, k || moved) else (p, m, k)
  else ps ++ [(pc, bitOf, moved)]

theorem partition_eq (fall : BitVec 48) (targets : List (Nat × BitVec 48)) (ls : List Nat) :
    partition fall targets ls = ls.foldl (addPart fall targets) [] := rfl

theorem addPart_cases (fall : BitVec 48) (targets : List (Nat × BitVec 48)) (ps : List (BitVec 48 × LaneMask × Bool)) (l : Nat) :
    ∃ k : Bool → Bool, ∃ b, addPart fall targets ps l =
      if ps.any (·.1 == laneGoal fall targets l) then
        ps.map fun p => if p.1 = laneGoal fall targets l then (p.1, p.2.1 ||| BitVec.twoPow 1024 l, k p.2.2) else p
      else ps ++ [(laneGoal fall targets l, BitVec.twoPow 1024 l, b)] := by
  unfold addPart laneGoal
  cases h : targets.find? (·.1 == l) with
  | none => exact ⟨fun k => k || false, false, rfl⟩
  | some x => exact ⟨fun k => k || true, true, rfl⟩

theorem addPart_keeps {fall : BitVec 48} {targets : List (Nat × BitVec 48)} {ps : List (BitVec 48 × LaneMask × Bool)} {j l : Nat} {pc : BitVec 48}
    (h : inPart ps l pc) : inPart (addPart fall targets ps j) l pc := by
  obtain ⟨p, hp, rfl, hm⟩ := h
  obtain ⟨k, b, he⟩ := addPart_cases fall targets ps j
  rw [he]
  split
  · by_cases hq : p.1 = laneGoal fall targets j
    · exact ⟨_, List.mem_map.2 ⟨p, hp, rfl⟩, by simp [hq], by simp [hq, inMask_or, hm]⟩
    · exact ⟨_, List.mem_map.2 ⟨p, hp, rfl⟩, by simp [hq], by simp [hq, hm]⟩
  · exact ⟨p, List.mem_append_left _ hp, rfl, hm⟩

theorem inMask_twoPow {l j : Nat} (h : l < 1024) : inMask (BitVec.twoPow 1024 j) l = decide (l = j) := by
  simp only [inMask, BitVec.getLsbD_twoPow, Bool.and_eq_decide]
  by_cases hj : j < 1024
  · simp [hj, eq_comm]
  · have : l ≠ j := by omega
    simp [hj, this]

theorem addPart_self {fall : BitVec 48} {targets : List (Nat × BitVec 48)} (ps : List (BitVec 48 × LaneMask × Bool)) {l : Nat} (hl : l < 1024) :
    inPart (addPart fall targets ps l) l (laneGoal fall targets l) := by
  obtain ⟨k, b, he⟩ := addPart_cases fall targets ps l
  rw [he]
  split
  · rename_i h
    obtain ⟨p, hp, hq⟩ := List.any_eq_true.1 h
    have hq : p.1 = laneGoal fall targets l := by simpa using hq
    exact ⟨_, List.mem_map.2 ⟨p, hp, rfl⟩, by simp [hq], by simp [hq, inMask_or, inMask_twoPow hl]⟩
  · exact ⟨_, List.mem_append_right _ (List.mem_singleton.2 rfl), rfl, by simp [inMask_twoPow hl]⟩

theorem partition_mem {fall : BitVec 48} {targets : List (Nat × BitVec 48)} {ls : List Nat} {l : Nat} (h : l ∈ ls) (hl : l < 1024) :
    inPart (partition fall targets ls) l (laneGoal fall targets l) := by
  rw [partition_eq]
  suffices ∀ ps, inPart (ls.foldl (addPart fall targets) ps) l (laneGoal fall targets l) from this []
  intro ps
  induction ls generalizing ps with
  | nil => cases h
  | cons j ls ih =>
    rw [List.foldl_cons]
    rcases List.mem_cons.1 h with rfl | h
    · exact foldl_keeps (fun ps => inPart ps l (laneGoal fall targets l)) _ (fun _ _ h => addPart_keeps h) _ _ (addPart_self ps hl)
    · exact ih h _

theorem partition_absent {fall : BitVec 48} {targets : List (Nat × BitVec 48)} {ls : List Nat} {l : Nat} (h : l ∉ ls) (hl : l < 1024) :
    ∀ p ∈ partition fall targets ls, inMask p.2.1 l = false := by
  rw [partition_eq]
  suffices ∀ ps, (∀ p ∈ ps, inMask p.2.1 l = false) → ∀ p ∈ ls.foldl (addPart fall targets) ps, inMask p.2.1 l = false from
    this [] (by simp)
  intro ps hps
  induction ls generalizing ps with
  | nil => exact hps
  | cons j ls ih =>
    rw [List.foldl_cons]
    refine ih (fun hh => h (List.mem_cons_of_mem _ hh)) _ ?_
    have hj : l ≠ j := fun he => h (he ▸ List.mem_cons_self)
    have hb : inMask (BitVec.twoPow 1024 j) l = false := by simp [inMask_twoPow hl, hj]
    obtain ⟨k, b, he⟩ := addPart_cases fall targets ps j
    rw [he]
    intro p hp
    split at hp
    · obtain ⟨q, hq, rfl⟩ := List.mem_map.1 hp
      split
      · show inMask (q.2.1 ||| _) l = false
        rw [inMask_or, hps q hq, hb]; rfl
      · exact hps q hq
    · rcases List.mem_append.1 hp with h1 | h1
      · exact hps p h1
      · rw [List.mem_singleton.1 h1]; exact hb

theorem partition_fall (fall : BitVec 48) (l : Nat) (ls : List Nat) : ∃ m, partition fall [] (l :: ls) = [(fall, m, false)] := by
  rw [partition_eq, List.foldl_cons]
  suffices ∀ m, ∃ m', ls.foldl (addPart fall []) [(fall, m, false)] = [(fall, m', false)] from this _
  intro m
  induction ls generalizing m with
  | nil => exact ⟨m, rfl⟩
  | cons j ls ih =>
    rw [List.foldl_cons]
    have : addPart fall [] [(fall, m, false)] j = [(fall, m ||| BitVec.twoPow 1024 j, false)] := by simp [addPart]
    rw [this]; exact ih _

/-! ### Placing -/

theorem mem_without {t : Team} {pc : BitVec 48} {g : Group} : g ∈ (t.without pc).allGroups ↔ g ∈ t.allGroups ∧ g.pc ≠ pc := by
  simp only [mem_allGroups, Team.without, Team.setArch, List.mem_filter]
  constructor
  · rintro (⟨h1, h2⟩ | ⟨x, ⟨h1, h2⟩, rfl⟩)
    · exact ⟨.inl h1, by simpa using h2⟩
    · exact ⟨.inr ⟨x, h1, rfl⟩, by simpa using h2⟩
  · rintro ⟨h1 | ⟨x, h1, rfl⟩, h2⟩
    · exact .inl ⟨h1, by simpa using h2⟩
    · exact .inr ⟨x, ⟨h1, by simpa using h2⟩, rfl⟩

/-- The group a part makes. -/
def partGroup (t : Team) (g : Group) (sig : Word) (e : End) (now : Nat) (p : BitVec 48 × LaneMask × Bool) : Group :=
  ⟨p.1, p.2.1, if e.yields then g.waitTime else now, if e.yields then g.waitIssue else t.sched.issues, if p.2.2 then sigReset else sig, g.sigOk || p.2.2 || e.sig.isSome⟩

theorem joins_keeps (f : Team → BitVec 48 × LaneMask × Bool → Group) (ps : List (BitVec 48 × LaneMask × Bool)) {t : Team} {l : Nat} {pc : BitVec 48}
    (h : t.stands l pc) : (ps.foldl (fun t p => t.join (f t p)) t).stands l pc :=
  foldl_keeps (fun (t : Team) => t.stands l pc) _ (fun _ _ h => Team.join_keeps h) _ _ h

theorem joins_stands (f : Team → BitVec 48 × LaneMask × Bool → Group) (hf : ∀ t p, (f t p).pc = p.1 ∧ (f t p).mask = p.2.1)
    (ps : List (BitVec 48 × LaneMask × Bool)) (t : Team) {l : Nat} {pc : BitVec 48}
    (h : inPart ps l pc) : (ps.foldl (fun t p => t.join (f t p)) t).stands l pc := by
  obtain ⟨p, hp, rfl, hm⟩ := h
  induction ps generalizing t with
  | nil => cases hp
  | cons q ps ih =>
    rw [List.foldl_cons]
    rcases List.mem_cons.1 hp with rfl | hp
    · refine joins_keeps f ps ?_
      have := Team.join_stands (t := t) (g := f t p) (l := l) (by rw [(hf t p).2]; exact hm)
      rw [(hf t p).1] at this; exact this
    · exact ih _ hp

theorem joins_absent (f : Team → BitVec 48 × LaneMask × Bool → Group) (hf : ∀ t p, (f t p).mask = p.2.1)
    (ps : List (BitVec 48 × LaneMask × Bool)) {t : Team} {l : Nat} (ha : t.absent l)
    (h : ∀ p ∈ ps, inMask p.2.1 l = false) : (ps.foldl (fun t p => t.join (f t p)) t).absent l := by
  induction ps generalizing t with
  | nil => exact ha
  | cons q ps ih =>
    rw [List.foldl_cons]
    exact ih (Team.join_absent ha (by rw [hf]; exact h q List.mem_cons_self)) fun p hp => h p (List.mem_cons_of_mem _ hp)

theorem place_eq_joins (t : Team) (g : Group) (sig : Word) (fall : BitVec 48) (e : End) (now : Nat) :
    t.place_ g sig fall e now = (partition fall e.targets ((lanesOf t.width g.mask).filter fun l => !e.ended.contains l)).foldl
      (fun u p => u.join (partGroup u g sig e now p)) (t.without g.pc) := rfl

theorem mem_lanesOf {w l : Nat} {m : LaneMask} : l ∈ lanesOf w m ↔ l < w ∧ inMask m l = true := by simp [lanesOf]

theorem place_lanes (t : Team) (g : Group) (sig : Word) (fall : BitVec 48) (e : End) (now l : Nat) (hw : l < t.width) (hl : l < 1024)
    (hm : inMask g.mask l = true) (he : l ∉ e.ended) : (t.place_ g sig fall e now).stands l (laneGoal fall e.targets l) := by
  rw [place_eq_joins]
  refine joins_stands (fun u p => partGroup u g sig e now p) (fun _ _ => ⟨rfl, rfl⟩) _ _ (partition_mem ?_ hl)
  exact List.mem_filter.2 ⟨mem_lanesOf.2 ⟨hw, hm⟩, by simpa using he⟩

theorem place_others (t : Team) (g : Group) (sig : Word) (fall : BitVec 48) (e : End) (now l : Nat) (pc : BitVec 48) (hp : pc ≠ g.pc)
    (h : t.stands l pc) : (t.place_ g sig fall e now).stands l pc := by
  rw [place_eq_joins]
  refine joins_keeps (fun u p => partGroup u g sig e now p) _ ?_
  obtain ⟨k, hk, rfl, hm⟩ := h
  exact ⟨k, mem_without.2 ⟨hk, hp⟩, rfl, hm⟩

theorem place_ended (t : Team) (g : Group) (sig : Word) (fall : BitVec 48) (e : End) (now l : Nat) (hl : l < 1024) (he : l ∈ e.ended)
    (h : ∀ k ∈ t.allGroups, k.pc ≠ g.pc → inMask k.mask l = false) : (t.place_ g sig fall e now).absent l := by
  rw [place_eq_joins]
  refine joins_absent (fun u p => partGroup u g sig e now p) (fun _ _ => rfl) _ ?_ (partition_absent ?_ hl)
  · intro k hk
    obtain ⟨h1, h2⟩ := mem_without.1 hk
    exact h k h1 h2
  · intro hh
    have := (List.mem_filter.1 hh).2
    simp [he] at this

theorem place_sig (t : Team) (g : Group) (sig : Word) (fall : BitVec 48) (e : End) (now : Nat) (ho : e.onward) (hn : lanesOf t.width g.mask ≠ [])
    (h : ∀ k ∈ t.allGroups, k.pc ≠ g.pc → k.pc ≠ fall) :
    ∃ k ∈ (t.place_ g sig fall e now).arch.groups, k.pc = fall ∧ k.sig = sig ∧ k.sigOk = (g.sigOk || e.sig.isSome) := by
  rw [place_eq_joins, ho.1, ho.2.1]
  have hf : ((lanesOf t.width g.mask).filter fun l => !([] : List Nat).contains l) = lanesOf t.width g.mask :=
    List.filter_eq_self.2 (by simp)
  rw [hf]
  obtain ⟨l, ls, hls⟩ := List.exists_cons_of_ne_nil hn
  rw [hls]
  obtain ⟨m, hp⟩ := partition_fall fall l ls
  rw [hp, List.foldl_cons, List.foldl_nil]
  rcases (t.without g.pc).join_cases (partGroup (t.without g.pc) g sig e now (fall, m, false)) with ⟨f, mv, hf, hmv, ⟨⟨k, hk, hq⟩, he⟩ | ⟨⟨x, hx, hq⟩, he⟩⟩ | ⟨-, he⟩
  · have := mem_without.1 (mem_allGroups.2 (.inl hk))
    exact absurd hq (h k this.1 this.2)
  · have := mem_without.1 (mem_allGroups.2 (.inr ⟨x, hx, rfl⟩))
    exact absurd hq (h x.group this.1 this.2)
  · rw [he]; exact ⟨_, .head _, rfl, rfl, by simp [partGroup]⟩

/-! ### Overflow -/

theorem Team.chooseLast_mem {t : Team} {gs : List Group} {g : Group} (h : t.chooseLast gs = some g) : g ∈ gs := by
  induction gs generalizing g with
  | nil => cases h
  | cons k gs ih =>
    unfold Team.chooseLast at h
    split at h
    · cases h; exact .head _
    · rename_i q hq
      split at h
      · cases h; exact .tail _ (ih hq)
      · cases h; exact .head _

/-- A group that moves to the overflow region is still one of the team's. -/
theorem moveOut_groups (t : Team) (g : Group) : g ∈ t.moveOut.allGroups ↔ g ∈ t.allGroups := by
  unfold Team.moveOut
  split
  · rfl
  · rename_i k hk
    have hk := Team.chooseLast_mem hk
    simp only [mem_allGroups, Team.setArch, List.mem_append, List.mem_filter, List.mem_singleton]
    constructor
    · rintro (⟨h, -⟩ | ⟨x, h | rfl, rfl⟩)
      · exact .inl h
      · exact .inr ⟨x, h, rfl⟩
      · exact .inl hk
    · rintro (h | ⟨x, h, rfl⟩)
      · by_cases he : g = k
        · exact .inr ⟨_, .inr rfl, he.symm⟩
        · exact .inl ⟨h, by simpa using he⟩
      · exact .inr ⟨x, .inl h, rfl⟩

/-- Overflow keeps every group. -/
theorem overflow_groups (t : Team) (n : Nat) (g : Group) : g ∈ (t.overflow n).allGroups ↔ g ∈ t.allGroups := by
  induction n generalizing t with
  | zero => rfl
  | succ n ih =>
    unfold Team.overflow
    split
    · rfl
    · rw [ih, moveOut_groups]

theorem stands_of_groups {t u : Team} (h : ∀ g, g ∈ t.allGroups ↔ g ∈ u.allGroups) (l : Nat) (pc : BitVec 48) : t.stands l pc ↔ u.stands l pc := by
  simp only [Team.stands, h]

/-! ### The team after an instruction -/

theorem keepGroup_stands {t : Team} {l : Nat} {pc : BitVec 48} (p : BitVec 48) (sig : Word) (r : Bool) (now : Nat) (h : t.stands l pc) :
    (t.keepGroup p sig r now).stands l pc := by
  obtain ⟨g, hg, rfl, hm⟩ := h
  rcases mem_allGroups.1 hg with h1 | h1
  · refine ⟨_, mem_allGroups.2 (.inl (List.mem_map.2 ⟨g, h1, rfl⟩)), ?_, ?_⟩
    · split <;> rfl
    · split <;> exact hm
  · exact ⟨g, mem_allGroups.2 (.inr h1), rfl, hm⟩

theorem sequence_keeps (t : Team) (e : End) (keep : Team → Team) (hk : ∀ t l pc, Team.stands t l pc → (keep t).stands l pc) (l : Nat) (pc : BitVec 48)
    (h : t.stands l pc) : (t.sequence e keep).1.stands l pc := by
  unfold Team.sequence
  split
  · split
    · exact hk _ _ _ h
    · split
      · exact hk _ _ _ h
      · exact h
  · split
    · exact hk _ _ _ h
    · exact hk _ _ _ h
  · split
    · exact hk _ _ _ h
    · exact h

theorem sequence_stays (t : Team) (e : End) (keep : Team → Team) (h : e.stay = true) : (t.sequence e keep).2 = true := by
  unfold Team.sequence
  split <;> simp [h]

theorem after_stays (t : Team) (o : Issue) (e : End) (now : Nat) (h : e.stay = true) (l : Nat) (pc : BitVec 48) (hs : t.stands l pc) :
    (t.after o e now).stands l pc := by
  unfold Team.after
  dsimp only
  rw [sequence_stays _ _ _ h]
  exact sequence_keeps _ _ _ (fun t l pc h => keepGroup_stands _ _ _ _ h) _ _ hs

theorem after_others (t : Team) (o : Issue) (e : End) (now : Nat) (l : Nat) (pc : BitVec 48) (hp : pc ≠ o.g.pc) (hs : t.stands l pc) :
    (t.after o e now).stands l pc := by
  have h1 := sequence_keeps (t.counted o e (t.fallPc o) now) e (fun t => t.keepGroup o.g.pc (o.newSig e) e.sig.isSome now)
    (fun t l pc h => keepGroup_stands _ _ _ _ h) l pc hs
  unfold Team.after
  dsimp only
  split
  · exact h1
  · exact place_others _ _ _ _ _ _ _ _ hp h1

/-- The signature of an instruction that has been performed. -/
theorem newSig_moves {o : Issue} {e : End} (h : e.stay = false) : o.newSig e = e.sig.getD (crcWord o.g.sig o.word) := by
  simp [Issue.newSig, h]

/-- Outside a REP or macro, an instruction that does not stay places its lanes. -/
theorem after_place (t : Team) (o : Issue) (e : End) (now : Nat) (hr : t.arch.rep = none) (hm : t.arch.mac = none) (h : e.stay = false) :
    (t.after o e now).allGroups = ((t.counted o e o.nextPc now).place_ o.g (e.sig.getD (crcWord o.g.sig o.word)) o.nextPc e now).allGroups := by
  have hf : t.fallPc o = o.nextPc := by simp [Team.fallPc, hr, hm, Issue.nextPc]
  unfold Team.after
  dsimp only
  rw [hf, newSig_moves h]
  have : (t.counted o e o.nextPc now).sequence e (fun t => t.keepGroup o.g.pc (e.sig.getD (crcWord o.g.sig o.word)) e.sig.isSome now) =
      (t.counted o e o.nextPc now, false) := by
    unfold Team.sequence
    simp only [Team.counted]
    rw [hr, hm, h]
    rfl
  rw [this]
  rfl

/-! ### Concluding -/

theorem holdPops_now (o : Issue) (s : State) (e : End) : (holdPops o s e).now = s.now := by
  unfold holdPops
  refine foldl_keeps (fun (x : State) => x.now = s.now) _ (fun x p h => ?_) _ _ rfl
  obtain ⟨key, slots⟩ := p
  dsimp only
  split
  · exact h
  · split <;> exact h

theorem finish_groups (o : Issue) (s : State) (e : End) (g : Group) :
    g ∈ (finish o s e).cur.allGroups ↔ g ∈ (s.cur.after o e s.now).allGroups := by
  have hg := overflow_groups (s.cur.after o e s.now) (s.cur.after o e s.now).arch.groups.length g
  unfold finish
  dsimp only
  rw [holdPops_cur, holdPops_now, ← hg]
  split <;> exact Iff.rfl

/-- Completing an instruction, with where its lanes then stand. -/
theorem finish_concludes (o : Issue) (s : State) (e : End) : Concludes o e s (finish o s e) := by
  have hg := finish_groups o s e
  refine ⟨(finish_settles o s e).1, (finish_settles o s e).2, fun hr hm hs l hw hl hk he => ?_, fun hr hm hs l he hl ha pc => ?_,
    fun hs l pc h => ?_, fun l pc hp h => ?_, fun hr hm ho hn hx => ?_⟩
  · rw [stands_of_groups hg]
    unfold Team.stands
    rw [after_place s.cur o e s.now hr hm hs]
    exact place_lanes (s.cur.counted o e o.nextPc s.now) o.g (e.sig.getD (crcWord o.g.sig o.word)) o.nextPc e s.now l hw hl hk he
  · rw [stands_of_groups hg]
    have := place_ended (s.cur.counted o e o.nextPc s.now) o.g (e.sig.getD (crcWord o.g.sig o.word)) o.nextPc e s.now l hl he ha
    unfold Team.absent at this
    rw [← after_place s.cur o e s.now hr hm hs] at this
    exact Team.absent_not_stands this pc
  · rw [stands_of_groups hg]; exact after_stays _ _ _ _ hs _ _ h
  · rw [stands_of_groups hg]; exact after_others _ _ _ _ _ _ hp h
  · obtain ⟨g, h1, h2⟩ := place_sig (s.cur.counted o e o.nextPc s.now) o.g (e.sig.getD (crcWord o.g.sig o.word)) o.nextPc e s.now ho hn hx
    refine ⟨g, (hg g).2 ?_, h2⟩
    rw [after_place s.cur o e s.now hr hm ho.2.2]
    exact mem_allGroups.2 (.inl h1)

/-- An instruction whose lanes go on. -/
theorem finish_completes (o : Issue) (s : State) (e : End) (h : e.onward) (hs : e.sig = none) : Completes o s (finish o s e) :=
  ⟨e, h, hs, finish_concludes o s e⟩

end Sys2Proof.Machine
end

