-- ==== Sys2Proof/Laws/Prepare.lean ====
section
/-! SUPPORT. What preparing an issue answers, said once. -/

namespace Sys2Proof.Machine

theorem Reserves.refl (s : State) : Reserves s s := ⟨rfl, rfl, rfl, rfl, rfl⟩

theorem Reserves.trans {a b c : State} (h : Reserves a b) (k : Reserves b c) : Reserves a c := by
  refine ⟨?_, ?_, ?_, k.ctxs.trans h.ctxs, ?_⟩
  · have x := k.cur; rw [h.cur] at x; exact x
  · have x := k.tables; rw [h.tables] at x; exact x
  · have x := k.hub; rw [h.hub] at x; exact x
  · have x := k.rest; rw [h.rest] at x; exact x

theorem reserves_modLink (s : State) (c e : Nat) (f : LinkQueue → LinkQueue) : Reserves s (s.modLink c e f) := by
  refine ⟨rfl, rfl, rfl, ?_, rfl⟩
  simp only [State.modLink, State.modCtx, modifyWhere, List.map_map]
  refine List.map_congr_left fun x _ => ?_
  simp only [Function.comp]
  split <;> rfl

theorem reserves_grant {s s' : State} {t : Team} {p k : Nat} {pop : Bool} {slots : List (Nat × PWord)} (h : s.grant t p pop k = some (slots, s')) :
    Reserves s s' := by
  unfold State.grant at h
  split at h
  · cases h
  · dsimp only at h
    split at h
    · split at h
      · split at h
        · cases h; exact ⟨rfl, rfl, rfl, rfl, rfl⟩
        · cases h
      · split at h
        · cases h; exact ⟨rfl, rfl, rfl, rfl, rfl⟩
        · cases h
    · split at h
      · cases h; exact ⟨rfl, rfl, rfl, rfl, rfl⟩
      · cases h
    · split at h
      · cases h
      · cases h; exact reserves_modLink ..

theorem reserves_reserve {s s' : State} (ms : List (Nat × Bool × Nat)) (h : reserve s ms = .granted s') : Reserves s s' := by
  induction ms generalizing s with
  | nil => simp only [reserve, Reserved.granted.injEq] at h; subst h; exact Reserves.refl s
  | cons m ms ih =>
    obtain ⟨key, pop, k⟩ := m
    unfold reserve at h
    split at h
    · exact ih h
    · split at h
      · cases h
      · split at h
        · cases h
        · rename_i slots s1 hg
          have hh := ih h
          exact (reserves_grant hg).trans (Reserves.trans (b := { s1 with cur := { s1.cur with grants := s1.cur.grants ++ [(key, slots)], wants := none } })
            ⟨rfl, rfl, rfl, rfl, rfl⟩ hh)

theorem prepared {i : Instr} {s s1 : State} {o : Issue} (h : prepare i s = .ok (o, s1)) : Prepared i s o s1 := by
  rcases hf : regFields i with ⟨d, a, b⟩
  cases hg : s.cur.current with
  | none => unfold prepare at h; dsimp only at h; rw [hg] at h; cases h
  | some g => cases hw : encodeWord i with
    | none => unfold prepare at h; dsimp only at h; rw [hg, hw] at h; cases h
    | some word =>
      unfold prepare at h
      dsimp only at h
      rw [hg, hw] at h
      dsimp only at h
      rw [hf] at h
      dsimp only at h
      split at h
      · cases h
      rename_i hc
      split at h
      · cases h
      rename_i hbad
      split at h
      · -- control words still to be popped: the issue waits
        split at h
        · cases h
        · split at h <;> cases h
      rename_i hctl
      split at h
      · cases h
      rename_i hstall
      split at h
      · cases h
      · cases h
      · rename_i s2 hr
        split at h
        · cases h
        · cases h
          have hres := reserves_reserve _ hr
          have hb : poisonedGuard s.cur g (shape i s.cur.arch.mode (runtimeWords s.cur i s.now (activeLanes s.cur g (shape i s.cur.arch.mode 1)))) = [] := by
            simpa using hbad
          refine ⟨rfl, hw, rfl, hg, rfl, rfl, ?_, hc, rfl, rfl, ?_, hb, by rw [hf], rfl, by simp [hf], rfl, rfl, fun _ => rfl, rfl, hres⟩
          · rw [hres.rest]
          · rw [hf]; exact (Option.or_eq_none_iff.1 hstall).2

theorem activeLanes_nodup (t : Team) (g : Group) (sh : Shape) : (activeLanes t g sh).Nodup := by
  unfold activeLanes lanesOf
  exact ((List.nodup_range.filter _).filter _)

theorem hasLaneSource_shape (i : Instr) (m : Mode) (w : Nat) : hasLaneSource i (shape i m w) = hasLaneSource i (shape i m 1) := by
  cases i <;> rfl

theorem writes_shape (i : Instr) (m : Mode) (w : Nat) : (shape i m w).d.writes = (shape i m 1).d.writes := by
  cases i <;> rfl

theorem actsOnce_of_uni {i : Instr} {sh : Shape} {d : Reg} (hc : queueOrLaunch i = false) (hd : regKind d = .uni) (hl : hasLaneSource i sh = false) :
    actsOnce i sh d = true := by
  simp [actsOnce, hc, hd, hl]

/-- A legal instruction that writes a uniform register has no per-lane source (R44). -/
theorem laneSource_of_legal {i : Instr} {m : Mode} (h : decodeCause i m = none) (hw : (shape i m 1).d.writes = true)
    (hd : regKind (regFields i).1 = .uni) : hasLaneSource i (shape i m 1) = false := by
  rcases hf : regFields i with ⟨d, a, b⟩
  rw [hf] at hd
  unfold decodeCause at h
  dsimp only at h
  rw [hf] at h
  dsimp only at h
  split at h
  · cases h
  split at h
  · cases h
  split at h
  · cases h
  split at h
  · cases h
  · rename_i hx
    cases hl : hasLaneSource i (shape i m 1) with
    | false => rfl
    | true => exact absurd (by simp [hw, hd, hl]) hx

theorem Prepared.ok {i : Instr} {s s1 : State} {o : Issue} (h : Prepared i s o s1) (hc : queueOrLaunch i = false) : o.Ok := by
  refine ⟨by rw [h.act]; exact activeLanes_nodup _ _ _, h.lanes, fun hk hw => ?_⟩
  have hsh := h.sh
  rw [hsh, writes_shape] at hw
  rw [h.regs.1] at hk
  have hl := laneSource_of_legal h.legal hw hk
  have hu : o.uniform = true := by
    rw [h.uniform]
    refine actsOnce_of_uni hc hk ?_
    rw [hsh, hasLaneSource_shape]; exact hl
  rw [h.lanes, hu]
  simp only [if_true]
  rw [List.length_take]; omega

/-! ### From an instruction's own effect to its issue -/

theorem issue_next {i : Instr} {s s1 : State} {o : Issue} (body : Issue → State → Res) (h : prepare i s = .ok (o, s1)) :
    issue i body s = .next (conclude i s1 (some o) (body o s1)) := by simp only [issue, h]

theorem issue_done {i : Instr} {s s1 u : State} {o : Issue} {e : End} {body : Issue → State → Res} (h : prepare i s = .ok (o, s1))
    (hb : body o s1 = .done u e) : issue i body s = .next (finish o u e) := by rw [issue_next body h, hb]; rfl

theorem issue_completes {i : Instr} {s s1 u : State} {o : Issue} {e : End} {body : Issue → State → Res} (h : prepare i s = .ok (o, s1))
    (hb : body o s1 = .done u e) (ho : e.onward) (hs : e.sig = none) : ∃ t, issue i body s = .next t ∧ Completes o u t :=
  ⟨_, issue_done h hb, finish_completes o u e ho hs⟩

theorem issue_concludes {i : Instr} {s s1 u : State} {o : Issue} {e : End} {body : Issue → State → Res} (h : prepare i s = .ok (o, s1))
    (hb : body o s1 = .done u e) : ∃ t, issue i body s = .next t ∧ Concludes o e u t :=
  ⟨_, issue_done h hb, finish_concludes o u e⟩

/-- An instruction whose results land at issue. -/
theorem issue_computes {i : Instr} {s s1 : State} {o : Issue} {body : Issue → State → Res} {c : Nat} {f : LaneRule} (h : prepare i s = .ok (o, s1))
    (hc : queueOrLaunch i = false) (hb : body o s1 = o.timed (o.commit s1 (o.results f)) c) :
    ∃ u t, issue i body s = .next t ∧ Computes o s1 u f ∧ Completes o u t := by
  obtain ⟨t, h1, h2⟩ := issue_completes (e := ⟨[], [], passes o c, none, o.sh.implicit, false, false, 0⟩) h hb ⟨rfl, rfl, rfl⟩ rfl
  exact ⟨_, t, h1, computes_commit ((prepared h).ok hc) f, h2⟩

/-- The same when something happens before the results are written. -/
theorem issue_computes_after {i : Instr} {s s1 s2 : State} {o : Issue} {body : Issue → State → Res} {c : Nat} {f : LaneRule}
    (h : prepare i s = .ok (o, s1)) (hc : queueOrLaunch i = false) (hb : body o s1 = o.timed (o.commit s2 (o.results f)) c) :
    ∃ u t, issue i body s = .next t ∧ Computes o s2 u f ∧ Completes o u t := by
  obtain ⟨t, h1, h2⟩ := issue_completes (e := ⟨[], [], passes o c, none, o.sh.implicit, false, false, 0⟩) h hb ⟨rfl, rfl, rfl⟩ rfl
  exact ⟨_, t, h1, computes_commit ((prepared h).ok hc) f, h2⟩

/-- Spreading results draws a time for each and changes nothing else. -/
theorem spread_facts (rs : List LaneResult) (s : State) :
    (spread s rs).1.map LaneResult.untimed = rs.map LaneResult.untimed ∧ (∀ r ∈ (spread s rs).1, s.now < r.due) ∧
    (spread s rs).1.any (·.cc.isSome) = rs.any (·.cc.isSome) ∧
    (spread s rs).2 = { s with draws := (spread s rs).2.draws, serial := (spread s rs).2.serial } := by
  induction rs generalizing s with
  | nil => exact ⟨rfl, by simp [spread], rfl, rfl⟩
  | cons r rs ih =>
    have hd : (draw s).2 = { s with draws := (draw s).2.draws, serial := (draw s).2.serial } := by unfold draw; split <;> rfl
    obtain ⟨h1, h2, h3, h4⟩ := ih (draw s).2
    have hn : (draw s).2.now = s.now := by rw [hd]
    have e : spread s (r :: rs) = ({ r with due := (draw s).2.now + 1 + (draw s).1 } :: (spread (draw s).2 rs).1, (spread (draw s).2 rs).2) := rfl
    rw [e]
    refine ⟨by simp only [List.map_cons, h1]; rfl, ?_, by simp only [List.any_cons, h3], ?_⟩
    · intro q hq
      rcases List.mem_cons.1 hq with rfl | hq
      · show s.now < (draw s).2.now + 1 + (draw s).1
        omega
      · have := h2 q hq; omega
    · show (spread (draw s).2 rs).2 = _
      rw [hd] at h4 ⊢
      exact h4

/-- Results pend. -/
theorem pendAfter_pends (o : Issue) (s : State) (rs : List LaneResult) (per : Nat) (h : rs ≠ []) :
    ∃ u, o.pendAfter s rs per = o.timed u per ∧ Pends o s u rs := by
  unfold Issue.pendAfter
  have : rs.isEmpty = false := by cases rs <;> simp_all
  simp only [this]
  refine ⟨_, rfl, ?_⟩
  obtain ⟨h1, h2, h3, h4⟩ := spread_facts rs s
  have hn : (spread s rs).2.now = s.now := by rw [h4]
  generalize spread s rs = q at h1 h2 h3 h4 hn ⊢
  obtain ⟨qs, u⟩ := q
  dsimp only at h1 h2 h3 h4 hn ⊢
  refine ⟨⟨_, by rw [h4]; rfl, h1, h2, rfl, rfl, by rw [h4], by rw [h4], rfl, h3, ?_⟩, ?_⟩
  · show s.now < s.now + 1
    omega
  · rw [h4]; rfl

/-- A long-latency instruction: its results pend, or with no lane nothing happens. -/
theorem issue_pends {i : Instr} {s s1 : State} {o : Issue} {body : Issue → State → Res} {c : Nat} {f : LaneRule} (h : prepare i s = .ok (o, s1))
    (hb : body o s1 = o.pendAfter s1 (o.results f) c) :
    (o.lanes ≠ [] → ∃ u t, issue i body s = .next t ∧ Pends o s1 u (o.results f) ∧ Completes o u t) ∧
    (o.lanes = [] → ∃ t, issue i body s = .next t ∧ Completes o s1 t) := by
  constructor
  · intro hl
    have : o.results f ≠ [] := by
      unfold Issue.results
      split
      · cases hq : o.lanes with
        | nil => contradiction
        | cons a b => simp
      · simpa using hl
    obtain ⟨u, h1, h2⟩ := pendAfter_pends o s1 (o.results f) c this
    obtain ⟨t, h3, h4⟩ := issue_completes (e := ⟨[], [], passes o c, none, o.sh.implicit, false, false, 0⟩) h (hb.trans h1) ⟨rfl, rfl, rfl⟩ rfl
    exact ⟨u, t, h3, h2, h4⟩
  · intro hl
    have : o.results f = [] := by
      unfold Issue.results
      rw [hl]
      split <;> rfl
    have h1 : o.pendAfter s1 (o.results f) c = o.timed s1 c := by rw [this]; rfl
    exact issue_completes (e := ⟨[], [], passes o c, none, o.sh.implicit, false, false, 0⟩) h (hb.trans h1) ⟨rfl, rfl, rfl⟩ rfl

end Sys2Proof.Machine
end

