-- ==== Sys2Proof/Laws/Access.lean ====
section
/-! SUPPORT. What the shared parts of memory instructions do to the state. -/

namespace Sys2Proof.Machine

/-- `t` is `s` with other TLB entries and other table entries kept. -/
structure Fills (s t : State) : Prop where
  rest : t = { s with mem := { s.mem with tlb := t.mem.tlb, table := t.mem.table } }

theorem Fills.refl (s : State) : Fills s s := ⟨rfl⟩
theorem Fills.trans {a b c : State} (h : Fills a b) (k : Fills b c) : Fills a c := by
  refine ⟨?_⟩
  rw [k.rest, h.rest]

theorem fills_fillTlb (s : State) (tile ctx va : Nat) : Fills s (s.fillTlb tile ctx va) := by
  unfold State.fillTlb
  split
  · exact Fills.refl s
  · split
    · exact ⟨rfl⟩
    · exact Fills.refl s

theorem fills_foldl {α : Type} (f : State → α → State) (hf : ∀ s x, Fills s (f s x)) (l : List α) (s : State) : Fills s (l.foldl f s) :=
  List.foldlRecOn (motive := Fills s) l f (Fills.refl s) fun _ h x _ => h.trans (hf _ x)

theorem fills_accesses (tile ctx : Nat) (xs : List Access1) (s : State) :
    Fills s (xs.foldl (fun s x => if isScratch x.ea then s else s.fillTlb tile ctx x.ea) s) :=
  fills_foldl _ (fun s x => by split; exact Fills.refl s; exact fills_fillTlb s tile ctx x.ea) xs s

theorem Fills.regions {s t : State} (h : Fills s t) (tile c : Nat) (xs : List Nat) : t.regionsOf tile c xs = s.regionsOf tile c xs := by rw [h.rest]; rfl

theorem draw_next (s : State) : (draw s).2 = { s with draws := (draw s).2.draws, serial := (draw s).2.serial } := by
  unfold draw
  split <;> rfl

theorem modifyLast_append {α : Type} (p : α → Bool) (f : α → α) (l : List α) (x : α) (h : p x = true) : modifyLast p f (l ++ [x]) = l ++ [f x] := by
  induction l with
  | nil => simp [modifyLast, h]
  | cons y l ih => simp [modifyLast, ih, h]

/-- One effect held. -/
theorem requests_hold {o : Issue} {s t : State} (h : Fills s t) (n : Nat) (e : Effect) :
    Requests o s (o.hold t n e) ⟨n, fun _ => e, none⟩ := by
  rw [h.rest]
  exact ⟨⟨_, rfl, rfl, rfl, rfl, rfl, rfl, rfl, rfl⟩, rfl, rfl⟩

/-- `t` is `s` with other TLB entries, table entries kept, and draws made. -/
structure Drawn (s t : State) : Prop where
  rest : t = { s with mem := { s.mem with tlb := t.mem.tlb, table := t.mem.table }, draws := t.draws, serial := t.serial }

theorem Fills.drawn {s t : State} (h : Fills s t) : Drawn s t := ⟨by rw [h.rest]⟩

theorem Drawn.draw {s t : State} (h : Drawn s t) : Drawn s (draw t).2 := ⟨by rw [draw_next, h.rest]⟩

theorem Drawn.spread {s t : State} (h : Drawn s t) (rs : List LaneResult) : Drawn s (spread t rs).2 :=
  ⟨by rw [(spread_facts rs t).2.2.2, h.rest]⟩

theorem Drawn.now {s t : State} (h : Drawn s t) : t.now = s.now := by rw [h.rest]

theorem spread_place (rs : List LaneResult) (s : State) : (spread s rs).1.map LaneResult.place = rs.map LaneResult.place := by
  have h := congrArg (List.map LaneResult.place) (spread_facts rs s).1
  rw [List.map_map, List.map_map] at h
  exact h

/-- A result that pends, changed by `m`, and one effect held. -/
theorem requests_pend {o : Issue} {s t : State} (ho : o.t.id.uid = s.cur.id.uid) (h : Drawn s t) (n due : Nat) (hd : s.now + Config.Q ≤ due) (e : Nat → Effect)
    {rs qs : List LaneResult} (hq : qs.map LaneResult.place = rs.map LaneResult.place) (atomic acq : Bool) (range : List (Nat × Nat)) (m : Pend → Pend)
    (hm : ∀ p, m p = { p with bcast := (m p).bcast, hasCc := (m p).hasCc, fmt := (m p).fmt, range := (m p).range, once := (m p).once }) :
    Requests o s (o.hold ((o.pend t qs due atomic acq range).2.modPend o.t.id.uid (o.pend t qs due atomic acq range).1 m) n
      (e (o.pend t qs due atomic acq range).1)) ⟨n, e, some rs⟩ := by
  rw [h.rest]
  simp only [Issue.pend, fresh, State.modPend, State.modTeam, ho, if_true]
  refine ⟨⟨_, rfl, rfl, rfl, ho ▸ rfl, rfl, rfl, rfl, rfl⟩, ?_, ?_⟩
  · simp only [Issue.hold, State.hold, fresh]
    rw [modifyLast_append _ _ _ _ (by simp)]
    refine ⟨_, rfl, ?_⟩
    rw [hm]
    exact ⟨rfl, hq, rfl, rfl, rfl, rfl, rfl, hd⟩
  · rfl

/-- An instruction whose own effect goes on at the next one. -/
theorem issue_finishes {i : Instr} {s s1 : State} {o : Issue} {body : Issue → State → Res} {P : State → Prop} (h : prepare i s = .ok (o, s1))
    (hb : ∃ u e, body o s1 = .done u e ∧ (e.onward ∧ e.sig = none) ∧ P u) : ∃ u t, issue i body s = .next t ∧ P u ∧ Completes o u t := by
  obtain ⟨u, e, h1, h2, h3⟩ := hb
  obtain ⟨t, g1, g2⟩ := issue_completes h h1 h2.1 h2.2
  exact ⟨u, t, g1, h3, g2⟩

/-! ### Loads and write-backs -/

theorem isEmpty_of_ne {α : Type} {l : List α} (h : l ≠ []) : l.isEmpty = false := by cases l <;> simp_all

theorem filterMap_sublist {α β γ : Type} (f : α → Option β) (g : β → γ) (k : α → γ) (h : ∀ x y, f x = some y → g y = k x) (l : List α) :
    ((l.filterMap f).map g).Sublist (l.map k) := by
  induction l with
  | nil => simp
  | cons x l ih =>
    rw [List.filterMap_cons]
    split
    · exact ih.trans (by simp)
    · rename_i y hy
      simp only [List.map_cons, h x y hy]
      exact ih.cons_cons _

theorem checkWith_lanes {o : Issue} {s : State} {eas : List (Nat × PVal)} {n : Nat} {odds need scratch last} {xs : List Access1} {fs}
    (h : o.checkWith s eas n odds need scratch last = .ok xs fs) : (xs.map (·.lane)).Sublist (eas.map (·.1)) := by
  unfold Issue.checkWith at h
  dsimp only at h
  repeat' split at h
  all_goals first | contradiction | skip
  simp only [Checked.ok.injEq] at h
  rw [← h.1, List.filterMap_map]
  refine filterMap_sublist _ _ _ (fun x y hy => ?_) eas
  simp only [Function.comp] at hy
  split at hy
  · simp only [Option.some.injEq] at hy
    rw [← hy]
  · contradiction

theorem sends (s : State) (tile side uid ctx iss : Nat) (pc : BitVec 48) (word : Word) (va pa : Nat) (after : List Nat) (act : Act) :
    ∃ y d1 d2 d3, (s.send tile side uid ctx iss pc word va pa after act).2 = { s with net := s.net ++ [y], draws := d1, serial := d2, nextId := d3 } ∧
      y.act = act ∧ y.va = va ∧ y.pa = pa ∧ y.uid = uid ∧ y.tile = tile ∧ s.now ≤ y.due := by
  obtain ⟨d1, d2, h⟩ : ∃ d1 d2, (draw s).2 = { s with draws := d1, serial := d2 } := ⟨_, _, draw_next s⟩
  unfold State.send
  generalize draw s = d at h
  obtain ⟨k, u⟩ := d
  dsimp only at h
  subst h
  exact ⟨_, _, _, _, rfl, rfl, rfl, rfl, rfl, rfl, Nat.le_trans (Nat.le_add_right _ _) (Nat.le_max_left _ _)⟩

/-- A read goes out, at once or behind releases of the tile. -/
theorem sendRead_sends (o : Issue) (s : State) (va key n : Nat) (act : Act) :
    ∃ y d1 d2 d3, o.sendRead s va key n act = { s with net := s.net ++ [y], draws := d1, serial := d2, nextId := d3 } ∧
      y.act = act ∧ y.va = va ∧ (y.point ≠ 9999 → y.pa = key) ∧ y.uid = o.t.id.uid ∧ y.tile = o.t.id.tile ∧ s.now ≤ y.due := by
  unfold Issue.sendRead
  dsimp only
  split
  · obtain ⟨y, d1, d2, d3, h1, h2, h3, h4, h5, h6, h7⟩ := sends s o.t.id.tile o.t.id.side o.t.id.uid o.t.id.ctx s.now o.g.pc o.word va key [] act
    exact ⟨y, d1, d2, d3, h1, h2, h3, fun _ => h4, h5, h6, h7⟩
  · exact ⟨_, _, _, _, rfl, rfl, rfl, fun h => absurd rfl h, rfl, rfl, Nat.le_refl _⟩

/-- What a lane takes from the tile depends on the held effects, the memory, and the releases under way. -/
theorem ownLane_congr (o : Issue) {s u : State} (n : Nat) (x : Access1) (hc : u.coolbox = s.coolbox) (hm : u.mem = s.mem)
    (hn : ∀ q : Net → Bool, (∀ y, q y = true → y.act.releases = true) → u.net.filter q = s.net.filter q) : o.ownLane u n x = o.ownLane s n x := by
  have hr : u.releasing o.t x.ea n = s.releasing o.t x.ea n := by
    unfold State.releasing
    rw [hn]
    intro y hy
    simp only [Bool.and_eq_true] at hy
    exact hy.1.1.1.2
  have hh : ∀ uid ea, u.heldByte uid ea = s.heldByte uid ea := fun uid ea => by unfold State.heldByte; rw [hc]
  unfold Issue.ownLane State.ownBytes
  simp only [hr, hh, hm]

theorem nodup_key_inj {α β : Type} {f : α → β} {xs : List α} (h : (xs.map f).Nodup) {x z : α} (hx : x ∈ xs) (hz : z ∈ xs) (e : f x = f z) : x = z := by
  induction xs with
  | nil => cases hx
  | cons a xs ih =>
    simp only [List.map_cons, List.nodup_cons] at h
    rcases List.mem_cons.1 hx with rfl | hx' <;> rcases List.mem_cons.1 hz with rfl | hz'
    · rfl
    · exact absurd (e ▸ List.mem_map_of_mem hz') h.1
    · exact absurd (e ▸ List.mem_map_of_mem hx') h.1
    · exact ih h.2 hx' hz'

/-- What an access's lane gives its result: the tile's own bytes. -/
def Issue.ownWords (o : Issue) (s : State) (n : Nat) (signed : Bool) (x : Access1) : List PWord := loadedWords signed ((o.ownLane s n x).filterMap id)

/-- The results of a pending instruction while loads are made: those of the accesses `done` have their words. -/
structure Arrived (o : Issue) (s : State) (n : Nat) (signed : Bool) (p : Pend) (done : Access1 → Prop) (rs : List LaneResult) : Prop where
  place : rs.map LaneResult.place = p.results.map LaneResult.place
  words : ∀ x, done x → ∀ r ∈ rs, (p.bcast = true ∨ r.lane = x.lane) → r.ready = true ∧ r.words = (o.ownWords s n signed x).take r.width

theorem arrive_arrived {o : Issue} {s : State} {n : Nat} {signed : Bool} {p : Pend} {done : Access1 → Prop} {rs : List LaneResult} {xs : List Access1} {z : Access1}
    (h : Arrived o s n signed p done rs) (hd : ∀ x, done x → x ∈ xs) (hz : z ∈ xs)
    (hi : ∀ x ∈ xs, ∀ y ∈ xs, (p.bcast = true ∨ x.lane = y.lane) → x = y) :
    Arrived o s n signed p (fun x => done x ∨ x = z) ({ p with results := rs }.arrive z.lane (o.ownWords s n signed z) 0).results := by
  constructor
  · rw [← h.place]
    simp only [Pend.arrive, List.map_map]
    refine List.map_congr_left fun r _ => ?_
    simp only [Function.comp]
    split <;> rfl
  · intro x hx r hr hl
    simp only [Pend.arrive, List.mem_map] at hr
    obtain ⟨q, hq, rfl⟩ := hr
    by_cases hc : (p.bcast || decide (q.lane = z.lane)) = true
    · have hc' : ({ p with results := rs }.bcast || decide (q.lane = z.lane)) = true := hc
      rw [if_pos hc'] at hl ⊢
      have : x = z := by
        rcases hx with hx | hx
        · refine hi x (hd x hx) z hz ?_
          simp only [Bool.or_eq_true, decide_eq_true_eq] at hc
          rcases hl with hl | hl
          · exact .inl hl
          · rcases hc with hc | hc
            · exact .inl hc
            · exact .inr (hl.symm.trans hc)
        · exact hx
      subst this
      exact ⟨rfl, rfl⟩
    · have hc' : ¬({ p with results := rs }.bcast || decide (q.lane = z.lane)) = true := hc
      rw [if_neg hc'] at hl ⊢
      rcases hx with hx | rfl
      · exact h.words x hx q hq hl
      · simp only [Bool.or_eq_true, decide_eq_true_eq, not_or] at hc
        rcases hl with hl | hl
        · exact absurd hl hc.1
        · exact absurd hl hc.2

/-- The state of loads under way: the results of one pending instruction, requests sent, and nothing else. -/
structure LoadStep (o : Issue) (s : State) (n : Nat) (signed : Bool) (base : List Pend) (p : Pend) (done : Access1 → Prop) (u : State) : Prop where
  results : ∃ rs, u.cur.pend = base ++ [{ p with results := rs }] ∧ Arrived o s n signed p (fun x => done x ∧ (o.ownLane s n x).all (·.isSome) = true) rs
  net : ∃ ys, u.net = s.net ++ ys ∧ ∀ y ∈ ys, y.act.releases = false
  asked : ∀ x, done x → (o.ownLane s n x).all (·.isSome) = false → ∃ y ∈ u.net, ∃ ys,
    y.act = .load p.id ys n signed (if isScratch y.va then none else some true) ∧ (x.lane, x.ea, o.ownLane s n x) ∈ ys ∧
    y.va / 64 = x.ea / 64 ∧ y.uid = o.t.id.uid ∧ y.tile = o.t.id.tile ∧ s.now ≤ y.due
  rest : u = { s with cur := { s.cur with pend := u.cur.pend }, net := u.net, draws := u.draws, serial := u.serial, nextId := u.nextId }

theorem LoadStep.own {o : Issue} {s u : State} {n : Nat} {signed : Bool} {base : List Pend} {p : Pend} {done : Access1 → Prop}
    (h : LoadStep o s n signed base p done u) (x : Access1) : o.ownLane u n x = o.ownLane s n x := by
  refine ownLane_congr o n x (by rw [h.rest]) (by rw [h.rest]) fun q hq => ?_
  obtain ⟨ys, he, hy⟩ := h.net
  rw [he, List.filter_append]
  have : ys.filter q = [] := by
    rw [List.filter_eq_nil_iff]
    intro y hy' hqy
    have := hy y hy'
    rw [hq y hqy] at this; cases this
  rw [this, List.append_nil]

theorem LoadStep.start {o : Issue} {s : State} {n : Nat} {signed : Bool} {base : List Pend} {p : Pend} (h : s.cur.pend = base ++ [p]) :
    LoadStep o s n signed base p (fun _ => False) s :=
  ⟨⟨p.results, h, rfl, fun _ hx => hx.1.elim⟩, ⟨[], by simp, by simp⟩, fun _ hx => hx.elim, rfl⟩

/-- A lane whose bytes the tile supplies has its result. -/
theorem LoadStep.here {o : Issue} {s u : State} {n : Nat} {signed : Bool} {base : List Pend} {p : Pend} {done : Access1 → Prop} {xs : List Access1} {z : Access1}
    (h : LoadStep o s n signed base p done u) (hu : o.t.id.uid = s.cur.id.uid) (hd : ∀ x, done x → x ∈ xs) (hz : z ∈ xs)
    (hi : ∀ x ∈ xs, ∀ y ∈ xs, (p.bcast = true ∨ x.lane = y.lane) → x = y) (hl : (o.ownLane s n z).all (·.isSome) = true) :
    LoadStep o s n signed base p (fun x => done x ∨ x = z)
      (u.modPend o.t.id.uid p.id fun q => q.arrive z.lane (loadedWords signed ((o.ownLane s n z).filterMap id)) 0) := by
  obtain ⟨rs, h1, h2⟩ := h.results
  have hr := h.rest
  have huid : u.cur.id.uid = o.t.id.uid := by rw [hr]; exact hu.symm
  have hm : u.modPend o.t.id.uid p.id (fun q => q.arrive z.lane (loadedWords signed ((o.ownLane s n z).filterMap id)) 0) =
      { u with cur := { u.cur with pend := base ++ [{ p with results := rs }.arrive z.lane (o.ownWords s n signed z) 0] } } := by
    unfold State.modPend State.modTeam
    rw [if_pos huid]
    dsimp only
    rw [h1, modifyLast_append _ _ _ _ (by simp)]
    rfl
  rw [hm]
  refine ⟨⟨_, rfl, ?_⟩, h.net, ?_, ?_⟩
  · have := arrive_arrived (z := z) h2 (fun x hx => hd x hx.1) hz hi
    refine ⟨this.place, fun x hx => this.words x ?_⟩
    rcases hx with ⟨hx | hx, hy⟩
    · exact .inl ⟨hx, hy⟩
    · exact .inr hx
  · intro x hx hn
    rcases hx with hx | rfl
    · exact h.asked x hx hn
    · rw [hl] at hn; cases hn
  · dsimp only
    rw [hr]

/-- One request for the lanes of a line that the tile does not supply. -/
theorem LoadStep.away {o : Issue} {s u : State} {n : Nat} {signed : Bool} {base : List Pend} {p : Pend} {done : Access1 → Prop} {z : Access1} {zs : List Access1}
    (h : LoadStep o s n signed base p done u) (hz : ∀ x ∈ z :: zs, loadUnit x = loadUnit z) (ha : ∀ x ∈ z :: zs, (o.ownLane s n x).all (·.isSome) = false) :
    LoadStep o s n signed base p (fun x => done x ∨ x ∈ z :: zs) (o.sendRead u z.ea z.key n
      (.load p.id ((z :: zs).map fun y => (y.lane, y.ea, o.ownLane s n y)) n signed (if isScratch z.ea then none else some true))) := by
  obtain ⟨y, d1, d2, d3, he, h1, h2, h3, h4, h5, h6⟩ := sendRead_sends o u z.ea z.key n
    (.load p.id ((z :: zs).map fun y => (y.lane, y.ea, o.ownLane s n y)) n signed (if isScratch z.ea then none else some true))
  obtain ⟨ys, hn, hys⟩ := h.net
  rw [he]
  refine ⟨?_, ⟨ys ++ [y], (by show u.net ++ [y] = _; rw [hn, List.append_assoc]), ?_⟩, ?_, ?_⟩
  · obtain ⟨rs, g1, g2⟩ := h.results
    refine ⟨rs, g1, g2.place, fun x hx => g2.words x ⟨hx.1.resolve_right fun hm => ?_, hx.2⟩⟩
    have := ha x hm; rw [hx.2] at this; cases this
  · intro w hw
    rcases List.mem_append.1 hw with hw | hw
    · exact hys w hw
    · rw [List.mem_singleton.1 hw, h1]; rfl
  · intro x hx hs
    rcases hx with hx | hx
    · obtain ⟨w, g1, g2⟩ := h.asked x hx hs
      exact ⟨w, List.mem_append_left _ g1, g2⟩
    · refine ⟨y, by simp, _, by rw [h1, h2], List.mem_map.2 ⟨x, hx, rfl⟩, ?_, h4, h5, ?_⟩
      · rw [h2]
        have := hz x hx
        unfold loadUnit at this
        split at this <;> split at this <;> simp_all
      · have : u.now = s.now := by rw [h.rest]
        exact this ▸ h6
  · dsimp only
    rw [h.rest]

/-- The loads of the lanes that read one line. -/
theorem LoadStep.line {o : Issue} {s u : State} {n : Nat} {signed : Bool} {base : List Pend} {p : Pend} {done : Access1 → Prop} {xs zs : List Access1}
    (h : LoadStep o s n signed base p done u) (hu : o.t.id.uid = s.cur.id.uid) (hd : ∀ x, done x → x ∈ xs) (hz : ∀ z ∈ zs, z ∈ xs)
    (hk : ∀ x ∈ zs, ∀ y ∈ zs, loadUnit x = loadUnit y) (hi : ∀ x ∈ xs, ∀ y ∈ xs, (p.bcast = true ∨ x.lane = y.lane) → x = y) :
    LoadStep o s n signed base p (fun x => done x ∨ x ∈ zs) (o.loadLine u p.id n signed zs) := by
  have key : ∀ (hs : List Access1) (done : Access1 → Prop) (v : State), (∀ x, done x → x ∈ xs) → (∀ z ∈ hs, z ∈ xs) →
      (∀ z ∈ hs, (o.ownLane s n z).all (·.isSome) = true) → LoadStep o s n signed base p done v →
      LoadStep o s n signed base p (fun x => done x ∨ x ∈ hs)
        (hs.foldl (fun s' x => s'.modPend o.t.id.uid p.id fun q => q.arrive x.lane (loadedWords signed ((o.ownLane s n x).filterMap id)) 0) v) := by
    intro hs
    induction hs with
    | nil => intro done v _ _ _ hv; simpa using hv
    | cons a hs ih =>
      intro done v hd hm hl hv
      have := ih (fun x => done x ∨ x = a) _ (fun x hx => hx.elim (hd x) fun e => e ▸ hm a List.mem_cons_self) (fun z hz => hm z (List.mem_cons_of_mem _ hz))
        (fun z hz => hl z (List.mem_cons_of_mem _ hz)) (hv.here hu hd (hm a List.mem_cons_self) hi (hl a List.mem_cons_self))
      rw [List.foldl_cons]
      refine Eq.mp (congrArg (fun d => LoadStep o s n signed base p d _) (funext fun x => propext ?_)) this
      simp [or_assoc]
  unfold Issue.loadLine
  dsimp only
  simp only [h.own]
  have h1 := key (zs.filter fun x => (o.ownLane s n x).all (·.isSome)) done u hd (fun z hm => hz z ((List.mem_filter.1 hm).1))
    (fun z hm => (List.mem_filter.1 hm).2) h
  have hsplit : ∀ x, x ∈ zs → x ∈ zs.filter (fun x => (o.ownLane s n x).all (·.isSome)) ∨ x ∈ zs.filter (fun x => !(o.ownLane s n x).all (·.isSome)) := by
    intro x hx
    simp only [List.mem_filter, hx, true_and]
    cases (o.ownLane s n x).all (·.isSome) <;> simp
  split
  · rename_i he
    refine Eq.mp (congrArg (fun d => LoadStep o s n signed base p d _) (funext fun x => propext ?_)) h1
    constructor
    · rintro (hx | hx)
      · exact .inl hx
      · exact .inr ((List.mem_filter.1 hx).1)
    · rintro (hx | hx)
      · exact .inl hx
      · rcases hsplit x hx with hy | hy
        · exact .inr hy
        · rw [he] at hy; cases hy
  · rename_i a as he
    rw [he]
    have hsub : ∀ x ∈ a :: as, x ∈ zs ∧ (o.ownLane s n x).all (·.isSome) = false := by
      intro x hx
      rw [← he] at hx
      have := List.mem_filter.1 hx
      exact ⟨this.1, by simpa using this.2⟩
    have := h1.away (z := a) (zs := as) (fun x hx => hk x (hsub x hx).1 a (hsub a List.mem_cons_self).1) fun x hx => (hsub x hx).2
    refine Eq.mp (congrArg (fun d => LoadStep o s n signed base p d _) (funext fun x => propext ?_)) this
    constructor
    · rintro ((hx | hx) | hx)
      · exact .inl hx
      · exact .inr ((List.mem_filter.1 hx).1)
      · exact .inr (hsub x hx).1
    · rintro (hx | hx)
      · exact .inl (.inl hx)
      · rcases hsplit x hx with hy | hy
        · exact .inl (.inr hy)
        · rw [he] at hy; exact .inr hy

/-- What loads of lanes do. -/
theorem loads_fold {o : Issue} {s : State} {n : Nat} {signed : Bool} {base : List Pend} {p : Pend} {xs : List Access1} (hp : s.cur.pend = base ++ [p])
    (hu : o.t.id.uid = s.cur.id.uid) (hi : ∀ x ∈ xs, ∀ y ∈ xs, (p.bcast = true ∨ x.lane = y.lane) → x = y) :
    LoadStep o s n signed base p (· ∈ xs) ((byLine xs).foldl (fun s line => o.loadLine s p.id n signed line) s) := by
  have key : ∀ (ls : List (List Access1)) (done : Access1 → Prop) (v : State), (∀ x, done x → x ∈ xs) → (∀ zs ∈ ls, ∀ z ∈ zs, z ∈ xs) →
      (∀ zs ∈ ls, ∀ x ∈ zs, ∀ y ∈ zs, loadUnit x = loadUnit y) → LoadStep o s n signed base p done v →
      LoadStep o s n signed base p (fun x => done x ∨ ∃ zs ∈ ls, x ∈ zs) (ls.foldl (fun s line => o.loadLine s p.id n signed line) v) := by
    intro ls
    induction ls with
    | nil => intro done v _ _ _ hv; simpa using hv
    | cons a ls ih =>
      intro done v hd hm hk hv
      have := ih (fun x => done x ∨ x ∈ a) _ (fun x hx => hx.elim (hd x) (hm a List.mem_cons_self x)) (fun z hz => hm z (List.mem_cons_of_mem _ hz))
        (fun z hz => hk z (List.mem_cons_of_mem _ hz)) (hv.line hu hd (hm a List.mem_cons_self) (hk a List.mem_cons_self) hi)
      rw [List.foldl_cons]
      refine Eq.mp (congrArg (fun d => LoadStep o s n signed base p d _) (funext fun x => propext ?_)) this
      simp [or_assoc]
  have hmem : ∀ zs ∈ byLine xs, ∃ j, zs = xs.filter fun x => loadUnit x == j := by
    intro zs hz
    unfold byLine at hz
    obtain ⟨j, -, rfl⟩ := List.mem_map.1 hz
    exact ⟨j, rfl⟩
  have := key (byLine xs) (fun _ => False) s (fun _ h => h.elim) (fun zs hz z hm => by obtain ⟨j, rfl⟩ := hmem zs hz; exact (List.mem_filter.1 hm).1)
    (fun zs hz x hx y hy => by
      obtain ⟨j, rfl⟩ := hmem zs hz
      have h1 := (List.mem_filter.1 hx).2
      have h2 := (List.mem_filter.1 hy).2
      simp only [beq_iff_eq] at h1 h2
      rw [h1, h2]) (LoadStep.start hp)
  refine Eq.mp (congrArg (fun d => LoadStep o s n signed base p d _) (funext fun x => propext ?_)) this
  simp only [false_or]
  constructor
  · rintro ⟨zs, hz, hx⟩
    obtain ⟨j, rfl⟩ := hmem zs hz
    exact (List.mem_filter.1 hx).1
  · intro hx
    refine ⟨xs.filter fun y => loadUnit y == loadUnit x, ?_, List.mem_filter.2 ⟨hx, by simp⟩⟩
    unfold byLine
    exact List.mem_map.2 ⟨loadUnit x, List.mem_eraseDups.2 (List.mem_map_of_mem hx), rfl⟩

theorem Quiet.refl (s : State) : Quiet s s := ⟨rfl⟩
theorem Quiet.trans {a b c : State} (h : Quiet a b) (k : Quiet b c) : Quiet a c := by
  refine ⟨?_⟩
  rw [k.rest, h.rest]

theorem quiet_draw (s : State) : Quiet s (draw s).2 := ⟨by rw [draw_next]⟩
theorem Fills.quiet {s t : State} (h : Fills s t) : Quiet s t := ⟨by rw [h.rest]⟩

theorem quiet_send (s : State) (tile side uid ctx iss : Nat) (pc : BitVec 48) (word : Word) (va pa : Nat) (after : List Nat) (act : Act) :
    Quiet s (s.send tile side uid ctx iss pc word va pa after act).2 := by
  obtain ⟨d1, d2, h⟩ : ∃ d1 d2, (draw s).2 = { s with draws := d1, serial := d2 } := ⟨_, _, draw_next s⟩
  unfold State.send
  generalize draw s = d at h
  obtain ⟨k, u⟩ := d
  dsimp only at h
  subst h
  exact ⟨rfl⟩

/-- The line's tile, context and address. -/
def Line.key (l : Line) : Nat × Nat × Nat := (l.tile, l.ctx, l.va)

/-- Does an act fill an L1 line? -/
def Act.fills : Act → Bool
  | .filled .. => true
  | .load _ _ _ _ (some _) => true
  | _ => false

/-- `t` is `s` after write-backs: quiet, with no new line. -/
structure Cleans (s t : State) : Prop where
  quiet : Quiet s t
  tlb : t.mem.tlb = s.mem.tlb ∧ t.mem.table = s.mem.table
  lines : ∀ k ∈ t.mem.lines.map Line.key, k ∈ s.mem.lines.map Line.key
  net : ∀ y ∈ s.net, y.act.fills = false → y ∈ t.net

theorem Cleans.refl (s : State) : Cleans s s := ⟨Quiet.refl s, ⟨rfl, rfl⟩, fun _ h => h, fun _ h _ => h⟩
theorem Cleans.trans {a b c : State} (h : Cleans a b) (k : Cleans b c) : Cleans a c :=
  ⟨h.quiet.trans k.quiet, ⟨k.tlb.1.trans h.tlb.1, k.tlb.2.trans h.tlb.2⟩, fun x hx => h.lines x (k.lines x hx), fun y hy h1 => k.net y (h.net y hy h1) h1⟩

theorem cleans_sent {s t : State} {y : Net} {d1 d2 d3} (h : t = { s with net := s.net ++ [y], draws := d1, serial := d2, nextId := d3 }) : Cleans s t := by
  subst h
  exact ⟨⟨rfl⟩, ⟨rfl, rfl⟩, fun _ h => h, fun z hz _ => List.mem_append_left _ hz⟩

theorem cleans_send (s : State) (tile side uid ctx iss : Nat) (pc : BitVec 48) (word : Word) (va pa : Nat) (after : List Nat) (act : Act) :
    Cleans s (s.send tile side uid ctx iss pc word va pa after act).2 := by
  obtain ⟨y, d1, d2, d3, h, -⟩ := sends s tile side uid ctx iss pc word va pa after act
  exact cleans_sent h

theorem unmerged_fills {a : Act} (h : a.fills = false) : a.unmerged = a := by
  unfold Act.unmerged
  split
  · cases h
  · cases h
  · rfl

theorem cleans_staleFills (s : State) (p : Line → Bool) : Cleans s (s.staleFills p) := by
  refine ⟨⟨rfl⟩, ⟨rfl, rfl⟩, fun _ h => h, ?_⟩
  intro y hy h1
  unfold State.staleFills
  refine List.mem_map.2 ⟨y, hy, ?_⟩
  split
  · rw [unmerged_fills h1]
  · rfl

theorem cleans_foldl {α : Type} (f : State → α → State) (hf : ∀ s x, Cleans s (f s x)) (l : List α) (s : State) : Cleans s (l.foldl f s) :=
  List.foldlRecOn (motive := Cleans s) l f (Cleans.refl s) fun _ h x _ => h.trans (hf _ x)

theorem cleans_foldl2 {α β : Type} (f : β × State → α → β × State) (hf : ∀ s x, Cleans s.2 (f s x).2) (l : List α) (s : β × State) : Cleans s.2 (l.foldl f s).2 :=
  List.foldlRecOn (motive := fun t => Cleans s.2 t.2) l f (Cleans.refl s.2) fun _ h x _ => h.trans (hf _ x)

theorem key_modifyWhere (p : Line → Bool) (ls : List Line) : (modifyWhere p (fun k => { k with dirty := 0 }) ls).map Line.key = ls.map Line.key := by
  unfold modifyWhere
  rw [List.map_map]
  apply List.map_congr_left
  intro l _
  simp only [Function.comp]
  split <;> rfl

theorem cleans_writeBackLine (s : State) (l : Line) (uid iss : Nat) : Cleans s (s.writeBackLine l uid iss).2 := by
  unfold State.writeBackLine
  split
  · exact Cleans.refl s
  · split
    · exact Cleans.refl s
    · dsimp only
      refine (cleans_foldl2 _ (fun s x => ?_) _ (([] : List Nat), s)).trans ⟨⟨rfl⟩, ⟨rfl, rfl⟩, ?_, fun _ h _ => h⟩
      · exact cleans_send ..
      · intro k hk
        dsimp only at hk
        rw [key_modifyWhere] at hk
        exact hk

/-- Writing a line back while its fills are marked stale. -/
theorem cleans_staleWriteBack (s : State) (p : Line → Bool) (l : Line) (uid iss : Nat) : Cleans s ((s.staleFills p).writeBackLine l uid iss).2 :=
  (cleans_staleFills s p).trans (cleans_writeBackLine ..)

theorem cleans_cleanLines (s : State) (p drop : Line → Bool) (uid iss : Nat) : Cleans s (s.cleanLines p drop uid iss).2 := by
  unfold State.cleanLines
  have h := cleans_foldl2 (fun (x : List Nat × State) l =>
      (x.1 ++ ((x.2.staleFills fun k => l.dirty != 0 && k.tile == l.tile && k.ctx == l.ctx && k.va == l.va).writeBackLine l uid iss).1,
        ((x.2.staleFills fun k => l.dirty != 0 && k.tile == l.tile && k.ctx == l.ctx && k.va == l.va).writeBackLine l uid iss).2))
    (fun s x => cleans_staleWriteBack ..) (s.mem.lines.filter p) (s.writingBack p, s)
  dsimp only
  generalize List.foldl _ _ _ = v at h ⊢
  refine (h.trans (?_ : Cleans v.2 { v.2 with mem := { v.2.mem with lines := v.2.mem.lines.filter fun l => !(p l && drop l) } })).trans (cleans_staleFills _ _)
  refine ⟨⟨rfl⟩, ⟨rfl, rfl⟩, ?_, fun _ h _ => h⟩
  intro k hk
  simp only [List.mem_map, List.mem_filter] at hk ⊢
  obtain ⟨l, ⟨h1, -⟩, h2⟩ := hk
  exact ⟨l, h1, h2⟩

theorem walkFrom_congr {m k : Mem} (h : m.bytes = k.bytes) (cached : Nat → Option Nat) (va level table : Nat) :
    walkFrom m cached va level table = walkFrom k cached va level table := by
  have hg : ∀ a, m.get a = k.get a := fun a => by simp only [Mem.get, h]
  have hr : ∀ n a, m.read a n = k.read a n := fun n => by
    induction n with
    | zero => exact fun _ => rfl
    | succ n ih => exact fun a => by simp only [Mem.read, hg, ih]
  have hn : ∀ a n, m.nat a n = k.nat a n := fun a n => by simp only [Mem.nat, hr]
  have hc : ∀ t i, c64Legal m t i = c64Legal k t i := fun t i => by simp only [c64Legal, hn]
  induction level generalizing table with
  | zero => unfold walkFrom; simp only [hn, hc]
  | succ l ih => unfold walkFrom; simp only [hn, hc, ih]

/-- Translation reads the TLB, the page tables and the contexts, which a quiet change with the same TLB keeps. -/
theorem Quiet.walk {s t : State} (h : Quiet s t) (ht : t.mem.tlb = s.mem.tlb ∧ t.mem.table = s.mem.table) (tile ctx va : Nat) :
    t.walk tile ctx va = s.walk tile ctx va := by
  have hb : t.mem.bytes = s.mem.bytes := by rw [h.rest]
  have hc : t.ctx? ctx = s.ctx? ctx := by rw [h.rest]; rfl
  have he : t.mem.tableEntry tile ctx va = s.mem.tableEntry tile ctx va := by unfold Mem.tableEntry; rw [ht.2]
  simp only [State.walk, ht.1, hc, he, walkFrom_congr hb]

theorem Cleans.keyOf {s t : State} (h : Cleans s t) (tile ctx va : Nat) : t.keyOf tile ctx va = s.keyOf tile ctx va := by
  simp only [State.keyOf, h.quiet.walk h.tlb]

/-- Lines that are dropped are gone. -/
theorem cleanLines_gone (s : State) (p drop : Line → Bool) (uid iss : Nat) : ∀ l ∈ (s.cleanLines p drop uid iss).2.mem.lines, (p l && drop l) = false := by
  unfold State.cleanLines
  intro l hl
  have hl : l ∈ List.filter _ _ := hl
  have := (List.mem_filter.1 hl).2
  revert this
  cases p l && drop l <;> simp

theorem overlaps_key {a b : Line} (h : a.key = b.key) (tile ctx lo hi : Nat) : overlaps tile ctx lo hi a = overlaps tile ctx lo hi b := by
  simp only [Line.key, Prod.mk.injEq] at h
  simp [overlaps, h]

theorem uncached_cleans {o : Issue} {s t : State} {lo n : Nat} (h : o.uncached s lo n) (k : Cleans s t) : o.uncached t lo n := by
  intro l hl
  obtain ⟨m, hm, he⟩ := List.mem_map.1 (k.lines l.key (List.mem_map_of_mem hl))
  rw [← overlaps_key he]
  exact h m hm

theorem cleans_flushRange (s : State) (tile ctx uid iss lo hi : Nat) (d : Bool) : Cleans s (s.flushRange tile ctx uid iss lo hi d).2 := cleans_cleanLines ..

theorem flushRange_uncached (o : Issue) (s : State) (uid iss lo n : Nat) : o.uncached (s.flushRange o.t.id.tile o.t.id.ctx uid iss lo (lo + n) true).2 lo n := by
  intro l hl
  have := cleanLines_gone _ _ _ _ _ l hl
  revert this
  simp

theorem any_filter {α : Type} (p : α → Bool) (xs : List α) : xs.any p = !(xs.filter p).isEmpty := by
  induction xs with
  | nil => rfl
  | cons x xs ih => by_cases hx : p x = true <;> simp [hx, ih]

/-- The read of an object is under way, at once or behind releases of the tile. -/
def Issue.asks (o : Issue) (s u : State) (act : Act) (va key : Nat) : Prop :=
  ∃ y ∈ u.net, y.act = act ∧ y.va = va ∧ (y.point ≠ 9999 → y.pa = key) ∧ y.uid = o.t.id.uid ∧ s.now ≤ y.due

/-- A read that goes out from a state that has been written back. -/
theorem sendRead_asks {o : Issue} {s v : State} (hv : Cleans s v) (va key n : Nat) (act : Act) :
    Cleans s (o.sendRead v va key n act) ∧ o.asks s (o.sendRead v va key n act) act va key := by
  obtain ⟨y, d1, d2, d3, h1, h2, h3, h4, h5, h6, h7⟩ := sendRead_sends o v va key n act
  refine ⟨hv.trans (cleans_sent h1), y, by rw [h1]; simp, h2, h3, h4, h5, ?_⟩
  have : v.now = s.now := by rw [hv.quiet.rest]
  omega

theorem readObject_reads (o : Issue) (s : State) (pid n : Nat) (acq : Bool) (x : Access1) : Cleans s (o.readObject s pid n acq x) ∧
    o.asks s (o.readObject s pid n acq x) (.object pid x.lane x.ea n acq) x.ea x.key ∧
    (isScratch x.ea = false → o.uncached (o.readObject s pid n acq x) x.ea n) := by
  unfold Issue.readObject
  by_cases hs : isScratch x.ea = true
  · simp only [hs, if_true]
    obtain ⟨h1, h2⟩ := sendRead_asks (o := o) (Cleans.refl s) x.ea x.key n (.object pid x.lane x.ea n acq)
    exact ⟨h1, h2, by simp⟩
  · rw [Bool.not_eq_true] at hs
    simp only [hs, Bool.false_eq_true, if_false]
    obtain ⟨h1, h2⟩ := sendRead_asks (o := o) (cleans_flushRange s o.t.id.tile o.t.id.ctx o.t.id.uid s.now x.ea (x.ea + n) true) x.ea x.key n (.object pid x.lane x.ea n acq)
    obtain ⟨h3, -⟩ := sendRead_asks (o := o) (Cleans.refl (s.flushRange o.t.id.tile o.t.id.ctx o.t.id.uid s.now x.ea (x.ea + n) true).2) x.ea x.key n (.object pid x.lane x.ea n acq)
    exact ⟨h1, h2, fun _ => uncached_cleans (flushRange_uncached o s o.t.id.uid s.now x.ea n) h3⟩

theorem readObjects_fold (o : Issue) (pid n : Nat) (acq : Bool) (xs : List Access1) (s : State) :
    Cleans s (xs.foldl (fun s x => o.readObject s pid n acq x) s) ∧ ∀ x ∈ xs,
      o.asks s (xs.foldl (fun s x => o.readObject s pid n acq x) s) (.object pid x.lane x.ea n acq) x.ea x.key ∧
      (isScratch x.ea = false → o.uncached (xs.foldl (fun s x => o.readObject s pid n acq x) s) x.ea n) := by
  induction xs generalizing s with
  | nil => exact ⟨Cleans.refl s, fun x hx => by simp at hx⟩
  | cons x xs ih =>
    simp only [List.foldl_cons]
    obtain ⟨h1, h2, h3⟩ := readObject_reads o s pid n acq x
    obtain ⟨g1, g2⟩ := ih (o.readObject s pid n acq x)
    have hn : (o.readObject s pid n acq x).now = s.now := by rw [h1.quiet.rest]
    refine ⟨h1.trans g1, fun z hz => ?_⟩
    rcases List.mem_cons.1 hz with rfl | hz
    · obtain ⟨y, k1, k2, k3⟩ := h2
      exact ⟨⟨y, g1.net y k1 (by rw [k2]; rfl), k2, k3⟩, fun h => uncached_cleans (h3 h) g1⟩
    · obtain ⟨⟨y, k1, k2, k3, k4, k5, k6⟩, k7⟩ := g2 z hz
      exact ⟨⟨y, k1, k2, k3, k4, k5, by omega⟩, k7⟩

/-- Reads at the ordering point for the accesses `ys`, from a state whose result pends. -/
theorem readsObjects_of {o : Issue} {s v : State} {acq : Bool} {xs ys : List Access1} (hp : PendsAt o s v ((o.dests (xs.map (·.lane)) 2).map LaneResult.place) 1)
    (ha : ∀ p, v.cur.pend.getLast? = some p → p.acq = acq ∧ (acq = true → p.range = (s.regionsOf o.t.id.tile o.t.id.ctx (xs.map (·.ea))).map (·.2)))
    (hn : v.now = s.now)
    (hh : if acq && xs.any (·.ef) then ∃ h : Held, v.coolbox = s.coolbox ++ [h] ∧
      h.eff = .efload s.nextId false ((xs.filter (·.ef)).map fun x => (x.lane, x.ea, 8)) ∧ h.issue = s.now ∧ h.uid = o.t.id.uid
      else v.coolbox = s.coolbox)
    (hq : Quiet { s with cur := { s.cur with pend := v.cur.pend }, coolbox := v.coolbox } v)
    (hy : ∀ x ∈ xs, (acq && x.ef) = false → ∃ z ∈ ys, z.lane = x.lane ∧ z.ea = x.ea ∧ z.key = x.key) :
    ReadsObjects o s (ys.foldl (fun t x => o.readObject t s.nextId 8 acq x) v) acq xs := by
  obtain ⟨g1, g2⟩ := readObjects_fold o s.nextId 8 acq ys v
  have hu := g1.quiet.rest
  generalize List.foldl _ _ _ = u at g1 g2 hu
  have hpend : u.cur.pend = v.cur.pend := by rw [hu]
  have hc : u.coolbox = v.coolbox := by rw [hu]
  refine ⟨?_, ?_, fun x hx he => ?_, ?_, fun x hx he hs => ?_, ?_⟩
  · obtain ⟨p, h1, h2⟩ := hp
    exact ⟨p, hpend.trans h1, h2⟩
  · rw [hpend]; exact ha
  · obtain ⟨z, hz, e1, e2, e3⟩ := hy x hx he
    obtain ⟨y, k1, k2, k3, k4, k5, k6⟩ := (g2 z hz).1
    exact ⟨y, k1, by rw [k2, e1, e2], k3.trans e2, fun h => (k4 h).trans e3, k5, hn ▸ k6⟩
  · rw [hc]; exact hh
  · obtain ⟨z, hz, -, e2, -⟩ := hy x hx he
    have := (g2 z hz).2
    rw [e2] at this
    exact this hs
  · rw [hpend, hc]; exact hq.trans g1.quiet

end Sys2Proof.Machine
end

