-- ==== Sys2Proof/Laws/Clock.lean ====
section
/-! SUPPORT. What leaves the time and the Coolbox alone: the releases of held effects, the dispatcher's answers to teams, requests that
fail, acknowledgements, and transfers of the Rucksack that do not go. -/

namespace Sys2Proof.Machine

/-- A time and what a Coolbox holds. -/
abbrev Clk := Nat × List Held

/-- The time and the Coolbox of a state. -/
@[reducible] def State.clk (s : State) : Clk := (s.now, s.coolbox)

variable {C : Clk}

/-- They are as they were in the state of an outcome. -/
def clkO (C : Clk) : Option State → Prop | none => True | some t => t.clk = C
def clkN (C : Clk) : Host.Outcome State Fault Refusal → Prop | .next t => t.clk = C | _ => True
theorem clk_of_some {p : Option State} {t : State} (e : p = some t) (h : clkO C p) : t.clk = C := by rw [e] at h; exact h
theorem clk_foldl {α : Type} {f : State → α → State} {l : List α} {b : State} (hf : ∀ b c, b.clk = C → (f b c).clk = C) (h : b.clk = C) :
    (l.foldl f b).clk = C := foldl_keeps (fun (x : State) => x.clk = C) f hf l b h
theorem clk_foldl2 {α β : Type} {f : β × State → α → β × State} {l : List α} {b : β × State} (hf : ∀ b c, b.2.clk = C → (f b c).2.clk = C)
    (h : b.2.clk = C) : (l.foldl f b).2.clk = C := foldl_keeps (fun (x : β × State) => x.2.clk = C) f hf l b h
theorem clkO_none : clkO C none := trivial
theorem clkO_bind {α : Type} {o : Option α} {f : α → Option State} (h : ∀ a, o = some a → clkO C (f a)) : clkO C (o.bind f) := by
  cases o with
  | none => trivial
  | some a => exact h a rfl
theorem clkN_next {t : State} (h : t.clk = C) : clkN C (.next t) := h
theorem clkO_some {t : State} (h : t.clk = C) : clkO C (some t) := h
/-! ### Machine/Ops.lean -/

theorem draw_clk (s : State) (hs : s.clk = C) : (draw s).2.clk = C := by
  unfold draw
  repeat' first | dsimp only [State.clk] | split | with_reducible first | assumption

theorem fresh_clk (s : State) (hs : s.clk = C) : (fresh s).2.clk = C := by
  unfold fresh
  repeat' first | dsimp only [State.clk] | with_reducible first | assumption

theorem State.modTeam_clk (s : State) (uid : Nat) (f : Team → Team) (hs : s.clk = C) : (State.modTeam s uid f).clk = C := by
  unfold State.modTeam
  repeat' first | dsimp only [State.clk] | split | with_reducible first | assumption

theorem State.modCtx_clk (s : State) (c : Nat) (f : Ctx → Ctx) (hs : s.clk = C) : (State.modCtx s c f).clk = C := by
  unfold State.modCtx
  repeat' first | dsimp only [State.clk] | with_reducible first | assumption

theorem State.progress_clk (s : State) (c : Nat) (hs : s.clk = C) : (State.progress s c).clk = C := by
  unfold State.progress
  repeat' first | dsimp only [State.clk] | with_reducible first | assumption | apply State.modCtx_clk

theorem State.modQueue_clk (s : State) (tile e : Nat) (f : TileQueue → TileQueue) (hs : s.clk = C) : (State.modQueue s tile e f).clk = C := by
  unfold State.modQueue
  repeat' first | dsimp only [State.clk] | with_reducible first | assumption

theorem State.modThread_clk (s : State) (j : Nat) (f : Thread → Thread) (hs : s.clk = C) : (State.modThread s j f).clk = C := by
  unfold State.modThread
  repeat' first | dsimp only [State.clk] | with_reducible first | assumption

theorem State.modLink_clk (s : State) (c e : Nat) (f : LinkQueue → LinkQueue) (hs : s.clk = C) : (State.modLink s c e f).clk = C := by
  unfold State.modLink
  repeat' first | dsimp only [State.clk] | with_reducible first | assumption | apply State.modCtx_clk

theorem State.notify_clk (s : State) (j : Nat) (hs : s.clk = C) : (State.notify s j).clk = C := by
  unfold State.notify
  repeat' first | dsimp only [State.clk] | with_reducible first | assumption | apply State.modThread_clk

/-! ### Machine/Translate.lean -/

theorem State.send_clk (s : State) (tile side uid ctx issue : Nat) (pc : BitVec 48) (word : Word) (va pa : Nat) (after : List Nat) (act : Act) (hs : s.clk = C) :
    (State.send s tile side uid ctx issue pc word va pa after act).2.clk = C := by
  unfold State.send
  repeat' first | dsimp only [State.clk] | with_reducible first | assumption | apply draw_clk | apply fresh_clk

theorem State.sendAfter_clk (s : State) (tile side uid ctx issue : Nat) (pc : BitVec 48) (word : Word) (va : Nat) (after : List Nat) (act : Act) (hs : s.clk = C) :
    (State.sendAfter s tile side uid ctx issue pc word va after act).2.clk = C := by
  unfold State.sendAfter
  repeat' first | dsimp only [State.clk] | with_reducible first | assumption | apply fresh_clk

theorem State.writeBackLine_clk (s : State) (l : Line) (uid issue : Nat) (hs : s.clk = C) : (State.writeBackLine s l uid issue).2.clk = C := by
  unfold State.writeBackLine
  repeat' first | dsimp only [State.clk] | split | with_reducible first | assumption | intro _ | apply State.send_clk | refine clk_foldl2 ?_ ?_

theorem State.staleFills_clk (s : State) (p : Line → Bool) (hs : s.clk = C) : (State.staleFills s p).clk = C := by
  unfold State.staleFills
  repeat' first | dsimp only [State.clk] | with_reducible first | assumption

theorem State.cleanLines_clk (s : State) (p drop : Line → Bool) (uid issue : Nat) (hs : s.clk = C) :
    (State.cleanLines s p drop uid issue).2.clk = C := by
  unfold State.cleanLines
  repeat' first | dsimp only [State.clk] | with_reducible first | assumption | intro _ | apply State.writeBackLine_clk | apply State.staleFills_clk | refine clk_foldl2 ?_ ?_

/-! ### Machine/Faults.lean -/

theorem State.parkFault_clk (s : State) (t : Team) (unit item : Nat) (pc : BitVec 48) (word : Word) (issue : Nat) (mask : LaneMask) (va : Nat) (n : Need) (level : Nat) (hs : s.clk = C) :
    (State.parkFault s t unit item pc word issue mask va n level).clk = C := by
  unfold State.parkFault
  repeat' first | dsimp only [State.clk] | with_reducible first | assumption | apply fresh_clk

/-! ### Machine/Memory.lean -/

theorem State.modPend_clk (s : State) (uid pid : Nat) (f : Pend → Pend) (hs : s.clk = C) : (State.modPend s uid pid f).clk = C := by
  unfold State.modPend
  repeat' first | dsimp only [State.clk] | with_reducible first | assumption | apply State.modTeam_clk

theorem State.memStore_clk (s : State) (key : Nat) (data : List (Byte × Bool)) (hs : s.clk = C) : (State.memStore s key data).clk = C := by
  unfold State.memStore
  repeat' first | dsimp only [State.clk] | with_reducible first | assumption

theorem State.releasePiece_clk (s : State) (e : Held) (p : Piece) (hs : s.clk = C) : (State.releasePiece s e p).clk = C := by
  unfold State.releasePiece
  repeat' first | dsimp only [State.clk] | split | with_reducible first | assumption | apply State.send_clk | apply State.staleFills_clk | apply State.memStore_clk

theorem State.flushRange_clk (s : State) (tile ctx uid issue lo hi : Nat) (drop : Bool) (hs : s.clk = C) :
    (State.flushRange s tile ctx uid issue lo hi drop).2.clk = C := by
  unfold State.flushRange
  repeat' first | dsimp only [State.clk] | with_reducible first | assumption | apply State.cleanLines_clk

/-! ### Machine/Loads.lean -/

theorem State.cleanPair_clk (s : State) (tile ctx uid issue e n : Nat) (hs : s.clk = C) : (State.cleanPair s tile ctx uid issue e n).clk = C := by
  unfold State.cleanPair
  repeat' first | dsimp only [State.clk] | with_reducible first | assumption | apply State.flushRange_clk

/-! ### Machine/Equivalence.lean -/

theorem State.startWalks_clk (s : State) (engine : Nat) (hs : s.clk = C) : (State.startWalks s engine).clk = C := by
  unfold State.startWalks
  repeat' first | dsimp only [State.clk] | with_reducible first | assumption | intro _ | apply fresh_clk | refine clk_foldl ?_ ?_

/-! ### Machine/Binding.lean -/

theorem State.defer_clk (s : State) (uid cause : Nat) (pc : BitVec 48) (time : Nat) (word : Word) (mask : LaneMask) (tval : List (Nat × Dword)) (hs : s.clk = C) :
    (State.defer s uid cause pc time word mask tval).clk = C := by
  unfold State.defer
  repeat' first | dsimp only [State.clk] | with_reducible first | assumption | apply State.modTeam_clk

/-! ### Machine/Homes.lean -/

theorem State.sendBack_clk (s : State) (x : Net) (hs : s.clk = C) : (State.sendBack s x).clk = C := by
  unfold State.sendBack
  repeat' first | dsimp only [State.clk] | split | with_reducible first | assumption | apply draw_clk

theorem State.answer_clk (s : State) (x : Net) (force : Bool) (late : Nat) (act : Act) (hs : s.clk = C) :
    (State.answer s x force late act).clk = C := by
  unfold State.answer
  repeat' first | dsimp only [State.clk] | split | with_reducible first | assumption | apply fresh_clk | apply State.sendBack_clk

theorem State.failAt_clk (s : State) (x : Net) (cause : Nat) (xs : List (Nat × Nat)) (pid : Option Nat) (hs : s.clk = C) :
    (State.failAt s x cause xs pid).clk = C := by
  unfold State.failAt
  repeat' first | dsimp only [State.clk] | split | with_reducible first | assumption | apply State.modPend_clk | apply State.defer_clk | apply State.answer_clk

theorem State.failNet_clk (s : State) (x : Net) (cause : Nat) (hs : s.clk = C) : (State.failNet s x cause).clk = C := by
  unfold State.failNet
  repeat' first | dsimp only [State.clk] | split | with_reducible first | assumption | apply State.answer_clk | apply State.failAt_clk

theorem State.parkRequest_clk (s : State) (x : Net) (t : Team) (level : Nat) (hs : s.clk = C) : (State.parkRequest s x t level).clk = C := by
  unfold State.parkRequest
  repeat' first | dsimp only [State.clk] | split | with_reducible first | assumption | apply State.modTeam_clk | apply State.parkFault_clk

/-! ### Machine/Links.lean -/

theorem State.hubSend_clk (s : State) (m : Out) (hs : s.clk = C) : (State.hubSend s m).clk = C := by
  unfold State.hubSend
  repeat' first | dsimp only [State.clk] | with_reducible first | assumption | apply fresh_clk

theorem State.answerOut_clk (s : State) (x : Net) (hs : s.clk = C) : (State.answerOut s x).clk = C := by
  unfold State.answerOut
  repeat' first | dsimp only [State.clk] | split | with_reducible first | assumption | apply State.hubSend_clk

/-! ### Machine/Matrix.lean -/

theorem State.modEngine_clk (s : State) (tile : Nat) (f : Engine → Engine) (hs : s.clk = C) : (State.modEngine s tile f).clk = C := by
  unfold State.modEngine
  repeat' first | dsimp only [State.clk] | with_reducible first | assumption

/-! ### Machine/Admission.lean -/

theorem State.writeVa_clk (s : State) (ctx va : Nat) (bs : List Byte) (hs : s.clk = C) : (State.writeVa s ctx va bs).clk = C := by
  unfold State.writeVa
  repeat' first | dsimp only [State.clk] | split | with_reducible first | assumption | intro _ | apply State.memStore_clk | refine clk_foldl ?_ ?_

theorem State.modKernel_clk (s : State) (k : Kernel) (f : Kernel → Kernel) (hs : s.clk = C) : (State.modKernel s k f).clk = C := by
  unfold State.modKernel
  repeat' first | dsimp only [State.clk] | with_reducible first | assumption

theorem State.evictCold_clk (s : State) (ctx : Nat) (hs : s.clk = C) : (State.evictCold s ctx).clk = C := by
  unfold State.evictCold
  repeat' first | dsimp only [State.clk] | with_reducible first | assumption | intro _ | apply State.modCtx_clk | apply State.writeVa_clk | apply State.modKernel_clk | refine clk_foldl ?_ ?_

theorem State.loadKernel_clk (s : State) (k : Kernel) (hs : s.clk = C) : clkO C (State.loadKernel s k) := by
  unfold State.loadKernel
  repeat' first | dsimp only [State.clk] | split | with_reducible first | assumption | apply State.modCtx_clk | apply State.writeVa_clk | apply State.modKernel_clk | apply State.evictCold_clk | refine clk_of_some (by assumption) ?_ | refine clkO_some ?_ | exact clkO_none

theorem State.modWork_clk (s : State) (id : Nat) (f : Work → Work) (hs : s.clk = C) : (State.modWork s id f).clk = C := by
  unfold State.modWork
  repeat' first | dsimp only [State.clk] | with_reducible first | assumption

theorem State.writeStatus_clk (s : State) (ctx record v : Nat) (hs : s.clk = C) : (State.writeStatus s ctx record v).clk = C := by
  unfold State.writeStatus
  repeat' first | dsimp only [State.clk] | with_reducible first | assumption | apply State.writeVa_clk

theorem State.startGrid_clk (s : State) (ctx record : Nat) (bs : List Byte) (timetable : Option Nat) (hs : s.clk = C) :
    (State.startGrid s ctx record bs timetable).2.clk = C := by
  unfold State.startGrid
  repeat' first | dsimp only [State.clk] | split | with_reducible first | assumption | apply fresh_clk | apply State.modKernel_clk | apply State.loadKernel_clk | apply State.writeStatus_clk | refine clk_of_some (by assumption) ?_

theorem State.setHamper_clk (s : State) (h : Hamper) (hs : s.clk = C) : (State.setHamper s h).clk = C := by
  unfold State.setHamper
  repeat' first | dsimp only [State.clk] | with_reducible first | assumption

theorem State.formHamper_clk (s : State) (h : Hamper) (hs : s.clk = C) : (State.formHamper s h).clk = C := by
  unfold State.formHamper
  repeat' first | dsimp only [State.clk] | split | with_reducible first | assumption | apply fresh_clk | apply State.setHamper_clk

theorem State.enterHamper_clk (s : State) (h : Hamper) (t : Task) (hs : s.clk = C) : (State.enterHamper s h t).clk = C := by
  unfold State.enterHamper
  repeat' first | dsimp only [State.clk] | split | with_reducible first | assumption | apply State.setHamper_clk | apply State.formHamper_clk

theorem State.drainPools_clk (s : State) (cluster : Nat) (y0 : Nat) (hs : s.clk = C) : (State.drainPools s cluster y0).clk = C := by
  induction y0 generalizing s cluster with
  | zero => 
    unfold State.drainPools
    repeat' first | dsimp only [State.clk] | with_reducible first | assumption
  | succ n ih => 
    unfold State.drainPools
    repeat' first | dsimp only [State.clk] | split | with_reducible first | assumption | apply ih | apply State.modCtx_clk | apply State.enterHamper_clk

theorem State.placeTask_clk (s : State) (cluster : Nat) (t : Task) (hs : s.clk = C) : (State.placeTask s cluster t).2.clk = C := by
  unfold State.placeTask
  repeat' first | dsimp only [State.clk] | split | with_reducible first | assumption | apply State.modCtx_clk | apply State.enterHamper_clk | apply State.drainPools_clk

/-! ### Machine/Dispatcher.lean -/

theorem State.releaseActions_clk (s : State) (tile ctx uid issue : Nat) (regions : List (Nat × Nat)) (objs : List Nat) (hs : s.clk = C) :
    (State.releaseActions s tile ctx uid issue regions objs).2.clk = C := by
  unfold State.releaseActions
  repeat' first | dsimp only [State.clk] | split | with_reducible first | assumption | intro _ | apply State.cleanLines_clk | apply State.flushRange_clk | refine clk_foldl2 ?_ ?_

theorem State.releaseObjects_clk (s : State) (tile ctx uid issue : Nat) (objs : List Nat) (hs : s.clk = C) :
    (State.releaseObjects s tile ctx uid issue objs).2.clk = C := by
  unfold State.releaseObjects
  repeat' first | dsimp only [State.clk] | with_reducible first | assumption | apply State.releaseActions_clk

theorem State.askFails_clk (s : State) (x : Net) (cause : Nat) (mask : LaneMask) (va : Nat) (pid : Option Nat) (hs : s.clk = C) :
    (State.askFails s x cause mask va pid).clk = C := by
  unfold State.askFails
  repeat' first | dsimp only [State.clk] | split | with_reducible first | assumption | apply State.modPend_clk | apply State.defer_clk

theorem State.names_clk (s : State) (uid counter : Nat) (hs : s.clk = C) : (State.names s uid counter).clk = C := by
  unfold State.names
  repeat' first | dsimp only [State.clk] | split | with_reducible first | assumption | apply State.modTeam_clk

theorem State.askLaunch_clk (s : State) (x : Net) (mask : LaneMask) (pid ea : Nat) (hs : s.clk = C) : (State.askLaunch s x mask pid ea).clk = C := by
  unfold State.askLaunch
  repeat' first | dsimp only [State.clk] | split | with_reducible first | assumption | apply State.modPend_clk | apply State.startGrid_clk | apply State.askFails_clk | apply State.names_clk

theorem State.askGrow_clk (s : State) (x : Net) (mask : LaneMask) (pid n : Nat) (hs : s.clk = C) : (State.askGrow s x mask pid n).clk = C := by
  unfold State.askGrow
  repeat' first | dsimp only [State.clk] | split | with_reducible first | assumption | apply State.modPend_clk | apply State.modWork_clk | apply State.askFails_clk

theorem State.askJob_clk (s : State) (x : Net) (mask : LaneMask) (ea : Nat) (hs : s.clk = C) : (State.askJob s x mask ea).clk = C := by
  unfold State.askJob
  repeat' first | dsimp only [State.clk] | split | with_reducible first | assumption | intro _ | apply fresh_clk | apply State.loadKernel_clk | apply State.askFails_clk | apply State.names_clk | refine clkO_bind ?_ | refine clk_of_some (by assumption) ?_

theorem State.askSpawn_clk (s : State) (x : Net) (pid : Nat) (xs : List (Nat × Nat)) (hs : s.clk = C) : (State.askSpawn s x pid xs).clk = C := by
  unfold State.askSpawn
  repeat' first | dsimp only [State.clk] | split | with_reducible first | assumption | intro _ | apply State.modPend_clk | apply State.defer_clk | apply State.placeTask_clk | apply State.names_clk | refine clk_foldl2 ?_ ?_

theorem State.performAsk_clk (s : State) (x : Net) (mask : LaneMask) (e : Effect) (hs : s.clk = C) : (State.performAsk s x mask e).clk = C := by
  unfold State.performAsk
  repeat' first | dsimp only [State.clk] | split | with_reducible first | assumption | apply State.askLaunch_clk | apply State.askGrow_clk | apply State.askJob_clk | apply State.askSpawn_clk

/-! ### Machine/CopyEngine.lean -/

theorem State.modCopy_clk (s : State) (cid : Nat) (f : Copy → Copy) (hs : s.clk = C) : (State.modCopy s cid f).clk = C := by
  unfold State.modCopy
  repeat' first | dsimp only [State.clk] | with_reducible first | assumption

theorem State.copyOver_clk (s : State) (c : Copy) (hs : s.clk = C) : (State.copyOver s c).clk = C := by
  unfold State.copyOver
  repeat' first | dsimp only [State.clk] | split | with_reducible first | assumption | apply State.modTeam_clk | apply State.modCopy_clk

theorem State.sendCredit_clk (s : State) (c : Copy) (barrier : Bool) (ea n : Nat) (hs : s.clk = C) :
    (State.sendCredit s c barrier ea n).clk = C := by
  unfold State.sendCredit
  repeat' first | dsimp only [State.clk] | split | with_reducible first | assumption | apply State.sendAfter_clk

theorem State.stopCopy_clk (s : State) (c : Copy) (cause va : Nat) (hs : s.clk = C) : (State.stopCopy s c cause va).clk = C := by
  unfold State.stopCopy
  repeat' first | dsimp only [State.clk] | with_reducible first | assumption | apply State.defer_clk | apply State.copyOver_clk

theorem State.copyDone_clk (s : State) (c : Copy) (hs : s.clk = C) : (State.copyDone s c).clk = C := by
  unfold State.copyDone
  repeat' first | dsimp only [State.clk] | split | with_reducible first | assumption | apply State.progress_clk | apply State.copyOver_clk | apply State.sendCredit_clk | apply State.stopCopy_clk

theorem State.copyLanded_clk (s : State) (c : Copy) (target : Nat) (hs : s.clk = C) : (State.copyLanded s c target).clk = C := by
  unfold State.copyLanded
  repeat' first | dsimp only [State.clk] | split | with_reducible first | assumption | apply State.sendAfter_clk | apply State.modCopy_clk | apply State.copyDone_clk

theorem State.startCopies_clk (s : State) (cids : List Nat) (hs : s.clk = C) : (State.startCopies s cids).clk = C := by
  unfold State.startCopies
  repeat' first | dsimp only [State.clk] | split | with_reducible first | assumption | intro _ | apply State.modCopy_clk | apply State.copyLanded_clk | refine clk_foldl ?_ ?_

theorem State.copyCredited_clk (s : State) (c : Copy) (id : Nat) (failed : Option Nat) (hs : s.clk = C) :
    (State.copyCredited s c id failed).clk = C := by
  unfold State.copyCredited
  repeat' first | dsimp only [State.clk] | split | with_reducible first | assumption | apply State.modCopy_clk | apply State.copyOver_clk

theorem State.copyAck_clk (s : State) (c : Copy) (id : Nat) (failed : Option Nat) (ea : Nat) (hs : s.clk = C) :
    (State.copyAck s c id failed ea).clk = C := by
  unfold State.copyAck
  repeat' first | dsimp only [State.clk] | split | with_reducible first | assumption | apply State.modCopy_clk | apply State.stopCopy_clk | apply State.copyLanded_clk

/-! ### Machine/Release.lean -/

theorem State.routeNet_clk (s : State) (x : Net) (hs : s.clk = C) : (State.routeNet s x).clk = C := by
  unfold State.routeNet
  repeat' first | dsimp only [State.clk] | split | with_reducible first | assumption | apply draw_clk | apply State.failNet_clk | apply State.parkRequest_clk

theorem Held.sendWhen_clk (e : Held) (s : State) (ids : List Nat) (va : Nat) (act : Act) (hs : s.clk = C) :
    (Held.sendWhen e s ids va act).clk = C := by
  unfold Held.sendWhen
  repeat' first | dsimp only [State.clk] | split | with_reducible first | assumption | apply State.sendAfter_clk | apply State.routeNet_clk

theorem Held.askWhen_clk (e : Held) (s : State) (ids : List Nat) (f : Effect) (hs : s.clk = C) : (Held.askWhen e s ids f).clk = C := by
  unfold Held.askWhen
  repeat' first | dsimp only [State.clk] | split | with_reducible first | assumption | apply State.sendAfter_clk | apply State.performAsk_clk

theorem State.pumpLink_clk (s : State) (e : Held) (entry : Nat) (y0 : Nat) (hs : s.clk = C) : (State.pumpLink s e entry y0).clk = C := by
  induction y0 generalizing s e entry with
  | zero => 
    unfold State.pumpLink
    repeat' first | dsimp only [State.clk] | with_reducible first | assumption
  | succ n ih => 
    unfold State.pumpLink
    repeat' first | dsimp only [State.clk] | split | with_reducible first | assumption | apply ih | apply State.modLink_clk | apply State.send_clk

theorem State.releasePush_clk (s : State) (e : Held) (h : Word) (words : List (Nat × PWord)) (hs : s.clk = C) :
    (State.releasePush s e h words).clk = C := by
  unfold State.releasePush
  repeat' first | dsimp only [State.clk] | split | with_reducible first | assumption | intro _ | apply State.modQueue_clk | apply State.modThread_clk | apply State.modLink_clk | apply State.memStore_clk | apply State.pumpLink_clk | refine clk_foldl ?_ ?_

theorem State.releaseNotify_clk (s : State) (e : Held) (h : Word) (hs : s.clk = C) : (State.releaseNotify s e h).clk = C := by
  unfold State.releaseNotify
  repeat' first | dsimp only [State.clk] | split | with_reducible first | assumption | apply State.notify_clk | apply State.send_clk

theorem State.dropBytes_clk (s : State) (tile ctx va n : Nat) (hs : s.clk = C) : (State.dropBytes s tile ctx va n).clk = C := by
  unfold State.dropBytes
  repeat' first | dsimp only [State.clk] | split | with_reducible first | assumption | apply State.staleFills_clk

theorem State.releaseAtomic_clk (s : State) (e : Held) (n : Nat) (r : AtomReq) (act : Act) (hs : s.clk = C) :
    (State.releaseAtomic s e n r act).clk = C := by
  unfold State.releaseAtomic
  repeat' first | dsimp only [State.clk] | split | with_reducible first | assumption | apply State.flushRange_clk | apply Held.sendWhen_clk | apply State.dropBytes_clk

theorem State.releaseApload_clk (s : State) (e : Held) (ea idx : Nat) (mask : LaneMask) (hs : s.clk = C) :
    (State.releaseApload s e ea idx mask).clk = C := by
  unfold State.releaseApload
  repeat' first | dsimp only [State.clk] | split | with_reducible first | assumption | apply State.modCtx_clk | apply State.defer_clk

theorem State.releaseOne_clk (s : State) (e : Held) (rs : List (Nat × Nat × Nat)) (ea : Nat) (act : Act) (hs : s.clk = C) :
    (State.releaseOne s e rs ea act).clk = C := by
  unfold State.releaseOne
  repeat' first | dsimp only [State.clk] | with_reducible first | assumption | apply State.releaseActions_clk | apply Held.sendWhen_clk

theorem State.releaseEfload_clk (s : State) (e : Held) (pid : Nat) (signed : Bool) (xs : List (Nat × Nat × Nat)) (hs : s.clk = C) :
    (State.releaseEfload s e pid signed xs).clk = C := by
  unfold State.releaseEfload
  repeat' first | dsimp only [State.clk] | split | with_reducible first | assumption | intro _ | apply Held.sendWhen_clk | refine clk_foldl ?_ ?_

theorem State.releaseCommand_clk (s : State) (e : Held) (mid : Nat) (hs : s.clk = C) : (State.releaseCommand s e mid).clk = C := by
  unfold State.releaseCommand
  repeat' first | dsimp only [State.clk] | split | with_reducible first | assumption | apply State.memStore_clk | apply State.modEngine_clk

theorem State.spillGone_clk (s : State) (uid : Nat) (chunk lane : Nat) (hs : s.clk = C) : (State.spillGone s uid chunk lane).clk = C := by
  unfold State.spillGone
  repeat' first | dsimp only [State.clk] | with_reducible first | assumption | apply State.modTeam_clk

theorem State.releaseEffect_clk (s : State) (e : Held) (hs : s.clk = C) : (State.releaseEffect s e).clk = C := by
  unfold State.releaseEffect
  repeat' first | dsimp only [State.clk] | split | with_reducible first | assumption | intro _ | apply fresh_clk | apply State.modQueue_clk | apply State.send_clk | apply State.releasePiece_clk | apply State.flushRange_clk | apply State.cleanPair_clk | apply State.startWalks_clk | apply State.modEngine_clk | apply State.releaseObjects_clk | apply State.startCopies_clk | apply Held.sendWhen_clk | apply Held.askWhen_clk | apply State.releasePush_clk | apply State.releaseNotify_clk | apply State.releaseAtomic_clk | apply State.releaseApload_clk | apply State.releaseOne_clk | apply State.releaseEfload_clk | apply State.releaseCommand_clk | apply State.spillGone_clk | refine clk_foldl ?_ ?_ | refine clk_foldl2 ?_ ?_

theorem execAcknowledgement_clk (id : Nat) (s : State) (hs : s.clk = C) : clkN C (execAcknowledgement id s) := by
  unfold execAcknowledgement
  repeat' first | dsimp only [State.clk] | split | with_reducible first | assumption | intro _ | apply State.modPend_clk | apply State.answerOut_clk | apply State.copyCredited_clk | apply State.copyAck_clk | refine clk_foldl ?_ ?_ | refine clkN_next ?_

theorem State.transferBlocked_clk (s : State) (t : Team) (item va : Nat) (mask : LaneMask) (need : Need) (hs : s.clk = C) :
    clkO C (State.transferBlocked s t item va mask need) := by
  unfold State.transferBlocked
  repeat' first | dsimp only [State.clk] | split | with_reducible first | assumption | apply State.parkFault_clk | apply State.defer_clk | refine clkO_some ?_ | exact clkO_none

theorem State.spillBlocked_clk (s : State) (t : Team) (l chunk : Nat) (need : Need) (hs : s.clk = C) :
    clkO C (State.spillBlocked s t l chunk need) := by
  unfold State.spillBlocked
  repeat' first | dsimp only [State.clk] | with_reducible first | assumption | apply State.transferBlocked_clk

end Sys2Proof.Machine
end

