-- ==== Sys2Proof/Laws/Convert.lean ====
section
/-! SUPPORT. What a conversion does before its results are written: control words, SEEDs, padding. -/

namespace Sys2Proof.Machine

theorem Draws.refl {i : Instr} {o : Issue} {s : State} (h : seedValue i o = none) (hu : padsOf i o = []) : Draws i o s s :=
  ⟨fun l hl => by simp [drawsSeed, h], by simp [hu], rfl⟩

theorem lane_setLane (t : Team) (l k : Nat) (f : Lane → Lane) (hk : k < t.arch.lanes.length) :
    (t.setLane l f).lane k = if k = l then f (t.lane k) else t.lane k := by
  unfold Team.lane Team.setLane
  simp only [getD_modifyAt]
  by_cases h : k = l
  · subst h; simp [hk]
  · simp [h]

/-- Changing some lanes once each. -/
theorem lanes_foldl (ls : List Nat) (hn : ls.Nodup) (p : Nat → Bool) (f : Lane → Lane) (t : Team) :
    let u := ls.foldl (fun t l => if p l then t else t.setLane l f) t
    u = { t with arch := { t.arch with lanes := u.arch.lanes } } ∧ u.arch.lanes.length = t.arch.lanes.length ∧
    ∀ k, k < t.arch.lanes.length → u.lane k = if ls.contains k && !p k then f (t.lane k) else t.lane k := by
  induction ls generalizing t with
  | nil => exact ⟨rfl, rfl, fun k _ => by simp⟩
  | cons l ls ih =>
    obtain ⟨hl, hn⟩ := List.nodup_cons.1 hn
    rw [List.foldl_cons]
    by_cases h : p l = true
    · simp only [h, if_true]
      obtain ⟨h1, h2, h3⟩ := ih hn t
      refine ⟨h1, h2, fun k hk => ?_⟩
      rw [h3 k hk]
      by_cases hkl : k = l
      · subst hkl; simp [h]
      · simp [hkl]
    · simp only [h, if_false, Bool.false_eq_true]
      obtain ⟨h1, h2, h3⟩ := ih hn (t.setLane l f)
      have hlen : (t.setLane l f).arch.lanes.length = t.arch.lanes.length := modifyAt_length _ _ _
      refine ⟨?_, h2.trans hlen, fun k hk => ?_⟩
      · rw [h1]; rfl
      · rw [h3 k (by rw [hlen]; exact hk), lane_setLane _ _ _ _ hk]
        by_cases hkl : k = l
        · subst hkl; simp [h, hl]
        · simp [hkl]

theorem stepSeeds_draws {i : Instr} {o : Issue} {v : Nat → Num} (s : State) (hn : o.lanes.Nodup) (hd : seedValue i o = some v) (hu : padsOf i o = []) :
    Draws i o s (o.stepSeeds s v) := by
  unfold Issue.stepSeeds
  split
  · rename_i h
    refine ⟨fun l hl => ?_, by simp [hu], rfl⟩
    have : (o.mode.round == 5) = false := by simpa using h
    simp [drawsSeed, this]
  · rename_i h
    have h : (o.mode.round == 5) = true := by simpa using h
    obtain ⟨h1, h2, h3⟩ := lanes_foldl o.lanes hn (fun l => (v l).isNan) (fun ln => { ln with seed := seedStep ln.seed }) s.cur
    refine ⟨fun l hl => ?_, by simp [hu], ?_⟩
    · rw [h3 l hl]
      simp [drawsSeed, h, hd]
    · dsimp only; rw [h1]

theorem controlled_ok {o : Issue} {accepts : Nat → Bool} {r : Reg} {k : Unit → Res} (h : o.controlOk accepts r) : o.controlled accepts r k = k () := by
  unfold Issue.controlled
  rw [if_neg, if_neg]
  · intro hh
    obtain ⟨l, hl, hb⟩ := List.any_eq_true.1 hh
    rw [(h l hl).2] at hb; cases hb
  · intro hh
    obtain ⟨l, hl, hb⟩ := List.any_eq_true.1 hh
    rw [(h l hl).1] at hb; cases hb

theorem lanes_nodup {o : Issue} (h : o.Ok) : o.lanes.Nodup := by
  rw [h.lanes]; split
  · exact h.nodup.sublist (List.take_sublist _ _)
  · exact h.nodup

theorem padRecord_draws {i : Instr} {o : Issue} (s : State) (h : seedValue i o = none) (hu : padsOf i o = o.padLanes) : Draws i o s (o.padRecord s) := by
  unfold Issue.padRecord
  split
  · rename_i he; exact Draws.refl h (by rw [hu, he])
  · rename_i he
    exact ⟨fun l hl => by simp [drawsSeed, h, State.errorRecord, fresh], by simp [State.errorRecord, fresh, hu, he], rfl⟩

end Sys2Proof.Machine
end

