-- ==== Sys2Proof/Laws/Control.lean ====
section
/-! SUPPORT. Transfers, calls and returns: where lanes go, and what moving a frame pointer keeps. -/

namespace Sys2Proof.Machine

theorem find_targets (act : List Nat) (f : Nat → BitVec 48) (l : Nat) :
    ((act.map fun k => (k, f k)).find? (·.1 == l)).map (·.2) = if l ∈ act then some (f l) else none := by
  induction act with
  | nil => rfl
  | cons k act ih =>
    rw [List.map_cons, List.find?_cons]
    by_cases h : k = l
    · subst h; simp
    · have : (k == l) = false := by simpa using h
      simp only [this, ih]
      by_cases hm : l ∈ act
      · simp [hm]
      · have : ¬ l ∈ k :: act := by simp [hm, Ne.symm h]
        simp [hm, this]

theorem transfers {o : Issue} {u t : State} {e : End} (h : Concludes o e u t) (hs : e.stay = false) (act : List Nat) (f : Nat → BitVec 48)
    (ht : e.targets = act.map fun l => (l, f l)) : Transfers o (fun l => if l ∈ act then some (f l) else none) e.ended u t :=
  ⟨e, rfl, hs, fun l => by rw [ht, find_targets], h⟩

/-! ### Moving a frame pointer -/

theorem clear_keeps (f : Frame) (lo hi n : Nat) (h : n < lo ∨ hi ≤ n) : fget PWord.zero (f.clear lo hi).slots n = fget PWord.zero f.slots n := by
  unfold Frame.clear
  dsimp only
  suffices ∀ is : List Nat, (∀ i ∈ is, i < hi - lo) → ∀ m : Fmap PWord,
      fget PWord.zero (is.foldl (fun m i => fput PWord.zero m (lo + i) PWord.zero) m) n = fget PWord.zero m n from
    this _ (fun i hi => List.mem_range.1 hi) _
  intro is his
  induction is with
  | nil => intro m; rfl
  | cons i is ih =>
    intro m
    have := his i List.mem_cons_self
    rw [List.foldl_cons, ih (fun j hj => his j (List.mem_cons_of_mem _ hj)), fget_fput, if_neg (by omega)]

theorem settle1_keeps (size : Nat) (pins : List Nat) (fp : Nat) (f : Frame) (n : Nat) (hn : n < f.hi) (hb : n < (liveRange fp).2) :
    n < (f.settle1 size pins fp).hi ∧ fget PWord.zero (f.settle1 size pins fp).slots n = fget PWord.zero f.slots n := by
  unfold Frame.settle1
  dsimp only
  split
  · exact ⟨hn, rfl⟩
  · split
    · refine ⟨by dsimp only; omega, ?_⟩
      exact clear_keeps f _ _ n (.inl hn)
    · split
      · rename_i h
        simp only [Bool.and_eq_true, decide_eq_true_eq] at h
        refine ⟨by dsimp only; omega, ?_⟩
        exact clear_keeps f _ _ n (.inl (by omega))
      · exact ⟨hn, rfl⟩

theorem settle_keeps (size : Nat) (pins : List Nat) (fp k : Nat) (f : Frame) (n : Nat) (hn : n < f.hi) (hb : n < (liveRange fp).2) :
    fget PWord.zero (f.settle size pins fp k).slots n = fget PWord.zero f.slots n := by
  induction k generalizing f with
  | zero => rfl
  | succ k ih =>
    obtain ⟨h1, h2⟩ := settle1_keeps size pins fp f n hn hb
    rw [Frame.settle, ih _ h1, h2]

theorem frame_setFrame (t : Team) (l k : Nat) (f : Frame → Frame) :
    (t.setFrame l f).frame k = if k = l ∧ l < t.frames.length then f (t.frame l) else t.frame k := by
  unfold Team.frame Team.setFrame
  simp only [getD_modifyAt]

theorem moveFrame_eq (t : Team) (l : Nat) (fp depth : Word) (up : Bool) :
    (t.moveFrame l fp depth up).arch = { t.arch with lanes := modifyAt (fun ln => { ln with fp := fp, depth := depth }) t.arch.lanes l } ∧
    t.moveFrame l fp depth up = { t with arch := (t.moveFrame l fp depth up).arch, frames := (t.moveFrame l fp depth up).frames } := ⟨rfl, rfl⟩

theorem moveFrame_lane (t : Team) (l k : Nat) (fp depth : Word) (up : Bool) (hk : k < t.arch.lanes.length) :
    (t.moveFrame l fp depth up).lane k = if k = l then { t.lane k with fp := fp, depth := depth } else t.lane k := by
  have := lane_setLane t l k (fun ln => { ln with fp := fp, depth := depth }) hk
  exact this

theorem moveFrame_frame (t : Team) (l k : Nat) (fp depth : Word) (up : Bool) (h : k ≠ l) : (t.moveFrame l fp depth up).frame k = t.frame k := by
  show ((t.setLane l _).setFrame l _).frame k = _
  rw [frame_setFrame, if_neg (fun e => h e.1)]; rfl

theorem moveFrame_slot (t : Team) (l n : Nat) (fp depth : Word) (up : Bool) (hn : n < (t.frame l).hi) (hb : n < (liveRange fp.toNat).2) :
    (t.moveFrame l fp depth up).slotWord l n = t.slotWord l n := by
  show fget PWord.zero ((((t.setLane l _).setFrame l _).frame l).slots) n = fget PWord.zero (t.frame l).slots n
  rw [frame_setFrame]
  split
  · exact settle_keeps _ _ _ _ _ n hn hb
  · rfl

/-- Lanes of a list, each moved once, after a write that keeps other lanes. -/
theorem frames_foldl (act : List Nat) (hn : act.Nodup) (pre : Nat → Team → Team) (fp depth : Nat → Word) (up : Bool) (link : Nat → Nat → Option PWord)
    (t : Team)
    (hpre : ∀ l u, pre l u = { u with frames := (pre l u).frames } ∧ (pre l u).frames.length = u.frames.length ∧
      (∀ k, k ≠ l → (pre l u).frame k = u.frame k) ∧ ((pre l u).frame l).hi = (u.frame l).hi ∧
      (l < u.frames.length → ∀ n, (pre l u).slotWord l n = (link l n).getD (u.slotWord l n))) :
    let u := act.foldl (fun t l => (pre l t).moveFrame l (fp l) (depth l) up) t
    u = { t with arch := { t.arch with lanes := u.arch.lanes }, frames := u.frames } ∧
    u.frames.length = t.frames.length ∧ u.arch.lanes.length = t.arch.lanes.length ∧
    (∀ l, l < t.arch.lanes.length → u.lane l = if l ∈ act then { t.lane l with fp := fp l, depth := depth l } else t.lane l) ∧
    (∀ l, l ∉ act → u.frame l = t.frame l) ∧
    (∀ l ∈ act, l < t.frames.length → ∀ n, n < (t.frame l).hi → n < (liveRange (fp l).toNat).2 → u.slotWord l n = (link l n).getD (t.slotWord l n)) := by
  induction act generalizing t with
  | nil => exact ⟨rfl, rfl, rfl, fun l _ => by simp, fun l _ => rfl, fun l hl => by simp at hl⟩
  | cons a act ih =>
    obtain ⟨ha, hn⟩ := List.nodup_cons.1 hn
    rw [List.foldl_cons]
    obtain ⟨p1, p2, p3, p4, p5⟩ := hpre a t
    generalize hv : (pre a t).moveFrame a (fp a) (depth a) up = v
    have v1 : v = { t with arch := { t.arch with lanes := v.arch.lanes }, frames := v.frames } := by
      rw [← hv, (moveFrame_eq (pre a t) a (fp a) (depth a) up).2, (moveFrame_eq (pre a t) a (fp a) (depth a) up).1]
      generalize (pre a t).moveFrame a (fp a) (depth a) up = w
      rw [p1]
    have v2 : v.frames.length = t.frames.length := by
      rw [← hv, ← p2]; exact modifyAt_length _ _ _
    have v3 : v.arch.lanes.length = t.arch.lanes.length := by
      have : (pre a t).arch = t.arch := by rw [p1]
      rw [← hv, (moveFrame_eq _ _ _ _ _).1, this]; exact modifyAt_length _ _ _
    have v4 : ∀ k, k < t.arch.lanes.length → v.lane k = if k = a then { t.lane k with fp := fp a, depth := depth a } else t.lane k := by
      intro k hk
      have h0 : (pre a t).arch = t.arch := by rw [p1]
      rw [← hv, moveFrame_lane _ _ _ _ _ _ (by rw [h0]; exact hk)]
      have : (pre a t).lane k = t.lane k := by unfold Team.lane; rw [h0]
      rw [this]
    have v5 : ∀ k, k ≠ a → v.frame k = t.frame k := fun k hk => by rw [← hv, moveFrame_frame _ _ _ _ _ _ hk, p3 k hk]
    obtain ⟨h1, h2, h3, h4, h5, h6⟩ := ih hn v
    refine ⟨?_, h2.trans v2, h3.trans v3, fun l hl => ?_, fun l hl => ?_, fun l hl hf n hh hb => ?_⟩
    · rw [h1, v1]
    · rw [h4 l (by rw [v3]; exact hl), v4 l hl]
      by_cases e : l = a
      · subst e; simp [ha]
      · simp [e]
    · rw [h5 l (fun h => hl (List.mem_cons_of_mem _ h)), v5 l (fun e => hl (e ▸ List.mem_cons_self))]
    · by_cases e : l = a
      · subst e
        have hw : (act.foldl (fun t l => (pre l t).moveFrame l (fp l) (depth l) up) v).slotWord l n = v.slotWord l n := by
          unfold Team.slotWord; rw [h5 l ha]
        rw [hw, ← hv, moveFrame_slot _ _ _ _ _ _ (by rw [p4]; exact hh) hb, p5 hf]
      · have hm : l ∈ act := by cases hl with | head => contradiction | tail _ h => exact h
        have := h6 l hm (by rw [v2]; exact hf) n (by rw [v5 l e]; exact hh) hb
        rw [this]
        have : v.slotWord l n = t.slotWord l n := by unfold Team.slotWord; rw [v5 l e]
        rw [this]

/-! ### Targets and calls -/

theorem withTargets_ok {o : Issue} {k} (h : targetsOk o) : o.withTargets k = k fun l => (o.a l).v.extractLsb' 0 48 := by
  unfold Issue.withTargets poisonedLanes
  have h1 : (o.act.filter fun l => (o.a l).p) = [] := by simpa using fun l hl => (h l hl).1
  have h2 : (o.act.filter fun l => badTarget (o.a l)) = [] := by simpa using fun l hl => (h l hl).2
  rw [h1, h2]; rfl

theorem link_pre (fp : Nat → Nat) (n : Nat) (ret : BitVec 48) (l : Nat) (u : Team) :
    let w := u.write (.slot l (fp l + n - 2)) [⟨ret.extractLsb' 0 32, false⟩, ⟨BitVec.ofNat 32 (n * 2 ^ 16 + bits ret.toNat 47 32), false⟩]
    w = { u with frames := w.frames } ∧ w.frames.length = u.frames.length ∧
      (∀ k, k ≠ l → w.frame k = u.frame k) ∧ (w.frame l).hi = (u.frame l).hi ∧
      (l < u.frames.length → ∀ k, w.slotWord l k = (linkWords (fp l) n ret k).getD (u.slotWord l k)) := by
  refine ⟨rfl, modifyAt_length _ _ _, fun k hk => ?_, ?_, fun hl k => ?_⟩
  · show (u.setFrame l _).frame k = _
    rw [frame_setFrame, if_neg (fun e => hk e.1)]
  · show ((u.setFrame l _).frame l).hi = _
    rw [frame_setFrame]; split <;> rfl
  · rw [slotWord_write]
    simp only [linkWords, List.length_cons, List.length_nil, true_and, hl]
    generalize fp l + n - 2 = m
    by_cases h1 : k = m
    · subst h1; simp
    · by_cases h2 : k = m + 1
      · subst h2; simp
      · rw [if_neg (by omega), if_neg h1, if_neg h2]; rfl

theorem call_body {o : Issue} {s : State} (hn : o.act.Nodup) {x : Reg} {len : Nat} {target : Nat → BitVec 48} (h : callOk o s x.toNat) :
    ∃ u, o.doCall s x len target = o.transfer u (o.act.map fun l => (l, target l)) [] ∧ Called o x.toNat len s u := by
  unfold Issue.doCall
  dsimp only
  rw [if_neg, if_neg, if_neg]
  · refine ⟨_, rfl, ?_⟩
    obtain ⟨h1, h2, h3, h4, h5, h6⟩ := frames_foldl o.act hn
      (fun l t => t.write (.slot l ((s.cur.lane l).fp.toNat + x.toNat - 2)) [⟨(o.g.pc + BitVec.ofNat 48 len).extractLsb' 0 32, false⟩,
        ⟨BitVec.ofNat 32 (x.toNat * 2 ^ 16 + bits (o.g.pc + BitVec.ofNat 48 len).toNat 47 32), false⟩])
      (fun l => BitVec.ofNat 32 ((s.cur.lane l).fp.toNat + x.toNat)) (fun l => (s.cur.lane l).depth + 1) true
      (fun l => linkWords (s.cur.lane l).fp.toNat x.toNat (o.g.pc + BitVec.ofNat 48 len)) s.cur
      (fun l u => link_pre (fun l => (s.cur.lane l).fp.toNat) x.toNat _ l u)
    exact ⟨h4, h6, h5, by rw [h1]⟩
  · intro hh
    obtain ⟨l, hl, hb⟩ := List.any_eq_true.1 hh
    rw [(h l hl).2.2] at hb; cases hb
  · intro hh
    obtain ⟨l, hl, hb⟩ := List.any_eq_true.1 hh
    rw [(h l hl).2.1] at hb; cases hb
  · intro hh
    rw [Bool.not_eq_true', List.isEmpty_eq_false_iff] at hh
    obtain ⟨l, hl⟩ := List.exists_mem_of_ne_nil _ hh
    obtain ⟨h1, h2⟩ := List.mem_filter.1 hl
    have := (h l h1).1
    simp only [decide_eq_true_eq] at h2; omega

/-! ### Sequencing -/

/-- Moving groups to the overflow region changes the group table and its moved entries only. -/
theorem overflow_eq (t : Team) (n : Nat) : ∃ gs ms, t.overflow n = t.setArch fun a => { a with groups := gs, moved := ms } := by
  induction n generalizing t with
  | zero => exact ⟨_, _, rfl⟩
  | succ n ih =>
    unfold Team.overflow
    split
    · exact ⟨_, _, rfl⟩
    · obtain ⟨gs, ms, h⟩ := ih t.moveOut
      refine ⟨gs, ms, ?_⟩
      rw [h]
      unfold Team.moveOut
      split <;> rfl

theorem finish_sched (o : Issue) (s : State) (e : End) : (finish o s e).cur.sched = (s.cur.after o e s.now).sched := by
  unfold finish
  dsimp only
  rw [holdPops_cur, holdPops_now]
  obtain ⟨gs, ms, h⟩ := overflow_eq (s.cur.after o e s.now) (s.cur.after o e s.now).arch.groups.length
  rw [h]
  split <;> rfl

theorem after_yielded (t : Team) (o : Issue) (e : End) (now : Nat) :
    (t.after o e now).sched.yielded = if e.yields then some (t.fallPc o) else none := by
  have hs := Team.sequence_sched (t.counted o e (t.fallPc o) now) e (fun t => t.keepGroup o.g.pc (o.newSig e) e.sig.isSome now)
    (fun _ => rfl)
  unfold Team.after
  dsimp only
  split
  · dsimp only; rw [hs]; rfl
  · dsimp only; rw [hs]; rfl

theorem after_ckpts (t : Team) (o : Issue) (e : End) (now : Nat) : (t.after o e now).ckpts = t.ckpts := by
  have hs : ∀ (t : Team) (keep : Team → Team), (∀ t, (keep t).ckpts = t.ckpts) → (t.sequence e keep).1.ckpts = t.ckpts := fun t keep hk => by
    unfold Team.sequence
    split
    · split
      · exact hk t
      · split
        · exact hk _
        · rfl
    · split
      · exact hk t
      · exact hk _
    · split
      · exact hk t
      · rfl
  have hp : ∀ (t : Team) g sig fall e now, (t.place_ g sig fall e now).ckpts = t.ckpts := fun t g sig fall e now => by
    obtain ⟨gs, ms, h⟩ := t.place_eq g sig fall e now
    rw [h]
  have h1 := hs (t.counted o e (t.fallPc o) now) (fun t => t.keepGroup o.g.pc (o.newSig e) e.sig.isSome now) (fun _ => rfl)
  unfold Team.after
  dsimp only
  split
  · exact h1
  · exact (hp _ _ _ _ _ _).trans h1

/-- An instruction that takes a checkpoint has it as the team's youngest, of the state after it. -/
theorem finish_checkpoint (o : Issue) (s : State) (e : End) (he : e.ckpt = true) :
    ∃ c, (finish o s e).cur.ckpts = c :: s.cur.ckpts ∧ c.time = s.now ∧ c.retried = false ∧ c.arch = (finish o s e).cur.arch := by
  unfold finish
  dsimp only
  rw [holdPops_cur, holdPops_now, if_pos (by simp [he])]
  obtain ⟨gs, ms, h⟩ := overflow_eq (s.cur.after o e s.now) (s.cur.after o e s.now).arch.groups.length
  rw [h]
  have hc := after_ckpts s.cur o e s.now
  generalize s.cur.after o e s.now = t at hc ⊢
  rw [← hc]
  exact ⟨⟨(holdPops o s e).nextId, s.now, false, { t.arch with groups := gs, moved := ms }⟩, rfl, rfl, rfl, rfl⟩

end Sys2Proof.Machine
end

