-- ==== Sys2Proof/Laws/Decoding.lean ====
section
/-! SUPPORT. A word that decodes with some literal words after it decodes with zeros after it, so that its own cause, if it has one, is
found before the literal words are read. -/

namespace Sys2Proof

/-- A row whose encoding stays legal when zeros take the place of its literal words. -/
def Row.mono (r : Row) : Prop := ∀ (o : BitVec 11) (d a b : Reg) (l m : Word), (r.2.2 o ⟨d, a, b, l, m⟩).isSome = true → (r.2.2 o ⟨d, a, b, 0, 0⟩).isSome = true

theorem given_isSome (c : Bool) (i : Instr) : (given c i).isSome = c := by cases c <;> rfl

theorem rows_cons {r : Row} {rs : List Row} (h : r.mono) (hs : ∀ x ∈ rs, x.mono) : ∀ x ∈ r :: rs, x.mono := by
  intro x hx
  rcases List.mem_cons.1 hx with rfl | hx
  · exact h
  · exact hs x hx

theorem rows_nil : ∀ x ∈ ([] : List Row), x.mono := by simp

theorem mono_of_given {n m : Nat} {i : BitVec 11 → Fields → Instr} {c : BitVec 11 → Fields → Bool} (h : ∀ o d a b l k, c o ⟨d, a, b, l, k⟩ = true → c o ⟨d, a, b, 0, 0⟩ = true) :
    Row.mono (n, m, fun o f => given (c o f) (i o f)) := by
  intro o d a b l k
  dsimp only
  rw [given_isSome, given_isSome]
  exact h o d a b l k

theorem mono_of_some {n m : Nat} {i : BitVec 11 → Fields → Instr} : Row.mono (n, m, fun o f => some (i o f)) := fun _ _ _ _ _ _ _ => rfl


theorem mono_of_low {n m : Nat} {i : BitVec 11 → Fields → Instr} {c : BitVec 21 → Bool} : Row.mono (n, m, fun o f => given (c f.low) (i o f)) :=
  mono_of_given (c := fun _ f => c f.low) fun _ _ _ _ _ _ h => h

theorem rows0_mono : ∀ x ∈ rows0, x.mono := by
  unfold rows0
  repeat
    refine rows_cons (by first | with_reducible exact mono_of_some | with_reducible exact mono_of_low (c := fun x => ext x 0 1 == 0) | with_reducible exact mono_of_low (c := fun x => ext x 0 6 == 0) | (with_reducible refine mono_of_given ?_; intro o d a b l k h; (try dsimp only at h ⊢); first | with_reducible exact h | (simp only [Bool.and_eq_true] at h ⊢; exact ⟨h.1, rfl⟩) | exact h)) ?_
  with_reducible exact rows_nil

theorem rows1_mono : ∀ x ∈ rows1, x.mono := by
  unfold rows1
  repeat
    refine rows_cons (by first | with_reducible exact mono_of_some | with_reducible exact mono_of_low (c := fun x => ext x 0 1 == 0) | with_reducible exact mono_of_low (c := fun x => ext x 0 6 == 0) | (with_reducible refine mono_of_given ?_; intro o d a b l k h; (try dsimp only at h ⊢); first | with_reducible exact h | (simp only [Bool.and_eq_true] at h ⊢; exact ⟨h.1, rfl⟩) | exact h)) ?_
  with_reducible exact rows_nil

theorem rows2_mono : ∀ x ∈ rows2, x.mono := by
  unfold rows2
  repeat
    refine rows_cons (by first | with_reducible exact mono_of_some | with_reducible exact mono_of_low (c := fun x => ext x 0 1 == 0) | with_reducible exact mono_of_low (c := fun x => ext x 0 6 == 0) | (with_reducible refine mono_of_given ?_; intro o d a b l k h; (try dsimp only at h ⊢); first | with_reducible exact h | (simp only [Bool.and_eq_true] at h ⊢; exact ⟨h.1, rfl⟩) | exact h)) ?_
  with_reducible exact rows_nil

theorem rows3_mono : ∀ x ∈ rows3, x.mono := by
  unfold rows3
  repeat
    refine rows_cons (by first | with_reducible exact mono_of_some | with_reducible exact mono_of_low (c := fun x => ext x 0 1 == 0) | with_reducible exact mono_of_low (c := fun x => ext x 0 6 == 0) | (with_reducible refine mono_of_given ?_; intro o d a b l k h; (try dsimp only at h ⊢); first | with_reducible exact h | (simp only [Bool.and_eq_true] at h ⊢; exact ⟨h.1, rfl⟩) | exact h)) ?_
  with_reducible exact rows_nil

theorem rows4_mono : ∀ x ∈ rows4, x.mono := by
  unfold rows4
  repeat
    refine rows_cons (by first | with_reducible exact mono_of_some | with_reducible exact mono_of_low (c := fun x => ext x 0 1 == 0) | with_reducible exact mono_of_low (c := fun x => ext x 0 6 == 0) | (with_reducible refine mono_of_given ?_; intro o d a b l k h; (try dsimp only at h ⊢); first | with_reducible exact h | (simp only [Bool.and_eq_true] at h ⊢; exact ⟨h.1, rfl⟩) | exact h)) ?_
  with_reducible exact rows_nil

theorem rows5_mono : ∀ x ∈ rows5, x.mono := by
  unfold rows5
  repeat
    refine rows_cons (by first | with_reducible exact mono_of_some | with_reducible exact mono_of_low (c := fun x => ext x 0 1 == 0) | with_reducible exact mono_of_low (c := fun x => ext x 0 6 == 0) | (with_reducible refine mono_of_given ?_; intro o d a b l k h; (try dsimp only at h ⊢); first | with_reducible exact h | (simp only [Bool.and_eq_true] at h ⊢; exact ⟨h.1, rfl⟩) | exact h)) ?_
  with_reducible exact rows_nil

theorem rows6_mono : ∀ x ∈ rows6, x.mono := by
  unfold rows6
  repeat
    refine rows_cons (by first | with_reducible exact mono_of_some | with_reducible exact mono_of_low (c := fun x => ext x 0 1 == 0) | with_reducible exact mono_of_low (c := fun x => ext x 0 6 == 0) | (with_reducible refine mono_of_given ?_; intro o d a b l k h; (try dsimp only at h ⊢); first | with_reducible exact h | (simp only [Bool.and_eq_true] at h ⊢; exact ⟨h.1, rfl⟩) | exact h)) ?_
  with_reducible exact rows_nil

theorem rows7_mono : ∀ x ∈ rows7, x.mono := by
  unfold rows7
  repeat
    refine rows_cons (by first | with_reducible exact mono_of_some | with_reducible exact mono_of_low (c := fun x => ext x 0 1 == 0) | with_reducible exact mono_of_low (c := fun x => ext x 0 6 == 0) | (with_reducible refine mono_of_given ?_; intro o d a b l k h; (try dsimp only at h ⊢); first | with_reducible exact h | (simp only [Bool.and_eq_true] at h ⊢; exact ⟨h.1, rfl⟩) | exact h)) ?_
  with_reducible exact rows_nil

theorem rows8_mono : ∀ x ∈ rows8, x.mono := by
  unfold rows8
  repeat
    refine rows_cons (by first | with_reducible exact mono_of_some | with_reducible exact mono_of_low (c := fun x => ext x 0 1 == 0) | with_reducible exact mono_of_low (c := fun x => ext x 0 6 == 0) | (with_reducible refine mono_of_given ?_; intro o d a b l k h; (try dsimp only at h ⊢); first | with_reducible exact h | (simp only [Bool.and_eq_true] at h ⊢; exact ⟨h.1, rfl⟩) | exact h)) ?_
  with_reducible exact rows_nil

theorem rows9_mono : ∀ x ∈ rows9, x.mono := by
  unfold rows9
  repeat
    refine rows_cons (by first | with_reducible exact mono_of_some | with_reducible exact mono_of_low (c := fun x => ext x 0 1 == 0) | with_reducible exact mono_of_low (c := fun x => ext x 0 6 == 0) | (with_reducible refine mono_of_given ?_; intro o d a b l k h; (try dsimp only at h ⊢); first | with_reducible exact h | (simp only [Bool.and_eq_true] at h ⊢; exact ⟨h.1, rfl⟩) | exact h)) ?_
  with_reducible exact rows_nil

theorem rowsA_mono : ∀ x ∈ rowsA, x.mono := by
  unfold rowsA
  repeat
    refine rows_cons (by first | with_reducible exact mono_of_some | with_reducible exact mono_of_low (c := fun x => ext x 0 1 == 0) | with_reducible exact mono_of_low (c := fun x => ext x 0 6 == 0) | (with_reducible refine mono_of_given ?_; intro o d a b l k h; (try dsimp only at h ⊢); first | with_reducible exact h | (simp only [Bool.and_eq_true] at h ⊢; exact ⟨h.1, rfl⟩) | exact h)) ?_
  with_reducible exact rows_nil

theorem rowsB_mono : ∀ x ∈ rowsB, x.mono := by
  unfold rowsB
  repeat
    refine rows_cons (by first | with_reducible exact mono_of_some | with_reducible exact mono_of_low (c := fun x => ext x 0 1 == 0) | with_reducible exact mono_of_low (c := fun x => ext x 0 6 == 0) | (with_reducible refine mono_of_given ?_; intro o d a b l k h; (try dsimp only at h ⊢); first | with_reducible exact h | (simp only [Bool.and_eq_true] at h ⊢; exact ⟨h.1, rfl⟩) | exact h)) ?_
  with_reducible exact rows_nil

theorem rowsF_mono : ∀ x ∈ rowsF, x.mono := by
  unfold rowsF
  repeat
    refine rows_cons (by first | with_reducible exact mono_of_some | with_reducible exact mono_of_low (c := fun x => ext x 0 1 == 0) | with_reducible exact mono_of_low (c := fun x => ext x 0 6 == 0) | (with_reducible refine mono_of_given ?_; intro o d a b l k h; (try dsimp only at h ⊢); first | with_reducible exact h | (simp only [Bool.and_eq_true] at h ⊢; exact ⟨h.1, rfl⟩) | exact h)) ?_
  with_reducible exact rows_nil

theorem rowsOf_mono (n : Nat) : ∀ x ∈ rowsOf n, x.mono := by
  unfold rowsOf
  split
  · exact rows0_mono
  · exact rows1_mono
  · exact rows2_mono
  · exact rows3_mono
  · exact rows4_mono
  · exact rows5_mono
  · exact rows6_mono
  · exact rows7_mono
  · exact rows8_mono
  · exact rows9_mono
  · exact rowsA_mono
  · exact rowsB_mono
  · exact rowsF_mono
  · exact rows_nil

theorem findRow_mem {op : Nat} : ∀ {rs : List Row} {k}, findRow op rs = some k → ∃ m p, (m, p, k) ∈ rs
  | [], _, h => by cases h
  | (m, p, j) :: rs, k, h => by
    unfold findRow at h
    split at h
    · cases h; exact ⟨m, p, List.mem_cons_self⟩
    · obtain ⟨m', p', hm⟩ := findRow_mem h
      exact ⟨m', p', List.mem_cons_of_mem _ hm⟩

/-- A word that decodes with some literal words after it decodes with zeros after it: whether an encoding is legal hangs on a literal only where it names a byte
offset of a branch, and zero is a legal one. -/
theorem decode_zero {w l m : Word} {i : Instr} (h : decode w l m = .ok i) : ∃ j, decode w 0 0 = .ok j := by
  unfold decode at h ⊢
  split at h
  · cases h
  rename_i hz
  rw [if_neg hz]
  unfold decodeFields at h ⊢
  generalize hr : findRow (opcode w).toNat (rowsOf ((opcode w).toNat / 128)) = r at h ⊢
  cases r with
  | none => cases h
  | some k =>
    dsimp only at h ⊢
    obtain ⟨m', p, hm⟩ := findRow_mem hr
    have hk := rowsOf_mono _ _ hm (opcode w) (ext w 14 7) (ext w 7 7) (ext w 0 7) (if 1 ≤ litCount w then l else 0) (if 2 ≤ litCount w then m else 0)
    dsimp only at hk
    unfold fieldsOf at h ⊢
    rw [ite_self, ite_self]
    generalize k (opcode w) ⟨ext w 14 7, ext w 7 7, ext w 0 7, if 1 ≤ litCount w then l else 0, if 2 ≤ litCount w then m else 0⟩ = x at h hk
    cases x with
    | none => cases h
    | some x =>
      have := hk rfl
      cases hy : k (opcode w) ⟨ext w 14 7, ext w 7 7, ext w 0 7, 0, 0⟩ with
      | none => rw [hy] at this; cases this
      | some y => exact ⟨y, rfl⟩
end Sys2Proof
end

