-- ==== Sys2Proof/Laws/Events.lean ====
section
/-! SUPPORT. What the shared parts of events, and of instructions that act for the whole team, do to the state. -/

namespace Sys2Proof.Machine

theorem foldl_store_poison (data : List (Byte × Bool)) (k a : Nat) (m : Mem) (ha : a / 4 < k / 4 ∨ (k + data.length - 1) / 4 < a / 4) : (m.store k data).poisoned a = m.poisoned a := by
  unfold Mem.store
  dsimp only
  have h0 : (m.write k (data.map (·.1))).poisoned a = m.poisoned a := by unfold Mem.poisoned; rw [Mem.write_poison]
  have key : ∀ (js : List Nat) (acc : Mem), (∀ j ∈ js, k / 4 + j ≤ (k + data.length - 1) / 4) → acc.poisoned a = m.poisoned a →
      (js.foldl (fun acc j =>
    let w := 4 * (k / 4 + j)
    let part := data.zipIdx.filter fun (_, i) => decide (w ≤ k + i) && decide (k + i < w + 4)
    if part.any (·.1.2) then acc.setPoison w true
    else if part.length = 4 then acc.setPoison w false else acc) acc).poisoned a = m.poisoned a := by
    intro js
    induction js with
    | nil => exact fun acc _ h => h
    | cons j js ih =>
      intro acc hj h
      refine ih _ (fun i hi => hj i (List.mem_cons_of_mem _ hi)) ?_
      have hne : ¬ (a / 4 = 4 * (k / 4 + j) / 4) := by have := hj j List.mem_cons_self; omega
      dsimp only
      split
      · rw [Mem.poisoned_setPoison, if_neg hne]; exact h
      · split
        · rw [Mem.poisoned_setPoison, if_neg hne]; exact h
        · exact h
  refine key _ _ ?_ h0
  intro j hj
  rw [List.mem_range] at hj
  split at hj
  · omega
  · omega

theorem stored (s : State) (k : Nat) (data : List (Byte × Bool)) : Stored k data s (s.memStore k data) := by
  refine ⟨?_, ?_, ?_, ?_⟩
  · intro i b hb
    show (s.mem.store k data).get _ = _
    have hi := (List.getElem?_eq_some_iff.1 hb).1
    rw [Mem.get_store, Mem.get_write, if_pos (by simp; omega)]
    rw [show k + i - k = i by omega, List.getD_eq_getElem?_getD, List.getElem?_map, hb]; rfl
  · intro a ha
    show (s.mem.store k data).get _ = _
    rw [Mem.get_store, Mem.get_write, if_neg (by simp; omega)]
  · exact fun a ha => foldl_store_poison _ _ _ _ ha
  · show { s with mem := s.mem.store k data } = _
    have h : (s.mem.store k data) = { s.mem with bytes := (s.mem.store k data).bytes, poison := (s.mem.store k data).poison } := by
      unfold Mem.store
      refine foldl_keeps (fun (x : Mem) => x = { s.mem with bytes := x.bytes, poison := x.poison }) _ (fun acc i h => ?_) _ _ ?_
      · dsimp only
        split
        · rw [h]; rfl
        · split
          · rw [h]; rfl
          · exact h
      · generalize data.map (·.1) = bs
        have : ∀ (bs : List Byte) (m : Mem) (k : Nat), m.write k bs = { m with bytes := (m.write k bs).bytes, poison := (m.write k bs).poison } := by
          intro bs
          induction bs with
          | nil => intros; rfl
          | cons b bs ih => intro m k; rw [Mem.write, ih]; rfl
        exact this ..
    show { s with mem := s.mem.store k data } = { s with mem := { s.mem with bytes := (s.mem.store k data).bytes, poison := (s.mem.store k data).poison } }
    rw [← h]

theorem foldl_max_le (xs : List Net) (m : Nat) : m ≤ xs.foldl (fun m y => max m y.due) m := by
  induction xs generalizing m with
  | nil => exact Nat.le_refl _
  | cons x xs ih => exact Nat.le_trans (Nat.le_max_left _ _) (ih _)

theorem foldl_maxh_le (xs : List HomeHold) (m : Nat) : m ≤ xs.foldl (fun m y => max m y.formed) m := by
  induction xs generalizing m with
  | nil => exact Nat.le_refl _
  | cons x xs ih => exact Nat.le_trans (Nat.le_max_left _ _) (ih _)

theorem sendBack_spec (s : State) (x : Net) : ∃ d draws serial, s.sendBack x = { s with net := s.net ++ [{ x with due := d }], draws := draws, serial := serial } ∧ s.now ≤ d := by
  have h : ∃ d draws serial, (if x.point = x.tile then (0, s) else draw s) = (d, { s with draws := draws, serial := serial }) := by
    split
    · exact ⟨0, s.draws, s.serial, rfl⟩
    · exact ⟨(draw s).1, (draw s).2.draws, (draw s).2.serial, by rw [← draw_next]⟩
  obtain ⟨d, dr, se, h⟩ := h
  unfold State.sendBack
  rw [h]
  exact ⟨_, _, _, rfl, Nat.le_trans (Nat.le_add_right _ _) (Nat.le_max_left _ _)⟩

theorem answered (s : State) (x : Net) (force : Bool) (late : Nat) (act : Act) : Answered x late force act s (s.answer x force late act) := by
  unfold State.answer
  dsimp only
  split
  · rename_i hc
    rw [Bool.and_eq_true, Bool.and_eq_true, decide_eq_true_eq, decide_eq_true_eq] at hc
    refine ⟨Or.inr ⟨_, List.mem_append_right _ List.mem_cons_self, ?_, rfl, rfl, ?_⟩, fun _ _ _ => ⟨_, List.mem_append_right _ List.mem_cons_self, ?_, rfl, rfl, ?_⟩, ?_, ?_, rfl⟩
    · dsimp only; omega
    · exact Nat.add_le_add_right (foldl_maxh_le _ _) _
    · dsimp only; omega
    · exact Nat.add_le_add_right (foldl_maxh_le _ _) _
    · intro y hy; simp [fresh, hy]
    · intro h hh; exact List.mem_append_left _ hh
  · rename_i hc
    obtain ⟨d, dr, se, h, hd⟩ := sendBack_spec { s with net := s.net.filter fun y => y.id != x.id } { x with act := act }
    rw [h]
    refine ⟨Or.inl ⟨_, List.mem_append_right _ List.mem_cons_self, rfl, hd⟩, ?_, ?_, fun h hh => hh, rfl⟩
    · intro hf h1 h2
      subst hf
      exfalso
      apply hc
      simp [h1, h2]
    · intro y hy
      simp only [List.mem_append, List.mem_filter, List.mem_singleton]
      constructor
      · rintro (h | rfl)
        · exact h.1
        · exact absurd rfl hy
      · intro h; exact Or.inl ⟨h, by simpa using hy⟩

theorem failAt_failed (s : State) (x : Net) (c : Nat) : Failed x c s (s.failAt x c x.act.lanes x.act.pid) := by
  unfold Failed State.failAt
  cases x.act.pid <;> exact answered ..

theorem failNet_failed (s : State) (x : Net) (c : Nat) (h : ∀ o n, x.act ≠ .fetch o n) : Failed x c s (s.failNet x c) := by
  have : s.failNet x c = s.failAt x c x.act.lanes x.act.pid := by
    unfold State.failNet
    split
    · rename_i ha; exact absurd ha (h _ _)
    · rfl
  rw [this]; exact failAt_failed ..

theorem arrived_settled (b : Barrier) (hb : b.bad = false) (hp : b.pending ≠ 0) : b.arrived = ({ b with w1 := b.w1 - 1 } : Barrier).settled := by
  unfold Barrier.bad at hb
  simp only [Bool.or_eq_false_iff, bne_eq_false_iff_eq] at hb
  have hw : b.w1.toNat = b.pending := by
    unfold Barrier.pending bits at *
    have := hb.1.2
    have hlt := b.w1.isLt
    omega
  have hlt : b.pending < 2 ^ 16 := by unfold Barrier.pending bits; omega
  have e1 : (b.w1 - 1).toNat = b.pending - 1 := by
    rw [BitVec.toNat_sub]; simp; omega
  have e2 : ({ b with w1 := b.w1 - 1 } : Barrier).pending = b.pending - 1 := by
    show bits (b.w1 - 1).toNat 15 0 = _
    rw [e1]; unfold bits; omega
  have e3 : b.w1 - 1 = BitVec.ofNat 32 (b.pending - 1) := BitVec.eq_of_toNat_eq (by rw [e1, BitVec.toNat_ofNat]; omega)
  unfold Barrier.arrived Barrier.settled
  rw [e2, e3]
  by_cases h1 : b.pending = 1
  · by_cases h2 : b.w2 = 0
    · simp [h1, h2, Barrier.phase, Barrier.init, Barrier.carry]
    · have h2 : ¬ (b.w2 = 0#32) := h2
      simp [h1, h2]
  · have h3 : b.pending - 1 ≠ 0 := by omega
    simp [h1, h3]

theorem parts_send (l : Line) (pa uid iss : Nat) (parts : List (List Piece)) (s : State) (ids : List Nat) :
    let u := (parts.foldl (fun (x : List Nat × State) ps =>
        let first := (ps.headD ⟨0, l.va, []⟩).ea
        let va := if isWindow pa then first else l.va
        let y := x.2.send l.tile 0 uid l.ctx iss 0 0 va (pa + (va - l.va)) [] (.write ps)
        (x.1 ++ [y.1], y.2)) (ids, s)).2
    Cleans s u ∧ ∀ ps ∈ parts, ∃ y ∈ u.net, y.act = .write ps ∧ s.now ≤ y.due := by
  induction parts generalizing s ids with
  | nil => exact ⟨Cleans.refl s, by simp⟩
  | cons p ps ih =>
    simp only [List.foldl_cons]
    have hc := cleans_send s l.tile 0 uid l.ctx iss 0 0 (if isWindow pa then (p.headD ⟨0, l.va, []⟩).ea else l.va) (pa + ((if isWindow pa then (p.headD ⟨0, l.va, []⟩).ea else l.va) - l.va)) [] (.write p)
    obtain ⟨y, d1, d2, d3, k1, k2, k3, k4, k5, k6, k7⟩ := sends s l.tile 0 uid l.ctx iss 0 0 (if isWindow pa then (p.headD ⟨0, l.va, []⟩).ea else l.va) (pa + ((if isWindow pa then (p.headD ⟨0, l.va, []⟩).ea else l.va) - l.va)) [] (.write p)
    generalize s.send l.tile 0 uid l.ctx iss 0 0 (if isWindow pa then (p.headD ⟨0, l.va, []⟩).ea else l.va) (pa + ((if isWindow pa then (p.headD ⟨0, l.va, []⟩).ea else l.va) - l.va)) [] (.write p) = v at hc k1 ⊢
    obtain ⟨g1, g2⟩ := ih v.2 (ids ++ [v.1])
    refine ⟨hc.trans g1, fun q hq => ?_⟩
    rcases List.mem_cons.1 hq with rfl | hq
    · exact ⟨y, g1.net y (by rw [k1]; simp) (by rw [k2]; rfl), k2, k7⟩
    · obtain ⟨z, z1, z2, z3⟩ := g2 q hq
      exact ⟨z, z1, z2, by have : v.2.now = s.now := by rw [k1]
                           omega⟩

theorem writeBackLine_writes (s : State) (l : Line) (uid iss : Nat) (hd : l.dirty ≠ 0) (pa : Nat) (hk : s.keyOf l.tile l.ctx l.va = some pa) :
    ∀ ps ∈ (if isWindow pa then l.writeBack.map fun p => [p] else [l.writeBack]), ∃ y ∈ (s.writeBackLine l uid iss).2.net, y.act = .write ps ∧ s.now ≤ y.due := by
  unfold State.writeBackLine
  rw [if_neg hd, hk]
  exact (parts_send l pa uid iss _ s []).2

theorem cleanLines_writes (s : State) (p drop : Line → Bool) (uid iss : Nat) : WritesBack s (s.cleanLines p drop uid iss).2 p := by
  intro l hl hpl hd pa hk ps hps
  unfold State.cleanLines
  let stale (l k : Line) : Bool := l.dirty != 0 && k.tile == l.tile && k.ctx == l.ctx && k.va == l.va
  have key : ∀ (ls : List Line) (x : List Nat × State), l ∈ ls → Cleans s x.2 →
      ∃ y ∈ (ls.foldl (fun (x : List Nat × State) l => (x.1 ++ ((x.2.staleFills (stale l)).writeBackLine l uid iss).1,
        ((x.2.staleFills (stale l)).writeBackLine l uid iss).2)) x).2.net, y.act = .write ps ∧ s.now ≤ y.due := by
    intro ls
    induction ls with
    | nil => intro x h; simp at h
    | cons k ls ih =>
      intro x hm hq
      simp only [List.foldl_cons]
      rcases List.mem_cons.1 hm with rfl | hm
      · have hq' := hq.trans (cleans_staleFills x.2 (stale l))
        obtain ⟨y, h1, h2, h3⟩ := writeBackLine_writes (x.2.staleFills (stale l)) l uid iss hd pa (by rw [hq'.keyOf]; exact hk) ps hps
        have hn : (x.2.staleFills (stale l)).now = s.now := by rw [hq'.quiet.rest]
        have hc := cleans_foldl2 (fun (x : List Nat × State) l => (x.1 ++ ((x.2.staleFills (stale l)).writeBackLine l uid iss).1,
            ((x.2.staleFills (stale l)).writeBackLine l uid iss).2))
          (fun s x => cleans_staleWriteBack ..) ls (x.1 ++ ((x.2.staleFills (stale l)).writeBackLine l uid iss).1, ((x.2.staleFills (stale l)).writeBackLine l uid iss).2)
        exact ⟨y, hc.net y h1 (by rw [h2]; rfl), h2, by omega⟩
      · exact ih _ hm (hq.trans (cleans_staleWriteBack ..))
  obtain ⟨y, h1, h2, h3⟩ := key (s.mem.lines.filter p) (s.writingBack p, s) (List.mem_filter.2 ⟨hl, hpl⟩) (Cleans.refl s)
  dsimp only at h1 ⊢
  generalize List.foldl _ _ _ = v at h1 ⊢
  exact ⟨y, (cleans_staleFills { v.2 with mem := { v.2.mem with lines := v.2.mem.lines.filter fun l => !(p l && drop l) } } _).net y h1 (by rw [h2]; rfl), h2, h3⟩

theorem find_modifyWhere (u : Nat) (f : Team → Team) (hf : ∀ t, (f t).id.uid = t.id.uid) (ts : List Team) (v : Nat) :
    (modifyWhere (fun t => t.id.uid == u) f ts).find? (·.id.uid == v) = (ts.find? (·.id.uid == v)).map fun t => if v = u then f t else t := by
  induction ts with
  | nil => rfl
  | cons t ts ih =>
    unfold modifyWhere at ih ⊢
    rw [List.map_cons]
    have h2 : (if (t.id.uid == u) = true then f t else t).id.uid = t.id.uid := by
      split
      · exact hf t
      · rfl
    by_cases h : t.id.uid = v
    · rw [List.find?_cons_of_pos (p := fun x : Team => x.id.uid == v) (beq_iff_eq.2 (h2.trans h)), List.find?_cons_of_pos (by simp [h])]
      by_cases hu : v = u
      · simp [h, hu]
      · simp [h, hu]
    · rw [List.find?_cons_of_neg (p := fun x : Team => x.id.uid == v) (fun e => h (h2.symm.trans (beq_iff_eq.1 e))), List.find?_cons_of_neg (by simpa using h), ih]

theorem modTeam_changes (s : State) (uid : Nat) (f : Team → Team) (hf : ∀ t, (f t).id = t.id) : TeamChanges uid f s (s.modTeam uid f) := by
  have hu : ∀ t, (f t).id.uid = t.id.uid := fun t => by rw [hf]
  unfold State.modTeam
  split
  · rename_i h
    refine ⟨?_, ?_, rfl⟩
    · intro t ht
      unfold State.team? at ht ⊢
      dsimp only
      split at ht
      · cases ht
      · rename_i h0
        rw [if_neg h0, if_pos (by rw [hu]; exact h)]
        first | (cases ht; rfl) | (rw [if_pos h] at ht; cases ht; rfl)
    · intro v hv
      unfold State.team?
      dsimp only
      rw [hu]
      split
      · rfl
      · rw [if_neg (by rw [h]; exact fun e => hv e.symm), if_neg (by rw [h]; exact fun e => hv e.symm)]
  · rename_i h
    refine ⟨?_, ?_, rfl⟩
    · intro t ht
      unfold State.team? at ht ⊢
      dsimp only
      split at ht
      · cases ht
      · rename_i h0
        rw [if_neg h0, if_neg h]
        try rw [if_neg h] at ht
        rw [find_modifyWhere uid f hu, ht]
        simp
    · intro v hv
      unfold State.team?
      dsimp only
      split
      · rfl
      · split
        · rfl
        · rw [find_modifyWhere uid f hu]
          cases s.teams.find? fun x => x.id.uid == v <;> simp [hv]

theorem send_sent (e : Held) (s : State) (va key : Nat) (act : Act) :
    Sent e va key act s (s.send e.tile e.side e.uid e.ctx e.issue e.pc e.word va key [] act).2 := by
  obtain ⟨d1, d2, h⟩ : ∃ d1 d2, (draw s).2 = { s with draws := d1, serial := d2 } := ⟨_, _, draw_next s⟩
  unfold State.send
  generalize draw s = d at h
  obtain ⟨k, u⟩ := d
  dsimp only at h
  subst h
  refine ⟨_, List.mem_append_right _ List.mem_cons_self, rfl, rfl, rfl, rfl, rfl, rfl, rfl, rfl, ?_, rfl, fun x hx _ => List.mem_append_left _ hx⟩
  exact Nat.le_trans (Nat.le_add_right _ _) (Nat.le_max_left _ _)

theorem routeNet_goes (s : State) (x : Net) (key : Nat) (h : (isScratch x.va = true ∧ key = x.va) ∨ (isScratch x.va = false ∧ ∃ base size pte, s.walk x.tile x.ctx x.va = .leaf base size pte ∧ key = bits pte.toNat 47 12 * 4096 + (x.va - base))) :
    (∃ y, y = { x with due := y.due, point := pointOf key, pa := key, after := [] } ∧ s.now ≤ y.due ∧ (s.routeNet x).net = modifyWhere (fun z => z.id == x.id) (fun _ => y) s.net) ∧
          s.routeNet x = { s with net := (s.routeNet x).net, draws := (s.routeNet x).draws, serial := (s.routeNet x).serial } := by
  obtain ⟨d1, d2, hd⟩ : ∃ d1 d2, (draw s).2 = { s with draws := d1, serial := d2 } := ⟨_, _, draw_next s⟩
  unfold State.routeNet
  generalize draw s = d at hd
  obtain ⟨k, u⟩ := d
  dsimp only at hd
  subst hd
  rcases h with ⟨h1, rfl⟩ | ⟨h1, base, size, pte, h2, rfl⟩
  · simp only [h1, if_true]
    exact ⟨⟨_, rfl, Nat.le_trans (Nat.le_add_right _ _) (Nat.le_max_left _ _), rfl⟩, trivial⟩
  · simp only [h1, h2, Bool.false_eq_true, if_false]
    exact ⟨⟨_, rfl, Nat.le_trans (Nat.le_add_right _ _) (Nat.le_max_left _ _), rfl⟩, trivial⟩

theorem sendWhen_sent (e : Held) (s : State) (va : Nat) (act : Act) (h : isScratch va = true) (hi : ∀ x ∈ s.net, x.id ≠ s.nextId) : Sent e va va act s (e.sendWhen s [] va act) := by
  unfold Held.sendWhen State.sendAfter
  simp only [fresh, List.isEmpty_nil, if_true]
  unfold State.net?
  rw [List.find?_append]
  have h0 : (s.net.find? fun x => x.id == s.nextId) = none := by
    rw [List.find?_eq_none]; intro x hx; simpa using hi x hx
  rw [h0]
  simp only [Option.none_or, List.find?_cons, beq_self_eq_true]
  have hg := routeNet_goes { s with net := s.net ++ [⟨s.nextId, s.now, e.tile, e.side, e.uid, e.ctx, e.issue, e.pc, e.word, 9999, va, 0, 0, [], act⟩], nextId := s.nextId + 1 } ⟨s.nextId, s.now, e.tile, e.side, e.uid, e.ctx, e.issue, e.pc, e.word, 9999, va, 0, 0, [], act⟩ va (Or.inl ⟨h, rfl⟩)
  obtain ⟨⟨y, hy, hd, hn⟩, hr⟩ := hg
  have hn : _ = s.net ++ [y] := hn.trans (by
    unfold modifyWhere
    rw [List.map_append]
    congr 1
    · refine (List.map_congr_left fun x hx => ?_).trans (List.map_id _)
      rw [if_neg (by simpa using hi x hx)]; rfl
    · simp)
  refine ⟨y, by rw [hn]; simp, ?_, ?_, ?_, ?_, ?_, ?_, ?_, ?_, hd, ?_, ?_⟩
  all_goals try (rw [hy])
  · rw [hr]
  · intro x hx hne
    rw [hn]
    exact List.mem_append_left _ hx

theorem startWalks_keeps (s : State) (n : Nat) : (s.startWalks n).eq.reqs = s.eq.reqs ∧ (s.startWalks n).eq.holds = s.eq.holds ∧ (s.startWalks n).eq.forests = s.eq.forests ∧ s.startWalks n = { s with eq := (s.startWalks n).eq, nextId := (s.startWalks n).nextId } := by
  unfold State.startWalks
  dsimp only
  generalize List.take _ _ = xs
  have : ∀ (xs : List (EqReq × Nat × PWord × PWord)) (v : State),
      let u := xs.foldl (fun s (r, l, x, y) =>
    let (wid, s) := fresh s
    { s with eq := { s.eq with walks := s.eq.walks ++ [⟨wid, r.rid, l, r.kind, x.w.toNat, y.w.toNat, 0, 0, false, .find false x.w.toNat [], false, s.now⟩] } }) v
      u.eq.reqs = v.eq.reqs ∧ u.eq.holds = v.eq.holds ∧ u.eq.forests = v.eq.forests ∧ u = { v with eq := u.eq, nextId := u.nextId } := by
    intro xs
    induction xs with
    | nil => exact fun v => ⟨rfl, rfl, rfl, rfl⟩
    | cons x xs ih =>
      intro v
      obtain ⟨a, b, c, d⟩ := ih { v with nextId := v.nextId + 1, eq := { v.eq with walks := v.eq.walks ++ [⟨v.nextId, x.1.rid, x.2.1, x.1.kind, x.2.2.1.w.toNat, x.2.2.2.w.toNat, 0, 0, false, .find false x.2.2.1.w.toNat [], false, v.now⟩] } }
      exact ⟨a, b, c, d⟩
  exact this xs s

theorem engine_mod (s : State) (tile : Nat) (f : Engine → Engine) : (s.modEngine tile f).engine tile = f (s.engine tile) := by
  unfold State.modEngine State.engine
  exact fget_fput_self ..

theorem engine_mod_ne (s : State) {tile k : Nat} (hk : k ≠ tile) (f : Engine → Engine) : (s.modEngine tile f).engine k = s.engine k := by
  unfold State.modEngine State.engine
  exact fget_fput_of_ne _ _ _ hk

theorem find_chan (f : Channel → Channel) (hf : ∀ k, (f k).chan = k.chan) (c : Nat) (xs : List Channel) :
    (modifyWhere (fun x => x.chan == c) f xs).find? (·.chan == c) = (xs.find? (·.chan == c)).map f := by
  induction xs with
  | nil => rfl
  | cons x xs ih =>
    unfold modifyWhere at ih ⊢
    rw [List.map_cons]
    by_cases h : x.chan = c
    · rw [List.find?_cons_of_pos (by simp [h, hf]), List.find?_cons_of_pos (by simp [h])]; simp [h]
    · rw [List.find?_cons_of_neg (by simp [h]), List.find?_cons_of_neg (by simpa using h), ih]

theorem team_uid {s : State} {uid : Nat} {t : Team} (h : s.team? uid = some t) : t.id.uid = uid := by
  unfold State.team? at h
  split at h
  · cases h
  · split at h
    · cases h; assumption
    · have := List.find?_some h; simpa using this

theorem setLane_id (t : Team) (l : Nat) (f : Lane → Lane) : (t.setLane l f).id = t.id := rfl

theorem write_id (t : Team) (d : Dest) (ws : List PWord) : (t.write d ws).id = t.id := by
  unfold Team.write
  split <;> rfl

theorem ctx_modCtx (s : State) (c : Nat) (f : Ctx → Ctx) (hf : ∀ x, (f x).id = x.id) (k : Nat) : (s.modCtx c f).ctx? k = (s.ctx? k).map fun x => if k = c then f x else x := by
  unfold State.modCtx State.ctx?
  dsimp only
  generalize s.ctxs = xs
  induction xs with
  | nil => rfl
  | cons x xs ih =>
    unfold modifyWhere at ih ⊢
    rw [List.map_cons]
    have h2 : (if (x.id == c) = true then f x else x).id = x.id := by
      split
      · exact hf x
      · rfl
    by_cases h : x.id = k
    · rw [List.find?_cons_of_pos (p := fun x : Ctx => x.id == k) (beq_iff_eq.2 (h2.trans h)), List.find?_cons_of_pos (by simp [h])]
      by_cases hu : k = c
      · simp [h, hu]
      · simp [h, hu]
    · rw [List.find?_cons_of_neg (p := fun x : Ctx => x.id == k) (fun e => h (h2.symm.trans (beq_iff_eq.1 e))), List.find?_cons_of_neg (by simpa using h), ih]

theorem ctx_modLink (s : State) (c e : Nat) (f : LinkQueue → LinkQueue) (k : Nat) :
    (s.modLink c e f).ctx? k = (s.ctx? k).map fun x => if k = c then { x with links := fput LinkQueue.none x.links e (f (fget LinkQueue.none x.links e)) } else x :=
  ctx_modCtx s c (fun x => { x with links := fput LinkQueue.none x.links e (f (fget LinkQueue.none x.links e)) }) (fun _ => rfl) k

theorem fold_mem {α : Type} (f : State → α → State) (hf : ∀ v x, f v x = { v with mem := (f v x).mem }) (xs : List α) (v : State) : xs.foldl f v = { v with mem := (xs.foldl f v).mem } := by
  induction xs generalizing v with
  | nil => rfl
  | cons x xs ih =>
    rw [List.foldl_cons, ih (f v x)]
    generalize (xs.foldl f (f v x)).mem = m
    rw [hf v x]

theorem foldl_keep_id {α : Type} (f : Team → α → Team) (hf : ∀ t x, (f t x).id = t.id) (xs : List α) (t : Team) : (xs.foldl f t).id = t.id := by
  induction xs generalizing t with
  | nil => rfl
  | cons x xs ih => exact (ih (f t x)).trans (hf t x)

theorem ite_write_id (c : Prop) [Decidable c] (t : Team) (d : Dest) (ws : List PWord) : (if c then t else t.write d ws).id = t.id := by
  by_cases h : c
  · rw [if_pos h]
  · rw [if_neg h]; exact write_id ..

theorem releasePush_tile (s : State) (e : Held) (hh : Word) (words : List (Nat × PWord)) (hk : handleKind hh = 0) :
    ((s.releasePush e hh words).queue (handleTile hh) (handleEntry hh)).ring = (s.queue (handleTile hh) (handleEntry hh)).ring.fill (words.map (·.1)) ∧
    s.releasePush e hh words = { s with mem := (s.releasePush e hh words).mem, tables := { s.tables with queues := (s.releasePush e hh words).tables.queues } } := by
  have hfold := fun (q : TileQueue) v => fold_mem (fun s (x : Nat × PWord) => s.memStore (sliceAddr (handleTile hh) (q.base + 4 * q.ring.index x.1)) (wordBytes [x.2])) (fun _ _ => rfl) words v
  unfold State.releasePush
  dsimp only
  split
  · rw [hfold]
    refine ⟨?_, rfl⟩
    exact (congrArg TileQueue.ring (fget_fput_self ..)).trans rfl
  · rename_i h1; rw [h1] at hk; cases hk
  · rename_i h1 h2; exact absurd hk h1

theorem spread_ok {o : Issue} (h : o.act.Nodup) : o.spread.Ok := by
  refine ⟨?_, rfl, ?_⟩
  · show (if regKind o.rd = .frame then o.act else o.act.take 1).Nodup
    split
    · exact h
    · exact (List.take_sublist _ _).nodup h
  · intro hk _
    have hk : regKind o.rd = .uni := hk
    show (if regKind o.rd = .frame then o.act else o.act.take 1).length ≤ 1
    rw [hk, if_neg (by simp), List.length_take]
    omega

theorem toAll_eq (o : Issue) (v : PVal) : o.toAll v = o.spread.results fun _ => (v, none, 0) := by
  unfold Issue.toAll Issue.results Issue.spread
  cases o.act with
  | nil => simp
  | cons l ls => simp only [Bool.false_eq_true, if_false]; split <;> rfl

theorem gives_commit {o : Issue} (h : o.act.Nodup) (hp : regKind o.rd ≠ .port) (s : State) (v : PVal) : Gives o s (o.commit s (o.toAll v)) v := by
  have := computes_commit (spread_ok h) (s := s) fun _ => (v, none, 0)
  rw [← toAll_eq] at this
  have e : o.spread.commit s (o.toAll v) = o.commit s (o.toAll v) := by
    rw [commit_eq, commit_eq]
    have hw : portWords (o.toAll v) = [] := by
      rw [toAll_eq, portWords_results]; exact if_neg hp
    rw [if_pos (by rw [hw]; rfl), if_pos (by rw [hw]; rfl)]
  unfold Gives
  rw [← e]; exact this

theorem no_port {i : Instr} {s s1 : State} {o : Issue} (h : Prepared i s o s1) (hd : (shape i s.cur.arch.mode 1).d.writes = true) (hp : (shape i s.cur.arch.mode 1).d.port = false) :
    regKind o.rd ≠ .port := by
  have hl := h.legal
  unfold decodeCause at hl
  dsimp only at hl
  rw [h.regs.1]
  rcases hf : regFields i with ⟨d, a, b⟩
  rw [hf] at hl
  dsimp only at hl
  intro hk
  have hk : regKind d = .port := hk
  split at hl
  · cases hl
  split at hl
  · cases hl
  split at hl
  · cases hl
  · rename_i hx
    have : (shape i s.cur.arch.mode 1).d.legal d = true := by simp at hx; exact hx.1.1
    unfold Role.legal at this
    rw [hk] at this
    dsimp only at this
    rw [hp] at this
    cases this

theorem act_nodup {i : Instr} {s s1 : State} {o : Issue} (h : prepare i s = .ok (o, s1)) : o.act.Nodup := by
  rw [(prepared h).act]; exact activeLanes_nodup _ _ _

theorem collective_eq {o : Issue} {s : State} {g : GroupRt} {r : List Word} (h : Collective o s g r) (k : GroupRt → List Word → Res) : o.collective s k = k g r := by
  unfold Issue.collective
  have e1 : (o.act != lanesOf o.t.width (o.t.allGroups.foldl (fun m g => m ||| g.mask) 0)) = false := by rw [bne_eq_false_iff_eq]; exact h.lanes
  have e2 : (readRegs o.t 0 o.ra 8).any (·.p) = false := by rw [List.any_eq_false]; intro w hw; rw [h.clean w hw]; simp
  dsimp only
  rw [h.group]
  dsimp only
  rw [if_neg (by rw [e1]; simp), if_neg h.share, if_neg (by rw [e2]; simp), h.record]

theorem hold_engine (o : Issue) (v : State) (n : Nat) (e : Effect) (k : Nat) : (o.hold v n e).engine k = v.engine k := rfl

theorem watch_cleans (o : Issue) (s : State) (ea : Nat) : Cleans s (o.watched s ea) := by
  unfold Issue.watched; split
  · exact Cleans.refl s
  · exact cleans_flushRange ..

theorem done_window (s : State) (key : Nat) : (s.privDone key).window key = { s.window key with busy := false } ∧ (∀ k, k ≠ key → (s.privDone key).window k = s.window k) ∧
    (∀ q, q ∈ (s.privDone key).tables.priv ↔ q ∈ s.tables.priv ∧ q.key ≠ key) := by
  refine ⟨?_, ?_, ?_⟩
  · simp only [State.privDone, State.window, State.modWindow, fget_fput_self]
  · intro k hk; simp only [State.privDone, State.window, State.modWindow]; exact fget_fput_of_ne _ _ _ hk
  · intro q; simp [State.privDone]

end Sys2Proof.Machine
end

