-- ==== Sys2Proof/Laws/EffectsUnits.lean ====
section
/-! SUPPORT. What the shared operations of the units do: sending, answering, writing back, engines, walks, records. -/

namespace Sys2Proof.Machine

theorem foldl_id (rs : List LaneResult) (t : Team) :
    (rs.foldl (fun t r => (if r.words.isEmpty then t else t.write r.dest r.words).setLane r.lane fun ln => { ln with cc := r.cc.getD ln.cc, xflags := ln.xflags ||| r.xf }) t).id = t.id :=
  foldl_keep_id _ (fun t r => (setLane_id ..).trans (ite_write_id ..)) rs t

/-- A load all of whose lanes the owner port admits is served as one; one with no admitted lane fails as a whole. -/
theorem performLoad_follows (s : State) (x : Net) (pid : Nat) (xs : List (Nat × Nat × List (Option (Byte × Bool)))) (n : Nat) (sg : Bool) (fill : Option Bool) :
    (xs ≠ [] → (∀ y ∈ xs, s.portAdmits x y.2.1 n = true) → s.performLoad x pid xs n sg fill = match fill with
      | some merge => s.answer x false 0 (.filled pid xs n sg (s.mem.load (x.pa / 64 * 64) 64) merge)
      | none => s.answer x false 0 (.ack (some pid) (xs.map fun y => (y.1, loadedWords sg (overlay y.2.2 (s.mem.load x.pa n)))) 0 none 0 0)) ∧
    ((∀ y ∈ xs, s.portAdmits x y.2.1 n = false) → s.performLoad x pid xs n sg fill = s.failNet x 29) := by
  constructor
  · intro hx ha
    have hok : xs.filter (fun y => s.portAdmits x y.2.1 n) = xs := List.filter_eq_self.2 ha
    have hbad : xs.filter (fun y => !s.portAdmits x y.2.1 n) = [] := List.filter_eq_nil_iff.2 fun y hy => by simp [ha y hy]
    unfold State.performLoad
    simp only [hok, hbad, List.isEmpty_nil, Bool.true_or, if_true]
    rw [if_neg (by simpa using hx)] <;> cases fill <;> rfl
  · intro ha
    have hok : xs.filter (fun y => s.portAdmits x y.2.1 n) = [] := List.filter_eq_nil_iff.2 fun y hy => by simp [ha y hy]
    unfold State.performLoad
    simp only [hok, List.isEmpty_nil, Bool.or_true, if_true]

theorem performAccess_follows (x : Net) (s : State) (P) (h : accessRule x s = some P) : P (s.performAccess x) := by
  unfold accessRule at h
  unfold State.performAccess
  split at h
  · rename_i p ha
    have hf : ∀ o n, x.act ≠ .fetch o n := by rw [ha]; exact fun _ _ => Act.noConfusion
    have hs : x.act.ea = p.ea := by rw [ha]; rfl
    rw [ha] at hs ⊢
    dsimp only
    split at h
    · rename_i hp; cases h
      rw [if_pos (by simp [hp]), hs]
      exact ⟨_, stored .., answered ..⟩
    · rename_i hp; cases h
      rw [if_neg (by simpa using hp)]
      exact failNet_failed _ _ _ hf
  · rename_i pid lane ea n rg ha
    have hf : ∀ o n, x.act ≠ .fetch o n := by rw [ha]; exact fun _ _ => Act.noConfusion
    rw [ha]
    dsimp only
    split at h
    · rename_i hp; cases h; rw [if_neg (by simp [hp])]; exact answered ..
    · rename_i hp; cases h; rw [if_pos (by simpa using hp)]; exact failNet_failed _ _ _ hf
  · rename_i pid xs n sg fill ha
    have hf : ∀ o n, x.act ≠ .fetch o n := by rw [ha]; exact fun _ _ => Act.noConfusion
    rw [ha]
    dsimp only
    obtain ⟨h1, h2⟩ := performLoad_follows s x pid xs n sg fill
    split at h
    · rename_i hp
      simp only [Bool.and_eq_true, Bool.not_eq_true', List.isEmpty_eq_false_iff, List.all_eq_true] at hp
      rw [h1 hp.1 hp.2]
      split at h <;> cases h <;> exact answered ..
    · split at h
      · rename_i hp; cases h
        rw [h2 fun y hy => by simpa using List.all_eq_true.1 hp y hy]
        exact failNet_failed _ _ _ hf
      · cases h
  · rename_i owner n ha
    rw [ha]
    cases h
    exact answered ..
  · rename_i ea v ha
    rw [ha]
    cases h
    exact ⟨_, stored .., answered ..⟩
  · cases h

theorem find_modifyWhere_copy (cid : Nat) (f : Copy → Copy) (hf : ∀ c, (f c).cid = c.cid) (cs : List Copy) (k : Nat) :
    (modifyWhere (fun c => c.cid == cid) f cs).find? (fun c => c.cid == k) = (cs.find? fun c => c.cid == k).map fun c => if k = cid then f c else c := by
  unfold modifyWhere
  induction cs with
  | nil => rfl
  | cons c cs ih =>
    rw [List.map_cons, List.find?_cons, List.find?_cons]
    by_cases hc : c.cid = cid
    · simp only [hc, beq_self_eq_true, if_true, hf]
      by_cases hk : cid = k
      · subst hk; simp
      · have : (cid == k) = false := by simpa using hk
        simp only [this]; exact ih
    · simp only [beq_eq_false_iff_ne.2 hc, Bool.false_eq_true, if_false]
      by_cases hk : c.cid = k
      · have : k ≠ cid := by rw [← hk]; exact hc
        simp [hk, this]
      · simp only [beq_eq_false_iff_ne.2 hk]; exact ih

theorem modCopy_changes (s : State) (cid : Nat) (f : Copy → Copy) (hf : ∀ c, (f c).cid = c.cid) : CopyChanges cid f s (s.modCopy cid f) := by
  refine ⟨?_, ?_, rfl⟩
  · intro c hc
    have := find_modifyWhere_copy cid f hf s.copies cid
    unfold State.copy? at hc ⊢
    rw [show (s.modCopy cid f).copies = modifyWhere (fun c => c.cid == cid) f s.copies from rfl, this, hc]; simp
  · intro k hk
    have := find_modifyWhere_copy cid f hf s.copies k
    unfold State.copy?
    rw [show (s.modCopy cid f).copies = modifyWhere (fun c => c.cid == cid) f s.copies from rfl, this]; simp [hk]

theorem copy_cid {s : State} {cid : Nat} {c : Copy} (h : s.copy? cid = some c) : c.cid = cid := by
  unfold State.copy? at h
  have := List.find?_some h; simpa using this

theorem placed_append (a b : List Piece) : placedBytes (a ++ b) = placedBytes a ++ placedBytes b := by simp [placedBytes]

theorem placed_addByte (lane : Nat) (ps : List Piece) (b : Nat × Byte × Bool) (h : ∀ p ∈ ps, p.lane = lane) :
    placedBytes (addByte lane ps b) = placedBytes ps ++ [b] ∧ ∀ p ∈ addByte lane ps b, p.lane = lane := by
  unfold addByte
  cases hl : ps.getLast? with
  | none =>
    have hp : ps = [] := by simpa using hl
    subst hp
    exact ⟨by simp [placedBytes], by simp⟩
  | some p =>
    obtain ⟨init, rfl⟩ : ∃ init, ps = init ++ [p] := ⟨ps.dropLast, by rw [List.getLast?_eq_some_iff] at hl; obtain ⟨i, rfl⟩ := hl; simp⟩
    simp only [List.dropLast_concat]
    split
    · rename_i hv
      refine ⟨?_, ?_⟩
      · simp [placed_append, placedBytes, List.zipIdx_append, hv]
      · intro q hq
        rcases List.mem_append.1 hq with hq | hq
        · exact h q (List.mem_append_left _ hq)
        · rw [List.mem_singleton] at hq; subst hq; exact h p (by simp)
    · refine ⟨by simp [placed_append, placedBytes], ?_⟩
      intro q hq
      rcases List.mem_append.1 hq with hq | hq
      · exact h q hq
      · rw [List.mem_singleton] at hq; subst hq; rfl

theorem placed_piecesOf (lane : Nat) (bs : List (Nat × Byte × Bool)) : placedBytes (piecesOf lane bs) = bs ∧ ∀ p ∈ piecesOf lane bs, p.lane = lane := by
  suffices h : ∀ (bs : List (Nat × Byte × Bool)) (ps : List Piece), (∀ p ∈ ps, p.lane = lane) →
      placedBytes (bs.foldl (addByte lane) ps) = placedBytes ps ++ bs ∧ ∀ p ∈ bs.foldl (addByte lane) ps, p.lane = lane from h bs [] (by simp)
  intro bs
  induction bs with
  | nil => intro ps h; exact ⟨by simp, h⟩
  | cons b bs ih =>
    intro ps h
    have h1 := placed_addByte lane ps b h
    have h2 := ih _ h1.2
    rw [List.foldl_cons]
    exact ⟨by rw [h2.1, h1.1]; simp, h2.2⟩

theorem firstSome_bytes (bs : List (Nat × Byte × Bool)) (after : List (Nat × Got)) : firstSome (fun (x : Nat × Got) => x.2.trouble) (bs.map (fun b => (b.1, Got.byte b.2)) ++ after) = firstSome (fun (x : Nat × Got) => x.2.trouble) after := by
  induction bs with
  | nil => rfl
  | cons b bs ih => exact ih

theorem filterMap_bytes (bs : List (Nat × Byte × Bool)) : (bs.map (fun b => (b.1, Got.byte b.2))).filterMap (fun (g : Nat × Got) => (Got.byte? g.2).map (g.1, ·)) = bs := by
  induction bs with
  | nil => rfl
  | cons b bs ih => simp only [List.map_cons]; rw [List.filterMap_cons]; exact congrArg _ ih

theorem flush_scratch (ps : List Piece) (f : State → Piece → State) (s : State) (h : (ps.all fun q => isScratch q.ea) = true) :
    ps.foldl (fun s q => if isScratch q.ea then s else f s q) s = s := by
  induction ps generalizing s with
  | nil => rfl
  | cons p ps ih =>
    rw [List.all_cons, Bool.and_eq_true] at h
    rw [List.foldl_cons, if_pos h.1]
    exact ih _ h.2

theorem sent_net (v : State) (tile side uid ctx iss : Nat) (pc : BitVec 48) (word : Word) (va pa : Nat) (after : List Nat) (act : Act) :
    ∃ (y : Net) (d : List Nat) (se : Nat), v.send tile side uid ctx iss pc word va pa after act = (y.id, { v with net := v.net ++ [y], draws := d, serial := se, nextId := v.nextId + 1 }) ∧
      y.act = act ∧ y.va = va ∧ y.pa = pa ∧ y.tile = tile ∧ y.ctx = ctx ∧ y.uid = uid ∧ y.point = pointOf pa ∧ v.now ≤ y.due := by
  obtain ⟨d1, d2, hdr⟩ : ∃ d1 d2, (draw v).2 = { v with draws := d1, serial := d2 } := ⟨_, _, draw_next v⟩
  unfold State.send
  generalize draw v = d at hdr
  obtain ⟨k, u⟩ := d
  dsimp only at hdr
  subst hdr
  dsimp only [fresh]
  refine ⟨⟨v.nextId, _, tile, side, uid, ctx, iss, pc, word, pointOf pa, va, pa, 0, after, act⟩, d1, d2, rfl, rfl, rfl, rfl, rfl, rfl, rfl, rfl, ?_⟩
  exact Nat.le_trans (Nat.le_add_right _ _) (Nat.le_max_left _ _)

theorem modEngine_changes (s : State) (tile : Nat) (f : Engine → Engine) : EngineChanges tile f s (s.modEngine tile f) :=
  ⟨engine_mod s tile f, fun _ hk => engine_mod_ne s hk f, rfl⟩

theorem firstSome_none_append {α β : Type} (f : α → Option β) (a b : List α) (h : ∀ x ∈ a, f x = none) : firstSome f (a ++ b) = firstSome f b := by
  induction a with
  | nil => rfl
  | cons x a ih =>
    rw [List.cons_append, firstSome, h x List.mem_cons_self]
    exact ih fun y hy => h y (List.mem_cons_of_mem _ hy)

theorem firstSome_none {α β : Type} (f : α → Option β) (a : List α) (h : ∀ x ∈ a, f x = none) : firstSome f a = none := by
  have := firstSome_none_append f a [] h
  rwa [List.append_nil] at this

theorem filterMap_byte (bs : List (Byte × Bool)) : (bs.map Got.byte).filterMap Got.byte? = bs := by
  induction bs with
  | nil => rfl
  | cons b bs ih => rw [List.map_cons, List.filterMap_cons]; exact congrArg _ ih

theorem formRow_forms (s : State) (tile : Nat) (c : Command) (hop : c.op ≠ 1) (acc st ps vals) (P : RowHold → Prop) (h : ∀ hid, P (RowHold.mk hid c.mid c.row s.now acc st [] ps vals)) :
    FormsRow tile c P s (s.formRow tile c acc st ps vals) := by
  refine ⟨RowHold.mk s.nextId c.mid c.row s.now acc st [] ps vals, h _, rfl, rfl, rfl, ?_⟩
  unfold State.formRow
  dsimp only [fresh]
  simp only [if_neg hop]
  exact modEngine_changes { s with nextId := s.nextId + 1 } tile _

theorem land_fold (uid p : Nat) (xs : List (Nat × Nat × List PWord)) (s : State) :
    TeamChanges uid (fun t => { t with pend := xs.foldl (fun ps x => modifyLast (fun q => q.id == p) (fun q => q.arrive x.1 x.2.2 0) ps) t.pend }) s
      (xs.foldl (fun s v => s.modPend uid p fun q => q.arrive v.1 v.2.2 0) s) := by
  induction xs generalizing s with
  | nil => exact ⟨fun t h => h, fun _ _ => rfl, rfl⟩
  | cons x xs ih =>
    rw [List.foldl_cons]
    have h1 := modTeam_changes s uid (fun t => { t with pend := modifyLast (fun q => q.id == p) (fun q => q.arrive x.1 x.2.2 0) t.pend }) fun _ => rfl
    have h2 := ih (s.modPend uid p fun q => q.arrive x.1 x.2.2 0)
    refine ⟨?_, ?_, ?_⟩
    · intro t ht
      exact h2.team _ (h1.team t ht)
    · intro v hv
      rw [h2.others v hv]; exact h1.others v hv
    · have h2r := h2.rest
      have h1r : (s.modPend uid p fun q => q.arrive x.1 x.2.2 0) = { s with cur := (s.modPend uid p fun q => q.arrive x.1 x.2.2 0).cur, teams := (s.modPend uid p fun q => q.arrive x.1 x.2.2 0).teams, disp := { s.disp with images := (s.modPend uid p fun q => q.arrive x.1 x.2.2 0).disp.images } } := h1.rest
      generalize (s.modPend uid p fun q => q.arrive x.1 x.2.2 0) = a at h1r h2r ⊢
      generalize xs.foldl (fun s v => s.modPend uid p fun q => q.arrive v.1 v.2.2 0) a = b at h2r ⊢
      conv => lhs; rw [h2r]
      rw [h1r]

theorem nat_of_bytes (n v : Nat) : ofBytes (toBytes n v) = v % 256 ^ n := by
  induction n generalizing v with
  | zero => simp [toBytes, ofBytes, Nat.mod_one]
  | succ n ih =>
    rw [toBytes, ofBytes, ih, BitVec.toNat_ofNat, show (2:Nat) ^ 8 = 256 from rfl, show (256:Nat) ^ (n + 1) = 256 * 256 ^ n by rw [Nat.pow_succ, Nat.mul_comm], Nat.mod_mul]

theorem slot_same (s : State) (tile : Nat) (k : Channel) (c : Command) (h : s.slotAgrees tile k c) : (s.slotRecord tile k c).1 = c.record ∧
    ∃ d se, (s.slotRecord tile k c).2 = { s with draws := d, serial := se } := by
  obtain ⟨d1, d2, hdr⟩ : ∃ d1 d2, (draw s).2 = { s with draws := d1, serial := d2 } := ⟨_, _, draw_next s⟩
  unfold State.slotRecord
  generalize draw s = d at hdr
  obtain ⟨n, u⟩ := d
  dsimp only at hdr ⊢
  subst hdr
  refine ⟨?_, d1, d2, rfl⟩
  conv => rhs; rw [← List.zipIdx_map_fst 0 c.record]
  apply List.map_congr_left
  rintro ⟨w, i⟩ hw
  rw [List.mem_zipIdx_iff_getElem?] at hw
  have hm := h i w hw
  dsimp only at hw ⊢
  have hj : (toBytes 4 w.toNat).zipIdx.map (fun (b, j) => if bit n (4 * i + j) then s.mem.get (sliceAddr tile (k.base + k.ring + 32 * (c.number % k.rsize)) + 4 * i + j) else b) = toBytes 4 w.toNat := by
    conv => rhs; rw [← List.zipIdx_map_fst 0 (toBytes 4 w.toNat)]
    apply List.map_congr_left
    rintro ⟨b, j⟩ hb
    rw [List.mem_zipIdx_iff_getElem?] at hb
    dsimp only at hb ⊢
    split
    · rw [← hm] at hb
      simp only [Mem.read] at hb
      rcases j with _ | _ | _ | _ | j
      · simpa using hb
      · simpa using hb
      · simpa using hb
      · simpa using hb
      · simp at hb
    · rfl
  rw [hj, nat_of_bytes]
  apply BitVec.eq_of_toNat_eq
  rw [BitVec.toNat_ofNat]
  have := w.isLt
  omega

theorem map_beq {α : Type} (p : α → Nat) (k : Nat) (f : α → α) (xs : List α) : modifyWhere (fun x => p x == k) f xs = xs.map fun x => if p x = k then f x else x := by
  unfold modifyWhere
  apply List.map_congr_left
  intro x _
  by_cases h : p x = k <;> simp [h]

theorem eqHold_eq (s : State) (f : Forest) (rid wid va pa n v : Nat) (p r : Bool) : ∃ h : EqHold, s.eqHold f rid wid va pa n v p r = { s with eq := { s.eq with holds := s.eq.holds ++ [h] }, nextId := s.nextId + 1 } ∧
    h.engine = f.engine ∧ h.rid = rid ∧ h.wid = wid ∧ h.formed = s.now ∧ h.va = va ∧ h.n = n ∧ h.v = v ∧ h.p = p ∧ h.result = r :=
  ⟨_, rfl, rfl, rfl, rfl, rfl, rfl, rfl, rfl, rfl, rfl⟩

theorem walkTo_goes (s : State) (w : Walk) (f : Forest) (g : WalkStage) : WalkGoes w f g s (s.walkTo w f g) := by
  have hm := map_beq (fun x : Walk => x.wid) w.wid (fun _ => { w with stage := g }) s.eq.walks
  unfold State.walkTo
  cases g <;> first | exact ⟨rfl, hm, rfl, rfl⟩ | skip
  rename_i res z
  exact ⟨rfl, hm, rfl, _, rfl, rfl, rfl, rfl, rfl, rfl, rfl, rfl, rfl⟩

theorem found_finds (s : State) (w : Walk) (f : Forest) (second : Bool) (root : Nat) : FindsRoot w f second root s (s.found w f second root) := by
  unfold State.found FindsRoot
  cases second
  · simp only [Bool.not_false, if_true, Bool.false_eq_true, if_false]
    split <;> exact walkTo_goes ..
  · simp only [Bool.not_true, if_true, Bool.false_eq_true, if_false]
    split <;> exact walkTo_goes ..

theorem eqPut_writes {s v : State} {f : Forest} {rid wid va n x : Nat} {p : Bool} {need : Need} (h : s.eqPut f rid wid va n x p need = .ok v) : EqWrites rid wid va n x p s v := by
  unfold State.eqPut at h
  split at h
  · cases h; exact ⟨_, rfl, rfl, rfl, rfl, rfl, rfl, rfl, rfl, rfl⟩
  · split at h <;> cases h
    exact ⟨_, rfl, rfl, rfl, rfl, rfl, rfl, rfl, rfl, rfl⟩

theorem eqWrite_writes {s v : State} {f : Forest} {rid wid : Nat} {size : Bool} {x old : Nat} {q : Bool} {n : Nat} {p : Bool} (hm : f.marks = [])
    (h : s.eqWrite f rid wid size x old q n p = .ok v) : EqWrites rid wid ((if size then f.size else f.parent) + 4 * x) 4 n p s v := by
  unfold State.eqWrite at h
  rw [hm] at h
  simp only [List.isEmpty_nil, if_true] at h
  split at h
  · cases h
  · rename_i h2; cases h; exact eqPut_writes h2

theorem lower_eq {s v : State} {f : Forest} {owner rid wid z y : Nat} {poison b : Bool} (h : s.lower f owner rid wid z y poison = .ok (b, v)) :
    ∀ p q, s.eqRead f owner (f.parent + 4 * z) 4 = .ok (p, q) → (p ≤ y → v = s) ∧ (y < p → f.marks = [] → EqWrites rid wid (f.parent + 4 * z) 4 y poison s v) := by
  intro p q hr
  unfold State.lower at h
  rw [hr] at h
  dsimp only at h
  split at h
  · rename_i hc; cases h
    refine ⟨fun _ => rfl, fun hy hm => ?_⟩
    rw [hm] at hc
    simp at hc; omega
  · rename_i hc
    split at h
    · rename_i hw; cases h
      refine ⟨fun hy => absurd (by simp [hy]) hc, fun _ hm => ?_⟩
      have := eqWrite_writes hm hw
      simpa using this
    · cases h

theorem linkRoots_cases {s v : State} {f : Forest} {owner rid wid a b : Nat} {p : Bool} {o : Option (Nat × Bool)} (h : s.linkRoots f owner rid wid a b p = .ok (o, v)) :
    (o = none → v = s) ∧ (o ≠ none → f.marks = [] → ∃ x, EqWrites rid wid (f.parent + 4 * a) 4 b p s x ∧ v = x.modForest f.fid fun g => { g with classes := (g.classes + 2 ^ 32 - 1) % 2 ^ 32, reserved := g.reserved + if g.marks.isEmpty then 0 else 1 }) := by
  unfold State.linkRoots at h
  rcases hp : s.eqParent f owner a with e | ⟨u, q⟩
  · rw [hp] at h; cases h
  rw [hp] at h; dsimp only at h
  split at h
  · cases h; exact ⟨fun _ => rfl, fun hc => absurd rfl hc⟩
  split at h
  · cases h
  rcases hr : s.eqRead f owner (f.size + 4 * a) 4 with e | ⟨n, r⟩
  · rw [hr] at h; cases e <;> cases h
  rw [hr] at h; dsimp only at h
  rcases hw : s.eqWrite f rid wid false a u q b p with e | x
  · rw [hw] at h; cases h
  rw [hw] at h; dsimp only at h
  cases h
  refine ⟨fun hc => (nomatch hc), fun _ hm => ⟨x, ?_, rfl⟩⟩
  have := eqWrite_writes hm hw
  simpa using this

theorem linkRoots_none {s v : State} {f : Forest} {owner rid wid a b : Nat} {p : Bool} (h : s.linkRoots f owner rid wid a b p = .ok (none, v)) : v = s := (linkRoots_cases h).1 rfl

theorem linkRoots_some {s v : State} {f : Forest} {owner rid wid a b n : Nat} {q p : Bool} (h : s.linkRoots f owner rid wid a b p = .ok (some (n, q), v)) (hm : f.marks = []) :
    ∃ x, EqWrites rid wid (f.parent + 4 * a) 4 b p s x ∧ v = x.modForest f.fid fun g => { g with classes := (g.classes + 2 ^ 32 - 1) % 2 ^ 32, reserved := g.reserved + if g.marks.isEmpty then 0 else 1 } :=
  (linkRoots_cases h).2 (by simp) hm

theorem addSize_cases {s v : State} {f : Forest} {owner rid wid r n : Nat} {p : Bool} {o : Option Nat} (h : s.addSize f owner rid wid r n p = .ok (o, v)) :
    (o ≠ none → v = s) ∧ (o = none → ∀ old q, s.eqRead f owner (f.size + 4 * r) 4 = .ok (old, q) → f.marks = [] → ∃ y, EqWrites rid wid (f.size + 4 * r) 4 ((old + n) % 2 ^ 32) (q || p) s y ∧
              v = y.modForest f.fid fun g =>
                let g := { g with reserved := g.reserved - if g.marks.isEmpty then 0 else 1 }
                if g.maxSize < (old + n) % 2 ^ 32 ∨ ((old + n) % 2 ^ 32 = g.maxSize ∧ r < g.maxRoot) then { g with maxSize := (old + n) % 2 ^ 32, maxRoot := r } else g) := by
  unfold State.addSize at h
  rcases hp : s.eqParent f owner r with e | ⟨u, q⟩
  · rw [hp] at h; cases h
  rw [hp] at h; dsimp only at h
  split at h
  · cases h; exact ⟨fun _ => rfl, fun hc => (nomatch hc)⟩
  rcases hr : s.eqRead f owner (f.size + 4 * r) 4 with e | ⟨old, q'⟩
  · rw [hr] at h; cases e <;> cases h
  rw [hr] at h; dsimp only at h
  rcases hw : s.eqWrite f rid wid true r old q' ((old + n) % 2 ^ 32) (q' || p) with e | x
  · rw [hw] at h; cases h
  rw [hw] at h; dsimp only at h
  cases h
  refine ⟨fun hc => absurd rfl hc, fun _ old q' ho hm => ?_⟩
  cases ho
  have := eqWrite_writes hm hw
  refine ⟨_, by simpa using this, ?_⟩
  congr 1
  funext g
  dsimp only
  simp

theorem addSize_some {s v : State} {f : Forest} {owner rid wid a b p : Nat} {q : Bool} (h : s.addSize f owner rid wid a b q = .ok (some p, v)) : v = s := (addSize_cases h).1 (by simp)

theorem modReq_goes (s : State) (rid k : Nat) : RequestGoes rid k s ((s.unfetch rid).modReq rid fun r => { r with progress := k }) := by
  have := map_beq (fun x : EqReq => x.rid) rid (fun r => { r with progress := k }) s.eq.reqs
  unfold RequestGoes State.modReq State.unfetch
  dsimp only
  rw [this]

theorem get_put (m : Mem) (k v a : Nat) : (m.store k ((toBytes 4 v).map (·, false))).get a = if k ≤ a ∧ a < k + 4 then (toBytes 4 v).getD (a - k) 0 else m.get a := by
  rw [Mem.get_store, Mem.get_write, List.map_map]
  have : List.map ((fun x : Byte × Bool => x.1) ∘ fun x => (x, false)) (toBytes 4 v) = toBytes 4 v := List.map_id _
  rw [this]
  rfl

theorem ctx_id {s : State} {c : Nat} {x : Ctx} (h : s.ctx? c = some x) : x.id = c := by
  unfold State.ctx? at h
  have := List.find?_some h
  simpa using this

theorem bump_ring (s : State) (p : Posting) : ((s.bumpTail p).recordRing p).tail = ((s.recordRing p).tail + 1) % 2 ^ 32 ∧ ((s.bumpTail p).recordRing p).head = (s.recordRing p).head ∧
    ((s.bumpTail p).recordRing p).base = (s.recordRing p).base ∧ ((s.bumpTail p).recordRing p).slots = (s.recordRing p).slots := by
  unfold State.bumpTail
  rcases hb : p.ctx.bind s.ctx? with _ | c
  · dsimp only
    have : ∀ f : Tables, p.ctx.bind ({ s with tables := f } : State).ctx? = none := fun _ => hb
    unfold State.recordRing
    rw [this, hb]
    exact ⟨rfl, rfl, rfl, rfl⟩
  · rcases hc : p.ctx with _ | k
    · rw [hc] at hb; cases hb
    rw [hc] at hb
    have hb' : s.ctx? k = some c := hb
    have hid := ctx_id hb'
    have key : ∀ f : Ctx → Ctx, (∀ x, (f x).id = x.id) → p.ctx.bind (s.modCtx c.id f).ctx? = some (f c) := by
      intro f hf
      rw [hc]
      show (s.modCtx c.id f).ctx? k = _
      rw [ctx_modCtx s c.id f hf k, hb', hid]; simp
    unfold State.recordRing
    rw [hc, show (some k).bind s.ctx? = some c from hb]
    rcases hk : p.kind <;> dsimp only
    all_goals
      rw [← hc, key]
      · exact ⟨rfl, rfl, rfl, rfl⟩
      · exact fun _ => rfl

theorem writeRecord_written (s : State) (p : Posting) : RecordWritten p (s.recordBytes p) s (s.writeRecord p) := by
  unfold State.writeRecord
  dsimp only
  have hs := stored s ((s.recordRing p).base + 64 * ((s.recordRing p).tail % (s.recordRing p).slots)) ((s.recordBytes p).map (·, false))
  have hm : s.memStore ((s.recordRing p).base + 64 * ((s.recordRing p).tail % (s.recordRing p).slots)) ((s.recordBytes p).map (·, false)) = { s with mem := (s.memStore ((s.recordRing p).base + 64 * ((s.recordRing p).tail % (s.recordRing p).slots)) ((s.recordBytes p).map (·, false))).mem } := rfl
  generalize s.memStore ((s.recordRing p).base + 64 * ((s.recordRing p).tail % (s.recordRing p).slots)) ((s.recordBytes p).map (·, false)) = a at hs hm ⊢
  have hr := bump_ring a p
  have hra : a.recordRing p = s.recordRing p := by rw [hm]; rfl
  rw [hra] at hr
  have hb : a.bumpTail p = { a with ctxs := (a.bumpTail p).ctxs, tables := { a.tables with errTail := (a.bumpTail p).tables.errTail } } := by
    unfold State.bumpTail
    split <;> rfl
  generalize a.bumpTail p = b at hr hb ⊢
  have ht : ∃ c, (if p.kind = .trap then b.modTeam p.uid (fun t => { t with park := t.park.map fun k => { k with record := s.recordBytes p } }) else b) = c ∧
      c = { b with cur := c.cur, teams := c.teams, disp := { b.disp with images := c.disp.images } } := by
    split
    · exact ⟨_, rfl, (modTeam_changes b p.uid (fun t => { t with park := t.park.map fun k => { k with record := s.recordBytes p } }) fun _ => rfl).rest⟩
    · exact ⟨_, rfl, rfl⟩
  obtain ⟨c, hc, hc'⟩ := ht
  rw [hc]
  have hring : ∀ f q, ({ c with faults := f, postings := q } : State).recordRing p = b.recordRing p := by intro f q; rw [hc']; rfl
  refine ⟨?_, ?_, ?_, ?_⟩
  · have : ({ s with mem := c.mem } : State) = a := by rw [hc', hb, hm]
    dsimp only
    rw [this]; exact hs
  · dsimp only
    rw [hc', hb, hm]
  · rw [hring]; exact hr
  · dsimp only
    conv => lhs; rw [hc', hb, hm]
    rw [hc', hb, hm]

theorem post_posts (id : Nat) (k : RecordKind) (s : State) : posts id k s (s.post id k) := by
  unfold posts State.post
  dsimp only
  rcases hp : s.posting? id k with _ | p
  · dsimp only
    rw [hp]
  have hf := List.find?_some hp
  simp only [Bool.and_eq_true, beq_iff_eq] at hf
  dsimp only
  by_cases hc : s.canWrite p = true
  · rw [if_pos hc, if_pos hc]
    have hw := writeRecord_written s p
    refine ⟨s.writeRecord p, hw, ?_⟩
    have : (s.writeRecord p).posting? id k = some { p with bytes := s.recordBytes p, stage := 1, index := (s.recordRing p).tail % (s.recordRing p).slots } := by
      unfold State.posting?
      rw [hw.posting, List.find?_append]
      have : (s.postings.filter (·.id != p.id)).find? (fun p => p.id == id && p.kind == k) = none := by
        rw [List.find?_eq_none]
        intro x hx
        have := (List.mem_filter.1 hx).2
        rw [hf.1] at this
        simp at this ⊢
        exact fun h => absurd h this
      rw [this]
      simp [hf.1, hf.2]
    rw [this]
  · rw [if_neg hc, if_neg hc, hp]

end Sys2Proof.Machine
end

