-- ==== Sys2Proof/Laws/EffectsCoolbox.lean ====
section
/-! SUPPORT. How held stores leave the Coolbox (R206, R212), and what changes one team's pending results. -/

namespace Sys2Proof.Machine

/-! ### L1 lines -/

/-- Setting bits. -/
theorem setBits_true {n : Nat} (is : List Nat) (v : BitVec n) (k : Nat) (hk : k < n) : (setBits v is true).getLsbD k = (v.getLsbD k || decide (k ∈ is)) := by
  unfold setBits
  simp only [if_true]
  induction is generalizing v with
  | nil => simp
  | cons a is ih =>
    rw [List.foldl_cons, ih]
    simp only [BitVec.getLsbD_or, BitVec.getLsbD_twoPow, List.mem_cons, Bool.decide_or]
    by_cases h : a = k
    · subst h; simp [hk]
    · simp [h, Ne.symm h]

theorem setBits_false {n : Nat} (v : BitVec n) (w k : Nat) (hk : k ≠ w) : (setBits v [w] false).getLsbD k = v.getLsbD k := by
  unfold setBits
  simp only [Bool.false_eq_true, if_false, List.foldl_cons, List.foldl_nil, BitVec.getLsbD_and, BitVec.getLsbD_not, BitVec.getLsbD_twoPow]
  by_cases h : k < n
  · simp [h, Ne.symm hk]
  · rw [BitVec.getLsbD_of_ge _ _ (Nat.le_of_not_lt h)]; simp

theorem poison_fold (ws : List (Nat × Bool)) (p : BitVec 16) (w : Nat) (hw : w < 16) (hf : ∀ x ∈ ws, x.1 = w → x.2 = true) (h : p.getLsbD w = true ∨ (w, true) ∈ ws) :
    (ws.foldl (fun p (x : Nat × Bool) => setBits p [x.1] x.2) p).getLsbD w = true := by
  induction ws generalizing p with
  | nil => rcases h with h | h; exact h; cases h
  | cons x ws ih =>
    rw [List.foldl_cons]
    refine ih _ (fun y hy => hf y (List.mem_cons_of_mem _ hy)) ?_
    obtain ⟨a, b⟩ := x
    by_cases ha : a = w
    · subst ha
      have := hf (a, b) List.mem_cons_self rfl
      dsimp only at this
      subst this
      left
      rw [setBits_true _ _ _ hw]; simp
    · rcases h with h | h
      · left
        cases b
        · rw [setBits_false _ _ _ (Ne.symm ha)]; exact h
        · rw [setBits_true _ _ _ hw, h]; rfl
      · right
        rcases List.mem_cons.1 h with h | h
        · exact absurd (congrArg Prod.fst h).symm ha
        · exact h

/-- A byte put into a line is valid there, with its poison. -/
theorem put_byte (l : Line) (off : Nat) (data : List (Byte × Bool)) (i : Nat) (b : Byte × Bool) (hb : data[i]? = some b) (hi : off + i < 64) :
    (l.put off data).valid.getLsbD (off + i) = true ∧ (l.put off data).byteAt (off + i) = b.1 ∧ (b.2 = true → (l.put off data).poison.getLsbD ((off + i) / 4) = true) := by
  obtain ⟨hl, hv⟩ := List.getElem?_eq_some_iff.1 hb
  refine ⟨?_, ?_, ?_⟩
  · unfold Line.put
    dsimp only
    rw [setBits_true _ _ _ hi]
    simp [hl]
  · unfold Line.put Line.byteAt
    dsimp only
    rw [List.getD_eq_getElem?_getD, List.getElem?_map, List.getElem?_range hi]
    simp [hl, hv]
  · intro hp
    unfold Line.put
    dsimp only
    refine poison_fold _ _ _ (by omega) ?_ (Or.inr ?_)
    · intro x hx hxw
      obtain ⟨w, hw, he⟩ := List.mem_filterMap.1 hx
      have hmem : (b, i) ∈ data.zipIdx := by
        rw [List.mem_zipIdx_iff_getElem?]; exact hb
      split at he
      · cases he
      · split at he
        · cases he; rfl
        · rename_i hn
          split at he
          · cases he
            exfalso
            apply hn
            rw [List.any_eq_true]
            exact ⟨(b, i), List.mem_filter.2 ⟨hmem, by dsimp only at hxw ⊢; rw [hxw]; simp⟩, hp⟩
          · cases he
    · refine List.mem_filterMap.2 ⟨(off + i) / 4, List.mem_range.2 (by omega), ?_⟩
      have hmem : (b, i) ∈ data.zipIdx.filter fun x => (off + x.2) / 4 == (off + i) / 4 := by
        refine List.mem_filter.2 ⟨?_, by simp⟩
        rw [List.mem_zipIdx_iff_getElem?]; exact hb
      have h1 : (data.zipIdx.filter fun x => (off + x.2) / 4 == (off + i) / 4).isEmpty = false := by
        cases h : (data.zipIdx.filter fun x => (off + x.2) / 4 == (off + i) / 4) with
        | nil => rw [h] at hmem; cases hmem
        | cons a as => rfl
      have h2 : ((data.zipIdx.filter fun x => (off + x.2) / 4 == (off + i) / 4).any fun x => x.1.2) = true := by
        rw [List.any_eq_true]; exact ⟨_, hmem, hp⟩
      rw [h1, h2]
      rfl

theorem find_modify {α : Type} (p : α → Bool) (f : α → α) (hf : ∀ x, p (f x) = p x) (l : List α) : (modifyWhere p f l).find? p = (l.find? p).map f := by
  induction l with
  | nil => rfl
  | cons x xs ih =>
    unfold modifyWhere at ih ⊢
    rw [List.map_cons]
    by_cases h : p x = true
    · rw [if_pos h, List.find?_cons_of_pos (by rw [hf]; exact h), List.find?_cons_of_pos h]; rfl
    · rw [if_neg h, List.find?_cons_of_neg h, List.find?_cons_of_neg h, ih]

theorem modLine_line (m : Mem) (tile ctx va : Nat) (f : Line → Line) (hf : ∀ l, (f l).tile = l.tile ∧ (f l).ctx = l.ctx ∧ (f l).va = l.va) :
    (m.modLine tile ctx va f).line? tile ctx va = some (f ((m.line? tile ctx va).getD (Line.blank tile ctx va))) := by
  unfold Mem.modLine
  dsimp only
  split
  · rename_i l hl
    rw [hl]
    unfold Mem.line? at hl ⊢
    dsimp only
    rw [find_modify _ f (fun x => by rw [(hf x).1, (hf x).2.1, (hf x).2.2]), hl]; rfl
  · rename_i hl
    rw [hl]
    unfold Mem.line?
    dsimp only
    rw [List.find?_cons_of_pos (by rw [(hf _).1, (hf _).2.1, (hf _).2.2]; simp [Line.blank])]; rfl

/-- A piece of a held store leaves as R212 says. -/
theorem pieceLeaves (e : Held) (p : Piece) (s : State) : PieceLeaves e p s (s.releasePiece e p) := by
  unfold PieceLeaves State.releasePiece
  split
  · split
    · exact stored ..
    · exact send_sent ..
  · split
    · split
      · rename_i h; first | exact send_sent .. | (rw [h]; exact send_sent ..)
      · rename_i h; first | rfl | rw [h]
    · refine ⟨?_, ?_⟩
      · intro i b hb hi
        have h1 : (p.ea + i) % 64 = p.ea % 64 + i := by omega
        have h2 : (p.ea + i) / 64 * 64 = p.ea / 64 * 64 := by omega
        obtain ⟨g1, g2, g3⟩ := put_byte ((s.mem.line? e.tile e.ctx p.ea).getD (Line.blank e.tile e.ctx p.ea)) (p.ea % 64) p.data i b hb hi
        unfold State.staleFills Mem.l1Byte
        dsimp only
        have hl : (s.mem.modLine e.tile e.ctx p.ea fun l => l.put (p.ea % 64) p.data).line? e.tile e.ctx (p.ea + i) = some ((((s.mem.line? e.tile e.ctx p.ea).getD (Line.blank e.tile e.ctx p.ea))).put (p.ea % 64) p.data) := by
          have := modLine_line s.mem e.tile e.ctx p.ea (fun l => l.put (p.ea % 64) p.data) (fun l => ⟨rfl, rfl, rfl⟩)
          rw [← this]
          unfold Mem.line?
          rw [h2]
        rw [hl]
        dsimp only
        rw [h1, g1, g2]
        exact ⟨_, rfl, g3⟩
      · unfold State.staleFills Mem.modLine
        dsimp only
        split <;> rfl

theorem leaveInOrder (e : Held) (ps : List Piece) (s : State) : LeaveInOrder e ps s (ps.foldl (fun s p => s.releasePiece e p) s) := by
  induction ps generalizing s with
  | nil => rfl
  | cons p ps ih => exact ⟨_, pieceLeaves e p s, ih _⟩

/-! ### Teams and pending results -/

/-- Two changes of one team, one after the other. -/
theorem TeamChanges.trans {uid : Nat} {f g : Team → Team} {s u v : State} (h : TeamChanges uid f s u) (k : TeamChanges uid g u v) : TeamChanges uid (fun t => g (f t)) s v := by
  refine ⟨fun t ht => k.team _ (h.team t ht), fun w hw => (k.others w hw).trans (h.others w hw), ?_⟩
  have := k.rest
  have h2 := h.rest
  rw [h2] at this
  rw [this]

theorem modPend_foldl {α : Type} (uid pid : Nat) (f : α → Pend → Pend) (xs : List α) (s : State) :
    TeamChanges uid (fun t => { t with pend := xs.foldl (fun ps x => modifyLast (·.id == pid) (f x) ps) t.pend }) s (xs.foldl (fun s x => s.modPend uid pid (f x)) s) := by
  induction xs generalizing s with
  | nil => exact ⟨fun t ht => ht, fun _ _ => rfl, rfl⟩
  | cons x xs ih => exact (modTeam_changes s uid (fun t => { t with pend := modifyLast (·.id == pid) (f x) t.pend }) (fun _ => rfl)).trans (ih _)

theorem landed_pend (t : Team) (p : Pend) (rs : List LaneResult) : (t.landed p rs).pend = t.pend := by
  unfold Team.landed
  dsimp only
  generalize List.filter _ rs = xs
  induction xs generalizing t with
  | nil => rfl
  | cons r xs ih =>
    rw [List.foldl_cons, ih]
    split
    · rfl
    · cases r.dest <;> first | rfl | (unfold Team.write; dsimp only; rfl) | (unfold Team.write; simp only [Team.setLane, Team.setArch, Team.setFrame]; rfl)

theorem landed_id (t : Team) (p : Pend) (rs : List LaneResult) : (t.landed p rs).id = t.id := foldl_id _ _

/-- No word lands on a port when no result is bound for one. -/
theorem push_none (s : State) (t : Team) (p : Pend) : s.pushLanded t p [] = s := by
  unfold State.pushLanded
  split
  · rfl
  · have : (((p.results.flatMap fun r => List.replicate r.width r).zip p.slots).filter fun x => ([] : List LaneResult).any fun r => r.lane == x.1.lane) = [] := by
      rw [List.filter_eq_nil_iff]; intro x _; simp
    simp only [this, List.filter_nil, List.map_nil, List.isEmpty_nil, if_true, List.flatMap_nil]

/-- A request in flight whose page is absent parks on it. -/
theorem parkRequest_parks (s : State) (x : Net) (t : Team) (l : Nat) (hu : t.id.uid = x.uid) :
    ∃ f ∈ (s.parkRequest x t l).faults, f.item = x.id ∧ f.uid = x.uid ∧ f.va = x.va ∧ f.level = l ∧ f.word = x.word := by
  unfold State.parkRequest
  dsimp only
  have hm : ∀ (v : State) (u : Nat) (f : Team → Team), (v.modTeam u f).faults = v.faults := by
    intro v u f; unfold State.modTeam; split <;> rfl
  split
  · rw [hm]
    simp only [State.parkFault, fresh, modifyWhere, List.map_append, List.map_cons, List.map_nil]
    refine ⟨_, List.mem_append_right _ (List.mem_singleton.2 rfl), ?_⟩
    split <;> exact ⟨rfl, hu, rfl, rfl, rfl⟩
  · simp only [State.parkFault, fresh]
    exact ⟨_, List.mem_append_right _ (List.mem_singleton.2 rfl), rfl, hu, rfl, rfl, rfl⟩

theorem ownerTeam_uid (s : State) (uid tile side ctx : Nat) : (s.ownerTeam uid tile side ctx).id.uid = uid := by
  unfold State.ownerTeam
  cases h : s.team? uid with
  | none => rfl
  | some t => exact team_uid h

end Sys2Proof.Machine
end

