-- ==== Sys2Proof/Laws/EffectsHub.lean ====
section
/-! SUPPORT. What the shared operations of the dispatcher, Ranger, the links, the hub and the calls do. -/

namespace Sys2Proof.Machine

def SameWorks (s u : State) : Prop := u.disp.works = s.disp.works

theorem SameWorks.of_quiet {s u : State} (h : Quiet s u) : SameWorks s u := by unfold SameWorks; rw [h.rest]

theorem putMacros_works (s : State) (tile : Nat) (ms : List (Nat × List Word)) : SameWorks s (s.putMacros tile ms) := by
  unfold State.putMacros SameWorks
  refine foldl_keeps (fun v : State => v.disp.works = s.disp.works) _ ?_ _ _ rfl
  intro v x hv
  dsimp only
  refine foldl_keeps (fun v : State => v.disp.works = s.disp.works) _ ?_ _ _ hv
  intro v x hv; exact hv

theorem takeQuota_works {s u : State} {tile ctx : Nat} {p : Profile} {n : Nat} (h : s.takeQuota tile ctx p n = some u) : SameWorks s u := by
  unfold State.takeQuota at h
  dsimp only at h
  split at h
  · split at h
    · cases h
    · cases h; rfl
  · split at h
    · cases h
    · split at h
      · cases h
      · cases h
        exact putMacros_works s tile _

theorem setWindow_keeps (s : State) (tile i : Nat) (e : Dword) : ∃ b tb, s.setWindow tile i e = { s with mem := b, tables := tb } := by
  unfold State.setWindow
  extract_lets e v
  split
  · exact ⟨s.mem, _, rfl⟩
  · exact ⟨_, _, rfl⟩

theorem setWindow_disp (s : State) (tile i : Nat) (e : Dword) : (s.setWindow tile i e).disp = s.disp := by
  obtain ⟨b, tb, h⟩ := setWindow_keeps s tile i e
  rw [h]

theorem openWindow_works {s u : State} {p : Profile} {g g' : GroupRt} (h : s.openWindow p g = some (g', u)) : SameWorks s u := by
  unfold State.openWindow at h
  split at h
  · cases h; rfl
  · split at h
    · cases h; exact congrArg Dispatcher.works (setWindow_disp ..)
    · cases h

theorem formTeam_works (s : State) (w : Work) (g : GroupRt) (p : Spot) (x : TeamSpec) : SameWorks s (s.formTeam w g p x) := by
  unfold State.formTeam SameWorks
  dsimp only
  refine foldl_keeps (fun v : State => v.disp.works = s.disp.works) _ ?_ _ _ ?_
  · intro v o hv
    split
    · exact hv
    · exact (SameWorks.of_quiet (cleans_cleanLines ..).quiet).trans hv
  · unfold State.measureFrom fresh
    split <;> rfl

theorem formTeams_works {w : Work} {g : GroupRt} (xs : List TeamSpec) {s u : State} (h : s.formTeams w g xs = some u) : SameWorks s u := by
  induction xs generalizing s with
  | nil => rw [State.formTeams] at h; cases h; rfl
  | cons x xs ih =>
    rw [State.formTeams] at h
    split at h
    · cases h
    · exact (ih h).trans (formTeam_works ..)

theorem admitGroup_works {s u : State} {w : Work} {number gang tile : Nat} {ts : List TeamSpec} (h : s.admitGroup w number gang tile ts = some u) : SameWorks s u := by
  unfold State.admitGroup at h
  split at h
  · cases h
  · split at h
    · cases h
    · rename_i v hv
      dsimp only at h
      split at h
      · cases h
      · rename_i g v' hg
        have h1 := takeQuota_works hv
        have h2 := openWindow_works hg
        have h3 := formTeams_works _ h
        unfold SameWorks at *
        rw [h3]
        show v'.disp.works = _
        rw [h2, ← h1]; rfl

theorem firstSome_mem {α β : Type} {f : α → Option β} {l : List α} {b : β} (h : firstSome f l = some b) : ∃ a ∈ l, f a = some b := by
  induction l with
  | nil => cases h
  | cons a l ih =>
    rw [firstSome] at h
    cases hf : f a with
    | none => rw [hf] at h; obtain ⟨x, hx, h⟩ := ih h; exact ⟨x, List.mem_cons_of_mem _ hx, h⟩
    | some y => rw [hf] at h; exact ⟨a, List.mem_cons_self, by rw [hf]; exact h⟩

theorem admitAll_works {w : Work} {gang : Nat} {tiles : List Nat} (ns : List Nat) {s u : State} (h : s.admitAll w gang tiles ns = some u) : SameWorks s u := by
  induction ns generalizing s with
  | nil => rw [State.admitAll] at h; cases h; rfl
  | cons n ns ih =>
    rw [State.admitAll] at h
    split at h
    · cases h
    · rename_i v hv
      obtain ⟨t, _, ht⟩ := firstSome_mem hv
      exact (ih h).trans (admitGroup_works ht)

theorem modWork_find (s v : State) (hv : SameWorks s v) (wid : Nat) (w : Work) (h : s.work? wid = some w) (f : Work → Work) (hf : ∀ w, (f w).id = w.id) :
    (v.modWork w.id f).work? wid = some (f w) := by
  have hid : w.id = wid := by unfold State.work? at h; have := List.find?_some h; simpa using this
  subst hid
  unfold State.work? State.modWork at *
  rw [← hv] at h
  show (modifyWhere (fun x => x.id == w.id) f v.disp.works).find? _ = _
  revert h
  unfold modifyWhere
  generalize v.disp.works = ws
  intro h
  induction ws with
  | nil => cases h
  | cons x xs ih =>
    rw [List.map_cons, List.find?_cons]
    rw [List.find?_cons] at h
    by_cases hx : x.id = w.id
    · simp only [hx, beq_self_eq_true] at h; cases h
      simp [hf]
    · simp only [beq_eq_false_iff_ne.2 hx] at h ⊢
      simp only [Bool.false_eq_true, if_false, beq_eq_false_iff_ne.2 hx]
      exact ih h

theorem entry_self (s : State) (i : Nat) (f : TimeEntry → TimeEntry) : (s.modEntry i f).timeEntry i = f (s.timeEntry i) := fget_fput_self ..

theorem entry_ne (s : State) (i k : Nat) (hk : k ≠ i) (f : TimeEntry → TimeEntry) : (s.modEntry i f).timeEntry k = s.timeEntry k := fget_fput_of_ne _ _ _ hk

theorem sendAfter_keeps (s : State) (tile side uid ctx iss : Nat) (pc : BitVec 48) (word : Word) (va : Nat) (after : List Nat) (act : Act) :
    ∃ n k, (s.sendAfter tile side uid ctx iss pc word va after act).2 = { s with net := n, nextId := k } := ⟨_, _, rfl⟩

def SameTeams (s u : State) : Prop := u.teams = s.teams ∧ u.cur = s.cur ∧ u.coolbox = s.coolbox ∧ u.now = s.now

theorem SameTeams.refl (s : State) : SameTeams s s := ⟨rfl, rfl, rfl, rfl⟩

theorem SameTeams.trans {a b c : State} (h : SameTeams a b) (k : SameTeams b c) : SameTeams a c :=
  ⟨k.1.trans h.1, k.2.1.trans h.2.1, k.2.2.1.trans h.2.2.1, k.2.2.2.trans h.2.2.2⟩

theorem Quiet.sameTeams {s u : State} (h : Quiet s u) : SameTeams s u := by rw [h.rest]; exact ⟨rfl, rfl, rfl, rfl⟩

theorem releaseObjects_same (s : State) (tile ctx uid iss : Nat) (objs : List Nat) : SameTeams s (s.releaseObjects tile ctx uid iss objs).2 := by
  unfold State.releaseObjects State.releaseActions
  dsimp only
  have h0 := (cleans_cleanLines s (fun l => l.tile == tile && l.ctx == ctx && inRegions (objs.flatMap fun o => s.boundTo tile ctx o) l) (fun _ => false) uid iss).quiet
  refine Quiet.sameTeams (Quiet.trans h0 ?_)
  refine (cleans_foldl2 _ ?_ objs _).quiet
  intro v o
  dsimp only
  split
  · exact Cleans.refl _
  · exact cleans_flushRange ..

theorem clearQuota_same (s : State) (tile i : Nat) (q : BitVec 128) : SameTeams s (s.clearQuota tile i q) := by
  unfold State.clearQuota
  dsimp only
  refine foldl_keeps (fun v : State => SameTeams s v) _ ?_ _ _ ?_
  · intro v x hv; exact hv
  · exact SameTeams.refl s

theorem releaseQuota_same (s : State) (tile ctx k n : Nat) : SameTeams s (s.releaseQuota tile ctx k n) := by
  unfold State.releaseQuota
  split
  · exact SameTeams.refl s
  · dsimp only
    split
    · exact clearQuota_same ..
    · exact SameTeams.refl s

theorem closeGroup_same (s : State) (gid : Nat) : SameTeams s (s.closeGroup gid) := by
  unfold State.closeGroup
  split
  · exact SameTeams.refl s
  · unfold State.closeWindow
    split <;> exact SameTeams.refl s

theorem teamLeaves_same (s : State) (t : Team) : SameTeams s (s.teamLeavesGroup t) := by
  unfold State.teamLeavesGroup
  split
  · exact SameTeams.refl s
  · split
    · exact (closeGroup_same s _).trans (SameTeams.refl _)
    · exact SameTeams.refl s

theorem credit_same (s : State) (t : Team) (c : Nat) (after : List Nat) : SameTeams s (s.creditCounter t c after).2 := by
  unfold State.creditCounter
  split <;> exact SameTeams.refl s

theorem settle_same (s : State) (t : Team) : SameTeams s (s.settleWork t) := by
  unfold State.settleWork
  split
  · exact SameTeams.refl s
  · split
    · exact SameTeams.refl s
    · split
      · exact SameTeams.refl s
      · dsimp only
        split
        · exact SameTeams.refl s
        · exact (credit_same ..).trans (SameTeams.refl _)
        · exact (credit_same ..).trans (SameTeams.refl _)

theorem endTeam_ends (s : State) (t : Team) : (s.endTeam t).teams = s.teams.filter (fun x => x.id.uid != t.id.uid) ∧ (s.endTeam t).cur = (if s.cur.id.uid = t.id.uid then Team.empty else s.cur) ∧
    (s.endTeam t).coolbox = s.coolbox ∧ (s.endTeam t).now = s.now := by
  unfold State.endTeam
  dsimp only
  have h0 := releaseObjects_same s t.id.tile t.id.ctx t.id.uid s.now ((t.id.counter :: t.id.records.map (·.1)).filter (· != 0))
  generalize s.releaseObjects t.id.tile t.id.ctx t.id.uid s.now ((t.id.counter :: t.id.records.map (·.1)).filter (· != 0)) = r at h0 ⊢
  obtain ⟨ids, a⟩ := r
  dsimp only at h0 ⊢
  have h1 : (a.leave t).teams = s.teams.filter (fun x => x.id.uid != t.id.uid) ∧ (a.leave t).cur = (if s.cur.id.uid = t.id.uid then Team.empty else s.cur) ∧
      (a.leave t).coolbox = s.coolbox ∧ (a.leave t).now = s.now := by
    unfold State.leave
    dsimp only
    have hq := fun v : State => releaseQuota_same v t.id.tile t.id.ctx (((a.group? t.id.gid).map (·.kernel)).getD 0) 1
    refine ⟨(hq _).1.trans ?_, (hq _).2.1.trans ?_, (hq _).2.2.1.trans ?_, (hq _).2.2.2.trans ?_⟩
    · show a.teams.filter _ = _; rw [h0.1]
    · show (if a.cur.id.uid = t.id.uid then Team.empty else a.cur) = _; rw [h0.2.1]
    · exact h0.2.2.1
    · exact h0.2.2.2
  have h2 : SameTeams (a.leave t) (((a.leave t).modCtx t.id.ctx fun c => { c with areas := c.areas.filter fun a => a.1 != t.id.uid }).teamLeavesGroup t) :=
    (SameTeams.refl _).trans (teamLeaves_same _ t)
  generalize ((a.leave t).modCtx t.id.ctx fun c => { c with areas := c.areas.filter fun a => a.1 != t.id.uid }).teamLeavesGroup t = b at h2 ⊢
  have fin : ∀ c : State, SameTeams b c → (c.settleWork t).teams = s.teams.filter (fun x => x.id.uid != t.id.uid) ∧ (c.settleWork t).cur = (if s.cur.id.uid = t.id.uid then Team.empty else s.cur) ∧
    (c.settleWork t).coolbox = s.coolbox ∧ (c.settleWork t).now = s.now := by
    intro c hc
    have h := (h2.trans hc).trans (settle_same c t)
    exact ⟨h.1.trans h1.1, h.2.1.trans h1.2.1, h.2.2.1.trans h1.2.2.1, h.2.2.2.trans h1.2.2.2⟩
  apply fin
  split
  · exact SameTeams.refl b
  · refine foldl_keeps (fun v : State => SameTeams b v) _ (fun v r hv => hv.trans (credit_same ..)) _ _ (SameTeams.refl b)

theorem setBinding_keeps (s : State) (c i v : Nat) : (s.setBinding c i v).net = s.net ∧ (s.setBinding c i v).now = s.now := by
  unfold State.setBinding
  split <;> exact ⟨rfl, rfl⟩

theorem modWindow_changes (s : State) (key : Nat) (f : Window → Window) : WindowChanges key f s (s.modWindow key f) :=
  ⟨fget_fput_self .., fun _ hk => fget_fput_of_ne _ _ _ hk, rfl⟩

theorem refuse_refuses (s : State) (key : Nat) : Refuses key s (s.refuse key) := modWindow_changes ..

theorem setFrame_sys (t : Team) (l : Nat) (f : Frame → Frame) : (t.setFrame l f).sys = t.sys := rfl

theorem join_id (t : Team) (g : Group) : (t.join g).id = t.id := by
  unfold Team.join
  split
  · rfl
  · split <;> rfl

theorem moveGroup_id (t : Team) (a b : BitVec 48) : (t.moveGroup a b).id = t.id := by
  unfold Team.moveGroup
  split
  · rfl
  · split
    · rfl
    · exact join_id ..

theorem resumed_id (t : Team) (p : Park) (v : Dword) : (t.resumed p v).id = t.id := by
  unfold Team.resumed
  dsimp only
  split
  · split
    · exact moveGroup_id ..
    · exact moveGroup_id ..
  · exact moveGroup_id ..

theorem fold_keeps_team {α : Type} (f : Team → α → Team) (P : Team → Prop) (hf : ∀ t x, P t → P (f t x)) (xs : List α) (t : Team) (h : P t) : P (xs.foldl f t) := by
  induction xs generalizing t with
  | nil => exact h
  | cons x xs ih => exact ih _ (hf _ _ h)

theorem moveFrame_id (t : Team) (l : Nat) (a b : Word) (c : Bool) : (t.moveFrame l a b c).id = t.id := rfl

theorem writeLinks_id (t : Team) : t.writeLinks.id = t.id := by
  unfold Team.writeLinks
  exact foldl_keep_id (fun t (x : Nat × Nat × List PWord) => t.write (.slot x.1 x.2.1) x.2.2) (fun _ _ => rfl) _ _

theorem redirect_id (t : Team) (p : Park) : (t.redirect p).id = t.id := by
  unfold Team.redirect
  refine (writeLinks_id _).trans ((moveGroup_id ..).trans ?_)
  exact foldl_keep_id (fun t l => t.redirectLane p.resumePc l) (fun _ _ => rfl) _ _

theorem yields_fold (ws : List Word) (pl : Nat) (s : State) : ws.foldl (fun s w => s.yields pl (w.setWidth 64)) s = { s with out := s.out ++ ws.map fun w => .value pl (w.setWidth 64) } := by
  induction ws generalizing s with
  | nil => simp
  | cons w ws ih => rw [List.foldl_cons, ih]; simp [State.yields]

theorem modPort_changes (s : State) (p : Nat) (f : Port → Port) : (s.modPort p f).port p = f (s.port p) ∧ (∀ k, k ≠ p → (s.modPort p f).port k = s.port k) ∧ s.modPort p f = { s with hub := { s.hub with ports := (s.modPort p f).hub.ports } } :=
  ⟨fget_fput_self .., fun _ hk => fget_fput_of_ne _ _ _ hk, rfl⟩

theorem setCtx_changes (s : State) (c : Nat) (x : Ctx) (hx : s.ctx? c = some x) (f : Ctx → Ctx) (hf : ∀ x, (f x).id = x.id) :
    (∀ k, k ≠ c → (s.setCtx c f).ctx? k = s.ctx? k) ∧ s.setCtx c f = { s with ctxs := (s.setCtx c f).ctxs } ∧ (s.setCtx c f).ctx? c = some (f x) := by
  have h : s.setCtx c f = s.modCtx c f := by unfold State.setCtx; rw [hx]; rfl
  rw [h]
  refine ⟨?_, rfl, ?_⟩
  · intro k hk; rw [ctx_modCtx s c f hf]; simp [hk]
  · rw [ctx_modCtx s c f hf, hx]; simp

theorem ctxWritten_id (s : State) (off : Nat) (v new m : Dword) (x : Ctx) : (s.ctxWritten off v new m x).id = x.id := by
  have key : ∀ (c : Prop) [Decidable c] (a b : Ctx), a.id = x.id → b.id = x.id → (if c then a else b).id = x.id := by
    intro c _ a b h1 h2; split
    · exact h1
    · exact h2
  unfold State.ctxWritten
  dsimp only
  repeat first | refine key _ _ _ rfl ?_ | refine key _ _ _ (key _ _ _ rfl rfl) ?_
  rfl

theorem fget_filter [DecidableEq α] (d : α) (p : Nat → Bool) (m : Fmap α) (lo k : Nat) (h : fwfFrom d lo m = true) :
    fget d (m.filter fun x => p x.1) k = if p k then fget d m k else d := by
  induction m generalizing lo with
  | nil => simp [fget]
  | cons x m ih =>
    obtain ⟨j, v⟩ := x
    unfold fwfFrom at h
    rw [Bool.and_eq_true, Bool.and_eq_true] at h
    have hb := h.2
    have low : ∀ q : Nat → Bool, k ≤ j → fget d (m.filter fun x => q x.1) k = d := by
      intro q hk
      clear ih h
      induction m generalizing j with
      | nil => rfl
      | cons y m ih =>
        unfold fwfFrom at hb
        rw [Bool.and_eq_true, Bool.and_eq_true] at hb
        have h1 : j + 1 ≤ y.1 := by simpa using hb.1.1
        by_cases hy : q y.1
        · rw [List.filter_cons_of_pos (by simpa using hy)]
          unfold fget
          rw [if_neg (by omega), if_pos (by omega)]
        · rw [List.filter_cons_of_neg (by simpa using hy)]
          exact ih y.1 hb.2 (by omega)
    by_cases hj : p j
    · rw [List.filter_cons_of_pos (by simpa using hj)]
      unfold fget
      by_cases h1 : k = j
      · subst h1; rw [if_pos rfl, if_pos rfl, if_pos hj]
      · rw [if_neg h1, if_neg h1]
        by_cases h2 : k < j
        · rw [if_pos h2, if_pos h2]; split <;> rfl
        · rw [if_neg h2, if_neg h2]; exact ih _ hb
    · rw [List.filter_cons_of_neg (by simpa using hj)]
      by_cases h1 : k ≤ j
      · rw [low p h1]
        by_cases h2 : k = j
        · subst h2; rw [if_neg hj]
        · unfold fget
          rw [if_neg h2, if_pos (show k < j by omega)]; split <;> rfl
      · rw [ih _ hb]
        conv => rhs; unfold fget
        rw [if_neg (by omega : ¬ k = j), if_neg (by omega : ¬ k < j)]

theorem fget_filter_none (d : α) (p : Nat → Bool) (m : Fmap α) (k : Nat) (h : p k = false) : fget d (m.filter fun x => p x.1) k = d := by
  induction m with
  | nil => rfl
  | cons x m ih =>
    by_cases hx : p x.1
    · rw [List.filter_cons_of_pos (by simpa using hx)]
      unfold fget
      rw [if_neg (by intro e; rw [e, hx] at h; cases h)]
      split
      · rfl
      · exact ih
    · rw [List.filter_cons_of_neg (by simpa using hx)]; exact ih

theorem setWindow_window (s : State) (t i : Nat) (new : Dword) :
    let e := if winScope new = 2 then new &&& ~~~(0xFFF00000000 : Dword) else new
    let inside (k : Nat) : Prop := winValid e = true ∧ sliceAddr t (winBase e) ≤ k ∧ k < sliceAddr t (winBase e) + winSize e ∧ s.lastHeld t (k - sliceAddr t 0) ≠ some (winCtx e)
    let u := s.setWindow t i new
    fget 0 u.tables.windows (t * 128 + i) = e ∧ (∀ k, k ≠ t * 128 + i → fget 0 u.tables.windows k = fget 0 s.tables.windows k) ∧
      u = { s with tables := { s.tables with windows := u.tables.windows, zones := u.tables.zones }, mem := { s.mem with bytes := u.mem.bytes, poison := u.mem.poison } } ∧
      (∀ k, inside k → u.mem.get k = Mem.unlisted) ∧ (s.mem.wf = true → ∀ k, ¬inside k → u.mem.get k = s.mem.get k) := by
  intro e inside u
  have hu : u = s.setWindow t i new := rfl
  clear_value u
  unfold State.setWindow at hu
  let x (k : Nat) : Bool := decide (sliceAddr t (winBase e) ≤ k) && decide (k < sliceAddr t (winBase e) + winSize e) && s.lastHeld t (k - sliceAddr t 0) != some (winCtx e)
  extract_lets at hu
  split at hu <;> subst hu
  · rename_i hv
    refine ⟨fget_fput_self .., fun _ hk => fget_fput_of_ne _ _ _ hk, rfl, ?_, fun _ _ _ => rfl⟩
    intro k hk
    rw [hk.1] at hv; cases hv
  · rename_i hv
    have hv : winValid e = true := by simpa using hv
    have hx (k : Nat) : x k = true ↔ inside k := by
      show (decide _ && decide _ && _) = true ↔ _
      simp only [Bool.and_eq_true, decide_eq_true_eq, bne_iff_ne]
      exact ⟨fun h => ⟨hv, h.1.1, h.1.2, h.2⟩, fun h => ⟨⟨h.2.1, h.2.2.1⟩, h.2.2.2⟩⟩
    refine ⟨fget_fput_self .., fun _ hk => fget_fput_of_ne _ _ _ hk, rfl, ?_, ?_⟩
    · intro k hk
      exact fget_filter_none _ (fun k => !x k) _ k (by simpa using (hx k).2 hk)
    · intro hw k hk
      have hb : fwfFrom Mem.unlisted 0 s.mem.bytes = true := (Bool.and_eq_true _ _ ▸ hw).1
      refine (fget_filter _ (fun k => !x k) _ 0 k hb).trans (if_pos ?_)
      rw [Bool.not_eq_true', ← Bool.not_eq_true, hx]; exact hk

theorem writeReg_follows (r : Reg17) (new vv m : Dword) (s : State) : registerRule r new s (s.writeReg r vv new m) := by
  unfold registerRule State.writeReg
  cases r with
  | slot key off =>
    dsimp only
    refine ⟨?_, ?_, ?_⟩ <;> (intro ho; subst ho; exact modWindow_changes ..)
  | tile t off =>
    dsimp only
    by_cases h1 : off < 0x400
    · rw [if_pos h1, if_pos h1]
      exact setWindow_window ..
    rw [if_neg h1, if_neg h1]
    by_cases h2 : 0x800 ≤ off ∧ off < 0xC00 ∧ off % 16 = 8
    · rw [if_pos h2, if_pos (by simpa [and_assoc] using h2)]
    · rw [if_neg h2, if_neg (by simpa [and_assoc] using h2)]
  | port p off =>
    dsimp only
    by_cases h1 : off = 8 ∧ 10 ≤ new.toNat ∧ new.toNat ≤ 10000
    · rw [if_pos h1, if_neg (by omega), if_pos (by simpa [and_assoc] using h1)]
      exact modPort_changes ..
    rw [if_neg h1]
    by_cases h2 : off = 0
    · rw [if_pos h2, if_pos h2]; exact modPort_changes ..
    · rw [if_neg h2, if_neg h2, if_neg (by simpa [and_assoc] using h1)]
  | route i => exact ⟨fget_fput_self .., fun _ hk => fget_fput_of_ne _ _ _ hk, rfl⟩
  | clock off =>
    dsimp only
    by_cases h1 : off = 24
    · rw [if_pos h1]
      unfold State.writeClkmode
      cases hl : s.hub.clock.locked <;> simp [h1, hl]
    · rw [if_neg h1, if_neg (fun h => h1 h.1)]
  | errors off =>
    dsimp only
    by_cases h1 : off = 0
    · rw [if_pos h1, if_pos h1, if_neg (by omega)]
    rw [if_neg h1, if_neg h1]
    by_cases h2 : off = 16
    · rw [if_pos h2, if_pos h2]
    · rw [if_neg h2, if_neg h2]
  | context c off =>
    dsimp only
    intro x hx ho
    have hk : s.writeContext c off vv new m = s.setCtx c (s.ctxWritten off vv new m) := by
      unfold State.writeContext
      rw [if_neg (by omega)]
    rw [hk]
    obtain ⟨h1, h2, h3⟩ := setCtx_changes s c x hx (s.ctxWritten off vv new m) (ctxWritten_id s off vv new m)
    refine ⟨h1, h2, ?_⟩
    rw [h3]
    unfold State.ctxWritten
    dsimp only
    refine ⟨?_, ?_, ?_, ?_, ?_, ?_, ?_, ?_, ?_⟩
    · intro ho; rw [ho, if_pos rfl]
    · intro ho; rw [ho, if_neg (by decide), if_pos rfl]
    · intro ho; rw [ho, if_neg (by decide), if_neg (by decide), if_neg (by decide), if_pos rfl]
    · intro ho; rw [ho, if_neg (by decide), if_neg (by decide), if_neg (by decide), if_neg (by decide), if_neg (by decide), if_pos rfl]
    · intro ho; rw [ho, if_neg (by decide), if_neg (by decide), if_neg (by decide), if_neg (by decide), if_neg (by decide), if_neg (by decide), if_pos rfl]
    · intro ho; rw [ho, if_neg (by decide), if_neg (by decide), if_neg (by decide), if_neg (by decide), if_neg (by decide), if_neg (by decide), if_neg (by decide), if_pos rfl]
    · intro ho; rw [ho, if_neg (by decide), if_neg (by decide), if_neg (by decide), if_neg (by decide), if_neg (by decide), if_neg (by decide), if_neg (by decide), if_neg (by decide), if_neg (by decide), if_pos rfl]
    · intro ho; rw [ho, if_neg (by decide), if_neg (by decide), if_neg (by decide), if_neg (by decide), if_neg (by decide), if_neg (by decide), if_neg (by decide), if_neg (by decide), if_neg (by decide), if_neg (by decide), if_pos rfl]
    · intro ho; rw [ho, if_neg (by decide), if_neg (by decide), if_neg (by decide), if_neg (by decide), if_neg (by decide), if_neg (by decide), if_neg (by decide), if_neg (by decide), if_neg (by decide), if_neg (by decide), if_neg (by decide), if_neg (by decide), if_pos rfl]
  | other => rfl

theorem writeControl_follows (pa n : Nat) (v : Dword) (s : State) : registerRule (regOf pa) (s.written pa n v) s (s.writeControl pa n v) := by
  unfold State.writeControl
  exact writeReg_follows ..

theorem failNet_fails (s : State) (x : Net) (c : Nat) : Fails x c s (s.failNet x c) := by
  unfold Fails
  split
  · rename_i ow _ ha
    unfold State.failNet
    rw [ha]
    exact answered ..
  · rename_i hn; exact failNet_failed s x c hn

theorem failNet_fold (c : Nat) (xs : List Net) (s : State) : FailEach c xs s (xs.foldl (fun s x => s.failNet x c) s) := by
  induction xs generalizing s with
  | nil => rfl
  | cons x xs ih => exact ⟨_, failNet_fails s x c, ih _⟩

theorem failItem_fold (c : Nat) (os : List Outstanding) (s : State) : FailEach c (os.map (·.item)) s (os.foldl (fun s o => s.failNet o.item c) s) := by
  have h := failNet_fold c (os.map (·.item)) s
  rw [List.foldl_map] at h
  exact h

theorem hubSend_leaves (s : State) (m : Out) : Leaves m s (s.hubSend m) := ⟨⟨s.nextId, s.now, m⟩, rfl, rfl, rfl⟩

theorem inbound_enters (s : State) (port tag op ctx va pa : Nat) (act : Act) : Enters port tag op ctx va pa act s (s.inbound port tag op ctx va pa act) := by
  unfold State.inbound
  obtain ⟨d1, d2, hdr⟩ : ∃ d1 d2, (draw s).2 = { s with draws := d1, serial := d2 } := ⟨_, _, draw_next s⟩
  unfold State.send
  generalize draw s = d at hdr
  obtain ⟨k, u⟩ := d
  dsimp only at hdr
  subst hdr
  dsimp only [fresh]
  refine ⟨_, rfl, rfl, rfl, rfl, rfl, rfl, rfl, rfl, rfl, ?_⟩
  exact Nat.le_trans (Nat.le_add_right _ _) (Nat.le_max_left _ _)

theorem take_eq (s : State) (port tag : Nat) : s.take port tag = (s.outstanding? port tag).map fun o => (o, s.settledTag port tag) := rfl

theorem slewToward_slews (s : State) (n : Nat) : SlewsToward n s (s.slewToward n) := by
  obtain ⟨d, u, d1, d2, hd, hu⟩ : ∃ d u d1 d2, draw s = (d, u) ∧ u = { s with draws := d1, serial := d2 } := ⟨_, _, _, _, rfl, draw_next s⟩
  unfold State.slewToward
  rw [hd]
  subst hu
  show SlewsToward n s (State.slewTo _ (if n = s.deviceTime then 0 else if s.deviceTime < n then ((d % 101 : Nat) : Int) else -((d % 101 : Nat) : Int)))
  have : d % 101 < 101 := Nat.mod_lt _ (by decide)
  refine ⟨_, ?_, ?_, ?_, ?_, rfl⟩
  all_goals (repeat' split) <;> omega

theorem deviceTime_now (s : State) (c : Clock) : ({ s with hub := { s.hub with clock := { c with atCycle := s.now } } } : State).deviceTime = c.devBase := by
  unfold State.deviceTime
  dsimp only
  rw [Nat.sub_self]
  simp

theorem tell_fold (cause : Nat) (cs : List Ctx) (s : State) :
    TellEach cause cs s (cs.foldl (fun s c => ({ s with serial := s.serial + 1 } : State).contextRecord c.id cause (Config.freeValue s.serial).toNat) s) := by
  induction cs generalizing s with
  | nil => rfl
  | cons c cs ih => exact ⟨_, _, ih _⟩

theorem powerGrant_fold (ts : List Nat) (v : State) (f : State → Nat → State)
    (hf : ∀ s t, ∃ w d1 d2, f s t = { s with hub := { s.hub with power := { s.hub.power with withheld := fput 0 s.hub.power.withheld t w } }, draws := d1, serial := d2 } ∧ w < s.now + 3200) :
    (ts.foldl f v).hub.power.grants = v.hub.power.grants ∧
    (∀ t, fget 0 (ts.foldl f v).hub.power.withheld t = fget 0 v.hub.power.withheld t ∨ fget 0 (ts.foldl f v).hub.power.withheld t < v.now + 3200) ∧
      ts.foldl f v = { v with hub := { v.hub with power := { v.hub.power with withheld := (ts.foldl f v).hub.power.withheld } }, draws := (ts.foldl f v).draws, serial := (ts.foldl f v).serial } := by
  induction ts generalizing v with
  | nil => exact ⟨rfl, fun _ => Or.inl rfl, rfl⟩
  | cons t ts ih =>
    obtain ⟨w, d1, d2, h, hw⟩ := hf v t
    rw [List.foldl_cons]
    obtain ⟨i1, i2, i3⟩ := ih (f v t)
    refine ⟨by rw [i1, h], ?_, ?_⟩
    · intro k
      rcases i2 k with e | e
      · rw [e, h]
        dsimp only
        rw [fget_fput]
        split
        · exact Or.inr hw
        · exact Or.inl rfl
      · rw [h] at e
        rw [h]
        exact Or.inr e
    · rw [i3, h]

theorem find_map_where (f : Proc → Proc) (ctx k : Nat) (hf : ∀ p, (f p).ctx = p.ctx) (ps : List Proc) :
    ((modifyWhere (fun p => p.ctx == ctx) f ps).find? fun p => p.ctx == k) = if k = ctx then (ps.find? fun p => p.ctx == ctx).map f else ps.find? fun p => p.ctx == k := by
  unfold modifyWhere
  rw [List.find?_map]
  have e : ((fun p : Proc => p.ctx == k) ∘ fun x => if (fun p : Proc => p.ctx == ctx) x = true then f x else x) = fun p => p.ctx == k := by
    funext p
    dsimp only [Function.comp]
    split
    · rw [hf]
    · rfl
  rw [e]
  split
  · rename_i hk
    subst hk
    cases h : ps.find? fun p => p.ctx == k with
    | none => rfl
    | some p =>
      have := List.find?_some h
      rw [Option.map_some, Option.map_some, if_pos this]
  · rename_i hk
    cases h : ps.find? fun p => p.ctx == k with
    | none => rfl
    | some p =>
      have := List.find?_some h
      rw [Option.map_some, if_neg]
      simp at this ⊢
      rw [this]; exact hk

theorem modProc_changes (s : State) (ctx : Nat) (f : Proc → Proc) (hf : ∀ p, (f p).ctx = p.ctx) : ProcChanges ctx f s (s.modProc ctx f) := by
  unfold State.modProc
  split
  · rename_i h
    refine ⟨?_, ?_, rfl⟩
    · unfold State.proc
      dsimp only
      rw [find_map_where f ctx ctx hf, if_pos rfl]
      obtain ⟨p, hp⟩ := Option.isSome_iff_exists.1 (List.find?_isSome.2 (by simpa using h) : (s.hub.procs.find? fun p => p.ctx == ctx).isSome = true)
      rw [hp]; rfl
    · intro k hk
      unfold State.proc
      dsimp only
      rw [find_map_where f ctx k hf, if_neg hk]
  · rename_i h
    have hn : (s.hub.procs.find? fun p => p.ctx == ctx) = none := by
      rw [List.find?_eq_none]
      intro p hp
      rw [Bool.not_eq_true, List.any_eq_false] at h
      exact h p hp
    refine ⟨?_, ?_, rfl⟩
    · unfold State.proc
      dsimp only
      rw [List.find?_append, hn, Option.none_or, List.find?_cons_of_pos (by simp [hf, Proc.blank])]
      rfl
    · intro k hk
      unfold State.proc
      dsimp only
      rw [List.find?_append, List.find?_cons_of_neg (by simp [hf, Proc.blank]; exact fun e => hk e.symm)]
      simp

theorem commit_commits (s : State) (ctx q : Nat) (r : Int) : Commits ctx q r s (s.commit ctx q r) := by
  obtain ⟨h1, h2, h3⟩ := modProc_changes s ctx (fun p => p.commit q (BitVec.ofInt 64 r)) (fun p => by unfold Proc.commit; split; split <;> rfl; rfl)
  refine ⟨?_, ?_, ?_, h2, h3⟩
  · intro h
    show ((s.modProc ctx _).proc ctx).recorded q = _
    rw [h1]
    generalize s.proc ctx = p at h
    unfold Proc.recorded at h ⊢
    rw [Option.map_eq_none_iff, List.find?_eq_none] at h
    unfold Proc.commit
    split
    · rename_i hc
      split
      · dsimp only
        rw [List.find?_append, List.find?_eq_none.2 fun x hx => h x (by rw [hc]; exact List.mem_cons_of_mem _ hx)]
        simp
      · dsimp only
        rw [List.find?_append, List.find?_eq_none.2 h]
        simp
    · simp
  · intro hl k hk
    show ((s.modProc ctx _).proc ctx).recorded k = _
    rw [h1]
    generalize s.proc ctx = p at hl
    unfold Proc.recorded Proc.commit
    split
    · rename_i hc
      rw [if_neg (by unfold cacheSize; omega)]
      dsimp only
      rw [List.find?_append, List.find?_cons_of_neg (by simp; exact fun e => hk e.symm)]
      simp
    · rename_i hc
      dsimp only
      rw [hc, List.find?_cons_of_neg (by simp; exact fun e => hk e.symm)]
  · have e : (s.commit ctx q r).proc ctx = (s.proc ctx).commit q (BitVec.ofInt 64 r) := h1
    rw [e]
    unfold Proc.commit
    split
    · split <;> rfl
    · rfl

theorem call_serves (s : State) (ctx : Nat) (id : Dword) (once : Bool) (f : State → Int × State) (perform : Int → State → Prop) (h : perform (f s).1 (f s).2) :
    Serves ctx id once perform s (s.call ctx id once f) := by
  unfold Serves State.call State.callResult
  dsimp only
  by_cases h1 : (s.proc ctx).ended.isSome = true ∨ (s.proc ctx).frozen = true
  · rw [if_pos h1, if_pos (by simpa using h1)]
  rw [if_neg h1, if_neg (show ¬ ((s.proc ctx).ended.isSome || (s.proc ctx).frozen) = true by simpa using h1)]
  split
  · split
    · rfl
    · exact ⟨_, _, h, rfl⟩
  split
  · rename_i hw; first | exact rfl | (rw [hw]; exact rfl)
  rename_i hw; try rw [hw]
  dsimp only
  split
  · split
    · rfl
    · exact ⟨_, commit_commits .., rfl⟩
  · exact ⟨_, _, _, h, commit_commits .., rfl⟩

theorem endQueues_fold (hs : List Word) (s : State) :
    EndQueues hs s (hs.foldl (fun s h => if handleKind h = 0 then s.modQueue (handleTile h) (handleEntry h) fun q => { q with valid := false } else s) s) := by
  induction hs generalizing s with
  | nil => rfl
  | cons x xs ih => exact ih _

theorem unmap_fold (root : Nat) (f : Nat → Nat) (is : List Nat) (s : State) :
    UnmapEach root (is.map f) s (is.foldl (fun s i => match entryOf s.mem (f i) 3 root with
      | some at_ => s.setPte at_ 0
      | none => s) s) := by
  induction is generalizing s with
  | nil => rfl
  | cons i is ih =>
    refine ⟨_, ?_, ih _⟩
    dsimp only
    cases entryOf s.mem (f i) 3 root with
    | none => rfl
    | some a => exact stored ..

theorem tableFor_entry (s : State) (va : Nat) (level table e : Nat) (fs : List Nat) (h : entryOf s.mem va level table = some e) : s.tableFor va level table fs = some (e, fs, s) := by
  induction level generalizing table with
  | zero => cases h; rfl
  | succ n ih =>
    unfold entryOf at h
    dsimp only at h
    split at h
    · rename_i hc
      unfold State.tableFor
      dsimp only
      rw [Bool.and_eq_true] at hc
      rw [if_pos hc.1, if_neg (by simpa using hc.2)]
      exact ih _ h
    · cases h

theorem all_keys {s : State} {ctx va len : Nat} : ((List.range len).any fun i => (s.keyOf Config.tiles ctx (va + i)).isNone) = false ↔ ∀ i < len, (s.keyOf Config.tiles ctx (va + i)).isSome := by
  rw [List.any_eq_false]
  constructor
  · intro h i hi
    have := h i (List.mem_range.2 hi)
    rw [Bool.not_eq_true, Option.isNone_eq_false_iff] at this
    exact this
  · intro h i hi
    rw [Bool.not_eq_true, Option.isNone_eq_false_iff]
    exact h i (List.mem_range.1 hi)

end Sys2Proof.Machine
end

