-- ==== Sys2Proof/Laws/Traps.lean ====
section
/-! SUPPORT. Taking a trap, said once. -/

namespace Sys2Proof.Machine

/-- What giving words back to queues leaves alone. -/
structure QueueOnly (s t : State) : Prop where
  rest : t = { s with tables := { s.tables with queues := t.tables.queues }, hub := { s.hub with threads := t.hub.threads }, ctxs := t.ctxs }

theorem QueueOnly.refl (s : State) : QueueOnly s s := ⟨rfl⟩
theorem QueueOnly.trans {a b c : State} (h : QueueOnly a b) (k : QueueOnly b c) : QueueOnly a c := by
  refine ⟨?_⟩
  have x := k.rest
  rw [h.rest] at x
  exact x

theorem queueOnly_voidPush (s : State) (c : Nat) (h : Word) (slots : List Nat) : QueueOnly s (s.voidPush c h slots) := by
  unfold State.voidPush
  split <;> exact ⟨rfl⟩

theorem queueOnly_dropGrants (s : State) (t : Team) : QueueOnly s (s.dropGrants t) := by
  unfold State.dropGrants
  refine foldl_keeps (fun x => QueueOnly s x) _ (fun x p h => ?_) _ _ (QueueOnly.refl s)
  obtain ⟨key, slots⟩ := p
  dsimp only
  split
  · exact h
  · split
    · exact h.trans (queueOnly_voidPush ..)
    · exact h.trans ⟨rfl⟩

theorem find_map_range (w l : Nat) (hl : l < w) (f : Nat → Dword) :
    (((List.range w).map fun k => (k, f k)).find? (·.1 == l)).map (·.2) = some (f l) := by
  have : ((List.range w).map fun k => (k, f k)).find? (·.1 == l) = some (l, f l) := by
    rw [List.find?_map]
    have h : (List.range w).find? ((fun x : Nat × Dword => x.1 == l) ∘ fun k => (k, f k)) = some l := by
      have h1 : l ∈ List.range w := List.mem_range.2 hl
      cases hf : (List.range w).find? ((fun x : Nat × Dword => x.1 == l) ∘ fun k => (k, f k)) with
      | none => exact absurd (List.find?_eq_none.1 hf l h1) (by simp)
      | some k => have := List.find?_some hf; simp at this; rw [this]
    rw [h]; rfl
  rw [this]; rfl

/-- The values a trap keeps are those its cause gives. -/
theorem tvals_given (s : State) (w : Nat) (i : TrapInfo) (l : Nat) (hl : l < w) (v : Dword) (h : (i.tval.find? (·.1 == l)).map (·.2) = some v) :
    tvalOf (s.tvals w i).1 l = v := by
  unfold State.tvals tvalOf
  split
  · simp [h]
  · dsimp only
    rw [find_map_range w l hl]
    cases hf : i.tval.find? (·.1 == l) with
    | none => rw [hf] at h; cases h
    | some x => rw [hf] at h; simpa using h

theorem tvals_state (s : State) (w : Nat) (i : TrapInfo) : (s.tvals w i).2 = { s with serial := (s.tvals w i).2.serial } := by
  unfold State.tvals; split <;> rfl

theorem takeTrap_taken (s : State) (i : TrapInfo) (gpc : BitVec 48) (hu : s.cur.id.uid ≠ 0) (hp : i.pc = gpc) (ht : i.time = s.now) :
    TrapTaken s (s.takeTrap s.cur.id.uid gpc i) i.cause i.mask i.tval gpc i.resumePc i.word i.sysc ∧
      (s.takeTrap s.cur.id.uid gpc i).cur.sched.issues = s.cur.sched.issues := by
  have hteam : s.team? s.cur.id.uid = some s.cur := by simp [State.team?, hu]
  unfold State.takeTrap
  rw [hteam]
  dsimp only
  have hs := tvals_state s s.cur.width i
  have hv := tvals_given s s.cur.width i
  generalize (s.tvals s.cur.width i) = p at hs hv
  obtain ⟨tv, s2⟩ := p
  dsimp only at hs hv ⊢
  have hq := (queueOnly_dropGrants { s2 with nextId := s2.nextId + 1 } s.cur).rest
  have hf : (fresh s2) = (s2.nextId, { s2 with nextId := s2.nextId + 1 }) := rfl
  rw [hf]
  dsimp only
  generalize State.dropGrants { s2 with nextId := s2.nextId + 1 } s.cur = s3 at hq ⊢
  rw [hs] at hq
  dsimp only at hq
  have hm : ∀ (b : List Held) (f : Team → Team), State.modTeam { s3 with coolbox := b } s.cur.id.uid f = { s3 with coolbox := b, cur := f s3.cur } := by
    intro b f
    unfold State.modTeam
    rw [if_pos (by rw [hq])]
  rw [hm]
  have c1 : s3.cur = s.cur := by rw [hq]
  have c2 : s3.coolbox = s.coolbox := by rw [hq]
  refine ⟨?_, by dsimp only; rw [c1]⟩
  refine ⟨rfl, ⟨_, rfl, rfl, rfl, hp, ht, rfl, rfl, rfl, fun l hl v hx => hv l hl v hx⟩, ⟨⟨s2.nextId, s.cur.id.tile, s.cur.id.side, s.cur.id.uid, s.cur.id.ctx, i.time, i.pc, i.word, i.mask, i.time, 3,
      .trap (trapRecord s.cur i.cause i.pc i.time i.word i.mask (tvalOf tv ((lanesOf s.cur.width i.mask).headD 0)) i.shadow)⟩, _, ?_, rfl, ht, rfl, hp, rfl, rfl⟩, ⟨?_, ?_, ?_, ?_, ?_, ?_, ?_⟩, ?_, ?_, ?_, ?_⟩
  · dsimp only; rw [c2]
  all_goals first | (dsimp only; rw [c1]) | (dsimp only; rw [hq])

/-! ### The current group depends on a team's groups, lanes and issue account -/

theorem groupDepth_congr {t u : Team} (ha : t.arch = u.arch) (hi : t.id = u.id) (g : Group) : t.groupDepth g = u.groupDepth g := by
  unfold Team.groupDepth Team.width Team.lane
  rw [ha, hi]

theorem choose_congr {t u : Team} (ha : t.arch = u.arch) (hi : t.id = u.id) (gs : List Group) : t.choose gs = u.choose gs := by
  induction gs with
  | nil => rfl
  | cons g gs ih =>
    unfold Team.choose
    rw [ih]
    unfold Team.prefers
    simp only [groupDepth_congr ha hi]

theorem current_congr {t u : Team} (ha : t.arch = u.arch) (hi : t.id = u.id) (hs : t.sched = u.sched) : t.current = u.current := by
  unfold Team.current Team.starved Team.freeGroups Team.inSequence Team.allGroups
  rw [ha, hs]
  simp only [choose_congr ha hi]

theorem Prepared.current {i : Instr} {s s1 : State} {o : Issue} (h : Prepared i s o s1) : s1.cur.current = some o.g := by
  rw [← h.group]
  exact current_congr (by rw [h.reserves.cur]) (by rw [h.reserves.cur]) (by rw [h.reserves.cur])

/-- Past a trap, outside a REP and a macro, is the next instruction. -/
theorem trapInfo_resume (o : TrapInfo) (s : State) (g : Group) (w : Word) (hr : s.cur.arch.rep = none) (hm : s.cur.arch.mac = none) :
    (trapInfo o s g w true).resumePc = g.pc + BitVec.ofNat 48 (4 * (1 + litCount w)) := by
  simp [trapInfo, hr, hm]

/-- An instruction that traps, by its own effect or before it. -/
theorem conclude_trap {i : Instr} {s : State} {g : Group} {w : Word} (o : Option Issue) (c : Nat) (m : LaneMask) (tv : List (Nat × Dword)) (next : Bool)
    (sysc : Option Reg) (hg : s.cur.current = some g) (hw : encodeWord i = some w) (hu : s.cur.id.uid ≠ 0) :
    ∃ r, TrapTaken s (conclude i s o (.trap c m tv next sysc)) c m tv g.pc r w sysc ∧ (next = false → r = g.pc) ∧
      (next = true → s.cur.arch.rep = none → s.cur.arch.mac = none → r = g.pc + BitVec.ofNat 48 (4 * (1 + litCount w))) ∧
      (next = true → (conclude i s o (.trap c m tv next sysc)).cur.sched.issues = s.cur.sched.issues + 1) := by
  unfold conclude
  rw [hg, hw]
  dsimp only [Option.getD_some]
  have ht := takeTrap_taken s (trapInfo ⟨c, m, tv, 0, false, 0, 0, 0, sysc, false⟩ s g w next) g.pc hu rfl rfl
  generalize State.takeTrap s s.cur.id.uid g.pc (trapInfo ⟨c, m, tv, 0, false, 0, 0, 0, sysc, false⟩ s g w next) = t at ht ⊢
  refine ⟨(trapInfo ⟨c, m, tv, 0, false, 0, 0, 0, sysc, false⟩ s g w next).resumePc, ?_, fun h => by subst h; rfl,
    fun h hr hm => by subst h; exact trapInfo_resume _ _ _ _ hr hm, fun h => by subst h; exact congrArg (· + 1) ht.2⟩
  obtain ⟨a1, a2, a3, a4, a5, a6⟩ := ht.1
  cases next
  · exact ⟨a1, a2, a3, a4, a5, a6⟩
  · exact ⟨a1, a2, a3, a4, a5, a6⟩

/-- Every instruction with a word is issued with its own effect, when no privileged issue is due. -/
theorem exec_issue {i : Instr} {w : Word} (h : encodeWord i = some w) : ∃ body, ∀ s, s.privReady = none → exec i s = issue i body s := by
  cases i <;> first
    | exact ⟨_, fun s _ => rfl⟩
    | (simp only [encodeWord, reduceCtorEq] at h; done)
    | exact ⟨fun o s => o.plain s, fun s hs => by simp only [exec, execTlbinv, execWcs, hs]⟩

/-! ### Rollback -/

/-- What discarding an effect may change of its team: frames, copies and batches, and whether an overflow entry is written. -/
structure Undoes (s t : State) : Prop where
  coolbox : t.coolbox = s.coolbox
  mem : t.mem = s.mem
  cur : t.cur = { s.cur with arch := t.cur.arch, score := t.cur.score, openBatch := t.cur.openBatch, tags := t.cur.tags, frames := t.cur.frames }

theorem Undoes.refl (s : State) : Undoes s s := ⟨rfl, rfl, rfl⟩
theorem Undoes.trans {a b c : State} (h : Undoes a b) (k : Undoes b c) : Undoes a c := by
  refine ⟨k.coolbox.trans h.coolbox, k.mem.trans h.mem, ?_⟩
  have x := k.cur; rw [h.cur] at x; exact x

theorem undoes_queue {s t : State} (h : QueueOnly s t) : Undoes s t := ⟨by rw [h.rest], by rw [h.rest], by rw [h.rest]⟩

theorem undoes_discardQueue (s : State) (e : Held) : Undoes s (s.discardQueue e) := by
  unfold State.discardQueue
  split
  · exact ⟨rfl, rfl, rfl⟩
  · exact undoes_queue (queueOnly_voidPush ..)
  · exact Undoes.refl s

theorem undoes_modTeam (s : State) (uid : Nat) (f : Team → Team)
    (hf : ∀ t : Team, f t = { t with arch := (f t).arch, score := (f t).score, openBatch := (f t).openBatch, tags := (f t).tags, frames := (f t).frames }) :
    Undoes s (s.modTeam uid f) := by
  unfold State.modTeam
  split
  · exact ⟨rfl, rfl, hf s.cur⟩
  · exact ⟨rfl, rfl, rfl⟩

theorem undoes_discardWork (s : State) (e : Held) : Undoes s (s.discardWork e) := by
  unfold State.discardWork
  split
  · exact ⟨rfl, rfl, rfl⟩
  · exact ⟨rfl, rfl, rfl⟩
  · rename_i cids _
    exact Undoes.trans (b := { s with copies := s.copies.filter fun c => !cids.contains c.cid }) ⟨rfl, rfl, rfl⟩ (undoes_modTeam _ _ _ fun t => rfl)
  · exact ⟨rfl, rfl, rfl⟩
  · exact undoes_modTeam _ _ _ fun t => rfl
  · exact undoes_modTeam _ _ _ fun t => rfl
  · exact Undoes.refl s

theorem undoes_voidFaults (s : State) (uid : Nat) : Undoes s (s.voidFaults uid) := ⟨rfl, rfl, rfl⟩

theorem discard_eq (s : State) (p : Held → Bool) :
    (s.discard p).coolbox = s.coolbox.filter (fun e => !p e) ∧ (s.discard p).mem = s.mem ∧
    (s.discard p).cur = { s.cur with arch := (s.discard p).cur.arch, score := (s.discard p).cur.score, openBatch := (s.discard p).cur.openBatch, tags := (s.discard p).cur.tags,
                                     frames := (s.discard p).cur.frames } := by
  have h : Undoes s ((s.coolbox.filter p).reverse.foldl (fun s e => (s.discardQueue e).discardWork e) s) :=
    foldl_keeps (fun x => Undoes s x) _ (fun x e h => h.trans ((undoes_discardQueue x e).trans (undoes_discardWork _ e))) _ _ (Undoes.refl s)
  unfold State.discard
  dsimp only
  generalize (s.coolbox.filter p).reverse.foldl (fun s e => (s.discardQueue e).discardWork e) s = u at h ⊢
  exact ⟨by rw [h.coolbox], h.mem, h.cur⟩

theorem queueOnly_dropPends (s : State) (t : Team) (ps : List Pend) : QueueOnly s (s.dropPends t ps) := by
  unfold State.dropPends
  refine foldl_keeps (fun x => QueueOnly s x) _ (fun x p h => ?_) _ _ (QueueOnly.refl s)
  split
  · split
    · exact h
    · exact h.trans (queueOnly_voidPush ..)
  · exact h

theorem undoBatches_eq (t : Team) (c : Nat) : t.undoBatches c =
    { t with openBatch := (t.undoBatches c).openBatch, tags := (t.undoBatches c).tags, batchLog := (t.undoBatches c).batchLog } := by
  have h : ∀ (bs : List BatchLog) (u : Team), u = { t with openBatch := u.openBatch, tags := u.tags } →
      let v := bs.foldl (fun t (b : BatchLog) =>
        if b.sealing then { t with openBatch := t.openBatch ++ (t.tags.filter (·.1 == b.tag)).flatMap (·.2), tags := t.tags.filter (·.1 != b.tag) }
        else { t with tags := (b.tag, b.copies) :: t.tags.filter (·.1 != b.tag) }) u
      v = { t with openBatch := v.openBatch, tags := v.tags } := by
    intro bs u hu
    refine foldl_keeps (fun (v : Team) => v = { t with openBatch := v.openBatch, tags := v.tags }) _ (fun v b hv => ?_) _ _ hu
    split
    · rw [hv]
    · rw [hv]
  have := h (t.batchLog.filter fun b => decide (c < b.time)) t rfl
  unfold Team.undoBatches
  dsimp only at this ⊢
  generalize (t.batchLog.filter fun b => decide (c < b.time)).foldl _ t = v at this ⊢
  rw [this]

/-- A consumed poison or a mismatch rolls the team back to its latest checkpoint, the first time (R190). -/
theorem rollback_rolls (s : State) (gpc : BitVec 48) (i : TrapInfo) (c : Ckpt) (cs : List Ckpt) (hu : s.cur.id.uid ≠ 0) (hc : s.cur.ckpts = c :: cs)
    (hr : c.retried = false) : RolledBack s (rollbackOrTrap s s.cur.id.uid gpc i) c i.cause := by
  have hteam : s.team? s.cur.id.uid = some s.cur := by simp [State.team?, hu]
  unfold rollbackOrTrap
  rw [hteam]
  dsimp only
  rw [hc]
  dsimp only [List.head?_cons]
  rw [hr]
  have h1 := (undoes_queue ((queueOnly_dropGrants s s.cur).trans (queueOnly_dropPends _ s.cur (s.cur.undone c)))).trans
    (undoes_voidFaults _ s.cur.id.uid)
  generalize ((s.dropGrants s.cur).dropPends s.cur (s.cur.undone c)).voidFaults s.cur.id.uid = s2 at h1 ⊢
  have h2 := discard_eq s2 fun e => e.uid == s.cur.id.uid && decide (c.time < e.issue)
  generalize (s2.discard fun e => e.uid == s.cur.id.uid && decide (c.time < e.issue)) = s3 at h2 ⊢
  obtain ⟨a1, a2, a3⟩ := h2
  have hid : s3.cur.id = s.cur.id := by rw [a3, h1.cur]
  have hm : (s3.modTeam s.cur.id.uid fun t => t.restore c i.cause) = { s3 with cur := s3.cur.restore c i.cause } := by
    unfold State.modTeam; rw [if_pos (by rw [hid])]
  simp only [Bool.false_eq_true, if_false]
  rw [hm]
  have hb := undoBatches_eq s3.cur c.time
  have e1 : (s3.cur.undoBatches c.time).ckpts = s.cur.ckpts := by rw [hb, a3, h1.cur]
  have e2 : (s3.cur.undoBatches c.time).sys = s.cur.sys := by rw [hb, a3, h1.cur]
  have e3 : (s3.cur.undoBatches c.time).pend = s.cur.pend := by rw [hb, a3, h1.cur]
  refine ⟨⟨rfl, ?_⟩, rfl, by dsimp only; rw [a1, h1.coolbox], ?_, ?_, ⟨?_, rfl⟩, a2.trans h1.mem⟩
  · show (c.arch.moved.map fun m => { m with stored := false }).map (·.group) = _
    rw [List.map_map]; rfl
  · show ({ c with retried := true } :: (s3.cur.undoBatches c.time).ckpts.filter fun k => decide (k.id < c.id)) = _
    rw [e1]
  · show ((s3.cur.undoBatches c.time).pend.filter fun p => p.ckpt == some c.id).map (fun p => { p with raised := false }) = _
    rw [e3]
  · show (if (s3.cur.undoBatches c.time).sys.retry = 0xFFFF then (0xFFFF : BitVec 16) else (s3.cur.undoBatches c.time).sys.retry + 1) = _
    rw [e2]

end Sys2Proof.Machine
end

