-- ==== Sys2Proof/Laws/EffectsIssue.lean ====
section
/-! SUPPORT. What the shared operations of an issue do: accesses, holds, copies, commands, fences. -/

namespace Sys2Proof.Machine

theorem complete_requests {i : Instr} {s s1 u : State} {o : Issue} {body : Issue → State → Res} {r : HeldRule} {e : End}
    (h : prepare i s = .ok (o, s1)) (hb : body o s1 = .done u e) (he : e.onward ∧ e.sig = none) (hr : Requests o s1 u r) :
    ∃ u t, issue i body s = .next t ∧ Requests o s1 u r ∧ Completes o u t := by
  obtain ⟨t, h1, h2⟩ := issue_completes h hb he.1 he.2
  exact ⟨u, t, h1, hr, h2⟩

theorem access_ends (o : Issue) (s : State) (xs : List Access1) (need : Need) (c n : Nat) (k : Bool) :
    ∃ e, o.access s xs [] need c n k = .done s e ∧ e.onward ∧ e.sig = none := ⟨_, rfl, ⟨rfl, rfl, rfl⟩, rfl⟩

theorem complete_access {i : Instr} {s s1 u : State} {o : Issue} {body : Issue → State → Res} {r : HeldRule} 
    (h : prepare i s = .ok (o, s1)) (hb : ∃ xs need c n k, body o s1 = o.access u xs [] need c n k) (hr : Requests o s1 u r) :
    ∃ u t, issue i body s = .next t ∧ Requests o s1 u r ∧ Completes o u t := by
  obtain ⟨_, _, _, _, _, hb⟩ := hb
  exact complete_requests h hb ⟨⟨rfl, rfl, rfl⟩, rfl⟩ hr

theorem store_requests {o : Issue} {s : State} {eas : List (Nat × PVal)} {n : Nat} {noEf : Bool} {data : Nat → List (Byte × Bool)} {xs : List Access1}
    (hp : (plainAccess o eas n 28 { Need.w with noEf := noEf } fun xs => o.unitsFor xs.length n).passes s xs) :
    ∃ u e, o.store s eas n noEf data = .done u e ∧ (e.onward ∧ e.sig = none) ∧
      Requests o s u ⟨o.unitsFor xs.length n, fun _ => .write (xs.map fun x => ⟨x.lane, x.ea, (data x.lane).take n⟩) false, none⟩ := by
  have hc : o.check s eas n n 28 { Need.w with noEf := noEf } none (fun _ => none) = .ok xs [] := hp.check
  have hw : o.accessWaits s (xs.map id) n (o.unitsFor xs.length n) = none := hp.waits
  rw [List.map_id] at hw
  unfold Issue.store
  simp only [hc, hw, isEmpty_of_ne hp.some, Bool.false_eq_true, if_false]
  exact ⟨_, _, rfl, ⟨⟨rfl, rfl, rfl⟩, rfl⟩, requests_hold (fills_accesses ..) _ _⟩

theorem atomic_requests {o : Issue} {s : State} {eas : List (Nat × PVal)} {align w bytes width : Nat} {last : Nat → Option Nat} {eff : Option Nat → List Access1 → Effect}
    {xs : List Access1} (ho : o.t.id.uid = s.cur.id.uid) (hx : xs ≠ []) (hc : o.check s eas w align 56 Need.rw none last = .ok xs [])
    (hw : o.accessWaits s (xs.map fun x => if align = 1 then { x with ea := x.ea / 64 * 64 } else x) (if align = 1 then 64 else w) (o.unitsFor xs.length bytes) = none) :
    ∃ u e, o.atomic s eas align w bytes last (some width) eff = .done u e ∧ (e.onward ∧ e.sig = none) ∧
      Requests o s u ⟨o.unitsFor xs.length bytes, fun pid => eff (some pid) xs, some (o.atomDests (xs.map (·.lane)) width)⟩ := by
  unfold Issue.atomic
  simp only [hc, hw, isEmpty_of_ne hx, Bool.false_eq_true, if_false]
  exact ⟨_, _, rfl, ⟨⟨rfl, rfl, rfl⟩, rfl⟩, requests_pend ho ((fills_accesses ..).drawn.spread _) _ _
    (by rw [((fills_accesses ..).drawn.spread _).now] <;> exact Nat.le_refl _) (fun pid => eff (some pid) xs) (spread_place ..) _ _ _ _ fun p => rfl⟩

theorem aligned_requests {o : Issue} {s : State} {eas : List (Nat × PVal)} {w bytes width : Nat} {last : Nat → Option Nat} {eff : Option Nat → List Access1 → Effect}
    {xs : List Access1} (ho : o.t.id.uid = s.cur.id.uid) (hx : xs ≠ []) (h1 : w ≠ 1) (hc : o.check s eas w w 56 Need.rw none last = .ok xs [])
    (hw : o.accessWaits s (xs.map id) w (o.unitsFor xs.length bytes) = none) :
    ∃ u e, o.atomic s eas w w bytes last (some width) eff = .done u e ∧ (e.onward ∧ e.sig = none) ∧
      Requests o s u ⟨o.unitsFor xs.length bytes, fun pid => eff (some pid) xs, some (o.atomDests (xs.map (·.lane)) width)⟩ :=
  atomic_requests ho hx hc (by simp only [h1, if_false]; exact hw)

theorem ared_requests {o : Issue} {s : State} {eas : List (Nat × PVal)} {w bytes : Nat} {last : Nat → Option Nat} {eff : Option Nat → List Access1 → Effect}
    {xs : List Access1} (h1 : w ≠ 1) (hx : xs ≠ []) (hc : o.check s eas w w 56 Need.rw none last = .ok xs [])
    (hw : o.accessWaits s (xs.map id) w (o.unitsFor xs.length bytes) = none) :
    ∃ u e, o.atomic s eas w w bytes last none eff = .done u e ∧ (e.onward ∧ e.sig = none) ∧
      Requests o s u ⟨o.unitsFor xs.length bytes, fun _ => eff none xs, none⟩ := by
  rw [List.map_id] at hw
  unfold Issue.atomic
  simp only [hc, h1, if_false, List.map_id', hw, isEmpty_of_ne hx, Bool.false_eq_true]
  exact ⟨_, _, rfl, ⟨⟨rfl, rfl, rfl⟩, rfl⟩, requests_hold (fills_accesses ..) _ _⟩

theorem modifyWhere_id {α : Type} (p : α → Bool) (l : List α) : modifyWhere p id l = l := by simp [modifyWhere]

theorem modifyLast_id {α : Type} (p : α → Bool) (l : List α) : modifyLast p id l = l := by
  induction l with
  | nil => rfl
  | cons x l ih => simp [modifyLast, ih]

theorem modTeam_id (s : State) (u : Nat) : s.modTeam u (fun t => t) = s := by
  have : (fun t : Team => t) = id := rfl
  simp [State.modTeam, this, modifyWhere_id]

theorem modPend_id (s : State) (u p : Nat) : s.modPend u p id = s := by
  simp only [State.modPend, modifyLast_id]
  exact modTeam_id s u

/-- A held load of an effectful page supplies no byte. -/
theorem heldByte_efload {s t : State} {h : Held} (hc : t.coolbox = s.coolbox ++ [h]) {pid sg l} (he : h.eff = .efload pid sg l) (uid k : Nat) :
    t.heldByte uid k = s.heldByte uid k := by
  simp only [State.heldByte, hc, List.reverse_append, List.reverse_cons, List.reverse_nil, List.nil_append, List.singleton_append]
  conv => lhs; unfold firstSome
  simp [he]

theorem load_loads {o : Issue} {s : State} {eas : List (Nat × PVal)} {n : Nat} {signed noEf : Bool} {mark : Pend → Pend} {results : List Nat → List LaneResult}
    {xs : List Access1} (ho : o.t.id.uid = s.cur.id.uid) (hn : (eas.map (·.1)).Nodup)
    (hc : o.check s eas n n 28 { Need.r with noEf := noEf } none (fun _ => none) = .ok xs []) (hx : xs ≠ [])
    (hw : o.accessWaits s (xs.map id) n (o.unitsFor (xs.filter (·.ef)).length n) = none)
    (hm : ∀ p, mark p = { p with bcast := (mark p).bcast, fmt := (mark p).fmt, range := (mark p).range })
    (hb : ∀ p, (mark p).bcast = true → p.bcast = true ∨ eas.length ≤ 1) :
    ∃ u e, o.load s eas n signed noEf mark results = .done u e ∧ (e.onward ∧ e.sig = none) ∧
      Loads o s u ⟨n, signed, results (xs.map (·.lane))⟩ xs := by
  rw [List.map_id] at hw
  have hs : (xs.map (·.lane)).Sublist (eas.map (·.1)) := checkWith_lanes hc
  have hf := (fills_accesses o.t.id.tile o.t.id.ctx xs s).drawn
  unfold Issue.load
  simp only [hc, hw, isEmpty_of_ne hx, Bool.false_eq_true, if_false]
  generalize xs.foldl (fun s x => if isScratch x.ea then s else s.fillTlb o.t.id.tile o.t.id.ctx x.ea) s = s' at hf
  have hpl := spread_place (results (xs.map (·.lane))) s'
  have hd := hf.spread (results (xs.map (·.lane)))
  generalize spread s' (results (xs.map (·.lane))) = q at hpl hd
  obtain ⟨qs, v⟩ := q
  dsimp only at hpl hd ⊢
  refine ⟨_, _, rfl, ⟨⟨rfl, rfl, rfl⟩, rfl⟩, ?_⟩
  have hnd : (xs.map (·.lane)).Nodup := hs.nodup hn
  have hlen : xs.length ≤ eas.length := by simpa using hs.length_le
  have hany : xs.any (·.ef) = !(xs.filter (·.ef)).isEmpty := any_filter _ _
  -- the state in which the result pends, and the result itself
  obtain ⟨P, hP, hPp, hPi⟩ : ∃ P : Pend, (o.pend v qs (if (xs.filter (·.ef)).isEmpty then v.now + 1 else v.now + Config.Q) false false []).2.modPend o.t.id.uid
        (o.pend v qs (if (xs.filter (·.ef)).isEmpty then v.now + 1 else v.now + Config.Q) false false []).1 mark =
        { s with cur := { s.cur with pend := s.cur.pend ++ [P] }, mem := { s.mem with tlb := v.mem.tlb, table := v.mem.table }
                 draws := v.draws, serial := v.serial, nextId := s.nextId + 1 } ∧
      (P.bcast = true → eas.length ≤ 1) ∧ P.id = s.nextId ∧ P.results.map LaneResult.place = (results (xs.map (·.lane))).map LaneResult.place ∧ P.pc = o.g.pc ∧
      P.word = o.word ∧ P.issue = s.now ∧ P.issueNo = s.cur.sched.issues ∧ P.la = o.sh.la.getD 0 ∧ s.now + (if xs.any (·.ef) then Config.Q else 1) ≤ P.due := by
    have hv : v.cur = s.cur := by rw [hd.rest]
    have hnow : v.now = s.now := hd.now
    have hid : v.nextId = s.nextId := by rw [hd.rest]
    refine ⟨mark ⟨v.nextId, o.g.pc, o.word, v.now, v.cur.sched.issues, o.sh.la.getD 0, o.rd, if (xs.filter (·.ef)).isEmpty then v.now + 1 else v.now + Config.Q, none,
      false, false, qs.any (·.cc.isSome), false, o.uniform, maskOf o.act, false, 0, 0, [], [], none,
      if regKind o.rd = .port then o.pushSlots (qs.map (·.lane)) else [], [], qs⟩, ?_, ?_, ?_⟩
    · simp only [Issue.pend, fresh, State.modPend, State.modTeam, ho, hv, if_true]
      rw [modifyLast_append _ _ _ _ (by simp)]
      rw [hd.rest]
    · intro hh
      rcases hb _ hh with hh | hh
      · simp at hh
      · exact hh
    · rw [hm]
      refine ⟨hid, hpl, rfl, rfl, hnow, by rw [← hv], rfl, ?_⟩
      rw [hany]
      dsimp only
      cases (xs.filter (·.ef)).isEmpty <;> simp [hnow]
  have hid1 : (o.pend v qs (if (xs.filter (·.ef)).isEmpty then v.now + 1 else v.now + Config.Q) false false []).1 = P.id := by
    rw [hPi.1]; show v.nextId = _; rw [hd.rest]
  rw [hP, hid1]
  obtain ⟨i1, i2, i3, i4, i5, i6, i7, i8⟩ := hPi
  have hinj : ∀ x ∈ xs.filter (fun x => !x.ef), ∀ y ∈ xs.filter (fun x => !x.ef), (P.bcast = true ∨ x.lane = y.lane) → x = y := by
    intro x hx y hy he
    have hx := (List.mem_filter.1 hx).1
    have hy := (List.mem_filter.1 hy).1
    rcases he with he | he
    · have := Nat.le_trans hlen (hPp he)
      obtain ⟨i, hi, rfl⟩ := List.mem_iff_getElem.1 hx
      obtain ⟨j, hj, rfl⟩ := List.mem_iff_getElem.1 hy
      have e : i = j := by omega
      subst e; rfl
    · exact nodup_key_inj hnd hx hy he
  generalize hW : (if (xs.filter (·.ef)).isEmpty then _ else _ : State) = w
  have hw1 : w = { s with cur := { s.cur with pend := s.cur.pend ++ [P] }, coolbox := w.coolbox, mem := { s.mem with tlb := v.mem.tlb, table := v.mem.table }
                          draws := v.draws, serial := v.serial, nextId := w.nextId } := by
    rw [← hW]; split <;> rfl
  have hw2 : if xs.any (·.ef) then ∃ h : Held, w.coolbox = s.coolbox ++ [h] ∧
      h.eff = .efload s.nextId signed ((xs.filter (·.ef)).map fun x => (x.lane, x.ea, n)) ∧ h.issue = s.now ∧ h.uid = o.t.id.uid else w.coolbox = s.coolbox := by
    rw [hany, ← hW]
    cases (xs.filter (·.ef)).isEmpty with
    | true => simp
    | false =>
      simp only [Bool.not_false, if_true, Bool.false_eq_true, if_false]
      exact ⟨_, rfl, by rw [i1], rfl, rfl⟩
  have hw3 : ∀ uid k, w.heldByte uid k = s.heldByte uid k := by
    intro uid k
    split at hw2
    · obtain ⟨h, h1, h2, -⟩ := hw2
      exact heldByte_efload h1 h2 uid k
    · unfold State.heldByte; rw [hw2]
  have hw4 : ∀ x, o.ownLane w n x = o.ownLane s n x := by
    intro x
    unfold Issue.ownLane State.ownBytes State.releasing
    simp only [hw3]
    rw [hw1]
    rfl
  have hL := loads_fold (o := o) (s := w) (n := n) (signed := signed) (base := s.cur.pend) (p := P) (xs := xs.filter fun x => !x.ef) (by rw [hw1])
    (by rw [hw1]; exact ho) hinj
  generalize (byLine (xs.filter fun x => !x.ef)).foldl (fun s line => o.loadLine s P.id n signed line) w = u at hL ⊢
  obtain ⟨rs, h1, h2⟩ := hL.results
  have hur := hL.rest
  have hcb : u.coolbox = w.coolbox := by rw [hur]
  refine ⟨⟨{ P with results := rs }, h1, i1, h2.place.trans i2, i3, i4, i5, i6, i7, i8⟩, ?_, ?_, ?_, ?_⟩
  · rw [hcb]; exact hw2
  · intro x hx hxe
    have hm' : x ∈ xs.filter fun x => !x.ef := List.mem_filter.2 ⟨hx, by simp [hxe]⟩
    unfold Reads
    split
    · rename_i hl
      intro p hp r hr hrl
      rw [h1] at hp
      simp only [List.getLast?_append, List.getLast?_singleton, Option.some_or, Option.some.injEq] at hp
      subst hp
      have := h2.words x ⟨hm', by rw [hw4]; exact hl⟩ r hr (.inr hrl)
      unfold Issue.ownWords at this
      rw [hw4] at this
      exact this
    · rename_i hl
      obtain ⟨y, g1, ys, g2, g3, g4, g5, g6, g7⟩ := hL.asked x hm' (by rw [hw4]; simpa using hl)
      have hwn : w.now = s.now := by rw [hw1]
      exact ⟨y, g1, ys, by rw [g2, i1], by rw [← hw4]; exact g3, g4, g5, g6, hwn ▸ g7⟩
  · obtain ⟨ys, hy, -⟩ := hL.net
    rw [hy, hw1]
    exact List.prefix_append _ _
  · rw [hur, hw1]

theorem act_lanes_nodup {i : Instr} {s s1 : State} {o : Issue} (h : prepare i s = .ok (o, s1)) : o.act.Nodup ∧ o.lanes.Nodup := by
  have hp := prepared h
  have h1 : o.act.Nodup := by rw [hp.act]; exact activeLanes_nodup _ _ _
  refine ⟨h1, ?_⟩
  rw [hp.lanes]
  split
  · exact (List.take_sublist _ _).nodup h1
  · exact h1

theorem complete_loads {i : Instr} {s s1 u : State} {o : Issue} {body : Issue → State → Res} {r : LoadRule} {xs : List Access1} {e : End}
    (h : prepare i s = .ok (o, s1)) (hb : body o s1 = .done u e) (he : e.onward ∧ e.sig = none) (hr : Loads o s1 u r xs) :
    ∃ u t, issue i body s = .next t ∧ Loads o s1 u r xs ∧ Completes o u t := by
  obtain ⟨t, h1, h2⟩ := issue_completes h hb he.1 he.2
  exact ⟨u, t, h1, hr, h2⟩

/-- The read of an MX block with its scale, as the tile makes it. -/
def Issue.pairAct (o : Issue) (s : State) (pid n : Nat) (x : Access1) (lanes : List Nat) : Act :=
  .pair pid x.ea n ((List.range n).map (fun i => s.heldByte o.t.id.uid (x.ea + i)) ++ [s.heldByte o.t.id.uid (scaleAddr x.ea n)]) lanes o.mode.sb

theorem pairAct_congr (o : Issue) {s t : State} (h : t.coolbox = s.coolbox) (pid n : Nat) (x : Access1) (lanes : List Nat) : o.pairAct t pid n x lanes = o.pairAct s pid n x lanes := by
  have : ∀ k, t.heldByte o.t.id.uid k = s.heldByte o.t.id.uid k := fun k => by unfold State.heldByte; rw [h]
  simp only [Issue.pairAct, this]

theorem loadPair_reads (o : Issue) (s : State) (pid n : Nat) (x : Access1) (run : List Access1) : Cleans s (o.loadPair s pid n (x :: run)) ∧
    o.asks s (o.loadPair s pid n (x :: run)) (o.pairAct s pid n x ((x :: run).map (·.lane))) x.ea x.key ∧
    o.uncached (o.loadPair s pid n (x :: run)) x.ea n ∧ o.uncached (o.loadPair s pid n (x :: run)) (scaleAddr x.ea n) 1 := by
  have h1 := cleans_flushRange s o.t.id.tile o.t.id.ctx o.t.id.uid s.now x.ea (x.ea + n) true
  have u1 := flushRange_uncached o s o.t.id.uid s.now x.ea n
  have e : o.loadPair s pid n (x :: run) = o.sendRead (s.cleanPair o.t.id.tile o.t.id.ctx o.t.id.uid s.now x.ea n) x.ea x.key n
    (o.pairAct (s.cleanPair o.t.id.tile o.t.id.ctx o.t.id.uid s.now x.ea n) pid n x ((x :: run).map (·.lane))) := rfl
  rw [e]
  unfold State.cleanPair
  dsimp only
  generalize (s.flushRange o.t.id.tile o.t.id.ctx o.t.id.uid s.now x.ea (x.ea + n) true).2 = v at h1 u1 ⊢
  have h2 := cleans_flushRange v o.t.id.tile o.t.id.ctx o.t.id.uid s.now (scaleAddr x.ea n) (scaleAddr x.ea n + 1) true
  have u2 := flushRange_uncached o v o.t.id.uid s.now (scaleAddr x.ea n) 1
  generalize (v.flushRange o.t.id.tile o.t.id.ctx o.t.id.uid s.now (scaleAddr x.ea n) (scaleAddr x.ea n + 1) true).2 = w at h2 u2 ⊢
  rw [pairAct_congr o (s := s) (t := w) (by rw [(h1.trans h2).quiet.rest])]
  obtain ⟨k1, k2⟩ := sendRead_asks (o := o) (h1.trans h2) x.ea x.key n (o.pairAct s pid n x ((x :: run).map (·.lane)))
  obtain ⟨k3, -⟩ := sendRead_asks (o := o) (Cleans.refl w) x.ea x.key n (o.pairAct s pid n x ((x :: run).map (·.lane)))
  exact ⟨k1, k2, uncached_cleans (uncached_cleans u1 h2) k3, uncached_cleans u2 k3⟩

theorem loadPairs_fold (o : Issue) (pid n : Nat) (runs : List (List Access1)) (s : State) :
    Cleans s (runs.foldl (fun s run => o.loadPair s pid n run) s) ∧ ∀ run ∈ runs, ∀ x, run.head? = some x →
      o.asks s (runs.foldl (fun s run => o.loadPair s pid n run) s) (o.pairAct s pid n x (run.map (·.lane))) x.ea x.key ∧
      o.uncached (runs.foldl (fun s run => o.loadPair s pid n run) s) x.ea n ∧ o.uncached (runs.foldl (fun s run => o.loadPair s pid n run) s) (scaleAddr x.ea n) 1 := by
  induction runs generalizing s with
  | nil => exact ⟨Cleans.refl s, fun x hx => by simp at hx⟩
  | cons r rs ih =>
    simp only [List.foldl_cons]
    have h1 : Cleans s (o.loadPair s pid n r) := by
      cases r with
      | nil => exact Cleans.refl s
      | cons x run => exact (loadPair_reads o s pid n x run).1
    obtain ⟨g1, g2⟩ := ih (o.loadPair s pid n r)
    have hcb : (o.loadPair s pid n r).coolbox = s.coolbox := by rw [h1.quiet.rest]
    have hnow : (o.loadPair s pid n r).now = s.now := by rw [h1.quiet.rest]
    refine ⟨h1.trans g1, fun run hr x hx => ?_⟩
    rcases List.mem_cons.1 hr with rfl | hr
    · cases run with
      | nil => simp at hx
      | cons z run =>
        simp only [List.head?_cons, Option.some.injEq] at hx
        subst hx
        obtain ⟨-, ⟨y, k1, k2, k3⟩, u1, u2⟩ := loadPair_reads o s pid n z run
        exact ⟨⟨y, g1.net y k1 (by rw [k2]; rfl), k2, k3⟩, uncached_cleans u1 g1, uncached_cleans u2 g1⟩
    · obtain ⟨⟨y, k1, k2, k3, k4, k5, k6⟩, k7⟩ := g2 run hr x hx
      exact ⟨⟨y, k1, by rw [k2, pairAct_congr o hcb], k3, k4, k5, by omega⟩, k7⟩

theorem holds_fold (o : Issue) (n : Nat) (f : List Access1 → Effect) (runs : List (List Access1)) (s : State) :
    let u := runs.foldl (fun s run => o.hold s n (f run)) s
    u = { s with coolbox := u.coolbox, nextId := u.nextId } ∧ ∃ hs : List Held, u.coolbox = s.coolbox ++ hs ∧ hs.map (·.eff) = runs.map f ∧ ∀ h ∈ hs, h.issue = s.now ∧ h.uid = o.t.id.uid := by
  induction runs generalizing s with
  | nil => exact ⟨rfl, [], by simp, rfl, by simp⟩
  | cons r rs ih =>
    simp only [List.foldl_cons]
    obtain ⟨h1, hs, h2, h3, h4⟩ := ih (o.hold s n (f r))
    refine ⟨by rw [h1]; rfl, _ :: hs, by rw [h2]; simp only [Issue.hold, State.hold, fresh, List.append_assoc]; rfl, by simp [h3], ?_⟩
    intro h hh
    rcases List.mem_cons.1 hh with rfl | hh
    · exact ⟨rfl, rfl⟩
    · exact h4 h hh

/-- The request of a lane's PREF. -/
def Issue.prefetch (o : Issue) (l : Nat) : Act := .load 0 [(l, (o.addrT l).v.toNat, [])] 0 false (some true)

/-- What PREF does for one lane. -/
def prefStep (o : Issue) (s v : State) (l : Nat) : State :=
  if addressLegal (o.addrT l).v.toNat && isTranslated (o.addrT l).v.toNat && (s.mem.tlb.any fun e => e.tile == o.t.id.tile && e.ctx == o.t.id.ctx && decide (e.va ≤ (o.addrT l).v.toNat) && decide ((o.addrT l).v.toNat < e.va + e.size)) &&
    (v.mem.line? o.t.id.tile o.t.id.ctx (o.addrT l).v.toNat).all (fun k => k.valid != BitVec.allOnes 64) then
    match v.translate o.t.id.tile o.t.id.ctx (o.addrT l).v.toNat Need.r with
    | .ok pa false _ => o.sendRead v (o.addrT l).v.toNat pa 0 (o.prefetch l)
    | _ => v
  else v

theorem pref_fold (o : Issue) (ls : List Nat) (s v : State) (hv : v = { s with net := v.net, draws := v.draws, serial := v.serial, nextId := v.nextId }) :
    let u := ls.foldl (prefStep o s) v
    u = { s with net := u.net, draws := u.draws, serial := u.serial, nextId := u.nextId } ∧ v.net <+: u.net ∧
    (∀ l ∈ ls, ∀ pa, o.prefetches s l pa → ∃ y ∈ u.net, y.act = o.prefetch l ∧ y.va = (o.addrT l).v.toNat ∧ (y.point = 9999 ∨ y.pa = pa)) ∧
    ((∀ l ∈ ls, ∀ pa, ¬ o.prefetches s l pa) → u = v) := by
  induction ls generalizing v with
  | nil => exact ⟨hv, List.prefix_refl _, by simp, fun _ => rfl⟩
  | cons l ls ih =>
    simp only [List.foldl_cons]
    have hm : v.mem = s.mem := by rw [hv]
    have ht : v.translate o.t.id.tile o.t.id.ctx (o.addrT l).v.toNat Need.r = s.translate o.t.id.tile o.t.id.ctx (o.addrT l).v.toNat Need.r := by rw [hv]; rfl
    generalize hw : prefStep o s v l = w
    unfold prefStep at hw
    simp only [hm, ht] at hw
    have key : (∃ pa, o.prefetches s l pa ∧ w = o.sendRead v (o.addrT l).v.toNat pa 0 (o.prefetch l)) ∨ (w = v ∧ ∀ pa, ¬ o.prefetches s l pa) := by
      split at hw
      · rename_i hc
        simp only [Bool.and_eq_true] at hc
        split at hw
        · rename_i pa xw heq
          exact .inl ⟨pa, ⟨hc.1.1.1, hc.1.1.2, hc.1.2, hc.2, xw, heq⟩, hw.symm⟩
        · rename_i hne
          refine .inr ⟨hw.symm, fun pa hp => ?_⟩
          obtain ⟨w', h⟩ := hp.2.2.2.2
          exact hne pa w' h
      · rename_i hc
        refine .inr ⟨hw.symm, fun pa hp => hc ?_⟩
        obtain ⟨h1, h2, h3, h4, -⟩ := hp
        simp only [h1, h2, h3, h4, Bool.and_self]
    rcases key with ⟨pa, hp, rfl⟩ | ⟨rfl, hn⟩
    · obtain ⟨y, d1, d2, d3, k1, k2, kv, k3, -⟩ := sendRead_sends o v (o.addrT l).v.toNat pa 0 (o.prefetch l)
      generalize o.sendRead v (o.addrT l).v.toNat pa 0 (o.prefetch l) = w at k1
      obtain ⟨g1, g2, g3, g4⟩ := ih w (by rw [k1, hv])
      have hpre : v.net <+: w.net := by rw [k1]; exact List.prefix_append _ _
      refine ⟨g1, hpre.trans g2, ?_, fun hn => absurd hp (hn l (by simp) pa)⟩
      intro m hm' pa' hp'
      rcases List.mem_cons.1 hm' with rfl | hm'
      · obtain ⟨w1, e1⟩ := hp.2.2.2.2
        obtain ⟨w2, e2⟩ := hp'.2.2.2.2
        rw [e1] at e2
        simp only [Access.ok.injEq] at e2
        exact ⟨y, g2.subset (by rw [k1]; simp), k2, kv, (Decidable.em (y.point = 9999)).imp id fun h => (k3 h).trans e2.1⟩
      · exact g3 m hm' pa' hp'
    · obtain ⟨g1, g2, g3, g4⟩ := ih w hv
      refine ⟨g1, g2, ?_, fun hn => g4 fun m hm => hn m (by simp [hm])⟩
      intro m hm' pa' hp'
      rcases List.mem_cons.1 hm' with rfl | hm'
      · exact absurd hp' (hn pa')
      · exact g3 m hm' pa' hp'

theorem copies_fold (mk : Nat → Plan → Copy) (ps : List Plan) (s : State) (ids : List Nat) :
    let f := fun (x : List Nat × State) p => ((x.1 ++ [x.2.nextId], { x.2 with nextId := x.2.nextId + 1, copies := x.2.copies ++ [mk x.2.nextId p] }) : List Nat × State)
    ∃ cids : List Nat, cids.length = ps.length ∧ (ps.foldl f (ids, s)).1 = ids ++ cids ∧ (ps.foldl f (ids, s)).2.copies = s.copies ++ List.zipWith mk cids ps ∧
      (ps.foldl f (ids, s)).2 = { s with copies := (ps.foldl f (ids, s)).2.copies, nextId := (ps.foldl f (ids, s)).2.nextId } := by
  induction ps generalizing s ids with
  | nil => exact ⟨[], rfl, by simp, by simp, rfl⟩
  | cons p ps ih =>
    dsimp only
    simp only [List.foldl_cons]
    obtain ⟨cids, h1, h2, h3, h4⟩ := ih { s with nextId := s.nextId + 1, copies := s.copies ++ [mk s.nextId p] } (ids ++ [s.nextId])
    refine ⟨s.nextId :: cids, by simp [h1], by rw [h2]; simp, by rw [h3]; simp, by rw [h4]⟩

theorem zip_cids (mk : Nat → Plan → Copy) (h : ∀ c p, (mk c p).cid = c) : ∀ (ids : List Nat) (ps : List Plan), ids.length = ps.length → (List.zipWith mk ids ps).map (·.cid) = ids
  | [], _, _ => rfl
  | i :: is, [], g => by simp at g
  | i :: is, p :: ps, g => by simp only [List.zipWith_cons_cons, List.map_cons, h, zip_cids mk h is ps (by simpa using g)]

theorem zip_plans (mk : Nat → Plan → Copy) (h : ∀ c p, (mk c p).plan = p) : ∀ (ids : List Nat) (ps : List Plan), ids.length = ps.length → (List.zipWith mk ids ps).map Copy.plan = ps
  | [], [], _ => rfl
  | [], p :: ps, g => by simp at g
  | i :: is, [], g => by simp at g
  | i :: is, p :: ps, g => by simp only [List.zipWith_cons_cons, List.map_cons, h, zip_plans mk h is ps (by simpa using g)]

theorem startCopy_starts {o w : Issue} {s : State} (r : CopyRule) (hw : w.t = o.t ∧ w.g = o.g ∧ w.word = o.word) (hr : r.who = w) (hf : r.free s) (c : Nat) :
    ∃ u e, w.startCopy s r.ctl r.plans r.src r.dst r.units c = .done u e ∧ (e.onward ∧ e.sig = none) ∧ Starts o s u r := by
  subst hr
  unfold Issue.startCopy
  have h1 : (ctlSink r.ctl = 0 && decide (65535 ≤ s.cur.openBatch.length)) = false := by
    by_cases h : ctlSink r.ctl = 0
    · have := hf.batch h; simp [h]; omega
    · simp [h]
  simp only [h1, hf.waits, Bool.false_eq_true, if_false, fresh]
  refine ⟨_, _, rfl, ⟨⟨rfl, rfl, rfl⟩, rfl⟩, ?_⟩
  obtain ⟨cids, g1, g2, g3, g4⟩ := copies_fold (fun cid p => ⟨cid, s.nextId, r.who.t.id.tile, r.who.t.id.side, r.who.t.id.uid, r.who.t.id.ctx, s.now, r.who.g.pc, r.who.word, p.lane, p.mask, p.kind, p.src, p.dst, p.len, p.valid,
          ctlSink r.ctl, (sinkPair r.who.t r.ctl).v.toNat, false, 0, p.total, [], [], match p.kind with | .cpm ts => ts.map fun _ => 0 | _ => [0], [], 0, false, false⟩) r.plans
    { s with nextId := s.nextId + 1 } []
  generalize hv : List.foldl _ _ _ = v at g2 g3 g4 ⊢
  obtain ⟨ids, v⟩ := v
  simp only [List.nil_append] at g2
  subst g2
  dsimp only at g3 g4
  generalize hmk : (fun (cid : Nat) (p : Plan) => Copy.mk ..) = mk at g3
  have hall : ∀ c p, (mk c p).ins = s.nextId ∧ (mk c p).issue = s.now ∧ (mk c p).uid = o.t.id.uid ∧ (mk c p).tile = o.t.id.tile ∧ (mk c p).sink = ctlSink r.ctl ∧
      (mk c p).sinkEa = (sinkPair o.t r.ctl).v.toNat ∧ (mk c p).pc = o.g.pc ∧ (mk c p).started = false := by
    intro c p
    rw [← hmk, ← hw.1, ← hw.2.1]
    exact ⟨rfl, rfl, rfl, rfl, rfl, rfl, rfl, rfl⟩
  have hc := zip_cids mk (fun c p => by rw [← hmk]) ids r.plans g1
  have hpl := zip_plans mk (fun c p => by rw [← hmk]; rfl) ids r.plans g1
  refine ⟨⟨List.zipWith mk ids r.plans, ?_, hpl, ?_, ?_, ?_⟩, ?_, ?_⟩
  · exact g3
  · intro c hc
    obtain ⟨i, hi, he⟩ := List.mem_iff_getElem.1 hc
    rw [List.getElem_zipWith] at he
    subst he
    exact hall _ _
  · rw [hc]
    generalize hcur : ({ v with cur := _ } : State) = x
    have hx : x.coolbox = s.coolbox ∧ x.now = s.now := by rw [← hcur]; exact ⟨by show v.coolbox = _; rw [g4], by show v.now = _; rw [g4]⟩
    refine ⟨_, congrArg (· ++ [_]) hx.1, rfl, rfl, hx.2, ?_⟩
    rw [hw.1]
  · rw [hc]
    show (if ctlSink r.ctl = 0 then v.cur.openBatch ++ ids else v.cur.openBatch) = _
    rw [g4]
  · show v.cur.score ++ _ = _
    rw [g4]
  · generalize hco : v.copies = co at g4
    generalize hni : v.nextId = ni at g4
    subst g4
    rfl

theorem modWhere_chan (g : Engine) (c : Nat) : (g.modChannel c fun k => { k with number := (k.number + 1) % 2 ^ 32 }).channels =
    g.channels.map fun k => if k.chan == c then { k with number := (k.number + 1) % 2 ^ 32 } else k := rfl

theorem append_appends (o : Issue) (s : State) (r : List Word) (pid : Option Nat) : Appends o s (o.append s r pid).2 r pid := by
  have key : ∃ c : Command, (o.append s r pid).2 = o.hold ((fresh s).2.modEngine o.t.id.tile fun g =>
      let g := g.modChannel (recChan r) fun k => { k with number := (k.number + 1) % 2 ^ 32 }
      let g := { g with cmds := g.cmds ++ [c] }
      if recOp r = 1 then g.modSet (recSet r) fun m => { m with typ := (((s.engine o.t.id.tile).channel? (recChan r)).map fun x => x.slot (rfield r 28 9 8)).getD (31, 0) |>.1
                                                                desc := (((s.engine o.t.id.tile).channel? (recChan r)).map fun x => x.slot (rfield r 28 9 8)).getD (31, 0) |>.2, sparse := rfield r 28 11 11 == 1 } else g) 3 (.command c.mid) ∧
      c.chan = recChan r ∧ c.op = recOp r ∧ c.record = r ∧ c.uid = o.t.id.uid ∧
    c.ctx = o.t.id.ctx ∧ c.gid = o.t.id.gid ∧ c.issue = s.now ∧ c.pid = pid ∧ c.written = false ∧ c.started = false ∧ c.done = 0 ∧
    (∀ k, (s.engine o.t.id.tile).channel? (recChan r) = some k → c.number = k.number) :=
    ⟨_, rfl, rfl, rfl, rfl, rfl, rfl, rfl, rfl, rfl, rfl, rfl, rfl, fun k hk => by rw [hk]; rfl⟩
  obtain ⟨c, hu, k1, k2, k3, k4, k5, k6, k7, k8, k9, k10, k11, k12⟩ := key
  have he := congrArg (fun v : State => v.engine o.t.id.tile) hu
  replace he := (he.trans (hold_engine ..)).trans (engine_mod (fresh s).2 o.t.id.tile _)
  dsimp only at he
  refine ⟨⟨c, ?_, k1, k2, k3, k4, k5, k6, k7, k8, k9, k10, k11, k12, _, by rw [hu]; rfl, rfl, rfl, rfl, rfl⟩, ?_, ?_, ?_, ?_, ?_⟩
  · rw [he]; split <;> rfl
  · rw [he]; split <;> rfl
  · intro hn; rw [he]; rw [if_neg hn]; rfl
  · rw [he]; split <;> exact ⟨rfl, rfl, rfl, rfl⟩
  · intro k hk
    rw [hu]
    exact (hold_engine ..).trans (engine_mod_ne (fresh s).2 hk _)
  · rw [hu]; rfl

theorem give_channels (g : Engine) (ctx base count sets : Nat) :
    (g.give ctx base count sets).channels = g.channels ∧ (g.give ctx base count sets).cmds = g.cmds ∧ (g.give ctx base count sets).holds = g.holds := by
  unfold Engine.give
  have k1 : ∀ (is : List Nat) (g : Engine), let u := is.foldl (fun g i =>
      let r := base + i
      if fget 0 g.owners r = ctx + 1 then g
      else { g with
        acc := g.acc.filter fun (k, _) => k / 256 != r
        status := fput 0 g.status r 0
        owners := fput 0 g.owners r (ctx + 1) }) g
      u.channels = g.channels ∧ u.cmds = g.cmds ∧ u.holds = g.holds := by
    intro is
    induction is with
    | nil => exact fun g => ⟨rfl, rfl, rfl⟩
    | cons a is ih =>
      intro g
      obtain ⟨h1, h2, h3⟩ := ih (if fget 0 g.owners (base + a) = ctx + 1 then g
      else { g with
        acc := g.acc.filter fun (k, _) => k / 256 != (base + a)
        status := fput 0 g.status (base + a) 0
        owners := fput 0 g.owners (base + a) (ctx + 1) })
      refine ⟨h1.trans ?_, h2.trans ?_, h3.trans ?_⟩ <;> split <;> rfl
  have k2 : ∀ (xs : List Nat) (g : Engine), let u := xs.foldl (fun g x => if bit sets x && (g.set x).ctx != some ctx then g.modSet x fun _ => { MacroSet.none with ctx := some ctx } else g) g
      u.channels = g.channels ∧ u.cmds = g.cmds ∧ u.holds = g.holds := by
    intro is
    induction is with
    | nil => exact fun g => ⟨rfl, rfl, rfl⟩
    | cons a is ih =>
      intro g
      obtain ⟨h1, h2, h3⟩ := ih (if bit sets a && (g.set a).ctx != some ctx then g.modSet a fun _ => { MacroSet.none with ctx := some ctx } else g)
      refine ⟨h1.trans ?_, h2.trans ?_, h3.trans ?_⟩ <;> split <;> rfl
  obtain ⟨a1, a2, a3⟩ := k1 (List.range count) g
  obtain ⟨b1, b2, b3⟩ := k2 [0, 1] _
  exact ⟨b1.trans a1, b2.trans a2, b3.trans a3⟩

theorem find_filter_self (xs : List Channel) (c : Nat) : (xs.filter (·.chan != c)).find? (·.chan == c) = none := by
  rw [List.find?_eq_none]; intro x hx
  have := (List.mem_filter.1 hx).2
  simpa using this

theorem find_filter_ne (xs : List Channel) {c k : Nat} (h : k ≠ c) : (xs.filter (·.chan != c)).find? (·.chan == k) = xs.find? (·.chan == k) := by
  induction xs with
  | nil => rfl
  | cons x xs ih =>
    by_cases hx : x.chan = c
    · rw [List.filter_cons_of_neg (by simp [hx]), ih, List.find?_cons_of_neg (by simp; omega)]
    · rw [List.filter_cons_of_pos (by simp [hx])]
      by_cases hk : x.chan = k
      · rw [List.find?_cons_of_pos (by simp [hk]), List.find?_cons_of_pos (by simp [hk])]
      · rw [List.find?_cons_of_neg (by simp [hk]), List.find?_cons_of_neg (by simp [hk]), ih]

theorem engine_channel {u v : State} {tile : Nat} {g : Engine} (h1 : u.engine tile = v.engine tile) (h2 : v.engine tile = g) (c : Nat) : (u.engine tile).channel? c = g.channel? c := by rw [h1, h2]

theorem issue_of_prepare {i : Instr} {s s1 : State} {o w : Issue} {body : Issue → State → Res} {fs : List (Nat × Nat × Nat)} (h : prepare i s = .ok (o, s1))
    (hb : ∃ need c n k, body o s1 = w.access s1 [] fs need c n k) :
    ∃ need c n k, issue i body s = .next (conclude i s1 (some o) (w.access s1 [] fs need c n k)) := by
  obtain ⟨a, b, c, d, hb⟩ := hb
  exact ⟨a, b, c, d, by rw [issue_next body h, hb]⟩

theorem parks_fault (s : State) (unit : Nat) (pc : BitVec 48) (word : Word) (mask : LaneMask) (va : Nat) (n : Need) (level : Nat) (eas : List (Nat × Dword)) :
    ∃ f ∈ (s.parkTeam unit pc word mask va n level eas).faults, f.uid = s.cur.id.uid ∧ f.pc = pc ∧ f.word = word ∧ f.mask = mask ∧ f.va = va ∧ f.level = level ∧
      f.issue = s.now ∧ f.posted = false ∧ (unit = 0 → f.stops = true) := by
  simp only [State.parkTeam, State.parkFault, fresh, modifyWhere, List.map_append, List.map_cons, List.map_nil]
  refine ⟨_, List.mem_append_right _ (List.mem_singleton.2 rfl), ?_⟩
  simp

end Sys2Proof.Machine
end

