-- ==== Sys2Proof/Laws/Form.lean ====
section
/-! SUPPORT. Memory keeps its canonical form: the shapes in which the operations say it. -/

namespace Sys2Proof.Machine

/-- Memory is in canonical form in the state of an outcome. -/
def okO : Option State → Prop | none => True | some t => t.mem.wf = true
def okOP {α : Type} : Option (α × State) → Prop | none => True | some t => t.2.mem.wf = true
def okE {ε : Type} : Except ε State → Prop | .error _ => True | .ok t => t.mem.wf = true
def okEP {ε α : Type} : Except ε (α × State) → Prop | .error _ => True | .ok t => t.2.mem.wf = true
def okN : Host.Outcome State Fault Refusal → Prop | .next t => t.mem.wf = true | _ => True
def okR : Res → Prop | .done s _ => s.mem.wf = true | .stall s _ => s.mem.wf = true | .wait s => s.mem.wf = true | _ => True
def okV : Reserved → Prop | .granted s => s.mem.wf = true | .waits s _ => s.mem.wf = true | .bad _ => True

theorem wf_of_pair {α : Type} {p : α × State} {a : α} {t : State} (e : p = (a, t)) (h : p.2.mem.wf = true) : t.mem.wf = true := by rw [e] at h; exact h
theorem wf_of_fst {α : Type} {p : State × α} {a : α} {t : State} (e : p = (t, a)) (h : p.1.mem.wf = true) : t.mem.wf = true := by rw [e] at h; exact h
theorem wf_of_next {p : Host.Outcome State Fault Refusal} {t : State} (e : p = .next t) (h : okN p) : t.mem.wf = true := by rw [e] at h; exact h
theorem wf_of_pair3 {α β : Type} {p : α × β × State} {a : α} {b : β} {t : State} (e : p = (a, b, t)) (h : p.2.2.mem.wf = true) : t.mem.wf = true := by rw [e] at h; exact h
theorem wf_of_some {p : Option State} {t : State} (e : p = some t) (h : okO p) : t.mem.wf = true := by rw [e] at h; exact h
theorem wf_of_someP {α : Type} {p : Option (α × State)} {a : α} {t : State} (e : p = some (a, t)) (h : okOP p) : t.mem.wf = true := by rw [e] at h; exact h
theorem wf_of_ok {ε : Type} {p : Except ε State} {t : State} (e : p = .ok t) (h : okE p) : t.mem.wf = true := by rw [e] at h; exact h
theorem wf_of_okP {ε α : Type} {p : Except ε (α × State)} {a : α} {t : State} (e : p = .ok (a, t)) (h : okEP p) : t.mem.wf = true := by rw [e] at h; exact h
theorem wf_foldl {α : Type} {f : State → α → State} {l : List α} {b : State} (hf : ∀ b c, b.mem.wf = true → (f b c).mem.wf = true) (h : b.mem.wf = true) :
    (l.foldl f b).mem.wf = true := foldl_keeps (fun (x : State) => x.mem.wf = true) f hf l b h
theorem wf_foldl3 {α β γ : Type} {f : β × γ × State → α → β × γ × State} {l : List α} {b : β × γ × State} (hf : ∀ b c, b.2.2.mem.wf = true → (f b c).2.2.mem.wf = true)
    (h : b.2.2.mem.wf = true) : (l.foldl f b).2.2.mem.wf = true := foldl_keeps (fun (x : β × γ × State) => x.2.2.mem.wf = true) f hf l b h
theorem wf_foldl2 {α β : Type} {f : β × State → α → β × State} {l : List α} {b : β × State} (hf : ∀ b c, b.2.mem.wf = true → (f b c).2.mem.wf = true)
    (h : b.2.mem.wf = true) : (l.foldl f b).2.mem.wf = true := foldl_keeps (fun (x : β × State) => x.2.mem.wf = true) f hf l b h
theorem wf_foldlM {α : Type} {f : Mem → α → Mem} {l : List α} {b : Mem} (hf : ∀ b c, b.wf = true → (f b c).wf = true) (h : b.wf = true) :
    (l.foldl f b).wf = true := foldl_keeps (fun (x : Mem) => x.wf = true) f hf l b h
theorem fwfFrom_filter {α : Type} [DecidableEq α] {d : α} (p : Nat × α → Bool) {lo : Nat} {m : Fmap α} (h : fwfFrom d lo m = true) :
    fwfFrom d lo (m.filter p) = true := by
  induction m generalizing lo with
  | nil => rfl
  | cons x m ih =>
    obtain ⟨k, v⟩ := x
    simp only [fwfFrom, Bool.and_eq_true, decide_eq_true_eq] at h
    rw [List.filter_cons]
    split
    · simp only [fwfFrom, Bool.and_eq_true, decide_eq_true_eq]
      exact ⟨h.1, ih h.2⟩
    · exact fwfFrom_mono (by omega) (ih h.2)
theorem fwf_filter {α : Type} [DecidableEq α] {d : α} (p : Nat × α → Bool) {m : Fmap α} (h : fwf d m = true) : fwf d (m.filter p) = true := fwfFrom_filter p h
theorem fwf_foldl {α β : Type} [DecidableEq α] {d : α} {f : Fmap α → β → Fmap α} {l : List β} {m : Fmap α} (hf : ∀ m x, fwf d m = true → fwf d (f m x) = true)
    (h : fwf d m = true) : fwf d (l.foldl f m) = true := foldl_keeps (fun m => fwf d m = true) f hf l m h
theorem wf_parts {m : Mem} (h1 : fwf Mem.unlisted m.bytes = true) (h2 : fwf false m.poison = true) : m.wf = true := by simp [Mem.wf, h1, h2]
theorem wf_bytes {m : Mem} (h : m.wf = true) : fwf Mem.unlisted m.bytes = true := by simp only [Mem.wf, Bool.and_eq_true] at h; exact h.1
theorem wf_poison {m : Mem} (h : m.wf = true) : fwf false m.poison = true := by simp only [Mem.wf, Bool.and_eq_true] at h; exact h.2
theorem wf_mk {m : Mem} {l : List Line} {t : List Tlb} {w : List TableEntry} {v : List Moving} : (Mem.mk m.bytes m.poison l t w v).wf = m.wf := rfl
theorem okV_bad {c : Nat} : okV (.bad c) := trivial
theorem wf_of_waits {p : Reserved} {t : State} {c : Nat} (e : p = .waits t c) (h : okV p) : t.mem.wf = true := by rw [e] at h; exact h
theorem wf_of_granted {p : Reserved} {t : State} (e : p = .granted t) (h : okV p) : t.mem.wf = true := by rw [e] at h; exact h
def okP : Except Res (Issue × State) → Prop | .error r => okR r | .ok t => t.2.mem.wf = true
theorem okP_error {r : Res} (h : okR r) : okP (.error r) := h
theorem okP_ok {o : Issue} {t : State} (h : t.mem.wf = true) : okP (.ok (o, t)) := h
def okC : Checked → Prop | .bad r => okR r | .ok _ _ => True
theorem okC_bad {r : Res} (h : okR r) : okC (.bad r) := h
theorem okC_ok {x : List Access1} {f : List (Nat × Nat × Nat)} : okC (.ok x f) := trivial
theorem okR_of_bad {c : Checked} {r : Res} (e : c = .bad r) (h : okC c) : okR r := by rw [e] at h; exact h
def okOR : Option Res → Prop | some r => okR r | none => True
theorem okOR_some {r : Res} (h : okR r) : okOR (some r) := h
theorem okOR_none : okOR none := trivial
theorem okR_of_some {c : Option Res} {r : Res} (e : c = some r) (h : okOR c) : okR r := by rw [e] at h; exact h
theorem okR_ite {c : Prop} [Decidable c] {a b : Res} (ha : okR a) (hb : okR b) : okR (if c then a else b) := by split <;> assumption
theorem wf_ite {c : Prop} [Decidable c] {a b : State} (ha : a.mem.wf = true) (hb : b.mem.wf = true) : (if c then a else b).mem.wf = true := by split <;> assumption
theorem okN_ite {c : Prop} [Decidable c] {a b : Host.Outcome State Fault Refusal} (ha : okN a) (hb : okN b) : okN (if c then a else b) := by split <;> assumption
def okOT {α β : Type} : Option (α × β × State) → Prop | none => True | some t => t.2.2.mem.wf = true
theorem okOT_none {α β : Type} : okOT (none : Option (α × β × State)) := trivial
theorem okOT_some {α β : Type} {a : α} {b : β} {t : State} (h : t.mem.wf = true) : okOT (some (a, b, t)) := h
theorem wf_of_someT {α β : Type} {p : Option (α × β × State)} {a : α} {b : β} {t : State} (e : p = some (a, b, t)) (h : okOT p) : t.mem.wf = true := by rw [e] at h; exact h
theorem okO_or {a b : Option State} (ha : okO a) (hb : okO b) : okO (a.or b) := by cases a with
  | none => exact hb
  | some x => exact ha
theorem okO_none : okO none := trivial
theorem okOP_none {α : Type} : okOP (none : Option (α × State)) := trivial
theorem okE_error {ε : Type} {e : ε} : okE (.error e) := trivial
theorem okEP_error {ε α : Type} {e : ε} : okEP (.error e : Except ε (α × State)) := trivial
theorem okN_fault {f : Fault} : okN (.fault f) := trivial
theorem okN_refused {f : Refusal} : okN (.refused f) := trivial
theorem okR_trap {c : Nat} {m : LaneMask} {v : List (Nat × Dword)} {n : Bool} {r : Option Reg} : okR (.trap c m v n r) := trivial
theorem okR_rollback {c : Nat} {m : LaneMask} {v : List (Nat × Dword)} {b : Bool} : okR (.rollback c m v b) := trivial
theorem okO_map {α : Type} {o : Option α} {f : α → State} (h : ∀ a, o = some a → (f a).mem.wf = true) : okO (o.map f) := by
  cases o with
  | none => trivial
  | some a => exact h a rfl
theorem okOP_map {α β : Type} {o : Option α} {f : α → β × State} (h : ∀ a, o = some a → (f a).2.mem.wf = true) : okOP (o.map f) := by
  cases o with
  | none => trivial
  | some a => exact h a rfl
theorem okO_bind {α : Type} {o : Option α} {f : α → Option State} (h : ∀ a, o = some a → okO (f a)) : okO (o.bind f) := by
  cases o with
  | none => trivial
  | some a => exact h a rfl
theorem wf_getD {o : Option State} {s : State} (ho : okO o) (h : s.mem.wf = true) : (o.getD s).mem.wf = true := by
  cases o with
  | none => exact h
  | some a => exact ho
theorem okO_firstSome {α : Type} {f : α → Option State} (h : ∀ a, okO (f a)) (l : List α) : okO (firstSome f l) := by
  induction l with
  | nil => trivial
  | cons x xs ih =>
    unfold firstSome
    cases e : f x with
    | none => exact ih
    | some t => have := h x; rw [e] at this; exact this
theorem okN_next {t : State} (h : t.mem.wf = true) : okN (.next t) := h
theorem okO_some {t : State} (h : t.mem.wf = true) : okO (some t) := h
theorem okOP_some {α : Type} {a : α} {t : State} (h : t.mem.wf = true) : okOP (some (a, t)) := h
theorem okE_ok {ε : Type} {t : State} (h : t.mem.wf = true) : okE (.ok t : Except ε State) := h
theorem okEP_ok {ε α : Type} {a : α} {t : State} (h : t.mem.wf = true) : okEP (.ok (a, t) : Except ε (α × State)) := h
theorem okR_done {t : State} {e : End} (h : t.mem.wf = true) : okR (.done t e) := h
theorem okR_stall {t : State} {c : Nat} (h : t.mem.wf = true) : okR (.stall t c) := h
theorem okR_wait {t : State} (h : t.mem.wf = true) : okR (.wait t) := h
theorem okV_granted {t : State} (h : t.mem.wf = true) : okV (.granted t) := h
theorem okV_waits {t : State} {c : Nat} (h : t.mem.wf = true) : okV (.waits t c) := h

end Sys2Proof.Machine
end

