-- ==== Sys2Proof/Laws/FormCore.lean ====
section
/-! SUPPORT. Memory keeps its canonical form: the shared operations, what an issue does, and what memory instructions share. -/

namespace Sys2Proof.Machine

/-! ### Machine/Ops.lean -/

theorem draw_wf (s : State) (hs : s.mem.wf = true) : (draw s).2.mem.wf = true := by
  unfold draw
  repeat' first | dsimp only | split | with_reducible first | assumption

theorem fresh_wf (s : State) (hs : s.mem.wf = true) : (fresh s).2.mem.wf = true := by
  unfold fresh
  repeat' first | dsimp only | with_reducible first | assumption

theorem State.modTeam_wf (s : State) (uid : Nat) (f : Team → Team) (hs : s.mem.wf = true) : (State.modTeam s uid f).mem.wf = true := by
  unfold State.modTeam
  repeat' first | dsimp only | split | with_reducible first | assumption

theorem State.bringIn_wf (s : State) (uid : Nat) (hs : s.mem.wf = true) : (State.bringIn s uid).mem.wf = true := by
  unfold State.bringIn
  repeat' first | dsimp only | split | with_reducible first | assumption

theorem State.modCtx_wf (s : State) (c : Nat) (f : Ctx → Ctx) (hs : s.mem.wf = true) : (State.modCtx s c f).mem.wf = true := by
  unfold State.modCtx
  repeat' first | dsimp only | with_reducible first | assumption

theorem State.modWindow_wf (s : State) (key : Nat) (f : Window → Window) (hs : s.mem.wf = true) : (State.modWindow s key f).mem.wf = true := by
  unfold State.modWindow
  repeat' first | dsimp only | with_reducible first | assumption

theorem State.refuse_wf (s : State) (key : Nat) (hs : s.mem.wf = true) : (State.refuse s key).mem.wf = true := by
  unfold State.refuse
  repeat' first | with_reducible first | assumption | apply State.modWindow_wf

theorem State.progress_wf (s : State) (c : Nat) (hs : s.mem.wf = true) : (State.progress s c).mem.wf = true := by
  unfold State.progress
  repeat' first | with_reducible first | assumption | apply State.modCtx_wf

theorem State.privDone_wf (s : State) (key : Nat) (hs : s.mem.wf = true) : (State.privDone s key).mem.wf = true := by
  unfold State.privDone
  repeat' first | dsimp only | with_reducible first | assumption | apply State.modWindow_wf

theorem State.count_wf (s : State) (unit number idx n : Nat) (hs : s.mem.wf = true) : (State.count s unit number idx n).mem.wf = true := by
  unfold State.count
  repeat' first | dsimp only | with_reducible first | assumption

theorem State.modQueue_wf (s : State) (tile e : Nat) (f : TileQueue → TileQueue) (hs : s.mem.wf = true) :
    (State.modQueue s tile e f).mem.wf = true := by
  unfold State.modQueue
  repeat' first | dsimp only | with_reducible first | assumption

theorem State.modThread_wf (s : State) (j : Nat) (f : Thread → Thread) (hs : s.mem.wf = true) : (State.modThread s j f).mem.wf = true := by
  unfold State.modThread
  repeat' first | dsimp only | with_reducible first | assumption

theorem State.modLink_wf (s : State) (c e : Nat) (f : LinkQueue → LinkQueue) (hs : s.mem.wf = true) : (State.modLink s c e f).mem.wf = true := by
  unfold State.modLink
  repeat' first | with_reducible first | assumption | apply State.modCtx_wf

theorem State.notify_wf (s : State) (j : Nat) (hs : s.mem.wf = true) : (State.notify s j).mem.wf = true := by
  unfold State.notify
  repeat' first | with_reducible first | assumption | apply State.modThread_wf

theorem State.voidPush_wf (s : State) (ctx : Nat) (h : Word) (slots : List Nat) (hs : s.mem.wf = true) :
    (State.voidPush s ctx h slots).mem.wf = true := by
  unfold State.voidPush
  repeat' first | split | with_reducible first | assumption | apply State.modQueue_wf | apply State.modThread_wf | apply State.modLink_wf

theorem State.unpop_wf (s : State) (h : Word) (slots : List Nat) (hs : s.mem.wf = true) : (State.unpop s h slots).mem.wf = true := by
  unfold State.unpop
  repeat' first | with_reducible first | assumption | apply State.modQueue_wf

theorem State.discardQueue_wf (s : State) (e : Held) (hs : s.mem.wf = true) : (State.discardQueue s e).mem.wf = true := by
  unfold State.discardQueue
  repeat' first | split | with_reducible first | assumption | apply State.voidPush_wf | apply State.unpop_wf

theorem State.discardWork_wf (s : State) (e : Held) (hs : s.mem.wf = true) : (State.discardWork s e).mem.wf = true := by
  unfold State.discardWork
  repeat' first | dsimp only | split | with_reducible first | assumption | apply State.modTeam_wf

theorem State.discard_wf (s : State) (p : Held → Bool) (hs : s.mem.wf = true) : (State.discard s p).mem.wf = true := by
  unfold State.discard
  repeat' first | dsimp only | with_reducible first | assumption | intro _ | apply State.discardQueue_wf | apply State.discardWork_wf | refine wf_foldl ?_ ?_

theorem State.dropGrants_wf (s : State) (t : Team) (hs : s.mem.wf = true) : (State.dropGrants s t).mem.wf = true := by
  unfold State.dropGrants
  repeat' first | dsimp only | split | with_reducible first | assumption | intro _ | apply State.voidPush_wf | apply State.unpop_wf | refine wf_foldl ?_ ?_

theorem State.dropPends_wf (s : State) (t : Team) (ps : List Pend) (hs : s.mem.wf = true) : (State.dropPends s t ps).mem.wf = true := by
  unfold State.dropPends
  repeat' first | split | with_reducible first | assumption | intro _ | apply State.voidPush_wf | refine wf_foldl ?_ ?_

theorem State.tvals_wf (s : State) (w : Nat) (i : TrapInfo) (hs : s.mem.wf = true) : (State.tvals s w i).2.mem.wf = true := by
  unfold State.tvals
  repeat' first | dsimp only | split | with_reducible first | assumption

theorem State.takeTrap_wf (s : State) (uid : Nat) (groupPc : BitVec 48) (i : TrapInfo) (hs : s.mem.wf = true) :
    (State.takeTrap s uid groupPc i).mem.wf = true := by
  unfold State.takeTrap
  repeat' first | dsimp only | split | with_reducible first | assumption | apply fresh_wf | apply State.modTeam_wf | apply State.dropGrants_wf | apply State.tvals_wf

theorem State.resume_wf (s : State) (uid : Nat) (hs : s.mem.wf = true) : (State.resume s uid).mem.wf = true := by
  unfold State.resume
  repeat' first | split | with_reducible first | assumption | apply State.modTeam_wf

/-! ### Machine/Translate.lean -/

theorem State.fillTlb_wf (s : State) (tile ctx va : Nat) (hs : s.mem.wf = true) : (State.fillTlb s tile ctx va).mem.wf = true := by
  unfold State.fillTlb
  repeat' first | dsimp only | split | with_reducible first | assumption | simp only [wf_mk]

theorem State.setWindow_wf (s : State) (tile i : Nat) (e : Dword) (hs : s.mem.wf = true) : (s.setWindow tile i e).mem.wf = true := by
  unfold State.setWindow
  extract_lets
  split
  · exact hs
  · exact wf_parts (fwf_filter _ (wf_bytes hs)) (fwf_filter _ (wf_poison hs))

theorem Mem.modLine_wf (m : Mem) (tile ctx va : Nat) (f : Line → Line) (hm : m.wf = true) : (Mem.modLine m tile ctx va f).wf = true := by
  unfold Mem.modLine
  repeat' first | dsimp only | split | with_reducible first | assumption | simp only [wf_mk]

theorem State.send_wf (s : State) (tile side uid ctx issue : Nat) (pc : BitVec 48) (word : Word) (va pa : Nat) (after : List Nat) (act : Act) (hs : s.mem.wf = true) :
    (State.send s tile side uid ctx issue pc word va pa after act).2.mem.wf = true := by
  unfold State.send
  repeat' first | dsimp only | with_reducible first | assumption | apply draw_wf | apply fresh_wf

theorem State.sendAfter_wf (s : State) (tile side uid ctx issue : Nat) (pc : BitVec 48) (word : Word) (va : Nat) (after : List Nat) (act : Act) (hs : s.mem.wf = true) :
    (State.sendAfter s tile side uid ctx issue pc word va after act).2.mem.wf = true := by
  unfold State.sendAfter
  repeat' first | dsimp only | with_reducible first | assumption | apply fresh_wf

theorem State.writeBackLine_wf (s : State) (l : Line) (uid issue : Nat) (hs : s.mem.wf = true) :
    (State.writeBackLine s l uid issue).2.mem.wf = true := by
  unfold State.writeBackLine
  repeat' first | dsimp only | split | with_reducible first | assumption | intro _ | apply State.send_wf | simp only [wf_mk] | refine wf_foldl2 ?_ ?_

theorem State.staleFills_wf (s : State) (p : Line → Bool) (hs : s.mem.wf = true) : (State.staleFills s p).mem.wf = true := by
  unfold State.staleFills
  repeat' first | dsimp only | with_reducible first | assumption

theorem State.cleanLines_wf (s : State) (p drop : Line → Bool) (uid issue : Nat) (hs : s.mem.wf = true) :
    (State.cleanLines s p drop uid issue).2.mem.wf = true := by
  unfold State.cleanLines
  repeat' first | dsimp only | with_reducible first | assumption | intro _ | apply State.writeBackLine_wf | apply State.staleFills_wf | simp only [wf_mk] | refine wf_foldl2 ?_ ?_

/-! ### Machine/Rings.lean -/

theorem State.grant_wf (s : State) (t : Team) (p : Nat) (pop : Bool) (k : Nat) (hs : s.mem.wf = true) : okOP (State.grant s t p pop k) := by
  unfold State.grant
  repeat' first | dsimp only | split | with_reducible first | assumption | apply State.modQueue_wf | apply State.modThread_wf | apply State.modLink_wf | refine okOP_some ?_ | exact okOP_none

/-! ### Machine/Issue.lean -/

theorem State.hold_wf (s : State) (t : Team) (pc : BitVec 48) (word : Word) (mask : LaneMask) (units : Nat) (e : Effect) (hs : s.mem.wf = true) :
    (State.hold s t pc word mask units e).mem.wf = true := by
  unfold State.hold
  repeat' first | dsimp only | with_reducible first | assumption | apply fresh_wf

theorem Issue.hold_wf (o : Issue) (s : State) (units : Nat) (e : Effect) (hs : s.mem.wf = true) : (Issue.hold o s units e).mem.wf = true := by
  unfold Issue.hold
  repeat' first | with_reducible first | assumption | apply State.hold_wf

theorem reserve_wf (s : State) (l : List (Nat × Bool × Nat)) (hs : s.mem.wf = true) : okV (reserve s l) := by
  induction l generalizing s with
  | nil => exact hs
  | cons x l ih =>
    obtain ⟨key, pop, k⟩ := x
    unfold reserve
    repeat' first | dsimp only | split | with_reducible first | assumption | exact okV_bad | apply ih | refine okV_waits ?_ | refine wf_of_someP (by assumption) ?_ | apply State.grant_wf

theorem prepare_wf (i : Instr) (s : State) (hs : s.mem.wf = true) : okP (prepare i s) := by
  unfold prepare
  repeat' first | dsimp only | split | with_reducible first | assumption | exact okR_trap | exact okR_rollback | refine okP_error ?_ | refine okP_ok ?_ | refine okR_stall ?_ | refine okR_wait ?_ | refine wf_of_waits (by assumption) ?_ | refine wf_of_granted (by assumption) ?_ | apply reserve_wf

theorem Issue.plain_wf (o : Issue) (s : State) (hs : s.mem.wf = true) : okR (Issue.plain o s) := by
  unfold Issue.plain
  repeat' first | with_reducible first | assumption | refine okR_done ?_

theorem Issue.timed_wf (o : Issue) (s : State) (per : Nat) (hs : s.mem.wf = true) : okR (Issue.timed o s per) := by
  unfold Issue.timed
  repeat' first | with_reducible first | assumption | refine okR_done ?_

theorem Issue.single_wf (o : Issue) (s : State) (hs : s.mem.wf = true) : okR (Issue.single o s) := by
  unfold Issue.single
  repeat' first | with_reducible first | assumption | refine okR_done ?_

theorem holdPops_wf (o : Issue) (s : State) (e : End) (hs : s.mem.wf = true) : (holdPops o s e).mem.wf = true := by
  unfold holdPops
  repeat' first | dsimp only | split | with_reducible first | assumption | intro _ | apply Issue.hold_wf | refine wf_foldl ?_ ?_

theorem State.implicitCheckpoint_wf (s : State) (hs : s.mem.wf = true) : (State.implicitCheckpoint s).mem.wf = true := by
  unfold State.implicitCheckpoint
  repeat' first | dsimp only | with_reducible first | assumption | apply fresh_wf

theorem State.occupy_wf (s : State) (e : End) (hs : s.mem.wf = true) : (State.occupy s e).mem.wf = true := by
  unfold State.occupy
  repeat' first | dsimp only | with_reducible first | assumption

theorem finish_wf (o : Issue) (s : State) (e : End) (hs : s.mem.wf = true) : (finish o s e).mem.wf = true := by
  unfold finish
  repeat' first | dsimp only | split | with_reducible first | assumption | apply State.progress_wf | apply holdPops_wf | apply State.implicitCheckpoint_wf | apply State.occupy_wf

theorem State.voidFaults_wf (s : State) (uid : Nat) (hs : s.mem.wf = true) : (State.voidFaults s uid).mem.wf = true := by
  unfold State.voidFaults
  repeat' first | dsimp only | with_reducible first | assumption

theorem rollbackOrTrap_wf (s : State) (uid : Nat) (groupPc : BitVec 48) (i : TrapInfo) (hs : s.mem.wf = true) :
    (rollbackOrTrap s uid groupPc i).mem.wf = true := by
  unfold rollbackOrTrap
  repeat' first | dsimp only | split | with_reducible first | assumption | apply State.modTeam_wf | apply State.discard_wf | apply State.dropGrants_wf | apply State.dropPends_wf | apply State.takeTrap_wf | apply State.voidFaults_wf

theorem conclude_wf (i : Instr) (s : State) (o : Option Issue) (r : Res) (hs : s.mem.wf = true) (hr : okR r) : (conclude i s o r).mem.wf = true := by
  unfold conclude
  repeat' first | dsimp only | split | with_reducible first | assumption | apply finish_wf | apply State.takeTrap_wf | apply rollbackOrTrap_wf
  all_goals exact hr

theorem issue_wf (i : Instr) (body : Issue → State → Res) (s : State) (hs : s.mem.wf = true) (hb : ∀ o t, t.mem.wf = true → okR (body o t)) :
    okN (issue i body s) := by
  have hp := prepare_wf i s hs
  unfold issue
  cases e : prepare i s with
  | error r => rw [e] at hp; exact okN_next (conclude_wf _ _ _ _ hs hp)
  | ok x => rw [e] at hp; exact okN_next (conclude_wf _ _ _ _ hp (hb _ _ hp))

theorem Issue.commit_wf (o : Issue) (s : State) (rs : List LaneResult) (hs : s.mem.wf = true) : (Issue.commit o s rs).mem.wf = true := by
  unfold Issue.commit
  repeat' first | dsimp only | split | with_reducible first | assumption | apply Issue.hold_wf

theorem Issue.pend_wf (o : Issue) (s : State) (rs : List LaneResult) (due : Nat) (atomic acq : Bool) (range : List (Nat × Nat)) (hs : s.mem.wf = true) :
    (Issue.pend o s rs due atomic acq range).2.mem.wf = true := by
  unfold Issue.pend
  repeat' first | dsimp only | with_reducible first | assumption | apply fresh_wf

theorem spread_wf (s : State) (y0 : List LaneResult) (hs : s.mem.wf = true) : (spread s y0).2.mem.wf = true := by
  induction y0 generalizing s with
  | nil => 
    unfold spread
    repeat' first | dsimp only | with_reducible first | assumption
  | cons x xs ih => 
    unfold spread
    repeat' first | dsimp only | with_reducible first | assumption | apply ih | apply draw_wf

theorem Issue.pendAfter_wf (o : Issue) (s : State) (rs : List LaneResult) (per : Nat) (hs : s.mem.wf = true) : okR (Issue.pendAfter o s rs per) := by
  unfold Issue.pendAfter
  repeat' first | dsimp only | split | with_reducible first | assumption | apply Issue.timed_wf | apply Issue.pend_wf | apply spread_wf

/-! ### Machine/Faults.lean -/

theorem State.parkFault_wf (s : State) (t : Team) (unit item : Nat) (pc : BitVec 48) (word : Word) (issue : Nat) (mask : LaneMask) (va : Nat) (n : Need) (level : Nat) (hs : s.mem.wf = true) :
    (State.parkFault s t unit item pc word issue mask va n level).mem.wf = true := by
  unfold State.parkFault
  repeat' first | dsimp only | with_reducible first | assumption | apply fresh_wf

theorem State.parkTeam_wf (s : State) (unit : Nat) (pc : BitVec 48) (word : Word) (mask : LaneMask) (va : Nat) (n : Need) (level : Nat) (eas : List (Nat × Dword)) (hs : s.mem.wf = true) :
    (State.parkTeam s unit pc word mask va n level eas).mem.wf = true := by
  unfold State.parkTeam
  repeat' first | dsimp only | with_reducible first | assumption | apply State.parkFault_wf

theorem State.parkGroup_wf (s : State) (g : Group) (va level : Nat) (hs : s.mem.wf = true) : (State.parkGroup s g va level).mem.wf = true := by
  unfold State.parkGroup
  repeat' first | dsimp only | with_reducible first | assumption | apply State.parkFault_wf

theorem State.errorRecord_wf (s : State) (ctx : Option Nat) (cause unit side : Nat) (pc : BitVec 48) (addr lane : Nat) (hs : s.mem.wf = true) :
    (State.errorRecord s ctx cause unit side pc addr lane).mem.wf = true := by
  unfold State.errorRecord
  repeat' first | dsimp only | with_reducible first | assumption | apply fresh_wf

theorem State.endMacro_wf (s : State) (hs : s.mem.wf = true) : (State.endMacro s).mem.wf = true := by
  unfold State.endMacro
  repeat' first | dsimp only | split | with_reducible first | assumption

theorem State.fetchStops_wf (s : State) (f : Fetched) (hs : s.mem.wf = true) : (State.fetchStops s f).mem.wf = true := by
  unfold State.fetchStops
  repeat' first | dsimp only | split | with_reducible first | assumption | apply State.takeTrap_wf | apply rollbackOrTrap_wf | apply State.parkGroup_wf

/-! ### Machine/Memory.lean -/

theorem Issue.addressTrap_wf (o : Issue) (cause : Nat) (bad : List (Nat × PVal))   : okR (Issue.addressTrap o cause bad) := by
  unfold Issue.addressTrap
  repeat' first | dsimp only | split | with_reducible first | exact okR_trap

theorem Issue.addressPoison_wf (o : Issue) (bad : List (Nat × PVal))   : okR (Issue.addressPoison o bad) := by
  unfold Issue.addressPoison
  repeat' first | split | with_reducible first | apply Issue.addressTrap_wf | exact okR_rollback

theorem Issue.checkWith_wf (o : Issue) (s : State) (eas : List (Nat × PVal)) (n : Nat) (odds : List (Nat × (Nat → Bool))) (need : Need) (scratch : Option Nat) (last : Nat → Option Nat) (hs : s.mem.wf = true) :
    okC (Issue.checkWith o s eas n odds need scratch last) := by
  unfold Issue.checkWith
  repeat' first | dsimp only | split | with_reducible first | apply Issue.addressTrap_wf | apply Issue.addressPoison_wf | refine okC_bad ?_ | exact okC_ok

theorem Issue.check_wf (o : Issue) (s : State) (eas : List (Nat × PVal)) (n align alignCause : Nat) (need : Need) (scratch : Option Nat) (last : Nat → Option Nat) (hs : s.mem.wf = true) :
    okC (Issue.check o s eas n align alignCause need scratch last) := by
  unfold Issue.check
  repeat' first | with_reducible first | assumption | apply Issue.checkWith_wf

theorem State.fetchLine_wf (s : State) (owner tile side uid ctx issue : Nat) (pc : BitVec 48) (word : Word) (va pa : Nat) (hs : s.mem.wf = true) :
    (State.fetchLine s owner tile side uid ctx issue pc word va pa).mem.wf = true := by
  unfold State.fetchLine
  repeat' first | split | with_reducible first | assumption | apply State.send_wf

theorem State.modPend_wf (s : State) (uid pid : Nat) (f : Pend → Pend) (hs : s.mem.wf = true) : (State.modPend s uid pid f).mem.wf = true := by
  unfold State.modPend
  repeat' first | with_reducible first | assumption | apply State.modTeam_wf

theorem Issue.sendRead_wf (o : Issue) (s : State) (va key n : Nat) (act : Act) (hs : s.mem.wf = true) :
    (Issue.sendRead o s va key n act).mem.wf = true := by
  unfold Issue.sendRead
  repeat' first | dsimp only | split | with_reducible first | assumption | apply State.send_wf | apply State.sendAfter_wf

theorem Issue.loadLine_wf (o : Issue) (s : State) (pid n : Nat) (signed : Bool) (xs : List Access1) (hs : s.mem.wf = true) :
    (Issue.loadLine o s pid n signed xs).mem.wf = true := by
  unfold Issue.loadLine
  repeat' first | dsimp only | split | with_reducible first | assumption | intro _ | apply State.modPend_wf | apply Issue.sendRead_wf | refine wf_foldl ?_ ?_

theorem Issue.access_wf (o : Issue) (s : State) (xs : List Access1) (faults : List (Nat × Nat × Nat)) (need : Need) (cycles conflicts : Nat) (ckpt : Bool) (hs : s.mem.wf = true) :
    okR (Issue.access o s xs faults need cycles conflicts ckpt) := by
  unfold Issue.access
  repeat' first | dsimp only | split | with_reducible first | assumption | apply State.parkTeam_wf | refine okR_done ?_

theorem Issue.load_wf (o : Issue) (s : State) (eas : List (Nat × PVal)) (n : Nat) (signed : Bool) (noEf : Bool) (mark : Pend → Pend) (results : List Nat → List LaneResult) (hs : s.mem.wf = true) :
    okR (Issue.load o s eas n signed noEf mark results) := by
  unfold Issue.load
  repeat' first | dsimp only | split | with_reducible first | assumption | intro _ | apply State.fillTlb_wf | apply Issue.hold_wf | apply Issue.pend_wf | apply spread_wf | apply Issue.check_wf | apply State.modPend_wf | apply Issue.loadLine_wf | apply Issue.access_wf | refine wf_foldl ?_ ?_ | refine okR_of_bad (by assumption) ?_ | refine okR_stall ?_

theorem Issue.store_wf (o : Issue) (s : State) (eas : List (Nat × PVal)) (n : Nat) (noEf : Bool) (data : Nat → List (Byte × Bool)) (hs : s.mem.wf = true) :
    okR (Issue.store o s eas n noEf data) := by
  unfold Issue.store
  repeat' first | dsimp only | split | with_reducible first | assumption | intro _ | apply State.fillTlb_wf | apply Issue.hold_wf | apply Issue.check_wf | apply Issue.access_wf | refine wf_foldl ?_ ?_ | refine okR_of_bad (by assumption) ?_ | refine okR_stall ?_

theorem State.memStore_wf (s : State) (key : Nat) (data : List (Byte × Bool)) (hs : s.mem.wf = true) : (State.memStore s key data).mem.wf = true := by
  unfold State.memStore
  repeat' first | dsimp only | with_reducible first | assumption | refine Mem.wf_store _ _ ?_

theorem State.releasePiece_wf (s : State) (e : Held) (p : Piece) (hs : s.mem.wf = true) : (State.releasePiece s e p).mem.wf = true := by
  unfold State.releasePiece
  repeat' first | dsimp only | split | with_reducible first | assumption | apply Mem.modLine_wf | apply State.send_wf | apply State.staleFills_wf | apply State.memStore_wf

theorem State.flushRange_wf (s : State) (tile ctx uid issue lo hi : Nat) (drop : Bool) (hs : s.mem.wf = true) :
    (State.flushRange s tile ctx uid issue lo hi drop).2.mem.wf = true := by
  unfold State.flushRange
  repeat' first | with_reducible first | assumption | apply State.cleanLines_wf

end Sys2Proof.Machine
end

