-- ==== Sys2Proof/Laws/FormAccess.lean ====
section
/-! SUPPORT. Memory keeps its canonical form: instructions that reach memory, objects, copies, forests and bindings. -/

namespace Sys2Proof.Machine

/-! ### Machine/Loads.lean -/

theorem State.cleanPair_wf (s : State) (tile ctx uid issue e n : Nat) (hs : s.mem.wf = true) :
    (State.cleanPair s tile ctx uid issue e n).mem.wf = true := by
  unfold State.cleanPair
  repeat' first | dsimp only | with_reducible first | assumption | apply State.flushRange_wf

theorem execLd_wf (t : BitVec 3) (d a : Reg) (l : BitVec 4) (x : BitVec 1) (lit : Word) (s : State) (hs : s.mem.wf = true) :
    okN (execLd t d a l x lit s) := by
  unfold execLd
  repeat' first | dsimp only | split | with_reducible first | assumption | intro _ | apply issue_wf | apply Issue.load_wf

theorem execLdv_wf (d a : Reg) (l : BitVec 4) (x : BitVec 1) (lit : Word) (s : State) (hs : s.mem.wf = true) : okN (execLdv d a l x lit s) := by
  unfold execLdv
  repeat' first | dsimp only | split | with_reducible first | assumption | intro _ | apply issue_wf | apply Issue.load_wf

theorem Issue.loadK_wf (o : Issue) (s : State) (x : BitVec 1) (n : Nat) (hs : s.mem.wf = true) : okR (Issue.loadK o s x n) := by
  unfold Issue.loadK
  repeat' first | dsimp only | with_reducible first | assumption | apply Issue.load_wf

theorem execLdkB32_wf (d a : Reg) (l : BitVec 4) (x : BitVec 1) (lit : Word) (s : State) (hs : s.mem.wf = true) : okN (execLdkB32 d a l x lit s) := by
  unfold execLdkB32
  repeat' first | with_reducible first | assumption | intro _ | apply issue_wf | apply Issue.loadK_wf

theorem execLdkB64_wf (d a : Reg) (l : BitVec 4) (x : BitVec 1) (lit : Word) (s : State) (hs : s.mem.wf = true) : okN (execLdkB64 d a l x lit s) := by
  unfold execLdkB64
  repeat' first | with_reducible first | assumption | intro _ | apply issue_wf | apply Issue.loadK_wf

theorem execFmtld_wf (a : Reg) (l : BitVec 4) (x : BitVec 1) (lit : Word) (s : State) (hs : s.mem.wf = true) : okN (execFmtld a l x lit s) := by
  unfold execFmtld
  repeat' first | dsimp only | with_reducible first | assumption | intro _ | apply issue_wf | apply Issue.load_wf

theorem Issue.loadPair_wf (o : Issue) (s : State) (pid n : Nat) (run : List Access1) (hs : s.mem.wf = true) :
    (Issue.loadPair o s pid n run).mem.wf = true := by
  unfold Issue.loadPair
  repeat' first | dsimp only | split | with_reducible first | assumption | apply Issue.sendRead_wf | apply State.cleanPair_wf

theorem execLdmx_wf (d a : Reg) (l : BitVec 4) (x : BitVec 1) (lit : Word) (s : State) (hs : s.mem.wf = true) : okN (execLdmx d a l x lit s) := by
  unfold execLdmx
  repeat' first | dsimp only | split | with_reducible first | assumption | intro _ | apply draw_wf | apply State.fillTlb_wf | apply issue_wf | apply Issue.pend_wf | apply Issue.check_wf | apply State.modPend_wf | apply Issue.access_wf | apply Issue.loadPair_wf | refine wf_foldl ?_ ?_ | refine okR_of_bad (by assumption) ?_ | refine okR_stall ?_

theorem execSt_wf (n : BitVec 2) (d a b : Reg) (lit : Word) (s : State) (hs : s.mem.wf = true) : okN (execSt n d a b lit s) := by
  unfold execSt
  repeat' first | with_reducible first | assumption | intro _ | apply issue_wf | apply Issue.store_wf

theorem execStv_wf (d a b : Reg) (lit : Word) (s : State) (hs : s.mem.wf = true) : okN (execStv d a b lit s) := by
  unfold execStv
  repeat' first | with_reducible first | assumption | intro _ | apply issue_wf | apply Issue.store_wf

theorem execStmx_wf (d a b : Reg) (lit : Word) (s : State) (hs : s.mem.wf = true) : okN (execStmx d a b lit s) := by
  unfold execStmx
  repeat' first | dsimp only | split | with_reducible first | assumption | intro _ | apply State.fillTlb_wf | apply Issue.hold_wf | apply issue_wf | apply Issue.check_wf | apply Issue.access_wf | refine wf_foldl ?_ ?_ | refine okR_of_bad (by assumption) ?_ | refine okR_stall ?_ | exact okR_trap

theorem execPref_wf (a b : Reg) (lit : Word) (s : State) (hs : s.mem.wf = true) : okN (execPref a b lit s) := by
  unfold execPref
  repeat' first | dsimp only | split | with_reducible first | assumption | intro _ | apply Issue.plain_wf | apply issue_wf | apply Issue.addressPoison_wf | apply Issue.sendRead_wf | refine wf_foldl ?_ ?_

theorem Issue.lines_wf (o : Issue) (s : State) (f : Nat → Nat → Res) (hs : s.mem.wf = true) (hf : ∀ x0 x1, okR (f x0 x1)) :
    okR (Issue.lines o s f) := by
  unfold Issue.lines
  repeat' first | dsimp only | split | with_reducible first | assumption | apply Issue.single_wf | apply Issue.addressTrap_wf | apply Issue.addressPoison_wf | refine okR_stall ?_ | apply hf

theorem execFlush_wf (a b : Reg) (lit : Word) (s : State) (hs : s.mem.wf = true) : okN (execFlush a b lit s) := by
  unfold execFlush
  repeat' first | split | with_reducible first | assumption | intro _ | apply Issue.hold_wf | apply Issue.single_wf | apply issue_wf | apply Issue.lines_wf | refine okR_stall ?_

theorem execInvl_wf (a b : Reg) (lit : Word) (s : State) (hs : s.mem.wf = true) : okN (execInvl a b lit s) := by
  unfold execInvl
  repeat' first | with_reducible first | assumption | intro _ | apply Issue.single_wf | apply issue_wf | apply State.flushRange_wf | apply Issue.lines_wf

/-! ### Machine/Visibility.lean -/

theorem Issue.readObject_wf (o : Issue) (s : State) (pid n : Nat) (acquire : Bool) (x : Access1) (hs : s.mem.wf = true) :
    (Issue.readObject o s pid n acquire x).mem.wf = true := by
  unfold Issue.readObject
  repeat' first | dsimp only | split | with_reducible first | assumption | apply Issue.sendRead_wf | apply State.flushRange_wf

theorem execAcq_wf (d a : Reg) (l : BitVec 4) (x : BitVec 1) (lit : Word) (s : State) (hs : s.mem.wf = true) : okN (execAcq d a l x lit s) := by
  unfold execAcq
  repeat' first | dsimp only | split | with_reducible first | assumption | intro _ | apply draw_wf | apply State.fillTlb_wf | apply Issue.hold_wf | apply issue_wf | apply Issue.pend_wf | apply Issue.check_wf | apply Issue.access_wf | apply Issue.readObject_wf | refine wf_foldl ?_ ?_ | refine okR_of_bad (by assumption) ?_ | refine okR_stall ?_

theorem execRel_wf (d a b : Reg) (lit : Word) (s : State) (hs : s.mem.wf = true) : okN (execRel d a b lit s) := by
  unfold execRel
  repeat' first | dsimp only | split | with_reducible first | assumption | intro _ | apply State.fillTlb_wf | apply Issue.hold_wf | apply issue_wf | apply Issue.check_wf | apply Issue.access_wf | refine wf_foldl ?_ ?_ | refine okR_of_bad (by assumption) ?_ | refine okR_stall ?_

theorem execFence_wf (sc : BitVec 7) (s : State) (hs : s.mem.wf = true) : okN (execFence sc s) := by
  unfold execFence
  repeat' first | dsimp only | split | with_reducible first | assumption | intro _ | apply State.cleanLines_wf | apply Issue.single_wf | apply issue_wf | refine okR_stall ?_

/-! ### Machine/Atomics.lean -/

theorem Issue.atomic_wf (o : Issue) (s : State) (eas : List (Nat × PVal)) (align w bytes : Nat) (last : Nat → Option Nat) (width : Option Nat) (eff : Option Nat → List Access1 → Effect) (hs : s.mem.wf = true) :
    okR (Issue.atomic o s eas align w bytes last width eff) := by
  unfold Issue.atomic
  repeat' first | dsimp only | split | with_reducible first | assumption | intro _ | apply State.fillTlb_wf | apply Issue.hold_wf | apply Issue.pend_wf | apply spread_wf | apply Issue.check_wf | apply State.modPend_wf | apply Issue.access_wf | refine wf_foldl ?_ ?_ | refine okR_of_bad (by assumption) ?_ | refine okR_stall ?_

theorem execAtom_wf (op : BitVec 4) (w : BitVec 1) (d a : Reg) (l : BitVec 4) (x : BitVec 1) (lit : Word) (s : State) (hs : s.mem.wf = true) :
    okN (execAtom op w d a l x lit s) := by
  unfold execAtom
  repeat' first | dsimp only | with_reducible first | assumption | intro _ | apply issue_wf | apply Issue.atomic_wf

theorem execAcas_wf (w : BitVec 1) (d a : Reg) (l : BitVec 4) (x : BitVec 1) (lit : Word) (s : State) (hs : s.mem.wf = true) :
    okN (execAcas w d a l x lit s) := by
  unfold execAcas
  repeat' first | dsimp only | split | with_reducible first | assumption | intro _ | apply issue_wf | apply Issue.atomic_wf

theorem execAfadd_wf (d a : Reg) (l : BitVec 4) (x : BitVec 1) (lit : Word) (s : State) (hs : s.mem.wf = true) : okN (execAfadd d a l x lit s) := by
  unfold execAfadd
  repeat' first | dsimp only | with_reducible first | assumption | intro _ | apply issue_wf | apply Issue.atomic_wf

theorem execAfmm_wf (d a : Reg) (l : BitVec 4) (x m : BitVec 1) (lit : Word) (s : State) (hs : s.mem.wf = true) : okN (execAfmm d a l x m lit s) := by
  unfold execAfmm
  repeat' first | dsimp only | with_reducible first | assumption | intro _ | apply issue_wf | apply Issue.atomic_wf

theorem execAred_wf (op : BitVec 4) (w : BitVec 1) (d a b : Reg) (lit : Word) (s : State) (hs : s.mem.wf = true) :
    okN (execAred op w d a b lit s) := by
  unfold execAred
  repeat' first | dsimp only | with_reducible first | assumption | intro _ | apply issue_wf | apply Issue.atomic_wf

theorem execAprog_wf (d a : Reg) (l : BitVec 4) (x : BitVec 1) (lit : Word) (s : State) (hs : s.mem.wf = true) : okN (execAprog d a l x lit s) := by
  unfold execAprog
  repeat' first | dsimp only | with_reducible first | assumption | intro _ | apply issue_wf | apply Issue.atomic_wf

theorem execApload_wf (a b : Reg) (lit : Word) (s : State) (hs : s.mem.wf = true) : okN (execApload a b lit s) := by
  unfold execApload
  repeat' first | dsimp only | split | with_reducible first | assumption | intro _ | apply Issue.hold_wf | apply Issue.single_wf | apply issue_wf | apply Issue.check_wf | apply Issue.access_wf | refine wf_foldl ?_ ?_ | refine okR_of_bad (by assumption) ?_ | refine okR_stall ?_ | exact okR_trap | exact okR_rollback

/-! ### Machine/Copies.lean -/

theorem copyTrap_wf (cause : Nat) (mask : List Nat → List Nat) (bad : List (Nat × Nat))   : okR (copyTrap cause mask bad) := by
  unfold copyTrap
  repeat' first | dsimp only | with_reducible first | exact okR_trap

theorem rangeTrap_wf (s : State) (mask : List Nat → List Nat) (rs : List Range) (hs : s.mem.wf = true) : okOR (rangeTrap s mask rs) := by
  unfold rangeTrap
  repeat' first | dsimp only | split | with_reducible first | apply copyTrap_wf | refine okOR_some ?_ | exact okOR_none

theorem Issue.startCopy_wf (o : Issue) (s : State) (ctl : Word) (ps : List Plan) (src dst : List (Nat × Nat)) (units cycles : Nat) (hs : s.mem.wf = true) :
    okR (Issue.startCopy o s ctl ps src dst units cycles) := by
  unfold Issue.startCopy
  repeat' first | dsimp only | split | with_reducible first | assumption | intro _ | apply fresh_wf | apply Issue.hold_wf | refine wf_foldl2 ?_ ?_ | refine okR_done ?_ | refine okR_stall ?_ | exact okR_trap

theorem Issue.laneCopies_wf (o : Issue) (s : State) (cpl : Bool) (hs : s.mem.wf = true) : okR (Issue.laneCopies o s cpl) := by
  unfold Issue.laneCopies
  repeat' first | dsimp only | with_reducible refine okR_ite ?_ ?_ | split | with_reducible first | assumption | apply Issue.plain_wf | apply rangeTrap_wf | apply Issue.startCopy_wf | refine okR_of_some (by assumption) ?_ | refine okR_stall ?_ | exact okR_trap | exact okR_rollback

theorem execCpl_wf (d a b : Reg) (lit : Word) (s : State) (hs : s.mem.wf = true) : okN (execCpl d a b lit s) := by
  unfold execCpl
  repeat' first | with_reducible first | assumption | intro _ | apply issue_wf | apply Issue.laneCopies_wf

theorem execCpf_wf (d a b : Reg) (lit : Word) (s : State) (hs : s.mem.wf = true) : okN (execCpf d a b lit s) := by
  unfold execCpf
  repeat' first | with_reducible first | assumption | intro _ | apply issue_wf | apply Issue.laneCopies_wf

theorem State.readNow_wf (s : State) (t : Team) (x : Access1) (n : Nat) (hs : s.mem.wf = true) : (State.readNow s t x n).1.mem.wf = true := by
  unfold State.readNow
  repeat' first | dsimp only | split | with_reducible first | assumption | apply State.fetchLine_wf

theorem execCpt_wf (d a b : Reg) (lit : Word) (s : State) (hs : s.mem.wf = true) : okN (execCpt d a b lit s) := by
  unfold execCpt
  repeat' first | dsimp only | with_reducible refine okR_ite ?_ ?_ | split | with_reducible first | assumption | intro _ | apply Issue.single_wf | apply issue_wf | apply Issue.check_wf | apply Issue.access_wf | apply rangeTrap_wf | apply Issue.startCopy_wf | apply State.readNow_wf | refine okR_of_bad (by assumption) ?_ | refine okR_of_some (by assumption) ?_ | refine okR_stall ?_ | exact okR_trap | exact okR_rollback

theorem execCpm_wf (d a b : Reg) (lit : Word) (s : State) (hs : s.mem.wf = true) : okN (execCpm d a b lit s) := by
  unfold execCpm
  repeat' first | dsimp only | with_reducible refine okR_ite ?_ ?_ | split | with_reducible first | assumption | intro _ | apply Issue.single_wf | apply issue_wf | apply copyTrap_wf | apply rangeTrap_wf | apply Issue.startCopy_wf | refine okR_of_some (by assumption) ?_ | refine okR_stall ?_ | exact okR_trap | exact okR_rollback

/-! ### Machine/Sync.lean -/

theorem execBinit_wf (d a b : Reg) (lit : Word) (s : State) (hs : s.mem.wf = true) : okN (execBinit d a b lit s) := by
  unfold execBinit
  repeat' first | dsimp only | split | with_reducible first | assumption | intro _ | apply Issue.hold_wf | apply issue_wf | apply Issue.checkWith_wf | apply Issue.access_wf | refine okR_of_bad (by assumption) ?_ | refine okR_stall ?_ | exact okR_trap | exact okR_rollback

theorem execArrive_wf (a b : Reg) (lit : Word) (s : State) (hs : s.mem.wf = true) : okN (execArrive a b lit s) := by
  unfold execArrive
  repeat' first | dsimp only | split | with_reducible first | assumption | intro _ | apply Issue.hold_wf | apply issue_wf | apply Issue.checkWith_wf | apply Issue.access_wf | refine okR_of_bad (by assumption) ?_ | refine okR_stall ?_

theorem execExpect_wf (d a b : Reg) (lit : Word) (s : State) (hs : s.mem.wf = true) : okN (execExpect d a b lit s) := by
  unfold execExpect
  repeat' first | dsimp only | split | with_reducible first | assumption | intro _ | apply draw_wf | apply Issue.hold_wf | apply issue_wf | apply Issue.pend_wf | apply Issue.checkWith_wf | apply Issue.access_wf | refine okR_of_bad (by assumption) ?_ | refine okR_stall ?_ | exact okR_rollback

theorem execCadd_wf (d a b : Reg) (lit : Word) (s : State) (hs : s.mem.wf = true) : okN (execCadd d a b lit s) := by
  unfold execCadd
  repeat' first | dsimp only | split | with_reducible first | assumption | intro _ | apply State.fillTlb_wf | apply Issue.hold_wf | apply issue_wf | apply Issue.checkWith_wf | apply Issue.access_wf | refine wf_foldl ?_ ?_ | refine okR_of_bad (by assumption) ?_ | refine okR_stall ?_

theorem execCread_wf (d a : Reg) (l : BitVec 4) (x : BitVec 1) (lit : Word) (s : State) (hs : s.mem.wf = true) : okN (execCread d a l x lit s) := by
  unfold execCread
  repeat' first | dsimp only | split | with_reducible first | assumption | intro _ | apply draw_wf | apply State.fillTlb_wf | apply issue_wf | apply Issue.pend_wf | apply Issue.checkWith_wf | apply Issue.access_wf | apply Issue.readObject_wf | refine wf_foldl ?_ ?_ | refine okR_of_bad (by assumption) ?_ | refine okR_stall ?_

theorem State.acquire_wf (s : State) (tile ctx uid : Nat) (regions : List (Nat × Nat)) (hs : s.mem.wf = true) :
    (State.acquire s tile ctx uid regions).mem.wf = true := by
  unfold State.acquire
  repeat' first | with_reducible first | assumption | apply State.cleanLines_wf

theorem execWait_wf (d a b : Reg) (lit : Word) (s : State) (hs : s.mem.wf = true) : okN (execWait d a b lit s) := by
  unfold execWait
  repeat' first | dsimp only | with_reducible refine okR_ite ?_ ?_ | split | with_reducible first | assumption | intro _ | apply Issue.single_wf | apply issue_wf | apply Issue.checkWith_wf | apply Issue.access_wf | apply State.flushRange_wf | apply State.acquire_wf | refine okR_ite ?_ ?_ | refine okR_of_bad (by assumption) ?_ | refine okR_stall ?_ | refine okR_wait ?_ | exact okR_trap | exact okR_rollback

theorem Issue.withTag_wf (o : Issue) (k : Nat → Res) (hk : ∀ x0, okR (k x0)) : okR (Issue.withTag o k) := by
  unfold Issue.withTag
  repeat' first | dsimp only | split | with_reducible first | exact okR_trap | exact okR_rollback | apply hk

theorem execBseal_wf (a : Reg) (lit : Word) (s : State) (hs : s.mem.wf = true) : okN (execBseal a lit s) := by
  unfold execBseal
  repeat' first | dsimp only | split | with_reducible first | assumption | intro _ | apply Issue.single_wf | apply issue_wf | apply Issue.withTag_wf | exact okR_trap

theorem execBwait_wf (a : Reg) (lit : Word) (s : State) (hs : s.mem.wf = true) : okN (execBwait a lit s) := by
  unfold execBwait
  repeat' first | dsimp only | split | with_reducible first | assumption | intro _ | apply Issue.single_wf | apply issue_wf | apply Issue.withTag_wf | refine okR_stall ?_

theorem execStallrd_wf (d a : Reg) (lit : Word) (s : State) (hs : s.mem.wf = true) : okN (execStallrd d a lit s) := by
  unfold execStallrd
  repeat' first | dsimp only | split | with_reducible first | assumption | intro _ | apply Issue.single_wf | apply issue_wf | apply Issue.commit_wf | exact okR_trap | exact okR_rollback

/-! ### Machine/Equivalence.lean -/

theorem State.modForest_wf (s : State) (fid : Nat) (f : Forest → Forest) (hs : s.mem.wf = true) : (State.modForest s fid f).mem.wf = true := by
  unfold State.modForest
  repeat' first | dsimp only | with_reducible first | assumption

theorem State.eqHold_wf (s : State) (f : Forest) (rid wid va pa n v : Nat) (p result : Bool) (hs : s.mem.wf = true) :
    (State.eqHold s f rid wid va pa n v p result).mem.wf = true := by
  unfold State.eqHold
  repeat' first | dsimp only | with_reducible first | assumption | apply fresh_wf

theorem execEqset_wf (a : Reg) (lit : Word) (s : State) (hs : s.mem.wf = true) : okN (execEqset a lit s) := by
  unfold execEqset
  repeat' first | dsimp only | split | with_reducible first | assumption | intro _ | apply fresh_wf | apply Issue.single_wf | apply issue_wf | apply Issue.check_wf | apply Issue.access_wf | apply State.eqHold_wf | refine okR_of_bad (by assumption) ?_ | refine okR_stall ?_ | exact okR_trap

theorem Issue.request__wf (o : Issue) (s : State) (kind fid : Nat) (pid : Option Nat) (block : List PWord) (lanes : List (Nat × PWord × PWord)) (hs : s.mem.wf = true) :
    (Issue.request_ o s kind fid pid block lanes).mem.wf = true := by
  unfold Issue.request_
  repeat' first | dsimp only | with_reducible first | assumption | apply fresh_wf | apply Issue.hold_wf

theorem State.startWalks_wf (s : State) (engine : Nat) (hs : s.mem.wf = true) : (State.startWalks s engine).mem.wf = true := by
  unfold State.startWalks
  repeat' first | dsimp only | with_reducible first | assumption | intro _ | apply fresh_wf | refine wf_foldl ?_ ?_

theorem Issue.walks_wf (o : Issue) (s : State) (kind : Nat) (x y : Nat → PVal) (hs : s.mem.wf = true) : okR (Issue.walks o s kind x y) := by
  unfold Issue.walks
  repeat' first | dsimp only | split | with_reducible first | assumption | apply draw_wf | apply Issue.plain_wf | apply Issue.pend_wf | apply State.modPend_wf | apply Issue.request__wf | refine okR_stall ?_ | exact okR_trap | exact okR_rollback

theorem execUnite_wf (d a : Reg) (l : BitVec 4) (lit : Word) (s : State) (hs : s.mem.wf = true) : okN (execUnite d a l lit s) := by
  unfold execUnite
  repeat' first | with_reducible first | assumption | intro _ | apply issue_wf | apply Issue.walks_wf

theorem execFind_wf (d a : Reg) (l : BitVec 4) (lit : Word) (s : State) (hs : s.mem.wf = true) : okN (execFind d a l lit s) := by
  unfold execFind
  repeat' first | with_reducible first | assumption | intro _ | apply issue_wf | apply Issue.walks_wf

theorem execSame_wf (d a : Reg) (l : BitVec 4) (lit : Word) (s : State) (hs : s.mem.wf = true) : okN (execSame d a l lit s) := by
  unfold execSame
  repeat' first | with_reducible first | assumption | intro _ | apply issue_wf | apply Issue.walks_wf

theorem execRelabel_wf (a : Reg) (lit : Word) (s : State) (hs : s.mem.wf = true) : okN (execRelabel a lit s) := by
  unfold execRelabel
  repeat' first | dsimp only | with_reducible refine okR_ite ?_ ?_ | split | with_reducible first | assumption | intro _ | apply Issue.single_wf | apply issue_wf | apply Issue.request__wf | refine okR_stall ?_ | exact okR_trap | exact okR_rollback

theorem Issue.mark_wf (o : Issue) (s : State) (kind : Nat) (hs : s.mem.wf = true) : okR (Issue.mark o s kind) := by
  unfold Issue.mark
  repeat' first | dsimp only | split | with_reducible first | assumption | apply Issue.single_wf | apply Issue.pend_wf | apply State.modPend_wf | apply Issue.request__wf | refine okR_stall ?_ | exact okR_trap

theorem execEqsnap_wf (d : Reg) (lit : Word) (s : State) (hs : s.mem.wf = true) : okN (execEqsnap d lit s) := by
  unfold execEqsnap
  repeat' first | with_reducible first | assumption | intro _ | apply issue_wf | apply Issue.mark_wf

theorem execEqundo_wf (d : Reg) (lit : Word) (s : State) (hs : s.mem.wf = true) : okN (execEqundo d lit s) := by
  unfold execEqundo
  repeat' first | with_reducible first | assumption | intro _ | apply issue_wf | apply Issue.mark_wf

theorem execEqdrop_wf (d : Reg) (lit : Word) (s : State) (hs : s.mem.wf = true) : okN (execEqdrop d lit s) := by
  unfold execEqdrop
  repeat' first | with_reducible first | assumption | intro _ | apply issue_wf | apply Issue.mark_wf

theorem execEqsize_wf (d : Reg) (lit : Word) (s : State) (hs : s.mem.wf = true) : okN (execEqsize d lit s) := by
  unfold execEqsize
  repeat' first | dsimp only | split | with_reducible first | assumption | intro _ | apply draw_wf | apply fresh_wf | apply Issue.single_wf | apply issue_wf | apply Issue.pend_wf | apply State.modPend_wf | exact okR_trap

theorem execEqfence_wf (s : State) (hs : s.mem.wf = true) : okN (execEqfence s) := by
  unfold execEqfence
  repeat' first | dsimp only | split | with_reducible first | assumption | intro _ | apply Issue.single_wf | apply issue_wf | apply State.flushRange_wf | refine wf_foldl2 ?_ ?_ | refine okR_stall ?_ | exact okR_trap

/-! ### Machine/Binding.lean -/

theorem Issue.bindTrap_wf (o : Issue) (cause base : Nat)   : okR (Issue.bindTrap o cause base) := by
  unfold Issue.bindTrap
  repeat' first | with_reducible first | exact okR_trap

theorem execBind_wf (a b : Reg) (lit : Word) (s : State) (hs : s.mem.wf = true) : okN (execBind a b lit s) := by
  unfold execBind
  repeat' first | dsimp only | split | with_reducible first | assumption | intro _ | apply Issue.hold_wf | apply Issue.single_wf | apply issue_wf | apply Issue.bindTrap_wf | refine okR_stall ?_ | exact okR_trap | exact okR_rollback

theorem execUnbind_wf (a : Reg) (lit : Word) (s : State) (hs : s.mem.wf = true) : okN (execUnbind a lit s) := by
  unfold execUnbind
  repeat' first | dsimp only | split | with_reducible first | assumption | intro _ | apply Issue.hold_wf | apply Issue.single_wf | apply issue_wf | apply Issue.bindTrap_wf | refine okR_stall ?_ | exact okR_rollback

theorem State.setBinding_wf (s : State) (c i : Nat) (v : Nat) (hs : s.mem.wf = true) : (State.setBinding s c i v).mem.wf = true := by
  unfold State.setBinding
  repeat' first | dsimp only | split | with_reducible first | assumption | refine Mem.wf_write _ _ ?_

theorem State.bindNow_wf (s : State) (c base pages obj : Nat) (hs : s.mem.wf = true) : (State.bindNow s c base pages obj).2.mem.wf = true := by
  unfold State.bindNow
  repeat' first | dsimp only | split | with_reducible first | assumption | apply State.setBinding_wf

theorem State.unbindNow_wf (s : State) (c base : Nat) (hs : s.mem.wf = true) : (State.unbindNow s c base).2.mem.wf = true := by
  unfold State.unbindNow
  repeat' first | dsimp only | split | with_reducible first | assumption | apply State.setBinding_wf

theorem State.defer_wf (s : State) (uid cause : Nat) (pc : BitVec 48) (time : Nat) (word : Word) (mask : LaneMask) (tval : List (Nat × Dword)) (hs : s.mem.wf = true) :
    (State.defer s uid cause pc time word mask tval).mem.wf = true := by
  unfold State.defer
  repeat' first | with_reducible first | assumption | apply State.modTeam_wf

theorem State.deferFor_wf (s : State) (uid tile ctx : Nat) (d : Deferred) (hs : s.mem.wf = true) :
    (State.deferFor s uid tile ctx d).mem.wf = true := by
  unfold State.deferFor
  repeat' first | dsimp only | split | with_reducible first | assumption | apply fresh_wf | apply State.modTeam_wf

theorem State.spreadBinding_wf (s : State) (c : Nat) (es : List (Nat × Nat × Nat)) (hs : s.mem.wf = true) :
    (State.spreadBinding s c es).2.mem.wf = true := by
  unfold State.spreadBinding
  repeat' first | dsimp only | with_reducible first | assumption | intro _ | apply draw_wf | apply State.modCtx_wf | refine wf_foldl3 ?_ ?_

theorem execBindingUpdate_wf (id : Nat) (s : State) (hs : s.mem.wf = true) : okN (execBindingUpdate id s) := by
  unfold execBindingUpdate
  repeat' first | dsimp only | split | with_reducible first | assumption | apply draw_wf | apply State.bindNow_wf | apply State.unbindNow_wf | apply State.defer_wf | apply State.spreadBinding_wf | refine okN_next ?_

theorem execTlbinv_wf (a b : Reg) (lit : Word) (s : State) (hs : s.mem.wf = true) : okN (execTlbinv a b lit s) := by
  unfold execTlbinv
  repeat' first | dsimp only | split | with_reducible first | assumption | intro _ | apply State.privDone_wf | apply Issue.plain_wf | apply issue_wf | simp only [wf_mk] | refine okN_next ?_

theorem execWcs_wf (a b : Reg) (lit : Word) (s : State) (hs : s.mem.wf = true) : okN (execWcs a b lit s) := by
  unfold execWcs
  repeat' first | dsimp only | split | with_reducible first | assumption | intro _ | apply State.privDone_wf | apply Issue.plain_wf | apply issue_wf | refine okN_next ?_

end Sys2Proof.Machine
end

