-- ==== Sys2Proof/Laws/FormUnits.lean ====
section
/-! SUPPORT. Memory keeps its canonical form: homes, links, matrix commands, records, admission, control and the dispatcher. -/

namespace Sys2Proof.Machine

/-! ### Machine/Homes.lean -/

theorem State.sendBack_wf (s : State) (x : Net) (hs : s.mem.wf = true) : (State.sendBack s x).mem.wf = true := by
  unfold State.sendBack
  repeat' first | dsimp only | split | with_reducible first | assumption | apply draw_wf

theorem State.answer_wf (s : State) (x : Net) (force : Bool) (late : Nat) (act : Act) (hs : s.mem.wf = true) :
    (State.answer s x force late act).mem.wf = true := by
  unfold State.answer
  repeat' first | dsimp only | split | with_reducible first | assumption | apply fresh_wf | apply State.sendBack_wf

theorem State.failAt_wf (s : State) (x : Net) (cause : Nat) (xs : List (Nat × Nat)) (pid : Option Nat) (hs : s.mem.wf = true) :
    (State.failAt s x cause xs pid).mem.wf = true := by
  unfold State.failAt
  repeat' first | dsimp only | split | with_reducible first | assumption | apply State.modPend_wf | apply State.defer_wf | apply State.answer_wf

theorem State.failNet_wf (s : State) (x : Net) (cause : Nat) (hs : s.mem.wf = true) : (State.failNet s x cause).mem.wf = true := by
  unfold State.failNet
  repeat' first | dsimp only | split | with_reducible first | assumption | apply State.answer_wf | apply State.failAt_wf

theorem State.readPair_wf (s : State) (x : Net) (pid ea n : Nat) (own : List (Option (Byte × Bool))) (lanes : List Nat) (sb : Nat) (hs : s.mem.wf = true) :
    (State.readPair s x pid ea n own lanes sb).mem.wf = true := by
  unfold State.readPair
  repeat' first | dsimp only | split | with_reducible first | assumption | apply State.errorRecord_wf | apply State.answer_wf

theorem State.performLoad_wf (s : State) (x : Net) (pid : Nat) (xs : List (Nat × Nat × List (Option (Byte × Bool)))) (n : Nat) (sg : Bool) (fill : Option Bool) (hs : s.mem.wf = true) :
    (State.performLoad s x pid xs n sg fill).mem.wf = true := by
  unfold State.performLoad
  repeat' first | dsimp only | split | with_reducible first | assumption | apply fresh_wf | apply State.answer_wf | apply State.failNet_wf

theorem State.performAccess_wf (s : State) (x : Net) (hs : s.mem.wf = true) : (State.performAccess s x).mem.wf = true := by
  unfold State.performAccess
  repeat' first | dsimp only | split | with_reducible first | assumption | intro _ | apply State.memStore_wf | apply State.answer_wf | apply State.failNet_wf | apply State.readPair_wf | apply State.performLoad_wf | refine wf_foldl ?_ ?_

theorem State.performAtomic_wf (s : State) (x : Net) (pid : Option Nat) (op : AtomOp) (r : AtomReq) (hs : s.mem.wf = true) :
    (State.performAtomic s x pid op r).mem.wf = true := by
  unfold State.performAtomic
  repeat' first | dsimp only | split | with_reducible first | assumption | apply State.memStore_wf | apply State.answer_wf | apply State.failNet_wf

theorem State.performAprog_wf (s : State) (x : Net) (pid : Nat) (r : AtomReq) (hs : s.mem.wf = true) :
    (State.performAprog s x pid r).mem.wf = true := by
  unfold State.performAprog
  repeat' first | dsimp only | split | with_reducible first | assumption | apply State.modPend_wf | apply State.memStore_wf | apply State.answer_wf

theorem execAtomicPerform_wf (id : Nat) (s : State) (hs : s.mem.wf = true) : okN (execAtomicPerform id s) := by
  unfold execAtomicPerform
  repeat' first | split | with_reducible first | assumption | apply State.performAtomic_wf | refine okN_next ?_

theorem execAprogRun_wf (id : Nat) (s : State) (hs : s.mem.wf = true) : okN (execAprogRun id s) := by
  unfold execAprogRun
  repeat' first | split | with_reducible first | assumption | apply State.performAprog_wf | refine okN_next ?_

theorem execAprogTimeout_wf (id : Nat) (s : State) (hs : s.mem.wf = true) : okN (execAprogTimeout id s) := by
  unfold execAprogTimeout
  repeat' first | split | with_reducible first | assumption | apply State.performAprog_wf | refine okN_next ?_

theorem execHomeCommit_wf (id : Nat) (s : State) (hs : s.mem.wf = true) : okN (execHomeCommit id s) := by
  unfold execHomeCommit
  repeat' first | dsimp only | split | with_reducible first | assumption | apply State.sendBack_wf | refine okN_next ?_

theorem State.parkRequest_wf (s : State) (x : Net) (t : Team) (level : Nat) (hs : s.mem.wf = true) :
    (State.parkRequest s x t level).mem.wf = true := by
  unfold State.parkRequest
  repeat' first | dsimp only | split | with_reducible first | assumption | apply State.modTeam_wf | apply State.parkFault_wf

theorem execMoved_wf (id : Nat) (s : State) (hs : s.mem.wf = true) : okN (execMoved id s) := by
  unfold execMoved
  repeat' first | dsimp only | split | with_reducible first | assumption | apply draw_wf | apply State.failNet_wf | apply State.parkRequest_wf | refine okN_next ?_

theorem State.moveCopy_wf (s : State) (m : Moving) (hs : s.mem.wf = true) : (State.moveCopy s m).2.mem.wf = true := by
  unfold State.moveCopy
  repeat' first | dsimp only | split | with_reducible first | assumption | intro _ | apply State.send_wf | apply State.memStore_wf | refine wf_foldl2 ?_ ?_

theorem State.moveOn_wf (s : State) (m : Moving) (hs : s.mem.wf = true) : (State.moveOn s m).mem.wf = true := by
  unfold State.moveOn
  repeat' first | dsimp only | split | with_reducible first | assumption | apply State.memStore_wf | apply State.moveCopy_wf | simp only [wf_mk]

theorem State.moveStep_wf (s : State) (hs : s.mem.wf = true) : okO (State.moveStep s) := by
  unfold State.moveStep
  repeat' first | with_reducible first | assumption | intro _ | apply State.moveOn_wf | refine okO_map ?_

theorem State.setBarrier_wf (s : State) (ea : Nat) (b : Barrier) (hs : s.mem.wf = true) : (State.setBarrier s ea b).mem.wf = true := by
  unfold State.setBarrier
  repeat' first | with_reducible first | assumption | apply State.memStore_wf

theorem execBarrierArrival_wf (id : Nat) (s : State) (hs : s.mem.wf = true) : okN (execBarrierArrival id s) := by
  unfold execBarrierArrival
  repeat' first | dsimp only | split | with_reducible first | assumption | apply State.answer_wf | apply State.failNet_wf | apply State.setBarrier_wf | refine okN_next ?_

theorem execExpectation_wf (id : Nat) (s : State) (hs : s.mem.wf = true) : okN (execExpectation id s) := by
  unfold execExpectation
  repeat' first | dsimp only | split | with_reducible first | assumption | apply State.answer_wf | apply State.failNet_wf | apply State.setBarrier_wf | refine okN_next ?_

theorem execEngineCredit_wf (id : Nat) (s : State) (hs : s.mem.wf = true) : okN (execEngineCredit id s) := by
  unfold execEngineCredit
  repeat' first | dsimp only | split | with_reducible first | assumption | apply State.defer_wf | apply State.answer_wf | apply State.setBarrier_wf | refine okN_next ?_

/-! ### Machine/Links.lean -/

theorem State.modPort_wf (s : State) (p : Nat) (f : Port → Port) (hs : s.mem.wf = true) : (State.modPort s p f).mem.wf = true := by
  unfold State.modPort
  repeat' first | dsimp only | with_reducible first | assumption

theorem State.hubSend_wf (s : State) (m : Out) (hs : s.mem.wf = true) : (State.hubSend s m).mem.wf = true := by
  unfold State.hubSend
  repeat' first | dsimp only | with_reducible first | assumption | apply fresh_wf

theorem State.toLink_wf (s : State) (x : Net) (hs : s.mem.wf = true) : (State.toLink s x).mem.wf = true := by
  unfold State.toLink
  repeat' first | dsimp only | split | with_reducible first | assumption | apply State.failNet_wf | apply State.hubSend_wf

theorem execOrderingPointAccess_wf (id : Nat) (s : State) (hs : s.mem.wf = true) : okN (execOrderingPointAccess id s) := by
  unfold execOrderingPointAccess
  repeat' first | split | with_reducible first | assumption | apply State.failNet_wf | apply State.performAccess_wf | apply State.toLink_wf | refine okN_next ?_

theorem State.take_wf (s : State) (port tag : Nat) (hs : s.mem.wf = true) : okOP (State.take s port tag) := by
  unfold State.take
  repeat' first | dsimp only | with_reducible first | assumption | intro _ | refine okOP_map ?_

theorem execReadData_wf (port tag : Nat) (bytes : List Byte) (poison : BitVec 16) (s : State) (hs : s.mem.wf = true) :
    okN (execReadData port tag bytes poison s) := by
  unfold execReadData
  repeat' first | dsimp only | split | with_reducible first | assumption | apply State.memStore_wf | apply State.performAccess_wf | apply State.take_wf | refine wf_of_someP (by assumption) ?_ | refine okN_next ?_

theorem execWriteAcknowledgement_wf (port tag : Nat) (s : State) (hs : s.mem.wf = true) : okN (execWriteAcknowledgement port tag s) := by
  unfold execWriteAcknowledgement
  repeat' first | split | with_reducible first | assumption | apply State.performAccess_wf | apply State.take_wf | refine wf_of_someP (by assumption) ?_ | refine okN_next ?_

theorem execRefused_wf (port tag : Nat) (s : State) (hs : s.mem.wf = true) : okN (execRefused port tag s) := by
  unfold execRefused
  repeat' first | dsimp only | split | with_reducible first | assumption | apply State.failNet_wf | apply State.take_wf | refine wf_of_someP (by assumption) ?_ | refine okN_next ?_

theorem execErrorResponse_wf (port tag : Nat) (s : State) (hs : s.mem.wf = true) : okN (execErrorResponse port tag s) := by
  unfold execErrorResponse
  repeat' first | split | with_reducible first | assumption | apply State.failNet_wf | apply State.take_wf | refine wf_of_someP (by assumption) ?_ | refine okN_next ?_

theorem execAtomicResult_wf (port tag : Nat) (v : AtomValue) (s : State) (hs : s.mem.wf = true) : okN (execAtomicResult port tag v s) := by
  unfold execAtomicResult
  repeat' first | split | with_reducible first | assumption | apply State.answer_wf | apply State.take_wf | refine wf_of_someP (by assumption) ?_ | refine okN_next ?_

theorem execHostTimeout_wf (port tag : Nat) (s : State) (hs : s.mem.wf = true) : okN (execHostTimeout port tag s) := by
  unfold execHostTimeout
  repeat' first | split | with_reducible first | assumption | apply State.failNet_wf | apply State.take_wf | refine wf_of_someP (by assumption) ?_ | refine okN_next ?_

theorem State.inbound_wf (s : State) (port tag op ctx va pa : Nat) (act : Act) (hs : s.mem.wf = true) :
    (State.inbound s port tag op ctx va pa act).mem.wf = true := by
  unfold State.inbound
  repeat' first | with_reducible first | assumption | apply State.send_wf

theorem State.turnAway_wf (s : State) (port tag op va : Nat) (hs : s.mem.wf = true) : (State.turnAway s port tag op va).mem.wf = true := by
  unfold State.turnAway
  repeat' first | with_reducible first | assumption | apply State.hubSend_wf

theorem execLinkRead_wf (port tag : Nat) (ctx : Option Nat) (va n : Nat) (demand : ReadHead) (s : State) (hs : s.mem.wf = true) :
    okN (execLinkRead port tag ctx va n demand s) := by
  unfold execLinkRead
  repeat' first | split | with_reducible first | assumption | apply State.inbound_wf | apply State.turnAway_wf | refine okN_next ?_

theorem execLinkWrite_wf (port tag : Nat) (ctx : Option Nat) (va : Nat) (bytes : List Byte) (poison : WriteHead) (s : State) (hs : s.mem.wf = true) :
    okN (execLinkWrite port tag ctx va bytes poison s) := by
  unfold execLinkWrite
  repeat' first | split | with_reducible first | assumption | apply State.inbound_wf | apply State.turnAway_wf | refine okN_next ?_

theorem execLinkAtomic_wf (port tag pa op : Nat) (w : AtomHead) (x y : AtomWord) (s : State) (hs : s.mem.wf = true) :
    okN (execLinkAtomic port tag pa op w x y s) := by
  unfold execLinkAtomic
  repeat' first | split | with_reducible first | assumption | apply State.inbound_wf | apply State.turnAway_wf | refine okN_next ?_

theorem State.answerOut_wf (s : State) (x : Net) (hs : s.mem.wf = true) : (State.answerOut s x).mem.wf = true := by
  unfold State.answerOut
  repeat' first | dsimp only | split | with_reducible first | assumption | apply State.hubSend_wf

theorem execHubHoldRelease_wf (id : Nat) (s : State) (hs : s.mem.wf = true) : okN (execHubHoldRelease id s) := by
  unfold execHubHoldRelease
  repeat' first | dsimp only | split | with_reducible first | assumption | refine okN_next ?_

theorem execPortBringUp_wf (port peer : Nat) (s : State) (hs : s.mem.wf = true) : okN (execPortBringUp port peer s) := by
  unfold execPortBringUp
  repeat' first | dsimp only | split | with_reducible first | assumption | apply State.modPort_wf | refine okN_next ?_

theorem State.failPort_wf (s : State) (port cause : Nat) (hs : s.mem.wf = true) : (State.failPort s port cause).mem.wf = true := by
  unfold State.failPort
  repeat' first | dsimp only | with_reducible first | assumption | intro _ | apply State.failNet_wf | refine wf_foldl ?_ ?_

theorem execLossOfLock_wf (port wave : Nat) (s : State) (hs : s.mem.wf = true) : okN (execLossOfLock port wave s) := by
  unfold execLossOfLock
  repeat' first | split | with_reducible first | assumption | apply State.modPort_wf | refine okN_next ?_

theorem execTrainingDone_wf (port failed : Nat) (spareOk : Bool) (s : State) (hs : s.mem.wf = true) :
    okN (execTrainingDone port failed spareOk s) := by
  unfold execTrainingDone
  repeat' first | dsimp only | split | with_reducible first | assumption | apply State.modPort_wf | apply State.failPort_wf | refine okN_next ?_

theorem execBackInvalidate_wf (pa : Nat) (s : State) (hs : s.mem.wf = true) : okN (execBackInvalidate pa s) := by
  unfold execBackInvalidate
  repeat' first | with_reducible first | assumption | apply State.hubSend_wf | refine okN_next ?_

theorem execCxlFailure_wf (port : Nat) (s : State) (hs : s.mem.wf = true) : okN (execCxlFailure port s) := by
  unfold execCxlFailure
  repeat' first | dsimp only | split | with_reducible first | assumption | intro _ | apply State.failNet_wf | refine wf_foldl ?_ ?_ | refine okN_next ?_

/-! ### Machine/Matrix.lean -/

theorem State.modEngine_wf (s : State) (tile : Nat) (f : Engine → Engine) (hs : s.mem.wf = true) : (State.modEngine s tile f).mem.wf = true := by
  unfold State.modEngine
  repeat' first | dsimp only | with_reducible first | assumption

theorem Issue.collective_wf (o : Issue) (s : State) (k : GroupRt → List Word → Res) (hs : s.mem.wf = true) (hk : ∀ x0 x1, okR (k x0 x1)) :
    okR (Issue.collective o s k) := by
  unfold Issue.collective
  repeat' first | dsimp only | with_reducible refine okR_ite ?_ ?_ | split | with_reducible first | exact okR_trap | exact okR_rollback | apply hk

theorem execMcfg_wf (a : Reg) (lit : Word) (s : State) (hs : s.mem.wf = true) : okN (execMcfg a lit s) := by
  unfold execMcfg
  repeat' first | dsimp only | with_reducible refine okR_ite ?_ ?_ | split | with_reducible first | assumption | intro _ | apply Issue.hold_wf | apply Issue.single_wf | apply issue_wf | apply State.modEngine_wf | apply Issue.collective_wf | refine okR_stall ?_ | exact okR_trap

theorem Issue.append_wf (o : Issue) (s : State) (r : List Word) (pid : Option Nat) (hs : s.mem.wf = true) :
    (Issue.append o s r pid).2.mem.wf = true := by
  unfold Issue.append
  repeat' first | dsimp only | split | with_reducible first | assumption | apply fresh_wf | apply Issue.hold_wf | apply State.modEngine_wf

theorem Issue.command_wf (o : Issue) (s : State) (op : Nat) (hs : s.mem.wf = true) : okR (Issue.command o s op) := by
  unfold Issue.command
  repeat' first | dsimp only | with_reducible refine okR_ite ?_ ?_ | split | with_reducible first | assumption | intro _ | apply Issue.single_wf | apply Issue.commit_wf | apply Issue.collective_wf | apply Issue.append_wf | refine okR_stall ?_ | exact okR_trap

theorem execMldb_wf (d a : Reg) (lit : Word) (s : State) (hs : s.mem.wf = true) : okN (execMldb d a lit s) := by
  unfold execMldb
  repeat' first | with_reducible first | assumption | intro _ | apply issue_wf | apply Issue.command_wf

theorem execMma_wf (d a : Reg) (lit : Word) (s : State) (hs : s.mem.wf = true) : okN (execMma d a lit s) := by
  unfold execMma
  repeat' first | with_reducible first | assumption | intro _ | apply issue_wf | apply Issue.command_wf

theorem execMmas_wf (d a : Reg) (lit : Word) (s : State) (hs : s.mem.wf = true) : okN (execMmas d a lit s) := by
  unfold execMmas
  repeat' first | with_reducible first | assumption | intro _ | apply issue_wf | apply Issue.command_wf

theorem execMzero_wf (d a : Reg) (lit : Word) (s : State) (hs : s.mem.wf = true) : okN (execMzero d a lit s) := by
  unfold execMzero
  repeat' first | with_reducible first | assumption | intro _ | apply issue_wf | apply Issue.command_wf

theorem execMstore_wf (d a : Reg) (lit : Word) (s : State) (hs : s.mem.wf = true) : okN (execMstore d a lit s) := by
  unfold execMstore
  repeat' first | with_reducible first | assumption | intro _ | apply issue_wf | apply Issue.command_wf

theorem execMrun_wf (d a : Reg) (lit : Word) (s : State) (hs : s.mem.wf = true) : okN (execMrun d a lit s) := by
  unfold execMrun
  repeat' first | with_reducible first | assumption | intro _ | apply issue_wf | apply Issue.command_wf

theorem execMdrain_wf (d a : Reg) (lit : Word) (s : State) (hs : s.mem.wf = true) : okN (execMdrain d a lit s) := by
  unfold execMdrain
  repeat' first | dsimp only | with_reducible refine okR_ite ?_ ?_ | split | with_reducible first | assumption | intro _ | apply Issue.single_wf | apply issue_wf | apply Issue.pend_wf | apply Issue.collective_wf | apply Issue.append_wf | refine okR_stall ?_ | exact okR_trap

/-! ### Machine/Records.lean -/

theorem State.bumpTail_wf (s : State) (p : Posting) (hs : s.mem.wf = true) : (State.bumpTail s p).mem.wf = true := by
  unfold State.bumpTail
  repeat' first | dsimp only | split | with_reducible first | assumption | apply State.modCtx_wf

theorem State.writeRecord_wf (s : State) (p : Posting) (hs : s.mem.wf = true) : (State.writeRecord s p).mem.wf = true := by
  unfold State.writeRecord
  repeat' first | dsimp only | split | with_reducible first | assumption | apply State.modTeam_wf | apply State.memStore_wf | apply State.bumpTail_wf

theorem State.tellThread_wf (s : State) (j : Nat) (w : Word) (hs : s.mem.wf = true) : okO (State.tellThread s j w) := by
  unfold State.tellThread
  repeat' first | split | with_reducible first | assumption | apply State.modThread_wf | apply State.notify_wf | refine okO_some ?_ | exact okO_none

theorem State.tellRecord_wf (s : State) (p : Posting) (hs : s.mem.wf = true) : (State.tellRecord s p).mem.wf = true := by
  unfold State.tellRecord
  repeat' first | dsimp only | split | with_reducible first | assumption | apply State.tellThread_wf | refine wf_of_some (by assumption) ?_

theorem State.post_wf (s : State) (id : Nat) (k : RecordKind) (hs : s.mem.wf = true) : (State.post s id k).mem.wf = true := by
  unfold State.post
  repeat' first | dsimp only | split | with_reducible first | assumption | apply State.writeRecord_wf | apply State.tellRecord_wf

theorem execTrapRecordPost_wf (id : Nat) (s : State) (hs : s.mem.wf = true) : okN (execTrapRecordPost id s) := by
  unfold execTrapRecordPost
  repeat' first | with_reducible first | assumption | apply State.post_wf | refine okN_next ?_

theorem execFaultRecordPost_wf (id : Nat) (s : State) (hs : s.mem.wf = true) : okN (execFaultRecordPost id s) := by
  unfold execFaultRecordPost
  repeat' first | with_reducible first | assumption | apply State.post_wf | refine okN_next ?_

theorem execErrorRecordPost_wf (id : Nat) (s : State) (hs : s.mem.wf = true) : okN (execErrorRecordPost id s) := by
  unfold execErrorRecordPost
  repeat' first | with_reducible first | assumption | apply State.post_wf | refine okN_next ?_

theorem State.contextRecord_wf (s : State) (ctx cause value : Nat) (hs : s.mem.wf = true) :
    (State.contextRecord s ctx cause value).mem.wf = true := by
  unfold State.contextRecord
  repeat' first | dsimp only | with_reducible first | assumption | apply fresh_wf

theorem State.endLanes_wf (s : State) (uid : Nat) (hs : s.mem.wf = true) : (State.endLanes s uid).mem.wf = true := by
  unfold State.endLanes
  repeat' first | dsimp only | split | with_reducible first | assumption | apply State.modTeam_wf | apply State.dropGrants_wf | apply State.dropPends_wf

theorem State.setQuota_wf (s : State) (tile i : Nat) (q : BitVec 128) (hs : s.mem.wf = true) : (State.setQuota s tile i q).mem.wf = true := by
  unfold State.setQuota
  repeat' first | dsimp only | with_reducible first | assumption

theorem State.clearQuota_wf (s : State) (tile i : Nat) (q : BitVec 128) (hs : s.mem.wf = true) : (State.clearQuota s tile i q).mem.wf = true := by
  unfold State.clearQuota
  repeat' first | dsimp only | with_reducible first | assumption | intro _ | apply State.setQuota_wf | refine wf_foldl ?_ ?_

theorem State.releaseQuota_wf (s : State) (tile ctx kernel n : Nat) (hs : s.mem.wf = true) :
    (State.releaseQuota s tile ctx kernel n).mem.wf = true := by
  unfold State.releaseQuota
  repeat' first | dsimp only | split | with_reducible first | assumption | apply State.setQuota_wf | apply State.clearQuota_wf

theorem State.closeWindow_wf (s : State) (g : GroupRt) (hs : s.mem.wf = true) : (State.closeWindow s g).mem.wf = true := by
  unfold State.closeWindow
  repeat' first | dsimp only | split | with_reducible first | assumption

theorem State.closeGroup_wf (s : State) (gid : Nat) (hs : s.mem.wf = true) : (State.closeGroup s gid).mem.wf = true := by
  unfold State.closeGroup
  repeat' first | dsimp only | split | with_reducible first | assumption | apply State.modEngine_wf | apply State.closeWindow_wf

theorem State.dropMarks_wf (s : State) (c : Nat) (hs : s.mem.wf = true) : (State.dropMarks s c).mem.wf = true := by
  unfold State.dropMarks
  repeat' first | dsimp only | with_reducible first | assumption

theorem State.killContext_wf (s : State) (c : Nat) (hs : s.mem.wf = true) : (State.killContext s c).mem.wf = true := by
  unfold State.killContext
  repeat' first | dsimp only | with_reducible first | assumption | intro _ | apply State.modWindow_wf | apply State.discard_wf | apply State.dropGrants_wf | apply State.dropPends_wf | apply State.clearQuota_wf | apply State.closeWindow_wf | apply State.dropMarks_wf | refine wf_foldl ?_ ?_

theorem State.poisonWord_wf (s : State) (key : Nat) (hs : s.mem.wf = true) : (State.poisonWord s key).mem.wf = true := by
  unfold State.poisonWord
  repeat' first | dsimp only | with_reducible first | assumption | refine Mem.wf_setPoison _ _ ?_

theorem State.uncorrectable_wf (s : State) (ctx row : Nat) (hs : s.mem.wf = true) : (State.uncorrectable s ctx row).mem.wf = true := by
  unfold State.uncorrectable
  repeat' first | with_reducible first | assumption | apply State.contextRecord_wf | apply State.killContext_wf

theorem State.loseByte_wf (s : State) (key : Nat) (ctx : Option Nat) (unit place : Nat) (hs : s.mem.wf = true) :
    (State.loseByte s key ctx unit place).1.mem.wf = true := by
  unfold State.loseByte
  repeat' first | dsimp only | split | with_reducible first | assumption | apply State.poisonWord_wf

theorem State.lose_wf (s : State) (tile kind address : Nat) (hs : s.mem.wf = true) : (State.lose s tile kind address).1.mem.wf = true := by
  unfold State.lose
  repeat' first | dsimp only | split | with_reducible first | assumption | apply State.modTeam_wf | apply Mem.modLine_wf | apply State.modEngine_wf | apply State.loseByte_wf

theorem State.postLost_wf (s : State) (row : Nat) (x : Lost) (hs : s.mem.wf = true) : (s.postLost row x).mem.wf = true := by
  unfold State.postLost
  repeat' first | split | with_reducible first | assumption | apply State.errorRecord_wf | apply State.uncorrectable_wf

theorem execArrayRebuild_wf (tile kind row address : Nat) (other : Option (Nat × Nat)) (s : State) (hs : s.mem.wf = true) :
    okN (execArrayRebuild tile kind row address other s) := by
  unfold execArrayRebuild
  repeat' first | dsimp only | split | with_reducible first | assumption | apply draw_wf | apply State.errorRecord_wf | apply State.lose_wf | apply State.postLost_wf | refine okN_next ?_

/-! ### Machine/Admission.lean -/

theorem State.writeVa_wf (s : State) (ctx va : Nat) (bs : List Byte) (hs : s.mem.wf = true) : (State.writeVa s ctx va bs).mem.wf = true := by
  unfold State.writeVa
  repeat' first | dsimp only | split | with_reducible first | assumption | intro _ | apply State.memStore_wf | refine wf_foldl ?_ ?_

theorem State.modKernel_wf (s : State) (k : Kernel) (f : Kernel → Kernel) (hs : s.mem.wf = true) : (State.modKernel s k f).mem.wf = true := by
  unfold State.modKernel
  repeat' first | dsimp only | with_reducible first | assumption

theorem State.evictCold_wf (s : State) (ctx : Nat) (hs : s.mem.wf = true) : (State.evictCold s ctx).mem.wf = true := by
  unfold State.evictCold
  repeat' first | dsimp only | with_reducible first | assumption | intro _ | apply State.modCtx_wf | apply State.writeVa_wf | apply State.modKernel_wf | refine wf_foldl ?_ ?_

theorem State.loadKernel_wf (s : State) (k : Kernel) (hs : s.mem.wf = true) : okO (State.loadKernel s k) := by
  unfold State.loadKernel
  repeat' first | dsimp only | split | with_reducible first | assumption | apply State.modCtx_wf | apply State.writeVa_wf | apply State.modKernel_wf | apply State.evictCold_wf | refine wf_of_some (by assumption) ?_ | refine okO_some ?_ | exact okO_none

theorem State.modWork_wf (s : State) (id : Nat) (f : Work → Work) (hs : s.mem.wf = true) : (State.modWork s id f).mem.wf = true := by
  unfold State.modWork
  repeat' first | dsimp only | with_reducible first | assumption

theorem State.writeStatus_wf (s : State) (ctx record v : Nat) (hs : s.mem.wf = true) : (State.writeStatus s ctx record v).mem.wf = true := by
  unfold State.writeStatus
  repeat' first | with_reducible first | assumption | apply State.writeVa_wf

theorem State.startGrid_wf (s : State) (ctx record : Nat) (bs : List Byte) (timetable : Option Nat) (hs : s.mem.wf = true) :
    (State.startGrid s ctx record bs timetable).2.mem.wf = true := by
  unfold State.startGrid
  repeat' first | dsimp only | split | with_reducible first | assumption | apply fresh_wf | apply State.modKernel_wf | apply State.loadKernel_wf | apply State.writeStatus_wf | refine wf_of_some (by assumption) ?_

theorem State.measureFrom_wf (s : State) (c : Nat) (hs : s.mem.wf = true) : (State.measureFrom s c).mem.wf = true := by
  unfold State.measureFrom
  repeat' first | split | with_reducible first | assumption | apply State.modCtx_wf

theorem State.formTeam_wf (s : State) (w : Work) (g : GroupRt) (p : Spot) (x : TeamSpec) (hs : s.mem.wf = true) :
    (State.formTeam s w g p x).mem.wf = true := by
  unfold State.formTeam
  repeat' first | dsimp only | split | with_reducible first | assumption | intro _ | apply fresh_wf | apply State.cleanLines_wf | apply State.measureFrom_wf | refine wf_foldl ?_ ?_

theorem State.putMacros_wf (s : State) (tile : Nat) (ms : List (Nat × List Word)) (hs : s.mem.wf = true) :
    (State.putMacros s tile ms).mem.wf = true := by
  unfold State.putMacros
  repeat' first | dsimp only | with_reducible first | assumption | intro _ | refine wf_foldl ?_ ?_

theorem State.takeQuota_wf (s : State) (tile ctx : Nat) (p : Profile) (n : Nat) (hs : s.mem.wf = true) : okO (State.takeQuota s tile ctx p n) := by
  unfold State.takeQuota
  repeat' first | dsimp only | split | with_reducible first | assumption | apply State.setQuota_wf | apply State.putMacros_wf | refine okO_some ?_ | exact okO_none

theorem State.openWindow_wf (s : State) (p : Profile) (g : GroupRt) (hs : s.mem.wf = true) : okOP (State.openWindow s p g) := by
  unfold State.openWindow
  repeat' first | dsimp only | split | with_reducible first | assumption | apply State.setWindow_wf | refine okOP_some ?_ | exact okOP_none

theorem State.formTeams_wf (s : State) (w : Work) (g : GroupRt) (y0 : List TeamSpec) (hs : s.mem.wf = true) : okO (State.formTeams s w g y0) := by
  induction y0 generalizing s w g with
  | nil => 
    unfold State.formTeams
    repeat' first | with_reducible first | assumption | refine okO_some ?_
  | cons x xs ih => 
    unfold State.formTeams
    repeat' first | split | with_reducible first | assumption | apply ih | apply State.formTeam_wf | exact okO_none

theorem State.admitGroup_wf (s : State) (w : Work) (number gang tile : Nat) (ts : List TeamSpec) (hs : s.mem.wf = true) :
    okO (State.admitGroup s w number gang tile ts) := by
  unfold State.admitGroup
  repeat' first | dsimp only | split | with_reducible first | assumption | apply fresh_wf | apply State.takeQuota_wf | apply State.openWindow_wf | apply State.formTeams_wf | refine wf_of_some (by assumption) ?_ | refine wf_of_someP (by assumption) ?_ | exact okO_none

theorem State.admitAll_wf (s : State) (w : Work) (gang : Nat) (tiles : List Nat) (y0 : List Nat) (hs : s.mem.wf = true) :
    okO (State.admitAll s w gang tiles y0) := by
  induction y0 generalizing s w gang tiles with
  | nil => 
    unfold State.admitAll
    repeat' first | with_reducible first | assumption | refine okO_some ?_
  | cons x xs ih => 
    unfold State.admitAll
    repeat' first | split | with_reducible first | assumption | apply ih | intro _ | apply State.admitGroup_wf | refine okO_firstSome ?_ _ | refine wf_of_some (by assumption) ?_ | exact okO_none

theorem State.admitNext_wf (s : State) (w : Work) (tile : Nat) (hs : s.mem.wf = true) : okO (State.admitNext s w tile) := by
  unfold State.admitNext
  repeat' first | dsimp only | split | with_reducible first | assumption | apply State.modCtx_wf | apply State.modWork_wf | apply State.admitGroup_wf | apply State.admitAll_wf | refine wf_of_some (by assumption) ?_ | refine okO_some ?_ | exact okO_none

theorem State.setHamper_wf (s : State) (h : Hamper) (hs : s.mem.wf = true) : (State.setHamper s h).mem.wf = true := by
  unfold State.setHamper
  repeat' first | dsimp only | with_reducible first | assumption

theorem State.formHamper_wf (s : State) (h : Hamper) (hs : s.mem.wf = true) : (State.formHamper s h).mem.wf = true := by
  unfold State.formHamper
  repeat' first | dsimp only | split | with_reducible first | assumption | apply fresh_wf | apply State.setHamper_wf

theorem State.enterHamper_wf (s : State) (h : Hamper) (t : Task) (hs : s.mem.wf = true) : (State.enterHamper s h t).mem.wf = true := by
  unfold State.enterHamper
  repeat' first | dsimp only | split | with_reducible first | assumption | apply State.setHamper_wf | apply State.formHamper_wf

theorem State.drainPools_wf (s : State) (cluster : Nat) (y0 : Nat) (hs : s.mem.wf = true) : (State.drainPools s cluster y0).mem.wf = true := by
  induction y0 generalizing s cluster with
  | zero => 
    unfold State.drainPools
    repeat' first | with_reducible first | assumption
  | succ n ih => 
    unfold State.drainPools
    repeat' first | split | with_reducible first | assumption | apply ih | apply State.modCtx_wf | apply State.enterHamper_wf

theorem State.placeTask_wf (s : State) (cluster : Nat) (t : Task) (hs : s.mem.wf = true) : (State.placeTask s cluster t).2.mem.wf = true := by
  unfold State.placeTask
  repeat' first | dsimp only | split | with_reducible first | assumption | apply State.modCtx_wf | apply State.enterHamper_wf | apply State.drainPools_wf

theorem execHamperTimer_wf (cluster hamper : Nat) (s : State) (hs : s.mem.wf = true) : okN (execHamperTimer cluster hamper s) := by
  unfold execHamperTimer
  repeat' first | dsimp only | split | with_reducible first | assumption | apply State.formHamper_wf | refine okN_next ?_

theorem State.askArea_wf (s : State) (w : Work) (hs : s.mem.wf = true) : (State.askArea s w).mem.wf = true := by
  unfold State.askArea
  repeat' first | split | with_reducible first | assumption | apply State.tellThread_wf | apply State.modWork_wf | refine wf_of_some (by assumption) ?_

theorem execAdmission_wf (wid tile : Nat) (s : State) (hs : s.mem.wf = true) : okN (execAdmission wid tile s) := by
  unfold execAdmission
  repeat' first | dsimp only | split | with_reducible first | assumption | apply State.admitNext_wf | apply State.setHamper_wf | apply State.drainPools_wf | apply State.askArea_wf | refine wf_of_some (by assumption) ?_ | refine okN_next ?_

/-! ### Machine/Control.lean -/

theorem Issue.transfer_wf (o : Issue) (s : State) (targets : List (Nat × BitVec 48)) (ended : List Nat) (hs : s.mem.wf = true) :
    okR (Issue.transfer o s targets ended) := by
  unfold Issue.transfer
  repeat' first | with_reducible first | assumption | refine okR_done ?_

theorem Issue.begins_wf (_o : Issue) (s : State) (hs : s.mem.wf = true) : okR (Issue.begins _o s) := by
  unfold Issue.begins
  repeat' first | with_reducible first | assumption | refine okR_done ?_

theorem Issue.withTargets_wf (o : Issue) (k : (Nat → BitVec 48) → Res) (hk : ∀ x0, okR (k x0)) : okR (Issue.withTargets o k) := by
  unfold Issue.withTargets
  repeat' first | dsimp only | split | with_reducible first | exact okR_trap | exact okR_rollback | apply hk

theorem Issue.doCall_wf (o : Issue) (s : State) (x : Reg) (len : Nat) (target : Nat → BitVec 48) (hs : s.mem.wf = true) :
    okR (Issue.doCall o s x len target) := by
  unfold Issue.doCall
  repeat' first | dsimp only | split | with_reducible first | assumption | apply Issue.transfer_wf | refine okR_stall ?_ | exact okR_trap

theorem execNop_wf (s : State) (hs : s.mem.wf = true) : okN (execNop s) := by
  unfold execNop
  repeat' first | with_reducible first | assumption | intro _ | apply Issue.single_wf | apply issue_wf

theorem execMode_wf (g : BitVec 4) (t : BitVec 5) (r : BitVec 3) (f sc : BitVec 1) (b : BitVec 2) (n : BitVec 4) (s : State) (hs : s.mem.wf = true) :
    okN (execMode g t r f sc b n s) := by
  unfold execMode
  repeat' first | dsimp only | with_reducible first | assumption | intro _ | apply Issue.single_wf | apply issue_wf

theorem execRep_wf (c : BitVec 6) (d a b : BitVec 3) (s : State) (hs : s.mem.wf = true) : okN (execRep c d a b s) := by
  unfold execRep
  repeat' first | dsimp only | split | with_reducible first | assumption | intro _ | apply issue_wf | apply State.parkGroup_wf | apply State.fetchStops_wf | apply Issue.begins_wf | refine okR_wait ?_ | exact okR_trap

theorem execMacroRun_wf (i : BitVec 7) (d a b : Reg) (s : State) (hs : s.mem.wf = true) : okN (execMacroRun i d a b s) := by
  unfold execMacroRun
  repeat' first | dsimp only | split | with_reducible first | assumption | intro _ | apply issue_wf | apply Issue.begins_wf | exact okR_trap

theorem execBra_wf (lit : Word) (s : State) (hs : s.mem.wf = true) : okN (execBra lit s) := by
  unfold execBra
  repeat' first | with_reducible first | assumption | intro _ | apply issue_wf | apply Issue.transfer_wf

theorem execJmp_wf (a : Reg) (s : State) (hs : s.mem.wf = true) : okN (execJmp a s) := by
  unfold execJmp
  repeat' first | with_reducible first | assumption | intro _ | apply issue_wf | apply Issue.transfer_wf | apply Issue.withTargets_wf

theorem execCall_wf (x : Reg) (lit : Word) (s : State) (hs : s.mem.wf = true) : okN (execCall x lit s) := by
  unfold execCall
  repeat' first | with_reducible first | assumption | intro _ | apply issue_wf | apply Issue.doCall_wf

theorem execCallr_wf (x : BitVec 7) (a : Reg) (s : State) (hs : s.mem.wf = true) : okN (execCallr x a s) := by
  unfold execCallr
  repeat' first | with_reducible first | assumption | intro _ | apply issue_wf | apply Issue.withTargets_wf | apply Issue.doCall_wf

theorem Issue.doRet_wf (o : Issue) (s : State) (hs : s.mem.wf = true) : okR (Issue.doRet o s) := by
  unfold Issue.doRet
  repeat' first | dsimp only | split | with_reducible first | assumption | apply Issue.transfer_wf | refine okR_stall ?_ | exact okR_trap | exact okR_rollback

theorem execRet_wf (s : State) (hs : s.mem.wf = true) : okN (execRet s) := by
  unfold execRet
  repeat' first | with_reducible first | assumption | intro _ | apply issue_wf | apply Issue.doRet_wf

theorem execExit_wf (s : State) (hs : s.mem.wf = true) : okN (execExit s) := by
  unfold execExit
  repeat' first | with_reducible first | assumption | intro _ | apply issue_wf | apply Issue.transfer_wf

theorem execYield_wf (s : State) (hs : s.mem.wf = true) : okN (execYield s) := by
  unfold execYield
  repeat' first | with_reducible first | assumption | intro _ | apply issue_wf | refine okR_done ?_

/-! ### Machine/Dispatcher.lean -/

theorem State.releaseActions_wf (s : State) (tile ctx uid issue : Nat) (regions : List (Nat × Nat)) (objs : List Nat) (hs : s.mem.wf = true) :
    (State.releaseActions s tile ctx uid issue regions objs).2.mem.wf = true := by
  unfold State.releaseActions
  repeat' first | dsimp only | split | with_reducible first | assumption | intro _ | apply State.cleanLines_wf | apply State.flushRange_wf | refine wf_foldl2 ?_ ?_

theorem State.releaseObjects_wf (s : State) (tile ctx uid issue : Nat) (objs : List Nat) (hs : s.mem.wf = true) :
    (State.releaseObjects s tile ctx uid issue objs).2.mem.wf = true := by
  unfold State.releaseObjects
  repeat' first | with_reducible first | assumption | apply State.releaseActions_wf

theorem State.askFails_wf (s : State) (x : Net) (cause : Nat) (mask : LaneMask) (va : Nat) (pid : Option Nat) (hs : s.mem.wf = true) :
    (State.askFails s x cause mask va pid).mem.wf = true := by
  unfold State.askFails
  repeat' first | dsimp only | split | with_reducible first | assumption | apply State.modPend_wf | apply State.defer_wf

theorem State.names_wf (s : State) (uid counter : Nat) (hs : s.mem.wf = true) : (State.names s uid counter).mem.wf = true := by
  unfold State.names
  repeat' first | split | with_reducible first | assumption | apply State.modTeam_wf

theorem State.askLaunch_wf (s : State) (x : Net) (mask : LaneMask) (pid ea : Nat) (hs : s.mem.wf = true) :
    (State.askLaunch s x mask pid ea).mem.wf = true := by
  unfold State.askLaunch
  repeat' first | dsimp only | split | with_reducible first | assumption | apply State.modPend_wf | apply State.startGrid_wf | apply State.askFails_wf | apply State.names_wf

theorem State.askGrow_wf (s : State) (x : Net) (mask : LaneMask) (pid n : Nat) (hs : s.mem.wf = true) :
    (State.askGrow s x mask pid n).mem.wf = true := by
  unfold State.askGrow
  repeat' first | split | with_reducible first | assumption | apply State.modPend_wf | apply State.modWork_wf | apply State.askFails_wf

theorem State.askJob_wf (s : State) (x : Net) (mask : LaneMask) (ea : Nat) (hs : s.mem.wf = true) : (State.askJob s x mask ea).mem.wf = true := by
  unfold State.askJob
  repeat' first | dsimp only | split | with_reducible first | assumption | intro _ | apply fresh_wf | apply State.loadKernel_wf | apply State.askFails_wf | apply State.names_wf | refine okO_bind ?_ | refine wf_of_some (by assumption) ?_

theorem State.askSpawn_wf (s : State) (x : Net) (pid : Nat) (xs : List (Nat × Nat)) (hs : s.mem.wf = true) :
    (State.askSpawn s x pid xs).mem.wf = true := by
  unfold State.askSpawn
  repeat' first | dsimp only | split | with_reducible first | assumption | intro _ | apply State.modPend_wf | apply State.defer_wf | apply State.placeTask_wf | apply State.names_wf | refine wf_foldl2 ?_ ?_

theorem State.performAsk_wf (s : State) (x : Net) (mask : LaneMask) (e : Effect) (hs : s.mem.wf = true) :
    (State.performAsk s x mask e).mem.wf = true := by
  unfold State.performAsk
  repeat' first | dsimp only | split | with_reducible first | assumption | apply State.askLaunch_wf | apply State.askGrow_wf | apply State.askJob_wf | apply State.askSpawn_wf

theorem State.leave_wf (s : State) (t : Team) (hs : s.mem.wf = true) : (State.leave s t).mem.wf = true := by
  unfold State.leave
  repeat' first | dsimp only | split | with_reducible first | assumption | apply State.modWindow_wf | apply State.releaseQuota_wf

theorem State.teamLeavesGroup_wf (s : State) (t : Team) (hs : s.mem.wf = true) : (State.teamLeavesGroup s t).mem.wf = true := by
  unfold State.teamLeavesGroup
  repeat' first | dsimp only | split | with_reducible first | assumption | apply State.closeGroup_wf | apply State.modWork_wf

theorem State.creditCounter_wf (s : State) (t : Team) (counter : Nat) (after : List Nat) (hs : s.mem.wf = true) :
    (State.creditCounter s t counter after).2.mem.wf = true := by
  unfold State.creditCounter
  repeat' first | dsimp only | split | with_reducible first | assumption | apply State.sendAfter_wf

theorem State.dropWork_wf (s : State) (id : Nat) (hs : s.mem.wf = true) : (State.dropWork s id).mem.wf = true := by
  unfold State.dropWork
  repeat' first | dsimp only | with_reducible first | assumption

theorem State.settleWork_wf (s : State) (t : Team) (hs : s.mem.wf = true) : (State.settleWork s t).mem.wf = true := by
  unfold State.settleWork
  repeat' first | dsimp only | split | with_reducible first | assumption | apply State.sendAfter_wf | apply State.creditCounter_wf | apply State.dropWork_wf

theorem State.endTeam_wf (s : State) (t : Team) (hs : s.mem.wf = true) : (State.endTeam s t).mem.wf = true := by
  unfold State.endTeam
  repeat' first | dsimp only | split | with_reducible first | assumption | intro _ | apply State.modCtx_wf | apply State.modWork_wf | apply State.releaseObjects_wf | apply State.leave_wf | apply State.teamLeavesGroup_wf | apply State.creditCounter_wf | apply State.settleWork_wf | refine wf_foldl ?_ ?_

theorem execTeamEnd_wf (uid : Nat) (s : State) (hs : s.mem.wf = true) : okN (execTeamEnd uid s) := by
  unfold execTeamEnd
  repeat' first | split | with_reducible first | assumption | apply State.endTeam_wf | refine okN_next ?_

theorem State.dropImages_wf (s : State) (p : Team → Bool) (hs : s.mem.wf = true) : (State.dropImages s p).mem.wf = true := by
  unfold State.dropImages
  repeat' first | dsimp only | with_reducible first | assumption | intro _ | apply State.modCtx_wf | apply State.modWork_wf | apply State.teamLeavesGroup_wf | apply State.settleWork_wf | refine wf_foldl ?_ ?_

theorem State.killWork_wf (s : State) (id : Nat) (hs : s.mem.wf = true) : (State.killWork s id).mem.wf = true := by
  unfold State.killWork
  repeat' first | dsimp only | split | with_reducible first | assumption | intro _ | apply State.endLanes_wf | apply State.modWork_wf | apply State.dropWork_wf | apply State.dropImages_wf | refine wf_foldl ?_ ?_

theorem State.modEntry_wf (s : State) (i : Nat) (f : TimeEntry → TimeEntry) (hs : s.mem.wf = true) : (State.modEntry s i f).mem.wf = true := by
  unfold State.modEntry
  repeat' first | dsimp only | with_reducible first | assumption

theorem State.overrun_wf (s : State) (i rule : Nat) (refused : Bool) (ctx : Nat) (hs : s.mem.wf = true) :
    (State.overrun s i rule refused ctx).mem.wf = true := by
  unfold State.overrun
  repeat' first | with_reducible first | assumption | apply State.contextRecord_wf

theorem State.startEntry_wf (s : State) (i : Nat) (hs : s.mem.wf = true) : (State.startEntry s i).mem.wf = true := by
  unfold State.startEntry
  repeat' first | dsimp only | split | with_reducible first | assumption | apply State.startGrid_wf | apply State.modEntry_wf | apply State.overrun_wf | refine wf_of_pair (by assumption) ?_

theorem execTimetableSlot_wf (entry : Nat) (s : State) (hs : s.mem.wf = true) : okN (execTimetableSlot entry s) := by
  unfold execTimetableSlot
  repeat' first | dsimp only | split | with_reducible first | assumption | apply State.killWork_wf | apply State.modEntry_wf | apply State.overrun_wf | apply State.startEntry_wf | refine okN_next ?_

theorem execDeferredLaunch_wf (entry : Nat) (s : State) (hs : s.mem.wf = true) : okN (execDeferredLaunch entry s) := by
  unfold execDeferredLaunch
  repeat' first | dsimp only | split | with_reducible first | assumption | apply State.modEntry_wf | apply State.startEntry_wf | refine okN_next ?_

theorem execWatchdog_wf (ctx : Nat) (s : State) (hs : s.mem.wf = true) : okN (execWatchdog ctx s) := by
  unfold execWatchdog
  repeat' first | dsimp only | split | with_reducible first | assumption | apply fresh_wf | apply State.modCtx_wf | refine okN_next ?_

end Sys2Proof.Machine
end

