-- ==== Sys2Proof/Laws/FormEngines.lean ====
section
/-! SUPPORT. Memory keeps its canonical form: releases, the engines, pre-emption and strikes. -/

namespace Sys2Proof.Machine

/-! ### Machine/CopyEngine.lean -/

theorem State.modCopy_wf (s : State) (cid : Nat) (f : Copy → Copy) (hs : s.mem.wf = true) : (State.modCopy s cid f).mem.wf = true := by
  unfold State.modCopy
  repeat' first | dsimp only | with_reducible first | assumption

theorem State.copyOver_wf (s : State) (c : Copy) (hs : s.mem.wf = true) : (State.copyOver s c).mem.wf = true := by
  unfold State.copyOver
  repeat' first | dsimp only | split | with_reducible first | assumption | apply State.modTeam_wf | apply State.modCopy_wf

theorem State.sendCredit_wf (s : State) (c : Copy) (barrier : Bool) (ea n : Nat) (hs : s.mem.wf = true) :
    (State.sendCredit s c barrier ea n).mem.wf = true := by
  unfold State.sendCredit
  repeat' first | split | with_reducible first | assumption | apply State.sendAfter_wf

theorem State.stopCopy_wf (s : State) (c : Copy) (cause va : Nat) (hs : s.mem.wf = true) : (State.stopCopy s c cause va).mem.wf = true := by
  unfold State.stopCopy
  repeat' first | with_reducible first | assumption | apply State.defer_wf | apply State.copyOver_wf

theorem State.copyDone_wf (s : State) (c : Copy) (hs : s.mem.wf = true) : (State.copyDone s c).mem.wf = true := by
  unfold State.copyDone
  repeat' first | dsimp only | split | with_reducible first | assumption | apply State.progress_wf | apply State.copyOver_wf | apply State.sendCredit_wf | apply State.stopCopy_wf

theorem State.copyLanded_wf (s : State) (c : Copy) (target : Nat) (hs : s.mem.wf = true) : (State.copyLanded s c target).mem.wf = true := by
  unfold State.copyLanded
  repeat' first | dsimp only | split | with_reducible first | assumption | apply State.sendAfter_wf | apply State.modCopy_wf | apply State.copyDone_wf

theorem State.startCopies_wf (s : State) (cids : List Nat) (hs : s.mem.wf = true) : (State.startCopies s cids).mem.wf = true := by
  unfold State.startCopies
  repeat' first | dsimp only | split | with_reducible first | assumption | intro _ | apply State.modCopy_wf | apply State.copyLanded_wf | refine wf_foldl ?_ ?_

theorem execCpmAcknowledgement_wf (cid tile : Nat) (s : State) (hs : s.mem.wf = true) : okN (execCpmAcknowledgement cid tile s) := by
  unfold execCpmAcknowledgement
  repeat' first | dsimp only | split | with_reducible first | assumption | apply State.modCopy_wf | apply State.sendCredit_wf | apply State.copyDone_wf | refine okN_next ?_

theorem execCopySegment_wf (cid : Nat) (s : State) (hs : s.mem.wf = true) : okN (execCopySegment cid s) := by
  unfold execCopySegment
  repeat' first | dsimp only | split | with_reducible first | assumption | intro _ | apply State.parkFault_wf | apply State.fetchLine_wf | apply State.flushRange_wf | apply State.modCopy_wf | apply State.stopCopy_wf | refine wf_foldl ?_ ?_ | refine okN_next ?_

theorem execCopyWriteLands_wf (cid : Nat) (s : State) (hs : s.mem.wf = true) : okN (execCopyWriteLands cid s) := by
  unfold execCopyWriteLands
  repeat' first | dsimp only | split | with_reducible first | assumption | intro _ | apply State.send_wf | apply State.parkFault_wf | apply State.flushRange_wf | apply State.modCopy_wf | apply State.stopCopy_wf | apply State.copyLanded_wf | refine wf_foldl ?_ ?_ | refine okN_next ?_

theorem State.copyCredited_wf (s : State) (c : Copy) (id : Nat) (failed : Option Nat) (hs : s.mem.wf = true) :
    (State.copyCredited s c id failed).mem.wf = true := by
  unfold State.copyCredited
  repeat' first | dsimp only | split | with_reducible first | assumption | apply State.modCopy_wf | apply State.copyOver_wf

theorem State.copyAck_wf (s : State) (c : Copy) (id : Nat) (failed : Option Nat) (ea : Nat) (hs : s.mem.wf = true) :
    (State.copyAck s c id failed ea).mem.wf = true := by
  unfold State.copyAck
  repeat' first | dsimp only | split | with_reducible first | assumption | apply State.modCopy_wf | apply State.stopCopy_wf | apply State.copyLanded_wf

/-! ### Machine/Release.lean -/

theorem State.routeNet_wf (s : State) (x : Net) (hs : s.mem.wf = true) : (State.routeNet s x).mem.wf = true := by
  unfold State.routeNet
  repeat' first | dsimp only | split | with_reducible first | assumption | apply draw_wf | apply State.failNet_wf | apply State.parkRequest_wf

theorem Held.sendWhen_wf (e : Held) (s : State) (ids : List Nat) (va : Nat) (act : Act) (hs : s.mem.wf = true) :
    (Held.sendWhen e s ids va act).mem.wf = true := by
  unfold Held.sendWhen
  repeat' first | dsimp only | split | with_reducible first | assumption | apply State.sendAfter_wf | apply State.routeNet_wf

theorem Held.askWhen_wf (e : Held) (s : State) (ids : List Nat) (f : Effect) (hs : s.mem.wf = true) : (Held.askWhen e s ids f).mem.wf = true := by
  unfold Held.askWhen
  repeat' first | dsimp only | split | with_reducible first | assumption | apply State.sendAfter_wf | apply State.performAsk_wf

theorem execReleaseWrite_wf (id : Nat) (s : State) (hs : s.mem.wf = true) : okN (execReleaseWrite id s) := by
  unfold execReleaseWrite
  repeat' first | split | with_reducible first | assumption | apply State.performAsk_wf | apply State.routeNet_wf | refine okN_next ?_

theorem State.pumpLink_wf (s : State) (e : Held) (entry : Nat) (y0 : Nat) (hs : s.mem.wf = true) : (State.pumpLink s e entry y0).mem.wf = true := by
  induction y0 generalizing s e entry with
  | zero => 
    unfold State.pumpLink
    repeat' first | with_reducible first | assumption
  | succ n ih => 
    unfold State.pumpLink
    repeat' first | dsimp only | split | with_reducible first | assumption | apply ih | apply State.modLink_wf | apply State.send_wf

theorem State.releasePush_wf (s : State) (e : Held) (h : Word) (words : List (Nat × PWord)) (hs : s.mem.wf = true) :
    (State.releasePush s e h words).mem.wf = true := by
  unfold State.releasePush
  repeat' first | dsimp only | split | with_reducible first | assumption | intro _ | apply State.modQueue_wf | apply State.modThread_wf | apply State.modLink_wf | apply State.memStore_wf | apply State.pumpLink_wf | refine wf_foldl ?_ ?_

theorem State.releaseNotify_wf (s : State) (e : Held) (h : Word) (hs : s.mem.wf = true) : (State.releaseNotify s e h).mem.wf = true := by
  unfold State.releaseNotify
  repeat' first | dsimp only | split | with_reducible first | assumption | apply State.notify_wf | apply State.send_wf

theorem execLinkCredit_wf (ctx entry : Nat) (s : State) (hs : s.mem.wf = true) : okN (execLinkCredit ctx entry s) := by
  unfold execLinkCredit
  repeat' first | split | with_reducible first | assumption | apply State.modLink_wf | refine okN_next ?_

theorem State.dropBytes_wf (s : State) (tile ctx va n : Nat) (hs : s.mem.wf = true) : (State.dropBytes s tile ctx va n).mem.wf = true := by
  unfold State.dropBytes
  repeat' first | dsimp only | split | with_reducible first | assumption | apply Mem.modLine_wf | apply State.staleFills_wf

theorem State.releaseAtomic_wf (s : State) (e : Held) (n : Nat) (r : AtomReq) (act : Act) (hs : s.mem.wf = true) :
    (State.releaseAtomic s e n r act).mem.wf = true := by
  unfold State.releaseAtomic
  repeat' first | dsimp only | split | with_reducible first | assumption | apply State.flushRange_wf | apply Held.sendWhen_wf | apply State.dropBytes_wf

theorem State.releaseApload_wf (s : State) (e : Held) (ea idx : Nat) (mask : LaneMask) (hs : s.mem.wf = true) :
    (State.releaseApload s e ea idx mask).mem.wf = true := by
  unfold State.releaseApload
  repeat' first | dsimp only | split | with_reducible first | assumption | apply State.modCtx_wf | apply State.defer_wf

theorem State.releaseOne_wf (s : State) (e : Held) (rs : List (Nat × Nat × Nat)) (ea : Nat) (act : Act) (hs : s.mem.wf = true) :
    (State.releaseOne s e rs ea act).mem.wf = true := by
  unfold State.releaseOne
  repeat' first | dsimp only | with_reducible first | assumption | apply State.releaseActions_wf | apply Held.sendWhen_wf

theorem State.releaseEfload_wf (s : State) (e : Held) (pid : Nat) (signed : Bool) (xs : List (Nat × Nat × Nat)) (hs : s.mem.wf = true) :
    (State.releaseEfload s e pid signed xs).mem.wf = true := by
  unfold State.releaseEfload
  repeat' first | dsimp only | split | with_reducible first | assumption | intro _ | apply Held.sendWhen_wf | refine wf_foldl ?_ ?_

theorem State.releaseCommand_wf (s : State) (e : Held) (mid : Nat) (hs : s.mem.wf = true) : (State.releaseCommand s e mid).mem.wf = true := by
  unfold State.releaseCommand
  repeat' first | dsimp only | split | with_reducible first | assumption | apply State.memStore_wf | apply State.modEngine_wf

theorem State.spillGone_wf (s : State) (uid : Nat) (chunk lane : Nat) (hs : s.mem.wf = true) : (State.spillGone s uid chunk lane).mem.wf = true := by
  unfold State.spillGone
  repeat' first | dsimp only | with_reducible first | assumption | apply State.modTeam_wf

theorem State.releaseEffect_wf (s : State) (e : Held) (hs : s.mem.wf = true) : (State.releaseEffect s e).mem.wf = true := by
  unfold State.releaseEffect
  repeat' first | dsimp only | split | with_reducible first | assumption | intro _ | apply fresh_wf | apply State.modQueue_wf | apply State.send_wf | apply State.releasePiece_wf | apply State.flushRange_wf | apply State.cleanPair_wf | apply State.startWalks_wf | apply State.modEngine_wf | apply State.releaseObjects_wf | apply State.startCopies_wf | apply Held.sendWhen_wf | apply Held.askWhen_wf | apply State.releasePush_wf | apply State.releaseNotify_wf | apply State.releaseAtomic_wf | apply State.releaseApload_wf | apply State.releaseOne_wf | apply State.releaseEfload_wf | apply State.releaseCommand_wf | apply State.spillGone_wf | refine wf_foldl ?_ ?_ | refine wf_foldl2 ?_ ?_

theorem execCoolboxRelease_wf (id : Nat) (s : State) (hs : s.mem.wf = true) : okN (execCoolboxRelease id s) := by
  unfold execCoolboxRelease
  repeat' first | dsimp only | split | with_reducible first | assumption | apply State.releaseEffect_wf | refine okN_next ?_

theorem execL1Eviction_wf (tile ctx va : Nat) (s : State) (hs : s.mem.wf = true) : okN (execL1Eviction tile ctx va s) := by
  unfold execL1Eviction
  repeat' first | with_reducible first | assumption | apply State.cleanLines_wf | refine okN_next ?_

theorem execAcknowledgement_wf (id : Nat) (s : State) (hs : s.mem.wf = true) : okN (execAcknowledgement id s) := by
  unfold execAcknowledgement
  repeat' first | dsimp only | split | with_reducible first | assumption | intro _ | apply Mem.modLine_wf | apply State.modPend_wf | apply State.answerOut_wf | apply State.copyCredited_wf | apply State.copyAck_wf | refine wf_foldl ?_ ?_ | refine okN_next ?_

theorem State.pushLanded_wf (s : State) (t : Team) (p : Pend) (rs : List LaneResult) (hs : s.mem.wf = true) :
    (State.pushLanded s t p rs).mem.wf = true := by
  unfold State.pushLanded
  repeat' first | dsimp only | split | with_reducible first | assumption | apply fresh_wf | apply State.voidPush_wf

theorem execResultLands_wf (uid pid : Nat) (s : State) (hs : s.mem.wf = true) : okN (execResultLands uid pid s) := by
  unfold execResultLands
  repeat' first | dsimp only | split | with_reducible first | assumption | intro _ | apply State.modTeam_wf | apply State.errorRecord_wf | apply State.acquire_wf | apply State.pushLanded_wf | refine wf_foldl ?_ ?_ | refine okN_next ?_

theorem State.redoPends_wf (s : State) (uid : Nat) (hs : s.mem.wf = true) : (State.redoPends s uid).mem.wf = true := by
  unfold State.redoPends
  repeat' first | dsimp only | split | with_reducible first | assumption | intro _ | apply fresh_wf | apply State.modTeam_wf | apply State.routeNet_wf | refine wf_foldl ?_ ?_

theorem State.dropRaised_wf (s : State) (uid : Nat) (hs : s.mem.wf = true) : (State.dropRaised s uid).mem.wf = true := by
  unfold State.dropRaised
  repeat' first | split | with_reducible first | assumption | apply State.modTeam_wf | apply State.dropPends_wf

theorem execCheckpointSettle_wf (uid : Nat) (s : State) (hs : s.mem.wf = true) : okN (execCheckpointSettle uid s) := by
  unfold execCheckpointSettle
  repeat' first | split | with_reducible first | assumption | apply State.modTeam_wf | refine okN_next ?_

theorem State.transferBlocked_wf (s : State) (t : Team) (item va : Nat) (mask : LaneMask) (need : Need) (hs : s.mem.wf = true) :
    okO (State.transferBlocked s t item va mask need) := by
  unfold State.transferBlocked
  repeat' first | dsimp only | split | with_reducible first | assumption | apply State.parkFault_wf | apply State.defer_wf | refine okO_some ?_ | exact okO_none

theorem State.spillBlocked_wf (s : State) (t : Team) (l chunk : Nat) (need : Need) (hs : s.mem.wf = true) :
    okO (State.spillBlocked s t l chunk need) := by
  unfold State.spillBlocked
  repeat' first | with_reducible first | assumption | apply State.transferBlocked_wf

theorem State.writeEntry_wf (s : State) (t : Team) (m : Moved) (hs : s.mem.wf = true) : (State.writeEntry s t m).mem.wf = true := by
  unfold State.writeEntry
  repeat' first | dsimp only | split | with_reducible first | assumption | apply State.modTeam_wf | apply State.hold_wf | apply State.transferBlocked_wf | refine wf_of_some (by assumption) ?_

theorem State.readEntry_wf (s : State) (t : Team) (m : Moved) (hs : s.mem.wf = true) : (State.readEntry s t m).mem.wf = true := by
  unfold State.readEntry
  repeat' first | dsimp only | split | with_reducible first | assumption | apply State.modTeam_wf | apply State.uncorrectable_wf

theorem execRucksackSpill_wf (uid lane : Nat) (s : State) (hs : s.mem.wf = true) : okN (execRucksackSpill uid lane s) := by
  unfold execRucksackSpill
  repeat' first | dsimp only | split | with_reducible first | assumption | apply State.modTeam_wf | apply State.hold_wf | apply State.spillBlocked_wf | apply State.writeEntry_wf | refine wf_of_some (by assumption) ?_ | refine okN_next ?_

theorem State.refill_wf (s : State) (t : Team) (lane c : Nat) (place : Frame → Frame) (hs : s.mem.wf = true) :
    (State.refill s t lane c place).mem.wf = true := by
  unfold State.refill
  repeat' first | dsimp only | split | with_reducible first | assumption | apply State.modTeam_wf | apply State.spillBlocked_wf | refine wf_of_some (by assumption) ?_

theorem execRucksackRefill_wf (uid lane : Nat) (s : State) (hs : s.mem.wf = true) : okN (execRucksackRefill uid lane s) := by
  unfold execRucksackRefill
  repeat' first | split | with_reducible first | assumption | apply State.refill_wf | refine okN_next ?_

theorem execWaitWake_wf (uid : Nat) (s : State) (hs : s.mem.wf = true) : okN (execWaitWake uid s) := by
  unfold execWaitWake
  repeat' first | split | with_reducible first | assumption | apply State.modTeam_wf | refine okN_next ?_

theorem execReservationGrant_wf (uid : Nat) (s : State) (hs : s.mem.wf = true) : okN (execReservationGrant uid s) := by
  unfold execReservationGrant
  repeat' first | split | with_reducible first | assumption | apply State.modTeam_wf | apply State.grant_wf | refine wf_of_someP (by assumption) ?_ | refine okN_next ?_

/-! ### Machine/MatrixEngine.lean -/

theorem State.settleCommands_wf (s : State) (tile : Nat) (p : Command → Bool) (hs : s.mem.wf = true) :
    (State.settleCommands s tile p).mem.wf = true := by
  unfold State.settleCommands
  repeat' first | dsimp only | with_reducible first | assumption | apply State.modEngine_wf

theorem State.settleTrap_wf (s : State) (t : Team) (p : Park) (hs : s.mem.wf = true) : (State.settleTrap s t p).mem.wf = true := by
  unfold State.settleTrap
  repeat' first | with_reducible first | assumption | apply State.settleCommands_wf

theorem State.stopCommand_wf (s : State) (tile : Nat) (c : Command) (cause value : Nat) (hs : s.mem.wf = true) :
    (State.stopCommand s tile c cause value).mem.wf = true := by
  unfold State.stopCommand
  repeat' first | dsimp only | split | with_reducible first | assumption | apply State.deferFor_wf | apply State.modEngine_wf | apply State.settleCommands_wf

theorem State.slotRecord_wf (s : State) (tile : Nat) (k : Channel) (c : Command) (hs : s.mem.wf = true) :
    (State.slotRecord s tile k c).2.mem.wf = true := by
  unfold State.slotRecord
  repeat' first | dsimp only | with_reducible first | assumption | apply draw_wf

theorem execCommandStart_wf (tile mid : Nat) (s : State) (hs : s.mem.wf = true) : okN (execCommandStart tile mid s) := by
  unfold execCommandStart
  repeat' first | dsimp only | split | with_reducible first | assumption | apply fresh_wf | apply State.modEngine_wf | apply State.stopCommand_wf | apply State.slotRecord_wf | refine okN_next ?_

theorem execMldbSegment_wf (tile mid : Nat) (s : State) (hs : s.mem.wf = true) : okN (execMldbSegment tile mid s) := by
  unfold execMldbSegment
  repeat' first | dsimp only | split | with_reducible first | assumption | intro _ | apply fresh_wf | apply State.parkFault_wf | apply State.errorRecord_wf | apply State.fetchLine_wf | apply State.modEngine_wf | apply State.stopCommand_wf | refine wf_foldl ?_ ?_ | refine okN_next ?_

theorem State.formRow_wf (s : State) (tile : Nat) (c : Command) (acc : List (Nat × PWord)) (status : List (Nat × Nat)) (ps : List Piece) (vals : List (Nat × Nat × List PWord)) (hs : s.mem.wf = true) :
    (State.formRow s tile c acc status ps vals).mem.wf = true := by
  unfold State.formRow
  repeat' first | dsimp only | with_reducible first | assumption | apply fresh_wf | apply State.modEngine_wf

theorem execMmaRow_wf (tile mid : Nat) (s : State) (hs : s.mem.wf = true) : okN (execMmaRow tile mid s) := by
  unfold execMmaRow
  repeat' first | dsimp only | split | with_reducible first | assumption | intro _ | apply State.errorRecord_wf | apply State.modEngine_wf | apply State.formRow_wf | refine wf_foldl ?_ ?_ | refine okN_next ?_

theorem execMzeroRow_wf (tile mid : Nat) (s : State) (hs : s.mem.wf = true) : okN (execMzeroRow tile mid s) := by
  unfold execMzeroRow
  repeat' first | dsimp only | split | with_reducible first | assumption | apply State.formRow_wf | refine okN_next ?_

theorem execMstoreRow_wf (tile mid : Nat) (s : State) (hs : s.mem.wf = true) : okN (execMstoreRow tile mid s) := by
  unfold execMstoreRow
  repeat' first | dsimp only | split | with_reducible first | assumption | apply State.stopCommand_wf | apply State.formRow_wf | refine okN_next ?_

theorem execMdrainRead_wf (tile mid : Nat) (s : State) (hs : s.mem.wf = true) : okN (execMdrainRead tile mid s) := by
  unfold execMdrainRead
  repeat' first | dsimp only | split | with_reducible first | assumption | apply State.stopCommand_wf | apply State.formRow_wf | refine okN_next ?_

theorem State.commitHold_wf (s : State) (tile : Nat) (h : RowHold) (hs : s.mem.wf = true) : (State.commitHold s tile h).mem.wf = true := by
  unfold State.commitHold
  repeat' first | dsimp only | with_reducible first | assumption | intro _ | apply State.memStore_wf | apply State.modEngine_wf | refine wf_foldl ?_ ?_

theorem execRowCommit_wf (tile hid : Nat) (s : State) (hs : s.mem.wf = true) : okN (execRowCommit tile hid s) := by
  unfold execRowCommit
  repeat' first | split | with_reducible first | assumption | apply State.commitHold_wf | refine okN_next ?_

theorem execMdrainLanding_wf (tile hid : Nat) (s : State) (hs : s.mem.wf = true) : okN (execMdrainLanding tile hid s) := by
  unfold execMdrainLanding
  repeat' first | dsimp only | split | with_reducible first | assumption | intro _ | apply State.modPend_wf | apply State.commitHold_wf | refine wf_foldl ?_ ?_ | refine okN_next ?_

theorem execCommandRetire_wf (tile mid : Nat) (s : State) (hs : s.mem.wf = true) : okN (execCommandRetire tile mid s) := by
  unfold execCommandRetire
  repeat' first | dsimp only | split | with_reducible first | assumption | apply State.progress_wf | apply State.sendAfter_wf | apply State.modEngine_wf | apply State.stopCommand_wf | refine okN_next ?_

/-! ### Machine/EquivalenceEngine.lean -/

theorem State.eqPut_wf (s : State) (f : Forest) (rid wid va n v : Nat) (p : Bool) (need : Need := Need.rw) (hs : s.mem.wf = true) :
    okE (State.eqPut s f rid wid va n v p need) := by
  unfold State.eqPut
  repeat' first | split | with_reducible first | assumption | apply State.eqHold_wf | refine okE_ok ?_ | exact okE_error

theorem State.eqLog_wf (s : State) (f : Forest) (rid wid : Nat) (size : Bool) (x old : Nat) (p : Bool) (hs : s.mem.wf = true) :
    okE (State.eqLog s f rid wid size x old p) := by
  unfold State.eqLog
  repeat' first | split | with_reducible first | assumption | apply State.modForest_wf | apply State.eqPut_wf | refine wf_of_ok (by assumption) ?_ | refine okE_ok ?_ | exact okE_error

theorem State.eqWrite_wf (s : State) (f : Forest) (rid wid : Nat) (size : Bool) (x old : Nat) (q : Bool) (v : Nat) (p : Bool) (hs : s.mem.wf = true) :
    okE (State.eqWrite s f rid wid size x old q v p) := by
  unfold State.eqWrite
  repeat' first | dsimp only | split | with_reducible first | assumption | apply State.eqPut_wf | apply State.eqLog_wf | refine wf_of_ok (by assumption) ?_ | refine okE_ok ?_ | exact okE_error

theorem State.lower_wf (s : State) (f : Forest) (owner rid wid z y : Nat) (poison : Bool) (hs : s.mem.wf = true) :
    okEP (State.lower s f owner rid wid z y poison) := by
  unfold State.lower
  repeat' first | split | with_reducible first | assumption | apply State.eqWrite_wf | refine wf_of_ok (by assumption) ?_ | refine okEP_ok ?_ | exact okEP_error

theorem State.linkRoots_wf (s : State) (f : Forest) (owner rid wid h g : Nat) (poison : Bool) (hs : s.mem.wf = true) :
    okEP (State.linkRoots s f owner rid wid h g poison) := by
  unfold State.linkRoots
  repeat' first | split | with_reducible first | assumption | apply State.modForest_wf | apply State.eqWrite_wf | refine wf_of_ok (by assumption) ?_ | refine okEP_ok ?_ | exact okEP_error

theorem State.addSize_wf (s : State) (f : Forest) (owner rid wid r n : Nat) (poison : Bool) (hs : s.mem.wf = true) :
    okEP (State.addSize s f owner rid wid r n poison) := by
  unfold State.addSize
  repeat' first | dsimp only | split | with_reducible first | assumption | apply State.modForest_wf | apply State.eqWrite_wf | refine wf_of_ok (by assumption) ?_ | refine okEP_ok ?_ | exact okEP_error

theorem State.modWalk_wf (s : State) (wid : Nat) (f : Walk → Walk) (hs : s.mem.wf = true) : (State.modWalk s wid f).mem.wf = true := by
  unfold State.modWalk
  repeat' first | dsimp only | with_reducible first | assumption

theorem State.modReq_wf (s : State) (rid : Nat) (f : EqReq → EqReq) (hs : s.mem.wf = true) : (State.modReq s rid f).mem.wf = true := by
  unfold State.modReq
  repeat' first | dsimp only | with_reducible first | assumption

theorem State.reqOver_wf (s : State) (rid engine : Nat) (hs : s.mem.wf = true) : (State.reqOver s rid engine).mem.wf = true := by
  unfold State.reqOver
  repeat' first | dsimp only | with_reducible first | assumption | apply State.startWalks_wf

theorem State.walkOver_wf (s : State) (w : Walk) (f : Forest) (hs : s.mem.wf = true) : (State.walkOver s w f).mem.wf = true := by
  unfold State.walkOver
  repeat' first | dsimp only | split | with_reducible first | assumption | apply State.startWalks_wf | apply State.modReq_wf | apply State.reqOver_wf

theorem State.walkTrouble_wf (s : State) (w : Walk) (r : EqReq) (f : Forest) (e : EqTrouble) (hs : s.mem.wf = true) :
    (State.walkTrouble s w r f e).mem.wf = true := by
  unfold State.walkTrouble
  repeat' first | dsimp only | split | with_reducible first | assumption | apply State.parkFault_wf | apply State.fetchLine_wf | apply State.modPend_wf | apply State.modForest_wf | apply State.modWalk_wf | apply State.walkOver_wf

theorem State.unfetch_wf (s : State) (owner : Nat) (hs : s.mem.wf = true) : (State.unfetch s owner).mem.wf = true := by
  unfold State.unfetch
  repeat' first | dsimp only | with_reducible first | assumption

theorem State.walkTo_wf (s : State) (w : Walk) (f : Forest) (g : WalkStage) (hs : s.mem.wf = true) : (State.walkTo s w f g).mem.wf = true := by
  unfold State.walkTo
  repeat' first | dsimp only | split | with_reducible first | assumption | apply State.eqHold_wf | apply State.modWalk_wf | apply State.unfetch_wf

theorem State.found_wf (s : State) (w : Walk) (f : Forest) (second : Bool) (root : Nat) (hs : s.mem.wf = true) :
    (State.found s w f second root).mem.wf = true := by
  unfold State.found
  repeat' first | dsimp only | split | with_reducible first | assumption | apply State.walkTo_wf

theorem execParentRead_wf (wid : Nat) (s : State) (hs : s.mem.wf = true) : okN (execParentRead wid s) := by
  unfold execParentRead
  repeat' first | dsimp only | split | with_reducible first | assumption | apply State.walkTrouble_wf | apply State.walkTo_wf | apply State.found_wf | refine okN_next ?_

theorem execLowerStep_wf (wid : Nat) (s : State) (hs : s.mem.wf = true) : okN (execLowerStep wid s) := by
  unfold execLowerStep
  repeat' first | split | with_reducible first | assumption | apply State.lower_wf | apply State.walkTrouble_wf | apply State.walkTo_wf | apply State.found_wf | refine wf_of_okP (by assumption) ?_ | refine okN_next ?_

theorem execLinkStep_wf (wid : Nat) (s : State) (hs : s.mem.wf = true) : okN (execLinkStep wid s) := by
  unfold execLinkStep
  repeat' first | split | with_reducible first | assumption | apply State.linkRoots_wf | apply State.walkTrouble_wf | apply State.walkTo_wf | refine wf_of_okP (by assumption) ?_ | refine okN_next ?_

theorem execAddStep_wf (wid : Nat) (s : State) (hs : s.mem.wf = true) : okN (execAddStep wid s) := by
  unfold execAddStep
  repeat' first | split | with_reducible first | assumption | apply State.addSize_wf | apply State.walkTrouble_wf | apply State.walkTo_wf | refine wf_of_okP (by assumption) ?_ | refine okN_next ?_

theorem execSameStep_wf (wid : Nat) (s : State) (hs : s.mem.wf = true) : okN (execSameStep wid s) := by
  unfold execSameStep
  repeat' first | split | with_reducible first | assumption | apply State.walkTrouble_wf | apply State.walkTo_wf | refine okN_next ?_

theorem State.reqTrouble_wf (s : State) (r : EqReq) (e : EqTrouble) (fail : Nat → Nat → State) (hs : s.mem.wf = true) (hfail : ∀ x0 x1, (fail x0 x1).mem.wf = true) :
    (State.reqTrouble s r e fail).mem.wf = true := by
  unfold State.reqTrouble
  repeat' first | split | with_reducible first | assumption | apply State.parkFault_wf | apply State.fetchLine_wf | apply State.modReq_wf | apply hfail

theorem State.markStops_wf (s : State) (r : EqReq) (c v : Nat) (hs : s.mem.wf = true) : (State.markStops s r c v).mem.wf = true := by
  unfold State.markStops
  repeat' first | dsimp only | split | with_reducible first | assumption | apply State.modPend_wf | apply State.reqOver_wf

theorem State.undoFrom_wf (s : State) (f : Forest) (r : EqReq) (stop : Nat) (y0 : Nat) (hs : s.mem.wf = true) :
    okE (State.undoFrom s f r stop y0) := by
  induction y0 generalizing s f r stop with
  | zero => 
    unfold State.undoFrom
    repeat' first | with_reducible first | assumption | refine okE_ok ?_
  | succ n ih => 
    unfold State.undoFrom
    repeat' first | dsimp only | split | with_reducible first | assumption | apply ih | apply State.eqPut_wf | refine wf_of_ok (by assumption) ?_ | refine okE_ok ?_ | exact okE_error

theorem State.markDone_wf (s : State) (f : Forest) (r : EqReq) (g : Forest → Forest) (hs : s.mem.wf = true) :
    (State.markDone s f r g).mem.wf = true := by
  unfold State.markDone
  repeat' first | dsimp only | with_reducible first | assumption | apply State.modForest_wf | apply State.eqHold_wf | apply State.modReq_wf | apply State.unfetch_wf

theorem execMarkOperation_wf (rid : Nat) (s : State) (hs : s.mem.wf = true) : okN (execMarkOperation rid s) := by
  unfold execMarkOperation
  repeat' first | split | with_reducible first | assumption | intro _ | apply State.eqHold_wf | apply State.modReq_wf | apply State.reqTrouble_wf | apply State.markStops_wf | apply State.undoFrom_wf | apply State.markDone_wf | refine wf_of_ok (by assumption) ?_ | refine okN_next ?_

theorem State.compress_wf (s : State) (f : Forest) (r : EqReq) (root : Nat) (q : Bool) (y0 : List Nat) (hs : s.mem.wf = true) :
    okE (State.compress s f r root q y0) := by
  induction y0 generalizing s f r root q with
  | nil => 
    unfold State.compress
    repeat' first | with_reducible first | assumption | refine okE_ok ?_
  | cons x xs ih => 
    unfold State.compress
    repeat' first | split | with_reducible first | assumption | apply ih | apply State.lower_wf | refine wf_of_okP (by assumption) ?_ | exact okE_error

theorem State.relabelStops_wf (s : State) (r : EqReq) (c v : Nat) (hs : s.mem.wf = true) : (State.relabelStops s r c v).mem.wf = true := by
  unfold State.relabelStops
  repeat' first | with_reducible first | assumption | apply State.deferFor_wf | apply State.reqOver_wf

theorem execRelabelRun_wf (rid : Nat) (s : State) (hs : s.mem.wf = true) : okN (execRelabelRun rid s) := by
  unfold execRelabelRun
  repeat' first | dsimp only | split | with_reducible first | assumption | intro _ | apply draw_wf | apply State.progress_wf | apply State.sendAfter_wf | apply State.eqPut_wf | apply State.modReq_wf | apply State.reqOver_wf | apply State.unfetch_wf | apply State.reqTrouble_wf | apply State.compress_wf | apply State.relabelStops_wf | refine wf_of_ok (by assumption) ?_ | refine okN_next ?_

theorem execEqCommit_wf (hid : Nat) (s : State) (hs : s.mem.wf = true) : okN (execEqCommit hid s) := by
  unfold execEqCommit
  repeat' first | dsimp only | split | with_reducible first | assumption | apply State.send_wf | apply State.modPend_wf | apply State.memStore_wf | apply State.modReq_wf | apply State.reqOver_wf | apply State.walkOver_wf | refine okN_next ?_

theorem execForestRelease_wf (fid : Nat) (s : State) (hs : s.mem.wf = true) : okN (execForestRelease fid s) := by
  unfold execForestRelease
  repeat' first | dsimp only | split | with_reducible first | assumption | apply State.eqHold_wf | refine okN_next ?_

/-! ### Machine/Preemption.lean -/

theorem execPreempt_wf (tile slot : Nat) (v : Dword) (s : State) (hs : s.mem.wf = true) : okN (execPreempt tile slot v s) := by
  unfold execPreempt
  repeat' first | dsimp only | split | with_reducible first | assumption | apply State.modTeam_wf | refine okN_next ?_

theorem execTeamEviction_wf (uid : Nat) (s : State) (hs : s.mem.wf = true) : okN (execTeamEviction uid s) := by
  unfold execTeamEviction
  repeat' first | dsimp only | split | with_reducible first | assumption | apply State.modTeam_wf | refine okN_next ?_

theorem State.drain_wf (s : State) (t : Team) (hs : s.mem.wf = true) : okO (State.drain s t) := by
  unfold State.drain
  repeat' first | dsimp only | split | with_reducible first | assumption | apply State.modTeam_wf | apply State.cleanLines_wf | apply State.hold_wf | apply State.spillBlocked_wf | refine wf_of_some (by assumption) ?_ | refine okO_some ?_ | exact okO_none

theorem State.saveGroup_wf (s : State) (g : GroupRt) (hs : s.mem.wf = true) : (State.saveGroup s g).mem.wf = true := by
  unfold State.saveGroup
  repeat' first | dsimp only | with_reducible first | assumption | apply State.modEngine_wf | apply State.closeWindow_wf

theorem State.relocate_wf (s : State) (uid : Nat) (f : Nat → Nat) (hs : s.mem.wf = true) : (State.relocate s uid f).mem.wf = true := by
  unfold State.relocate
  repeat' first | dsimp only | with_reducible first | assumption

theorem State.nameWindows_wf (s : State) (g : GroupRt) (hs : s.mem.wf = true) : (State.nameWindows s g).mem.wf = true := by
  unfold State.nameWindows
  repeat' first | dsimp only | with_reducible first | assumption | intro _ | apply State.relocate_wf | refine wf_foldl ?_ ?_

theorem State.placeWindow_wf (s : State) (g : GroupRt) (hs : s.mem.wf = true) : (State.placeWindow s g).mem.wf = true := by
  unfold State.placeWindow
  repeat' first | with_reducible first | assumption | intro _ | apply State.relocate_wf | refine wf_foldl ?_ ?_

theorem State.imageTeam_wf (s : State) (t : Team) (hs : s.mem.wf = true) : (State.imageTeam s t).mem.wf = true := by
  unfold State.imageTeam
  repeat' first | dsimp only | split | with_reducible first | assumption | apply State.leave_wf | apply State.saveGroup_wf | apply State.nameWindows_wf

theorem State.drainStep_wf (s : State) (hs : s.mem.wf = true) : okO (State.drainStep s) := by
  unfold State.drainStep
  repeat' first | split | with_reducible first | assumption | intro _ | apply State.drain_wf | apply State.imageTeam_wf | refine okO_firstSome ?_ _ | refine okO_some ?_

theorem State.placeTeam_wf (s : State) (t : Team) (g : GroupRt) (p : Spot) (hs : s.mem.wf = true) : (State.placeTeam s t g p).mem.wf = true := by
  unfold State.placeTeam
  repeat' first | dsimp only | with_reducible first | assumption | apply fresh_wf | apply State.cleanLines_wf

theorem State.placeTeams_wf (s : State) (g : GroupRt) (y0 : List Team) (hs : s.mem.wf = true) : okO (State.placeTeams s g y0) := by
  induction y0 generalizing s g with
  | nil => 
    unfold State.placeTeams
    repeat' first | with_reducible first | assumption | refine okO_some ?_
  | cons x xs ih => 
    unfold State.placeTeams
    repeat' first | split | with_reducible first | assumption | apply ih | apply State.placeTeam_wf | exact okO_none

theorem State.readmitGroup_wf (s : State) (w : Work) (g : GroupRt) (tile : Nat) (hs : s.mem.wf = true) : okO (State.readmitGroup s w g tile) := by
  unfold State.readmitGroup
  dsimp only
  split
  · exact okO_none
  split
  · exact okO_none
  rename_i v hv
  have h1 : v.mem.wf = true := wf_of_some hv (State.takeQuota_wf _ _ _ _ _ hs)
  split
  · exact okO_none
  split
  · exact okO_none
  rename_i g2 v2 hg
  have h2 : v2.mem.wf = true := wf_of_someP hg (State.openWindow_wf _ _ _ h1)
  refine State.placeTeams_wf _ _ _ (State.placeWindow_wf _ _ ?_)
  dsimp only
  apply State.modEngine_wf
  refine wf_parts ?_ ?_
  · refine fwf_foldl (fun m x h => fwf_fput _ _ h) ?_
    split
    · exact fwf_filter _ (wf_bytes h2)
    · exact wf_bytes h2
  · refine fwf_foldl (fun m x h => fwf_fput _ _ h) ?_
    split
    · exact fwf_filter _ (wf_poison h2)
    · exact wf_poison h2

theorem State.readmitTeam_wf (s : State) (w : Work) (g : GroupRt) (t : Team) (hs : s.mem.wf = true) : okO (State.readmitTeam s w g t) := by
  unfold State.readmitTeam
  repeat' first | split | with_reducible first | assumption | apply State.takeQuota_wf | apply State.placeTeams_wf | refine wf_of_some (by assumption) ?_ | exact okO_none

theorem State.readmitAll_wf (s : State) (w : Work) (tiles : List Nat) (y0 : List GroupRt) (hs : s.mem.wf = true) :
    okO (State.readmitAll s w tiles y0) := by
  induction y0 generalizing s w tiles with
  | nil => 
    unfold State.readmitAll
    repeat' first | with_reducible first | assumption | refine okO_some ?_
  | cons x xs ih => 
    unfold State.readmitAll
    repeat' first | split | with_reducible first | assumption | apply ih | intro _ | apply State.readmitGroup_wf | refine okO_firstSome ?_ _ | refine wf_of_some (by assumption) ?_ | exact okO_none

theorem State.readmit_wf (s : State) (g : GroupRt) (tile : Nat) (hs : s.mem.wf = true) : okO (State.readmit s g tile) := by
  unfold State.readmit
  repeat' first | dsimp only | split | with_reducible first | assumption | intro _ | apply State.readmitGroup_wf | apply State.readmitTeam_wf | apply State.readmitAll_wf | refine okO_firstSome ?_ _ | exact okO_none

theorem execReadmission_wf (gid tile : Nat) (s : State) (hs : s.mem.wf = true) : okN (execReadmission gid tile s) := by
  unfold execReadmission
  repeat' first | split | with_reducible first | assumption | apply State.readmit_wf | refine wf_getD ?_ ?_ | refine okN_next ?_

/-! ### Machine/Strike.lean -/

theorem State.strikeTeam_wf (s : State) (t : Team) (c : Nat) (hs : s.mem.wf = true) : (State.strikeTeam s t c).mem.wf = true := by
  unfold State.strikeTeam
  repeat' first | dsimp only | split | with_reducible first | assumption | apply State.modTeam_wf | apply State.dropGrants_wf | apply State.dropPends_wf | apply State.takeTrap_wf | apply State.voidFaults_wf

theorem State.strikeTile_wf (s : State) (tile c : Nat) (hs : s.mem.wf = true) : (State.strikeTile s tile c).mem.wf = true := by
  unfold State.strikeTile
  repeat' first | dsimp only | split | with_reducible first | assumption | intro _ | apply State.discard_wf | apply State.modEngine_wf | apply State.strikeTeam_wf | refine wf_foldl ?_ ?_

theorem execStrikeReport_wf (time sensor area : Nat) (s : State) (hs : s.mem.wf = true) : okN (execStrikeReport time sensor area s) := by
  unfold execStrikeReport
  repeat' first | dsimp only | split | with_reducible first | assumption | apply State.strikeTile_wf | refine okN_next ?_

end Sys2Proof.Machine
end

