-- ==== Sys2Proof/Laws/FormRanger.lean ====
section
/-! SUPPORT. Memory keeps its canonical form: Ranger's commands, the hub, packages and system calls. -/

namespace Sys2Proof.Machine

/-! ### Machine/Ranger.lean -/

theorem State.cmdResume_wf (s : State) (tile slot : Nat) (hs : s.mem.wf = true) : (State.cmdResume s tile slot).mem.wf = true := by
  unfold State.cmdResume
  repeat' first | split | with_reducible first | assumption | apply State.modWindow_wf | apply State.refuse_wf | apply State.resume_wf | apply State.redoPends_wf | apply State.settleTrap_wf

theorem State.cmdRedirect_wf (s : State) (tile slot : Nat) (hs : s.mem.wf = true) : (State.cmdRedirect s tile slot).mem.wf = true := by
  unfold State.cmdRedirect
  repeat' first | split | with_reducible first | assumption | apply State.modTeam_wf | apply State.refuse_wf | apply State.dropRaised_wf | apply State.settleTrap_wf

theorem State.cmdKillTeam_wf (s : State) (tile slot : Nat) (hs : s.mem.wf = true) : (State.cmdKillTeam s tile slot).mem.wf = true := by
  unfold State.cmdKillTeam
  repeat' first | split | with_reducible first | assumption | apply State.endLanes_wf | apply State.settleTrap_wf

theorem State.cmdKillContext_wf (s : State) (tile slot : Nat) (hs : s.mem.wf = true) : (State.cmdKillContext s tile slot).mem.wf = true := by
  unfold State.cmdKillContext
  repeat' first | dsimp only | split | with_reducible first | assumption | apply State.contextRecord_wf | apply State.killContext_wf

theorem execResume_wf (tile slot : Nat) (s : State) (hs : s.mem.wf = true) : okN (execResume tile slot s) := by
  unfold execResume
  repeat' first | with_reducible first | assumption | apply State.cmdResume_wf | refine okN_next ?_

theorem execRedirect_wf (tile slot : Nat) (s : State) (hs : s.mem.wf = true) : okN (execRedirect tile slot s) := by
  unfold execRedirect
  repeat' first | with_reducible first | assumption | apply State.cmdRedirect_wf | refine okN_next ?_

theorem execKillTeam_wf (tile slot : Nat) (s : State) (hs : s.mem.wf = true) : okN (execKillTeam tile slot s) := by
  unfold execKillTeam
  repeat' first | with_reducible first | assumption | apply State.cmdKillTeam_wf | refine okN_next ?_

theorem execKillContext_wf (tile slot : Nat) (s : State) (hs : s.mem.wf = true) : okN (execKillContext tile slot s) := by
  unfold execKillContext
  repeat' first | with_reducible first | assumption | apply State.cmdKillContext_wf | refine okN_next ?_

theorem State.writeResumePc_wf (s : State) (tile slot : Nat) (v : Dword) (hs : s.mem.wf = true) :
    (State.writeResumePc s tile slot v).mem.wf = true := by
  unfold State.writeResumePc
  repeat' first | dsimp only | split | with_reducible first | assumption | apply State.modTeam_wf | apply State.modWindow_wf | apply State.refuse_wf | apply State.dropRaised_wf

theorem execResumepcWrite_wf (tile slot : Nat) (v : Dword) (s : State) (hs : s.mem.wf = true) : okN (execResumepcWrite tile slot v s) := by
  unfold execResumepcWrite
  repeat' first | with_reducible first | assumption | apply State.writeResumePc_wf | refine okN_next ?_

theorem State.unpark_wf (s : State) (item : Nat) (hs : s.mem.wf = true) : (State.unpark s item).mem.wf = true := by
  unfold State.unpark
  repeat' first | dsimp only | with_reducible first | assumption

theorem State.unparkTeam_wf (s : State) (f : ParkedFault) (hs : s.mem.wf = true) : (State.unparkTeam s f).mem.wf = true := by
  unfold State.unparkTeam
  repeat' first | dsimp only | split | with_reducible first | assumption | apply State.modTeam_wf

theorem State.replay_wf (s : State) (f : ParkedFault) (hs : s.mem.wf = true) : (State.replay s f).mem.wf = true := by
  unfold State.replay
  repeat' first | dsimp only | split | with_reducible first | assumption | apply State.unpark_wf | apply State.unparkTeam_wf

theorem State.failItem_wf (s : State) (f : ParkedFault) (x : Net) (hs : s.mem.wf = true) : (State.failItem s f x).mem.wf = true := by
  unfold State.failItem
  repeat' first | dsimp only | split | with_reducible first | assumption | apply State.deferFor_wf | apply State.failNet_wf | apply State.copyAck_wf | apply State.stopCommand_wf

theorem State.failWork_wf (s : State) (f : ParkedFault) (hs : s.mem.wf = true) : (State.failWork s f).mem.wf = true := by
  unfold State.failWork
  repeat' first | split | with_reducible first | assumption | apply State.stopCopy_wf | apply State.stopCommand_wf | apply State.walkTrouble_wf | apply State.markStops_wf | apply State.relabelStops_wf

theorem State.unresolved_wf (s : State) (f : ParkedFault) (hs : s.mem.wf = true) : (State.unresolved s f).mem.wf = true := by
  unfold State.unresolved
  repeat' first | dsimp only | split | with_reducible first | assumption | apply State.takeTrap_wf | apply State.defer_wf | apply State.unpark_wf | apply State.unparkTeam_wf | apply State.failItem_wf | apply State.failWork_wf

theorem State.applyReply_wf (s : State) (f : ParkedFault) (r : Nat) (hs : s.mem.wf = true) : (State.applyReply s f r).mem.wf = true := by
  unfold State.applyReply
  repeat' first | dsimp only | split | with_reducible first | assumption | apply State.replay_wf | apply State.unresolved_wf

theorem State.faultReply_wf (s : State) (tile slot seq r : Nat) (hs : s.mem.wf = true) : (State.faultReply s tile slot seq r).mem.wf = true := by
  unfold State.faultReply
  repeat' first | split | with_reducible first | assumption | apply State.refuse_wf | apply State.applyReply_wf

theorem State.keptReply_wf (s : State) (hs : s.mem.wf = true) : okO (State.keptReply s) := by
  unfold State.keptReply
  repeat' first | with_reducible first | assumption | intro _ | apply State.applyReply_wf | refine okO_map ?_

theorem execReplay_wf (tile slot seq : Nat) (s : State) (hs : s.mem.wf = true) : okN (execReplay tile slot seq s) := by
  unfold execReplay
  repeat' first | with_reducible first | assumption | apply State.faultReply_wf | refine okN_next ?_

theorem execUnresolvable_wf (tile slot seq : Nat) (s : State) (hs : s.mem.wf = true) : okN (execUnresolvable tile slot seq s) := by
  unfold execUnresolvable
  repeat' first | with_reducible first | assumption | apply State.faultReply_wf | refine okN_next ?_

theorem State.writeQueue_wf (s : State) (tile entry : Nat) (hi : Dword) (hs : s.mem.wf = true) :
    (State.writeQueue s tile entry hi).mem.wf = true := by
  unfold State.writeQueue
  repeat' first | dsimp only | with_reducible first | assumption | apply State.modQueue_wf

theorem execQueueEntryWrite_wf (tile entry : Nat) (hi lo : Dword) (s : State) (hs : s.mem.wf = true) :
    okN (execQueueEntryWrite tile entry hi lo s) := by
  unfold execQueueEntryWrite
  repeat' first | dsimp only | with_reducible first | assumption | apply State.writeQueue_wf | refine okN_next ?_

theorem State.writeClkmode_wf (s : State) (v : Dword) (hs : s.mem.wf = true) : (State.writeClkmode s v).mem.wf = true := by
  unfold State.writeClkmode
  repeat' first | dsimp only | split | with_reducible first | assumption

theorem execClkmodeWrite_wf (v : Dword) (s : State) (hs : s.mem.wf = true) : okN (execClkmodeWrite v s) := by
  unfold execClkmodeWrite
  repeat' first | with_reducible first | assumption | apply State.writeClkmode_wf | refine okN_next ?_

theorem State.yields_wf (s : State) (place : Nat) (v : Dword) (hs : s.mem.wf = true) : (State.yields s place v).mem.wf = true := by
  unfold State.yields
  repeat' first | dsimp only | with_reducible first | assumption

theorem execNotifyRead_wf (thread : Nat) (s : State) (hs : s.mem.wf = true) : okN (execNotifyRead thread s) := by
  unfold execNotifyRead
  repeat' first | dsimp only | with_reducible first | assumption | intro _ | apply State.modThread_wf | apply State.yields_wf | refine wf_foldl ?_ ?_ | refine okN_next ?_

theorem State.setCtx_wf (s : State) (c : Nat) (f : Ctx → Ctx) (hs : s.mem.wf = true) : (State.setCtx s c f).mem.wf = true := by
  unfold State.setCtx
  repeat' first | dsimp only | split | with_reducible first | assumption | apply State.modCtx_wf

theorem State.writeIssue_wf (s : State) (key : Nat) (w : Word) (hs : s.mem.wf = true) : (State.writeIssue s key w).mem.wf = true := by
  unfold State.writeIssue
  repeat' first | dsimp only | split | with_reducible first | assumption | apply State.modWindow_wf | apply State.refuse_wf

theorem State.writeSlot_wf (s : State) (key off : Nat) (v new m : Dword) (hs : s.mem.wf = true) :
    (State.writeSlot s key off v new m).mem.wf = true := by
  unfold State.writeSlot
  repeat' first | dsimp only | split | with_reducible first | assumption | apply State.modTeam_wf | apply State.modWindow_wf | apply State.refuse_wf | apply State.cmdResume_wf | apply State.cmdRedirect_wf | apply State.cmdKillTeam_wf | apply State.cmdKillContext_wf | apply State.writeResumePc_wf | apply State.faultReply_wf | apply State.writeIssue_wf

theorem State.writeContext_wf (s : State) (c off : Nat) (v new m : Dword) (hs : s.mem.wf = true) :
    (State.writeContext s c off v new m).mem.wf = true := by
  unfold State.writeContext
  repeat' first | dsimp only | split | with_reducible first | assumption | apply State.setCtx_wf

theorem State.writeReg_wf (s : State) (r : Reg17) (v new m : Dword) (hs : s.mem.wf = true) : (State.writeReg s r v new m).mem.wf = true := by
  unfold State.writeReg
  repeat' first | dsimp only | split | with_reducible first | assumption | apply State.setWindow_wf | apply State.modPort_wf | apply State.writeQueue_wf | apply State.writeClkmode_wf | apply State.writeSlot_wf | apply State.writeContext_wf

theorem State.writeControl_wf (s : State) (pa n : Nat) (value : Dword) (hs : s.mem.wf = true) : (State.writeControl s pa n value).mem.wf = true := by
  unfold State.writeControl
  repeat' first | with_reducible first | assumption | apply State.writeReg_wf

theorem execRegisterWrite_wf (pa n : Nat) (v : Dword) (s : State) (hs : s.mem.wf = true) : okN (execRegisterWrite pa n v s) := by
  unfold execRegisterWrite
  repeat' first | split | with_reducible first | assumption | apply State.writeControl_wf | refine okN_next ?_ | exact okN_fault

theorem execRangerLoadStore_wf (pa n : Nat) (store : Bool) (v : Dword) (s : State) (hs : s.mem.wf = true) :
    okN (execRangerLoadStore pa n store v s) := by
  unfold execRangerLoadStore
  repeat' first | dsimp only | split | with_reducible first | assumption | apply State.send_wf | apply State.memStore_wf | apply State.yields_wf | apply State.writeControl_wf | refine okN_next ?_ | exact okN_fault

/-! ### Machine/HubUnits.lean -/

theorem State.modClock_wf (s : State) (f : Clock → Clock) (hs : s.mem.wf = true) : (State.modClock s f).mem.wf = true := by
  unfold State.modClock
  repeat' first | dsimp only | with_reducible first | assumption

theorem State.slewTo_wf (s : State) (ppm : Int) (hs : s.mem.wf = true) : (State.slewTo s ppm).mem.wf = true := by
  unfold State.slewTo
  repeat' first | dsimp only | with_reducible first | assumption | apply State.modClock_wf

theorem State.slewToward_wf (s : State) (target : Nat) (hs : s.mem.wf = true) : (State.slewToward s target).mem.wf = true := by
  unfold State.slewToward
  repeat' first | dsimp only | split | with_reducible first | assumption | apply draw_wf | apply State.slewTo_wf

theorem execPtpEventMessage_wf (nic : Nat) (master : Dword) (error : Nat) (s : State) (hs : s.mem.wf = true) :
    okN (execPtpEventMessage nic master error s) := by
  unfold execPtpEventMessage
  repeat' first | dsimp only | split | with_reducible first | assumption | apply State.modClock_wf | apply State.slewToward_wf | refine okN_next ?_

theorem State.alignSlots_wf (s : State) (hs : s.mem.wf = true) : (State.alignSlots s).mem.wf = true := by
  unfold State.alignSlots
  repeat' first | dsimp only | with_reducible first | assumption

theorem execClockLock_wf (ptp : Dword) (s : State) (hs : s.mem.wf = true) : okN (execClockLock ptp s) := by
  unfold execClockLock
  repeat' first | dsimp only | split | with_reducible first | assumption | apply State.modClock_wf | apply State.slewToward_wf | apply State.alignSlots_wf | refine okN_next ?_

theorem execHoldover_wf (s : State) (hs : s.mem.wf = true) : okN (execHoldover s) := by
  unfold execHoldover
  repeat' first | with_reducible first | assumption | apply State.notify_wf | apply State.modClock_wf | apply State.slewTo_wf | refine okN_next ?_

theorem execClkpairLatch_wf (s : State) (hs : s.mem.wf = true) : okN (execClkpairLatch s) := by
  unfold execClkpairLatch
  repeat' first | split | with_reducible first | assumption | apply State.modClock_wf | refine okN_next ?_

theorem State.modPower_wf (s : State) (f : Power → Power) (hs : s.mem.wf = true) : (State.modPower s f).mem.wf = true := by
  unfold State.modPower
  repeat' first | dsimp only | with_reducible first | assumption

theorem execPowerGrant_wf (grants : List Nat) (s : State) (hs : s.mem.wf = true) : okN (execPowerGrant grants s) := by
  unfold execPowerGrant
  repeat' first | dsimp only | split | with_reducible first | assumption | intro _ | apply draw_wf | apply State.modPower_wf | refine wf_foldl ?_ ?_ | refine okN_next ?_

theorem execPowerLimit_wf (watts : Nat) (s : State) (hs : s.mem.wf = true) : okN (execPowerLimit watts s) := by
  unfold execPowerLimit
  repeat' first | split | with_reducible first | assumption | apply State.modPower_wf | refine okN_next ?_

theorem execDroop_wf (tile cycles : Nat) (s : State) (hs : s.mem.wf = true) : okN (execDroop tile cycles s) := by
  unfold execDroop
  repeat' first | dsimp only | with_reducible first | assumption | apply draw_wf | apply State.modClock_wf | refine okN_next ?_

theorem State.tellAll_wf (s : State) (cause : Nat) (hs : s.mem.wf = true) : (State.tellAll s cause).mem.wf = true := by
  unfold State.tellAll
  repeat' first | dsimp only | with_reducible first | assumption | intro _ | apply State.contextRecord_wf | refine wf_foldl ?_ ?_

theorem execEmergencyThrottleBegin_wf (s : State) (hs : s.mem.wf = true) : okN (execEmergencyThrottleBegin s) := by
  unfold execEmergencyThrottleBegin
  repeat' first | split | with_reducible first | assumption | apply State.modPower_wf | apply State.tellAll_wf | refine okN_next ?_

theorem execEmergencyThrottleEnd_wf (s : State) (hs : s.mem.wf = true) : okN (execEmergencyThrottleEnd s) := by
  unfold execEmergencyThrottleEnd
  repeat' first | split | with_reducible first | assumption | apply State.modPower_wf | apply State.tellAll_wf | refine okN_next ?_

theorem execOrderlyShutdown_wf (s : State) (hs : s.mem.wf = true) : okN (execOrderlyShutdown s) := by
  unfold execOrderlyShutdown
  repeat' first | split | with_reducible first | assumption | apply State.modPower_wf | apply State.tellAll_wf | refine okN_next ?_

theorem execPowerOff_wf (s : State) (hs : s.mem.wf = true) : okN (execPowerOff s) := by
  unfold execPowerOff
  repeat' first | split | with_reducible first | assumption | apply State.modPower_wf | refine okN_next ?_

theorem execPackageReset_wf (s : State) (hs : s.mem.wf = true) : okN (execPackageReset s) :=
  wf_parts (fwf_filter _ (wf_bytes hs)) (fwf_filter _ (wf_poison hs))

theorem State.modTrust_wf (s : State) (f : Trust → Trust) (hs : s.mem.wf = true) : (State.modTrust s f).mem.wf = true := by
  unfold State.modTrust
  repeat' first | dsimp only | with_reducible first | assumption

theorem State.respond_wf (s : State) (code : Nat) (req : List Byte) (hs : s.mem.wf = true) : (State.respond s code req).mem.wf = true := by
  unfold State.respond
  repeat' first | dsimp only | with_reducible first | assumption | apply State.modTrust_wf

theorem State.spdmError_wf (s : State) (hs : s.mem.wf = true) : (State.spdmError s).mem.wf = true := by
  unfold State.spdmError
  repeat' first | dsimp only | with_reducible first | assumption

theorem State.afterNegotiation_wf (s : State) (ok : Bool) (code : Nat) (req : List Byte) (hs : s.mem.wf = true) :
    (State.afterNegotiation s ok code req).mem.wf = true := by
  unfold State.afterNegotiation
  repeat' first | split | with_reducible first | assumption | apply State.respond_wf | apply State.spdmError_wf

theorem execGetVersion_wf (s : State) (hs : s.mem.wf = true) : okN (execGetVersion s) := by
  unfold execGetVersion
  repeat' first | with_reducible first | assumption | apply State.modTrust_wf | apply State.respond_wf | refine okN_next ?_

theorem execGetCapabilities_wf (req : List Byte) (s : State) (hs : s.mem.wf = true) : okN (execGetCapabilities req s) := by
  unfold execGetCapabilities
  repeat' first | split | with_reducible first | assumption | apply State.modTrust_wf | apply State.respond_wf | apply State.spdmError_wf | refine okN_next ?_

theorem execNegotiateAlgorithms_wf (req : List Byte) (s : State) (hs : s.mem.wf = true) : okN (execNegotiateAlgorithms req s) := by
  unfold execNegotiateAlgorithms
  repeat' first | split | with_reducible first | assumption | apply State.modTrust_wf | apply State.respond_wf | apply State.spdmError_wf | refine okN_next ?_

theorem execGetDigests_wf (s : State) (hs : s.mem.wf = true) : okN (execGetDigests s) := by
  unfold execGetDigests
  repeat' first | with_reducible first | assumption | apply State.afterNegotiation_wf | refine okN_next ?_

theorem execGetCertificate_wf (slot offset len : Nat) (s : State) (hs : s.mem.wf = true) : okN (execGetCertificate slot offset len s) := by
  unfold execGetCertificate
  repeat' first | with_reducible first | assumption | apply State.afterNegotiation_wf | refine okN_next ?_

theorem execChallenge_wf (slot : Nat) (nonce : List Byte) (s : State) (hs : s.mem.wf = true) : okN (execChallenge slot nonce s) := by
  unfold execChallenge
  repeat' first | with_reducible first | assumption | apply State.afterNegotiation_wf | refine okN_next ?_

theorem execGetMeasurements_wf (index : Nat) (sign : Bool) (nonce : List Byte) (s : State) (hs : s.mem.wf = true) :
    okN (execGetMeasurements index sign nonce s) := by
  unfold execGetMeasurements
  repeat' first | with_reducible first | assumption | apply State.afterNegotiation_wf | refine okN_next ?_

theorem execKeyExchange_wf (req : List Byte) (s : State) (hs : s.mem.wf = true) : okN (execKeyExchange req s) := by
  unfold execKeyExchange
  repeat' first | split | with_reducible first | assumption | apply State.modTrust_wf | apply State.respond_wf | apply State.spdmError_wf | refine okN_next ?_

theorem execFinish_wf (req : List Byte) (s : State) (hs : s.mem.wf = true) : okN (execFinish req s) := by
  unfold execFinish
  repeat' first | split | with_reducible first | assumption | apply State.modTrust_wf | apply State.respond_wf | apply State.spdmError_wf | refine okN_next ?_

theorem execEndSession_wf (s : State) (hs : s.mem.wf = true) : okN (execEndSession s) := by
  unfold execEndSession
  repeat' first | split | with_reducible first | assumption | apply State.modTrust_wf | apply State.respond_wf | apply State.spdmError_wf | refine okN_next ?_

/-! ### Machine/Package.lean -/

theorem State.addKernel_wf (s : State) (ctx : Nat) (pl : Placement) (index first code data : Nat) (k : KernelEntry) (hs : s.mem.wf = true) :
    (State.addKernel s ctx pl index first code data k).mem.wf = true := by
  unfold State.addKernel
  repeat' first | dsimp only | with_reducible first | assumption | apply State.writeVa_wf

theorem State.addKernels_wf (s : State) (ctx : Nat) (pl : Placement) (first : Nat) (y0 : List KernelEntry) (y1 : Nat) (y2 : Nat) (y3 : Nat) (hs : s.mem.wf = true) :
    (State.addKernels s ctx pl first y0 y1 y2 y3).mem.wf = true := by
  induction y0 generalizing s ctx pl first y1 y2 y3 with
  | nil => 
    unfold State.addKernels
    repeat' first | with_reducible first | assumption
  | cons x xs ih => 
    unfold State.addKernels
    repeat' first | with_reducible first | assumption | apply ih | apply State.addKernel_wf

theorem State.placePackage_wf (s : State) (ctx : Nat) (pl : Placement) (ks : List KernelEntry) (fcount : Nat) (hs : s.mem.wf = true) :
    (State.placePackage s ctx pl ks fcount).mem.wf = true := by
  unfold State.placePackage
  repeat' first | dsimp only | split | with_reducible first | assumption | apply State.modCtx_wf | apply State.addKernels_wf

/-! ### Machine/Calls.lean -/

theorem State.modProc_wf (s : State) (ctx : Nat) (f : Proc → Proc) (hs : s.mem.wf = true) : (State.modProc s ctx f).mem.wf = true := by
  unfold State.modProc
  repeat' first | dsimp only | split | with_reducible first | assumption

theorem State.reply_wf (s : State) (ctx : Nat) (id : Dword) (r : Int) (hs : s.mem.wf = true) : (State.reply s ctx id r).mem.wf = true := by
  unfold State.reply
  repeat' first | dsimp only | with_reducible first | assumption

theorem State.commit_wf (s : State) (ctx q : Nat) (r : Int) (hs : s.mem.wf = true) : (State.commit s ctx q r).mem.wf = true := by
  unfold State.commit
  repeat' first | with_reducible first | assumption | apply State.modProc_wf

theorem State.callResult_wf (s : State) (ctx : Nat) (id : Dword) (once : Bool) (perform : State → Int × State) (hs : s.mem.wf = true) (hperform : ∀ x0, x0.mem.wf = true → (perform x0).2.mem.wf = true) :
    (State.callResult s ctx id once perform).2.mem.wf = true := by
  unfold State.callResult
  repeat' first | dsimp only | split | with_reducible first | assumption | apply State.commit_wf | apply hperform

theorem State.call_wf (s : State) (ctx : Nat) (id : Dword) (once : Bool) (perform : State → Int × State) (hs : s.mem.wf = true) (hperform : ∀ x0, x0.mem.wf = true → (perform x0).2.mem.wf = true) :
    (State.call s ctx id once perform).mem.wf = true := by
  unfold State.call
  repeat' first | split | with_reducible first | assumption | apply State.reply_wf | apply State.callResult_wf | refine wf_of_pair (by assumption) ?_

theorem execNullCall_wf (ctx : Nat) (id : Dword) (s : State) (hs : s.mem.wf = true) : okN (execNullCall ctx id s) := by
  unfold execNullCall
  repeat' first | dsimp only | with_reducible first | assumption | intro _ | apply State.call_wf | refine okN_next ?_

theorem execTimeCall_wf (ctx : Nat) (id : Dword) (s : State) (hs : s.mem.wf = true) : okN (execTimeCall ctx id s) := by
  unfold execTimeCall
  repeat' first | dsimp only | with_reducible first | assumption | intro _ | apply State.call_wf | refine okN_next ?_

theorem State.callLaunch_wf (s : State) (ctx record : Nat) (hs : s.mem.wf = true) : (State.callLaunch s ctx record).2.mem.wf = true := by
  unfold State.callLaunch
  repeat' first | dsimp only | split | with_reducible first | assumption | apply State.startGrid_wf | apply State.modProc_wf | refine wf_of_pair (by assumption) ?_

theorem execLaunchCall_wf (ctx : Nat) (id : Dword) (record : Nat) (s : State) (hs : s.mem.wf = true) : okN (execLaunchCall ctx id record s) := by
  unfold execLaunchCall
  repeat' first | with_reducible first | assumption | intro _ | apply State.call_wf | apply State.callLaunch_wf | refine okN_next ?_

theorem execLaunchwait_wf (ctx : Nat) (id handle : Dword) (s : State) (hs : s.mem.wf = true) : okN (execLaunchwait ctx id handle s) := by
  unfold execLaunchwait
  repeat' first | dsimp only | with_reducible first | assumption | intro _ | apply State.call_wf | refine okN_next ?_

theorem State.callLog_wf (s : State) (ctx va len : Nat) (hs : s.mem.wf = true) : (State.callLog s ctx va len).2.mem.wf = true := by
  unfold State.callLog
  repeat' first | dsimp only | split | with_reducible first | assumption | apply State.modProc_wf

theorem execLogCall_wf (ctx : Nat) (id : Dword) (va len : Nat) (s : State) (hs : s.mem.wf = true) : okN (execLogCall ctx id va len s) := by
  unfold execLogCall
  repeat' first | with_reducible first | assumption | intro _ | apply State.call_wf | apply State.callLog_wf | refine okN_next ?_

theorem State.callExit_wf (s : State) (ctx : Nat) (code : Dword) (hs : s.mem.wf = true) : (State.callExit s ctx code).mem.wf = true := by
  unfold State.callExit
  repeat' first | dsimp only | split | with_reducible first | assumption | intro _ | apply State.modQueue_wf | apply State.killContext_wf | apply State.modProc_wf | refine wf_foldl ?_ ?_

theorem State.exitCall_wf (s : State) (ctx : Nat) (id code : Dword) (hs : s.mem.wf = true) : (State.exitCall s ctx id code).mem.wf = true := by
  unfold State.exitCall
  repeat' first | dsimp only | split | with_reducible first | assumption | apply State.reply_wf | apply State.callExit_wf

theorem execExitCall_wf (ctx : Nat) (id code : Dword) (s : State) (hs : s.mem.wf = true) : okN (execExitCall ctx id code s) := by
  unfold execExitCall
  repeat' first | with_reducible first | assumption | apply State.exitCall_wf | refine okN_next ?_

theorem State.setPte_wf (s : State) (at_ v : Nat) (hs : s.mem.wf = true) : (State.setPte s at_ v).mem.wf = true := by
  unfold State.setPte
  repeat' first | with_reducible first | assumption | apply State.memStore_wf

theorem State.tableFor_wf (s : State) (va : Nat) (y0 : Nat) (y1 : Nat) (y2 : List Nat) (hs : s.mem.wf = true) :
    okOT (State.tableFor s va y0 y1 y2) := by
  induction y0 generalizing s va y1 y2 with
  | zero => 
    unfold State.tableFor
    repeat' first | with_reducible first | assumption | refine okOT_some ?_
  | succ n ih => 
    unfold State.tableFor
    repeat' first | dsimp only | split | with_reducible first | assumption | apply ih | apply State.memStore_wf | apply State.setPte_wf | exact okOT_none

theorem State.mapPages_wf (s : State) (root va attr : Nat) (y0 : Nat) (y1 : List Nat) (hs : s.mem.wf = true) :
    okO (State.mapPages s root va attr y0 y1) := by
  induction y0 generalizing s root va attr y1 with
  | zero => 
    unfold State.mapPages
    repeat' first | with_reducible first | assumption | refine okO_some ?_
  | succ n ih => 
    unfold State.mapPages
    repeat' first | split | with_reducible first | assumption | apply ih | apply State.setPte_wf | apply State.tableFor_wf | refine wf_of_someT (by assumption) ?_ | exact okO_none

theorem State.callMap_wf (s : State) (ctx va pages : Nat) (attr : Dword) (frames : List Nat) (hs : s.mem.wf = true) :
    (State.callMap s ctx va pages attr frames).2.mem.wf = true := by
  unfold State.callMap
  repeat' first | dsimp only | split | with_reducible first | assumption | apply State.mapPages_wf | refine wf_of_some (by assumption) ?_

theorem execMapCall_wf (ctx : Nat) (id : Dword) (va pages : Nat) (attr : Dword) (frames : List Nat) (s : State) (hs : s.mem.wf = true) :
    okN (execMapCall ctx id va pages attr frames s) := by
  unfold execMapCall
  repeat' first | with_reducible first | assumption | intro _ | apply State.call_wf | apply State.callMap_wf | refine okN_next ?_

theorem State.callUnmap_wf (s : State) (ctx va pages : Nat) (hs : s.mem.wf = true) : (State.callUnmap s ctx va pages).2.mem.wf = true := by
  unfold State.callUnmap
  repeat' first | dsimp only | split | with_reducible first | assumption | intro _ | apply State.setPte_wf | refine wf_foldl ?_ ?_

theorem execUnmap_wf (ctx : Nat) (id : Dword) (va pages : Nat) (s : State) (hs : s.mem.wf = true) : okN (execUnmap ctx id va pages s) := by
  unfold execUnmap
  repeat' first | with_reducible first | assumption | intro _ | apply State.call_wf | apply State.callUnmap_wf | refine okN_next ?_

theorem State.ownQueue_wf (s : State) (ctx h : Nat) (hs : s.mem.wf = true) : (State.ownQueue s ctx h).mem.wf = true := by
  unfold State.ownQueue
  repeat' first | with_reducible first | assumption | apply State.modProc_wf

theorem State.callQcreate_wf (s : State) (ctx kind : Nat) (args : List Dword) (hs : s.mem.wf = true) :
    (State.callQcreate s ctx kind args).2.mem.wf = true := by
  unfold State.callQcreate
  repeat' first | dsimp only | split | with_reducible first | assumption | apply State.modLink_wf | apply State.writeQueue_wf | apply State.ownQueue_wf

theorem execQcreate_wf (ctx : Nat) (id : Dword) (kind : Nat) (args : List Dword) (s : State) (hs : s.mem.wf = true) :
    okN (execQcreate ctx id kind args s) := by
  unfold execQcreate
  repeat' first | with_reducible first | assumption | intro _ | apply State.call_wf | apply State.callQcreate_wf | refine okN_next ?_

theorem State.callQdestroy_wf (s : State) (ctx : Nat) (handle : Dword) (hs : s.mem.wf = true) :
    (State.callQdestroy s ctx handle).2.mem.wf = true := by
  unfold State.callQdestroy
  repeat' first | dsimp only | split | with_reducible first | assumption | apply State.modQueue_wf | apply State.modLink_wf | apply State.modProc_wf

theorem execQdestroy_wf (ctx : Nat) (id handle : Dword) (s : State) (hs : s.mem.wf = true) : okN (execQdestroy ctx id handle s) := by
  unfold execQdestroy
  repeat' first | with_reducible first | assumption | intro _ | apply State.call_wf | apply State.callQdestroy_wf | refine okN_next ?_

theorem State.callBindthread_wf (s : State) (ctx thread : Nat) (hs : s.mem.wf = true) : (State.callBindthread s ctx thread).2.mem.wf = true := by
  unfold State.callBindthread
  repeat' first | dsimp only | split | with_reducible first | assumption | apply State.modCtx_wf | apply State.modProc_wf

theorem execBindthread_wf (ctx : Nat) (id : Dword) (thread : Nat) (s : State) (hs : s.mem.wf = true) : okN (execBindthread ctx id thread s) := by
  unfold execBindthread
  repeat' first | with_reducible first | assumption | intro _ | apply State.call_wf | apply State.callBindthread_wf | refine okN_next ?_

theorem State.callTimetable_wf (s : State) (ctx entry : Nat) (hi lo : Dword) (hs : s.mem.wf = true) :
    (State.callTimetable s ctx entry hi lo).2.mem.wf = true := by
  unfold State.callTimetable
  repeat' first | dsimp only | split | with_reducible first | assumption | apply State.modEntry_wf

theorem execTimetableCall_wf (ctx : Nat) (id : Dword) (entry : Nat) (hi lo : Dword) (s : State) (hs : s.mem.wf = true) :
    okN (execTimetableCall ctx id entry hi lo s) := by
  unfold execTimetableCall
  repeat' first | with_reducible first | assumption | intro _ | apply State.call_wf | apply State.callTimetable_wf | refine okN_next ?_

theorem State.callLoadpkg_wf (s : State) (ctx : Nat) (args : List Dword) (hs : s.mem.wf = true) : (State.callLoadpkg s ctx args).2.mem.wf = true := by
  unfold State.callLoadpkg
  repeat' first | dsimp only | split | with_reducible first | assumption | apply fresh_wf | apply State.placePackage_wf | apply State.modProc_wf

theorem execLoadpkg_wf (ctx : Nat) (id : Dword) (args : List Dword) (s : State) (hs : s.mem.wf = true) : okN (execLoadpkg ctx id args s) := by
  unfold execLoadpkg
  repeat' first | with_reducible first | assumption | intro _ | apply State.call_wf | apply State.callLoadpkg_wf | refine okN_next ?_

theorem State.thaw_wf (s : State) (ctx : Nat) (hs : s.mem.wf = true) : (State.thaw s ctx).mem.wf = true := by
  unfold State.thaw
  repeat' first | with_reducible first | assumption | apply State.modProc_wf

theorem State.migrateCall_wf (s : State) (ctx : Nat) (id : Dword) (hs : s.mem.wf = true) : (State.migrateCall s ctx id).mem.wf = true := by
  unfold State.migrateCall
  repeat' first | dsimp only | split | with_reducible first | assumption | intro _ | apply State.modProc_wf | apply State.call_wf

theorem execMigrate_wf (ctx : Nat) (id target : Dword) (s : State) (hs : s.mem.wf = true) : okN (execMigrate ctx id target s) := by
  unfold execMigrate
  repeat' first | dsimp only | with_reducible first | assumption | apply State.migrateCall_wf | refine okN_next ?_

theorem State.migrateStep_wf (s : State) (hs : s.mem.wf = true) : okO (State.migrateStep s) := by
  unfold State.migrateStep
  repeat' first | dsimp only | split | with_reducible first | assumption | intro _ | apply draw_wf | apply State.modProc_wf | apply State.reply_wf | apply State.commit_wf | apply State.thaw_wf | refine okO_map ?_

theorem execMigrationStream_wf (ctx : Nat) (image : List Byte) (s : State) (hs : s.mem.wf = true) : okN (execMigrationStream ctx image s) := by
  unfold execMigrationStream
  repeat' first | dsimp only | split | with_reducible first | assumption | apply State.setCtx_wf | apply State.thaw_wf | refine okN_next ?_

theorem execResumptionConfirmed_wf (ctx : Nat) (s : State) (hs : s.mem.wf = true) : okN (execResumptionConfirmed ctx s) := by
  unfold execResumptionConfirmed
  repeat' first | dsimp only | split | with_reducible first | assumption | apply State.killContext_wf | refine okN_next ?_

end Sys2Proof.Machine
end

