-- ==== Sys2Proof/Laws/FormCompute.lean ====
section
/-! SUPPORT. Memory keeps its canonical form: the computing, queue and system instructions, the threads of Ranger, and what a step puts together. -/

namespace Sys2Proof.Machine

/-! ### Machine/Float.lean -/

theorem Issue.float2_wf (o : Issue) (s : State) (c : BitVec 1) (g : Fmt → Rm → Nat → Nat → Nat × BitVec 5) (hs : s.mem.wf = true) :
    okR (Issue.float2 o s c g) := by
  unfold Issue.float2
  repeat' first | with_reducible first | assumption | apply Issue.timed_wf | apply Issue.commit_wf

theorem Issue.float3_wf (o : Issue) (s : State) (c : BitVec 1) (g : Fmt → Rm → Nat → Nat → Nat → Nat × BitVec 5) (hs : s.mem.wf = true) :
    okR (Issue.float3 o s c g) := by
  unfold Issue.float3
  repeat' first | with_reducible first | assumption | apply Issue.timed_wf | apply Issue.commit_wf

theorem Issue.float1_wf (o : Issue) (s : State) (c : BitVec 1) (codes : Dword → Codes) (g : Fmt → Rm → Nat → Nat × BitVec 5) (hs : s.mem.wf = true) :
    okR (Issue.float1 o s c codes g) := by
  unfold Issue.float1
  repeat' first | with_reducible first | assumption | apply Issue.timed_wf | apply Issue.commit_wf

theorem Issue.special_wf (o : Issue) (s : State) (fn : Func) (hs : s.mem.wf = true) : okR (Issue.special o s fn) := by
  unfold Issue.special
  repeat' first | with_reducible first | assumption | apply Issue.pendAfter_wf

theorem execFadd_wf (c : BitVec 1) (d a b : Reg) (lit : Word) (s : State) (hs : s.mem.wf = true) : okN (execFadd c d a b lit s) := by
  unfold execFadd
  repeat' first | with_reducible first | assumption | intro _ | apply issue_wf | apply Issue.float2_wf

theorem execFsub_wf (c : BitVec 1) (d a b : Reg) (lit : Word) (s : State) (hs : s.mem.wf = true) : okN (execFsub c d a b lit s) := by
  unfold execFsub
  repeat' first | with_reducible first | assumption | intro _ | apply issue_wf | apply Issue.float2_wf

theorem execFmul_wf (c : BitVec 1) (d a b : Reg) (lit : Word) (s : State) (hs : s.mem.wf = true) : okN (execFmul c d a b lit s) := by
  unfold execFmul
  repeat' first | with_reducible first | assumption | intro _ | apply issue_wf | apply Issue.float2_wf

theorem execFma_wf (c : BitVec 1) (d a b : Reg) (lit : Word) (s : State) (hs : s.mem.wf = true) : okN (execFma c d a b lit s) := by
  unfold execFma
  repeat' first | with_reducible first | assumption | intro _ | apply issue_wf | apply Issue.float3_wf

theorem execFnma_wf (c : BitVec 1) (d a b : Reg) (lit : Word) (s : State) (hs : s.mem.wf = true) : okN (execFnma c d a b lit s) := by
  unfold execFnma
  repeat' first | with_reducible first | assumption | intro _ | apply issue_wf | apply Issue.float3_wf

theorem execFdiv_wf (c : BitVec 1) (d a : Reg) (l : BitVec 4) (lit : Word) (s : State) (hs : s.mem.wf = true) : okN (execFdiv c d a l lit s) := by
  unfold execFdiv
  repeat' first | with_reducible first | assumption | intro _ | apply issue_wf | apply Issue.pendAfter_wf

theorem execFsqrt_wf (c : BitVec 1) (d a : Reg) (l : BitVec 4) (lit : Word) (s : State) (hs : s.mem.wf = true) : okN (execFsqrt c d a l lit s) := by
  unfold execFsqrt
  repeat' first | with_reducible first | assumption | intro _ | apply issue_wf | apply Issue.pendAfter_wf

theorem execFrcp_wf (c : BitVec 1) (d a : Reg) (l : BitVec 4) (lit : Word) (s : State) (hs : s.mem.wf = true) : okN (execFrcp c d a l lit s) := by
  unfold execFrcp
  repeat' first | with_reducible first | assumption | intro _ | apply issue_wf | apply Issue.pendAfter_wf

theorem execFmin_wf (c : BitVec 1) (d a b : Reg) (lit : Word) (s : State) (hs : s.mem.wf = true) : okN (execFmin c d a b lit s) := by
  unfold execFmin
  repeat' first | with_reducible first | assumption | intro _ | apply issue_wf | apply Issue.float2_wf

theorem execFmax_wf (c : BitVec 1) (d a b : Reg) (lit : Word) (s : State) (hs : s.mem.wf = true) : okN (execFmax c d a b lit s) := by
  unfold execFmax
  repeat' first | with_reducible first | assumption | intro _ | apply issue_wf | apply Issue.float2_wf

theorem execFminm_wf (c : BitVec 1) (d a b : Reg) (lit : Word) (s : State) (hs : s.mem.wf = true) : okN (execFminm c d a b lit s) := by
  unfold execFminm
  repeat' first | with_reducible first | assumption | intro _ | apply issue_wf | apply Issue.float2_wf

theorem execFmaxm_wf (c : BitVec 1) (d a b : Reg) (lit : Word) (s : State) (hs : s.mem.wf = true) : okN (execFmaxm c d a b lit s) := by
  unfold execFmaxm
  repeat' first | with_reducible first | assumption | intro _ | apply issue_wf | apply Issue.float2_wf

theorem execFabs_wf (c : BitVec 1) (d a : Reg) (lit : Word) (s : State) (hs : s.mem.wf = true) : okN (execFabs c d a lit s) := by
  unfold execFabs
  repeat' first | with_reducible first | assumption | intro _ | apply issue_wf | apply Issue.float1_wf

theorem execFneg_wf (c : BitVec 1) (d a : Reg) (lit : Word) (s : State) (hs : s.mem.wf = true) : okN (execFneg c d a lit s) := by
  unfold execFneg
  repeat' first | with_reducible first | assumption | intro _ | apply issue_wf | apply Issue.float1_wf

theorem execFcpys_wf (c : BitVec 1) (d a b : Reg) (lit : Word) (s : State) (hs : s.mem.wf = true) : okN (execFcpys c d a b lit s) := by
  unfold execFcpys
  repeat' first | with_reducible first | assumption | intro _ | apply issue_wf | apply Issue.float2_wf

theorem execFcmp_wf (d a b : Reg) (lit : Word) (s : State) (hs : s.mem.wf = true) : okN (execFcmp d a b lit s) := by
  unfold execFcmp
  repeat' first | dsimp only | with_reducible first | assumption | intro _ | apply Issue.timed_wf | apply issue_wf | apply Issue.commit_wf

theorem execFclass_wf (c : BitVec 1) (d a : Reg) (lit : Word) (s : State) (hs : s.mem.wf = true) : okN (execFclass c d a lit s) := by
  unfold execFclass
  repeat' first | with_reducible first | assumption | intro _ | apply issue_wf | apply Issue.float1_wf

theorem execFrint_wf (c : BitVec 1) (d a : Reg) (lit : Word) (s : State) (hs : s.mem.wf = true) : okN (execFrint c d a lit s) := by
  unfold execFrint
  repeat' first | with_reducible first | assumption | intro _ | apply issue_wf | apply Issue.float1_wf

theorem execFscale_wf (c : BitVec 1) (d a b : Reg) (lit : Word) (s : State) (hs : s.mem.wf = true) : okN (execFscale c d a b lit s) := by
  unfold execFscale
  repeat' first | with_reducible first | assumption | intro _ | apply Issue.timed_wf | apply issue_wf | apply Issue.commit_wf

theorem execFgetx_wf (c : BitVec 1) (d a : Reg) (lit : Word) (s : State) (hs : s.mem.wf = true) : okN (execFgetx c d a lit s) := by
  unfold execFgetx
  repeat' first | split | with_reducible first | assumption | intro _ | apply issue_wf | apply Issue.float1_wf

theorem execSinpi_wf (d a : Reg) (l : BitVec 4) (lit : Word) (s : State) (hs : s.mem.wf = true) : okN (execSinpi d a l lit s) := by
  unfold execSinpi
  repeat' first | with_reducible first | assumption | intro _ | apply issue_wf | apply Issue.special_wf

theorem execCospi_wf (d a : Reg) (l : BitVec 4) (lit : Word) (s : State) (hs : s.mem.wf = true) : okN (execCospi d a l lit s) := by
  unfold execCospi
  repeat' first | with_reducible first | assumption | intro _ | apply issue_wf | apply Issue.special_wf

theorem execExp2_wf (d a : Reg) (l : BitVec 4) (lit : Word) (s : State) (hs : s.mem.wf = true) : okN (execExp2 d a l lit s) := by
  unfold execExp2
  repeat' first | with_reducible first | assumption | intro _ | apply issue_wf | apply Issue.special_wf

theorem execLog2_wf (d a : Reg) (l : BitVec 4) (lit : Word) (s : State) (hs : s.mem.wf = true) : okN (execLog2 d a l lit s) := by
  unfold execLog2
  repeat' first | with_reducible first | assumption | intro _ | apply issue_wf | apply Issue.special_wf

theorem execRcpa_wf (d a : Reg) (l : BitVec 4) (lit : Word) (s : State) (hs : s.mem.wf = true) : okN (execRcpa d a l lit s) := by
  unfold execRcpa
  repeat' first | with_reducible first | assumption | intro _ | apply issue_wf | apply Issue.special_wf

theorem execRsqa_wf (d a : Reg) (l : BitVec 4) (lit : Word) (s : State) (hs : s.mem.wf = true) : okN (execRsqa d a l lit s) := by
  unfold execRsqa
  repeat' first | with_reducible first | assumption | intro _ | apply issue_wf | apply Issue.special_wf

theorem execTanh_wf (d a : Reg) (l : BitVec 4) (lit : Word) (s : State) (hs : s.mem.wf = true) : okN (execTanh d a l lit s) := by
  unfold execTanh
  repeat' first | with_reducible first | assumption | intro _ | apply issue_wf | apply Issue.special_wf

/-! ### Machine/Formats.lean -/

theorem Issue.controlled_wf (o : Issue) (accepts : Nat → Bool) (r : Reg) (k : Unit → Res) (hk : ∀ x0, okR (k x0)) :
    okR (Issue.controlled o accepts r k) := by
  unfold Issue.controlled
  repeat' first | split | with_reducible first | exact okR_trap | exact okR_rollback | apply hk

theorem Issue.stepSeeds_wf (o : Issue) (s : State) (v : Nat → Num) (hs : s.mem.wf = true) : (Issue.stepSeeds o s v).mem.wf = true := by
  unfold Issue.stepSeeds
  repeat' first | dsimp only | split | with_reducible first | assumption

theorem Issue.convert_wf (o : Issue) (s : State) (poison : Nat → Bool) (g : Nat → Nat × BitVec 5) (hs : s.mem.wf = true) :
    okR (Issue.convert o s poison g) := by
  unfold Issue.convert
  repeat' first | dsimp only | with_reducible first | assumption | apply Issue.timed_wf | apply Issue.commit_wf

theorem execCvt_wf (d a b : Reg) (lit : Word) (s : State) (hs : s.mem.wf = true) : okN (execCvt d a b lit s) := by
  unfold execCvt
  repeat' first | with_reducible first | assumption | intro _ | apply issue_wf | apply Issue.controlled_wf | apply Issue.stepSeeds_wf | apply Issue.convert_wf

theorem execCvti_wf (d a b : Reg) (lit : Word) (s : State) (hs : s.mem.wf = true) : okN (execCvti d a b lit s) := by
  unfold execCvti
  repeat' first | with_reducible first | assumption | intro _ | apply issue_wf | apply Issue.controlled_wf | apply Issue.convert_wf

theorem execCvtf_wf (d a b : Reg) (lit : Word) (s : State) (hs : s.mem.wf = true) : okN (execCvtf d a b lit s) := by
  unfold execCvtf
  repeat' first | with_reducible first | assumption | intro _ | apply issue_wf | apply Issue.controlled_wf | apply Issue.stepSeeds_wf | apply Issue.convert_wf

theorem Issue.padRecord_wf (o : Issue) (s : State) (hs : s.mem.wf = true) : (Issue.padRecord o s).mem.wf = true := by
  unfold Issue.padRecord
  repeat' first | split | with_reducible first | assumption | apply State.errorRecord_wf

theorem execPack_wf (d a b : Reg) (lit : Word) (s : State) (hs : s.mem.wf = true) : okN (execPack d a b lit s) := by
  unfold execPack
  repeat' first | dsimp only | with_reducible first | assumption | intro _ | apply issue_wf | apply Issue.controlled_wf | apply Issue.stepSeeds_wf | apply Issue.convert_wf

theorem execUnpack_wf (d a b : Reg) (lit : Word) (s : State) (hs : s.mem.wf = true) : okN (execUnpack d a b lit s) := by
  unfold execUnpack
  repeat' first | with_reducible first | assumption | intro _ | apply issue_wf | apply Issue.controlled_wf | apply Issue.convert_wf | apply Issue.padRecord_wf

theorem execScale_wf (d a b : Reg) (lit : Word) (s : State) (hs : s.mem.wf = true) : okN (execScale d a b lit s) := by
  unfold execScale
  repeat' first | with_reducible first | assumption | intro _ | apply issue_wf | apply Issue.convert_wf

theorem execFmtrd_wf (d : Reg) (lit : Word) (s : State) (hs : s.mem.wf = true) : okN (execFmtrd d lit s) := by
  unfold execFmtrd
  repeat' first | with_reducible first | assumption | intro _ | apply issue_wf | apply Issue.convert_wf

/-! ### Machine/Integer.lean -/

theorem Issue.compute_wf (o : Issue) (s : State) (cc : Bool) (poison : Nat → Bool) (f : Nat → Dword × Codes) (hs : s.mem.wf = true) :
    okR (Issue.compute o s cc poison f) := by
  unfold Issue.compute
  repeat' first | dsimp only | split | with_reducible first | assumption | apply Issue.plain_wf | apply Issue.commit_wf

theorem Issue.arith_wf (o : Issue) (s : State) (w c : BitVec 1) (f : (n : Nat) → Nat → BitVec n → BitVec n → BitVec n × Codes) (hs : s.mem.wf = true) :
    okR (Issue.arith o s w c f) := by
  unfold Issue.arith
  repeat' first | with_reducible first | assumption | apply Issue.compute_wf

theorem Issue.arithC_wf (o : Issue) (s : State) (w c : BitVec 1) (f : (n : Nat) → Nat → BitVec n → BitVec n → BitVec n × Codes) (hs : s.mem.wf = true) :
    okR (Issue.arithC o s w c f) := by
  unfold Issue.arithC
  repeat' first | with_reducible first | assumption | apply Issue.compute_wf

theorem Issue.arith1_wf (o : Issue) (s : State) (w c : BitVec 1) (f : (n : Nat) → BitVec n → BitVec n × Codes) (hs : s.mem.wf = true) :
    okR (Issue.arith1 o s w c f) := by
  unfold Issue.arith1
  repeat' first | with_reducible first | assumption | apply Issue.compute_wf

theorem Issue.logic_wf (o : Issue) (s : State) (w : BitVec 1) (f : (n : Nat) → BitVec n → BitVec n → BitVec n) (hs : s.mem.wf = true) :
    okR (Issue.logic o s w f) := by
  unfold Issue.logic
  repeat' first | with_reducible first | assumption | apply Issue.compute_wf

theorem Issue.logic1_wf (o : Issue) (s : State) (w : BitVec 1) (f : (n : Nat) → BitVec n → BitVec n) (hs : s.mem.wf = true) :
    okR (Issue.logic1 o s w f) := by
  unfold Issue.logic1
  repeat' first | with_reducible first | assumption | apply Issue.compute_wf

theorem Issue.shift_wf (o : Issue) (s : State) (w : BitVec 1) (f : (n : Nat) → BitVec n → Nat → BitVec n) (hs : s.mem.wf = true) :
    okR (Issue.shift o s w f) := by
  unfold Issue.shift
  repeat' first | with_reducible first | assumption | apply Issue.compute_wf

theorem Issue.countBits_wf (o : Issue) (s : State) (w : BitVec 1) (f : (n : Nat) → BitVec n → Nat) (hs : s.mem.wf = true) :
    okR (Issue.countBits o s w f) := by
  unfold Issue.countBits
  repeat' first | split | with_reducible first | assumption | apply Issue.compute_wf

theorem Issue.compare_wf (o : Issue) (s : State) (w : BitVec 1) (f : (n : Nat) → BitVec n → BitVec n → Codes) (hs : s.mem.wf = true) :
    okR (Issue.compare o s w f) := by
  unfold Issue.compare
  repeat' first | with_reducible first | assumption | apply Issue.compute_wf

theorem Issue.division_wf (o : Issue) (s : State) (u w c : BitVec 1) (pick : {n : Nat} → BitVec n × BitVec n × Bool → BitVec n) (hs : s.mem.wf = true) :
    okR (Issue.division o s u w c pick) := by
  unfold Issue.division
  repeat' first | dsimp only | split | with_reducible first | assumption | apply Issue.pendAfter_wf

theorem execAdd_wf (w c : BitVec 1) (d a b : Reg) (lit : Word) (s : State) (hs : s.mem.wf = true) : okN (execAdd w c d a b lit s) := by
  unfold execAdd
  repeat' first | with_reducible first | assumption | intro _ | apply issue_wf | apply Issue.arith_wf

theorem execAddc_wf (w c : BitVec 1) (d a b : Reg) (lit : Word) (s : State) (hs : s.mem.wf = true) : okN (execAddc w c d a b lit s) := by
  unfold execAddc
  repeat' first | with_reducible first | assumption | intro _ | apply issue_wf | apply Issue.arithC_wf

theorem execSub_wf (w c : BitVec 1) (d a b : Reg) (lit : Word) (s : State) (hs : s.mem.wf = true) : okN (execSub w c d a b lit s) := by
  unfold execSub
  repeat' first | with_reducible first | assumption | intro _ | apply issue_wf | apply Issue.arith_wf

theorem execSubb_wf (w c : BitVec 1) (d a b : Reg) (lit : Word) (s : State) (hs : s.mem.wf = true) : okN (execSubb w c d a b lit s) := by
  unfold execSubb
  repeat' first | with_reducible first | assumption | intro _ | apply issue_wf | apply Issue.arithC_wf

theorem execNeg_wf (w c : BitVec 1) (d a : Reg) (lit : Word) (s : State) (hs : s.mem.wf = true) : okN (execNeg w c d a lit s) := by
  unfold execNeg
  repeat' first | with_reducible first | assumption | intro _ | apply issue_wf | apply Issue.arith1_wf

theorem execMul_wf (w c : BitVec 1) (d a b : Reg) (lit : Word) (s : State) (hs : s.mem.wf = true) : okN (execMul w c d a b lit s) := by
  unfold execMul
  repeat' first | with_reducible first | assumption | intro _ | apply issue_wf | apply Issue.arith_wf

theorem execMad_wf (w c : BitVec 1) (d a b : Reg) (lit : Word) (s : State) (hs : s.mem.wf = true) : okN (execMad w c d a b lit s) := by
  unfold execMad
  repeat' first | with_reducible first | assumption | intro _ | apply issue_wf | apply Issue.compute_wf

theorem execAbs_wf (w c : BitVec 1) (d a : Reg) (lit : Word) (s : State) (hs : s.mem.wf = true) : okN (execAbs w c d a lit s) := by
  unfold execAbs
  repeat' first | dsimp only | with_reducible first | assumption | intro _ | apply issue_wf | apply Issue.arith1_wf

theorem execDiv_wf (u w c : BitVec 1) (d a : Reg) (l : BitVec 4) (lit : Word) (s : State) (hs : s.mem.wf = true) :
    okN (execDiv u w c d a l lit s) := by
  unfold execDiv
  repeat' first | with_reducible first | assumption | intro _ | apply issue_wf | apply Issue.division_wf

theorem execRem_wf (u w c : BitVec 1) (d a : Reg) (l : BitVec 4) (lit : Word) (s : State) (hs : s.mem.wf = true) :
    okN (execRem u w c d a l lit s) := by
  unfold execRem
  repeat' first | with_reducible first | assumption | intro _ | apply issue_wf | apply Issue.division_wf

theorem execMin_wf (u w c : BitVec 1) (d a b : Reg) (lit : Word) (s : State) (hs : s.mem.wf = true) : okN (execMin u w c d a b lit s) := by
  unfold execMin
  repeat' first | with_reducible first | assumption | intro _ | apply issue_wf | apply Issue.arith_wf

theorem execMax_wf (u w c : BitVec 1) (d a b : Reg) (lit : Word) (s : State) (hs : s.mem.wf = true) : okN (execMax u w c d a b lit s) := by
  unfold execMax
  repeat' first | with_reducible first | assumption | intro _ | apply issue_wf | apply Issue.arith_wf

theorem execMulh_wf (u w : BitVec 1) (d a b : Reg) (lit : Word) (s : State) (hs : s.mem.wf = true) : okN (execMulh u w d a b lit s) := by
  unfold execMulh
  repeat' first | with_reducible first | assumption | intro _ | apply issue_wf | apply Issue.logic_wf

theorem execMulw_wf (u c : BitVec 1) (d a b : Reg) (lit : Word) (s : State) (hs : s.mem.wf = true) : okN (execMulw u c d a b lit s) := by
  unfold execMulw
  repeat' first | dsimp only | with_reducible first | assumption | intro _ | apply issue_wf | apply Issue.compute_wf

theorem execMadw_wf (u c : BitVec 1) (d a b : Reg) (lit : Word) (s : State) (hs : s.mem.wf = true) : okN (execMadw u c d a b lit s) := by
  unfold execMadw
  repeat' first | with_reducible first | assumption | intro _ | apply issue_wf | apply Issue.compute_wf

theorem execMov_wf (w : BitVec 1) (d a : Reg) (lit : Word) (s : State) (hs : s.mem.wf = true) : okN (execMov w d a lit s) := by
  unfold execMov
  repeat' first | with_reducible first | assumption | intro _ | apply issue_wf | apply Issue.logic1_wf

theorem execLdi_wf (w : BitVec 1) (d : Reg) (lit lit2 : Word) (s : State) (hs : s.mem.wf = true) : okN (execLdi w d lit lit2 s) := by
  unfold execLdi
  repeat' first | split | with_reducible first | assumption | intro _ | apply issue_wf | apply Issue.compute_wf

theorem execAnd_wf (w : BitVec 1) (d a b : Reg) (lit : Word) (s : State) (hs : s.mem.wf = true) : okN (execAnd w d a b lit s) := by
  unfold execAnd
  repeat' first | with_reducible first | assumption | intro _ | apply issue_wf | apply Issue.logic_wf

theorem execOr_wf (w : BitVec 1) (d a b : Reg) (lit : Word) (s : State) (hs : s.mem.wf = true) : okN (execOr w d a b lit s) := by
  unfold execOr
  repeat' first | with_reducible first | assumption | intro _ | apply issue_wf | apply Issue.logic_wf

theorem execXor_wf (w : BitVec 1) (d a b : Reg) (lit : Word) (s : State) (hs : s.mem.wf = true) : okN (execXor w d a b lit s) := by
  unfold execXor
  repeat' first | with_reducible first | assumption | intro _ | apply issue_wf | apply Issue.logic_wf

theorem execAndn_wf (w : BitVec 1) (d a b : Reg) (lit : Word) (s : State) (hs : s.mem.wf = true) : okN (execAndn w d a b lit s) := by
  unfold execAndn
  repeat' first | with_reducible first | assumption | intro _ | apply issue_wf | apply Issue.logic_wf

theorem execNot_wf (w : BitVec 1) (d a : Reg) (lit : Word) (s : State) (hs : s.mem.wf = true) : okN (execNot w d a lit s) := by
  unfold execNot
  repeat' first | with_reducible first | assumption | intro _ | apply issue_wf | apply Issue.logic1_wf

theorem execShl_wf (w : BitVec 1) (d a b : Reg) (lit : Word) (s : State) (hs : s.mem.wf = true) : okN (execShl w d a b lit s) := by
  unfold execShl
  repeat' first | with_reducible first | assumption | intro _ | apply issue_wf | apply Issue.shift_wf

theorem execShr_wf (w : BitVec 1) (d a b : Reg) (lit : Word) (s : State) (hs : s.mem.wf = true) : okN (execShr w d a b lit s) := by
  unfold execShr
  repeat' first | with_reducible first | assumption | intro _ | apply issue_wf | apply Issue.shift_wf

theorem execShra_wf (w : BitVec 1) (d a b : Reg) (lit : Word) (s : State) (hs : s.mem.wf = true) : okN (execShra w d a b lit s) := by
  unfold execShra
  repeat' first | with_reducible first | assumption | intro _ | apply issue_wf | apply Issue.shift_wf

theorem execRot_wf (w : BitVec 1) (d a b : Reg) (lit : Word) (s : State) (hs : s.mem.wf = true) : okN (execRot w d a b lit s) := by
  unfold execRot
  repeat' first | with_reducible first | assumption | intro _ | apply issue_wf | apply Issue.shift_wf

theorem execPopc_wf (w : BitVec 1) (d a : Reg) (lit : Word) (s : State) (hs : s.mem.wf = true) : okN (execPopc w d a lit s) := by
  unfold execPopc
  repeat' first | with_reducible first | assumption | intro _ | apply issue_wf | apply Issue.countBits_wf

theorem execClz_wf (w : BitVec 1) (d a : Reg) (lit : Word) (s : State) (hs : s.mem.wf = true) : okN (execClz w d a lit s) := by
  unfold execClz
  repeat' first | with_reducible first | assumption | intro _ | apply issue_wf | apply Issue.countBits_wf

theorem execCtz_wf (w : BitVec 1) (d a : Reg) (lit : Word) (s : State) (hs : s.mem.wf = true) : okN (execCtz w d a lit s) := by
  unfold execCtz
  repeat' first | with_reducible first | assumption | intro _ | apply issue_wf | apply Issue.countBits_wf

theorem execBrev_wf (w : BitVec 1) (d a : Reg) (lit : Word) (s : State) (hs : s.mem.wf = true) : okN (execBrev w d a lit s) := by
  unfold execBrev
  repeat' first | with_reducible first | assumption | intro _ | apply issue_wf | apply Issue.logic1_wf

theorem execSel_wf (w : BitVec 1) (d a b : Reg) (lit : Word) (s : State) (hs : s.mem.wf = true) : okN (execSel w d a b lit s) := by
  unfold execSel
  repeat' first | dsimp only | split | with_reducible first | assumption | intro _ | apply issue_wf | apply Issue.compute_wf | exact okR_rollback

theorem execBfx_wf (u w : BitVec 1) (d a b : Reg) (lit : Word) (s : State) (hs : s.mem.wf = true) : okN (execBfx u w d a b lit s) := by
  unfold execBfx
  repeat' first | with_reducible first | assumption | intro _ | apply issue_wf | apply Issue.compute_wf

theorem execBfi_wf (w : BitVec 1) (d a b : Reg) (lit : Word) (s : State) (hs : s.mem.wf = true) : okN (execBfi w d a b lit s) := by
  unfold execBfi
  repeat' first | with_reducible first | assumption | intro _ | apply issue_wf | apply Issue.compute_wf

theorem execCmpN_wf (w : BitVec 1) (a b : Reg) (lit : Word) (s : State) (hs : s.mem.wf = true) : okN (execCmpN w a b lit s) := by
  unfold execCmpN
  repeat' first | with_reducible first | assumption | intro _ | apply issue_wf | apply Issue.compare_wf

theorem execCmpS_wf (w : BitVec 1) (a b : Reg) (lit : Word) (s : State) (hs : s.mem.wf = true) : okN (execCmpS w a b lit s) := by
  unfold execCmpS
  repeat' first | with_reducible first | assumption | intro _ | apply issue_wf | apply Issue.compare_wf

theorem execTst_wf (w : BitVec 1) (a b : Reg) (lit : Word) (s : State) (hs : s.mem.wf = true) : okN (execTst w a b lit s) := by
  unfold execTst
  repeat' first | with_reducible first | assumption | intro _ | apply issue_wf | apply Issue.compare_wf

theorem execFshf_wf (d a b : Reg) (lit : Word) (s : State) (hs : s.mem.wf = true) : okN (execFshf d a b lit s) := by
  unfold execFshf
  repeat' first | with_reducible first | assumption | intro _ | apply issue_wf | apply Issue.compute_wf

theorem execPerm_wf (d a b : Reg) (lit : Word) (s : State) (hs : s.mem.wf = true) : okN (execPerm d a b lit s) := by
  unfold execPerm
  repeat' first | with_reducible first | assumption | intro _ | apply issue_wf | apply Issue.compute_wf

theorem execLea_wf (d a b : Reg) (lit : Word) (s : State) (hs : s.mem.wf = true) : okN (execLea d a b lit s) := by
  unfold execLea
  repeat' first | with_reducible first | assumption | intro _ | apply issue_wf | apply Issue.compute_wf

theorem execDot4N_wf (d a b : Reg) (lit : Word) (s : State) (hs : s.mem.wf = true) : okN (execDot4N d a b lit s) := by
  unfold execDot4N
  repeat' first | with_reducible first | assumption | intro _ | apply issue_wf | apply Issue.compute_wf

theorem execDot4S_wf (d a b : Reg) (lit : Word) (s : State) (hs : s.mem.wf = true) : okN (execDot4S d a b lit s) := by
  unfold execDot4S
  repeat' first | with_reducible first | assumption | intro _ | apply issue_wf | apply Issue.compute_wf

theorem execSad_wf (d a b : Reg) (lit : Word) (s : State) (hs : s.mem.wf = true) : okN (execSad d a b lit s) := by
  unfold execSad
  repeat' first | with_reducible first | assumption | intro _ | apply issue_wf | apply Issue.compute_wf

theorem execGetcc_wf (d : Reg) (lit : Word) (s : State) (hs : s.mem.wf = true) : okN (execGetcc d lit s) := by
  unfold execGetcc
  repeat' first | with_reducible first | assumption | intro _ | apply issue_wf | apply Issue.compute_wf

theorem execSetcc_wf (a : Reg) (lit : Word) (s : State) (hs : s.mem.wf = true) : okN (execSetcc a lit s) := by
  unfold execSetcc
  repeat' first | dsimp only | with_reducible first | assumption | intro _ | apply issue_wf | apply Issue.compute_wf

/-! ### Machine/Lanes.lean -/

theorem Issue.moves_wf (o : Issue) (s : State) (g : Nat → PVal) (hs : s.mem.wf = true) : okR (Issue.moves o s g) := by
  unfold Issue.moves
  repeat' first | with_reducible first | assumption | apply Issue.plain_wf | apply Issue.commit_wf

theorem Issue.vote_wf (o : Issue) (s : State) (f : List Word → Bool) (hs : s.mem.wf = true) : okR (Issue.vote o s f) := by
  unfold Issue.vote
  repeat' first | with_reducible first | assumption | apply Issue.moves_wf

theorem Issue.fromLane_wf (o : Issue) (s : State) (hs : s.mem.wf = true) : okR (Issue.fromLane o s) := by
  unfold Issue.fromLane
  repeat' first | split | with_reducible first | assumption | apply Issue.moves_wf | exact okR_rollback

theorem Issue.combined_wf (o : Issue) (s : State) (g : Nat → Comb) (hs : s.mem.wf = true) : okR (Issue.combined o s g) := by
  unfold Issue.combined
  repeat' first | dsimp only | split | with_reducible first | assumption | apply Issue.timed_wf | apply Issue.commit_wf

theorem execShfl_wf (v : BitVec 2) (w : BitVec 1) (d a b : Reg) (lit : Word) (s : State) (hs : s.mem.wf = true) : okN (execShfl v w d a b lit s) := by
  unfold execShfl
  repeat' first | dsimp only | with_reducible first | assumption | intro _ | apply issue_wf | apply Issue.moves_wf

theorem execVoteSome_wf (d a : Reg) (lit : Word) (s : State) (hs : s.mem.wf = true) : okN (execVoteSome d a lit s) := by
  unfold execVoteSome
  repeat' first | with_reducible first | assumption | intro _ | apply issue_wf | apply Issue.vote_wf

theorem execVoteEvery_wf (d a : Reg) (lit : Word) (s : State) (hs : s.mem.wf = true) : okN (execVoteEvery d a lit s) := by
  unfold execVoteEvery
  repeat' first | with_reducible first | assumption | intro _ | apply issue_wf | apply Issue.vote_wf

theorem execVoteSame_wf (d a : Reg) (lit : Word) (s : State) (hs : s.mem.wf = true) : okN (execVoteSame d a lit s) := by
  unfold execVoteSame
  repeat' first | with_reducible first | assumption | intro _ | apply issue_wf | apply Issue.vote_wf

theorem execBallot_wf (d a : Reg) (lit : Word) (s : State) (hs : s.mem.wf = true) : okN (execBallot d a lit s) := by
  unfold execBallot
  repeat' first | dsimp only | with_reducible first | assumption | intro _ | apply issue_wf | apply Issue.moves_wf

theorem execScan_wf (sc : BitVec 4) (d a : Reg) (lit : Word) (s : State) (hs : s.mem.wf = true) : okN (execScan sc d a lit s) := by
  unfold execScan
  repeat' first | dsimp only | with_reducible first | assumption | intro _ | apply issue_wf | apply Issue.combined_wf

theorem execScanEx_wf (sc : BitVec 4) (d a : Reg) (lit : Word) (s : State) (hs : s.mem.wf = true) : okN (execScanEx sc d a lit s) := by
  unfold execScanEx
  repeat' first | dsimp only | with_reducible first | assumption | intro _ | apply issue_wf | apply Issue.combined_wf

theorem execReduce_wf (sc : BitVec 4) (d a : Reg) (lit : Word) (s : State) (hs : s.mem.wf = true) : okN (execReduce sc d a lit s) := by
  unfold execReduce
  repeat' first | dsimp only | with_reducible first | assumption | intro _ | apply issue_wf | apply Issue.combined_wf

theorem execMatchLane_wf (w : BitVec 1) (d a : Reg) (lit : Word) (s : State) (hs : s.mem.wf = true) : okN (execMatchLane w d a lit s) := by
  unfold execMatchLane
  repeat' first | with_reducible first | assumption | intro _ | apply issue_wf | apply Issue.moves_wf

theorem execBcast_wf (w : BitVec 1) (d a b : Reg) (lit : Word) (s : State) (hs : s.mem.wf = true) : okN (execBcast w d a b lit s) := by
  unfold execBcast
  repeat' first | with_reducible first | assumption | intro _ | apply issue_wf | apply Issue.fromLane_wf

theorem execKmov_wf (w : BitVec 1) (d a b : Reg) (lit : Word) (s : State) (hs : s.mem.wf = true) : okN (execKmov w d a b lit s) := by
  unfold execKmov
  repeat' first | with_reducible first | assumption | intro _ | apply issue_wf | apply Issue.fromLane_wf

/-! ### Machine/Launching.lean -/

theorem Issue.pendQ_wf (o : Issue) (s : State) (rs : List LaneResult) (codes bcast : Bool) (hs : s.mem.wf = true) :
    (Issue.pendQ o s rs codes bcast).2.mem.wf = true := by
  unfold Issue.pendQ
  repeat' first | dsimp only | with_reducible first | assumption | apply draw_wf | apply Issue.pend_wf | apply State.modPend_wf

theorem execSpawn_wf (d a b : Reg) (lit : Word) (s : State) (hs : s.mem.wf = true) : okN (execSpawn d a b lit s) := by
  unfold execSpawn
  repeat' first | dsimp only | split | with_reducible first | assumption | intro _ | apply Issue.hold_wf | apply issue_wf | apply Issue.check_wf | apply Issue.access_wf | apply Issue.pendQ_wf | refine okR_of_bad (by assumption) ?_ | refine okR_stall ?_

theorem execGrow_wf (d a : Reg) (lit : Word) (s : State) (hs : s.mem.wf = true) : okN (execGrow d a lit s) := by
  unfold execGrow
  repeat' first | dsimp only | split | with_reducible first | assumption | intro _ | apply Issue.hold_wf | apply Issue.single_wf | apply issue_wf | apply Issue.pendQ_wf | refine okR_stall ?_ | exact okR_trap | exact okR_rollback

theorem execJob_wf (a b : Reg) (lit : Word) (s : State) (hs : s.mem.wf = true) : okN (execJob a b lit s) := by
  unfold execJob
  repeat' first | split | with_reducible first | assumption | intro _ | apply Issue.hold_wf | apply issue_wf | apply Issue.check_wf | apply Issue.access_wf | refine wf_foldl ?_ ?_ | refine okR_of_bad (by assumption) ?_ | refine okR_stall ?_

theorem execLaunch_wf (d a b : Reg) (lit : Word) (s : State) (hs : s.mem.wf = true) : okN (execLaunch d a b lit s) := by
  unfold execLaunch
  repeat' first | dsimp only | split | with_reducible first | assumption | intro _ | apply Issue.hold_wf | apply Issue.single_wf | apply issue_wf | apply Issue.check_wf | apply Issue.access_wf | apply Issue.pendQ_wf | refine okR_of_bad (by assumption) ?_ | refine okR_stall ?_

/-! ### Machine/Queues.lean -/

theorem State.setPort_wf (s : State) (p : Nat) (h : Option Word) (hs : s.mem.wf = true) : (State.setPort s p h).mem.wf = true := by
  unfold State.setPort
  repeat' first | dsimp only | with_reducible first | assumption

theorem execQmap_wf (d a : Reg) (lit : Word) (s : State) (hs : s.mem.wf = true) : okN (execQmap d a lit s) := by
  unfold execQmap
  repeat' first | dsimp only | split | with_reducible first | assumption | intro _ | apply Issue.single_wf | apply issue_wf | apply State.setPort_wf | exact okR_trap | exact okR_rollback

theorem execQunmap_wf (d : Reg) (lit : Word) (s : State) (hs : s.mem.wf = true) : okN (execQunmap d lit s) := by
  unfold execQunmap
  repeat' first | split | with_reducible first | assumption | intro _ | apply Issue.single_wf | apply issue_wf | apply State.setPort_wf | exact okR_trap

theorem execQstat_wf (d a : Reg) (lit : Word) (s : State) (hs : s.mem.wf = true) : okN (execQstat d a lit s) := by
  unfold execQstat
  repeat' first | with_reducible first | assumption | intro _ | apply Issue.single_wf | apply issue_wf | apply Issue.commit_wf

theorem execQnotify_wf (d : Reg) (lit : Word) (s : State) (hs : s.mem.wf = true) : okN (execQnotify d lit s) := by
  unfold execQnotify
  repeat' first | split | with_reducible first | assumption | intro _ | apply Issue.hold_wf | apply Issue.single_wf | apply issue_wf | refine okR_stall ?_ | exact okR_trap

/-! ### Machine/System.lean -/

theorem execRegion_wf (s : State) (hs : s.mem.wf = true) : okN (execRegion s) := by
  unfold execRegion
  repeat' first | with_reducible first | assumption | intro _ | apply issue_wf | refine okR_done ?_

theorem execSigchk_wf (lit : Word) (s : State) (hs : s.mem.wf = true) : okN (execSigchk lit s) := by
  unfold execSigchk
  repeat' first | dsimp only | split | with_reducible first | assumption | intro _ | apply issue_wf | refine okR_done ?_ | exact okR_rollback

theorem execSigset_wf (lit : Word) (s : State) (hs : s.mem.wf = true) : okN (execSigset lit s) := by
  unfold execSigset
  repeat' first | with_reducible first | assumption | intro _ | apply issue_wf | refine okR_done ?_

theorem execTrap_wf (lit : Word) (s : State) (hs : s.mem.wf = true) : okN (execTrap lit s) := by
  unfold execTrap
  repeat' first | split | with_reducible first | assumption | intro _ | apply Issue.plain_wf | apply issue_wf | exact okR_trap

theorem execSysc_wf (d a : Reg) (lit : Word) (s : State) (hs : s.mem.wf = true) : okN (execSysc d a lit s) := by
  unfold execSysc
  repeat' first | split | with_reducible first | assumption | intro _ | apply Issue.single_wf | apply issue_wf | exact okR_trap | exact okR_rollback

theorem execBrk_wf (s : State) (hs : s.mem.wf = true) : okN (execBrk s) := by
  unfold execBrk
  repeat' first | split | with_reducible first | assumption | intro _ | apply Issue.plain_wf | apply issue_wf | exact okR_trap

theorem execMfs_wf (d : Reg) (lit : Word) (s : State) (hs : s.mem.wf = true) : okN (execMfs d lit s) := by
  unfold execMfs
  repeat' first | with_reducible first | assumption | intro _ | apply Issue.plain_wf | apply issue_wf | apply Issue.commit_wf

theorem execMts_wf (b : Reg) (lit : Word) (s : State) (hs : s.mem.wf = true) : okN (execMts b lit s) := by
  unfold execMts
  repeat' first | dsimp only | split | with_reducible first | assumption | intro _ | apply Issue.plain_wf | apply issue_wf | exact okR_trap | exact okR_rollback

/-! ### Machine/Hart.lean -/

theorem State.setHart_wf (s : State) (j : Nat) (h : Hart) (hs : s.mem.wf = true) : (State.setHart s j h).mem.wf = true := by
  unfold State.setHart
  repeat' first | dsimp only | with_reducible first | assumption

theorem State.hartWrite_wf (s : State) (j pa n v : Nat) (hs : s.mem.wf = true) : (State.hartWrite s j pa n v).mem.wf = true := by
  unfold State.hartWrite
  repeat' first | dsimp only | split | with_reducible first | assumption | apply State.send_wf | apply State.memStore_wf | apply State.writeControl_wf

theorem State.notified_wf (s : State) (j : Nat) (hs : s.mem.wf = true) : (State.notified s j).mem.wf = true := by
  unfold State.notified
  repeat' first | split | with_reducible first | assumption | apply execNotifyRead_wf | refine wf_of_next (by assumption) ?_

theorem drawSome_wf (s : State) (y0 : Nat) (hs : s.mem.wf = true) : (drawSome s y0).2.mem.wf = true := by
  induction y0 generalizing s with
  | zero => 
    unfold drawSome
    repeat' first | dsimp only | with_reducible first | assumption
  | succ n ih => 
    unfold drawSome
    repeat' first | dsimp only | with_reducible first | assumption | apply ih | apply draw_wf

theorem State.perform_wf (s : State) (ctx n : Nat) (args : List Dword) (hs : s.mem.wf = true) : (State.perform s ctx n args).2.mem.wf = true := by
  unfold State.perform
  repeat' first | dsimp only | split | with_reducible first | assumption | apply State.callLaunch_wf | apply State.callLog_wf | apply State.callMap_wf | apply State.callUnmap_wf | apply State.callQcreate_wf | apply State.callQdestroy_wf | apply State.callBindthread_wf | apply State.callTimetable_wf | apply State.callLoadpkg_wf | apply drawSome_wf

theorem State.serveHart_wf (s : State) (j ctx : Nat) (hs : s.mem.wf = true) : (State.serveHart s j ctx).mem.wf = true := by
  unfold State.serveHart
  repeat' first | dsimp only | split | with_reducible first | assumption | intro _ | apply State.call_wf | apply State.exitCall_wf | apply State.migrateCall_wf | apply State.setHart_wf | apply State.perform_wf

theorem State.serveTeam_wf (s : State) (t : Team) (hs : s.mem.wf = true) : (State.serveTeam s t).mem.wf = true := by
  unfold State.serveTeam
  repeat' first | dsimp only | split | with_reducible first | assumption | intro _ | apply State.modWindow_wf | apply State.cmdResume_wf | apply State.callResult_wf | apply State.perform_wf

theorem State.hartTrap_wf (s : State) (j cause : Nat) (tval : Dword) (monitor : Bool) (hs : s.mem.wf = true) :
    (State.hartTrap s j cause tval monitor).mem.wf = true := by
  unfold State.hartTrap
  repeat' first | with_reducible first | assumption | apply State.setHart_wf

theorem State.hartIllegal_wf (s : State) (j : Nat) (w : Word) (hs : s.mem.wf = true) : (State.hartIllegal s j w).mem.wf = true := by
  unfold State.hartIllegal
  repeat' first | with_reducible first | assumption | apply State.hartTrap_wf

theorem State.hartNext_wf (s : State) (j len : Nat) (h : Hart) (hs : s.mem.wf = true) : (State.hartNext s j len h).mem.wf = true := by
  unfold State.hartNext
  repeat' first | with_reducible first | assumption | apply State.setHart_wf

theorem State.hartLoad_wf (s : State) (j : Nat) (va : Dword) (n : Nat) (k : State → Nat → Nat → State) (hs : s.mem.wf = true) (hk : ∀ x0 x1 x2, x0.mem.wf = true → (k x0 x1 x2).mem.wf = true) :
    (State.hartLoad s j va n k).mem.wf = true := by
  unfold State.hartLoad
  repeat' first | dsimp only | split | with_reducible first | assumption | apply State.fetchLine_wf | apply State.hartTrap_wf | apply hk

theorem State.hartStore_wf (s : State) (j : Nat) (va : Dword) (n v len : Nat) (hs : s.mem.wf = true) :
    (State.hartStore s j va n v len).mem.wf = true := by
  unfold State.hartStore
  repeat' first | dsimp only | split | with_reducible first | assumption | apply State.hartWrite_wf | apply State.hartTrap_wf | apply State.hartNext_wf

theorem State.hartAtomic_wf (s : State) (j : Nat) (w : Word) (hs : s.mem.wf = true) : (State.hartAtomic s j w).mem.wf = true := by
  unfold State.hartAtomic
  repeat' first | dsimp only | split | with_reducible first | assumption | intro _ | apply State.fetchLine_wf | apply State.setHart_wf | apply State.hartWrite_wf | apply State.hartTrap_wf | apply State.hartIllegal_wf | apply State.hartNext_wf | apply State.hartLoad_wf

theorem State.hartCsr_wf (s : State) (j : Nat) (w : Word) (hs : s.mem.wf = true) : (State.hartCsr s j w).mem.wf = true := by
  unfold State.hartCsr
  repeat' first | dsimp only | split | with_reducible first | assumption | apply State.notified_wf | apply State.hartIllegal_wf | apply State.hartNext_wf

theorem State.hartSystem_wf (s : State) (j : Nat) (w : Word) (hs : s.mem.wf = true) : (State.hartSystem s j w).mem.wf = true := by
  unfold State.hartSystem
  repeat' first | dsimp only | split | with_reducible first | assumption | apply State.setHart_wf | apply State.serveHart_wf | apply State.hartTrap_wf | apply State.hartIllegal_wf | apply State.hartNext_wf

theorem State.hartExec_wf (s : State) (j : Nat) (w : Word) (len : Nat) (hs : s.mem.wf = true) : (State.hartExec s j w len).mem.wf = true := by
  unfold State.hartExec
  repeat' first | dsimp only | split | with_reducible first | assumption | intro _ | apply State.setHart_wf | apply State.hartIllegal_wf | apply State.hartNext_wf | apply State.hartLoad_wf | apply State.hartStore_wf | apply State.hartAtomic_wf | apply State.hartCsr_wf | apply State.hartSystem_wf

theorem State.hartFetch_wf (s : State) (j : Nat) (va : Dword) (k : State → Nat → State) (hs : s.mem.wf = true) (hk : ∀ x0 x1, x0.mem.wf = true → (k x0 x1).mem.wf = true) :
    (State.hartFetch s j va k).mem.wf = true := by
  unfold State.hartFetch
  repeat' first | dsimp only | split | with_reducible first | assumption | apply State.fetchLine_wf | apply State.hartTrap_wf | apply hk

theorem State.hartRun_wf (s : State) (j : Nat) (hs : s.mem.wf = true) : (State.hartRun s j).mem.wf = true := by
  unfold State.hartRun
  repeat' first | dsimp only | split | with_reducible first | assumption | intro _ | apply State.setHart_wf | apply State.hartIllegal_wf | apply State.hartExec_wf | apply State.hartFetch_wf

theorem State.hartStep_wf (s : State) (hs : s.mem.wf = true) : okO (State.hartStep s) := by
  unfold State.hartStep
  repeat' first | dsimp only | with_reducible first | assumption | intro _ | apply State.setHart_wf | apply State.hartRun_wf | refine okO_map ?_

theorem State.rangerStep_wf (s : State) (hs : s.mem.wf = true) : okO (State.rangerStep s) := by
  unfold State.rangerStep
  repeat' first | with_reducible first | assumption | intro _ | apply State.serveTeam_wf | apply State.hartStep_wf | refine okO_map ?_ | refine okO_or ?_ ?_

/-! ### Machine/Sequence.lean -/

theorem State.arriving_wf (s : State) (hs : s.mem.wf = true) : okOP (State.arriving s) := by
  unfold State.arriving
  repeat' first | dsimp only | split | with_reducible first | assumption | refine okOP_some ?_ | exact okOP_none

theorem State.takeDeferred_wf (s : State) (t : Team) (d : Deferred) (hs : s.mem.wf = true) : (State.takeDeferred s t d).mem.wf = true := by
  unfold State.takeDeferred
  repeat' first | dsimp only | split | with_reducible first | assumption | apply State.modTeam_wf | apply State.takeTrap_wf | apply rollbackOrTrap_wf | apply State.deferFor_wf | apply State.settleCommands_wf

theorem State.boundary_wf (s : State) (hs : s.mem.wf = true) : okO (State.boundary s) := by
  unfold State.boundary
  repeat' first | split | with_reducible first | assumption | intro _ | apply State.takeDeferred_wf | refine okO_firstSome ?_ _ | refine okO_some ?_ | exact okO_none

theorem State.background_wf (s : State) (hs : s.mem.wf = true) : okO (State.background s) := by
  unfold State.background
  repeat' first | with_reducible first | assumption | apply State.moveStep_wf | apply State.drainStep_wf | apply State.keptReply_wf | apply State.migrateStep_wf | apply State.rangerStep_wf | refine okO_or ?_ ?_

theorem State.select_wf (s : State) (hs : s.mem.wf = true) : okO (State.select s) := by
  unfold State.select
  repeat' first | dsimp only | with_reducible first | assumption | intro _ | apply State.bringIn_wf | refine okO_map ?_ | refine okO_firstSome ?_ _

theorem State.waitFrames_wf (s : State) (hs : s.mem.wf = true) : (State.waitFrames s).mem.wf = true := by
  unfold State.waitFrames
  repeat' first | dsimp only | with_reducible first | assumption

theorem State.bringBack_wf (s : State) (m : Moved) (hs : s.mem.wf = true) : (State.bringBack s m).mem.wf = true := by
  unfold State.bringBack
  repeat' first | dsimp only | split | with_reducible first | assumption | apply State.transferBlocked_wf | apply State.readEntry_wf | refine wf_of_some (by assumption) ?_

theorem State.returnGroups_wf (s : State) (hs : s.mem.wf = true) : okO (State.returnGroups s) := by
  unfold State.returnGroups
  repeat' first | dsimp only | split | with_reducible first | assumption | apply State.waitFrames_wf | apply State.bringBack_wf | refine okO_some ?_ | exact okO_none

theorem State.awaitFrames_wf (s : State) (hs : s.mem.wf = true) : (State.awaitFrames s).2.mem.wf = true := by
  unfold State.awaitFrames
  repeat' first | dsimp only | split | with_reducible first | assumption | apply State.waitFrames_wf

theorem State.countCycle_wf (s : State) (hs : s.mem.wf = true) : (State.countCycle s).mem.wf = true := by
  unfold State.countCycle
  repeat' first | dsimp only | split | with_reducible first | assumption | intro _ | apply State.count_wf | refine wf_foldl ?_ ?_

theorem State.tick_wf (s : State) (hs : s.mem.wf = true) : (State.tick s).mem.wf = true := by
  unfold State.tick
  repeat' first | dsimp only | with_reducible first | assumption | apply State.countCycle_wf

theorem Mem.placed_wf (m : Mem) (code : List Byte) (hm : m.wf = true) : (Mem.placed m code).wf = true := by
  unfold Mem.placed
  repeat' first | dsimp only | with_reducible first | assumption | refine Mem.wf_store _ _ ?_ | simp only [wf_mk]

theorem State.placed_wf (s : State) (code : List Byte) (hs : s.mem.wf = true) : (State.placed s code).mem.wf = true := by
  unfold State.placed
  repeat' first | dsimp only | with_reducible first | assumption | apply Mem.placed_wf

end Sys2Proof.Machine
end

