-- ==== Sys2Proof/Laws/Inside.lean ====
section
/-! SUPPORT. The issue of an instruction leaves alone what lies beyond the team: the shapes in which the operations say it. -/

namespace Sys2Proof.Machine

variable {C : Beyond}

/-- What lies beyond the team is as it was in the state of an outcome. -/
def keepO (C : Beyond) : Option State → Prop | none => True | some t => t.beyond = C
def keepOP (C : Beyond) {α : Type} : Option (α × State) → Prop | none => True | some t => t.2.beyond = C
def keepE (C : Beyond) {ε : Type} : Except ε State → Prop | .error _ => True | .ok t => t.beyond = C
def keepEP (C : Beyond) {ε α : Type} : Except ε (α × State) → Prop | .error _ => True | .ok t => t.2.beyond = C
def keepN (C : Beyond) : Host.Outcome State Fault Refusal → Prop | .next t => t.beyond = C | _ => True
def keepR (C : Beyond) : Res → Prop | .done s _ => s.beyond = C | .stall s _ => s.beyond = C | .wait s => s.beyond = C | _ => True
def keepV (C : Beyond) : Reserved → Prop | .granted s => s.beyond = C | .waits s _ => s.beyond = C | .bad _ => True

theorem same_of_pair {α : Type} {p : α × State} {a : α} {t : State} (e : p = (a, t)) (h : p.2.beyond = C) : t.beyond = C := by rw [e] at h; exact h
theorem same_of_fst {α : Type} {p : State × α} {a : α} {t : State} (e : p = (t, a)) (h : p.1.beyond = C) : t.beyond = C := by rw [e] at h; exact h
theorem same_of_next {p : Host.Outcome State Fault Refusal} {t : State} (e : p = .next t) (h : keepN C p) : t.beyond = C := by rw [e] at h; exact h
theorem same_of_pair3 {α β : Type} {p : α × β × State} {a : α} {b : β} {t : State} (e : p = (a, b, t)) (h : p.2.2.beyond = C) : t.beyond = C := by rw [e] at h; exact h
theorem same_of_some {p : Option State} {t : State} (e : p = some t) (h : keepO C p) : t.beyond = C := by rw [e] at h; exact h
theorem same_of_someP {α : Type} {p : Option (α × State)} {a : α} {t : State} (e : p = some (a, t)) (h : keepOP C p) : t.beyond = C := by rw [e] at h; exact h
theorem same_of_ok {ε : Type} {p : Except ε State} {t : State} (e : p = .ok t) (h : keepE C p) : t.beyond = C := by rw [e] at h; exact h
theorem same_of_okP {ε α : Type} {p : Except ε (α × State)} {a : α} {t : State} (e : p = .ok (a, t)) (h : keepEP C p) : t.beyond = C := by rw [e] at h; exact h
theorem same_foldl {α : Type} {f : State → α → State} {l : List α} {b : State} (hf : ∀ b c, b.beyond = C → (f b c).beyond = C) (h : b.beyond = C) :
    (l.foldl f b).beyond = C := foldl_keeps (fun (x : State) => x.beyond = C) f hf l b h
theorem same_foldl3 {α β γ : Type} {f : β × γ × State → α → β × γ × State} {l : List α} {b : β × γ × State} (hf : ∀ b c, b.2.2.beyond = C → (f b c).2.2.beyond = C)
    (h : b.2.2.beyond = C) : (l.foldl f b).2.2.beyond = C := foldl_keeps (fun (x : β × γ × State) => x.2.2.beyond = C) f hf l b h
theorem same_foldl2 {α β : Type} {f : β × State → α → β × State} {l : List α} {b : β × State} (hf : ∀ b c, b.2.beyond = C → (f b c).2.beyond = C)
    (h : b.2.beyond = C) : (l.foldl f b).2.beyond = C := foldl_keeps (fun (x : β × State) => x.2.beyond = C) f hf l b h
theorem keepV_bad {c : Nat} : keepV C (.bad c) := trivial
theorem same_of_waits {p : Reserved} {t : State} {c : Nat} (e : p = .waits t c) (h : keepV C p) : t.beyond = C := by rw [e] at h; exact h
theorem same_of_granted {p : Reserved} {t : State} (e : p = .granted t) (h : keepV C p) : t.beyond = C := by rw [e] at h; exact h
def keepP (C : Beyond) : Except Res (Issue × State) → Prop | .error r => keepR C r | .ok t => t.2.beyond = C
theorem keepP_error {r : Res} (h : keepR C r) : keepP C (.error r) := h
theorem keepP_ok {o : Issue} {t : State} (h : t.beyond = C) : keepP C (.ok (o, t)) := h
def keepC (C : Beyond) : Checked → Prop | .bad r => keepR C r | .ok _ _ => True
theorem keepC_bad {r : Res} (h : keepR C r) : keepC C (.bad r) := h
theorem keepC_ok {x : List Access1} {f : List (Nat × Nat × Nat)} : keepC C (.ok x f) := trivial
theorem keepR_of_bad {c : Checked} {r : Res} (e : c = .bad r) (h : keepC C c) : keepR C r := by rw [e] at h; exact h
def keepOR (C : Beyond) : Option Res → Prop | some r => keepR C r | none => True
theorem keepOR_some {r : Res} (h : keepR C r) : keepOR C (some r) := h
theorem keepOR_none : keepOR C none := trivial
theorem keepR_of_some {c : Option Res} {r : Res} (e : c = some r) (h : keepOR C c) : keepR C r := by rw [e] at h; exact h
theorem keepR_ite {c : Prop} [Decidable c] {a b : Res} (ha : keepR C a) (hb : keepR C b) : keepR C (if c then a else b) := by split <;> assumption
theorem same_ite {c : Prop} [Decidable c] {a b : State} (ha : a.beyond = C) (hb : b.beyond = C) : (if c then a else b).beyond = C := by split <;> assumption
theorem keepN_ite {c : Prop} [Decidable c] {a b : Host.Outcome State Fault Refusal} (ha : keepN C a) (hb : keepN C b) : keepN C (if c then a else b) := by split <;> assumption
def keepOT (C : Beyond) {α β : Type} : Option (α × β × State) → Prop | none => True | some t => t.2.2.beyond = C
theorem keepOT_none {α β : Type} : keepOT C (none : Option (α × β × State)) := trivial
theorem keepOT_some {α β : Type} {a : α} {b : β} {t : State} (h : t.beyond = C) : keepOT C (some (a, b, t)) := h
theorem same_of_someT {α β : Type} {p : Option (α × β × State)} {a : α} {b : β} {t : State} (e : p = some (a, b, t)) (h : keepOT C p) : t.beyond = C := by rw [e] at h; exact h
theorem keepO_or {a b : Option State} (ha : keepO C a) (hb : keepO C b) : keepO C (a.or b) := by cases a with
  | none => exact hb
  | some x => exact ha
theorem keepO_none : keepO C none := trivial
theorem keepOP_none {α : Type} : keepOP C (none : Option (α × State)) := trivial
theorem keepE_error {ε : Type} {e : ε} : keepE C (.error e) := trivial
theorem keepEP_error {ε α : Type} {e : ε} : keepEP C (.error e : Except ε (α × State)) := trivial
theorem keepN_fault {f : Fault} : keepN C (.fault f) := trivial
theorem keepN_refused {f : Refusal} : keepN C (.refused f) := trivial
theorem keepR_trap {c : Nat} {m : LaneMask} {v : List (Nat × Dword)} {n : Bool} {r : Option Reg} : keepR C (.trap c m v n r) := trivial
theorem keepR_rollback {c : Nat} {m : LaneMask} {v : List (Nat × Dword)} {b : Bool} : keepR C (.rollback c m v b) := trivial
theorem keepO_map {α : Type} {o : Option α} {f : α → State} (h : ∀ a, o = some a → (f a).beyond = C) : keepO C (o.map f) := by
  cases o with
  | none => trivial
  | some a => exact h a rfl
theorem keepOP_map {α β : Type} {o : Option α} {f : α → β × State} (h : ∀ a, o = some a → (f a).2.beyond = C) : keepOP C (o.map f) := by
  cases o with
  | none => trivial
  | some a => exact h a rfl
theorem keepO_bind {α : Type} {o : Option α} {f : α → Option State} (h : ∀ a, o = some a → keepO C (f a)) : keepO C (o.bind f) := by
  cases o with
  | none => trivial
  | some a => exact h a rfl
theorem same_getD {o : Option State} {s : State} (ho : keepO C o) (h : s.beyond = C) : (o.getD s).beyond = C := by
  cases o with
  | none => exact h
  | some a => exact ho
theorem keepO_firstSome {α : Type} {f : α → Option State} (h : ∀ a, keepO C (f a)) (l : List α) : keepO C (firstSome f l) := by
  induction l with
  | nil => trivial
  | cons x xs ih =>
    unfold firstSome
    cases e : f x with
    | none => exact ih
    | some t => have := h x; rw [e] at this; exact this
theorem keepN_next {t : State} (h : t.beyond = C) : keepN C (.next t) := h
theorem keepO_some {t : State} (h : t.beyond = C) : keepO C (some t) := h
theorem keepOP_some {α : Type} {a : α} {t : State} (h : t.beyond = C) : keepOP C (some (a, t)) := h
theorem keepE_ok {ε : Type} {t : State} (h : t.beyond = C) : keepE C (.ok t : Except ε State) := h
theorem keepEP_ok {ε α : Type} {a : α} {t : State} (h : t.beyond = C) : keepEP C (.ok (a, t) : Except ε (α × State)) := h
theorem keepR_done {t : State} {e : End} (h : t.beyond = C) : keepR C (.done t e) := h
theorem keepR_stall {t : State} {c : Nat} (h : t.beyond = C) : keepR C (.stall t c) := h
theorem keepR_wait {t : State} (h : t.beyond = C) : keepR C (.wait t) := h
theorem keepV_granted {t : State} (h : t.beyond = C) : keepV C (.granted t) := h
theorem keepV_waits {t : State} {c : Nat} (h : t.beyond = C) : keepV C (.waits t c) := h

end Sys2Proof.Machine
end

