-- ==== Sys2Proof/Laws/InsideCore.lean ====
section
/-! SUPPORT. What the issue of an instruction leaves alone: the shared operations, what an issue does, and what memory instructions share. -/

namespace Sys2Proof.Machine

variable {C : Beyond}

/-! ### Machine/Ops.lean -/

theorem draw_same (s : State) (hs : s.beyond = C) : (draw s).2.beyond = C := by
  unfold draw
  repeat' first | dsimp only [State.beyond] | split | with_reducible first | assumption

theorem fresh_same (s : State) (hs : s.beyond = C) : (fresh s).2.beyond = C := by
  unfold fresh
  repeat' first | dsimp only [State.beyond] | with_reducible first | assumption

theorem State.modTeam_same (s : State) (uid : Nat) (f : Team → Team) (hs : s.beyond = C) : (State.modTeam s uid f).beyond = C := by
  unfold State.modTeam
  repeat' first | dsimp only [State.beyond] | split | with_reducible first | assumption

theorem State.modCtx_same (s : State) (c : Nat) (f : Ctx → Ctx) (hf : ∀ x, (f x).registers = x.registers) (hs : s.beyond = C) :
    (s.modCtx c f).beyond = C := by
  have e : (modifyWhere (fun x : Ctx => x.id == c) f s.ctxs).map Ctx.registers = s.ctxs.map Ctx.registers := by
    simp only [modifyWhere, List.map_map]
    refine List.map_congr_left fun x _ => ?_
    simp only [Function.comp]
    split
    · exact hf x
    · rfl
  rw [← hs]
  simp only [State.modCtx, State.beyond, e]

theorem State.modWindow_same (s : State) (key : Nat) (f : Window → Window) (hs : s.beyond = C) : (State.modWindow s key f).beyond = C := by
  unfold State.modWindow
  repeat' first | dsimp only [State.beyond] | with_reducible first | assumption

theorem State.progress_same (s : State) (c : Nat) (hs : s.beyond = C) : (s.progress c).beyond = C :=
  State.modCtx_same s c _ (fun _ => rfl) hs

theorem State.privDone_same (s : State) (key : Nat) (hs : s.beyond = C) : (State.privDone s key).beyond = C := by
  unfold State.privDone
  repeat' first | dsimp only [State.beyond] | with_reducible first | assumption | apply State.modWindow_same

theorem State.modQueue_same (s : State) (tile e : Nat) (f : TileQueue → TileQueue) (hs : s.beyond = C) : (State.modQueue s tile e f).beyond = C := by
  unfold State.modQueue
  repeat' first | dsimp only [State.beyond] | with_reducible first | assumption

theorem State.modThread_same (s : State) (j : Nat) (f : Thread → Thread) (hs : s.beyond = C) : (State.modThread s j f).beyond = C := by
  unfold State.modThread
  repeat' first | dsimp only [State.beyond] | with_reducible first | assumption

theorem State.modLink_same (s : State) (c e : Nat) (f : LinkQueue → LinkQueue) (hs : s.beyond = C) : (s.modLink c e f).beyond = C :=
  State.modCtx_same s c _ (fun _ => rfl) hs

theorem State.voidPush_same (s : State) (ctx : Nat) (h : Word) (slots : List Nat) (hs : s.beyond = C) :
    (State.voidPush s ctx h slots).beyond = C := by
  unfold State.voidPush
  repeat' first | dsimp only [State.beyond] | split | with_reducible first | assumption | apply State.modQueue_same | apply State.modThread_same | apply State.modLink_same

theorem State.unpop_same (s : State) (h : Word) (slots : List Nat) (hs : s.beyond = C) : (State.unpop s h slots).beyond = C := by
  unfold State.unpop
  repeat' first | dsimp only [State.beyond] | with_reducible first | assumption | apply State.modQueue_same

theorem State.discardQueue_same (s : State) (e : Held) (hs : s.beyond = C) : (State.discardQueue s e).beyond = C := by
  unfold State.discardQueue
  repeat' first | dsimp only [State.beyond] | split | with_reducible first | assumption | apply State.voidPush_same | apply State.unpop_same

theorem State.discardWork_same (s : State) (e : Held) (hs : s.beyond = C) : (State.discardWork s e).beyond = C := by
  unfold State.discardWork
  repeat' first | dsimp only [State.beyond] | split | with_reducible first | assumption | apply State.modTeam_same

theorem State.discard_same (s : State) (p : Held → Bool) (hs : s.beyond = C) : (State.discard s p).beyond = C := by
  unfold State.discard
  repeat' first | dsimp only [State.beyond] | with_reducible first | assumption | intro _ | apply State.discardQueue_same | apply State.discardWork_same | refine same_foldl ?_ ?_

theorem State.dropGrants_same (s : State) (t : Team) (hs : s.beyond = C) : (State.dropGrants s t).beyond = C := by
  unfold State.dropGrants
  repeat' first | dsimp only [State.beyond] | split | with_reducible first | assumption | intro _ | apply State.voidPush_same | apply State.unpop_same | refine same_foldl ?_ ?_

theorem State.dropPends_same (s : State) (t : Team) (ps : List Pend) (hs : s.beyond = C) : (State.dropPends s t ps).beyond = C := by
  unfold State.dropPends
  repeat' first | dsimp only [State.beyond] | split | with_reducible first | assumption | intro _ | apply State.voidPush_same | refine same_foldl ?_ ?_

theorem State.tvals_same (s : State) (w : Nat) (i : TrapInfo) (hs : s.beyond = C) : (State.tvals s w i).2.beyond = C := by
  unfold State.tvals
  repeat' first | dsimp only [State.beyond] | split | with_reducible first | assumption

theorem State.takeTrap_same (s : State) (uid : Nat) (groupPc : BitVec 48) (i : TrapInfo) (hs : s.beyond = C) :
    (State.takeTrap s uid groupPc i).beyond = C := by
  unfold State.takeTrap
  repeat' first | dsimp only [State.beyond] | split | with_reducible first | assumption | apply fresh_same | apply State.modTeam_same | apply State.dropGrants_same | apply State.tvals_same

/-! ### Machine/Translate.lean -/

theorem State.fillTlb_same (s : State) (tile ctx va : Nat) (hs : s.beyond = C) : (State.fillTlb s tile ctx va).beyond = C := by
  unfold State.fillTlb
  repeat' first | dsimp only [State.beyond] | split | with_reducible first | assumption

theorem State.send_same (s : State) (tile side uid ctx issue : Nat) (pc : BitVec 48) (word : Word) (va pa : Nat) (after : List Nat) (act : Act) (hs : s.beyond = C) :
    (State.send s tile side uid ctx issue pc word va pa after act).2.beyond = C := by
  unfold State.send
  repeat' first | dsimp only [State.beyond] | with_reducible first | assumption | apply draw_same | apply fresh_same

theorem State.sendAfter_same (s : State) (tile side uid ctx issue : Nat) (pc : BitVec 48) (word : Word) (va : Nat) (after : List Nat) (act : Act) (hs : s.beyond = C) :
    (State.sendAfter s tile side uid ctx issue pc word va after act).2.beyond = C := by
  unfold State.sendAfter
  repeat' first | dsimp only [State.beyond] | with_reducible first | assumption | apply fresh_same

theorem State.writeBackLine_same (s : State) (l : Line) (uid issue : Nat) (hs : s.beyond = C) : (State.writeBackLine s l uid issue).2.beyond = C := by
  unfold State.writeBackLine
  repeat' first | dsimp only [State.beyond] | split | with_reducible first | assumption | intro _ | apply State.send_same | refine same_foldl2 ?_ ?_

theorem State.staleFills_same (s : State) (p : Line → Bool) (hs : s.beyond = C) : (State.staleFills s p).beyond = C := by
  unfold State.staleFills
  repeat' first | dsimp only [State.beyond] | with_reducible first | assumption

theorem State.cleanLines_same (s : State) (p drop : Line → Bool) (uid issue : Nat) (hs : s.beyond = C) :
    (State.cleanLines s p drop uid issue).2.beyond = C := by
  unfold State.cleanLines
  repeat' first | dsimp only [State.beyond] | with_reducible first | assumption | intro _ | apply State.writeBackLine_same | apply State.staleFills_same | refine same_foldl2 ?_ ?_

/-! ### Machine/Rings.lean -/

theorem State.grant_same (s : State) (t : Team) (p : Nat) (pop : Bool) (k : Nat) (hs : s.beyond = C) : keepOP C (State.grant s t p pop k) := by
  unfold State.grant
  repeat' first | dsimp only [State.beyond] | split | with_reducible first | assumption | apply State.modQueue_same | apply State.modThread_same | apply State.modLink_same | refine keepOP_some ?_ | exact keepOP_none

/-! ### Machine/Issue.lean -/

theorem State.hold_same (s : State) (t : Team) (pc : BitVec 48) (word : Word) (mask : LaneMask) (units : Nat) (e : Effect) (hs : s.beyond = C) :
    (State.hold s t pc word mask units e).beyond = C := by
  unfold State.hold
  repeat' first | dsimp only [State.beyond] | with_reducible first | assumption | apply fresh_same

theorem Issue.hold_same (o : Issue) (s : State) (units : Nat) (e : Effect) (hs : s.beyond = C) : (Issue.hold o s units e).beyond = C := by
  unfold Issue.hold
  repeat' first | dsimp only [State.beyond] | with_reducible first | assumption | apply State.hold_same

theorem reserve_same (s : State) (l : List (Nat × Bool × Nat)) (hs : s.beyond = C) : keepV C (reserve s l) := by
  induction l generalizing s with
  | nil => exact hs
  | cons x l ih =>
    obtain ⟨key, pop, k⟩ := x
    unfold reserve
    repeat' first | dsimp only [State.beyond] | split | with_reducible first | assumption | exact keepV_bad | apply ih | refine keepV_waits ?_ | refine same_of_someP (by assumption) ?_ | apply State.grant_same

theorem prepare_same (i : Instr) (s : State) (hs : s.beyond = C) : keepP C (prepare i s) := by
  unfold prepare
  repeat' first | dsimp only [State.beyond] | split | with_reducible first | assumption | exact keepR_trap | exact keepR_rollback | refine keepP_error ?_ | refine keepP_ok ?_ | refine keepR_stall ?_ | refine keepR_wait ?_ | refine same_of_waits (by assumption) ?_ | refine same_of_granted (by assumption) ?_ | apply reserve_same

theorem Issue.plain_same (o : Issue) (s : State) (hs : s.beyond = C) : keepR C (Issue.plain o s) := by
  unfold Issue.plain
  repeat' first | dsimp only [State.beyond] | with_reducible first | assumption | refine keepR_done ?_

theorem Issue.timed_same (o : Issue) (s : State) (per : Nat) (hs : s.beyond = C) : keepR C (Issue.timed o s per) := by
  unfold Issue.timed
  repeat' first | dsimp only [State.beyond] | with_reducible first | assumption | refine keepR_done ?_

theorem Issue.single_same (o : Issue) (s : State) (hs : s.beyond = C) : keepR C (Issue.single o s) := by
  unfold Issue.single
  repeat' first | dsimp only [State.beyond] | with_reducible first | assumption | refine keepR_done ?_

theorem holdPops_same (o : Issue) (s : State) (e : End) (hs : s.beyond = C) : (holdPops o s e).beyond = C := by
  unfold holdPops
  repeat' first | dsimp only [State.beyond] | split | with_reducible first | assumption | intro _ | apply Issue.hold_same | refine same_foldl ?_ ?_

theorem State.implicitCheckpoint_same (s : State) (hs : s.beyond = C) : (State.implicitCheckpoint s).beyond = C := by
  unfold State.implicitCheckpoint
  repeat' first | dsimp only [State.beyond] | with_reducible first | assumption | apply fresh_same

theorem State.occupy_same (s : State) (e : End) (hs : s.beyond = C) : (State.occupy s e).beyond = C := by
  unfold State.occupy
  repeat' first | dsimp only [State.beyond] | with_reducible first | assumption

theorem finish_same (o : Issue) (s : State) (e : End) (hs : s.beyond = C) : (finish o s e).beyond = C := by
  unfold finish
  repeat' first | dsimp only [State.beyond] | split | with_reducible first | assumption | apply State.progress_same | apply holdPops_same | apply State.implicitCheckpoint_same | apply State.occupy_same

theorem State.voidFaults_same (s : State) (uid : Nat) (hs : s.beyond = C) : (State.voidFaults s uid).beyond = C := by
  unfold State.voidFaults
  repeat' first | dsimp only [State.beyond] | with_reducible first | assumption

theorem rollbackOrTrap_same (s : State) (uid : Nat) (groupPc : BitVec 48) (i : TrapInfo) (hs : s.beyond = C) :
    (rollbackOrTrap s uid groupPc i).beyond = C := by
  unfold rollbackOrTrap
  repeat' first | dsimp only [State.beyond] | split | with_reducible first | assumption | apply State.modTeam_same | apply State.discard_same | apply State.dropGrants_same | apply State.dropPends_same | apply State.takeTrap_same | apply State.voidFaults_same

theorem conclude_same (i : Instr) (s : State) (o : Option Issue) (r : Res) (hs : s.beyond = C) (hr : keepR C r) : (conclude i s o r).beyond = C := by
  unfold conclude
  repeat' first | dsimp only [State.beyond] | split | with_reducible first | assumption | apply finish_same | apply State.takeTrap_same | apply rollbackOrTrap_same
  all_goals exact hr

theorem issue_same (i : Instr) (body : Issue → State → Res) (s : State) (hs : s.beyond = C) (hb : ∀ o t, t.beyond = C → keepR C (body o t)) :
    keepN C (issue i body s) := by
  have hp := prepare_same i s hs
  unfold issue
  cases e : prepare i s with
  | error r => rw [e] at hp; exact keepN_next (conclude_same _ _ _ _ hs hp)
  | ok x => rw [e] at hp; exact keepN_next (conclude_same _ _ _ _ hp (hb _ _ hp))

theorem Issue.commit_same (o : Issue) (s : State) (rs : List LaneResult) (hs : s.beyond = C) : (Issue.commit o s rs).beyond = C := by
  unfold Issue.commit
  repeat' first | dsimp only [State.beyond] | split | with_reducible first | assumption | apply Issue.hold_same

theorem Issue.pend_same (o : Issue) (s : State) (rs : List LaneResult) (due : Nat) (atomic acq : Bool) (range : List (Nat × Nat)) (hs : s.beyond = C) :
    (Issue.pend o s rs due atomic acq range).2.beyond = C := by
  unfold Issue.pend
  repeat' first | dsimp only [State.beyond] | with_reducible first | assumption | apply fresh_same

theorem spread_same (s : State) (y0 : List LaneResult) (hs : s.beyond = C) : (spread s y0).2.beyond = C := by
  induction y0 generalizing s with
  | nil => 
    unfold spread
    repeat' first | dsimp only [State.beyond] | with_reducible first | assumption
  | cons x xs ih => 
    unfold spread
    repeat' first | dsimp only [State.beyond] | with_reducible first | assumption | apply ih | apply draw_same

theorem Issue.pendAfter_same (o : Issue) (s : State) (rs : List LaneResult) (per : Nat) (hs : s.beyond = C) :
    keepR C (Issue.pendAfter o s rs per) := by
  unfold Issue.pendAfter
  repeat' first | dsimp only [State.beyond] | split | with_reducible first | assumption | apply Issue.timed_same | apply Issue.pend_same | apply spread_same

/-! ### Machine/Faults.lean -/

theorem State.parkFault_same (s : State) (t : Team) (unit item : Nat) (pc : BitVec 48) (word : Word) (issue : Nat) (mask : LaneMask) (va : Nat) (n : Need) (level : Nat) (hs : s.beyond = C) :
    (State.parkFault s t unit item pc word issue mask va n level).beyond = C := by
  unfold State.parkFault
  repeat' first | dsimp only [State.beyond] | with_reducible first | assumption | apply fresh_same

theorem State.parkTeam_same (s : State) (unit : Nat) (pc : BitVec 48) (word : Word) (mask : LaneMask) (va : Nat) (n : Need) (level : Nat) (eas : List (Nat × Dword)) (hs : s.beyond = C) :
    (State.parkTeam s unit pc word mask va n level eas).beyond = C := by
  unfold State.parkTeam
  repeat' first | dsimp only [State.beyond] | with_reducible first | assumption | apply State.parkFault_same

theorem State.parkGroup_same (s : State) (g : Group) (va level : Nat) (hs : s.beyond = C) : (State.parkGroup s g va level).beyond = C := by
  unfold State.parkGroup
  repeat' first | dsimp only [State.beyond] | with_reducible first | assumption | apply State.parkFault_same

theorem State.errorRecord_same (s : State) (ctx : Option Nat) (cause unit side : Nat) (pc : BitVec 48) (addr lane : Nat) (hs : s.beyond = C) :
    (State.errorRecord s ctx cause unit side pc addr lane).beyond = C := by
  unfold State.errorRecord
  repeat' first | dsimp only [State.beyond] | with_reducible first | assumption | apply fresh_same

theorem State.fetchStops_same (s : State) (f : Fetched) (hs : s.beyond = C) : (State.fetchStops s f).beyond = C := by
  unfold State.fetchStops
  repeat' first | dsimp only [State.beyond] | split | with_reducible first | assumption | apply State.takeTrap_same | apply rollbackOrTrap_same | apply State.parkGroup_same

/-! ### Machine/Memory.lean -/

theorem Issue.addressTrap_same (o : Issue) (cause : Nat) (bad : List (Nat × PVal))   : keepR C (Issue.addressTrap o cause bad) := by
  unfold Issue.addressTrap
  repeat' first | dsimp only [State.beyond] | split | with_reducible first | exact keepR_trap

theorem Issue.addressPoison_same (o : Issue) (bad : List (Nat × PVal))   : keepR C (Issue.addressPoison o bad) := by
  unfold Issue.addressPoison
  repeat' first | split | with_reducible first | apply Issue.addressTrap_same | exact keepR_rollback

theorem Issue.checkWith_same (o : Issue) (s : State) (eas : List (Nat × PVal)) (n : Nat) (odds : List (Nat × (Nat → Bool))) (need : Need) (scratch : Option Nat) (last : Nat → Option Nat) (hs : s.beyond = C) :
    keepC C (Issue.checkWith o s eas n odds need scratch last) := by
  unfold Issue.checkWith
  repeat' first | dsimp only [State.beyond] | split | with_reducible first | apply Issue.addressTrap_same | apply Issue.addressPoison_same | refine keepC_bad ?_ | exact keepC_ok

theorem Issue.check_same (o : Issue) (s : State) (eas : List (Nat × PVal)) (n align alignCause : Nat) (need : Need) (scratch : Option Nat) (last : Nat → Option Nat) (hs : s.beyond = C) :
    keepC C (Issue.check o s eas n align alignCause need scratch last) := by
  unfold Issue.check
  repeat' first | dsimp only [State.beyond] | with_reducible first | assumption | apply Issue.checkWith_same

theorem State.fetchLine_same (s : State) (owner tile side uid ctx issue : Nat) (pc : BitVec 48) (word : Word) (va pa : Nat) (hs : s.beyond = C) :
    (State.fetchLine s owner tile side uid ctx issue pc word va pa).beyond = C := by
  unfold State.fetchLine
  repeat' first | dsimp only [State.beyond] | split | with_reducible first | assumption | apply State.send_same

theorem State.modPend_same (s : State) (uid pid : Nat) (f : Pend → Pend) (hs : s.beyond = C) : (State.modPend s uid pid f).beyond = C := by
  unfold State.modPend
  repeat' first | dsimp only [State.beyond] | with_reducible first | assumption | apply State.modTeam_same

theorem Issue.sendRead_same (o : Issue) (s : State) (va key n : Nat) (act : Act) (hs : s.beyond = C) :
    (Issue.sendRead o s va key n act).beyond = C := by
  unfold Issue.sendRead
  repeat' first | dsimp only [State.beyond] | split | with_reducible first | assumption | apply State.send_same | apply State.sendAfter_same

theorem Issue.loadLine_same (o : Issue) (s : State) (pid n : Nat) (signed : Bool) (xs : List Access1) (hs : s.beyond = C) :
    (Issue.loadLine o s pid n signed xs).beyond = C := by
  unfold Issue.loadLine
  repeat' first | dsimp only [State.beyond] | split | with_reducible first | assumption | intro _ | apply State.modPend_same | apply Issue.sendRead_same | refine same_foldl ?_ ?_

theorem Issue.access_same (o : Issue) (s : State) (xs : List Access1) (faults : List (Nat × Nat × Nat)) (need : Need) (cycles conflicts : Nat) (ckpt : Bool) (hs : s.beyond = C) :
    keepR C (Issue.access o s xs faults need cycles conflicts ckpt) := by
  unfold Issue.access
  repeat' first | dsimp only [State.beyond] | split | with_reducible first | assumption | apply State.parkTeam_same | refine keepR_done ?_

theorem Issue.load_same (o : Issue) (s : State) (eas : List (Nat × PVal)) (n : Nat) (signed : Bool) (noEf : Bool) (mark : Pend → Pend) (results : List Nat → List LaneResult) (hs : s.beyond = C) :
    keepR C (Issue.load o s eas n signed noEf mark results) := by
  unfold Issue.load
  repeat' first | dsimp only [State.beyond] | split | with_reducible first | assumption | intro _ | apply State.fillTlb_same | apply Issue.hold_same | apply Issue.pend_same | apply spread_same | apply Issue.check_same | apply State.modPend_same | apply Issue.loadLine_same | apply Issue.access_same | refine same_foldl ?_ ?_ | refine keepR_of_bad (by assumption) ?_ | refine keepR_stall ?_

theorem Issue.store_same (o : Issue) (s : State) (eas : List (Nat × PVal)) (n : Nat) (noEf : Bool) (data : Nat → List (Byte × Bool)) (hs : s.beyond = C) :
    keepR C (Issue.store o s eas n noEf data) := by
  unfold Issue.store
  repeat' first | dsimp only [State.beyond] | split | with_reducible first | assumption | intro _ | apply State.fillTlb_same | apply Issue.hold_same | apply Issue.check_same | apply Issue.access_same | refine same_foldl ?_ ?_ | refine keepR_of_bad (by assumption) ?_ | refine keepR_stall ?_

theorem State.flushRange_same (s : State) (tile ctx uid issue lo hi : Nat) (drop : Bool) (hs : s.beyond = C) :
    (State.flushRange s tile ctx uid issue lo hi drop).2.beyond = C := by
  unfold State.flushRange
  repeat' first | dsimp only [State.beyond] | with_reducible first | assumption | apply State.cleanLines_same

end Sys2Proof.Machine
end

