-- ==== Sys2Proof/Laws/InsideAccess.lean ====
section
/-! SUPPORT. What the issue of an instruction leaves alone: instructions that reach memory, objects, copies, forests and bindings. -/

namespace Sys2Proof.Machine

variable {C : Beyond}

/-! ### Machine/Loads.lean -/

theorem State.cleanPair_same (s : State) (tile ctx uid issue e n : Nat) (hs : s.beyond = C) :
    (State.cleanPair s tile ctx uid issue e n).beyond = C := by
  unfold State.cleanPair
  repeat' first | dsimp only [State.beyond] | with_reducible first | assumption | apply State.flushRange_same

theorem execLd_same (t : BitVec 3) (d a : Reg) (l : BitVec 4) (x : BitVec 1) (lit : Word) (s : State) (hs : s.beyond = C) :
    keepN C (execLd t d a l x lit s) := by
  unfold execLd
  repeat' first | dsimp only [State.beyond] | split | with_reducible first | assumption | intro _ | apply issue_same | apply Issue.load_same

theorem execLdv_same (d a : Reg) (l : BitVec 4) (x : BitVec 1) (lit : Word) (s : State) (hs : s.beyond = C) : keepN C (execLdv d a l x lit s) := by
  unfold execLdv
  repeat' first | dsimp only [State.beyond] | split | with_reducible first | assumption | intro _ | apply issue_same | apply Issue.load_same

theorem Issue.loadK_same (o : Issue) (s : State) (x : BitVec 1) (n : Nat) (hs : s.beyond = C) : keepR C (Issue.loadK o s x n) := by
  unfold Issue.loadK
  repeat' first | dsimp only [State.beyond] | with_reducible first | assumption | apply Issue.load_same

theorem execLdkB32_same (d a : Reg) (l : BitVec 4) (x : BitVec 1) (lit : Word) (s : State) (hs : s.beyond = C) :
    keepN C (execLdkB32 d a l x lit s) := by
  unfold execLdkB32
  repeat' first | dsimp only [State.beyond] | with_reducible first | assumption | intro _ | apply issue_same | apply Issue.loadK_same

theorem execLdkB64_same (d a : Reg) (l : BitVec 4) (x : BitVec 1) (lit : Word) (s : State) (hs : s.beyond = C) :
    keepN C (execLdkB64 d a l x lit s) := by
  unfold execLdkB64
  repeat' first | dsimp only [State.beyond] | with_reducible first | assumption | intro _ | apply issue_same | apply Issue.loadK_same

theorem execFmtld_same (a : Reg) (l : BitVec 4) (x : BitVec 1) (lit : Word) (s : State) (hs : s.beyond = C) : keepN C (execFmtld a l x lit s) := by
  unfold execFmtld
  repeat' first | dsimp only [State.beyond] | with_reducible first | assumption | intro _ | apply issue_same | apply Issue.load_same

theorem Issue.loadPair_same (o : Issue) (s : State) (pid n : Nat) (run : List Access1) (hs : s.beyond = C) :
    (Issue.loadPair o s pid n run).beyond = C := by
  unfold Issue.loadPair
  repeat' first | dsimp only [State.beyond] | split | with_reducible first | assumption | apply Issue.sendRead_same | apply State.cleanPair_same

theorem execLdmx_same (d a : Reg) (l : BitVec 4) (x : BitVec 1) (lit : Word) (s : State) (hs : s.beyond = C) : keepN C (execLdmx d a l x lit s) := by
  unfold execLdmx
  repeat' first | dsimp only [State.beyond] | split | with_reducible first | assumption | intro _ | apply draw_same | apply State.fillTlb_same | apply issue_same | apply Issue.pend_same | apply Issue.check_same | apply State.modPend_same | apply Issue.access_same | apply Issue.loadPair_same | refine same_foldl ?_ ?_ | refine keepR_of_bad (by assumption) ?_ | refine keepR_stall ?_

theorem execSt_same (n : BitVec 2) (d a b : Reg) (lit : Word) (s : State) (hs : s.beyond = C) : keepN C (execSt n d a b lit s) := by
  unfold execSt
  repeat' first | dsimp only [State.beyond] | with_reducible first | assumption | intro _ | apply issue_same | apply Issue.store_same

theorem execStv_same (d a b : Reg) (lit : Word) (s : State) (hs : s.beyond = C) : keepN C (execStv d a b lit s) := by
  unfold execStv
  repeat' first | dsimp only [State.beyond] | with_reducible first | assumption | intro _ | apply issue_same | apply Issue.store_same

theorem execStmx_same (d a b : Reg) (lit : Word) (s : State) (hs : s.beyond = C) : keepN C (execStmx d a b lit s) := by
  unfold execStmx
  repeat' first | dsimp only [State.beyond] | split | with_reducible first | assumption | intro _ | apply State.fillTlb_same | apply Issue.hold_same | apply issue_same | apply Issue.check_same | apply Issue.access_same | refine same_foldl ?_ ?_ | refine keepR_of_bad (by assumption) ?_ | refine keepR_stall ?_ | exact keepR_trap

theorem execPref_same (a b : Reg) (lit : Word) (s : State) (hs : s.beyond = C) : keepN C (execPref a b lit s) := by
  unfold execPref
  repeat' first | dsimp only [State.beyond] | split | with_reducible first | assumption | intro _ | apply Issue.plain_same | apply issue_same | apply Issue.addressPoison_same | apply Issue.sendRead_same | refine same_foldl ?_ ?_

theorem Issue.lines_same (o : Issue) (s : State) (f : Nat → Nat → Res) (hs : s.beyond = C) (hf : ∀ x0 x1, keepR C (f x0 x1)) :
    keepR C (Issue.lines o s f) := by
  unfold Issue.lines
  repeat' first | dsimp only [State.beyond] | split | with_reducible first | assumption | apply Issue.single_same | apply Issue.addressTrap_same | apply Issue.addressPoison_same | refine keepR_stall ?_ | apply hf

theorem execFlush_same (a b : Reg) (lit : Word) (s : State) (hs : s.beyond = C) : keepN C (execFlush a b lit s) := by
  unfold execFlush
  repeat' first | dsimp only [State.beyond] | split | with_reducible first | assumption | intro _ | apply Issue.hold_same | apply Issue.single_same | apply issue_same | apply Issue.lines_same | refine keepR_stall ?_

theorem execInvl_same (a b : Reg) (lit : Word) (s : State) (hs : s.beyond = C) : keepN C (execInvl a b lit s) := by
  unfold execInvl
  repeat' first | dsimp only [State.beyond] | with_reducible first | assumption | intro _ | apply Issue.single_same | apply issue_same | apply State.flushRange_same | apply Issue.lines_same

/-! ### Machine/Visibility.lean -/

theorem Issue.readObject_same (o : Issue) (s : State) (pid n : Nat) (acquire : Bool) (x : Access1) (hs : s.beyond = C) :
    (Issue.readObject o s pid n acquire x).beyond = C := by
  unfold Issue.readObject
  repeat' first | dsimp only [State.beyond] | split | with_reducible first | assumption | apply Issue.sendRead_same | apply State.flushRange_same

theorem execAcq_same (d a : Reg) (l : BitVec 4) (x : BitVec 1) (lit : Word) (s : State) (hs : s.beyond = C) : keepN C (execAcq d a l x lit s) := by
  unfold execAcq
  repeat' first | dsimp only [State.beyond] | split | with_reducible first | assumption | intro _ | apply draw_same | apply State.fillTlb_same | apply Issue.hold_same | apply issue_same | apply Issue.pend_same | apply Issue.check_same | apply Issue.access_same | apply Issue.readObject_same | refine same_foldl ?_ ?_ | refine keepR_of_bad (by assumption) ?_ | refine keepR_stall ?_

theorem execRel_same (d a b : Reg) (lit : Word) (s : State) (hs : s.beyond = C) : keepN C (execRel d a b lit s) := by
  unfold execRel
  repeat' first | dsimp only [State.beyond] | split | with_reducible first | assumption | intro _ | apply State.fillTlb_same | apply Issue.hold_same | apply issue_same | apply Issue.check_same | apply Issue.access_same | refine same_foldl ?_ ?_ | refine keepR_of_bad (by assumption) ?_ | refine keepR_stall ?_

theorem execFence_same (sc : BitVec 7) (s : State) (hs : s.beyond = C) : keepN C (execFence sc s) := by
  unfold execFence
  repeat' first | dsimp only [State.beyond] | split | with_reducible first | assumption | intro _ | apply State.cleanLines_same | apply Issue.single_same | apply issue_same | refine keepR_stall ?_

/-! ### Machine/Atomics.lean -/

theorem Issue.atomic_same (o : Issue) (s : State) (eas : List (Nat × PVal)) (align w bytes : Nat) (last : Nat → Option Nat) (width : Option Nat) (eff : Option Nat → List Access1 → Effect) (hs : s.beyond = C) :
    keepR C (Issue.atomic o s eas align w bytes last width eff) := by
  unfold Issue.atomic
  repeat' first | dsimp only [State.beyond] | split | with_reducible first | assumption | intro _ | apply State.fillTlb_same | apply Issue.hold_same | apply Issue.pend_same | apply spread_same | apply Issue.check_same | apply State.modPend_same | apply Issue.access_same | refine same_foldl ?_ ?_ | refine keepR_of_bad (by assumption) ?_ | refine keepR_stall ?_

theorem execAtom_same (op : BitVec 4) (w : BitVec 1) (d a : Reg) (l : BitVec 4) (x : BitVec 1) (lit : Word) (s : State) (hs : s.beyond = C) :
    keepN C (execAtom op w d a l x lit s) := by
  unfold execAtom
  repeat' first | dsimp only [State.beyond] | with_reducible first | assumption | intro _ | apply issue_same | apply Issue.atomic_same

theorem execAcas_same (w : BitVec 1) (d a : Reg) (l : BitVec 4) (x : BitVec 1) (lit : Word) (s : State) (hs : s.beyond = C) :
    keepN C (execAcas w d a l x lit s) := by
  unfold execAcas
  repeat' first | dsimp only [State.beyond] | split | with_reducible first | assumption | intro _ | apply issue_same | apply Issue.atomic_same

theorem execAfadd_same (d a : Reg) (l : BitVec 4) (x : BitVec 1) (lit : Word) (s : State) (hs : s.beyond = C) :
    keepN C (execAfadd d a l x lit s) := by
  unfold execAfadd
  repeat' first | dsimp only [State.beyond] | with_reducible first | assumption | intro _ | apply issue_same | apply Issue.atomic_same

theorem execAfmm_same (d a : Reg) (l : BitVec 4) (x m : BitVec 1) (lit : Word) (s : State) (hs : s.beyond = C) :
    keepN C (execAfmm d a l x m lit s) := by
  unfold execAfmm
  repeat' first | dsimp only [State.beyond] | with_reducible first | assumption | intro _ | apply issue_same | apply Issue.atomic_same

theorem execAred_same (op : BitVec 4) (w : BitVec 1) (d a b : Reg) (lit : Word) (s : State) (hs : s.beyond = C) :
    keepN C (execAred op w d a b lit s) := by
  unfold execAred
  repeat' first | dsimp only [State.beyond] | with_reducible first | assumption | intro _ | apply issue_same | apply Issue.atomic_same

theorem execAprog_same (d a : Reg) (l : BitVec 4) (x : BitVec 1) (lit : Word) (s : State) (hs : s.beyond = C) :
    keepN C (execAprog d a l x lit s) := by
  unfold execAprog
  repeat' first | dsimp only [State.beyond] | with_reducible first | assumption | intro _ | apply issue_same | apply Issue.atomic_same

theorem execApload_same (a b : Reg) (lit : Word) (s : State) (hs : s.beyond = C) : keepN C (execApload a b lit s) := by
  unfold execApload
  repeat' first | dsimp only [State.beyond] | split | with_reducible first | assumption | intro _ | apply Issue.hold_same | apply Issue.single_same | apply issue_same | apply Issue.check_same | apply Issue.access_same | refine same_foldl ?_ ?_ | refine keepR_of_bad (by assumption) ?_ | refine keepR_stall ?_ | exact keepR_trap | exact keepR_rollback

/-! ### Machine/Copies.lean -/

theorem copyTrap_same (cause : Nat) (mask : List Nat → List Nat) (bad : List (Nat × Nat))   : keepR C (copyTrap cause mask bad) := by
  unfold copyTrap
  repeat' first | dsimp only [State.beyond] | with_reducible first | exact keepR_trap

theorem rangeTrap_same (s : State) (mask : List Nat → List Nat) (rs : List Range) (hs : s.beyond = C) : keepOR C (rangeTrap s mask rs) := by
  unfold rangeTrap
  repeat' first | dsimp only [State.beyond] | split | with_reducible first | apply copyTrap_same | refine keepOR_some ?_ | exact keepOR_none

theorem Issue.startCopy_same (o : Issue) (s : State) (ctl : Word) (ps : List Plan) (src dst : List (Nat × Nat)) (units cycles : Nat) (hs : s.beyond = C) :
    keepR C (Issue.startCopy o s ctl ps src dst units cycles) := by
  unfold Issue.startCopy
  repeat' first | dsimp only [State.beyond] | split | with_reducible first | assumption | intro _ | apply fresh_same | apply Issue.hold_same | refine same_foldl2 ?_ ?_ | refine keepR_done ?_ | refine keepR_stall ?_ | exact keepR_trap

theorem Issue.laneCopies_same (o : Issue) (s : State) (cpl : Bool) (hs : s.beyond = C) : keepR C (Issue.laneCopies o s cpl) := by
  unfold Issue.laneCopies
  repeat' first | dsimp only [State.beyond] | with_reducible refine keepR_ite ?_ ?_ | split | with_reducible first | assumption | apply Issue.plain_same | apply rangeTrap_same | apply Issue.startCopy_same | refine keepR_of_some (by assumption) ?_ | refine keepR_stall ?_ | exact keepR_trap | exact keepR_rollback

theorem execCpl_same (d a b : Reg) (lit : Word) (s : State) (hs : s.beyond = C) : keepN C (execCpl d a b lit s) := by
  unfold execCpl
  repeat' first | dsimp only [State.beyond] | with_reducible first | assumption | intro _ | apply issue_same | apply Issue.laneCopies_same

theorem execCpf_same (d a b : Reg) (lit : Word) (s : State) (hs : s.beyond = C) : keepN C (execCpf d a b lit s) := by
  unfold execCpf
  repeat' first | dsimp only [State.beyond] | with_reducible first | assumption | intro _ | apply issue_same | apply Issue.laneCopies_same

theorem State.readNow_same (s : State) (t : Team) (x : Access1) (n : Nat) (hs : s.beyond = C) : (State.readNow s t x n).1.beyond = C := by
  unfold State.readNow
  repeat' first | dsimp only [State.beyond] | split | with_reducible first | assumption | apply State.fetchLine_same

theorem execCpt_same (d a b : Reg) (lit : Word) (s : State) (hs : s.beyond = C) : keepN C (execCpt d a b lit s) := by
  unfold execCpt
  repeat' first | dsimp only [State.beyond] | with_reducible refine keepR_ite ?_ ?_ | split | with_reducible first | assumption | intro _ | apply Issue.single_same | apply issue_same | apply Issue.check_same | apply Issue.access_same | apply rangeTrap_same | apply Issue.startCopy_same | apply State.readNow_same | refine keepR_of_bad (by assumption) ?_ | refine keepR_of_some (by assumption) ?_ | refine keepR_stall ?_ | exact keepR_trap | exact keepR_rollback

theorem execCpm_same (d a b : Reg) (lit : Word) (s : State) (hs : s.beyond = C) : keepN C (execCpm d a b lit s) := by
  unfold execCpm
  repeat' first | dsimp only [State.beyond] | with_reducible refine keepR_ite ?_ ?_ | split | with_reducible first | assumption | intro _ | apply Issue.single_same | apply issue_same | apply copyTrap_same | apply rangeTrap_same | apply Issue.startCopy_same | refine keepR_of_some (by assumption) ?_ | refine keepR_stall ?_ | exact keepR_trap | exact keepR_rollback

/-! ### Machine/Sync.lean -/

theorem execBinit_same (d a b : Reg) (lit : Word) (s : State) (hs : s.beyond = C) : keepN C (execBinit d a b lit s) := by
  unfold execBinit
  repeat' first | dsimp only [State.beyond] | split | with_reducible first | assumption | intro _ | apply Issue.hold_same | apply issue_same | apply Issue.checkWith_same | apply Issue.access_same | refine keepR_of_bad (by assumption) ?_ | refine keepR_stall ?_ | exact keepR_trap | exact keepR_rollback

theorem execArrive_same (a b : Reg) (lit : Word) (s : State) (hs : s.beyond = C) : keepN C (execArrive a b lit s) := by
  unfold execArrive
  repeat' first | dsimp only [State.beyond] | split | with_reducible first | assumption | intro _ | apply Issue.hold_same | apply issue_same | apply Issue.checkWith_same | apply Issue.access_same | refine keepR_of_bad (by assumption) ?_ | refine keepR_stall ?_

theorem execExpect_same (d a b : Reg) (lit : Word) (s : State) (hs : s.beyond = C) : keepN C (execExpect d a b lit s) := by
  unfold execExpect
  repeat' first | dsimp only [State.beyond] | split | with_reducible first | assumption | intro _ | apply draw_same | apply Issue.hold_same | apply issue_same | apply Issue.pend_same | apply Issue.checkWith_same | apply Issue.access_same | refine keepR_of_bad (by assumption) ?_ | refine keepR_stall ?_ | exact keepR_rollback

theorem execCadd_same (d a b : Reg) (lit : Word) (s : State) (hs : s.beyond = C) : keepN C (execCadd d a b lit s) := by
  unfold execCadd
  repeat' first | dsimp only [State.beyond] | split | with_reducible first | assumption | intro _ | apply State.fillTlb_same | apply Issue.hold_same | apply issue_same | apply Issue.checkWith_same | apply Issue.access_same | refine same_foldl ?_ ?_ | refine keepR_of_bad (by assumption) ?_ | refine keepR_stall ?_

theorem execCread_same (d a : Reg) (l : BitVec 4) (x : BitVec 1) (lit : Word) (s : State) (hs : s.beyond = C) :
    keepN C (execCread d a l x lit s) := by
  unfold execCread
  repeat' first | dsimp only [State.beyond] | split | with_reducible first | assumption | intro _ | apply draw_same | apply State.fillTlb_same | apply issue_same | apply Issue.pend_same | apply Issue.checkWith_same | apply Issue.access_same | apply Issue.readObject_same | refine same_foldl ?_ ?_ | refine keepR_of_bad (by assumption) ?_ | refine keepR_stall ?_

theorem State.acquire_same (s : State) (tile ctx uid : Nat) (regions : List (Nat × Nat)) (hs : s.beyond = C) :
    (State.acquire s tile ctx uid regions).beyond = C := by
  unfold State.acquire
  repeat' first | dsimp only [State.beyond] | with_reducible first | assumption | apply State.cleanLines_same

theorem execWait_same (d a b : Reg) (lit : Word) (s : State) (hs : s.beyond = C) : keepN C (execWait d a b lit s) := by
  unfold execWait
  repeat' first | dsimp only [State.beyond] | with_reducible refine keepR_ite ?_ ?_ | split | with_reducible first | assumption | intro _ | apply Issue.single_same | apply issue_same | apply Issue.checkWith_same | apply Issue.access_same | apply State.flushRange_same | apply State.acquire_same | refine keepR_ite ?_ ?_ | refine keepR_of_bad (by assumption) ?_ | refine keepR_stall ?_ | refine keepR_wait ?_ | exact keepR_trap | exact keepR_rollback

theorem Issue.withTag_same (o : Issue) (k : Nat → Res) (hk : ∀ x0, keepR C (k x0)) : keepR C (Issue.withTag o k) := by
  unfold Issue.withTag
  repeat' first | dsimp only [State.beyond] | split | with_reducible first | exact keepR_trap | exact keepR_rollback | apply hk

theorem execBseal_same (a : Reg) (lit : Word) (s : State) (hs : s.beyond = C) : keepN C (execBseal a lit s) := by
  unfold execBseal
  repeat' first | dsimp only [State.beyond] | split | with_reducible first | assumption | intro _ | apply Issue.single_same | apply issue_same | apply Issue.withTag_same | exact keepR_trap

theorem execBwait_same (a : Reg) (lit : Word) (s : State) (hs : s.beyond = C) : keepN C (execBwait a lit s) := by
  unfold execBwait
  repeat' first | dsimp only [State.beyond] | split | with_reducible first | assumption | intro _ | apply Issue.single_same | apply issue_same | apply Issue.withTag_same | refine keepR_stall ?_

theorem execStallrd_same (d a : Reg) (lit : Word) (s : State) (hs : s.beyond = C) : keepN C (execStallrd d a lit s) := by
  unfold execStallrd
  repeat' first | dsimp only [State.beyond] | split | with_reducible first | assumption | intro _ | apply Issue.single_same | apply issue_same | apply Issue.commit_same | exact keepR_trap | exact keepR_rollback

/-! ### Machine/Equivalence.lean -/

theorem State.eqHold_same (s : State) (f : Forest) (rid wid va pa n v : Nat) (p result : Bool) (hs : s.beyond = C) :
    (State.eqHold s f rid wid va pa n v p result).beyond = C := by
  unfold State.eqHold
  repeat' first | dsimp only [State.beyond] | with_reducible first | assumption | apply fresh_same

theorem execEqset_same (a : Reg) (lit : Word) (s : State) (hs : s.beyond = C) : keepN C (execEqset a lit s) := by
  unfold execEqset
  repeat' first | dsimp only [State.beyond] | split | with_reducible first | assumption | intro _ | apply fresh_same | apply Issue.single_same | apply issue_same | apply Issue.check_same | apply Issue.access_same | apply State.eqHold_same | refine keepR_of_bad (by assumption) ?_ | refine keepR_stall ?_ | exact keepR_trap

theorem Issue.request__same (o : Issue) (s : State) (kind fid : Nat) (pid : Option Nat) (block : List PWord) (lanes : List (Nat × PWord × PWord)) (hs : s.beyond = C) :
    (Issue.request_ o s kind fid pid block lanes).beyond = C := by
  unfold Issue.request_
  repeat' first | dsimp only [State.beyond] | with_reducible first | assumption | apply fresh_same | apply Issue.hold_same

theorem Issue.walks_same (o : Issue) (s : State) (kind : Nat) (x y : Nat → PVal) (hs : s.beyond = C) : keepR C (Issue.walks o s kind x y) := by
  unfold Issue.walks
  repeat' first | dsimp only [State.beyond] | split | with_reducible first | assumption | apply draw_same | apply Issue.plain_same | apply Issue.pend_same | apply State.modPend_same | apply Issue.request__same | refine keepR_stall ?_ | exact keepR_trap | exact keepR_rollback

theorem execUnite_same (d a : Reg) (l : BitVec 4) (lit : Word) (s : State) (hs : s.beyond = C) : keepN C (execUnite d a l lit s) := by
  unfold execUnite
  repeat' first | dsimp only [State.beyond] | with_reducible first | assumption | intro _ | apply issue_same | apply Issue.walks_same

theorem execFind_same (d a : Reg) (l : BitVec 4) (lit : Word) (s : State) (hs : s.beyond = C) : keepN C (execFind d a l lit s) := by
  unfold execFind
  repeat' first | dsimp only [State.beyond] | with_reducible first | assumption | intro _ | apply issue_same | apply Issue.walks_same

theorem execSame_same (d a : Reg) (l : BitVec 4) (lit : Word) (s : State) (hs : s.beyond = C) : keepN C (execSame d a l lit s) := by
  unfold execSame
  repeat' first | dsimp only [State.beyond] | with_reducible first | assumption | intro _ | apply issue_same | apply Issue.walks_same

theorem execRelabel_same (a : Reg) (lit : Word) (s : State) (hs : s.beyond = C) : keepN C (execRelabel a lit s) := by
  unfold execRelabel
  repeat' first | dsimp only [State.beyond] | with_reducible refine keepR_ite ?_ ?_ | split | with_reducible first | assumption | intro _ | apply Issue.single_same | apply issue_same | apply Issue.request__same | refine keepR_stall ?_ | exact keepR_trap | exact keepR_rollback

theorem Issue.mark_same (o : Issue) (s : State) (kind : Nat) (hs : s.beyond = C) : keepR C (Issue.mark o s kind) := by
  unfold Issue.mark
  repeat' first | dsimp only [State.beyond] | split | with_reducible first | assumption | apply Issue.single_same | apply Issue.pend_same | apply State.modPend_same | apply Issue.request__same | refine keepR_stall ?_ | exact keepR_trap

theorem execEqsnap_same (d : Reg) (lit : Word) (s : State) (hs : s.beyond = C) : keepN C (execEqsnap d lit s) := by
  unfold execEqsnap
  repeat' first | dsimp only [State.beyond] | with_reducible first | assumption | intro _ | apply issue_same | apply Issue.mark_same

theorem execEqundo_same (d : Reg) (lit : Word) (s : State) (hs : s.beyond = C) : keepN C (execEqundo d lit s) := by
  unfold execEqundo
  repeat' first | dsimp only [State.beyond] | with_reducible first | assumption | intro _ | apply issue_same | apply Issue.mark_same

theorem execEqdrop_same (d : Reg) (lit : Word) (s : State) (hs : s.beyond = C) : keepN C (execEqdrop d lit s) := by
  unfold execEqdrop
  repeat' first | dsimp only [State.beyond] | with_reducible first | assumption | intro _ | apply issue_same | apply Issue.mark_same

theorem execEqsize_same (d : Reg) (lit : Word) (s : State) (hs : s.beyond = C) : keepN C (execEqsize d lit s) := by
  unfold execEqsize
  repeat' first | dsimp only [State.beyond] | split | with_reducible first | assumption | intro _ | apply draw_same | apply fresh_same | apply Issue.single_same | apply issue_same | apply Issue.pend_same | apply State.modPend_same | exact keepR_trap

theorem execEqfence_same (s : State) (hs : s.beyond = C) : keepN C (execEqfence s) := by
  unfold execEqfence
  repeat' first | dsimp only [State.beyond] | split | with_reducible first | assumption | intro _ | apply Issue.single_same | apply issue_same | apply State.flushRange_same | refine same_foldl2 ?_ ?_ | refine keepR_stall ?_ | exact keepR_trap

/-! ### Machine/Binding.lean -/

theorem Issue.bindTrap_same (o : Issue) (cause base : Nat)   : keepR C (Issue.bindTrap o cause base) := by
  unfold Issue.bindTrap
  repeat' first | with_reducible first | exact keepR_trap

theorem execBind_same (a b : Reg) (lit : Word) (s : State) (hs : s.beyond = C) : keepN C (execBind a b lit s) := by
  unfold execBind
  repeat' first | dsimp only [State.beyond] | split | with_reducible first | assumption | intro _ | apply Issue.hold_same | apply Issue.single_same | apply issue_same | apply Issue.bindTrap_same | refine keepR_stall ?_ | exact keepR_trap | exact keepR_rollback

theorem execUnbind_same (a : Reg) (lit : Word) (s : State) (hs : s.beyond = C) : keepN C (execUnbind a lit s) := by
  unfold execUnbind
  repeat' first | dsimp only [State.beyond] | split | with_reducible first | assumption | intro _ | apply Issue.hold_same | apply Issue.single_same | apply issue_same | apply Issue.bindTrap_same | refine keepR_stall ?_ | exact keepR_rollback

theorem execTlbinv_same (a b : Reg) (lit : Word) (s : State) (hs : s.beyond = C) : keepN C (execTlbinv a b lit s) := by
  unfold execTlbinv
  repeat' first | dsimp only [State.beyond] | split | with_reducible first | assumption | intro _ | apply State.privDone_same | apply Issue.plain_same | apply issue_same | refine keepN_next ?_

theorem execWcs_same (a b : Reg) (lit : Word) (s : State) (hs : s.beyond = C) : keepN C (execWcs a b lit s) := by
  unfold execWcs
  repeat' first | dsimp only [State.beyond] | split | with_reducible first | assumption | intro _ | apply State.privDone_same | apply Issue.plain_same | apply issue_same | refine keepN_next ?_

end Sys2Proof.Machine
end

