-- ==== Sys2Proof/Laws/InsideUnits.lean ====
section
/-! SUPPORT. What the issue of an instruction leaves alone: homes, links, matrix commands, records, admission, control and the dispatcher. -/

namespace Sys2Proof.Machine

variable {C : Beyond}

/-! ### Machine/Matrix.lean -/

theorem State.modEngine_same (s : State) (tile : Nat) (f : Engine → Engine) (hs : s.beyond = C) : (State.modEngine s tile f).beyond = C := by
  unfold State.modEngine
  repeat' first | dsimp only [State.beyond] | with_reducible first | assumption

theorem Issue.collective_same (o : Issue) (s : State) (k : GroupRt → List Word → Res) (hs : s.beyond = C) (hk : ∀ x0 x1, keepR C (k x0 x1)) :
    keepR C (Issue.collective o s k) := by
  unfold Issue.collective
  repeat' first | dsimp only [State.beyond] | with_reducible refine keepR_ite ?_ ?_ | split | with_reducible first | exact keepR_trap | exact keepR_rollback | apply hk

theorem execMcfg_same (a : Reg) (lit : Word) (s : State) (hs : s.beyond = C) : keepN C (execMcfg a lit s) := by
  unfold execMcfg
  repeat' first | dsimp only [State.beyond] | with_reducible refine keepR_ite ?_ ?_ | split | with_reducible first | assumption | intro _ | apply Issue.hold_same | apply Issue.single_same | apply issue_same | apply State.modEngine_same | apply Issue.collective_same | refine keepR_stall ?_ | exact keepR_trap

theorem Issue.append_same (o : Issue) (s : State) (r : List Word) (pid : Option Nat) (hs : s.beyond = C) : (Issue.append o s r pid).2.beyond = C := by
  unfold Issue.append
  repeat' first | dsimp only [State.beyond] | split | with_reducible first | assumption | apply fresh_same | apply Issue.hold_same | apply State.modEngine_same

theorem Issue.command_same (o : Issue) (s : State) (op : Nat) (hs : s.beyond = C) : keepR C (Issue.command o s op) := by
  unfold Issue.command
  repeat' first | dsimp only [State.beyond] | with_reducible refine keepR_ite ?_ ?_ | split | with_reducible first | assumption | intro _ | apply Issue.single_same | apply Issue.commit_same | apply Issue.collective_same | apply Issue.append_same | refine keepR_stall ?_ | exact keepR_trap

theorem execMldb_same (d a : Reg) (lit : Word) (s : State) (hs : s.beyond = C) : keepN C (execMldb d a lit s) := by
  unfold execMldb
  repeat' first | dsimp only [State.beyond] | with_reducible first | assumption | intro _ | apply issue_same | apply Issue.command_same

theorem execMma_same (d a : Reg) (lit : Word) (s : State) (hs : s.beyond = C) : keepN C (execMma d a lit s) := by
  unfold execMma
  repeat' first | dsimp only [State.beyond] | with_reducible first | assumption | intro _ | apply issue_same | apply Issue.command_same

theorem execMmas_same (d a : Reg) (lit : Word) (s : State) (hs : s.beyond = C) : keepN C (execMmas d a lit s) := by
  unfold execMmas
  repeat' first | dsimp only [State.beyond] | with_reducible first | assumption | intro _ | apply issue_same | apply Issue.command_same

theorem execMzero_same (d a : Reg) (lit : Word) (s : State) (hs : s.beyond = C) : keepN C (execMzero d a lit s) := by
  unfold execMzero
  repeat' first | dsimp only [State.beyond] | with_reducible first | assumption | intro _ | apply issue_same | apply Issue.command_same

theorem execMstore_same (d a : Reg) (lit : Word) (s : State) (hs : s.beyond = C) : keepN C (execMstore d a lit s) := by
  unfold execMstore
  repeat' first | dsimp only [State.beyond] | with_reducible first | assumption | intro _ | apply issue_same | apply Issue.command_same

theorem execMrun_same (d a : Reg) (lit : Word) (s : State) (hs : s.beyond = C) : keepN C (execMrun d a lit s) := by
  unfold execMrun
  repeat' first | dsimp only [State.beyond] | with_reducible first | assumption | intro _ | apply issue_same | apply Issue.command_same

theorem execMdrain_same (d a : Reg) (lit : Word) (s : State) (hs : s.beyond = C) : keepN C (execMdrain d a lit s) := by
  unfold execMdrain
  repeat' first | dsimp only [State.beyond] | with_reducible refine keepR_ite ?_ ?_ | split | with_reducible first | assumption | intro _ | apply Issue.single_same | apply issue_same | apply Issue.pend_same | apply Issue.collective_same | apply Issue.append_same | refine keepR_stall ?_ | exact keepR_trap

/-! ### Machine/Control.lean -/

theorem Issue.transfer_same (o : Issue) (s : State) (targets : List (Nat × BitVec 48)) (ended : List Nat) (hs : s.beyond = C) :
    keepR C (Issue.transfer o s targets ended) := by
  unfold Issue.transfer
  repeat' first | dsimp only [State.beyond] | with_reducible first | assumption | refine keepR_done ?_

theorem Issue.begins_same (_o : Issue) (s : State) (hs : s.beyond = C) : keepR C (Issue.begins _o s) := by
  unfold Issue.begins
  repeat' first | dsimp only [State.beyond] | with_reducible first | assumption | refine keepR_done ?_

theorem Issue.withTargets_same (o : Issue) (k : (Nat → BitVec 48) → Res) (hk : ∀ x0, keepR C (k x0)) : keepR C (Issue.withTargets o k) := by
  unfold Issue.withTargets
  repeat' first | dsimp only [State.beyond] | split | with_reducible first | exact keepR_trap | exact keepR_rollback | apply hk

theorem Issue.doCall_same (o : Issue) (s : State) (x : Reg) (len : Nat) (target : Nat → BitVec 48) (hs : s.beyond = C) :
    keepR C (Issue.doCall o s x len target) := by
  unfold Issue.doCall
  repeat' first | dsimp only [State.beyond] | split | with_reducible first | assumption | apply Issue.transfer_same | refine keepR_stall ?_ | exact keepR_trap

theorem execNop_same (s : State) (hs : s.beyond = C) : keepN C (execNop s) := by
  unfold execNop
  repeat' first | dsimp only [State.beyond] | with_reducible first | assumption | intro _ | apply Issue.single_same | apply issue_same

theorem execMode_same (g : BitVec 4) (t : BitVec 5) (r : BitVec 3) (f sc : BitVec 1) (b : BitVec 2) (n : BitVec 4) (s : State) (hs : s.beyond = C) :
    keepN C (execMode g t r f sc b n s) := by
  unfold execMode
  repeat' first | dsimp only [State.beyond] | with_reducible first | assumption | intro _ | apply Issue.single_same | apply issue_same

theorem execRep_same (c : BitVec 6) (d a b : BitVec 3) (s : State) (hs : s.beyond = C) : keepN C (execRep c d a b s) := by
  unfold execRep
  repeat' first | dsimp only [State.beyond] | split | with_reducible first | assumption | intro _ | apply issue_same | apply State.parkGroup_same | apply State.fetchStops_same | apply Issue.begins_same | refine keepR_wait ?_ | exact keepR_trap

theorem execMacroRun_same (i : BitVec 7) (d a b : Reg) (s : State) (hs : s.beyond = C) : keepN C (execMacroRun i d a b s) := by
  unfold execMacroRun
  repeat' first | dsimp only [State.beyond] | split | with_reducible first | assumption | intro _ | apply issue_same | apply Issue.begins_same | exact keepR_trap

theorem execBra_same (lit : Word) (s : State) (hs : s.beyond = C) : keepN C (execBra lit s) := by
  unfold execBra
  repeat' first | dsimp only [State.beyond] | with_reducible first | assumption | intro _ | apply issue_same | apply Issue.transfer_same

theorem execJmp_same (a : Reg) (s : State) (hs : s.beyond = C) : keepN C (execJmp a s) := by
  unfold execJmp
  repeat' first | dsimp only [State.beyond] | with_reducible first | assumption | intro _ | apply issue_same | apply Issue.transfer_same | apply Issue.withTargets_same

theorem execCall_same (x : Reg) (lit : Word) (s : State) (hs : s.beyond = C) : keepN C (execCall x lit s) := by
  unfold execCall
  repeat' first | dsimp only [State.beyond] | with_reducible first | assumption | intro _ | apply issue_same | apply Issue.doCall_same

theorem execCallr_same (x : BitVec 7) (a : Reg) (s : State) (hs : s.beyond = C) : keepN C (execCallr x a s) := by
  unfold execCallr
  repeat' first | dsimp only [State.beyond] | with_reducible first | assumption | intro _ | apply issue_same | apply Issue.withTargets_same | apply Issue.doCall_same

theorem Issue.doRet_same (o : Issue) (s : State) (hs : s.beyond = C) : keepR C (Issue.doRet o s) := by
  unfold Issue.doRet
  repeat' first | dsimp only [State.beyond] | split | with_reducible first | assumption | apply Issue.transfer_same | refine keepR_stall ?_ | exact keepR_trap | exact keepR_rollback

theorem execRet_same (s : State) (hs : s.beyond = C) : keepN C (execRet s) := by
  unfold execRet
  repeat' first | dsimp only [State.beyond] | with_reducible first | assumption | intro _ | apply issue_same | apply Issue.doRet_same

theorem execExit_same (s : State) (hs : s.beyond = C) : keepN C (execExit s) := by
  unfold execExit
  repeat' first | dsimp only [State.beyond] | with_reducible first | assumption | intro _ | apply issue_same | apply Issue.transfer_same

theorem execYield_same (s : State) (hs : s.beyond = C) : keepN C (execYield s) := by
  unfold execYield
  repeat' first | dsimp only [State.beyond] | with_reducible first | assumption | intro _ | apply issue_same | refine keepR_done ?_

end Sys2Proof.Machine
end

