-- ==== Sys2Proof/Laws/InsideCompute.lean ====
section
/-! SUPPORT. What the issue of an instruction leaves alone: the computing, queue and system instructions, the threads of Ranger, and what a step puts together. -/

namespace Sys2Proof.Machine

variable {C : Beyond}

/-! ### Machine/Float.lean -/

theorem Issue.float2_same (o : Issue) (s : State) (c : BitVec 1) (g : Fmt → Rm → Nat → Nat → Nat × BitVec 5) (hs : s.beyond = C) :
    keepR C (Issue.float2 o s c g) := by
  unfold Issue.float2
  repeat' first | dsimp only [State.beyond] | with_reducible first | assumption | apply Issue.timed_same | apply Issue.commit_same

theorem Issue.float3_same (o : Issue) (s : State) (c : BitVec 1) (g : Fmt → Rm → Nat → Nat → Nat → Nat × BitVec 5) (hs : s.beyond = C) :
    keepR C (Issue.float3 o s c g) := by
  unfold Issue.float3
  repeat' first | dsimp only [State.beyond] | with_reducible first | assumption | apply Issue.timed_same | apply Issue.commit_same

theorem Issue.float1_same (o : Issue) (s : State) (c : BitVec 1) (codes : Dword → Codes) (g : Fmt → Rm → Nat → Nat × BitVec 5) (hs : s.beyond = C) :
    keepR C (Issue.float1 o s c codes g) := by
  unfold Issue.float1
  repeat' first | dsimp only [State.beyond] | with_reducible first | assumption | apply Issue.timed_same | apply Issue.commit_same

theorem Issue.special_same (o : Issue) (s : State) (fn : Func) (hs : s.beyond = C) : keepR C (Issue.special o s fn) := by
  unfold Issue.special
  repeat' first | dsimp only [State.beyond] | with_reducible first | assumption | apply Issue.pendAfter_same

theorem execFadd_same (c : BitVec 1) (d a b : Reg) (lit : Word) (s : State) (hs : s.beyond = C) : keepN C (execFadd c d a b lit s) := by
  unfold execFadd
  repeat' first | dsimp only [State.beyond] | with_reducible first | assumption | intro _ | apply issue_same | apply Issue.float2_same

theorem execFsub_same (c : BitVec 1) (d a b : Reg) (lit : Word) (s : State) (hs : s.beyond = C) : keepN C (execFsub c d a b lit s) := by
  unfold execFsub
  repeat' first | dsimp only [State.beyond] | with_reducible first | assumption | intro _ | apply issue_same | apply Issue.float2_same

theorem execFmul_same (c : BitVec 1) (d a b : Reg) (lit : Word) (s : State) (hs : s.beyond = C) : keepN C (execFmul c d a b lit s) := by
  unfold execFmul
  repeat' first | dsimp only [State.beyond] | with_reducible first | assumption | intro _ | apply issue_same | apply Issue.float2_same

theorem execFma_same (c : BitVec 1) (d a b : Reg) (lit : Word) (s : State) (hs : s.beyond = C) : keepN C (execFma c d a b lit s) := by
  unfold execFma
  repeat' first | dsimp only [State.beyond] | with_reducible first | assumption | intro _ | apply issue_same | apply Issue.float3_same

theorem execFnma_same (c : BitVec 1) (d a b : Reg) (lit : Word) (s : State) (hs : s.beyond = C) : keepN C (execFnma c d a b lit s) := by
  unfold execFnma
  repeat' first | dsimp only [State.beyond] | with_reducible first | assumption | intro _ | apply issue_same | apply Issue.float3_same

theorem execFdiv_same (c : BitVec 1) (d a : Reg) (l : BitVec 4) (lit : Word) (s : State) (hs : s.beyond = C) : keepN C (execFdiv c d a l lit s) := by
  unfold execFdiv
  repeat' first | dsimp only [State.beyond] | with_reducible first | assumption | intro _ | apply issue_same | apply Issue.pendAfter_same

theorem execFsqrt_same (c : BitVec 1) (d a : Reg) (l : BitVec 4) (lit : Word) (s : State) (hs : s.beyond = C) :
    keepN C (execFsqrt c d a l lit s) := by
  unfold execFsqrt
  repeat' first | dsimp only [State.beyond] | with_reducible first | assumption | intro _ | apply issue_same | apply Issue.pendAfter_same

theorem execFrcp_same (c : BitVec 1) (d a : Reg) (l : BitVec 4) (lit : Word) (s : State) (hs : s.beyond = C) : keepN C (execFrcp c d a l lit s) := by
  unfold execFrcp
  repeat' first | dsimp only [State.beyond] | with_reducible first | assumption | intro _ | apply issue_same | apply Issue.pendAfter_same

theorem execFmin_same (c : BitVec 1) (d a b : Reg) (lit : Word) (s : State) (hs : s.beyond = C) : keepN C (execFmin c d a b lit s) := by
  unfold execFmin
  repeat' first | dsimp only [State.beyond] | with_reducible first | assumption | intro _ | apply issue_same | apply Issue.float2_same

theorem execFmax_same (c : BitVec 1) (d a b : Reg) (lit : Word) (s : State) (hs : s.beyond = C) : keepN C (execFmax c d a b lit s) := by
  unfold execFmax
  repeat' first | dsimp only [State.beyond] | with_reducible first | assumption | intro _ | apply issue_same | apply Issue.float2_same

theorem execFminm_same (c : BitVec 1) (d a b : Reg) (lit : Word) (s : State) (hs : s.beyond = C) : keepN C (execFminm c d a b lit s) := by
  unfold execFminm
  repeat' first | dsimp only [State.beyond] | with_reducible first | assumption | intro _ | apply issue_same | apply Issue.float2_same

theorem execFmaxm_same (c : BitVec 1) (d a b : Reg) (lit : Word) (s : State) (hs : s.beyond = C) : keepN C (execFmaxm c d a b lit s) := by
  unfold execFmaxm
  repeat' first | dsimp only [State.beyond] | with_reducible first | assumption | intro _ | apply issue_same | apply Issue.float2_same

theorem execFabs_same (c : BitVec 1) (d a : Reg) (lit : Word) (s : State) (hs : s.beyond = C) : keepN C (execFabs c d a lit s) := by
  unfold execFabs
  repeat' first | dsimp only [State.beyond] | with_reducible first | assumption | intro _ | apply issue_same | apply Issue.float1_same

theorem execFneg_same (c : BitVec 1) (d a : Reg) (lit : Word) (s : State) (hs : s.beyond = C) : keepN C (execFneg c d a lit s) := by
  unfold execFneg
  repeat' first | dsimp only [State.beyond] | with_reducible first | assumption | intro _ | apply issue_same | apply Issue.float1_same

theorem execFcpys_same (c : BitVec 1) (d a b : Reg) (lit : Word) (s : State) (hs : s.beyond = C) : keepN C (execFcpys c d a b lit s) := by
  unfold execFcpys
  repeat' first | dsimp only [State.beyond] | with_reducible first | assumption | intro _ | apply issue_same | apply Issue.float2_same

theorem execFcmp_same (d a b : Reg) (lit : Word) (s : State) (hs : s.beyond = C) : keepN C (execFcmp d a b lit s) := by
  unfold execFcmp
  repeat' first | dsimp only [State.beyond] | with_reducible first | assumption | intro _ | apply Issue.timed_same | apply issue_same | apply Issue.commit_same

theorem execFclass_same (c : BitVec 1) (d a : Reg) (lit : Word) (s : State) (hs : s.beyond = C) : keepN C (execFclass c d a lit s) := by
  unfold execFclass
  repeat' first | dsimp only [State.beyond] | with_reducible first | assumption | intro _ | apply issue_same | apply Issue.float1_same

theorem execFrint_same (c : BitVec 1) (d a : Reg) (lit : Word) (s : State) (hs : s.beyond = C) : keepN C (execFrint c d a lit s) := by
  unfold execFrint
  repeat' first | dsimp only [State.beyond] | with_reducible first | assumption | intro _ | apply issue_same | apply Issue.float1_same

theorem execFscale_same (c : BitVec 1) (d a b : Reg) (lit : Word) (s : State) (hs : s.beyond = C) : keepN C (execFscale c d a b lit s) := by
  unfold execFscale
  repeat' first | dsimp only [State.beyond] | with_reducible first | assumption | intro _ | apply Issue.timed_same | apply issue_same | apply Issue.commit_same

theorem execFgetx_same (c : BitVec 1) (d a : Reg) (lit : Word) (s : State) (hs : s.beyond = C) : keepN C (execFgetx c d a lit s) := by
  unfold execFgetx
  repeat' first | dsimp only [State.beyond] | split | with_reducible first | assumption | intro _ | apply issue_same | apply Issue.float1_same

theorem execSinpi_same (d a : Reg) (l : BitVec 4) (lit : Word) (s : State) (hs : s.beyond = C) : keepN C (execSinpi d a l lit s) := by
  unfold execSinpi
  repeat' first | dsimp only [State.beyond] | with_reducible first | assumption | intro _ | apply issue_same | apply Issue.special_same

theorem execCospi_same (d a : Reg) (l : BitVec 4) (lit : Word) (s : State) (hs : s.beyond = C) : keepN C (execCospi d a l lit s) := by
  unfold execCospi
  repeat' first | dsimp only [State.beyond] | with_reducible first | assumption | intro _ | apply issue_same | apply Issue.special_same

theorem execExp2_same (d a : Reg) (l : BitVec 4) (lit : Word) (s : State) (hs : s.beyond = C) : keepN C (execExp2 d a l lit s) := by
  unfold execExp2
  repeat' first | dsimp only [State.beyond] | with_reducible first | assumption | intro _ | apply issue_same | apply Issue.special_same

theorem execLog2_same (d a : Reg) (l : BitVec 4) (lit : Word) (s : State) (hs : s.beyond = C) : keepN C (execLog2 d a l lit s) := by
  unfold execLog2
  repeat' first | dsimp only [State.beyond] | with_reducible first | assumption | intro _ | apply issue_same | apply Issue.special_same

theorem execRcpa_same (d a : Reg) (l : BitVec 4) (lit : Word) (s : State) (hs : s.beyond = C) : keepN C (execRcpa d a l lit s) := by
  unfold execRcpa
  repeat' first | dsimp only [State.beyond] | with_reducible first | assumption | intro _ | apply issue_same | apply Issue.special_same

theorem execRsqa_same (d a : Reg) (l : BitVec 4) (lit : Word) (s : State) (hs : s.beyond = C) : keepN C (execRsqa d a l lit s) := by
  unfold execRsqa
  repeat' first | dsimp only [State.beyond] | with_reducible first | assumption | intro _ | apply issue_same | apply Issue.special_same

theorem execTanh_same (d a : Reg) (l : BitVec 4) (lit : Word) (s : State) (hs : s.beyond = C) : keepN C (execTanh d a l lit s) := by
  unfold execTanh
  repeat' first | dsimp only [State.beyond] | with_reducible first | assumption | intro _ | apply issue_same | apply Issue.special_same

/-! ### Machine/Formats.lean -/

theorem Issue.controlled_same (o : Issue) (accepts : Nat → Bool) (r : Reg) (k : Unit → Res) (hk : ∀ x0, keepR C (k x0)) :
    keepR C (Issue.controlled o accepts r k) := by
  unfold Issue.controlled
  repeat' first | split | with_reducible first | exact keepR_trap | exact keepR_rollback | apply hk

theorem Issue.stepSeeds_same (o : Issue) (s : State) (v : Nat → Num) (hs : s.beyond = C) : (Issue.stepSeeds o s v).beyond = C := by
  unfold Issue.stepSeeds
  repeat' first | dsimp only [State.beyond] | split | with_reducible first | assumption

theorem Issue.convert_same (o : Issue) (s : State) (poison : Nat → Bool) (g : Nat → Nat × BitVec 5) (hs : s.beyond = C) :
    keepR C (Issue.convert o s poison g) := by
  unfold Issue.convert
  repeat' first | dsimp only [State.beyond] | with_reducible first | assumption | apply Issue.timed_same | apply Issue.commit_same

theorem execCvt_same (d a b : Reg) (lit : Word) (s : State) (hs : s.beyond = C) : keepN C (execCvt d a b lit s) := by
  unfold execCvt
  repeat' first | dsimp only [State.beyond] | with_reducible first | assumption | intro _ | apply issue_same | apply Issue.controlled_same | apply Issue.stepSeeds_same | apply Issue.convert_same

theorem execCvti_same (d a b : Reg) (lit : Word) (s : State) (hs : s.beyond = C) : keepN C (execCvti d a b lit s) := by
  unfold execCvti
  repeat' first | dsimp only [State.beyond] | with_reducible first | assumption | intro _ | apply issue_same | apply Issue.controlled_same | apply Issue.convert_same

theorem execCvtf_same (d a b : Reg) (lit : Word) (s : State) (hs : s.beyond = C) : keepN C (execCvtf d a b lit s) := by
  unfold execCvtf
  repeat' first | dsimp only [State.beyond] | with_reducible first | assumption | intro _ | apply issue_same | apply Issue.controlled_same | apply Issue.stepSeeds_same | apply Issue.convert_same

theorem Issue.padRecord_same (o : Issue) (s : State) (hs : s.beyond = C) : (Issue.padRecord o s).beyond = C := by
  unfold Issue.padRecord
  repeat' first | dsimp only [State.beyond] | split | with_reducible first | assumption | apply State.errorRecord_same

theorem execPack_same (d a b : Reg) (lit : Word) (s : State) (hs : s.beyond = C) : keepN C (execPack d a b lit s) := by
  unfold execPack
  repeat' first | dsimp only [State.beyond] | with_reducible first | assumption | intro _ | apply issue_same | apply Issue.controlled_same | apply Issue.stepSeeds_same | apply Issue.convert_same

theorem execUnpack_same (d a b : Reg) (lit : Word) (s : State) (hs : s.beyond = C) : keepN C (execUnpack d a b lit s) := by
  unfold execUnpack
  repeat' first | dsimp only [State.beyond] | with_reducible first | assumption | intro _ | apply issue_same | apply Issue.controlled_same | apply Issue.convert_same | apply Issue.padRecord_same

theorem execScale_same (d a b : Reg) (lit : Word) (s : State) (hs : s.beyond = C) : keepN C (execScale d a b lit s) := by
  unfold execScale
  repeat' first | dsimp only [State.beyond] | with_reducible first | assumption | intro _ | apply issue_same | apply Issue.convert_same

theorem execFmtrd_same (d : Reg) (lit : Word) (s : State) (hs : s.beyond = C) : keepN C (execFmtrd d lit s) := by
  unfold execFmtrd
  repeat' first | dsimp only [State.beyond] | with_reducible first | assumption | intro _ | apply issue_same | apply Issue.convert_same

/-! ### Machine/Integer.lean -/

theorem Issue.compute_same (o : Issue) (s : State) (cc : Bool) (poison : Nat → Bool) (f : Nat → Dword × Codes) (hs : s.beyond = C) :
    keepR C (Issue.compute o s cc poison f) := by
  unfold Issue.compute
  repeat' first | dsimp only [State.beyond] | split | with_reducible first | assumption | apply Issue.plain_same | apply Issue.commit_same

theorem Issue.arith_same (o : Issue) (s : State) (w c : BitVec 1) (f : (n : Nat) → Nat → BitVec n → BitVec n → BitVec n × Codes) (hs : s.beyond = C) :
    keepR C (Issue.arith o s w c f) := by
  unfold Issue.arith
  repeat' first | dsimp only [State.beyond] | with_reducible first | assumption | apply Issue.compute_same

theorem Issue.arithC_same (o : Issue) (s : State) (w c : BitVec 1) (f : (n : Nat) → Nat → BitVec n → BitVec n → BitVec n × Codes) (hs : s.beyond = C) :
    keepR C (Issue.arithC o s w c f) := by
  unfold Issue.arithC
  repeat' first | dsimp only [State.beyond] | with_reducible first | assumption | apply Issue.compute_same

theorem Issue.arith1_same (o : Issue) (s : State) (w c : BitVec 1) (f : (n : Nat) → BitVec n → BitVec n × Codes) (hs : s.beyond = C) :
    keepR C (Issue.arith1 o s w c f) := by
  unfold Issue.arith1
  repeat' first | dsimp only [State.beyond] | with_reducible first | assumption | apply Issue.compute_same

theorem Issue.logic_same (o : Issue) (s : State) (w : BitVec 1) (f : (n : Nat) → BitVec n → BitVec n → BitVec n) (hs : s.beyond = C) :
    keepR C (Issue.logic o s w f) := by
  unfold Issue.logic
  repeat' first | dsimp only [State.beyond] | with_reducible first | assumption | apply Issue.compute_same

theorem Issue.logic1_same (o : Issue) (s : State) (w : BitVec 1) (f : (n : Nat) → BitVec n → BitVec n) (hs : s.beyond = C) :
    keepR C (Issue.logic1 o s w f) := by
  unfold Issue.logic1
  repeat' first | dsimp only [State.beyond] | with_reducible first | assumption | apply Issue.compute_same

theorem Issue.shift_same (o : Issue) (s : State) (w : BitVec 1) (f : (n : Nat) → BitVec n → Nat → BitVec n) (hs : s.beyond = C) :
    keepR C (Issue.shift o s w f) := by
  unfold Issue.shift
  repeat' first | dsimp only [State.beyond] | with_reducible first | assumption | apply Issue.compute_same

theorem Issue.countBits_same (o : Issue) (s : State) (w : BitVec 1) (f : (n : Nat) → BitVec n → Nat) (hs : s.beyond = C) :
    keepR C (Issue.countBits o s w f) := by
  unfold Issue.countBits
  repeat' first | dsimp only [State.beyond] | split | with_reducible first | assumption | apply Issue.compute_same

theorem Issue.compare_same (o : Issue) (s : State) (w : BitVec 1) (f : (n : Nat) → BitVec n → BitVec n → Codes) (hs : s.beyond = C) :
    keepR C (Issue.compare o s w f) := by
  unfold Issue.compare
  repeat' first | dsimp only [State.beyond] | with_reducible first | assumption | apply Issue.compute_same

theorem Issue.division_same (o : Issue) (s : State) (u w c : BitVec 1) (pick : {n : Nat} → BitVec n × BitVec n × Bool → BitVec n) (hs : s.beyond = C) :
    keepR C (Issue.division o s u w c pick) := by
  unfold Issue.division
  repeat' first | dsimp only [State.beyond] | split | with_reducible first | assumption | apply Issue.pendAfter_same

theorem execAdd_same (w c : BitVec 1) (d a b : Reg) (lit : Word) (s : State) (hs : s.beyond = C) : keepN C (execAdd w c d a b lit s) := by
  unfold execAdd
  repeat' first | dsimp only [State.beyond] | with_reducible first | assumption | intro _ | apply issue_same | apply Issue.arith_same

theorem execAddc_same (w c : BitVec 1) (d a b : Reg) (lit : Word) (s : State) (hs : s.beyond = C) : keepN C (execAddc w c d a b lit s) := by
  unfold execAddc
  repeat' first | dsimp only [State.beyond] | with_reducible first | assumption | intro _ | apply issue_same | apply Issue.arithC_same

theorem execSub_same (w c : BitVec 1) (d a b : Reg) (lit : Word) (s : State) (hs : s.beyond = C) : keepN C (execSub w c d a b lit s) := by
  unfold execSub
  repeat' first | dsimp only [State.beyond] | with_reducible first | assumption | intro _ | apply issue_same | apply Issue.arith_same

theorem execSubb_same (w c : BitVec 1) (d a b : Reg) (lit : Word) (s : State) (hs : s.beyond = C) : keepN C (execSubb w c d a b lit s) := by
  unfold execSubb
  repeat' first | dsimp only [State.beyond] | with_reducible first | assumption | intro _ | apply issue_same | apply Issue.arithC_same

theorem execNeg_same (w c : BitVec 1) (d a : Reg) (lit : Word) (s : State) (hs : s.beyond = C) : keepN C (execNeg w c d a lit s) := by
  unfold execNeg
  repeat' first | dsimp only [State.beyond] | with_reducible first | assumption | intro _ | apply issue_same | apply Issue.arith1_same

theorem execMul_same (w c : BitVec 1) (d a b : Reg) (lit : Word) (s : State) (hs : s.beyond = C) : keepN C (execMul w c d a b lit s) := by
  unfold execMul
  repeat' first | dsimp only [State.beyond] | with_reducible first | assumption | intro _ | apply issue_same | apply Issue.arith_same

theorem execMad_same (w c : BitVec 1) (d a b : Reg) (lit : Word) (s : State) (hs : s.beyond = C) : keepN C (execMad w c d a b lit s) := by
  unfold execMad
  repeat' first | dsimp only [State.beyond] | with_reducible first | assumption | intro _ | apply issue_same | apply Issue.compute_same

theorem execAbs_same (w c : BitVec 1) (d a : Reg) (lit : Word) (s : State) (hs : s.beyond = C) : keepN C (execAbs w c d a lit s) := by
  unfold execAbs
  repeat' first | dsimp only [State.beyond] | with_reducible first | assumption | intro _ | apply issue_same | apply Issue.arith1_same

theorem execDiv_same (u w c : BitVec 1) (d a : Reg) (l : BitVec 4) (lit : Word) (s : State) (hs : s.beyond = C) :
    keepN C (execDiv u w c d a l lit s) := by
  unfold execDiv
  repeat' first | dsimp only [State.beyond] | with_reducible first | assumption | intro _ | apply issue_same | apply Issue.division_same

theorem execRem_same (u w c : BitVec 1) (d a : Reg) (l : BitVec 4) (lit : Word) (s : State) (hs : s.beyond = C) :
    keepN C (execRem u w c d a l lit s) := by
  unfold execRem
  repeat' first | dsimp only [State.beyond] | with_reducible first | assumption | intro _ | apply issue_same | apply Issue.division_same

theorem execMin_same (u w c : BitVec 1) (d a b : Reg) (lit : Word) (s : State) (hs : s.beyond = C) : keepN C (execMin u w c d a b lit s) := by
  unfold execMin
  repeat' first | dsimp only [State.beyond] | with_reducible first | assumption | intro _ | apply issue_same | apply Issue.arith_same

theorem execMax_same (u w c : BitVec 1) (d a b : Reg) (lit : Word) (s : State) (hs : s.beyond = C) : keepN C (execMax u w c d a b lit s) := by
  unfold execMax
  repeat' first | dsimp only [State.beyond] | with_reducible first | assumption | intro _ | apply issue_same | apply Issue.arith_same

theorem execMulh_same (u w : BitVec 1) (d a b : Reg) (lit : Word) (s : State) (hs : s.beyond = C) : keepN C (execMulh u w d a b lit s) := by
  unfold execMulh
  repeat' first | dsimp only [State.beyond] | with_reducible first | assumption | intro _ | apply issue_same | apply Issue.logic_same

theorem execMulw_same (u c : BitVec 1) (d a b : Reg) (lit : Word) (s : State) (hs : s.beyond = C) : keepN C (execMulw u c d a b lit s) := by
  unfold execMulw
  repeat' first | dsimp only [State.beyond] | with_reducible first | assumption | intro _ | apply issue_same | apply Issue.compute_same

theorem execMadw_same (u c : BitVec 1) (d a b : Reg) (lit : Word) (s : State) (hs : s.beyond = C) : keepN C (execMadw u c d a b lit s) := by
  unfold execMadw
  repeat' first | dsimp only [State.beyond] | with_reducible first | assumption | intro _ | apply issue_same | apply Issue.compute_same

theorem execMov_same (w : BitVec 1) (d a : Reg) (lit : Word) (s : State) (hs : s.beyond = C) : keepN C (execMov w d a lit s) := by
  unfold execMov
  repeat' first | dsimp only [State.beyond] | with_reducible first | assumption | intro _ | apply issue_same | apply Issue.logic1_same

theorem execLdi_same (w : BitVec 1) (d : Reg) (lit lit2 : Word) (s : State) (hs : s.beyond = C) : keepN C (execLdi w d lit lit2 s) := by
  unfold execLdi
  repeat' first | dsimp only [State.beyond] | split | with_reducible first | assumption | intro _ | apply issue_same | apply Issue.compute_same

theorem execAnd_same (w : BitVec 1) (d a b : Reg) (lit : Word) (s : State) (hs : s.beyond = C) : keepN C (execAnd w d a b lit s) := by
  unfold execAnd
  repeat' first | dsimp only [State.beyond] | with_reducible first | assumption | intro _ | apply issue_same | apply Issue.logic_same

theorem execOr_same (w : BitVec 1) (d a b : Reg) (lit : Word) (s : State) (hs : s.beyond = C) : keepN C (execOr w d a b lit s) := by
  unfold execOr
  repeat' first | dsimp only [State.beyond] | with_reducible first | assumption | intro _ | apply issue_same | apply Issue.logic_same

theorem execXor_same (w : BitVec 1) (d a b : Reg) (lit : Word) (s : State) (hs : s.beyond = C) : keepN C (execXor w d a b lit s) := by
  unfold execXor
  repeat' first | dsimp only [State.beyond] | with_reducible first | assumption | intro _ | apply issue_same | apply Issue.logic_same

theorem execAndn_same (w : BitVec 1) (d a b : Reg) (lit : Word) (s : State) (hs : s.beyond = C) : keepN C (execAndn w d a b lit s) := by
  unfold execAndn
  repeat' first | dsimp only [State.beyond] | with_reducible first | assumption | intro _ | apply issue_same | apply Issue.logic_same

theorem execNot_same (w : BitVec 1) (d a : Reg) (lit : Word) (s : State) (hs : s.beyond = C) : keepN C (execNot w d a lit s) := by
  unfold execNot
  repeat' first | dsimp only [State.beyond] | with_reducible first | assumption | intro _ | apply issue_same | apply Issue.logic1_same

theorem execShl_same (w : BitVec 1) (d a b : Reg) (lit : Word) (s : State) (hs : s.beyond = C) : keepN C (execShl w d a b lit s) := by
  unfold execShl
  repeat' first | dsimp only [State.beyond] | with_reducible first | assumption | intro _ | apply issue_same | apply Issue.shift_same

theorem execShr_same (w : BitVec 1) (d a b : Reg) (lit : Word) (s : State) (hs : s.beyond = C) : keepN C (execShr w d a b lit s) := by
  unfold execShr
  repeat' first | dsimp only [State.beyond] | with_reducible first | assumption | intro _ | apply issue_same | apply Issue.shift_same

theorem execShra_same (w : BitVec 1) (d a b : Reg) (lit : Word) (s : State) (hs : s.beyond = C) : keepN C (execShra w d a b lit s) := by
  unfold execShra
  repeat' first | dsimp only [State.beyond] | with_reducible first | assumption | intro _ | apply issue_same | apply Issue.shift_same

theorem execRot_same (w : BitVec 1) (d a b : Reg) (lit : Word) (s : State) (hs : s.beyond = C) : keepN C (execRot w d a b lit s) := by
  unfold execRot
  repeat' first | dsimp only [State.beyond] | with_reducible first | assumption | intro _ | apply issue_same | apply Issue.shift_same

theorem execPopc_same (w : BitVec 1) (d a : Reg) (lit : Word) (s : State) (hs : s.beyond = C) : keepN C (execPopc w d a lit s) := by
  unfold execPopc
  repeat' first | dsimp only [State.beyond] | with_reducible first | assumption | intro _ | apply issue_same | apply Issue.countBits_same

theorem execClz_same (w : BitVec 1) (d a : Reg) (lit : Word) (s : State) (hs : s.beyond = C) : keepN C (execClz w d a lit s) := by
  unfold execClz
  repeat' first | dsimp only [State.beyond] | with_reducible first | assumption | intro _ | apply issue_same | apply Issue.countBits_same

theorem execCtz_same (w : BitVec 1) (d a : Reg) (lit : Word) (s : State) (hs : s.beyond = C) : keepN C (execCtz w d a lit s) := by
  unfold execCtz
  repeat' first | dsimp only [State.beyond] | with_reducible first | assumption | intro _ | apply issue_same | apply Issue.countBits_same

theorem execBrev_same (w : BitVec 1) (d a : Reg) (lit : Word) (s : State) (hs : s.beyond = C) : keepN C (execBrev w d a lit s) := by
  unfold execBrev
  repeat' first | dsimp only [State.beyond] | with_reducible first | assumption | intro _ | apply issue_same | apply Issue.logic1_same

theorem execSel_same (w : BitVec 1) (d a b : Reg) (lit : Word) (s : State) (hs : s.beyond = C) : keepN C (execSel w d a b lit s) := by
  unfold execSel
  repeat' first | dsimp only [State.beyond] | split | with_reducible first | assumption | intro _ | apply issue_same | apply Issue.compute_same | exact keepR_rollback

theorem execBfx_same (u w : BitVec 1) (d a b : Reg) (lit : Word) (s : State) (hs : s.beyond = C) : keepN C (execBfx u w d a b lit s) := by
  unfold execBfx
  repeat' first | dsimp only [State.beyond] | with_reducible first | assumption | intro _ | apply issue_same | apply Issue.compute_same

theorem execBfi_same (w : BitVec 1) (d a b : Reg) (lit : Word) (s : State) (hs : s.beyond = C) : keepN C (execBfi w d a b lit s) := by
  unfold execBfi
  repeat' first | dsimp only [State.beyond] | with_reducible first | assumption | intro _ | apply issue_same | apply Issue.compute_same

theorem execCmpN_same (w : BitVec 1) (a b : Reg) (lit : Word) (s : State) (hs : s.beyond = C) : keepN C (execCmpN w a b lit s) := by
  unfold execCmpN
  repeat' first | dsimp only [State.beyond] | with_reducible first | assumption | intro _ | apply issue_same | apply Issue.compare_same

theorem execCmpS_same (w : BitVec 1) (a b : Reg) (lit : Word) (s : State) (hs : s.beyond = C) : keepN C (execCmpS w a b lit s) := by
  unfold execCmpS
  repeat' first | dsimp only [State.beyond] | with_reducible first | assumption | intro _ | apply issue_same | apply Issue.compare_same

theorem execTst_same (w : BitVec 1) (a b : Reg) (lit : Word) (s : State) (hs : s.beyond = C) : keepN C (execTst w a b lit s) := by
  unfold execTst
  repeat' first | dsimp only [State.beyond] | with_reducible first | assumption | intro _ | apply issue_same | apply Issue.compare_same

theorem execFshf_same (d a b : Reg) (lit : Word) (s : State) (hs : s.beyond = C) : keepN C (execFshf d a b lit s) := by
  unfold execFshf
  repeat' first | dsimp only [State.beyond] | with_reducible first | assumption | intro _ | apply issue_same | apply Issue.compute_same

theorem execPerm_same (d a b : Reg) (lit : Word) (s : State) (hs : s.beyond = C) : keepN C (execPerm d a b lit s) := by
  unfold execPerm
  repeat' first | dsimp only [State.beyond] | with_reducible first | assumption | intro _ | apply issue_same | apply Issue.compute_same

theorem execLea_same (d a b : Reg) (lit : Word) (s : State) (hs : s.beyond = C) : keepN C (execLea d a b lit s) := by
  unfold execLea
  repeat' first | dsimp only [State.beyond] | with_reducible first | assumption | intro _ | apply issue_same | apply Issue.compute_same

theorem execDot4N_same (d a b : Reg) (lit : Word) (s : State) (hs : s.beyond = C) : keepN C (execDot4N d a b lit s) := by
  unfold execDot4N
  repeat' first | dsimp only [State.beyond] | with_reducible first | assumption | intro _ | apply issue_same | apply Issue.compute_same

theorem execDot4S_same (d a b : Reg) (lit : Word) (s : State) (hs : s.beyond = C) : keepN C (execDot4S d a b lit s) := by
  unfold execDot4S
  repeat' first | dsimp only [State.beyond] | with_reducible first | assumption | intro _ | apply issue_same | apply Issue.compute_same

theorem execSad_same (d a b : Reg) (lit : Word) (s : State) (hs : s.beyond = C) : keepN C (execSad d a b lit s) := by
  unfold execSad
  repeat' first | dsimp only [State.beyond] | with_reducible first | assumption | intro _ | apply issue_same | apply Issue.compute_same

theorem execGetcc_same (d : Reg) (lit : Word) (s : State) (hs : s.beyond = C) : keepN C (execGetcc d lit s) := by
  unfold execGetcc
  repeat' first | dsimp only [State.beyond] | with_reducible first | assumption | intro _ | apply issue_same | apply Issue.compute_same

theorem execSetcc_same (a : Reg) (lit : Word) (s : State) (hs : s.beyond = C) : keepN C (execSetcc a lit s) := by
  unfold execSetcc
  repeat' first | dsimp only [State.beyond] | with_reducible first | assumption | intro _ | apply issue_same | apply Issue.compute_same

/-! ### Machine/Lanes.lean -/

theorem Issue.moves_same (o : Issue) (s : State) (g : Nat → PVal) (hs : s.beyond = C) : keepR C (Issue.moves o s g) := by
  unfold Issue.moves
  repeat' first | dsimp only [State.beyond] | with_reducible first | assumption | apply Issue.plain_same | apply Issue.commit_same

theorem Issue.vote_same (o : Issue) (s : State) (f : List Word → Bool) (hs : s.beyond = C) : keepR C (Issue.vote o s f) := by
  unfold Issue.vote
  repeat' first | dsimp only [State.beyond] | with_reducible first | assumption | apply Issue.moves_same

theorem Issue.fromLane_same (o : Issue) (s : State) (hs : s.beyond = C) : keepR C (Issue.fromLane o s) := by
  unfold Issue.fromLane
  repeat' first | dsimp only [State.beyond] | split | with_reducible first | assumption | apply Issue.moves_same | exact keepR_rollback

theorem Issue.combined_same (o : Issue) (s : State) (g : Nat → Comb) (hs : s.beyond = C) : keepR C (Issue.combined o s g) := by
  unfold Issue.combined
  repeat' first | dsimp only [State.beyond] | split | with_reducible first | assumption | apply Issue.timed_same | apply Issue.commit_same

theorem execShfl_same (v : BitVec 2) (w : BitVec 1) (d a b : Reg) (lit : Word) (s : State) (hs : s.beyond = C) :
    keepN C (execShfl v w d a b lit s) := by
  unfold execShfl
  repeat' first | dsimp only [State.beyond] | with_reducible first | assumption | intro _ | apply issue_same | apply Issue.moves_same

theorem execVoteSome_same (d a : Reg) (lit : Word) (s : State) (hs : s.beyond = C) : keepN C (execVoteSome d a lit s) := by
  unfold execVoteSome
  repeat' first | dsimp only [State.beyond] | with_reducible first | assumption | intro _ | apply issue_same | apply Issue.vote_same

theorem execVoteEvery_same (d a : Reg) (lit : Word) (s : State) (hs : s.beyond = C) : keepN C (execVoteEvery d a lit s) := by
  unfold execVoteEvery
  repeat' first | dsimp only [State.beyond] | with_reducible first | assumption | intro _ | apply issue_same | apply Issue.vote_same

theorem execVoteSame_same (d a : Reg) (lit : Word) (s : State) (hs : s.beyond = C) : keepN C (execVoteSame d a lit s) := by
  unfold execVoteSame
  repeat' first | dsimp only [State.beyond] | with_reducible first | assumption | intro _ | apply issue_same | apply Issue.vote_same

theorem execBallot_same (d a : Reg) (lit : Word) (s : State) (hs : s.beyond = C) : keepN C (execBallot d a lit s) := by
  unfold execBallot
  repeat' first | dsimp only [State.beyond] | with_reducible first | assumption | intro _ | apply issue_same | apply Issue.moves_same

theorem execScan_same (sc : BitVec 4) (d a : Reg) (lit : Word) (s : State) (hs : s.beyond = C) : keepN C (execScan sc d a lit s) := by
  unfold execScan
  repeat' first | dsimp only [State.beyond] | with_reducible first | assumption | intro _ | apply issue_same | apply Issue.combined_same

theorem execScanEx_same (sc : BitVec 4) (d a : Reg) (lit : Word) (s : State) (hs : s.beyond = C) : keepN C (execScanEx sc d a lit s) := by
  unfold execScanEx
  repeat' first | dsimp only [State.beyond] | with_reducible first | assumption | intro _ | apply issue_same | apply Issue.combined_same

theorem execReduce_same (sc : BitVec 4) (d a : Reg) (lit : Word) (s : State) (hs : s.beyond = C) : keepN C (execReduce sc d a lit s) := by
  unfold execReduce
  repeat' first | dsimp only [State.beyond] | with_reducible first | assumption | intro _ | apply issue_same | apply Issue.combined_same

theorem execMatchLane_same (w : BitVec 1) (d a : Reg) (lit : Word) (s : State) (hs : s.beyond = C) : keepN C (execMatchLane w d a lit s) := by
  unfold execMatchLane
  repeat' first | dsimp only [State.beyond] | with_reducible first | assumption | intro _ | apply issue_same | apply Issue.moves_same

theorem execBcast_same (w : BitVec 1) (d a b : Reg) (lit : Word) (s : State) (hs : s.beyond = C) : keepN C (execBcast w d a b lit s) := by
  unfold execBcast
  repeat' first | dsimp only [State.beyond] | with_reducible first | assumption | intro _ | apply issue_same | apply Issue.fromLane_same

theorem execKmov_same (w : BitVec 1) (d a b : Reg) (lit : Word) (s : State) (hs : s.beyond = C) : keepN C (execKmov w d a b lit s) := by
  unfold execKmov
  repeat' first | dsimp only [State.beyond] | with_reducible first | assumption | intro _ | apply issue_same | apply Issue.fromLane_same

/-! ### Machine/Launching.lean -/

theorem Issue.pendQ_same (o : Issue) (s : State) (rs : List LaneResult) (codes bcast : Bool) (hs : s.beyond = C) :
    (Issue.pendQ o s rs codes bcast).2.beyond = C := by
  unfold Issue.pendQ
  repeat' first | dsimp only [State.beyond] | with_reducible first | assumption | apply draw_same | apply Issue.pend_same | apply State.modPend_same

theorem execSpawn_same (d a b : Reg) (lit : Word) (s : State) (hs : s.beyond = C) : keepN C (execSpawn d a b lit s) := by
  unfold execSpawn
  repeat' first | dsimp only [State.beyond] | split | with_reducible first | assumption | intro _ | apply Issue.hold_same | apply issue_same | apply Issue.check_same | apply Issue.access_same | apply Issue.pendQ_same | refine keepR_of_bad (by assumption) ?_ | refine keepR_stall ?_

theorem execGrow_same (d a : Reg) (lit : Word) (s : State) (hs : s.beyond = C) : keepN C (execGrow d a lit s) := by
  unfold execGrow
  repeat' first | dsimp only [State.beyond] | split | with_reducible first | assumption | intro _ | apply Issue.hold_same | apply Issue.single_same | apply issue_same | apply Issue.pendQ_same | refine keepR_stall ?_ | exact keepR_trap | exact keepR_rollback

theorem execJob_same (a b : Reg) (lit : Word) (s : State) (hs : s.beyond = C) : keepN C (execJob a b lit s) := by
  unfold execJob
  repeat' first | dsimp only [State.beyond] | split | with_reducible first | assumption | intro _ | apply Issue.hold_same | apply issue_same | apply Issue.check_same | apply Issue.access_same | refine same_foldl ?_ ?_ | refine keepR_of_bad (by assumption) ?_ | refine keepR_stall ?_

theorem execLaunch_same (d a b : Reg) (lit : Word) (s : State) (hs : s.beyond = C) : keepN C (execLaunch d a b lit s) := by
  unfold execLaunch
  repeat' first | dsimp only [State.beyond] | split | with_reducible first | assumption | intro _ | apply Issue.hold_same | apply Issue.single_same | apply issue_same | apply Issue.check_same | apply Issue.access_same | apply Issue.pendQ_same | refine keepR_of_bad (by assumption) ?_ | refine keepR_stall ?_

/-! ### Machine/Queues.lean -/

theorem State.setPort_same (s : State) (p : Nat) (h : Option Word) (hs : s.beyond = C) : (State.setPort s p h).beyond = C := by
  unfold State.setPort
  repeat' first | dsimp only [State.beyond] | with_reducible first | assumption

theorem execQmap_same (d a : Reg) (lit : Word) (s : State) (hs : s.beyond = C) : keepN C (execQmap d a lit s) := by
  unfold execQmap
  repeat' first | dsimp only [State.beyond] | split | with_reducible first | assumption | intro _ | apply Issue.single_same | apply issue_same | apply State.setPort_same | exact keepR_trap | exact keepR_rollback

theorem execQunmap_same (d : Reg) (lit : Word) (s : State) (hs : s.beyond = C) : keepN C (execQunmap d lit s) := by
  unfold execQunmap
  repeat' first | dsimp only [State.beyond] | split | with_reducible first | assumption | intro _ | apply Issue.single_same | apply issue_same | apply State.setPort_same | exact keepR_trap

theorem execQstat_same (d a : Reg) (lit : Word) (s : State) (hs : s.beyond = C) : keepN C (execQstat d a lit s) := by
  unfold execQstat
  repeat' first | dsimp only [State.beyond] | with_reducible first | assumption | intro _ | apply Issue.single_same | apply issue_same | apply Issue.commit_same

theorem execQnotify_same (d : Reg) (lit : Word) (s : State) (hs : s.beyond = C) : keepN C (execQnotify d lit s) := by
  unfold execQnotify
  repeat' first | dsimp only [State.beyond] | split | with_reducible first | assumption | intro _ | apply Issue.hold_same | apply Issue.single_same | apply issue_same | refine keepR_stall ?_ | exact keepR_trap

/-! ### Machine/System.lean -/

theorem execRegion_same (s : State) (hs : s.beyond = C) : keepN C (execRegion s) := by
  unfold execRegion
  repeat' first | dsimp only [State.beyond] | with_reducible first | assumption | intro _ | apply issue_same | refine keepR_done ?_

theorem execSigchk_same (lit : Word) (s : State) (hs : s.beyond = C) : keepN C (execSigchk lit s) := by
  unfold execSigchk
  repeat' first | dsimp only [State.beyond] | split | with_reducible first | assumption | intro _ | apply issue_same | refine keepR_done ?_ | exact keepR_rollback

theorem execSigset_same (lit : Word) (s : State) (hs : s.beyond = C) : keepN C (execSigset lit s) := by
  unfold execSigset
  repeat' first | dsimp only [State.beyond] | with_reducible first | assumption | intro _ | apply issue_same | refine keepR_done ?_

theorem execTrap_same (lit : Word) (s : State) (hs : s.beyond = C) : keepN C (execTrap lit s) := by
  unfold execTrap
  repeat' first | dsimp only [State.beyond] | split | with_reducible first | assumption | intro _ | apply Issue.plain_same | apply issue_same | exact keepR_trap

theorem execSysc_same (d a : Reg) (lit : Word) (s : State) (hs : s.beyond = C) : keepN C (execSysc d a lit s) := by
  unfold execSysc
  repeat' first | dsimp only [State.beyond] | split | with_reducible first | assumption | intro _ | apply Issue.single_same | apply issue_same | exact keepR_trap | exact keepR_rollback

theorem execBrk_same (s : State) (hs : s.beyond = C) : keepN C (execBrk s) := by
  unfold execBrk
  repeat' first | dsimp only [State.beyond] | split | with_reducible first | assumption | intro _ | apply Issue.plain_same | apply issue_same | exact keepR_trap

theorem execMfs_same (d : Reg) (lit : Word) (s : State) (hs : s.beyond = C) : keepN C (execMfs d lit s) := by
  unfold execMfs
  repeat' first | dsimp only [State.beyond] | with_reducible first | assumption | intro _ | apply Issue.plain_same | apply issue_same | apply Issue.commit_same

theorem execMts_same (b : Reg) (lit : Word) (s : State) (hs : s.beyond = C) : keepN C (execMts b lit s) := by
  unfold execMts
  repeat' first | dsimp only [State.beyond] | split | with_reducible first | assumption | intro _ | apply Issue.plain_same | apply issue_same | exact keepR_trap | exact keepR_rollback

end Sys2Proof.Machine
end

