-- ==== Sys2Proof/Laws/State.lean ====
section
/-! SUPPORT. What each update of one part of the state leaves as it was: one lemma for each field and update. -/

namespace Sys2Proof.Machine
open Sys2Proof

@[simp] theorem State.memStore_now (s : State) (key : Nat) (data : List (Byte × Bool)) : (s.memStore key data).now = s.now := rfl
@[simp] theorem State.memStore_cur (s : State) (key : Nat) (data : List (Byte × Bool)) : (s.memStore key data).cur = s.cur := rfl
@[simp] theorem State.memStore_teams (s : State) (key : Nat) (data : List (Byte × Bool)) : (s.memStore key data).teams = s.teams := rfl
@[simp] theorem State.memStore_coolbox (s : State) (key : Nat) (data : List (Byte × Bool)) : (s.memStore key data).coolbox = s.coolbox := rfl
@[simp] theorem State.memStore_net (s : State) (key : Nat) (data : List (Byte × Bool)) : (s.memStore key data).net = s.net := rfl
@[simp] theorem State.memStore_homeHolds (s : State) (key : Nat) (data : List (Byte × Bool)) : (s.memStore key data).homeHolds = s.homeHolds := rfl
@[simp] theorem State.memStore_ctxs (s : State) (key : Nat) (data : List (Byte × Bool)) : (s.memStore key data).ctxs = s.ctxs := rfl
@[simp] theorem State.memStore_tables (s : State) (key : Nat) (data : List (Byte × Bool)) : (s.memStore key data).tables = s.tables := rfl
@[simp] theorem State.memStore_disp (s : State) (key : Nat) (data : List (Byte × Bool)) : (s.memStore key data).disp = s.disp := rfl
@[simp] theorem State.memStore_copies (s : State) (key : Nat) (data : List (Byte × Bool)) : (s.memStore key data).copies = s.copies := rfl
@[simp] theorem State.memStore_engines (s : State) (key : Nat) (data : List (Byte × Bool)) : (s.memStore key data).engines = s.engines := rfl
@[simp] theorem State.memStore_eq (s : State) (key : Nat) (data : List (Byte × Bool)) : (s.memStore key data).eq = s.eq := rfl
@[simp] theorem State.memStore_faults (s : State) (key : Nat) (data : List (Byte × Bool)) : (s.memStore key data).faults = s.faults := rfl
@[simp] theorem State.memStore_postings (s : State) (key : Nat) (data : List (Byte × Bool)) : (s.memStore key data).postings = s.postings := rfl
@[simp] theorem State.memStore_hub (s : State) (key : Nat) (data : List (Byte × Bool)) : (s.memStore key data).hub = s.hub := rfl
@[simp] theorem State.memStore_busy (s : State) (key : Nat) (data : List (Byte × Bool)) : (s.memStore key data).busy = s.busy := rfl
@[simp] theorem State.memStore_issued (s : State) (key : Nat) (data : List (Byte × Bool)) : (s.memStore key data).issued = s.issued := rfl
@[simp] theorem State.memStore_fetched (s : State) (key : Nat) (data : List (Byte × Bool)) : (s.memStore key data).fetched = s.fetched := rfl
@[simp] theorem State.memStore_inbox (s : State) (key : Nat) (data : List (Byte × Bool)) : (s.memStore key data).inbox = s.inbox := rfl
@[simp] theorem State.memStore_out (s : State) (key : Nat) (data : List (Byte × Bool)) : (s.memStore key data).out = s.out := rfl
@[simp] theorem State.memStore_draws (s : State) (key : Nat) (data : List (Byte × Bool)) : (s.memStore key data).draws = s.draws := rfl
@[simp] theorem State.memStore_serial (s : State) (key : Nat) (data : List (Byte × Bool)) : (s.memStore key data).serial = s.serial := rfl
@[simp] theorem State.memStore_nextId (s : State) (key : Nat) (data : List (Byte × Bool)) : (s.memStore key data).nextId = s.nextId := rfl
@[simp] theorem State.modCtx_now (s : State) (c : Nat) (f : Ctx → Ctx) : (s.modCtx c f).now = s.now := rfl
@[simp] theorem State.modCtx_cur (s : State) (c : Nat) (f : Ctx → Ctx) : (s.modCtx c f).cur = s.cur := rfl
@[simp] theorem State.modCtx_teams (s : State) (c : Nat) (f : Ctx → Ctx) : (s.modCtx c f).teams = s.teams := rfl
@[simp] theorem State.modCtx_coolbox (s : State) (c : Nat) (f : Ctx → Ctx) : (s.modCtx c f).coolbox = s.coolbox := rfl
@[simp] theorem State.modCtx_net (s : State) (c : Nat) (f : Ctx → Ctx) : (s.modCtx c f).net = s.net := rfl
@[simp] theorem State.modCtx_homeHolds (s : State) (c : Nat) (f : Ctx → Ctx) : (s.modCtx c f).homeHolds = s.homeHolds := rfl
@[simp] theorem State.modCtx_mem (s : State) (c : Nat) (f : Ctx → Ctx) : (s.modCtx c f).mem = s.mem := rfl
@[simp] theorem State.modCtx_tables (s : State) (c : Nat) (f : Ctx → Ctx) : (s.modCtx c f).tables = s.tables := rfl
@[simp] theorem State.modCtx_disp (s : State) (c : Nat) (f : Ctx → Ctx) : (s.modCtx c f).disp = s.disp := rfl
@[simp] theorem State.modCtx_copies (s : State) (c : Nat) (f : Ctx → Ctx) : (s.modCtx c f).copies = s.copies := rfl
@[simp] theorem State.modCtx_engines (s : State) (c : Nat) (f : Ctx → Ctx) : (s.modCtx c f).engines = s.engines := rfl
@[simp] theorem State.modCtx_eq (s : State) (c : Nat) (f : Ctx → Ctx) : (s.modCtx c f).eq = s.eq := rfl
@[simp] theorem State.modCtx_faults (s : State) (c : Nat) (f : Ctx → Ctx) : (s.modCtx c f).faults = s.faults := rfl
@[simp] theorem State.modCtx_postings (s : State) (c : Nat) (f : Ctx → Ctx) : (s.modCtx c f).postings = s.postings := rfl
@[simp] theorem State.modCtx_hub (s : State) (c : Nat) (f : Ctx → Ctx) : (s.modCtx c f).hub = s.hub := rfl
@[simp] theorem State.modCtx_busy (s : State) (c : Nat) (f : Ctx → Ctx) : (s.modCtx c f).busy = s.busy := rfl
@[simp] theorem State.modCtx_issued (s : State) (c : Nat) (f : Ctx → Ctx) : (s.modCtx c f).issued = s.issued := rfl
@[simp] theorem State.modCtx_fetched (s : State) (c : Nat) (f : Ctx → Ctx) : (s.modCtx c f).fetched = s.fetched := rfl
@[simp] theorem State.modCtx_inbox (s : State) (c : Nat) (f : Ctx → Ctx) : (s.modCtx c f).inbox = s.inbox := rfl
@[simp] theorem State.modCtx_out (s : State) (c : Nat) (f : Ctx → Ctx) : (s.modCtx c f).out = s.out := rfl
@[simp] theorem State.modCtx_draws (s : State) (c : Nat) (f : Ctx → Ctx) : (s.modCtx c f).draws = s.draws := rfl
@[simp] theorem State.modCtx_serial (s : State) (c : Nat) (f : Ctx → Ctx) : (s.modCtx c f).serial = s.serial := rfl
@[simp] theorem State.modCtx_nextId (s : State) (c : Nat) (f : Ctx → Ctx) : (s.modCtx c f).nextId = s.nextId := rfl
@[simp] theorem State.modWindow_now (s : State) (key : Nat) (f : Window → Window) : (s.modWindow key f).now = s.now := rfl
@[simp] theorem State.modWindow_cur (s : State) (key : Nat) (f : Window → Window) : (s.modWindow key f).cur = s.cur := rfl
@[simp] theorem State.modWindow_teams (s : State) (key : Nat) (f : Window → Window) : (s.modWindow key f).teams = s.teams := rfl
@[simp] theorem State.modWindow_coolbox (s : State) (key : Nat) (f : Window → Window) : (s.modWindow key f).coolbox = s.coolbox := rfl
@[simp] theorem State.modWindow_net (s : State) (key : Nat) (f : Window → Window) : (s.modWindow key f).net = s.net := rfl
@[simp] theorem State.modWindow_homeHolds (s : State) (key : Nat) (f : Window → Window) : (s.modWindow key f).homeHolds = s.homeHolds := rfl
@[simp] theorem State.modWindow_mem (s : State) (key : Nat) (f : Window → Window) : (s.modWindow key f).mem = s.mem := rfl
@[simp] theorem State.modWindow_ctxs (s : State) (key : Nat) (f : Window → Window) : (s.modWindow key f).ctxs = s.ctxs := rfl
@[simp] theorem State.modWindow_disp (s : State) (key : Nat) (f : Window → Window) : (s.modWindow key f).disp = s.disp := rfl
@[simp] theorem State.modWindow_copies (s : State) (key : Nat) (f : Window → Window) : (s.modWindow key f).copies = s.copies := rfl
@[simp] theorem State.modWindow_engines (s : State) (key : Nat) (f : Window → Window) : (s.modWindow key f).engines = s.engines := rfl
@[simp] theorem State.modWindow_eq (s : State) (key : Nat) (f : Window → Window) : (s.modWindow key f).eq = s.eq := rfl
@[simp] theorem State.modWindow_faults (s : State) (key : Nat) (f : Window → Window) : (s.modWindow key f).faults = s.faults := rfl
@[simp] theorem State.modWindow_postings (s : State) (key : Nat) (f : Window → Window) : (s.modWindow key f).postings = s.postings := rfl
@[simp] theorem State.modWindow_hub (s : State) (key : Nat) (f : Window → Window) : (s.modWindow key f).hub = s.hub := rfl
@[simp] theorem State.modWindow_busy (s : State) (key : Nat) (f : Window → Window) : (s.modWindow key f).busy = s.busy := rfl
@[simp] theorem State.modWindow_issued (s : State) (key : Nat) (f : Window → Window) : (s.modWindow key f).issued = s.issued := rfl
@[simp] theorem State.modWindow_fetched (s : State) (key : Nat) (f : Window → Window) : (s.modWindow key f).fetched = s.fetched := rfl
@[simp] theorem State.modWindow_inbox (s : State) (key : Nat) (f : Window → Window) : (s.modWindow key f).inbox = s.inbox := rfl
@[simp] theorem State.modWindow_out (s : State) (key : Nat) (f : Window → Window) : (s.modWindow key f).out = s.out := rfl
@[simp] theorem State.modWindow_draws (s : State) (key : Nat) (f : Window → Window) : (s.modWindow key f).draws = s.draws := rfl
@[simp] theorem State.modWindow_serial (s : State) (key : Nat) (f : Window → Window) : (s.modWindow key f).serial = s.serial := rfl
@[simp] theorem State.modWindow_nextId (s : State) (key : Nat) (f : Window → Window) : (s.modWindow key f).nextId = s.nextId := rfl
@[simp] theorem State.modEngine_now (s : State) (tile : Nat) (f : Engine → Engine) : (s.modEngine tile f).now = s.now := rfl
@[simp] theorem State.modEngine_cur (s : State) (tile : Nat) (f : Engine → Engine) : (s.modEngine tile f).cur = s.cur := rfl
@[simp] theorem State.modEngine_teams (s : State) (tile : Nat) (f : Engine → Engine) : (s.modEngine tile f).teams = s.teams := rfl
@[simp] theorem State.modEngine_coolbox (s : State) (tile : Nat) (f : Engine → Engine) : (s.modEngine tile f).coolbox = s.coolbox := rfl
@[simp] theorem State.modEngine_net (s : State) (tile : Nat) (f : Engine → Engine) : (s.modEngine tile f).net = s.net := rfl
@[simp] theorem State.modEngine_homeHolds (s : State) (tile : Nat) (f : Engine → Engine) : (s.modEngine tile f).homeHolds = s.homeHolds := rfl
@[simp] theorem State.modEngine_mem (s : State) (tile : Nat) (f : Engine → Engine) : (s.modEngine tile f).mem = s.mem := rfl
@[simp] theorem State.modEngine_ctxs (s : State) (tile : Nat) (f : Engine → Engine) : (s.modEngine tile f).ctxs = s.ctxs := rfl
@[simp] theorem State.modEngine_tables (s : State) (tile : Nat) (f : Engine → Engine) : (s.modEngine tile f).tables = s.tables := rfl
@[simp] theorem State.modEngine_disp (s : State) (tile : Nat) (f : Engine → Engine) : (s.modEngine tile f).disp = s.disp := rfl
@[simp] theorem State.modEngine_copies (s : State) (tile : Nat) (f : Engine → Engine) : (s.modEngine tile f).copies = s.copies := rfl
@[simp] theorem State.modEngine_eq (s : State) (tile : Nat) (f : Engine → Engine) : (s.modEngine tile f).eq = s.eq := rfl
@[simp] theorem State.modEngine_faults (s : State) (tile : Nat) (f : Engine → Engine) : (s.modEngine tile f).faults = s.faults := rfl
@[simp] theorem State.modEngine_postings (s : State) (tile : Nat) (f : Engine → Engine) : (s.modEngine tile f).postings = s.postings := rfl
@[simp] theorem State.modEngine_hub (s : State) (tile : Nat) (f : Engine → Engine) : (s.modEngine tile f).hub = s.hub := rfl
@[simp] theorem State.modEngine_busy (s : State) (tile : Nat) (f : Engine → Engine) : (s.modEngine tile f).busy = s.busy := rfl
@[simp] theorem State.modEngine_issued (s : State) (tile : Nat) (f : Engine → Engine) : (s.modEngine tile f).issued = s.issued := rfl
@[simp] theorem State.modEngine_fetched (s : State) (tile : Nat) (f : Engine → Engine) : (s.modEngine tile f).fetched = s.fetched := rfl
@[simp] theorem State.modEngine_inbox (s : State) (tile : Nat) (f : Engine → Engine) : (s.modEngine tile f).inbox = s.inbox := rfl
@[simp] theorem State.modEngine_out (s : State) (tile : Nat) (f : Engine → Engine) : (s.modEngine tile f).out = s.out := rfl
@[simp] theorem State.modEngine_draws (s : State) (tile : Nat) (f : Engine → Engine) : (s.modEngine tile f).draws = s.draws := rfl
@[simp] theorem State.modEngine_serial (s : State) (tile : Nat) (f : Engine → Engine) : (s.modEngine tile f).serial = s.serial := rfl
@[simp] theorem State.modEngine_nextId (s : State) (tile : Nat) (f : Engine → Engine) : (s.modEngine tile f).nextId = s.nextId := rfl
@[simp] theorem State.modCopy_now (s : State) (cid : Nat) (f : Copy → Copy) : (s.modCopy cid f).now = s.now := rfl
@[simp] theorem State.modCopy_cur (s : State) (cid : Nat) (f : Copy → Copy) : (s.modCopy cid f).cur = s.cur := rfl
@[simp] theorem State.modCopy_teams (s : State) (cid : Nat) (f : Copy → Copy) : (s.modCopy cid f).teams = s.teams := rfl
@[simp] theorem State.modCopy_coolbox (s : State) (cid : Nat) (f : Copy → Copy) : (s.modCopy cid f).coolbox = s.coolbox := rfl
@[simp] theorem State.modCopy_net (s : State) (cid : Nat) (f : Copy → Copy) : (s.modCopy cid f).net = s.net := rfl
@[simp] theorem State.modCopy_homeHolds (s : State) (cid : Nat) (f : Copy → Copy) : (s.modCopy cid f).homeHolds = s.homeHolds := rfl
@[simp] theorem State.modCopy_mem (s : State) (cid : Nat) (f : Copy → Copy) : (s.modCopy cid f).mem = s.mem := rfl
@[simp] theorem State.modCopy_ctxs (s : State) (cid : Nat) (f : Copy → Copy) : (s.modCopy cid f).ctxs = s.ctxs := rfl
@[simp] theorem State.modCopy_tables (s : State) (cid : Nat) (f : Copy → Copy) : (s.modCopy cid f).tables = s.tables := rfl
@[simp] theorem State.modCopy_disp (s : State) (cid : Nat) (f : Copy → Copy) : (s.modCopy cid f).disp = s.disp := rfl
@[simp] theorem State.modCopy_engines (s : State) (cid : Nat) (f : Copy → Copy) : (s.modCopy cid f).engines = s.engines := rfl
@[simp] theorem State.modCopy_eq (s : State) (cid : Nat) (f : Copy → Copy) : (s.modCopy cid f).eq = s.eq := rfl
@[simp] theorem State.modCopy_faults (s : State) (cid : Nat) (f : Copy → Copy) : (s.modCopy cid f).faults = s.faults := rfl
@[simp] theorem State.modCopy_postings (s : State) (cid : Nat) (f : Copy → Copy) : (s.modCopy cid f).postings = s.postings := rfl
@[simp] theorem State.modCopy_hub (s : State) (cid : Nat) (f : Copy → Copy) : (s.modCopy cid f).hub = s.hub := rfl
@[simp] theorem State.modCopy_busy (s : State) (cid : Nat) (f : Copy → Copy) : (s.modCopy cid f).busy = s.busy := rfl
@[simp] theorem State.modCopy_issued (s : State) (cid : Nat) (f : Copy → Copy) : (s.modCopy cid f).issued = s.issued := rfl
@[simp] theorem State.modCopy_fetched (s : State) (cid : Nat) (f : Copy → Copy) : (s.modCopy cid f).fetched = s.fetched := rfl
@[simp] theorem State.modCopy_inbox (s : State) (cid : Nat) (f : Copy → Copy) : (s.modCopy cid f).inbox = s.inbox := rfl
@[simp] theorem State.modCopy_out (s : State) (cid : Nat) (f : Copy → Copy) : (s.modCopy cid f).out = s.out := rfl
@[simp] theorem State.modCopy_draws (s : State) (cid : Nat) (f : Copy → Copy) : (s.modCopy cid f).draws = s.draws := rfl
@[simp] theorem State.modCopy_serial (s : State) (cid : Nat) (f : Copy → Copy) : (s.modCopy cid f).serial = s.serial := rfl
@[simp] theorem State.modCopy_nextId (s : State) (cid : Nat) (f : Copy → Copy) : (s.modCopy cid f).nextId = s.nextId := rfl
@[simp] theorem State.modForest_now (s : State) (fid : Nat) (f : Forest → Forest) : (s.modForest fid f).now = s.now := rfl
@[simp] theorem State.modForest_cur (s : State) (fid : Nat) (f : Forest → Forest) : (s.modForest fid f).cur = s.cur := rfl
@[simp] theorem State.modForest_teams (s : State) (fid : Nat) (f : Forest → Forest) : (s.modForest fid f).teams = s.teams := rfl
@[simp] theorem State.modForest_coolbox (s : State) (fid : Nat) (f : Forest → Forest) : (s.modForest fid f).coolbox = s.coolbox := rfl
@[simp] theorem State.modForest_net (s : State) (fid : Nat) (f : Forest → Forest) : (s.modForest fid f).net = s.net := rfl
@[simp] theorem State.modForest_homeHolds (s : State) (fid : Nat) (f : Forest → Forest) : (s.modForest fid f).homeHolds = s.homeHolds := rfl
@[simp] theorem State.modForest_mem (s : State) (fid : Nat) (f : Forest → Forest) : (s.modForest fid f).mem = s.mem := rfl
@[simp] theorem State.modForest_ctxs (s : State) (fid : Nat) (f : Forest → Forest) : (s.modForest fid f).ctxs = s.ctxs := rfl
@[simp] theorem State.modForest_tables (s : State) (fid : Nat) (f : Forest → Forest) : (s.modForest fid f).tables = s.tables := rfl
@[simp] theorem State.modForest_disp (s : State) (fid : Nat) (f : Forest → Forest) : (s.modForest fid f).disp = s.disp := rfl
@[simp] theorem State.modForest_copies (s : State) (fid : Nat) (f : Forest → Forest) : (s.modForest fid f).copies = s.copies := rfl
@[simp] theorem State.modForest_engines (s : State) (fid : Nat) (f : Forest → Forest) : (s.modForest fid f).engines = s.engines := rfl
@[simp] theorem State.modForest_faults (s : State) (fid : Nat) (f : Forest → Forest) : (s.modForest fid f).faults = s.faults := rfl
@[simp] theorem State.modForest_postings (s : State) (fid : Nat) (f : Forest → Forest) : (s.modForest fid f).postings = s.postings := rfl
@[simp] theorem State.modForest_hub (s : State) (fid : Nat) (f : Forest → Forest) : (s.modForest fid f).hub = s.hub := rfl
@[simp] theorem State.modForest_busy (s : State) (fid : Nat) (f : Forest → Forest) : (s.modForest fid f).busy = s.busy := rfl
@[simp] theorem State.modForest_issued (s : State) (fid : Nat) (f : Forest → Forest) : (s.modForest fid f).issued = s.issued := rfl
@[simp] theorem State.modForest_fetched (s : State) (fid : Nat) (f : Forest → Forest) : (s.modForest fid f).fetched = s.fetched := rfl
@[simp] theorem State.modForest_inbox (s : State) (fid : Nat) (f : Forest → Forest) : (s.modForest fid f).inbox = s.inbox := rfl
@[simp] theorem State.modForest_out (s : State) (fid : Nat) (f : Forest → Forest) : (s.modForest fid f).out = s.out := rfl
@[simp] theorem State.modForest_draws (s : State) (fid : Nat) (f : Forest → Forest) : (s.modForest fid f).draws = s.draws := rfl
@[simp] theorem State.modForest_serial (s : State) (fid : Nat) (f : Forest → Forest) : (s.modForest fid f).serial = s.serial := rfl
@[simp] theorem State.modForest_nextId (s : State) (fid : Nat) (f : Forest → Forest) : (s.modForest fid f).nextId = s.nextId := rfl
@[simp] theorem State.modWalk_now (s : State) (wid : Nat) (f : Walk → Walk) : (s.modWalk wid f).now = s.now := rfl
@[simp] theorem State.modWalk_cur (s : State) (wid : Nat) (f : Walk → Walk) : (s.modWalk wid f).cur = s.cur := rfl
@[simp] theorem State.modWalk_teams (s : State) (wid : Nat) (f : Walk → Walk) : (s.modWalk wid f).teams = s.teams := rfl
@[simp] theorem State.modWalk_coolbox (s : State) (wid : Nat) (f : Walk → Walk) : (s.modWalk wid f).coolbox = s.coolbox := rfl
@[simp] theorem State.modWalk_net (s : State) (wid : Nat) (f : Walk → Walk) : (s.modWalk wid f).net = s.net := rfl
@[simp] theorem State.modWalk_homeHolds (s : State) (wid : Nat) (f : Walk → Walk) : (s.modWalk wid f).homeHolds = s.homeHolds := rfl
@[simp] theorem State.modWalk_mem (s : State) (wid : Nat) (f : Walk → Walk) : (s.modWalk wid f).mem = s.mem := rfl
@[simp] theorem State.modWalk_ctxs (s : State) (wid : Nat) (f : Walk → Walk) : (s.modWalk wid f).ctxs = s.ctxs := rfl
@[simp] theorem State.modWalk_tables (s : State) (wid : Nat) (f : Walk → Walk) : (s.modWalk wid f).tables = s.tables := rfl
@[simp] theorem State.modWalk_disp (s : State) (wid : Nat) (f : Walk → Walk) : (s.modWalk wid f).disp = s.disp := rfl
@[simp] theorem State.modWalk_copies (s : State) (wid : Nat) (f : Walk → Walk) : (s.modWalk wid f).copies = s.copies := rfl
@[simp] theorem State.modWalk_engines (s : State) (wid : Nat) (f : Walk → Walk) : (s.modWalk wid f).engines = s.engines := rfl
@[simp] theorem State.modWalk_faults (s : State) (wid : Nat) (f : Walk → Walk) : (s.modWalk wid f).faults = s.faults := rfl
@[simp] theorem State.modWalk_postings (s : State) (wid : Nat) (f : Walk → Walk) : (s.modWalk wid f).postings = s.postings := rfl
@[simp] theorem State.modWalk_hub (s : State) (wid : Nat) (f : Walk → Walk) : (s.modWalk wid f).hub = s.hub := rfl
@[simp] theorem State.modWalk_busy (s : State) (wid : Nat) (f : Walk → Walk) : (s.modWalk wid f).busy = s.busy := rfl
@[simp] theorem State.modWalk_issued (s : State) (wid : Nat) (f : Walk → Walk) : (s.modWalk wid f).issued = s.issued := rfl
@[simp] theorem State.modWalk_fetched (s : State) (wid : Nat) (f : Walk → Walk) : (s.modWalk wid f).fetched = s.fetched := rfl
@[simp] theorem State.modWalk_inbox (s : State) (wid : Nat) (f : Walk → Walk) : (s.modWalk wid f).inbox = s.inbox := rfl
@[simp] theorem State.modWalk_out (s : State) (wid : Nat) (f : Walk → Walk) : (s.modWalk wid f).out = s.out := rfl
@[simp] theorem State.modWalk_draws (s : State) (wid : Nat) (f : Walk → Walk) : (s.modWalk wid f).draws = s.draws := rfl
@[simp] theorem State.modWalk_serial (s : State) (wid : Nat) (f : Walk → Walk) : (s.modWalk wid f).serial = s.serial := rfl
@[simp] theorem State.modWalk_nextId (s : State) (wid : Nat) (f : Walk → Walk) : (s.modWalk wid f).nextId = s.nextId := rfl
@[simp] theorem State.modReq_now (s : State) (rid : Nat) (f : EqReq → EqReq) : (s.modReq rid f).now = s.now := rfl
@[simp] theorem State.modReq_cur (s : State) (rid : Nat) (f : EqReq → EqReq) : (s.modReq rid f).cur = s.cur := rfl
@[simp] theorem State.modReq_teams (s : State) (rid : Nat) (f : EqReq → EqReq) : (s.modReq rid f).teams = s.teams := rfl
@[simp] theorem State.modReq_coolbox (s : State) (rid : Nat) (f : EqReq → EqReq) : (s.modReq rid f).coolbox = s.coolbox := rfl
@[simp] theorem State.modReq_net (s : State) (rid : Nat) (f : EqReq → EqReq) : (s.modReq rid f).net = s.net := rfl
@[simp] theorem State.modReq_homeHolds (s : State) (rid : Nat) (f : EqReq → EqReq) : (s.modReq rid f).homeHolds = s.homeHolds := rfl
@[simp] theorem State.modReq_mem (s : State) (rid : Nat) (f : EqReq → EqReq) : (s.modReq rid f).mem = s.mem := rfl
@[simp] theorem State.modReq_ctxs (s : State) (rid : Nat) (f : EqReq → EqReq) : (s.modReq rid f).ctxs = s.ctxs := rfl
@[simp] theorem State.modReq_tables (s : State) (rid : Nat) (f : EqReq → EqReq) : (s.modReq rid f).tables = s.tables := rfl
@[simp] theorem State.modReq_disp (s : State) (rid : Nat) (f : EqReq → EqReq) : (s.modReq rid f).disp = s.disp := rfl
@[simp] theorem State.modReq_copies (s : State) (rid : Nat) (f : EqReq → EqReq) : (s.modReq rid f).copies = s.copies := rfl
@[simp] theorem State.modReq_engines (s : State) (rid : Nat) (f : EqReq → EqReq) : (s.modReq rid f).engines = s.engines := rfl
@[simp] theorem State.modReq_faults (s : State) (rid : Nat) (f : EqReq → EqReq) : (s.modReq rid f).faults = s.faults := rfl
@[simp] theorem State.modReq_postings (s : State) (rid : Nat) (f : EqReq → EqReq) : (s.modReq rid f).postings = s.postings := rfl
@[simp] theorem State.modReq_hub (s : State) (rid : Nat) (f : EqReq → EqReq) : (s.modReq rid f).hub = s.hub := rfl
@[simp] theorem State.modReq_busy (s : State) (rid : Nat) (f : EqReq → EqReq) : (s.modReq rid f).busy = s.busy := rfl
@[simp] theorem State.modReq_issued (s : State) (rid : Nat) (f : EqReq → EqReq) : (s.modReq rid f).issued = s.issued := rfl
@[simp] theorem State.modReq_fetched (s : State) (rid : Nat) (f : EqReq → EqReq) : (s.modReq rid f).fetched = s.fetched := rfl
@[simp] theorem State.modReq_inbox (s : State) (rid : Nat) (f : EqReq → EqReq) : (s.modReq rid f).inbox = s.inbox := rfl
@[simp] theorem State.modReq_out (s : State) (rid : Nat) (f : EqReq → EqReq) : (s.modReq rid f).out = s.out := rfl
@[simp] theorem State.modReq_draws (s : State) (rid : Nat) (f : EqReq → EqReq) : (s.modReq rid f).draws = s.draws := rfl
@[simp] theorem State.modReq_serial (s : State) (rid : Nat) (f : EqReq → EqReq) : (s.modReq rid f).serial = s.serial := rfl
@[simp] theorem State.modReq_nextId (s : State) (rid : Nat) (f : EqReq → EqReq) : (s.modReq rid f).nextId = s.nextId := rfl
@[simp] theorem State.modPort_now (s : State) (p : Nat) (f : Port → Port) : (s.modPort p f).now = s.now := rfl
@[simp] theorem State.modPort_cur (s : State) (p : Nat) (f : Port → Port) : (s.modPort p f).cur = s.cur := rfl
@[simp] theorem State.modPort_teams (s : State) (p : Nat) (f : Port → Port) : (s.modPort p f).teams = s.teams := rfl
@[simp] theorem State.modPort_coolbox (s : State) (p : Nat) (f : Port → Port) : (s.modPort p f).coolbox = s.coolbox := rfl
@[simp] theorem State.modPort_net (s : State) (p : Nat) (f : Port → Port) : (s.modPort p f).net = s.net := rfl
@[simp] theorem State.modPort_homeHolds (s : State) (p : Nat) (f : Port → Port) : (s.modPort p f).homeHolds = s.homeHolds := rfl
@[simp] theorem State.modPort_mem (s : State) (p : Nat) (f : Port → Port) : (s.modPort p f).mem = s.mem := rfl
@[simp] theorem State.modPort_ctxs (s : State) (p : Nat) (f : Port → Port) : (s.modPort p f).ctxs = s.ctxs := rfl
@[simp] theorem State.modPort_tables (s : State) (p : Nat) (f : Port → Port) : (s.modPort p f).tables = s.tables := rfl
@[simp] theorem State.modPort_disp (s : State) (p : Nat) (f : Port → Port) : (s.modPort p f).disp = s.disp := rfl
@[simp] theorem State.modPort_copies (s : State) (p : Nat) (f : Port → Port) : (s.modPort p f).copies = s.copies := rfl
@[simp] theorem State.modPort_engines (s : State) (p : Nat) (f : Port → Port) : (s.modPort p f).engines = s.engines := rfl
@[simp] theorem State.modPort_eq (s : State) (p : Nat) (f : Port → Port) : (s.modPort p f).eq = s.eq := rfl
@[simp] theorem State.modPort_faults (s : State) (p : Nat) (f : Port → Port) : (s.modPort p f).faults = s.faults := rfl
@[simp] theorem State.modPort_postings (s : State) (p : Nat) (f : Port → Port) : (s.modPort p f).postings = s.postings := rfl
@[simp] theorem State.modPort_busy (s : State) (p : Nat) (f : Port → Port) : (s.modPort p f).busy = s.busy := rfl
@[simp] theorem State.modPort_issued (s : State) (p : Nat) (f : Port → Port) : (s.modPort p f).issued = s.issued := rfl
@[simp] theorem State.modPort_fetched (s : State) (p : Nat) (f : Port → Port) : (s.modPort p f).fetched = s.fetched := rfl
@[simp] theorem State.modPort_inbox (s : State) (p : Nat) (f : Port → Port) : (s.modPort p f).inbox = s.inbox := rfl
@[simp] theorem State.modPort_out (s : State) (p : Nat) (f : Port → Port) : (s.modPort p f).out = s.out := rfl
@[simp] theorem State.modPort_draws (s : State) (p : Nat) (f : Port → Port) : (s.modPort p f).draws = s.draws := rfl
@[simp] theorem State.modPort_serial (s : State) (p : Nat) (f : Port → Port) : (s.modPort p f).serial = s.serial := rfl
@[simp] theorem State.modPort_nextId (s : State) (p : Nat) (f : Port → Port) : (s.modPort p f).nextId = s.nextId := rfl
@[simp] theorem State.modClock_now (s : State) (f : Clock → Clock) : (s.modClock f).now = s.now := rfl
@[simp] theorem State.modClock_cur (s : State) (f : Clock → Clock) : (s.modClock f).cur = s.cur := rfl
@[simp] theorem State.modClock_teams (s : State) (f : Clock → Clock) : (s.modClock f).teams = s.teams := rfl
@[simp] theorem State.modClock_coolbox (s : State) (f : Clock → Clock) : (s.modClock f).coolbox = s.coolbox := rfl
@[simp] theorem State.modClock_net (s : State) (f : Clock → Clock) : (s.modClock f).net = s.net := rfl
@[simp] theorem State.modClock_homeHolds (s : State) (f : Clock → Clock) : (s.modClock f).homeHolds = s.homeHolds := rfl
@[simp] theorem State.modClock_mem (s : State) (f : Clock → Clock) : (s.modClock f).mem = s.mem := rfl
@[simp] theorem State.modClock_ctxs (s : State) (f : Clock → Clock) : (s.modClock f).ctxs = s.ctxs := rfl
@[simp] theorem State.modClock_tables (s : State) (f : Clock → Clock) : (s.modClock f).tables = s.tables := rfl
@[simp] theorem State.modClock_disp (s : State) (f : Clock → Clock) : (s.modClock f).disp = s.disp := rfl
@[simp] theorem State.modClock_copies (s : State) (f : Clock → Clock) : (s.modClock f).copies = s.copies := rfl
@[simp] theorem State.modClock_engines (s : State) (f : Clock → Clock) : (s.modClock f).engines = s.engines := rfl
@[simp] theorem State.modClock_eq (s : State) (f : Clock → Clock) : (s.modClock f).eq = s.eq := rfl
@[simp] theorem State.modClock_faults (s : State) (f : Clock → Clock) : (s.modClock f).faults = s.faults := rfl
@[simp] theorem State.modClock_postings (s : State) (f : Clock → Clock) : (s.modClock f).postings = s.postings := rfl
@[simp] theorem State.modClock_busy (s : State) (f : Clock → Clock) : (s.modClock f).busy = s.busy := rfl
@[simp] theorem State.modClock_issued (s : State) (f : Clock → Clock) : (s.modClock f).issued = s.issued := rfl
@[simp] theorem State.modClock_fetched (s : State) (f : Clock → Clock) : (s.modClock f).fetched = s.fetched := rfl
@[simp] theorem State.modClock_inbox (s : State) (f : Clock → Clock) : (s.modClock f).inbox = s.inbox := rfl
@[simp] theorem State.modClock_out (s : State) (f : Clock → Clock) : (s.modClock f).out = s.out := rfl
@[simp] theorem State.modClock_draws (s : State) (f : Clock → Clock) : (s.modClock f).draws = s.draws := rfl
@[simp] theorem State.modClock_serial (s : State) (f : Clock → Clock) : (s.modClock f).serial = s.serial := rfl
@[simp] theorem State.modClock_nextId (s : State) (f : Clock → Clock) : (s.modClock f).nextId = s.nextId := rfl
@[simp] theorem State.modPower_now (s : State) (f : Power → Power) : (s.modPower f).now = s.now := rfl
@[simp] theorem State.modPower_cur (s : State) (f : Power → Power) : (s.modPower f).cur = s.cur := rfl
@[simp] theorem State.modPower_teams (s : State) (f : Power → Power) : (s.modPower f).teams = s.teams := rfl
@[simp] theorem State.modPower_coolbox (s : State) (f : Power → Power) : (s.modPower f).coolbox = s.coolbox := rfl
@[simp] theorem State.modPower_net (s : State) (f : Power → Power) : (s.modPower f).net = s.net := rfl
@[simp] theorem State.modPower_homeHolds (s : State) (f : Power → Power) : (s.modPower f).homeHolds = s.homeHolds := rfl
@[simp] theorem State.modPower_mem (s : State) (f : Power → Power) : (s.modPower f).mem = s.mem := rfl
@[simp] theorem State.modPower_ctxs (s : State) (f : Power → Power) : (s.modPower f).ctxs = s.ctxs := rfl
@[simp] theorem State.modPower_tables (s : State) (f : Power → Power) : (s.modPower f).tables = s.tables := rfl
@[simp] theorem State.modPower_disp (s : State) (f : Power → Power) : (s.modPower f).disp = s.disp := rfl
@[simp] theorem State.modPower_copies (s : State) (f : Power → Power) : (s.modPower f).copies = s.copies := rfl
@[simp] theorem State.modPower_engines (s : State) (f : Power → Power) : (s.modPower f).engines = s.engines := rfl
@[simp] theorem State.modPower_eq (s : State) (f : Power → Power) : (s.modPower f).eq = s.eq := rfl
@[simp] theorem State.modPower_faults (s : State) (f : Power → Power) : (s.modPower f).faults = s.faults := rfl
@[simp] theorem State.modPower_postings (s : State) (f : Power → Power) : (s.modPower f).postings = s.postings := rfl
@[simp] theorem State.modPower_busy (s : State) (f : Power → Power) : (s.modPower f).busy = s.busy := rfl
@[simp] theorem State.modPower_issued (s : State) (f : Power → Power) : (s.modPower f).issued = s.issued := rfl
@[simp] theorem State.modPower_fetched (s : State) (f : Power → Power) : (s.modPower f).fetched = s.fetched := rfl
@[simp] theorem State.modPower_inbox (s : State) (f : Power → Power) : (s.modPower f).inbox = s.inbox := rfl
@[simp] theorem State.modPower_out (s : State) (f : Power → Power) : (s.modPower f).out = s.out := rfl
@[simp] theorem State.modPower_draws (s : State) (f : Power → Power) : (s.modPower f).draws = s.draws := rfl
@[simp] theorem State.modPower_serial (s : State) (f : Power → Power) : (s.modPower f).serial = s.serial := rfl
@[simp] theorem State.modPower_nextId (s : State) (f : Power → Power) : (s.modPower f).nextId = s.nextId := rfl
@[simp] theorem State.modTrust_now (s : State) (f : Trust → Trust) : (s.modTrust f).now = s.now := rfl
@[simp] theorem State.modTrust_cur (s : State) (f : Trust → Trust) : (s.modTrust f).cur = s.cur := rfl
@[simp] theorem State.modTrust_teams (s : State) (f : Trust → Trust) : (s.modTrust f).teams = s.teams := rfl
@[simp] theorem State.modTrust_coolbox (s : State) (f : Trust → Trust) : (s.modTrust f).coolbox = s.coolbox := rfl
@[simp] theorem State.modTrust_net (s : State) (f : Trust → Trust) : (s.modTrust f).net = s.net := rfl
@[simp] theorem State.modTrust_homeHolds (s : State) (f : Trust → Trust) : (s.modTrust f).homeHolds = s.homeHolds := rfl
@[simp] theorem State.modTrust_mem (s : State) (f : Trust → Trust) : (s.modTrust f).mem = s.mem := rfl
@[simp] theorem State.modTrust_ctxs (s : State) (f : Trust → Trust) : (s.modTrust f).ctxs = s.ctxs := rfl
@[simp] theorem State.modTrust_tables (s : State) (f : Trust → Trust) : (s.modTrust f).tables = s.tables := rfl
@[simp] theorem State.modTrust_disp (s : State) (f : Trust → Trust) : (s.modTrust f).disp = s.disp := rfl
@[simp] theorem State.modTrust_copies (s : State) (f : Trust → Trust) : (s.modTrust f).copies = s.copies := rfl
@[simp] theorem State.modTrust_engines (s : State) (f : Trust → Trust) : (s.modTrust f).engines = s.engines := rfl
@[simp] theorem State.modTrust_eq (s : State) (f : Trust → Trust) : (s.modTrust f).eq = s.eq := rfl
@[simp] theorem State.modTrust_faults (s : State) (f : Trust → Trust) : (s.modTrust f).faults = s.faults := rfl
@[simp] theorem State.modTrust_postings (s : State) (f : Trust → Trust) : (s.modTrust f).postings = s.postings := rfl
@[simp] theorem State.modTrust_busy (s : State) (f : Trust → Trust) : (s.modTrust f).busy = s.busy := rfl
@[simp] theorem State.modTrust_issued (s : State) (f : Trust → Trust) : (s.modTrust f).issued = s.issued := rfl
@[simp] theorem State.modTrust_fetched (s : State) (f : Trust → Trust) : (s.modTrust f).fetched = s.fetched := rfl
@[simp] theorem State.modTrust_inbox (s : State) (f : Trust → Trust) : (s.modTrust f).inbox = s.inbox := rfl
@[simp] theorem State.modTrust_out (s : State) (f : Trust → Trust) : (s.modTrust f).out = s.out := rfl
@[simp] theorem State.modTrust_draws (s : State) (f : Trust → Trust) : (s.modTrust f).draws = s.draws := rfl
@[simp] theorem State.modTrust_serial (s : State) (f : Trust → Trust) : (s.modTrust f).serial = s.serial := rfl
@[simp] theorem State.modTrust_nextId (s : State) (f : Trust → Trust) : (s.modTrust f).nextId = s.nextId := rfl
@[simp] theorem State.reply_now (s : State) (ctx : Nat) (id : Dword) (r : Int) : (s.reply ctx id r).now = s.now := rfl
@[simp] theorem State.reply_cur (s : State) (ctx : Nat) (id : Dword) (r : Int) : (s.reply ctx id r).cur = s.cur := rfl
@[simp] theorem State.reply_teams (s : State) (ctx : Nat) (id : Dword) (r : Int) : (s.reply ctx id r).teams = s.teams := rfl
@[simp] theorem State.reply_coolbox (s : State) (ctx : Nat) (id : Dword) (r : Int) : (s.reply ctx id r).coolbox = s.coolbox := rfl
@[simp] theorem State.reply_net (s : State) (ctx : Nat) (id : Dword) (r : Int) : (s.reply ctx id r).net = s.net := rfl
@[simp] theorem State.reply_homeHolds (s : State) (ctx : Nat) (id : Dword) (r : Int) : (s.reply ctx id r).homeHolds = s.homeHolds := rfl
@[simp] theorem State.reply_mem (s : State) (ctx : Nat) (id : Dword) (r : Int) : (s.reply ctx id r).mem = s.mem := rfl
@[simp] theorem State.reply_ctxs (s : State) (ctx : Nat) (id : Dword) (r : Int) : (s.reply ctx id r).ctxs = s.ctxs := rfl
@[simp] theorem State.reply_tables (s : State) (ctx : Nat) (id : Dword) (r : Int) : (s.reply ctx id r).tables = s.tables := rfl
@[simp] theorem State.reply_disp (s : State) (ctx : Nat) (id : Dword) (r : Int) : (s.reply ctx id r).disp = s.disp := rfl
@[simp] theorem State.reply_copies (s : State) (ctx : Nat) (id : Dword) (r : Int) : (s.reply ctx id r).copies = s.copies := rfl
@[simp] theorem State.reply_engines (s : State) (ctx : Nat) (id : Dword) (r : Int) : (s.reply ctx id r).engines = s.engines := rfl
@[simp] theorem State.reply_eq (s : State) (ctx : Nat) (id : Dword) (r : Int) : (s.reply ctx id r).eq = s.eq := rfl
@[simp] theorem State.reply_faults (s : State) (ctx : Nat) (id : Dword) (r : Int) : (s.reply ctx id r).faults = s.faults := rfl
@[simp] theorem State.reply_postings (s : State) (ctx : Nat) (id : Dword) (r : Int) : (s.reply ctx id r).postings = s.postings := rfl
@[simp] theorem State.reply_hub (s : State) (ctx : Nat) (id : Dword) (r : Int) : (s.reply ctx id r).hub =
  { s.hub with harts := s.hub.harts.map fun x => (x.1, x.2.answered ctx id (BitVec.ofInt 64 r)) } := rfl
@[simp] theorem State.reply_busy (s : State) (ctx : Nat) (id : Dword) (r : Int) : (s.reply ctx id r).busy = s.busy := rfl
@[simp] theorem State.reply_issued (s : State) (ctx : Nat) (id : Dword) (r : Int) : (s.reply ctx id r).issued = s.issued := rfl
@[simp] theorem State.reply_fetched (s : State) (ctx : Nat) (id : Dword) (r : Int) : (s.reply ctx id r).fetched = s.fetched := rfl
@[simp] theorem State.reply_inbox (s : State) (ctx : Nat) (id : Dword) (r : Int) : (s.reply ctx id r).inbox = s.inbox := rfl
@[simp] theorem State.reply_draws (s : State) (ctx : Nat) (id : Dword) (r : Int) : (s.reply ctx id r).draws = s.draws := rfl
@[simp] theorem State.reply_serial (s : State) (ctx : Nat) (id : Dword) (r : Int) : (s.reply ctx id r).serial = s.serial := rfl
@[simp] theorem State.reply_nextId (s : State) (ctx : Nat) (id : Dword) (r : Int) : (s.reply ctx id r).nextId = s.nextId := rfl
@[simp] theorem State.modThread_now (s : State) (j : Nat) (f : Thread → Thread) : (s.modThread j f).now = s.now := rfl
@[simp] theorem State.modThread_cur (s : State) (j : Nat) (f : Thread → Thread) : (s.modThread j f).cur = s.cur := rfl
@[simp] theorem State.modThread_teams (s : State) (j : Nat) (f : Thread → Thread) : (s.modThread j f).teams = s.teams := rfl
@[simp] theorem State.modThread_coolbox (s : State) (j : Nat) (f : Thread → Thread) : (s.modThread j f).coolbox = s.coolbox := rfl
@[simp] theorem State.modThread_net (s : State) (j : Nat) (f : Thread → Thread) : (s.modThread j f).net = s.net := rfl
@[simp] theorem State.modThread_homeHolds (s : State) (j : Nat) (f : Thread → Thread) : (s.modThread j f).homeHolds = s.homeHolds := rfl
@[simp] theorem State.modThread_mem (s : State) (j : Nat) (f : Thread → Thread) : (s.modThread j f).mem = s.mem := rfl
@[simp] theorem State.modThread_ctxs (s : State) (j : Nat) (f : Thread → Thread) : (s.modThread j f).ctxs = s.ctxs := rfl
@[simp] theorem State.modThread_tables (s : State) (j : Nat) (f : Thread → Thread) : (s.modThread j f).tables = s.tables := rfl
@[simp] theorem State.modThread_disp (s : State) (j : Nat) (f : Thread → Thread) : (s.modThread j f).disp = s.disp := rfl
@[simp] theorem State.modThread_copies (s : State) (j : Nat) (f : Thread → Thread) : (s.modThread j f).copies = s.copies := rfl
@[simp] theorem State.modThread_engines (s : State) (j : Nat) (f : Thread → Thread) : (s.modThread j f).engines = s.engines := rfl
@[simp] theorem State.modThread_eq (s : State) (j : Nat) (f : Thread → Thread) : (s.modThread j f).eq = s.eq := rfl
@[simp] theorem State.modThread_faults (s : State) (j : Nat) (f : Thread → Thread) : (s.modThread j f).faults = s.faults := rfl
@[simp] theorem State.modThread_postings (s : State) (j : Nat) (f : Thread → Thread) : (s.modThread j f).postings = s.postings := rfl
@[simp] theorem State.modThread_busy (s : State) (j : Nat) (f : Thread → Thread) : (s.modThread j f).busy = s.busy := rfl
@[simp] theorem State.modThread_issued (s : State) (j : Nat) (f : Thread → Thread) : (s.modThread j f).issued = s.issued := rfl
@[simp] theorem State.modThread_fetched (s : State) (j : Nat) (f : Thread → Thread) : (s.modThread j f).fetched = s.fetched := rfl
@[simp] theorem State.modThread_inbox (s : State) (j : Nat) (f : Thread → Thread) : (s.modThread j f).inbox = s.inbox := rfl
@[simp] theorem State.modThread_out (s : State) (j : Nat) (f : Thread → Thread) : (s.modThread j f).out = s.out := rfl
@[simp] theorem State.modThread_draws (s : State) (j : Nat) (f : Thread → Thread) : (s.modThread j f).draws = s.draws := rfl
@[simp] theorem State.modThread_serial (s : State) (j : Nat) (f : Thread → Thread) : (s.modThread j f).serial = s.serial := rfl
@[simp] theorem State.modThread_nextId (s : State) (j : Nat) (f : Thread → Thread) : (s.modThread j f).nextId = s.nextId := rfl
@[simp] theorem State.modLink_now (s : State) (c e : Nat) (f : LinkQueue → LinkQueue) : (s.modLink c e f).now = s.now := rfl
@[simp] theorem State.modLink_cur (s : State) (c e : Nat) (f : LinkQueue → LinkQueue) : (s.modLink c e f).cur = s.cur := rfl
@[simp] theorem State.modLink_teams (s : State) (c e : Nat) (f : LinkQueue → LinkQueue) : (s.modLink c e f).teams = s.teams := rfl
@[simp] theorem State.modLink_coolbox (s : State) (c e : Nat) (f : LinkQueue → LinkQueue) : (s.modLink c e f).coolbox = s.coolbox := rfl
@[simp] theorem State.modLink_net (s : State) (c e : Nat) (f : LinkQueue → LinkQueue) : (s.modLink c e f).net = s.net := rfl
@[simp] theorem State.modLink_homeHolds (s : State) (c e : Nat) (f : LinkQueue → LinkQueue) : (s.modLink c e f).homeHolds = s.homeHolds := rfl
@[simp] theorem State.modLink_mem (s : State) (c e : Nat) (f : LinkQueue → LinkQueue) : (s.modLink c e f).mem = s.mem := rfl
@[simp] theorem State.modLink_tables (s : State) (c e : Nat) (f : LinkQueue → LinkQueue) : (s.modLink c e f).tables = s.tables := rfl
@[simp] theorem State.modLink_disp (s : State) (c e : Nat) (f : LinkQueue → LinkQueue) : (s.modLink c e f).disp = s.disp := rfl
@[simp] theorem State.modLink_copies (s : State) (c e : Nat) (f : LinkQueue → LinkQueue) : (s.modLink c e f).copies = s.copies := rfl
@[simp] theorem State.modLink_engines (s : State) (c e : Nat) (f : LinkQueue → LinkQueue) : (s.modLink c e f).engines = s.engines := rfl
@[simp] theorem State.modLink_eq (s : State) (c e : Nat) (f : LinkQueue → LinkQueue) : (s.modLink c e f).eq = s.eq := rfl
@[simp] theorem State.modLink_faults (s : State) (c e : Nat) (f : LinkQueue → LinkQueue) : (s.modLink c e f).faults = s.faults := rfl
@[simp] theorem State.modLink_postings (s : State) (c e : Nat) (f : LinkQueue → LinkQueue) : (s.modLink c e f).postings = s.postings := rfl
@[simp] theorem State.modLink_hub (s : State) (c e : Nat) (f : LinkQueue → LinkQueue) : (s.modLink c e f).hub = s.hub := rfl
@[simp] theorem State.modLink_busy (s : State) (c e : Nat) (f : LinkQueue → LinkQueue) : (s.modLink c e f).busy = s.busy := rfl
@[simp] theorem State.modLink_issued (s : State) (c e : Nat) (f : LinkQueue → LinkQueue) : (s.modLink c e f).issued = s.issued := rfl
@[simp] theorem State.modLink_fetched (s : State) (c e : Nat) (f : LinkQueue → LinkQueue) : (s.modLink c e f).fetched = s.fetched := rfl
@[simp] theorem State.modLink_inbox (s : State) (c e : Nat) (f : LinkQueue → LinkQueue) : (s.modLink c e f).inbox = s.inbox := rfl
@[simp] theorem State.modLink_out (s : State) (c e : Nat) (f : LinkQueue → LinkQueue) : (s.modLink c e f).out = s.out := rfl
@[simp] theorem State.modLink_draws (s : State) (c e : Nat) (f : LinkQueue → LinkQueue) : (s.modLink c e f).draws = s.draws := rfl
@[simp] theorem State.modLink_serial (s : State) (c e : Nat) (f : LinkQueue → LinkQueue) : (s.modLink c e f).serial = s.serial := rfl
@[simp] theorem State.modLink_nextId (s : State) (c e : Nat) (f : LinkQueue → LinkQueue) : (s.modLink c e f).nextId = s.nextId := rfl
@[simp] theorem State.modQueue_now (s : State) (tile e : Nat) (f : TileQueue → TileQueue) : (s.modQueue tile e f).now = s.now := rfl
@[simp] theorem State.modQueue_cur (s : State) (tile e : Nat) (f : TileQueue → TileQueue) : (s.modQueue tile e f).cur = s.cur := rfl
@[simp] theorem State.modQueue_teams (s : State) (tile e : Nat) (f : TileQueue → TileQueue) : (s.modQueue tile e f).teams = s.teams := rfl
@[simp] theorem State.modQueue_coolbox (s : State) (tile e : Nat) (f : TileQueue → TileQueue) : (s.modQueue tile e f).coolbox = s.coolbox := rfl
@[simp] theorem State.modQueue_net (s : State) (tile e : Nat) (f : TileQueue → TileQueue) : (s.modQueue tile e f).net = s.net := rfl
@[simp] theorem State.modQueue_homeHolds (s : State) (tile e : Nat) (f : TileQueue → TileQueue) : (s.modQueue tile e f).homeHolds = s.homeHolds := rfl
@[simp] theorem State.modQueue_mem (s : State) (tile e : Nat) (f : TileQueue → TileQueue) : (s.modQueue tile e f).mem = s.mem := rfl
@[simp] theorem State.modQueue_ctxs (s : State) (tile e : Nat) (f : TileQueue → TileQueue) : (s.modQueue tile e f).ctxs = s.ctxs := rfl
@[simp] theorem State.modQueue_disp (s : State) (tile e : Nat) (f : TileQueue → TileQueue) : (s.modQueue tile e f).disp = s.disp := rfl
@[simp] theorem State.modQueue_copies (s : State) (tile e : Nat) (f : TileQueue → TileQueue) : (s.modQueue tile e f).copies = s.copies := rfl
@[simp] theorem State.modQueue_engines (s : State) (tile e : Nat) (f : TileQueue → TileQueue) : (s.modQueue tile e f).engines = s.engines := rfl
@[simp] theorem State.modQueue_eq (s : State) (tile e : Nat) (f : TileQueue → TileQueue) : (s.modQueue tile e f).eq = s.eq := rfl
@[simp] theorem State.modQueue_faults (s : State) (tile e : Nat) (f : TileQueue → TileQueue) : (s.modQueue tile e f).faults = s.faults := rfl
@[simp] theorem State.modQueue_postings (s : State) (tile e : Nat) (f : TileQueue → TileQueue) : (s.modQueue tile e f).postings = s.postings := rfl
@[simp] theorem State.modQueue_hub (s : State) (tile e : Nat) (f : TileQueue → TileQueue) : (s.modQueue tile e f).hub = s.hub := rfl
@[simp] theorem State.modQueue_busy (s : State) (tile e : Nat) (f : TileQueue → TileQueue) : (s.modQueue tile e f).busy = s.busy := rfl
@[simp] theorem State.modQueue_issued (s : State) (tile e : Nat) (f : TileQueue → TileQueue) : (s.modQueue tile e f).issued = s.issued := rfl
@[simp] theorem State.modQueue_fetched (s : State) (tile e : Nat) (f : TileQueue → TileQueue) : (s.modQueue tile e f).fetched = s.fetched := rfl
@[simp] theorem State.modQueue_inbox (s : State) (tile e : Nat) (f : TileQueue → TileQueue) : (s.modQueue tile e f).inbox = s.inbox := rfl
@[simp] theorem State.modQueue_out (s : State) (tile e : Nat) (f : TileQueue → TileQueue) : (s.modQueue tile e f).out = s.out := rfl
@[simp] theorem State.modQueue_draws (s : State) (tile e : Nat) (f : TileQueue → TileQueue) : (s.modQueue tile e f).draws = s.draws := rfl
@[simp] theorem State.modQueue_serial (s : State) (tile e : Nat) (f : TileQueue → TileQueue) : (s.modQueue tile e f).serial = s.serial := rfl
@[simp] theorem State.modQueue_nextId (s : State) (tile e : Nat) (f : TileQueue → TileQueue) : (s.modQueue tile e f).nextId = s.nextId := rfl
@[simp] theorem State.modEntry_now (s : State) (i : Nat) (f : TimeEntry → TimeEntry) : (s.modEntry i f).now = s.now := rfl
@[simp] theorem State.modEntry_cur (s : State) (i : Nat) (f : TimeEntry → TimeEntry) : (s.modEntry i f).cur = s.cur := rfl
@[simp] theorem State.modEntry_teams (s : State) (i : Nat) (f : TimeEntry → TimeEntry) : (s.modEntry i f).teams = s.teams := rfl
@[simp] theorem State.modEntry_coolbox (s : State) (i : Nat) (f : TimeEntry → TimeEntry) : (s.modEntry i f).coolbox = s.coolbox := rfl
@[simp] theorem State.modEntry_net (s : State) (i : Nat) (f : TimeEntry → TimeEntry) : (s.modEntry i f).net = s.net := rfl
@[simp] theorem State.modEntry_homeHolds (s : State) (i : Nat) (f : TimeEntry → TimeEntry) : (s.modEntry i f).homeHolds = s.homeHolds := rfl
@[simp] theorem State.modEntry_mem (s : State) (i : Nat) (f : TimeEntry → TimeEntry) : (s.modEntry i f).mem = s.mem := rfl
@[simp] theorem State.modEntry_ctxs (s : State) (i : Nat) (f : TimeEntry → TimeEntry) : (s.modEntry i f).ctxs = s.ctxs := rfl
@[simp] theorem State.modEntry_tables (s : State) (i : Nat) (f : TimeEntry → TimeEntry) : (s.modEntry i f).tables = s.tables := rfl
@[simp] theorem State.modEntry_copies (s : State) (i : Nat) (f : TimeEntry → TimeEntry) : (s.modEntry i f).copies = s.copies := rfl
@[simp] theorem State.modEntry_engines (s : State) (i : Nat) (f : TimeEntry → TimeEntry) : (s.modEntry i f).engines = s.engines := rfl
@[simp] theorem State.modEntry_eq (s : State) (i : Nat) (f : TimeEntry → TimeEntry) : (s.modEntry i f).eq = s.eq := rfl
@[simp] theorem State.modEntry_faults (s : State) (i : Nat) (f : TimeEntry → TimeEntry) : (s.modEntry i f).faults = s.faults := rfl
@[simp] theorem State.modEntry_postings (s : State) (i : Nat) (f : TimeEntry → TimeEntry) : (s.modEntry i f).postings = s.postings := rfl
@[simp] theorem State.modEntry_hub (s : State) (i : Nat) (f : TimeEntry → TimeEntry) : (s.modEntry i f).hub = s.hub := rfl
@[simp] theorem State.modEntry_busy (s : State) (i : Nat) (f : TimeEntry → TimeEntry) : (s.modEntry i f).busy = s.busy := rfl
@[simp] theorem State.modEntry_issued (s : State) (i : Nat) (f : TimeEntry → TimeEntry) : (s.modEntry i f).issued = s.issued := rfl
@[simp] theorem State.modEntry_fetched (s : State) (i : Nat) (f : TimeEntry → TimeEntry) : (s.modEntry i f).fetched = s.fetched := rfl
@[simp] theorem State.modEntry_inbox (s : State) (i : Nat) (f : TimeEntry → TimeEntry) : (s.modEntry i f).inbox = s.inbox := rfl
@[simp] theorem State.modEntry_out (s : State) (i : Nat) (f : TimeEntry → TimeEntry) : (s.modEntry i f).out = s.out := rfl
@[simp] theorem State.modEntry_draws (s : State) (i : Nat) (f : TimeEntry → TimeEntry) : (s.modEntry i f).draws = s.draws := rfl
@[simp] theorem State.modEntry_serial (s : State) (i : Nat) (f : TimeEntry → TimeEntry) : (s.modEntry i f).serial = s.serial := rfl
@[simp] theorem State.modEntry_nextId (s : State) (i : Nat) (f : TimeEntry → TimeEntry) : (s.modEntry i f).nextId = s.nextId := rfl
@[simp] theorem State.modWork_now (s : State) (id : Nat) (f : Work → Work) : (s.modWork id f).now = s.now := rfl
@[simp] theorem State.modWork_cur (s : State) (id : Nat) (f : Work → Work) : (s.modWork id f).cur = s.cur := rfl
@[simp] theorem State.modWork_teams (s : State) (id : Nat) (f : Work → Work) : (s.modWork id f).teams = s.teams := rfl
@[simp] theorem State.modWork_coolbox (s : State) (id : Nat) (f : Work → Work) : (s.modWork id f).coolbox = s.coolbox := rfl
@[simp] theorem State.modWork_net (s : State) (id : Nat) (f : Work → Work) : (s.modWork id f).net = s.net := rfl
@[simp] theorem State.modWork_homeHolds (s : State) (id : Nat) (f : Work → Work) : (s.modWork id f).homeHolds = s.homeHolds := rfl
@[simp] theorem State.modWork_mem (s : State) (id : Nat) (f : Work → Work) : (s.modWork id f).mem = s.mem := rfl
@[simp] theorem State.modWork_ctxs (s : State) (id : Nat) (f : Work → Work) : (s.modWork id f).ctxs = s.ctxs := rfl
@[simp] theorem State.modWork_tables (s : State) (id : Nat) (f : Work → Work) : (s.modWork id f).tables = s.tables := rfl
@[simp] theorem State.modWork_copies (s : State) (id : Nat) (f : Work → Work) : (s.modWork id f).copies = s.copies := rfl
@[simp] theorem State.modWork_engines (s : State) (id : Nat) (f : Work → Work) : (s.modWork id f).engines = s.engines := rfl
@[simp] theorem State.modWork_eq (s : State) (id : Nat) (f : Work → Work) : (s.modWork id f).eq = s.eq := rfl
@[simp] theorem State.modWork_faults (s : State) (id : Nat) (f : Work → Work) : (s.modWork id f).faults = s.faults := rfl
@[simp] theorem State.modWork_postings (s : State) (id : Nat) (f : Work → Work) : (s.modWork id f).postings = s.postings := rfl
@[simp] theorem State.modWork_hub (s : State) (id : Nat) (f : Work → Work) : (s.modWork id f).hub = s.hub := rfl
@[simp] theorem State.modWork_busy (s : State) (id : Nat) (f : Work → Work) : (s.modWork id f).busy = s.busy := rfl
@[simp] theorem State.modWork_issued (s : State) (id : Nat) (f : Work → Work) : (s.modWork id f).issued = s.issued := rfl
@[simp] theorem State.modWork_fetched (s : State) (id : Nat) (f : Work → Work) : (s.modWork id f).fetched = s.fetched := rfl
@[simp] theorem State.modWork_inbox (s : State) (id : Nat) (f : Work → Work) : (s.modWork id f).inbox = s.inbox := rfl
@[simp] theorem State.modWork_out (s : State) (id : Nat) (f : Work → Work) : (s.modWork id f).out = s.out := rfl
@[simp] theorem State.modWork_draws (s : State) (id : Nat) (f : Work → Work) : (s.modWork id f).draws = s.draws := rfl
@[simp] theorem State.modWork_serial (s : State) (id : Nat) (f : Work → Work) : (s.modWork id f).serial = s.serial := rfl
@[simp] theorem State.modWork_nextId (s : State) (id : Nat) (f : Work → Work) : (s.modWork id f).nextId = s.nextId := rfl
@[simp] theorem State.poisonWord_now (s : State) (key : Nat) : (s.poisonWord key).now = s.now := rfl
@[simp] theorem State.poisonWord_cur (s : State) (key : Nat) : (s.poisonWord key).cur = s.cur := rfl
@[simp] theorem State.poisonWord_teams (s : State) (key : Nat) : (s.poisonWord key).teams = s.teams := rfl
@[simp] theorem State.poisonWord_coolbox (s : State) (key : Nat) : (s.poisonWord key).coolbox = s.coolbox := rfl
@[simp] theorem State.poisonWord_net (s : State) (key : Nat) : (s.poisonWord key).net = s.net := rfl
@[simp] theorem State.poisonWord_homeHolds (s : State) (key : Nat) : (s.poisonWord key).homeHolds = s.homeHolds := rfl
@[simp] theorem State.poisonWord_ctxs (s : State) (key : Nat) : (s.poisonWord key).ctxs = s.ctxs := rfl
@[simp] theorem State.poisonWord_tables (s : State) (key : Nat) : (s.poisonWord key).tables = s.tables := rfl
@[simp] theorem State.poisonWord_disp (s : State) (key : Nat) : (s.poisonWord key).disp = s.disp := rfl
@[simp] theorem State.poisonWord_copies (s : State) (key : Nat) : (s.poisonWord key).copies = s.copies := rfl
@[simp] theorem State.poisonWord_engines (s : State) (key : Nat) : (s.poisonWord key).engines = s.engines := rfl
@[simp] theorem State.poisonWord_eq (s : State) (key : Nat) : (s.poisonWord key).eq = s.eq := rfl
@[simp] theorem State.poisonWord_faults (s : State) (key : Nat) : (s.poisonWord key).faults = s.faults := rfl
@[simp] theorem State.poisonWord_postings (s : State) (key : Nat) : (s.poisonWord key).postings = s.postings := rfl
@[simp] theorem State.poisonWord_hub (s : State) (key : Nat) : (s.poisonWord key).hub = s.hub := rfl
@[simp] theorem State.poisonWord_busy (s : State) (key : Nat) : (s.poisonWord key).busy = s.busy := rfl
@[simp] theorem State.poisonWord_issued (s : State) (key : Nat) : (s.poisonWord key).issued = s.issued := rfl
@[simp] theorem State.poisonWord_fetched (s : State) (key : Nat) : (s.poisonWord key).fetched = s.fetched := rfl
@[simp] theorem State.poisonWord_inbox (s : State) (key : Nat) : (s.poisonWord key).inbox = s.inbox := rfl
@[simp] theorem State.poisonWord_out (s : State) (key : Nat) : (s.poisonWord key).out = s.out := rfl
@[simp] theorem State.poisonWord_draws (s : State) (key : Nat) : (s.poisonWord key).draws = s.draws := rfl
@[simp] theorem State.poisonWord_serial (s : State) (key : Nat) : (s.poisonWord key).serial = s.serial := rfl
@[simp] theorem State.poisonWord_nextId (s : State) (key : Nat) : (s.poisonWord key).nextId = s.nextId := rfl
@[simp] theorem State.dropWork_now (s : State) (id : Nat) : (s.dropWork id).now = s.now := rfl
@[simp] theorem State.dropWork_cur (s : State) (id : Nat) : (s.dropWork id).cur = s.cur := rfl
@[simp] theorem State.dropWork_teams (s : State) (id : Nat) : (s.dropWork id).teams = s.teams := rfl
@[simp] theorem State.dropWork_coolbox (s : State) (id : Nat) : (s.dropWork id).coolbox = s.coolbox := rfl
@[simp] theorem State.dropWork_net (s : State) (id : Nat) : (s.dropWork id).net = s.net := rfl
@[simp] theorem State.dropWork_homeHolds (s : State) (id : Nat) : (s.dropWork id).homeHolds = s.homeHolds := rfl
@[simp] theorem State.dropWork_mem (s : State) (id : Nat) : (s.dropWork id).mem = s.mem := rfl
@[simp] theorem State.dropWork_ctxs (s : State) (id : Nat) : (s.dropWork id).ctxs = s.ctxs := rfl
@[simp] theorem State.dropWork_tables (s : State) (id : Nat) : (s.dropWork id).tables = s.tables := rfl
@[simp] theorem State.dropWork_copies (s : State) (id : Nat) : (s.dropWork id).copies = s.copies := rfl
@[simp] theorem State.dropWork_engines (s : State) (id : Nat) : (s.dropWork id).engines = s.engines := rfl
@[simp] theorem State.dropWork_eq (s : State) (id : Nat) : (s.dropWork id).eq = s.eq := rfl
@[simp] theorem State.dropWork_faults (s : State) (id : Nat) : (s.dropWork id).faults = s.faults := rfl
@[simp] theorem State.dropWork_postings (s : State) (id : Nat) : (s.dropWork id).postings = s.postings := rfl
@[simp] theorem State.dropWork_hub (s : State) (id : Nat) : (s.dropWork id).hub = s.hub := rfl
@[simp] theorem State.dropWork_busy (s : State) (id : Nat) : (s.dropWork id).busy = s.busy := rfl
@[simp] theorem State.dropWork_issued (s : State) (id : Nat) : (s.dropWork id).issued = s.issued := rfl
@[simp] theorem State.dropWork_fetched (s : State) (id : Nat) : (s.dropWork id).fetched = s.fetched := rfl
@[simp] theorem State.dropWork_inbox (s : State) (id : Nat) : (s.dropWork id).inbox = s.inbox := rfl
@[simp] theorem State.dropWork_out (s : State) (id : Nat) : (s.dropWork id).out = s.out := rfl
@[simp] theorem State.dropWork_draws (s : State) (id : Nat) : (s.dropWork id).draws = s.draws := rfl
@[simp] theorem State.dropWork_serial (s : State) (id : Nat) : (s.dropWork id).serial = s.serial := rfl
@[simp] theorem State.dropWork_nextId (s : State) (id : Nat) : (s.dropWork id).nextId = s.nextId := rfl
@[simp] theorem Team.setArch_id (t : Team) (f : Arch → Arch) : (t.setArch f).id = t.id := rfl
@[simp] theorem Team.setArch_status (t : Team) (f : Arch → Arch) : (t.setArch f).status = t.status := rfl
@[simp] theorem Team.setArch_shadow (t : Team) (f : Arch → Arch) : (t.setArch f).shadow = t.shadow := rfl
@[simp] theorem Team.setArch_frames (t : Team) (f : Arch → Arch) : (t.setArch f).frames = t.frames := rfl
@[simp] theorem Team.setArch_ckpts (t : Team) (f : Arch → Arch) : (t.setArch f).ckpts = t.ckpts := rfl
@[simp] theorem Team.setArch_pend (t : Team) (f : Arch → Arch) : (t.setArch f).pend = t.pend := rfl
@[simp] theorem Team.setArch_deferred (t : Team) (f : Arch → Arch) : (t.setArch f).deferred = t.deferred := rfl
@[simp] theorem Team.setArch_park (t : Team) (f : Arch → Arch) : (t.setArch f).park = t.park := rfl
@[simp] theorem Team.setArch_wait (t : Team) (f : Arch → Arch) : (t.setArch f).wait = t.wait := rfl
@[simp] theorem Team.setArch_sys (t : Team) (f : Arch → Arch) : (t.setArch f).sys = t.sys := rfl
@[simp] theorem Team.setArch_sched (t : Team) (f : Arch → Arch) : (t.setArch f).sched = t.sched := rfl
@[simp] theorem Team.setArch_score (t : Team) (f : Arch → Arch) : (t.setArch f).score = t.score := rfl
@[simp] theorem Team.setArch_openBatch (t : Team) (f : Arch → Arch) : (t.setArch f).openBatch = t.openBatch := rfl
@[simp] theorem Team.setArch_tags (t : Team) (f : Arch → Arch) : (t.setArch f).tags = t.tags := rfl
@[simp] theorem Team.setArch_batchLog (t : Team) (f : Arch → Arch) : (t.setArch f).batchLog = t.batchLog := rfl
@[simp] theorem Team.setArch_grants (t : Team) (f : Arch → Arch) : (t.setArch f).grants = t.grants := rfl
@[simp] theorem Team.setArch_wants (t : Team) (f : Arch → Arch) : (t.setArch f).wants = t.wants := rfl
@[simp] theorem Team.setArch_children (t : Team) (f : Arch → Arch) : (t.setArch f).children = t.children := rfl
@[simp] theorem Team.setArch_fence (t : Team) (f : Arch → Arch) : (t.setArch f).fence = t.fence := rfl
@[simp] theorem Team.setArch_arch (t : Team) (f : Arch → Arch) : (t.setArch f).arch = f t.arch := rfl
@[simp] theorem State.memStore_mem (s : State) (key : Nat) (data : List (Byte × Bool)) : (s.memStore key data).mem = s.mem.store key data := rfl
@[simp] theorem State.poisonWord_mem (s : State) (key : Nat) : (s.poisonWord key).mem = s.mem.setPoison key true := rfl
@[simp] theorem State.modClock_hub (s : State) (f : Clock → Clock) : (s.modClock f).hub = { s.hub with clock := f s.hub.clock } := rfl
@[simp] theorem State.modPower_hub (s : State) (f : Power → Power) : (s.modPower f).hub = { s.hub with power := f s.hub.power } := rfl
@[simp] theorem State.modTrust_hub (s : State) (f : Trust → Trust) : (s.modTrust f).hub = { s.hub with trust := f s.hub.trust } := rfl
@[simp] theorem State.modCopy_copies (s : State) (cid : Nat) (f : Copy → Copy) : (s.modCopy cid f).copies = modifyWhere (fun c => c.cid == cid) f s.copies := rfl
@[simp] theorem State.reply_out (s : State) (ctx : Nat) (id : Dword) (r : Int) : (s.reply ctx id r).out = s.out ++ [.reply ctx id (BitVec.ofInt 64 r)] := rfl

end Sys2Proof.Machine
end

