-- ==== Sys2Proof/Tests/Slice0.lean ====
section
/-! SUPPORT. Tests: ill-formed instructions are refused, words decode as the spec writes them, and every statement with hypotheses has a
state that meets them. -/

namespace Sys2Proof.Tests
open Sys2Proof Sys2Proof.Machine
set_option Elab.async false

/-! ### States of the tests -/

/-- A machine with one running team: 16 lanes, one group at 0x10000, the first GiB mapped onto itself. -/
def demo : State := State.reset.placed []

/-- `s` with a uniform register set. -/
def withK (s : State) (n : Nat) (v : Word) : State := { s with cur := s.cur.setArch fun a => { a with k := a.k.set n ⟨v, false⟩ } }

/-- `s` with a frame slot set in every lane. -/
def withF (s : State) (n : Nat) (v : Word) (p : Bool) : State :=
  { s with cur := { s.cur with frames := s.cur.frames.map fun f => { f with slots := fput PWord.zero f.slots n ⟨v, p⟩ } } }

/-- `s` with the team's mode set. -/
def withMode (s : State) (m : Mode) : State := { s with cur := s.cur.setArch fun a => { a with mode := m } }

/-- Does an instruction issue in a state, with operands and a state of which `p` holds? -/
def issues (i : Instr) (s : State) (p : Issue → State → Bool) : Bool := match prepare i s with
  | .ok (o, s1) => p o s1
  | .error _ => false

theorem issues_ok {i : Instr} {s : State} {p : Issue → State → Bool} (h : issues i s p = true) :
    ∃ o s1, prepare i s = .ok (o, s1) ∧ p o s1 = true := by
  unfold issues at h
  split at h
  · exact ⟨_, _, by assumption, h⟩
  · cases h

/-- An instruction issues in a state, with operands and a state that have a property. -/
def Shows (i : Instr) (s : State) (p : Issue → State → Prop) : Prop := ∃ o s1, prepare i s = .ok (o, s1) ∧ p o s1

theorem shows_dec {i : Instr} {s : State} (p : Issue → State → Prop) [∀ o s1, Decidable (p o s1)]
    (h : issues i s (fun o s1 => decide (p o s1)) = true) : Shows i s p := by
  obtain ⟨o, s1, h1, h2⟩ := issues_ok h
  exact ⟨o, s1, h1, of_decide_eq_true h2⟩

theorem Shows.imp {i : Instr} {s : State} {p q : Issue → State → Prop} (h : Shows i s p) (hq : ∀ o s1, p o s1 → q o s1) : Shows i s q := by
  obtain ⟨o, s1, h1, h2⟩ := h
  exact ⟨o, s1, h1, hq o s1 h2⟩

/-- The mode whose guard no lane's codes satisfy. -/
def nvMode : Mode := (0xF#4 ++ 0#17 : BitVec 21)

/-- The address 0x20000 in the pair f0 of every lane. -/
def demoData : State := withF demo 0 0x20000 false

/-- Every lane has been called once, with shift 8 and the return PC 0x10000. -/
def demoCalled : State :=
  let s := withF (withF demo 6 0x10000 false) 7 0x80000 false
  { s with cur := s.cur.setArch fun a => { a with lanes := List.replicate 16 { Lane.zero with fp := 8, depth := 1 } } }

/-- A REP of three iterations stands at the PC, before `add.n32 f4, f5, f6`. -/
def demoRep : State := State.reset.placed (toBytes 4 0x00610240 ++ toBytes 4 0x10010286)

/-- Macro 2 of the tile's control store is not empty. -/
def demoMacro : State := { demo with tables := { demo.tables with store := [(64, 0x00200000)] } }

/-- Every lane's codes carry poison, under the guard z, with one checkpoint. -/
def demoPoisoned : State :=
  let s := withMode demo (0x1#4 ++ 0#17 : BitVec 21)
  let poisoned := s.cur.setArch fun a => { a with lanes := List.replicate 16 { Lane.zero with cc := ⟨false, false, false, false, true⟩ } }
  { s with cur := { poisoned with ckpts := [⟨1, 0, false, demo.cur.arch⟩] } }

/-- The first GiB has the MX attribute, and the mode's type is a narrow format. -/
def demoMx : State :=
  let s := withMode demoData 0x6000
  { s with mem := s.mem.write 0x2000 (toBytes 8 0xF200000000000002) }

/-- A live forest of 8 elements, its descriptor at 0x30000, its arrays at 0x31000, 0x32000 and 0x33000. -/
def demoDescriptor : State := { demo with mem := demo.mem.write 0x30000 (toBytes 8 0x31000 ++ toBytes 8 0x32000 ++ toBytes 4 8 ++ toBytes 4 8 ++ toBytes 8 0x33000 ++ toBytes 4 16) }
def theForest : Forest := ⟨90, 0, 1, 0x30000, 0x30000, 8, 0x31000, 0x32000, 0x33000, 16, 0, 0, 8, 1, 0, []⟩
def demoForest : State := { demoDescriptor with
  mem := demoDescriptor.mem.write 0x30030 (toBytes 4 1)
  eq := { demo.eq with forests := [theForest] }
  cur := demo.cur.setArch fun a => { a with forest := some 90 } }

/-- The team's group has a window of 4 KiB and a share of the matrix engine. -/
def theGroup : GroupRt := ⟨1, 1, 0, 0, 0, 0, 0, 0, none, 0, 4096, 1, 0, 16, none, none⟩
def demoMatrix : State := { demo with disp := { demo.disp with groups := [theGroup] } }

/-- Channel 0 of that group, with 16 rows and a ring of 16 slots. -/
def demoChannel : State := demoMatrix.modEngine 0 fun e => { e with channels := [⟨0, 1, 1, 0, 4096, 0, 16, 0, 16, 3, [0, 0, 0, 0], [0, 0, 0, 0], 0, false, false, 16, 0⟩] }

/-! ### Ill-formed instructions are refused -/

theorem test_wf_atomic_operation : (Instr.atom 11 0 4 68 0 0 0).wf = false := by decide +kernel
theorem test_wf_reduction_operation : (Instr.ared 15 0 73 68 112 0).wf = false := by decide +kernel
theorem test_wf_load_type : (Instr.ld 6 4 68 0 0 0).wf = false := by decide +kernel
theorem test_wf_branch_displacement : (Instr.bra 2).wf = false := by decide +kernel
theorem test_wf_call_displacement : (Instr.call 4 1).wf = false := by decide +kernel
theorem test_wf_literal_without_field : (Instr.add 0 0 4 5 6 7).wf = false := by decide +kernel
theorem test_wf_second_literal : (Instr.ldi 0 4 1 1).wf = false := by decide +kernel
theorem test_wf_add : (Instr.add 0 0 4 5 6 0).wf = true := by decide +kernel

/-! ### Words written out bit by bit: opcode in bits 31:21, then d, a and b of 7 bits each (R41, Tables 3-5 to 3-14) -/

theorem test_decode_control_ret : decode 0b00000001000_0000000_0000000_0000000 0 0 = .ok (.ret) := rfl
theorem test_decode_control_callr : decode 0b00000000111_0001000_0001010_0000000 0 0 = .ok (.callr 8 10) := rfl
theorem test_decode_control_rep : decode 0b00000000011_000010_000_001_001_000000 0 0 = .ok (.rep 2 0 1 1) := rfl
theorem test_decode_control_mode : decode 0b00000000001_0000000_0000000_0000000 0 0 = .ok (.nop) := rfl
theorem test_decode_integer : decode 0b00010000000_0000100_0000101_0000110 0 0 = .ok (.add 0 0 4 5 6 0) := rfl
theorem test_decode_integer_long : decode 0b00010100100_0000100_0000110_0010000 0 0 = .ok (.div 1 0 0 4 6 2 0) := rfl
theorem test_decode_integer_two_literals : decode 0b00011001111_0000100_1111111_0000000 2309737967 19088743 = .ok (.ldi 1 4 0x89ABCDEF 0x01234567) := rfl
theorem test_decode_cross_lane : decode 0b00100001000_0000100_0000101_0000000 0 0 = .ok (.voteSome 4 5 0) := rfl
theorem test_decode_floating : decode 0b00110000000_0000010_0000100_0000101 0 0 = .ok (.fadd 0 2 4 5 0) := rfl
theorem test_decode_special : decode 0b01000000000_0000110_0001000_0011000 0 0 = .ok (.sinpi 6 8 3 0) := rfl
theorem test_decode_format_load : decode 0b01000010000_0000000_1000100_0001100 8 0 = .ok (.fmtld 68 1 1 8) := rfl
theorem test_decode_memory : decode 0b01010011001_0000011_0000000_0000000 0 0 = .ok (.fence 3) := rfl
theorem test_decode_acquire : decode 0b01010001010_0000100_1000100_0000000 0 0 = .ok (.acq 4 68 0 0 0) := rfl
theorem test_decode_atomic : decode 0b01100011001_0000110_1000100_0000101 8 0 = .ok (.afmm 6 68 0 1 1 8) := rfl
theorem test_decode_barrier : decode 0b01110010000_1001001_1011110_1111111 64 0 = .ok (.binit 73 94 127 64) := rfl
theorem test_decode_matrix : decode 0b10000000010_1000010_1001000_0000000 0 0 = .ok (.mma 66 72 0) := rfl
theorem test_decode_queue : decode 0b10010000000_1100000_1000000_0000000 0 0 = .ok (.qmap 96 64 0) := rfl
theorem test_decode_launch : decode 0b10010010000_0000110_0001010_1110000 0 0 = .ok (.spawn 6 10 112 0) := rfl
theorem test_decode_equivalence : decode 0b10100000001_0000100_0000101_0001000 0 0 = .ok (.unite 4 5 1 0) := rfl
theorem test_decode_system : decode 0b10110000100_1000010_1000000_0000000 0 0 = .ok (.sysc 66 64 0) := rfl
theorem test_decode_privileged : decode 0b10110010000_0000000_1001000_1111111 16 0 = .ok (.bind 72 127 16) := rfl
theorem test_decode_zero_word : decode 0 0 0 = .error .zeroWord := rfl
theorem test_decode_unassigned : decode 0b00000001011_0000000_0000000_0000000 0 0 = .error .illegalOpcode := rfl
theorem test_decode_unused_field : decode 0b00000001000_0000001_0000000_0000000 0 0 = .error .illegalEncoding := rfl

/-! ### Results that the spec writes out -/

/-- E3 to E6 (the example after R154): e4m3 of 1.0, 0.3, −500.0 saturated and 0.001. -/
theorem test_pack_e4m3 : ((fmtOf 6 0x07073408).round ⟨0, false, true, 0⟩ (Fmt.f32.read false 0x3F800000)).1 = 0x38 ∧
    ((fmtOf 6 0x07073408).round ⟨0, false, true, 0⟩ (Fmt.f32.read false 0x3E99999A)).1 = 0x2A ∧
    ((fmtOf 6 0x07073408).round ⟨0, false, true, 0⟩ (Fmt.f32.read false 0xC3FA0000)).1 = 0xFE ∧
    ((fmtOf 6 0x07073408).round ⟨0, false, true, 0⟩ (Fmt.f32.read false 0x3A83126F)).1 = 0x01 := by decide +kernel
/-- E8: UNPACK of 0xFE. -/
theorem test_unpack_e4m3 : (Fmt.f32.round ⟨0, false, false, 0⟩ ((fmtOf 6 0x07073408).read false 0xFE)).1 = 0xC3E00000 := by decide +kernel
/-- R141: two steps of SEED from 1. -/
theorem test_seed : seedStep 1 = 0x00042021 ∧ seedStep 0x00042021 = 0x04080601 := by decide +kernel
/-- F2 and F3 (the example of chapter 7): lane 1's zeros and lane 2's NaN. -/
theorem test_fmin : (Fmt.f32.minMax ⟨0, false, false, 0⟩ false true 0x80000000 0).1 = 0x80000000 ∧
    (Fmt.f32.minMax ⟨0, false, false, 0⟩ false true 0x7FC00001 0x40000000).1 = 0x40000000 ∧
    (Fmt.f32.minMax ⟨0, false, false, 0⟩ false false 0x7FC00001 0x40000000).1 = 0x7FC00000 := by decide +kernel
/-- F8: division by zero and zero by zero. -/
theorem test_fdiv : Fmt.f32.fdiv ⟨0, false, false, 0⟩ 0x40400000 0 = (0x7F800000, DZ) ∧ Fmt.f32.fdiv ⟨0, false, false, 0⟩ 0x80000000 0 = (0x7FC00000, NV) := by decide +kernel
/-- Table 5-10: 1.0 + 2^−24 ties to even. -/
theorem test_fadd_tie : (Fmt.f32.fadd ⟨0, false, false, 0⟩ 0x3F800000 0x33800000).1 = 0x3F800000 := by decide +kernel
/-- Table 5-3: a sum that wraps sets Z and C and not V. -/
theorem test_add_wraps : addCodes (0xFFFFFFFF : Word) 1 false = (0, ⟨false, true, true, false, false⟩) := by decide +kernel
/-- R110: the most negative number by −1. -/
theorem test_div_overflow : (divRem true (0x80000000 : Word) 0xFFFFFFFF).1 = 0x80000000 := by decide +kernel
/-- R113: BFX of .s sign-extends, from a position at w copies of the sign bit. -/
theorem test_bfx : bitExtract true (0x000000F0 : Word) 0x0404 = 0xFFFFFFFF ∧ bitExtract true (0x80000000 : Word) 0x0820 = 0xFFFFFFFF ∧
    bitExtract false (0x80000000 : Word) 0x0820 = 0 := by decide +kernel
/-- R192: CRC-32C of "123456789" is 0xE3069283. -/
theorem test_crc32c : ([0x31, 0x32, 0x33, 0x34, 0x35, 0x36, 0x37, 0x38, 0x39].foldl crcByte 0xFFFFFFFF) ^^^ 0xFFFFFFFF = 0xE3069283 := by decide +kernel
/-- R77: one step of a branch backward. -/
theorem test_bra_step : (match step (State.reset.placed (toBytes 4 0x00800000 ++ toBytes 4 0xFFFFFFF0)) with
    | .next t => t.cur.arch.groups.map (·.pc)
    | _ => []) = [0xFFF0] := by decide +kernel
/-- R111, R112: one step of `mov.b32 f4, lane`. -/
theorem test_mov_step : (match step (State.reset.placed (toBytes 4 (wordT 0x0CC 4 113 0).toNat)) with
    | .next t => (t.cur.slotWord 3 4, t.cur.arch.groups.map (·.pc))
    | _ => (PWord.zero, [])) = (⟨3, false⟩, [0x10004]) := by decide +kernel

/-- A machine whose thread 0 of Ranger runs in machine mode at 0x10000. -/
def demoHart (code : List Byte) : State :=
  let s := State.reset.placed code
  { s with cur := Team.empty, hub := { s.hub with harts := [(0, { Hart.reset with run := true, pc := 0x10000 })] } }
/-- R365 (RV64GC): `addi x5, x0, 7`, and the compressed `c.li x5, -3`. -/
theorem test_hart_addi : (match step (demoHart (toBytes 4 0x00700293)) with
    | .next t => ((t.hart 0).x.getD 5 0, (t.hart 0).pc)
    | _ => (0, 0)) = (7, 0x10004) := by decide +kernel
theorem test_hart_compressed : (match step (demoHart (toBytes 4 0x52F5)) with
    | .next t => ((t.hart 0).x.getD 5 0, (t.hart 0).pc)
    | _ => (0, 0)) = (0xFFFFFFFFFFFFFFFD, 0x10002) := by decide +kernel

/-! ### Witnesses: a state and operands that meet the hypotheses of a statement -/

theorem witness_DecodeInvertsEncode : ∃ i w, i.wf = true ∧ encodeWord i = some w := ⟨.add 0 0 4 5 6 0, _, by decide +kernel, rfl⟩
theorem witness_IssuesWhenReady : ∃ i s g w s1, ReadyToIssue i s g w s1 := by
  let g : Group := ⟨0x10000, maskOf (List.range 16), 0, 0, sigReset, true⟩
  have h : demo.moves (.add 0 0 1 2 3 0) g demo.cur = [] := by decide +kernel
  exact ⟨.add 0 0 1 2 3 0, demo, g, _, demo, rfl, rfl, rfl, .inl rfl, rfl, by decide +kernel, by decide +kernel, by decide +kernel, by decide +kernel,
    by rw [h]; rfl, by rw [h]; decide +kernel⟩
theorem witness_FixedRegisters : (3 : Nat) < 2 ^ 32 := by decide
theorem witness_StopsAreNamed_off : ∃ s : State, s.hub.power.off = true :=
  ⟨{ State.reset with hub := { State.reset.hub with power := { State.reset.hub.power with off := true } } }, rfl⟩
theorem witness_StopsAreNamed_address : isControl 0x700000000000000 = false ∧ spaceOf 0x700000000000000 = .none := by decide +kernel

/-- A machine whose team fetches a NOP. -/
def demoNop : State := State.reset.placed (toBytes 4 0x00200000)

theorem witness_MemoryFormKept : ∃ s t : State, s.MemInv ∧ step s = .next t := by
  have h : (match step demoNop with | .next _ => true | _ => false) = true := by decide +kernel
  cases e : step demoNop with
  | next t => exact ⟨demoNop, t, (by decide +kernel : demoNop.mem.wf = true), e⟩
  | fault f => rw [e] at h; cases h
  | refused r => rw [e] at h; cases h
theorem witness_IssueStaysInside : ∃ (i : Instr) (s t : State), (encodeWord i).isSome = true ∧ exec i s = .next t := by
  have h : (match exec .nop demoNop with | .next _ => true | _ => false) = true := by decide +kernel
  cases e : exec .nop demoNop with
  | next t => exact ⟨.nop, demoNop, t, rfl, e⟩
  | fault f => rw [e] at h; cases h
  | refused r => rw [e] at h; cases h

theorem witness_StepRunsDecoded_arrives : ∃ (s : State) (i : Instr) (rest : List (Nat × Instr)) (t : Nat), s.hub.power.off = false ∧ s.inbox = (t, i) :: rest ∧ t ≤ s.now :=
  ⟨{ demo with inbox := [(0, .holdover)] }, .holdover, [], 0, rfl, rfl, by decide⟩
theorem witness_StepRunsDecoded_privileged : ∃ (s : State) (p : Priv) (i : Instr), s.arriving = none ∧ s.hub.power.off = false ∧ s.privReady = some p ∧ decode p.word 0 0 = .ok i :=
  ⟨{ demo with tables := { demo.tables with priv := [⟨0, wordT 0x593 0 112 112, none⟩] } }, ⟨0, wordT 0x593 0 112 112, none⟩, .wcs 112 112 0, rfl, rfl, rfl, rfl⟩
theorem witness_StepRunsDecoded_event : ∃ s : State, s.arriving = none ∧ s.hub.power.off = false ∧ s.privileged = none ∧ s.nextEvent.isSome = true :=
  ⟨{ demo with cur := { demo.cur with pend := [⟨1, 0, 0, 0, 0, 0, 0, 0, none, false, false, false, false, false, 0, false, 0, 0, [], [], none, [], [], []⟩] } }, rfl, rfl, rfl, by decide +kernel⟩
/-- Does the next step of `s` issue the instruction with the word `w`, which takes no literal? -/
def issuesWord (s : State) (w : Word) : Bool :=
  s.arriving.isNone && !s.hub.power.off && s.privileged.isNone && s.nextEvent.isNone && s.boundary.isNone && s.background.isNone && match s.select with
    | some v => v.returnGroups.isNone && v.cur.suspendedFor.isNone && v.cur.links.isEmpty && !v.cur.sched.refilling && v.cur.arch.rep.isNone && v.cur.arch.mac.isNone && (match v.cur.current with
      | some g => v.codeWord v.cur g.pc == .word w && !v.teamRebuilding g
      | none => false)
    | none => false
theorem witness_StepRunsDecoded_issue : issuesWord demoNop 0x00200000 = true ∧ litCount 0x00200000 = 0 ∧ decode 0x00200000 0 0 = .ok .nop := ⟨by decide +kernel, by decide +kernel, rfl⟩
theorem witness_StepRunsDecoded_idle : State.reset.arriving = none ∧ State.reset.hub.power.off = false ∧ State.reset.privileged = none ∧ State.reset.nextEvent = none ∧
    State.reset.boundary = none ∧ State.reset.background = none ∧ State.reset.select = none := by decide +kernel
theorem witness_IntegerResults : Shows (.add 0 0 1 2 3 0) demo (fun _ _ => True) := shows_dec _ (by decide +kernel)
theorem witness_SelectResults : Shows (.sel 0 1 2 3 0) demo (fun o s1 => o.mode.guard = 0 ∨ ∀ l ∈ o.lanes, (o.codes l).p = false) := shows_dec _ (by decide +kernel)
theorem witness_LongResults : Shows (.div 0 0 0 1 2 0 0) demo (fun o s1 => o.lanes ≠ []) := shows_dec _ (by decide +kernel)
theorem witness_LongResults_idle : Shows (.div 0 0 0 1 2 0 0) (withMode demo nvMode) (fun o s1 => o.lanes = []) := shows_dec _ (by decide +kernel)
theorem witness_FloatResults : Shows (.fadd 0 1 2 3 0) demo (fun _ _ => True) := shows_dec _ (by decide +kernel)
theorem witness_CrossLaneResults : Shows (.voteSome 1 2 0) demo (fun _ _ => True) := shows_dec _ (by decide +kernel)
theorem witness_CrossLaneResults_named : Shows (.bcast 0 1 2 127 3) demo (fun o s1 => ∀ l ∈ o.act, (o.b l).p = false) := shows_dec _ (by decide +kernel)
theorem witness_ConversionResults : Shows (.cvt 1 2 127 0) demo (fun o _ => convertReady (.cvt 1 2 127 0) o) :=
  shows_dec (fun o _ => ∀ l ∈ o.lanes, (o.b l).p = false ∧ o.ctlBad scalarOrNf o.ra l = false) (by decide +kernel)
theorem witness_FmtrdReads : Shows (.fmtrd 69 0) demo (fun o s1 => regKind o.rd = .uni) := shows_dec _ (by decide +kernel)
theorem witness_BranchTakesDisplacement : Shows (.bra 0x40) demo (fun _ _ => True) := shows_dec _ (by decide +kernel)
theorem witness_JumpTakesTargets : Shows (.jmp 10) (withF demo 10 0x10000 false) (fun o _ => targetsOk o) :=
  shows_dec (fun o _ => ∀ l ∈ o.act, (o.a l).p = false ∧ badTarget (o.a l) = false) (by decide +kernel)
theorem witness_CallsPushLinks : Shows (.call 4 0x40) demo (fun o s1 => callOk o s1 4) :=
  shows_dec (fun o s1 => ∀ l ∈ o.act, (s1.cur.lane l).fp.toNat + 4 + 64 ≤ slotLimit s1.cur.width s1.cur.id.spillSize ∧
    resident s1.cur l [(s1.cur.lane l).fp.toNat + 4 - 2, (s1.cur.lane l).fp.toNat + 4 - 1] = true ∧ s1.cur.awaits (fun _ => true) l ((s1.cur.lane l).fp.toNat + 4 - 2) 2 = false) (by decide +kernel)
theorem witness_CallsPushLinks_register : Shows (.callr 4 10) (withF demo 10 0x10000 false) (fun o s1 => targetsOk o ∧ callOk o s1 4) :=
  shows_dec (fun o s1 => (∀ l ∈ o.act, (o.a l).p = false ∧ badTarget (o.a l) = false) ∧ ∀ l ∈ o.act, (s1.cur.lane l).fp.toNat + 4 + 64 ≤ slotLimit s1.cur.width s1.cur.id.spillSize ∧
    resident s1.cur l [(s1.cur.lane l).fp.toNat + 4 - 2, (s1.cur.lane l).fp.toNat + 4 - 1] = true ∧ s1.cur.awaits (fun _ => true) l ((s1.cur.lane l).fp.toNat + 4 - 2) 2 = false) (by decide +kernel)
theorem witness_ReturnsPopLinks : Shows .ret demoCalled (fun o s1 => (∀ l ∈ o.act, (s1.cur.lane l).depth ≠ 0 → linkOk s1 l) ∧ ∀ l ∈ o.act, (s1.cur.lane l).depth ≠ 0) :=
  shows_dec (fun o s1 => (∀ l ∈ o.act, (s1.cur.lane l).depth ≠ 0 → resident s1.cur l [(s1.cur.lane l).fp.toNat - 2, (s1.cur.lane l).fp.toNat - 1] = true ∧ s1.cur.awaits (fun p => !inWindow s1.cur p) l ((s1.cur.lane l).fp.toNat - 2) 2 = false ∧ (linkOf s1 l).1.p = false ∧ (linkOf s1 l).2.p = false ∧ badLink s1 l = false) ∧
    ∀ l ∈ o.act, (s1.cur.lane l).depth ≠ 0) (by decide +kernel)
theorem witness_ReturnsPopLinks_last : Shows .ret demo (fun o s1 => (∀ l ∈ o.act, (s1.cur.lane l).depth ≠ 0 → linkOk s1 l) ∧ o.act ≠ []) :=
  shows_dec (fun o s1 => (∀ l ∈ o.act, (s1.cur.lane l).depth ≠ 0 → resident s1.cur l [(s1.cur.lane l).fp.toNat - 2, (s1.cur.lane l).fp.toNat - 1] = true ∧ s1.cur.awaits (fun p => !inWindow s1.cur p) l ((s1.cur.lane l).fp.toNat - 2) 2 = false ∧ (linkOf s1 l).1.p = false ∧ (linkOf s1 l).2.p = false ∧ badLink s1 l = false) ∧ o.act ≠ []) (by decide +kernel)
theorem witness_ExitEndsLanes : Shows (.exit) demo (fun _ _ => True) := shows_dec _ (by decide +kernel)
theorem witness_PlainControl_nop : Shows (.nop) demo (fun _ _ => True) := shows_dec _ (by decide +kernel)
theorem witness_PlainControl_yield : Shows (.yield) demo (fun _ _ => True) := shows_dec _ (by decide +kernel)
theorem witness_PlainControl_sigset : Shows (.sigset 5) demo (fun _ _ => True) := shows_dec _ (by decide +kernel)
theorem witness_PlainControl_sigchk_none : Shows (.sigchk 0) { demo with cur := demo.cur.setArch fun a => { a with groups := a.groups.map fun g => { g with sigOk := false } } } (fun o s1 => o.g.sigOk = false) := shows_dec _ (by decide +kernel)
theorem witness_PlainControl_sigchk_agrees : Shows (.sigchk (sigReset ^^^ 0xFFFFFFFF)) demo (fun o s1 => o.g.sig ^^^ 0xFFFFFFFF = sigReset ^^^ 0xFFFFFFFF ∧ ∀ g ∈ o.t.arch.groups, (g.pc, g.mask) ∈ o.t.shadow) := shows_dec _ (by decide +kernel)
theorem witness_ModeWrites : Shows (.mode 0 4 0 0 0 0 0) demo (fun _ _ => True) := shows_dec _ (by decide +kernel)
theorem witness_ModeWrites_seed : Shows (.mts 6 1) demo (fun o s1 => ∀ l ∈ o.act, (o.b l).p = false ∧ ((1 : Word) = 0 → ((o.b l).v.extractLsb' 0 32) >>> 5 = 0)) := shows_dec _ (by decide +kernel)
theorem witness_ModeWrites_flags : Shows (.mts 6 0) demo (fun o s1 => ∀ l ∈ o.act, (o.b l).p = false ∧ ((0 : Word) = 0 → ((o.b l).v.extractLsb' 0 32) >>> 5 = 0)) := shows_dec _ (by decide +kernel)
/-- REP's target can be fetched in a state. -/
def repFinds (o : Issue) (s : State) (n : Nat) (w : Word) : Bool :=
  let t := s.cur.setArch fun r => { r with rep := some (0, n, 8 + 4 * litCount w) }
  match State.fetch { s with cur := t } t o.g with
  | .instr i => (decodeCause i o.mode).isNone
  | _ => false
theorem repFinds_ok {o : Issue} {s : State} {n : Nat} {w : Word} (h : repFinds o s n w = true) :
    ∃ i, State.fetch { s with cur := s.cur.setArch fun r => { r with rep := some (0, n, 8 + 4 * litCount w) } }
      (s.cur.setArch fun r => { r with rep := some (0, n, 8 + 4 * litCount w) }) o.g = .instr i ∧ decodeCause i o.mode = none := by
  unfold repFinds at h
  dsimp only at h
  split at h
  · exact ⟨_, by assumption, by simpa using h⟩
  · cases h
theorem witness_RepeatAndMacroBegin : Shows (.rep 2 0 1 1) demoRep (fun o s1 => repOk s1 o 3 0x10010286) :=
  (shows_dec (fun o s1 => s1.codeWord s1.cur (o.g.pc + 4) = .word 0x10010286 ∧
      ((0x10010286 : Word) != 0 && (findRow (opcode 0x10010286).toNat (rowsOf ((opcode 0x10010286).toNat / 128))).isSome && repForbids o.word 0x10010286 o.mode) = false ∧
      repFinds o s1 3 0x10010286 = true) (by decide +kernel)).imp fun _ _ h => ⟨h.1, h.2.1, .inl (repFinds_ok h.2.2)⟩
theorem witness_RepeatAndMacroBegin_macro : Shows (.macroRun 2 0 0 0) demoMacro (fun o s1 => s1.macroWord s1.cur.id.tile (2 : Nat) 0 ≠ 0) := shows_dec _ (by decide +kernel)
theorem witness_RegionTakesCheckpoint : Shows (.region) demo (fun _ _ => True) := shows_dec _ (by decide +kernel)
theorem witness_RegionTakesCheckpoint_waits : ∃ (s : State) (g : Group), s.cur.current = some g ∧ s.cur.pend ≠ [] :=
  ⟨{ demo with cur := { demo.cur with pend := [⟨1, 0, 0, 0, 0, 0, 0, 9, none, false, false, false, false, false, 0, false, 0, 0, [], [], none, [], [], []⟩] } }, _, rfl, by simp⟩
theorem witness_TrapInstructions : Shows (.trap 7) demo (fun o s1 => s1.cur.id.uid ≠ 0 ∧ o.lanes ≠ []) := shows_dec _ (by decide +kernel)
theorem witness_TrapInstructions_brk : Shows (.brk) demo (fun o s1 => s1.cur.id.uid ≠ 0 ∧ o.lanes ≠ []) := shows_dec _ (by decide +kernel)
theorem witness_TrapInstructions_sysc : Shows (.sysc 66 64 0) demo (fun o s1 => s1.cur.id.uid ≠ 0 ∧ o.lanes ≠ [] ∧ (o.a (o.lanes.headD 0)).p = false) := shows_dec _ (by decide +kernel)
theorem witness_TrapInstructions_idle : Shows (.trap 7) (withMode demo nvMode) (fun o s1 => s1.cur.id.uid ≠ 0 ∧ o.lanes = []) := shows_dec _ (by decide +kernel)
theorem witness_DecodeTraps : ∃ (i : Instr) (w : Word) (g : Group) (s : State) (c : Nat), encodeWord i = some w ∧ s.cur.current = some g ∧ s.privReady = none ∧ s.cur.id.uid ≠ 0 ∧ decodeCause i s.cur.arch.mode = some c :=
  ⟨.add 1 0 1 2 4 0, _, _, demo, 4, rfl, rfl, rfl, by decide +kernel, rfl⟩
theorem witness_PoisonedGuardRollsBack : ∃ (i : Instr) (w : Word) (g : Group) (s : State) (c : Ckpt) (cs : List Ckpt), encodeWord i = some w ∧ s.cur.current = some g ∧ s.privReady = none ∧ s.cur.id.uid ≠ 0 ∧ decodeCause i s.cur.arch.mode = none ∧
    poisonedGuard s.cur g (shape i s.cur.arch.mode (runtimeWords s.cur i s.now (activeLanes s.cur g (shape i s.cur.arch.mode 1)))) ≠ [] ∧ s.cur.ckpts = c :: cs ∧ c.retried = false :=
  ⟨.add 0 0 1 2 3 0, _, _, demoPoisoned, ⟨1, 0, false, demo.cur.arch⟩, [], rfl, rfl, rfl, by decide +kernel, rfl, by decide +kernel, rfl, rfl⟩
theorem witness_HeldAccesses : ∃ f, accessOf (.st 2 2 0 112 0) = some f ∧ Shows (.st 2 2 0 112 0) demoData (fun o s1 => ∃ xs, (f o s1).passes s1 xs) :=
  ⟨_, rfl, (shows_dec (fun o s1 => (plainAccess o o.addrsT 4 28 Need.w fun xs => o.unitsFor xs.length 4).check s1 = .ok ((List.range 16).map fun l => ⟨l, 0x20000, 0x20000, false⟩) [] ∧
    (plainAccess o o.addrsT 4 28 Need.w fun xs => o.unitsFor xs.length 4).who.accessWaits s1 (((List.range 16).map fun l => ⟨l, 0x20000, 0x20000, false⟩ : List Access1).map (plainAccess o o.addrsT 4 28 Need.w fun xs => o.unitsFor xs.length 4).span) (plainAccess o o.addrsT 4 28 Need.w fun xs => o.unitsFor xs.length 4).waits ((plainAccess o o.addrsT 4 28 Need.w fun xs => o.unitsFor xs.length 4).units ((List.range 16).map fun l => ⟨l, 0x20000, 0x20000, false⟩)) = none) (by decide +kernel)).imp
    fun _ _ h => ⟨_, trivial, h.1, by decide, trivial, h.2⟩⟩
theorem witness_HeldAccesses_atomic : ∃ f, accessOf (.atom 0 0 4 0 0 0 0) = some f ∧ Shows (.atom 0 0 4 0 0 0 0) demoData (fun o s1 => ∃ xs, (f o s1).passes s1 xs) :=
  ⟨_, rfl, (shows_dec (fun o s1 => ({ plainAccess o (o.addrsL 0) (4 * wOf 0) 56 Need.rw fun xs => o.unitsFor xs.length (4 * wOf 0) with last := atomSpace }).check s1 = .ok ((List.range 16).map fun l => ⟨l, 0x20000, 0x20000, false⟩) [] ∧
    ({ plainAccess o (o.addrsL 0) (4 * wOf 0) 56 Need.rw fun xs => o.unitsFor xs.length (4 * wOf 0) with last := atomSpace }).who.accessWaits s1 (((List.range 16).map fun l => ⟨l, 0x20000, 0x20000, false⟩ : List Access1).map ({ plainAccess o (o.addrsL 0) (4 * wOf 0) 56 Need.rw fun xs => o.unitsFor xs.length (4 * wOf 0) with last := atomSpace }).span) ({ plainAccess o (o.addrsL 0) (4 * wOf 0) 56 Need.rw fun xs => o.unitsFor xs.length (4 * wOf 0) with last := atomSpace }).waits (({ plainAccess o (o.addrsL 0) (4 * wOf 0) 56 Need.rw fun xs => o.unitsFor xs.length (4 * wOf 0) with last := atomSpace }).units ((List.range 16).map fun l => ⟨l, 0x20000, 0x20000, false⟩)) = none) (by decide +kernel)).imp
    fun _ _ h => ⟨_, trivial, h.1, by decide, trivial, h.2⟩⟩
theorem witness_LoadsRead : ∃ f, accessOf (.ld 4 4 0 0 0 0) = some f ∧ Shows (.ld 4 4 0 0 0 0) demoData (fun o s1 => ∃ xs, (f o s1).passes s1 xs) :=
  ⟨_, rfl, (shows_dec (fun o s1 => (loadAccess o (o.addrsL 0) 4 false).check s1 = .ok ((List.range 16).map fun l => ⟨l, 0x20000, 0x20000, false⟩) [] ∧
    (loadAccess o (o.addrsL 0) 4 false).who.accessWaits s1 (((List.range 16).map fun l => ⟨l, 0x20000, 0x20000, false⟩ : List Access1).map (loadAccess o (o.addrsL 0) 4 false).span) (loadAccess o (o.addrsL 0) 4 false).waits ((loadAccess o (o.addrsL 0) 4 false).units ((List.range 16).map fun l => ⟨l, 0x20000, 0x20000, false⟩)) = none) (by decide +kernel)).imp
    fun _ _ h => ⟨_, trivial, h.1, by decide, trivial, h.2⟩⟩
theorem witness_ObjectReads : ∃ f, accessOf (.acq 4 0 0 0 0) = some f ∧ Shows (.acq 4 0 0 0 0) demoData (fun o s1 => ∃ xs, (f o s1).passes s1 xs) :=
  ⟨_, rfl, (shows_dec (fun o s1 => (plainAccess o (o.addrsL 0) 8 28 Need.r fun xs => o.unitsFor (xs.filter (·.ef)).length 8).check s1 = .ok ((List.range 16).map fun l => ⟨l, 0x20000, 0x20000, false⟩) [] ∧
    (plainAccess o (o.addrsL 0) 8 28 Need.r fun xs => o.unitsFor (xs.filter (·.ef)).length 8).who.accessWaits s1 (((List.range 16).map fun l => ⟨l, 0x20000, 0x20000, false⟩ : List Access1).map (plainAccess o (o.addrsL 0) 8 28 Need.r fun xs => o.unitsFor (xs.filter (·.ef)).length 8).span) (plainAccess o (o.addrsL 0) 8 28 Need.r fun xs => o.unitsFor (xs.filter (·.ef)).length 8).waits ((plainAccess o (o.addrsL 0) 8 28 Need.r fun xs => o.unitsFor (xs.filter (·.ef)).length 8).units ((List.range 16).map fun l => ⟨l, 0x20000, 0x20000, false⟩)) = none ∧ s1.bindsOut o.t.id.uid = false) (by decide +kernel)).imp
    fun _ _ h => ⟨_, trivial, h.1, by decide, h.2.2, h.2.1⟩⟩
theorem witness_ObjectReads_counter : ∃ f, accessOf (.cread 4 0 0 0 0) = some f ∧ Shows (.cread 4 0 0 0 0) demoData (fun o s1 => ∃ xs, (f o s1).passes s1 xs) :=
  ⟨_, rfl, (shows_dec (fun o s1 => ((⟨o, o.addrsL 0, 8, eitherOdd, Need.rw, none, fun _ => none, fun y => { y with ef := false }, 8, fun _ => 0, True, fun _ => True⟩ : AccessRule)).check s1 = .ok ((List.range 16).map fun l => ⟨l, 0x20000, 0x20000, false⟩) [] ∧
    ((⟨o, o.addrsL 0, 8, eitherOdd, Need.rw, none, fun _ => none, fun y => { y with ef := false }, 8, fun _ => 0, True, fun _ => True⟩ : AccessRule)).who.accessWaits s1 (((List.range 16).map fun l => ⟨l, 0x20000, 0x20000, false⟩ : List Access1).map ((⟨o, o.addrsL 0, 8, eitherOdd, Need.rw, none, fun _ => none, fun y => { y with ef := false }, 8, fun _ => 0, True, fun _ => True⟩ : AccessRule)).span) ((⟨o, o.addrsL 0, 8, eitherOdd, Need.rw, none, fun _ => none, fun y => { y with ef := false }, 8, fun _ => 0, True, fun _ => True⟩ : AccessRule)).waits (((⟨o, o.addrsL 0, 8, eitherOdd, Need.rw, none, fun _ => none, fun y => { y with ef := false }, 8, fun _ => 0, True, fun _ => True⟩ : AccessRule)).units ((List.range 16).map fun l => ⟨l, 0x20000, 0x20000, false⟩)) = none ∧ ∀ y ∈ (((List.range 16).map fun l => ⟨l, 0x20000, 0x20000, false⟩) : List Access1), s1.holdsFor o.t.id.uid y.ea (if isScratch y.ea then 16 else 8) = false) (by decide +kernel)).imp
    fun _ _ h => ⟨_, trivial, h.1, by decide, h.2.2, h.2.1⟩⟩
theorem witness_BlockAccesses : ∃ f, accessOf (.ldmx 4 0 0 0 0) = some f ∧ Shows (.ldmx 4 0 0 0 0) demoMx (fun o s1 => ∃ xs, (f o s1).passes s1 xs) :=
  ⟨_, rfl, (shows_dec (fun o s1 => o.check s1 (o.act.map fun k => (k, o.addrL 0 (k - k % o.runLength))) (4 * o.runLength) (4 * o.runLength) 28 { Need.r with noEf := true, mx := true } (some 30) pairReach = .ok ((List.range 16).map fun l => ⟨l, 0x20000, 0x20000, false⟩ : List Access1) [] ∧
    o.accessWaits s1 ((List.range 16).map fun l => ⟨l, 0x20000, 0x20000, false⟩ : List Access1) (4 * o.runLength) (0) = none ∧ o.accessWaits s1 (scaleOf (4 * o.runLength) ((List.range 16).map fun l => ⟨l, 0x20000, 0x20000, false⟩ : List Access1)) 1 0 = none) (by decide +kernel)).imp
    fun _ _ h => ⟨_, trivial, h.1, by decide, h.2.2, (congrArg (fun x => Issue.accessWaits _ _ x _ _) (List.map_id _)).trans h.2.1⟩⟩
theorem witness_BlockAccesses_store : ∃ f, accessOf (.stmx 4 0 112 0) = some f ∧ Shows (.stmx 4 0 112 0) demoMx (fun o s1 => ∃ xs, (f o s1).passes s1 xs) :=
  ⟨_, rfl, (shows_dec (fun o s1 => o.check s1 (o.act.map fun k => (k, o.addrT (k - k % o.runLength))) (4 * o.runLength) (4 * o.runLength) 28 { Need.w with noEf := true, mx := true } (some 30) pairReach = .ok ((List.range 16).map fun l => ⟨l, 0x20000, 0x20000, false⟩ : List Access1) [] ∧
    o.accessWaits s1 ((List.range 16).map fun l => ⟨l, 0x20000, 0x20000, false⟩ : List Access1) (4 * o.runLength) ((1 + ceilDiv (o.runLength * (8 + 4)) 32) * (runsOf o.runLength ((List.range 16).map fun l => ⟨l, 0x20000, 0x20000, false⟩ : List Access1)).length) = none ∧ o.accessWaits s1 (scaleOf (4 * o.runLength) ((List.range 16).map fun l => ⟨l, 0x20000, 0x20000, false⟩ : List Access1)) 1 0 = none ∧ o.mixedRuns o.runLength = []) (by decide +kernel)).imp
    fun _ _ h => ⟨_, h.2.2.2, h.1, by decide, h.2.2.1, (congrArg (fun x => Issue.accessWaits _ _ x _ _) (List.map_id _)).trans h.2.1⟩⟩
theorem witness_CacheMaintenance : Shows (.flush 64 127 64) (withK demo 0 0x20000) (fun o s1 => o.lineRange s1 0x20000 64 ∧ o.room s1 1 = true) :=
  (shows_dec (fun o s1 => (o.lanes = [0] ∧ (o.a 0).v.toNat = 0x20000 ∧ (o.b 0).v.toNat % 2 ^ 32 = 64 ∧ (o.a 0).p = false ∧ (o.b 0).p = false) ∧
    s1.cur.meetsScore 0x20000 64 = false ∧ o.room s1 1 = true) (by decide +kernel)).imp fun _ _ h => ⟨⟨⟨0, h.1⟩, by decide, h.2.1⟩, h.2.2⟩
theorem witness_CacheMaintenance_invl : Shows (.invl 64 127 64) (withK demo 0 0x20000) (fun o s1 => o.lineRange s1 0x20000 64) :=
  (shows_dec (fun o s1 => (o.lanes = [0] ∧ (o.a 0).v.toNat = 0x20000 ∧ (o.b 0).v.toNat % 2 ^ 32 = 64 ∧ (o.a 0).p = false ∧ (o.b 0).p = false) ∧
    s1.cur.meetsScore 0x20000 64 = false) (by decide +kernel)).imp fun _ _ h => ⟨⟨0, h.1⟩, by decide, h.2⟩
theorem witness_Fences : Shows (.fence 0) demo (fun o s1 => s1.fenceMet o.t (0 : Nat) = true ∧ (0 : BitVec 7).toNat < 3) := shows_dec _ (by decide +kernel)
theorem witness_Fences_far : Shows (.fence 3) demo (fun o s1 => s1.fenceMet o.t (3 : BitVec 7).toNat = true ∧ 3 ≤ (3 : BitVec 7).toNat ∧ o.t.fence = none) := shows_dec _ (by decide +kernel)
theorem witness_Fences_done : Shows (.fence 3) { demo with cur := { demo.cur with fence := some [] } } (fun o s1 => s1.fenceMet o.t (3 : BitVec 7).toNat = true ∧ 3 ≤ (3 : BitVec 7).toNat ∧ o.t.fence = some [] ∧ s1.waitsFor [] = false) := shows_dec _ (by decide +kernel)
theorem witness_PrefetchAsksForLines : Shows (.pref 0 112 0) demoData (fun o s1 => ∀ l ∈ o.lanes, (o.addrT l).p = false) := shows_dec _ (by decide +kernel)
theorem witness_AccessTraps : issues (.ld 4 4 0 0 0 0) (withF demoData 0 0x20001 false) (fun o s =>
    match (loadAccess o (o.addrsL 0) 4 false).check s with | .bad (.trap 28 _ _ false none) => s.cur.id.uid != 0 | _ => false) = true := by decide +kernel
theorem witness_AccessPoisonRollsBack : issues (.ld 4 4 0 0 0 0) { withF demoData 0 0x20000 true with cur := { (withF demoData 0 0x20000 true).cur with ckpts := [⟨1, 0, false, demo.cur.arch⟩] } } (fun o s =>
    match (loadAccess o (o.addrsL 0) 4 false).check s with | .bad (.rollback 19 _ _ false) => s.cur.id.uid != 0 && s.cur.ckpts == [⟨1, 0, false, demo.cur.arch⟩] | _ => false) = true := by decide +kernel
theorem witness_TranslationFaultsPark : issues (.ld 4 4 0 0 0 0) (withF demoData 1 0x10 false) (fun o s =>
    match (loadAccess o (o.addrsL 0) 4 false).check s with | .ok [] (_ :: _) => (o.accessWaits s [] 4 (o.unitsFor 0 4)).isNone | _ => false) = true := by decide +kernel
theorem witness_CopiesStart : ∃ P, copyOf (.cpf 64 112 127 0x40) = some P ∧ Shows (.cpf 64 112 127 0x40) (withK demo 0 0x20000) (fun o s1 => ∃ r, P o s1 r ∧ r.free s1) := by
  refine ⟨_, rfl, (shows_dec (fun o s1 =>
    (o.lanes ≠ [] ∧ o.sinkPends (o.lanes.map o.b) = false ∧
      (∀ l ∈ o.lanes, (o.d l).p = false ∧ (o.b l).p = false ∧ (false = true → ctlCount ((o.b l).v.extractLsb' 0 32) ≠ 0 → (o.a l).p = false) ∧
        sinkPoison o.t ((o.b l).v.extractLsb' 0 32) = false) ∧
      rangeTrap s1 (fun ls => if o.uniform then o.act else ls) (o.lanes.map (fun l => (⟨l, (o.d l).v.toNat, ctlCount ((o.b l).v.extractLsb' 0 32), 4⟩ : Range)) ++
        [] ++ o.lanes.flatMap fun l => sinkRange o.t ((o.b l).v.extractLsb' 0 32) l) = none ∧
      sinkCause s1 ((o.b (o.lanes.headD 0)).v.extractLsb' 0 32) = none ∧
      (∀ l ∈ o.lanes, ctlSink ((o.b l).v.extractLsb' 0 32) = ctlSink ((o.b (o.lanes.headD 0)).v.extractLsb' 0 32) ∧
        ctlSreg ((o.b l).v.extractLsb' 0 32) = ctlSreg ((o.b (o.lanes.headD 0)).v.extractLsb' 0 32)) ∧
      (∀ l ∈ o.lanes, ctlCount ((o.b l).v.extractLsb' 0 32) % 4 = 0 ∧ ctlCount ((o.b l).v.extractLsb' 0 32) ≤ 0x1000000)) ∧
    s1.cur.openBatch.length < 65535 ∧
    o.copyWaits s1 [] (o.lanes.map fun l => ((o.d l).v.toNat, ctlCount ((o.b l).v.extractLsb' 0 32))) (ctlSink ((o.b (o.lanes.headD 0)).v.extractLsb' 0 32)) o.copyUnits = none)
    (by decide +kernel)).imp ?_⟩
  intro o s1 ⟨⟨h1, h0, h2, h3, h4, h5, h6⟩, h7, h8⟩
  exact ⟨_, ⟨h1, h0, h2, h3, h4, h5, h6, rfl⟩, fun _ => h7, h8⟩
theorem witness_BatchInstructions : ∃ f, batchOf (.bseal 127 3) = some f ∧ Shows (.bseal 127 3) demo (fun o s1 => (f o s1).when) :=
  ⟨_, rfl, (shows_dec (fun o s1 => (o.a 0).p = false ∧ o.tag ≤ 15 ∧ (s1.cur.tags.find? fun x => x.1 == o.tag) = none) (by decide +kernel)).imp fun _ _ h => h⟩
theorem witness_QueueInstructions : ∃ f, queueOf (.grow 66 127 1) = some f ∧ Shows (.grow 66 127 1) demo (fun o s1 => (f o s1).when) :=
  ⟨_, rfl, (shows_dec (fun o s1 => o.lanes ≠ [] ∧ (o.a (o.lanes.headD 0)).p = false ∧ (o.a (o.lanes.headD 0)).v.toNat % 2 ^ 32 ≠ 0 ∧ o.room s1 3 = true) (by decide +kernel)).imp fun _ _ h => h⟩
theorem witness_BindingInstructions : ∃ f, bindOf (.unbind 64 0) = some f ∧ Shows (.unbind 64 0) (withK demo 0 0x20000) (fun o s1 => (f o s1).when) :=
  ⟨_, rfl, (shows_dec (fun o s1 => o.lanes ≠ [] ∧ (o.a (o.lanes.headD 0)).p = false ∧ (o.a (o.lanes.headD 0)).v.toNat % 4096 = 0 ∧ inTranslated (o.a (o.lanes.headD 0)).v.toNat 4096 = true ∧ o.room s1 3 = true) (by decide +kernel)).imp fun _ _ h => h⟩
theorem witness_EquivalenceInstructions : ∃ f, forestOf (.find 4 5 0 0) = some f ∧ Shows (.find 4 5 0 0) demoForest (fun o s1 => (f o s1).when) :=
  ⟨_, rfl, (shows_dec (fun o s1 => s1.currentForest o.t = some theForest ∧ o.lanes ≠ [] ∧ (∀ l ∈ o.lanes, (o.a l).p = false ∧ (o.a l).p = false ∧ (o.a l).element < theForest.count ∧ (o.a l).element < theForest.count) ∧ (s1.walksOf theForest.engine = 0 ∨ s1.walksOf theForest.engine + o.lanes.length ≤ 256) ∧ o.room s1 3 = true) (by decide +kernel)).imp fun _ _ h => ⟨theForest, h⟩⟩
theorem witness_EqsetSelectsForests_current : Shows (.eqset 64 0) (withK demoForest 0 0x30000) (fun o s1 => o.descriptorAt s1 ⟨0, 0x30000, 0x30000, false⟩ ∧ s1.currentForest o.t = some theForest ∧ theForest.key = 0x30000) :=
  shows_dec (fun o s1 => ({ o with uniform := true, lanes := [o.act.headD 0] } : Issue).check s1 [(o.act.headD 0, o.a (o.act.headD 0))] 64 64 28 Need.rw none (fun _ => none) = .ok [⟨0, 0x30000, 0x30000, false⟩] [] ∧ s1.currentForest o.t = some theForest ∧ theForest.key = 0x30000) (by decide +kernel)
theorem witness_EqsetSelectsForests_live : Shows (.eqset 64 0) (withK { demoForest with cur := demo.cur } 0 0x30000) (fun o s1 => o.descriptorAt s1 ⟨0, 0x30000, 0x30000, false⟩ ∧ s1.currentForest o.t = none ∧ s1.forestState 0x30000 ≠ 0 ∧ s1.forestState 0x30000 ≤ 64 ∧
    s1.eq.forests.find? (fun f => f.key == 0x30000 && f.engine + 1 == s1.forestState 0x30000) = some theForest ∧ s1.leavingForest theForest = false) :=
  shows_dec (fun o s1 => ({ o with uniform := true, lanes := [o.act.headD 0] } : Issue).check s1 [(o.act.headD 0, o.a (o.act.headD 0))] 64 64 28 Need.rw none (fun _ => none) = .ok [⟨0, 0x30000, 0x30000, false⟩] [] ∧ s1.currentForest o.t = none ∧ s1.forestState 0x30000 ≠ 0 ∧ s1.forestState 0x30000 ≤ 64 ∧
    s1.eq.forests.find? (fun f => f.key == 0x30000 && f.engine + 1 == s1.forestState 0x30000) = some theForest ∧ s1.leavingForest theForest = false) (by decide +kernel)
theorem witness_EqsetSelectsForests_fresh : Shows (.eqset 64 0) (withK demoDescriptor 0 0x30000) (fun o s1 => o.descriptorAt s1 ⟨0, 0x30000, 0x30000, false⟩ ∧ s1.currentForest o.t = none ∧ s1.forestState 0x30000 = 0 ∧
    parseForest (s1.mem.read 0x30000 64) s1.nextId (o.t.id.tile / 8) o.t.id.ctx 0x30000 0x30000 = some { theForest with fid := 1, classes := 8, maxSize := 0 } ∧
    s1.forestLegal o.t.id.tile o.t.id.ctx { theForest with fid := 1, classes := 8, maxSize := 0 } = true ∧ (s1.eq.forests.filter (·.engine == o.t.id.tile / 8)).length < 8) :=
  shows_dec (fun o s1 => ({ o with uniform := true, lanes := [o.act.headD 0] } : Issue).check s1 [(o.act.headD 0, o.a (o.act.headD 0))] 64 64 28 Need.rw none (fun _ => none) = .ok [⟨0, 0x30000, 0x30000, false⟩] [] ∧ s1.currentForest o.t = none ∧ s1.forestState 0x30000 = 0 ∧
    parseForest (s1.mem.read 0x30000 64) s1.nextId (o.t.id.tile / 8) o.t.id.ctx 0x30000 0x30000 = some { theForest with fid := 1, classes := 8, maxSize := 0 } ∧
    s1.forestLegal o.t.id.tile o.t.id.ctx { theForest with fid := 1, classes := 8, maxSize := 0 } = true ∧ (s1.eq.forests.filter (·.engine == o.t.id.tile / 8)).length < 8) (by decide +kernel)
theorem witness_ChannelConfiguration : Shows (.mcfg 72 0) (withK (withK demoMatrix 8 0x00100000) 10 16) (fun o s1 => Configures o s1 theGroup [0x00100000, 0, 16, 0, 0, 0, 0, 0]) :=
  (shows_dec (fun o s1 => (s1.group? o.t.id.gid = some theGroup ∧ o.act = lanesOf o.t.width (o.t.allGroups.foldl (fun m g => m ||| g.mask) 0) ∧ theGroup.share ≠ 0 ∧
    (∀ w ∈ readRegs o.t 0 o.ra 8, w.p = false) ∧ [0x00100000, 0, 16, 0, 0, 0, 0, 0] = (readRegs o.t 0 o.ra 8).map (·.w)) ∧ channelBad [0x00100000, 0, 16, 0, 0, 0, 0, 0] = false ∧ (∀ x ∈ (s1.engine o.t.id.tile).channels, False) ∧
    rfield [0x00100000, 0, 16, 0, 0, 0, 0, 0] 0 24 16 ≤ 16 * theGroup.share ∧ rfield [0x00100000, 0, 16, 0, 0, 0, 0, 0] 4 19 0 + 32 * rfield [0x00100000, 0, 16, 0, 0, 0, 0, 0] 8 12 0 ≤ theGroup.size ∧ (s1.engine o.t.id.tile).unretired (rfield [0x00100000, 0, 16, 0, 0, 0, 0, 0] 0 1 0) = [] ∧ o.room s1 3 = true)
    (by decide +kernel)).imp fun _ _ ⟨⟨a, b, c, d, e⟩, f, g, h, i, j, k⟩ => ⟨⟨a, b, c, d, e⟩, f, fun x hx => (g x (List.mem_of_find?_eq_some hx)).elim, .inr fun x hx => (g x hx).elim, h, .inr i, j, k⟩
theorem witness_MatrixCommands : commandOp (.mzero 66 72 0) = some 4 ∧ Shows (.mzero 66 72 0) (withK demoChannel 8 0x40000000) (fun o s1 =>
    Collective o s1 theGroup [0x40000000, 0, 0, 0, 0, 0, 0, 0] ∧ s1.recordCause o.t.id.tile theGroup.gid theGroup.base theGroup.size [0x40000000, 0, 0, 0, 0, 0, 0, 0] = none ∧ recOp [0x40000000, 0, 0, 0, 0, 0, 0, 0] = 4 ∧ o.commandRoom s1 [0x40000000, 0, 0, 0, 0, 0, 0, 0]) :=
  ⟨rfl, (shows_dec (fun o s1 => (s1.group? o.t.id.gid = some theGroup ∧ o.act = lanesOf o.t.width (o.t.allGroups.foldl (fun m g => m ||| g.mask) 0) ∧ theGroup.share ≠ 0 ∧
    (∀ w ∈ readRegs o.t 0 o.ra 8, w.p = false) ∧ [0x40000000, 0, 0, 0, 0, 0, 0, 0] = (readRegs o.t 0 o.ra 8).map (·.w)) ∧ s1.recordCause o.t.id.tile theGroup.gid theGroup.base theGroup.size [0x40000000, 0, 0, 0, 0, 0, 0, 0] = none ∧ recOp [0x40000000, 0, 0, 0, 0, 0, 0, 0] = 4 ∧ s1.ringFull o.t.id.tile (recChan [0x40000000, 0, 0, 0, 0, 0, 0, 0]) = false ∧ o.room s1 3 = true) (by decide +kernel)).imp
    fun _ _ ⟨⟨a, b, c, d, e⟩, f, g, h⟩ => ⟨⟨a, b, c, d, e⟩, f, g, h⟩⟩
theorem witness_DrainHolds : Shows (.mdrain 4 72 0) (withK demoChannel 8 0x60000000) (fun o s1 => Drains o s1 theGroup [0x60000000, 0, 0, 0, 0, 0, 0, 0]) :=
  (shows_dec (fun o s1 => (s1.group? o.t.id.gid = some theGroup ∧ o.act = lanesOf o.t.width (o.t.allGroups.foldl (fun m g => m ||| g.mask) 0) ∧ theGroup.share ≠ 0 ∧
    (∀ w ∈ readRegs o.t 0 o.ra 8, w.p = false) ∧ [0x60000000, 0, 0, 0, 0, 0, 0, 0] = (readRegs o.t 0 o.ra 8).map (·.w)) ∧ (s1.recordCause o.t.id.tile theGroup.gid theGroup.base theGroup.size [0x60000000, 0, 0, 0, 0, 0, 0, 0] = none ∧ recOp [0x60000000, 0, 0, 0, 0, 0, 0, 0] = 6 ∧ s1.ringFull o.t.id.tile (recChan [0x60000000, 0, 0, 0, 0, 0, 0, 0]) = false ∧ o.room s1 3 = true) ∧ (∀ c ∈ (s1.engine o.t.id.tile).channels, rowsOutside c (recAcc64 [0x60000000, 0, 0, 0, 0, 0, 0, 0]) (recAccRow [0x60000000, 0, 0, 0, 0, 0, 0, 0]) (drainRows [0x60000000, 0, 0, 0, 0, 0, 0, 0] o.act) = false) ∧
    o.rd.toNat + drainPer [0x60000000, 0, 0, 0, 0, 0, 0, 0] * (if recAcc64 [0x60000000, 0, 0, 0, 0, 0, 0, 0] then 2 else 1) - 1 ≤ 63 ∧ (∀ l ∈ o.act, resident o.t l ((List.range (drainPer [0x60000000, 0, 0, 0, 0, 0, 0, 0] * if recAcc64 [0x60000000, 0, 0, 0, 0, 0, 0, 0] then 2 else 1)).map fun i => o.t.slotOf l (o.rd.toNat + i)) = true))
    (by decide +kernel)).imp fun _ _ ⟨⟨a, b, c, d, e⟩, ⟨f, g, h⟩, i, j, k⟩ => ⟨⟨a, b, c, d, e⟩, f, g, fun x hx => i x (List.mem_of_find?_eq_some hx), ⟨j, fun h => absurd h (by decide)⟩, k, h⟩
theorem witness_WaitInstruction : Shows (.wait 66 64 112 0) (withK demo 0 0x20000) (fun o s1 => Watches o s1 ⟨0, 0x20000, 0x20000, false⟩ ⟨0, false⟩ ∧ (o.watched s1 0x20000).reached 0x20000 0x20000 0 = true) :=
  (shows_dec (fun o s1 => o.lanes ≠ [] ∧ o.checkWith s1 [(o.lanes.headD 0, o.addrT (o.lanes.headD 0))] 8 eitherOdd Need.rw none (fun _ => none) = .ok [⟨0, 0x20000, 0x20000, false⟩] [] ∧
    (⟨0, false⟩ : PVal) = readReg o.t s1.now o.lit false [] 2 o.rd (o.lanes.headD 0) ∧ o.rd.toNat % 2 = 0 ∧ (o.watched s1 0x20000).mem.anyPoison 0x20000 8 = false ∧
    (o.watched s1 0x20000).net = [] ∧ s1.holdsFor o.t.id.uid 0x20000 8 = false ∧ s1.bindsOut o.t.id.uid = false ∧ (o.watched s1 0x20000).reached 0x20000 0x20000 0 = true) (by decide +kernel)).imp fun _ _ ⟨a, b, c, d, e, f, g, k, h⟩ =>
    ⟨⟨a, b, c.trans (if_neg (by decide)).symm, rfl, fun h => absurd h (by decide), fun _ => ⟨fun _ => d, .inr e, by rw [f]; simp⟩, g, k⟩, h⟩
theorem witness_WaitInstruction_waits : Shows (.wait 66 64 112 0) (withK (withK demo 0 0x20000) 2 5) (fun o s1 => Watches o s1 ⟨0, 0x20000, 0x20000, false⟩ ⟨5, false⟩ ∧ (o.watched s1 0x20000).reached 0x20000 0x20000 5 = false) :=
  (shows_dec (fun o s1 => o.lanes ≠ [] ∧ o.checkWith s1 [(o.lanes.headD 0, o.addrT (o.lanes.headD 0))] 8 eitherOdd Need.rw none (fun _ => none) = .ok [⟨0, 0x20000, 0x20000, false⟩] [] ∧
    (⟨5, false⟩ : PVal) = readReg o.t s1.now o.lit false [] 2 o.rd (o.lanes.headD 0) ∧ o.rd.toNat % 2 = 0 ∧ (o.watched s1 0x20000).mem.anyPoison 0x20000 8 = false ∧
    (o.watched s1 0x20000).net = [] ∧ s1.holdsFor o.t.id.uid 0x20000 8 = false ∧ s1.bindsOut o.t.id.uid = false ∧ (o.watched s1 0x20000).reached 0x20000 0x20000 5 = false) (by decide +kernel)).imp fun _ _ ⟨a, b, c, d, e, f, g, k, h⟩ =>
    ⟨⟨a, b, c.trans (if_neg (by decide)).symm, rfl, fun h => absurd h (by decide), fun _ => ⟨fun _ => d, .inr e, by rw [f]; simp⟩, g, k⟩, h⟩
theorem witness_PrivilegedInstructions : ∃ (s : State) (p : Priv), s.privReady = some p ∧ p.waits = none :=
  ⟨{ demo with tables := { demo.tables with priv := [⟨0, wordT 0x593 0 112 112, none⟩] } }, ⟨0, wordT 0x593 0 112 112, none⟩, rfl, rfl⟩
theorem witness_PrivilegedInstructions_waits : ∃ (s : State) (p : Priv), s.privReady = some p ∧ p.waits ≠ none :=
  ⟨{ demo with tables := { demo.tables with priv := [⟨0, wordT 0x592 0 112 112, some []⟩] } }, ⟨0, wordT 0x592 0 112 112, some []⟩, rfl, by simp⟩

/-! ### Witnesses: an event has what it acts on -/

/-- A machine with one request at an ordering point. -/
def demoNet (va pa point : Nat) (a : Act) : State := { demo with net := [⟨5, 0, 0, 0, 1, 1, 0, 0x10000, 0, point, va, pa, 0, [], a⟩] }

/-- A machine with one copy of 32 bytes that has started. -/
def theCopy : Copy := ⟨7, 1, 0, 0, 1, 1, 0, 0x10000, 0, 0, 1, .cpl, 0x20000, 0x30000, 32, 32, 0, 0, true, 0, 1, [], [], [], [], 0, false, false⟩
def demoCopy : State := { demo with copies := [theCopy] }

/-- A machine with one MZERO of one row that has started. -/
def theCommand : Command := ⟨7, 0, 0, none, 4, [0x40000000, 0, 0, 0, 0, 0, 0, 0], 1, 1, 1, 0x10000, 0, 0, true, false, true, 0, 0, 0, none, false, false, false, none, 0, 0, false, (0, 0, false), none⟩
def demoCommand : State := demoChannel.modEngine 0 fun e => { e with cmds := [theCommand] }

/-- A machine with one word held for the equivalence engine of cluster 0, long enough ago. -/
def theWord : EqHold := ⟨7, 0, 1, 1, 0, 0x31000, 0x31000, 4, 2, false, false, theForest⟩
def demoWord : State := { demoForest with now := 1000, eq := { demoForest.eq with holds := [theWord] } }

theorem witness_HomeEvents : (homePromise (.orderingPointAccess 5) (demoNet 0x20000 0x20000 1024 (.write [⟨0, 0x20000, [(1, false)]⟩]))).isSome = true ∧
    (accessRule ⟨5, 0, 0, 0, 1, 1, 0, 0x10000, 0, 1024, 0x20000, 0x20000, 0, [], .write [⟨0, 0x20000, [(1, false)]⟩]⟩ demo).isSome = true := by decide +kernel
theorem witness_HomeEvents_atomic :
    (homePromise (.atomicPerform 5) (demoNet 0x20000 0x20000 1024 (.atomic none (.alu 0 4) ⟨0, 0x20000, ⟨3, false⟩, ⟨0, false⟩⟩))).isSome = true := by decide +kernel
theorem witness_CoolboxEvents : (coolboxPromise (.l1Eviction 0 1 0) demo).isSome = true := by decide +kernel
theorem witness_CopyEvents : (copyPromise (.copySegment 7) demoCopy).isSome = true ∧ demoCopy.canSegment theCopy = true := by decide +kernel
theorem witness_MatrixEvents : (matrixPromise (.mzeroRow 0 7) demoCommand).isSome = true ∧ demoCommand.canRow 0 theCommand = true := by decide +kernel
theorem witness_ForestEvents : (forestPromise (.eqCommit 7) demoWord).isSome = true ∧ demoWord.canCommit theWord = true := by decide +kernel
theorem witness_RecordEvents : (recordPromise (.trapRecordPost 7) { demo with postings := [⟨7, .trap, some 1, 0, 1, List.replicate 64 0, 0, 0⟩] }).isSome = true := by decide +kernel
theorem witness_DispatcherEvents : (dispatcherPromise (.watchdog 1) demo).isSome = true := by decide +kernel
theorem witness_RangerEvents : (rangerPromise (.killTeam 0 0) demo).isSome = true ∧ demo.teamAt 0 0 = some demo.cur := by decide +kernel
theorem witness_RangerEvents_write : (rangerPromise (.registerWrite 0xE0000000000 8 0) demo).isSome = true ∧ isControl 0xE0000000000 = true := by decide +kernel
theorem witness_LinkEvents : (linkPromise (.portBringUp 3 0) demo).isSome = true := by decide +kernel
theorem witness_HubEvents : (hubPromise (.powerLimit 2000) demo).isSome = true := by decide +kernel
theorem witness_HubEvents_trust : (trustPromise .getVersion demo).isSome = true := by decide +kernel
theorem witness_CallEvents : (callOf (.timeCall 1 0)).isSome = true ∧ (performRule (.timeCall 1 0) demo).isSome = true := by decide +kernel
theorem witness_CallEvents_process : (processPromise (.exitCall 1 0 0) demo).isSome = true := by decide +kernel

end Sys2Proof.Tests
end

section
/-! PROOFS. The issue of every instruction that a word encodes stays inside the team and its tile (O60). -/

namespace Sys2Proof.Machine

/-- What lies beyond the team is as before once an instruction that a word encodes has issued. The other cases are steps of the units and of
the outside world, which no word encodes. -/
theorem exec_same {i : Instr} (s : State) (h : (encodeWord i).isSome = true) : keepN s.beyond (exec i s) := by
  cases i with
  | nop => exact execNop_same (hs := rfl) ..
  | mode => exact execMode_same (hs := rfl) ..
  | rep => exact execRep_same (hs := rfl) ..
  | bra => exact execBra_same (hs := rfl) ..
  | jmp => exact execJmp_same (hs := rfl) ..
  | call => exact execCall_same (hs := rfl) ..
  | callr => exact execCallr_same (hs := rfl) ..
  | ret => exact execRet_same (hs := rfl) ..
  | exit => exact execExit_same (hs := rfl) ..
  | yield => exact execYield_same (hs := rfl) ..
  | add => exact execAdd_same (hs := rfl) ..
  | addc => exact execAddc_same (hs := rfl) ..
  | sub => exact execSub_same (hs := rfl) ..
  | subb => exact execSubb_same (hs := rfl) ..
  | neg => exact execNeg_same (hs := rfl) ..
  | mul => exact execMul_same (hs := rfl) ..
  | mad => exact execMad_same (hs := rfl) ..
  | abs => exact execAbs_same (hs := rfl) ..
  | div => exact execDiv_same (hs := rfl) ..
  | rem => exact execRem_same (hs := rfl) ..
  | min => exact execMin_same (hs := rfl) ..
  | max => exact execMax_same (hs := rfl) ..
  | mulh => exact execMulh_same (hs := rfl) ..
  | mulw => exact execMulw_same (hs := rfl) ..
  | madw => exact execMadw_same (hs := rfl) ..
  | mov => exact execMov_same (hs := rfl) ..
  | ldi => exact execLdi_same (hs := rfl) ..
  | and => exact execAnd_same (hs := rfl) ..
  | or => exact execOr_same (hs := rfl) ..
  | xor => exact execXor_same (hs := rfl) ..
  | andn => exact execAndn_same (hs := rfl) ..
  | not => exact execNot_same (hs := rfl) ..
  | shl => exact execShl_same (hs := rfl) ..
  | shr => exact execShr_same (hs := rfl) ..
  | shra => exact execShra_same (hs := rfl) ..
  | rot => exact execRot_same (hs := rfl) ..
  | popc => exact execPopc_same (hs := rfl) ..
  | clz => exact execClz_same (hs := rfl) ..
  | ctz => exact execCtz_same (hs := rfl) ..
  | brev => exact execBrev_same (hs := rfl) ..
  | sel => exact execSel_same (hs := rfl) ..
  | bfx => exact execBfx_same (hs := rfl) ..
  | bfi => exact execBfi_same (hs := rfl) ..
  | cmpN => exact execCmpN_same (hs := rfl) ..
  | cmpS => exact execCmpS_same (hs := rfl) ..
  | tst => exact execTst_same (hs := rfl) ..
  | fshf => exact execFshf_same (hs := rfl) ..
  | perm => exact execPerm_same (hs := rfl) ..
  | lea => exact execLea_same (hs := rfl) ..
  | dot4N => exact execDot4N_same (hs := rfl) ..
  | dot4S => exact execDot4S_same (hs := rfl) ..
  | sad => exact execSad_same (hs := rfl) ..
  | getcc => exact execGetcc_same (hs := rfl) ..
  | setcc => exact execSetcc_same (hs := rfl) ..
  | shfl => exact execShfl_same (hs := rfl) ..
  | voteSome => exact execVoteSome_same (hs := rfl) ..
  | voteEvery => exact execVoteEvery_same (hs := rfl) ..
  | voteSame => exact execVoteSame_same (hs := rfl) ..
  | ballot => exact execBallot_same (hs := rfl) ..
  | scan => exact execScan_same (hs := rfl) ..
  | scanEx => exact execScanEx_same (hs := rfl) ..
  | reduce => exact execReduce_same (hs := rfl) ..
  | matchLane => exact execMatchLane_same (hs := rfl) ..
  | bcast => exact execBcast_same (hs := rfl) ..
  | kmov => exact execKmov_same (hs := rfl) ..
  | fadd => exact execFadd_same (hs := rfl) ..
  | fsub => exact execFsub_same (hs := rfl) ..
  | fmul => exact execFmul_same (hs := rfl) ..
  | fma => exact execFma_same (hs := rfl) ..
  | fnma => exact execFnma_same (hs := rfl) ..
  | fdiv => exact execFdiv_same (hs := rfl) ..
  | fsqrt => exact execFsqrt_same (hs := rfl) ..
  | frcp => exact execFrcp_same (hs := rfl) ..
  | fmin => exact execFmin_same (hs := rfl) ..
  | fmax => exact execFmax_same (hs := rfl) ..
  | fminm => exact execFminm_same (hs := rfl) ..
  | fmaxm => exact execFmaxm_same (hs := rfl) ..
  | fabs => exact execFabs_same (hs := rfl) ..
  | fneg => exact execFneg_same (hs := rfl) ..
  | fcpys => exact execFcpys_same (hs := rfl) ..
  | fcmp => exact execFcmp_same (hs := rfl) ..
  | fclass => exact execFclass_same (hs := rfl) ..
  | frint => exact execFrint_same (hs := rfl) ..
  | fscale => exact execFscale_same (hs := rfl) ..
  | fgetx => exact execFgetx_same (hs := rfl) ..
  | sinpi => exact execSinpi_same (hs := rfl) ..
  | cospi => exact execCospi_same (hs := rfl) ..
  | exp2 => exact execExp2_same (hs := rfl) ..
  | log2 => exact execLog2_same (hs := rfl) ..
  | rcpa => exact execRcpa_same (hs := rfl) ..
  | rsqa => exact execRsqa_same (hs := rfl) ..
  | tanh => exact execTanh_same (hs := rfl) ..
  | fmtld => exact execFmtld_same (hs := rfl) ..
  | fmtrd => exact execFmtrd_same (hs := rfl) ..
  | cvt => exact execCvt_same (hs := rfl) ..
  | cvti => exact execCvti_same (hs := rfl) ..
  | cvtf => exact execCvtf_same (hs := rfl) ..
  | pack => exact execPack_same (hs := rfl) ..
  | unpack => exact execUnpack_same (hs := rfl) ..
  | scale => exact execScale_same (hs := rfl) ..
  | ld => exact execLd_same (hs := rfl) ..
  | ldv => exact execLdv_same (hs := rfl) ..
  | ldkB32 => exact execLdkB32_same (hs := rfl) ..
  | ldkB64 => exact execLdkB64_same (hs := rfl) ..
  | ldmx => exact execLdmx_same (hs := rfl) ..
  | acq => exact execAcq_same (hs := rfl) ..
  | pref => exact execPref_same (hs := rfl) ..
  | st => exact execSt_same (hs := rfl) ..
  | stv => exact execStv_same (hs := rfl) ..
  | stmx => exact execStmx_same (hs := rfl) ..
  | rel => exact execRel_same (hs := rfl) ..
  | flush => exact execFlush_same (hs := rfl) ..
  | invl => exact execInvl_same (hs := rfl) ..
  | fence => exact execFence_same (hs := rfl) ..
  | atom => exact execAtom_same (hs := rfl) ..
  | acas => exact execAcas_same (hs := rfl) ..
  | afadd => exact execAfadd_same (hs := rfl) ..
  | afmm => exact execAfmm_same (hs := rfl) ..
  | ared => exact execAred_same (hs := rfl) ..
  | aprog => exact execAprog_same (hs := rfl) ..
  | apload => exact execApload_same (hs := rfl) ..
  | cpl => exact execCpl_same (hs := rfl) ..
  | cpf => exact execCpf_same (hs := rfl) ..
  | cpt => exact execCpt_same (hs := rfl) ..
  | cpm => exact execCpm_same (hs := rfl) ..
  | binit => exact execBinit_same (hs := rfl) ..
  | arrive => exact execArrive_same (hs := rfl) ..
  | expect => exact execExpect_same (hs := rfl) ..
  | wait => exact execWait_same (hs := rfl) ..
  | cadd => exact execCadd_same (hs := rfl) ..
  | cread => exact execCread_same (hs := rfl) ..
  | bseal => exact execBseal_same (hs := rfl) ..
  | bwait => exact execBwait_same (hs := rfl) ..
  | stallrd => exact execStallrd_same (hs := rfl) ..
  | mcfg => exact execMcfg_same (hs := rfl) ..
  | mldb => exact execMldb_same (hs := rfl) ..
  | mma => exact execMma_same (hs := rfl) ..
  | mmas => exact execMmas_same (hs := rfl) ..
  | mzero => exact execMzero_same (hs := rfl) ..
  | mstore => exact execMstore_same (hs := rfl) ..
  | mdrain => exact execMdrain_same (hs := rfl) ..
  | mrun => exact execMrun_same (hs := rfl) ..
  | qmap => exact execQmap_same (hs := rfl) ..
  | qunmap => exact execQunmap_same (hs := rfl) ..
  | qstat => exact execQstat_same (hs := rfl) ..
  | qnotify => exact execQnotify_same (hs := rfl) ..
  | spawn => exact execSpawn_same (hs := rfl) ..
  | grow => exact execGrow_same (hs := rfl) ..
  | job => exact execJob_same (hs := rfl) ..
  | launch => exact execLaunch_same (hs := rfl) ..
  | eqset => exact execEqset_same (hs := rfl) ..
  | unite => exact execUnite_same (hs := rfl) ..
  | find => exact execFind_same (hs := rfl) ..
  | same => exact execSame_same (hs := rfl) ..
  | relabel => exact execRelabel_same (hs := rfl) ..
  | eqsnap => exact execEqsnap_same (hs := rfl) ..
  | equndo => exact execEqundo_same (hs := rfl) ..
  | eqdrop => exact execEqdrop_same (hs := rfl) ..
  | eqsize => exact execEqsize_same (hs := rfl) ..
  | eqfence => exact execEqfence_same (hs := rfl) ..
  | region => exact execRegion_same (hs := rfl) ..
  | sigchk => exact execSigchk_same (hs := rfl) ..
  | sigset => exact execSigset_same (hs := rfl) ..
  | trap => exact execTrap_same (hs := rfl) ..
  | sysc => exact execSysc_same (hs := rfl) ..
  | brk => exact execBrk_same (hs := rfl) ..
  | mfs => exact execMfs_same (hs := rfl) ..
  | mts => exact execMts_same (hs := rfl) ..
  | bind => exact execBind_same (hs := rfl) ..
  | unbind => exact execUnbind_same (hs := rfl) ..
  | tlbinv => exact execTlbinv_same (hs := rfl) ..
  | wcs => exact execWcs_same (hs := rfl) ..
  | macroRun => exact execMacroRun_same (hs := rfl) ..
  | _ => cases h

end Sys2Proof.Machine

open Sys2Proof Sys2Proof.Machine

/-- Settles O60, by the case of the instruction: each keeps what lies beyond the team through every shared operation it uses. -/
theorem issueStaysInside : Obligations.IssueStaysInside := by
  intro i s t henc hnext
  exact same_of_next hnext (exec_same s henc)

end

section
/-! PROOFS. What a step selects and runs (O3). -/

namespace Sys2Proof

/-- A word carries at most two literal words (R45). -/
theorem litCount_le_two (w : Word) : litCount w ≤ 2 := by
  unfold litCount
  dsimp only
  repeat' split
  all_goals decide

/-- Decoding reads of the literal words only those that the word carries (R45). -/
theorem decode_congr {w l l' m m' : Word} (hl : 1 ≤ litCount w → l = l') (hm : 2 ≤ litCount w → m = m') : decode w l m = decode w l' m' := by
  have hf : fieldsOf w l m = fieldsOf w l' m' := by
    unfold fieldsOf
    rw [ite_congr rfl hl fun _ => rfl, ite_congr rfl hm fun _ => rfl]
  unfold decode
  rw [hf]

end Sys2Proof

namespace Sys2Proof.Machine

/-! ### Fetching -/

/-- The literal words that a word carries, when each is found where it follows the word. -/
theorem State.codeWord_literals {s : State} {t : Team} {pc : BitVec 48} {n : Nat} {l1 l2 : Word} (hn : n ≤ 2)
    (h1 : 1 ≤ n → s.codeWord t (pc + 4) = .word l1) (h2 : 2 ≤ n → s.codeWord t (pc + 8) = .word l2) :
    (List.range n).map (fun j => s.codeWord t (pc + BitVec.ofNat 48 (4 * (j + 1)))) = [FetchedWord.word l1, .word l2].take n := by
  match n, hn with
  | 0, _ => rfl
  | 1, _ => exact congrArg (fun x => [x]) (h1 (by decide))
  | 2, _ => exact congr (congrArg (fun x y => [x, y]) (h1 (by decide))) (h2 (by decide))

/-- A word that decodes with the literal words found after it is fetched as that instruction (R45). -/
theorem State.withLiterals_of_decode {s : State} {t : Team} {pc : BitVec 48} {w l1 l2 : Word} {i : Instr}
    (h1 : 1 ≤ litCount w → s.codeWord t (pc + 4) = .word l1) (h2 : 2 ≤ litCount w → s.codeWord t (pc + 8) = .word l2)
    (hd : decode w l1 l2 = .ok i) : s.withLiterals t pc w = .instr i := by
  obtain ⟨j, hz⟩ := decode_zero hd
  have hn := litCount_le_two w
  unfold State.withLiterals
  dsimp only
  rw [State.codeWord_literals hn h1 h2, hz]
  match hc : litCount w, hn with
  | 0, _ =>
    have hw : decode w 0 0 = .ok i := (decode_congr (fun h => absurd h (by omega)) fun h => absurd h (by omega)).trans hd
    simp only [List.take, firstSome, List.getElem?_nil, hw]
  | 1, _ =>
    have hw : decode w l1 0 = .ok i := (decode_congr (fun _ => rfl) fun h => absurd h (by omega)).trans hd
    simp only [List.take, firstSome, List.getElem?_nil, List.getElem?_cons_zero, List.getElem?_cons_succ, hw]
  | 2, _ => simp only [List.take, firstSome, List.getElem?_cons_zero, List.getElem?_cons_succ, hd]

/-- A team's current group fetches the instruction that its code holds at the PC (R40). -/
theorem Team.finds.fetch {t : Team} {s : State} {g : Group} {i : Instr} (h : t.finds s g.pc i) : s.fetch t g = .instr i := by
  obtain ⟨hrep, hmac, w, l1, l2, hw, h1, h2, hd⟩ := h
  unfold State.fetch
  rw [hw, hrep, hmac]
  exact State.withLiterals_of_decode h1 h2 hd

/-! ### A team that waits for nothing -/

/-- A team that runs no operation of the control store stays where it is (R64). -/
theorem State.endMacro_of_mac_none {s : State} (h : s.cur.arch.mac = none) : s.endMacro = s := by
  unfold State.endMacro
  rw [h]

/-- Without links of a redirect there is none to write (R183). -/
theorem Team.writeLinks_of_links_nil {t : Team} (h : t.links = []) : t.writeLinks = t := by
  unfold Team.writeLinks
  rw [h]
  exact congrArg (fun ls => { t with links := ls }) h.symm

/-- A settled team waits for no frame (R96, R183). -/
theorem State.awaitFrames_of_settled {s : State} (h : s.settled) : s.awaitFrames = (false, s) := by
  obtain ⟨-, -, hlinks, hrefill⟩ := h
  have hsame : ({ s.cur with sched := { s.cur.sched with refilling := false } } : Team) = s.cur :=
    congrArg (fun b => { s.cur with sched := { s.cur.sched with refilling := b } }) hrefill.symm
  unfold State.awaitFrames
  rw [Team.writeLinks_of_links_nil hlinks]
  dsimp only
  rw [hrefill, Bool.false_and, hsame, hlinks]
  rfl

/-- A settled team whose arrays are whole runs the instruction that its current group finds. -/
theorem State.issueNext_of_finds {s : State} {g : Group} {i : Instr} (hs : s.settled) (hg : s.cur.current = some g)
    (hr : s.teamRebuilding g = false) (hf : s.cur.finds s g.pc i) : s.issueNext = exec i s := by
  have hawait := State.awaitFrames_of_settled hs
  have hfetch := hf.fetch
  obtain ⟨hsusp, hret, -, -⟩ := hs
  obtain ⟨-, hmac, -⟩ := hf
  unfold State.issueNext
  rw [hsusp, hret]
  dsimp only
  rw [hawait]
  dsimp only
  rw [if_neg Bool.false_ne_true, State.endMacro_of_mac_none hmac, hg]
  dsimp only
  rw [hr, if_neg Bool.false_ne_true, hfetch]

/-! ### What comes first -/

theorem State.arriving_of_inbox {s : State} {t : Nat} {i : Instr} {rest : List (Nat × Instr)} (h : s.inbox = (t, i) :: rest) (ht : t ≤ s.now) :
    s.arriving = some (i, { s with inbox := rest }) := by
  unfold State.arriving
  rw [h]
  exact if_pos ht

theorem State.privileged_of_privReady {s : State} {p : Priv} {i : Instr} (hp : s.privReady = some p) (hd : decode p.word 0 0 = .ok i) :
    s.privileged = some i := by
  unfold State.privileged
  rw [hp]
  dsimp only
  rw [hd]

section
variable {s : State} (hoff : s.hub.power.off = false)
include hoff

theorem step_of_arriving {i : Instr} {s' : State} (h : s.arriving = some (i, s')) : step s = exec i s' := by
  simp only [step, State.step, hoff, h, Bool.false_eq_true, if_false]

variable (ha : s.arriving = none)
include ha

theorem step_of_privileged {i : Instr} (h : s.privileged = some i) : step s = exec i s := by
  simp only [step, State.step, hoff, ha, h, Bool.false_eq_true, if_false]

variable (hp : s.privileged = none)
include hp

theorem step_of_nextEvent {i : Instr} (h : s.nextEvent = some i) : step s = exec i s := by
  simp only [step, State.step, hoff, ha, hp, h, Bool.false_eq_true, if_false]

/-- With nothing due before it, the step is a team's issue or the passing of a cycle. -/
theorem step_eq_issueOrTick (he : s.nextEvent = none) (hb : s.boundary = none) (hg : s.background = none) : step s = s.issueOrTick := by
  simp only [step, State.step, hoff, ha, hp, he, hb, hg, Bool.false_eq_true, if_false]

end

theorem State.issueOrTick_of_select {s v : State} (h : s.select = some v) : s.issueOrTick = v.issueNext := by
  unfold State.issueOrTick
  rw [h]

theorem State.issueOrTick_of_select_none {s : State} (h : s.select = none) : s.issueOrTick = .next s.tick := by
  unfold State.issueOrTick
  rw [h]

end Sys2Proof.Machine

open Sys2Proof Sys2Proof.Machine

/-- Settles O3: each clause is the branch of the step that its conditions select; a team's issue comes down to what it fetches. -/
theorem stepRunsDecoded : Obligations.StepRunsDecoded := by
  refine ⟨?arrives, ?privileged, ?event, ?issue, ?idle⟩
  case arrives =>
    intro s i rest t hoff hin ht
    exact step_of_arriving hoff (State.arriving_of_inbox hin ht)
  case privileged =>
    intro s p i ha hoff hp hd
    exact step_of_privileged hoff ha (State.privileged_of_privReady hp hd)
  case event =>
    intro s i ha hoff hp he
    exact step_of_nextEvent hoff ha hp he
  case issue =>
    intro s v g i ha hoff hp he hb hbg hsel hset hcur hreb hfinds
    rw [step_eq_issueOrTick hoff ha hp he hb hbg, State.issueOrTick_of_select hsel]
    exact State.issueNext_of_finds hset hcur hreb hfinds
  case idle =>
    intro s ha hoff hp he hb hbg hsel
    refine ⟨s.tick, ?_, rfl, rfl⟩
    rw [step_eq_issueOrTick hoff ha hp he hb hbg, State.issueOrTick_of_select_none hsel]

end

section
/-! PROOFS. Decoding gives an encoded instruction back (O2). The cases stand in groups, one for each way in which words carry the fields
of an instruction: in the register fields, in opcode bits, in the sub field of Format L, and in the 21 bits of Formats M and P. -/

namespace Sys2Proof

/-- Decoding an instruction's word with its literal words gives the instruction back. -/
def Instr.RoundTrips (i : Instr) : Prop := ∀ w, encodeWord i = some w → decode w (literal i) (literal2 i) = .ok i

theorem codesOk_of_wf {i : Instr} (h : i.wf = true) : i.codesOk = true := (Bool.and_eq_true_iff.1 h).1

theorem literalsOk_of_wf {i : Instr} (h : i.wf = true) : i.literalsOk = true := (Bool.and_eq_true_iff.1 h).2

theorem roundTrips_of_encode_none {i : Instr} (h : encodeWord i = none) : i.RoundTrips := by
  intro w hw
  rw [h] at hw
  cases hw

/-- A word of three fields decodes as its opcode's row says. -/
theorem roundTrips_of_row {i : Instr} {op : Nat} {d a b : Reg} {k : BitVec 11 → Fields → Option Instr} (hwf : i.wf = true)
    (hw : encodeWord i = some (wordT op d a b)) (hop : BitVec.ofNat 11 op ≠ 0)
    (hr : findRow (BitVec.ofNat 11 op).toNat (rowsOf ((BitVec.ofNat 11 op).toNat / 128)) = some k)
    (hk : k (BitVec.ofNat 11 op) ⟨d, a, b, literal i, literal2 i⟩ = some i) : i.RoundTrips := by
  intro w h
  rw [hw] at h
  cases h
  rw [decode_wordT i op d a b hop hw (literalsOk_of_wf hwf), decodeFields_row hr hk]

/-! ### Words of Formats M and P -/

/-- The three register fields of a word are its bits 20:0 (R41). -/
theorem ext_append_ext_low (l : BitVec 21) : (ext l 14 7 ++ ext l 7 7 ++ ext l 0 7 : BitVec 21) = l := by
  have hda : (ext l 14 7 ++ ext l 7 7 : BitVec 14) = ext l 7 14 := BitVec.extractLsb'_append_extractLsb'_eq_extractLsb' rfl
  have hdab : (ext l 7 14 ++ ext l 0 7 : BitVec 21) = l :=
    (BitVec.extractLsb'_append_extractLsb'_eq_extractLsb' rfl).trans BitVec.extractLsb'_eq_self
  rw [hda, hdab]

theorem wordM_eq_wordT (op : Nat) (l : BitVec 21) : wordM op l = wordT op (ext l 14 7) (ext l 7 7) (ext l 0 7) := by
  have hda := BitVec.append_assoc (x₁ := BitVec.ofNat 11 op) (x₂ := ext l 14 7) (x₃ := ext l 7 7)
  have hdab := BitVec.append_assoc (x₁ := BitVec.ofNat 11 op) (x₂ := ext l 14 7 ++ ext l 7 7) (x₃ := ext l 0 7)
  rw [BitVec.cast_eq] at hda hdab
  unfold wordT
  rw [hda, hdab, ext_append_ext_low]
  rfl

/-- A word of Formats M and P decodes as its opcode's row says of its bits 20:0. -/
theorem roundTrips_of_row_low {i : Instr} {op : Nat} {l : BitVec 21} {c : BitVec 21 → Bool} {j : BitVec 21 → Instr} (hwf : i.wf = true)
    (hw : encodeWord i = some (wordM op l)) (hop : BitVec.ofNat 11 op ≠ 0)
    (hr : findRow (BitVec.ofNat 11 op).toNat (rowsOf ((BitVec.ofNat 11 op).toNat / 128)) = some fun _ f => given (c f.low) (j f.low))
    (hc : c l = true) (hj : j l = i) : i.RoundTrips := by
  rw [wordM_eq_wordT] at hw
  refine roundTrips_of_row hwf hw hop hr ?_
  simp only [Fields.low, ext_append_ext_low, hc, hj]
  rfl

theorem mode_roundTrips (g : BitVec 4) (t : BitVec 5) (r : BitVec 3) (f s : BitVec 1) (b : BitVec 2) (n : BitVec 4)
    (h : (Instr.mode g t r f s b n).wf = true) : (Instr.mode g t r f s b n).RoundTrips := by
  refine roundTrips_of_row_low (c := fun l => ext l 0 1 == 0) (j := fun l =>
    .mode (ext l 17 4) (ext l 12 5) (ext l 9 3) (ext l 8 1) (ext l 7 1) (ext l 5 2) (ext l 1 4)) h rfl (by decide) rfl ?_ ?_
  · rw [ext, BitVec.extractLsb'_append_eq_right]
    rfl
  · simp (disch := decide) only [ext, BitVec.extractLsb'_append_eq_of_le, BitVec.extractLsb'_append_eq_of_add_le, Nat.reduceSub,
      BitVec.extractLsb'_eq_self]

theorem rep_roundTrips (c : BitVec 6) (d a b : BitVec 3) (h : (Instr.rep c d a b).wf = true) : (Instr.rep c d a b).RoundTrips := by
  refine roundTrips_of_row_low (c := fun l => ext l 0 6 == 0) (j := fun l =>
    .rep (ext l 15 6) (ext l 12 3) (ext l 9 3) (ext l 6 3)) h rfl (by decide) rfl ?_ ?_
  · rw [ext, BitVec.extractLsb'_append_eq_right]
    rfl
  · simp (disch := decide) only [ext, BitVec.extractLsb'_append_eq_of_le, BitVec.extractLsb'_append_eq_of_add_le, Nat.reduceSub,
      BitVec.extractLsb'_eq_self]

/-! ### Codes in the opcode -/

/-- A bit is 0 or 1. -/
theorem bit_cases : ∀ x : BitVec 1, x = 0 ∨ x = 1 := by decide

/-- A code that is at most `m` is one of the first `m + 1`. -/
theorem code_cases {w : Nat} (m : Nat) (x : BitVec w) (h : x.toNat ≤ m) : ∃ k ≤ m, x = BitVec.ofNat w k :=
  ⟨x.toNat, h, by rw [BitVec.ofNat_toNat, BitVec.setWidth_eq]⟩

/-! The values a code of a few bits can have, one by one. -/

theorem le_three {k : Nat} (h : k ≤ 3) : k = 0 ∨ k = 1 ∨ k = 2 ∨ k = 3 := by omega
theorem le_five {k : Nat} (h : k ≤ 5) : k = 0 ∨ k = 1 ∨ k = 2 ∨ k = 3 ∨ k = 4 ∨ k = 5 := by omega
theorem le_ten {k : Nat} (h : k ≤ 10) : k = 0 ∨ k = 1 ∨ k = 2 ∨ k = 3 ∨ k = 4 ∨ k = 5 ∨ k = 6 ∨ k = 7 ∨ k = 8 ∨ k = 9 ∨ k = 10 := by omega
theorem le_fifteen {k : Nat} (h : k ≤ 15) : k = 0 ∨ k = 1 ∨ k = 2 ∨ k = 3 ∨ k = 4 ∨ k = 5 ∨ k = 6 ∨ k = 7 ∨ k = 8 ∨ k = 9 ∨ k = 10 ∨ k = 11 ∨ k = 12 ∨ k = 13 ∨ k = 14 ∨ k = 15 := by omega

/-- The opcodes of class 0xF are those of the slots whose bodies they invoke (R63). -/
theorem macro_opcode : ∀ n : BitVec 7, BitVec.ofNat 11 (0x780 + n.toNat) ≠ 0 ∧ (BitVec.ofNat 11 (0x780 + n.toNat)).toNat / 128 = 15 ∧
    ((BitVec.ofNat 11 (0x780 + n.toNat)).toNat &&& 0x780 == 0x780) = true ∧ ext (BitVec.ofNat 11 (0x780 + n.toNat)) 0 7 = n := by decide

theorem macroRun_roundTrips (n : BitVec 7) (d a b : Reg) (h : (Instr.macroRun n d a b).wf = true) : (Instr.macroRun n d a b).RoundTrips := by
  obtain ⟨hne, hclass, hmask, hn⟩ := macro_opcode n
  refine roundTrips_of_row (k := fun o f => some (.macroRun (ext o 0 7) f.d f.a f.b)) h rfl hne ?_ ?_
  · rw [hclass]
    exact if_pos hmask
  · rw [hn]

/-! ### The sub field of Format L -/

/-- A legal encoding stands for the instruction that its fields give. -/
theorem given_of {c : Bool} {i j : Instr} (hc : c = true) (h : i = j) : given c i = some j := by
  rw [hc, h]
  rfl

/-- The sub field of AFMM: lookahead, offset bit, an unused bit, and which of two operations it is (R281). -/
theorem sub_of_afmm : ∀ (l : BitVec 4) (o m : BitVec 1), ext (l ++ o ++ 0#1 ++ m : BitVec 7) 3 4 = l ∧ ext (l ++ o ++ 0#1 ++ m : BitVec 7) 2 1 = o ∧
    ext (l ++ o ++ 0#1 ++ m : BitVec 7) 1 1 = 0 ∧ ext (l ++ o ++ 0#1 ++ m : BitVec 7) 0 1 = m := by decide

theorem afmm_roundTrips (d a : Reg) (l : BitVec 4) (o m : BitVec 1) (lit : Word) (h : (Instr.afmm d a l o m lit).wf = true) :
    (Instr.afmm d a l o m lit).RoundTrips := by
  obtain ⟨hla, hoff, hmbz, hm⟩ := sub_of_afmm l o m
  refine roundTrips_of_row h rfl (by decide) rfl (given_of ?_ ?_)
  · rw [hmbz]; rfl
  · simp only [Fields.la, hla, hoff, hm, literal]

end Sys2Proof

open Sys2Proof

/-- Settles O2, by the instruction: its word's opcode finds its row, which reads every field back from where the encoding put it. -/
theorem decodeInvertsEncode : Obligations.DecodeInvertsEncode := by
  intro i w hwf
  revert w
  show i.RoundTrips
  cases i
  case mode => exact mode_roundTrips _ _ _ _ _ _ _ hwf
  case rep => exact rep_roundTrips _ _ _ _ hwf
  case macroRun => exact macroRun_roundTrips _ _ _ _ hwf
  case afmm => exact afmm_roundTrips _ _ _ _ _ _ hwf
  -- a displacement is a multiple of 4 (R74)
  case bra | call => exact roundTrips_of_row hwf rfl (by decide) rfl (given_of (codesOk_of_wf hwf) rfl)
  -- the register fields carry all
  case nop | jmp | callr | ret | exit | yield | fshf | perm | lea | dot4N | dot4S | sad | getcc | setcc | voteSome | voteEvery | voteSame | ballot |
      fcmp | fmtrd | cvt | cvti | cvtf | pack | unpack | scale | pref | stv | stmx | rel | flush | invl | fence | apload | cpl | cpf | cpt | cpm |
      binit | arrive | expect | wait | cadd | bseal | bwait | stallrd | mcfg | mldb | mma | mmas | mzero | mstore | mdrain | mrun |
      qmap | qunmap | qstat | qnotify | spawn | grow | job | launch | eqset | relabel | eqsnap | equndo | eqdrop | eqsize | eqfence |
      region | sigchk | sigset | trap | sysc | brk | mfs | mts | bind | unbind | tlbinv | wcs =>
    exact roundTrips_of_row hwf rfl (by decide) rfl rfl
  -- one bit of the opcode is a size, or says whether codes are written
  case mov c _ _ _ | ldi c _ _ _ | and c _ _ _ _ | or c _ _ _ _ | xor c _ _ _ _ | andn c _ _ _ _ | not c _ _ _ | shl c _ _ _ _ | shr c _ _ _ _ |
      shra c _ _ _ _ | rot c _ _ _ _ | popc c _ _ _ | clz c _ _ _ | ctz c _ _ _ | brev c _ _ _ | sel c _ _ _ _ | bfi c _ _ _ _ | cmpN c _ _ _ |
      cmpS c _ _ _ | tst c _ _ _ | matchLane c _ _ _ | bcast c _ _ _ _ | kmov c _ _ _ _ | fadd c _ _ _ _ | fsub c _ _ _ _ | fmul c _ _ _ _ |
      fma c _ _ _ _ | fnma c _ _ _ _ | fmin c _ _ _ _ | fmax c _ _ _ _ | fminm c _ _ _ _ | fmaxm c _ _ _ _ | fabs c _ _ _ | fneg c _ _ _ |
      fcpys c _ _ _ _ | fclass c _ _ _ | frint c _ _ _ | fscale c _ _ _ _ | fgetx c _ _ _ =>
    obtain rfl | rfl := bit_cases c
    all_goals exact roundTrips_of_row hwf rfl (by decide) rfl rfl
  -- two bits
  case add w c _ _ _ _ | addc w c _ _ _ _ | sub w c _ _ _ _ | subb w c _ _ _ _ | neg w c _ _ _ | mul w c _ _ _ _ | mad w c _ _ _ _ | abs w c _ _ _ |
      mulh w c _ _ _ _ | mulw w c _ _ _ _ | madw w c _ _ _ _ | bfx w c _ _ _ _ =>
    obtain rfl | rfl := bit_cases w
    all_goals obtain rfl | rfl := bit_cases c
    all_goals exact roundTrips_of_row hwf rfl (by decide) rfl rfl
  -- three bits
  case min u w c _ _ _ _ | max u w c _ _ _ _ =>
    obtain rfl | rfl := bit_cases u
    all_goals obtain rfl | rfl := bit_cases w
    all_goals obtain rfl | rfl := bit_cases c
    all_goals exact roundTrips_of_row hwf rfl (by decide) rfl rfl
  -- a code of several bits
  case st n _ _ _ _ =>
    obtain ⟨k, hk, rfl⟩ := code_cases 3 n (Nat.le_pred_of_lt n.isLt)
    obtain rfl | rfl | rfl | rfl := le_three hk
    all_goals exact roundTrips_of_row hwf rfl (by decide) rfl rfl
  case shfl v w _ _ _ _ =>
    obtain ⟨k, hk, rfl⟩ := code_cases 3 v (Nat.le_pred_of_lt v.isLt)
    obtain rfl | rfl := bit_cases w
    all_goals obtain rfl | rfl | rfl | rfl := le_three hk
    all_goals exact roundTrips_of_row hwf rfl (by decide) rfl rfl
  case scan op _ _ _ | scanEx op _ _ _ | reduce op _ _ _ =>
    obtain ⟨k, hk, rfl⟩ := code_cases 15 op (Nat.le_pred_of_lt op.isLt)
    obtain rfl | rfl | rfl | rfl | rfl | rfl | rfl | rfl | rfl | rfl | rfl | rfl | rfl | rfl | rfl | rfl := le_fifteen hk
    all_goals exact roundTrips_of_row hwf rfl (by decide) rfl rfl
  case ared op w _ _ _ _ =>
    obtain ⟨k, hk, rfl⟩ := code_cases 10 op (of_decide_eq_true (codesOk_of_wf hwf))
    obtain rfl | rfl := bit_cases w
    all_goals obtain rfl | rfl | rfl | rfl | rfl | rfl | rfl | rfl | rfl | rfl | rfl := le_ten hk
    all_goals exact roundTrips_of_row hwf rfl (by decide) rfl rfl
  -- a lookahead
  case sinpi | cospi | exp2 | log2 | rcpa | rsqa | tanh | unite | find | same =>
    exact roundTrips_of_row hwf rfl (by decide) rfl (given_of (by rw [lo_of]; rfl) (by simp only [Fields.la, la_of]; rfl))
  case fdiv c _ _ _ _ | fsqrt c _ _ _ _ | frcp c _ _ _ _ =>
    obtain rfl | rfl := bit_cases c
    all_goals exact roundTrips_of_row hwf rfl (by decide) rfl (given_of (by rw [lo_of]; rfl) (by simp only [Fields.la, la_of]; rfl))
  case div u w c _ _ _ _ | rem u w c _ _ _ _ =>
    obtain rfl | rfl := bit_cases u
    all_goals obtain rfl | rfl := bit_cases w
    all_goals obtain rfl | rfl := bit_cases c
    all_goals exact roundTrips_of_row hwf rfl (by decide) rfl (given_of (by rw [lo_of]; rfl) (by simp only [Fields.la, la_of]; rfl))
  -- a lookahead and whether a byte offset follows
  case fmtld | ldv | ldkB32 | ldkB64 | ldmx | acq | afadd | aprog | cread =>
    exact roundTrips_of_row hwf rfl (by decide) rfl (given_of (by rw [sub_low]; rfl) (by simp only [Fields.la, sub_la, sub_off]; rfl))
  case acas w _ _ _ _ _ =>
    obtain rfl | rfl := bit_cases w
    all_goals exact roundTrips_of_row hwf rfl (by decide) rfl (given_of (by rw [sub_low]; rfl) (by simp only [Fields.la, sub_la, sub_off]; rfl))
  case ld t _ _ _ _ _ =>
    obtain ⟨k, hk, rfl⟩ := code_cases 5 t (of_decide_eq_true (codesOk_of_wf hwf))
    obtain rfl | rfl | rfl | rfl | rfl | rfl := le_five hk
    all_goals exact roundTrips_of_row hwf rfl (by decide) rfl (given_of (by rw [sub_low]; rfl) (by simp only [Fields.la, sub_la, sub_off]; rfl))
  case atom op w _ _ _ _ _ =>
    obtain ⟨k, hk, rfl⟩ := code_cases 10 op (of_decide_eq_true (codesOk_of_wf hwf))
    obtain rfl | rfl := bit_cases w
    all_goals obtain rfl | rfl | rfl | rfl | rfl | rfl | rfl | rfl | rfl | rfl | rfl := le_ten hk
    all_goals exact roundTrips_of_row hwf rfl (by decide) rfl (given_of (by rw [sub_low]; rfl) (by simp only [Fields.la, sub_la, sub_off]; rfl))
  -- steps that no word encodes
  all_goals exact roundTrips_of_encode_none rfl

end

section
/-! PROOFS. Instructions whose results pend (O10). -/

open Sys2Proof Sys2Proof.Machine

/-- Settles O10: the body of each of these instructions makes the results of its rule pend. -/
theorem longResults : Obligations.LongResults := by
  intro i f hf s o s1 h
  cases i
  case div | rem | fdiv | fsqrt | frcp | sinpi | cospi | exp2 | log2 | rcpa | rsqa | tanh =>
    cases hf
    exact issue_pends h rfl
  all_goals cases hf

end

section
/-! PROOFS. Control instructions: NOP, YIELD, SIGSET and SIGCHK (O20), MODE and MTS (O21), REP and the invocation of a body (O22). -/

namespace Sys2Proof.Machine

/-! ### YIELD, SIGSET and SIGCHK -/

/-- A team that has issued a YIELD yields at the instruction after it (R82). -/
theorem finish_yielded (o : Issue) (s : State) (e : End) (h : e.yields = true) :
    (finish o s e).cur.sched.yielded = some (s.cur.fallPc o) := by
  rw [finish_sched, after_yielded, h, if_pos rfl]

/-- SIGCHK passes where the signature is not valid, or agrees with the literal and the shadow unit has every group's mask (R194). -/
theorem sigchk_clean {o : Issue} {lit : Word}
    (h : o.g.sigOk = false ∨ (o.g.sig ^^^ 0xFFFFFFFF = lit ∧ ∀ g ∈ o.t.arch.groups, (g.pc, g.mask) ∈ o.t.shadow)) (clean bad shadowed : Res) :
    (if !o.g.sigOk then clean else if o.g.sig ^^^ 0xFFFFFFFF != lit then bad
      else if !(o.t.arch.groups.all fun g => o.t.shadow.contains (g.pc, g.mask)) then shadowed else clean) = clean := by
  rcases h with h | ⟨hsig, hshadow⟩
  · rw [h]
    rfl
  · have hall : (o.t.arch.groups.all fun g => o.t.shadow.contains (g.pc, g.mask)) = true := by
      simpa only [List.all_eq_true, List.contains_iff_mem] using hshadow
    rw [hsig, hall, bne_self_eq_false]
    simp

/-! ### MTS -/

/-- Changing lanes one after another, each of them once. -/
theorem lane_foldl_setLane (f : Nat → Lane → Lane) (ls : List Nat) (hn : ls.Nodup) (t : Team) :
    ls.foldl (fun t l => t.setLane l (f l)) t =
        { t with arch := { t.arch with lanes := (ls.foldl (fun t l => t.setLane l (f l)) t).arch.lanes } } ∧
      ∀ k, k < t.arch.lanes.length → (ls.foldl (fun t l => t.setLane l (f l)) t).lane k = if k ∈ ls then f k (t.lane k) else t.lane k := by
  induction ls generalizing t with
  | nil => exact ⟨rfl, fun k _ => (if_neg List.not_mem_nil).symm⟩
  | cons l ls ih =>
    obtain ⟨hl, hn⟩ := List.nodup_cons.1 hn
    obtain ⟨hrest, hlane⟩ := ih hn (t.setLane l (f l))
    refine ⟨hrest, fun k hk => ?_⟩
    rw [List.foldl_cons, hlane k (by rwa [show (t.setLane l (f l)).arch.lanes.length = _ from modifyAt_length _ _ _]), lane_setLane _ _ _ _ hk]
    by_cases hkl : k = l
    · subst hkl
      simp [hl]
    · simp [hkl]

/-- No lane's operand carries poison. -/
theorem poisonedLanes_nil {ls : List Nat} {f : Nat → PVal} (h : ∀ l ∈ ls, (f l).p = false) : poisonedLanes ls f = [] :=
  List.filter_eq_nil_iff.2 fun l hl => by rw [h l hl]; exact Bool.false_ne_true

/-- What MTS writes in a lane: the flags or the SEED (R177). -/
def mtsLane (lit : Word) (v : Word) (ln : Lane) : Lane :=
  if lit = 0 then { ln with xflags := v.extractLsb' 0 5 } else { ln with seed := v }

/-- MTS of clean and legal operands writes the lanes that are active. -/
theorem mts_done {b : Reg} {lit : Word} {s s1 : State} {o : Issue} (h : prepare (.mts b lit) s = .ok (o, s1))
    (hb : ∀ l ∈ o.act, (o.b l).p = false ∧ (lit = 0 → ((o.b l).v.extractLsb' 0 32) >>> 5 = 0)) :
    ∃ t, exec (.mts b lit) s = .next t ∧ Completes o { s1 with cur := o.act.foldl (fun t l => t.setLane l (mtsLane lit ((o.b l).v.extractLsb' 0 32))) s1.cur } t := by
  have hpoison := poisonedLanes_nil fun l hl => (hb l hl).1
  have hlegal : (if lit = 0 then o.act.filter fun l => ((o.b l).v.extractLsb' 0 32) >>> 5 != 0 else []) = [] := by
    split
    · next h0 => exact List.filter_eq_nil_iff.2 fun l hl => by rw [(hb l hl).2 h0]; decide
    · rfl
  refine issue_completes (e := ⟨[], [], passes o 1, none, o.sh.implicit, false, false, 0⟩) h ?_ ⟨rfl, rfl, rfl⟩ rfl
  dsimp only
  rw [hpoison, hlegal]
  rfl

/-! ### REP -/

/-- REP begins where its target can be fetched and is allowed (R61, R62). -/
theorem rep_begins {c : BitVec 6} {d a b : BitVec 3} {s s1 : State} {o : Issue} {w : Word} (h : prepare (.rep c d a b) s = .ok (o, s1))
    (hok : repOk s1 o (c.toNat + 1) w) :
    exec (.rep c d a b) s = .next (finish o
      { s1 with cur := s1.cur.setArch fun r => { r with pc := o.g.pc, rep := some (0, c.toNat + 1, 8 + 4 * litCount w) } }
      ⟨[], [], 1, none, false, true, false, 0⟩) := by
  obtain ⟨hword, hallowed, htarget⟩ := hok
  refine issue_done h ?_
  dsimp only
  rw [hword]
  dsimp only
  rw [hallowed, if_neg Bool.false_ne_true]
  rcases htarget with ⟨i, hfetch, hlegal⟩ | ⟨l, va, hfetch⟩
  · rw [hfetch]
    dsimp only
    rw [hlegal]
    rfl
  · rw [hfetch]
    rfl

end Sys2Proof.Machine

open Sys2Proof Sys2Proof.Machine

/-- Settles O20: each of the four is done at once with an `End` that moves no lane; what differs is the signature and the yielding. -/
theorem plainControl : Obligations.PlainControl := by
  refine ⟨?nop, ?yield, ?sigset, ?sigchk⟩
  case nop =>
    intro s o s1 h
    exact issue_completes (e := ⟨[], [], 1, none, o.sh.implicit, false, false, 0⟩) h rfl ⟨rfl, rfl, rfl⟩ rfl
  case yield =>
    intro s o s1 h
    let e : End := ⟨[], [], passes o 1, none, false, false, true, 0⟩
    exact ⟨finish o s1 e, issue_done h rfl, finish_completes o s1 e ⟨rfl, rfl, rfl⟩ rfl, finish_yielded o s1 e rfl⟩
  case sigset =>
    intro lit s o s1 h
    let e : End := ⟨[], [], 1, some lit, false, false, false, 0⟩
    exact ⟨finish o s1 e, e, issue_done h rfl, ⟨rfl, rfl, rfl⟩, rfl, finish_concludes o s1 e⟩
  case sigchk =>
    intro lit s o s1 h hclean
    let e : End := ⟨[], [], 1, some sigReset, false, false, false, 0⟩
    exact ⟨finish o s1 e, e, issue_done h (sigchk_clean hclean (.done s1 e) _ _), ⟨rfl, rfl, rfl⟩, rfl, finish_concludes o s1 e⟩

/-- Settles O21: MODE is done with the mode replaced; MTS changes each active lane once. -/
theorem modeWrites : Obligations.ModeWrites := by
  refine ⟨?mode, ?mts⟩
  case mode =>
    intro g t r f c b n s o s1 h
    exact issue_completes (e := ⟨[], [], 1, none, o.sh.implicit, false, false, 0⟩) h rfl ⟨rfl, rfl, rfl⟩ rfl
  case mts =>
    intro b lit s o s1 h hb
    obtain ⟨t, hexec, hcompletes⟩ := mts_done h hb
    obtain ⟨hrest, hlane⟩ := lane_foldl_setLane (fun l => mtsLane lit ((o.b l).v.extractLsb' 0 32)) o.act (act_nodup h) s1.cur
    exact ⟨_, t, hexec, hcompletes, congrArg (fun c => { s1 with cur := c }) hrest, hlane⟩

/-- Settles O22: both are done with an `End` that stays at the PC. -/
theorem repeatAndMacroBegin : Obligations.RepeatAndMacroBegin := by
  refine ⟨?rep, ?macroRun⟩
  case rep =>
    intro c d a b s o s1 w h hok
    exact ⟨_, rep_begins h hok, _, rfl, finish_concludes o _ _⟩
  case macroRun =>
    intro n d a b s o s1 h hbody
    refine ⟨_, issue_done (u := { s1 with cur := s1.cur.setArch fun r => { r with mac := some 0 } }) (e := ⟨[], [], 1, none, false, true, false, 0⟩) h ?_,
      _, rfl, finish_concludes o _ _⟩
    exact if_neg hbody

end

section
/-! PROOFS. A cause at decode is a trap at the instruction (O25). -/

namespace Sys2Proof.Machine

/-- An instruction with a cause at decode is not prepared: it traps with that cause (R56, R178). -/
theorem prepare_of_decodeCause {i : Instr} {w : Word} {g : Group} {s : State} {c : Nat} (hw : encodeWord i = some w) (hg : s.cur.current = some g)
    (hc : decodeCause i s.cur.arch.mode = some c) :
    prepare i s = .error (.trap c (maskOf (activeLanes s.cur g (Shape.of .none .none .none))) [] false none) := by
  unfold prepare
  simp only [hg, hw, hc]

end Sys2Proof.Machine

open Sys2Proof Sys2Proof.Machine

/-- Settles O25: preparing the issue answers the trap, which concludes the instruction before its own effect. -/
theorem decodeTraps : Obligations.DecodeTraps := by
  intro i w g s c hw hg hpriv huid hc
  obtain ⟨body, hexec⟩ := exec_issue hw
  obtain ⟨r, htaken, hresume, -, -⟩ := conclude_trap none c (maskOf (activeLanes s.cur g (Shape.of .none .none .none))) [] false none hg hw huid
  rw [hresume rfl] at htaken
  refine ⟨_, ?_, htaken⟩
  rw [hexec s hpriv]
  unfold issue
  rw [prepare_of_decodeCause hw hg hc]

end

section
/-! PROOFS. Worked encodings (O1) and the registers that read what the spec fixes (O6). -/

namespace Sys2Proof.Machine

/-- The kinds of the registers that are neither frame, uniform nor port registers (Table 3-2). -/
theorem regKind_fixed : regKind 112 = .zero ∧ regKind 113 = .special ∧ regKind 115 = .special ∧ regKind 125 = .special ∧ regKind 126 = .special ∧
    regKind 127 = .lit := by decide

section
variable (t : Team) (now : Nat) (lit : Word) (high : Bool) (pops : List (Nat × PWord))

/-- A special register reads the low half of its value, or all of it (R43). -/
theorem readReg_special {r : Reg} (hr : regKind r = .special) (w l : Nat) : readReg t now lit high pops w r l =
    if w = 1 then ⟨((t.special now l r.toNat).v.extractLsb' 0 32).zeroExtend 64, (t.special now l r.toNat).p⟩ else t.special now l r.toNat := by
  unfold readReg
  rw [hr]

theorem readReg_lit {r : Reg} (hr : regKind r = .lit) (w l : Nat) : readReg t now lit high pops w r l =
    if w = 1 then ⟨lit.zeroExtend 64, false⟩ else if high then ⟨lit ++ (0 : Word), false⟩ else ⟨lit.signExtend 64, false⟩ := by
  unfold readReg
  rw [hr]

theorem readReg_zero {r : Reg} (hr : regKind r = .zero) (w l : Nat) : readReg t now lit high pops w r l = ⟨0, false⟩ := by
  unfold readReg
  rw [hr]

end

theorem write_zero (t : Team) {r : Reg} (hr : regKind r = .zero) (l : Nat) (ws : List PWord) : t.write (destOf t r l) ws = t := by
  unfold destOf
  rw [hr]
  rfl

/-- The low half of a number. -/
theorem low_half (n : Nat) : ((BitVec.ofNat 64 n).extractLsb' 0 32).zeroExtend 64 = BitVec.ofNat 64 (n % 2 ^ 32) := by
  apply BitVec.eq_of_toNat_eq
  simp only [BitVec.toNat_setWidth, BitVec.extractLsb'_toNat, BitVec.toNat_ofNat]
  omega

theorem low_half_of_word (w : Word) : ((w.zeroExtend 64).extractLsb' 0 32).zeroExtend 64 = w.zeroExtend 64 := by
  apply BitVec.eq_of_toNat_eq
  simp only [BitVec.toNat_setWidth, BitVec.extractLsb'_toNat]
  omega

end Sys2Proof.Machine

open Sys2Proof Sys2Proof.Machine

/-- Settles O1, by decoding each word. -/
theorem decodeWords : Obligations.DecodeWords := by
  unfold Obligations.DecodeWords
  repeat' apply And.intro
  all_goals rfl

/-- Settles O6, by the kind of each register. -/
theorem fixedRegisters : Obligations.FixedRegisters := by
  intro t now lit high pops l
  obtain ⟨hzero, hlane, hwid, hcc, hclock, hlit⟩ := regKind_fixed
  refine ⟨?zero, ?lane, ?clock, ?clock64, ?cc, ?wid, ?lit, ?signed, ?high, ?write⟩
  case zero => exact fun w => readReg_zero t now lit high pops hzero w l
  case lane =>
    intro w hw hl
    rw [readReg_special t now lit high pops hlane]
    rcases hw with rfl | rfl
    · rw [if_pos rfl]
      exact congrArg (PVal.mk · false) ((low_half l).trans (by rw [Nat.mod_eq_of_lt hl]))
    · rfl
  case clock =>
    rw [readReg_special t now lit high pops hclock]
    exact congrArg (PVal.mk · false) (low_half now)
  case clock64 =>
    rw [readReg_special t now lit high pops hclock]
    rfl
  case cc =>
    intro w hw
    rw [readReg_special t now lit high pops hcc]
    rcases hw with rfl | rfl
    · exact congrArg (PVal.mk · (t.lane l).cc.p) (low_half_of_word _)
    · rfl
  case wid =>
    rw [readReg_special t now lit high pops hwid]
    rfl
  case lit => rw [readReg_lit t now lit high pops hlit, if_pos rfl]
  case signed =>
    rw [readReg_lit t now lit false pops hlit]
    rfl
  case high =>
    rw [readReg_lit t now lit true pops hlit]
    rfl
  case write => exact write_zero t hzero l

end

section
/-! PROOFS. When nothing holds an instruction back, it is prepared (O4). -/

namespace Sys2Proof.Machine

/-- The lanes of a mask are lanes of the team. -/
theorem lt_of_mem_activeLanes {t : Team} {g : Group} {sh : Shape} {l : Nat} (h : l ∈ activeLanes t g sh) : l < t.width :=
  List.mem_range.1 (List.mem_filter.1 (List.mem_filter.1 h).1).1

/-- Without a guard, or with clean codes, no lane's guard is poisoned (R103). -/
theorem poisonedGuard_nil {t : Team} {g : Group} (sh : Shape) (h : t.arch.mode.guard = 0 ∨ ∀ l ∈ lanesOf t.width g.mask, (t.lane l).cc.p = false) :
    poisonedGuard t g sh = [] := by
  unfold poisonedGuard
  split
  · rfl
  · next hn =>
    rcases h with h | h
    · exact absurd (by simp [h]) hn
    · exact List.filter_eq_nil_iff.2 fun l hl => by rw [h l hl]; exact Bool.false_ne_true

/-- A team with no result pending, its slots resident and room for a checkpoint is not stalled (R46, R92, R186). -/
theorem stallCause_none {t : Team} {i : Instr} {sh : Shape} {d a b : Reg} {now : Nat} {act : List Nat} (hpend : t.pend = [])
    (hyoung : (t.young now).length < Config.youngCheckpoints) (hact : ∀ l ∈ act, l < t.width)
    (hres : ∀ l, l < t.width → resident t l (slotsNamed t sh d a b l) = true) : stallCause t i sh d a b now act = none := by
  have hseen : ((if reachesLanes i then List.range t.width else act).any fun l => !resident t l (slotsNamed t sh d a b l)) = false := by
    rw [List.any_eq_false]
    intro l hl
    have hlt : l < t.width := by
      split at hl
      · exact List.mem_range.1 hl
      · exact hact l hl
    rw [hres l hlt]
    decide
  have hdep : dependence t i sh d a b now act = false := by
    unfold dependence
    rw [hpend]
    rfl
  unfold stallCause
  dsimp only
  rw [hseen, hdep, hpend]
  simp [Nat.not_le.2 hyoung]

theorem prepare_of_ready {i : Instr} {s : State} {g : Group} {w : Word} {s1 : State} (h : ReadyToIssue i s g w s1) :
    ∃ o, prepare i s = .ok (o, s1) := by
  obtain ⟨hgroup, hword, hlegal, hguard, hpend, hyoung, hregs, harrays, hcontrol, hports, hroom⟩ := h
  have hbad := poisonedGuard_nil (s.shapeOf i g) hguard
  have hstall := stallCause_none (i := i) hpend hyoung (fun l hl => lt_of_mem_activeLanes (g := g) (sh := shape i s.cur.arch.mode 1) hl) hregs
  have hnow : s1.now = s.now := by rw [(reserves_reserve _ hports).rest]
  unfold State.moves at hports hroom
  unfold State.shapeOf at hbad hstall harrays hcontrol hports hroom
  unfold prepare
  dsimp only
  rw [hgroup, hword]
  dsimp only
  rw [hlegal]
  dsimp only
  rw [hbad, hcontrol, harrays, hstall]
  dsimp only
  rw [hports]
  dsimp only
  rw [hnow, if_neg (Nat.not_lt.2 hroom)]
  exact ⟨_, rfl⟩

end Sys2Proof.Machine

open Sys2Proof Sys2Proof.Machine

/-- Settles O4: every check of the issue passes, and a prepared issue is as `Prepared` says. -/
theorem issuesWhenReady : Obligations.IssuesWhenReady := by
  intro i s g w s1 h
  obtain ⟨o, ho⟩ := prepare_of_ready h
  exact ⟨o, ho, prepared ho⟩

end

section
/-! PROOFS. Privileged issues (O47). -/

namespace Sys2Proof.Machine

/-- A privileged WCS writes the control store and is done (R67, R185). -/
theorem exec_wcs {s : State} {p : Priv} (a b : Reg) (lit : Word) (h : s.privReady = some p) :
    exec (.wcs a b lit) s = .next (State.privDone { s with tables := { s.tables with
      store := fput 0 s.tables.store (p.key / 64 * 4096 + bits (s.window p.key).issueA.toNat 11 0) ((s.window p.key).issueB.extractLsb' 0 32) } } p.key) := by
  simp only [exec, execWcs, h]

/-- A privileged TLBINV whose awaited accesses are done is done (R334). -/
theorem exec_tlbinv_waited {s : State} {p : Priv} (a b : Reg) (lit : Word) (h : s.privReady = some p) (hw : p.waits ≠ none) :
    exec (.tlbinv a b lit) s = .next (s.privDone p.key) := by
  obtain ⟨ids, hids⟩ := Option.ne_none_iff_exists'.1 hw
  simp only [exec, execTlbinv, h, hids]

/-- The entries that a TLBINV's selector names, as a test (R334). -/
def tlbHit (s : State) (key : Nat) (e : Tlb) : Bool :=
  e.tile == key / 64 && (bit (s.window key).issueB.toNat 31 || (e.ctx == bits (s.window key).issueB.toNat 16 0 &&
    (bit (s.window key).issueB.toNat 30 || (decide (e.va ≤ bits (s.window key).issueA.toNat 47 12 * 4096) &&
      decide (bits (s.window key).issueA.toNat 47 12 * 4096 < e.va + e.size)))))

theorem tlbHit_iff (s : State) (key : Nat) (e : Tlb) : tlbHit s key e = true ↔ tlbNamed s key e := by
  simp only [tlbHit, tlbNamed, Bool.and_eq_true, Bool.or_eq_true, beq_iff_eq, decide_eq_true_eq]

/-- The issue of a TLBINV that has removed its entries: it awaits the accesses translated through them (R334). -/
def tlbAwaits (s : State) (p : Priv) : Priv :=
  ⟨p.key, p.word, some (s.through (p.key / 64) (s.mem.tlb.filter (tlbHit s p.key)))⟩

/-- A privileged TLBINV that starts removes the entries it names and waits for the accesses translated through them (R334). -/
theorem exec_tlbinv_starts {s : State} {p : Priv} (a b : Reg) (lit : Word) (h : s.privReady = some p) (hw : p.waits = none) :
    exec (.tlbinv a b lit) s = .next { s with
      mem := { s.mem with tlb := s.mem.tlb.filter fun e => !tlbHit s p.key e,
                          table := s.mem.table.filter fun e => !tlbHit s p.key ⟨e.tile, e.ctx, e.va, levelSize e.level, 0⟩ }
      tables := { s.tables with priv := s.tables.priv.map fun q => if q.key = p.key then tlbAwaits s p else q } } := by
  simp only [exec, execTlbinv, h, hw]
  rfl

theorem mem_filter_not_hit {α : Type} (s : State) (key : Nat) (xs : List α) (f : α → Tlb) (x : α) :
    x ∈ xs.filter (fun y => !tlbHit s key (f y)) ↔ x ∈ xs ∧ ¬ tlbNamed s key (f x) := by
  rw [List.mem_filter, Bool.not_eq_true', ← tlbHit_iff, Bool.not_eq_true]

/-- Changing the issues of one window leaves every other in the list. -/
theorem mem_map_key {ps : List Priv} {r q : Priv} {key : Nat} (hr : r.key = key) :
    (q ∈ ps.map (fun p => if p.key = key then r else p) → q.key = key → q = r) ∧
    (q.key ≠ key → (q ∈ ps.map (fun p => if p.key = key then r else p) ↔ q ∈ ps)) := by
  have hback : ∀ q, q ∈ ps.map (fun p => if p.key = key then r else p) → (q = r ∨ (q.key ≠ key ∧ q ∈ ps)) := by
    intro q hq
    obtain ⟨p, hp, rfl⟩ := List.mem_map.1 hq
    by_cases hk : p.key = key
    · exact Or.inl (if_pos hk)
    · rw [if_neg hk]
      exact Or.inr ⟨hk, hp⟩
  refine ⟨fun hq hk => (hback q hq).resolve_right fun h => h.1 hk, fun hk => ⟨fun hq => ?_, fun hq => List.mem_map.2 ⟨q, hq, if_neg hk⟩⟩⟩
  rcases hback q hq with rfl | h
  · exact absurd hr hk
  · exact h.2

end Sys2Proof.Machine

open Sys2Proof Sys2Proof.Machine

/-- Settles O47: WCS and a TLBINV that has waited end the window's issue; a TLBINV that starts filters the TLB and the table cache. -/
theorem privilegedInstructions : Obligations.PrivilegedInstructions := by
  refine ⟨?wcs, fun a b lit s p hp => ⟨?starts, ?waited⟩⟩
  case wcs =>
    intro a b lit s p hp
    obtain ⟨hwin, hothers, hpriv⟩ := done_window { s with tables := { s.tables with
      store := fput 0 s.tables.store (p.key / 64 * 4096 + bits (s.window p.key).issueA.toNat 11 0) ((s.window p.key).issueB.extractLsb' 0 32) } } p.key
    exact ⟨_, exec_wcs a b lit hp, fget_fput_self .., fun k hk => fget_fput_of_ne _ _ _ hk, hwin, hothers, hpriv, rfl⟩
  case starts =>
    intro hw
    refine ⟨_, exec_tlbinv_starts a b lit hp hw, mem_filter_not_hit s p.key s.mem.tlb id,
      mem_filter_not_hit s p.key s.mem.table fun e => ⟨e.tile, e.ctx, e.va, levelSize e.level, 0⟩, fun q hq hk => ?_, fun q hk => (mem_map_key (r := tlbAwaits s p) rfl).2 hk, rfl⟩
    rw [(mem_map_key (r := tlbAwaits s p) rfl).1 hq hk]
    refine ⟨_, _, rfl, fun e => ?_, rfl⟩
    rw [List.mem_filter, tlbHit_iff]
  case waited =>
    intro hw
    obtain ⟨hwin, hothers, hpriv⟩ := done_window s p.key
    exact ⟨_, exec_tlbinv_waited a b lit hp hw, hwin, hothers, hpriv, rfl⟩

end

section
/-! PROOFS. The events of the Coolbox, the L1, pending results, checkpoints, frames, waiting teams, reservations and link queues (O49). -/

namespace Sys2Proof.Machine

/-- An event gives a next state, as it is promised. -/
def Promised (i : Instr) (s : State) : Prop := ∃ P t, coolboxPromise i s = some P ∧ exec i s = .next t ∧ P t

/-- An event that has nothing to act on, or whose conditions do not hold, leaves the state as it is. -/
theorem promised_unchanged {i : Instr} {s : State} (hp : coolboxPromise i s = some (· = s)) (he : exec i s = .next s) : Promised i s :=
  ⟨_, s, hp, he, rfl⟩

/-- The time and the Coolbox, each by itself. -/
theorem clk_fields {s t : State} (h : t.clk = s.clk) : t.now = s.now ∧ t.coolbox = s.coolbox := ⟨congrArg Prod.fst h, congrArg Prod.snd h⟩

/-! ### Effects that leave the Coolbox -/

theorem modQueue_queue (s : State) (tile e k : Nat) (f : TileQueue → TileQueue) :
    (s.modQueue tile e f).queue (k / 64) (k % 64) = if k = tile * 64 + e then f (s.queue (k / 64) (k % 64)) else s.queue (k / 64) (k % 64) := by
  have hk : k / 64 * 64 + k % 64 = k := Nat.div_add_mod' k 64
  unfold State.queue State.modQueue
  rw [hk, fget_fput]
  split
  · next h => rw [h]; rfl
  · rfl

theorem modThread_thread (s : State) (j k : Nat) (f : Thread → Thread) : (s.modThread j f).thread k = if k = j then f (s.thread k) else s.thread k := by
  unfold State.thread State.modThread
  rw [fget_fput]
  split
  · next h => rw [h]; rfl
  · rfl

/-- Marking a request for an engine as arrived, and starting what its forest has ready (R363). -/
theorem releaseForest_arrives (s : State) (rid : Nat) (e : Held) (he : e.eff = .forest rid) : EffectDone e s (s.releaseEffect e) := by
  unfold EffectDone State.releaseEffect
  rw [he]
  dsimp only
  split
  · obtain ⟨hreqs, hholds, hforests, hrest⟩ := startWalks_keeps
      { s with eq := { s.eq with reqs := modifyWhere (fun r => r.rid == rid) (fun r => { r with arrived := some s.now }) s.eq.reqs } } _
    refine ⟨hreqs.trans ?_, hholds, hforests, hrest⟩
    simp only [modifyWhere, beq_iff_eq]
  · refine ⟨?_, rfl, rfl, rfl⟩
    simp only [modifyWhere, beq_iff_eq]

/-- An effect that leaves does what its kind says. -/
theorem releaseEffect_done (e : Held) (s : State) : EffectDone e s (s.releaseEffect e) := by
  cases he : e.eff
  case forest rid => exact releaseForest_arrives s rid e he
  all_goals unfold EffectDone State.releaseEffect
  all_goals rw [he]
  case write ps unit =>
    cases unit
    case true => trivial
    case false =>
      cases ps with
      | nil => rfl
      | cons p ps => exact leaveInOrder e (p :: ps) s
  case expect pid xs =>
    match xs with
    | [] => trivial
    | [(l, ea, n)] => exact fun hsc hid => sendWhen_sent e s ea (.expect pid l ea n) hsc hid
    | _ :: _ :: _ => trivial
  case pop h slots => exact ⟨fun k => modQueue_queue s _ _ k _, rfl⟩
  case push h words => exact fun hk => releasePush_tile s e h words hk
  case notify h =>
    intro hk
    have hn : s.releaseNotify e h = s.notify (handleEntry h) := by
      unfold State.releaseNotify
      rw [hk]
      rfl
    dsimp only
    rw [hn]
    exact ⟨congrArg Thread.notify ((modThread_thread s _ _ _).trans (if_pos rfl)), fun k hne => (modThread_thread s _ _ _).trans (if_neg hne), rfl⟩
  case flush ea len => exact ⟨cleanLines_writes s (overlaps e.tile e.ctx ea (ea + len)) (fun _ => false) e.uid e.issue, (cleans_flushRange ..).quiet⟩
  case trap record => exact ⟨_, rfl, rfl, rfl, rfl⟩
  case mcfg c =>
    refine ⟨fun k hk => ?_, fun k hk => engine_mod_ne s hk _, rfl⟩
    dsimp only
    rw [engine_mod]
    exact (find_chan (fun k => { k with fetchable := true }) (fun _ => rfl) c _).trans (congrArg (Option.map _) hk)
  case bind base pages obj mask => exact send_sent e s _ _ _
  case unbind base mask => exact send_sent e s _ _ _
  all_goals trivial

theorem coolboxRelease_promised (id : Nat) (s : State) : Promised (.coolboxRelease id) s := by
  cases he : s.coolbox.find? (·.id == id) with
  | none => exact promised_unchanged (by simp only [coolboxPromise, he]) (by simp only [exec, execCoolboxRelease, he])
  | some e =>
    cases hr : s.canRelease e with
    | false => exact promised_unchanged (by simp [coolboxPromise, he, hr]) (by simp [exec, execCoolboxRelease, he, hr])
    | true =>
      refine ⟨_, _, by simp only [coolboxPromise, he, hr]; rfl, by simp only [exec, execCoolboxRelease, he, hr]; rfl, ?_⟩
      have hclk := clk_fields (State.releaseEffect_clk { s with coolbox := s.coolbox.filter (·.id != id) } e rfl)
      exact ⟨hclk.2, hclk.1, releaseEffect_done ..⟩

/-! ### What waits for write-backs, and lines of the L1 -/

/-- What RELEASE_WRITE does with a request that waits for nothing more: the dispatcher performs it, or it goes to its ordering point. -/
theorem execReleaseWrite_asks {id : Nat} {s : State} {x : Net} {m : LaneMask} {e : Effect} (hx : s.net? id = some x)
    (hg : (x.point != 9999 || s.waitsFor x.after || s.parkedNet x) = false) (ha : x.act = .ask m e) :
    execReleaseWrite id s = .next (s.performAsk x m e) := by
  unfold execReleaseWrite
  rw [hx]
  dsimp only
  rw [hg, ha, if_neg Bool.false_ne_true]

theorem execReleaseWrite_routes {id : Nat} {s : State} {x : Net} (hx : s.net? id = some x)
    (hg : (x.point != 9999 || s.waitsFor x.after || s.parkedNet x) = false) (ha : ∀ m e, x.act ≠ .ask m e) :
    execReleaseWrite id s = .next (s.routeNet x) := by
  unfold execReleaseWrite
  rw [hx]
  dsimp only
  rw [hg, if_neg Bool.false_ne_true]
  split
  · next h => exact absurd h (ha _ _)
  · rfl

/-- A request goes to its ordering point, parks on an absent page, or fails on a malformed translation (R299, R324). -/
theorem releaseWrite_promised (id : Nat) (s : State) : Promised (.releaseWrite id) s := by
  unfold Promised
  simp only [coolboxPromise, exec]
  cases hx : s.net? id with
  | none => exact ⟨_, s, rfl, by simp only [execReleaseWrite, hx], rfl⟩
  | some x =>
    have hd : (x.point != 9999) = decide (x.point ≠ 9999) := by by_cases h : x.point = 9999 <;> simp [h]
    dsimp only
    rw [← hd]
    cases hg : (x.point != 9999 || s.waitsFor x.after || s.parkedNet x) with
    | true => exact ⟨_, s, rfl, by simp only [execReleaseWrite, hx, hg, if_true], rfl⟩
    | false =>
      rw [if_neg Bool.false_ne_true]
      split
      · next m e ha =>
        rw [execReleaseWrite_asks hx hg ha]
        have hclk := clk_fields (State.performAsk_clk s x m e rfl)
        exact ⟨_, _, rfl, rfl, hclk.2, hclk.1⟩
      · next hask =>
        rw [execReleaseWrite_routes hx hg hask]
        cases hsc : isScratch x.va with
        | true => exact ⟨_, _, rfl, rfl, routeNet_goes s x x.va (.inl ⟨hsc, rfl⟩)⟩
        | false =>
          rw [if_neg Bool.false_ne_true]
          cases hw : s.walk x.tile x.ctx x.va with
          | leaf base size pte => exact ⟨_, _, rfl, rfl, routeNet_goes s x _ (.inr ⟨hsc, base, size, pte, hw, rfl⟩)⟩
          | absent l =>
            refine ⟨_, _, rfl, rfl, ?_⟩
            simp only [State.routeNet, hsc, hw]
            exact parkRequest_parks _ x _ l (ownerTeam_uid ..)
          | malformed =>
            dsimp only
            split
            · exact ⟨_, _, rfl, rfl, congrArg Prod.fst (State.routeNet_clk s x rfl)⟩
            · next hfetch =>
              refine ⟨_, _, rfl, rfl, ?_⟩
              simp only [State.routeNet, hsc, hw]
              exact failNet_failed s x 24 hfetch

theorem l1Eviction_promised (tile ctx va : Nat) (s : State) : Promised (.l1Eviction tile ctx va) s := by
  refine ⟨_, _, rfl, rfl, ?_⟩
  exact ⟨fun l hl hp => cleanLines_writes s _ (fun _ => true) 0 s.now l hl hp, fun l hl => by simpa using cleanLines_gone _ _ _ _ _ l hl, (cleans_cleanLines ..).quiet⟩

/-! ### Checkpoints, waiting teams, reservations and link queues -/

theorem checkpointSettle_promised (uid : Nat) (s : State) : Promised (.checkpointSettle uid) s := by
  cases ht : s.team? uid with
  | none => exact promised_unchanged (by simp only [coolboxPromise, ht]) (by simp only [exec, execCheckpointSettle, ht])
  | some t =>
    refine ⟨_, _, by simp only [coolboxPromise, ht]; rfl, by simp only [exec, execCheckpointSettle, ht]; rfl, ?_⟩
    have hf : (fun t : Team => t.settleCkpts s.now) =
        fun t => { t with ckpts := t.young s.now ++ (t.ckpts.filter fun c => decide (c.time + Config.Q ≤ s.now)).take 1 } := by
      funext t
      simp only [Team.settleCkpts, ← Nat.not_lt, decide_not]
    rw [hf]
    exact modTeam_changes _ _ _ fun _ => rfl

theorem waitWake_promised (uid : Nat) (s : State) : Promised (.waitWake uid) s := by
  cases ht : s.team? uid with
  | none => exact promised_unchanged (by simp only [coolboxPromise, ht]) (by simp only [exec, execWaitWake, ht])
  | some t =>
    cases hw : s.wakes t with
    | false => exact promised_unchanged (by simp [coolboxPromise, ht, hw]) (by simp [exec, execWaitWake, ht, hw])
    | true =>
      refine ⟨_, _, by simp only [coolboxPromise, ht, hw]; rfl, by simp only [exec, execWaitWake, ht, hw]; rfl, ?_⟩
      exact modTeam_changes _ _ _ fun _ => rfl

theorem reservationGrant_promised (uid : Nat) (s : State) : Promised (.reservationGrant uid) s := by
  unfold Promised
  simp only [coolboxPromise, exec, execReservationGrant]
  cases s.team? uid with
  | none => exact ⟨_, s, rfl, rfl, rfl⟩
  | some t =>
    dsimp only
    cases t.wants with
    | none => exact ⟨_, s, rfl, rfl, rfl⟩
    | some w =>
      obtain ⟨key, k⟩ := w
      dsimp only
      split
      · exact ⟨_, s, rfl, rfl, rfl⟩
      · cases s.grant t (key / 4) (key % 4 != 3) k with
        | none => exact ⟨_, s, rfl, rfl, rfl⟩
        | some g => exact ⟨_, _, rfl, rfl, modTeam_changes _ _ _ fun _ => rfl⟩

/-- Changing a link queue of a context that is not there changes nothing. -/
theorem modLink_absent (s : State) (c e : Nat) (f : LinkQueue → LinkQueue) (h : s.ctx? c = none) : s.modLink c e f = s := by
  have hno : ∀ x ∈ s.ctxs, ¬ x.id = c := by simpa [State.ctx?] using h
  have hmap : ∀ g : Ctx → Ctx, modifyWhere (fun x => x.id == c) g s.ctxs = s.ctxs := fun g => by
    unfold modifyWhere
    refine (List.map_congr_left fun x hx => ?_).trans (List.map_id _)
    rw [if_neg (by simpa using hno x hx)]
    rfl
  unfold State.modLink State.modCtx
  rw [hmap]

theorem link_modLink (s : State) (c e k : Nat) (f : LinkQueue → LinkQueue) {x : Ctx} (h : s.ctx? c = some x) :
    (s.modLink c e f).link c k = if k = e then f (s.link c e) else s.link c k := by
  unfold State.link
  rw [ctx_modLink, h]
  simp only [Option.map_some, if_true]
  exact fget_fput ..

theorem linkCredit_promised (ctx entry : Nat) (s : State) : Promised (.linkCredit ctx entry) s := by
  cases hk : s.keyOf Config.tiles ctx (s.link ctx entry).credit with
  | none =>
    refine promised_unchanged ?_ (by simp only [exec, execLinkCredit, hk])
    simp only [coolboxPromise, hk]
    split
    · contradiction
    · rfl
  | some key =>
    cases hc : s.ctx? ctx with
    | none => exact promised_unchanged (by simp only [coolboxPromise, hk, hc]) (by simp only [exec, execLinkCredit, hk, modLink_absent _ _ _ _ hc])
    | some x =>
      refine ⟨_, _, by simp only [coolboxPromise, hk, hc]; rfl, by simp only [exec, execLinkCredit, hk]; rfl, ?_⟩
      refine ⟨?_, fun e he => ?_, fun c hne => ?_, rfl⟩
      · rw [link_modLink _ _ _ _ _ hc, if_pos rfl]
      · rw [link_modLink _ _ _ _ _ hc, if_neg he]
      · rw [ctx_modLink]
        simp [hne]

/-! ### Answers that arrive -/

theorem net_id {s : State} {id : Nat} {x : Net} (h : s.net? id = some x) : x.id = id := by
  simpa using List.find?_some h

/-- An answer is an acknowledgement or the bytes of a line. -/
theorem isReply_cases {a : Act} (h : a.isReply = true) :
    (∃ pid rs xf failed ea n, a = .ack pid rs xf failed ea n) ∨ ∃ pid xs n sg line merge, a = .filled pid xs n sg line merge := by
  cases a with
  | ack => exact .inl ⟨_, _, _, _, _, _, rfl⟩
  | filled => exact .inr ⟨_, _, _, _, _, _, rfl⟩
  | _ => cases h

/-- The copies that know nothing of an answer are those that neither look for it as a write's nor as a credit's. -/
theorem copies_none_iff (s : State) (id : Nat) :
    (s.copies.all fun c => !(c.writes.any fun w => w.1 == id) && !(c.acks.any fun a => a.2 == id)) = true ↔
      s.copies.find? (fun c => c.writes.any fun w => w.1 == id) = none ∧ s.copies.find? (fun c => c.acks.any fun a => a.2 == id) = none := by
  simp only [List.all_eq_true, List.find?_eq_none, Bool.and_eq_true, Bool.not_eq_true', Bool.not_eq_true]
  exact ⟨fun h => ⟨fun c hc => (h c hc).1, fun c hc => (h c hc).2⟩, fun h c hc => ⟨h.1 c hc, h.2 c hc⟩⟩

theorem modPend_net (s : State) (uid pid : Nat) (f : Pend → Pend) : (s.modPend uid pid f).net = s.net := by
  unfold State.modPend State.modTeam
  split <;> rfl

theorem acknowledgement_promised (id : Nat) (s : State) : Promised (.acknowledgement id) s := by
  unfold Promised
  simp only [coolboxPromise, exec, execAcknowledgement]
  cases hx : s.net? id with
  | none => exact ⟨_, s, rfl, rfl, rfl⟩
  | some x =>
    dsimp only
    cases hg : (!x.act.isReply || decide (s.now < x.due)) with
    | true => exact ⟨_, s, rfl, rfl, rfl⟩
    | false =>
      rw [if_neg Bool.false_ne_true, if_neg Bool.false_ne_true]
      have hrep : x.act.isReply = true := by
        simp only [Bool.or_eq_false_iff, Bool.not_eq_false'] at hg
        exact hg.1
      by_cases hout : 1024 ≤ x.tile
      · rw [if_pos hout, if_pos hout]
        rcases isReply_cases hrep with ⟨pid, rs, xf, failed, ea, n, ha⟩ | ⟨pid, xs, n, sg, line, merge, ha⟩
        · rw [ha]
          simp only [State.answerOut, ha, net_id hx]
          refine ⟨_, _, rfl, rfl, ?_⟩
          split
          · exact ⟨_, rfl, rfl, rfl⟩
          · exact ⟨_, rfl, rfl, rfl⟩
        · rw [ha]
          exact ⟨_, _, rfl, rfl, by simp only [State.answerOut, ha, net_id hx]⟩
      · rw [if_neg hout, if_neg hout]
        rcases isReply_cases hrep with ⟨pid, rs, xf, failed, ea, n, ha⟩ | ⟨pid, xs, n, sg, line, merge, ha⟩
        · rw [ha]
          cases pid with
          | some pid =>
            cases failed with
            | none => exact ⟨_, _, rfl, rfl, modPend_foldl _ _ _ _ _⟩
            | some c => exact ⟨_, _, rfl, rfl, modPend_foldl _ _ _ _ _⟩
          | none =>
            dsimp only
            split
            · next h =>
              obtain ⟨hw, hk⟩ := (copies_none_iff s id).1 h
              exact ⟨_, _, rfl, by simp only [hw, hk], rfl⟩
            · refine ⟨_, _, rfl, rfl, ?_⟩
              refine clk_fields ?_
              split
              · exact State.copyAck_clk _ _ _ _ _ rfl
              · exact State.copyCredited_clk _ _ _ _ rfl
              · rfl
        · rw [ha]
          cases merge with
          | true =>
            refine ⟨_, _, rfl, rfl, _, rfl, ?_⟩
            dsimp only [if_true]
            split
            · rfl
            · exact modPend_foldl x.uid pid (fun (y : Nat × Nat × List (Option (Byte × Bool))) p =>
                p.arrive y.1 (loadedWords sg (overlay y.2.2 ((line.drop (y.2.1 % 64)).take n))) 0) xs _
          | false =>
            refine ⟨_, _, rfl, rfl, ?_⟩
            refine and_assoc.1 (And.imp_left clk_fields ?_)
            simp only [Bool.false_eq_true, if_false]
            split
            · split <;> exact ⟨rfl, rfl⟩
            · refine foldl_keeps (fun v : State => v.clk = s.clk ∧ v.net = s.net.filter (·.id != id)) _ (fun v y h => ?_) xs _ ?_
              · exact ⟨State.modPend_clk _ _ _ _ h.1, (modPend_net ..).trans h.2⟩
              · split <;> exact ⟨rfl, rfl⟩

/-! ### Frames -/

theorem rucksackSpill_promised (uid lane : Nat) (s : State) : Promised (.rucksackSpill uid lane) s := by
  unfold Promised
  simp only [coolboxPromise, exec, execRucksackSpill]
  cases ht : s.team? uid with
  | none => exact ⟨_, s, rfl, rfl, rfl⟩
  | some t =>
    dsimp only
    by_cases hl : 1024 ≤ lane
    · rw [if_pos hl, if_pos hl]
      cases s.entryToWrite t with
      | none => exact ⟨_, s, rfl, rfl, rfl⟩
      | some m =>
        dsimp only
        unfold State.writeEntry
        dsimp only
        cases hb : s.transferBlocked t (entryItem m.entry) (t.overflowAddr m.entry) m.group.mask Need.w with
        | some u =>
          exact ⟨_, u, rfl, rfl, clk_fields (clk_of_some hb (State.transferBlocked_clk s t _ _ _ _ rfl))⟩
        | none =>
          dsimp only [Option.isSome_none]
          rw [if_neg Bool.false_ne_true]
          split
          · exact ⟨_, s, rfl, rfl, rfl⟩
          · exact ⟨_, _, rfl, rfl, _, _, rfl, rfl, rfl, rfl, modTeam_changes _ _ _ fun _ => rfl⟩
    · rw [if_neg hl, if_neg hl]
      cases s.transferOf t lane with
      | none => exact ⟨_, s, rfl, rfl, rfl⟩
      | some tr =>
        cases tr with
        | spill c =>
          dsimp only
          cases hb : s.spillBlocked t lane c Need.w with
          | some u =>
            exact ⟨_, u, rfl, rfl, clk_fields (clk_of_some hb (State.spillBlocked_clk s t _ _ _ rfl))⟩
          | none =>
            dsimp only [Option.isSome_none]
            rw [if_neg Bool.false_ne_true]
            split
            · exact ⟨_, s, rfl, rfl, rfl⟩
            · exact ⟨_, _, rfl, rfl, _, _, rfl, rfl, team_uid ht, rfl, modTeam_changes _ _ _ fun _ => rfl⟩
        | move => exact ⟨_, _, rfl, rfl, modTeam_changes _ _ _ fun _ => rfl⟩
        | refill c => exact ⟨_, s, rfl, rfl, rfl⟩
        | raise c => exact ⟨_, s, rfl, rfl, rfl⟩

/-- What RUCKSACK_REFILL promises of a chunk that comes back, waits for its page, or for the Rucksack (R93). -/
def refillPromise (s : State) (t : Team) (lane c : Nat) (place : Frame → Frame) : Option (State → Prop) :=
  if (s.spillBlocked t lane c Need.r).isSome then some fun u => u.now = s.now ∧ u.coolbox = s.coolbox
  else if s.now < fget 0 s.busy (rucksackKey t) then some (· = s)
  else some (TeamChanges t.id.uid (fun t' => t'.setFrame lane fun f => place (f.put (16 * c) (s.chunkWords t lane c)))
    { s with busy := fput 0 s.busy (rucksackKey t) (s.now + 1) })

theorem refill_promised (s : State) (t : Team) (lane c : Nat) (place : Frame → Frame) :
    ∃ P, refillPromise s t lane c place = some P ∧ P (s.refill t lane c place) := by
  unfold refillPromise State.refill
  cases hb : s.spillBlocked t lane c Need.r with
  | some u =>
    exact ⟨_, rfl, clk_fields (clk_of_some hb (State.spillBlocked_clk s t _ _ _ rfl))⟩
  | none =>
    dsimp only [Option.isSome_none]
    rw [if_neg Bool.false_ne_true]
    split
    · exact ⟨_, rfl, rfl⟩
    · exact ⟨_, rfl, modTeam_changes _ _ _ fun _ => rfl⟩

theorem rucksackRefill_promised (uid lane : Nat) (s : State) : Promised (.rucksackRefill uid lane) s := by
  unfold Promised
  simp only [coolboxPromise, exec, execRucksackRefill]
  cases s.team? uid with
  | none => exact ⟨_, s, rfl, rfl, rfl⟩
  | some t =>
    dsimp only
    cases s.transferOf t lane with
    | none => exact ⟨_, s, rfl, rfl, rfl⟩
    | some tr =>
      cases tr with
      | refill c =>
        obtain ⟨P, hP, h⟩ := refill_promised s t lane c fun f => { f with lo := 16 * c }
        exact ⟨P, _, hP, rfl, h⟩
      | raise c =>
        obtain ⟨P, hP, h⟩ := refill_promised s t lane c fun f => { f with hi := 16 * c + 16 }
        exact ⟨P, _, hP, rfl, h⟩
      | spill c => exact ⟨_, s, rfl, rfl, rfl⟩
      | move => exact ⟨_, s, rfl, rfl, rfl⟩

/-! ### Results that land -/

theorem pend_id {s : State} {uid pid : Nat} {p : Pend} (h : s.pend? uid pid = some p) : p.id = pid := by
  obtain ⟨t, _, hf⟩ := Option.bind_eq_some_iff.1 h
  simpa using List.find?_some hf

/-- A plain pending instruction: no acquire, no format, no failed lane, no result bound for a port or a format register. -/
theorem plain_iff (p : Pend) : p.plain = true ↔ p.acq = false ∧ p.fmt = none ∧ p.failed = 0 ∧ ∀ r ∈ p.results, (∀ k, r.dest ≠ .port k) ∧ ∀ k, r.dest ≠ .fmt k := by
  unfold Pend.plain
  simp only [Bool.and_eq_true, Bool.not_eq_true', Option.isNone_iff_eq_none, beq_iff_eq, List.all_eq_true, and_assoc]
  refine and_congr_right fun _ => and_congr_right fun _ => and_congr_right fun _ => forall₂_congr fun r _ => ?_
  cases r.dest <;> simp

section
variable {p : Pend} (hp : p.plain = true)
include hp

theorem plain_together : p.together = false := by
  obtain ⟨hacq, hfmt, -, hdest⟩ := (plain_iff p).1 hp
  unfold Pend.together
  simp only [hacq, hfmt, Option.isSome_none, Bool.false_or, List.any_eq_false]
  intro r hr
  obtain ⟨hport, hf⟩ := hdest r hr
  split
  · next h => exact absurd h (hport _)
  · next h => exact absurd h (hf _)
  · exact Bool.false_ne_true

/-- Each result of a plain instruction lands by itself, once it has come. -/
theorem plain_landing (now : Nat) : p.landing now = p.come now := by
  obtain ⟨-, -, hfailed, -⟩ := (plain_iff p).1 hp
  funext r
  simp [Pend.landing, plain_together hp, hfailed, inMask]

theorem plain_cause (rs : List LaneResult) (hrs : ∀ r ∈ rs, r ∈ p.results) : firstSome formatCause rs = none := by
  obtain ⟨-, -, -, hdest⟩ := (plain_iff p).1 hp
  refine firstSome_none _ _ fun r hr => ?_
  unfold formatCause
  split
  · next h _ => exact absurd h ((hdest r (hrs r hr)).2 _)
  · rfl

theorem plain_badBlocks : badBlocks p = [] := by
  obtain ⟨-, hfmt, -, -⟩ := (plain_iff p).1 hp
  unfold badBlocks
  rw [hfmt]

theorem plain_checked : checkedResults p = p.results := by
  obtain ⟨-, hfmt, -, -⟩ := (plain_iff p).1 hp
  unfold checkedResults
  rw [hfmt]

/-- No word of a plain instruction lands on a port. -/
theorem plain_ports (lands onPort : LaneResult → Bool) (hport : ∀ r, (∀ k, r.dest ≠ .port k) → onPort r = false) :
    (p.results.filter lands).filter onPort = [] := by
  obtain ⟨-, -, -, hdest⟩ := (plain_iff p).1 hp
  refine List.filter_eq_nil_iff.2 fun r hr => ?_
  rw [hport r (hdest r (List.mem_filter.1 hr).1).1]
  exact Bool.false_ne_true

/-- What is kept of a plain instruction: nothing when every result has landed, else the others. -/
theorem keepPend_plain (t : Team) (lands : LaneResult → Bool) :
    (t.keepPend { p.rest lands with raised := false }).pend =
      if (p.results.filter lands).length = p.results.length then t.pend.filter (·.id != p.id)
      else modifyLast (·.id == p.id) (fun _ => { p.rest lands with raised := false }) t.pend := by
  obtain ⟨-, -, hfailed, -⟩ := (plain_iff p).1 hp
  have hall : ((p.results.filter fun r => !lands r).isEmpty && decide (p.failed = 0)) = decide ((p.results.filter lands).length = p.results.length) := by
    rw [Bool.eq_iff_iff]
    simp [hfailed, List.filter_eq_nil_iff]
  show (if ((p.results.filter fun r => !lands r).isEmpty && decide (p.failed = 0)) = true then _ else _) = _
  rw [hall]
  simp only [decide_eq_true_eq]
  rfl

end

/-- The results of a plain instruction that have come are written, and the others are kept: nothing else happens. -/
theorem resultLands_plain {s : State} {uid pid : Nat} {t : Team} {p : Pend} (ht : s.team? uid = some t) (hpid : s.pend? uid pid = some p)
    (hl : p.lands s.now = true) (hp : p.plain = true) :
    execResultLands uid pid s = .next (s.modTeam uid fun t => (t.landed p (p.due? s.now)).keepPend { p.rest (p.come s.now) with raised := false }) := by
  obtain ⟨hacq, -, hfailed, -⟩ := (plain_iff p).1 hp
  have hcause := plain_cause hp (p.results.filter (p.come s.now)) fun r hr => (List.mem_filter.1 hr).1
  unfold execResultLands
  rw [ht, hpid]
  simp only [hl, hcause, hacq, hfailed, plain_checked hp, plain_badBlocks hp, plain_landing hp, List.foldl_nil, ite_self,
    Bool.not_true, Bool.false_and, bne_self_eq_false, Bool.and_false, Bool.false_eq_true, if_false]
  rw [plain_ports hp]
  · rw [push_none]
    rfl
  · intro r hr
    split
    · next h => exact absurd h (hr _)
    · rfl

/-- What is promised of the team is that the plain results land and the others are kept. -/
theorem takes_keepPend {p : Pend} (hp : p.plain = true) (now : Nat) (t : Team) :
    (t.landed p (p.due? now)).keepPend { p.rest (p.come now) with raised := false } = { t.takes p (p.due? now) with
      pend := if (p.due? now).length = p.results.length then t.pend.filter (·.id != p.id)
        else modifyLast (·.id == p.id) (fun _ => { p.rest (p.come now) with raised := false }) t.pend } := by
  have hpend := keepPend_plain hp (t.landed p (p.due? now)) (p.come now)
  rw [landed_pend] at hpend
  exact congrArg (fun ps => { t.landed p (p.due? now) with pend := ps }) hpend

/-! Results that are checked or go to a port: the time and the bytes of memory stay. -/

/-- `u` has the time and the bytes of memory that `s` has. -/
def KeepsBytes (s u : State) : Prop := u.now = s.now ∧ u.mem.bytes = s.mem.bytes

theorem KeepsBytes.refl (s : State) : KeepsBytes s s := ⟨rfl, rfl⟩
theorem KeepsBytes.trans {s u v : State} (h : KeepsBytes s u) (k : KeepsBytes u v) : KeepsBytes s v := ⟨k.1.trans h.1, k.2.trans h.2⟩

theorem KeepsBytes.ite {s u v : State} {c : Prop} [Decidable c] (hu : KeepsBytes s u) (hv : KeepsBytes s v) : KeepsBytes s (if c then u else v) := by
  split <;> assumption

theorem keepsBytes_modTeam (s : State) (uid : Nat) (f : Team → Team) : KeepsBytes s (s.modTeam uid f) := by
  unfold State.modTeam
  split <;> exact ⟨rfl, rfl⟩

theorem keepsBytes_acquire (s : State) (tile ctx uid : Nat) (rs : List (Nat × Nat)) : KeepsBytes s (s.acquire tile ctx uid rs) := by
  have hquiet : Quiet s (s.acquire tile ctx uid rs) := (cleans_cleanLines ..).quiet
  have hrest := hquiet.rest
  exact ⟨by rw [hrest], by rw [hrest]⟩

theorem keepsBytes_voidPush (s : State) (ctx : Nat) (h : Word) (slots : List Nat) : KeepsBytes s (s.voidPush ctx h slots) := by
  have hrest := (queueOnly_voidPush s ctx h slots).rest
  exact ⟨by rw [hrest], by rw [hrest]⟩

theorem keepsBytes_pushLanded (s : State) (t : Team) (p : Pend) (rs : List LaneResult) : KeepsBytes s (s.pushLanded t p rs) := by
  unfold State.pushLanded
  split
  · exact .refl s
  · dsimp only
    split
    · split
      · exact .refl s
      · exact keepsBytes_voidPush ..
    · split
      · exact ⟨rfl, rfl⟩
      · exact keepsBytes_voidPush ..

theorem resultLands_keepsBytes {s : State} {uid pid : Nat} {t : Team} {p : Pend} (ht : s.team? uid = some t) (hpid : s.pend? uid pid = some p)
    (hl : p.lands s.now = true) : ∃ u, execResultLands uid pid s = .next u ∧ KeepsBytes s u := by
  unfold execResultLands
  rw [ht, hpid]
  simp only [hl, Bool.not_true, Bool.false_eq_true, if_false]
  refine ⟨_, rfl, ?_⟩
  refine .ite (.trans ?landed (keepsBytes_modTeam ..)) ?landed
  refine .trans (.trans ?checked (keepsBytes_modTeam ..)) (keepsBytes_pushLanded ..)
  refine .ite ?acquired (foldl_keeps (KeepsBytes s) _ ?record _ _ ?acquired)
  case acquired => exact .ite (keepsBytes_acquire ..) (.refl s)
  case record => exact fun _ _ h => h.trans ⟨rfl, rfl⟩

theorem resultLands_promised (uid pid : Nat) (s : State) : Promised (.resultLands uid pid) s := by
  unfold Promised
  cases ht : s.team? uid with
  | none => exact promised_unchanged (by simp only [coolboxPromise, ht]) (by simp only [exec, execResultLands, ht])
  | some t =>
    cases hpid : s.pend? uid pid with
    | none => exact promised_unchanged (by simp only [coolboxPromise, ht, hpid]) (by simp only [exec, execResultLands, ht, hpid])
    | some p =>
      cases hl : p.lands s.now with
      | false => exact promised_unchanged (by simp [coolboxPromise, ht, hpid, hl]) (by simp [exec, execResultLands, ht, hpid, hl])
      | true =>
        cases hp : p.plain with
        | true =>
          refine ⟨_, _, by simp only [coolboxPromise, ht, hpid, hl, hp]; rfl, resultLands_plain ht hpid hl hp, ?_⟩
          rw [funext (takes_keepPend hp s.now), pend_id hpid]
          exact modTeam_changes _ _ _ fun t => landed_id t p _
        | false =>
          obtain ⟨u, he, hk⟩ := resultLands_keepsBytes ht hpid hl
          exact ⟨_, u, by simp only [coolboxPromise, ht, hpid, hl, hp]; rfl, he, hk⟩

end Sys2Proof.Machine

open Sys2Proof Sys2Proof.Machine

/-- Settles O49: each of the events gives its promised state, by the theorem about it. -/
theorem coolboxEvents : Obligations.CoolboxEvents := by
  intro s uid l id e tile ctx va i hi
  simp only [List.mem_cons, List.not_mem_nil, or_false] at hi
  rcases hi with rfl | rfl | rfl | rfl | rfl | rfl | rfl | rfl | rfl | rfl | rfl
  · exact coolboxRelease_promised id s
  · exact releaseWrite_promised id s
  · exact acknowledgement_promised id s
  · exact l1Eviction_promised tile ctx va s
  · exact resultLands_promised uid id s
  · exact checkpointSettle_promised uid s
  · exact waitWake_promised uid s
  · exact reservationGrant_promised uid s
  · exact linkCredit_promised ctx e s
  · exact rucksackSpill_promised uid l s
  · exact rucksackRefill_promised uid l s

end

section
/-! PROOFS. Branches, jumps, calls, returns and the end of lanes (O15 to O19). -/

namespace Sys2Proof.Machine

/-! ### The transfer of lanes -/

/-- An instruction whose body transfers the lanes of `act` to the targets `f` and ends those of `ended`. -/
theorem issue_transfers {i : Instr} {s s1 u : State} {o : Issue} {body : Issue → State → Res} {act ended : List Nat} {f : Nat → BitVec 48}
    (h : prepare i s = .ok (o, s1)) (hb : body o s1 = o.transfer u (act.map fun l => (l, f l)) ended) :
    ∃ t, issue i body s = .next t ∧ Transfers o (fun l => if l ∈ act then some (f l) else none) ended u t :=
  let e : End := ⟨act.map fun l => (l, f l), ended, passes o 1, none, false, false, false, 0⟩
  ⟨_, issue_done h hb, transfers (finish_concludes o u e) rfl act f rfl⟩

/-- An instruction whose body is a call within the slot limit, with its links' slots resident (R79). -/
theorem issue_calls {i : Instr} {s s1 : State} {o : Issue} {body : Issue → State → Res} {x : Reg} {len : Nat} {target : Nat → BitVec 48}
    (h : prepare i s = .ok (o, s1)) (hok : callOk o s1 x.toNat) (hb : body o s1 = o.doCall s1 x len target) :
    ∃ u t, issue i body s = .next t ∧ Called o x.toNat len s1 u ∧
      Transfers o (fun l => if l ∈ o.act then some (target l) else none) [] u t := by
  obtain ⟨u, hcall, hcalled⟩ := call_body (len := len) (target := target) (act_nodup h) hok
  obtain ⟨t, hnext, hmoved⟩ := issue_transfers h (hb.trans hcall)
  exact ⟨u, t, hnext, hcalled, hmoved⟩

/-! ### Returns -/

/-- The lanes that a RET sends back to their links: the active ones that a call has entered (R80). -/
def Issue.returning (o : Issue) (s : State) : List Nat := o.act.filter fun l => (s.cur.lane l).depth != 0

theorem Issue.mem_returning {o : Issue} {s : State} {l : Nat} : l ∈ o.returning s ↔ l ∈ o.act ∧ (s.cur.lane l).depth ≠ 0 := by
  rw [Issue.returning, List.mem_filter, bne_iff_ne]

/-- The frame pointer that a lane's link gives back (R80). -/
def callerFp (s : State) (l : Nat) : Word := BitVec.ofNat 32 ((s.cur.lane l).fp.toNat + 2 ^ 32 - linkShift s l)

/-- The PC that a lane's link holds (R72). -/
def returnPc (s : State) (l : Nat) : BitVec 48 := (linkOf s l).2.w.extractLsb' 0 16 ++ (linkOf s l).1.w

/-- The team once the lanes that return have left their frames. -/
def Issue.leaveFrames (o : Issue) (s : State) : Team :=
  (o.returning s).foldl (fun t l => t.moveFrame l (callerFp s l) ((s.cur.lane l).depth - 1) false) s.cur

/-- RET passes its checks where every link that it reads is in order: the lanes return, and those that no call has entered end (R80). -/
theorem doRet_eq_transfer {o : Issue} {s : State} (h : ∀ l ∈ o.returning s, linkOk s l) :
    o.doRet s = o.transfer { s with cur := o.leaveFrames s } ((o.returning s).map fun l => (l, returnPc s l))
      (o.act.filter fun l => (s.cur.lane l).depth == 0) := by
  have hresident : ¬ ((o.returning s).any fun l => !resident s.cur l [(s.cur.lane l).fp.toNat - 2, (s.cur.lane l).fp.toNat - 1]) = true := by
    simpa using fun l hl => have ⟨hslots, _⟩ := h l hl; hslots
  have hlanded : ¬ ((o.returning s).any fun l => s.cur.awaits (fun p => !inWindow s.cur p) l ((s.cur.lane l).fp.toNat - 2) 2) = true := by
    simpa using fun l hl => have ⟨_, hnone, _⟩ := h l hl; hnone
  have hclean : ¬ (!((o.returning s).filter fun l => (linkOf s l).1.p || (linkOf s l).2.p).isEmpty) = true := by
    simpa using fun l hl => have ⟨_, _, hlow, hhigh, _⟩ := h l hl; ⟨hlow, hhigh⟩
  have hlegal : ¬ (!((o.returning s).filter (badLink s)).isEmpty) = true := by
    simpa using fun l hl => have ⟨_, _, _, _, hlink⟩ := h l hl; hlink
  exact (if_neg hresident).trans ((if_neg hlanded).trans ((if_neg hclean).trans (if_neg hlegal)))

/-- A return writes no slot: what stays in the live range keeps its word. -/
theorem leaveFrames_frames {o : Issue} {s : State} (hn : o.act.Nodup) :
    Frames (o.returning s) (callerFp s) (fun l => (s.cur.lane l).depth - 1) (fun _ _ => none) s { s with cur := o.leaveFrames s } := by
  obtain ⟨hrest, -, -, hlanes, hothers, hslots⟩ := frames_foldl (o.returning s) (hn.filter _) (fun _ t => t) (callerFp s)
    (fun l => (s.cur.lane l).depth - 1) false (fun _ _ => none) s.cur (fun _ _ => ⟨rfl, rfl, fun _ _ => rfl, rfl, fun _ _ => rfl⟩)
  exact ⟨hlanes, hslots, hothers, congrArg (fun t => { s with cur := t }) hrest⟩

end Sys2Proof.Machine

open Sys2Proof Sys2Proof.Machine

/-- Settles O15: BRA transfers the active lanes, all to one target. -/
theorem branchTakesDisplacement : Obligations.BranchTakesDisplacement := by
  intro lit s o s1 h
  exact issue_transfers h rfl

/-- Settles O16: with legal targets JMP transfers the active lanes. -/
theorem jumpTakesTargets : Obligations.JumpTakesTargets := by
  intro a s o s1 h htargets
  exact issue_transfers h (withTargets_ok htargets)

/-- Settles O17: CALL is a call of 8 bytes, and CALLR one of 4 bytes whose targets have been checked. -/
theorem callsPushLinks : Obligations.CallsPushLinks := by
  refine ⟨?call, ?callr⟩
  case call =>
    intro x lit s o s1 h hok
    exact issue_calls h hok rfl
  case callr =>
    intro x a s o s1 h htargets hok
    exact issue_calls h hok (withTargets_ok htargets)

/-- Settles O18: a lane that a call has entered leaves its frame for the caller's, and the others end. -/
theorem returnsPopLinks : Obligations.ReturnsPopLinks := by
  intro s o s1 h hlinks
  have hok : ∀ l ∈ o.returning s1, linkOk s1 l := fun l hl =>
    have ⟨hact, hdepth⟩ := Issue.mem_returning.1 hl
    hlinks l hact hdepth
  obtain ⟨t, hnext, hmoved⟩ := issue_transfers h (doRet_eq_transfer hok)
  exact ⟨_, t, hnext, leaveFrames_frames (act_nodup h), hmoved⟩

/-- Settles O19: EXIT sends no lane anywhere, and all that are active end. -/
theorem exitEndsLanes : Obligations.ExitEndsLanes := by
  intro s o s1 h
  exact ⟨_, issue_done h rfl, _, rfl, rfl, fun _ => rfl, finish_concludes o s1 _⟩

end

section
/-! PROOFS. Results that land at issue: integer, logic and code instructions (O8), SEL (O9), cross-lane instructions (O12). -/

namespace Sys2Proof.Machine

section
variable {i : Instr} {s s1 : State} {o : Issue} {body : Issue → State → Res} (h : prepare i s = .ok (o, s1)) (hq : queueOrLaunch i = false)
include h hq

/-- An instruction that computes a value and codes lane by lane, or once for the team, from its sources (R103, R104, R106). -/
theorem issue_compute {cc : Bool} {poison : Nat → Bool} {v : Nat → Dword × Codes} (hb : body o s1 = o.compute s1 cc poison v) :
    ∃ u t, issue i body s = .next t ∧ Computes o s1 u (fun l => valueRule cc (poison l) (v l)) ∧ Completes o u t :=
  issue_computes h hq hb

/-- An instruction that gives each lane a value with its poison, and neither codes nor flags. -/
theorem issue_moves {v : Nat → PVal} (hb : body o s1 = o.moves s1 v) :
    ∃ u t, issue i body s = .next t ∧ Computes o s1 u (fun l => bareRule (v l)) ∧ Completes o u t :=
  issue_computes h hq hb

/-- An instruction that gives each lane a combined value with its flags (R125, R126). -/
theorem issue_combined {c : Nat → Comb} (hb : body o s1 = o.combined s1 c) :
    ∃ u t, issue i body s = .next t ∧ Computes o s1 u (fun l => combRule (c l)) ∧ Completes o u t :=
  issue_computes h hq hb

/-- A vote gives every lane one number, made of the values of the active lanes (R121). -/
theorem issue_vote {f : List Word → Bool} {x : Bool} (hb : body o s1 = o.vote s1 f) (hx : f (o.act.map fun l => (o.a l).at 32) = x) :
    ∃ u t, issue i body s = .next t ∧ Computes o s1 u (fun _ => bareRule ⟨BitVec.ofNat 64 (b2n x), o.anyPoison⟩) ∧ Completes o u t := by
  subst hx
  exact issue_moves h hq hb

/-- BCAST and KMOV give every destination the named lane's value where no lane's selector carries poison (R106, R123). -/
theorem issue_fromLane (hclean : ∀ l ∈ o.act, (o.b l).p = false) (hb : body o s1 = o.fromLane s1) :
    ∃ u t, issue i body s = .next t ∧ Computes o s1 u (fun _ => bareRule (o.a o.named)) ∧ Completes o u t := by
  have hnone : ¬ (o.act.any fun l => (o.b l).p) = true := by simpa using hclean
  exact issue_moves h hq (hb.trans (if_neg hnone))

end

/-- The operand that SEL chooses for a lane (R117). -/
def Issue.selected (o : Issue) (l : Nat) : PVal := if guardHolds o.mode.guard (o.codes l) then o.a l else o.b l

/-- SEL computes the operand that it chooses where the codes that its guard reads carry no poison (R103, R117). -/
theorem sel_computes {w : BitVec 1} {d a b : Reg} {lit : Word} {s s1 : State} {o : Issue} (h : prepare (.sel w d a b lit) s = .ok (o, s1))
    (hguard : o.mode.guard = 0 ∨ ∀ l ∈ o.lanes, (o.codes l).p = false) :
    ∃ u t, exec (.sel w d a b lit) s = .next t ∧
      Computes o s1 u (fun l => valueRule false (o.selected l).p (plainSized w fun n => (o.selected l).at n)) ∧ Completes o u t := by
  have hclean : (if o.mode.guard = 0 then [] else o.lanes.filter fun l => (o.codes l).p) = [] := by
    split
    · rfl
    · next hg => exact List.filter_eq_nil_iff.2 fun l hl => by rw [hguard.resolve_left hg l hl]; exact Bool.false_ne_true
  refine issue_compute h rfl ?_
  dsimp only
  rw [hclean]
  rfl

end Sys2Proof.Machine

open Sys2Proof Sys2Proof.Machine

/-- Settles O8: each of these instructions computes the value and codes of its rule, but MFS, which reads a system register. -/
theorem integerResults : Obligations.IntegerResults := by
  intro i f hf s o s1 h
  cases i
  case add | addc | sub | subb | neg | mul | mad | abs | min | max | mulh | mulw | madw | mov | ldi | and | or | xor | andn | not | shl | shr | shra |
      rot | popc | clz | ctz | brev | bfx | bfi | cmpN | cmpS | tst | fshf | perm | lea | dot4N | dot4S | sad | getcc | setcc =>
    cases hf
    exact issue_compute h rfl rfl
  case mfs =>
    cases hf
    exact issue_computes h rfl rfl
  all_goals cases hf

/-- Settles O9: with clean codes SEL computes the operand that the guard picks. -/
theorem selectResults : Obligations.SelectResults := by
  intro w d a b lit s o s1 h hguard
  obtain ⟨u, t, hexec, hcomputes, hcompletes⟩ := sel_computes h hguard
  exact ⟨u, t, hexec, hcompletes, hcomputes⟩

/-- Settles O12: a vote looks at the active lanes' values, a scan or reduction combines them, and the others move one lane's value. -/
theorem crossLaneResults : Obligations.CrossLaneResults := by
  refine ⟨?received, ?named⟩
  case received =>
    intro i f hf s o s1 h
    cases i
    case shfl | ballot | matchLane =>
      cases hf
      exact issue_moves h rfl rfl
    case voteSome =>
      cases hf
      exact issue_vote h rfl rfl List.any_map
    case voteEvery =>
      cases hf
      exact issue_vote h rfl rfl List.all_map
    case voteSame =>
      cases hf
      exact issue_vote h rfl rfl List.all_map
    case scan | scanEx | reduce =>
      cases hf
      exact issue_combined h rfl rfl
    all_goals cases hf
  case named =>
    intro i hi s o s1 h hclean
    rcases hi with ⟨w, d, a, b, lit, rfl | rfl⟩
    all_goals
      obtain ⟨u, t, hexec, hcomputes, hcompletes⟩ := issue_fromLane h rfl hclean rfl
      exact ⟨u, t, hexec, hcompletes, hcomputes⟩

end

section
/-! PROOFS. A guard that reads poisoned codes (O26). -/

namespace Sys2Proof.Machine

/-- A legal instruction whose guard reads poisoned codes is not prepared: it consumes the poison (R103). -/
theorem prepare_of_poisonedGuard {i : Instr} {w : Word} {g : Group} {s : State} (hw : encodeWord i = some w) (hg : s.cur.current = some g)
    (hlegal : decodeCause i s.cur.arch.mode = none) (hbad : poisonedGuard s.cur g (s.shapeOf i g) ≠ []) :
    prepare i s = .error (.rollback 19 (maskOf (poisonedGuard s.cur g (s.shapeOf i g))) [] false) := by
  unfold State.shapeOf at hbad ⊢
  unfold prepare
  simp only [hg, hw, hlegal, List.isEmpty_eq_false_iff.2 hbad, Bool.not_false, if_true]

/-- A consumed poison or a mismatch at an issue takes the team back to its newest checkpoint, the first time (R190). -/
theorem conclude_rollback {s : State} {c : Ckpt} {cs : List Ckpt} (i : Instr) (o : Option Issue) (cause : Nat) (m : LaneMask) (tv : List (Nat × Dword))
    (sh : Bool) (hu : s.cur.id.uid ≠ 0) (hc : s.cur.ckpts = c :: cs) (hr : c.retried = false) :
    RolledBack s (conclude i s o (.rollback cause m tv sh)) c cause := by
  obtain ⟨harch, hstatus, hcoolbox, hckpts, hpend, hretry, hmem⟩ := rollback_rolls s (s.cur.current.getD ⟨0, 0, 0, 0, 0, false⟩).pc
    (trapInfo ⟨cause, m, tv, 0, sh, 0, 0, 0, none, false⟩ s (s.cur.current.getD ⟨0, 0, 0, 0, 0, false⟩) ((encodeWord i).getD 0) false) c cs hu hc hr
  exact ⟨harch, hstatus, hcoolbox, hckpts, hpend, hretry, hmem⟩

end Sys2Proof.Machine

open Sys2Proof Sys2Proof.Machine

/-- Settles O26: preparing the issue answers the rollback, which concludes the instruction before its own effect. -/
theorem poisonedGuardRollsBack : Obligations.PoisonedGuardRollsBack := by
  intro i w g s c cs hw hg hpriv huid hlegal hbad hckpts hretried
  obtain ⟨body, hexec⟩ := exec_issue hw
  refine ⟨_, ?_, conclude_rollback i none 19 (maskOf (poisonedGuard s.cur g (s.shapeOf i g))) [] false huid hckpts hretried⟩
  rw [hexec s hpriv]
  unfold issue
  rw [prepare_of_poisonedGuard hw hg hlegal hbad]

end

section
/-! PROOFS. Conversions (O13) and the read of a format register (O14). -/

namespace Sys2Proof

/-- A word of three fields decodes by its opcode and its fields, whatever the literals. -/
theorem decode_wordT_fields {op : Nat} (d a b : Reg) (lit lit2 : Word) (hop : BitVec.ofNat 11 op ≠ 0) :
    ∃ l m, decode (wordT op d a b) lit lit2 = decodeFields (BitVec.ofNat 11 op) ⟨d, a, b, l, m⟩ := by
  have hz : ¬ (wordT op d a b == 0) = true := by simpa using wordT_ne op d a b hop
  refine ⟨if 1 ≤ litCount (wordT op d a b) then lit else 0, if 2 ≤ litCount (wordT op d a b) then lit2 else 0, ?_⟩
  rw [decode, if_neg hz, opcode_wordT, fieldsOf, d_wordT, a_wordT, b_wordT]

/-- Fields that the row of an opcode does not accept are an illegal encoding (R56). -/
theorem decodeFields_illegal {op : BitVec 11} {f : Fields} {k : BitVec 11 → Fields → Option Instr}
    (hk : findRow op.toNat (rowsOf (op.toNat / 128)) = some k) (h : k op f = none) : decodeFields op f = .error .illegalEncoding := by
  unfold decodeFields
  rw [hk]
  dsimp only
  rw [h]

/-- FMTRD has neither an a nor a b (R154). -/
theorem fmtrd_illegal {a b : Reg} (d : Reg) (lit lit2 : Word) (hab : a ≠ 0 ∨ b ≠ 0) :
    decode (wordT 0x211 d a b) lit lit2 = .error .illegalEncoding := by
  obtain ⟨l, m, hdecode⟩ := decode_wordT_fields (op := 0x211) d a b lit lit2 (by decide)
  have hfields : (a == 0 && b == 0) = false := by
    rw [Bool.and_eq_false_iff, beq_eq_false_iff_ne, beq_eq_false_iff_ne]
    exact hab
  rw [hdecode]
  refine decodeFields_illegal (k := fun _ f => given (f.a == 0 && f.b == 0) (.fmtrd f.d f.lit)) rfl ?_
  dsimp only
  rw [hfields]
  rfl

end Sys2Proof

namespace Sys2Proof.Machine

/-- A conversion writes the converted values to the state in which it has drawn from SEEDs and posted its record. -/
theorem issue_converts {i : Instr} {s s1 s2 : State} {o : Issue} {body : Issue → State → Res} {p : Nat → Bool} {g : Nat → Nat × BitVec 5}
    (h : prepare i s = .ok (o, s1)) (hq : queueOrLaunch i = false) (hdraws : Draws i o s1 s2) (hb : body o s1 = o.convert s2 p g) :
    ∃ s2, Draws i o s1 s2 ∧ ∃ u t, issue i body s = .next t ∧ Computes o s2 u (fun l => convRes (p l) (g l)) ∧ Completes o u t :=
  ⟨s2, hdraws, issue_computes_after h hq hb⟩

/-- FMTRD computes the selected descriptor in every lane (R154). -/
theorem fmtrd_computes {d : Reg} {lit : Word} {s s1 : State} {o : Issue} (h : prepare (.fmtrd d lit) s = .ok (o, s1)) :
    ∃ u t, exec (.fmtrd d lit) s = .next t ∧
      Computes o s1 u (fun _ => (⟨(s1.cur.arch.nf.getD s.cur.arch.mode.nf 0).zeroExtend 64, false⟩, none, 0)) ∧ Completes o u t := by
  have hp := prepared h
  have hvalue : (fun _ : Nat => convRes false ((o.t.arch.nf.getD o.mode.nf 0).toNat, 0)) =
      fun _ => (⟨(s1.cur.arch.nf.getD s.cur.arch.mode.nf 0).zeroExtend 64, false⟩, none, 0) := by
    rw [hp.team, hp.mode, convRes, BitVec.ofNat_toNat]
    rfl
  rw [← hvalue]
  exact issue_computes h rfl rfl

/-- FMTRD into a uniform register acts once: it has no source (R104). -/
theorem fmtrd_once {d : Reg} {lit : Word} {s s1 : State} {o : Issue} (h : prepare (.fmtrd d lit) s = .ok (o, s1)) (hd : regKind d = .uni) :
    o.uniform = true := by
  have hfield : (regFields (.fmtrd d lit)).1 = d := d_wordT 0x211 d 0 0
  rw [(prepared h).uniform, (prepared h).sh, hfield]
  exact actsOnce_of_uni (i := .fmtrd d lit) rfl hd rfl

end Sys2Proof.Machine

open Sys2Proof Sys2Proof.Machine

/-- Settles O13: CVT, CVTF and PACK step SEEDs, UNPACK posts its record, the others draw nothing; then each writes its converted values. -/
theorem conversionResults : Obligations.ConversionResults := by
  intro i f hf s o s1 h hready
  cases i
  case cvt | cvtf | pack =>
    cases hf
    exact issue_converts h rfl (stepSeeds_draws s1 (act_lanes_nodup h).2 rfl rfl) (controlled_ok hready)
  case unpack =>
    cases hf
    exact issue_converts h rfl (padRecord_draws s1 rfl rfl) (controlled_ok hready)
  case cvti =>
    cases hf
    exact issue_converts h rfl (Draws.refl rfl rfl) (controlled_ok hready)
  case scale | fmtrd =>
    cases hf
    exact issue_converts h rfl (Draws.refl rfl rfl) rfl
  all_goals cases hf

/-- Settles O14: FMTRD computes the selected descriptor, and only words whose a and b are 0 decode to it. -/
theorem fmtrdReads : Obligations.FmtrdReads := by
  refine ⟨?reads, ?illegal, ?word⟩
  case reads =>
    intro d lit s o s1 h
    obtain ⟨u, t, hexec, hcomputes, hcompletes⟩ := fmtrd_computes h
    exact ⟨u, t, hexec, hcompletes, hcomputes, fmtrd_once h⟩
  case illegal => exact fun d _ _ lit lit2 hab => fmtrd_illegal d lit lit2 hab
  case word => rfl

end

section
/-! PROOFS. Loads (O28). -/

namespace Sys2Proof.Machine

theorem addrsL_lanes (o : Issue) (x : BitVec 1) : (o.addrsL x).map (·.1) = o.lanes := by
  simp [Issue.addrsL, Function.comp_def]

theorem addrsL_map_lanes (o : Issue) (x : BitVec 1) (f : PVal → PVal) : ((o.addrsL x).map fun y => (y.1, f y.2)).map (·.1) = o.lanes := by
  rw [List.map_map]
  exact addrsL_lanes o x

/-- A load whose accesses pass reads what the tile supplies and asks for the rest (R213, R215), each lane for itself or with one access
for the team. -/
theorem passes_loads {o : Issue} {s : State} {eas : List (Nat × PVal)} {n : Nat} {noEf : Bool} {xs : List Access1}
    (hp : (loadAccess o eas n noEf).passes s xs) (hu : o.t.id.uid = s.cur.id.uid) (hlanes : (eas.map (·.1)).Nodup) (signed : Bool)
    {mark : Pend → Pend} (results : List Nat → List LaneResult)
    (hmark : ∀ p, mark p = { p with bcast := (mark p).bcast, fmt := (mark p).fmt, range := (mark p).range })
    (hone : ∀ p, (mark p).bcast = true → p.bcast = true ∨ eas.length ≤ 1) :
    ∃ u e, o.load s eas n signed noEf mark results = .done u e ∧ (e.onward ∧ e.sig = none) ∧
      Loads o s u ⟨n, signed, results (xs.map (·.lane))⟩ xs :=
  load_loads hu hlanes hp.check hp.some hp.waits hmark hone

section
variable {i : Instr} {s s1 : State} {o : Issue} {body : Issue → State → Res} (h : prepare i s = .ok (o, s1))
include h

/-- A load of each lane's own bytes (R153, R222, R223). -/
theorem issue_loads {eas : List (Nat × PVal)} {n : Nat} {noEf : Bool} {xs : List Access1} (hp : (loadAccess o eas n noEf).passes s1 xs)
    (hlanes : eas.map (·.1) = o.lanes) (signed : Bool) {mark : Pend → Pend} (results : List Nat → List LaneResult)
    (hmark : ∀ p, mark p = { p with fmt := (mark p).fmt, range := (mark p).range }) (hb : body o s1 = o.load s1 eas n signed noEf mark results) :
    ∃ u t, issue i body s = .next t ∧ Loads o s1 u ⟨n, signed, results (xs.map (·.lane))⟩ xs ∧ Completes o u t := by
  have hbcast : ∀ p, (mark p).bcast = p.bcast := fun p => by rw [hmark p]
  obtain ⟨u, e, hload, hends, hloads⟩ := passes_loads hp (by rw [(prepared h).team]) (by rw [hlanes]; exact (act_lanes_nodup h).2) signed results
    (fun p => by rw [hbcast]; exact hmark p) (fun p hb => .inl (hbcast p ▸ hb))
  exact complete_loads h (hb.trans hload) hends hloads

/-- LDK: one access for the team, whose value goes to every active lane (R224). -/
theorem issue_loadK {x : BitVec 1} {n : Nat} {xs : List Access1} (hp : (loadAccess o.one (o.one.addrsL x) n true).passes s1 xs)
    (hb : body o s1 = o.loadK s1 x n) :
    ∃ u t, issue i body s = .next t ∧ Loads o s1 u ⟨n, false, o.dests o.lanes (n / 4)⟩ xs ∧ Completes o u t := by
  have hlanes : (o.one.addrsL x).map (·.1) = o.act.take 1 := addrsL_lanes o.one x
  have hlength : (o.one.addrsL x).length ≤ 1 := by
    rw [← List.length_map (f := (·.1)), hlanes]
    exact List.length_take_le 1 o.act
  obtain ⟨u, e, hload, hends, hloads⟩ := passes_loads hp (by rw [← (prepared h).team]; rfl)
    (by rw [hlanes]; exact (List.take_sublist _ _).nodup (act_lanes_nodup h).1) false (mark := fun p => { p with bcast := true })
    (fun _ => o.dests o.lanes (n / 4)) (fun _ => rfl) (fun _ _ => .inr hlength)
  exact complete_loads h (hb.trans hload) hends ⟨hloads.pend, hloads.held, hloads.reads, hloads.net, hloads.rest⟩

end

end Sys2Proof.Machine

open Sys2Proof Sys2Proof.Machine

/-- Settles O28: LD, LDV and FMTLD load each lane's own bytes, LDK loads once for the team. -/
theorem loadsRead : Obligations.LoadsRead := by
  intro i f g hf hg s o s1 xs h hp
  cases i
  case ld t d a l x lit =>
    cases hf
    cases hg
    exact issue_loads h hp (addrsL_lanes o x) (t = 1 || t = 3) (fun ls => o.dests ls o.sh.d.words) (fun _ => rfl) rfl
  case ldv d a l x lit =>
    cases hf
    cases hg
    exact issue_loads h hp (addrsL_lanes o x) false (fun ls => o.dests ls 4) (fun _ => rfl) rfl
  case ldkB32 | ldkB64 =>
    cases hf
    cases hg
    exact issue_loadK h hp rfl
  case fmtld a l x lit =>
    cases hf
    cases hg
    have hdests : (xs.map fun x => (⟨x.lane, .fmt o.mode.nf, 1, 0, false, [], none, 0⟩ : LaneResult)) =
        (xs.map (·.lane)).map fun k => ⟨k, .fmt o.mode.nf, 1, 0, false, [], none, 0⟩ := by
      rw [List.map_map]
      rfl
    dsimp only
    rw [hdests]
    exact issue_loads h hp (addrsL_map_lanes o x fun v => ⟨v.v &&& ~~~3#64, v.p⟩) false
      (fun ls => ls.map fun k => ⟨k, .fmt o.mode.nf, 1, 0, false, [], none, 0⟩) (fun _ => rfl) rfl
  all_goals cases hg

end

section
/-! PROOFS. Floating-point arithmetic whose results land at issue (O11). -/

namespace Sys2Proof.Machine

/-- The results of a floating-point instruction are those of its rule, lane by lane or once for the team (R104, R156, R160, R161). -/
theorem floats_eq_results (o : Issue) (c : BitVec 1) (poison : Nat → Bool) (codes : Dword → Codes) (g : Nat → (PVal → Nat) → Nat × BitVec 5) :
    o.floats c poison codes g = o.results fun l => floatRes o c (poison l) codes (g l) := rfl

/-- A floating-point instruction that lands at issue computes, in each lane, the elements that `g` makes of its sources' elements, with
the codes and flags that go with them, poisoned as `poison` says (R103, R156, R160, R161). -/
theorem issue_floats {i : Instr} {s s1 : State} {o : Issue} {body : Issue → State → Res} {c : BitVec 1} {poison : Nat → Bool}
    {codes : Dword → Codes} {g : Nat → (PVal → Nat) → Nat × BitVec 5} {n : Nat} (h : prepare i s = .ok (o, s1)) (hq : queueOrLaunch i = false)
    (hb : body o s1 = o.timed (o.commit s1 (o.floats c poison codes g)) n) :
    ∃ u t, issue i body s = .next t ∧ Computes o s1 u (fun l => floatRes o c (poison l) codes (g l)) ∧ Completes o u t := by
  rw [floats_eq_results] at hb
  exact issue_computes h hq hb

end Sys2Proof.Machine

open Sys2Proof Sys2Proof.Machine

/-- Settles O11: each of these instructions commits the floating-point results of its rule; no format, type, rounding or value needs a
case of its own, for the instruction and its rule apply one function to the elements of the same operands. -/
theorem floatResults : Obligations.FloatResults := by
  intro i f hf s o s1 h
  cases i
  case fadd | fsub | fmul | fma | fnma | fmin | fmax | fminm | fmaxm | fabs | fneg | fcpys | fcmp | fclass | frint | fscale | fgetx =>
    cases hf
    exact issue_floats h rfl rfl
  all_goals cases hf

end

section
/-! PROOFS. REGION (O23). -/

namespace Sys2Proof.Machine

/-- A legal instruction with a clean guard that waits for something is not prepared: it stalls (R46, R92, R103). -/
theorem prepare_of_stallCause {i : Instr} {s : State} {g : Group} {w : Word} {c : Nat} (hg : s.cur.current = some g) (hw : encodeWord i = some w)
    (hlegal : decodeCause i s.cur.arch.mode = none) (hguard : poisonedGuard s.cur g (s.shapeOf i g) = [])
    (hcontrol : controlMoves s.cur i (s.shapeOf i g) (regFields i).1 (regFields i).2.1 (regFields i).2.2 (activeLanes s.cur g (shape i s.cur.arch.mode 1)) = [])
    (harrays : s.slotsRebuilding s.cur (s.shapeOf i g) (regFields i).1 (regFields i).2.1 (regFields i).2.2
      (if reachesLanes i then List.range s.cur.width else activeLanes s.cur g (shape i s.cur.arch.mode 1)) = false)
    (hstall : stallCause s.cur i (s.shapeOf i g) (regFields i).1 (regFields i).2.1 (regFields i).2.2 s.now
      (activeLanes s.cur g (shape i s.cur.arch.mode 1)) = some c) : prepare i s = .error (.stall s c) := by
  unfold State.shapeOf at hguard hcontrol harrays hstall
  unfold prepare
  simp only [hg, hw, hlegal, hguard, hcontrol, harrays, hstall, List.isEmpty_nil, Bool.not_true, Bool.false_eq_true, if_false, Option.none_or]

/-- REGION names no register, so that it needs no slot (R92). -/
theorem slotsNamed_region (t : Team) (m : Mode) (d a b : Reg) (l : Nat) : slotsNamed t (shape .region m 1) d a b l = [] := rfl

/-- With a result pending, REGION waits for it (R47, R187). -/
theorem stallCause_region {t : Team} (m : Mode) (d a b : Reg) (now : Nat) (act : List Nat) (hp : t.pend ≠ []) :
    stallCause t .region (shape .region m 1) d a b now act = some 3 := by
  have hresident : (act.any fun l => !resident t l (slotsNamed t (shape .region m 1) d a b l)) = false :=
    List.any_eq_false.2 fun l _ => by rw [slotsNamed_region]; exact Bool.false_ne_true
  have hpend : t.pend.isEmpty = false := List.isEmpty_eq_false_iff.2 hp
  have hlands : ∀ ports, landsFirst .region (shape .region m 1) ports = true := fun ports => Bool.or_true _
  unfold stallCause
  simp only [reachesLanes, Bool.false_eq_true, if_false, hresident, hlands, hpend, Bool.not_false, Bool.and_self, if_true]

theorem prepare_region_of_pend {s : State} {g : Group} (hg : s.cur.current = some g) (hp : s.cur.pend ≠ []) :
    prepare .region s = .error (.stall s 3) :=
  prepare_of_stallCause (w := wordT 0x580 0 0 0) hg rfl rfl rfl rfl (List.any_eq_false.2 fun _ _ => Bool.false_ne_true) (stallCause_region _ _ _ _ _ _ hp)

end Sys2Proof.Machine

open Sys2Proof Sys2Proof.Machine

/-- Settles O23: REGION is done with an `End` that takes a checkpoint; with a result pending it stalls before that. -/
theorem regionTakesCheckpoint : Obligations.RegionTakesCheckpoint := by
  refine ⟨?completes, ?waits, fun m => ⟨rfl, rfl⟩⟩
  case completes =>
    intro s o s1 h
    let e : End := ⟨[], [], 1, none, true, false, false, 0⟩
    obtain ⟨c, hckpts, htime, hretried, harch⟩ := finish_checkpoint o s1 e rfl
    exact ⟨finish o s1 e, c, issue_done h rfl, finish_completes o s1 e ⟨rfl, rfl, rfl⟩ rfl, hckpts, htime, hretried, harch⟩
  case waits =>
    intro s g hg hp
    refine ⟨conclude .region s none (.stall s 3), ?_, rfl, rfl⟩
    show issue .region _ s = _
    unfold issue
    rw [prepare_region_of_pend hg hp]

end

section
/-! PROOFS. Traps by an instruction's own effect: TRAP, BRK and SYSC (O24), and what the checks of a memory instruction refuse (O34, O35). -/

namespace Sys2Proof.Machine

section
variable {i : Instr} {s s1 : State} {o : Issue} {body : Issue → State → Res} (h : prepare i s = .ok (o, s1))
include h

/-- A prepared instruction concludes with what its own effect answers. -/
theorem issue_answers {r : Res} (hb : body o s1 = r) : issue i body s = .next (conclude i s1 (some o) r) := by
  rw [issue_next body h, hb]

/-- A prepared instruction whose own effect is a trap takes it (R178). -/
theorem conclude_traps (c : Nat) (m : LaneMask) (tv : List (Nat × Dword)) (next : Bool) (sysc : Option Reg) (hu : s1.cur.id.uid ≠ 0) :
    ∃ r, TrapTaken s1 (conclude i s1 (some o) (.trap c m tv next sysc)) c m tv o.g.pc r o.word sysc ∧ (next = false → r = o.g.pc) ∧
      (next = true → s1.cur.arch.rep = none → s1.cur.arch.mac = none → r = o.nextPc) ∧
      (next = true → (conclude i s1 (some o) (.trap c m tv next sysc)).cur.sched.issues = s1.cur.sched.issues + 1) :=
  conclude_trap (some o) c m tv next sysc (prepared h).current (prepared h).word hu

/-- TRAP, BRK and SYSC go on after the trap at the next instruction (R196). -/
theorem issue_trapsOn {c : Nat} {m : LaneMask} {tv : List (Nat × Dword)} {sysc : Option Reg} (hb : body o s1 = .trap c m tv true sysc)
    (hu : s1.cur.id.uid ≠ 0) :
    ∃ t r, issue i body s = .next t ∧ TrapTaken s1 t c m tv o.g.pc r o.word sysc ∧
      (s1.cur.arch.rep = none → s1.cur.arch.mac = none → r = o.nextPc) ∧ t.cur.sched.issues = s1.cur.sched.issues + 1 := by
  obtain ⟨r, htaken, -, hnext, hissues⟩ := conclude_traps h c m tv true sysc hu
  exact ⟨_, r, issue_answers h hb, htaken, hnext rfl, hissues rfl⟩

/-- An instruction is performed for no lane exactly when none is active (R104). -/
theorem lanes_nil_iff : o.lanes = [] ↔ o.act = [] := by
  rw [(prepared h).lanes]
  split
  · rw [List.take_eq_nil_iff]
    exact or_iff_right Nat.one_ne_zero
  · rfl

end

/-! ### The checks of a memory instruction -/

section
variable {o : Issue} {s : State} {r : Res} {eas : List (Nat × PVal)} {n : Nat} {units : List Access1 → Nat}

theorem load_of_bad {noEf : Bool} (h : (loadAccess o eas n noEf).check s = .bad r) (signed : Bool) (mark : Pend → Pend)
    (results : List Nat → List LaneResult) : o.load s eas n signed noEf mark results = r := by
  have hcheck : o.check s eas n n 28 { Need.r with noEf := noEf } none (fun _ => none) = .bad r := h
  unfold Issue.load
  simp only [hcheck]

theorem loadK_of_bad {x : BitVec 1} (h : (loadAccess o.one (o.one.addrsL x) n true).check s = .bad r) : o.loadK s x n = r := by
  unfold Issue.loadK
  exact load_of_bad h _ _ _

theorem store_of_bad (noEf : Bool) (h : (plainAccess o eas n 28 { Need.w with noEf := noEf } units).check s = .bad r) (data : Nat → List (Byte × Bool)) :
    o.store s eas n noEf data = r := by
  have hcheck : o.check s eas n n 28 { Need.w with noEf := noEf } none (fun _ => none) = .bad r := h
  unfold Issue.store
  simp only [hcheck]

theorem atomic_of_bad {align : Nat} {last : Nat → Option Nat} (h : o.check s eas n align 56 Need.rw none last = .bad r)
    (bytes : Nat) (width : Option Nat) (eff : Option Nat → List Access1 → Effect) : o.atomic s eas align n bytes last width eff = r := by
  unfold Issue.atomic
  simp only [h]

end

/-- Where the checks refuse, their answer is the instruction's (R221). -/
theorem answer_of_bad {c : Checked} {r : Res} {k : List Access1 → List (Nat × Nat × Nat) → Res} :
    c = .bad r → (match c with | .bad r => r | .ok xs fs => k xs fs) = r := by
  rintro rfl
  rfl

/-- A memory instruction that a check refuses concludes with that answer, and does nothing of its own (R221). -/
theorem exec_of_bad {i : Instr} {f : Issue → State → AccessRule} (hf : accessOf i = some f) {s s1 : State} {o : Issue} {r : Res}
    (h : prepare i s = .ok (o, s1)) (he : (f o s1).early) (hc : (f o s1).check s1 = .bad r) : exec i s = .next (conclude i s1 (some o) r) := by
  cases i
  case ldkB32 | ldkB64 =>
    cases hf
    exact issue_answers h (loadK_of_bad hc)
  case ld | ldv | fmtld =>
    cases hf
    refine issue_answers h ?_
    dsimp only
    exact load_of_bad hc _ _ _
  case st =>
    cases hf
    exact issue_answers h (store_of_bad false hc _)
  case stv =>
    cases hf
    exact issue_answers h (store_of_bad true hc _)
  case atom | acas | afadd | afmm | ared | aprog =>
    cases hf
    exact issue_answers h (atomic_of_bad hc ..)
  case acq | rel | ldmx | arrive | cadd | cread | spawn | job | launch =>
    cases hf
    exact issue_answers h (answer_of_bad hc)
  case stmx =>
    cases hf
    have hwhole : o.mixedRuns o.runLength = [] := he
    refine issue_answers h ?_
    dsimp only
    rw [hwhole]
    exact answer_of_bad hc
  case binit | expect =>
    cases hf
    refine issue_answers h ?_
    dsimp only
    rw [poisonedLanes_nil he]
    exact answer_of_bad hc
  case apload =>
    cases hf
    obtain ⟨l, hone, hclean, hindex⟩ := he
    have hcheck : o.check s1 [(l, o.a l)] 64 64 28 Need.r none (fun _ => none) = .bad r := by
      rw [← hc, AccessRule.check]
      show _ = o.checkWith s1 (o.lanes.map fun l => (l, o.a l)) ..
      rw [hone]
      rfl
    refine issue_answers h ?_
    rw [hone]
    dsimp only
    rw [hclean, if_neg Bool.false_ne_true, if_neg (Nat.not_lt.2 hindex)]
    exact answer_of_bad hcheck
  all_goals cases hf

end Sys2Proof.Machine

open Sys2Proof Sys2Proof.Machine

/-- Settles O24: with an active lane each of the three answers its trap, after which the team goes on past it; without one it is done. -/
theorem trapInstructions : Obligations.TrapInstructions := by
  intro s o s1 i c v sysc hi h hu
  have hempty : o.lanes = [] → o.act.isEmpty = true := fun hl => List.isEmpty_iff.2 ((lanes_nil_iff h).1 hl)
  have hactive : o.lanes ≠ [] → ¬ o.act.isEmpty = true := fun hl hact => hl ((lanes_nil_iff h).2 (List.isEmpty_iff.1 hact))
  rcases hi with ⟨lit, rfl, rfl, rfl, rfl⟩ | ⟨rfl, rfl, rfl, rfl⟩ | ⟨d, a, lit, rfl, rfl, rfl, rfl, hclean⟩
  case inl | inr.inl =>
    exact ⟨fun hl => issue_trapsOn h (if_neg (hactive hl)) hu, fun hl => issue_completes h (if_pos (hempty hl)) ⟨rfl, rfl, rfl⟩ rfl⟩
  case inr.inr =>
    refine ⟨fun hl => issue_trapsOn h ?_ hu, fun hl => issue_completes h (by rw [hl]; rfl) ⟨rfl, rfl, rfl⟩ rfl⟩
    obtain ⟨l, ls, hls⟩ := List.exists_cons_of_ne_nil hl
    rw [hls] at hclean ⊢
    exact if_neg (ne_true_of_eq_false hclean)

/-- Settles O34: the instruction concludes with the trap that its checks answer. -/
theorem accessTraps : Obligations.AccessTraps := by
  intro i f hf s o s1 c m tv h hu hearly hbad
  obtain ⟨r, htaken, hresume, -, -⟩ := conclude_traps h c m tv false none hu
  rw [hresume rfl] at htaken
  exact ⟨_, exec_of_bad hf h hearly hbad, htaken⟩

/-- Settles O35: the instruction concludes with the rollback that its checks answer. -/
theorem accessPoisonRollsBack : Obligations.AccessPoisonRollsBack := by
  intro i f hf s o s1 m tv k ks h hu hearly hbad hckpts hretried
  exact ⟨_, exec_of_bad hf h hearly hbad, conclude_rollback i (some o) 19 m tv false hu hckpts hretried⟩

end

section
/-! PROOFS. Records, damaged words and strikes (O53). -/

namespace Sys2Proof.Machine

/-- An event gives a next state that is as `P` says. -/
def NextIs (i : Instr) (s : State) (P : State → Prop) : Prop := ∃ t, exec i s = .next t ∧ P t

/-! ### Array damage -/

/-- A damaged word of memory that no group overflow entry holds is poisoned (R191, R217). -/
theorem lose_memory {s : State} {kind address : Nat} (tile : Nat) (hk : 9 ≤ kind) (he : s.entryTeam address = none) :
    ∃ c, s.lose tile kind address = (s.poisonWord address, .poisons c 5 (homeOf address)) := by
  obtain ⟨k, rfl⟩ := Nat.exists_eq_add_of_le' hk
  unfold State.lose State.loseByte
  dsimp only
  rw [he]
  exact ⟨_, rfl⟩

/-- A word that is rebuilt is waited for at most 288 cycles, and ARRAY_CORRECTED is posted (R216). -/
theorem arrayRebuild_rebuilds (tile row address : Nat) {kind : Nat} (s : State) (hk : kind < 10) : ∃ n d se, n ≤ s.now + 288 ∧
    exec (.arrayRebuild tile kind row address none) s =
      .next (({ s with tables := { s.tables with rebuilds := ⟨tile, kind, address, n⟩ :: s.tables.rebuilds.filter fun x => decide (s.now < x.until_) }, draws := d, serial := se } : State).errorRecord
        none 89 (if kind = 9 then 5 else 6) (if kind = 9 then homeOf address else tile * 2) 0 row 0) := by
  refine ⟨s.now + (draw s).1 % 289, (draw s).2.draws, (draw s).2.serial, by omega, ?_⟩
  have hnow : (draw s).2 = { s with draws := (draw s).2.draws, serial := (draw s).2.serial } := draw_next s
  simp only [exec, execArrayRebuild, Nat.not_le.2 hk, if_false]
  rw [hnow]

/-- Without a second damaged word, damage is rebuilt, or in a word of memory poisons it or kills the context of the team whose groups it
held (R191, R216, R217). -/
theorem arrayRebuild_follows {tile kind row address : Nat} {other : Option (Nat × Nat)} {s : State} {P : State → Prop}
    (h : recordPromise (.arrayRebuild tile kind row address other) s = some P) : NextIs (.arrayRebuild tile kind row address other) s P := by
  cases other with
  | some other =>
    cases h
    exact ⟨_, rfl, rfl⟩
  | none =>
    by_cases hk : kind < 10
    · simp only [recordPromise, hk, if_true, Option.some.injEq] at h
      subst h
      obtain ⟨n, d, se, hn, hexec⟩ := arrayRebuild_rebuilds tile row address s hk
      exact ⟨_, hexec, n, d, se, hn, rfl⟩
    · have hlost : exec (.arrayRebuild tile kind row address none) s = .next ((s.lose tile kind address).1.postLost row (s.lose tile kind address).2) := by
        simp only [exec, execArrayRebuild, Nat.not_lt.1 hk, if_true]
      cases he : s.entryTeam address with
      | some t =>
        simp only [recordPromise, hk, if_false, he, Option.isSome_some, if_true, Option.some.injEq] at h
        subst h
        exact ⟨_, hlost, rfl⟩
      | none =>
        simp only [recordPromise, hk, if_false, he, Option.isSome_none, Bool.false_eq_true, Option.some.injEq] at h
        subst h
        obtain ⟨c, hlose⟩ := lose_memory (s := s) tile (kind := kind) (by omega) he
        rw [hlose] at hlost
        exact ⟨_, hlost, fun a => rfl, fun a => Mem.poisoned_setPoison ..⟩

/-! ### Strikes -/

section
variable {h : HomeHold} {homes : List Nat} {c : Nat} (now : Nat)

/-- A result held by a home outside the strike, or formed before it, stands (R438). -/
theorem struck_stands (hout : h.home ∉ homes ∨ h.formed < c) : h.struck homes c now = h := by
  refine if_neg fun hstruck => ?_
  simp only [Bool.and_eq_true, List.contains_iff_mem, decide_eq_true_eq] at hstruck
  obtain ⟨hin, hsince⟩ := hstruck
  exact hout.elim (fun hnot => hnot hin) (Nat.not_lt.2 hsince)

/-- One of a home under the strike that was formed since `c` is held anew (R438). -/
theorem struck_anew (hin : h.home ∈ homes) (hf : c ≤ h.formed) : h.struck homes c now = { h with formed := now } := by
  refine if_pos ?_
  simpa only [Bool.and_eq_true, List.contains_iff_mem, decide_eq_true_eq] using And.intro hin hf

end

/-- A report out of its time changes nothing; sensor 0 strikes a tile, 1 also the homes beside it and the engine under it, others the hub. -/
theorem strikeReport_follows {time sensor area : Nat} {s : State} {P : State → Prop} (h : recordPromise (.strikeReport time sensor area) s = some P) :
    NextIs (.strikeReport time sensor area) s P := by
  unfold NextIs
  simp only [recordPromise] at h
  simp only [exec, execStrikeReport]
  split at h
  · next hlate =>
    cases h
    exact ⟨s, if_pos (by simpa only [Bool.or_eq_true, decide_eq_true_eq] using hlate), rfl⟩
  · next hlate =>
    rw [if_neg (by simpa only [Bool.or_eq_true, decide_eq_true_eq] using hlate)]
    match sensor, h with
    | 0, h =>
      cases h
      exact ⟨_, rfl, rfl⟩
    | 1, h =>
      cases h
      refine ⟨_, rfl, fun x hx => ⟨fun hout => ?_, fun hin hf => ?_⟩, rfl⟩
      · exact List.mem_map.2 ⟨x, hx, struck_stands _ hout⟩
      · exact List.mem_map.2 ⟨x, hx, struck_anew _ hin hf⟩
    | n + 2, h =>
      cases h
      refine ⟨_, rfl, rfl, fun x hx => ⟨fun hf => ?_, fun hf => ?_⟩⟩
      · exact List.mem_map.2 ⟨x, hx, if_neg (Nat.not_le.2 hf)⟩
      · exact List.mem_map.2 ⟨x, hx, if_pos hf⟩

end Sys2Proof.Machine

open Sys2Proof Sys2Proof.Machine

/-- Settles O53: posting is the law of `State.post`; damage and strikes are taken by the array and by the sensor. -/
theorem recordEvents : Obligations.RecordEvents := by
  intro i s P h
  cases i
  case trapRecordPost | faultRecordPost | errorRecordPost =>
    cases h
    exact ⟨_, rfl, post_posts ..⟩
  case arrayRebuild => exact arrayRebuild_follows h
  case strikeReport => exact strikeReport_follows h
  all_goals cases h

end

section
/-! PROOFS. Ranger's commands, replies, register writes and reads (O55). -/

namespace Sys2Proof.Machine

/-! ### Settling a parked trap -/

theorem resume_parked {s : State} {t : Team} {p : Park} (ht : s.team? t.id.uid = some t) (hp : t.park = some p) :
    TeamChanges t.id.uid (fun x => x.resumed p (s.window t.slotKey).result) s (s.resume t.id.uid) := by
  simp only [State.resume, ht, hp]
  exact modTeam_changes _ _ _ fun x => resumed_id x p _

/-- A command that acts on a parked trap is refused where the slot has no team, its team has no trap, or `refused` says so; else it acts. -/
theorem command_follows {s : State} {tile slot : Nat} {P : State → Prop} {refused : Team → Park → Bool} {act : Team → Park → State}
    {Q : Team → Park → State → Prop} (hact : ∀ t p, t.park = some p → Q t p (act t p)) :
    (match s.teamAt tile slot with
      | none => some (Refuses (tile * 64 + slot) s)
      | some t => match t.park with
        | none => some (Refuses (tile * 64 + slot) s)
        | some p => if refused t p then some (Refuses (tile * 64 + slot) s) else some (Q t p)) = some P →
    P (match s.teamAt tile slot with
      | none => s.refuse (tile * 64 + slot)
      | some t => match t.park with
        | none => s.refuse (tile * 64 + slot)
        | some p => if refused t p then s.refuse (tile * 64 + slot) else act t p) := by
  intro h
  cases ht : s.teamAt tile slot with
  | none =>
    rw [ht] at h
    cases h
    exact refuse_refuses ..
  | some t =>
    cases hp : t.park with
    | none =>
      simp only [ht, hp] at h ⊢
      cases h
      exact refuse_refuses ..
    | some p =>
      simp only [ht, hp] at h ⊢
      split at h
      · next hrefused =>
        cases h
        rw [if_pos hrefused]
        exact refuse_refuses ..
      · next hrefused =>
        cases h
        rw [if_neg hrefused]
        exact hact t p hp

theorem resume_follows {tile slot : Nat} {s : State} {P : State → Prop} (h : rangerPromise (.resume tile slot) s = some P) : P (s.cmdResume tile slot) :=
  command_follows (fun _ _ hp => ⟨_, rfl, modWindow_changes .., fun hteam => ⟨resume_parked hteam hp, rfl, rfl⟩⟩) h

theorem write_slots_eq (xs : List (Nat × Nat × List PWord)) (t : Team) :
    xs.foldl (fun t (l, n, ws) => t.write (.slot l n) ws) t = { t with frames := (xs.foldl (fun t (l, n, ws) => t.write (.slot l n) ws) t).frames } := by
  induction xs generalizing t with
  | nil => rfl
  | cons x xs ih => exact ih (t.write (.slot x.1 x.2.1) x.2.2)

/-- Writing the links of a redirect changes frames and links only (R183). -/
theorem writeLinks_eq (t : Team) : t.writeLinks = { t with frames := t.writeLinks.frames, links := t.writeLinks.links } :=
  congrArg (fun v : Team => { v with links := t.writeLinks.links }) (write_slots_eq _ t)

/-- A redirected team runs, with the trap's cause, PC and lanes in its system registers (R183). -/
theorem redirect_running (t : Team) (p : Park) : (t.redirect p).status = .running ∧ (t.redirect p).park = none ∧
    (t.redirect p).sys.tcause = BitVec.ofNat 7 p.cause ∧ (t.redirect p).sys.tpc = p.pc ∧ (t.redirect p).sys.tlane = p.mask := by
  unfold Team.redirect
  dsimp only
  rw [writeLinks_eq]
  exact ⟨rfl, rfl, rfl, rfl, rfl⟩

theorem redirect_follows {tile slot : Nat} {s : State} {P : State → Prop} (h : rangerPromise (.redirect tile slot) s = some P) :
    P (s.cmdRedirect tile slot) :=
  command_follows (fun t p _ => ⟨_, modTeam_changes _ _ _ fun x => redirect_id x p, rfl, redirect_running t p⟩) h

/-! ### Ending lanes and contexts -/

/-- Ending a team's lanes kills the team and takes its own parked faults away (R182). -/
theorem endLanes_kills {s : State} {t : Team} (ht : s.team? t.id.uid = some t) : ∃ v, v.teams = s.teams ∧ v.cur = s.cur ∧ v.disp = s.disp ∧
    v.coolbox = s.coolbox ∧ v.faults = s.faults.filter (fun f => !(f.uid == t.id.uid && (f.stops || f.unit == 3 || f.unit == 7))) ∧
    TeamChanges t.id.uid Team.killed v (s.endLanes t.id.uid) := by
  have hqueues := (queueOnly_dropGrants s t).trans (queueOnly_dropPends _ t (t.pend.filter (·.raised)))
  have hrest := hqueues.rest
  unfold State.endLanes
  rw [ht]
  dsimp only
  generalize (s.dropGrants t).dropPends t (t.pend.filter (·.raised)) = v at hrest ⊢
  exact ⟨{ v with faults := v.faults.filter fun f => !(f.uid == t.id.uid && (f.stops || f.unit == 3 || f.unit == 7)) }, by rw [hrest], by rw [hrest],
    by rw [hrest], by rw [hrest], by rw [hrest], modTeam_changes _ _ _ fun _ => rfl⟩

theorem killTeam_follows {tile slot : Nat} {s : State} {P : State → Prop} (h : rangerPromise (.killTeam tile slot) s = some P) :
    P (s.cmdKillTeam tile slot) := by
  unfold State.cmdKillTeam
  cases ht : s.teamAt tile slot with
  | none =>
    simp only [rangerPromise, ht] at h
    cases h
    rfl
  | some t =>
    simp only [rangerPromise, ht] at h
    split at h
    · next hteam =>
      cases h
      obtain ⟨v, hteams, hcur, hdisp, hcoolbox, hfaults, hkilled⟩ := endLanes_kills hteam
      exact ⟨v, _, hteams, hcur, hdisp, hcoolbox, hfaults, hkilled, rfl⟩
    · cases h

/-- Nothing of a killed context is left (R182). -/
theorem killContext_gone (s : State) (c : Nat) : let u := s.killContext c
    (∀ x ∈ u.teams, x.id.ctx ≠ c) ∧ (∀ x ∈ u.copies, x.ctx ≠ c) ∧ (∀ f ∈ u.faults, f.ctx ≠ c) ∧ (∀ r ∈ u.eq.reqs, r.ctx ≠ c) ∧
      (∀ w ∈ u.disp.works, w.ctx ≠ c) ∧ (∀ g ∈ u.disp.groups, g.ctx ≠ c) ∧ (∀ x ∈ u.disp.images, x.id.ctx ≠ c) := by
  have hkept : ∀ {α : Type} (f : α → Nat) (xs : List α), ∀ x ∈ xs.filter (fun x => f x != c), f x ≠ c := fun f xs x hx =>
    bne_iff_ne.1 (List.mem_filter.1 hx).2
  exact ⟨hkept _ _, hkept _ _, hkept _ _, hkept _ _, hkept _ _, hkept _ _, hkept _ _⟩

theorem killContext_follows {tile slot : Nat} {s : State} {P : State → Prop} (h : rangerPromise (.killContext tile slot) s = some P) :
    P (s.cmdKillContext tile slot) := by
  unfold State.cmdKillContext
  cases ht : s.teamAt tile slot with
  | none =>
    simp only [rangerPromise, ht] at h
    cases h
    rfl
  | some t =>
    simp only [rangerPromise, ht] at h
    cases h
    exact killContext_gone s t.id.ctx

theorem resumepcWrite_follows {tile slot : Nat} {v : Dword} {s : State} {P : State → Prop} (h : rangerPromise (.resumepcWrite tile slot v) s = some P) :
    P (s.writeResumePc tile slot v) := by
  simp only [rangerPromise] at h
  unfold State.writeResumePc
  split at h
  · next hbits =>
    cases h
    rw [if_pos hbits]
    exact refuse_refuses ..
  · next hbits =>
    cases h
    rw [if_neg hbits]
    refine ⟨s.modWindow (tile * 64 + slot) fun w => { w with resumePc := v }, modWindow_changes .., ?_⟩
    have hat : (s.modWindow (tile * 64 + slot) fun w => { w with resumePc := v }).teamAt tile slot = s.teamAt tile slot := rfl
    dsimp only
    rw [hat]
    cases s.teamAt tile slot with
    | none => rfl
    | some t => exact modTeam_changes _ _ _ fun x => by split <;> rfl

theorem preempt_follows {tile slot : Nat} {v : Dword} {s : State} {P : State → Prop} (h : rangerPromise (.preempt tile slot v) s = some P) :
    NextIs (.preempt tile slot v) s P := by
  cases ht : s.teamAt tile slot with
  | none =>
    simp only [rangerPromise, ht] at h
    cases h
    exact ⟨s, by simp only [exec, execPreempt, ht], rfl⟩
  | some t =>
    simp only [rangerPromise, ht] at h
    split at h
    · next hv =>
      cases h
      exact ⟨_, by simp only [exec, execPreempt, ht, if_pos hv], modTeam_changes _ _ _ fun _ => rfl⟩
    · next hv =>
      cases h
      exact ⟨s, by simp only [exec, execPreempt, ht, if_neg hv], rfl⟩

/-! ### Answering a fault -/

/-- A reply that names a parked fault of the slot acts on it as `act` says, where its team is neither gone nor pre-empted (R326, R327). -/
theorem faultReply_replies {tile slot seq r : Nat} {s : State} {act : ParkedFault → State → Prop} (hr : (r = 1 || r = 2) = true)
    (hact : ∀ f, act f (if r = 1 then s.replay f else s.unresolved f)) : replies tile slot seq r s act (s.faultReply tile slot seq r) := by
  unfold replies State.faultReply
  cases s.faultAt tile slot seq with
  | none => exact refuse_refuses ..
  | some f =>
    dsimp only
    rw [if_pos hr]
    unfold State.applyReply
    split
    · rfl
    · split
      · refine ⟨rfl, ?_⟩
        simp only [modifyWhere, beq_iff_eq]
      · exact hact f

theorem unparkTeam_fetch {s : State} {f : ParkedFault} (h7 : f.unit = 7) :
    s.unparkTeam f = s.modTeam f.uid fun t => { t with sched := { t.sched with parked := t.sched.parked.filter (· != f.pc) } } := by
  unfold State.unparkTeam
  simp only [if_pos h7]

theorem unparkTeam_wakes {s : State} {f : ParkedFault} (h7 : f.unit ≠ 7) :
    s.unparkTeam f = s.modTeam f.uid (Team.wakes (s.faults.any fun x => x.uid == f.uid && x.stops)) := by
  unfold State.unparkTeam
  simp only [if_neg h7]
  rfl

theorem wakes_id (more : Bool) (t : Team) : (Team.wakes more t).id = t.id := by
  unfold Team.wakes
  split <;> rfl

/-- Replaying a fetch's fault lets the group be fetched again (R326). -/
theorem replay_fetch {s : State} {f : ParkedFault} (h7 : f.unit = 7) : s.replay f = (s.answered f).unparkTeam f := by
  have hfetch : (f.stops || f.unit = 7) = true := by simp only [h7, decide_true, Bool.or_true]
  have hdone : (f.unit = 3 || f.unit = 7 || f.item = 0) = true := by simp only [h7, Nat.reduceEqDiff, decide_false, decide_true, Bool.or_true, Bool.true_or]
  unfold State.replay
  dsimp only
  rw [if_pos hfetch, if_pos hdone]
  rfl

/-- Replaying another fault lets its team go on and unparks the work it names (R326). -/
theorem replay_work {s : State} {f : ParkedFault} (h7 : f.unit ≠ 7) :
    s.replay f = if f.unit = 3 ∨ f.item = 0 then (if f.stops then (s.answered f).unparkTeam f else s.answered f)
      else (if f.stops then (s.answered f).unparkTeam f else s.answered f).unpark f.item := by
  have hstops : (f.stops || f.unit = 7) = f.stops := by simp only [h7, decide_false, Bool.or_false]
  have hdone : (f.unit = 3 || f.unit = 7 || f.item = 0) = decide (f.unit = 3 ∨ f.item = 0) := by simp only [h7, decide_false, Bool.or_false, Bool.decide_or]
  unfold State.replay
  dsimp only
  rw [hstops, hdone]
  simp only [decide_eq_true_eq]
  rfl

theorem replay_follows {tile slot seq : Nat} {s : State} {P : State → Prop} (h : rangerPromise (.replay tile slot seq) s = some P) :
    P (s.faultReply tile slot seq 1) := by
  cases h
  refine faultReply_replies rfl fun f => ?_
  rw [if_pos rfl]
  dsimp only
  split
  · next h7 =>
    rw [replay_fetch h7, unparkTeam_fetch h7]
    exact modTeam_changes _ _ _ fun _ => rfl
  · next h7 =>
    refine ⟨_, ?_, replay_work h7⟩
    split
    · rw [unparkTeam_wakes h7]
      exact modTeam_changes _ _ _ (wakes_id _)
    · rfl

/-- A fault of the team's own issue becomes the trap of the instruction (R326). -/
theorem unresolved_own {s : State} {f : ParkedFault} (h : f.unit = 0 ∧ f.item = 0) :
    s.unresolved f = (s.answered f).takeTrap f.uid f.pc ⟨24, f.mask, f.eas, f.word, false, f.pc, f.issue, f.pc, none, false⟩ := by
  unfold State.unresolved
  simp only [h, decide_true, Bool.and_self, if_true]
  rfl

theorem unresolved_fetch {s : State} {f : ParkedFault} (h7 : f.unit = 7) :
    s.unresolved f = (s.answered f).defer f.uid 11 f.pc f.issue 0 f.mask ((lanesOf 1024 f.mask).map fun l => (l, BitVec.ofNat 64 f.va)) := by
  unfold State.unresolved
  simp only [h7]
  rfl

/-- A fault of the Rucksack or of a group's entry that stops no team becomes a deferred trap (R326). -/
theorem unresolved_frames {s : State} {f : ParkedFault} (h3 : f.unit = 3) (hs : f.stops = false) :
    s.unresolved f = (s.answered f).defer f.uid 13 f.pc f.issue f.word f.mask ((lanesOf 1024 f.mask).map fun l => (l, BitVec.ofNat 64 f.va)) := by
  unfold State.unresolved
  simp only [h3, hs]
  rfl

theorem defer_changes (s : State) (uid cause : Nat) (pc : BitVec 48) (time : Nat) (word : Word) (mask : LaneMask) (tval : List (Nat × Dword)) :
    TeamChanges uid (fun t => { t with deferred := joinDeferred ⟨cause, pc, time, word, mask, tval, false⟩ t.deferred }) s
      (s.defer uid cause pc time word mask tval) := modTeam_changes _ _ _ fun _ => rfl

theorem unresolvable_follows {tile slot seq : Nat} {s : State} {P : State → Prop} (h : rangerPromise (.unresolvable tile slot seq) s = some P) :
    P (s.faultReply tile slot seq 2) := by
  cases h
  refine faultReply_replies rfl fun f => ?_
  rw [if_neg (show ¬ 2 = 1 by decide)]
  dsimp only
  split
  · next h0 => exact unresolved_own h0
  · split
    · next h7 =>
      rw [unresolved_fetch h7]
      exact defer_changes ..
    · split
      · next h3 =>
        obtain ⟨hunit, hstops⟩ := h3
        rw [unresolved_frames hunit (by simpa only [Bool.not_eq_true'] using hstops)]
        exact defer_changes ..
      · rfl

/-! ### Queue entries, clocks, notify registers and control space -/

theorem queueEntryWrite_follows {tile entry : Nat} {hi lo : Dword} {s : State} {P : State → Prop}
    (h : rangerPromise (.queueEntryWrite tile entry hi lo) s = some P) : P (s.writeQueue tile entry hi) := by
  cases h
  exact ⟨fget_fput_self .., fun k hk => fget_fput_of_ne _ _ _ hk, rfl⟩

theorem clkmodeWrite_follows {v : Dword} {s : State} {P : State → Prop} (h : rangerPromise (.clkmodeWrite v) s = some P) : P (s.writeClkmode v) := by
  cases h
  rfl

/-- Reading a notify register hands over its count and the words of the thread's queue, and clears it (R366, R383). -/
theorem notifyRead_follows {j : Nat} {s : State} {P : State → Prop} (h : rangerPromise (.notifyRead j) s = some P) : NextIs (.notifyRead j) s P := by
  cases h
  refine ⟨_, rfl, ?_⟩
  dsimp only
  rw [yields_fold]
  refine ⟨?_, ?_, fun k hk => (modThread_thread ..).trans (if_neg hk), rfl⟩
  · simp only [State.modThread, State.yields, List.append_assoc, List.cons_append, List.nil_append]
  · rw [modThread_thread, if_pos rfl]
    split <;> rfl

theorem registerWrite_follows {pa n : Nat} {v : Dword} {s : State} {P : State → Prop} (h : rangerPromise (.registerWrite pa n v) s = some P) :
    NextIs (.registerWrite pa n v) s P := by
  simp only [rangerPromise] at h
  split at h
  · next hcontrol =>
    cases h
    exact ⟨s.writeControl pa n v, if_pos hcontrol, writeControl_follows pa n v s⟩
  · cases h

theorem rangerLoadStore_follows {pa n : Nat} {store : Bool} {v : Dword} {s : State} {P : State → Prop}
    (h : rangerPromise (.rangerLoadStore pa n store v) s = some P) : NextIs (.rangerLoadStore pa n store v) s P := by
  unfold NextIs
  simp only [rangerPromise] at h
  simp only [exec, execRangerLoadStore]
  split at h
  · next hcontrol =>
    rw [if_pos hcontrol]
    cases store with
    | true =>
      cases h
      exact ⟨s.writeControl pa n v, congrArg _ (if_pos rfl), writeControl_follows pa n v s⟩
    | false =>
      cases h
      exact ⟨_, rfl, rfl⟩
  · next hcontrol =>
    rw [if_neg hcontrol]
    cases hspace : spaceOf pa with
    | none =>
      rw [hspace] at h
      cases h
    | hbm | cxl =>
      rw [hspace] at h
      cases store with
      | true =>
        cases h
        exact ⟨_, rfl, stored ..⟩
      | false =>
        cases h
        exact ⟨_, rfl, rfl⟩
    | host | peer =>
      rw [hspace] at h
      cases h
      obtain ⟨y, d, se, id, hsend, hact, hva, hpa, -, -, hdue⟩ := sends s Config.tiles 0 0 0 s.now 0 0 pa pa []
        (if store then .write [⟨0, pa, (toBytes n v.toNat).map (·, false)⟩] else .object 0 0 pa n false)
      exact ⟨_, rfl, y, hact, hva, hpa, hdue, by rw [hsend]⟩

end Sys2Proof.Machine

open Sys2Proof Sys2Proof.Machine

/-- Settles O55, by the theorem about each command, reply, write and read. -/
theorem rangerEvents : Obligations.RangerEvents := by
  intro i s P h
  cases i
  case resume => exact ⟨_, rfl, resume_follows h⟩
  case redirect => exact ⟨_, rfl, redirect_follows h⟩
  case killTeam => exact ⟨_, rfl, killTeam_follows h⟩
  case killContext => exact ⟨_, rfl, killContext_follows h⟩
  case resumepcWrite => exact ⟨_, rfl, resumepcWrite_follows h⟩
  case replay => exact ⟨_, rfl, replay_follows h⟩
  case unresolvable => exact ⟨_, rfl, unresolvable_follows h⟩
  case preempt => exact preempt_follows h
  case queueEntryWrite => exact ⟨_, rfl, queueEntryWrite_follows h⟩
  case clkmodeWrite => exact ⟨_, rfl, clkmodeWrite_follows h⟩
  case notifyRead => exact notifyRead_follows h
  case registerWrite => exact registerWrite_follows h
  case rangerLoadStore => exact rangerLoadStore_follows h
  all_goals cases h

end

section
/-! PROOFS. Memory keeps its canonical form in every step (O59). -/

namespace Sys2Proof.Machine

/-- Every instruction and every step of a unit or of the outside world keeps memory in canonical form. -/
theorem exec_wf (i : Instr) (s : State) (hs : s.mem.wf = true) : okN (exec i s) := by
  cases i with
  | nop => exact execNop_wf (hs := hs) ..
  | mode => exact execMode_wf (hs := hs) ..
  | rep => exact execRep_wf (hs := hs) ..
  | bra => exact execBra_wf (hs := hs) ..
  | jmp => exact execJmp_wf (hs := hs) ..
  | call => exact execCall_wf (hs := hs) ..
  | callr => exact execCallr_wf (hs := hs) ..
  | ret => exact execRet_wf (hs := hs) ..
  | exit => exact execExit_wf (hs := hs) ..
  | yield => exact execYield_wf (hs := hs) ..
  | add => exact execAdd_wf (hs := hs) ..
  | addc => exact execAddc_wf (hs := hs) ..
  | sub => exact execSub_wf (hs := hs) ..
  | subb => exact execSubb_wf (hs := hs) ..
  | neg => exact execNeg_wf (hs := hs) ..
  | mul => exact execMul_wf (hs := hs) ..
  | mad => exact execMad_wf (hs := hs) ..
  | abs => exact execAbs_wf (hs := hs) ..
  | div => exact execDiv_wf (hs := hs) ..
  | rem => exact execRem_wf (hs := hs) ..
  | min => exact execMin_wf (hs := hs) ..
  | max => exact execMax_wf (hs := hs) ..
  | mulh => exact execMulh_wf (hs := hs) ..
  | mulw => exact execMulw_wf (hs := hs) ..
  | madw => exact execMadw_wf (hs := hs) ..
  | mov => exact execMov_wf (hs := hs) ..
  | ldi => exact execLdi_wf (hs := hs) ..
  | and => exact execAnd_wf (hs := hs) ..
  | or => exact execOr_wf (hs := hs) ..
  | xor => exact execXor_wf (hs := hs) ..
  | andn => exact execAndn_wf (hs := hs) ..
  | not => exact execNot_wf (hs := hs) ..
  | shl => exact execShl_wf (hs := hs) ..
  | shr => exact execShr_wf (hs := hs) ..
  | shra => exact execShra_wf (hs := hs) ..
  | rot => exact execRot_wf (hs := hs) ..
  | popc => exact execPopc_wf (hs := hs) ..
  | clz => exact execClz_wf (hs := hs) ..
  | ctz => exact execCtz_wf (hs := hs) ..
  | brev => exact execBrev_wf (hs := hs) ..
  | sel => exact execSel_wf (hs := hs) ..
  | bfx => exact execBfx_wf (hs := hs) ..
  | bfi => exact execBfi_wf (hs := hs) ..
  | cmpN => exact execCmpN_wf (hs := hs) ..
  | cmpS => exact execCmpS_wf (hs := hs) ..
  | tst => exact execTst_wf (hs := hs) ..
  | fshf => exact execFshf_wf (hs := hs) ..
  | perm => exact execPerm_wf (hs := hs) ..
  | lea => exact execLea_wf (hs := hs) ..
  | dot4N => exact execDot4N_wf (hs := hs) ..
  | dot4S => exact execDot4S_wf (hs := hs) ..
  | sad => exact execSad_wf (hs := hs) ..
  | getcc => exact execGetcc_wf (hs := hs) ..
  | setcc => exact execSetcc_wf (hs := hs) ..
  | shfl => exact execShfl_wf (hs := hs) ..
  | voteSome => exact execVoteSome_wf (hs := hs) ..
  | voteEvery => exact execVoteEvery_wf (hs := hs) ..
  | voteSame => exact execVoteSame_wf (hs := hs) ..
  | ballot => exact execBallot_wf (hs := hs) ..
  | scan => exact execScan_wf (hs := hs) ..
  | scanEx => exact execScanEx_wf (hs := hs) ..
  | reduce => exact execReduce_wf (hs := hs) ..
  | matchLane => exact execMatchLane_wf (hs := hs) ..
  | bcast => exact execBcast_wf (hs := hs) ..
  | kmov => exact execKmov_wf (hs := hs) ..
  | fadd => exact execFadd_wf (hs := hs) ..
  | fsub => exact execFsub_wf (hs := hs) ..
  | fmul => exact execFmul_wf (hs := hs) ..
  | fma => exact execFma_wf (hs := hs) ..
  | fnma => exact execFnma_wf (hs := hs) ..
  | fdiv => exact execFdiv_wf (hs := hs) ..
  | fsqrt => exact execFsqrt_wf (hs := hs) ..
  | frcp => exact execFrcp_wf (hs := hs) ..
  | fmin => exact execFmin_wf (hs := hs) ..
  | fmax => exact execFmax_wf (hs := hs) ..
  | fminm => exact execFminm_wf (hs := hs) ..
  | fmaxm => exact execFmaxm_wf (hs := hs) ..
  | fabs => exact execFabs_wf (hs := hs) ..
  | fneg => exact execFneg_wf (hs := hs) ..
  | fcpys => exact execFcpys_wf (hs := hs) ..
  | fcmp => exact execFcmp_wf (hs := hs) ..
  | fclass => exact execFclass_wf (hs := hs) ..
  | frint => exact execFrint_wf (hs := hs) ..
  | fscale => exact execFscale_wf (hs := hs) ..
  | fgetx => exact execFgetx_wf (hs := hs) ..
  | sinpi => exact execSinpi_wf (hs := hs) ..
  | cospi => exact execCospi_wf (hs := hs) ..
  | exp2 => exact execExp2_wf (hs := hs) ..
  | log2 => exact execLog2_wf (hs := hs) ..
  | rcpa => exact execRcpa_wf (hs := hs) ..
  | rsqa => exact execRsqa_wf (hs := hs) ..
  | tanh => exact execTanh_wf (hs := hs) ..
  | fmtld => exact execFmtld_wf (hs := hs) ..
  | fmtrd => exact execFmtrd_wf (hs := hs) ..
  | cvt => exact execCvt_wf (hs := hs) ..
  | cvti => exact execCvti_wf (hs := hs) ..
  | cvtf => exact execCvtf_wf (hs := hs) ..
  | pack => exact execPack_wf (hs := hs) ..
  | unpack => exact execUnpack_wf (hs := hs) ..
  | scale => exact execScale_wf (hs := hs) ..
  | ld => exact execLd_wf (hs := hs) ..
  | ldv => exact execLdv_wf (hs := hs) ..
  | ldkB32 => exact execLdkB32_wf (hs := hs) ..
  | ldkB64 => exact execLdkB64_wf (hs := hs) ..
  | ldmx => exact execLdmx_wf (hs := hs) ..
  | acq => exact execAcq_wf (hs := hs) ..
  | pref => exact execPref_wf (hs := hs) ..
  | st => exact execSt_wf (hs := hs) ..
  | stv => exact execStv_wf (hs := hs) ..
  | stmx => exact execStmx_wf (hs := hs) ..
  | rel => exact execRel_wf (hs := hs) ..
  | flush => exact execFlush_wf (hs := hs) ..
  | invl => exact execInvl_wf (hs := hs) ..
  | fence => exact execFence_wf (hs := hs) ..
  | atom => exact execAtom_wf (hs := hs) ..
  | acas => exact execAcas_wf (hs := hs) ..
  | afadd => exact execAfadd_wf (hs := hs) ..
  | afmm => exact execAfmm_wf (hs := hs) ..
  | ared => exact execAred_wf (hs := hs) ..
  | aprog => exact execAprog_wf (hs := hs) ..
  | apload => exact execApload_wf (hs := hs) ..
  | cpl => exact execCpl_wf (hs := hs) ..
  | cpf => exact execCpf_wf (hs := hs) ..
  | cpt => exact execCpt_wf (hs := hs) ..
  | cpm => exact execCpm_wf (hs := hs) ..
  | binit => exact execBinit_wf (hs := hs) ..
  | arrive => exact execArrive_wf (hs := hs) ..
  | expect => exact execExpect_wf (hs := hs) ..
  | wait => exact execWait_wf (hs := hs) ..
  | cadd => exact execCadd_wf (hs := hs) ..
  | cread => exact execCread_wf (hs := hs) ..
  | bseal => exact execBseal_wf (hs := hs) ..
  | bwait => exact execBwait_wf (hs := hs) ..
  | stallrd => exact execStallrd_wf (hs := hs) ..
  | mcfg => exact execMcfg_wf (hs := hs) ..
  | mldb => exact execMldb_wf (hs := hs) ..
  | mma => exact execMma_wf (hs := hs) ..
  | mmas => exact execMmas_wf (hs := hs) ..
  | mzero => exact execMzero_wf (hs := hs) ..
  | mstore => exact execMstore_wf (hs := hs) ..
  | mdrain => exact execMdrain_wf (hs := hs) ..
  | mrun => exact execMrun_wf (hs := hs) ..
  | qmap => exact execQmap_wf (hs := hs) ..
  | qunmap => exact execQunmap_wf (hs := hs) ..
  | qstat => exact execQstat_wf (hs := hs) ..
  | qnotify => exact execQnotify_wf (hs := hs) ..
  | spawn => exact execSpawn_wf (hs := hs) ..
  | grow => exact execGrow_wf (hs := hs) ..
  | job => exact execJob_wf (hs := hs) ..
  | launch => exact execLaunch_wf (hs := hs) ..
  | eqset => exact execEqset_wf (hs := hs) ..
  | unite => exact execUnite_wf (hs := hs) ..
  | find => exact execFind_wf (hs := hs) ..
  | same => exact execSame_wf (hs := hs) ..
  | relabel => exact execRelabel_wf (hs := hs) ..
  | eqsnap => exact execEqsnap_wf (hs := hs) ..
  | equndo => exact execEqundo_wf (hs := hs) ..
  | eqdrop => exact execEqdrop_wf (hs := hs) ..
  | eqsize => exact execEqsize_wf (hs := hs) ..
  | eqfence => exact execEqfence_wf (hs := hs) ..
  | region => exact execRegion_wf (hs := hs) ..
  | sigchk => exact execSigchk_wf (hs := hs) ..
  | sigset => exact execSigset_wf (hs := hs) ..
  | trap => exact execTrap_wf (hs := hs) ..
  | sysc => exact execSysc_wf (hs := hs) ..
  | brk => exact execBrk_wf (hs := hs) ..
  | mfs => exact execMfs_wf (hs := hs) ..
  | mts => exact execMts_wf (hs := hs) ..
  | bind => exact execBind_wf (hs := hs) ..
  | unbind => exact execUnbind_wf (hs := hs) ..
  | tlbinv => exact execTlbinv_wf (hs := hs) ..
  | wcs => exact execWcs_wf (hs := hs) ..
  | macroRun => exact execMacroRun_wf (hs := hs) ..
  | checkpointSettle => exact execCheckpointSettle_wf (hs := hs) ..
  | resultLands => exact execResultLands_wf (hs := hs) ..
  | coolboxRelease => exact execCoolboxRelease_wf (hs := hs) ..
  | releaseWrite => exact execReleaseWrite_wf (hs := hs) ..
  | l1Eviction => exact execL1Eviction_wf (hs := hs) ..
  | acknowledgement => exact execAcknowledgement_wf (hs := hs) ..
  | atomicPerform => exact execAtomicPerform_wf (hs := hs) ..
  | homeCommit => exact execHomeCommit_wf (hs := hs) ..
  | aprogRun => exact execAprogRun_wf (hs := hs) ..
  | aprogTimeout => exact execAprogTimeout_wf (hs := hs) ..
  | moved => exact execMoved_wf (hs := hs) ..
  | trapRecordPost => exact execTrapRecordPost_wf (hs := hs) ..
  | faultRecordPost => exact execFaultRecordPost_wf (hs := hs) ..
  | errorRecordPost => exact execErrorRecordPost_wf (hs := hs) ..
  | arrayRebuild => exact execArrayRebuild_wf (hs := hs) ..
  | rucksackSpill => exact execRucksackSpill_wf (hs := hs) ..
  | rucksackRefill => exact execRucksackRefill_wf (hs := hs) ..
  | copySegment => exact execCopySegment_wf (hs := hs) ..
  | copyWriteLands => exact execCopyWriteLands_wf (hs := hs) ..
  | cpmAcknowledgement => exact execCpmAcknowledgement_wf (hs := hs) ..
  | commandStart => exact execCommandStart_wf (hs := hs) ..
  | mldbSegment => exact execMldbSegment_wf (hs := hs) ..
  | mmaRow => exact execMmaRow_wf (hs := hs) ..
  | mzeroRow => exact execMzeroRow_wf (hs := hs) ..
  | mstoreRow => exact execMstoreRow_wf (hs := hs) ..
  | mdrainRead => exact execMdrainRead_wf (hs := hs) ..
  | mdrainLanding => exact execMdrainLanding_wf (hs := hs) ..
  | rowCommit => exact execRowCommit_wf (hs := hs) ..
  | commandRetire => exact execCommandRetire_wf (hs := hs) ..
  | parentRead => exact execParentRead_wf (hs := hs) ..
  | lowerStep => exact execLowerStep_wf (hs := hs) ..
  | linkStep => exact execLinkStep_wf (hs := hs) ..
  | addStep => exact execAddStep_wf (hs := hs) ..
  | sameStep => exact execSameStep_wf (hs := hs) ..
  | relabelRun => exact execRelabelRun_wf (hs := hs) ..
  | markOperation => exact execMarkOperation_wf (hs := hs) ..
  | eqCommit => exact execEqCommit_wf (hs := hs) ..
  | forestRelease => exact execForestRelease_wf (hs := hs) ..
  | barrierArrival => exact execBarrierArrival_wf (hs := hs) ..
  | expectation => exact execExpectation_wf (hs := hs) ..
  | engineCredit => exact execEngineCredit_wf (hs := hs) ..
  | waitWake => exact execWaitWake_wf (hs := hs) ..
  | bindingUpdate => exact execBindingUpdate_wf (hs := hs) ..
  | reservationGrant => exact execReservationGrant_wf (hs := hs) ..
  | linkCredit => exact execLinkCredit_wf (hs := hs) ..
  | strikeReport => exact execStrikeReport_wf (hs := hs) ..
  | admission => exact execAdmission_wf (hs := hs) ..
  | teamEnd => exact execTeamEnd_wf (hs := hs) ..
  | hamperTimer => exact execHamperTimer_wf (hs := hs) ..
  | teamEviction => exact execTeamEviction_wf (hs := hs) ..
  | readmission => exact execReadmission_wf (hs := hs) ..
  | timetableSlot => exact execTimetableSlot_wf (hs := hs) ..
  | deferredLaunch => exact execDeferredLaunch_wf (hs := hs) ..
  | watchdog => exact execWatchdog_wf (hs := hs) ..
  | queueEntryWrite tile entry hi lo => exact execQueueEntryWrite_wf tile entry hi lo s hs
  | clkmodeWrite => exact execClkmodeWrite_wf (hs := hs) ..
  | notifyRead => exact execNotifyRead_wf (hs := hs) ..
  | registerWrite => exact execRegisterWrite_wf (hs := hs) ..
  | linkRead => exact execLinkRead_wf (hs := hs) ..
  | linkWrite => exact execLinkWrite_wf (hs := hs) ..
  | readData => exact execReadData_wf (hs := hs) ..
  | writeAcknowledgement => exact execWriteAcknowledgement_wf (hs := hs) ..
  | refused => exact execRefused_wf (hs := hs) ..
  | errorResponse => exact execErrorResponse_wf (hs := hs) ..
  | linkAtomic => exact execLinkAtomic_wf (hs := hs) ..
  | atomicResult => exact execAtomicResult_wf (hs := hs) ..
  | hostTimeout => exact execHostTimeout_wf (hs := hs) ..
  | orderingPointAccess => exact execOrderingPointAccess_wf (hs := hs) ..
  | rangerLoadStore => exact execRangerLoadStore_wf (hs := hs) ..
  | hubHoldRelease => exact execHubHoldRelease_wf (hs := hs) ..
  | resume => exact execResume_wf (hs := hs) ..
  | redirect => exact execRedirect_wf (hs := hs) ..
  | killTeam => exact execKillTeam_wf (hs := hs) ..
  | killContext => exact execKillContext_wf (hs := hs) ..
  | resumepcWrite => exact execResumepcWrite_wf (hs := hs) ..
  | replay => exact execReplay_wf (hs := hs) ..
  | unresolvable => exact execUnresolvable_wf (hs := hs) ..
  | preempt => exact execPreempt_wf (hs := hs) ..
  | portBringUp => exact execPortBringUp_wf (hs := hs) ..
  | lossOfLock => exact execLossOfLock_wf (hs := hs) ..
  | trainingDone => exact execTrainingDone_wf (hs := hs) ..
  | backInvalidate => exact execBackInvalidate_wf (hs := hs) ..
  | cxlFailure => exact execCxlFailure_wf (hs := hs) ..
  | ptpEventMessage => exact execPtpEventMessage_wf (hs := hs) ..
  | clockLock => exact execClockLock_wf (hs := hs) ..
  | holdover => exact execHoldover_wf (hs := hs) ..
  | clkpairLatch => exact execClkpairLatch_wf (hs := hs) ..
  | powerGrant => exact execPowerGrant_wf (hs := hs) ..
  | powerLimit => exact execPowerLimit_wf (hs := hs) ..
  | droop tile cycles => exact execDroop_wf tile cycles s hs
  | emergencyThrottleBegin => exact execEmergencyThrottleBegin_wf (hs := hs) ..
  | emergencyThrottleEnd => exact execEmergencyThrottleEnd_wf (hs := hs) ..
  | orderlyShutdown => exact execOrderlyShutdown_wf (hs := hs) ..
  | powerOff => exact execPowerOff_wf (hs := hs) ..
  | packageReset => exact execPackageReset_wf (hs := hs) ..
  | getVersion => exact execGetVersion_wf (hs := hs) ..
  | getCapabilities => exact execGetCapabilities_wf (hs := hs) ..
  | negotiateAlgorithms => exact execNegotiateAlgorithms_wf (hs := hs) ..
  | getDigests => exact execGetDigests_wf (hs := hs) ..
  | getCertificate => exact execGetCertificate_wf (hs := hs) ..
  | challenge => exact execChallenge_wf (hs := hs) ..
  | getMeasurements => exact execGetMeasurements_wf (hs := hs) ..
  | keyExchange => exact execKeyExchange_wf (hs := hs) ..
  | finish => exact execFinish_wf (hs := hs) ..
  | endSession => exact execEndSession_wf (hs := hs) ..
  | nullCall => exact execNullCall_wf (hs := hs) ..
  | launchCall => exact execLaunchCall_wf (hs := hs) ..
  | launchwait => exact execLaunchwait_wf (hs := hs) ..
  | mapCall => exact execMapCall_wf (hs := hs) ..
  | unmap => exact execUnmap_wf (hs := hs) ..
  | qcreate => exact execQcreate_wf (hs := hs) ..
  | qdestroy => exact execQdestroy_wf (hs := hs) ..
  | bindthread => exact execBindthread_wf (hs := hs) ..
  | timeCall => exact execTimeCall_wf (hs := hs) ..
  | timetableCall => exact execTimetableCall_wf (hs := hs) ..
  | loadpkg => exact execLoadpkg_wf (hs := hs) ..
  | migrate ctx id target => exact execMigrate_wf ctx id target s hs
  | exitCall => exact execExitCall_wf (hs := hs) ..
  | logCall => exact execLogCall_wf (hs := hs) ..
  | migrationStream => exact execMigrationStream_wf (hs := hs) ..
  | resumptionConfirmed => exact execResumptionConfirmed_wf (hs := hs) ..

/-- A selected team's issue, whether it waits, stops at its fetch or runs what it fetched. -/
theorem State.issueNext_wf (s : State) (hs : s.mem.wf = true) : okN s.issueNext := by
  unfold State.issueNext
  split
  · exact okN_next hs
  · next hback => exact okN_next (wf_of_some hback (State.returnGroups_wf s hs))
  · have hawait := State.awaitFrames_wf s hs
    generalize s.awaitFrames = w at hawait ⊢
    obtain ⟨waits, u⟩ := w
    have hmac := State.endMacro_wf u hawait
    dsimp only
    split
    · exact okN_next hawait
    · split
      · exact okN_next hmac
      · split
        · exact okN_next hmac
        · split
          · exact exec_wf _ _ hmac
          · exact okN_next (State.fetchStops_wf _ _ hmac)

theorem State.issueOrTick_wf (s : State) (hs : s.mem.wf = true) : okN s.issueOrTick := by
  unfold State.issueOrTick
  split
  · next hsel => exact State.issueNext_wf _ (wf_of_some hsel (State.select_wf s hs))
  · exact okN_next (State.tick_wf s hs)

/-- What comes first in a step is either an instruction run or a unit's own work, and each keeps the form. -/
theorem step_wf (s : State) (hs : s.mem.wf = true) : okN (step s) := by
  unfold step State.step
  split
  · exact okN_fault
  · split
    · next harr => exact exec_wf _ _ (wf_of_someP harr (State.arriving_wf s hs))
    · split
      · exact exec_wf _ _ hs
      · split
        · exact exec_wf _ _ hs
        · split
          · next hbound => exact okN_next (wf_of_some hbound (State.boundary_wf s hs))
          · split
            · next hback => exact okN_next (wf_of_some hback (State.background_wf s hs))
            · exact State.issueOrTick_wf s hs

end Sys2Proof.Machine

open Sys2Proof Sys2Proof.Machine

/-- Settles O59: whatever the step runs keeps memory in canonical form. -/
theorem memoryFormKept : Obligations.MemoryFormKept := by
  intro s t hs hnext
  exact wf_of_next hnext (step_wf s hs)

end

section
/-! PROOFS. Memory instructions that hold one effect (O27). -/

namespace Sys2Proof.Machine

/-! ### Accesses that pass -/

theorem AccessRule.passes.noWait {r : AccessRule} {s : State} {xs : List Access1} (hp : r.passes s xs) (hspan : r.span = id) :
    r.who.accessWaits s xs r.waits (r.units xs) = none := by
  have hwaits := hp.waits
  rwa [hspan, List.map_id] at hwaits

/-- The TLB takes in the pages of accesses to translated memory. -/
def Issue.fillAll (o : Issue) (s : State) (xs : List Access1) : State := xs.foldl (fun s x => s.fillTlb o.t.id.tile o.t.id.ctx x.ea) s

theorem fills_fillAll (o : Issue) (s : State) (xs : List Access1) : Fills s (o.fillAll s xs) :=
  fills_foldl (fun s (x : Access1) => s.fillTlb o.t.id.tile o.t.id.ctx x.ea) (fun s x => fills_fillTlb s o.t.id.tile o.t.id.ctx x.ea) xs s

theorem exists_singleton {α : Type} {xs : List α} (h : xs ≠ []) (hlen : xs.length ≤ 1) : ∃ x, xs = [x] :=
  List.length_eq_one_iff.1 (Nat.le_antisymm hlen (List.length_pos_iff.2 h))

theorem four_mul_ne_one (n : Nat) : 4 * n ≠ 1 := by omega

/-- No lane of a BINIT gives a count that is 0 or too large (R408). -/
theorem illegalCounts_nil {o : Issue} (h : ∀ l ∈ o.lanes, 1 ≤ (o.d l).v.toNat % 2 ^ 32 ∧ (o.d l).v.toNat % 2 ^ 32 ≤ 65535) :
    (o.lanes.filter fun l => (o.d l).v.toNat % 2 ^ 32 == 0 || decide (65535 < (o.d l).v.toNat % 2 ^ 32)) = [] := by
  rw [List.filter_eq_nil_iff]
  intro l hl
  obtain ⟨hpos, hmax⟩ := h l hl
  simp only [Bool.or_eq_true, beq_iff_eq, decide_eq_true_eq]
  omega

/-! ### Pending results with one effect held -/

theorem due_after_draw {s : State} (h : Drawn s (draw s).2) : s.now + Config.Q ≤ max ((draw s).2.now + Config.Q) ((draw s).2.now + 1 + (draw s).1) := by
  rw [h.now]
  exact Nat.le_max_left ..

/-- A launch instruction's result pends and one effect is held (R452, R460). -/
theorem requests_pendQ {o : Issue} {s : State} (ho : o.t.id.uid = s.cur.id.uid) (n : Nat) (e : Nat → Effect) (rs : List LaneResult) (codes bcast : Bool) :
    Requests o s (o.hold (o.pendQ s rs codes bcast).2 n (e (o.pendQ s rs codes bcast).1)) ⟨n, e, some rs⟩ := by
  have hdraw := (Fills.refl s).drawn.draw
  exact requests_pend ho hdraw n _ (due_after_draw hdraw) e rfl false false [] _ fun _ => rfl

section
variable {i : Instr} {s s1 : State} {o : Issue} {body : Issue → State → Res} {xs : List Access1} (h : prepare i s = .ok (o, s1))
include h

theorem prepared_uid : o.t.id.uid = s1.cur.id.uid := by rw [(prepared h).team]

/-- An instruction that passes its accesses and holds one effect without a result (R212). -/
theorem issue_holds {v : State} {n : Nat} {e : Effect} (hv : Fills s1 v) (hb : ∃ ys need c k q, body o s1 = o.access (o.hold v n e) ys [] need c k q) :
    ∃ u t, issue i body s = .next t ∧ Requests o s1 u ⟨n, fun _ => e, none⟩ ∧ Completes o u t :=
  complete_access h hb (requests_hold hv n e)

/-- A store of each lane's data (R212, R225). -/
theorem issue_stores {eas : List (Nat × PVal)} {n : Nat} {noEf : Bool} (data : Nat → List (Byte × Bool))
    (hp : (plainAccess o eas n 28 { Need.w with noEf := noEf } fun xs => o.unitsFor xs.length n).passes s1 xs) (hb : body o s1 = o.store s1 eas n noEf data) :
    ∃ u t, issue i body s = .next t ∧
      Requests o s1 u ⟨o.unitsFor xs.length n, fun _ => .write (xs.map fun x => ⟨x.lane, x.ea, (data x.lane).take n⟩) false, none⟩ ∧ Completes o u t := by
  obtain ⟨u, e, hstore, hends, hreq⟩ := store_requests hp
  exact complete_requests h (hb.trans hstore) hends hreq

/-- An atomic of `k` words, aligned to its size, with a result (R279, R280). -/
theorem issue_atomic {eas : List (Nat × PVal)} {k bytes width : Nat} (eff : Option Nat → List Access1 → Effect)
    (hp : { plainAccess o eas (4 * k) 56 Need.rw (fun xs => o.unitsFor xs.length bytes) with last := atomSpace }.passes s1 xs)
    (hb : body o s1 = o.atomic s1 eas (4 * k) (4 * k) bytes atomSpace (some width) eff) :
    ∃ u t, issue i body s = .next t ∧
      Requests o s1 u ⟨o.unitsFor xs.length bytes, fun pid => eff (some pid) xs, some (o.atomDests (xs.map (·.lane)) width)⟩ ∧ Completes o u t := by
  obtain ⟨u, e, hatomic, hends, hreq⟩ := aligned_requests (o := o) (prepared_uid h) hp.some (four_mul_ne_one k) hp.check hp.waits
  exact complete_requests h (hb.trans hatomic) hends hreq

end

/-! ### The instructions with a shape of their own -/

/-- What O27 says of one instruction. -/
def HoldsAsRuled (i : Instr) : Prop :=
  ∀ f g, accessOf i = some f → heldOf i = some g → ∀ s o s1 xs, prepare i s = .ok (o, s1) → (f o s1).passes s1 xs →
  ∃ u t, exec i s = .next t ∧ Requests o s1 u (g o s1 xs) ∧ Completes o u t

theorem ared_holdsAsRuled (op : BitVec 4) (w : BitVec 1) (d a b : Reg) (lit : Word) : HoldsAsRuled (.ared op w d a b lit) := by
  rintro f g ⟨⟩ ⟨⟩ s o s1 xs h hp
  obtain ⟨u, e, hatomic, hends, hreq⟩ := ared_requests (o := o) (eff := fun pid xs => .atomic pid (.alu op.toNat (4 * wOf w)) (xs.map o.request))
    (four_mul_ne_one (wOf w)) hp.some hp.check hp.waits
  exact complete_requests h hatomic hends hreq

theorem aprog_holdsAsRuled (d a : Reg) (l : BitVec 4) (x : BitVec 1) (lit : Word) : HoldsAsRuled (.aprog d a l x lit) := by
  rintro f g ⟨⟩ ⟨⟩ s o s1 xs h hp
  obtain ⟨u, e, hatomic, hends, hreq⟩ := atomic_requests (o := o) (align := 1) (bytes := 12) (width := 2)
    (eff := fun pid xs => .aprog (pid.getD 0) (xs.map (progRequest o))) (prepared_uid h) hp.some hp.check hp.waits
  exact complete_requests h hatomic hends hreq

theorem rel_holdsAsRuled (d a b : Reg) (lit : Word) : HoldsAsRuled (.rel d a b lit) := by
  rintro f g ⟨⟩ ⟨⟩ s o s1 xs h hp
  have hcheck : o.check s1 o.addrsT 8 8 28 Need.w none (fun _ => none) = .ok xs [] := hp.check
  have hbinds : s1.bindsOut o.t.id.uid = false := hp.ready
  have hwaits : o.accessWaits s1 (xs.map fun y => { y with ef := false }) 8 (o.unitsFor xs.length 8) = none := hp.waits
  exact issue_holds h (fills_accesses o.t.id.tile o.t.id.ctx (xs.map fun y => { y with ef := false }) s1) ⟨_, _, _, _, _, by
    simp only [hcheck, hbinds, hwaits, List.length_map, List.isEmpty_map, isEmpty_of_ne hp.some, Bool.false_eq_true, if_false, (fills_accesses ..).regions,
      List.map_map]
    rfl⟩

theorem cadd_holdsAsRuled (d a b : Reg) (lit : Word) : HoldsAsRuled (.cadd d a b lit) := by
  rintro f g ⟨⟩ ⟨⟩ s o s1 xs h hp
  have hcheck : o.checkWith s1 o.addrsT 8 [(71, counterOdd)] Need.rw none (fun _ => none) = .ok xs [] := hp.check
  have hbinds : s1.bindsOut o.t.id.uid = false := hp.ready
  have hwaits : o.accessWaits s1 xs 8 (o.unitsFor xs.length 4) = none := hp.noWait rfl
  have hregions : ∀ objs, (o.fillAll s1 xs).regionsOf o.t.id.tile o.t.id.ctx objs = s1.regionsOf o.t.id.tile o.t.id.ctx objs :=
    (fills_fillAll o s1 xs).regions o.t.id.tile o.t.id.ctx
  unfold Issue.fillAll at hregions
  exact issue_holds h (fills_fillAll o s1 xs) ⟨_, _, _, _, _, by
    simp only [hcheck, hbinds, hwaits, isEmpty_of_ne hp.some, Bool.false_eq_true, if_false, hregions]
    rfl⟩

theorem arrive_holdsAsRuled (a b : Reg) (lit : Word) : HoldsAsRuled (.arrive a b lit) := by
  rintro f g ⟨⟩ ⟨⟩ s o s1 xs h hp
  have hcheck : o.checkWith s1 o.addrsT 16 [(68, barrierOdd)] Need.rw none (fun _ => none) = .ok xs [] := hp.check
  have hbinds : s1.bindsOut o.t.id.uid = false := hp.ready
  have hwaits : o.accessWaits s1 xs 16 (o.unitsFor xs.length 0) = none := hp.noWait rfl
  exact issue_holds h (Fills.refl s1) ⟨_, _, _, _, _, by
    simp only [hcheck, hbinds, hwaits, isEmpty_of_ne hp.some, Bool.false_eq_true, if_false]
    rfl⟩

theorem binit_holdsAsRuled (d a b : Reg) (lit : Word) : HoldsAsRuled (.binit d a b lit) := by
  rintro f g ⟨⟩ ⟨⟩ s o s1 xs h hp
  have hcheck : o.checkWith s1 o.addrsT 16 [(68, barrierOdd)] Need.w none (fun _ => none) = .ok xs [] := hp.check
  have hwaits : o.accessWaits s1 xs 16 (o.unitsFor xs.length 16) = none := hp.noWait rfl
  exact issue_holds h (Fills.refl s1) ⟨_, _, _, _, _, by
    simp only [poisonedLanes_nil hp.early, hcheck, illegalCounts_nil hp.ready, hwaits, isEmpty_of_ne hp.some, Bool.false_eq_true, if_false,
      List.isEmpty_nil, Bool.not_true]
    rfl⟩

theorem expect_holdsAsRuled (d a b : Reg) (lit : Word) : HoldsAsRuled (.expect d a b lit) := by
  rintro f g ⟨⟩ ⟨⟩ s o s1 xs h hp
  have hcheck : o.checkWith s1 o.addrsT 16 [(68, barrierOdd)] Need.rw none (fun _ => none) = .ok xs [] := hp.check
  have hwaits : o.accessWaits s1 xs 16 (o.unitsFor xs.length 4) = none := hp.noWait rfl
  have hdraw := (Fills.refl s1).drawn.draw
  have hreq := requests_pend (prepared_uid h) hdraw (o.unitsFor xs.length 4) _ (due_after_draw hdraw)
    (fun pid => .expect pid (xs.map fun x => (x.lane, x.ea, (o.d x.lane).v.toNat % 2 ^ 32))) (rs := o.dests (xs.map (·.lane)) 1) rfl true false
    (xs.map fun x => (x.ea, 16)) id fun _ => rfl
  rw [modPend_id] at hreq
  exact complete_access h ⟨_, _, _, _, _, by
    simp only [poisonedLanes_nil hp.early, hcheck, hwaits, isEmpty_of_ne hp.some, Bool.false_eq_true, if_false, List.isEmpty_nil, Bool.not_true]
    rfl⟩ hreq

theorem apload_holdsAsRuled (a b : Reg) (lit : Word) : HoldsAsRuled (.apload a b lit) := by
  rintro f g ⟨⟩ ⟨⟩ s o s1 xs h hp
  obtain ⟨x, rfl⟩ := exists_singleton hp.some hp.ready
  obtain ⟨l, hone, hclean, hindex⟩ := hp.early
  have hcheck : o.check s1 [(l, o.a l)] 64 64 28 Need.r none (fun _ => none) = .ok [x] [] := by
    have hall : o.check s1 (o.lanes.map fun l => (l, o.a l)) 64 64 28 Need.r none (fun _ => none) = .ok [x] [] := hp.check
    rwa [hone] at hall
  have hwaits : o.accessWaits s1 [x] 64 1 = none := hp.waits
  exact issue_holds h (Fills.refl s1) ⟨_, _, _, _, _, by
    simp only [hone, hclean, Bool.false_eq_true, if_false, if_neg (Nat.not_lt.2 hindex), hcheck, hwaits]
    rfl⟩

theorem spawn_holdsAsRuled (d a b : Reg) (lit : Word) : HoldsAsRuled (.spawn d a b lit) := by
  rintro f g ⟨⟩ ⟨⟩ s o s1 xs h hp
  have hcheck : o.check s1 o.addrsT 64 64 28 Need.r none (fun _ => none) = .ok xs [] := hp.check
  obtain ⟨x, ys, rfl⟩ := List.exists_cons_of_ne_nil hp.some
  have hwaits : o.accessWaits s1 (x :: ys) 64 3 = none := hp.noWait rfl
  exact complete_access h ⟨_, _, _, _, _, by
    simp only [hcheck, List.isEmpty_cons, Bool.false_eq_true, if_false, hwaits]
    rfl⟩ (requests_pendQ (prepared_uid h) 3 (fun pid => .spawn pid ((x :: ys).map fun x => (x.lane, x.ea))) _ true false)

theorem job_holdsAsRuled (a b : Reg) (lit : Word) : HoldsAsRuled (.job a b lit) := by
  rintro f g ⟨⟩ ⟨⟩ s o s1 xs h hp
  obtain ⟨x, rfl⟩ := exists_singleton hp.some hp.ready
  have hcheck : o.check s1 o.addrsT 64 64 28 Need.r none (fun _ => none) = .ok [x] [] := hp.check
  have hwaits : o.accessWaits s1 [x] 64 3 = none := hp.waits
  exact issue_holds h (Fills.refl s1) ⟨_, _, _, _, _, by
    simp only [hcheck, List.isEmpty_cons, Bool.false_eq_true, if_false, hwaits]
    rfl⟩

theorem launch_holdsAsRuled (d a b : Reg) (lit : Word) : HoldsAsRuled (.launch d a b lit) := by
  rintro f g ⟨⟩ ⟨⟩ s o s1 xs h hp
  have hcheck : o.check s1 (o.addrsT.flatMap fun (l, v) => [(l, v), (l, ⟨v.v + 64, v.p⟩)]) 64 64 28 Need.rw none (fun _ => none) = .ok xs [] := hp.check
  obtain ⟨x, ys, rfl⟩ := List.exists_cons_of_ne_nil hp.some
  have hwaits : o.accessWaits s1 (x :: ys) 64 3 = none := hp.noWait rfl
  exact complete_access h ⟨_, _, _, _, _, by
    simp only [hcheck, List.isEmpty_nil, List.isEmpty_cons, Bool.not_true, Bool.false_eq_true, if_false, hwaits]
    rfl⟩ (requests_pendQ (prepared_uid h) 3 (fun pid => .launch pid x.ea) _ false true)

end Sys2Proof.Machine

open Sys2Proof Sys2Proof.Machine

/-- Settles O27: stores and atomics by what those operations hold, the others each by its own checks. -/
theorem heldAccesses : Obligations.HeldAccesses := by
  intro i f g hf hg s o s1 xs h hp
  cases i
  case st n d a b lit =>
    cases hf
    cases hg
    exact issue_stores h (noEf := false) (fun l => wordBytes (o.dataWords l o.sh.d.words)) hp rfl
  case stv =>
    cases hf
    cases hg
    exact issue_stores h (noEf := true) (fun l => wordBytes (o.dataWords l 4)) hp rfl
  case atom op w d a l x lit =>
    cases hf
    cases hg
    exact issue_atomic h (fun pid xs => .atomic pid (.alu op.toNat (4 * wOf w)) (xs.map o.request)) hp rfl
  case acas w d a l x lit =>
    cases hf
    cases hg
    exact issue_atomic h (fun pid xs => .atomic pid (.cas (4 * wOf w)) (xs.map (casRequest o (wOf w)))) hp rfl
  case afadd =>
    cases hf
    cases hg
    exact issue_atomic h (fun pid xs => .atomic pid (.fadd (4 * modeWords o.mode.typ) o.mode) (xs.map o.request)) hp rfl
  case afmm d a l x m lit =>
    cases hf
    cases hg
    exact issue_atomic h (fun pid xs => .atomic pid (.fmm (4 * modeWords o.mode.typ) (m = 1) o.mode) (xs.map o.request)) hp rfl
  case ared => exact ared_holdsAsRuled _ _ _ _ _ _ f g hf hg s o s1 xs h hp
  case aprog => exact aprog_holdsAsRuled _ _ _ _ _ f g hf hg s o s1 xs h hp
  case rel => exact rel_holdsAsRuled _ _ _ _ f g hf hg s o s1 xs h hp
  case binit => exact binit_holdsAsRuled _ _ _ _ f g hf hg s o s1 xs h hp
  case arrive => exact arrive_holdsAsRuled _ _ _ f g hf hg s o s1 xs h hp
  case expect => exact expect_holdsAsRuled _ _ _ _ f g hf hg s o s1 xs h hp
  case cadd => exact cadd_holdsAsRuled _ _ _ _ f g hf hg s o s1 xs h hp
  case apload => exact apload_holdsAsRuled _ _ _ f g hf hg s o s1 xs h hp
  case spawn => exact spawn_holdsAsRuled _ _ _ _ f g hf hg s o s1 xs h hp
  case job => exact job_holdsAsRuled _ _ _ f g hf hg s o s1 xs h hp
  case launch => exact launch_holdsAsRuled _ _ _ _ f g hf hg s o s1 xs h hp
  all_goals cases hg

end

section
/-! PROOFS. MX blocks (O30), cache maintenance (O31) and prefetches (O33). -/

namespace Sys2Proof.Machine

/-! ### MX blocks -/

section
variable {s s1 : State} {o : Issue} {xs : List Access1}

/-- Reading blocks for a pending result, from a state in which that result is the youngest. -/
theorem readsBlocks_of {v : State} {pid : Nat} (hpid : pid = s.nextId) (hpend : PendsAt o s v (xs.map fun x => (x.lane, destOf o.t o.rd x.lane, 2)) 1)
    (hquiet : Quiet { s with cur := { s.cur with pend := v.cur.pend } } v) :
    ReadsBlocks o s ((runsOf o.runLength xs).foldl (fun t run => o.loadPair t pid (4 * o.runLength) run) v) xs := by
  subst hpid
  have hcool : v.coolbox = s.coolbox := by rw [hquiet.rest]
  have hnow : v.now = s.now := by rw [hquiet.rest]
  obtain ⟨hcleans, hruns⟩ := loadPairs_fold o s.nextId (4 * o.runLength) (runsOf o.runLength xs) v
  generalize List.foldl _ v _ = u at hcleans hruns
  have hcur : u.cur = v.cur := by rw [hcleans.quiet.rest]
  refine ⟨?_, fun run hrun x hx => ?_, fun run hrun x hx => (hruns run hrun x hx).2, ?_⟩
  · obtain ⟨p, hp⟩ := hpend
    exact ⟨p, by rw [hcur]; exact hp⟩
  · obtain ⟨⟨y, hy, hact, hva, hpa, huid, hdue⟩, -⟩ := hruns run hrun x hx
    exact ⟨y, hy, hva, hpa, huid, hnow ▸ hdue, hact.trans (pairAct_congr o hcool ..)⟩
  · rw [hcur]
    exact hquiet.trans hcleans.quiet

/-- A result of a read that waits for nothing but its time pends. -/
theorem pends_drawn {t : State} (ho : o.t.id.uid = s.cur.id.uid) (ht : Drawn s t) (rs : List LaneResult) {due : Nat} (hdue : s.now + 1 ≤ due) (f : Pend → Pend)
    (hf : ∀ p, f p = { p with fmt := (f p).fmt }) :
    let r := o.pend t rs due false false []
    let v := r.2.modPend o.t.id.uid r.1 f
    r.1 = s.nextId ∧ PendsAt o s v (rs.map LaneResult.place) 1 ∧ Quiet { s with cur := { s.cur with pend := v.cur.pend } } v := by
  rw [ht.rest]
  simp only [Issue.pend, fresh, State.modPend, State.modTeam, ho, if_true]
  rw [modifyLast_append _ _ _ _ (by simp), hf]
  exact ⟨trivial, ⟨_, rfl, rfl, rfl, rfl, rfl, rfl, rfl, rfl, hdue⟩, ⟨rfl⟩⟩

/-- Runs of MX lanes are held, one write each, once the TLB has the pages. -/
theorem holdsBlocks_of {v : State} (hv : Fills s v) (n : Nat) :
    HoldsBlocks o s ((runsOf o.runLength xs).foldl (fun t run => o.hold t n (.write (o.runPieces o.runLength run) true)) v) xs := by
  obtain ⟨hrest, hs, hcool, heffs, hissued⟩ := holds_fold o n (fun run => .write (o.runPieces o.runLength run) true) (runsOf o.runLength xs) v
  generalize List.foldl _ v _ = u at hrest hcool
  rw [hv.rest] at hrest hcool hissued
  refine ⟨⟨hs, hcool, heffs, hissued⟩, ?_⟩
  rw [hrest]

/-- An instruction that ends with its accesses made. -/
theorem issue_accesses {i : Instr} {u : State} {body : Issue → State → Res} {P : State → Prop} (h : prepare i s = .ok (o, s1))
    (hb : ∃ ys need c n k, body o s1 = o.access u ys [] need c n k) (hu : P u) : ∃ u t, issue i body s = .next t ∧ P u ∧ Completes o u t := by
  obtain ⟨_, _, _, _, _, hb⟩ := hb
  exact issue_finishes h ⟨u, _, hb, ⟨⟨rfl, rfl, rfl⟩, rfl⟩, hu⟩

theorem ldmx_reads {d a : Reg} {l : BitVec 4} {x : BitVec 1} {lit : Word} {f : Issue → State → AccessRule} (hf : accessOf (.ldmx d a l x lit) = some f)
    (h : prepare (.ldmx d a l x lit) s = .ok (o, s1)) (hp : (f o s1).passes s1 xs) :
    ∃ u t, exec (.ldmx d a l x lit) s = .next t ∧ ReadsBlocks o s1 u xs ∧ Completes o u t := by
  cases hf
  have hcheck : o.check s1 (o.act.map fun k => (k, o.addrL x (k - k % o.runLength))) (4 * o.runLength) (4 * o.runLength) 28
      { Need.r with noEf := true, mx := true } (some 30) pairReach = .ok xs [] := hp.check
  have hwaits : o.accessWaits s1 xs (4 * o.runLength) 0 = none := hp.noWait rfl
  have hscale : o.accessWaits s1 (scaleOf (4 * o.runLength) xs) 1 0 = none := hp.ready
  have hdrawn := (fills_fillAll o s1 xs).drawn.draw
  obtain ⟨hid, hpend, hquiet⟩ := pends_drawn (prepared_uid h) hdrawn
    (xs.map fun x => ⟨x.lane, destOf o.t o.rd x.lane, 2, 0, false, readRegs o.t x.lane o.rd 2, none, 0⟩)
    (due := (draw (o.fillAll s1 xs)).2.now + 1 + (draw (o.fillAll s1 xs)).1)
    (by rw [hdrawn.now]; exact Nat.le_add_right ..) (fun p => { p with fmt := some o.descriptor }) fun _ => rfl
  rw [List.map_map] at hpend
  exact issue_accesses h ⟨_, _, _, _, _, by
    simp only [hcheck, hwaits, hscale, Option.or_none, isEmpty_of_ne hp.some, Bool.false_eq_true, if_false]
    rfl⟩ (readsBlocks_of hid hpend hquiet)

theorem stmx_holds {d a b : Reg} {lit : Word} {f : Issue → State → AccessRule} (hf : accessOf (.stmx d a b lit) = some f)
    (h : prepare (.stmx d a b lit) s = .ok (o, s1)) (hp : (f o s1).passes s1 xs) :
    ∃ u t, exec (.stmx d a b lit) s = .next t ∧ HoldsBlocks o s1 u xs ∧ Completes o u t := by
  cases hf
  have hwhole : o.mixedRuns o.runLength = [] := hp.early
  have hcheck : o.check s1 (o.act.map fun k => (k, o.addrT (k - k % o.runLength))) (4 * o.runLength) (4 * o.runLength) 28
      { Need.w with noEf := true, mx := true } (some 30) pairReach = .ok xs [] := hp.check
  have hwaits : o.accessWaits s1 xs (4 * o.runLength) ((1 + ceilDiv (o.runLength * (8 + 4)) 32) * (runsOf o.runLength xs).length) = none := hp.noWait rfl
  have hscale : o.accessWaits s1 (scaleOf (4 * o.runLength) xs) 1 0 = none := hp.ready
  exact issue_accesses h ⟨_, _, _, _, _, by
    simp only [hwhole, List.isEmpty_nil, Bool.not_true, Bool.false_eq_true, if_false, hcheck, hwaits, hscale, Option.or_none]
    rfl⟩ (holdsBlocks_of (fills_fillAll o s1 xs) _)

end

/-! ### FLUSH, INVL and PREF -/

section
variable {i : Instr} {s s1 u : State} {o : Issue} {body : Issue → State → Res} {P : State → Prop} (h : prepare i s = .ok (o, s1))
include h

theorem issue_single (hb : body o s1 = o.single u) (hu : P u) : ∃ u t, issue i body s = .next t ∧ P u ∧ Completes o u t :=
  issue_finishes h ⟨u, _, hb, ⟨⟨rfl, rfl, rfl⟩, rfl⟩, hu⟩

theorem issue_plain (hb : body o s1 = o.plain u) (hu : P u) : ∃ u t, issue i body s = .next t ∧ P u ∧ Completes o u t :=
  issue_finishes h ⟨u, _, hb, ⟨⟨rfl, rfl, rfl⟩, rfl⟩, hu⟩

end

/-- FLUSH and INVL of a legal range get as far as their own effect (R227). -/
theorem lines_of_lineRange {o : Issue} {s : State} {ea len : Nat} (h : o.lineRange s ea len) (f : Nat → Nat → Res) : o.lines s f = f ea len := by
  obtain ⟨l, hone, rfl, rfl, ha, hb⟩ := h.one
  unfold Issue.lines
  simp only [hone, ha, hb, h.copies, Nat.not_lt.2 h.inside, Bool.or_self, Bool.false_eq_true, if_false]

theorem flushRange_drops (o : Issue) (s : State) (ea len : Nat) :
    let u := (s.flushRange o.t.id.tile o.t.id.ctx o.t.id.uid s.now ea (ea + len) true).2
    Quiet s u ∧ o.uncached u ea len ∧ WritesBack s u (overlaps o.t.id.tile o.t.id.ctx ea (ea + len)) :=
  ⟨(cleans_flushRange ..).quiet, flushRange_uncached o s o.t.id.uid s.now ea len, cleanLines_writes s _ _ _ _⟩

end Sys2Proof.Machine

open Sys2Proof Sys2Proof.Machine

/-- Settles O30: LDMX by the fold of the reads of its runs, STMX by the fold of their holds (R228, R229). -/
theorem blockAccesses : Obligations.BlockAccesses :=
  ⟨fun _ _ _ _ _ _ hf _ _ _ _ h hp => ldmx_reads hf h hp, fun _ _ _ _ _ hf _ _ _ _ h hp => stmx_holds hf h hp⟩

/-- Settles O31: a legal range passes the checks of both, and INVL writes its lines back and drops them. -/
theorem cacheMaintenance : Obligations.CacheMaintenance := by
  refine ⟨?flush, ?invl⟩
  case flush =>
    intro a b lit s o s1 ea len h hrange hroom
    exact issue_single h ((lines_of_lineRange hrange _).trans (if_pos hroom)) (requests_hold (Fills.refl s1) 1 (.flush ea len))
  case invl =>
    intro a b lit s o s1 ea len h hrange
    exact issue_single h (lines_of_lineRange hrange _) (flushRange_drops o s1 ea len)

/-- Settles O33: with no poison PREF is the steps of its lanes, each of which asks for its line or does nothing. -/
theorem prefetchAsksForLines : Obligations.PrefetchAsksForLines := by
  intro a b lit s o s1 h hclean
  refine issue_plain h (u := o.lanes.foldl (prefStep o s1) s1) ?_ (pref_fold o o.lanes s1 s1 rfl)
  dsimp only
  rw [poisonedLanes_nil hclean]
  rfl

end

section
/-! PROOFS. Memory instructions that meet translation faults only (O36). -/

namespace Sys2Proof.Machine

/-- Parking the team adds one fault record and leaves all but the team's status, its unfinished lanes and its stall as they were. -/
theorem parkTeam_parks (s : State) (pc : BitVec 48) (word : Word) (mask : LaneMask) (va level : Nat) (n : Need) (eas : List (Nat × Dword)) :
    FaultParked s (s.parkTeam 0 pc word mask va n level eas) pc word mask level va := by
  obtain ⟨f, hf, huid, hpc, hword, hmask, hva, hlevel, hissue, hposted, hstops⟩ := parks_fault s 0 pc word mask va n level eas
  exact ⟨rfl, ⟨f, hf, huid, hpc, hword, hmask, hva, hlevel, hissue, hposted, hstops rfl⟩, ⟨_, rfl, rfl, rfl, rfl⟩, rfl⟩

/-- Nothing is awaited for no access that needs no room. -/
theorem accessWaits_nil (o : Issue) (s : State) (n k : Nat) : o.accessWaits s [] n (o.unitsFor 0 k) = none := rfl

section
variable {s s1 : State} {o : Issue} {l level va : Nat} {fs : List (Nat × Nat × Nat)}

/-- An instruction whose every access faults parks its team and stays (R221, R324). -/
theorem issue_parks {i : Instr} {body : Issue → State → Res} {w : Issue} (h : prepare i s = .ok (o, s1)) (hg : w.g = o.g) (hword : w.word = o.word)
    (hb : ∃ need c n k, body o s1 = w.access s1 [] ((l, level, va) :: fs) need c n k) :
    ∃ u t e, issue i body s = .next t ∧ FaultParked s1 u o.g.pc o.word (w.maskFor (((l, level, va) :: fs).map (·.1))) level va ∧
      e.stay = true ∧ Concludes o e u t := by
  obtain ⟨need, c, n, k, hb⟩ := hb
  obtain ⟨t, hnext, hconcludes⟩ := issue_concludes h hb
  rw [hg, hword] at hconcludes
  exact ⟨_, t, _, hnext, parkTeam_parks .., rfl, hconcludes⟩

theorem load_of_faults {eas : List (Nat × PVal)} {n : Nat} {noEf : Bool} (h : (loadAccess o eas n noEf).check s = .ok [] fs) (signed : Bool)
    (mark : Pend → Pend) (results : List Nat → List LaneResult) :
    ∃ need c k b, o.load s eas n signed noEf mark results = o.access s [] fs need c k b := by
  have hcheck : o.check s eas n n 28 { Need.r with noEf := noEf } none (fun _ => none) = .ok [] fs := h
  unfold Issue.load
  simp only [hcheck, List.filter_nil, List.length_nil, accessWaits_nil, List.foldl_nil, List.isEmpty_nil, if_true]
  exact ⟨_, _, _, _, rfl⟩

theorem store_of_faults {eas : List (Nat × PVal)} {n : Nat} {noEf : Bool} {units : List Access1 → Nat}
    (h : (plainAccess o eas n 28 { Need.w with noEf := noEf } units).check s = .ok [] fs) (data : Nat → List (Byte × Bool)) :
    ∃ need c k b, o.store s eas n noEf data = o.access s [] fs need c k b := by
  have hcheck : o.check s eas n n 28 { Need.w with noEf := noEf } none (fun _ => none) = .ok [] fs := h
  unfold Issue.store
  simp only [hcheck, List.length_nil, accessWaits_nil, List.foldl_nil, List.isEmpty_nil, if_true]
  exact ⟨_, _, _, _, rfl⟩

theorem atomic_of_faults {eas : List (Nat × PVal)} {n align : Nat} {last : Nat → Option Nat} (h : o.check s eas n align 56 Need.rw none last = .ok [] fs)
    (bytes : Nat) (width : Option Nat) (eff : Option Nat → List Access1 → Effect) :
    ∃ need c k b, o.atomic s eas align n bytes last width eff = o.access s [] fs need c k b := by
  unfold Issue.atomic
  simp only [h, List.map_nil, List.length_nil, accessWaits_nil, List.isEmpty_nil, if_true]
  exact ⟨_, _, _, _, rfl⟩

end

end Sys2Proof.Machine

open Sys2Proof Sys2Proof.Machine

/-- Settles O36: with no access left to make, each instruction ends in parking its team. -/
theorem translationFaultsPark : Obligations.TranslationFaultsPark := by
  intro i f hf s o s1 l level va fs h he hr hc hw
  cases i
  case ld | ldv | fmtld =>
    cases hf
    refine issue_parks (w := o) h rfl rfl ?_
    dsimp only
    exact load_of_faults hc _ _ _
  case ldkB32 | ldkB64 =>
    cases hf
    refine issue_parks (w := o.one) h rfl rfl ?_
    dsimp only [Issue.loadK]
    exact load_of_faults hc _ _ _
  case st =>
    cases hf
    exact issue_parks (w := o) h rfl rfl (store_of_faults (noEf := false) hc _)
  case stv =>
    cases hf
    exact issue_parks (w := o) h rfl rfl (store_of_faults (noEf := true) hc _)
  case atom | acas | afadd | afmm | ared | aprog =>
    cases hf
    exact issue_parks (w := o) h rfl rfl (atomic_of_faults hc ..)
  case acq d a k x lit =>
    cases hf
    have hcheck : o.check s1 (o.addrsL x) 8 8 28 Need.r none (fun _ => none) = .ok [] ((l, level, va) :: fs) := hc
    have hbinds : s1.bindsOut o.t.id.uid = false := hr
    exact issue_parks (w := o) h rfl rfl ⟨_, _, _, _, by
      simp only [hcheck, hbinds, Bool.false_eq_true, if_false]
      rfl⟩
  case rel =>
    cases hf
    have hcheck : o.check s1 o.addrsT 8 8 28 Need.w none (fun _ => none) = .ok [] ((l, level, va) :: fs) := hc
    have hbinds : s1.bindsOut o.t.id.uid = false := hr
    exact issue_parks (w := o) h rfl rfl ⟨_, _, _, _, by
      simp only [hcheck, hbinds, Bool.false_eq_true, if_false]
      rfl⟩
  case arrive =>
    cases hf
    have hcheck : o.checkWith s1 o.addrsT 16 [(68, barrierOdd)] Need.rw none (fun _ => none) = .ok [] ((l, level, va) :: fs) := hc
    have hbinds : s1.bindsOut o.t.id.uid = false := hr
    exact issue_parks (w := o) h rfl rfl ⟨_, _, _, _, by
      simp only [hcheck, hbinds, Bool.false_eq_true, if_false]
      rfl⟩
  case cadd =>
    cases hf
    have hcheck : o.checkWith s1 o.addrsT 8 [(71, counterOdd)] Need.rw none (fun _ => none) = .ok [] ((l, level, va) :: fs) := hc
    have hbinds : s1.bindsOut o.t.id.uid = false := hr
    exact issue_parks (w := o) h rfl rfl ⟨_, _, _, _, by
      simp only [hcheck, hbinds, Bool.false_eq_true, if_false]
      rfl⟩
  case cread d a k x lit =>
    cases hf
    have hcheck : o.checkWith s1 (o.addrsL x) 8 eitherOdd Need.rw none (fun _ => none) = .ok [] ((l, level, va) :: fs) := hc
    exact issue_parks (w := o) h rfl rfl ⟨_, _, _, _, by
      simp only [hcheck]
      rfl⟩
  case spawn | job =>
    cases hf
    have hcheck : o.check s1 o.addrsT 64 64 28 Need.r none (fun _ => none) = .ok [] ((l, level, va) :: fs) := hc
    exact issue_parks (w := o) h rfl rfl ⟨_, _, _, _, by
      simp only [hcheck]
      rfl⟩
  case launch =>
    cases hf
    have hcheck : o.check s1 (o.addrsT.flatMap fun (l, v) => [(l, v), (l, ⟨v.v + 64, v.p⟩)]) 64 64 28 Need.rw none (fun _ => none) = .ok [] ((l, level, va) :: fs) := hc
    exact issue_parks (w := o) h rfl rfl ⟨_, _, _, _, by
      simp only [hcheck]
      rfl⟩
  case ldmx d a k x lit =>
    cases hf
    have hcheck : o.check s1 (o.act.map fun k => (k, o.addrL x (k - k % o.runLength))) (4 * o.runLength) (4 * o.runLength) 28
        { Need.r with noEf := true, mx := true } (some 30) pairReach = .ok [] ((l, level, va) :: fs) := hc
    exact issue_parks (w := o) h rfl rfl ⟨_, _, _, _, by
      simp only [hcheck]
      rfl⟩
  case stmx =>
    cases hf
    have hwhole : o.mixedRuns o.runLength = [] := he
    have hcheck : o.check s1 (o.act.map fun k => (k, o.addrT (k - k % o.runLength))) (4 * o.runLength) (4 * o.runLength) 28
        { Need.w with noEf := true, mx := true } (some 30) pairReach = .ok [] ((l, level, va) :: fs) := hc
    exact issue_parks (w := o) h rfl rfl ⟨_, _, _, _, by
      simp only [hwhole, List.isEmpty_nil, Bool.not_true, Bool.false_eq_true, if_false, hcheck]
      rfl⟩
  case binit =>
    cases hf
    have hcheck : o.checkWith s1 o.addrsT 16 [(68, barrierOdd)] Need.w none (fun _ => none) = .ok [] ((l, level, va) :: fs) := hc
    exact issue_parks (w := o) h rfl rfl ⟨_, _, _, _, by
      simp only [poisonedLanes_nil he, hcheck, illegalCounts_nil hr, List.isEmpty_nil, Bool.not_true, Bool.false_eq_true, if_false]
      rfl⟩
  case expect =>
    cases hf
    have hcheck : o.checkWith s1 o.addrsT 16 [(68, barrierOdd)] Need.rw none (fun _ => none) = .ok [] ((l, level, va) :: fs) := hc
    exact issue_parks (w := o) h rfl rfl ⟨_, _, _, _, by
      simp only [poisonedLanes_nil he, hcheck, List.isEmpty_nil, Bool.not_true, Bool.false_eq_true, if_false]
      rfl⟩
  case apload =>
    cases hf
    obtain ⟨k, hone, hclean, hindex⟩ := he
    have hcheck : o.check s1 [(k, o.a k)] 64 64 28 Need.r none (fun _ => none) = .ok [] ((l, level, va) :: fs) := by
      have hall : o.check s1 (o.lanes.map fun l => (l, o.a l)) 64 64 28 Need.r none (fun _ => none) = .ok [] ((l, level, va) :: fs) := hc
      rwa [hone] at hall
    have hwaits : o.accessWaits s1 [] 64 1 = none := hw
    exact issue_parks (w := o) h rfl rfl ⟨_, _, _, _, by
      simp only [hone, hclean, Bool.false_eq_true, if_false, if_neg (Nat.not_lt.2 hindex), hcheck, hwaits]
      rfl⟩
  all_goals cases hf

end

section
/-! PROOFS. The events of the copy engines (O50). -/

namespace Sys2Proof.Machine

section
variable {s : State} {cid : Nat} {c : Copy}

/-! ### Segments -/

/-- What keeps a copy from forming its next segment: the first byte that cannot be read, an MX block across its frame's end, or a
destination that cannot be written (R234, R246, R323). -/
def State.segmentTrouble (s : State) (c : Copy) : Option Got :=
  ((firstSome (fun g => g.2.trouble) ((s.segmentOf c).map fun b => (b.1, c.reads s b.2))).or (c.pairBad (s.segmentOf c))).or
    (s.writeBlocked c c.blocks ((s.segmentOf c).map (·.1)))

/-- A segment whose every byte can be read. -/
theorem noTrouble_of_bytes {bs : List (Nat × Byte × Bool)}
    (hread : (s.segmentOf c).map (fun b => (b.1, c.reads s b.2)) = bs.map (fun b => (b.1, Got.byte b.2))) :
    firstSome (fun g => g.2.trouble) ((s.segmentOf c).map fun b => (b.1, c.reads s b.2)) = none := by
  rw [hread, ← List.append_nil (bs.map _), firstSome_bytes]
  rfl

/-- The copy stops at a byte that its rights or its home refuse (R246). -/
theorem copySegment_stops (hc : s.copy? cid = some c) (hcan : s.canSegment c = true) {k va : Nat} (h : s.segmentTrouble c = some (.bad k va)) :
    execCopySegment cid s = .next (s.stopCopy c k va) := by
  unfold State.segmentTrouble at h
  unfold execCopySegment
  simp only [hc, hcan, h, Bool.not_true, Bool.false_eq_true, if_false]

/-- With nothing in its way the copy holds the segment's bytes for each target and is one segment further (R234, R235). -/
theorem copySegment_forms (hc : s.copy? cid = some c) (hcan : s.canSegment c = true) (h : s.segmentTrouble c = none)
    {bs : List (Nat × Byte × Bool)} (hread : (s.segmentOf c).map (fun b => (b.1, c.reads s b.2)) = bs.map (fun b => (b.1, Got.byte b.2)))
    (hcached : s.unitCached c (s.segmentOf c) = []) :
    execCopySegment cid s = .next (({ s with
        busy := fput 0 s.busy (2048 + c.tile) (max (fget 0 s.busy (2048 + c.tile)) (2 * s.now) + c.dsts.length) } : State).modCopy cid fun x =>
      { x with next := x.next + 1, held := x.held ++ c.toTargets s.now (piecesOf c.lane (if c.blocks then bs else spreadPoison bs)) }) := by
  unfold State.segmentTrouble at h
  rw [hread] at h
  unfold execCopySegment
  simp only [hc, hcan, hread, h, hcached, filterMap_bytes, Bool.not_true, Bool.false_eq_true, if_false]

theorem copySegment_keeps_promise {P : State → Prop} (h : copyPromise (.copySegment cid) s = some P) :
    ∃ t, execCopySegment cid s = .next t ∧ P t := by
  unfold copyPromise at h
  cases hc : s.copy? cid with
  | none =>
    simp only [hc, Option.some.injEq] at h
    subst h
    exact ⟨s, by unfold execCopySegment; rw [hc], rfl⟩
  | some c =>
    cases hcan : s.canSegment c with
    | false =>
      simp only [hc, hcan, Bool.not_false, if_true, Option.some.injEq] at h
      subst h
      exact ⟨s, by unfold execCopySegment; simp only [hc, hcan, Bool.not_false, if_true], rfl⟩
    | true =>
      simp only [hc, hcan, Bool.not_true, Bool.false_eq_true, if_false, Option.some.injEq] at h
      subst h
      obtain ⟨t, ht⟩ : ∃ t, execCopySegment cid s = .next t := by
        unfold execCopySegment
        simp only [hc, hcan, Bool.not_true, Bool.false_eq_true, if_false]
        split
        · exact ⟨_, rfl⟩
        · exact ⟨_, rfl⟩
        · exact ⟨_, rfl⟩
        · split <;> exact ⟨_, rfl⟩
      have stops : ∀ {k va}, s.segmentTrouble c = some (.bad k va) → t = s.stopCopy c k va := fun hbad => by
        rw [copySegment_stops hc hcan hbad] at ht
        exact (Host.Outcome.next.inj ht).symm
      refine ⟨t, ht, ?forms, ?pair, ?byte⟩
      case forms =>
        intro bs hread hpair hwrite hcached
        have hfree : s.segmentTrouble c = none := by
          unfold State.segmentTrouble
          rw [noTrouble_of_bytes hread, hpair, hwrite]
          rfl
        rw [copySegment_forms hc hcan hfree hread hcached] at ht
        obtain ⟨hplaced, hlane⟩ := placed_piecesOf c.lane (if c.blocks then bs else spreadPoison bs)
        rw [← Host.Outcome.next.inj ht]
        exact ⟨_, _, hplaced, hlane, Nat.add_le_add_right (Nat.le_max_right _ _) _, modCopy_changes _ cid _ fun _ => rfl⟩
      case pair =>
        intro bs k va hread hpair
        refine stops ?_
        unfold State.segmentTrouble
        rw [noTrouble_of_bytes hread, hpair]
        rfl
      case byte =>
        intro bs k va after hread
        refine stops ?_
        unfold State.segmentTrouble
        rw [hread, firstSome_bytes]
        rfl

/-! ### Writes that land -/

/-- A page that keeps a segment from being written is absent or refuses the write (R245, R246). -/
theorem writeBlocked_cases (s : State) (c : Copy) (mx : Bool) (vas : List Nat) :
    s.writeBlocked c mx vas = none ∨ (∃ l va, s.writeBlocked c mx vas = some (.fault l va)) ∨ ∃ k va, s.writeBlocked c mx vas = some (.bad k va) := by
  cases h : s.writeBlocked c mx vas with
  | none => exact .inl rfl
  | some g =>
    obtain ⟨va, -, hg⟩ := firstSome_mem h
    split at hg
    · cases hg
    · split at hg
      · cases hg
        exact .inr (.inl ⟨_, _, rfl⟩)
      · cases hg
        exact .inr (.inr ⟨_, _, rfl⟩)
      · cases hg

/-- A parked copy's record of its page (R245, R325). -/
theorem parkFault_records (s : State) (t : Team) (unit item : Nat) (pc : BitVec 48) (word : Word) (issue : Nat) (mask : LaneMask) (va : Nat) (n : Need) (level : Nat) :
    let v := s.parkFault t unit item pc word issue mask va n level
    v = { s with faults := v.faults, postings := v.postings, nextId := v.nextId } ∧ ∃ f ∈ v.faults, f.item = item ∧ f.unit = unit ∧ f.va = va ∧ f.level = level :=
  ⟨rfl, _, List.mem_append_right _ (List.mem_singleton.2 rfl), rfl, rfl, rfl, rfl⟩

theorem keyOf_scratch {va : Nat} (h : isScratch va = true) (s : State) (tile ctx : Nat) : s.keyOf tile ctx va = some va := if_pos h

section
variable {target formed : Nat} {ps : List Piece} {rest : List (Nat × Nat × List Piece)} (hc : s.copy? cid = some c)
  (hheld : c.held = (target, formed, ps) :: rest) (hdue : (decide (s.now < formed + Config.Q) || c.parked) = false)
include hc hheld hdue

/-- A page that is absent now parks the copy at the first segment that has not landed (R245). -/
theorem copyWriteLands_parks {l va : Nat} (hfault : s.writeBlocked c c.blocks (ps.map (·.ea)) = some (.fault l va)) :
    execCopyWriteLands cid s = .next
      ((s.parkFault (s.ownerTeam c.uid c.tile c.side c.ctx) 1 cid c.pc c.word c.issue c.mask va Need.w l).modCopy cid fun x =>
        { x with parked := true, next := x.next - x.held.length, held := [] }) := by
  unfold execCopyWriteLands
  simp only [hc, hheld, hdue, hfault, Bool.false_eq_true, if_false]

theorem copyWriteLands_stops {k va : Nat} (hbad : s.writeBlocked c c.blocks (ps.map (·.ea)) = some (.bad k va)) :
    execCopyWriteLands cid s = .next (s.stopCopy c k va) := by
  unfold execCopyWriteLands
  simp only [hc, hheld, hdue, hbad, Bool.false_eq_true, if_false]

end

/-- A segment in the scratchpad leaves for the owner port of its first byte (R234). -/
theorem copyWriteLands_sends {target formed : Nat} {p : Piece} {ps : List Piece} {rest : List (Nat × Nat × List Piece)} (hc : s.copy? cid = some c)
    (hheld : c.held = (target, formed, p :: ps) :: rest) (hdue : (decide (s.now < formed + Config.Q) || c.parked) = false)
    (hfree : s.writeBlocked c c.blocks ((p :: ps).map (·.ea)) = none) (hscratch : ((p :: ps).all fun q => isScratch q.ea) = true) :
    let v := s.modCopy cid fun x => { x with held := rest }
    let sent := v.send c.tile c.side c.uid c.ctx c.issue c.pc c.word p.ea p.ea [] (.write (p :: ps))
    execCopyWriteLands cid s = .next (sent.2.modCopy cid fun x => { x with writes := x.writes ++ [(sent.1, target)] }) := by
  have hfirst : isScratch p.ea = true := List.all_eq_true.1 hscratch p List.mem_cons_self
  unfold execCopyWriteLands
  simp only [hc, hheld, hdue, hfree, Bool.false_eq_true, if_false, flush_scratch _ _ _ hscratch, keyOf_scratch hfirst]

theorem copyWriteLands_keeps_promise {P : State → Prop} (h : copyPromise (.copyWriteLands cid) s = some P) :
    ∃ t, execCopyWriteLands cid s = .next t ∧ P t := by
  unfold copyPromise at h
  cases hc : s.copy? cid with
  | none =>
    simp only [hc, Option.some.injEq] at h
    subst h
    exact ⟨s, by unfold execCopyWriteLands; rw [hc], rfl⟩
  | some c =>
    rcases hheld : c.held with _ | ⟨⟨target, formed, ps⟩, rest⟩
    case nil =>
      simp only [hc, hheld, Option.some.injEq] at h
      subst h
      exact ⟨s, by unfold execCopyWriteLands; simp only [hc, hheld], rfl⟩
    case cons =>
      cases hdue : decide (s.now < formed + Config.Q) || c.parked with
      | true =>
        simp only [hc, hheld, hdue, if_true, Option.some.injEq] at h
        subst h
        exact ⟨s, by unfold execCopyWriteLands; simp only [hc, hheld, hdue, if_true], rfl⟩
      | false =>
        simp only [hc, hheld, hdue, Bool.false_eq_true, if_false] at h
        rcases writeBlocked_cases s c c.blocks (ps.map (·.ea)) with hfree | ⟨l, va, hfault⟩ | ⟨k, va, hbad⟩
        · rw [hfree] at h
          cases ps with
          | nil => cases h
          | cons p ps =>
            dsimp only at h
            split at h
            · next hscratch =>
              cases h
              obtain ⟨y, d, n, hsend, hact, hva, hpa, htile, hctx, huid, hpoint, hlater⟩ := sent_net (s.modCopy cid fun x => { x with held := rest })
                c.tile c.side c.uid c.ctx c.issue c.pc c.word p.ea p.ea [] (.write (p :: ps))
              have hstep := copyWriteLands_sends hc hheld hdue hfree hscratch
              dsimp only at hstep
              rw [hsend] at hstep
              exact ⟨_, hstep, _, _, y, modCopy_changes s cid _ fun _ => rfl, hact, hva, hpa, htile, hctx, huid, hpoint, hlater, rfl,
                modCopy_changes _ cid _ fun _ => rfl⟩
            · cases h
        · rw [hfault] at h
          cases h
          obtain ⟨hrest, hrecord⟩ := parkFault_records s (s.ownerTeam c.uid c.tile c.side c.ctx) 1 cid c.pc c.word c.issue c.mask va Need.w l
          exact ⟨_, copyWriteLands_parks hc hheld hdue hfault, _, modCopy_changes _ cid _ fun _ => rfl, hrest, hrecord⟩
        · rw [hbad] at h
          cases h
          exact ⟨_, copyWriteLands_stops hc hheld hdue hbad, rfl⟩

/-! ### Acknowledgements of CPM -/

theorem sendCredit_queued (s : State) (c : Copy) (ea n : Nat) :
    Queued c.tile c.uid c.ctx c.issue ea (.credit ea n c.mask) s (s.sendCredit c true ea n) :=
  ⟨_, rfl, rfl, rfl, rfl, rfl, rfl, rfl, rfl, rfl, rfl⟩

theorem cpmAcknowledgement_keeps_promise {tile : Nat} {P : State → Prop} (h : copyPromise (.cpmAcknowledgement cid tile) s = some P) :
    ∃ t, execCpmAcknowledgement cid tile s = .next t ∧ P t := by
  unfold copyPromise at h
  unfold execCpmAcknowledgement
  cases hc : s.copy? cid with
  | none =>
    simp only [hc, Option.some.injEq] at h
    subst h
    exact ⟨s, rfl, rfl⟩
  | some c =>
    simp only [hc] at h
    dsimp only
    cases ha : c.acks.find? fun a => ownerTile (c.dsts.getD a.1 0) == tile && a.2 == 0 with
    | none =>
      simp only [ha, Option.some.injEq] at h
      subst h
      exact ⟨s, rfl, rfl⟩
    | some a =>
      simp only [ha, Option.some.injEq] at h
      subst h
      exact ⟨_, rfl, _, _, modCopy_changes s cid _ fun _ => rfl, sendCredit_queued .., rfl⟩

end

end Sys2Proof.Machine

open Sys2Proof Sys2Proof.Machine

/-- Settles O50, by the theorem about each of the three events. -/
theorem copyEvents : Obligations.CopyEvents := by
  intro i s P h
  cases i
  case copySegment => exact copySegment_keeps_promise h
  case copyWriteLands => exact copyWriteLands_keeps_promise h
  case cpmAcknowledgement => exact cpmAcknowledgement_keeps_promise h
  all_goals cases h

end

section
/-! PROOFS. CPL, CPF, CPT and CPM as they issue (O37). -/

namespace Sys2Proof.Machine

section
variable {s s1 : State} {o : Issue} {r : CopyRule}

/-- An instruction that gets as far as starting the copies of a rule starts them and completes (R234, R243). -/
theorem issue_starts {i : Instr} {body : Issue → State → Res} (h : prepare i s = .ok (o, s1)) (hwho : r.who.t = o.t ∧ r.who.g = o.g ∧ r.who.word = o.word)
    (hfree : r.free s1) (hb : ∃ f c, body o s1 = r.who.startCopy { s1 with fetched := f } r.ctl r.plans r.src r.dst r.units c) :
    ∃ u t, issue i body s = .next t ∧ Starts o s1 u r ∧ Completes o u t := by
  obtain ⟨f, c, hb⟩ := hb
  obtain ⟨u, e, hstart, honward, hcopies, hscore, hrest⟩ := startCopy_starts (s := { s1 with fetched := f }) r hwho rfl ⟨hfree.batch, hfree.waits⟩ c
  exact issue_finishes h ⟨u, e, hb.trans hstart, honward, hcopies, hscore, hrest⟩

/-! ### CPL and CPF -/

/-- A lane's control word (R232). -/
abbrev Issue.control (o : Issue) (l : Nat) : Word := (o.b l).v.extractLsb' 0 32

/-- The bytes that a lane's control word counts. -/
abbrev Issue.count (o : Issue) (l : Nat) : Nat := ctlCount (o.control l)

/-- CPL and CPF past their checks start the rule's copies (R233, R236, R237). -/
theorem laneCopies_of_laneCopy {cpl : Bool} (h : laneCopy cpl o s r) :
    r.who = o ∧ o.laneCopies s cpl = o.startCopy s r.ctl r.plans r.src r.dst r.units (passes o 1) := by
  obtain ⟨hsome, hpends, hclean, hranges, hsink, hsame, hsizes, rfl⟩ := h
  refine ⟨rfl, ?_⟩
  unfold Issue.laneCopies
  split
  · next hnil => exact absurd hnil hsome
  · next low rest hlanes =>
    have hlow : o.lanes.headD 0 = low := by rw [hlanes]; rfl
    rw [hlow] at hsink hsame
    have hpoison : (o.lanes.filter fun l => (o.d l).p || (o.b l).p || (cpl && o.count l != 0 && (o.a l).p) || sinkPoison o.t (o.control l)) = [] :=
      List.filter_eq_nil_iff.2 fun l hl => by
        obtain ⟨hd, hb, ha, hs⟩ := hclean l hl
        simpa [hd, hb, hs] using ha
    have hdiffers : (o.lanes.filter fun l => ctlSink (o.control l) != ctlSink (o.control low) || ctlSreg (o.control l) != ctlSreg (o.control low)) = [] :=
      List.filter_eq_nil_iff.2 fun l hl => by simp [hsame l hl]
    have hbig : (o.lanes.filter fun l => if cpl then decide (32 < o.count l) else o.count l % 4 != 0 || decide (0x1000000 < o.count l)) = [] :=
      List.filter_eq_nil_iff.2 fun l hl => by
        cases cpl with
        | true =>
          obtain ⟨hle, -⟩ := hsizes l hl
          simpa using hle
        | false =>
          obtain ⟨hwords, hle⟩ := hsizes l hl
          simp [hwords, hle]
    have hoverlap : (if cpl then o.lanes.filter fun l => o.count l != 0 &&
        (o.lanes.map fun k => ((o.d k).v.toNat, if cpl then 32 else o.count k)).any fun d => rangesMeet (o.a l).v.toNat (o.count l) d.1 d.2 else []) = [] := by
      cases cpl with
      | true =>
        refine List.filter_eq_nil_iff.2 fun l hl => ?_
        obtain ⟨-, hapart⟩ := hsizes l hl
        simpa using hapart
      | false => rfl
    have hwrong : (o.lanes.filter fun _ => false) = [] := List.filter_eq_nil_iff.2 fun _ _ => Bool.false_ne_true
    simp only [hpends, hpoison, hdiffers, hranges, hsink, hbig, hoverlap, hwrong, hlow, List.contains_nil, Bool.or_self, Bool.false_eq_true, if_false,
      List.isEmpty_nil, Bool.not_true]

/-! ### CPT -/

/-- Reading the record changes nothing but the lines that links have brought (R213, R240). -/
theorem readNow_ok {t : Team} {x : Access1} {n : Nat} {bytes : List Byte} (h : (s.readNow t x n).2 = some (.ok bytes)) :
    ∃ f, s.readNow t x n = ({ s with fetched := f }, some (.ok bytes)) := by
  suffices hstate : ∃ f, (s.readNow t x n).1 = { s with fetched := f } by
    obtain ⟨f, hf⟩ := hstate
    exact ⟨f, Prod.ext hf h⟩
  unfold State.readNow at h ⊢
  dsimp only at h ⊢
  split
  · exact ⟨_, rfl⟩
  · split
    · exact ⟨_, rfl⟩
    · split
      · exact ⟨_, rfl⟩
      · next hwrite hfailed hlink =>
        rw [if_neg hwrite, if_neg hfailed, if_neg hlink] at h
        split
        · next hfetch =>
          rw [hfetch] at h
          cases h
        · exact ⟨_, rfl⟩

/-- CPT past its checks starts the leader's box (R240). -/
theorem cpt_starts {d a b : Reg} {lit : Word} (h : prepare (.cpt d a b lit) s = .ok (o, s1)) (hbox : boxCopy o s1 r) (hfree : r.free s1) :
    ∃ u t, exec (.cpt d a b lit) s = .next t ∧ Starts o s1 u r ∧ Completes o u t := by
  obtain ⟨l, ls, x, y, hact, hpends, hd, hb, hcoords, hsinkp, hcheck, ⟨bytes, hread, hparse⟩, hgood, hranges, hsink, hcount, hwaits, rfl⟩ := hbox
  obtain ⟨f, hstate⟩ := readNow_ok hread
  have hclean : (readRegs o.t l o.ra 4).any (·.p) = false := List.any_eq_false.2 fun c hc => by rw [hcoords c hc]; exact Bool.false_ne_true
  have hranges' : rangeTrap { s1 with fetched := f } id _ = none := hranges
  have hsink' : sinkCause { s1 with fetched := f } _ = none := hsink
  unfold Issue.leader at hcheck hwaits
  refine issue_starts h ⟨rfl, rfl, rfl⟩ hfree ⟨f, 1, ?_⟩
  dsimp only
  split
  · next hnil => cases hact.symm.trans hnil
  · next k ks hcons =>
    cases hact.symm.trans hcons
    cases hsrc : y.srcHull ((readRegs o.t l o.ra 4).map fun c => c.w.toInt)
    all_goals
      rw [hsrc] at hranges'
      dsimp only [Option.toList] at hranges'
      simp only [hpends, hd, hb, hclean, hsinkp, hcheck, hwaits, hstate, hparse, hsrc, hgood, hranges', hsink', hcount, Bool.or_self, Bool.false_eq_true, if_false,
        bne_self_eq_false]
      rfl

/-! ### CPM -/

/-- A word of the frame registers from d on, which say where a CPM goes (R242). -/
abbrev Issue.targetWord (o : Issue) (l i : Nat) : Nat := ((readRegs o.t l o.rd 4).getD i PWord.zero).w.toNat

/-- The groups that the mask of a CPM names. -/
abbrev State.targets (s : State) (o : Issue) (l : Nat) : List GroupRt :=
  ((List.range 64).filter fun g => bit (o.targetWord l 2 + o.targetWord l 3 * 2 ^ 32) g).filterMap fun g => s.gangGroup o.t g

/-- CPM past its checks starts one copy to the groups that its mask names (R242). -/
theorem cpm_starts {d a b : Reg} {lit : Word} (h : prepare (.cpm d a b lit) s = .ok (o, s1)) (hgroups : groupCopy o s1 r) (hfree : r.free s1) :
    ∃ u t, exec (.cpm d a b lit) s = .next t ∧ Starts o s1 u r ∧ Completes o u t := by
  obtain ⟨l, ls, hact, hpends, ha, hb, hwords, hsinkp, hnamed, hformed, hranges, hinside, hsink, halign, hcause, hmultiple, hsize, hapart, rfl⟩ := hgroups
  have hclean : (readRegs o.t l o.rd 4).any (·.p) = false := List.any_eq_false.2 fun c hc => by rw [hwords c hc]; exact Bool.false_ne_true
  have houtside : ((s1.targets o l).filterMap fun g => if g.size < o.targetWord l 0 + o.count l then some (sliceAddr g.tile (g.base + o.targetWord l 0))
      else if g.size < o.targetWord l 1 + 16 then some (sliceAddr g.tile (g.base + o.targetWord l 1)) else none) = [] :=
    List.filterMap_eq_nil_iff.2 fun g hg => by
      obtain ⟨hrange, hbarrier⟩ := hinside g hg
      rw [if_neg (Nat.not_lt.2 hrange), if_neg (Nat.not_lt.2 hbarrier)]
  have hmeets : (((s1.targets o l).map fun g => (sliceAddr g.tile (g.base + o.targetWord l 0), o.count l)).any fun r =>
      rangesMeet (o.a l).v.toNat (o.count l) r.1 r.2) = false := List.any_eq_false.2 fun r hr => by rw [hapart r hr]; exact Bool.false_ne_true
  refine issue_starts h ⟨rfl, rfl, rfl⟩ hfree ⟨s1.fetched, 1, ?_⟩
  dsimp only
  split
  · next hnil => cases hact.symm.trans hnil
  · next k ks hcons =>
    cases hact.symm.trans hcons
    simp only [hpends, ha, hb, hclean, hsinkp, isEmpty_of_ne hnamed, hformed, hranges, houtside, hsink, halign, hcause, hmultiple, hmeets,
      decide_eq_false (Nat.not_lt.2 hsize), bne_self_eq_false, List.isEmpty_nil, Bool.not_true, Option.isSome_none, Bool.or_self, Bool.false_eq_true, if_false]
    rfl

end

end Sys2Proof.Machine

open Sys2Proof Sys2Proof.Machine

/-- Settles O37: past its checks each instruction starts the copies of its rule. -/
theorem copiesStart : Obligations.CopiesStart := by
  intro i P hP s o s1 r h hrule hfree
  cases i
  case cpl | cpf =>
    cases hP
    obtain ⟨hwho, hstart⟩ := laneCopies_of_laneCopy hrule
    exact issue_starts h (by rw [hwho]; exact ⟨rfl, rfl, rfl⟩) hfree ⟨s1.fetched, _, by rw [hwho]; exact hstart⟩
  case cpt =>
    cases hP
    exact cpt_starts h hrule hfree
  case cpm =>
    cases hP
    exact cpm_starts h hrule hfree
  all_goals cases hP

end

section
/-! PROOFS. MCFG (O43), the matrix commands (O44) and MDRAIN (O45) as they issue. -/

namespace Sys2Proof.Machine

section
variable {s s1 : State} {o : Issue} {g : GroupRt} {r : List Word}

/-! ### MCFG -/

/-- The tile's engine as MCFG leaves it (R252, R254): the channel of the record freed, and unless the record only releases it configured anew,
with its rows and sets given to the context. -/
def Issue.configured (o : Issue) (s : State) (g : GroupRt) (r : List Word) : Engine :=
  let rest := (s.engine o.t.id.tile).free fun k => k.chan == rfield r 0 1 0
  let old := (s.engine o.t.id.tile).old ++
    [(s.nextId, match (s.engine o.t.id.tile).channel? (rfield r 0 1 0) with | some x => [x] | none => [])]
  if rfield r 0 2 2 = 1 then { rest with old := old }
  else ({ rest with channels := channelOf o s g r :: rest.channels, old := old } : Engine).give o.t.id.ctx (rfield r 0 15 8) (rfield r 0 24 16) (rfield r 0 4 3)

theorem configured_channels (o : Issue) (s : State) (g : GroupRt) (r : List Word) : (o.configured s g r).channels =
    (if rfield r 0 2 2 = 1 then [] else [channelOf o s g r]) ++ (s.engine o.t.id.tile).channels.filter (·.chan != rfield r 0 1 0) := by
  unfold Issue.configured
  dsimp only
  split
  · rfl
  · exact (give_channels ..).1

theorem configured_cmds (o : Issue) (s : State) (g : GroupRt) (r : List Word) :
    (o.configured s g r).cmds = (s.engine o.t.id.tile).cmds ∧ (o.configured s g r).holds = (s.engine o.t.id.tile).holds := by
  unfold Issue.configured
  dsimp only
  split
  · exact ⟨rfl, rfl⟩
  · exact (give_channels ..).2

theorem configured_channel_self (o : Issue) (s : State) (g : GroupRt) (r : List Word) :
    (o.configured s g r).channel? (rfield r 0 1 0) = if rfield r 0 2 2 = 1 then none else some (channelOf o s g r) := by
  unfold Engine.channel?
  rw [configured_channels, List.find?_append]
  split
  · exact find_filter_self ..
  · rw [List.find?_cons_of_pos (by exact beq_self_eq_true _)]; rfl

theorem configured_channel_ne (o : Issue) (s : State) (g : GroupRt) {r : List Word} {c : Nat} (hc : c ≠ rfield r 0 1 0) :
    (o.configured s g r).channel? c = (s.engine o.t.id.tile).channel? c := by
  have hnew : (if rfield r 0 2 2 = 1 then [] else [channelOf o s g r]).find? (·.chan == c) = none := by
    split
    · rfl
    · rw [List.find?_cons_of_neg (by exact fun h => hc (beq_iff_eq.1 h).symm)]; rfl
  unfold Engine.channel?
  rw [configured_channels, List.find?_append, hnew, find_filter_ne _ hc]
  rfl

/-- Putting the configured engine in its tile and holding the configuration is what R254 describes. -/
theorem hold_configured (o : Issue) (s : State) (g : GroupRt) (r : List Word) :
    Configured o s (o.hold (s.modEngine o.t.id.tile fun _ => o.configured s g r) 3 (.mcfg (rfield r 0 1 0))) g r := by
  have hengine : (o.hold (s.modEngine o.t.id.tile fun _ => o.configured s g r) 3 (.mcfg (rfield r 0 1 0))).engine o.t.id.tile = o.configured s g r :=
    (hold_engine ..).trans (engine_mod ..)
  refine ⟨?_, fun c hc => ?_, ⟨_, rfl, rfl, rfl, rfl, rfl⟩, ?_, fun k hk => (hold_engine ..).trans (engine_mod_ne _ hk _), rfl⟩
  · rw [hengine, configured_channel_self]
  · rw [hengine, configured_channel_ne _ _ _ hc]
  · rw [hengine]
    exact configured_cmds ..

/-- MCFG past its checks configures or releases the channel of its record (R254). -/
theorem mcfg_configures {a : Reg} {lit : Word} (h : prepare (.mcfg a lit) s = .ok (o, s1)) (hconf : Configures o s1 g r) :
    ∃ u t, exec (.mcfg a lit) s = .next t ∧ Configured o s1 u g r ∧ Completes o u t := by
  obtain ⟨hcoll, hgood, hown, hapart, hshare, hwindow, hidle, hroom⟩ := hconf
  have hclash : (!decide (rfield r 0 2 2 = 1) && (s1.engine o.t.id.tile).channels.any fun x =>
      x.chan != rfield r 0 1 0 && x.clashes (rfield r 0 15 8) (rfield r 0 24 16) (rfield r 0 4 3)) = false := by
    rcases hapart with hrel | hapart
    · simp [hrel]
    · rw [Bool.and_eq_false_iff, List.any_eq_false]
      exact .inr fun x hx => by simpa using hapart x hx
  have hinside : (!decide (rfield r 0 2 2 = 1) && decide (g.size < rfield r 4 19 0 + 32 * rfield r 8 12 0)) = false := by
    rcases hwindow with hrel | hfits
    · simp [hrel]
    · simp [Nat.not_lt.2 hfits]
  refine issue_single h ((collective_eq hcoll _).trans ?_) (hold_configured o s1 g r)
  dsimp only
  refine (if_neg fun hbad => ?_).trans ?_
  · rw [hgood, hclash] at hbad
    split at hbad
    · next x hx => simp [hown x hx] at hbad
    · cases hbad
  rw [if_neg (Nat.not_lt.2 hshare), if_neg (by rw [hinside]; decide), if_neg (by rw [hidle]; decide), if_neg (by rw [hroom]; decide)]
  unfold Issue.configured
  by_cases hrel : rfield r 0 2 2 = 1
  · simp only [hrel, if_true] <;> rfl
  · simp only [hrel, if_false] <;> rfl

/-! ### Commands -/

/-- The number that the next command of a record's channel gets (R257). -/
abbrev Issue.nextNumber (o : Issue) (s : State) (r : List Word) : Nat :=
  (((s.engine o.t.id.tile).channel? (recChan r)).map (·.number)).getD 0

/-- A legal record of the command's own operation that finds room is appended, and its number goes to d (R256, R257). -/
theorem command_of_legal {op : Nat} (hcoll : Collective o s g r) (hlegal : s.recordCause o.t.id.tile g.gid g.base g.size r = none)
    (hop : recOp r = op) (hroom : o.commandRoom s r) :
    o.command s op = o.single (o.commit (o.append s r none).2 (o.toAll ⟨BitVec.ofNat 64 (o.nextNumber s r), false⟩)) := by
  obtain ⟨hslot, hunits⟩ := hroom
  unfold Issue.command
  rw [collective_eq hcoll]
  simp only [hlegal, hop, hslot, hunits, bne_self_eq_false, Bool.not_true, Bool.false_eq_true, if_false]
  rfl

/-- An instruction that issues a legal command into a register other than a port completes with the command appended. -/
theorem command_completes {i : Instr} {op : Nat} (h : prepare i s = .ok (o, s1)) (hwrites : (shape i s.cur.arch.mode 1).d.writes = true)
    (hport : (shape i s.cur.arch.mode 1).d.port = false) (hcoll : Collective o s1 g r)
    (hlegal : s1.recordCause o.t.id.tile g.gid g.base g.size r = none) (hop : recOp r = op) (hroom : o.commandRoom s1 r) :
    ∃ u t, issue i (fun o s => o.command s op) s = .next t ∧
      (∃ v, Appends o s1 v r none ∧ Gives o v u ⟨BitVec.ofNat 64 (o.nextNumber s1 r), false⟩) ∧ Completes o u t :=
  issue_single h (command_of_legal hcoll hlegal hop hroom)
    ⟨_, append_appends .., gives_commit (act_nodup h) (no_port (prepared h) hwrites hport) _ _⟩

/-! ### MDRAIN -/

/-- Results that pend are the team's youngest, and nothing else changes. -/
theorem pend_pends (o : Issue) (s : State) {rs : List LaneResult} {due after : Nat} (hdue : s.now + after ≤ due) :
    let v := (o.pend s rs due false false []).2
    PendsAt o s v (rs.map LaneResult.place) after ∧ v = { s with cur := { s.cur with pend := v.cur.pend }, nextId := v.nextId } :=
  ⟨⟨_, rfl, rfl, rfl, rfl, rfl, rfl, rfl, rfl, hdue⟩, rfl⟩

/-- MDRAIN past its checks makes its results pend and appends its command for them (R257, R269). -/
theorem mdrain_holds {d a : Reg} {lit : Word} (h : prepare (.mdrain d a lit) s = .ok (o, s1)) (hdrain : Drains o s1 g r) :
    ∃ u t, exec (.mdrain d a lit) s = .next t ∧
      (∃ v, PendsAt o s1 v (o.act.map fun l => (l, destOf o.t o.rd l, drainPer r * if recAcc64 r then 2 else 1)) Config.Q ∧
        v = { s1 with cur := { s1.cur with pend := v.cur.pend }, nextId := v.nextId } ∧ Appends o v u r (some s1.nextId)) ∧ Completes o u t := by
  obtain ⟨hcoll, hlegal, hop, hrows, ⟨hlast, hwide⟩, hresident, hslot, hunits⟩ := hdrain
  have houtside : (((s1.engine o.t.id.tile).channel? (recChan r)).any fun c => rowsOutside c (recAcc64 r) (recAccRow r) (drainRows r o.act)) = false := by
    cases hchan : (s1.engine o.t.id.tile).channel? (recChan r) with
    | none => rfl
    | some c => exact hrows c hchan
  have hregs : (decide (63 < o.rd.toNat + drainPer r * (if recAcc64 r then 2 else 1) - 1) || (recAcc64 r && decide (o.rd.toNat % 2 = 1)) ||
      (recAcc64 r && decide (127 < recAccRow r + drainRows r o.act - 1))) = false := by
    generalize drainPer r * (if recAcc64 r then 2 else 1) = n at hlast
    cases hacc : recAcc64 r with
    | false => simpa using hlast
    | true =>
      obtain ⟨heven, hreach⟩ := hwide hacc
      simp only [Bool.or_eq_false_iff, Bool.true_and, decide_eq_false_iff_not]
      omega
  have hheld : (o.act.any fun l => !resident o.t l ((List.range (drainPer r * if recAcc64 r then 2 else 1)).map fun i => o.t.slotOf l (o.rd.toNat + i))) = false :=
    List.any_eq_false.2 fun l hl => by rw [hresident l hl]; decide
  obtain ⟨hpends, hrest⟩ := pend_pends o s1 (rs := o.act.map fun l => ⟨l, destOf o.t o.rd l, drainPer r * if recAcc64 r then 2 else 1, 0, false, [], none, 0⟩)
    (Nat.le_refl (s1.now + Config.Q))
  rw [List.map_map] at hpends
  refine issue_single h ((collective_eq hcoll _).trans ?_) ⟨_, hpends, hrest, append_appends ..⟩
  simp only [hlegal, hop, houtside, hregs, hheld, hslot, hunits, bne_self_eq_false, reduceCtorEq, decide_false, Bool.not_true, Bool.or_self,
    Bool.false_eq_true, if_false]
  rfl

end

end Sys2Proof.Machine

open Sys2Proof Sys2Proof.Machine

/-- Settles O43: past its checks MCFG puts the configured engine in its tile and holds the configuration. -/
theorem channelConfiguration : Obligations.ChannelConfiguration :=
  fun _ _ _ _ _ _ _ h hconf => mcfg_configures h hconf

/-- Settles O44: all six instructions issue the command of their operation in the same way. -/
theorem matrixCommands : Obligations.MatrixCommands := by
  intro i op s o s1 g r hcommand h hcoll hlegal hop hroom
  cases i
  case mldb | mma | mmas | mzero | mstore | mrun =>
    cases hcommand
    exact command_completes h rfl rfl hcoll hlegal hop hroom
  all_goals cases hcommand

/-- Settles O45: past its checks MDRAIN makes its results pend and appends its command. -/
theorem drainHolds : Obligations.DrainHolds :=
  fun _ _ _ _ _ _ _ _ h hdrain => mdrain_holds h hdrain

end

section
/-! PROOFS. Events of the matrix engines (O51). -/

namespace Sys2Proof.Machine

section
variable {s : State} {tile mid hid : Nat} {c : Command} {k : Channel}

/-- A command that a search by number finds has that number. -/
theorem cmd_mid {g : Engine} (h : (g.cmds.find? fun c => c.mid == mid) = some c) : c.mid = mid := by
  simpa using List.find?_some h

/-- An event has a next state, of which `P` holds. -/
abbrev NextHas (x : Host.Outcome State Fault Refusal) (P : State → Prop) : Prop := ∃ t, x = .next t ∧ P t

/-- An event with nothing to act on changes nothing. -/
theorem unchanged_keeps {P : State → Prop} (h : some (· = s) = some P) : NextHas (.next s) P := by
  cases h
  exact ⟨s, rfl, rfl⟩

/-- An event whose guard lets it act keeps its promise; one whose guard does not changes nothing. -/
theorem guard_keeps {A B : Prop} [Decidable A] [Decidable B] {x : Host.Outcome State Fault Refusal} {p : Option (State → Prop)} {P : State → Prop}
    (h : (if A then some (· = s) else p) = some P) (hAB : A ↔ B) (hact : ¬ B → p = some P → NextHas x P) : NextHas (if B then .next s else x) P := by
  by_cases hb : B
  · rw [if_pos (hAB.2 hb)] at h
    rw [if_pos hb]
    exact unchanged_keeps h
  · rw [if_neg (mt hAB.1 hb)] at h
    rw [if_neg hb]
    exact hact hb h

/-- What holds of a next state holds of the one that the event is known to give. -/
theorem of_nextHas {x : Host.Outcome State Fault Refusal} {P : State → Prop} {t : State} (ht : x = .next t) (h : NextHas x P) : P t := by
  obtain ⟨u, hu, hp⟩ := h
  cases ht.symm.trans hu
  exact hp

/-! ### COMMAND_START (R257, R260, R270) -/

/-- Only an MRUN that has started has a next record. -/
theorem nextRecord_of_unstarted (s : State) (tile : Nat) (g : Engine) (h : c.started = false) : s.nextRecord tile g c = none := by
  unfold State.nextRecord
  split
  · rfl
  · rw [if_pos (by simp [h])]

/-- The next record of an MRUN is the one that stands in its window, in the MRUN's place. -/
theorem nextRecord_child {g : Engine} {x : Option Nat} {y : Command} {before : List Command} (hk : g.channel? c.chan = some k)
    (h : s.nextRecord tile g c = some (x, y, before)) : y = g.child k c 0 (s.segmentRecord tile k c) := by
  unfold State.nextRecord at h
  rw [hk] at h
  dsimp only at h
  split at h
  · cases h
  · cases h
    rfl

/-- Taking its unit starts a command and leaves the engine's commands as they are. -/
theorem take_cmds (g : Engine) (now : Nat) (c : Command) : (g.take now c).1.cmds = g.cmds ∧ (g.take now c).2 = { c with started := true }.toRow now := by
  unfold Engine.take
  dsimp only
  split <;> exact ⟨rfl, rfl⟩

/-- The commands with a segment record put after its MRUN and the MRUN's earlier segment records are the same commands and it (R270). -/
theorem inserted_perm (inside : Command → Bool) (x : Command) (xs : List Command) :
    let head := xs.takeWhile fun y => !inside y
    (head ++ (xs.drop head.length).filter inside ++ [x] ++ (xs.drop head.length).filter fun y => !inside y).Perm (x :: xs) := by
  intro head
  have hsplit : head ++ xs.drop head.length = xs := List.prefix_iff_eq_append.1 (List.takeWhile_prefix _)
  calc head ++ (xs.drop head.length).filter inside ++ [x] ++ (xs.drop head.length).filter (fun y => !inside y)
    _ = head ++ (xs.drop head.length).filter inside ++ x :: (xs.drop head.length).filter (fun y => !inside y) := by simp
    List.Perm _ (x :: (head ++ (xs.drop head.length).filter inside ++ (xs.drop head.length).filter fun y => !inside y)) := List.perm_middle
    _ = x :: (head ++ ((xs.drop head.length).filter inside ++ (xs.drop head.length).filter fun y => !inside y)) := by rw [List.append_assoc]
    List.Perm _ (x :: (head ++ xs.drop head.length)) := ((List.filter_append_perm inside _).append_left head).cons x
    _ = x :: xs := by rw [hsplit]

/-- An engine once the MRUN numbered `mid` has started its next segment record `x` (R270). -/
def Engine.startSegment (g : Engine) (now mid : Nat) (x : Command) : Engine :=
  let (g, x) := (g.modCmd mid fun y => { y with row := y.row + 1 }).take now x
  let g := if x.op = 1 then g.modSet (recSet x.record) fun m => { m with typ := x.btyp, desc := x.bdesc, sparse := x.bsparse } else g
  let inside (y : Command) : Bool := y.mid == mid || y.parent == some mid
  let head := g.cmds.takeWhile fun y => !inside y
  let rest := g.cmds.drop head.length
  { g with cmds := head ++ rest.filter inside ++ [x] ++ rest.filter fun y => !inside y }

/-- The commands of such an engine are those before, the MRUN one record further, and the segment record (R270). -/
theorem startSegment_perm (g : Engine) (now mid : Nat) (x : Command) :
    (g.startSegment now mid x).cmds.Perm ({ x with started := true }.toRow now :: g.cmds.map fun y => if y.mid = mid then { y with row := y.row + 1 } else y) := by
  obtain ⟨hcmds, htaken⟩ := take_cmds (g.modCmd mid fun y => { y with row := y.row + 1 }) now x
  have hset : (g.startSegment now mid x).cmds.Perm (((g.modCmd mid fun y => { y with row := y.row + 1 }).take now x).2 ::
      ((g.modCmd mid fun y => { y with row := y.row + 1 }).take now x).1.cmds) := by
    unfold Engine.startSegment
    dsimp only
    split <;> exact inserted_perm ..
  rw [htaken, hcmds] at hset
  exact hset.trans (.of_eq (congrArg _ (map_beq Command.mid mid _ g.cmds)))

/-- COMMAND_START always has a next state. -/
theorem commandStart_next (tile mid : Nat) (s : State) : ∃ t, execCommandStart tile mid s = .next t := by
  unfold execCommandStart
  dsimp only
  repeat' split
  all_goals exact ⟨_, rfl⟩

/-- A command whose ring slot holds what was appended takes its unit (R257, R260). -/
theorem commandStart_takes (hc : ((s.engine tile).cmds.find? fun c => c.mid == mid) = some c) (hcan : s.canStart tile c = true)
    (hk : (s.engine tile).channel? c.chan = some k) (hfresh : c.started = false) (hslot : c.parent.isNone = true → s.slotAgrees tile k c) :
    NextHas (execCommandStart tile mid s) fun u =>
      EngineChanges tile (fun _ => ((s.engine tile).take s.now c).1.modCmd mid fun _ => ((s.engine tile).take s.now c).2)
        { s with draws := u.draws, serial := u.serial } u := by
  have hread : ∃ d n, (if (c.parent.isNone && decide (c.row = 0)) = true then s.slotRecord tile k c else (c.record, s)) =
      (c.record, { s with draws := d, serial := n }) := by
    split
    · next hparent =>
      obtain ⟨hrecord, d, n, hstate⟩ := slot_same s tile k c (hslot (Bool.and_eq_true_iff.1 hparent).1)
      exact ⟨d, n, Prod.ext hrecord hstate⟩
    · exact ⟨_, _, rfl⟩
  obtain ⟨d, n, hread⟩ := hread
  unfold execCommandStart
  simp only [hc, hcan, hk, nextRecord_of_unstarted s tile _ hfresh, hread, Bool.not_true, Bool.false_eq_true, if_false, if_true]
  exact ⟨_, rfl, modEngine_changes { s with draws := d, serial := n } tile _⟩

/-- An MRUN reads its next record, which starts as a command in the MRUN's place (R270). -/
theorem commandStart_segment {x : Command} {before : List Command} (hc : ((s.engine tile).cmds.find? fun c => c.mid == mid) = some c)
    (hcan : s.canStart tile c = true) (hk : (s.engine tile).channel? c.chan = some k)
    (hnext : s.nextRecord tile (s.engine tile) c = some (none, x, before)) :
    NextHas (execCommandStart tile mid s) fun u => u = { s with engines := u.engines, nextId := u.nextId } ∧ (∀ k, k ≠ tile → u.engine k = s.engine k) ∧
      ∃ id, (∃ y ∈ (u.engine tile).cmds, y.mid = id ∧ y.record = s.segmentRecord tile k c ∧ y.parent = some mid ∧ y.started = true ∧ y.row = 0) ∧
        ((u.engine tile).cmds.filter fun y => y.mid != id).Perm
          (((s.engine tile).cmds.map fun y => if y.mid = mid then { y with row := y.row + 1 } else y).filter fun y => y.mid != id) := by
  have hstart : execCommandStart tile mid s =
      .next ({ s with nextId := s.nextId + 1 }.modEngine tile fun _ => (s.engine tile).startSegment s.now mid { x with mid := s.nextId }) := by
    unfold execCommandStart
    simp only [hc, hcan, hk, hnext, Bool.not_true, Bool.false_eq_true, if_false]
    rfl
  have hperm := startSegment_perm (s.engine tile) s.now mid { x with mid := s.nextId }
  rw [nextRecord_child hk hnext] at hstart hperm
  refine ⟨_, hstart, rfl, fun j hj => engine_mod_ne { s with nextId := s.nextId + 1 } hj _, s.nextId, ?_⟩
  rw [engine_mod]
  refine ⟨⟨_, hperm.symm.subset List.mem_cons_self, rfl, rfl, congrArg some (cmd_mid hc), rfl, rfl⟩, (hperm.filter _).trans (.of_eq ?_)⟩
  exact List.filter_cons_of_neg (by simp [Command.toRow])

theorem commandStart_keeps_promise {P : State → Prop} (h : matrixPromise (.commandStart tile mid) s = some P) :
    NextHas (execCommandStart tile mid s) P := by
  unfold matrixPromise at h
  cases hc : (s.engine tile).cmds.find? fun c => c.mid == mid with
  | none =>
    unfold execCommandStart
    simp only [hc] at h ⊢
    exact unchanged_keeps h
  | some c =>
    cases hcan : s.canStart tile c with
    | false =>
      unfold execCommandStart
      simp only [hc, hcan, Bool.not_false, if_true] at h ⊢
      exact unchanged_keeps h
    | true =>
      simp only [hc, hcan, Bool.not_true, Bool.false_eq_true, if_false] at h
      cases hk : (s.engine tile).channel? c.chan with
      | none =>
        unfold execCommandStart
        simp only [hk, hc, hcan, Bool.not_true, Bool.false_eq_true, if_false] at h ⊢
        exact unchanged_keeps h
      | some k =>
        simp only [hk] at h
        cases hstarted : c.started with
        | false =>
          simp only [hstarted, Bool.not_false, if_true, Option.some.injEq] at h
          subst h
          obtain ⟨t, ht⟩ := commandStart_next tile mid s
          exact ⟨t, ht, fun hslot => (of_nextHas ht (commandStart_takes hc hcan hk hstarted hslot) :)⟩
        | true =>
          simp only [hstarted, Bool.not_true, Bool.false_eq_true, if_false] at h
          rcases hnext : s.nextRecord tile (s.engine tile) c with _ | ⟨_ | cause, x, before⟩
          · rw [hnext] at h
            cases h
          · rw [hnext] at h
            cases h
            exact commandStart_segment hc hcan hk hnext
          · rw [hnext] at h
            cases h
            unfold execCommandStart
            simp only [hc, hcan, hk, hnext, Bool.not_true, Bool.false_eq_true, if_false]
            exact ⟨_, rfl, rfl⟩

/-! ### MLDB_SEGMENT (R263) -/

/-- MLDB_SEGMENT always has a next state. -/
theorem mldbSegment_next (tile mid : Nat) (s : State) : ∃ t, execMldbSegment tile mid s = .next t := by
  unfold execMldbSegment
  dsimp only
  repeat' split
  all_goals exact ⟨_, rfl⟩

/-- MLDB_SEGMENT acts on an MLDB only. -/
theorem op_of_canLoad (h : s.canLoad tile c = true) : c.op = 1 := by
  unfold State.canLoad at h
  simp only [Bool.and_eq_true, beq_iff_eq, and_assoc] at h
  obtain ⟨hop, -⟩ := h
  exact hop

/-- A value of a segment without padding is as it was read. -/
theorem value_mem_cells (c : Command) (bs : List (Byte × Bool)) {i : Nat} (hi : i < 8 * c.segValues / elemBits c.btyp c.bdesc) :
    (4 * recSet c.record, c.segCol * 256 + 8 * c.segOff / elemBits c.btyp c.bdesc + i, elementAt (bs.take c.segValues) (elemBits c.btyp c.bdesc) i) ∈ c.cells bs [] :=
  List.mem_map.2 ⟨i, List.mem_range.2 hi, by simp⟩

/-- Where a scale that memory pairs with a block stands in the set (R263). -/
def Command.scaleCell (c : Command) (y : Nat × Byte × Bool) : Nat × Nat × PVal := (4 * recSet c.record + 1, c.segCol * 8 + y.1, ⟨y.2.1.zeroExtend 64, y.2.2⟩)

/-- What an MLDB holds for its set of a segment without padding (R263). -/
def Command.segmentHold (c : Command) (hid now : Nat) (bs : List (Byte × Bool)) (sc : List (Nat × Byte × Bool)) : RowHold :=
  ⟨hid, c.mid, c.row, now, [], [], c.clears ++ c.cells bs [] ++ c.tail bs ++ sc.map c.scaleCell, [], []⟩

/-- What an MLDB reads of a segment that holds no padding, where no byte stands in its way, is held for its set. -/
theorem mldbSegment_forms {bs : List (Byte × Bool)} {sc : List (Nat × Byte × Bool)} (hc : ((s.engine tile).cmds.find? fun c => c.mid == mid) = some c)
    (hcan : s.canLoad tile c = true) (hgot : s.segGot tile c = bs.map Got.byte) (hscales : s.segScales tile c = sc.map fun y => (y.1, Got.byte y.2))
    (hpad : paddedBlocks c.btyp c.bdesc (bs.take c.segValues) = []) :
    NextHas (execMldbSegment tile mid s) (FormsRow tile c (fun h =>
      (∀ i, i < 8 * c.segValues / elemBits c.btyp c.bdesc →
        (4 * recSet c.record, c.segCol * 256 + 8 * c.segOff / elemBits c.btyp c.bdesc + i, elementAt (bs.take c.segValues) (elemBits c.btyp c.bdesc) i) ∈ h.cells) ∧
      (∀ y ∈ sc, c.scaleCell y ∈ h.cells) ∧ h.acc = [] ∧ h.status = [] ∧ h.bytes = [] ∧ h.vals = []) s) := by
  have hmid := cmd_mid hc
  have htrouble : firstSome Got.trouble (bs.map Got.byte ++ (sc.map fun y => (y.1, Got.byte y.2)).map (·.2)) = none := by
    refine firstSome_none _ _ fun x hx => ?_
    simp only [List.map_map, List.mem_append, List.mem_map] at hx
    rcases hx with ⟨b, -, rfl⟩ | ⟨y, -, rfl⟩ <;> rfl
  have hcells : (sc.map fun y => (y.1, Got.byte y.2)).filterMap (fun y => y.2.byte?.map fun b => c.scaleCell (y.1, b)) = sc.map c.scaleCell := by
    rw [List.filterMap_map]
    exact congrFun (List.filterMap_eq_map (f := c.scaleCell)) sc
  have hnext : execMldbSegment tile mid s = .next ({ s with nextId := s.nextId + 1 }.modEngine tile fun g =>
      { g with holds := g.holds ++ [c.segmentHold s.nextId s.now bs sc] }.modCmd c.mid fun x => { x with row := x.row + 1, busyUntil := s.now + 1 }) := by
    unfold execMldbSegment Command.segmentHold
    simp only [hc, hcan, hgot, hscales, htrouble, filterMap_byte, hpad, List.foldl_nil, Bool.not_true, Bool.false_eq_true, if_false]
    rw [← hcells, hmid]
    rfl
  refine ⟨_, hnext, c.segmentHold s.nextId s.now bs sc, ⟨fun i hi => ?_, fun y hy => ?_, rfl, rfl, rfl, rfl⟩, rfl, rfl, rfl, ?_⟩
  · exact List.mem_append_left _ (List.mem_append_left _ (List.mem_append_right _ (value_mem_cells c bs hi)))
  · exact List.mem_append_right _ (List.mem_map_of_mem hy)
  · simp only [op_of_canLoad hcan, if_true]
    exact modEngine_changes { s with nextId := s.nextId + 1 } tile _

theorem mldbSegment_keeps_promise {P : State → Prop} (h : matrixPromise (.mldbSegment tile mid) s = some P) :
    NextHas (execMldbSegment tile mid s) P := by
  unfold matrixPromise at h
  cases hc : (s.engine tile).cmds.find? fun c => c.mid == mid with
  | none =>
    unfold execMldbSegment
    simp only [hc] at h ⊢
    exact unchanged_keeps h
  | some c =>
    cases hcan : s.canLoad tile c with
    | false =>
      unfold execMldbSegment
      simp only [hc, hcan, Bool.not_false, if_true] at h ⊢
      exact unchanged_keeps h
    | true =>
      simp only [hc, hcan, Bool.not_true, Bool.false_eq_true, if_false, Option.some.injEq] at h
      subst h
      obtain ⟨t, ht⟩ := mldbSegment_next tile mid s
      exact ⟨t, ht, fun bs sc hgot hscales hpad => of_nextHas ht (mldbSegment_forms hc hcan hgot hscales hpad)⟩

/-! ### MMA_ROW (R264-R267) -/

/-- What a row adds over all columns is what it adds in one of them. -/
theorem mem_columns {cols : List Column} {f : Nat → Column → List (Nat × PWord)} {w : Nat × PWord} :
    w ∈ cols.zipIdx.flatMap (fun x => f x.2 x.1) ↔ ∃ n b, cols[n]? = some b ∧ w ∈ f n b := by
  rw [List.mem_flatMap]
  constructor
  · rintro ⟨⟨b, n⟩, hb, hw⟩
    exact ⟨n, b, List.mem_zipIdx_iff_getElem?.1 hb, hw⟩
  · rintro ⟨n, b, hb, hw⟩
    exact ⟨(b, n), List.mem_zipIdx_iff_getElem?.2 hb, hw⟩

theorem mmaRow_keeps_promise {P : State → Prop} (h : matrixPromise (.mmaRow tile mid) s = some P) :
    NextHas (execMmaRow tile mid s) P := by
  unfold matrixPromise at h
  unfold execMmaRow
  cases hc : (s.engine tile).cmds.find? fun c => c.mid == mid with
  | none =>
    simp only [hc] at h ⊢
    exact unchanged_keeps h
  | some c =>
    cases hk : (s.engine tile).channel? c.chan with
    | none =>
      simp only [hc, hk] at h ⊢
      exact unchanged_keeps h
    | some k =>
      simp only [hc, hk] at h ⊢
      refine guard_keeps h Iff.rfl fun hready h => ?_
      have hop : c.op ≠ 1 := fun hload => hready (by simp [hload])
      cases hrow : c.arow with
      | none =>
        simp only [hrow, Option.some.injEq] at h ⊢
        subst h
        exact ⟨_, rfl, modEngine_changes ..⟩
      | some bs =>
        simp only [hrow, Option.some.injEq] at h ⊢
        subst h
        refine ⟨_, rfl, fun hpad hlegal => ?_⟩
        have hnone : (((s.engine tile).columns c).findIdx? fun b => b.codes.any codeIllegal) = none := List.findIdx?_eq_none_iff.2 hlegal
        simp only [hpad, hnone, List.foldl_nil, List.isEmpty_nil, Option.isSome_none, Bool.not_true, Bool.or_false, Bool.and_false, Bool.false_eq_true,
          if_false]
        exact formRow_forms s tile c hop _ _ _ _ _ fun hid =>
          ⟨fun n b hb w hw => mem_columns.2 ⟨n, b, hb, hw⟩, fun w hw => mem_columns.1 hw, rfl, rfl, rfl, rfl⟩

/-! ### MZERO_ROW, MSTORE_ROW and MDRAIN_READ (R268, R269) -/

/-- A row event that may act on commands of one operation other than MLDB's acts on no MLDB. -/
theorem op_ne_load {n : Nat} (h : ¬ (c.op != n || !s.canRow tile c) = true) (hn : n ≠ 1) : c.op ≠ 1 := by
  intro hload
  have hother : (c.op != n) = true := bne_iff_ne.2 fun hop => hn (hop.symm.trans hload)
  exact h (by rw [hother, Bool.true_or])

theorem mzeroRow_keeps_promise {P : State → Prop} (h : matrixPromise (.mzeroRow tile mid) s = some P) :
    NextHas (execMzeroRow tile mid s) P := by
  unfold matrixPromise at h
  unfold execMzeroRow
  cases hc : (s.engine tile).cmds.find? fun c => c.mid == mid with
  | none =>
    simp only [hc] at h ⊢
    exact unchanged_keeps h
  | some c =>
    simp only [hc] at h ⊢
    refine guard_keeps h (by simp) fun hready h => ?_
    cases h
    refine ⟨_, rfl, formRow_forms s tile c (op_ne_load hready (by decide)) _ _ _ _ _ fun hid =>
      ⟨fun p hp => ⟨List.mem_map_of_mem hp, fun n hn => ?_⟩, fun x hx => ?_, fun x hx => ?_, rfl, rfl, rfl⟩⟩
    · exact List.mem_flatMap.2 ⟨p, hp, List.mem_map.2 ⟨n, List.mem_range.2 hn, rfl⟩⟩
    · obtain ⟨p, hp, rfl⟩ := List.mem_map.1 hx
      exact ⟨hp, rfl⟩
    · obtain ⟨p, hp, hx⟩ := List.mem_flatMap.1 hx
      obtain ⟨n, hn, rfl⟩ := List.mem_map.1 hx
      have hn := List.mem_range.1 hn
      have hrow : (256 * p + n) / 256 = p := by omega
      exact ⟨by rw [hrow]; exact hp, rfl⟩

theorem mstoreRow_keeps_promise {P : State → Prop} (h : matrixPromise (.mstoreRow tile mid) s = some P) :
    NextHas (execMstoreRow tile mid s) P := by
  unfold matrixPromise at h
  unfold execMstoreRow
  cases hc : (s.engine tile).cmds.find? fun c => c.mid == mid with
  | none =>
    simp only [hc] at h ⊢
    exact unchanged_keeps h
  | some c =>
    cases hk : (s.engine tile).channel? c.chan with
    | none =>
      simp only [hc, hk] at h ⊢
      exact unchanged_keeps h
    | some k =>
      simp only [hc, hk] at h ⊢
      refine guard_keeps h (by simp) fun hready h => ?_
      cases hstop : rowStop (s.engine tile).statusView (recAcc64 c.record) (recAccRow c.record + c.row) with
      | some x =>
        simp only [hstop, Option.some.injEq] at h ⊢
        subst h
        exact ⟨_, rfl, rfl⟩
      | none =>
        simp only [hstop, Option.some.injEq] at h ⊢
        subst h
        exact ⟨_, rfl, formRow_forms s tile c (op_ne_load hready (by decide)) _ _ _ _ _ fun hid => ⟨rfl, rfl, rfl, rfl, rfl⟩⟩

theorem mdrainRead_keeps_promise {P : State → Prop} (h : matrixPromise (.mdrainRead tile mid) s = some P) :
    NextHas (execMdrainRead tile mid s) P := by
  unfold matrixPromise at h
  unfold execMdrainRead
  cases hc : (s.engine tile).cmds.find? fun c => c.mid == mid with
  | none =>
    simp only [hc] at h ⊢
    exact unchanged_keeps h
  | some c =>
    simp only [hc] at h ⊢
    refine guard_keeps h (by simp) fun hready h => ?_
    cases hstop : firstSome (rowStop (s.engine tile).statusView (recAcc64 c.record))
      ((List.range (drainRows c.record (s.drainLanes c))).map (recAccRow c.record + ·)) with
    | some x =>
      simp only [hstop, Option.some.injEq] at h ⊢
      subst h
      exact ⟨_, rfl, rfl⟩
    | none =>
      simp only [hstop, Option.some.injEq] at h ⊢
      subst h
      refine ⟨_, rfl, formRow_forms s tile c (op_ne_load hready (by decide)) _ _ _ _ _ fun hid => ⟨rfl, rfl, rfl, rfl, ?_, fun x hx => ?_⟩⟩
      · exact (List.map_map ..).trans (List.map_id _)
      · obtain ⟨l, hl, rfl⟩ := List.mem_map.1 hx
        rfl

/-! ### ROW_COMMIT and MDRAIN_LANDING (R269, R271) -/

/-- What a held update makes of its engine (R271). -/
def RowHold.applied (h : RowHold) (g : Engine) : Engine :=
  (h.cells.foldl Engine.load { g with
    acc := h.acc.foldl (fun m w => fput PWord.zero m w.1 w.2) g.acc
    status := h.status.foldl (fun m v => fput 0 m v.1 v.2) g.status
    holds := g.holds.filter fun x => x.hid != h.hid }).modCmd h.mid fun c => { c with done := max c.done (h.row + 1) }

/-- A held update takes effect in its engine and in the bytes that it writes (R271). -/
theorem commitHold_commits (s : State) (tile : Nat) (h : RowHold) :
    EngineChanges tile h.applied { s with mem := (s.commitHold tile h).mem } (s.commitHold tile h) ∧
      (h.bytes = [] → (s.commitHold tile h).mem = s.mem) ∧ ∀ p, h.bytes = [p] → Stored p.ea p.data s { s with mem := (s.commitHold tile h).mem } := by
  have hmem := fold_mem (fun s (p : Piece) => s.memStore p.ea p.data) (fun _ _ => rfl) h.bytes s
  refine ⟨?_, fun hb => ?_, fun p hb => ?_⟩
  · rw [show ({ s with mem := (s.commitHold tile h).mem } : State) = h.bytes.foldl (fun s p => s.memStore p.ea p.data) s from hmem.symm]
    exact modEngine_changes _ tile h.applied
  · unfold State.commitHold
    rw [hb]
    rfl
  · unfold State.commitHold
    rw [hb]
    exact stored s p.ea p.data

theorem rowCommit_keeps_promise {P : State → Prop} (h : matrixPromise (.rowCommit tile hid) s = some P) :
    NextHas (execRowCommit tile hid s) P := by
  unfold matrixPromise at h
  unfold execRowCommit
  cases hh : (s.engine tile).holds.find? fun h => h.hid == hid with
  | none =>
    simp only [hh] at h ⊢
    exact unchanged_keeps h
  | some x =>
    simp only [hh] at h ⊢
    split at h
    · next hwait =>
      rw [if_pos hwait]
      exact unchanged_keeps h
    · next hdue =>
      cases h
      rw [if_neg hdue]
      exact ⟨_, rfl, commitHold_commits s tile x⟩

theorem mdrainLanding_keeps_promise {P : State → Prop} (h : matrixPromise (.mdrainLanding tile hid) s = some P) :
    NextHas (execMdrainLanding tile hid s) P := by
  unfold matrixPromise at h
  unfold execMdrainLanding
  cases hh : (s.engine tile).holds.find? fun h => h.hid == hid with
  | none =>
    simp only [hh] at h ⊢
    exact unchanged_keeps h
  | some x =>
    cases hc : (s.engine tile).cmds.find? fun c => c.mid == x.mid with
    | none =>
      simp only [hh, hc] at h ⊢
      exact unchanged_keeps h
    | some c =>
      simp only [hh, hc] at h ⊢
      refine guard_keeps h Iff.rfl fun hdue h => ?_
      cases hp : c.pid with
      | none =>
        simp only [hp, Option.some.injEq] at h ⊢
        subst h
        exact ⟨_, rfl, rfl⟩
      | some p =>
        simp only [hp, Option.some.injEq] at h ⊢
        subst h
        exact ⟨_, rfl, _, land_fold c.uid p x.vals s, rfl⟩

/-! ### COMMAND_RETIRE (R254, R257, R262) -/

/-- A retired command changes its engine, and the progress of its context unless it is void (R254, R262, R416). -/
theorem retire_changes (s : State) (tile ctx : Nat) (void : Bool) (f : Engine → Engine) :
    let u := if void then s.modEngine tile f else (s.modEngine tile f).progress ctx
    u.engine tile = f (s.engine tile) ∧ (∀ j, j ≠ tile → u.engine j = s.engine j) ∧
      u = { s with engines := u.engines, ctxs := if void then s.ctxs else (s.progress ctx).ctxs } := by
  cases void <;> exact ⟨engine_mod s tile f, fun j hj => engine_mod_ne s hj f, rfl⟩

theorem commandRetire_keeps_promise {P : State → Prop} (h : matrixPromise (.commandRetire tile mid) s = some P) :
    NextHas (execCommandRetire tile mid s) P := by
  unfold matrixPromise at h
  unfold execCommandRetire
  cases hc : (s.engine tile).cmds.find? fun c => c.mid == mid with
  | none =>
    simp only [hc] at h ⊢
    exact unchanged_keeps h
  | some c =>
    cases hk : (s.engine tile).channel? c.chan with
    | none =>
      simp only [hc, hk, Option.some.injEq] at h ⊢
      subst h
      exact ⟨_, rfl, rfl⟩
    | some k =>
      simp only [hc, hk] at h ⊢
      refine guard_keeps h Iff.rfl fun hretire h => ?_
      split at h
      · next hcredit =>
        rw [if_pos hcredit]
        split at h
        · next hbad =>
          cases h
          rw [if_pos hbad]
          exact ⟨_, rfl, rfl⟩
        · next hgood =>
          cases h
          rw [if_neg hgood]
          exact ⟨_, rfl, _, ⟨_, rfl, rfl, rfl, rfl, rfl, rfl, rfl, rfl, rfl, rfl⟩, modEngine_changes ..⟩
      · next hdone =>
        cases h
        rw [if_neg hdone]
        obtain ⟨hengine, hothers, hrest⟩ := retire_changes s tile c.ctx c.void _
        exact ⟨_, rfl, congrArg Engine.cmds hengine, hothers, hrest⟩

end

end Sys2Proof.Machine

open Sys2Proof Sys2Proof.Machine

/-- Settles O51, by the theorem about each of the nine events. -/
theorem matrixEvents : Obligations.MatrixEvents := by
  intro i s P h
  cases i
  case commandStart => exact commandStart_keeps_promise h
  case mldbSegment => exact mldbSegment_keeps_promise h
  case mmaRow => exact mmaRow_keeps_promise h
  case mzeroRow => exact mzeroRow_keeps_promise h
  case mstoreRow => exact mstoreRow_keeps_promise h
  case mdrainRead => exact mdrainRead_keeps_promise h
  case rowCommit => exact rowCommit_keeps_promise h
  case mdrainLanding => exact mdrainLanding_keeps_promise h
  case commandRetire => exact commandRetire_keeps_promise h
  all_goals cases h

end

section
/-! PROOFS. The events at the ordering points and homes (O48). -/

namespace Sys2Proof.Machine

section
variable {s : State} {id : Nat} {x : Net} {P : State → Prop}

/-! ### Atomics and routines -/

/-- An atomic that its owner port admits stores what its operation gives, if anything, and answers with the old value (R281, R282). -/
theorem performAtomic_of_admitted (pid : Option Nat) {op : AtomOp} {r : AtomReq} (hp : s.portAdmits x r.ea op.width = true)
    {old : List (Byte × Bool)} (hold : s.mem.load x.pa op.width = old) {out : Option PVal × BitVec 5}
    (hout : op.apply ⟨BitVec.ofNat 64 (ofBytes (old.map (·.1))), old.any (·.2)⟩ r = out) :
    ∃ w, (∀ y, out.1 = some y → Stored x.pa ((toBytes op.width y.v.toNat).map (·, y.p)) s w) ∧ (out.1 = none → w = s) ∧
      Answered x 0 true (.ack pid [(r.lane, loadedWords false old)] out.2 none r.ea op.width) w (s.performAtomic x pid op r) := by
  obtain ⟨v, flags⟩ := out
  unfold State.performAtomic
  dsimp only
  rw [hp, if_neg (by decide), hold, hout]
  cases v with
  | none => exact ⟨s, (fun _ hz => nomatch hz), fun _ => rfl, answered ..⟩
  | some y => exact ⟨_, (fun | _, rfl => stored ..), (fun hz => nomatch hz), answered ..⟩

theorem performAtomic_of_refused (pid : Option Nat) {op : AtomOp} {r : AtomReq} (hp : ¬ s.portAdmits x r.ea op.width = true) :
    s.performAtomic x pid op r = s.failNet x 29 := by
  unfold State.performAtomic
  dsimp only
  rw [if_pos (by rw [Bool.eq_false_iff.2 hp]; rfl)]

theorem atomicPerform_keeps_promise (h : homePromise (.atomicPerform id) s = some P) : NextHas (execAtomicPerform id s) P := by
  unfold homePromise at h
  cases hx : s.net? id with
  | none => simp only [hx, reduceCtorEq] at h
  | some x =>
    simp only [hx] at h
    split at h
    · next pid op r ha =>
      simp only [execAtomicPerform, hx, ha]
      refine ⟨_, rfl, ?_⟩
      split at h
      · next hp =>
        cases h
        obtain ⟨w, hstored, hsame, hanswered⟩ := performAtomic_of_admitted pid hp rfl rfl
        refine ⟨w, ?_, hanswered⟩
        split
        · next y hy => exact hstored y hy
        · next hy => exact hsame hy
      · next hp =>
        cases h
        rw [performAtomic_of_refused pid hp]
        exact failNet_failed s x 29 (by rw [ha]; exact fun _ _ => Act.noConfusion)
    · cases h

theorem aprogLate_iff {r : AtomReq} : s.aprogLate x r = true ↔ s.aprogOut x r = .stop 58 := by
  unfold State.aprogLate
  exact beq_iff_eq

/-- A routine with a poisoned operand or line is not run (R291). -/
theorem performAprog_poisoned (pid : Nat) {r : AtomReq} (hp : (r.v.p || s.mem.anyPoison (x.pa / 64 * 64) 64) = true) :
    Answered x 0 true (.ack (some pid) [(r.lane, [⟨r.v.v.extractLsb' 0 32, true⟩, ⟨r.v.v.extractLsb' 32 32, true⟩])] 0 none r.ea 64) s
      (s.performAprog x pid r) := by
  unfold State.performAprog
  dsimp only
  rw [if_pos hp]
  exact answered ..

/-- A routine that comes to its ECALL stores its line and answers with a0 and a1 (R291). -/
theorem performAprog_done (pid : Nat) {r : AtomReq} {a0 a1 : Word} {line : List Byte} {cycles : Nat}
    (hp : ¬ (r.v.p || s.mem.anyPoison (x.pa / 64 * 64) 64) = true) (hout : s.aprogOut x r = .done a0 a1 line cycles) :
    ∃ w, Stored (x.pa / 64 * 64) (line.map (·, false)) s w ∧
      Answered x cycles true (.ack (some pid) [(r.lane, [⟨a0, false⟩, ⟨a1, false⟩])] 0 none r.ea 64) w (s.performAprog x pid r) := by
  unfold State.performAprog
  dsimp only
  rw [if_neg hp, hout]
  exact ⟨_, stored .., answered ..⟩

/-- A routine that stops leaves its line, and its result keeps the request for a Resume (R292). -/
theorem performAprog_stop (pid : Nat) {r : AtomReq} {c : Nat}
    (hp : ¬ (r.v.p || s.mem.anyPoison (x.pa / 64 * 64) 64) = true) (hout : s.aprogOut x r = .stop c) :
    Answered x 0 true (.ack (some pid) [(r.lane, [])] 0 (some c) r.ea 64) (s.modPend x.uid pid fun q => { q with redo := q.redo ++ [x] })
      (s.performAprog x pid r) := by
  unfold State.performAprog
  dsimp only
  rw [if_neg hp, hout]
  exact answered ..

theorem aprogRun_keeps_promise (h : homePromise (.aprogRun id) s = some P) : NextHas (execAprogRun id s) P := by
  unfold homePromise at h
  cases hx : s.net? id with
  | none => simp only [hx, reduceCtorEq] at h
  | some x =>
    simp only [hx] at h
    split at h
    · next pid r ha =>
      simp only [execAprogRun, hx, ha]
      refine ⟨_, rfl, ?_⟩
      split at h
      · next hp =>
        split at h
        · cases h
        · next hlate =>
          cases h
          rw [if_neg hlate]
          exact performAprog_poisoned pid hp
      · next hp =>
        split at h
        · next a0 a1 line cycles hout =>
          cases h
          rw [if_neg fun hlate => nomatch hout.symm.trans (aprogLate_iff.1 hlate)]
          exact performAprog_done pid hp hout
        · next c hout =>
          split at h
          · cases h
          · next hc =>
            cases h
            rw [if_neg fun hlate => hc (Run.stop.inj (hout.symm.trans (aprogLate_iff.1 hlate)))]
            exact performAprog_stop pid hp hout
    · cases h

theorem aprogTimeout_keeps_promise (h : homePromise (.aprogTimeout id) s = some P) : NextHas (execAprogTimeout id s) P := by
  unfold homePromise at h
  cases hx : s.net? id with
  | none => simp only [hx, reduceCtorEq] at h
  | some x =>
    simp only [hx] at h
    split at h
    · next pid r ha =>
      simp only [execAprogTimeout, hx, ha]
      refine ⟨_, rfl, ?_⟩
      split at h
      · next hlate =>
        cases h
        simp only [Bool.and_eq_true, decide_eq_true_eq, Bool.not_eq_true'] at hlate
        obtain ⟨⟨hout, hoperand⟩, hline⟩ := hlate
        rw [if_pos (aprogLate_iff.2 hout)]
        exact performAprog_stop pid (by rw [hoperand, hline]; decide) hout
      · cases h
    · cases h

/-! ### Results that a home holds -/

theorem homeCommit_keeps_promise (h : homePromise (.homeCommit id) s = some P) : NextHas (execHomeCommit id s) P := by
  unfold homePromise at h
  unfold execHomeCommit
  cases hh : s.homeHolds.find? fun h => h.id == id with
  | none => simp only [hh, reduceCtorEq] at h
  | some hold =>
    simp only [hh] at h ⊢
    refine guard_keeps h Iff.rfl fun _ h => ?_
    cases h
    obtain ⟨d, draws, serial, hsent, hdue⟩ := sendBack_spec { s with homeHolds := s.homeHolds.filter fun k => k.id != id } hold.reply
    rw [hsent]
    exact ⟨_, rfl, ⟨_, List.mem_append_right _ List.mem_cons_self, rfl, hdue, rfl⟩, rfl, rfl⟩

/-! ### Barriers -/

/-- A barrier operation stores the object's four words and answers. -/
theorem setBarrier_answered (ea : Nat) (b : Barrier) (act : Act) :
    ∃ w, Stored ea b.bytes s w ∧ Answered x 0 false act w ((s.setBarrier ea b).answer x false 0 act) :=
  ⟨_, stored .., answered ..⟩

theorem barrierArrival_keeps_promise (h : homePromise (.barrierArrival id) s = some P) : NextHas (execBarrierArrival id s) P := by
  unfold homePromise at h
  cases hx : s.net? id with
  | none => simp only [hx, reduceCtorEq] at h
  | some x =>
    simp only [hx] at h
    split at h
    · next lane ea ha =>
      simp only [execBarrierArrival, hx, ha]
      refine ⟨_, rfl, ?_⟩
      have hfail (c : Nat) : Failed x c s (s.failNet x c) := failNet_failed s x c (by rw [ha]; exact fun _ _ => Act.noConfusion)
      split at h
      · next hp => cases h; rw [if_pos hp]; exact hfail 29
      next hp =>
      rw [if_neg hp]
      split at h
      · next hbad => cases h; rw [if_pos hbad]; exact hfail 68
      next hgood =>
      rw [if_neg hgood]
      split at h
      · next hover => cases h; rw [if_pos hover]; exact hfail 70
      next hpending =>
      cases h
      rw [if_neg hpending, ← arrived_settled _ (Bool.eq_false_iff.2 hgood) hpending]
      exact setBarrier_answered ..
    · cases h

theorem expectation_keeps_promise (h : homePromise (.expectation id) s = some P) : NextHas (execExpectation id s) P := by
  unfold homePromise at h
  cases hx : s.net? id with
  | none => simp only [hx, reduceCtorEq] at h
  | some x =>
    simp only [hx] at h
    split at h
    · next pid lane ea n ha =>
      simp only [execExpectation, hx, ha]
      refine ⟨_, rfl, ?_⟩
      have hfail (c : Nat) : Failed x c s (s.failNet x c) := failNet_failed s x c (by rw [ha]; exact fun _ _ => Act.noConfusion)
      have hcount : bits n 30 0 = n % 2 ^ 31 := rfl
      rw [hcount]
      split at h
      · next hp => cases h; rw [if_pos hp]; exact hfail 29
      next hp =>
      rw [if_neg hp]
      split at h
      · next hbad => cases h; rw [if_pos hbad]; exact hfail 68
      next hgood =>
      rw [if_neg hgood]
      split at h
      · next hlater =>
        simp only [hlater, if_true]
        split at h
        · next hpast => cases h; rw [if_pos hpast]; exact hfail 70
        · next hfits => cases h; rw [if_neg hfits]; exact setBarrier_answered ..
      · next hnow =>
        simp only [hnow, Bool.false_eq_true, if_false, decide_eq_true_eq]
        split at h
        · next hpast => cases h; rw [if_pos hpast]; exact hfail 70
        · next hfits => cases h; rw [if_neg hfits]; exact setBarrier_answered ..
    · cases h

theorem engineCredit_keeps_promise (h : homePromise (.engineCredit id) s = some P) : NextHas (execEngineCredit id s) P := by
  unfold homePromise at h
  cases hx : s.net? id with
  | none => simp only [hx, reduceCtorEq] at h
  | some x =>
    simp only [hx] at h
    split at h
    · next ea n mask ha =>
      simp only [execEngineCredit, hx, ha]
      refine ⟨_, rfl, ?_⟩
      split at h
      · next hgood =>
        cases h
        rw [Bool.and_eq_true, Bool.not_eq_true'] at hgood
        obtain ⟨hp, hgood⟩ := hgood
        simp only [hp, hgood, Bool.not_true, Bool.false_eq_true, if_false]
        exact setBarrier_answered ..
      · cases h
    · cases h

/-! ### Accesses that arrive, and pages that have moved -/

theorem orderingPointAccess_keeps_promise (h : homePromise (.orderingPointAccess id) s = some P) : NextHas (execOrderingPointAccess id s) P := by
  unfold homePromise at h
  unfold execOrderingPointAccess
  cases hx : s.net? id with
  | none => simp only [hx, reduceCtorEq] at h
  | some x =>
    simp only [hx] at h ⊢
    refine ⟨_, rfl, ?_⟩
    split at h
    · cases h
    next hhere =>
    simp only [Bool.or_eq_true, not_or, Bool.not_eq_true] at hhere
    obtain ⟨⟨hout, hmoving⟩, hwindow⟩ := hhere
    simp only [hout, hmoving, hwindow, Bool.or_false, Bool.false_eq_true, if_false]
    split at h
    · next hreply => cases h; exact if_pos hreply
    next hreply =>
    rw [if_neg hreply]
    split at h
    · next hdown =>
      rw [if_pos hdown]
      split at h
      · cases h
      · next hfetch => cases h; exact failNet_failed s x 36 hfetch
    · next hup =>
      rw [if_neg hup]
      exact performAccess_follows x s P h

theorem moved_keeps_promise (h : homePromise (.moved id) s = some P) : NextHas (execMoved id s) P := by
  unfold homePromise at h
  unfold execMoved
  cases hx : s.net? id with
  | none => simp only [hx, reduceCtorEq] at h
  | some x =>
    simp only [hx] at h ⊢
    split at h
    · cases h
    next hfetch =>
    split at h
    · next htries =>
      cases h
      rw [if_pos htries]
      exact ⟨_, rfl, failNet_failed s x 39 hfetch⟩
    next htries =>
    rw [if_neg htries]
    split at h
    · next base size pte hw =>
      cases h
      rw [hw]
      dsimp only
      rw [draw_next s]
      exact ⟨_, rfl, ⟨_, rfl, Nat.le_trans (Nat.le_add_right _ _) (Nat.le_max_left _ _), rfl⟩, rfl⟩
    · next hw =>
      cases h
      rw [hw]
      exact ⟨_, rfl, failNet_failed s x 24 hfetch⟩
    · cases h

end

end Sys2Proof.Machine

open Sys2Proof Sys2Proof.Machine

/-- Settles O48, by the theorem about each of the nine events. -/
theorem homeEvents : Obligations.HomeEvents := by
  intro i s P h
  cases i
  case atomicPerform => exact atomicPerform_keeps_promise h
  case aprogRun => exact aprogRun_keeps_promise h
  case aprogTimeout => exact aprogTimeout_keeps_promise h
  case homeCommit => exact homeCommit_keeps_promise h
  case barrierArrival => exact barrierArrival_keeps_promise h
  case expectation => exact expectation_keeps_promise h
  case engineCredit => exact engineCredit_keeps_promise h
  case orderingPointAccess => exact orderingPointAccess_keeps_promise h
  case moved => exact moved_keeps_promise h
  all_goals cases h

end

section
/-! PROOFS. What package reset leaves (O5), and where a run stops (O7). -/

open Sys2Proof Sys2Proof.Machine

/-- Settles O5: the parts of the reset state are written out in its definition, and a map that lists nothing reads its default. -/
theorem resetLeaves : Obligations.ResetLeaves := by
  refine ⟨rfl, rfl, rfl, rfl, rfl, ?teams, rfl, rfl, fun _ => rfl, fun _ => rfl, fun _ => rfl, fun _ => rfl, ?cxl, rfl, ?time, rfl, fun _ => rfl, ?mem⟩
  case teams => decide
  case cxl => decide
  case time => decide
  case mem => rfl

/-- Settles O7: power is looked at first, and an address outside control space that no space has is no register and no memory. -/
theorem stopsAreNamed : Obligations.StopsAreNamed := by
  refine ⟨?off, fun pa n v s hpa => ⟨?write, fun hspace st => ?access⟩⟩
  case off =>
    intro s hoff
    exact if_pos hoff
  case write =>
    show execRegisterWrite pa n v s = _
    simp only [execRegisterWrite, hpa, Bool.false_eq_true, if_false]
  case access =>
    show execRangerLoadStore pa n st v s = _
    simp only [execRangerLoadStore, hpa, hspace, Bool.false_eq_true, if_false]

end

section
/-! PROOFS. Reads of objects at their ordering point: ACQ and CREAD (O29), FENCE (O32) and WAIT (O46). -/

namespace Sys2Proof.Machine

/-! ### ACQ and CREAD -/

/-- The result of a read of objects pends, with the regions that an acquire covers. -/
theorem pends_object {s t : State} {o : Issue} (ht : Drawn s t) (rs : List LaneResult) {due : Nat} (hdue : s.now + 1 ≤ due) (acq : Bool) (range : List (Nat × Nat)) :
    let r := o.pend t rs due false acq range
    r.1 = s.nextId ∧ PendsAt o s r.2 (rs.map LaneResult.place) 1 ∧ (∀ p, r.2.cur.pend.getLast? = some p → p.acq = acq ∧ p.range = range) ∧
      r.2.now = s.now ∧ r.2.coolbox = s.coolbox ∧ Quiet { s with cur := { s.cur with pend := r.2.cur.pend } } r.2 := by
  rw [ht.rest]
  refine ⟨rfl, ⟨_, rfl, rfl, rfl, rfl, rfl, rfl, rfl, rfl, hdue⟩, fun p hp => ?_, rfl, rfl, ⟨rfl⟩⟩
  simp only [Issue.pend, fresh, List.getLast?_concat, Option.some.injEq] at hp
  subst hp
  exact ⟨rfl, rfl⟩

/-- The accesses of an ACQ to effectful pages are held as one load of them (R215, R305). -/
def Issue.holdEffectful (o : Issue) (v : State) (pid : Nat) (ef : List Access1) : State :=
  if ef.isEmpty then v else o.hold v (o.unitsFor ef.length 8) (.efload pid false (ef.map fun x => (x.lane, x.ea, 8)))

theorem holdEffectful_keeps (o : Issue) (v : State) (pid : Nat) (ef : List Access1) :
    (o.holdEffectful v pid ef).cur = v.cur ∧ (o.holdEffectful v pid ef).now = v.now ∧
      Quiet { v with coolbox := (o.holdEffectful v pid ef).coolbox } (o.holdEffectful v pid ef) := by
  unfold Issue.holdEffectful
  split
  · exact ⟨rfl, rfl, ⟨rfl⟩⟩
  · exact ⟨rfl, rfl, ⟨rfl⟩⟩

theorem holdEffectful_held (o : Issue) (v : State) (pid : Nat) (xs : List Access1) :
    if xs.any (·.ef) then ∃ h : Held, (o.holdEffectful v pid (xs.filter (·.ef))).coolbox = v.coolbox ++ [h] ∧
        h.eff = .efload pid false ((xs.filter (·.ef)).map fun x => (x.lane, x.ea, 8)) ∧ h.issue = v.now ∧ h.uid = o.t.id.uid
      else (o.holdEffectful v pid (xs.filter (·.ef))).coolbox = v.coolbox := by
  unfold Issue.holdEffectful
  rw [any_filter]
  cases (xs.filter (·.ef)).isEmpty
  · exact ⟨_, rfl, rfl, rfl, rfl⟩
  · rfl

/-- An access as an ACQ or CREAD makes it, whatever its page. -/
def Access1.plain (x : Access1) : Access1 := { x with ef := false }

/-- Lanes are not repeated, so an access that is not to an effectful page is read at once. -/
theorem plain_reads {xs : List Access1} (hl : (xs.map (·.lane)).Nodup) {x : Access1} (hx : x ∈ xs) (he : x.ef = false) :
    x.plain ∈ (xs.map Access1.plain).filter fun y => !(xs.filter (·.ef)).any (·.lane == y.lane) := by
  refine List.mem_filter.2 ⟨List.mem_map_of_mem hx, ?_⟩
  rw [Bool.not_eq_true', List.any_eq_false]
  intro y hy hlane
  obtain ⟨hy, hef⟩ := List.mem_filter.1 hy
  have hxy : x = y := nodup_key_inj hl hx hy (beq_iff_eq.1 hlane).symm
  rw [← hxy, he] at hef
  cases hef

theorem plain_eas (xs : List Access1) : (xs.map Access1.plain).map (·.ea) = xs.map (·.ea) := by
  rw [List.map_map]
  rfl

theorem plain_lanes (xs : List Access1) : (xs.map Access1.plain).map (·.lane) = xs.map (·.lane) := by
  rw [List.map_map]
  rfl

/-- The TLB takes in the pages of those accesses that are to translated memory. -/
def Issue.looksUp (o : Issue) (s : State) (xs : List Access1) : State :=
  xs.foldl (fun s x => if isScratch x.ea then s else s.fillTlb o.t.id.tile o.t.id.ctx x.ea) s

theorem looksUp_fills (o : Issue) (s : State) (xs : List Access1) : Fills s (o.looksUp s xs) := fills_accesses _ _ xs s

section
variable {s s1 : State} {o : Issue} {xs : List Access1}

theorem Drawn.regions {s t : State} (h : Drawn s t) (tile c : Nat) (xs : List Nat) : t.regionsOf tile c xs = s.regionsOf tile c xs := by
  rw [h.rest]
  rfl

/-- The state of an ACQ that has made its accesses: their result pends, those of effectful pages are held and the others are read. -/
def Issue.acquired (o : Issue) (s : State) (xs : List Access1) : State :=
  let ys := xs.map Access1.plain
  let ef := xs.filter (·.ef)
  let v := draw (o.looksUp s ys)
  let due := if ef.isEmpty then v.2.now + 1 + v.1 else max (v.2.now + Config.Q) (v.2.now + 1 + v.1)
  let r := o.pend v.2 (o.dests (ys.map (·.lane)) 2) due false true ((v.2.regionsOf o.t.id.tile o.t.id.ctx (ys.map (·.ea))).map (·.2))
  (ys.filter fun y => !ef.any (·.lane == y.lane)).foldl (fun s y => o.readObject s r.1 8 true y) (o.holdEffectful r.2 r.1 ef)

theorem acquired_reads (hlanes : (xs.map (·.lane)).Nodup) : ReadsObjects o s (o.acquired s xs) true xs := by
  unfold Issue.acquired
  dsimp only
  have hdrawn := (looksUp_fills o s (xs.map Access1.plain)).drawn.draw
  generalize draw (o.looksUp s (xs.map Access1.plain)) = v at hdrawn
  have hdue : s.now + 1 ≤ if (xs.filter (·.ef)).isEmpty then v.2.now + 1 + v.1 else max (v.2.now + Config.Q) (v.2.now + 1 + v.1) := by
    rw [hdrawn.now]
    split <;> omega
  rw [plain_lanes, plain_eas, hdrawn.regions]
  obtain ⟨hid, hpend, hacq, hnow, hcool, hquiet⟩ := pends_object (o := o) hdrawn (o.dests (xs.map (·.lane)) 2) hdue true
    ((s.regionsOf o.t.id.tile o.t.id.ctx (xs.map (·.ea))).map (·.2))
  generalize o.pend v.2 (o.dests (xs.map (·.lane)) 2) _ false true _ = r at hid hpend hacq hnow hcool hquiet
  obtain ⟨pid, r⟩ := r
  subst hid
  obtain ⟨hcur, hhnow, hhquiet⟩ := holdEffectful_keeps o r s.nextId (xs.filter (·.ef))
  have hheld := holdEffectful_held o r s.nextId xs
  rw [hcool, hnow] at hheld
  generalize o.holdEffectful r s.nextId (xs.filter (·.ef)) = w at hcur hhnow hhquiet hheld
  refine readsObjects_of (by unfold PendsAt; rw [hcur]; exact hpend) ?acq (hhnow.trans hnow) ?held ?quiet
    fun y hy he => ⟨y.plain, plain_reads hlanes hy (by simpa using he), rfl, rfl, rfl⟩
  case acq =>
    rw [hcur]
    exact fun p hp => ⟨(hacq p hp).1, fun _ => (hacq p hp).2⟩
  case held => exact hheld
  case quiet =>
    refine Quiet.trans ⟨?_⟩ hhquiet
    have hrest : r = _ := hquiet.rest
    rw [hcur, hrest]

theorem acq_reads {d a : Reg} {l : BitVec 4} {x : BitVec 1} {lit : Word} {f : Issue → State → AccessRule} (hf : accessOf (.acq d a l x lit) = some f)
    (h : prepare (.acq d a l x lit) s = .ok (o, s1)) (hp : (f o s1).passes s1 xs) :
    ∃ u t, exec (.acq d a l x lit) s = .next t ∧ ReadsObjects o s1 u true xs ∧ Completes o u t := by
  cases hf
  have hcheck : o.check s1 (o.addrsL x) 8 8 28 Need.r none (fun _ => none) = .ok xs [] := hp.check
  have hbinds : s1.bindsOut o.t.id.uid = false := hp.ready
  have hwaits : o.accessWaits s1 (xs.map fun y => { y with ef := false }) 8 (o.unitsFor (xs.filter (·.ef)).length 8) = none := hp.waits
  have hlanes : (xs.map (·.lane)).Nodup := (checkWith_lanes hcheck).nodup (by rw [addrsL_lanes]; exact (act_lanes_nodup h).2)
  exact issue_accesses h ⟨_, _, _, _, _, by
    simp only [hcheck, hbinds, hwaits, List.isEmpty_map, isEmpty_of_ne hp.some, Bool.false_eq_true, if_false]
    rfl⟩ (acquired_reads hlanes)

/-- The state of a CREAD that has made its accesses. -/
def Issue.counterRead (o : Issue) (s : State) (xs : List Access1) : State :=
  let ys := xs.map Access1.plain
  let v := draw (o.looksUp s ys)
  let r := o.pend v.2 (o.dests (ys.map (·.lane)) 2) (v.2.now + 1 + v.1) false false []
  ys.foldl (fun s y => o.readObject s r.1 8 false y) r.2

theorem counterRead_reads : ReadsObjects o s (o.counterRead s xs) false xs := by
  unfold Issue.counterRead
  dsimp only
  have hdrawn := (looksUp_fills o s (xs.map Access1.plain)).drawn.draw
  generalize draw (o.looksUp s (xs.map Access1.plain)) = v at hdrawn
  rw [plain_lanes]
  obtain ⟨hid, hpend, hacq, hnow, hcool, hquiet⟩ := pends_object (o := o) hdrawn (o.dests (xs.map (·.lane)) 2) (due := v.2.now + 1 + v.1)
    (by rw [hdrawn.now]; omega) false []
  generalize o.pend v.2 (o.dests (xs.map (·.lane)) 2) _ false false _ = r at hid hpend hacq hnow hcool hquiet
  obtain ⟨pid, r⟩ := r
  subst hid
  refine readsObjects_of hpend (fun p hp => ⟨(hacq p hp).1, nofun⟩) hnow hcool ⟨?quiet⟩ fun y hy _ => ⟨y.plain, List.mem_map_of_mem hy, rfl, rfl, rfl⟩
  rw [hcool, hquiet.rest]

theorem cread_reads {d a : Reg} {l : BitVec 4} {x : BitVec 1} {lit : Word} {f : Issue → State → AccessRule} (hf : accessOf (.cread d a l x lit) = some f)
    (h : prepare (.cread d a l x lit) s = .ok (o, s1)) (hp : (f o s1).passes s1 xs) :
    ∃ u t, exec (.cread d a l x lit) s = .next t ∧ ReadsObjects o s1 u false xs ∧ Completes o u t := by
  cases hf
  have hcheck : o.checkWith s1 (o.addrsL x) 8 eitherOdd Need.rw none (fun _ => none) = .ok xs [] := hp.check
  have hheld : ((xs.map fun y => ({ y with ef := false } : Access1)).any fun y => s1.holdsFor o.t.id.uid y.ea (if isScratch y.ea then 16 else 8)) = false := by
    rw [List.any_map, List.any_eq_false]
    exact fun y hy => Bool.eq_false_iff.1 (hp.ready y hy)
  have hwaits : o.accessWaits s1 (xs.map fun y => { y with ef := false }) 8 0 = none := hp.waits
  exact issue_accesses h ⟨_, _, _, _, _, by
    simp only [hcheck, hheld, hwaits, List.isEmpty_map, isEmpty_of_ne hp.some, Bool.false_eq_true, if_false]
    rfl⟩ counterRead_reads

end

/-! ### FENCE -/

/-- A stalled instruction of a team. -/
theorem issue_stalls {i : Instr} {s s1 u : State} {o : Issue} {c : Nat} {body : Issue → State → Res} (h : prepare i s = .ok (o, s1))
    (hb : body o s1 = .stall u c) :
    issue i body s = .next { u with cur := { u.cur with sched := { u.cur.sched with stallCause := c, stallTime := u.now + 1 } } } := by
  rw [issue_next body h, hb]
  rfl

/-- Writing back the dirty lines among some writes back all of them. -/
theorem WritesBack.of_dirty {s u : State} {p : Line → Bool} (h : WritesBack s u fun l => p l && l.dirty != 0) : WritesBack s u p :=
  fun l hl hp hd => h l hl (Bool.and_eq_true_iff.2 ⟨hp, bne_iff_ne.2 hd⟩) hd

section
variable {s s1 : State} {o : Issue} {sc : BitVec 7} (h : prepare (.fence sc) s = .ok (o, s1)) (hmet : s1.fenceMet o.t sc.toNat = true)
include h hmet

theorem fence_near (hsc : sc.toNat < 3) : ∃ t, exec (.fence sc) s = .next t ∧ Completes o s1 t :=
  issue_completes h (by
    simp only [hmet, Bool.not_true, Bool.false_eq_true, if_false, if_pos hsc]
    rfl) ⟨rfl, rfl, rfl⟩ rfl

/-- A FENCE of a wide scope first writes back what its tile and context have dirty, and keeps what it waits for (R308). -/
theorem fence_begins (hsc : 3 ≤ sc.toNat) (hfence : o.t.fence = none) :
    ∃ t ids, exec (.fence sc) s = .next t ∧ t.cur.fence = some ids ∧ WritesBack s1 t o.ownsLine ∧
      Quiet { s1 with cur := t.cur } t ∧ t.cur = { s1.cur with fence := some ids, sched := t.cur.sched } := by
  let v := s1.cleanLines (fun l => o.ownsLine l && l.dirty != 0) (fun _ => false) o.t.id.uid s1.now
  have hwrites : WritesBack s1 v.2 o.ownsLine := WritesBack.of_dirty (cleanLines_writes s1 (fun l => o.ownsLine l && l.dirty != 0) (fun _ => false) o.t.id.uid s1.now)
  have hrest : v.2 = _ := (cleans_cleanLines s1 (fun l => o.ownsLine l && l.dirty != 0) (fun _ => false) o.t.id.uid s1.now).quiet.rest
  refine ⟨_, v.1, issue_stalls h (u := { v.2 with cur := { v.2.cur with fence := some v.1 } }) (c := 8) ?_, rfl, hwrites, ⟨?_⟩, ?_⟩
  · simp only [hmet, Bool.not_true, Bool.false_eq_true, if_false, if_neg (Nat.not_lt.2 hsc), hfence]
    rfl
  · rw [hrest]
  · rw [hrest]

/-- Once that has arrived, it drops the lines that no region binds (R300, R308). -/
theorem fence_ends (hsc : 3 ≤ sc.toNat) {ids : List Nat} (hfence : o.t.fence = some ids) (hwaits : s1.waitsFor ids = false) :
    ∃ u t, exec (.fence sc) s = .next t ∧
      (Quiet { s1 with cur := { s1.cur with fence := none } } u ∧ (∀ l ∈ u.mem.lines, o.ownsLine l = true → s1.bound o.t.id.ctx l = true) ∧
        WritesBack s1 u fun l => o.ownsLine l && !s1.bound o.t.id.ctx l) ∧ Completes o u t := by
  let v := (s1.cleanLines (fun l => o.ownsLine l && !s1.bound o.t.id.ctx l) (fun _ => true) o.t.id.uid s1.now).2
  have hwrites : WritesBack s1 v fun l => o.ownsLine l && !s1.bound o.t.id.ctx l := cleanLines_writes s1 _ _ _ _
  have hgone : ∀ l ∈ v.mem.lines, ((o.ownsLine l && !s1.bound o.t.id.ctx l) && true) = false := cleanLines_gone s1 _ _ _ _
  have hrest : v = _ := (cleans_cleanLines s1 (fun l => o.ownsLine l && !s1.bound o.t.id.ctx l) (fun _ => true) o.t.id.uid s1.now).quiet.rest
  refine issue_single h (u := { v with cur := { v.cur with fence := none } }) ?_ ⟨⟨?_⟩, fun l hl hown => ?_, hwrites⟩
  · simp only [hmet, Bool.not_true, Bool.false_eq_true, if_false, if_neg (Nat.not_lt.2 hsc), hfence, hwaits]
    rfl
  · rw [hrest]
  · have hl := hgone l hl
    rw [hown] at hl
    simpa using hl

end

/-! ### WAIT -/

/-- A WAIT whose object has reached its phase or target: the regions are acquired (R300). -/
def Issue.waitOver (o : Issue) (v : State) (ea : Nat) : State :=
  let u := v.acquire o.t.id.tile o.t.id.ctx o.t.id.uid (o.waitRegions v ea)
  { u with cur := { u.cur with wait := none } }

/-- What a team keeps of the WAIT that suspends it (R411). -/
def Issue.waitFor (o : Issue) (v : State) (ea target : Nat) : Waiting :=
  ⟨o.g.pc, ea, target, o.waitSince v, match v.walk o.t.id.tile o.t.id.ctx ea with
    | .leaf _ _ pte => !isScratch ea && bit pte.toNat 58
    | _ => false, o.waitRegions v ea⟩

/-- A WAIT whose object has not: its team is suspended. -/
def Issue.waitOn (o : Issue) (v : State) (ea target : Nat) : State :=
  { v with cur := { v.cur with status := .waiting, wait := some (o.waitFor v ea target), sched := { v.cur.sched with stallCause := 8 } } }

section
variable {d a b : Reg} {lit : Word} {s s1 : State} {o : Issue} {x : Access1} {v : PVal}

/-- With its checks passed, WAIT turns on whether its object has reached what is waited for. -/
theorem exec_wait (h : prepare (.wait d a b lit) s = .ok (o, s1)) (hw : Watches o s1 x v) :
    exec (.wait d a b lit) s = .next (conclude (.wait d a b lit) s1 (some o)
      (if (o.watched s1 x.ea).reached x.ea x.key v.v.toNat then o.single (o.waitOver (o.watched s1 x.ea) x.ea)
        else .wait (o.waitOn (o.watched s1 x.ea) x.ea v.v.toNat))) := by
  obtain ⟨hactive, hobject, hvalue, hclean, hbarrier, hcounter, hheld, hbound⟩ := hw
  obtain ⟨l, ls, hlanes⟩ := List.exists_cons_of_ne_nil hactive
  rw [hlanes, List.headD_cons] at hobject hvalue
  refine (issue_next _ h).trans (congrArg (fun r => Host.Outcome.next (conclude _ s1 (some o) r)) ?_)
  cases hsp : isScratch x.ea
  case true =>
    obtain ⟨howner, hsmall, hgood⟩ := hbarrier hsp
    have hwatched : o.watched s1 x.ea = s1 := if_pos hsp
    rw [hwatched]
    rw [if_pos hsp] at hvalue
    subst hvalue
    rw [hsp, if_pos rfl] at hheld
    simp only [hlanes, hobject, hsp, howner, hclean, hheld, hbound, hgood, Nat.div_eq_of_lt hsmall, bne_self_eq_false, Bool.and_false, Bool.not_true,
      Bool.false_and, Bool.or_self, Bool.false_eq_true, if_false, if_true, Issue.waitOn, Issue.waitFor]
    rfl
  case false =>
    obtain ⟨heven, hpoison, hidle⟩ := hcounter hsp
    have hodd : ((regKind o.rd = .frame || regKind o.rd = .uni) && decide (o.rd.toNat % 2 = 1)) = false := by
      by_cases hkind : regKind o.rd = .frame ∨ regKind o.rd = .uni
      · simp [heven hkind]
      · simp [not_or.1 hkind]
    have hwatched : o.watched s1 x.ea = _ := if_neg (by rw [hsp]; exact Bool.false_ne_true)
    rw [hwatched] at hpoison hidle ⊢
    rw [hsp, if_neg Bool.false_ne_true] at hheld hvalue
    subst hvalue
    simp only [hlanes, hobject, hsp, hclean, hheld, hbound, hodd, Bool.and_false, Bool.not_false, Bool.true_and,
      Bool.false_and, Bool.or_self, Bool.false_eq_true, if_false, Issue.waitOn, Issue.waitFor]
    generalize (s1.flushRange o.t.id.tile o.t.id.ctx o.t.id.uid s1.now x.ea (x.ea + 8) true).2 = w at hpoison hidle ⊢
    have hclear : (!w.lineHeld x.key && w.mem.anyPoison x.key 8) = false := by
      rcases hpoison with hp | hp <;> simp [hp]
    have hnone : (w.net.any fun y => y.uid == o.t.id.uid && y.pa / 64 == x.key / 64) = false := by
      simpa using hidle
    simp only [hclear, hnone, Bool.false_eq_true, if_false]
    rfl

/-- The object has reached its phase or target. -/
theorem wait_reached (h : prepare (.wait d a b lit) s = .ok (o, s1)) (hw : Watches o s1 x v)
    (hreached : (o.watched s1 x.ea).reached x.ea x.key v.v.toNat = true) : ∃ u t, exec (.wait d a b lit) s = .next t ∧
      (Quiet { s1 with cur := { s1.cur with wait := none } } u ∧
        ∀ l ∈ u.mem.lines, l.tile = o.t.id.tile → l.ctx = o.t.id.ctx → inRegions (o.waitRegions (o.watched s1 x.ea) x.ea) l = false) ∧
      Completes o u t := by
  have hexec := exec_wait h hw
  rw [if_pos hreached] at hexec
  refine ⟨_, _, hexec, ⟨?quiet, ?dropped⟩, finish_completes o _ _ ⟨rfl, rfl, rfl⟩ rfl⟩
  case quiet =>
    have hacquired : Quiet s1 ((o.watched s1 x.ea).acquire o.t.id.tile o.t.id.ctx o.t.id.uid (o.waitRegions (o.watched s1 x.ea) x.ea)) :=
      (watch_cleans o s1 x.ea).quiet.trans (cleans_cleanLines ..).quiet
    unfold Issue.waitOver
    generalize (o.watched s1 x.ea).acquire _ _ _ _ = u at hacquired
    refine ⟨?_⟩
    rw [hacquired.rest]
  case dropped =>
    intro l hl htile hctx
    have hgone : ((l.tile == o.t.id.tile && l.ctx == o.t.id.ctx && inRegions (o.waitRegions (o.watched s1 x.ea) x.ea) l) && true) = false :=
      cleanLines_gone _ _ _ _ _ l hl
    simpa [htile, hctx] using hgone

/-- The object has not: the team is suspended at the instruction. -/
theorem wait_suspends (h : prepare (.wait d a b lit) s = .ok (o, s1)) (hw : Watches o s1 x v)
    (hreached : (o.watched s1 x.ea).reached x.ea x.key v.v.toNat = false) : ∃ t w, exec (.wait d a b lit) s = .next t ∧ t.cur.status = .waiting ∧
      t.cur.wait = some w ∧ w.pc = o.g.pc ∧ w.ea = x.ea ∧ w.target = v.v.toNat ∧ w.since = o.waitSince s1 ∧
      w.regions = o.waitRegions (o.watched s1 x.ea) x.ea ∧ t.cur = { s1.cur with status := .waiting, wait := t.cur.wait, sched := t.cur.sched } ∧
      Quiet { s1 with cur := t.cur } t := by
  have hexec := exec_wait h hw
  rw [hreached, if_neg Bool.false_ne_true] at hexec
  have hquiet := (watch_cleans o s1 x.ea).quiet
  have hsince : o.waitSince (o.watched s1 x.ea) = o.waitSince s1 := by
    unfold Issue.waitSince
    rw [hquiet.rest]
  refine ⟨o.waitOn (o.watched s1 x.ea) x.ea v.v.toNat, o.waitFor (o.watched s1 x.ea) x.ea v.v.toNat, hexec, rfl, rfl, rfl, rfl, rfl, hsince, rfl, ?team, ⟨?rest⟩⟩
  case team =>
    unfold Issue.waitOn
    generalize o.waitFor _ _ _ = k
    generalize o.watched s1 x.ea = u at hquiet
    rw [hquiet.rest]
  case rest =>
    unfold Issue.waitOn
    generalize o.waitFor _ _ _ = k
    generalize o.watched s1 x.ea = u at hquiet
    rw [hquiet.rest]

end

end Sys2Proof.Machine

open Sys2Proof Sys2Proof.Machine

/-- Settles O29: past their checks both read each object at its ordering point for a result that pends; ACQ also acquires. -/
theorem objectReads : Obligations.ObjectReads :=
  ⟨fun _ _ _ _ _ _ hf _ _ _ _ h hp => acq_reads hf h hp, fun _ _ _ _ _ _ hf _ _ _ _ h hp => cread_reads hf h hp⟩

/-- Settles O32: a near scope is done at once, a wide one begins with write-backs and ends with the lines that no region binds dropped. -/
theorem fences : Obligations.Fences :=
  ⟨fun _ _ _ _ h hmet hsc => fence_near h hmet hsc,
    fun _ _ _ _ h hmet hsc => ⟨fence_begins h hmet hsc, fun _ hfence hwaits => fence_ends h hmet hsc hfence hwaits⟩⟩

/-- Settles O46: past its checks WAIT turns on whether its object has reached what is waited for. -/
theorem waitInstruction : Obligations.WaitInstruction :=
  fun _ _ _ _ _ _ _ _ _ h hw => ⟨wait_reached h hw, wait_suspends h hw⟩

end

section
/-! PROOFS. Instructions with an effect of their own: batches and STALLRD (O38), queues and GROW (O39), BIND and UNBIND (O40). -/

namespace Sys2Proof.Machine

section
variable {s s1 : State} {o : Issue}

/-! ### Batches and stall counters -/

/-- A tag that BSEAL and BWAIT accept (R414). -/
theorem withTag_of_legal {k : Nat → Res} (hclean : (o.a 0).p = false) (htag : o.tag ≤ 15) : o.withTag k = k o.tag := by
  have hsmall : ¬ 15 < (o.a 0).v.toNat % 2 ^ 32 := Nat.not_lt.2 htag
  simp only [Issue.withTag, hclean, if_neg hsmall, Bool.false_eq_true, if_false]
  rfl

theorem bseal_seals {a : Reg} {lit : Word} (h : prepare (.bseal a lit) s = .ok (o, s1)) (hclean : (o.a 0).p = false) (htag : o.tag ≤ 15)
    (hfree : (s1.cur.tags.find? fun x => x.1 == o.tag) = none) :
    ∃ u t, exec (.bseal a lit) s = .next t ∧ (u = { s1 with cur := { s1.cur with
      tags := (o.tag, s1.cur.openBatch) :: s1.cur.tags, openBatch := [], batchLog := ⟨s1.now, o.tag, true, s1.cur.openBatch⟩ :: s1.cur.batchLog } }) ∧
      Completes o u t := by
  have hnone : (s1.cur.tags.any fun x => x.1 == o.tag) = false := by
    rw [List.any_eq_false]
    exact fun x hx => List.find?_eq_none.1 hfree x hx
  refine issue_single h (P := fun u => u = _) ?_ rfl
  simp only [withTag_of_legal hclean htag, hnone, Bool.false_eq_true, if_false]

/-- BWAIT of a tag that counts no copy frees it; of a free tag it changes nothing. -/
theorem bwait_frees {a : Reg} {lit : Word} (h : prepare (.bwait a lit) s = .ok (o, s1)) (hclean : (o.a 0).p = false) (htag : o.tag ≤ 15)
    (hempty : ∀ x, (s1.cur.tags.find? fun x => x.1 == o.tag) = some x → x.2 = []) :
    ∃ u t, exec (.bwait a lit) s = .next t ∧ (u.cur.tags = s1.cur.tags.filter (fun x => x.1 != o.tag) ∧
      u = { s1 with cur := { s1.cur with tags := u.cur.tags, batchLog := u.cur.batchLog } }) ∧ Completes o u t := by
  cases hfind : s1.cur.tags.find? fun x => x.1 == o.tag with
  | none =>
    have hall : s1.cur.tags.filter (fun x => x.1 != o.tag) = s1.cur.tags := by
      rw [List.filter_eq_self]
      intro x hx
      simpa using List.find?_eq_none.1 hfind x hx
    refine issue_single h (u := s1) ?_ ⟨hall.symm, rfl⟩
    simp only [withTag_of_legal hclean htag, hfind]
  | some x =>
    obtain ⟨k, copies⟩ := x
    obtain rfl : copies = [] := hempty _ hfind
    refine issue_single h (u := { s1 with cur := { s1.cur with
      tags := s1.cur.tags.filter (fun x => x.1 != o.tag), batchLog := ⟨s1.now, o.tag, false, []⟩ :: s1.cur.batchLog } }) ?_ ⟨rfl, rfl⟩
    simp only [withTag_of_legal hclean htag, hfind]

/-- An instruction that gives one value in d of every active lane. -/
theorem issue_gives {i : Instr} {body : Issue → State → Res} {v : PVal} (h : prepare i s = .ok (o, s1)) (hwrites : (shape i s.cur.arch.mode 1).d.writes = true)
    (hport : (shape i s.cur.arch.mode 1).d.port = false) (hb : body o s1 = o.single (o.commit s1 (o.toAll v))) :
    ∃ u t, issue i body s = .next t ∧ Gives o s1 u v ∧ Completes o u t :=
  issue_single h hb (gives_commit (act_nodup h) (no_port (prepared h) hwrites hport) s1 v)

theorem stallrd_gives {d a : Reg} {lit : Word} {top : Nat} (h : prepare (.stallrd d a lit) s = .ok (o, s1)) (hact : o.act ≠ []) (hclean : (o.a 0).p = false)
    (hsmall : (o.a 0).v.toNat % 2 ^ 32 < 2 ^ 16) (htop : stallTop (bits ((o.a 0).v.toNat % 2 ^ 32) 15 8) = some top)
    (hindex : bits ((o.a 0).v.toNat % 2 ^ 32) 7 0 ≤ top) :
    let sel := (o.a 0).v.toNat % 2 ^ 32
    ∃ u t, exec (.stallrd d a lit) s = .next t ∧
      Gives o s1 u ⟨if s1.allTeams.any (fun t => (if bits sel 15 8 = 5 then t.id.tile / 8 == o.t.id.tile / 8 else t.id.tile == o.t.id.tile) && t.id.ctx != o.t.id.ctx)
        then BitVec.allOnes 64 else BitVec.ofNat 64 (s1.stallCount (counterKey o.t (bits sel 15 8) (bits sel 7 0))), false⟩ ∧ Completes o u t := by
  obtain ⟨l, ls, hlanes⟩ := List.exists_cons_of_ne_nil hact
  refine issue_gives h rfl rfl ?_
  have hsel : ((o.a 0).v.toNat % 2 ^ 32 / 2 ^ 16 != 0) = false := by rw [Nat.div_eq_of_lt hsmall]; rfl
  simp only [hlanes, hclean, htop, hsel, Nat.not_lt.2 hindex, decide_false, Bool.or_self, Bool.false_eq_true, if_false]

/-! ### Queues and GROW -/

/-- A list of lanes that is not empty begins with its first lane. -/
theorem lanes_cons (h : o.lanes ≠ []) : ∃ ls, o.lanes = o.lanes.headD 0 :: ls := by
  obtain ⟨l, ls, hlanes⟩ := List.exists_cons_of_ne_nil h
  exact ⟨ls, by rw [hlanes]; rfl⟩

theorem qmap_maps {d a : Reg} {lit : Word} (h : prepare (.qmap d a lit) s = .ok (o, s1)) (hlanes : o.lanes ≠ []) (hclean : (o.a (o.lanes.headD 0)).p = false)
    (hok : s1.handleOk o.t.id.ctx ((o.a (o.lanes.headD 0)).v.extractLsb' 0 32) = true) (hfree : s1.cur.portBusy (portOfReg d) = false) :
    ∃ u t, exec (.qmap d a lit) s = .next t ∧
      (u = { s1 with cur := s1.cur.setArch fun r => { r with ports := r.ports.set (portOfReg d) (some ((o.a (o.lanes.headD 0)).v.extractLsb' 0 32)) } }) ∧
      Completes o u t := by
  obtain ⟨ls, hcons⟩ := lanes_cons hlanes
  refine issue_single h (P := fun u => u = _) ?_ rfl
  dsimp only
  rw [hcons]
  simp only [hclean, hok, hfree, Bool.not_true, Bool.false_eq_true, if_false]
  rfl

theorem qunmap_unmaps {d : Reg} {lit : Word} (h : prepare (.qunmap d lit) s = .ok (o, s1)) (hlanes : o.lanes ≠ []) (hfree : s1.cur.portBusy (portOfReg d) = false) :
    ∃ u t, exec (.qunmap d lit) s = .next t ∧ (u = { s1 with cur := s1.cur.setArch fun r => { r with ports := r.ports.set (portOfReg d) none } }) ∧
      Completes o u t := by
  refine issue_single h (P := fun u => u = _) ?_ rfl
  simp only [isEmpty_of_ne hlanes, hfree, Bool.false_eq_true, if_false]
  rfl

/-- A port whose QNOTIFY has no cause to trap maps to a handle (R436). -/
theorem handle_of_notifyCause {t : Team} {p : Nat} (h : s.notifyCause t p = none) : ∃ hd, t.arch.ports.getD p none = some hd := by
  unfold State.notifyCause at h
  split at h
  · cases h
  next hd hport => exact ⟨hd, hport⟩

theorem qnotify_holds {d : Reg} {lit : Word} (h : prepare (.qnotify d lit) s = .ok (o, s1)) (hlanes : o.lanes ≠ [])
    (hcause : s1.notifyCause s1.cur (portOfReg d) = none) (hroom : o.room s1 3 = true) :
    ∃ u t, exec (.qnotify d lit) s = .next t ∧
      (∃ hd, o.t.arch.ports.getD (portOfReg d) none = some hd ∧ Requests o s1 u ⟨3, fun _ => .notify hd, none⟩) ∧ Completes o u t := by
  obtain ⟨hd, hport⟩ := handle_of_notifyCause hcause
  rw [← (prepared h).team] at hport
  refine issue_single h (u := o.hold s1 3 (.notify hd)) ?_ ⟨hd, hport, requests_hold (Fills.refl s1) 3 (.notify hd)⟩
  simp only [isEmpty_of_ne hlanes, hcause, hroom, hport, Bool.not_true, Bool.false_eq_true, if_false]

theorem grow_holds {d a : Reg} {lit : Word} (h : prepare (.grow d a lit) s = .ok (o, s1)) (hlanes : o.lanes ≠ []) (hclean : (o.a (o.lanes.headD 0)).p = false)
    (hsome : (o.a (o.lanes.headD 0)).v.toNat % 2 ^ 32 ≠ 0) (hroom : o.room s1 3 = true) :
    ∃ u t, exec (.grow d a lit) s = .next t ∧
      Requests o s1 u ⟨3, fun pid => .grow pid ((o.a (o.lanes.headD 0)).v.toNat % 2 ^ 32), some (o.destsAll 1)⟩ ∧ Completes o u t := by
  obtain ⟨ls, hcons⟩ := lanes_cons hlanes
  refine issue_single h ?_ (requests_pendQ (prepared_uid h) 3 (fun pid => .grow pid ((o.a (o.lanes.headD 0)).v.toNat % 2 ^ 32)) (o.destsAll 1) false true)
  dsimp only
  rw [hcons]
  simp only [hclean, if_neg hsome, hroom, Bool.not_true, Bool.false_eq_true, if_false, List.headD_cons]

/-! ### BIND and UNBIND -/

theorem bind_holds {a b : Reg} {lit : Word} (h : prepare (.bind a b lit) s = .ok (o, s1)) (hlanes : o.lanes ≠ [])
    (hquad : ∀ w ∈ readRegs o.t (o.lanes.headD 0) o.ra 4, w.p = false) (hclean : (o.b (o.lanes.headD 0)).p = false)
    (hbase : o.quadPair 0 % 4096 = 0) (hobject : o.quadPair 2 % 8 = 0) (hmin : 1 ≤ (o.b (o.lanes.headD 0)).v.toNat % 2 ^ 32)
    (hmax : (o.b (o.lanes.headD 0)).v.toNat % 2 ^ 32 ≤ 2 ^ 28) (hregion : inTranslated (o.quadPair 0) (4096 * ((o.b (o.lanes.headD 0)).v.toNat % 2 ^ 32)) = true)
    (hplace : inTranslated (o.quadPair 2) 8 = true) (hroom : o.room s1 3 = true) :
    ∃ u t, exec (.bind a b lit) s = .next t ∧
      Requests o s1 u ⟨3, fun _ => .bind (o.quadPair 0) ((o.b (o.lanes.headD 0)).v.toNat % 2 ^ 32) (o.quadPair 2) (maskOf o.act), none⟩ ∧ Completes o u t := by
  obtain ⟨ls, hcons⟩ := lanes_cons hlanes
  have hnone : (readRegs o.t (o.lanes.headD 0) o.ra 4).any (·.p) = false := List.any_eq_false.2 fun w hw => Bool.eq_false_iff.1 (hquad w hw)
  have hpages : (decide ((o.b (o.lanes.headD 0)).v.toNat % 2 ^ 32 = 0) || decide (2 ^ 28 < (o.b (o.lanes.headD 0)).v.toNat % 2 ^ 32)) = false := by
    simp only [Bool.or_eq_false_iff, decide_eq_false_iff_not]
    omega
  refine issue_single h (u := o.hold s1 3 (.bind (o.quadPair 0) ((o.b (o.lanes.headD 0)).v.toNat % 2 ^ 32) (o.quadPair 2) (maskOf o.act))) ?_
    (requests_hold (Fills.refl s1) 3 _)
  dsimp only
  rw [hcons]
  simp only [Issue.quadPair] at hbase hobject hregion hplace ⊢
  simp only [hnone, hclean, hbase, hobject, hpages, hregion, hplace, hroom, bne_self_eq_false, Bool.not_true, Bool.or_self, Bool.false_eq_true, if_false,
    List.headD_cons]

theorem unbind_holds {a : Reg} {lit : Word} (h : prepare (.unbind a lit) s = .ok (o, s1)) (hlanes : o.lanes ≠ []) (hclean : (o.a (o.lanes.headD 0)).p = false)
    (hbase : (o.a (o.lanes.headD 0)).v.toNat % 4096 = 0) (hregion : inTranslated (o.a (o.lanes.headD 0)).v.toNat 4096 = true) (hroom : o.room s1 3 = true) :
    ∃ u t, exec (.unbind a lit) s = .next t ∧
      Requests o s1 u ⟨3, fun _ => .unbind (o.a (o.lanes.headD 0)).v.toNat (maskOf o.act), none⟩ ∧ Completes o u t := by
  obtain ⟨ls, hcons⟩ := lanes_cons hlanes
  refine issue_single h (u := o.hold s1 3 (.unbind (o.a (o.lanes.headD 0)).v.toNat (maskOf o.act))) ?_ (requests_hold (Fills.refl s1) 3 _)
  dsimp only
  rw [hcons]
  simp only [hclean, hbase, hregion, hroom, bne_self_eq_false, Bool.not_true, Bool.false_eq_true, if_false, List.headD_cons]

end

end Sys2Proof.Machine

open Sys2Proof Sys2Proof.Machine

/-- Settles O38: with a legal tag or selector nothing else stands between the issue and the effect. -/
theorem batchInstructions : Obligations.BatchInstructions := by
  intro i f hf s o s1 h hwhen
  cases i
  case bseal =>
    cases hf
    obtain ⟨hclean, htag, hfree⟩ := hwhen
    exact bseal_seals h hclean htag hfree
  case bwait =>
    cases hf
    obtain ⟨hclean, htag, hempty⟩ := hwhen
    exact bwait_frees h hclean htag hempty
  case stallrd =>
    cases hf
    obtain ⟨hact, hclean, hsmall, top, htop, hindex⟩ := hwhen
    exact stallrd_gives h hact hclean hsmall htop hindex
  all_goals cases hf

/-- Settles O39: past its checks each instruction has its effect at once, or holds it. -/
theorem queueInstructions : Obligations.QueueInstructions := by
  intro i f hf s o s1 h hwhen
  cases i
  case qmap =>
    cases hf
    obtain ⟨hlanes, hclean, hok, hfree⟩ := hwhen
    exact qmap_maps h hlanes hclean hok hfree
  case qunmap =>
    cases hf
    obtain ⟨hlanes, hfree⟩ := hwhen
    exact qunmap_unmaps h hlanes hfree
  case qstat =>
    cases hf
    exact issue_gives h rfl rfl rfl
  case qnotify =>
    cases hf
    obtain ⟨hlanes, hcause, hroom⟩ := hwhen
    exact qnotify_holds h hlanes hcause hroom
  case grow =>
    cases hf
    obtain ⟨hlanes, hclean, hsome, hroom⟩ := hwhen
    exact grow_holds h hlanes hclean hsome hroom
  all_goals cases hf

/-- Settles O40: past the checks of R332 both hold one request. -/
theorem bindingInstructions : Obligations.BindingInstructions := by
  intro i f hf s o s1 h hwhen
  cases i
  case bind =>
    cases hf
    obtain ⟨hlanes, hquad, hclean, hbase, hobject, hmin, hmax, hregion, hplace, hroom⟩ := hwhen
    exact bind_holds h hlanes hquad hclean hbase hobject hmin hmax hregion hplace hroom
  case unbind =>
    cases hf
    obtain ⟨hlanes, hclean, hbase, hregion, hroom⟩ := hwhen
    exact unbind_holds h hlanes hclean hbase hregion hroom
  all_goals cases hf

end

section
/-! PROOFS. Equivalence instructions as they issue: requests to the owner of the forest (O41), EQSET (O42). -/

namespace Sys2Proof.Machine

/-! ### Requests -/

section
variable {s s1 v : State} {o : Issue}

/-- A result with its marks pends until Q cycles have passed. -/
theorem pends_marked {t : State} (ho : o.t.id.uid = s.cur.id.uid) (ht : t = { s with draws := t.draws, serial := t.serial }) (rs : List LaneResult) {due : Nat}
    (hdue : s.now + Config.Q ≤ due) (f : Pend → Pend) (hf : ∀ p, f p = { p with bcast := (f p).bcast, hasCc := (f p).hasCc }) :
    let r := o.pend t rs due false false []
    let v := r.2.modPend o.t.id.uid r.1 f
    r.1 = s.nextId ∧ PendsAt o s v (rs.map LaneResult.place) Config.Q ∧
      v = { s with cur := { s.cur with pend := v.cur.pend }, draws := v.draws, serial := v.serial, nextId := v.nextId } := by
  rw [ht]
  simp only [Issue.pend, fresh, State.modPend, State.modTeam, ho, if_true]
  rw [modifyLast_append _ _ _ _ (by simp), hf]
  exact ⟨trivial, ⟨_, rfl, rfl, rfl, rfl, rfl, rfl, rfl, rfl, hdue⟩, trivial⟩

/-- What pends for a request: nothing, or its result. -/
def Issue.awaits (o : Issue) (s v : State) : Option (List LaneResult) → Prop
  | none => v.cur.pend = s.cur.pend
  | some rs => PendsAt o s v (rs.map LaneResult.place) Config.Q

/-- A request for the owner of a forest, from a state in which its result pends, if it has one (R339, R341). -/
theorem request_asks {results : Option (List LaneResult)} {pid : Option Nat} (kind fid : Nat) (block : List PWord) (lanes : List (Nat × PWord × PWord))
    (hpid : pid = if results.isSome then some s.nextId else none) (hpend : o.awaits s v results)
    (hv : v = { s with cur := { s.cur with pend := v.cur.pend }, draws := v.draws, serial := v.serial, nextId := v.nextId }) :
    Asks o s (o.request_ v kind fid pid block lanes) kind fid block lanes results := by
  rw [hv]
  refine ⟨⟨_, rfl, rfl, rfl, rfl, rfl, rfl, rfl, rfl, rfl, hpid, _, rfl, rfl, rfl, rfl, rfl⟩, ?pend, rfl⟩
  cases results <;> exact hpend

/-- UNITE, FIND and SAME: with elements of the forest in every lane and room for the walks, one request is held (R343, R347). -/
theorem walks_ask {kind : Nat} {x y : Issue → Nat → PVal} (ho : o.t.id.uid = s.cur.id.uid) (hwhen : (walkRule kind x y o s).when) :
    ∃ u, o.walks s kind (x o) (y o) = o.plain u ∧ (walkRule kind x y o s).effect u := by
  obtain ⟨f, hforest, hlanes, hoperands, hroom, hunits⟩ := hwhen
  have hclean : (o.lanes.filter fun l => (x o l).p || (y o l).p) = [] := by
    rw [List.filter_eq_nil_iff]
    intro l hl
    obtain ⟨hx, hy, -, -⟩ := hoperands l hl
    simp [hx, hy]
  have hinside : (o.lanes.filter fun l => decide (f.count ≤ (x o l).v.toNat % 2 ^ 32) || decide (f.count ≤ (y o l).v.toNat % 2 ^ 32)) = [] := by
    rw [List.filter_eq_nil_iff]
    intro l hl
    obtain ⟨-, -, hx, hy⟩ := hoperands l hl
    simp only [Bool.or_eq_true, decide_eq_true_eq, not_or, Nat.not_le]
    exact ⟨hx, hy⟩
  have hwalks : (s.walksOf f.engine != 0 && decide (256 < s.walksOf f.engine + o.lanes.length)) = false := by
    rcases hroom with hroom | hroom
    · simp [hroom]
    · simp [Nat.not_lt.2 hroom]
  have hdrawn := draw_next s
  have hnow : (draw s).2.now = s.now := by rw [hdrawn]
  obtain ⟨hid, hpend, hrest⟩ := pends_marked (o := o) (due := max ((draw s).2.now + Config.Q) ((draw s).2.now + 1 + (draw s).1)) ho hdrawn (o.atomDests o.lanes 1)
    (by rw [hnow]; exact Nat.le_max_left ..) (fun p => { p with bcast := o.uniform, hasCc := kind == 0 }) fun _ => rfl
  refine ⟨_, ?body, f, hforest, request_asks kind f.fid [] _ (results := some (o.atomDests o.lanes 1)) (congrArg some hid) hpend hrest⟩
  unfold Issue.walks
  simp only [hforest, hclean, hinside, hwalks, hunits, isEmpty_of_ne hlanes, List.isEmpty_nil, Bool.not_true, Bool.false_eq_true, if_false]
  rfl

/-- A result for the team as a whole, which it awaits before it issues again, pends. -/
theorem pends_forAll (ho : o.t.id.uid = s.cur.id.uid) :
    let r := o.pend s (o.destsAll 1) (s.now + Config.Q) false false []
    let v := r.2.modPend o.t.id.uid r.1 fun p => { p with bcast := true }
    r.1 = s.nextId ∧ PendsAt o s v ((o.destsAll 1).map LaneResult.place) Config.Q ∧
      v = { s with cur := { s.cur with pend := v.cur.pend }, draws := v.draws, serial := v.serial, nextId := v.nextId } :=
  pends_marked ho rfl (o.destsAll 1) (Nat.le_refl _) (fun p => { p with bcast := true }) fun _ => rfl

/-- EQSNAP, EQUNDO and EQDROP hold one request each (R356). -/
theorem mark_asks {kind : Nat} (ho : o.t.id.uid = s.cur.id.uid) (hwhen : (markRule kind o s).when) :
    ∃ u, o.mark s kind = o.single u ∧ (markRule kind o s).effect u := by
  obtain ⟨hlanes, ⟨f, hforest⟩, hunits⟩ := hwhen
  obtain ⟨hid, hpend, hrest⟩ := pends_forAll ho
  refine ⟨_, ?body, f, hforest, request_asks kind f.fid [] [] (results := some (o.destsAll 1)) (congrArg some hid) hpend hrest⟩
  unfold Issue.mark
  simp only [hforest, hunits, isEmpty_of_ne hlanes, Bool.not_true, Bool.false_eq_true, if_false]

/-! ### RELABEL, EQSIZE and EQFENCE -/

/-- The address of the counter that a relabel record names (Table 16-8). -/
def relabelCounter (r : List Word) : Nat := (r.getD 6 0).toNat + (r.getD 7 0).toNat % 2 ^ 16 * 2 ^ 32

theorem relabel_asks {a : Reg} {lit : Word} {f : Forest} {block : List PWord} (h : prepare (.relabel a lit) s = .ok (o, s1))
    (hblock : readRegs o.t (o.lanes.headD 0) o.ra 8 = block) (hlanes : o.lanes ≠ []) (hforest : s1.currentForest o.t = some f)
    (hclean : ∀ w ∈ block, w.p = false) (hlegal : relabelBad (block.map (·.w)) = false) (haligned : relabelCounter (block.map (·.w)) % 8 = 0)
    (htranslated : isScratch (relabelCounter (block.map (·.w))) = false) (hunits : o.room s1 3 = true) :
    ∃ u t, exec (.relabel a lit) s = .next t ∧ (∃ f, s1.currentForest o.t = some f ∧ Asks o s1 u 3 f.fid block [(o.lanes.headD 0, PWord.zero, PWord.zero)] none) ∧
      Completes o u t := by
  obtain ⟨ls, hcons⟩ := lanes_cons hlanes
  have hnone : block.any (·.p) = false := List.any_eq_false.2 fun w hw => Bool.eq_false_iff.1 (hclean w hw)
  unfold relabelCounter at haligned htranslated
  refine issue_single h ?_ ⟨f, hforest, request_asks (v := s1) 3 f.fid _ _ (pid := none) (results := none) rfl rfl rfl⟩
  dsimp only
  rw [hforest, hcons]
  simp only [hblock, hnone, hlegal, haligned, htranslated, hunits, bne_self_eq_false, Bool.or_self, Bool.not_true, Bool.false_eq_true, if_false, List.headD_cons]

/-- The read of a class-size register as it goes to the forest's owner (R352). -/
def Issue.sizeRequest (o : Issue) (v : State) (fid pid k : Nat) (lit : Word) : EqReq :=
  ⟨v.nextId, 7, fid, o.t.id.uid, o.t.id.tile, o.t.id.side, o.t.id.ctx, o.g.pc, o.word, v.now, some pid, [⟨lit, false⟩], [], some (v.now + 1 + k), 0, [], 0, [], false⟩

theorem eqsize_asks {d : Reg} {lit : Word} {f : Forest} (h : prepare (.eqsize d lit) s = .ok (o, s1)) (hlanes : o.lanes ≠ []) (hforest : s1.currentForest o.t = some f) :
    ∃ u t, exec (.eqsize d lit) s = .next t ∧ (∃ f, s1.currentForest o.t = some f ∧ AsksSize o s1 u f.fid lit) ∧ Completes o u t := by
  obtain ⟨hid, hpend, hrest⟩ := pends_forAll (prepared_uid h)
  generalize hr : o.pend s1 (o.destsAll 1) (s1.now + Config.Q) false false [] = r at hid hpend hrest
  generalize hv : r.2.modPend o.t.id.uid r.1 (fun p => { p with bcast := true }) = v at hpend hrest
  have hnow : (draw v).2.now = s1.now := by rw [draw_next, hrest]
  refine issue_single h (u := { (draw v).2 with
    eq := { (draw v).2.eq with reqs := (draw v).2.eq.reqs ++ [o.sizeRequest (draw v).2 f.fid r.1 (draw v).1 lit] }, nextId := (draw v).2.nextId + 1 }) ?body
    ⟨f, hforest, ⟨o.sizeRequest (draw v).2 f.fid r.1 (draw v).1 lit, ?eq, rfl, rfl, rfl, hnow, rfl, congrArg some hid, _, rfl, ?time⟩, ?pend, ?rest⟩
  case body =>
    simp only [hforest, isEmpty_of_ne hlanes, hr, hv, Bool.false_eq_true, if_false]
    rfl
  case eq => rw [draw_next, hrest]
  case time =>
    rw [hnow]
    omega
  case pend => rw [draw_next]; exact hpend
  case rest => rw [draw_next, hrest]

/-- EQFENCE completes once what it waits for has come (R353). -/
theorem eqfence_ends {f : Forest} {rids : List Nat} (h : prepare .eqfence s = .ok (o, s1)) (hforest : s1.currentForest o.t = some f)
    (hpend : ∀ p ∈ o.t.pend, (opcode p.word).toNat / 16 ≠ 0x50) (hheld : ∀ e ∈ s1.coolbox, e.uid = o.t.id.uid → ∀ rid, e.eff ≠ .forest rid)
    (hfence : o.t.fence = some (0 :: rids)) (hbusy : s1.eqBusy (rids.filter (· != 0)) = false) (hwaits : s1.waitsFor (0 :: rids) = false) :
    ∃ u t, exec .eqfence s = .next t ∧ (u = { s1 with cur := { s1.cur with fence := none } }) ∧ Completes o u t := by
  have hdone : (o.t.pend.any fun p => decide ((opcode p.word).toNat / 16 = 0x50)) = false :=
    List.any_eq_false.2 fun p hp => by simpa using hpend p hp
  refine issue_single h (P := fun u => u = _) ?_ rfl
  simp only [hforest, hdone, hfence, Bool.false_or]
  rw [if_neg ?held]
  case held =>
    intro hany
    obtain ⟨e, he, hmatch⟩ := List.any_eq_true.1 hany
    obtain ⟨huid, heff⟩ := Bool.and_eq_true_iff.1 hmatch
    split at heff
    next rid hforest => exact hheld e he (beq_iff_eq.1 huid) rid hforest
    next => cases heff
  have hfilter : ((0 :: rids).filter (· != 0)) = rids.filter (· != 0) := rfl
  simp only [hfilter, hbusy, hwaits, Bool.or_self, Bool.false_eq_true, if_false]

end

/-! ### EQSET -/

/-- A descriptor that is read keeps the number and the place that it is read for (Table 16-1). -/
theorem parseForest_names {bs : List Byte} {fid engine ctx va key : Nat} {f : Forest} (h : parseForest bs fid engine ctx va key = some f) :
    f.fid = fid ∧ f.engine = engine := by
  unfold parseForest at h
  dsimp only at h
  split at h
  · cases h
    exact ⟨rfl, rfl⟩
  · cases h

section
variable {a : Reg} {lit : Word} {s s1 : State} {o : Issue} {x : Access1} (h : prepare (.eqset a lit) s = .ok (o, s1)) (hx : o.descriptorAt s1 x)
  (hspace : isScratch x.ea = false)
include h hx hspace

theorem eqset_keeps {f : Forest} (hforest : s1.currentForest o.t = some f) (hkey : f.key = x.key) :
    ∃ t, exec (.eqset a lit) s = .next t ∧ Completes o s1 t := by
  unfold Issue.descriptorAt at hx
  exact issue_completes h (by
    simp only [hx, hspace, hforest, hkey, Option.map_some, beq_self_eq_true, Bool.false_eq_true, if_false, if_true]
    rfl) ⟨rfl, rfl, rfl⟩ rfl

section
variable (hother : ∀ f, s1.currentForest o.t = some f → f.key ≠ x.key)
include hother

omit h hx hspace in
theorem current_ne : (((s1.currentForest o.t).map (·.key)) == some x.key) = false := by
  cases hforest : s1.currentForest o.t with
  | none => rfl
  | some f => simpa using hother f hforest

theorem eqset_selects {f : Forest} (hsome : s1.forestState x.key ≠ 0) (hengine : s1.forestState x.key ≤ 64)
    (hlive : s1.eq.forests.find? (fun f => f.key == x.key && f.engine + 1 == s1.forestState x.key) = some f) (hstays : s1.leavingForest f = false) :
    ∃ u t, exec (.eqset a lit) s = .next t ∧ Selects s1 u f.fid ∧ Completes o u t := by
  have hne := current_ne hother
  unfold Issue.descriptorAt at hx
  refine issue_single h ?_ rfl
  simp only [hx, hspace, hne, hlive, Option.any_some, hstays, if_neg hsome, if_neg (Nat.not_lt.2 hengine), Bool.false_eq_true, if_false]

/-- No engine has a forest whose descriptor's state is 0. -/
theorem eqset_takes {f : Forest} (hnone : s1.forestState x.key = 0)
    (hparse : parseForest (s1.mem.read x.key 64) s1.nextId (o.t.id.tile / 8) o.t.id.ctx x.ea x.key = some f)
    (hlegal : s1.forestLegal o.t.id.tile o.t.id.ctx f = true) (hroom : (s1.eq.forests.filter (·.engine == o.t.id.tile / 8)).length < 8) :
    ∃ u t h, exec (.eqset a lit) s = .next t ∧ h.rid = 0 ∧ h.engine = f.engine ∧ h.va = f.va + 48 ∧ h.pa = f.key + 48 ∧ h.n = 4 ∧
      h.v = o.t.id.tile / 8 + 1 ∧ h.p = false ∧ h.result = false ∧ h.formed = s1.now ∧
      Selects { s1 with eq := { s1.eq with forests := s1.eq.forests ++ [f], holds := s1.eq.holds ++ [h] }, nextId := u.nextId } u f.fid ∧ Completes o u t := by
  have hne := current_ne hother
  obtain ⟨hfid, -⟩ := parseForest_names hparse
  have hdead : (s1.eq.forests.find? fun f => f.key == x.key && f.engine + 1 == 0) = none := by simp
  unfold Issue.descriptorAt at hx
  let v : State := { s1 with eq := { s1.eq with forests := s1.eq.forests ++ [f] }, nextId := s1.nextId + 1 }
  let w := v.eqHold f 0 0 (f.va + 48) (f.key + 48) 4 (o.t.id.tile / 8 + 1) false false
  refine ⟨{ w with cur := w.cur.setArch fun r => { r with forest := some f.fid } }, _,
    ⟨v.nextId, f.engine, 0, 0, s1.now, f.va + 48, f.key + 48, 4, o.t.id.tile / 8 + 1, false, false, (v.forest? f.fid).getD f⟩, issue_done h (e := ⟨[], [], 1, none, o.sh.implicit, false, false, 0⟩) ?body,
    rfl, rfl, rfl, rfl, rfl, rfl, rfl, rfl, rfl, rfl, finish_completes o _ _ ⟨rfl, rfl, rfl⟩ rfl⟩
  case body =>
    simp only [hx, hspace, hne, hnone, hdead, hparse, hlegal, if_neg (Nat.not_le.2 hroom), Option.any_none, Bool.not_true, Bool.false_eq_true, if_false, if_true]
    rw [hfid]
    rfl

end
end

end Sys2Proof.Machine

open Sys2Proof Sys2Proof.Machine

/-- Settles O41: past its checks each instruction makes the request of its rule; EQFENCE makes none and waits. -/
theorem equivalenceInstructions : Obligations.EquivalenceInstructions := by
  intro i f hf s o s1 h hwhen
  cases i
  case unite | find | same =>
    cases hf
    obtain ⟨u, hbody, heffect⟩ := walks_ask (prepared_uid h) hwhen
    exact issue_plain h hbody heffect
  case eqsnap | equndo | eqdrop =>
    cases hf
    obtain ⟨u, hbody, heffect⟩ := mark_asks (prepared_uid h) hwhen
    exact issue_single h hbody heffect
  case relabel =>
    cases hf
    obtain ⟨hlanes, ⟨f, hforest⟩, hclean, hlegal, haligned, htranslated, hunits⟩ := hwhen
    exact relabel_asks h rfl hlanes hforest hclean hlegal haligned htranslated hunits
  case eqsize =>
    cases hf
    obtain ⟨hlanes, f, hforest⟩ := hwhen
    exact eqsize_asks h hlanes hforest
  case eqfence =>
    cases hf
    obtain ⟨f, rids, hforest, hpend, hheld, hfence, hbusy, hwaits⟩ := hwhen
    exact eqfence_ends h hforest hpend hheld hfence hbusy hwaits
  all_goals cases hf

/-- Settles O42: the descriptor's key and state decide which of the three branches of EQSET is taken. -/
theorem eqsetSelectsForests : Obligations.EqsetSelectsForests :=
  fun _ _ _ _ _ _ h hx hspace => ⟨fun _ hforest hkey => eqset_keeps h hx hspace hforest hkey, fun hother =>
    ⟨fun _ hsome hengine hlive hstays => eqset_selects h hx hspace hother hsome hengine hlive hstays,
      fun _ hnone hparse hlegal hroom => eqset_takes h hx hspace hother hnone hparse hlegal hroom⟩⟩

end

section
/-! PROOFS. The events of the equivalence engines (O52). -/

namespace Sys2Proof.Machine

section
variable {s : State} {id : Nat} {P : State → Prop}

/-- An outcome of which the promise speaks keeps it. -/
theorem next_keeps {u : State} {Q : State → Prop} (h : some Q = some P) (hu : Q u) : ∃ t, (Host.Outcome.next u : Host.Outcome State Fault Refusal) = .next t ∧ P t := by
  cases h
  exact ⟨u, rfl, hu⟩

/-! ### Steps of walks (Table 16-4) -/

theorem parentRead_keeps (h : forestPromise (.parentRead id) s = some P) : ∃ t, exec (.parentRead id) s = .next t ∧ P t := by
  show ∃ t, execParentRead id s = .next t ∧ P t
  unfold forestPromise at h
  unfold execParentRead
  rcases hwalk : s.walk? id with _ | w <;> simp only [hwalk] at h ⊢
  case none => exact next_keeps h rfl
  rcases hstep : s.stepping w with _ | ⟨r, f⟩ <;> cases hstage : w.stage <;> simp only [hstage, hstep] at h ⊢
  case some.find second y path =>
    rcases hread : s.eqParent f id y with e | ⟨p, q⟩ <;> simp only [hread] at h ⊢
    case error => exact next_keeps h rfl
    case ok =>
      split at h
      next hroot =>
        rw [if_pos hroot]
        refine next_keeps h ?_
        split
        · exact found_finds ..
        · exact walkTo_goes ..
      next hroot =>
        rw [if_neg hroot]
        exact next_keeps h (walkTo_goes ..)
  all_goals exact next_keeps h rfl

theorem lowerStep_keeps (h : forestPromise (.lowerStep id) s = some P) : ∃ t, exec (.lowerStep id) s = .next t ∧ P t := by
  show ∃ t, execLowerStep id s = .next t ∧ P t
  unfold forestPromise at h
  unfold execLowerStep
  rcases hwalk : s.walk? id with _ | w <;> simp only [hwalk] at h ⊢
  case none => exact next_keeps h rfl
  rcases hstep : s.stepping w with _ | ⟨r, f⟩ <;> cases hstage : w.stage <;> simp only [hstage, hstep] at h ⊢
  case none.lower second path root => cases path <;> exact next_keeps h rfl
  case some.lower second path root =>
    cases path with
    | nil => cases h
    | cons z rest =>
      rcases hlow : s.lower f id w.rid id z root w.poison with e | ⟨q, v⟩ <;> simp only [hlow] at h ⊢
      case error => exact next_keeps h rfl
      case ok =>
        refine next_keeps h ⟨?_, lower_eq hlow⟩
        split
        · exact found_finds ..
        · exact walkTo_goes ..
  all_goals exact next_keeps h rfl

theorem linkStep_keeps (h : forestPromise (.linkStep id) s = some P) : ∃ t, exec (.linkStep id) s = .next t ∧ P t := by
  show ∃ t, execLinkStep id s = .next t ∧ P t
  unfold forestPromise at h
  unfold execLinkStep
  rcases hwalk : s.walk? id with _ | w <;> simp only [hwalk] at h ⊢
  case none => exact next_keeps h rfl
  rcases hstep : s.stepping w with _ | ⟨r, f⟩ <;> cases hstage : w.stage <;> simp only [hstage, hstep] at h ⊢
  case some.link =>
    rcases hlink : s.linkRoots f id w.rid id (max w.rx w.ry) (min w.rx w.ry) w.poison with e | ⟨_ | ⟨n, q⟩, v⟩ <;> simp only [hlink] at h ⊢
    case error => exact next_keeps h rfl
    case ok.none =>
      obtain rfl := linkRoots_none hlink
      exact next_keeps h ⟨rfl, walkTo_goes ..⟩
    case ok.some => exact next_keeps h ⟨walkTo_goes .., linkRoots_some hlink⟩
  all_goals exact next_keeps h rfl

theorem addStep_keeps (h : forestPromise (.addStep id) s = some P) : ∃ t, exec (.addStep id) s = .next t ∧ P t := by
  show ∃ t, execAddStep id s = .next t ∧ P t
  unfold forestPromise at h
  unfold execAddStep
  rcases hwalk : s.walk? id with _ | w <;> simp only [hwalk] at h ⊢
  case none => exact next_keeps h rfl
  rcases hstep : s.stepping w with _ | ⟨r, f⟩ <;> cases hstage : w.stage <;> simp only [hstage, hstep] at h ⊢
  case some.add x n =>
    rcases hadd : s.addSize f id w.rid id x n w.poison with e | ⟨_ | p, v⟩ <;> simp only [hadd] at h ⊢
    case error => exact next_keeps h rfl
    case ok.none => exact next_keeps h ⟨walkTo_goes .., (addSize_cases hadd).2 rfl⟩
    case ok.some =>
      obtain rfl := addSize_some hadd
      exact next_keeps h ⟨rfl, walkTo_goes ..⟩
  all_goals exact next_keeps h rfl

theorem sameStep_keeps (h : forestPromise (.sameStep id) s = some P) : ∃ t, exec (.sameStep id) s = .next t ∧ P t := by
  show ∃ t, execSameStep id s = .next t ∧ P t
  unfold forestPromise at h
  unfold execSameStep
  rcases hwalk : s.walk? id with _ | w <;> simp only [hwalk] at h ⊢
  case none => exact next_keeps h rfl
  rcases hstep : s.stepping w with _ | ⟨r, f⟩ <;> cases hstage : w.stage <;> simp only [hstage, hstep] at h ⊢
  case some.check =>
    rcases hx : s.eqParent f id w.rx with e | ⟨p, a⟩ <;> rcases hy : s.eqParent f id w.ry with e' | ⟨q, b⟩ <;> simp only [hx, hy] at h ⊢
    case ok.ok => exact next_keeps h (walkTo_goes ..)
    all_goals exact next_keeps h rfl
  all_goals exact next_keeps h rfl

/-! ### RELABEL and mark operations -/

theorem rid_of_req? {r : EqReq} (h : s.req? id = some r) : r.rid = id := by
  simpa using List.find?_some h

/-- The first step of a RELABEL: what it read and its order are kept with the request. -/
theorem relabel_begins (s : State) (rid n : Nat) (ys : List Layout) :
    ((s.unfetch rid).modReq rid fun r => { r with progress := 1 }).modReq rid (fun r => { r with layouts := ys, order := n }) =
      { s with eq := { s.eq with reqs := s.eq.reqs.map fun r => if r.rid = rid then { r with progress := 1, layouts := ys, order := n } else r }, fetched := s.fetched.filter (·.1 != rid) } := by
  unfold State.modReq State.unfetch
  simp only [map_beq (fun r : EqReq => r.rid), List.map_map]
  congr 2
  apply List.map_congr_left
  intro r _
  by_cases hr : r.rid = rid <;> simp [hr]

theorem relabelRun_keeps (h : forestPromise (.relabelRun id) s = some P) : ∃ t, exec (.relabelRun id) s = .next t ∧ P t := by
  show ∃ t, execRelabelRun id s = .next t ∧ P t
  unfold forestPromise at h
  unfold execRelabelRun
  rcases hreq : s.req? id with _ | r <;> simp only [hreq] at h ⊢
  case none => exact next_keeps h rfl
  rcases hact : s.acting r with _ | f <;> simp only [hact] at h ⊢
  case none => exact next_keeps h rfl
  split at h
  next hwait =>
    rw [if_pos hwait]
    exact next_keeps h rfl
  next hwait =>
  rw [if_neg hwait]
  split at h
  next hfirst =>
    rw [if_pos hfirst]
    rcases hread : s.relabelLayouts f r with e | ⟨d, vs⟩ <;> simp only [hread] at h ⊢
    case error => exact next_keeps h rfl
    case ok =>
      refine next_keeps h ⟨(draw s).1, ?_⟩
      rw [hfirst, relabel_begins, draw_next]
  next hfirst =>
  rw [if_neg hfirst]
  rcases hlay : r.layouts with _ | ⟨d, vs⟩ <;> simp only [hlay] at h ⊢
  case nil => exact next_keeps h rfl
  split at h
  next hpath =>
    rw [if_pos hpath]
    rcases hroot : s.rootOf f id r.progress (r.progress - 1) [] false with e | ⟨root, path, q⟩ <;> simp only [hroot] at h ⊢
    case error => exact next_keeps h rfl
    case ok =>
      rcases hcomp : s.compress f r root q path with e | v <;> simp only [hcomp] at h ⊢
      case error => exact next_keeps h rfl
      case ok => exact next_keeps h (modReq_goes ..)
  next hpath =>
  rw [if_neg hpath]
  split at h
  next hval =>
    rw [if_pos hval]
    rcases hroots : s.allRoots f id (List.range f.count) with e | roots <;> simp only [hroots] at h ⊢
    case error => exact next_keeps h rfl
    case ok =>
      split at h
      next hskip =>
        rw [if_pos hskip]
        exact next_keeps h (modReq_goes ..)
      next hskip =>
        rw [if_neg hskip]
        generalize hres : s.relabelResult f r vs.head? roots _ = res at h ⊢
        rcases res with e | ⟨n, p⟩ <;> dsimp only at h ⊢
        case error => exact next_keeps h rfl
        case ok =>
          generalize hput : s.eqPut f id r.progress _ d.bytes n p Need.w = w at h ⊢
          rcases w with e | v <;> dsimp only at h ⊢
          case error => exact next_keeps h rfl
          case ok => exact next_keeps h ⟨v, eqPut_writes hput, modReq_goes ..⟩
  next hval =>
    rw [if_neg hval]
    exact next_keeps h ⟨_, ⟨_, rfl, rfl, rfl, rfl, rfl, rfl, rfl, rfl, rfl, rfl⟩, rfl⟩

/-- A mark operation is done: its result is held, its forest changed and its request a step further. -/
theorem markDone_holds (v : State) {f : Forest} (r : EqReq) {g : Forest → Forest} {n : Nat} (hn : (g f).marks.length = n) :
    ∃ h : EqHold, h.engine = f.engine ∧ h.rid = r.rid ∧ h.v = n ∧ h.p = false ∧ h.result = true ∧ h.formed = v.now ∧
      v.markDone f r g = { v with eq := { v.eq with holds := v.eq.holds ++ [h], forests := v.eq.forests.map (fun x => if x.fid = f.fid then g x else x), reqs := v.eq.reqs.map fun x => if x.rid = r.rid then { x with progress := 1 } else x }, fetched := v.fetched.filter (·.1 != r.rid), nextId := (v.markDone f r g).nextId } := by
  obtain ⟨h, heq, hengine, hrid, -, hformed, -, -, hv, hp, hresult⟩ := eqHold_eq (v.unfetch r.rid) f r.rid 0 0 0 0 (g f).marks.length false true
  refine ⟨h, hengine, hrid, hv.trans hn, hp, hresult, hformed, ?_⟩
  unfold State.markDone
  rw [heq]
  unfold State.modReq State.modForest
  simp only [map_beq (fun x : Forest => x.fid), map_beq (fun x : EqReq => x.rid)]
  rfl

theorem markOperation_keeps (h : forestPromise (.markOperation id) s = some P) : ∃ t, exec (.markOperation id) s = .next t ∧ P t := by
  show ∃ t, execMarkOperation id s = .next t ∧ P t
  unfold forestPromise at h
  unfold execMarkOperation
  rcases hreq : s.req? id with _ | r <;> simp only [hreq] at h ⊢
  case none => exact next_keeps h rfl
  rcases hact : s.acting r with _ | f <;> simp only [hact] at h ⊢
  case none => exact next_keeps h rfl
  obtain rfl := rid_of_req? hreq
  split at h
  next hno =>
    rw [if_pos hno]
    exact next_keeps h rfl
  next hno =>
  rw [if_neg hno]
  split at h
  next hsize =>
    rw [if_pos hsize]
    obtain ⟨x, heq, hengine, hrid, -, hformed, -, -, hv, hp, hresult⟩ := eqHold_eq s f r.rid 0 0 0 0 (f.register ((r.block.headD PWord.zero).w.toNat)) false true
    refine next_keeps h ⟨x, hengine, hrid, hv, hp, hresult, hformed, ?_⟩
    rw [heq, ← map_beq (fun x : EqReq => x.rid)]
    rfl
  next hsize =>
  rw [if_neg hsize]
  split at h
  next hmark =>
    rw [if_pos hmark]
    split at h
    next hfull =>
      rw [if_pos hfull]
      exact next_keeps h rfl
    next hfull =>
    rw [if_neg hfull]
    split at h
    next hlog =>
      rw [if_pos hlog]
      exact next_keeps h rfl
    next hlog =>
      rw [if_neg hlog]
      exact next_keeps h (markDone_holds _ _ rfl)
  next hmark =>
  rw [if_neg hmark]
  rcases hmarks : f.marks with _ | ⟨⟨fill, c, m, q⟩, ms⟩ <;> simp only [hmarks] at h ⊢
  case nil => exact next_keeps h rfl
  split at h
  next hundo =>
    rw [if_pos hundo]
    rcases hold : s.undoFrom f r fill f.logFill with e | v <;> simp only [hold] at h ⊢
    case error => exact next_keeps h rfl
    case ok => exact next_keeps h (markDone_holds _ _ rfl)
  next hundo =>
    rw [if_neg hundo]
    exact next_keeps h (markDone_holds _ _ rfl)

/-! ### Commits and releases -/

theorem modPend_changes (s : State) (uid pid : Nat) (f : Pend → Pend) :
    TeamChanges uid (fun t => { t with pend := modifyLast (fun p => p.id == pid) f t.pend }) s (s.modPend uid pid f) :=
  modTeam_changes s uid _ fun _ => rfl

/-- A change of a team leaves the engines' walks. -/
theorem walk?_of_team {u : State} {uid : Nat} {f : Team → Team} (h : TeamChanges uid f s u) (wid : Nat) : u.walk? wid = s.walk? wid := by
  rw [h.rest]
  rfl

/-- The RELABEL of a write that goes over a link waits for it. -/
theorem modReq_results (s : State) (rid n : Nat) : s.modReq rid (fun r => if r.kind = 3 then { r with results := r.results ++ [n] } else r) =
    { s with eq := { s.eq with reqs := s.eq.reqs.map fun r => if r.rid = rid ∧ r.kind = 3 then { r with results := r.results ++ [n] } else r } } := by
  unfold State.modReq
  rw [map_beq (fun r : EqReq => r.rid)]
  simp only [ite_and]

theorem eqCommit_keeps (h : forestPromise (.eqCommit id) s = some P) : ∃ t, exec (.eqCommit id) s = .next t ∧ P t := by
  show ∃ t, execEqCommit id s = .next t ∧ P t
  unfold forestPromise at h
  unfold execEqCommit
  rcases hhold : s.eq.holds.find? (fun h => h.hid == id) with _ | x <;> simp only [hhold] at h ⊢
  case none => exact next_keeps h rfl
  split at h
  next hwait =>
    rw [if_pos hwait]
    exact next_keeps h rfl
  next hwait =>
  rw [if_neg hwait]
  simp only [Bool.and_eq_true, decide_eq_true_eq] at h ⊢
  generalize hgone : ({ s with eq := { s.eq with
        holds := s.eq.holds.filter fun x => x.hid != id
        forests := if x.rid = 0 ∧ x.n = releaseBytes then s.eq.forests.filter fun f => f.fid != x.before.fid else s.eq.forests } } : State) = gone at h ⊢
  have hreqs (rid : Nat) : gone.req? rid = s.req? rid := by rw [← hgone]; rfl
  have hwalks (wid : Nat) : gone.walk? wid = s.walk? wid := by rw [← hgone]; rfl
  split at h
  next hresult =>
    rw [if_pos hresult, hreqs]
    rcases hreq : s.req? x.rid with _ | r <;> simp only [hreq] at h ⊢
    case none => exact next_keeps h rfl
    rcases hpid : r.pid with _ | pid <;> simp only [hpid] at h ⊢
    case none => cases h
    have hteam := modPend_changes gone r.uid pid (x.arrives r.kind (((s.walk? x.wid).map (·.lane)).getD 0))
    simp only [hwalks, walk?_of_team hteam]
    rcases hwalk : s.walk? x.wid with _ | y <;> simp only [hwalk] at h hteam ⊢
    case none => exact next_keeps h ⟨_, hteam, rfl⟩
    split
    next hkind => exact next_keeps h ⟨_, hteam, by rw [if_pos hkind]⟩
    next hkind => exact next_keeps h ⟨_, hteam, by rw [if_neg hkind]⟩
  next hresult =>
    rw [if_neg hresult]
    split at h
    next hwindow =>
      rw [if_pos hwindow]
      obtain ⟨y, d, se, hsend, hact, hva, hpa, htile, hctx, -, hpoint, hdue⟩ := sent_net gone Config.tiles 0 0 x.before.ctx s.now 0 0 x.va x.pa [] (.write [⟨0, x.va, (toBytes x.n x.v).map (·, x.p)⟩])
      rw [hsend]
      refine next_keeps h ⟨y.id, { gone with net := gone.net ++ [y], draws := d, serial := se, nextId := gone.nextId + 1 }, ⟨y, rfl, rfl, htile, hctx, hva, hpa, hpoint, hact, hdue⟩, ?_⟩
      rw [← modReq_results]
    next hwindow =>
      rw [if_neg hwindow]
      exact next_keeps h (stored ..)

theorem forestRelease_keeps (h : forestPromise (.forestRelease id) s = some P) : ∃ t, exec (.forestRelease id) s = .next t ∧ P t := by
  show ∃ t, execForestRelease id s = .next t ∧ P t
  unfold forestPromise at h
  unfold execForestRelease
  rcases hforest : s.forest? id with _ | f <;> simp only [hforest] at h ⊢
  case none => exact next_keeps h rfl
  split at h
  next hheld =>
    rw [if_pos hheld]
    exact next_keeps h rfl
  next hheld =>
    rw [if_neg hheld]
    exact next_keeps h ⟨_, rfl, rfl, rfl, rfl, rfl, rfl, rfl, rfl, rfl, rfl⟩

end

end Sys2Proof.Machine

open Sys2Proof Sys2Proof.Machine

/-- Settles O52, by the instruction: each event of the equivalence engines has its lemma above, and every other instruction promises nothing here. -/
theorem forestEvents : Obligations.ForestEvents := by
  intro i s P h
  cases i
  case parentRead => exact parentRead_keeps h
  case lowerStep => exact lowerStep_keeps h
  case linkStep => exact linkStep_keeps h
  case addStep => exact addStep_keeps h
  case sameStep => exact sameStep_keeps h
  case relabelRun => exact relabelRun_keeps h
  case markOperation => exact markOperation_keeps h
  case eqCommit => exact eqCommit_keeps h
  case forestRelease => exact forestRelease_keeps h
  all_goals cases h

end

section
/-! PROOFS. The events of the dispatcher (O54). -/

namespace Sys2Proof.Machine

section
variable {s : State} {id : Nat} {P : State → Prop}

/-! ### Admission and the end of a team -/

theorem work?_id {w : Work} (h : s.work? id = some w) : w.id = id := by
  simpa using List.find?_some h

/-- The next groups of a grid are counted with their teams. -/
theorem admitNext_grid {w : Work} {tile : Nat} {v : State} (hw : s.work? id = some w) (hkind : w.kind = .grid) (h : s.admitNext w tile = some v) :
    v.work? id = some { w with
      next := min w.count ((w.next / 2 ^ w.profile.w 2 + 1) * 2 ^ w.profile.w 2)
      live := w.live + (min w.count ((w.next / 2 ^ w.profile.w 2 + 1) * 2 ^ w.profile.w 2) - w.next) * w.profile.teamsPer } := by
  unfold State.admitNext at h
  simp only [hkind] at h
  split at h
  next => cases h
  next =>
    split at h
    next => cases h
    next x hx =>
      cases h
      have hworks : SameWorks s x := by
        split at hx
        next => exact admitAll_works _ hx
        next => exact admitAll_works _ hx
      rw [List.length_map, List.length_range]
      exact modWork_find s x hworks id w hw _ fun _ => rfl

/-- The next chunk of a job is counted with its slot. -/
theorem admitNext_job {w : Work} {tile a b count slots : Nat} {v : State} (hw : s.work? id = some w) (hkind : w.kind = .job a b count slots) (h : s.admitNext w tile = some v) :
    v.work? id = some { w with
      next := w.next + chunkSize w.profile.width slots (count - w.next), live := w.live + 1
      slotsUsed := w.slotsUsed ++ [((List.range slots).find? fun i => !w.slotsUsed.contains i).getD 0] } := by
  unfold State.admitNext at h
  simp only [hkind] at h
  split at h
  next => cases h
  next x hx =>
    cases h
    exact modWork_find s x (admitGroup_works hx) id w hw _ fun _ => rfl

theorem admission_keeps {tile : Nat} (h : dispatcherPromise (.admission id tile) s = some P) : ∃ t, exec (.admission id tile) s = .next t ∧ P t := by
  show ∃ t, execAdmission id tile s = .next t ∧ P t
  unfold dispatcherPromise at h
  unfold execAdmission
  rcases hwork : s.work? id with _ | w <;> simp only [hwork] at h ⊢
  case none => exact next_keeps h rfl
  split at h
  next hwait =>
    rw [if_pos hwait]
    exact next_keeps h rfl
  next hwait =>
  rw [if_neg hwait]
  rcases hadmit : s.admitNext w tile with _ | v <;> simp only [hadmit] at h ⊢
  case none => exact next_keeps h rfl
  rcases hkind : w.kind with _ | ⟨a, b, count, slots⟩ | _ <;> simp only [hkind] at h ⊢
  case grid => exact next_keeps h ⟨rfl, (admitNext_grid hwork hkind hadmit).trans (by rw [hkind])⟩
  case job => exact next_keeps h ⟨rfl, (admitNext_job hwork hkind hadmit).trans (by rw [hkind])⟩
  case task => exact next_keeps h rfl

theorem teamEnd_keeps (h : dispatcherPromise (.teamEnd id) s = some P) : ∃ t, exec (.teamEnd id) s = .next t ∧ P t := by
  show ∃ t, execTeamEnd id s = .next t ∧ P t
  unfold dispatcherPromise at h
  unfold execTeamEnd
  rcases hteam : s.team? id with _ | t <;> simp only [hteam] at h ⊢
  case none => exact next_keeps h rfl
  by_cases hend : s.canEnd t <;> simp only [hend, Bool.not_true, Bool.not_false, if_true, if_false, Bool.false_eq_true] at h ⊢
  case pos => exact next_keeps h (endTeam_ends s t)
  case neg => exact next_keeps h rfl

/-! ### Hampers, eviction and readmission -/

theorem hamperTimer_keeps {cluster hamper : Nat} (h : dispatcherPromise (.hamperTimer cluster hamper) s = some P) :
    ∃ t, exec (.hamperTimer cluster hamper) s = .next t ∧ P t := by
  show ∃ t, execHamperTimer cluster hamper s = .next t ∧ P t
  unfold dispatcherPromise at h
  unfold execHamperTimer
  rcases hfind : s.disp.hampers.find? (fun h => h.cluster == cluster && h.index == hamper && !h.formed && !h.tasks.isEmpty) with _ | x <;> simp only [hfind] at h ⊢
  case none => exact next_keeps h rfl
  split at h
  next hearly =>
    rw [if_pos hearly]
    exact next_keeps h rfl
  next hearly =>
  rw [if_neg hearly]
  unfold State.formHamper
  rcases htasks : x.tasks with _ | ⟨t, ts⟩ <;> simp only [htasks] at h ⊢
  case nil => cases h
  rcases hkernel : s.taskKernel t with _ | ⟨k, n⟩ <;> simp only [hkernel] at h ⊢
  case none => exact next_keeps h rfl
  case some => exact next_keeps h ⟨_, rfl, rfl, rfl, rfl, rfl, rfl, rfl, rfl, rfl, by simp only [State.setHamper]; rfl⟩

theorem teamEviction_keeps (h : dispatcherPromise (.teamEviction id) s = some P) : ∃ t, exec (.teamEviction id) s = .next t ∧ P t := by
  show ∃ t, execTeamEviction id s = .next t ∧ P t
  unfold dispatcherPromise at h
  unfold execTeamEviction
  rcases hteam : s.team? id with _ | t <;> simp only [hteam] at h ⊢
  case none => exact next_keeps h rfl
  rcases hevict : s.toEvict (t.id.tile / 8) with _ | v <;> simp only [hevict] at h ⊢
  case none => exact next_keeps h rfl
  split at h
  next hsame =>
    rw [if_pos hsame]
    exact next_keeps h (modTeam_changes s id _ fun _ => rfl)
  next hsame =>
    rw [if_neg hsame]
    exact next_keeps h rfl

theorem readmission_keeps {tile : Nat} (h : dispatcherPromise (.readmission id tile) s = some P) : ∃ t, exec (.readmission id tile) s = .next t ∧ P t := by
  show ∃ t, execReadmission id tile s = .next t ∧ P t
  unfold dispatcherPromise at h
  unfold execReadmission
  rcases hgroup : s.group? id with _ | g <;> simp only [hgroup] at h ⊢
  case none => exact next_keeps h rfl
  rcases hback : s.readmit g tile with _ | v <;> simp only [hback] at h ⊢
  case none => exact next_keeps h rfl
  case some => exact next_keeps h rfl

/-! ### The Timetable and the watchdog -/

theorem modCtx_ctx?_of_ne {s : State} {c k : Nat} {f : Ctx → Ctx} (hk : k ≠ c) (hf : ∀ x, (f x).id = x.id := by intro _; rfl) : (s.modCtx c f).ctx? k = s.ctx? k := by
  rw [ctx_modCtx s c f hf]
  simp only [if_neg hk, Option.map_id']

theorem modCtx_ctx?_self {s : State} {c : Nat} {x : Ctx} {f : Ctx → Ctx} (hx : s.ctx? c = some x) (hf : ∀ x, (f x).id = x.id := by intro _; rfl) : (s.modCtx c f).ctx? c = some (f x) := by
  rw [ctx_modCtx s c f hf, hx, Option.map_some, if_pos rfl]

theorem modEntry_changes (s : State) (i : Nat) (f : TimeEntry → TimeEntry) : (s.modEntry i f).timeEntry i = f (s.timeEntry i) ∧ (∀ k, k ≠ i → (s.modEntry i f).timeEntry k = s.timeEntry k) ∧
    s.modEntry i f = { s with disp := { s.disp with timetable := (s.modEntry i f).disp.timetable } } :=
  ⟨entry_self s i f, fun k hk => entry_ne s i k hk f, rfl⟩

theorem timetableSlot_keeps (h : dispatcherPromise (.timetableSlot id) s = some P) : ∃ t, exec (.timetableSlot id) s = .next t ∧ P t := by
  show ∃ t, execTimetableSlot id s = .next t ∧ P t
  unfold dispatcherPromise at h
  unfold execTimetableSlot
  dsimp only at h ⊢
  split at h
  next hno =>
    rw [if_pos hno]
    exact next_keeps h rfl
  next hno =>
  rw [if_neg hno]
  generalize hv : s.modEntry id _ = v
  have hslot : v.timeEntry id = { s.timeEntry id with next := (s.deviceTime / (1000 * (s.timeEntry id).period) + 1) * (1000 * (s.timeEntry id).period) } := by
    rw [← hv]
    exact entry_self ..
  have hothers (k : Nat) (hk : k ≠ id) : v.timeEntry k = s.timeEntry k := by
    rw [← hv]
    exact entry_ne s id k hk _
  have hrest : v = { s with disp := { s.disp with timetable := v.disp.timetable } } := by
    rw [← hv]
    rfl
  have hfrozen : v.frozen (s.timeEntry id).ctx = s.frozen (s.timeEntry id).ctx := by
    rw [← hv]
    rfl
  have hruns : v.running (s.timeEntry id) = s.running (s.timeEntry id) := by
    rw [← hv]
    rfl
  rw [hfrozen, hruns]
  split
  next hfrozen => exact next_keeps h ⟨v, hslot, hothers, hrest, by rw [if_pos hfrozen]⟩
  next hfrozen =>
  simp only [if_neg hfrozen] at h
  split
  next hidle => exact next_keeps h ⟨v, hslot, hothers, hrest, by rw [if_pos hidle]⟩
  next hidle =>
  simp only [if_neg hidle] at h
  split
  next hrule => exact next_keeps h ⟨v, hslot, hothers, hrest, by rw [if_pos hrule]⟩
  next hrule => exact next_keeps h ⟨v, hslot, hothers, hrest, by rw [if_neg (by omega), if_pos hrule]⟩
  next hdefer hkill => exact next_keeps h ⟨v, hslot, hothers, hrest, by rw [if_neg hdefer, if_neg hkill]⟩

theorem deferredLaunch_keeps (h : dispatcherPromise (.deferredLaunch id) s = some P) : ∃ t, exec (.deferredLaunch id) s = .next t ∧ P t := by
  show ∃ t, execDeferredLaunch id s = .next t ∧ P t
  unfold dispatcherPromise at h
  unfold execDeferredLaunch
  dsimp only at h ⊢
  split at h
  next hdue =>
    rw [if_pos hdue]
    obtain ⟨hself, hothers, hrest⟩ := modEntry_changes s id fun e => { e with deferred := false }
    exact next_keeps h ⟨_, hself, hothers, hrest, rfl⟩
  next hdue =>
    rw [if_neg hdue]
    exact next_keeps h rfl

theorem watchdog_keeps (h : dispatcherPromise (.watchdog id) s = some P) : ∃ t, exec (.watchdog id) s = .next t ∧ P t := by
  show ∃ t, execWatchdog id s = .next t ∧ P t
  unfold dispatcherPromise at h
  unfold execWatchdog
  rcases hctx : s.ctx? id with _ | x <;> simp only [hctx] at h ⊢
  case none => exact next_keeps h rfl
  split at h
  next hno =>
    rw [if_pos hno]
    exact next_keeps h rfl
  next hno =>
  rw [if_neg hno]
  rcases hstuck : s.stuckTeams id with _ | ⟨t, ts⟩ <;> simp only [hstuck] at h ⊢
  case nil => exact next_keeps h rfl
  split
  next hwaits =>
    refine next_keeps h ⟨(modCtx_ctx?_self hctx).trans ?self, fun k hk => modCtx_ctx?_of_ne hk, ?posted, rfl⟩
    case self => simp only [hwaits, Bool.or_false, Bool.not_true]
    case posted => rw [if_pos hwaits]; rfl
  next hwaits =>
    refine next_keeps h ⟨(modCtx_ctx?_self hctx).trans ?self, fun k hk => modCtx_ctx?_of_ne hk, ?posted, rfl⟩
    case self => simp only [hwaits, Bool.or_true, Bool.not_false]
    case posted =>
      rw [if_neg hwaits]
      exact ⟨_, rfl, rfl, rfl, rfl⟩

/-! ### Binding updates -/

/-- Only the draws of a state are used as the tiles' caches are drawn out. -/
theorem spread_draws (es : List (Nat × Nat × Nat)) (tiles : List Nat) (v : State) (last : Nat) (xs : List (Nat × Nat × List (Nat × Nat × Nat))) :
    ∃ n ys d se, tiles.foldl (fun (last, xs, s) t =>
      let (d, s) := draw s
      (max last d, xs ++ [(t, s.now + d, es)], s)) (last, xs, v) = (n, ys, { v with draws := d, serial := se }) := by
  induction tiles generalizing v last xs with
  | nil => exact ⟨_, _, _, _, rfl⟩
  | cons t ts ih =>
    rw [List.foldl_cons]
    dsimp only
    rw [draw_next]
    obtain ⟨n, ys, d, se, hfold⟩ := ih { v with draws := (draw v).2.draws, serial := (draw v).2.serial } (max last (draw v).1) (xs ++ [(t, v.now + (draw v).1, es)])
    exact ⟨n, ys, d, se, hfold⟩

theorem spreadBinding_keeps (v : State) (c : Nat) (es : List (Nat × Nat × Nat)) : ∃ n y, v.spreadBinding c es = (n, y) ∧ y = { v with ctxs := y.ctxs, draws := y.draws, serial := y.serial } ∧
    (∀ k, k ≠ c → y.ctx? k = v.ctx? k) ∧ ∀ x, v.ctx? c = some x → ∃ old, y.ctx? c = some { x with bindOld := old } := by
  unfold State.spreadBinding
  dsimp only
  obtain ⟨n, ys, d, se, hfold⟩ := spread_draws es (((v.allTeams.filter fun t => t.id.ctx == c).map (·.id.tile)).eraseDups) v 0 []
  rw [hfold]
  exact ⟨n, _, rfl, rfl, fun k hk => modCtx_ctx?_of_ne hk, fun x hx => ⟨_, modCtx_ctx?_self hx⟩⟩

/-- What is done with the outcome of an update at the table: the caches, the trap of a failure, the acknowledgement. -/
def State.bindingDone (v : State) (x : Net) (id : Nat) (es : List (Nat × Nat × Nat)) (cause : Option Nat) (base : Nat) (mask : LaneMask) : State :=
  let (last, v) := v.spreadBinding x.ctx es
  let (d, v) := draw v
  let v := match cause with
    | some c => v.defer x.uid c x.pc x.issue x.word mask ((lanesOf 1024 mask).map fun l => (l, BitVec.ofNat 64 base))
    | none => v
  { v with net := (v.net.filter fun y => y.id != id) ++ [{ x with due := v.now + max last d, act := .ack none [] 0 none base 0 }] }

/-- An update of the table by its request (R332). -/
theorem bindingUpdate_next {x : Net} (hx : s.net.find? (·.id == id) = some x) : execBindingUpdate id s = .next (match x.act with
    | .bind base pages obj m => (s.bindNow x.ctx base pages obj).2.bindingDone x id (s.bindingList x.ctx) (s.bindNow x.ctx base pages obj).1 base m
    | .unbind base m => (s.unbindNow x.ctx base).2.bindingDone x id (s.bindingList x.ctx) (s.unbindNow x.ctx base).1 base m
    | _ => s) := by
  unfold execBindingUpdate
  rw [hx]
  cases hact : x.act <;> simp only [hact]
  case bind base pages obj m =>
    generalize s.bindNow x.ctx base pages obj = r
    rfl
  case unbind base m =>
    generalize s.unbindNow x.ctx base = r
    rfl

/-- An answer of the table is on its way back, as the promise of `bindingUpdate` says it. -/
def BindingAnswered (x : Net) (id : Nat) (net : List Net) (now : Nat) (v u : State) (cause : Option Nat) (base : Nat) (mask : LaneMask) : Prop := ∃ (y w : State) (d : Nat),
  y = { v with ctxs := y.ctxs, draws := y.draws, serial := y.serial } ∧ (∀ k, k ≠ x.ctx → y.ctx? k = v.ctx? k) ∧
  (∀ c, v.ctx? x.ctx = some c → ∃ old, y.ctx? x.ctx = some { c with bindOld := old }) ∧
  (match cause with
  | none => w = y
  | some c => TeamChanges x.uid (fun t => { t with deferred := joinDeferred ⟨c, x.pc, x.issue, x.word, mask, (lanesOf 1024 mask).map fun l => (l, BitVec.ofNat 64 base), false⟩ t.deferred }) y w) ∧
  u = { w with net := (net.filter fun y => y.id != id) ++ [{ x with due := now + d, act := .ack none [] 0 none base 0 }] }

theorem bindingDone_answers (v : State) (x : Net) (id : Nat) (es : List (Nat × Nat × Nat)) (cause : Option Nat) (base : Nat) (mask : LaneMask) :
    BindingAnswered x id v.net v.now v (v.bindingDone x id es cause base mask) cause base mask := by
  obtain ⟨n, y, hspread, hrest, hothers, hself⟩ := spreadBinding_keeps v x.ctx es
  have hdraw := draw_next y
  have hnet : (draw y).2.net = v.net := by rw [hdraw, hrest]
  have hnow : (draw y).2.now = v.now := by rw [hdraw, hrest]
  have hctx (k : Nat) : (draw y).2.ctx? k = y.ctx? k := by rw [hdraw]; rfl
  have hkeeps : (draw y).2 = { v with ctxs := (draw y).2.ctxs, draws := (draw y).2.draws, serial := (draw y).2.serial } := by
    rw [hdraw, hrest]
  unfold State.bindingDone
  rw [hspread]
  dsimp only
  cases cause with
  | none =>
    refine ⟨(draw y).2, (draw y).2, max n (draw y).1, hkeeps, fun k hk => (hctx k).trans (hothers k hk), fun c hc => ?_, rfl, ?_⟩
    · rw [hctx]
      exact hself c hc
    · rw [hnet, hnow]
  | some c =>
    have hteam := modTeam_changes (draw y).2 x.uid (fun t => { t with deferred := joinDeferred ⟨c, x.pc, x.issue, x.word, mask, (lanesOf 1024 mask).map fun l => (l, BitVec.ofNat 64 base), false⟩ t.deferred }) fun _ => rfl
    refine ⟨(draw y).2, _, max n (draw y).1, hkeeps, fun k hk => (hctx k).trans (hothers k hk), fun c hc => ?_, hteam, ?_⟩
    · rw [hctx]
      exact hself c hc
    · have hnet' := (congrArg State.net hteam.rest).trans hnet
      have hnow' := (congrArg State.now hteam.rest).trans hnow
      rw [← hnet', ← hnow']
      rfl

/-- A written entry of the table leaves the requests under way. -/
theorem bindingDone_after_set (s : State) (x : Net) (id c i v : Nat) (es : List (Nat × Nat × Nat)) (base : Nat) (mask : LaneMask) :
    BindingAnswered x id s.net s.now (s.setBinding c i v) ((s.setBinding c i v).bindingDone x id es none base mask) none base mask := by
  obtain ⟨hnet, hnow⟩ := setBinding_keeps s c i v
  rw [← hnet, ← hnow]
  exact bindingDone_answers ..

theorem bindingUpdate_keeps (h : dispatcherPromise (.bindingUpdate id) s = some P) : ∃ t, exec (.bindingUpdate id) s = .next t ∧ P t := by
  show ∃ t, execBindingUpdate id s = .next t ∧ P t
  unfold dispatcherPromise at h
  rcases hx : s.net.find? (fun y => y.id == id) with _ | x <;> simp only [hx] at h
  case none =>
    unfold execBindingUpdate
    rw [hx]
    exact next_keeps h rfl
  rw [bindingUpdate_next hx]
  cases hact : x.act <;> simp only [hact] at h ⊢
  case bind base pages obj m =>
    unfold State.bindNow
    dsimp only
    split at h
    next hhad =>
      rw [if_pos hhad]
      exact next_keeps h (bindingDone_answers s x id (s.bindingList x.ctx) none base m)
    next hhad =>
    rw [if_neg hhad]
    split at h
    next hmeets =>
      rw [if_pos hmeets]
      exact next_keeps h (bindingDone_answers s x id (s.bindingList x.ctx) (some 33) base m)
    next hmeets =>
    rw [if_neg hmeets]
    rcases hfree : (List.range 1024).find? (fun i => (s.binding x.ctx i).isNone) with _ | i <;> simp only [hfree] at h ⊢
    case none => exact next_keeps h (bindingDone_answers s x id (s.bindingList x.ctx) (some 34) base m)
    case some => exact next_keeps h ⟨_, rfl, bindingDone_after_set s x id x.ctx i _ (s.bindingList x.ctx) base m⟩
  case unbind base m =>
    unfold State.unbindNow
    rcases hfind : (s.bindings x.ctx).find? (fun e => e.2.1 == base) with _ | e <;> simp only [hfind] at h ⊢
    case none => exact next_keeps h (bindingDone_answers s x id (s.bindingList x.ctx) (some 35) base m)
    case some => exact next_keeps h (bindingDone_after_set s x id x.ctx e.1 0 (s.bindingList x.ctx) base m)
  all_goals exact next_keeps h rfl

end

end Sys2Proof.Machine

open Sys2Proof Sys2Proof.Machine

/-- Settles O54, by the instruction: each event of the dispatcher has its lemma above, and every other instruction promises nothing here. -/
theorem dispatcherEvents : Obligations.DispatcherEvents := by
  intro i s P h
  cases i
  case admission => exact admission_keeps h
  case teamEnd => exact teamEnd_keeps h
  case hamperTimer => exact hamperTimer_keeps h
  case teamEviction => exact teamEviction_keeps h
  case readmission => exact readmission_keeps h
  case timetableSlot => exact timetableSlot_keeps h
  case deferredLaunch => exact deferredLaunch_keeps h
  case watchdog => exact watchdog_keeps h
  case bindingUpdate => exact bindingUpdate_keeps h
  all_goals cases h

end

section
/-! PROOFS. The messages of the links and the states of the ports (O56). -/

namespace Sys2Proof.Machine

section
variable {s : State} {port tag : Nat} {P : State → Prop}

/-! ### Requests that come in (R391) -/

theorem linkRead_keeps {ctx : Option Nat} {va n : Nat} {demand : ReadHead} (h : linkPromise (.linkRead port tag ctx va n demand) s = some P) :
    ∃ t, exec (.linkRead port tag ctx va n demand) s = .next t ∧ P t := by
  show ∃ t, execLinkRead port tag ctx va n demand s = .next t ∧ P t
  unfold linkPromise at h
  unfold execLinkRead
  dsimp only at h
  split at h
  next hbad =>
    rw [if_pos hbad]
    exact next_keeps h (hubSend_leaves ..)
  next hbad =>
  rw [if_neg hbad]
  rcases hpa : s.inboundPa ctx va Need.r with ⟨pa, ef, b⟩ | l | c <;> simp only [hpa] at h ⊢
  case ok =>
    split
    next hef =>
      rw [if_pos hef] at h
      exact next_keeps h (hubSend_leaves ..)
    next hef =>
      rw [if_neg hef] at h
      exact next_keeps h (inbound_enters ..)
  case fault => exact next_keeps h (hubSend_leaves ..)
  case bad => exact next_keeps h (hubSend_leaves ..)

theorem linkWrite_keeps {ctx : Option Nat} {va : Nat} {bytes : List Byte} {poison : WriteHead} (h : linkPromise (.linkWrite port tag ctx va bytes poison) s = some P) :
    ∃ t, exec (.linkWrite port tag ctx va bytes poison) s = .next t ∧ P t := by
  show ∃ t, execLinkWrite port tag ctx va bytes poison s = .next t ∧ P t
  unfold linkPromise at h
  unfold execLinkWrite
  dsimp only at h
  split at h
  next hbad =>
    rw [if_pos hbad]
    exact next_keeps h (hubSend_leaves ..)
  next hbad =>
  rw [if_neg hbad]
  rcases hpa : s.inboundPa ctx va Need.w with ⟨pa, ef, b⟩ | l | c <;> simp only [hpa] at h ⊢
  case ok => exact next_keeps h (inbound_enters ..)
  case fault => exact next_keeps h (hubSend_leaves ..)
  case bad => exact next_keeps h (hubSend_leaves ..)

theorem linkAtomic_keeps {pa op : Nat} {w : AtomHead} {x y : AtomWord} (h : linkPromise (.linkAtomic port tag pa op w x y) s = some P) :
    ∃ t, exec (.linkAtomic port tag pa op w x y) s = .next t ∧ P t := by
  show ∃ t, execLinkAtomic port tag pa op w x y s = .next t ∧ P t
  unfold linkPromise at h
  unfold execLinkAtomic
  dsimp only at h
  split at h
  next hbad =>
    rw [if_pos hbad]
    exact next_keeps h (hubSend_leaves ..)
  next hbad =>
  rw [if_neg hbad]
  rcases hpa : s.inboundPa none pa Need.rw with ⟨q, ef, b⟩ | l | c <;> simp only [hpa] at h ⊢
  case ok => exact next_keeps h (inbound_enters ..)
  case fault => exact next_keeps h (hubSend_leaves ..)
  case bad => exact next_keeps h (hubSend_leaves ..)

/-! ### Responses (R388) -/

theorem take_none (h : s.outstanding? port tag = none) : s.take port tag = none := by
  rw [take_eq, h]
  rfl

theorem take_some {o : Outstanding} (h : s.outstanding? port tag = some o) : s.take port tag = some (o, s.settledTag port tag) := by
  rw [take_eq, h]
  rfl

theorem readData_keeps {bytes : List Byte} {poison : BitVec 16} (h : linkPromise (.readData port tag bytes poison) s = some P) :
    ∃ t, exec (.readData port tag bytes poison) s = .next t ∧ P t := by
  show ∃ t, execReadData port tag bytes poison s = .next t ∧ P t
  unfold linkPromise at h
  unfold execReadData
  rcases ho : s.outstanding? port tag with _ | o <;> simp only [ho] at h
  case none =>
    rw [take_none ho]
    exact next_keeps h rfl
  rw [take_some ho]
  cases hact : o.item.act <;> simp only [hact] at h ⊢
  case pair => exact ⟨_, rfl, performAccess_follows _ _ _ h⟩
  all_goals
    obtain ⟨Q, hrule, rfl⟩ := Option.map_eq_some_iff.1 h
    exact ⟨_, rfl, stored .., performAccess_follows _ _ _ hrule⟩

theorem writeAcknowledgement_keeps (h : linkPromise (.writeAcknowledgement port tag) s = some P) : ∃ t, exec (.writeAcknowledgement port tag) s = .next t ∧ P t := by
  show ∃ t, execWriteAcknowledgement port tag s = .next t ∧ P t
  unfold linkPromise at h
  unfold execWriteAcknowledgement
  rcases ho : s.outstanding? port tag with _ | o <;> simp only [ho] at h
  case none =>
    rw [take_none ho]
    exact next_keeps h rfl
  rw [take_some ho]
  exact ⟨_, rfl, performAccess_follows _ _ _ h⟩

theorem refused_keeps (h : linkPromise (.refused port tag) s = some P) : ∃ t, exec (.refused port tag) s = .next t ∧ P t := by
  show ∃ t, execRefused port tag s = .next t ∧ P t
  unfold linkPromise at h
  unfold execRefused
  rcases ho : s.outstanding? port tag with _ | o <;> simp only [ho] at h
  case none =>
    rw [take_none ho]
    exact next_keeps h rfl
  rw [take_some ho]
  dsimp only
  refine next_keeps h ?_
  split
  next hdemand => exact failNet_fails ..
  next hdemand => exact rfl

theorem errorResponse_keeps (h : linkPromise (.errorResponse port tag) s = some P) : ∃ t, exec (.errorResponse port tag) s = .next t ∧ P t := by
  show ∃ t, execErrorResponse port tag s = .next t ∧ P t
  unfold linkPromise at h
  unfold execErrorResponse
  rcases ho : s.outstanding? port tag with _ | o <;> simp only [ho] at h
  case none =>
    rw [take_none ho]
    exact next_keeps h rfl
  rw [take_some ho]
  exact next_keeps h (failNet_fails ..)

theorem atomicResult_keeps {v : AtomValue} (h : linkPromise (.atomicResult port tag v) s = some P) : ∃ t, exec (.atomicResult port tag v) s = .next t ∧ P t := by
  show ∃ t, execAtomicResult port tag v s = .next t ∧ P t
  unfold linkPromise at h
  unfold execAtomicResult
  rcases ho : s.outstanding? port tag with _ | o <;> simp only [ho] at h
  case none =>
    rw [take_none ho]
    exact next_keeps h rfl
  rw [take_some ho]
  cases hact : o.item.act <;> simp only [hact] at h ⊢
  all_goals exact next_keeps h (answered ..)

theorem hostTimeout_keeps (h : linkPromise (.hostTimeout port tag) s = some P) : ∃ t, exec (.hostTimeout port tag) s = .next t ∧ P t := by
  show ∃ t, execHostTimeout port tag s = .next t ∧ P t
  unfold linkPromise at h
  unfold execHostTimeout
  rcases ho : s.outstanding? port tag with _ | o <;> simp only [ho] at h
  case none =>
    rw [take_none ho]
    exact next_keeps h rfl
  rw [take_some ho]
  dsimp only
  split
  next hearly =>
    rw [if_pos hearly] at h
    exact next_keeps h rfl
  next hearly =>
    rw [if_neg hearly] at h
    exact next_keeps h (failNet_fails ..)

/-! ### The hub's hold and the states of the ports (R385, R387, R395) -/

theorem hubHoldRelease_keeps {id : Nat} (h : linkPromise (.hubHoldRelease id) s = some P) : ∃ t, exec (.hubHoldRelease id) s = .next t ∧ P t := by
  show ∃ t, execHubHoldRelease id s = .next t ∧ P t
  unfold linkPromise at h
  unfold execHubHoldRelease
  rcases hhold : s.hub.hold.find? (fun x => x.id == id) with _ | x <;> simp only [hhold] at h ⊢
  case none => exact next_keeps h rfl
  split
  next hyoung => exact next_keeps h (by rw [if_pos hyoung])
  next hyoung => exact next_keeps h (by rw [if_neg hyoung])

/-- A port changes by what the change makes of it as it stands. -/
theorem modPort_portChanges (s : State) (p : Nat) {f g : Port → Port} (hfg : f (s.port p) = g (s.port p)) : PortChanges p g s (s.modPort p f) := by
  obtain ⟨hport, hothers, hrest⟩ := modPort_changes s p f
  exact ⟨hport.trans hfg, hothers, hrest⟩

theorem portBringUp_keeps {peer : Nat} (h : linkPromise (.portBringUp port peer) s = some P) : ∃ t, exec (.portBringUp port peer) s = .next t ∧ P t := by
  show ∃ t, execPortBringUp port peer s = .next t ∧ P t
  unfold linkPromise at h
  unfold execPortBringUp
  dsimp only at h
  split
  next hoptical =>
    rw [if_pos hoptical] at h
    by_cases hdown : (s.port port).state = 0 ∨ (s.port port).state = 5
    · rw [if_pos hdown] at h
      refine next_keeps h (modPort_portChanges s port ?_)
      simp only [Bool.or_eq_true, decide_eq_true_eq, if_pos hdown]
    · rw [if_neg hdown] at h
      refine next_keeps h (modPort_portChanges s port ?_)
      simp only [Bool.or_eq_true, decide_eq_true_eq, if_neg hdown, id]
  next hoptical =>
    rw [if_neg hoptical] at h
    exact next_keeps h ⟨fun k => by simp, rfl⟩

theorem lossOfLock_keeps {wave : Nat} (h : linkPromise (.lossOfLock port wave) s = some P) : ∃ t, exec (.lossOfLock port wave) s = .next t ∧ P t := by
  show ∃ t, execLossOfLock port wave s = .next t ∧ P t
  unfold linkPromise at h
  unfold execLossOfLock
  dsimp only at h
  split
  next hup =>
    rw [if_pos hup] at h
    exact next_keeps h (modPort_portChanges s port rfl)
  next hup =>
    rw [if_neg hup] at h
    exact next_keeps h rfl

theorem trainingDone_keeps {failed : Nat} {spareOk : Bool} (h : linkPromise (.trainingDone port failed spareOk) s = some P) :
    ∃ t, exec (.trainingDone port failed spareOk) s = .next t ∧ P t := by
  show ∃ t, execTrainingDone port failed spareOk s = .next t ∧ P t
  unfold linkPromise at h
  unfold execTrainingDone
  dsimp only at h ⊢
  split
  next hbringup =>
    rw [if_pos hbringup] at h
    exact next_keeps h (modPort_portChanges s port rfl)
  next hbringup =>
  rw [if_neg hbringup] at h
  simp only [Bool.and_eq_true, decide_eq_true_eq]
  split
  next hretrain =>
    rw [if_pos hretrain] at h
    by_cases hno : (s.port port).spare = true ∨ ((s.port port).spareBad = true ∧ (!spareOk) = true)
    · rw [if_pos hno] at h
      rw [if_neg fun hspare => by
        obtain ⟨hfree, hgood⟩ := hspare
        obtain hused | ⟨hbad, hstill⟩ := hno
        · simp [hused] at hfree
        · simp [hbad, hstill] at hgood]
      exact next_keeps h ⟨_, _, modPort_portChanges s port rfl, rfl, failItem_fold ..⟩
    · rw [if_neg hno] at h
      obtain ⟨hfree, hgood⟩ := not_or.1 hno
      have hgood' : ((s.port port).spareBad && !spareOk) = false := Bool.eq_false_iff.2 fun hc => hgood (by simpa using hc)
      rw [if_pos ⟨by simpa using hfree, by rw [hgood']; rfl⟩]
      exact next_keeps h (modPort_portChanges s port rfl)
  next hretrain =>
    rw [if_neg hretrain] at h
    exact next_keeps h rfl

theorem cxlFailure_keeps (h : linkPromise (.cxlFailure port) s = some P) : ∃ t, exec (.cxlFailure port) s = .next t ∧ P t := by
  show ∃ t, execCxlFailure port s = .next t ∧ P t
  refine next_keeps h ⟨{ s with hub := { s.hub with cxlDown := if s.hub.cxlDown.contains port then s.hub.cxlDown else s.hub.cxlDown ++ [port] } }, fun k => ?_, rfl, failNet_fold ..⟩
  show k ∈ (if s.hub.cxlDown.contains port then s.hub.cxlDown else s.hub.cxlDown ++ [port]) ↔ _
  split
  next hdown =>
    refine ⟨Or.inl, fun hk => hk.elim id ?_⟩
    rintro rfl
    simpa using hdown
  next hdown => simp

end

end Sys2Proof.Machine

open Sys2Proof Sys2Proof.Machine

/-- Settles O56, by the instruction: each message and each change of a port has its lemma above, and every other instruction promises nothing here. -/
theorem linkEvents : Obligations.LinkEvents := by
  intro i s P h
  cases i
  case linkRead => exact linkRead_keeps h
  case linkWrite => exact linkWrite_keeps h
  case linkAtomic => exact linkAtomic_keeps h
  case readData => exact readData_keeps h
  case writeAcknowledgement => exact writeAcknowledgement_keeps h
  case refused => exact refused_keeps h
  case errorResponse => exact errorResponse_keeps h
  case atomicResult => exact atomicResult_keeps h
  case hostTimeout => exact hostTimeout_keeps h
  case hubHoldRelease => exact hubHoldRelease_keeps h
  case portBringUp => exact portBringUp_keeps h
  case lossOfLock => exact lossOfLock_keeps h
  case trainingDone => exact trainingDone_keeps h
  case backInvalidate => exact next_keeps h (hubSend_leaves ..)
  case cxlFailure => exact cxlFailure_keeps h
  all_goals cases h

end

section
/-! PROOFS. The device clock, power, package reset and the root of trust (O57). -/

namespace Sys2Proof.Machine

section
variable {s : State} {P : State → Prop}

/-! ### The device clock (R396, R418, R419) -/

theorem ptpEventMessage_keeps {nic error : Nat} {master : Dword} (h : hubPromise (.ptpEventMessage nic master error) s = some P) :
    ∃ t, exec (.ptpEventMessage nic master error) s = .next t ∧ P t := by
  show ∃ t, execPtpEventMessage nic master error s = .next t ∧ P t
  unfold hubPromise at h
  unfold execPtpEventMessage
  dsimp only at h ⊢
  have hstamp : error % 17 < 17 := Nat.mod_lt _ (by decide)
  by_cases hfollows : s.hub.clock.locked = true ∧ ¬s.hub.clock.holdover = true
  · obtain ⟨hlocked, hfree⟩ := hfollows
    have hinner : (s.hub.clock.holdover || !s.hub.clock.locked) = false := by simp [hlocked, hfree]
    simp only [hinner, Bool.false_eq_true, if_false]
    refine next_keeps h ⟨s.deviceTime + error % 17 - 8, { s with out := s.out ++ [.ptp nic (BitVec.ofNat 64 (s.deviceTime + error % 17 - 8))] }, by omega, by omega, by rw [if_pos ⟨hlocked, hfree⟩], ?_⟩
    by_cases hport : s.hub.clock.port = nic
    · rw [if_pos ⟨hlocked, hfree, hport⟩, if_pos (by simp [hlocked, hfree, hport])]
      exact slewToward_slews ..
    · rw [if_neg fun hc => hport hc.2.2, if_neg (by simp [hport])]
  · have hinner : (s.hub.clock.holdover || !s.hub.clock.locked) = true := by
      cases hlocked : s.hub.clock.locked <;> simp_all
    simp only [hinner, if_true]
    refine next_keeps h ⟨s.deviceTime + error % 17 - 8, { s with out := s.out ++ [.ptp nic (BitVec.ofNat 64 (s.deviceTime + error % 17 - 8))], hub := { s.hub with clock := { s.hub.clock with port := nic } } }, by omega, by omega, by rw [if_neg hfollows], ?_⟩
    have hdrifts : ¬(s.hub.clock.locked = true ∧ ¬s.hub.clock.holdover = true ∧ s.hub.clock.port = nic) := fun hc => hfollows ⟨hc.1, hc.2.1⟩
    rw [if_neg hdrifts]
    refine if_neg fun hc => hfollows ?_
    simpa [State.modClock] using hc

theorem clockLock_keeps {ptp : Dword} (h : hubPromise (.clockLock ptp) s = some P) : ∃ t, exec (.clockLock ptp) s = .next t ∧ P t := by
  show ∃ t, execClockLock ptp s = .next t ∧ P t
  unfold hubPromise at h
  unfold execClockLock
  dsimp only at h ⊢
  refine next_keeps h ⟨s.modClock fun c => { c with locked := true, holdover := false }, rfl, ?_⟩
  by_cases hslews : s.hub.clock.locked = true ∨ s.hub.clock.mode = true
  · rw [if_pos hslews, if_neg fun hsteps => by
      obtain hlocked | hmode := hslews
      · simp [hlocked] at hsteps
      · simp [State.modClock, hmode] at hsteps]
    exact slewToward_slews ..
  · obtain ⟨hnew, hmode⟩ := not_or.1 hslews
    rw [if_neg hslews, if_pos (by simp [State.modClock, hnew, hmode])]
    exact ⟨_, _, rfl, rfl, deviceTime_now s { s.hub.clock with locked := true, holdover := false, devBase := ptp.toNat, slew := 0, stepped := s.hub.clock.stepped + (ptp.toNat - (s.modClock fun c => { c with locked := true, holdover := false }).deviceTime) }, rfl⟩

theorem holdover_keeps (h : hubPromise .holdover s = some P) : ∃ t, exec .holdover s = .next t ∧ P t := by
  show ∃ t, execHoldover s = .next t ∧ P t
  exact next_keeps h ⟨_, rfl, deviceTime_now s { s.hub.clock with devBase := s.deviceTime, slew := 0, holdover := true }, rfl⟩

theorem clkpairLatch_keeps (h : hubPromise .clkpairLatch s = some P) : ∃ t, exec .clkpairLatch s = .next t ∧ P t := by
  show ∃ t, execClkpairLatch s = .next t ∧ P t
  refine next_keeps h ?_
  unfold State.latchDue
  simp only [decide_eq_true_eq]
  rfl

/-! ### Power (R399-R401) and package reset (R402) -/

/-- What a grant does to one tile: it draws the issue cycles that the tile then skips. -/
def grantTile (s : State) (t : Nat) : State :=
  let (d, s) := draw s
  s.modPower fun p => { p with withheld := fput 0 p.withheld t (if d % 3200 = 0 then 0 else s.now + d % 3200) }

theorem grantTile_withholds (s : State) (t : Nat) : ∃ w d se, grantTile s t = { s with hub := { s.hub with power := { s.hub.power with withheld := fput 0 s.hub.power.withheld t w } }, draws := d, serial := se } ∧ w < s.now + 3200 := by
  obtain ⟨d, u, d1, d2, hdraw, hu⟩ : ∃ d u d1 d2, draw s = (d, u) ∧ u = { s with draws := d1, serial := d2 } := ⟨_, _, _, _, rfl, draw_next s⟩
  have hcycles : d % 3200 < 3200 := Nat.mod_lt _ (by decide)
  subst hu
  refine ⟨if d % 3200 = 0 then 0 else s.now + d % 3200, d1, d2, ?_, ?_⟩
  · unfold grantTile
    rw [hdraw]
    rfl
  · split <;> omega

theorem powerGrant_keeps {grants : List Nat} (h : hubPromise (.powerGrant grants) s = some P) : ∃ t, exec (.powerGrant grants) s = .next t ∧ P t := by
  show ∃ t, Host.Outcome.next ((List.range (min grants.length Config.tiles)).foldl grantTile (s.modPower fun p => { p with grants := grants })) = .next t ∧ P t
  obtain ⟨hgrants, hwithheld, hrest⟩ := powerGrant_fold (List.range (min grants.length Config.tiles)) (s.modPower fun p => { p with grants := grants }) grantTile grantTile_withholds
  refine next_keeps h ⟨hgrants, hwithheld, ?_⟩
  rw [hgrants]
  exact hrest

theorem powerLimit_keeps {watts : Nat} (h : hubPromise (.powerLimit watts) s = some P) : ∃ t, exec (.powerLimit watts) s = .next t ∧ P t := by
  show ∃ t, execPowerLimit watts s = .next t ∧ P t
  refine next_keeps h ?_
  simp only [Bool.and_eq_true, decide_eq_true_eq]
  rfl

theorem droop_keeps {tile cycles : Nat} (h : hubPromise (.droop tile cycles) s = some P) : ∃ t, exec (.droop tile cycles) s = .next t ∧ P t := by
  show ∃ t, execDroop tile cycles s = .next t ∧ P t
  unfold execDroop
  dsimp only
  rw [draw_next]
  exact next_keeps h ⟨_, Nat.min_le_right .., rfl⟩

theorem emergencyThrottleBegin_keeps (h : hubPromise .emergencyThrottleBegin s = some P) : ∃ t, exec .emergencyThrottleBegin s = .next t ∧ P t := by
  show ∃ t, execEmergencyThrottleBegin s = .next t ∧ P t
  refine next_keeps h ?_
  split
  next => rfl
  next => exact tell_fold ..

theorem emergencyThrottleEnd_keeps (h : hubPromise .emergencyThrottleEnd s = some P) : ∃ t, exec .emergencyThrottleEnd s = .next t ∧ P t := by
  show ∃ t, execEmergencyThrottleEnd s = .next t ∧ P t
  refine next_keeps h ?_
  split
  next => exact tell_fold ..
  next => rfl

theorem orderlyShutdown_keeps (h : hubPromise .orderlyShutdown s = some P) : ∃ t, exec .orderlyShutdown s = .next t ∧ P t := by
  show ∃ t, execOrderlyShutdown s = .next t ∧ P t
  unfold hubPromise at h
  unfold execOrderlyShutdown
  cases hoff : s.hub.power.offAt <;> simp only [hoff, Option.isSome_none, Option.isSome_some, if_true, Bool.false_eq_true, if_false] at h ⊢
  case none => exact next_keeps h (tell_fold ..)
  case some => exact next_keeps h rfl

theorem powerOff_keeps (h : hubPromise .powerOff s = some P) : ∃ t, exec .powerOff s = .next t ∧ P t := by
  show ∃ t, execPowerOff s = .next t ∧ P t
  unfold hubPromise at h
  unfold execPowerOff State.offDue
  cases hoff : s.hub.power.offAt <;> simp only [hoff, Option.any_none, Option.any_some, decide_eq_true_eq, Bool.false_eq_true, if_false] at h ⊢
  case none => exact next_keeps h rfl
  case some =>
    refine next_keeps h ?_
    rw [← hoff]
    rfl

theorem packageReset_keeps (h : hubPromise .packageReset s = some P) : ∃ t, exec .packageReset s = .next t ∧ P t := by
  show ∃ t, execPackageReset s = .next t ∧ P t
  refine next_keeps h ⟨rfl, rfl, fun hmem k => ?_⟩
  have hbytes : fwfFrom Mem.unlisted 0 s.mem.bytes = true := ((Bool.and_eq_true _ _).mp hmem).1
  refine (fget_filter Mem.unlisted (fun k => !isScratch k && spaceOf k != .hbm) s.mem.bytes 0 k hbytes).trans ?_
  by_cases hlost : isScratch k = true ∨ spaceOf k = .hbm
  · rw [if_pos hlost, if_neg]
    obtain hscratch | hhbm := hlost
    · simp [hscratch]
    · simp [hhbm]
  · obtain ⟨hscratch, hhbm⟩ := not_or.1 hlost
    rw [if_neg hlost, if_pos (by simp [hscratch, hhbm])]
    rfl

/-! ### The root of trust (R397, R398) -/

/-- A request that is answered after the negotiation is answered so, or objected to. -/
theorem afterNegotiation_keeps {ok : Bool} {allowed : Prop} [Decidable allowed] {code : Nat} {req : List Byte} (hok : ok = true ↔ allowed)
    (h : some (if 3 ≤ s.hub.trust.stage ∧ allowed then Responds code req s else Objects s) = some P) :
    ∃ t, (Host.Outcome.next (s.afterNegotiation ok code req) : Host.Outcome State Fault Refusal) = .next t ∧ P t := by
  unfold State.afterNegotiation
  simp only [Bool.and_eq_true, decide_eq_true_eq, hok]
  split
  next hready =>
    rw [if_pos hready] at h
    exact next_keeps h rfl
  next hready =>
    rw [if_neg hready] at h
    exact next_keeps h rfl

/-- A request that a condition of the connection decides is answered or objected to. -/
theorem respond_keeps {c : Prop} [Decidable c] {Q : State → Prop} {u : State} (h : some (if c then Q else Objects s) = some P) (hu : Q u) :
    ∃ t, (Host.Outcome.next (if c then u else s.spdmError) : Host.Outcome State Fault Refusal) = .next t ∧ P t := by
  split
  next hc =>
    rw [if_pos hc] at h
    exact next_keeps h hu
  next hc =>
    rw [if_neg hc] at h
    exact next_keeps h rfl

theorem getMeasurements_keeps {index : Nat} {sign : Bool} {nonce : List Byte} (h : trustPromise (.getMeasurements index sign nonce) s = some P) :
    ∃ t, exec (.getMeasurements index sign nonce) s = .next t ∧ P t :=
  afterNegotiation_keeps (by simp [or_assoc]) h

theorem endSession_keeps (h : trustPromise .endSession s = some P) : ∃ t, exec .endSession s = .next t ∧ P t := by
  show ∃ t, execEndSession s = .next t ∧ P t
  unfold trustPromise at h
  unfold execEndSession
  by_cases hopen : s.hub.trust.session <;> simp only [hopen, if_true, Bool.false_eq_true, if_false] at h ⊢
  case pos => exact next_keeps h ⟨_, rfl, rfl⟩
  case neg => exact next_keeps h rfl

end

end Sys2Proof.Machine

open Sys2Proof Sys2Proof.Machine

/-- Settles O57, by the instruction: each event of the hub and each request to the root of trust has its lemma above, and every other instruction promises nothing here. -/
theorem hubEvents : Obligations.HubEvents := by
  constructor
  case left =>
    intro i s P h
    cases i
    case ptpEventMessage => exact ptpEventMessage_keeps h
    case clockLock => exact clockLock_keeps h
    case holdover => exact holdover_keeps h
    case clkpairLatch => exact clkpairLatch_keeps h
    case powerGrant => exact powerGrant_keeps h
    case powerLimit => exact powerLimit_keeps h
    case droop => exact droop_keeps h
    case emergencyThrottleBegin => exact emergencyThrottleBegin_keeps h
    case emergencyThrottleEnd => exact emergencyThrottleEnd_keeps h
    case orderlyShutdown => exact orderlyShutdown_keeps h
    case powerOff => exact powerOff_keeps h
    case packageReset => exact packageReset_keeps h
    all_goals cases h
  case right =>
    intro i s P h
    cases i
    case getVersion => exact next_keeps h rfl
    case getCapabilities => exact respond_keeps h rfl
    case negotiateAlgorithms => exact respond_keeps h rfl
    case getDigests => exact afterNegotiation_keeps (allowed := True) (by simp) (by simpa [trustPromise] using h)
    case getCertificate => exact afterNegotiation_keeps beq_iff_eq h
    case challenge => exact afterNegotiation_keeps beq_iff_eq h
    case getMeasurements => exact getMeasurements_keeps h
    case keyExchange => exact respond_keeps h rfl
    case finish => exact respond_keeps h rfl
    case endSession => exact endSession_keeps h
    all_goals cases h

end

section
/-! PROOFS. System calls and the two sides of a migration (O58). -/

namespace Sys2Proof.Machine

section
variable {s : State} {ctx : Nat} {id : Dword} {perform : Int → State → Prop}

/-! ### What performing a call gives (Table 17-3) -/

theorem callLaunch_performs {record : Nat} (h : performRule (.launchCall ctx id record) s = some perform) :
    perform (s.callLaunch ctx record).1 (s.callLaunch ctx record).2 := by
  unfold performRule at h
  cases h
  unfold State.callLaunch
  simp only [bne_iff_ne]
  split
  next => exact ⟨rfl, rfl⟩
  rcases s.readRecord ctx record Need.rw 2 with c | bs <;> dsimp only
  case error => exact ⟨rfl, rfl⟩
  rcases s.startGrid ctx record bs none with ⟨c | n, w⟩ <;> dsimp only
  case error => exact ⟨rfl, rfl⟩
  case ok => exact ⟨rfl, modProc_changes w ctx _ fun _ => rfl⟩

theorem callLaunchwait_performs {handle : Dword} (h : performRule (.launchwait ctx id handle) s = some perform) :
    perform (s.callLaunchwait ctx handle.toNat) s := by
  unfold performRule at h
  cases h
  refine ⟨rfl, ?_⟩
  unfold State.callLaunchwait
  rcases hfind : (s.proc ctx).handles.find? (fun h => h.1 == handle.toNat) with _ | x <;> simp only [hfind]

theorem callLog_performs {va len : Nat} (h : performRule (.logCall ctx id va len) s = some perform) :
    perform (s.callLog ctx va len).1 (s.callLog ctx va len).2 := by
  unfold performRule at h
  cases h
  unfold State.callLog
  split
  next hok =>
    obtain ⟨htranslated, hkeys⟩ := hok
    rw [if_neg (by simp only [htranslated, all_keys.2 hkeys, Bool.not_true, Bool.or_self, Bool.false_eq_true, not_false_eq_true])]
    exact ⟨rfl, modProc_changes s ctx _ fun _ => rfl⟩
  next hbad =>
    rw [if_pos]
    · exact ⟨rfl, rfl⟩
    by_contra hc
    rw [Bool.not_eq_true, Bool.or_eq_false_iff, Bool.not_eq_false', all_keys] at hc
    exact hbad hc

/-- Mapping one page whose tables are there writes its entry. -/
theorem mapPages_one {w : State} {root va attr f e : Nat} (hmap : s.mapPages root va attr 1 [f] = some w) (hentry : entryOf s.mem va 3 root = some e) :
    Stored e ((toBytes 8 (attr * 2 ^ 48 + f + 2)).map (·, false)) s w := by
  unfold State.mapPages at hmap
  rw [tableFor_entry s va 3 root e [f] hentry] at hmap
  dsimp only at hmap
  split at hmap
  next => cases hmap
  next =>
    cases hmap
    exact stored ..

theorem tagAllowed_iff {attr tag : Nat} : (!tagAllowed attr tag) = true ↔ attr % 256 ≠ 0 ∧ attr % 256 ≠ tag := by
  simp [tagAllowed]

theorem unmapBad_iff {c : Ctx} {va pages : Nat} :
    (va % 4096 != 0 || decide (pages = 0) || !isTranslated (va + 4096 * pages - 1) || !bit c.root.toNat 0) = true ↔ ¬c.pagesOk va pages := by
  simp only [Ctx.pagesOk, Bool.or_eq_true, bne_iff_ne, decide_eq_true_eq, Bool.not_eq_true', not_and_or, Bool.not_eq_true, or_assoc, ne_eq, not_not]

theorem mapBad_iff {c : Ctx} {va pages a : Nat} :
    (va % 4096 != 0 || decide (pages = 0) || !isTranslated (va + 4096 * pages - 1) || decide (2 ^ 16 ≤ a) || !bit a 15 || bit a 8 || !bit c.root.toNat 0) = true ↔
      ¬c.pagesOk va pages ∨ 2 ^ 16 ≤ a ∨ bit a 15 = false ∨ bit a 8 = true := by
  rw [← unmapBad_iff]
  simp only [Bool.or_eq_true, decide_eq_true_eq, Bool.not_eq_true']
  tauto

theorem callMap_performs {va pages : Nat} {attr : Dword} {frames : List Nat} (h : performRule (.mapCall ctx id va pages attr frames) s = some perform) :
    perform (s.callMap ctx va pages attr frames).1 (s.callMap ctx va pages attr frames).2 := by
  unfold performRule at h
  cases h
  unfold State.callMap
  rcases s.ctx? ctx with _ | c <;> dsimp only
  case none => exact ⟨rfl, rfl⟩
  simp only [mapBad_iff]
  split
  next => exact ⟨rfl, rfl⟩
  simp only [Bool.or_eq_true, tagAllowed_iff, List.any_eq_true]
  split
  next => exact ⟨rfl, rfl⟩
  rcases hmap : s.mapPages (bits c.root.toNat 47 12 * 4096) va attr.toNat pages frames with _ | w <;> dsimp only
  case none => exact ⟨rfl, rfl⟩
  refine ⟨rfl, rfl, fun e f hone hframe hentry => mapPages_one ?_ hentry⟩
  rw [← hone, ← hframe]
  exact hmap

theorem callUnmap_performs {va pages : Nat} (h : performRule (.unmap ctx id va pages) s = some perform) :
    perform (s.callUnmap ctx va pages).1 (s.callUnmap ctx va pages).2 := by
  unfold performRule at h
  cases h
  unfold State.callUnmap
  rcases s.ctx? ctx with _ | c <;> dsimp only
  case none => exact ⟨rfl, rfl⟩
  simp only [unmapBad_iff]
  split
  next => exact ⟨rfl, rfl⟩
  next => exact ⟨rfl, unmap_fold _ (fun i => va + 4096 * i) (List.range pages) s⟩

theorem callQdestroy_performs {handle : Dword} (h : performRule (.qdestroy ctx id handle) s = some perform) :
    perform (s.callQdestroy ctx handle).1 (s.callQdestroy ctx handle).2 := by
  unfold performRule at h
  cases h
  unfold State.callQdestroy
  dsimp only
  split
  next hown =>
    obtain ⟨hword, hqueue⟩ := hown
    rw [if_neg (by simpa [hqueue] using hword)]
    exact ⟨rfl, _, modProc_changes s ctx _ fun _ => rfl, rfl⟩
  next hother =>
    rw [if_pos]
    · exact ⟨rfl, rfl⟩
    by_contra hc
    rw [Bool.not_eq_true, Bool.or_eq_false_iff] at hc
    obtain ⟨hqueue, hword⟩ := hc
    exact hother ⟨by simpa using hword, by simpa using hqueue⟩

/-- The first multiple of a period after a time. -/
theorem nextSlot_spec (t : Nat) {period : Nat} (hp : period ≠ 0) :
    t < (t / (1000 * period) + 1) * (1000 * period) ∧ (t / (1000 * period) + 1) * (1000 * period) ≤ t + 1000 * period ∧ (t / (1000 * period) + 1) * (1000 * period) % (1000 * period) = 0 := by
  have hpos : 0 < 1000 * period := by omega
  refine ⟨?_, ?_, Nat.mul_mod_left ..⟩
  · rw [Nat.mul_comm]
    exact Nat.lt_mul_div_succ t hpos
  · rw [Nat.add_mul, Nat.one_mul]
    exact Nat.add_le_add_right (Nat.div_mul_le_self ..) _

theorem callTimetable_performs {entry : Nat} {hi lo : Dword} (h : performRule (.timetableCall ctx id entry hi lo) s = some perform) :
    perform (s.callTimetable ctx entry hi lo).1 (s.callTimetable ctx entry hi lo).2 := by
  unfold performRule at h
  cases h
  unfold State.callTimetable
  dsimp only
  simp only [Bool.or_eq_true, Bool.and_eq_true, bne_iff_ne, decide_eq_true_eq, Bool.not_eq_true', Bool.not_eq_true, or_assoc, ne_eq]
  split
  next => exact ⟨rfl, rfl⟩
  split
  next => exact ⟨rfl, rfl⟩
  split
  next => exact ⟨rfl, rfl⟩
  split
  next => exact ⟨rfl, rfl⟩
  next hgood =>
    have hperiod : _ ≠ 0 := fun hzero => hgood (Or.inr (Or.inl hzero))
    obtain ⟨hlater, hsoon, hmultiple⟩ := nextSlot_spec s.deviceTime hperiod
    exact ⟨rfl, _, hlater, hsoon, hmultiple, rfl⟩

theorem loadBad_iff {va len : Nat} : ((s.ctx? ctx).isNone || va % 4096 != 0 || !isTranslated (va + len) || (List.range len).any fun i => (s.keyOf Config.tiles ctx (va + i)).isNone) = true ↔
    ¬((s.ctx? ctx).isSome = true ∧ va % 4096 = 0 ∧ isTranslated (va + len) = true ∧ ∀ i < len, (s.keyOf Config.tiles ctx (va + i)).isSome = true) := by
  rw [← all_keys, ← Bool.not_eq_false]
  simp only [Bool.or_eq_false_iff, Bool.not_eq_false', bne_eq_false_iff_eq, Option.isNone_eq_false_iff, and_assoc]

theorem callLoadpkg_performs {args : List Dword} (h : performRule (.loadpkg ctx id args) s = some perform) :
    perform (s.callLoadpkg ctx args).1 (s.callLoadpkg ctx args).2 := by
  unfold performRule at h
  cases h
  unfold State.callLoadpkg
  dsimp only
  split
  next hok =>
    rw [if_neg fun hbad => loadBad_iff.1 hbad hok]
    rcases parsePackage (s.peek Config.tiles ctx (args.getD 0 0).toNat (args.getD 1 0).toNat) with _ | ⟨ks, fcount⟩ <;> dsimp only
    case none => exact ⟨rfl, rfl⟩
    case some => exact ⟨_, rfl, rfl, modProc_changes _ ctx _ fun _ => rfl⟩
  next hbad =>
    rw [if_pos (loadBad_iff.2 hbad)]
    exact ⟨rfl, rfl⟩

theorem callBindthread_performs {thread : Nat} (h : performRule (.bindthread ctx id thread) s = some perform) :
    perform (s.callBindthread ctx thread).1 (s.callBindthread ctx thread).2 := by
  unfold performRule at h
  cases h
  unfold State.callBindthread
  rcases hctx : s.ctx? ctx with _ | c <;> simp only [Option.isNone_none, Option.isNone_some, Bool.or_true, Bool.or_false, if_true]
  case none => exact ⟨trivial, trivial⟩
  simp only [Bool.or_eq_true, decide_eq_true_eq, List.any_eq_true, Bool.and_eq_true, bne_iff_ne, List.contains_iff_mem, ne_eq]
  split
  next => exact ⟨rfl, rfl⟩
  split
  next => exact ⟨rfl, rfl⟩
  next =>
    have hproc := modProc_changes s ctx (fun p => { p with threads := if thread ∈ p.threads then p.threads else p.threads ++ [thread] }) fun _ => rfl
    have hsame (k : Nat) : (s.modProc ctx fun p => { p with threads := if thread ∈ p.threads then p.threads else p.threads ++ [thread] }).ctx? k = s.ctx? k := by
      rw [hproc.rest]
      rfl
    exact ⟨rfl, _, hproc, fun k hk => (modCtx_ctx?_of_ne hk).trans (hsame k), modCtx_ctx?_self ((hsame ctx).trans hctx), rfl⟩

theorem callQcreate_performs {kind : Nat} {args : List Dword} (h : performRule (.qcreate ctx id kind args) s = some perform) :
    perform (s.callQcreate ctx kind args).1 (s.callQcreate ctx kind args).2 := by
  unfold performRule at h
  cases h
  unfold State.callQcreate State.ownQueue
  dsimp only
  split
  next =>
    simp only [if_true, Bool.or_eq_true, decide_eq_true_eq, or_assoc]
    split
    next => exact ⟨rfl, rfl⟩
    split
    next => exact ⟨rfl, rfl⟩
    split
    next => exact ⟨rfl, modProc_changes _ ctx _ fun _ => rfl⟩
    next => exact ⟨rfl, rfl⟩
  next =>
    have hzero : ¬(1 : Nat) = 0 := by decide
    rw [if_neg hzero, if_pos (rfl : (1 : Nat) = 1)]
    rcases s.ctx? ctx with _ | c <;> dsimp only
    case none => exact ⟨rfl, rfl⟩
    rcases fget 0 c.rights ((args.getD 1 0).toNat % 64) with _ | g <;> dsimp only
    case zero => exact ⟨rfl, rfl⟩
    case succ => exact ⟨rfl, modProc_changes _ ctx _ fun _ => rfl⟩
  next =>
    have hzero : ¬(2 : Nat) = 0 := by decide
    have hone : ¬(2 : Nat) = 1 := by decide
    rw [if_neg hzero, if_neg hone, if_pos (rfl : (2 : Nat) = 2)]
    simp only [Bool.or_eq_true, decide_eq_true_eq, bne_iff_ne, Bool.not_eq_true', or_assoc]
    split
    next => exact ⟨rfl, rfl⟩
    split
    next => exact ⟨rfl, rfl⟩
    next => exact ⟨rfl, modProc_changes _ ctx _ fun _ => rfl⟩
  next h0 h1 h2 =>
    rw [if_neg h0, if_neg h1, if_neg h2]
    exact ⟨rfl, rfl⟩

/-! ### Calls served at most once (R372, R373) -/

theorem nullCall_performs (h : performRule (.nullCall ctx id) s = some perform) : perform 0 s := by
  unfold performRule at h
  cases h
  exact ⟨rfl, rfl⟩

theorem timeCall_performs (h : performRule (.timeCall ctx id) s = some perform) : perform s.deviceTime s := by
  unfold performRule at h
  cases h
  exact ⟨rfl, rfl⟩

/-- An instruction that serves a call by what performs it. -/
theorem next_serves {i : Instr} {once : Bool} {f : State → Int × State} (hexec : exec i s = .next (s.call ctx id once f)) (hf : perform (f s).1 (f s).2) :
    ∃ t, exec i s = .next t ∧ Serves ctx id once perform s t :=
  ⟨_, hexec, call_serves s ctx id once f perform hf⟩

/-- A call is served: performed as its rule says, or answered from the cache. -/
theorem call_served {i : Instr} {once : Bool} (hcall : callOf i = some (ctx, id, once)) (h : performRule i s = some perform) :
    ∃ t, exec i s = .next t ∧ Serves ctx id once perform s t := by
  cases i
  all_goals cases hcall
  case nullCall => exact next_serves rfl (nullCall_performs h)
  case timeCall => exact next_serves rfl (timeCall_performs h)
  case launchCall => exact next_serves rfl (callLaunch_performs h)
  case launchwait => exact next_serves rfl (callLaunchwait_performs h)
  case logCall => exact next_serves rfl (callLog_performs h)
  case mapCall => exact next_serves rfl (callMap_performs h)
  case unmap => exact next_serves rfl (callUnmap_performs h)
  case qcreate => exact next_serves rfl (callQcreate_performs h)
  case qdestroy => exact next_serves rfl (callQdestroy_performs h)
  case bindthread => exact next_serves rfl (callBindthread_performs h)
  case timetableCall => exact next_serves rfl (callTimetable_performs h)
  case loadpkg => exact next_serves rfl (callLoadpkg_performs h)

/-! ### Processes that end or move (R371, R380) -/

variable {P : State → Prop}

theorem exitCall_keeps {code : Dword} (h : processPromise (.exitCall ctx id code) s = some P) : ∃ t, exec (.exitCall ctx id code) s = .next t ∧ P t := by
  refine next_keeps h ?_
  unfold State.exitCall
  dsimp only
  simp only [Bool.or_eq_true]
  split
  next => rfl
  split
  next => rfl
  next => exact ⟨_, endQueues_fold .., modProc_changes _ ctx _ fun _ => rfl⟩

theorem migrate_keeps {target : Dword} (h : processPromise (.migrate ctx id target) s = some P) : ∃ t, exec (.migrate ctx id target) s = .next t ∧ P t := by
  refine next_keeps h ?_
  unfold State.migrateCall
  dsimp only
  simp only [Bool.or_eq_true, decide_eq_true_eq, or_assoc]
  split
  next => rfl
  split
  next => exact call_serves _ _ _ _ _ _ ⟨rfl, rfl⟩
  next => exact ⟨_, rfl, modProc_changes _ ctx _ fun _ => rfl⟩

theorem migrationStream_keeps {image : List Byte} (h : processPromise (.migrationStream ctx image) s = some P) :
    ∃ t, exec (.migrationStream ctx image) s = .next t ∧ P t := by
  show ∃ t, execMigrationStream ctx image s = .next t ∧ P t
  unfold execMigrationStream
  cases hok : imageOk image <;> simp only [Bool.not_true, Bool.not_false, Bool.false_eq_true, if_true, if_false]
  case false => exact next_keeps h (by rw [if_pos hok])
  case true =>
    refine next_keeps h ?_
    rw [if_neg (by simp [hok])]
    exact ⟨_, rfl, modProc_changes _ ctx _ fun _ => rfl⟩

theorem resumptionConfirmed_keeps (h : processPromise (.resumptionConfirmed ctx) s = some P) : ∃ t, exec (.resumptionConfirmed ctx) s = .next t ∧ P t := by
  show ∃ t, execResumptionConfirmed ctx s = .next t ∧ P t
  refine next_keeps h ?_
  cases hfrozen : s.frozen ctx
  case false => rw [if_pos rfl, if_neg Bool.false_ne_true]
  case true =>
    rw [if_neg (by decide), if_pos rfl]
    exact ⟨_, rfl, rfl⟩

end

end Sys2Proof.Machine

open Sys2Proof Sys2Proof.Machine

/-- Settles O58: what each call's performing gives is proved above, and the layer that answers calls serves any of them by that. -/
theorem callEvents : Obligations.CallEvents := by
  constructor
  case left => exact fun i s ctx id once perform hcall h => call_served hcall h
  case right =>
    intro i s P h
    cases i
    case exitCall => exact exitCall_keeps h
    case migrate => exact migrate_keeps h
    case migrationStream => exact migrationStream_keeps h
    case resumptionConfirmed => exact resumptionConfirmed_keeps h
    all_goals cases h

end
